-- ==== Sys2Proof/Word.lean ====
section
/-! DEFINITION. The word types of the Hydiah W84 and their plainest arithmetic (R4). -/

namespace Sys2Proof

/-- A 32-bit register, instruction or memory word. -/
abbrev Word := BitVec 32

/-- One byte of memory (R4). -/
abbrev Byte := BitVec 8

/-- A 64-bit value: an even-odd register pair, an address, a program counter. -/
abbrev DWord := BitVec 64

/-- The low half of a 64-bit value: what an even register of a pair holds (R4). -/
abbrev DWord.lo (x : DWord) : Word := x.extractLsb' 0 32

/-- The high half of a 64-bit value: what an odd register of a pair holds (R4). -/
abbrev DWord.hi (x : DWord) : Word := x.extractLsb' 32 32

/-- The pair `hi:lo` as one 64-bit value (R4). -/
abbrev pair (lo hi : Word) : DWord := hi ++ lo

end Sys2Proof
end

