-- ==== Sys2Proof/Types.lean ====
section
/-! DEFINITION. The names the whole model shares: format tags (R75), registers (R7), agents, scopes (R6). -/

namespace Sys2Proof

/-- A format tag of a v-register (R75), in the order of its values 0x0 to 0xF. -/
inductive Tag where
  | raw | i32 | n32 | f32 | f16x2 | bf16x2 | i64 | n64
  | x8 | f8e4 | f8e5 | f6e2 | f6e3 | f4e2 | q4 | q8
  deriving DecidableEq, Repr, Inhabited

/-- A register of a thread or a bobbin, as an instruction word names it (R7, R35). -/
inductive Reg where
  /-- v0 to v63 of a thread. -/
  | v (i : BitVec 6)
  /-- s0 to s15 of a thread or a bobbin. -/
  | s (i : BitVec 4)
  /-- k0 to k7 of a thread. -/
  | k (i : BitVec 3)
  deriving DecidableEq, Repr

/-- An agent that executes instructions: a thread of a resident block, or a bobbin of a core.
`bid` is the model's own number of a resident block; `core` is a logical core name (R18). -/
inductive Agent where
  | thread (bid tid : Nat)
  | bobbin (core b : Nat)
  deriving DecidableEq, Repr

/-- A v-register: 32 bits with their format tag (R7, R76). s-registers and k-flags use tag raw. -/
structure VReg where
  val : Word := 0
  tag : Tag := .raw
  deriving DecidableEq, Repr, Inhabited

/-- A scope (R6). -/
inductive Scope where
  | blk | clu | dom | waf | sys
  deriving DecidableEq, Repr

end Sys2Proof
end

