-- ==== Sys2Proof/Syntax.lean ====
section
/-! DEFINITION. The abstract syntax: one constructor per row of spec/opcode_table.json. A word instruction's operands are
the fields of its encoding, under the names the table gives them (`d`, `a`, `b`, `c` registers; `k` a k-flag; `i` an
immediate; `o` an offset; `e` a scope or the cvt element; `g` a guard with its flag `x`; `q` the Q bit; `n` the stall count).
An event row has no encoding (spec/95_what_each_step_holds.md): its arguments say which occurrence it is. -/

namespace Sys2Proof

/-- Every opcode and every event of spec/opcode_table.json. -/
inductive Instr where
  /-- VADD_I32 (R106). Adds va and vb modulo 2^32 and writes vd tagged i32. -/
  | vaddI32 (d : BitVec 6) (a : BitVec 6) (b : BitVec 6) (n : BitVec 3)
  /-- VADD_I32_SAT (R106). Adds va and vb as signed values with saturation and writes vd tagged i32. -/
  | vaddI32Sat (d : BitVec 6) (a : BitVec 6) (b : BitVec 6) (n : BitVec 3)
  /-- VADD_N32_SAT (R106). Adds va and vb as unsigned values with saturation and writes vd tagged n32. -/
  | vaddN32Sat (d : BitVec 6) (a : BitVec 6) (b : BitVec 6) (n : BitVec 3)
  /-- VSUB_I32 (R106). Subtracts vb from va modulo 2^32 and writes vd. -/
  | vsubI32 (d : BitVec 6) (a : BitVec 6) (b : BitVec 6) (n : BitVec 3)
  /-- VSUB_I32_SAT (R106). Subtracts vb from va as signed values with saturation. -/
  | vsubI32Sat (d : BitVec 6) (a : BitVec 6) (b : BitVec 6) (n : BitVec 3)
  /-- VSUB_N32_SAT (R106). Subtracts vb from va as unsigned values with saturation. -/
  | vsubN32Sat (d : BitVec 6) (a : BitVec 6) (b : BitVec 6) (n : BitVec 3)
  /-- VADDC (R106). Adds va, vb and the carry flag k[kc], then writes the sum to vd and the carry out to k[kc]. -/
  | vaddc (d : BitVec 6) (a : BitVec 6) (b : BitVec 6) (k : BitVec 3) (n : BitVec 3)
  /-- VSUBB (R106). Subtracts vb and the borrow flag k[kc] from va, then writes the difference to vd and the borrow out to k[kc]. -/
  | vsubb (d : BitVec 6) (a : BitVec 6) (b : BitVec 6) (k : BitVec 3) (n : BitVec 3)
  /-- VMUL_I32 (R107). Writes the low 32 bits of va times vb. -/
  | vmulI32 (d : BitVec 6) (a : BitVec 6) (b : BitVec 6) (n : BitVec 3)
  /-- VMULHI_I32 (R107). Writes the high 32 bits of the signed product of va and vb. -/
  | vmulhiI32 (d : BitVec 6) (a : BitVec 6) (b : BitVec 6) (n : BitVec 3)
  /-- VMULHI_N32 (R107). Writes the high 32 bits of the unsigned product of va and vb. -/
  | vmulhiN32 (d : BitVec 6) (a : BitVec 6) (b : BitVec 6) (n : BitVec 3)
  /-- VMAD_I32 (R107). Writes va times vb plus vc, modulo 2^32. -/
  | vmadI32 (d : BitVec 6) (a : BitVec 6) (b : BitVec 6) (c : BitVec 3) (n : BitVec 3)
  /-- VMADW_I32 (R107). Writes the signed 64-bit value va times vb plus the pair vc to the pair vd. -/
  | vmadwI32 (d : BitVec 6) (a : BitVec 6) (b : BitVec 6) (c : BitVec 3) (n : BitVec 3)
  /-- VMADW_N32 (R107). Writes the unsigned 64-bit value va times vb plus the pair vc to the pair vd. -/
  | vmadwN32 (d : BitVec 6) (a : BitVec 6) (b : BitVec 6) (c : BitVec 3) (n : BitVec 3)
  /-- VMIN_I32 (R109). Writes the signed minimum of va and vb. -/
  | vminI32 (d : BitVec 6) (a : BitVec 6) (b : BitVec 6) (n : BitVec 3)
  /-- VMIN_N32 (R109). Writes the unsigned minimum of va and vb. -/
  | vminN32 (d : BitVec 6) (a : BitVec 6) (b : BitVec 6) (n : BitVec 3)
  /-- VMAX_I32 (R109). Writes the signed maximum of va and vb. -/
  | vmaxI32 (d : BitVec 6) (a : BitVec 6) (b : BitVec 6) (n : BitVec 3)
  /-- VMAX_N32 (R109). Writes the unsigned maximum of va and vb. -/
  | vmaxN32 (d : BitVec 6) (a : BitVec 6) (b : BitVec 6) (n : BitVec 3)
  /-- VSHL_B32 (R110). Shifts va left by vb; a shift of 32 or more gives 0. -/
  | vshlB32 (d : BitVec 6) (a : BitVec 6) (b : BitVec 6) (n : BitVec 3)
  /-- VSHR_N32 (R110). Shifts va right logically by vb. -/
  | vshrN32 (d : BitVec 6) (a : BitVec 6) (b : BitVec 6) (n : BitVec 3)
  /-- VSHR_I32 (R110). Shifts va right arithmetically by vb, with the amount clamped to 31. -/
  | vshrI32 (d : BitVec 6) (a : BitVec 6) (b : BitVec 6) (n : BitVec 3)
  /-- VROTL_B32 (R110). Rotates va left by vb[4:0]. -/
  | vrotlB32 (d : BitVec 6) (a : BitVec 6) (b : BitVec 6) (n : BitVec 3)
  /-- VROTR_B32 (R110). Rotates va right by vb[4:0]. -/
  | vrotrB32 (d : BitVec 6) (a : BitVec 6) (b : BitVec 6) (n : BitVec 3)
  /-- VBFE_N32 (R111). Extracts a bit field of va, zero-extended, using the position and length in vb. -/
  | vbfeN32 (d : BitVec 6) (a : BitVec 6) (b : BitVec 6) (n : BitVec 3)
  /-- VBFE_I32 (R111). Extracts a bit field of va, sign-extended, using the position and length in vb. -/
  | vbfeI32 (d : BitVec 6) (a : BitVec 6) (b : BitVec 6) (n : BitVec 3)
  /-- VBFI_B32 (R111). Inserts the low bits of va into vc at the field given by vb, and writes the result to vd. -/
  | vbfiB32 (d : BitVec 6) (a : BitVec 6) (b : BitVec 6) (c : BitVec 3) (n : BitVec 3)
  /-- VPOPC_B32 (R111). Writes the number of 1 bits in va. -/
  | vpopcB32 (d : BitVec 6) (a : BitVec 6) (n : BitVec 3)
  /-- VCLZ_B32 (R111). Writes the number of leading zero bits of va. -/
  | vclzB32 (d : BitVec 6) (a : BitVec 6) (n : BitVec 3)
  /-- VBREV_B32 (R111). Writes va with its bit order reversed. -/
  | vbrevB32 (d : BitVec 6) (a : BitVec 6) (n : BitVec 3)
  /-- VPERM_B32 (R112). Builds each byte of vd from the pool va:vb, using the old vd as selector. -/
  | vpermB32 (d : BitVec 6) (a : BitVec 6) (b : BitVec 6) (n : BitVec 3)
  /-- VDP4_I8 (R108). Writes the signed 4-byte dot product of va and vb plus vc. -/
  | vdp4I8 (d : BitVec 6) (a : BitVec 6) (b : BitVec 6) (c : BitVec 3) (n : BitVec 3)
  /-- VDP4_N8 (R108). Writes the unsigned 4-byte dot product of va and vb plus vc. -/
  | vdp4N8 (d : BitVec 6) (a : BitVec 6) (b : BitVec 6) (c : BitVec 3) (n : BitVec 3)
  /-- VSAD_N8 (R108). Writes the sum of absolute byte differences of va and vb, plus vc. -/
  | vsadN8 (d : BitVec 6) (a : BitVec 6) (b : BitVec 6) (c : BitVec 3) (n : BitVec 3)
  /-- VAND_B32 (R113). Writes va AND vb. -/
  | vandB32 (d : BitVec 6) (a : BitVec 6) (b : BitVec 6) (n : BitVec 3)
  /-- VOR_B32 (R113). Writes va OR vb. -/
  | vorB32 (d : BitVec 6) (a : BitVec 6) (b : BitVec 6) (n : BitVec 3)
  /-- VXOR_B32 (R113). Writes va XOR vb. -/
  | vxorB32 (d : BitVec 6) (a : BitVec 6) (b : BitVec 6) (n : BitVec 3)
  /-- VANDN_B32 (R113). Writes va AND NOT vb. -/
  | vandnB32 (d : BitVec 6) (a : BitVec 6) (b : BitVec 6) (n : BitVec 3)
  /-- VNOT_B32 (R113). Writes NOT va. -/
  | vnotB32 (d : BitVec 6) (a : BitVec 6) (n : BitVec 3)
  /-- VCMP_EQ_I32 (R114). Sets kd when va equals vb. -/
  | vcmpEqI32 (d : BitVec 3) (a : BitVec 6) (b : BitVec 6) (n : BitVec 3)
  /-- VCMP_NE_I32 (R114). Sets kd when va differs from vb. -/
  | vcmpNeI32 (d : BitVec 3) (a : BitVec 6) (b : BitVec 6) (n : BitVec 3)
  /-- VCMP_LT_I32 (R114). Sets kd when va is less than vb, compared as signed. -/
  | vcmpLtI32 (d : BitVec 3) (a : BitVec 6) (b : BitVec 6) (n : BitVec 3)
  /-- VCMP_LE_I32 (R114). Sets kd when va is at most vb, compared as signed. -/
  | vcmpLeI32 (d : BitVec 3) (a : BitVec 6) (b : BitVec 6) (n : BitVec 3)
  /-- VCMP_GT_I32 (R114). Sets kd when va is greater than vb, compared as signed. -/
  | vcmpGtI32 (d : BitVec 3) (a : BitVec 6) (b : BitVec 6) (n : BitVec 3)
  /-- VCMP_GE_I32 (R114). Sets kd when va is at least vb, compared as signed. -/
  | vcmpGeI32 (d : BitVec 3) (a : BitVec 6) (b : BitVec 6) (n : BitVec 3)
  /-- VCMP_LT_N32 (R114). Sets kd when va is less than vb, compared as unsigned. -/
  | vcmpLtN32 (d : BitVec 3) (a : BitVec 6) (b : BitVec 6) (n : BitVec 3)
  /-- VCMP_LE_N32 (R114). Sets kd when va is at most vb, compared as unsigned. -/
  | vcmpLeN32 (d : BitVec 3) (a : BitVec 6) (b : BitVec 6) (n : BitVec 3)
  /-- VCMP_GT_N32 (R114). Sets kd when va is greater than vb, compared as unsigned. -/
  | vcmpGtN32 (d : BitVec 3) (a : BitVec 6) (b : BitVec 6) (n : BitVec 3)
  /-- VCMP_GE_N32 (R114). Sets kd when va is at least vb, compared as unsigned. -/
  | vcmpGeN32 (d : BitVec 3) (a : BitVec 6) (b : BitVec 6) (n : BitVec 3)
  /-- VSEL_B32 (R115). Writes va when k[kc] is 1 and vb otherwise, together with the tag of the value selected. -/
  | vselB32 (d : BitVec 6) (a : BitVec 6) (b : BitVec 6) (k : BitVec 3) (n : BitVec 3)
  /-- KAND (R115). Sets kd to ka AND kb. -/
  | kand (d : BitVec 3) (a : BitVec 3) (b : BitVec 3) (n : BitVec 3)
  /-- KOR (R115). Sets kd to ka OR kb. -/
  | kor (d : BitVec 3) (a : BitVec 3) (b : BitVec 3) (n : BitVec 3)
  /-- KXOR (R115). Sets kd to ka XOR kb. -/
  | kxor (d : BitVec 3) (a : BitVec 3) (b : BitVec 3) (n : BitVec 3)
  /-- KANDN (R115). Sets kd to ka AND NOT kb. -/
  | kandn (d : BitVec 3) (a : BitVec 3) (b : BitVec 3) (n : BitVec 3)
  /-- KNOT (R115). Sets kd to NOT ka. -/
  | knot (d : BitVec 3) (a : BitVec 3) (n : BitVec 3)
  /-- KMOV (R115). Copies ka to kd. -/
  | kmov (d : BitVec 3) (a : BitVec 3) (n : BitVec 3)
  /-- VMOV_B32 (R116). Copies va and its tag to vd. -/
  | vmovB32 (d : BitVec 6) (a : BitVec 6) (n : BitVec 3)
  /-- VMOVS_B32 (R116). Copies s-register sa to vd and tags it raw. -/
  | vmovsB32 (d : BitVec 6) (a : BitVec 4) (n : BitVec 3)
  /-- VGET_B32 (R117). Borrows register va of the thread named by vb (a register loan) and writes it to vd when the loan completes. -/
  | vgetB32 (d : BitVec 6) (a : BitVec 6) (b : BitVec 6) (n : BitVec 3)
  /-- VKRD (R115). Writes k0-k7 into vd as a byte. -/
  | vkrd (d : BitVec 6) (n : BitVec 3)
  /-- VKWR (R115). Writes the k-flags that vb selects from the bits of va. -/
  | vkwr (a : BitVec 6) (b : BitVec 6) (n : BitVec 3)
  /-- VADDI_I32 (R106). Adds the sign-extended imm9 to va. -/
  | vaddiI32 (d : BitVec 6) (a : BitVec 6) (i : BitVec 9) (n : BitVec 3)
  /-- VANDI_B32 (R113). Writes va AND the zero-extended imm9. -/
  | vandiB32 (d : BitVec 6) (a : BitVec 6) (i : BitVec 9) (n : BitVec 3)
  /-- VORI_B32 (R113). Writes va OR the zero-extended imm9. -/
  | voriB32 (d : BitVec 6) (a : BitVec 6) (i : BitVec 9) (n : BitVec 3)
  /-- VXORI_B32 (R113). Writes va XOR the zero-extended imm9. -/
  | vxoriB32 (d : BitVec 6) (a : BitVec 6) (i : BitVec 9) (n : BitVec 3)
  /-- VSHLI_B32 (R110). Shifts va left by an immediate amount. -/
  | vshliB32 (d : BitVec 6) (a : BitVec 6) (i : BitVec 5) (n : BitVec 3)
  /-- VSHRI_N32 (R110). Shifts va right logically by an immediate amount. -/
  | vshriN32 (d : BitVec 6) (a : BitVec 6) (i : BitVec 5) (n : BitVec 3)
  /-- VSHRI_I32 (R110). Shifts va right arithmetically by an immediate amount. -/
  | vshriI32 (d : BitVec 6) (a : BitVec 6) (i : BitVec 5) (n : BitVec 3)
  /-- VMOVI_I32 (R106). Writes the sign-extended imm9 to vd, tagged i32. -/
  | vmoviI32 (d : BitVec 6) (i : BitVec 9) (n : BitVec 3)
  /-- COLL_SUM_F32 (R293). Contributes an F32 value to element e of the channel bound at binding b, for a sum. -/
  | collSumF32 (d : BitVec 6) (a : BitVec 6) (b : BitVec 6) (n : BitVec 3)
  /-- COLL_SUM_I32 (R293). Contributes an integer value to a channel element, for a sum. -/
  | collSumI32 (d : BitVec 6) (a : BitVec 6) (b : BitVec 6) (n : BitVec 3)
  /-- COLL_MAX_I32 (R293). Contributes an integer value to a channel element, for a signed maximum. -/
  | collMaxI32 (d : BitVec 6) (a : BitVec 6) (b : BitVec 6) (n : BitVec 3)
  /-- COLL_BCAST_B32 (R293). Contributes a value to a channel element, for a broadcast from the root. -/
  | collBcastB32 (d : BitVec 6) (a : BitVec 6) (b : BitVec 6) (n : BitVec 3)
  /-- FADD_F32 (R124). Adds two F32 values, rounded once under rn. -/
  | faddF32 (d : BitVec 6) (a : BitVec 6) (b : BitVec 6) (n : BitVec 3)
  /-- FADD_F16 (R124). Adds packed pairs of F16 values. -/
  | faddF16 (d : BitVec 6) (a : BitVec 6) (b : BitVec 6) (n : BitVec 3)
  /-- FADD_BF16 (R124). Adds packed pairs of BF16 values. -/
  | faddBf16 (d : BitVec 6) (a : BitVec 6) (b : BitVec 6) (n : BitVec 3)
  /-- FSUB_F32 (R124). Subtracts two F32 values. -/
  | fsubF32 (d : BitVec 6) (a : BitVec 6) (b : BitVec 6) (n : BitVec 3)
  /-- FSUB_F16 (R124). Subtracts packed pairs of F16 values. -/
  | fsubF16 (d : BitVec 6) (a : BitVec 6) (b : BitVec 6) (n : BitVec 3)
  /-- FSUB_BF16 (R124). Subtracts packed pairs of BF16 values. -/
  | fsubBf16 (d : BitVec 6) (a : BitVec 6) (b : BitVec 6) (n : BitVec 3)
  /-- FMUL_F32 (R124). Multiplies two F32 values. -/
  | fmulF32 (d : BitVec 6) (a : BitVec 6) (b : BitVec 6) (n : BitVec 3)
  /-- FMUL_F16 (R124). Multiplies packed pairs of F16 values. -/
  | fmulF16 (d : BitVec 6) (a : BitVec 6) (b : BitVec 6) (n : BitVec 3)
  /-- FMUL_BF16 (R124). Multiplies packed pairs of BF16 values. -/
  | fmulBf16 (d : BitVec 6) (a : BitVec 6) (b : BitVec 6) (n : BitVec 3)
  /-- FFMA_F32 (R124). Computes va times vb plus vc in F32, with one rounding. -/
  | ffmaF32 (d : BitVec 6) (a : BitVec 6) (b : BitVec 6) (c : BitVec 3) (n : BitVec 3)
  /-- FFMA_F16 (R124). Computes a fused multiply-add on packed F16 pairs. -/
  | ffmaF16 (d : BitVec 6) (a : BitVec 6) (b : BitVec 6) (c : BitVec 3) (n : BitVec 3)
  /-- FFMA_BF16 (R124). Computes a fused multiply-add on packed BF16 pairs. -/
  | ffmaBf16 (d : BitVec 6) (a : BitVec 6) (b : BitVec 6) (c : BitVec 3) (n : BitVec 3)
  /-- FMIN_F32 (R126). Returns the numerically lesser of two F32 values. -/
  | fminF32 (d : BitVec 6) (a : BitVec 6) (b : BitVec 6) (n : BitVec 3)
  /-- FMIN_F16 (R126). Returns the lesser element of each packed F16 pair. -/
  | fminF16 (d : BitVec 6) (a : BitVec 6) (b : BitVec 6) (n : BitVec 3)
  /-- FMIN_BF16 (R126). Returns the lesser element of each packed BF16 pair. -/
  | fminBf16 (d : BitVec 6) (a : BitVec 6) (b : BitVec 6) (n : BitVec 3)
  /-- FMAX_F32 (R126). Returns the numerically greater of two F32 values. -/
  | fmaxF32 (d : BitVec 6) (a : BitVec 6) (b : BitVec 6) (n : BitVec 3)
  /-- FMAX_F16 (R126). Returns the greater element of each packed F16 pair. -/
  | fmaxF16 (d : BitVec 6) (a : BitVec 6) (b : BitVec 6) (n : BitVec 3)
  /-- FMAX_BF16 (R126). Returns the greater element of each packed BF16 pair. -/
  | fmaxBf16 (d : BitVec 6) (a : BitVec 6) (b : BitVec 6) (n : BitVec 3)
  /-- FCMP_EQ_F32 (R127). Sets kd when va and vb are ordered and equal. -/
  | fcmpEqF32 (d : BitVec 3) (a : BitVec 6) (b : BitVec 6) (n : BitVec 3)
  /-- FCMP_NE_F32 (R127). Sets kd when va and vb are unordered or not equal. -/
  | fcmpNeF32 (d : BitVec 3) (a : BitVec 6) (b : BitVec 6) (n : BitVec 3)
  /-- FCMP_LT_F32 (R127). Sets kd when va and vb are ordered and va is less than vb. -/
  | fcmpLtF32 (d : BitVec 3) (a : BitVec 6) (b : BitVec 6) (n : BitVec 3)
  /-- FCMP_LE_F32 (R127). Sets kd when va and vb are ordered and va is at most vb. -/
  | fcmpLeF32 (d : BitVec 3) (a : BitVec 6) (b : BitVec 6) (n : BitVec 3)
  /-- FCMP_GT_F32 (R127). Sets kd when va and vb are ordered and va is greater than vb. -/
  | fcmpGtF32 (d : BitVec 3) (a : BitVec 6) (b : BitVec 6) (n : BitVec 3)
  /-- FCMP_GE_F32 (R127). Sets kd when va and vb are ordered and va is at least vb. -/
  | fcmpGeF32 (d : BitVec 3) (a : BitVec 6) (b : BitVec 6) (n : BitVec 3)
  /-- FCMP_UN_F32 (R127). Sets kd when va or vb is NaN. -/
  | fcmpUnF32 (d : BitVec 3) (a : BitVec 6) (b : BitVec 6) (n : BitVec 3)
  /-- FCLASS_F32 (R128). Writes a one-hot class mask for va. -/
  | fclassF32 (d : BitVec 6) (a : BitVec 6) (n : BitVec 3)
  /-- FABS_F32 (R129). Clears the sign bit of va. -/
  | fabsF32 (d : BitVec 6) (a : BitVec 6) (n : BitVec 3)
  /-- FNEG_F32 (R129). Inverts the sign bit of va. -/
  | fnegF32 (d : BitVec 6) (a : BitVec 6) (n : BitVec 3)
  /-- FCSGN_F32 (R129). Copies the sign of vb onto va. -/
  | fcsgnF32 (d : BitVec 6) (a : BitVec 6) (b : BitVec 6) (n : BitVec 3)
  /-- FRCP_F32 (R132). Returns a faithful reciprocal of va, with variable latency. -/
  | frcpF32 (d : BitVec 6) (a : BitVec 6) (n : BitVec 3)
  /-- FRSQ_F32 (R132). Returns a faithful reciprocal square root of va. -/
  | frsqF32 (d : BitVec 6) (a : BitVec 6) (n : BitVec 3)
  /-- FSQRT_F32 (R132). Returns the correctly rounded square root of va. -/
  | fsqrtF32 (d : BitVec 6) (a : BitVec 6) (n : BitVec 3)
  /-- FEX2_F32 (R132). Returns 2 raised to va, within 2 ulp. -/
  | fex2F32 (d : BitVec 6) (a : BitVec 6) (n : BitVec 3)
  /-- FLG2_F32 (R132). Returns log2 of va, within the stated bound. -/
  | flg2F32 (d : BitVec 6) (a : BitVec 6) (n : BitVec 3)
  /-- CVT_F32_RN (R131). Converts the tagged source to F32, rounding to nearest even. -/
  | cvtF32Rn (d : BitVec 6) (a : BitVec 6) (e : BitVec 1) (n : BitVec 3)
  /-- CVT_F32_RZ (R131). Converts the tagged source to F32, rounding toward zero. -/
  | cvtF32Rz (d : BitVec 6) (a : BitVec 6) (e : BitVec 1) (n : BitVec 3)
  /-- CVT_F32_RD (R131). Converts the tagged source to F32, rounding down. -/
  | cvtF32Rd (d : BitVec 6) (a : BitVec 6) (e : BitVec 1) (n : BitVec 3)
  /-- CVT_F32_RU (R131). Converts the tagged source to F32, rounding up. -/
  | cvtF32Ru (d : BitVec 6) (a : BitVec 6) (e : BitVec 1) (n : BitVec 3)
  /-- CVT_F16_RN (R131). Converts va and vb into an F16 pair, rounding to nearest even. -/
  | cvtF16Rn (d : BitVec 6) (a : BitVec 6) (b : BitVec 6) (n : BitVec 3)
  /-- CVT_F16_RZ (R131). Converts va and vb into an F16 pair, rounding toward zero. -/
  | cvtF16Rz (d : BitVec 6) (a : BitVec 6) (b : BitVec 6) (n : BitVec 3)
  /-- CVT_F16_RD (R131). Converts va and vb into an F16 pair, rounding down. -/
  | cvtF16Rd (d : BitVec 6) (a : BitVec 6) (b : BitVec 6) (n : BitVec 3)
  /-- CVT_F16_RU (R131). Converts va and vb into an F16 pair, rounding up. -/
  | cvtF16Ru (d : BitVec 6) (a : BitVec 6) (b : BitVec 6) (n : BitVec 3)
  /-- CVT_BF16_RN (R131). Converts va and vb into a BF16 pair, rounding to nearest even. -/
  | cvtBf16Rn (d : BitVec 6) (a : BitVec 6) (b : BitVec 6) (n : BitVec 3)
  /-- CVT_BF16_RZ (R131). Converts va and vb into a BF16 pair, rounding toward zero. -/
  | cvtBf16Rz (d : BitVec 6) (a : BitVec 6) (b : BitVec 6) (n : BitVec 3)
  /-- CVT_BF16_RD (R131). Converts va and vb into a BF16 pair, rounding down. -/
  | cvtBf16Rd (d : BitVec 6) (a : BitVec 6) (b : BitVec 6) (n : BitVec 3)
  /-- CVT_BF16_RU (R131). Converts va and vb into a BF16 pair, rounding up. -/
  | cvtBf16Ru (d : BitVec 6) (a : BitVec 6) (b : BitVec 6) (n : BitVec 3)
  /-- CVT_I32_RN (R131). Converts the source to a clamped I32, rounding to nearest even. -/
  | cvtI32Rn (d : BitVec 6) (a : BitVec 6) (e : BitVec 1) (n : BitVec 3)
  /-- CVT_I32_RZ (R131). Converts the source to a clamped I32, rounding toward zero. -/
  | cvtI32Rz (d : BitVec 6) (a : BitVec 6) (e : BitVec 1) (n : BitVec 3)
  /-- CVT_I32_RD (R131). Converts the source to a clamped I32, rounding down. -/
  | cvtI32Rd (d : BitVec 6) (a : BitVec 6) (e : BitVec 1) (n : BitVec 3)
  /-- CVT_I32_RU (R131). Converts the source to a clamped I32, rounding up. -/
  | cvtI32Ru (d : BitVec 6) (a : BitVec 6) (e : BitVec 1) (n : BitVec 3)
  /-- CVT_N32_RN (R131). Converts the source to a clamped N32, rounding to nearest even. -/
  | cvtN32Rn (d : BitVec 6) (a : BitVec 6) (e : BitVec 1) (n : BitVec 3)
  /-- CVT_N32_RZ (R131). Converts the source to a clamped N32, rounding toward zero. -/
  | cvtN32Rz (d : BitVec 6) (a : BitVec 6) (e : BitVec 1) (n : BitVec 3)
  /-- CVT_N32_RD (R131). Converts the source to a clamped N32, rounding down. -/
  | cvtN32Rd (d : BitVec 6) (a : BitVec 6) (e : BitVec 1) (n : BitVec 3)
  /-- CVT_N32_RU (R131). Converts the source to a clamped N32, rounding up. -/
  | cvtN32Ru (d : BitVec 6) (a : BitVec 6) (e : BitVec 1) (n : BitVec 3)
  /-- NPACK_F8E4 (R134). Packs a window of four F32 values into F8E4 codes under NREAD. -/
  | npackF8e4 (d : BitVec 6) (a : BitVec 6) (n : BitVec 3)
  /-- NPACK_F8E5 (R134). Packs a window of four F32 values into F8E5 codes. -/
  | npackF8e5 (d : BitVec 6) (a : BitVec 6) (n : BitVec 3)
  /-- NPACK_F6E2 (R134). Packs a window of four F32 values into F6E2 codes. -/
  | npackF6e2 (d : BitVec 6) (a : BitVec 6) (n : BitVec 3)
  /-- NPACK_F6E3 (R134). Packs a window of four F32 values into F6E3 codes. -/
  | npackF6e3 (d : BitVec 6) (a : BitVec 6) (n : BitVec 3)
  /-- NPACK_F4E2 (R134). Packs a window of eight F32 values into F4E2 codes. -/
  | npackF4e2 (d : BitVec 6) (a : BitVec 6) (n : BitVec 3)
  /-- NUNPACK_F8E4 (R134). Unpacks F8E4 codes into a window of four F32 values. -/
  | nunpackF8e4 (d : BitVec 6) (a : BitVec 6) (n : BitVec 3)
  /-- NUNPACK_F8E5 (R134). Unpacks F8E5 codes into a window of four F32 values. -/
  | nunpackF8e5 (d : BitVec 6) (a : BitVec 6) (n : BitVec 3)
  /-- NUNPACK_F6E2 (R134). Unpacks F6E2 codes into a window of four F32 values. -/
  | nunpackF6e2 (d : BitVec 6) (a : BitVec 6) (n : BitVec 3)
  /-- NUNPACK_F6E3 (R134). Unpacks F6E3 codes into a window of four F32 values. -/
  | nunpackF6e3 (d : BitVec 6) (a : BitVec 6) (n : BitVec 3)
  /-- NUNPACK_F4E2 (R134). Unpacks F4E2 codes into a window of eight F32 values. -/
  | nunpackF4e2 (d : BitVec 6) (a : BitVec 6) (n : BitVec 3)
  /-- QNT_Q4 (R136). Computes the Q4 group scale and zero point from the least and greatest values. -/
  | qntQ4 (d : BitVec 6) (a : BitVec 6) (b : BitVec 6) (n : BitVec 3)
  /-- QNT_Q8 (R136). Computes the Q8 group scale and zero point from the least and greatest values. -/
  | qntQ8 (d : BitVec 6) (a : BitVec 6) (b : BitVec 6) (n : BitVec 3)
  /-- DQ_Q4 (R137). Expands eight Q4 codes into F32 values using a group parameter word. -/
  | dqQ4 (d : BitVec 6) (a : BitVec 6) (b : BitVec 6) (n : BitVec 3)
  /-- DQ_Q8 (R137). Expands four Q8 codes into F32 values using a group parameter word. -/
  | dqQ8 (d : BitVec 6) (a : BitVec 6) (b : BitVec 6) (n : BitVec 3)
  /-- TAGSET (R138). Rewrites the format tag of vd and keeps its value bits. -/
  | tagset (d : BitVec 6) (i : BitVec 4) (n : BitVec 3)
  /-- TAGGET (R139). Writes the tag of va into vd, tagged n32. -/
  | tagget (d : BitVec 6) (a : BitVec 6) (n : BitVec 3)
  /-- BRA (R149). Branches unconditionally to a PC-relative target. -/
  | bra (o : BitVec 18) (n : BitVec 3)
  /-- BRA_T (R149). Branches when the thread's k-flag is 1. -/
  | braT (k : BitVec 3) (o : BitVec 18) (n : BitVec 3)
  /-- BRA_F (R149). Branches when the thread's k-flag is 0. -/
  | braF (k : BitVec 3) (o : BitVec 18) (n : BitVec 3)
  /-- BRANY (R149). Sends every member of the braid to the target, and files them there, when any member has k = 1. -/
  | brany (k : BitVec 3) (o : BitVec 18) (n : BitVec 3)
  /-- BRALL (R149). Branches the braid when every member has k = 1. -/
  | brall (k : BitVec 3) (o : BitVec 18) (n : BitVec 3)
  /-- BRNONE (R149). Branches the braid when no member has k = 1. -/
  | brnone (k : BitVec 3) (o : BitVec 18) (n : BitVec 3)
  /-- CALL (R149). Writes the return address to v62:v63 and branches. -/
  | call (o : BitVec 18) (n : BitVec 3)
  /-- BRX (R151). Branches to the address in the pair va. -/
  | brx (a : BitVec 6) (n : BitVec 3)
  /-- CALLX (R151). Writes the return address to the pair vd and branches to the address in the pair va. -/
  | callx (d : BitVec 6) (a : BitVec 6) (n : BitVec 3)
  /-- RET (R151). Returns to the address in the pair va. -/
  | ret (a : BitVec 6) (n : BitVec 3)
  /-- ELECT (R152). Sets kd for the executing braid member with the lowest thread id. -/
  | elect (d : BitVec 3) (n : BitVec 3)
  /-- VOTE_ANY (R152). Sets kd to the OR of ka over the executing members. -/
  | voteAny (d : BitVec 3) (a : BitVec 3) (n : BitVec 3)
  /-- VOTE_ALL (R152). Sets kd to the AND of ka over the executing members. -/
  | voteAll (d : BitVec 3) (a : BitVec 3) (n : BitVec 3)
  /-- VOTE_BALLOT (R152). Writes the mask of ka by braid position into vd. -/
  | voteBallot (d : BitVec 6) (a : BitVec 3) (n : BitVec 3)
  /-- EXIT (R153). Ends the thread once none of its registers is pending. -/
  | exit (n : BitVec 3)
  /-- SLEEP (R153). Blocks the thread for va[19:0] cycles. -/
  | sleep (a : BitVec 6) (n : BitVec 3)
  /-- SAFE (R155). Marks a safe point; stops the thread for a save when a pre-emption request is pending. -/
  | safe (i : BitVec 18) (n : BitVec 3)
  /-- REFORM (R153). Files the member at PC + 4. -/
  | reform (n : BitVec 3)
  /-- LD_N8 (R173). Loads a byte from global memory, zero-extended. -/
  | ldN8 (d : BitVec 6) (a : BitVec 6) (o : BitVec 9) (n : BitVec 3)
  /-- LD_I8 (R173). Loads a byte from global memory, sign-extended. -/
  | ldI8 (d : BitVec 6) (a : BitVec 6) (o : BitVec 9) (n : BitVec 3)
  /-- LD_N16 (R173). Loads 2 bytes from global memory, zero-extended. -/
  | ldN16 (d : BitVec 6) (a : BitVec 6) (o : BitVec 9) (n : BitVec 3)
  /-- LD_I16 (R173). Loads 2 bytes from global memory, sign-extended. -/
  | ldI16 (d : BitVec 6) (a : BitVec 6) (o : BitVec 9) (n : BitVec 3)
  /-- LD_B32 (R173). Loads 4 bytes from global memory, tagged raw. -/
  | ldB32 (d : BitVec 6) (a : BitVec 6) (o : BitVec 9) (n : BitVec 3)
  /-- LD_B64 (R173). Loads 8 bytes from global memory into a pair. -/
  | ldB64 (d : BitVec 6) (a : BitVec 6) (o : BitVec 9) (n : BitVec 3)
  /-- LD_B128 (R173). Loads 16 bytes from global memory into four registers. -/
  | ldB128 (d : BitVec 6) (a : BitVec 6) (o : BitVec 9) (n : BitVec 3)
  /-- ST_B8 (R173). Stores a byte to global memory. -/
  | stB8 (d : BitVec 6) (a : BitVec 6) (o : BitVec 9) (n : BitVec 3)
  /-- ST_B16 (R173). Stores 2 bytes to global memory. -/
  | stB16 (d : BitVec 6) (a : BitVec 6) (o : BitVec 9) (n : BitVec 3)
  /-- ST_B32 (R173). Stores 4 bytes to global memory. -/
  | stB32 (d : BitVec 6) (a : BitVec 6) (o : BitVec 9) (n : BitVec 3)
  /-- ST_B64 (R173). Stores 8 bytes to global memory from a pair. -/
  | stB64 (d : BitVec 6) (a : BitVec 6) (o : BitVec 9) (n : BitVec 3)
  /-- ST_B128 (R173). Stores 16 bytes to global memory from four registers. -/
  | stB128 (d : BitVec 6) (a : BitVec 6) (o : BitVec 9) (n : BitVec 3)
  /-- LDS_B32 (R176). Loads 4 bytes from the block's scratch window. -/
  | ldsB32 (d : BitVec 6) (a : BitVec 6) (o : BitVec 9) (n : BitVec 3)
  /-- LDS_B64 (R176). Loads 8 bytes from the block's scratch window. -/
  | ldsB64 (d : BitVec 6) (a : BitVec 6) (o : BitVec 9) (n : BitVec 3)
  /-- STS_B32 (R176). Stores 4 bytes to the block's scratch window. -/
  | stsB32 (d : BitVec 6) (a : BitVec 6) (o : BitVec 9) (n : BitVec 3)
  /-- STS_B64 (R176). Stores 8 bytes to the block's scratch window. -/
  | stsB64 (d : BitVec 6) (a : BitVec 6) (o : BitVec 9) (n : BitVec 3)
  /-- LDQ_B32 (R176). Loads 4 bytes from a quarter peer's scratch window. -/
  | ldqB32 (d : BitVec 6) (a : BitVec 6) (b : BitVec 6) (n : BitVec 3)
  /-- STQ_B32 (R176). Stores 4 bytes to a quarter peer's scratch window. -/
  | stqB32 (d : BitVec 6) (a : BitVec 6) (b : BitVec 6) (n : BitVec 3)
  /-- LD_ACQ_B32 (R175). Performs an acquire load of 4 bytes at a scope. -/
  | ldAcqB32 (d : BitVec 6) (a : BitVec 6) (e : BitVec 3) (n : BitVec 3)
  /-- ST_REL_B32 (R175). Performs a release store of 4 bytes at a scope. -/
  | stRelB32 (d : BitVec 6) (a : BitVec 6) (e : BitVec 3) (n : BitVec 3)
  /-- CACHE_EVL1 (R181). Evicts a line from this core's L1. -/
  | cacheEvl1 (a : BitVec 6) (n : BitVec 3)
  /-- CACHE_WBL2 (R181). Writes a dirty L2 line back to DRAM and keeps it cached. -/
  | cacheWbl2 (a : BitVec 6) (n : BitVec 3)
  /-- CACHE_EVL2 (R181). Writes back a line and evicts it from the L2 and from every L1. -/
  | cacheEvl2 (a : BitVec 6) (n : BitVec 3)
  /-- ATOM_ADD_I32 (R284). Atomically adds vb to a 4-byte location and returns the old value. -/
  | atomAddI32 (d : BitVec 6) (a : BitVec 6) (b : BitVec 6) (n : BitVec 3)
  /-- ATOM_MIN_I32 (R284). Performs an atomic signed minimum and returns the old value. -/
  | atomMinI32 (d : BitVec 6) (a : BitVec 6) (b : BitVec 6) (n : BitVec 3)
  /-- ATOM_MAX_I32 (R284). Performs an atomic signed maximum and returns the old value. -/
  | atomMaxI32 (d : BitVec 6) (a : BitVec 6) (b : BitVec 6) (n : BitVec 3)
  /-- ATOM_MIN_N32 (R284). Performs an atomic unsigned minimum and returns the old value. -/
  | atomMinN32 (d : BitVec 6) (a : BitVec 6) (b : BitVec 6) (n : BitVec 3)
  /-- ATOM_MAX_N32 (R284). Performs an atomic unsigned maximum and returns the old value. -/
  | atomMaxN32 (d : BitVec 6) (a : BitVec 6) (b : BitVec 6) (n : BitVec 3)
  /-- ATOM_AND_B32 (R284). Performs an atomic AND and returns the old value. -/
  | atomAndB32 (d : BitVec 6) (a : BitVec 6) (b : BitVec 6) (n : BitVec 3)
  /-- ATOM_OR_B32 (R284). Performs an atomic OR and returns the old value. -/
  | atomOrB32 (d : BitVec 6) (a : BitVec 6) (b : BitVec 6) (n : BitVec 3)
  /-- ATOM_XOR_B32 (R284). Performs an atomic XOR and returns the old value. -/
  | atomXorB32 (d : BitVec 6) (a : BitVec 6) (b : BitVec 6) (n : BitVec 3)
  /-- ATOM_XCHG_B32 (R284). Atomically exchanges 4 bytes with vb. -/
  | atomXchgB32 (d : BitVec 6) (a : BitVec 6) (b : BitVec 6) (n : BitVec 3)
  /-- ATOM_CAS_B32 (R284). Performs an atomic compare-and-swap of 4 bytes. -/
  | atomCasB32 (d : BitVec 6) (a : BitVec 6) (b : BitVec 6) (n : BitVec 3)
  /-- ATOM_ADD_F32 (R284). Atomically adds an F32 value, rounded once. -/
  | atomAddF32 (d : BitVec 6) (a : BitVec 6) (b : BitVec 6) (n : BitVec 3)
  /-- ATOM_ADD_I64 (R284). Atomically adds a 64-bit value. -/
  | atomAddI64 (d : BitVec 6) (a : BitVec 6) (b : BitVec 6) (n : BitVec 3)
  /-- ATOM_MAX_N64 (R284). Performs an atomic unsigned 64-bit maximum. -/
  | atomMaxN64 (d : BitVec 6) (a : BitVec 6) (b : BitVec 6) (n : BitVec 3)
  /-- ATOM_XCHG_B64 (R284). Atomically exchanges 8 bytes. -/
  | atomXchgB64 (d : BitVec 6) (a : BitVec 6) (b : BitVec 6) (n : BitVec 3)
  /-- ATOM_CAS_B64 (R284). Performs an atomic compare-and-swap of 8 bytes. -/
  | atomCasB64 (d : BitVec 6) (a : BitVec 6) (b : BitVec 6) (n : BitVec 3)
  /-- RED_ADD_I32 (R284). Performs an atomic add that returns nothing. -/
  | redAddI32 (a : BitVec 6) (b : BitVec 6) (n : BitVec 3)
  /-- RED_MIN_I32 (R284). Performs a signed minimum reduction. -/
  | redMinI32 (a : BitVec 6) (b : BitVec 6) (n : BitVec 3)
  /-- RED_MAX_I32 (R284). Performs a signed maximum reduction. -/
  | redMaxI32 (a : BitVec 6) (b : BitVec 6) (n : BitVec 3)
  /-- RED_MIN_N32 (R284). Performs an unsigned minimum reduction. -/
  | redMinN32 (a : BitVec 6) (b : BitVec 6) (n : BitVec 3)
  /-- RED_MAX_N32 (R284). Performs an unsigned maximum reduction. -/
  | redMaxN32 (a : BitVec 6) (b : BitVec 6) (n : BitVec 3)
  /-- RED_AND_B32 (R284). Performs an AND reduction. -/
  | redAndB32 (a : BitVec 6) (b : BitVec 6) (n : BitVec 3)
  /-- RED_OR_B32 (R284). Performs an OR reduction. -/
  | redOrB32 (a : BitVec 6) (b : BitVec 6) (n : BitVec 3)
  /-- RED_XOR_B32 (R284). Performs an XOR reduction. -/
  | redXorB32 (a : BitVec 6) (b : BitVec 6) (n : BitVec 3)
  /-- RED_ADD_F32 (R284). Performs an F32 add reduction. -/
  | redAddF32 (a : BitVec 6) (b : BitVec 6) (n : BitVec 3)
  /-- RED_ADD_I64 (R284). Performs a 64-bit add reduction. -/
  | redAddI64 (a : BitVec 6) (b : BitVec 6) (n : BitVec 3)
  /-- MSEND (R289). Appends a message to the mailbox of a block of the own block or quarter. -/
  | msend (d : BitVec 6) (a : BitVec 6) (b : BitVec 6) (n : BitVec 3)
  /-- MRECV (R290). Removes and returns the oldest matching message, waiting when there is none. -/
  | mrecv (d : BitVec 6) (a : BitVec 6) (b : BitVec 6) (n : BitVec 3)
  /-- MPROBE (R291). Returns the oldest matching message without removing it. -/
  | mprobe (d : BitVec 6) (a : BitVec 6) (b : BitVec 6) (n : BitVec 3)
  /-- MCANCEL (R291). Removes every matching message and returns their count. -/
  | mcancel (d : BitVec 6) (a : BitVec 6) (b : BitVec 6) (n : BitVec 3)
  /-- UADD_I32 (R93). Adds two s-registers. -/
  | uaddI32 (d : BitVec 4) (a : BitVec 4) (b : BitVec 4) (n : BitVec 3)
  /-- USUB_I32 (R93). Subtracts two s-registers. -/
  | usubI32 (d : BitVec 4) (a : BitVec 4) (b : BitVec 4) (n : BitVec 3)
  /-- UMUL_I32 (R93). Writes the low 32 bits of the product of two s-registers. -/
  | umulI32 (d : BitVec 4) (a : BitVec 4) (b : BitVec 4) (n : BitVec 3)
  /-- UMULHI_I32 (R93). Writes the high 32 bits of the signed product. -/
  | umulhiI32 (d : BitVec 4) (a : BitVec 4) (b : BitVec 4) (n : BitVec 3)
  /-- UMULHI_N32 (R93). Writes the high 32 bits of the unsigned product. -/
  | umulhiN32 (d : BitVec 4) (a : BitVec 4) (b : BitVec 4) (n : BitVec 3)
  /-- UMIN_I32 (R93). Writes the signed minimum. -/
  | uminI32 (d : BitVec 4) (a : BitVec 4) (b : BitVec 4) (n : BitVec 3)
  /-- UMIN_N32 (R93). Writes the unsigned minimum. -/
  | uminN32 (d : BitVec 4) (a : BitVec 4) (b : BitVec 4) (n : BitVec 3)
  /-- UMAX_I32 (R93). Writes the signed maximum. -/
  | umaxI32 (d : BitVec 4) (a : BitVec 4) (b : BitVec 4) (n : BitVec 3)
  /-- UMAX_N32 (R93). Writes the unsigned maximum. -/
  | umaxN32 (d : BitVec 4) (a : BitVec 4) (b : BitVec 4) (n : BitVec 3)
  /-- UAND_B32 (R93). Writes the bitwise AND. -/
  | uandB32 (d : BitVec 4) (a : BitVec 4) (b : BitVec 4) (n : BitVec 3)
  /-- UOR_B32 (R93). Writes the bitwise OR. -/
  | uorB32 (d : BitVec 4) (a : BitVec 4) (b : BitVec 4) (n : BitVec 3)
  /-- UXOR_B32 (R93). Writes the bitwise XOR. -/
  | uxorB32 (d : BitVec 4) (a : BitVec 4) (b : BitVec 4) (n : BitVec 3)
  /-- USHL_B32 (R93). Shifts sa left by sb. -/
  | ushlB32 (d : BitVec 4) (a : BitVec 4) (b : BitVec 4) (n : BitVec 3)
  /-- USHR_N32 (R93). Shifts sa right logically by sb. -/
  | ushrN32 (d : BitVec 4) (a : BitVec 4) (b : BitVec 4) (n : BitVec 3)
  /-- USHR_I32 (R93). Shifts sa right arithmetically by sb. -/
  | ushrI32 (d : BitVec 4) (a : BitVec 4) (b : BitVec 4) (n : BitVec 3)
  /-- UBFE_N32 (R94). Extracts a bit field, zero-extended. -/
  | ubfeN32 (d : BitVec 4) (a : BitVec 4) (b : BitVec 4) (n : BitVec 3)
  /-- UBFE_I32 (R94). Extracts a bit field, sign-extended. -/
  | ubfeI32 (d : BitVec 4) (a : BitVec 4) (b : BitVec 4) (n : BitVec 3)
  /-- UBFI_B32 (R94). Inserts a bit field of sa into sd. -/
  | ubfiB32 (d : BitVec 4) (a : BitVec 4) (b : BitVec 4) (n : BitVec 3)
  /-- UPOPC_B32 (R93). Counts the 1 bits of sa. -/
  | upopcB32 (d : BitVec 4) (a : BitVec 4) (n : BitVec 3)
  /-- UCLZ_B32 (R93). Counts the leading zero bits of sa. -/
  | uclzB32 (d : BitVec 4) (a : BitVec 4) (n : BitVec 3)
  /-- UCMP_EQ_B32 (R93). Writes 1 when sa equals sb. -/
  | ucmpEqB32 (d : BitVec 4) (a : BitVec 4) (b : BitVec 4) (n : BitVec 3)
  /-- UCMP_NE_B32 (R93). Writes 1 when sa differs from sb. -/
  | ucmpNeB32 (d : BitVec 4) (a : BitVec 4) (b : BitVec 4) (n : BitVec 3)
  /-- UCMP_LT_I32 (R93). Writes 1 when sa is less than sb, compared as signed. -/
  | ucmpLtI32 (d : BitVec 4) (a : BitVec 4) (b : BitVec 4) (n : BitVec 3)
  /-- UCMP_LE_I32 (R93). Writes 1 when sa is at most sb, compared as signed. -/
  | ucmpLeI32 (d : BitVec 4) (a : BitVec 4) (b : BitVec 4) (n : BitVec 3)
  /-- UCMP_LT_N32 (R93). Writes 1 when sa is less than sb, compared as unsigned. -/
  | ucmpLtN32 (d : BitVec 4) (a : BitVec 4) (b : BitVec 4) (n : BitVec 3)
  /-- UCMP_LE_N32 (R93). Writes 1 when sa is at most sb, compared as unsigned. -/
  | ucmpLeN32 (d : BitVec 4) (a : BitVec 4) (b : BitVec 4) (n : BitVec 3)
  /-- USEL_B32 (R93). Selects sa or sb according to sc. -/
  | uselB32 (d : BitVec 4) (a : BitVec 4) (b : BitVec 4) (c : BitVec 4) (n : BitVec 3)
  /-- UMOV_B32 (R93). Copies sa to sd. -/
  | umovB32 (d : BitVec 4) (a : BitVec 4) (n : BitVec 3)
  /-- UADD_I64 (R93). Adds two 64-bit s-register pairs. -/
  | uaddI64 (d : BitVec 4) (a : BitVec 4) (b : BitVec 4) (n : BitVec 3)
  /-- UADDI_I32 (R93). Adds the sign-extended imm16 to sd. -/
  | uaddiI32 (d : BitVec 4) (i : BitVec 16) (n : BitVec 3)
  /-- UMOVI (R41). Writes the zero-extended imm16 to sd. -/
  | umovi (d : BitVec 4) (i : BitVec 16) (n : BitVec 3)
  /-- UMOVHI (R41). Writes imm16 into the high half of sd. -/
  | umovhi (d : BitVec 4) (i : BitVec 16) (n : BitVec 3)
  /-- UANDI_B32 (R93). Writes sd AND the zero-extended imm16. -/
  | uandiB32 (d : BitVec 4) (i : BitVec 16) (n : BitVec 3)
  /-- UORI_B32 (R93). Writes sd OR the zero-extended imm16. -/
  | uoriB32 (d : BitVec 4) (i : BitVec 16) (n : BitVec 3)
  /-- USHLI_B32 (R93). Shifts sd left by an immediate amount. -/
  | ushliB32 (d : BitVec 4) (i : BitVec 5) (n : BitVec 3)
  /-- USHRI_N32 (R93). Shifts sd right logically by an immediate amount. -/
  | ushriN32 (d : BitVec 4) (i : BitVec 5) (n : BitVec 3)
  /-- USR (R95). Reads a special register into sd. -/
  | usr (d : BitVec 4) (i : BitVec 16) (n : BitVec 3)
  /-- LDU_B32 (R96). Performs a relaxed uniform load of 4 bytes. -/
  | lduB32 (d : BitVec 4) (a : BitVec 4) (o : BitVec 9) (n : BitVec 3)
  /-- LDU_B64 (R96). Performs a relaxed uniform load of 8 bytes. -/
  | lduB64 (d : BitVec 4) (a : BitVec 4) (o : BitVec 9) (n : BitVec 3)
  /-- LDC_B32 (R97). Loads 4 bytes through the constant path. -/
  | ldcB32 (d : BitVec 4) (a : BitVec 4) (o : BitVec 9) (n : BitVec 3)
  /-- LDC_B64 (R97). Loads 8 bytes through the constant path. -/
  | ldcB64 (d : BitVec 4) (a : BitVec 4) (o : BitVec 9) (n : BitVec 3)
  /-- UBRA (R98). Performs an unconditional uniform branch. -/
  | ubra (i : BitVec 16) (n : BitVec 3)
  /-- UBRZ (R98). Branches when sd is 0. -/
  | ubrz (d : BitVec 4) (i : BitVec 16) (n : BitVec 3)
  /-- UBRNZ (R98). Branches when sd is not 0. -/
  | ubrnz (d : BitVec 4) (i : BitVec 16) (n : BitVec 3)
  /-- ULOOP (R98). Decrements sd and branches when the result is not 0. -/
  | uloop (d : BitVec 4) (i : BitVec 16) (n : BitVec 3)
  /-- UCALL (R98). Writes the low return address to sd and branches. -/
  | ucall (d : BitVec 4) (i : BitVec 16) (n : BitVec 3)
  /-- URET (R98). Returns to the address in sd; ends a bobbin whose target is its FORK word. -/
  | uret (d : BitVec 4) (n : BitVec 3)
  /-- FORK (R184). Starts the lowest free bobbin at the target with a copy of the thread's s-registers. -/
  | fork (d : BitVec 4) (i : BitVec 16) (n : BitVec 3)
  /-- RDZV (R188). Joins a bobbin, waits until it has ended, frees it and returns its s0. -/
  | rdzv (d : BitVec 4) (a : BitVec 4) (n : BitVec 3)
  /-- GRES_TAKE (R200). Resolves the queued commands guarded by a slot as take. -/
  | gresTake (g : BitVec 3) (n : BitVec 3)
  /-- GRES_DROP (R200). Resolves the queued commands guarded by a slot as drop. -/
  | gresDrop (g : BitVec 3) (n : BitVec 3)
  /-- CPY_L (R195). Posts a linear byte copy. -/
  | cpyL (d : BitVec 4) (a : BitVec 4) (b : BitVec 4) (x : BitVec 1) (g : BitVec 3) (n : BitVec 3)
  /-- CPY_S (R195). Posts a strided row copy. -/
  | cpyS (d : BitVec 4) (a : BitVec 4) (b : BitVec 4) (x : BitVec 1) (g : BitVec 3) (n : BitVec 3)
  /-- CPY_T2 (R196). Posts a copy of a 2-D tensor window, with format conversion. -/
  | cpyT2 (d : BitVec 4) (a : BitVec 4) (b : BitVec 4) (x : BitVec 1) (g : BitVec 3) (n : BitVec 3)
  /-- CPY_T3 (R196). Posts a copy of a 3-D tensor window, with format conversion. -/
  | cpyT3 (d : BitVec 4) (a : BitVec 4) (b : BitVec 4) (x : BitVec 1) (g : BitVec 3) (n : BitVec 3)
  /-- CPY_G (R197). Posts a gather of rows by an index list. -/
  | cpyG (d : BitVec 4) (a : BitVec 4) (b : BitVec 4) (x : BitVec 1) (g : BitVec 3) (n : BitVec 3)
  /-- CPY_RED_ADD (R198). Posts an element-wise add reduction into the destination. -/
  | cpyRedAdd (d : BitVec 4) (a : BitVec 4) (b : BitVec 4) (x : BitVec 1) (g : BitVec 3) (n : BitVec 3)
  /-- CPY_RED_MIN (R198). Posts an element-wise minimum reduction. -/
  | cpyRedMin (d : BitVec 4) (a : BitVec 4) (b : BitVec 4) (x : BitVec 1) (g : BitVec 3) (n : BitVec 3)
  /-- CPY_RED_MAX (R198). Posts an element-wise maximum reduction. -/
  | cpyRedMax (d : BitVec 4) (a : BitVec 4) (b : BitVec 4) (x : BitVec 1) (g : BitVec 3) (n : BitVec 3)
  /-- CPY_RED_AND (R198). Posts an element-wise AND reduction. -/
  | cpyRedAnd (d : BitVec 4) (a : BitVec 4) (b : BitVec 4) (x : BitVec 1) (g : BitVec 3) (n : BitVec 3)
  /-- CPY_RED_OR (R198). Posts an element-wise OR reduction. -/
  | cpyRedOr (d : BitVec 4) (a : BitVec 4) (b : BitVec 4) (x : BitVec 1) (g : BitVec 3) (n : BitVec 3)
  /-- CPY_RED_XOR (R198). Posts an element-wise XOR reduction. -/
  | cpyRedXor (d : BitVec 4) (a : BitVec 4) (b : BitVec 4) (x : BitVec 1) (g : BitVec 3) (n : BitVec 3)
  /-- CPY_M (R199). Posts a multicast copy to a range of quarter ranks. -/
  | cpyM (d : BitVec 4) (a : BitVec 4) (b : BitVec 4) (x : BitVec 1) (g : BitVec 3) (n : BitVec 3)
  /-- CPY_MIGR (R325). Posts a migration of a page to a new frame. -/
  | cpyMigr (d : BitVec 4) (a : BitVec 4) (b : BitVec 4) (x : BitVec 1) (g : BitVec 3) (n : BitVec 3)
  /-- MZERO (R215). Posts the zeroing of a tile (or a pair) and the setting of its tag. -/
  | mzero (d : BitVec 4) (a : BitVec 4) (x : BitVec 1) (g : BitVec 3) (n : BitVec 3)
  /-- MMA_P1X1 (R220). Posts a plane matrix multiply-accumulate with 1 x 1 planes. -/
  | mmaP1x1 (d : BitVec 4) (a : BitVec 4) (b : BitVec 4) (x : BitVec 1) (g : BitVec 3) (n : BitVec 3)
  /-- MMA_P2X1 (R220). Posts a plane matrix multiply-accumulate with 2 x 1 planes. -/
  | mmaP2x1 (d : BitVec 4) (a : BitVec 4) (b : BitVec 4) (x : BitVec 1) (g : BitVec 3) (n : BitVec 3)
  /-- MMA_P2X2 (R220). Posts a plane matrix multiply-accumulate with 2 x 2 planes. -/
  | mmaP2x2 (d : BitVec 4) (a : BitVec 4) (b : BitVec 4) (x : BitVec 1) (g : BitVec 3) (n : BitVec 3)
  /-- MMA_P4X1 (R220). Posts a plane matrix multiply-accumulate with 4 x 1 planes. -/
  | mmaP4x1 (d : BitVec 4) (a : BitVec 4) (b : BitVec 4) (x : BitVec 1) (g : BitVec 3) (n : BitVec 3)
  /-- MMA_P4X2 (R220). Posts a plane matrix multiply-accumulate with 4 x 2 planes. -/
  | mmaP4x2 (d : BitVec 4) (a : BitVec 4) (b : BitVec 4) (x : BitVec 1) (g : BitVec 3) (n : BitVec 3)
  /-- MMA_P4X4 (R220). Posts a plane matrix multiply-accumulate with 4 x 4 planes. -/
  | mmaP4x4 (d : BitVec 4) (a : BitVec 4) (b : BitVec 4) (x : BitVec 1) (g : BitVec 3) (n : BitVec 3)
  /-- MMA_P8X1 (R220). Posts a plane matrix multiply-accumulate with 8 x 1 planes. -/
  | mmaP8x1 (d : BitVec 4) (a : BitVec 4) (b : BitVec 4) (x : BitVec 1) (g : BitVec 3) (n : BitVec 3)
  /-- MMA_P8X2 (R220). Posts a plane matrix multiply-accumulate with 8 x 2 planes. -/
  | mmaP8x2 (d : BitVec 4) (a : BitVec 4) (b : BitVec 4) (x : BitVec 1) (g : BitVec 3) (n : BitVec 3)
  /-- MMA_P8X4 (R220). Posts a plane matrix multiply-accumulate with 8 x 4 planes. -/
  | mmaP8x4 (d : BitVec 4) (a : BitVec 4) (b : BitVec 4) (x : BitVec 1) (g : BitVec 3) (n : BitVec 3)
  /-- MMA_P8X8 (R220). Posts a plane matrix multiply-accumulate with 8 x 8 planes. -/
  | mmaP8x8 (d : BitVec 4) (a : BitVec 4) (b : BitVec 4) (x : BitVec 1) (g : BitVec 3) (n : BitVec 3)
  /-- MRSUM_ROW (R225). Posts a write of a tile's row sums to scratchpad. -/
  | mrsumRow (d : BitVec 4) (a : BitVec 4) (x : BitVec 1) (g : BitVec 3) (n : BitVec 3)
  /-- MRSUM_COL (R225). Posts a write of a tile's column sums to scratchpad. -/
  | mrsumCol (d : BitVec 4) (a : BitVec 4) (x : BitVec 1) (g : BitVec 3) (n : BitVec 3)
  /-- MDRAIN_I32 (R226). Posts the drain of an i32 tile to a scratchpad tensor. -/
  | mdrainI32 (d : BitVec 4) (a : BitVec 4) (b : BitVec 4) (x : BitVec 1) (g : BitVec 3) (n : BitVec 3)
  /-- MDRAIN_W48 (R226). Posts the drain of a widening pair. -/
  | mdrainW48 (d : BitVec 4) (a : BitVec 4) (b : BitVec 4) (x : BitVec 1) (g : BitVec 3) (n : BitVec 3)
  /-- MDRAIN_F32 (R226). Posts the drain of an f32 tile, with conversion. -/
  | mdrainF32 (d : BitVec 4) (a : BitVec 4) (b : BitVec 4) (x : BitVec 1) (g : BitVec 3) (n : BitVec 3)
  /-- MPLANE (R216). Posts the conversion of a tensor window into PLANE layout. -/
  | mplane (d : BitVec 4) (a : BitVec 4) (b : BitVec 4) (x : BitVec 1) (g : BitVec 3) (n : BitVec 3)
  /-- MPLANE_T (R216). Posts the conversion of a transposed tensor window into PLANE layout. -/
  | mplaneT (d : BitVec 4) (a : BitVec 4) (b : BitVec 4) (x : BitVec 1) (g : BitVec 3) (n : BitVec 3)
  /-- MZPC (R224). Posts a zero-point correction of an integer tile. -/
  | mzpc (d : BitVec 4) (a : BitVec 4) (b : BitVec 4) (x : BitVec 1) (g : BitVec 3) (n : BitVec 3)
  /-- MFID (R237). Sets the bobbin's fidelity field for later matrix commands. -/
  | mfid (a : BitVec 4) (n : BitVec 3)
  /-- MSTAT (R245). Reads a fidelity counter or fid.state into sd. -/
  | mstat (d : BitVec 4) (i : BitVec 4) (n : BitVec 3)
  /-- FIDINJ (R250). Arms the core's single fidelity injection. -/
  | fidinj (a : BitVec 4) (b : BitVec 4) (n : BitVec 3)
  /-- PHINIT (R259). Initialises a phaser granule; traps when credits are outstanding. -/
  | phinit (a : BitVec 4) (n : BitVec 3)
  /-- PHINIT_FORCE (R259). Initialises a phaser granule even while credits are outstanding. -/
  | phinitForce (a : BitVec 4) (n : BitVec 3)
  /-- PHREG_SIG (R260). Registers the issuer as a signaller and returns a token. -/
  | phregSig (d : BitVec 4) (a : BitVec 4) (b : BitVec 4) (q : BitVec 1) (n : BitVec 3)
  /-- PHREG_WAIT (R260). Registers the issuer as a waiter and returns a waiter-only token. -/
  | phregWait (d : BitVec 4) (a : BitVec 4) (b : BitVec 4) (q : BitVec 1) (n : BitVec 3)
  /-- PHREG_BOTH (R260). Registers the issuer as signaller and waiter. -/
  | phregBoth (d : BitVec 4) (a : BitVec 4) (b : BitVec 4) (q : BitVec 1) (n : BitVec 3)
  /-- PHDEREG (R261). Removes a registration named by a token. -/
  | phdereg (d : BitVec 4) (a : BitVec 4) (b : BitVec 4) (r : BitVec 2) (q : BitVec 1) (n : BitVec 3)
  /-- PHARR (R262). Arrives at the phaser as a signaller and advances the token. -/
  | pharr (d : BitVec 4) (a : BitVec 4) (b : BitVec 4) (q : BitVec 1) (n : BitVec 3)
  /-- PHEXP (R263). Raises the expected byte count of the current phase. -/
  | phexp (d : BitVec 4) (a : BitVec 4) (b : BitVec 4) (q : BitVec 1) (n : BitVec 3)
  /-- PHWAIT (R264). Blocks until the token is no longer ahead, then acquires. -/
  | phwait (d : BitVec 4) (a : BitVec 4) (b : BitVec 4) (q : BitVec 1) (n : BitVec 3)
  /-- FENCE_ACQ (R276). Performs an acquire fence at a scope. -/
  | fenceAcq (e : BitVec 3) (n : BitVec 3)
  /-- FENCE_REL (R276). Performs a release fence at a scope. -/
  | fenceRel (e : BitVec 3) (n : BitVec 3)
  /-- FENCE_AR (R276). Performs an acquire-release fence at a scope. -/
  | fenceAr (e : BitVec 3) (n : BitVec 3)
  /-- XINV_PAGE (R310). Invalidates the TLB entries of one page and ASID within a scope. -/
  | xinvPage (a : BitVec 4) (b : BitVec 4) (e : BitVec 3) (n : BitVec 3)
  /-- XINV_RANGE (R310). Invalidates the TLB entries of a page range. -/
  | xinvRange (a : BitVec 4) (b : BitVec 4) (e : BitVec 3) (n : BitVec 3)
  /-- XINV_ASID (R310). Invalidates the TLB entries of one ASID. -/
  | xinvAsid (b : BitVec 4) (e : BitVec 3) (n : BitVec 3)
  /-- XINV_ALL (R310). Invalidates every TLB entry within a scope. -/
  | xinvAll (e : BitVec 3) (n : BitVec 3)
  /-- XFENCE (R305). Orders the thread's earlier stores before its later walks and XINVs. -/
  | xfence (n : BitVec 3)
  /-- XSYNC (R307). Waits for the thread's XINVs and for the accesses made through the entries they removed. -/
  | xsync (n : BitVec 3)
  /-- XPROBE (R311). Translates an address without faulting and returns the status and the leaf. -/
  | xprobe (d : BitVec 4) (a : BitVec 4) (b : BitVec 4) (n : BitVec 3)
  /-- MAP (R178). Maps a scratchpad region onto global virtual memory. -/
  | map (a : BitVec 4) (b : BitVec 4) (w : BitVec 1) (r : BitVec 3) (n : BitVec 3)
  /-- UNMAP (R178). Flushes a region and clears its valid bit. -/
  | unmap (r : BitVec 3) (n : BitVec 3)
  /-- RFLUSH (R178). Writes back the dirty lines of a region, and invalidates them when inv is set. -/
  | rflush (v : BitVec 1) (r : BitVec 3) (n : BitVec 3)
  /-- TRAP (R331). Raises the TRAP cause with an immediate in trap.info. -/
  | trap (i : BitVec 16) (n : BitVec 3)
  /-- SYSCALL (R331). Raises the SYSCALL cause with an immediate in trap.info. -/
  | syscall (i : BitVec 16) (n : BitVec 3)
  /-- ERET (R331). Returns from the trap handler to trap.pc plus the skip. -/
  | eret (s : BitVec 1) (n : BitVec 3)
  /-- CTXSAVE (R343). Requests the save of a block (and its quarter) to a context image. -/
  | ctxsave (d : BitVec 4) (a : BitVec 4) (b : BitVec 4) (n : BitVec 3)
  /-- CTXLOAD (R343). Queues a context image for restore. -/
  | ctxload (d : BitVec 4) (a : BitVec 4) (b : BitVec 4) (n : BitVec 3)
  /-- LAUNCH (R344). Reads a grid packet and appends it to a queue's device ring as a child grid. -/
  | launch (d : BitVec 4) (a : BitVec 4) (b : BitVec 4) (n : BitVec 3)
  /-- DCFG (R345). Changes the number of L2 ways carved into a domain's scratch. -/
  | dcfg (d : BitVec 4) (a : BitVec 4) (b : BitVec 4) (n : BitVec 3)
  /-- CTRRD (R336). Reads an event counter or the domain cycle count. -/
  | ctrrd (d : BitVec 4) (i : BitVec 4) (n : BitVec 3)
  /-- BKPT (R331). Raises BREAK in a thread, or stops a bobbin with BREAK. -/
  | bkpt (c : BitVec 5) (n : BitVec 3)
  /-- SYSRD (R332). Reads a system register into sd. -/
  | sysrd (d : BitVec 4) (i : BitVec 16) (n : BitVec 3)
  /-- SYSWR (R332). Writes sd to a system register. -/
  | syswr (d : BitVec 4) (i : BitVec 16) (n : BitVec 3)
  /-- NOP (R55). Does nothing except honour its stall count. -/
  | nop (x : BitVec 21) (n : BitVec 3)
  /-- PF_L1 (R182). Hints that a line should be prefetched into this core's L1. -/
  | pfL1 (x : BitVec 4) (a : BitVec 4) (y : BitVec 4) (o : BitVec 9) (n : BitVec 3)
  /-- PF_L2 (R182). Hints that a line should be prefetched into its home L2. -/
  | pfL2 (x : BitVec 4) (a : BitVec 4) (y : BitVec 4) (o : BitVec 9) (n : BitVec 3)
  /-- YIELD (R153). Hints that the braid's members should be refiled at PC + 4. -/
  | yield (x : BitVec 21) (n : BitVec 3)
  /-- MARK (R55). Makes imm16 visible to the event counters. -/
  | mark (x : BitVec 1) (y : BitVec 4) (i : BitVec 16) (n : BitVec 3)
  /-- PENDING_COMPLETE (R48). A variable-latency result is written and its pending mark is cleared. -/
  | pendingComplete (ag : Agent) (id part : Nat)
  /-- PHWAIT_COMPLETE (R264). A blocked wait is woken by a completed phase and resumes with an acquire. -/
  | phwaitComplete (ag : Agent)
  /-- SLEEP_EXPIRE (R153). A sleeping thread's cycle count runs out and the thread is filed at PC + 4. -/
  | sleepExpire (bid tid : Nat)
  /-- BIN_AGED (R141). A bin's age reaches 64 cycles; the bin becomes aged and the core comes under pressure. -/
  | binAged (core : Nat)
  /-- BRAID_DRAW (R144). A pipe with a free braid slot draws an eligible bin as a braid. -/
  | braidDraw (core : Nat)
  /-- BRAID_RETURN (R145). Under pressure, a braid that has issued 4 instructions, or has stalled for 16 cycles, is returned to the bins. -/
  | braidReturn (core : Nat)
  /-- EFFECTIVE_PRIORITY_UPDATE (R269). The core recomputes each block's effective priority from the WPRI of its signal list. -/
  | effectivePriorityUpdate (core : Nat)
  /-- STORE_GLOBAL_PERFORM (R273). An accepted store becomes performed for every agent. -/
  | storeGlobalPerform (id : Nat)
  /-- REGION_LINE_FILL (R179). The region map unit translates and fills an invalid region line before the access proceeds. -/
  | regionLineFill (bid r line : Nat)
  /-- REGION_WRITE_BACK (R179). The region map unit writes the masked bytes of a dirty line back to global memory. -/
  | regionWriteBack (bid r line : Nat)
  /-- KIOSK_REQUEST (R285). The owning kiosk performs one atomic, reduction or cpy.red update as one indivisible step. -/
  | kioskRequest (id : Nat)
  /-- PAGE_WALK (R298). The domain walker reads the page-table levels and checks each entry. -/
  | pageWalk (bid va kind : Nat)
  /-- AD_UPDATE (R304). The owning kiosk conditionally ORs the A (and D) bits into a leaf. -/
  | adUpdate (ag : Agent) (va kind : Nat)
  /-- XINV_TLB_PERFORM (R306). A TLB removes the entries an XINV covers and restarts walks that read them. -/
  | xinvTlbPerform (id core : Nat)
  /-- XSYNC_COMPLETE (R307). The XINVs and the accesses made through the removed entries are done, and XSYNC completes with an acquire. -/
  | xsyncComplete (bid tid : Nat)
  /-- FAULT_QUEUE_ENTRY_WRITE (R314). The device writes a fault service queue entry when a slot is free, then advances fsq.tail. -/
  | faultQueueEntryWrite (d k : Nat)
  /-- FSQ_RESP_RETRY (R315). A write of fsq.resp with ACTION retry resumes the parked agent. -/
  | fsqRespRetry (d seq : Nat)
  /-- FSQ_RESP_KILL (R315). A write of fsq.resp with ACTION kill ends the parked agent's access with XLATE_FAULT. -/
  | fsqRespKill (d seq : Nat)
  /-- FSQ_HEAD_WRITE (R314). Software frees fault service queue entries by writing fsq.head. -/
  | fsqHeadWrite (d index : Nat)
  /-- MMIO_REGISTER_WRITE (R334). A write to a domain MMIO register that has no behaviour of its own. -/
  | mmioRegisterWrite (d off width value : Nat)
  /-- BOBBIN_END (R187). A finishing bobbin's queues empty, and the bobbin becomes ended with a release. -/
  | bobbinEnd (core b : Nat)
  /-- COPY_COMMAND_START (R201). The copy command at the head of a queue starts and performs its accesses. -/
  | copyCommandStart (core b id parts : Nat)
  /-- COPY_COMMAND_COMPLETE (R201). Every access, credit and release of a copy command has been performed. -/
  | copyCommandComplete (core b id : Nat)
  /-- PHASER_CREDIT (R266). An engine or channel credit lands at a phaser, and is added to LAND or dropped. -/
  | phaserCredit (id : Nat)
  /-- MATRIX_COMMAND_START (R230). A matrix command starts; MMA and MZPC copy the tile into the shadow. -/
  | matrixCommandStart (core b id parts : Nat)
  /-- PLANE_PAIR_STEP (R221). The array performs one plane-pair step of an MMA on the significance slices. -/
  | planePairStep (core b id soft : Nat)
  /-- MATRIX_COMMAND_COMPLETE (R229). A matrix command's accesses, credit and release are done; MDRAIN with KEEP 0 releases the tile. -/
  | matrixCommandComplete (core b id : Nat)
  /-- LOW_RAIL_MOVE (R249). The domain's low rail moves to the least rail step requested. -/
  | lowRailMove (d : Nat)
  /-- MIGR_START (R325). A migration walks the page and freezes the old frame. -/
  | migrStart (core b id : Nat)
  /-- MIGR_DRAIN_DONE (R325). Earlier accesses to the frame are drained; the frame is copied and the leaf is swung. -/
  | migrDrainDone (core b id : Nat)
  /-- MIGR_INVALIDATE_DONE (R325). The invalidation completes; the frame is unfrozen, and the release and credit follow. -/
  | migrInvalidateDone (core b id : Nat)
  /-- MAILBOX_APPEND (R289). A message arrives at the target mailbox and completes a phase of the mailbox phaser. -/
  | mailboxAppend (bid : Nat)
  /-- COLL_CONTRIBUTION_ACCEPT (R294). A channel accepts a contribution into the oldest open round and returns the round number. -/
  | collContributionAccept (ag : Agent) (id : Nat)
  /-- COLL_ROUND_COMPLETE (R294). A round completes, and the channel writes the results and credits each contributing block. -/
  | collRoundComplete (chan : Nat)
  /-- PARKED_ARRIVAL (R342). The home kiosk performs an arrival for a parked name against the context image. -/
  | parkedArrival (id : Nat)
  /-- NAME_CACHE_FILL (R376). A name-cache miss reads the street index and fills the cache. -/
  | nameCacheFill (core bid name : Nat)
  /-- DCFG_COMPLETE (R345). A way change completes, and the previous way count is written to sd. -/
  | dcfgComplete (bid tid : Nat)
  /-- SAVE_IMAGE_WRITE (R341). Once the block has stopped, the device writes the context image with STATE 0 and parks the name. -/
  | saveImageWrite (unit : Nat)
  /-- IMAGE_COMMIT (R341). Once all image bytes are performed, COMMIT is written with STATE 1 as a release. -/
  | imageCommit (unit : Nat)
  /-- RESTORE_COMPLETE (R343). A restore finishes, the name goes live at the new core and STATE becomes 3. -/
  | restoreComplete (unit : Nat)
  /-- QUEUE_CREATE (R348). The host creates a queue from a descriptor; the front end checks it and clears the index pair. -/
  | queueCreate (num desc : Nat)
  /-- QUEUE_DESTROY (R363). The host destroys a queue, which drains its accepted grids. -/
  | queueDestroy (num : Nat)
  /-- QUEUE_DESTROY_ABORT (R363). The host destroys a queue with ABORT, and its grids stop with status 2. -/
  | queueDestroyAbort (num : Nat)
  /-- QUEUE_RESUME (R348). The host resumes a faulted queue; failed writes are made again and the packet is reread. -/
  | queueResume (num : Nat)
  /-- KICK (R356). The host asks that a held packet's pattern be run again. -/
  | kick (num : Nat)
  /-- DOORBELL (R349). A Umavo doorbell makes the front end read the write index as a fetch fence. -/
  | doorbell (num : Nat)
  /-- FETCH_FENCE_TIMER (R349). The front end rereads the write index every 65,536 fabric cycles. -/
  | fetchFenceTimer (num : Nat)
  /-- PACKET_TAKE (R351). The front end reads a packet, runs the pattern, checks the packet, and accepts or refuses it. -/
  | packetTake (num : Nat)
  /-- PATTERN_HOLD_RETRY (R356). After 65,536 fabric cycles, the pattern runs again on a held packet. -/
  | patternHoldRetry (num : Nat)
  /-- GRID_COMPLETE (R362). Every unit is done; the front end waits for the stores, writes DONE and journals. -/
  | gridComplete (gid : Nat)
  /-- JOURNAL_ENTRY_WRITE (R364). The front end writes a journal entry when the ring has room, and notifies the host. -/
  | journalEntryWrite
  /-- JACK (R364). The host advances the journal head. -/
  | jack (head : Nat)
  /-- DISPATCH_DECISION (R368). A domain dispatcher places, restores, steals or requests a pre-emption for a candidate. -/
  | dispatchDecision (d : Nat)
  /-- LOAD (R357). The host loads a kernel from a signed container, with the checks of R157. -/
  | load (ctxid root : Nat) (asid : BitVec 16) (container : List Byte) (lmtBase lmtCount : Nat) (targets traps : List Nat)
  /-- UNLOAD (R357). The host unloads a kernel. -/
  | unload (ctxid : Nat) (base : DWord)
  /-- ENROLL (R408). The host enrols a program key hash for a context. -/
  | enroll (ctxid : Nat) (key : List Byte) (svn : Nat)
  /-- ATTEST (R411). The device answers a nonce with a signed record of its measurements. -/
  | attest (nonce : List Byte)
  /-- POWER (R390). The device reads the RW fields of a domain's power record. -/
  | power (d : Nat)
  /-- HOST_PRE_EMPTION (R337). The host asks for a block to be saved to an address it names. -/
  | hostPreEmption (core idx pa : Nat)
  /-- CHANNEL_CONFIGURE (R387). The host configures a collective channel from a descriptor. -/
  | channelConfigure (desc : Nat)
  /-- CHANNEL_REMOVE (R293). The host removes a channel, which discards its open rounds. -/
  | channelRemove (chan : Nat)
  /-- PARTITION_REWIRE (R380). The host rewires a partition's edge links and its route table. -/
  | partitionRewire (num : Nat) (domains contexts : List Nat) (topology : Nat) (shape links : List Nat) (routes : List (Nat × List Nat))
  /-- HOST_WINDOW_WRITE (R385). Umavo writes a host window descriptor. -/
  | hostWindowWrite (w desc : Nat)
  /-- CORE_RETIRE (R378). A core is retired, and the grids resident on it stop. -/
  | coreRetire (core : Nat)
  /-- FABRIC_PROBE_SEND (R383). A queue blocked for 1024 fabric cycles sends a deadlock probe. -/
  | fabricProbeSend (id waitsOn : Nat)
  /-- FABRIC_PROBE_RECEIVE (R383). A queue forwards or discards a probe; a probe that returns to its origin moves a message into a reserve entry. -/
  | fabricProbeReceive (id : Nat) (blocked : Bool)
  /-- LINK_FLIT_ERROR (R381). An edge link resends a flit that failed its check. -/
  | linkFlitError (link : Nat)
  /-- PAYLOAD_ERROR (R381). An uncorrectable payload error stops the grids of the context the header names. -/
  | payloadError (ctxid : BitVec 32) (lost : Option Nat)
  /-- HEADER_ERROR (R381). An uncorrectable header error takes the partition down. -/
  | headerError (num : Nat)
  /-- EDGE_LINK_LOSS (R381). A lost edge link is removed from the route sets, and its messages are resent. -/
  | edgeLinkLoss (link : Nat)
  /-- RDMA_WRITE_ACK (R385). An RDMA WRITE is acknowledged, and the store is host-performed. -/
  | rdmaWriteAck (id : Nat)
  /-- HOST_CONNECTION_FAILURE (R385). A host connection fails, and the window becomes not VALID. -/
  | hostConnectionFailure (w : Nat)
  /-- SENSOR_SAMPLE (R392). Every 1 µs the controller samples the sensors, forms TEMP and ICUR, and sets G. -/
  | sensorSample (d : Nat) (temps currents : List Int) (watts : Nat)
  /-- GRANT_STEP_UP (R396). After 32 samples below 0.9 ILIM, the grant limit steps up. -/
  | grantStepUp (d : Nat)
  /-- CURRENT_STEP_DOWN (R395). After 100 samples above ILIM at G 4, SC increments. -/
  | currentStepDown (d : Nat)
  /-- CURRENT_STEP_UP (R395). After 10,000 samples below 0.8 ILIM at G 16, SC decrements. -/
  | currentStepUp (d : Nat)
  /-- THERMAL_STEP_DOWN (R395). After 1000 samples at or above TTHR, ST increments. -/
  | thermalStepDown (d : Nat)
  /-- THERMAL_STEP_UP (R395). After 10,000 samples below TTHR - 5 °C, ST decrements. -/
  | thermalStepUp (d : Nat)
  /-- MODULE_RATION_START (R397). After 20 samples above 36 kW, every domain is set to G 4. -/
  | moduleRationStart
  /-- MODULE_RATION_END (R397). After 1000 samples below 34 kW, the domains return to R396. -/
  | moduleRationEnd
  /-- MODULE_POWER_TRIP (R397). After 50 samples above 40 kW, the hard trip is taken with dump cause 2. -/
  | modulePowerTrip
  /-- HARD_TRIP (R402). The independent comparators see 115 °C; the core rails are removed and DRAM enters self-refresh. -/
  | hardTrip (d sensor : Nat)
  /-- DUMP_WRITE (R412). The always-on controller writes the fatal-error dump, FORMAT last. -/
  | dumpWrite
  /-- POWER_RECORD_WRITE (R390). Every 1 ms the device writes each domain record, SEQ last. -/
  | powerRecordWrite (d : Nat)
  /-- QUIESCE_POINT (R398). At the quiesce point the rails and clock change and the held messages are released. -/
  | quiescePoint (d : Nat)
  /-- QUIESCE_TIMEOUT (R398). After 100 µs without quiesce, the held messages are released. -/
  | quiesceTimeout (d : Nat)
  /-- QUIESCE_RETRY (R398). 1 ms after a timeout, the frequency change is tried again. -/
  | quiesceRetry (d : Nat)
  /-- CLOCK_RELOCK (R398). The domain clock relocks and counting resumes. -/
  | clockRelock (d : Nat)
  /-- UNCORRECTABLE_ERROR (R404). An uncorrectable error retires a core or poisons a granule. -/
  | uncorrectableError (place x : Nat)
  /-- MODULE_RESET (R409). The module resets and boots through the checked firmware chain. -/
  | moduleReset (areaAt tableAt streetAt streetLog : Nat)
  /-- WARM_RESET (R413). A reset that keeps DRAM, the journal, the dump and the images. -/
  | warmReset (areaAt tableAt streetAt streetLog : Nat)
  /-- COLD_RESET (R413). A reset that clears DRAM state. -/
  | coldReset (areaAt tableAt streetAt streetLog : Nat)
  /-- ILLEGAL_WORD (R61). A thread or bobbin issues a word that is not a defined instruction: a reserved major, an unlisted sub-op or a non-zero reserved field outside the hint region. The word raises ILLEGAL. -/
  | illegalWord (reason : Nat) (lane : Bool)
  /-- UNDEFINED_HINT (R55). A word of uniform majors 0x75-0x7F executes as nop, with its stall count honoured. -/
  | undefinedHint (n : BitVec 3)
  /-- FETCH_FAULT (R99). A thread's fetch at a PC that is non-canonical, unmapped or not executable faults before any word exists, with trap.pc at the target and trap.word 0. -/
  | fetchFault
  /-- POWER_LOSS (R341). Module power is lost, which leaves any save in progress at STATE 0. -/
  | powerLoss
  /-- PARTITION_RESET (R381). Umavo resets a partition that went down after a header error, so that it can run work again. -/
  | partitionReset (num : Nat)
  /-- FIRMWARE_WRITE (R409). In the recovery state, a Umavo command writes new firmware to module flash. -/
  | firmwareWrite (kind : Nat) (container : List Byte)
  /-- JOURNAL_ADDRESS_SET (R364). Umavo sets the journal's address, and the tail and head become 0. -/
  | journalAddressSet (pa : Nat)
  deriving DecidableEq, Repr

end Sys2Proof
end

