-- ==== Sys2Proof/WellFormed.lean ====
section
/-! DEFINITION. What a well-formed word instruction is: its register groups are aligned (R35, R38, R40, R104, R122: ILLEGAL
reason 4), its scope exists (R6: reason 5), and a field that another field makes unused is zero (R51, R190, R258: reason 3). -/

namespace Sys2Proof

/-- Register number `r` is the first of an aligned group of `n` registers (R35, R40, R122). -/
def aligned {w : Nat} (r : BitVec w) (n : Nat) : Bool := r.toNat % n == 0

/-- The vc of a three-source major, v(vd + mod), does not pass v63 (R35). -/
def windowOk (d : BitVec 6) (c : BitVec 3) : Bool := d.toNat + c.toNat ≤ 63

/-- An engine command names a guard slot only with G = 1 (R190). -/
def guardOk (x : BitVec 1) (g : BitVec 3) : Bool := x == 1#1 || g == 0#3

/-- A phaser instruction uses its sb field only with Q = 1 (R258). -/
def nameOk (q : BitVec 1) (b : BitVec 4) : Bool := q == 1#1 || b == 0#4

/-- No field that the other fields leave unused is non-zero (R51). -/
def Instr.reservedOk : Instr → Bool
  | .cpyL _ _ _ x g _ => guardOk x g
  | .cpyS _ _ _ x g _ => guardOk x g
  | .cpyT2 _ _ _ x g _ => guardOk x g
  | .cpyT3 _ _ _ x g _ => guardOk x g
  | .cpyG _ _ _ x g _ => guardOk x g
  | .cpyRedAdd _ _ _ x g _ => guardOk x g
  | .cpyRedMin _ _ _ x g _ => guardOk x g
  | .cpyRedMax _ _ _ x g _ => guardOk x g
  | .cpyRedAnd _ _ _ x g _ => guardOk x g
  | .cpyRedOr _ _ _ x g _ => guardOk x g
  | .cpyRedXor _ _ _ x g _ => guardOk x g
  | .cpyM _ _ _ x g _ => guardOk x g
  | .cpyMigr _ _ _ x g _ => guardOk x g
  | .mzero _ _ x g _ => guardOk x g
  | .mmaP1x1 _ _ _ x g _ => guardOk x g
  | .mmaP2x1 _ _ _ x g _ => guardOk x g
  | .mmaP2x2 _ _ _ x g _ => guardOk x g
  | .mmaP4x1 _ _ _ x g _ => guardOk x g
  | .mmaP4x2 _ _ _ x g _ => guardOk x g
  | .mmaP4x4 _ _ _ x g _ => guardOk x g
  | .mmaP8x1 _ _ _ x g _ => guardOk x g
  | .mmaP8x2 _ _ _ x g _ => guardOk x g
  | .mmaP8x4 _ _ _ x g _ => guardOk x g
  | .mmaP8x8 _ _ _ x g _ => guardOk x g
  | .mrsumRow _ _ x g _ => guardOk x g
  | .mrsumCol _ _ x g _ => guardOk x g
  | .mdrainI32 _ _ _ x g _ => guardOk x g
  | .mdrainW48 _ _ _ x g _ => guardOk x g
  | .mdrainF32 _ _ _ x g _ => guardOk x g
  | .mplane _ _ _ x g _ => guardOk x g
  | .mplaneT _ _ _ x g _ => guardOk x g
  | .mzpc _ _ _ x g _ => guardOk x g
  | .phregSig _ _ b q _ => nameOk q b
  | .phregWait _ _ b q _ => nameOk q b
  | .phregBoth _ _ b q _ => nameOk q b
  | .phdereg _ _ b _ q _ => nameOk q b
  | .pharr _ _ b q _ => nameOk q b
  | .phexp _ _ b q _ => nameOk q b
  | .phwait _ _ b q _ => nameOk q b
  | _ => true

/-- Every register group that the instruction names is aligned and in range (ILLEGAL reason 4, R52). -/
def Instr.groupsOk : Instr → Bool
  | .vmadI32 d _ _ c _ => windowOk d c
  | .vmadwI32 d _ _ c _ => windowOk d c && aligned d 2 && aligned c 2
  | .vmadwN32 d _ _ c _ => windowOk d c && aligned d 2 && aligned c 2
  | .vbfiB32 d _ _ c _ => windowOk d c
  | .vdp4I8 d _ _ c _ => windowOk d c
  | .vdp4N8 d _ _ c _ => windowOk d c
  | .vsadN8 d _ _ c _ => windowOk d c
  | .ffmaF32 d _ _ c _ => windowOk d c
  | .ffmaF16 d _ _ c _ => windowOk d c
  | .ffmaBf16 d _ _ c _ => windowOk d c
  | .ldN8 _ a _ _ => aligned a 2
  | .ldI8 _ a _ _ => aligned a 2
  | .ldN16 _ a _ _ => aligned a 2
  | .ldI16 _ a _ _ => aligned a 2
  | .ldB32 _ a _ _ => aligned a 2
  | .ldB64 d a _ _ => aligned a 2 && aligned d 2
  | .ldB128 d a _ _ => aligned a 2 && aligned d 4
  | .stB8 _ a _ _ => aligned a 2
  | .stB16 _ a _ _ => aligned a 2
  | .stB32 _ a _ _ => aligned a 2
  | .stB64 d a _ _ => aligned a 2 && aligned d 2
  | .stB128 d a _ _ => aligned a 2 && aligned d 4
  | .ldAcqB32 _ a _ _ => aligned a 2
  | .stRelB32 _ a _ _ => aligned a 2
  | .cacheEvl1 a _ => aligned a 2
  | .cacheWbl2 a _ => aligned a 2
  | .cacheEvl2 a _ => aligned a 2
  | .brx a _ => aligned a 2
  | .callx d a _ => aligned a 2 && aligned d 2
  | .ret a _ => aligned a 2
  | .ldsB64 d _ _ _ => aligned d 2
  | .stsB64 d _ _ _ => aligned d 2
  | .mrecv d _ _ _ => aligned d 4
  | .mprobe d _ _ _ => aligned d 4
  | .npackF8e4 _ a _ => aligned a 4
  | .nunpackF8e4 d _ _ => aligned d 4
  | .npackF8e5 _ a _ => aligned a 4
  | .nunpackF8e5 d _ _ => aligned d 4
  | .npackF6e2 _ a _ => aligned a 4
  | .nunpackF6e2 d _ _ => aligned d 4
  | .npackF6e3 _ a _ => aligned a 4
  | .nunpackF6e3 d _ _ => aligned d 4
  | .npackF4e2 _ a _ => aligned a 8
  | .nunpackF4e2 d _ _ => aligned d 8
  | .dqQ4 d _ _ _ => aligned d 8
  | .dqQ8 d _ _ _ => aligned d 4
  | .atomAddI32 _ a _ _ => aligned a 2
  | .atomMinI32 _ a _ _ => aligned a 2
  | .atomMaxI32 _ a _ _ => aligned a 2
  | .atomMinN32 _ a _ _ => aligned a 2
  | .atomMaxN32 _ a _ _ => aligned a 2
  | .atomAndB32 _ a _ _ => aligned a 2
  | .atomOrB32 _ a _ _ => aligned a 2
  | .atomXorB32 _ a _ _ => aligned a 2
  | .atomXchgB32 _ a _ _ => aligned a 2
  | .atomCasB32 _ a b _ => aligned a 2 && aligned b 2
  | .atomAddF32 _ a _ _ => aligned a 2
  | .atomAddI64 d a b _ => aligned a 2 && aligned d 2 && aligned b 2
  | .atomMaxN64 d a b _ => aligned a 2 && aligned d 2 && aligned b 2
  | .atomXchgB64 d a b _ => aligned a 2 && aligned d 2 && aligned b 2
  | .atomCasB64 d a b _ => aligned a 2 && aligned d 2 && aligned b 4
  | .redAddI32 a _ _ => aligned a 2
  | .redMinI32 a _ _ => aligned a 2
  | .redMaxI32 a _ _ => aligned a 2
  | .redMinN32 a _ _ => aligned a 2
  | .redMaxN32 a _ _ => aligned a 2
  | .redAndB32 a _ _ => aligned a 2
  | .redOrB32 a _ _ => aligned a 2
  | .redXorB32 a _ _ => aligned a 2
  | .redAddF32 a _ _ => aligned a 2
  | .redAddI64 a b _ => aligned a 2 && aligned b 2
  | .msend d _ _ _ => aligned d 2
  | .uaddI64 d a b _ => aligned d 2 && aligned a 2 && aligned b 2
  | .lduB32 _ a _ _ => aligned a 2
  | .ldcB32 _ a _ _ => aligned a 2
  | .lduB64 d a _ _ => aligned d 2 && aligned a 2
  | .ldcB64 d a _ _ => aligned d 2 && aligned a 2
  | .cpyL d a b _ _ _ => aligned d 2 && aligned a 2 && aligned b 4
  | .cpyS d a b _ _ _ => aligned d 2 && aligned a 2 && aligned b 4
  | .cpyT2 d a b _ _ _ => aligned d 2 && aligned a 2 && aligned b 4
  | .cpyT3 d a b _ _ _ => aligned d 2 && aligned a 2 && aligned b 4
  | .cpyG d a b _ _ _ => aligned d 2 && aligned a 2 && aligned b 4
  | .cpyRedAdd d a b _ _ _ => aligned d 2 && aligned a 2 && aligned b 4
  | .cpyRedMin d a b _ _ _ => aligned d 2 && aligned a 2 && aligned b 4
  | .cpyRedMax d a b _ _ _ => aligned d 2 && aligned a 2 && aligned b 4
  | .cpyRedAnd d a b _ _ _ => aligned d 2 && aligned a 2 && aligned b 4
  | .cpyRedOr d a b _ _ _ => aligned d 2 && aligned a 2 && aligned b 4
  | .cpyRedXor d a b _ _ _ => aligned d 2 && aligned a 2 && aligned b 4
  | .cpyM d a b _ _ _ => aligned d 2 && aligned a 2 && aligned b 4
  | .cpyMigr d a b _ _ _ => aligned d 2 && aligned a 2 && aligned b 4
  | .mplane d a b _ _ _ => aligned d 2 && aligned a 2 && aligned b 4
  | .mplaneT d a b _ _ _ => aligned d 2 && aligned a 2 && aligned b 4
  | .mmaP1x1 _ a b _ _ _ => aligned a 2 && aligned b 4
  | .mmaP2x1 _ a b _ _ _ => aligned a 2 && aligned b 4
  | .mmaP2x2 _ a b _ _ _ => aligned a 2 && aligned b 4
  | .mmaP4x1 _ a b _ _ _ => aligned a 2 && aligned b 4
  | .mmaP4x2 _ a b _ _ _ => aligned a 2 && aligned b 4
  | .mmaP4x4 _ a b _ _ _ => aligned a 2 && aligned b 4
  | .mmaP8x1 _ a b _ _ _ => aligned a 2 && aligned b 4
  | .mmaP8x2 _ a b _ _ _ => aligned a 2 && aligned b 4
  | .mmaP8x4 _ a b _ _ _ => aligned a 2 && aligned b 4
  | .mmaP8x8 _ a b _ _ _ => aligned a 2 && aligned b 4
  | .mdrainI32 _ a b _ _ _ => aligned a 2 && aligned b 4
  | .mdrainW48 d a b _ _ _ => aligned a 2 && aligned b 4 && aligned d 2
  | .mdrainF32 _ a b _ _ _ => aligned a 2 && aligned b 4
  | .mzero d a _ _ _ => (a != 2#4 || aligned d 2)
  | .xinvPage a _ _ _ => aligned a 2
  | .xinvRange a b _ _ => aligned a 2 && aligned b 2
  | .map a _ _ _ _ => aligned a 2
  | .ctxsave _ a _ _ => aligned a 2
  | .ctxload _ a _ _ => aligned a 2
  | .launch _ a _ _ => aligned a 2
  | .xprobe d a _ _ => aligned d 2 && aligned a 2
  | _ => true

/-- The scope field holds 0 to 4 (R6; ILLEGAL reason 5, R52). -/
def Instr.scopeOk : Instr → Bool
  | .ldAcqB32 _ _ e _ => e.toNat ≤ 4
  | .stRelB32 _ _ e _ => e.toNat ≤ 4
  | .fenceAcq e _ => e.toNat ≤ 4
  | .fenceRel e _ => e.toNat ≤ 4
  | .fenceAr e _ => e.toNat ≤ 4
  | .xinvPage _ _ e _ => e.toNat ≤ 4
  | .xinvRange _ _ e _ => e.toNat ≤ 4
  | .xinvAsid _ e _ => e.toNat ≤ 4
  | .xinvAll e _ => e.toNat ≤ 4
  | _ => true

/-- An event of spec/95: it has no encoding. -/
def Instr.isEvent : Instr → Bool
  | .pendingComplete .. => true
  | .phwaitComplete .. => true
  | .sleepExpire .. => true
  | .binAged .. => true
  | .braidDraw .. => true
  | .braidReturn .. => true
  | .effectivePriorityUpdate .. => true
  | .storeGlobalPerform .. => true
  | .regionLineFill .. => true
  | .regionWriteBack .. => true
  | .kioskRequest .. => true
  | .pageWalk .. => true
  | .adUpdate .. => true
  | .xinvTlbPerform .. => true
  | .xsyncComplete .. => true
  | .faultQueueEntryWrite .. => true
  | .fsqRespRetry .. => true
  | .fsqRespKill .. => true
  | .fsqHeadWrite .. => true
  | .mmioRegisterWrite .. => true
  | .bobbinEnd .. => true
  | .copyCommandStart .. => true
  | .copyCommandComplete .. => true
  | .phaserCredit .. => true
  | .matrixCommandStart .. => true
  | .planePairStep .. => true
  | .matrixCommandComplete .. => true
  | .lowRailMove .. => true
  | .migrStart .. => true
  | .migrDrainDone .. => true
  | .migrInvalidateDone .. => true
  | .mailboxAppend .. => true
  | .collContributionAccept .. => true
  | .collRoundComplete .. => true
  | .parkedArrival .. => true
  | .nameCacheFill .. => true
  | .dcfgComplete .. => true
  | .saveImageWrite .. => true
  | .imageCommit .. => true
  | .restoreComplete .. => true
  | .queueCreate .. => true
  | .queueDestroy .. => true
  | .queueDestroyAbort .. => true
  | .queueResume .. => true
  | .kick .. => true
  | .doorbell .. => true
  | .fetchFenceTimer .. => true
  | .packetTake .. => true
  | .patternHoldRetry .. => true
  | .gridComplete .. => true
  | .journalEntryWrite .. => true
  | .jack .. => true
  | .dispatchDecision .. => true
  | .load .. => true
  | .unload .. => true
  | .enroll .. => true
  | .attest .. => true
  | .power .. => true
  | .hostPreEmption .. => true
  | .channelConfigure .. => true
  | .channelRemove .. => true
  | .partitionRewire .. => true
  | .hostWindowWrite .. => true
  | .coreRetire .. => true
  | .fabricProbeSend .. => true
  | .fabricProbeReceive .. => true
  | .linkFlitError .. => true
  | .payloadError .. => true
  | .headerError .. => true
  | .edgeLinkLoss .. => true
  | .rdmaWriteAck .. => true
  | .hostConnectionFailure .. => true
  | .sensorSample .. => true
  | .grantStepUp .. => true
  | .currentStepDown .. => true
  | .currentStepUp .. => true
  | .thermalStepDown .. => true
  | .thermalStepUp .. => true
  | .moduleRationStart .. => true
  | .moduleRationEnd .. => true
  | .modulePowerTrip .. => true
  | .hardTrip .. => true
  | .dumpWrite .. => true
  | .powerRecordWrite .. => true
  | .quiescePoint .. => true
  | .quiesceTimeout .. => true
  | .quiesceRetry .. => true
  | .clockRelock .. => true
  | .uncorrectableError .. => true
  | .moduleReset .. => true
  | .warmReset .. => true
  | .coldReset .. => true
  | .illegalWord .. => true
  | .undefinedHint .. => true
  | .fetchFault .. => true
  | .powerLoss .. => true
  | .partitionReset .. => true
  | .firmwareWrite .. => true
  | .journalAddressSet .. => true
  | _ => false

/-- A word instruction that its word alone does not make ILLEGAL with reasons 1 to 5 (R51, R52). -/
def Instr.wf (i : Instr) : Bool := !i.isEvent && i.reservedOk && i.groupsOk && i.scopeOk

end Sys2Proof
end

