-- ==== Sys2Proof/Decode.lean ====
section
/-! DEFINITION. The decoder, total on any word, and after it the encoder, both from the encoding tables of
spec/02_encoding.md (R32 to R61). A word that is no instruction is refused by the ILLEGAL reason of R52. -/

namespace Sys2Proof

/-- Why a word is not an instruction (R52, R61): the ILLEGAL reasons 1 to 5 that the word alone decides, and the
undefined hints of R55, which are no ILLEGAL. -/
inductive Reject where
  /-- Reason 1: reserved major. -/
  | major
  /-- Reason 2: reserved sub-op of a defined major. -/
  | subop
  /-- Reason 3: non-zero reserved field. -/
  | field
  /-- Reason 4: register-range error. -/
  | group
  /-- Reason 5: scope 5 to 7. -/
  | scope
  /-- Uniform majors 0x75 to 0x7F: executes as nop (R55). -/
  | hint
  deriving DecidableEq, Repr

/-- The reason value of R52 (0 for the undefined hints, which have none). -/
def Reject.reason : Reject → Nat
  | .major => 1 | .subop => 2 | .field => 3 | .group => 4 | .scope => 5 | .hint => 0

/-- A reserved field of the word is zero (R51). -/
def zeroField (w : Word) (lo len : Nat) : Bool := w.extractLsb' lo len == 0#len

/-- The instruction, unless a reserved field is non-zero (R51). -/
def reserved (ok : Bool) (i : Instr) : Except Reject Instr := if ok then .ok i else .error .field

/-- The lane majors 0x00 to 0x2F, by bits [31:24] and the sub-op (R56 to R59). -/
noncomputable def decodeLane0 (w : Word) : Nat → Except Reject Instr
  | 0x01 =>
    match (w.extractLsb' 3 3).toNat with
    | 0 => .ok (.vaddI32 (w.extractLsb' 18 6) (w.extractLsb' 12 6) (w.extractLsb' 6 6) (w.extractLsb' 0 3))
    | 1 => .ok (.vaddI32Sat (w.extractLsb' 18 6) (w.extractLsb' 12 6) (w.extractLsb' 6 6) (w.extractLsb' 0 3))
    | 2 => .ok (.vaddN32Sat (w.extractLsb' 18 6) (w.extractLsb' 12 6) (w.extractLsb' 6 6) (w.extractLsb' 0 3))
    | _ => .error .subop
  | 0x02 =>
    match (w.extractLsb' 3 3).toNat with
    | 0 => .ok (.vsubI32 (w.extractLsb' 18 6) (w.extractLsb' 12 6) (w.extractLsb' 6 6) (w.extractLsb' 0 3))
    | 1 => .ok (.vsubI32Sat (w.extractLsb' 18 6) (w.extractLsb' 12 6) (w.extractLsb' 6 6) (w.extractLsb' 0 3))
    | 2 => .ok (.vsubN32Sat (w.extractLsb' 18 6) (w.extractLsb' 12 6) (w.extractLsb' 6 6) (w.extractLsb' 0 3))
    | _ => .error .subop
  | 0x03 => .ok (.vaddc (w.extractLsb' 18 6) (w.extractLsb' 12 6) (w.extractLsb' 6 6) (w.extractLsb' 3 3) (w.extractLsb' 0 3))
  | 0x04 => .ok (.vsubb (w.extractLsb' 18 6) (w.extractLsb' 12 6) (w.extractLsb' 6 6) (w.extractLsb' 3 3) (w.extractLsb' 0 3))
  | 0x05 =>
    match (w.extractLsb' 3 3).toNat with
    | 0 => .ok (.vmulI32 (w.extractLsb' 18 6) (w.extractLsb' 12 6) (w.extractLsb' 6 6) (w.extractLsb' 0 3))
    | _ => .error .subop
  | 0x06 =>
    match (w.extractLsb' 3 3).toNat with
    | 0 => .ok (.vmulhiI32 (w.extractLsb' 18 6) (w.extractLsb' 12 6) (w.extractLsb' 6 6) (w.extractLsb' 0 3))
    | 1 => .ok (.vmulhiN32 (w.extractLsb' 18 6) (w.extractLsb' 12 6) (w.extractLsb' 6 6) (w.extractLsb' 0 3))
    | _ => .error .subop
  | 0x07 => .ok (.vmadI32 (w.extractLsb' 18 6) (w.extractLsb' 12 6) (w.extractLsb' 6 6) (w.extractLsb' 3 3) (w.extractLsb' 0 3))
  | 0x08 => .ok (.vmadwI32 (w.extractLsb' 18 6) (w.extractLsb' 12 6) (w.extractLsb' 6 6) (w.extractLsb' 3 3) (w.extractLsb' 0 3))
  | 0x09 => .ok (.vmadwN32 (w.extractLsb' 18 6) (w.extractLsb' 12 6) (w.extractLsb' 6 6) (w.extractLsb' 3 3) (w.extractLsb' 0 3))
  | 0x0A =>
    match (w.extractLsb' 3 3).toNat with
    | 0 => .ok (.vminI32 (w.extractLsb' 18 6) (w.extractLsb' 12 6) (w.extractLsb' 6 6) (w.extractLsb' 0 3))
    | _ => .error .subop
  | 0x0B =>
    match (w.extractLsb' 3 3).toNat with
    | 0 => .ok (.vminN32 (w.extractLsb' 18 6) (w.extractLsb' 12 6) (w.extractLsb' 6 6) (w.extractLsb' 0 3))
    | _ => .error .subop
  | 0x0C =>
    match (w.extractLsb' 3 3).toNat with
    | 0 => .ok (.vmaxI32 (w.extractLsb' 18 6) (w.extractLsb' 12 6) (w.extractLsb' 6 6) (w.extractLsb' 0 3))
    | _ => .error .subop
  | 0x0D =>
    match (w.extractLsb' 3 3).toNat with
    | 0 => .ok (.vmaxN32 (w.extractLsb' 18 6) (w.extractLsb' 12 6) (w.extractLsb' 6 6) (w.extractLsb' 0 3))
    | _ => .error .subop
  | 0x0E =>
    match (w.extractLsb' 3 3).toNat with
    | 0 => .ok (.vshlB32 (w.extractLsb' 18 6) (w.extractLsb' 12 6) (w.extractLsb' 6 6) (w.extractLsb' 0 3))
    | _ => .error .subop
  | 0x0F =>
    match (w.extractLsb' 3 3).toNat with
    | 0 => .ok (.vshrN32 (w.extractLsb' 18 6) (w.extractLsb' 12 6) (w.extractLsb' 6 6) (w.extractLsb' 0 3))
    | _ => .error .subop
  | 0x10 =>
    match (w.extractLsb' 3 3).toNat with
    | 0 => .ok (.vshrI32 (w.extractLsb' 18 6) (w.extractLsb' 12 6) (w.extractLsb' 6 6) (w.extractLsb' 0 3))
    | _ => .error .subop
  | 0x11 =>
    match (w.extractLsb' 3 3).toNat with
    | 0 => .ok (.vrotlB32 (w.extractLsb' 18 6) (w.extractLsb' 12 6) (w.extractLsb' 6 6) (w.extractLsb' 0 3))
    | 1 => .ok (.vrotrB32 (w.extractLsb' 18 6) (w.extractLsb' 12 6) (w.extractLsb' 6 6) (w.extractLsb' 0 3))
    | _ => .error .subop
  | 0x12 =>
    match (w.extractLsb' 3 3).toNat with
    | 0 => .ok (.vbfeN32 (w.extractLsb' 18 6) (w.extractLsb' 12 6) (w.extractLsb' 6 6) (w.extractLsb' 0 3))
    | 1 => .ok (.vbfeI32 (w.extractLsb' 18 6) (w.extractLsb' 12 6) (w.extractLsb' 6 6) (w.extractLsb' 0 3))
    | _ => .error .subop
  | 0x13 => .ok (.vbfiB32 (w.extractLsb' 18 6) (w.extractLsb' 12 6) (w.extractLsb' 6 6) (w.extractLsb' 3 3) (w.extractLsb' 0 3))
  | 0x14 =>
    match (w.extractLsb' 3 3).toNat with
    | 0 => reserved (zeroField w 6 6) (.vpopcB32 (w.extractLsb' 18 6) (w.extractLsb' 12 6) (w.extractLsb' 0 3))
    | _ => .error .subop
  | 0x15 =>
    match (w.extractLsb' 3 3).toNat with
    | 0 => reserved (zeroField w 6 6) (.vclzB32 (w.extractLsb' 18 6) (w.extractLsb' 12 6) (w.extractLsb' 0 3))
    | _ => .error .subop
  | 0x16 =>
    match (w.extractLsb' 3 3).toNat with
    | 0 => reserved (zeroField w 6 6) (.vbrevB32 (w.extractLsb' 18 6) (w.extractLsb' 12 6) (w.extractLsb' 0 3))
    | _ => .error .subop
  | 0x17 =>
    match (w.extractLsb' 3 3).toNat with
    | 0 => .ok (.vpermB32 (w.extractLsb' 18 6) (w.extractLsb' 12 6) (w.extractLsb' 6 6) (w.extractLsb' 0 3))
    | _ => .error .subop
  | 0x18 => .ok (.vdp4I8 (w.extractLsb' 18 6) (w.extractLsb' 12 6) (w.extractLsb' 6 6) (w.extractLsb' 3 3) (w.extractLsb' 0 3))
  | 0x19 => .ok (.vdp4N8 (w.extractLsb' 18 6) (w.extractLsb' 12 6) (w.extractLsb' 6 6) (w.extractLsb' 3 3) (w.extractLsb' 0 3))
  | 0x1A => .ok (.vsadN8 (w.extractLsb' 18 6) (w.extractLsb' 12 6) (w.extractLsb' 6 6) (w.extractLsb' 3 3) (w.extractLsb' 0 3))
  | 0x1B =>
    match (w.extractLsb' 3 3).toNat with
    | 0 => .ok (.vandB32 (w.extractLsb' 18 6) (w.extractLsb' 12 6) (w.extractLsb' 6 6) (w.extractLsb' 0 3))
    | 1 => .ok (.vorB32 (w.extractLsb' 18 6) (w.extractLsb' 12 6) (w.extractLsb' 6 6) (w.extractLsb' 0 3))
    | 2 => .ok (.vxorB32 (w.extractLsb' 18 6) (w.extractLsb' 12 6) (w.extractLsb' 6 6) (w.extractLsb' 0 3))
    | 3 => .ok (.vandnB32 (w.extractLsb' 18 6) (w.extractLsb' 12 6) (w.extractLsb' 6 6) (w.extractLsb' 0 3))
    | 4 => reserved (zeroField w 6 6) (.vnotB32 (w.extractLsb' 18 6) (w.extractLsb' 12 6) (w.extractLsb' 0 3))
    | _ => .error .subop
  | 0x1C =>
    match (w.extractLsb' 3 3).toNat with
    | 0 => reserved (zeroField w 21 3) (.vcmpEqI32 (w.extractLsb' 18 3) (w.extractLsb' 12 6) (w.extractLsb' 6 6) (w.extractLsb' 0 3))
    | 1 => reserved (zeroField w 21 3) (.vcmpNeI32 (w.extractLsb' 18 3) (w.extractLsb' 12 6) (w.extractLsb' 6 6) (w.extractLsb' 0 3))
    | 2 => reserved (zeroField w 21 3) (.vcmpLtI32 (w.extractLsb' 18 3) (w.extractLsb' 12 6) (w.extractLsb' 6 6) (w.extractLsb' 0 3))
    | 3 => reserved (zeroField w 21 3) (.vcmpLeI32 (w.extractLsb' 18 3) (w.extractLsb' 12 6) (w.extractLsb' 6 6) (w.extractLsb' 0 3))
    | 4 => reserved (zeroField w 21 3) (.vcmpGtI32 (w.extractLsb' 18 3) (w.extractLsb' 12 6) (w.extractLsb' 6 6) (w.extractLsb' 0 3))
    | 5 => reserved (zeroField w 21 3) (.vcmpGeI32 (w.extractLsb' 18 3) (w.extractLsb' 12 6) (w.extractLsb' 6 6) (w.extractLsb' 0 3))
    | _ => .error .subop
  | 0x1D =>
    match (w.extractLsb' 3 3).toNat with
    | 2 => reserved (zeroField w 21 3) (.vcmpLtN32 (w.extractLsb' 18 3) (w.extractLsb' 12 6) (w.extractLsb' 6 6) (w.extractLsb' 0 3))
    | 3 => reserved (zeroField w 21 3) (.vcmpLeN32 (w.extractLsb' 18 3) (w.extractLsb' 12 6) (w.extractLsb' 6 6) (w.extractLsb' 0 3))
    | 4 => reserved (zeroField w 21 3) (.vcmpGtN32 (w.extractLsb' 18 3) (w.extractLsb' 12 6) (w.extractLsb' 6 6) (w.extractLsb' 0 3))
    | 5 => reserved (zeroField w 21 3) (.vcmpGeN32 (w.extractLsb' 18 3) (w.extractLsb' 12 6) (w.extractLsb' 6 6) (w.extractLsb' 0 3))
    | _ => .error .subop
  | 0x1E => .ok (.vselB32 (w.extractLsb' 18 6) (w.extractLsb' 12 6) (w.extractLsb' 6 6) (w.extractLsb' 3 3) (w.extractLsb' 0 3))
  | 0x1F =>
    match (w.extractLsb' 3 3).toNat with
    | 0 => reserved (zeroField w 21 3 && zeroField w 15 3 && zeroField w 9 3) (.kand (w.extractLsb' 18 3) (w.extractLsb' 12 3) (w.extractLsb' 6 3) (w.extractLsb' 0 3))
    | 1 => reserved (zeroField w 21 3 && zeroField w 15 3 && zeroField w 9 3) (.kor (w.extractLsb' 18 3) (w.extractLsb' 12 3) (w.extractLsb' 6 3) (w.extractLsb' 0 3))
    | 2 => reserved (zeroField w 21 3 && zeroField w 15 3 && zeroField w 9 3) (.kxor (w.extractLsb' 18 3) (w.extractLsb' 12 3) (w.extractLsb' 6 3) (w.extractLsb' 0 3))
    | 3 => reserved (zeroField w 21 3 && zeroField w 15 3 && zeroField w 9 3) (.kandn (w.extractLsb' 18 3) (w.extractLsb' 12 3) (w.extractLsb' 6 3) (w.extractLsb' 0 3))
    | 4 => reserved (zeroField w 21 3 && zeroField w 15 3 && zeroField w 6 6) (.knot (w.extractLsb' 18 3) (w.extractLsb' 12 3) (w.extractLsb' 0 3))
    | 5 => reserved (zeroField w 21 3 && zeroField w 15 3 && zeroField w 6 6) (.kmov (w.extractLsb' 18 3) (w.extractLsb' 12 3) (w.extractLsb' 0 3))
    | _ => .error .subop
  | 0x20 =>
    match (w.extractLsb' 3 3).toNat with
    | 0 => reserved (zeroField w 6 6) (.vmovB32 (w.extractLsb' 18 6) (w.extractLsb' 12 6) (w.extractLsb' 0 3))
    | _ => .error .subop
  | 0x21 =>
    match (w.extractLsb' 3 3).toNat with
    | 0 => reserved (zeroField w 16 2 && zeroField w 6 6) (.vmovsB32 (w.extractLsb' 18 6) (w.extractLsb' 12 4) (w.extractLsb' 0 3))
    | _ => .error .subop
  | 0x22 =>
    match (w.extractLsb' 3 3).toNat with
    | 0 => .ok (.vgetB32 (w.extractLsb' 18 6) (w.extractLsb' 12 6) (w.extractLsb' 6 6) (w.extractLsb' 0 3))
    | _ => .error .subop
  | 0x23 =>
    match (w.extractLsb' 3 3).toNat with
    | 0 => reserved (zeroField w 6 12) (.vkrd (w.extractLsb' 18 6) (w.extractLsb' 0 3))
    | 1 => reserved (zeroField w 18 6) (.vkwr (w.extractLsb' 12 6) (w.extractLsb' 6 6) (w.extractLsb' 0 3))
    | _ => .error .subop
  | 0x24 => .ok (.vaddiI32 (w.extractLsb' 18 6) (w.extractLsb' 12 6) (w.extractLsb' 3 9) (w.extractLsb' 0 3))
  | 0x25 => .ok (.vandiB32 (w.extractLsb' 18 6) (w.extractLsb' 12 6) (w.extractLsb' 3 9) (w.extractLsb' 0 3))
  | 0x26 => .ok (.voriB32 (w.extractLsb' 18 6) (w.extractLsb' 12 6) (w.extractLsb' 3 9) (w.extractLsb' 0 3))
  | 0x27 => .ok (.vxoriB32 (w.extractLsb' 18 6) (w.extractLsb' 12 6) (w.extractLsb' 3 9) (w.extractLsb' 0 3))
  | 0x28 => reserved (zeroField w 8 4) (.vshliB32 (w.extractLsb' 18 6) (w.extractLsb' 12 6) (w.extractLsb' 3 5) (w.extractLsb' 0 3))
  | 0x29 => reserved (zeroField w 8 4) (.vshriN32 (w.extractLsb' 18 6) (w.extractLsb' 12 6) (w.extractLsb' 3 5) (w.extractLsb' 0 3))
  | 0x2A => reserved (zeroField w 8 4) (.vshriI32 (w.extractLsb' 18 6) (w.extractLsb' 12 6) (w.extractLsb' 3 5) (w.extractLsb' 0 3))
  | 0x2B => reserved (zeroField w 12 6) (.vmoviI32 (w.extractLsb' 18 6) (w.extractLsb' 3 9) (w.extractLsb' 0 3))
  | 0x2C =>
    match (w.extractLsb' 3 3).toNat with
    | 0 => .ok (.collSumF32 (w.extractLsb' 18 6) (w.extractLsb' 12 6) (w.extractLsb' 6 6) (w.extractLsb' 0 3))
    | 1 => .ok (.collSumI32 (w.extractLsb' 18 6) (w.extractLsb' 12 6) (w.extractLsb' 6 6) (w.extractLsb' 0 3))
    | 2 => .ok (.collMaxI32 (w.extractLsb' 18 6) (w.extractLsb' 12 6) (w.extractLsb' 6 6) (w.extractLsb' 0 3))
    | 3 => .ok (.collBcastB32 (w.extractLsb' 18 6) (w.extractLsb' 12 6) (w.extractLsb' 6 6) (w.extractLsb' 0 3))
    | _ => .error .subop
  | _ => .error .major

/-- The lane majors 0x30 to 0x4F, by bits [31:24] and the sub-op (R56 to R59). -/
noncomputable def decodeLane3 (w : Word) : Nat → Except Reject Instr
  | 0x30 =>
    match (w.extractLsb' 3 3).toNat with
    | 0 => .ok (.faddF32 (w.extractLsb' 18 6) (w.extractLsb' 12 6) (w.extractLsb' 6 6) (w.extractLsb' 0 3))
    | _ => .error .subop
  | 0x31 =>
    match (w.extractLsb' 3 3).toNat with
    | 0 => .ok (.faddF16 (w.extractLsb' 18 6) (w.extractLsb' 12 6) (w.extractLsb' 6 6) (w.extractLsb' 0 3))
    | 1 => .ok (.faddBf16 (w.extractLsb' 18 6) (w.extractLsb' 12 6) (w.extractLsb' 6 6) (w.extractLsb' 0 3))
    | _ => .error .subop
  | 0x32 =>
    match (w.extractLsb' 3 3).toNat with
    | 0 => .ok (.fsubF32 (w.extractLsb' 18 6) (w.extractLsb' 12 6) (w.extractLsb' 6 6) (w.extractLsb' 0 3))
    | _ => .error .subop
  | 0x33 =>
    match (w.extractLsb' 3 3).toNat with
    | 0 => .ok (.fsubF16 (w.extractLsb' 18 6) (w.extractLsb' 12 6) (w.extractLsb' 6 6) (w.extractLsb' 0 3))
    | 1 => .ok (.fsubBf16 (w.extractLsb' 18 6) (w.extractLsb' 12 6) (w.extractLsb' 6 6) (w.extractLsb' 0 3))
    | _ => .error .subop
  | 0x34 =>
    match (w.extractLsb' 3 3).toNat with
    | 0 => .ok (.fmulF32 (w.extractLsb' 18 6) (w.extractLsb' 12 6) (w.extractLsb' 6 6) (w.extractLsb' 0 3))
    | _ => .error .subop
  | 0x35 =>
    match (w.extractLsb' 3 3).toNat with
    | 0 => .ok (.fmulF16 (w.extractLsb' 18 6) (w.extractLsb' 12 6) (w.extractLsb' 6 6) (w.extractLsb' 0 3))
    | 1 => .ok (.fmulBf16 (w.extractLsb' 18 6) (w.extractLsb' 12 6) (w.extractLsb' 6 6) (w.extractLsb' 0 3))
    | _ => .error .subop
  | 0x36 => .ok (.ffmaF32 (w.extractLsb' 18 6) (w.extractLsb' 12 6) (w.extractLsb' 6 6) (w.extractLsb' 3 3) (w.extractLsb' 0 3))
  | 0x37 => .ok (.ffmaF16 (w.extractLsb' 18 6) (w.extractLsb' 12 6) (w.extractLsb' 6 6) (w.extractLsb' 3 3) (w.extractLsb' 0 3))
  | 0x38 => .ok (.ffmaBf16 (w.extractLsb' 18 6) (w.extractLsb' 12 6) (w.extractLsb' 6 6) (w.extractLsb' 3 3) (w.extractLsb' 0 3))
  | 0x39 =>
    match (w.extractLsb' 3 3).toNat with
    | 0 => .ok (.fminF32 (w.extractLsb' 18 6) (w.extractLsb' 12 6) (w.extractLsb' 6 6) (w.extractLsb' 0 3))
    | _ => .error .subop
  | 0x3A =>
    match (w.extractLsb' 3 3).toNat with
    | 0 => .ok (.fminF16 (w.extractLsb' 18 6) (w.extractLsb' 12 6) (w.extractLsb' 6 6) (w.extractLsb' 0 3))
    | 1 => .ok (.fminBf16 (w.extractLsb' 18 6) (w.extractLsb' 12 6) (w.extractLsb' 6 6) (w.extractLsb' 0 3))
    | _ => .error .subop
  | 0x3B =>
    match (w.extractLsb' 3 3).toNat with
    | 0 => .ok (.fmaxF32 (w.extractLsb' 18 6) (w.extractLsb' 12 6) (w.extractLsb' 6 6) (w.extractLsb' 0 3))
    | _ => .error .subop
  | 0x3C =>
    match (w.extractLsb' 3 3).toNat with
    | 0 => .ok (.fmaxF16 (w.extractLsb' 18 6) (w.extractLsb' 12 6) (w.extractLsb' 6 6) (w.extractLsb' 0 3))
    | 1 => .ok (.fmaxBf16 (w.extractLsb' 18 6) (w.extractLsb' 12 6) (w.extractLsb' 6 6) (w.extractLsb' 0 3))
    | _ => .error .subop
  | 0x3D =>
    match (w.extractLsb' 3 3).toNat with
    | 0 => reserved (zeroField w 21 3) (.fcmpEqF32 (w.extractLsb' 18 3) (w.extractLsb' 12 6) (w.extractLsb' 6 6) (w.extractLsb' 0 3))
    | 1 => reserved (zeroField w 21 3) (.fcmpNeF32 (w.extractLsb' 18 3) (w.extractLsb' 12 6) (w.extractLsb' 6 6) (w.extractLsb' 0 3))
    | 2 => reserved (zeroField w 21 3) (.fcmpLtF32 (w.extractLsb' 18 3) (w.extractLsb' 12 6) (w.extractLsb' 6 6) (w.extractLsb' 0 3))
    | 3 => reserved (zeroField w 21 3) (.fcmpLeF32 (w.extractLsb' 18 3) (w.extractLsb' 12 6) (w.extractLsb' 6 6) (w.extractLsb' 0 3))
    | 4 => reserved (zeroField w 21 3) (.fcmpGtF32 (w.extractLsb' 18 3) (w.extractLsb' 12 6) (w.extractLsb' 6 6) (w.extractLsb' 0 3))
    | 5 => reserved (zeroField w 21 3) (.fcmpGeF32 (w.extractLsb' 18 3) (w.extractLsb' 12 6) (w.extractLsb' 6 6) (w.extractLsb' 0 3))
    | 6 => reserved (zeroField w 21 3) (.fcmpUnF32 (w.extractLsb' 18 3) (w.extractLsb' 12 6) (w.extractLsb' 6 6) (w.extractLsb' 0 3))
    | _ => .error .subop
  | 0x3E =>
    match (w.extractLsb' 3 3).toNat with
    | 0 => reserved (zeroField w 6 6) (.fclassF32 (w.extractLsb' 18 6) (w.extractLsb' 12 6) (w.extractLsb' 0 3))
    | _ => .error .subop
  | 0x3F =>
    match (w.extractLsb' 3 3).toNat with
    | 0 => reserved (zeroField w 6 6) (.fabsF32 (w.extractLsb' 18 6) (w.extractLsb' 12 6) (w.extractLsb' 0 3))
    | 1 => reserved (zeroField w 6 6) (.fnegF32 (w.extractLsb' 18 6) (w.extractLsb' 12 6) (w.extractLsb' 0 3))
    | 2 => .ok (.fcsgnF32 (w.extractLsb' 18 6) (w.extractLsb' 12 6) (w.extractLsb' 6 6) (w.extractLsb' 0 3))
    | _ => .error .subop
  | 0x40 =>
    match (w.extractLsb' 3 3).toNat with
    | 0 => reserved (zeroField w 6 6) (.frcpF32 (w.extractLsb' 18 6) (w.extractLsb' 12 6) (w.extractLsb' 0 3))
    | _ => .error .subop
  | 0x41 =>
    match (w.extractLsb' 3 3).toNat with
    | 0 => reserved (zeroField w 6 6) (.frsqF32 (w.extractLsb' 18 6) (w.extractLsb' 12 6) (w.extractLsb' 0 3))
    | _ => .error .subop
  | 0x42 =>
    match (w.extractLsb' 3 3).toNat with
    | 0 => reserved (zeroField w 6 6) (.fsqrtF32 (w.extractLsb' 18 6) (w.extractLsb' 12 6) (w.extractLsb' 0 3))
    | _ => .error .subop
  | 0x43 =>
    match (w.extractLsb' 3 3).toNat with
    | 0 => reserved (zeroField w 6 6) (.fex2F32 (w.extractLsb' 18 6) (w.extractLsb' 12 6) (w.extractLsb' 0 3))
    | _ => .error .subop
  | 0x44 =>
    match (w.extractLsb' 3 3).toNat with
    | 0 => reserved (zeroField w 6 6) (.flg2F32 (w.extractLsb' 18 6) (w.extractLsb' 12 6) (w.extractLsb' 0 3))
    | _ => .error .subop
  | 0x45 =>
    match (w.extractLsb' 3 3).toNat with
    | 0 => reserved (zeroField w 7 5) (.cvtF32Rn (w.extractLsb' 18 6) (w.extractLsb' 12 6) (w.extractLsb' 6 1) (w.extractLsb' 0 3))
    | 1 => reserved (zeroField w 7 5) (.cvtF32Rz (w.extractLsb' 18 6) (w.extractLsb' 12 6) (w.extractLsb' 6 1) (w.extractLsb' 0 3))
    | 2 => reserved (zeroField w 7 5) (.cvtF32Rd (w.extractLsb' 18 6) (w.extractLsb' 12 6) (w.extractLsb' 6 1) (w.extractLsb' 0 3))
    | 3 => reserved (zeroField w 7 5) (.cvtF32Ru (w.extractLsb' 18 6) (w.extractLsb' 12 6) (w.extractLsb' 6 1) (w.extractLsb' 0 3))
    | _ => .error .subop
  | 0x46 =>
    match (w.extractLsb' 3 3).toNat with
    | 0 => .ok (.cvtF16Rn (w.extractLsb' 18 6) (w.extractLsb' 12 6) (w.extractLsb' 6 6) (w.extractLsb' 0 3))
    | 1 => .ok (.cvtF16Rz (w.extractLsb' 18 6) (w.extractLsb' 12 6) (w.extractLsb' 6 6) (w.extractLsb' 0 3))
    | 2 => .ok (.cvtF16Rd (w.extractLsb' 18 6) (w.extractLsb' 12 6) (w.extractLsb' 6 6) (w.extractLsb' 0 3))
    | 3 => .ok (.cvtF16Ru (w.extractLsb' 18 6) (w.extractLsb' 12 6) (w.extractLsb' 6 6) (w.extractLsb' 0 3))
    | _ => .error .subop
  | 0x47 =>
    match (w.extractLsb' 3 3).toNat with
    | 0 => .ok (.cvtBf16Rn (w.extractLsb' 18 6) (w.extractLsb' 12 6) (w.extractLsb' 6 6) (w.extractLsb' 0 3))
    | 1 => .ok (.cvtBf16Rz (w.extractLsb' 18 6) (w.extractLsb' 12 6) (w.extractLsb' 6 6) (w.extractLsb' 0 3))
    | 2 => .ok (.cvtBf16Rd (w.extractLsb' 18 6) (w.extractLsb' 12 6) (w.extractLsb' 6 6) (w.extractLsb' 0 3))
    | 3 => .ok (.cvtBf16Ru (w.extractLsb' 18 6) (w.extractLsb' 12 6) (w.extractLsb' 6 6) (w.extractLsb' 0 3))
    | _ => .error .subop
  | 0x48 =>
    match (w.extractLsb' 3 3).toNat with
    | 0 => reserved (zeroField w 7 5) (.cvtI32Rn (w.extractLsb' 18 6) (w.extractLsb' 12 6) (w.extractLsb' 6 1) (w.extractLsb' 0 3))
    | 1 => reserved (zeroField w 7 5) (.cvtI32Rz (w.extractLsb' 18 6) (w.extractLsb' 12 6) (w.extractLsb' 6 1) (w.extractLsb' 0 3))
    | 2 => reserved (zeroField w 7 5) (.cvtI32Rd (w.extractLsb' 18 6) (w.extractLsb' 12 6) (w.extractLsb' 6 1) (w.extractLsb' 0 3))
    | 3 => reserved (zeroField w 7 5) (.cvtI32Ru (w.extractLsb' 18 6) (w.extractLsb' 12 6) (w.extractLsb' 6 1) (w.extractLsb' 0 3))
    | _ => .error .subop
  | 0x49 =>
    match (w.extractLsb' 3 3).toNat with
    | 0 => reserved (zeroField w 7 5) (.cvtN32Rn (w.extractLsb' 18 6) (w.extractLsb' 12 6) (w.extractLsb' 6 1) (w.extractLsb' 0 3))
    | 1 => reserved (zeroField w 7 5) (.cvtN32Rz (w.extractLsb' 18 6) (w.extractLsb' 12 6) (w.extractLsb' 6 1) (w.extractLsb' 0 3))
    | 2 => reserved (zeroField w 7 5) (.cvtN32Rd (w.extractLsb' 18 6) (w.extractLsb' 12 6) (w.extractLsb' 6 1) (w.extractLsb' 0 3))
    | 3 => reserved (zeroField w 7 5) (.cvtN32Ru (w.extractLsb' 18 6) (w.extractLsb' 12 6) (w.extractLsb' 6 1) (w.extractLsb' 0 3))
    | _ => .error .subop
  | 0x4A =>
    match (w.extractLsb' 3 3).toNat with
    | 0 => reserved (zeroField w 6 6) (.npackF8e4 (w.extractLsb' 18 6) (w.extractLsb' 12 6) (w.extractLsb' 0 3))
    | 1 => reserved (zeroField w 6 6) (.npackF8e5 (w.extractLsb' 18 6) (w.extractLsb' 12 6) (w.extractLsb' 0 3))
    | 2 => reserved (zeroField w 6 6) (.npackF6e2 (w.extractLsb' 18 6) (w.extractLsb' 12 6) (w.extractLsb' 0 3))
    | 3 => reserved (zeroField w 6 6) (.npackF6e3 (w.extractLsb' 18 6) (w.extractLsb' 12 6) (w.extractLsb' 0 3))
    | 4 => reserved (zeroField w 6 6) (.npackF4e2 (w.extractLsb' 18 6) (w.extractLsb' 12 6) (w.extractLsb' 0 3))
    | _ => .error .subop
  | 0x4B =>
    match (w.extractLsb' 3 3).toNat with
    | 0 => reserved (zeroField w 6 6) (.nunpackF8e4 (w.extractLsb' 18 6) (w.extractLsb' 12 6) (w.extractLsb' 0 3))
    | 1 => reserved (zeroField w 6 6) (.nunpackF8e5 (w.extractLsb' 18 6) (w.extractLsb' 12 6) (w.extractLsb' 0 3))
    | 2 => reserved (zeroField w 6 6) (.nunpackF6e2 (w.extractLsb' 18 6) (w.extractLsb' 12 6) (w.extractLsb' 0 3))
    | 3 => reserved (zeroField w 6 6) (.nunpackF6e3 (w.extractLsb' 18 6) (w.extractLsb' 12 6) (w.extractLsb' 0 3))
    | 4 => reserved (zeroField w 6 6) (.nunpackF4e2 (w.extractLsb' 18 6) (w.extractLsb' 12 6) (w.extractLsb' 0 3))
    | _ => .error .subop
  | 0x4C =>
    match (w.extractLsb' 3 3).toNat with
    | 0 => .ok (.qntQ4 (w.extractLsb' 18 6) (w.extractLsb' 12 6) (w.extractLsb' 6 6) (w.extractLsb' 0 3))
    | 1 => .ok (.qntQ8 (w.extractLsb' 18 6) (w.extractLsb' 12 6) (w.extractLsb' 6 6) (w.extractLsb' 0 3))
    | _ => .error .subop
  | 0x4D =>
    match (w.extractLsb' 3 3).toNat with
    | 0 => .ok (.dqQ4 (w.extractLsb' 18 6) (w.extractLsb' 12 6) (w.extractLsb' 6 6) (w.extractLsb' 0 3))
    | 1 => .ok (.dqQ8 (w.extractLsb' 18 6) (w.extractLsb' 12 6) (w.extractLsb' 6 6) (w.extractLsb' 0 3))
    | _ => .error .subop
  | 0x4E => reserved (zeroField w 7 11) (.tagset (w.extractLsb' 18 6) (w.extractLsb' 3 4) (w.extractLsb' 0 3))
  | 0x4F =>
    match (w.extractLsb' 3 3).toNat with
    | 0 => reserved (zeroField w 6 6) (.tagget (w.extractLsb' 18 6) (w.extractLsb' 12 6) (w.extractLsb' 0 3))
    | _ => .error .subop
  | _ => .error .major

/-- The lane majors 0x50 to 0x7F, by bits [31:24] and the sub-op (R56 to R59). -/
noncomputable def decodeLane5 (w : Word) : Nat → Except Reject Instr
  | 0x50 => reserved (zeroField w 21 3) (.bra (w.extractLsb' 3 18) (w.extractLsb' 0 3))
  | 0x51 => .ok (.braT (w.extractLsb' 21 3) (w.extractLsb' 3 18) (w.extractLsb' 0 3))
  | 0x52 => .ok (.braF (w.extractLsb' 21 3) (w.extractLsb' 3 18) (w.extractLsb' 0 3))
  | 0x53 => .ok (.brany (w.extractLsb' 21 3) (w.extractLsb' 3 18) (w.extractLsb' 0 3))
  | 0x54 => .ok (.brall (w.extractLsb' 21 3) (w.extractLsb' 3 18) (w.extractLsb' 0 3))
  | 0x55 => .ok (.brnone (w.extractLsb' 21 3) (w.extractLsb' 3 18) (w.extractLsb' 0 3))
  | 0x56 => reserved (zeroField w 21 3) (.call (w.extractLsb' 3 18) (w.extractLsb' 0 3))
  | 0x57 =>
    match (w.extractLsb' 3 3).toNat with
    | 0 => reserved (zeroField w 18 6 && zeroField w 6 6) (.brx (w.extractLsb' 12 6) (w.extractLsb' 0 3))
    | _ => .error .subop
  | 0x58 =>
    match (w.extractLsb' 3 3).toNat with
    | 0 => reserved (zeroField w 6 6) (.callx (w.extractLsb' 18 6) (w.extractLsb' 12 6) (w.extractLsb' 0 3))
    | _ => .error .subop
  | 0x59 =>
    match (w.extractLsb' 3 3).toNat with
    | 0 => reserved (zeroField w 18 6 && zeroField w 6 6) (.ret (w.extractLsb' 12 6) (w.extractLsb' 0 3))
    | _ => .error .subop
  | 0x5A =>
    match (w.extractLsb' 3 3).toNat with
    | 0 => reserved (zeroField w 21 3 && zeroField w 6 12) (.elect (w.extractLsb' 18 3) (w.extractLsb' 0 3))
    | _ => .error .subop
  | 0x5B =>
    match (w.extractLsb' 3 3).toNat with
    | 0 => reserved (zeroField w 21 3 && zeroField w 15 3 && zeroField w 6 6) (.voteAny (w.extractLsb' 18 3) (w.extractLsb' 12 3) (w.extractLsb' 0 3))
    | 1 => reserved (zeroField w 21 3 && zeroField w 15 3 && zeroField w 6 6) (.voteAll (w.extractLsb' 18 3) (w.extractLsb' 12 3) (w.extractLsb' 0 3))
    | 2 => reserved (zeroField w 15 3 && zeroField w 6 6) (.voteBallot (w.extractLsb' 18 6) (w.extractLsb' 12 3) (w.extractLsb' 0 3))
    | _ => .error .subop
  | 0x5C =>
    match (w.extractLsb' 3 3).toNat with
    | 0 => reserved (zeroField w 6 18) (.exit (w.extractLsb' 0 3))
    | _ => .error .subop
  | 0x5D =>
    match (w.extractLsb' 3 3).toNat with
    | 0 => reserved (zeroField w 18 6 && zeroField w 6 6) (.sleep (w.extractLsb' 12 6) (w.extractLsb' 0 3))
    | _ => .error .subop
  | 0x5E => reserved (zeroField w 21 3) (.safe (w.extractLsb' 3 18) (w.extractLsb' 0 3))
  | 0x5F =>
    match (w.extractLsb' 3 3).toNat with
    | 0 => reserved (zeroField w 6 18) (.reform (w.extractLsb' 0 3))
    | _ => .error .subop
  | 0x60 => .ok (.ldN8 (w.extractLsb' 18 6) (w.extractLsb' 12 6) (w.extractLsb' 3 9) (w.extractLsb' 0 3))
  | 0x61 => .ok (.ldI8 (w.extractLsb' 18 6) (w.extractLsb' 12 6) (w.extractLsb' 3 9) (w.extractLsb' 0 3))
  | 0x62 => .ok (.ldN16 (w.extractLsb' 18 6) (w.extractLsb' 12 6) (w.extractLsb' 3 9) (w.extractLsb' 0 3))
  | 0x63 => .ok (.ldI16 (w.extractLsb' 18 6) (w.extractLsb' 12 6) (w.extractLsb' 3 9) (w.extractLsb' 0 3))
  | 0x64 => .ok (.ldB32 (w.extractLsb' 18 6) (w.extractLsb' 12 6) (w.extractLsb' 3 9) (w.extractLsb' 0 3))
  | 0x65 => .ok (.ldB64 (w.extractLsb' 18 6) (w.extractLsb' 12 6) (w.extractLsb' 3 9) (w.extractLsb' 0 3))
  | 0x66 => .ok (.ldB128 (w.extractLsb' 18 6) (w.extractLsb' 12 6) (w.extractLsb' 3 9) (w.extractLsb' 0 3))
  | 0x67 => .ok (.stB8 (w.extractLsb' 18 6) (w.extractLsb' 12 6) (w.extractLsb' 3 9) (w.extractLsb' 0 3))
  | 0x68 => .ok (.stB16 (w.extractLsb' 18 6) (w.extractLsb' 12 6) (w.extractLsb' 3 9) (w.extractLsb' 0 3))
  | 0x69 => .ok (.stB32 (w.extractLsb' 18 6) (w.extractLsb' 12 6) (w.extractLsb' 3 9) (w.extractLsb' 0 3))
  | 0x6A => .ok (.stB64 (w.extractLsb' 18 6) (w.extractLsb' 12 6) (w.extractLsb' 3 9) (w.extractLsb' 0 3))
  | 0x6B => .ok (.stB128 (w.extractLsb' 18 6) (w.extractLsb' 12 6) (w.extractLsb' 3 9) (w.extractLsb' 0 3))
  | 0x6C => .ok (.ldsB32 (w.extractLsb' 18 6) (w.extractLsb' 12 6) (w.extractLsb' 3 9) (w.extractLsb' 0 3))
  | 0x6D => .ok (.ldsB64 (w.extractLsb' 18 6) (w.extractLsb' 12 6) (w.extractLsb' 3 9) (w.extractLsb' 0 3))
  | 0x6E => .ok (.stsB32 (w.extractLsb' 18 6) (w.extractLsb' 12 6) (w.extractLsb' 3 9) (w.extractLsb' 0 3))
  | 0x6F => .ok (.stsB64 (w.extractLsb' 18 6) (w.extractLsb' 12 6) (w.extractLsb' 3 9) (w.extractLsb' 0 3))
  | 0x70 =>
    match (w.extractLsb' 3 3).toNat with
    | 0 => .ok (.ldqB32 (w.extractLsb' 18 6) (w.extractLsb' 12 6) (w.extractLsb' 6 6) (w.extractLsb' 0 3))
    | _ => .error .subop
  | 0x71 =>
    match (w.extractLsb' 3 3).toNat with
    | 0 => .ok (.stqB32 (w.extractLsb' 18 6) (w.extractLsb' 12 6) (w.extractLsb' 6 6) (w.extractLsb' 0 3))
    | _ => .error .subop
  | 0x72 => reserved (zeroField w 6 6) (.ldAcqB32 (w.extractLsb' 18 6) (w.extractLsb' 12 6) (w.extractLsb' 3 3) (w.extractLsb' 0 3))
  | 0x73 => reserved (zeroField w 6 6) (.stRelB32 (w.extractLsb' 18 6) (w.extractLsb' 12 6) (w.extractLsb' 3 3) (w.extractLsb' 0 3))
  | 0x74 =>
    match (w.extractLsb' 3 3).toNat with
    | 0 => reserved (zeroField w 18 6 && zeroField w 6 6) (.cacheEvl1 (w.extractLsb' 12 6) (w.extractLsb' 0 3))
    | 1 => reserved (zeroField w 18 6 && zeroField w 6 6) (.cacheWbl2 (w.extractLsb' 12 6) (w.extractLsb' 0 3))
    | 2 => reserved (zeroField w 18 6 && zeroField w 6 6) (.cacheEvl2 (w.extractLsb' 12 6) (w.extractLsb' 0 3))
    | _ => .error .subop
  | 0x75 =>
    match (w.extractLsb' 3 3).toNat with
    | 0 => .ok (.atomAddI32 (w.extractLsb' 18 6) (w.extractLsb' 12 6) (w.extractLsb' 6 6) (w.extractLsb' 0 3))
    | 1 => .ok (.atomMinI32 (w.extractLsb' 18 6) (w.extractLsb' 12 6) (w.extractLsb' 6 6) (w.extractLsb' 0 3))
    | 2 => .ok (.atomMaxI32 (w.extractLsb' 18 6) (w.extractLsb' 12 6) (w.extractLsb' 6 6) (w.extractLsb' 0 3))
    | 3 => .ok (.atomMinN32 (w.extractLsb' 18 6) (w.extractLsb' 12 6) (w.extractLsb' 6 6) (w.extractLsb' 0 3))
    | 4 => .ok (.atomMaxN32 (w.extractLsb' 18 6) (w.extractLsb' 12 6) (w.extractLsb' 6 6) (w.extractLsb' 0 3))
    | _ => .error .subop
  | 0x76 =>
    match (w.extractLsb' 3 3).toNat with
    | 0 => .ok (.atomAndB32 (w.extractLsb' 18 6) (w.extractLsb' 12 6) (w.extractLsb' 6 6) (w.extractLsb' 0 3))
    | 1 => .ok (.atomOrB32 (w.extractLsb' 18 6) (w.extractLsb' 12 6) (w.extractLsb' 6 6) (w.extractLsb' 0 3))
    | 2 => .ok (.atomXorB32 (w.extractLsb' 18 6) (w.extractLsb' 12 6) (w.extractLsb' 6 6) (w.extractLsb' 0 3))
    | _ => .error .subop
  | 0x77 =>
    match (w.extractLsb' 3 3).toNat with
    | 0 => .ok (.atomXchgB32 (w.extractLsb' 18 6) (w.extractLsb' 12 6) (w.extractLsb' 6 6) (w.extractLsb' 0 3))
    | 1 => .ok (.atomCasB32 (w.extractLsb' 18 6) (w.extractLsb' 12 6) (w.extractLsb' 6 6) (w.extractLsb' 0 3))
    | 2 => .ok (.atomAddF32 (w.extractLsb' 18 6) (w.extractLsb' 12 6) (w.extractLsb' 6 6) (w.extractLsb' 0 3))
    | _ => .error .subop
  | 0x78 =>
    match (w.extractLsb' 3 3).toNat with
    | 0 => .ok (.atomAddI64 (w.extractLsb' 18 6) (w.extractLsb' 12 6) (w.extractLsb' 6 6) (w.extractLsb' 0 3))
    | 1 => .ok (.atomMaxN64 (w.extractLsb' 18 6) (w.extractLsb' 12 6) (w.extractLsb' 6 6) (w.extractLsb' 0 3))
    | 2 => .ok (.atomXchgB64 (w.extractLsb' 18 6) (w.extractLsb' 12 6) (w.extractLsb' 6 6) (w.extractLsb' 0 3))
    | 3 => .ok (.atomCasB64 (w.extractLsb' 18 6) (w.extractLsb' 12 6) (w.extractLsb' 6 6) (w.extractLsb' 0 3))
    | _ => .error .subop
  | 0x79 =>
    match (w.extractLsb' 3 3).toNat with
    | 0 => reserved (zeroField w 18 6) (.redAddI32 (w.extractLsb' 12 6) (w.extractLsb' 6 6) (w.extractLsb' 0 3))
    | 1 => reserved (zeroField w 18 6) (.redMinI32 (w.extractLsb' 12 6) (w.extractLsb' 6 6) (w.extractLsb' 0 3))
    | 2 => reserved (zeroField w 18 6) (.redMaxI32 (w.extractLsb' 12 6) (w.extractLsb' 6 6) (w.extractLsb' 0 3))
    | 3 => reserved (zeroField w 18 6) (.redMinN32 (w.extractLsb' 12 6) (w.extractLsb' 6 6) (w.extractLsb' 0 3))
    | 4 => reserved (zeroField w 18 6) (.redMaxN32 (w.extractLsb' 12 6) (w.extractLsb' 6 6) (w.extractLsb' 0 3))
    | _ => .error .subop
  | 0x7A =>
    match (w.extractLsb' 3 3).toNat with
    | 0 => reserved (zeroField w 18 6) (.redAndB32 (w.extractLsb' 12 6) (w.extractLsb' 6 6) (w.extractLsb' 0 3))
    | 1 => reserved (zeroField w 18 6) (.redOrB32 (w.extractLsb' 12 6) (w.extractLsb' 6 6) (w.extractLsb' 0 3))
    | 2 => reserved (zeroField w 18 6) (.redXorB32 (w.extractLsb' 12 6) (w.extractLsb' 6 6) (w.extractLsb' 0 3))
    | _ => .error .subop
  | 0x7B =>
    match (w.extractLsb' 3 3).toNat with
    | 0 => reserved (zeroField w 18 6) (.redAddF32 (w.extractLsb' 12 6) (w.extractLsb' 6 6) (w.extractLsb' 0 3))
    | 1 => reserved (zeroField w 18 6) (.redAddI64 (w.extractLsb' 12 6) (w.extractLsb' 6 6) (w.extractLsb' 0 3))
    | _ => .error .subop
  | 0x7C =>
    match (w.extractLsb' 3 3).toNat with
    | 0 => .ok (.msend (w.extractLsb' 18 6) (w.extractLsb' 12 6) (w.extractLsb' 6 6) (w.extractLsb' 0 3))
    | _ => .error .subop
  | 0x7D =>
    match (w.extractLsb' 3 3).toNat with
    | 0 => .ok (.mrecv (w.extractLsb' 18 6) (w.extractLsb' 12 6) (w.extractLsb' 6 6) (w.extractLsb' 0 3))
    | _ => .error .subop
  | 0x7E =>
    match (w.extractLsb' 3 3).toNat with
    | 0 => .ok (.mprobe (w.extractLsb' 18 6) (w.extractLsb' 12 6) (w.extractLsb' 6 6) (w.extractLsb' 0 3))
    | _ => .error .subop
  | 0x7F =>
    match (w.extractLsb' 3 3).toNat with
    | 0 => .ok (.mcancel (w.extractLsb' 18 6) (w.extractLsb' 12 6) (w.extractLsb' 6 6) (w.extractLsb' 0 3))
    | _ => .error .subop
  | _ => .error .major

/-- The uniform majors 0x00 to 0x2F, by bits [31:24] and the sub-op (R56 to R59). -/
noncomputable def decodeUniform0 (w : Word) : Nat → Except Reject Instr
  | 0x81 =>
    match (w.extractLsb' 8 4).toNat with
    | 0 => reserved (zeroField w 3 5) (.uaddI32 (w.extractLsb' 20 4) (w.extractLsb' 16 4) (w.extractLsb' 12 4) (w.extractLsb' 0 3))
    | _ => .error .subop
  | 0x82 =>
    match (w.extractLsb' 8 4).toNat with
    | 0 => reserved (zeroField w 3 5) (.usubI32 (w.extractLsb' 20 4) (w.extractLsb' 16 4) (w.extractLsb' 12 4) (w.extractLsb' 0 3))
    | _ => .error .subop
  | 0x83 =>
    match (w.extractLsb' 8 4).toNat with
    | 0 => reserved (zeroField w 3 5) (.umulI32 (w.extractLsb' 20 4) (w.extractLsb' 16 4) (w.extractLsb' 12 4) (w.extractLsb' 0 3))
    | _ => .error .subop
  | 0x84 =>
    match (w.extractLsb' 8 4).toNat with
    | 0 => reserved (zeroField w 3 5) (.umulhiI32 (w.extractLsb' 20 4) (w.extractLsb' 16 4) (w.extractLsb' 12 4) (w.extractLsb' 0 3))
    | _ => .error .subop
  | 0x85 =>
    match (w.extractLsb' 8 4).toNat with
    | 0 => reserved (zeroField w 3 5) (.umulhiN32 (w.extractLsb' 20 4) (w.extractLsb' 16 4) (w.extractLsb' 12 4) (w.extractLsb' 0 3))
    | _ => .error .subop
  | 0x86 =>
    match (w.extractLsb' 8 4).toNat with
    | 0 => reserved (zeroField w 3 5) (.uminI32 (w.extractLsb' 20 4) (w.extractLsb' 16 4) (w.extractLsb' 12 4) (w.extractLsb' 0 3))
    | 1 => reserved (zeroField w 3 5) (.uminN32 (w.extractLsb' 20 4) (w.extractLsb' 16 4) (w.extractLsb' 12 4) (w.extractLsb' 0 3))
    | _ => .error .subop
  | 0x87 =>
    match (w.extractLsb' 8 4).toNat with
    | 0 => reserved (zeroField w 3 5) (.umaxI32 (w.extractLsb' 20 4) (w.extractLsb' 16 4) (w.extractLsb' 12 4) (w.extractLsb' 0 3))
    | 1 => reserved (zeroField w 3 5) (.umaxN32 (w.extractLsb' 20 4) (w.extractLsb' 16 4) (w.extractLsb' 12 4) (w.extractLsb' 0 3))
    | _ => .error .subop
  | 0x88 =>
    match (w.extractLsb' 8 4).toNat with
    | 0 => reserved (zeroField w 3 5) (.uandB32 (w.extractLsb' 20 4) (w.extractLsb' 16 4) (w.extractLsb' 12 4) (w.extractLsb' 0 3))
    | _ => .error .subop
  | 0x89 =>
    match (w.extractLsb' 8 4).toNat with
    | 0 => reserved (zeroField w 3 5) (.uorB32 (w.extractLsb' 20 4) (w.extractLsb' 16 4) (w.extractLsb' 12 4) (w.extractLsb' 0 3))
    | _ => .error .subop
  | 0x8A =>
    match (w.extractLsb' 8 4).toNat with
    | 0 => reserved (zeroField w 3 5) (.uxorB32 (w.extractLsb' 20 4) (w.extractLsb' 16 4) (w.extractLsb' 12 4) (w.extractLsb' 0 3))
    | _ => .error .subop
  | 0x8B =>
    match (w.extractLsb' 8 4).toNat with
    | 0 => reserved (zeroField w 3 5) (.ushlB32 (w.extractLsb' 20 4) (w.extractLsb' 16 4) (w.extractLsb' 12 4) (w.extractLsb' 0 3))
    | _ => .error .subop
  | 0x8C =>
    match (w.extractLsb' 8 4).toNat with
    | 0 => reserved (zeroField w 3 5) (.ushrN32 (w.extractLsb' 20 4) (w.extractLsb' 16 4) (w.extractLsb' 12 4) (w.extractLsb' 0 3))
    | _ => .error .subop
  | 0x8D =>
    match (w.extractLsb' 8 4).toNat with
    | 0 => reserved (zeroField w 3 5) (.ushrI32 (w.extractLsb' 20 4) (w.extractLsb' 16 4) (w.extractLsb' 12 4) (w.extractLsb' 0 3))
    | _ => .error .subop
  | 0x8E =>
    match (w.extractLsb' 8 4).toNat with
    | 0 => reserved (zeroField w 3 5) (.ubfeN32 (w.extractLsb' 20 4) (w.extractLsb' 16 4) (w.extractLsb' 12 4) (w.extractLsb' 0 3))
    | 1 => reserved (zeroField w 3 5) (.ubfeI32 (w.extractLsb' 20 4) (w.extractLsb' 16 4) (w.extractLsb' 12 4) (w.extractLsb' 0 3))
    | _ => .error .subop
  | 0x8F =>
    match (w.extractLsb' 8 4).toNat with
    | 0 => reserved (zeroField w 3 5) (.ubfiB32 (w.extractLsb' 20 4) (w.extractLsb' 16 4) (w.extractLsb' 12 4) (w.extractLsb' 0 3))
    | _ => .error .subop
  | 0x90 =>
    match (w.extractLsb' 8 4).toNat with
    | 0 => reserved (zeroField w 12 4 && zeroField w 3 5) (.upopcB32 (w.extractLsb' 20 4) (w.extractLsb' 16 4) (w.extractLsb' 0 3))
    | _ => .error .subop
  | 0x91 =>
    match (w.extractLsb' 8 4).toNat with
    | 0 => reserved (zeroField w 12 4 && zeroField w 3 5) (.uclzB32 (w.extractLsb' 20 4) (w.extractLsb' 16 4) (w.extractLsb' 0 3))
    | _ => .error .subop
  | 0x92 =>
    match (w.extractLsb' 8 4).toNat with
    | 0 => reserved (zeroField w 3 5) (.ucmpEqB32 (w.extractLsb' 20 4) (w.extractLsb' 16 4) (w.extractLsb' 12 4) (w.extractLsb' 0 3))
    | 1 => reserved (zeroField w 3 5) (.ucmpNeB32 (w.extractLsb' 20 4) (w.extractLsb' 16 4) (w.extractLsb' 12 4) (w.extractLsb' 0 3))
    | _ => .error .subop
  | 0x93 =>
    match (w.extractLsb' 8 4).toNat with
    | 0 => reserved (zeroField w 3 5) (.ucmpLtI32 (w.extractLsb' 20 4) (w.extractLsb' 16 4) (w.extractLsb' 12 4) (w.extractLsb' 0 3))
    | 1 => reserved (zeroField w 3 5) (.ucmpLeI32 (w.extractLsb' 20 4) (w.extractLsb' 16 4) (w.extractLsb' 12 4) (w.extractLsb' 0 3))
    | _ => .error .subop
  | 0x94 =>
    match (w.extractLsb' 8 4).toNat with
    | 0 => reserved (zeroField w 3 5) (.ucmpLtN32 (w.extractLsb' 20 4) (w.extractLsb' 16 4) (w.extractLsb' 12 4) (w.extractLsb' 0 3))
    | 1 => reserved (zeroField w 3 5) (.ucmpLeN32 (w.extractLsb' 20 4) (w.extractLsb' 16 4) (w.extractLsb' 12 4) (w.extractLsb' 0 3))
    | _ => .error .subop
  | 0x95 =>
    match (w.extractLsb' 8 4).toNat with
    | 0 => reserved (zeroField w 7 1) (.uselB32 (w.extractLsb' 20 4) (w.extractLsb' 16 4) (w.extractLsb' 12 4) (w.extractLsb' 3 4) (w.extractLsb' 0 3))
    | _ => .error .subop
  | 0x96 =>
    match (w.extractLsb' 8 4).toNat with
    | 0 => reserved (zeroField w 12 4 && zeroField w 3 5) (.umovB32 (w.extractLsb' 20 4) (w.extractLsb' 16 4) (w.extractLsb' 0 3))
    | _ => .error .subop
  | 0x97 =>
    match (w.extractLsb' 8 4).toNat with
    | 0 => reserved (zeroField w 3 5) (.uaddI64 (w.extractLsb' 20 4) (w.extractLsb' 16 4) (w.extractLsb' 12 4) (w.extractLsb' 0 3))
    | _ => .error .subop
  | 0x98 => reserved (zeroField w 23 1) (.uaddiI32 (w.extractLsb' 19 4) (w.extractLsb' 3 16) (w.extractLsb' 0 3))
  | 0x99 =>
    match (w.extractLsb' 23 1).toNat with
    | 0 => .ok (.umovi (w.extractLsb' 19 4) (w.extractLsb' 3 16) (w.extractLsb' 0 3))
    | _ => .ok (.umovhi (w.extractLsb' 19 4) (w.extractLsb' 3 16) (w.extractLsb' 0 3))
  | 0x9A => reserved (zeroField w 23 1) (.uandiB32 (w.extractLsb' 19 4) (w.extractLsb' 3 16) (w.extractLsb' 0 3))
  | 0x9B => reserved (zeroField w 23 1) (.uoriB32 (w.extractLsb' 19 4) (w.extractLsb' 3 16) (w.extractLsb' 0 3))
  | 0x9C => reserved (zeroField w 23 1 && zeroField w 8 11) (.ushliB32 (w.extractLsb' 19 4) (w.extractLsb' 3 5) (w.extractLsb' 0 3))
  | 0x9D => reserved (zeroField w 23 1 && zeroField w 8 11) (.ushriN32 (w.extractLsb' 19 4) (w.extractLsb' 3 5) (w.extractLsb' 0 3))
  | 0x9E => reserved (zeroField w 23 1) (.usr (w.extractLsb' 19 4) (w.extractLsb' 3 16) (w.extractLsb' 0 3))
  | 0xA0 => reserved (zeroField w 12 4) (.lduB32 (w.extractLsb' 20 4) (w.extractLsb' 16 4) (w.extractLsb' 3 9) (w.extractLsb' 0 3))
  | 0xA1 => reserved (zeroField w 12 4) (.lduB64 (w.extractLsb' 20 4) (w.extractLsb' 16 4) (w.extractLsb' 3 9) (w.extractLsb' 0 3))
  | 0xA2 => reserved (zeroField w 12 4) (.ldcB32 (w.extractLsb' 20 4) (w.extractLsb' 16 4) (w.extractLsb' 3 9) (w.extractLsb' 0 3))
  | 0xA3 => reserved (zeroField w 12 4) (.ldcB64 (w.extractLsb' 20 4) (w.extractLsb' 16 4) (w.extractLsb' 3 9) (w.extractLsb' 0 3))
  | 0xA4 => reserved (zeroField w 19 5) (.ubra (w.extractLsb' 3 16) (w.extractLsb' 0 3))
  | 0xA5 => reserved (zeroField w 23 1) (.ubrz (w.extractLsb' 19 4) (w.extractLsb' 3 16) (w.extractLsb' 0 3))
  | 0xA6 => reserved (zeroField w 23 1) (.ubrnz (w.extractLsb' 19 4) (w.extractLsb' 3 16) (w.extractLsb' 0 3))
  | 0xA7 => reserved (zeroField w 23 1) (.uloop (w.extractLsb' 19 4) (w.extractLsb' 3 16) (w.extractLsb' 0 3))
  | 0xA8 => reserved (zeroField w 23 1) (.ucall (w.extractLsb' 19 4) (w.extractLsb' 3 16) (w.extractLsb' 0 3))
  | 0xA9 =>
    match (w.extractLsb' 8 4).toNat with
    | 0 => reserved (zeroField w 12 8 && zeroField w 3 5) (.uret (w.extractLsb' 20 4) (w.extractLsb' 0 3))
    | _ => .error .subop
  | _ => .error .major

/-- The uniform majors 0x30 to 0x4F, by bits [31:24] and the sub-op (R56 to R59). -/
noncomputable def decodeUniform3 (w : Word) : Nat → Except Reject Instr
  | 0xB0 => reserved (zeroField w 23 1) (.fork (w.extractLsb' 19 4) (w.extractLsb' 3 16) (w.extractLsb' 0 3))
  | 0xB1 =>
    match (w.extractLsb' 8 4).toNat with
    | 0 => reserved (zeroField w 12 4 && zeroField w 3 5) (.rdzv (w.extractLsb' 20 4) (w.extractLsb' 16 4) (w.extractLsb' 0 3))
    | _ => .error .subop
  | 0xB2 =>
    match (w.extractLsb' 8 4).toNat with
    | 0 => reserved (zeroField w 12 12 && zeroField w 7 1 && zeroField w 3 1) (.gresTake (w.extractLsb' 4 3) (w.extractLsb' 0 3))
    | 1 => reserved (zeroField w 12 12 && zeroField w 7 1 && zeroField w 3 1) (.gresDrop (w.extractLsb' 4 3) (w.extractLsb' 0 3))
    | _ => .error .subop
  | 0xB4 =>
    match (w.extractLsb' 8 4).toNat with
    | 0 => reserved (zeroField w 3 1) (.cpyL (w.extractLsb' 20 4) (w.extractLsb' 16 4) (w.extractLsb' 12 4) (w.extractLsb' 7 1) (w.extractLsb' 4 3) (w.extractLsb' 0 3))
    | _ => .error .subop
  | 0xB5 =>
    match (w.extractLsb' 8 4).toNat with
    | 0 => reserved (zeroField w 3 1) (.cpyS (w.extractLsb' 20 4) (w.extractLsb' 16 4) (w.extractLsb' 12 4) (w.extractLsb' 7 1) (w.extractLsb' 4 3) (w.extractLsb' 0 3))
    | _ => .error .subop
  | 0xB6 =>
    match (w.extractLsb' 8 4).toNat with
    | 0 => reserved (zeroField w 3 1) (.cpyT2 (w.extractLsb' 20 4) (w.extractLsb' 16 4) (w.extractLsb' 12 4) (w.extractLsb' 7 1) (w.extractLsb' 4 3) (w.extractLsb' 0 3))
    | _ => .error .subop
  | 0xB7 =>
    match (w.extractLsb' 8 4).toNat with
    | 0 => reserved (zeroField w 3 1) (.cpyT3 (w.extractLsb' 20 4) (w.extractLsb' 16 4) (w.extractLsb' 12 4) (w.extractLsb' 7 1) (w.extractLsb' 4 3) (w.extractLsb' 0 3))
    | _ => .error .subop
  | 0xB8 =>
    match (w.extractLsb' 8 4).toNat with
    | 0 => reserved (zeroField w 3 1) (.cpyG (w.extractLsb' 20 4) (w.extractLsb' 16 4) (w.extractLsb' 12 4) (w.extractLsb' 7 1) (w.extractLsb' 4 3) (w.extractLsb' 0 3))
    | _ => .error .subop
  | 0xB9 =>
    match (w.extractLsb' 8 4).toNat with
    | 0 => reserved (zeroField w 3 1) (.cpyRedAdd (w.extractLsb' 20 4) (w.extractLsb' 16 4) (w.extractLsb' 12 4) (w.extractLsb' 7 1) (w.extractLsb' 4 3) (w.extractLsb' 0 3))
    | 1 => reserved (zeroField w 3 1) (.cpyRedMin (w.extractLsb' 20 4) (w.extractLsb' 16 4) (w.extractLsb' 12 4) (w.extractLsb' 7 1) (w.extractLsb' 4 3) (w.extractLsb' 0 3))
    | 2 => reserved (zeroField w 3 1) (.cpyRedMax (w.extractLsb' 20 4) (w.extractLsb' 16 4) (w.extractLsb' 12 4) (w.extractLsb' 7 1) (w.extractLsb' 4 3) (w.extractLsb' 0 3))
    | 3 => reserved (zeroField w 3 1) (.cpyRedAnd (w.extractLsb' 20 4) (w.extractLsb' 16 4) (w.extractLsb' 12 4) (w.extractLsb' 7 1) (w.extractLsb' 4 3) (w.extractLsb' 0 3))
    | 4 => reserved (zeroField w 3 1) (.cpyRedOr (w.extractLsb' 20 4) (w.extractLsb' 16 4) (w.extractLsb' 12 4) (w.extractLsb' 7 1) (w.extractLsb' 4 3) (w.extractLsb' 0 3))
    | 5 => reserved (zeroField w 3 1) (.cpyRedXor (w.extractLsb' 20 4) (w.extractLsb' 16 4) (w.extractLsb' 12 4) (w.extractLsb' 7 1) (w.extractLsb' 4 3) (w.extractLsb' 0 3))
    | _ => .error .subop
  | 0xBA =>
    match (w.extractLsb' 8 4).toNat with
    | 0 => reserved (zeroField w 3 1) (.cpyM (w.extractLsb' 20 4) (w.extractLsb' 16 4) (w.extractLsb' 12 4) (w.extractLsb' 7 1) (w.extractLsb' 4 3) (w.extractLsb' 0 3))
    | _ => .error .subop
  | 0xBB =>
    match (w.extractLsb' 8 4).toNat with
    | 0 => reserved (zeroField w 3 1) (.cpyMigr (w.extractLsb' 20 4) (w.extractLsb' 16 4) (w.extractLsb' 12 4) (w.extractLsb' 7 1) (w.extractLsb' 4 3) (w.extractLsb' 0 3))
    | _ => .error .subop
  | 0xC0 =>
    match (w.extractLsb' 8 4).toNat with
    | 0 => reserved (zeroField w 12 4 && zeroField w 3 1) (.mzero (w.extractLsb' 20 4) (w.extractLsb' 16 4) (w.extractLsb' 7 1) (w.extractLsb' 4 3) (w.extractLsb' 0 3))
    | _ => .error .subop
  | 0xC1 =>
    match (w.extractLsb' 8 4).toNat with
    | 0 => reserved (zeroField w 3 1) (.mmaP1x1 (w.extractLsb' 20 4) (w.extractLsb' 16 4) (w.extractLsb' 12 4) (w.extractLsb' 7 1) (w.extractLsb' 4 3) (w.extractLsb' 0 3))
    | 1 => reserved (zeroField w 3 1) (.mmaP2x1 (w.extractLsb' 20 4) (w.extractLsb' 16 4) (w.extractLsb' 12 4) (w.extractLsb' 7 1) (w.extractLsb' 4 3) (w.extractLsb' 0 3))
    | 2 => reserved (zeroField w 3 1) (.mmaP2x2 (w.extractLsb' 20 4) (w.extractLsb' 16 4) (w.extractLsb' 12 4) (w.extractLsb' 7 1) (w.extractLsb' 4 3) (w.extractLsb' 0 3))
    | 3 => reserved (zeroField w 3 1) (.mmaP4x1 (w.extractLsb' 20 4) (w.extractLsb' 16 4) (w.extractLsb' 12 4) (w.extractLsb' 7 1) (w.extractLsb' 4 3) (w.extractLsb' 0 3))
    | 4 => reserved (zeroField w 3 1) (.mmaP4x2 (w.extractLsb' 20 4) (w.extractLsb' 16 4) (w.extractLsb' 12 4) (w.extractLsb' 7 1) (w.extractLsb' 4 3) (w.extractLsb' 0 3))
    | 5 => reserved (zeroField w 3 1) (.mmaP4x4 (w.extractLsb' 20 4) (w.extractLsb' 16 4) (w.extractLsb' 12 4) (w.extractLsb' 7 1) (w.extractLsb' 4 3) (w.extractLsb' 0 3))
    | 6 => reserved (zeroField w 3 1) (.mmaP8x1 (w.extractLsb' 20 4) (w.extractLsb' 16 4) (w.extractLsb' 12 4) (w.extractLsb' 7 1) (w.extractLsb' 4 3) (w.extractLsb' 0 3))
    | 7 => reserved (zeroField w 3 1) (.mmaP8x2 (w.extractLsb' 20 4) (w.extractLsb' 16 4) (w.extractLsb' 12 4) (w.extractLsb' 7 1) (w.extractLsb' 4 3) (w.extractLsb' 0 3))
    | 8 => reserved (zeroField w 3 1) (.mmaP8x4 (w.extractLsb' 20 4) (w.extractLsb' 16 4) (w.extractLsb' 12 4) (w.extractLsb' 7 1) (w.extractLsb' 4 3) (w.extractLsb' 0 3))
    | 9 => reserved (zeroField w 3 1) (.mmaP8x8 (w.extractLsb' 20 4) (w.extractLsb' 16 4) (w.extractLsb' 12 4) (w.extractLsb' 7 1) (w.extractLsb' 4 3) (w.extractLsb' 0 3))
    | _ => .error .subop
  | 0xC2 =>
    match (w.extractLsb' 8 4).toNat with
    | 0 => reserved (zeroField w 12 4 && zeroField w 3 1) (.mrsumRow (w.extractLsb' 20 4) (w.extractLsb' 16 4) (w.extractLsb' 7 1) (w.extractLsb' 4 3) (w.extractLsb' 0 3))
    | 1 => reserved (zeroField w 12 4 && zeroField w 3 1) (.mrsumCol (w.extractLsb' 20 4) (w.extractLsb' 16 4) (w.extractLsb' 7 1) (w.extractLsb' 4 3) (w.extractLsb' 0 3))
    | _ => .error .subop
  | 0xC3 =>
    match (w.extractLsb' 8 4).toNat with
    | 0 => reserved (zeroField w 3 1) (.mdrainI32 (w.extractLsb' 20 4) (w.extractLsb' 16 4) (w.extractLsb' 12 4) (w.extractLsb' 7 1) (w.extractLsb' 4 3) (w.extractLsb' 0 3))
    | 1 => reserved (zeroField w 3 1) (.mdrainW48 (w.extractLsb' 20 4) (w.extractLsb' 16 4) (w.extractLsb' 12 4) (w.extractLsb' 7 1) (w.extractLsb' 4 3) (w.extractLsb' 0 3))
    | 2 => reserved (zeroField w 3 1) (.mdrainF32 (w.extractLsb' 20 4) (w.extractLsb' 16 4) (w.extractLsb' 12 4) (w.extractLsb' 7 1) (w.extractLsb' 4 3) (w.extractLsb' 0 3))
    | _ => .error .subop
  | 0xC4 =>
    match (w.extractLsb' 8 4).toNat with
    | 0 => reserved (zeroField w 3 1) (.mplane (w.extractLsb' 20 4) (w.extractLsb' 16 4) (w.extractLsb' 12 4) (w.extractLsb' 7 1) (w.extractLsb' 4 3) (w.extractLsb' 0 3))
    | 1 => reserved (zeroField w 3 1) (.mplaneT (w.extractLsb' 20 4) (w.extractLsb' 16 4) (w.extractLsb' 12 4) (w.extractLsb' 7 1) (w.extractLsb' 4 3) (w.extractLsb' 0 3))
    | _ => .error .subop
  | 0xC5 =>
    match (w.extractLsb' 8 4).toNat with
    | 0 => reserved (zeroField w 3 1) (.mzpc (w.extractLsb' 20 4) (w.extractLsb' 16 4) (w.extractLsb' 12 4) (w.extractLsb' 7 1) (w.extractLsb' 4 3) (w.extractLsb' 0 3))
    | _ => .error .subop
  | 0xC8 =>
    match (w.extractLsb' 8 4).toNat with
    | 0 => reserved (zeroField w 20 4 && zeroField w 12 4 && zeroField w 3 5) (.mfid (w.extractLsb' 16 4) (w.extractLsb' 0 3))
    | _ => .error .subop
  | 0xC9 =>
    match (w.extractLsb' 8 4).toNat with
    | 0 => reserved (zeroField w 12 8 && zeroField w 7 1) (.mstat (w.extractLsb' 20 4) (w.extractLsb' 3 4) (w.extractLsb' 0 3))
    | _ => .error .subop
  | 0xCA =>
    match (w.extractLsb' 8 4).toNat with
    | 0 => reserved (zeroField w 20 4 && zeroField w 3 5) (.fidinj (w.extractLsb' 16 4) (w.extractLsb' 12 4) (w.extractLsb' 0 3))
    | _ => .error .subop
  | _ => .error .major

/-- The uniform majors 0x50 to 0x7F, by bits [31:24] and the sub-op (R56 to R59). -/
noncomputable def decodeUniform5 (w : Word) : Nat → Except Reject Instr
  | 0xD0 =>
    match (w.extractLsb' 8 4).toNat with
    | 0 => reserved (zeroField w 20 4 && zeroField w 12 4 && zeroField w 3 5) (.phinit (w.extractLsb' 16 4) (w.extractLsb' 0 3))
    | 1 => reserved (zeroField w 20 4 && zeroField w 12 4 && zeroField w 3 5) (.phinitForce (w.extractLsb' 16 4) (w.extractLsb' 0 3))
    | _ => .error .subop
  | 0xD1 =>
    match (w.extractLsb' 8 4).toNat with
    | 0 => reserved (zeroField w 4 4) (.phregSig (w.extractLsb' 20 4) (w.extractLsb' 16 4) (w.extractLsb' 12 4) (w.extractLsb' 3 1) (w.extractLsb' 0 3))
    | 1 => reserved (zeroField w 4 4) (.phregWait (w.extractLsb' 20 4) (w.extractLsb' 16 4) (w.extractLsb' 12 4) (w.extractLsb' 3 1) (w.extractLsb' 0 3))
    | 2 => reserved (zeroField w 4 4) (.phregBoth (w.extractLsb' 20 4) (w.extractLsb' 16 4) (w.extractLsb' 12 4) (w.extractLsb' 3 1) (w.extractLsb' 0 3))
    | _ => .error .subop
  | 0xD2 =>
    match (w.extractLsb' 8 4).toNat with
    | 0 => reserved (zeroField w 6 2) (.phdereg (w.extractLsb' 20 4) (w.extractLsb' 16 4) (w.extractLsb' 12 4) (w.extractLsb' 4 2) (w.extractLsb' 3 1) (w.extractLsb' 0 3))
    | _ => .error .subop
  | 0xD3 =>
    match (w.extractLsb' 8 4).toNat with
    | 0 => reserved (zeroField w 4 4) (.pharr (w.extractLsb' 20 4) (w.extractLsb' 16 4) (w.extractLsb' 12 4) (w.extractLsb' 3 1) (w.extractLsb' 0 3))
    | _ => .error .subop
  | 0xD4 =>
    match (w.extractLsb' 8 4).toNat with
    | 0 => reserved (zeroField w 4 4) (.phexp (w.extractLsb' 20 4) (w.extractLsb' 16 4) (w.extractLsb' 12 4) (w.extractLsb' 3 1) (w.extractLsb' 0 3))
    | _ => .error .subop
  | 0xD5 =>
    match (w.extractLsb' 8 4).toNat with
    | 0 => reserved (zeroField w 4 4) (.phwait (w.extractLsb' 20 4) (w.extractLsb' 16 4) (w.extractLsb' 12 4) (w.extractLsb' 3 1) (w.extractLsb' 0 3))
    | _ => .error .subop
  | 0xD6 =>
    match (w.extractLsb' 8 4).toNat with
    | 0 => reserved (zeroField w 12 12 && zeroField w 6 2) (.fenceAcq (w.extractLsb' 3 3) (w.extractLsb' 0 3))
    | 1 => reserved (zeroField w 12 12 && zeroField w 6 2) (.fenceRel (w.extractLsb' 3 3) (w.extractLsb' 0 3))
    | 2 => reserved (zeroField w 12 12 && zeroField w 6 2) (.fenceAr (w.extractLsb' 3 3) (w.extractLsb' 0 3))
    | _ => .error .subop
  | 0xD8 =>
    match (w.extractLsb' 8 4).toNat with
    | 0 => reserved (zeroField w 20 4 && zeroField w 6 2) (.xinvPage (w.extractLsb' 16 4) (w.extractLsb' 12 4) (w.extractLsb' 3 3) (w.extractLsb' 0 3))
    | 1 => reserved (zeroField w 20 4 && zeroField w 6 2) (.xinvRange (w.extractLsb' 16 4) (w.extractLsb' 12 4) (w.extractLsb' 3 3) (w.extractLsb' 0 3))
    | 2 => reserved (zeroField w 16 8 && zeroField w 6 2) (.xinvAsid (w.extractLsb' 12 4) (w.extractLsb' 3 3) (w.extractLsb' 0 3))
    | 3 => reserved (zeroField w 12 12 && zeroField w 6 2) (.xinvAll (w.extractLsb' 3 3) (w.extractLsb' 0 3))
    | _ => .error .subop
  | 0xD9 =>
    match (w.extractLsb' 8 4).toNat with
    | 0 => reserved (zeroField w 12 12 && zeroField w 3 5) (.xfence (w.extractLsb' 0 3))
    | _ => .error .subop
  | 0xDA =>
    match (w.extractLsb' 8 4).toNat with
    | 0 => reserved (zeroField w 12 12 && zeroField w 3 5) (.xsync (w.extractLsb' 0 3))
    | _ => .error .subop
  | 0xDB =>
    match (w.extractLsb' 8 4).toNat with
    | 0 => reserved (zeroField w 3 5) (.xprobe (w.extractLsb' 20 4) (w.extractLsb' 16 4) (w.extractLsb' 12 4) (w.extractLsb' 0 3))
    | _ => .error .subop
  | 0xDC =>
    match (w.extractLsb' 8 4).toNat with
    | 0 => reserved (zeroField w 20 4 && zeroField w 7 1) (.map (w.extractLsb' 16 4) (w.extractLsb' 12 4) (w.extractLsb' 6 1) (w.extractLsb' 3 3) (w.extractLsb' 0 3))
    | _ => .error .subop
  | 0xDD =>
    match (w.extractLsb' 8 4).toNat with
    | 0 => reserved (zeroField w 12 12 && zeroField w 6 2) (.unmap (w.extractLsb' 3 3) (w.extractLsb' 0 3))
    | _ => .error .subop
  | 0xDE =>
    match (w.extractLsb' 8 4).toNat with
    | 0 => reserved (zeroField w 12 12 && zeroField w 7 1) (.rflush (w.extractLsb' 6 1) (w.extractLsb' 3 3) (w.extractLsb' 0 3))
    | _ => .error .subop
  | 0xE0 => reserved (zeroField w 19 5) (.trap (w.extractLsb' 3 16) (w.extractLsb' 0 3))
  | 0xE1 => reserved (zeroField w 19 5) (.syscall (w.extractLsb' 3 16) (w.extractLsb' 0 3))
  | 0xE2 =>
    match (w.extractLsb' 8 4).toNat with
    | 0 => reserved (zeroField w 12 12 && zeroField w 4 4) (.eret (w.extractLsb' 3 1) (w.extractLsb' 0 3))
    | _ => .error .subop
  | 0xE3 =>
    match (w.extractLsb' 8 4).toNat with
    | 0 => reserved (zeroField w 3 5) (.ctxsave (w.extractLsb' 20 4) (w.extractLsb' 16 4) (w.extractLsb' 12 4) (w.extractLsb' 0 3))
    | _ => .error .subop
  | 0xE4 =>
    match (w.extractLsb' 8 4).toNat with
    | 0 => reserved (zeroField w 3 5) (.ctxload (w.extractLsb' 20 4) (w.extractLsb' 16 4) (w.extractLsb' 12 4) (w.extractLsb' 0 3))
    | _ => .error .subop
  | 0xE5 =>
    match (w.extractLsb' 8 4).toNat with
    | 0 => reserved (zeroField w 3 5) (.launch (w.extractLsb' 20 4) (w.extractLsb' 16 4) (w.extractLsb' 12 4) (w.extractLsb' 0 3))
    | _ => .error .subop
  | 0xE6 =>
    match (w.extractLsb' 8 4).toNat with
    | 0 => reserved (zeroField w 3 5) (.dcfg (w.extractLsb' 20 4) (w.extractLsb' 16 4) (w.extractLsb' 12 4) (w.extractLsb' 0 3))
    | _ => .error .subop
  | 0xE7 =>
    match (w.extractLsb' 8 4).toNat with
    | 0 => reserved (zeroField w 12 8 && zeroField w 7 1) (.ctrrd (w.extractLsb' 20 4) (w.extractLsb' 3 4) (w.extractLsb' 0 3))
    | _ => .error .subop
  | 0xE8 =>
    match (w.extractLsb' 8 4).toNat with
    | 0 => reserved (zeroField w 12 12) (.bkpt (w.extractLsb' 3 5) (w.extractLsb' 0 3))
    | _ => .error .subop
  | 0xE9 => reserved (zeroField w 23 1) (.sysrd (w.extractLsb' 19 4) (w.extractLsb' 3 16) (w.extractLsb' 0 3))
  | 0xEA => reserved (zeroField w 23 1) (.syswr (w.extractLsb' 19 4) (w.extractLsb' 3 16) (w.extractLsb' 0 3))
  | 0xF0 => .ok (.nop (w.extractLsb' 3 21) (w.extractLsb' 0 3))
  | 0xF1 => .ok (.pfL1 (w.extractLsb' 20 4) (w.extractLsb' 16 4) (w.extractLsb' 12 4) (w.extractLsb' 3 9) (w.extractLsb' 0 3))
  | 0xF2 => .ok (.pfL2 (w.extractLsb' 20 4) (w.extractLsb' 16 4) (w.extractLsb' 12 4) (w.extractLsb' 3 9) (w.extractLsb' 0 3))
  | 0xF3 => .ok (.yield (w.extractLsb' 3 21) (w.extractLsb' 0 3))
  | 0xF4 => .ok (.mark (w.extractLsb' 23 1) (w.extractLsb' 19 4) (w.extractLsb' 3 16) (w.extractLsb' 0 3))
  | _ => .error .major

/-- The row of the opcode map that the word matches, its fields read and its reserved fields checked (R51, R56 to R59). -/
noncomputable def decodeRow (w : Word) : Except Reject Instr :=
  let major := (w.extractLsb' 24 8).toNat
  if major < 0x30 then decodeLane0 w major
  else if major < 0x50 then decodeLane3 w major
  else if major < 0x80 then decodeLane5 w major
  else if major < 0xB0 then decodeUniform0 w major
  else if major < 0xD0 then decodeUniform3 w major
  else if major < 0xF5 then decodeUniform5 w major
  else .error .hint

/-- The checks of R52 that follow the row: the lowest reason that applies decides. -/
def checkWord (i : Instr) : Except Reject Instr :=
  if !i.reservedOk then .error .field
  else if !i.groupsOk then .error .group
  else if !i.scopeOk then .error .scope
  else .ok i

/-- The instruction a word stands for (R51, R52, R61). -/
noncomputable def decodeWord (w : Word) : Except Reject Instr :=
  match decodeRow w with
  | .ok i => checkWord i
  | .error r => .error r

/-- A word from four bytes at rising addresses, least significant first (R4, R32). -/
def wordOfBytes (b0 b1 b2 b3 : Byte) : Word := b3 ++ b2 ++ b1 ++ b0

/-- The byte `k` of a word in memory order (R4). -/
def byteOfWord (w : Word) (k : Nat) : Byte := w.extractLsb' (8 * k) 8

/-- The decoder on bytes: one instruction and the bytes after it; `none` where fewer than four bytes are left (R32). -/
noncomputable def decodeBytes : List Byte → Option (Except Reject Instr × List Byte)
  | b0 :: b1 :: b2 :: b3 :: rest => some (decodeWord (wordOfBytes b0 b1 b2 b3), rest)
  | _ => none

/-- What the decoder reads from an instruction whose bits, numbered as spec/opcode_table.json numbers them, are `w`. Every
word instruction has 32 bits; an event has none. -/
noncomputable def decodeTableWord (nbits w : Nat) : Option Instr :=
  if nbits = 32 then
    let x := BitVec.ofNat 32 w
    match decodeBytes [byteOfWord x 0, byteOfWord x 1, byteOfWord x 2, byteOfWord x 3] with
    | some (.ok i, _) => some i
    | _ => none
  else none

/-- The word of a well-formed instruction (R34, R40, R56 to R59); an event has none. -/
def encode : Instr → Option Word
  | .vaddI32 d a b n => some (0x01#8 ++ d ++ a ++ b ++ 0#3 ++ n)
  | .vaddI32Sat d a b n => some (0x01#8 ++ d ++ a ++ b ++ 1#3 ++ n)
  | .vaddN32Sat d a b n => some (0x01#8 ++ d ++ a ++ b ++ 2#3 ++ n)
  | .vsubI32 d a b n => some (0x02#8 ++ d ++ a ++ b ++ 0#3 ++ n)
  | .vsubI32Sat d a b n => some (0x02#8 ++ d ++ a ++ b ++ 1#3 ++ n)
  | .vsubN32Sat d a b n => some (0x02#8 ++ d ++ a ++ b ++ 2#3 ++ n)
  | .vaddc d a b k n => some (0x03#8 ++ d ++ a ++ b ++ k ++ n)
  | .vsubb d a b k n => some (0x04#8 ++ d ++ a ++ b ++ k ++ n)
  | .vmulI32 d a b n => some (0x05#8 ++ d ++ a ++ b ++ 0#3 ++ n)
  | .vmulhiI32 d a b n => some (0x06#8 ++ d ++ a ++ b ++ 0#3 ++ n)
  | .vmulhiN32 d a b n => some (0x06#8 ++ d ++ a ++ b ++ 1#3 ++ n)
  | .vmadI32 d a b c n => some (0x07#8 ++ d ++ a ++ b ++ c ++ n)
  | .vmadwI32 d a b c n => some (0x08#8 ++ d ++ a ++ b ++ c ++ n)
  | .vmadwN32 d a b c n => some (0x09#8 ++ d ++ a ++ b ++ c ++ n)
  | .vminI32 d a b n => some (0x0A#8 ++ d ++ a ++ b ++ 0#3 ++ n)
  | .vminN32 d a b n => some (0x0B#8 ++ d ++ a ++ b ++ 0#3 ++ n)
  | .vmaxI32 d a b n => some (0x0C#8 ++ d ++ a ++ b ++ 0#3 ++ n)
  | .vmaxN32 d a b n => some (0x0D#8 ++ d ++ a ++ b ++ 0#3 ++ n)
  | .vshlB32 d a b n => some (0x0E#8 ++ d ++ a ++ b ++ 0#3 ++ n)
  | .vshrN32 d a b n => some (0x0F#8 ++ d ++ a ++ b ++ 0#3 ++ n)
  | .vshrI32 d a b n => some (0x10#8 ++ d ++ a ++ b ++ 0#3 ++ n)
  | .vrotlB32 d a b n => some (0x11#8 ++ d ++ a ++ b ++ 0#3 ++ n)
  | .vrotrB32 d a b n => some (0x11#8 ++ d ++ a ++ b ++ 1#3 ++ n)
  | .vbfeN32 d a b n => some (0x12#8 ++ d ++ a ++ b ++ 0#3 ++ n)
  | .vbfeI32 d a b n => some (0x12#8 ++ d ++ a ++ b ++ 1#3 ++ n)
  | .vbfiB32 d a b c n => some (0x13#8 ++ d ++ a ++ b ++ c ++ n)
  | .vpopcB32 d a n => some (0x14#8 ++ d ++ a ++ 0#6 ++ 0#3 ++ n)
  | .vclzB32 d a n => some (0x15#8 ++ d ++ a ++ 0#6 ++ 0#3 ++ n)
  | .vbrevB32 d a n => some (0x16#8 ++ d ++ a ++ 0#6 ++ 0#3 ++ n)
  | .vpermB32 d a b n => some (0x17#8 ++ d ++ a ++ b ++ 0#3 ++ n)
  | .vdp4I8 d a b c n => some (0x18#8 ++ d ++ a ++ b ++ c ++ n)
  | .vdp4N8 d a b c n => some (0x19#8 ++ d ++ a ++ b ++ c ++ n)
  | .vsadN8 d a b c n => some (0x1A#8 ++ d ++ a ++ b ++ c ++ n)
  | .vandB32 d a b n => some (0x1B#8 ++ d ++ a ++ b ++ 0#3 ++ n)
  | .vorB32 d a b n => some (0x1B#8 ++ d ++ a ++ b ++ 1#3 ++ n)
  | .vxorB32 d a b n => some (0x1B#8 ++ d ++ a ++ b ++ 2#3 ++ n)
  | .vandnB32 d a b n => some (0x1B#8 ++ d ++ a ++ b ++ 3#3 ++ n)
  | .vnotB32 d a n => some (0x1B#8 ++ d ++ a ++ 0#6 ++ 4#3 ++ n)
  | .vcmpEqI32 d a b n => some (0x1C#8 ++ 0#3 ++ d ++ a ++ b ++ 0#3 ++ n)
  | .vcmpNeI32 d a b n => some (0x1C#8 ++ 0#3 ++ d ++ a ++ b ++ 1#3 ++ n)
  | .vcmpLtI32 d a b n => some (0x1C#8 ++ 0#3 ++ d ++ a ++ b ++ 2#3 ++ n)
  | .vcmpLeI32 d a b n => some (0x1C#8 ++ 0#3 ++ d ++ a ++ b ++ 3#3 ++ n)
  | .vcmpGtI32 d a b n => some (0x1C#8 ++ 0#3 ++ d ++ a ++ b ++ 4#3 ++ n)
  | .vcmpGeI32 d a b n => some (0x1C#8 ++ 0#3 ++ d ++ a ++ b ++ 5#3 ++ n)
  | .vcmpLtN32 d a b n => some (0x1D#8 ++ 0#3 ++ d ++ a ++ b ++ 2#3 ++ n)
  | .vcmpLeN32 d a b n => some (0x1D#8 ++ 0#3 ++ d ++ a ++ b ++ 3#3 ++ n)
  | .vcmpGtN32 d a b n => some (0x1D#8 ++ 0#3 ++ d ++ a ++ b ++ 4#3 ++ n)
  | .vcmpGeN32 d a b n => some (0x1D#8 ++ 0#3 ++ d ++ a ++ b ++ 5#3 ++ n)
  | .vselB32 d a b k n => some (0x1E#8 ++ d ++ a ++ b ++ k ++ n)
  | .kand d a b n => some (0x1F#8 ++ 0#3 ++ d ++ 0#3 ++ a ++ 0#3 ++ b ++ 0#3 ++ n)
  | .kor d a b n => some (0x1F#8 ++ 0#3 ++ d ++ 0#3 ++ a ++ 0#3 ++ b ++ 1#3 ++ n)
  | .kxor d a b n => some (0x1F#8 ++ 0#3 ++ d ++ 0#3 ++ a ++ 0#3 ++ b ++ 2#3 ++ n)
  | .kandn d a b n => some (0x1F#8 ++ 0#3 ++ d ++ 0#3 ++ a ++ 0#3 ++ b ++ 3#3 ++ n)
  | .knot d a n => some (0x1F#8 ++ 0#3 ++ d ++ 0#3 ++ a ++ 0#6 ++ 4#3 ++ n)
  | .kmov d a n => some (0x1F#8 ++ 0#3 ++ d ++ 0#3 ++ a ++ 0#6 ++ 5#3 ++ n)
  | .vmovB32 d a n => some (0x20#8 ++ d ++ a ++ 0#6 ++ 0#3 ++ n)
  | .vmovsB32 d a n => some (0x21#8 ++ d ++ 0#2 ++ a ++ 0#6 ++ 0#3 ++ n)
  | .vgetB32 d a b n => some (0x22#8 ++ d ++ a ++ b ++ 0#3 ++ n)
  | .vkrd d n => some (0x23#8 ++ d ++ 0#12 ++ 0#3 ++ n)
  | .vkwr a b n => some (0x23#8 ++ 0#6 ++ a ++ b ++ 1#3 ++ n)
  | .vaddiI32 d a i n => some (0x24#8 ++ d ++ a ++ i ++ n)
  | .vandiB32 d a i n => some (0x25#8 ++ d ++ a ++ i ++ n)
  | .voriB32 d a i n => some (0x26#8 ++ d ++ a ++ i ++ n)
  | .vxoriB32 d a i n => some (0x27#8 ++ d ++ a ++ i ++ n)
  | .vshliB32 d a i n => some (0x28#8 ++ d ++ a ++ 0#4 ++ i ++ n)
  | .vshriN32 d a i n => some (0x29#8 ++ d ++ a ++ 0#4 ++ i ++ n)
  | .vshriI32 d a i n => some (0x2A#8 ++ d ++ a ++ 0#4 ++ i ++ n)
  | .vmoviI32 d i n => some (0x2B#8 ++ d ++ 0#6 ++ i ++ n)
  | .collSumF32 d a b n => some (0x2C#8 ++ d ++ a ++ b ++ 0#3 ++ n)
  | .collSumI32 d a b n => some (0x2C#8 ++ d ++ a ++ b ++ 1#3 ++ n)
  | .collMaxI32 d a b n => some (0x2C#8 ++ d ++ a ++ b ++ 2#3 ++ n)
  | .collBcastB32 d a b n => some (0x2C#8 ++ d ++ a ++ b ++ 3#3 ++ n)
  | .faddF32 d a b n => some (0x30#8 ++ d ++ a ++ b ++ 0#3 ++ n)
  | .faddF16 d a b n => some (0x31#8 ++ d ++ a ++ b ++ 0#3 ++ n)
  | .faddBf16 d a b n => some (0x31#8 ++ d ++ a ++ b ++ 1#3 ++ n)
  | .fsubF32 d a b n => some (0x32#8 ++ d ++ a ++ b ++ 0#3 ++ n)
  | .fsubF16 d a b n => some (0x33#8 ++ d ++ a ++ b ++ 0#3 ++ n)
  | .fsubBf16 d a b n => some (0x33#8 ++ d ++ a ++ b ++ 1#3 ++ n)
  | .fmulF32 d a b n => some (0x34#8 ++ d ++ a ++ b ++ 0#3 ++ n)
  | .fmulF16 d a b n => some (0x35#8 ++ d ++ a ++ b ++ 0#3 ++ n)
  | .fmulBf16 d a b n => some (0x35#8 ++ d ++ a ++ b ++ 1#3 ++ n)
  | .ffmaF32 d a b c n => some (0x36#8 ++ d ++ a ++ b ++ c ++ n)
  | .ffmaF16 d a b c n => some (0x37#8 ++ d ++ a ++ b ++ c ++ n)
  | .ffmaBf16 d a b c n => some (0x38#8 ++ d ++ a ++ b ++ c ++ n)
  | .fminF32 d a b n => some (0x39#8 ++ d ++ a ++ b ++ 0#3 ++ n)
  | .fminF16 d a b n => some (0x3A#8 ++ d ++ a ++ b ++ 0#3 ++ n)
  | .fminBf16 d a b n => some (0x3A#8 ++ d ++ a ++ b ++ 1#3 ++ n)
  | .fmaxF32 d a b n => some (0x3B#8 ++ d ++ a ++ b ++ 0#3 ++ n)
  | .fmaxF16 d a b n => some (0x3C#8 ++ d ++ a ++ b ++ 0#3 ++ n)
  | .fmaxBf16 d a b n => some (0x3C#8 ++ d ++ a ++ b ++ 1#3 ++ n)
  | .fcmpEqF32 d a b n => some (0x3D#8 ++ 0#3 ++ d ++ a ++ b ++ 0#3 ++ n)
  | .fcmpNeF32 d a b n => some (0x3D#8 ++ 0#3 ++ d ++ a ++ b ++ 1#3 ++ n)
  | .fcmpLtF32 d a b n => some (0x3D#8 ++ 0#3 ++ d ++ a ++ b ++ 2#3 ++ n)
  | .fcmpLeF32 d a b n => some (0x3D#8 ++ 0#3 ++ d ++ a ++ b ++ 3#3 ++ n)
  | .fcmpGtF32 d a b n => some (0x3D#8 ++ 0#3 ++ d ++ a ++ b ++ 4#3 ++ n)
  | .fcmpGeF32 d a b n => some (0x3D#8 ++ 0#3 ++ d ++ a ++ b ++ 5#3 ++ n)
  | .fcmpUnF32 d a b n => some (0x3D#8 ++ 0#3 ++ d ++ a ++ b ++ 6#3 ++ n)
  | .fclassF32 d a n => some (0x3E#8 ++ d ++ a ++ 0#6 ++ 0#3 ++ n)
  | .fabsF32 d a n => some (0x3F#8 ++ d ++ a ++ 0#6 ++ 0#3 ++ n)
  | .fnegF32 d a n => some (0x3F#8 ++ d ++ a ++ 0#6 ++ 1#3 ++ n)
  | .fcsgnF32 d a b n => some (0x3F#8 ++ d ++ a ++ b ++ 2#3 ++ n)
  | .frcpF32 d a n => some (0x40#8 ++ d ++ a ++ 0#6 ++ 0#3 ++ n)
  | .frsqF32 d a n => some (0x41#8 ++ d ++ a ++ 0#6 ++ 0#3 ++ n)
  | .fsqrtF32 d a n => some (0x42#8 ++ d ++ a ++ 0#6 ++ 0#3 ++ n)
  | .fex2F32 d a n => some (0x43#8 ++ d ++ a ++ 0#6 ++ 0#3 ++ n)
  | .flg2F32 d a n => some (0x44#8 ++ d ++ a ++ 0#6 ++ 0#3 ++ n)
  | .cvtF32Rn d a e n => some (0x45#8 ++ d ++ a ++ 0#5 ++ e ++ 0#3 ++ n)
  | .cvtF32Rz d a e n => some (0x45#8 ++ d ++ a ++ 0#5 ++ e ++ 1#3 ++ n)
  | .cvtF32Rd d a e n => some (0x45#8 ++ d ++ a ++ 0#5 ++ e ++ 2#3 ++ n)
  | .cvtF32Ru d a e n => some (0x45#8 ++ d ++ a ++ 0#5 ++ e ++ 3#3 ++ n)
  | .cvtF16Rn d a b n => some (0x46#8 ++ d ++ a ++ b ++ 0#3 ++ n)
  | .cvtF16Rz d a b n => some (0x46#8 ++ d ++ a ++ b ++ 1#3 ++ n)
  | .cvtF16Rd d a b n => some (0x46#8 ++ d ++ a ++ b ++ 2#3 ++ n)
  | .cvtF16Ru d a b n => some (0x46#8 ++ d ++ a ++ b ++ 3#3 ++ n)
  | .cvtBf16Rn d a b n => some (0x47#8 ++ d ++ a ++ b ++ 0#3 ++ n)
  | .cvtBf16Rz d a b n => some (0x47#8 ++ d ++ a ++ b ++ 1#3 ++ n)
  | .cvtBf16Rd d a b n => some (0x47#8 ++ d ++ a ++ b ++ 2#3 ++ n)
  | .cvtBf16Ru d a b n => some (0x47#8 ++ d ++ a ++ b ++ 3#3 ++ n)
  | .cvtI32Rn d a e n => some (0x48#8 ++ d ++ a ++ 0#5 ++ e ++ 0#3 ++ n)
  | .cvtI32Rz d a e n => some (0x48#8 ++ d ++ a ++ 0#5 ++ e ++ 1#3 ++ n)
  | .cvtI32Rd d a e n => some (0x48#8 ++ d ++ a ++ 0#5 ++ e ++ 2#3 ++ n)
  | .cvtI32Ru d a e n => some (0x48#8 ++ d ++ a ++ 0#5 ++ e ++ 3#3 ++ n)
  | .cvtN32Rn d a e n => some (0x49#8 ++ d ++ a ++ 0#5 ++ e ++ 0#3 ++ n)
  | .cvtN32Rz d a e n => some (0x49#8 ++ d ++ a ++ 0#5 ++ e ++ 1#3 ++ n)
  | .cvtN32Rd d a e n => some (0x49#8 ++ d ++ a ++ 0#5 ++ e ++ 2#3 ++ n)
  | .cvtN32Ru d a e n => some (0x49#8 ++ d ++ a ++ 0#5 ++ e ++ 3#3 ++ n)
  | .npackF8e4 d a n => some (0x4A#8 ++ d ++ a ++ 0#6 ++ 0#3 ++ n)
  | .npackF8e5 d a n => some (0x4A#8 ++ d ++ a ++ 0#6 ++ 1#3 ++ n)
  | .npackF6e2 d a n => some (0x4A#8 ++ d ++ a ++ 0#6 ++ 2#3 ++ n)
  | .npackF6e3 d a n => some (0x4A#8 ++ d ++ a ++ 0#6 ++ 3#3 ++ n)
  | .npackF4e2 d a n => some (0x4A#8 ++ d ++ a ++ 0#6 ++ 4#3 ++ n)
  | .nunpackF8e4 d a n => some (0x4B#8 ++ d ++ a ++ 0#6 ++ 0#3 ++ n)
  | .nunpackF8e5 d a n => some (0x4B#8 ++ d ++ a ++ 0#6 ++ 1#3 ++ n)
  | .nunpackF6e2 d a n => some (0x4B#8 ++ d ++ a ++ 0#6 ++ 2#3 ++ n)
  | .nunpackF6e3 d a n => some (0x4B#8 ++ d ++ a ++ 0#6 ++ 3#3 ++ n)
  | .nunpackF4e2 d a n => some (0x4B#8 ++ d ++ a ++ 0#6 ++ 4#3 ++ n)
  | .qntQ4 d a b n => some (0x4C#8 ++ d ++ a ++ b ++ 0#3 ++ n)
  | .qntQ8 d a b n => some (0x4C#8 ++ d ++ a ++ b ++ 1#3 ++ n)
  | .dqQ4 d a b n => some (0x4D#8 ++ d ++ a ++ b ++ 0#3 ++ n)
  | .dqQ8 d a b n => some (0x4D#8 ++ d ++ a ++ b ++ 1#3 ++ n)
  | .tagset d i n => some (0x4E#8 ++ d ++ 0#11 ++ i ++ n)
  | .tagget d a n => some (0x4F#8 ++ d ++ a ++ 0#6 ++ 0#3 ++ n)
  | .bra o n => some (0x50#8 ++ 0#3 ++ o ++ n)
  | .braT k o n => some (0x51#8 ++ k ++ o ++ n)
  | .braF k o n => some (0x52#8 ++ k ++ o ++ n)
  | .brany k o n => some (0x53#8 ++ k ++ o ++ n)
  | .brall k o n => some (0x54#8 ++ k ++ o ++ n)
  | .brnone k o n => some (0x55#8 ++ k ++ o ++ n)
  | .call o n => some (0x56#8 ++ 0#3 ++ o ++ n)
  | .brx a n => some (0x57#8 ++ 0#6 ++ a ++ 0#6 ++ 0#3 ++ n)
  | .callx d a n => some (0x58#8 ++ d ++ a ++ 0#6 ++ 0#3 ++ n)
  | .ret a n => some (0x59#8 ++ 0#6 ++ a ++ 0#6 ++ 0#3 ++ n)
  | .elect d n => some (0x5A#8 ++ 0#3 ++ d ++ 0#12 ++ 0#3 ++ n)
  | .voteAny d a n => some (0x5B#8 ++ 0#3 ++ d ++ 0#3 ++ a ++ 0#6 ++ 0#3 ++ n)
  | .voteAll d a n => some (0x5B#8 ++ 0#3 ++ d ++ 0#3 ++ a ++ 0#6 ++ 1#3 ++ n)
  | .voteBallot d a n => some (0x5B#8 ++ d ++ 0#3 ++ a ++ 0#6 ++ 2#3 ++ n)
  | .exit n => some (0x5C#8 ++ 0#18 ++ 0#3 ++ n)
  | .sleep a n => some (0x5D#8 ++ 0#6 ++ a ++ 0#6 ++ 0#3 ++ n)
  | .safe i n => some (0x5E#8 ++ 0#3 ++ i ++ n)
  | .reform n => some (0x5F#8 ++ 0#18 ++ 0#3 ++ n)
  | .ldN8 d a o n => some (0x60#8 ++ d ++ a ++ o ++ n)
  | .ldI8 d a o n => some (0x61#8 ++ d ++ a ++ o ++ n)
  | .ldN16 d a o n => some (0x62#8 ++ d ++ a ++ o ++ n)
  | .ldI16 d a o n => some (0x63#8 ++ d ++ a ++ o ++ n)
  | .ldB32 d a o n => some (0x64#8 ++ d ++ a ++ o ++ n)
  | .ldB64 d a o n => some (0x65#8 ++ d ++ a ++ o ++ n)
  | .ldB128 d a o n => some (0x66#8 ++ d ++ a ++ o ++ n)
  | .stB8 d a o n => some (0x67#8 ++ d ++ a ++ o ++ n)
  | .stB16 d a o n => some (0x68#8 ++ d ++ a ++ o ++ n)
  | .stB32 d a o n => some (0x69#8 ++ d ++ a ++ o ++ n)
  | .stB64 d a o n => some (0x6A#8 ++ d ++ a ++ o ++ n)
  | .stB128 d a o n => some (0x6B#8 ++ d ++ a ++ o ++ n)
  | .ldsB32 d a o n => some (0x6C#8 ++ d ++ a ++ o ++ n)
  | .ldsB64 d a o n => some (0x6D#8 ++ d ++ a ++ o ++ n)
  | .stsB32 d a o n => some (0x6E#8 ++ d ++ a ++ o ++ n)
  | .stsB64 d a o n => some (0x6F#8 ++ d ++ a ++ o ++ n)
  | .ldqB32 d a b n => some (0x70#8 ++ d ++ a ++ b ++ 0#3 ++ n)
  | .stqB32 d a b n => some (0x71#8 ++ d ++ a ++ b ++ 0#3 ++ n)
  | .ldAcqB32 d a e n => some (0x72#8 ++ d ++ a ++ 0#6 ++ e ++ n)
  | .stRelB32 d a e n => some (0x73#8 ++ d ++ a ++ 0#6 ++ e ++ n)
  | .cacheEvl1 a n => some (0x74#8 ++ 0#6 ++ a ++ 0#6 ++ 0#3 ++ n)
  | .cacheWbl2 a n => some (0x74#8 ++ 0#6 ++ a ++ 0#6 ++ 1#3 ++ n)
  | .cacheEvl2 a n => some (0x74#8 ++ 0#6 ++ a ++ 0#6 ++ 2#3 ++ n)
  | .atomAddI32 d a b n => some (0x75#8 ++ d ++ a ++ b ++ 0#3 ++ n)
  | .atomMinI32 d a b n => some (0x75#8 ++ d ++ a ++ b ++ 1#3 ++ n)
  | .atomMaxI32 d a b n => some (0x75#8 ++ d ++ a ++ b ++ 2#3 ++ n)
  | .atomMinN32 d a b n => some (0x75#8 ++ d ++ a ++ b ++ 3#3 ++ n)
  | .atomMaxN32 d a b n => some (0x75#8 ++ d ++ a ++ b ++ 4#3 ++ n)
  | .atomAndB32 d a b n => some (0x76#8 ++ d ++ a ++ b ++ 0#3 ++ n)
  | .atomOrB32 d a b n => some (0x76#8 ++ d ++ a ++ b ++ 1#3 ++ n)
  | .atomXorB32 d a b n => some (0x76#8 ++ d ++ a ++ b ++ 2#3 ++ n)
  | .atomXchgB32 d a b n => some (0x77#8 ++ d ++ a ++ b ++ 0#3 ++ n)
  | .atomCasB32 d a b n => some (0x77#8 ++ d ++ a ++ b ++ 1#3 ++ n)
  | .atomAddF32 d a b n => some (0x77#8 ++ d ++ a ++ b ++ 2#3 ++ n)
  | .atomAddI64 d a b n => some (0x78#8 ++ d ++ a ++ b ++ 0#3 ++ n)
  | .atomMaxN64 d a b n => some (0x78#8 ++ d ++ a ++ b ++ 1#3 ++ n)
  | .atomXchgB64 d a b n => some (0x78#8 ++ d ++ a ++ b ++ 2#3 ++ n)
  | .atomCasB64 d a b n => some (0x78#8 ++ d ++ a ++ b ++ 3#3 ++ n)
  | .redAddI32 a b n => some (0x79#8 ++ 0#6 ++ a ++ b ++ 0#3 ++ n)
  | .redMinI32 a b n => some (0x79#8 ++ 0#6 ++ a ++ b ++ 1#3 ++ n)
  | .redMaxI32 a b n => some (0x79#8 ++ 0#6 ++ a ++ b ++ 2#3 ++ n)
  | .redMinN32 a b n => some (0x79#8 ++ 0#6 ++ a ++ b ++ 3#3 ++ n)
  | .redMaxN32 a b n => some (0x79#8 ++ 0#6 ++ a ++ b ++ 4#3 ++ n)
  | .redAndB32 a b n => some (0x7A#8 ++ 0#6 ++ a ++ b ++ 0#3 ++ n)
  | .redOrB32 a b n => some (0x7A#8 ++ 0#6 ++ a ++ b ++ 1#3 ++ n)
  | .redXorB32 a b n => some (0x7A#8 ++ 0#6 ++ a ++ b ++ 2#3 ++ n)
  | .redAddF32 a b n => some (0x7B#8 ++ 0#6 ++ a ++ b ++ 0#3 ++ n)
  | .redAddI64 a b n => some (0x7B#8 ++ 0#6 ++ a ++ b ++ 1#3 ++ n)
  | .msend d a b n => some (0x7C#8 ++ d ++ a ++ b ++ 0#3 ++ n)
  | .mrecv d a b n => some (0x7D#8 ++ d ++ a ++ b ++ 0#3 ++ n)
  | .mprobe d a b n => some (0x7E#8 ++ d ++ a ++ b ++ 0#3 ++ n)
  | .mcancel d a b n => some (0x7F#8 ++ d ++ a ++ b ++ 0#3 ++ n)
  | .uaddI32 d a b n => some (0x81#8 ++ d ++ a ++ b ++ 0#4 ++ 0#5 ++ n)
  | .usubI32 d a b n => some (0x82#8 ++ d ++ a ++ b ++ 0#4 ++ 0#5 ++ n)
  | .umulI32 d a b n => some (0x83#8 ++ d ++ a ++ b ++ 0#4 ++ 0#5 ++ n)
  | .umulhiI32 d a b n => some (0x84#8 ++ d ++ a ++ b ++ 0#4 ++ 0#5 ++ n)
  | .umulhiN32 d a b n => some (0x85#8 ++ d ++ a ++ b ++ 0#4 ++ 0#5 ++ n)
  | .uminI32 d a b n => some (0x86#8 ++ d ++ a ++ b ++ 0#4 ++ 0#5 ++ n)
  | .uminN32 d a b n => some (0x86#8 ++ d ++ a ++ b ++ 1#4 ++ 0#5 ++ n)
  | .umaxI32 d a b n => some (0x87#8 ++ d ++ a ++ b ++ 0#4 ++ 0#5 ++ n)
  | .umaxN32 d a b n => some (0x87#8 ++ d ++ a ++ b ++ 1#4 ++ 0#5 ++ n)
  | .uandB32 d a b n => some (0x88#8 ++ d ++ a ++ b ++ 0#4 ++ 0#5 ++ n)
  | .uorB32 d a b n => some (0x89#8 ++ d ++ a ++ b ++ 0#4 ++ 0#5 ++ n)
  | .uxorB32 d a b n => some (0x8A#8 ++ d ++ a ++ b ++ 0#4 ++ 0#5 ++ n)
  | .ushlB32 d a b n => some (0x8B#8 ++ d ++ a ++ b ++ 0#4 ++ 0#5 ++ n)
  | .ushrN32 d a b n => some (0x8C#8 ++ d ++ a ++ b ++ 0#4 ++ 0#5 ++ n)
  | .ushrI32 d a b n => some (0x8D#8 ++ d ++ a ++ b ++ 0#4 ++ 0#5 ++ n)
  | .ubfeN32 d a b n => some (0x8E#8 ++ d ++ a ++ b ++ 0#4 ++ 0#5 ++ n)
  | .ubfeI32 d a b n => some (0x8E#8 ++ d ++ a ++ b ++ 1#4 ++ 0#5 ++ n)
  | .ubfiB32 d a b n => some (0x8F#8 ++ d ++ a ++ b ++ 0#4 ++ 0#5 ++ n)
  | .upopcB32 d a n => some (0x90#8 ++ d ++ a ++ 0#4 ++ 0#4 ++ 0#5 ++ n)
  | .uclzB32 d a n => some (0x91#8 ++ d ++ a ++ 0#4 ++ 0#4 ++ 0#5 ++ n)
  | .ucmpEqB32 d a b n => some (0x92#8 ++ d ++ a ++ b ++ 0#4 ++ 0#5 ++ n)
  | .ucmpNeB32 d a b n => some (0x92#8 ++ d ++ a ++ b ++ 1#4 ++ 0#5 ++ n)
  | .ucmpLtI32 d a b n => some (0x93#8 ++ d ++ a ++ b ++ 0#4 ++ 0#5 ++ n)
  | .ucmpLeI32 d a b n => some (0x93#8 ++ d ++ a ++ b ++ 1#4 ++ 0#5 ++ n)
  | .ucmpLtN32 d a b n => some (0x94#8 ++ d ++ a ++ b ++ 0#4 ++ 0#5 ++ n)
  | .ucmpLeN32 d a b n => some (0x94#8 ++ d ++ a ++ b ++ 1#4 ++ 0#5 ++ n)
  | .uselB32 d a b c n => some (0x95#8 ++ d ++ a ++ b ++ 0#4 ++ 0#1 ++ c ++ n)
  | .umovB32 d a n => some (0x96#8 ++ d ++ a ++ 0#4 ++ 0#4 ++ 0#5 ++ n)
  | .uaddI64 d a b n => some (0x97#8 ++ d ++ a ++ b ++ 0#4 ++ 0#5 ++ n)
  | .uaddiI32 d i n => some (0x98#8 ++ 0#1 ++ d ++ i ++ n)
  | .umovi d i n => some (0x99#8 ++ 0#1 ++ d ++ i ++ n)
  | .umovhi d i n => some (0x99#8 ++ 1#1 ++ d ++ i ++ n)
  | .uandiB32 d i n => some (0x9A#8 ++ 0#1 ++ d ++ i ++ n)
  | .uoriB32 d i n => some (0x9B#8 ++ 0#1 ++ d ++ i ++ n)
  | .ushliB32 d i n => some (0x9C#8 ++ 0#1 ++ d ++ 0#11 ++ i ++ n)
  | .ushriN32 d i n => some (0x9D#8 ++ 0#1 ++ d ++ 0#11 ++ i ++ n)
  | .usr d i n => some (0x9E#8 ++ 0#1 ++ d ++ i ++ n)
  | .lduB32 d a o n => some (0xA0#8 ++ d ++ a ++ 0#4 ++ o ++ n)
  | .lduB64 d a o n => some (0xA1#8 ++ d ++ a ++ 0#4 ++ o ++ n)
  | .ldcB32 d a o n => some (0xA2#8 ++ d ++ a ++ 0#4 ++ o ++ n)
  | .ldcB64 d a o n => some (0xA3#8 ++ d ++ a ++ 0#4 ++ o ++ n)
  | .ubra i n => some (0xA4#8 ++ 0#5 ++ i ++ n)
  | .ubrz d i n => some (0xA5#8 ++ 0#1 ++ d ++ i ++ n)
  | .ubrnz d i n => some (0xA6#8 ++ 0#1 ++ d ++ i ++ n)
  | .uloop d i n => some (0xA7#8 ++ 0#1 ++ d ++ i ++ n)
  | .ucall d i n => some (0xA8#8 ++ 0#1 ++ d ++ i ++ n)
  | .uret d n => some (0xA9#8 ++ d ++ 0#8 ++ 0#4 ++ 0#5 ++ n)
  | .fork d i n => some (0xB0#8 ++ 0#1 ++ d ++ i ++ n)
  | .rdzv d a n => some (0xB1#8 ++ d ++ a ++ 0#4 ++ 0#4 ++ 0#5 ++ n)
  | .gresTake g n => some (0xB2#8 ++ 0#12 ++ 0#4 ++ 0#1 ++ g ++ 0#1 ++ n)
  | .gresDrop g n => some (0xB2#8 ++ 0#12 ++ 1#4 ++ 0#1 ++ g ++ 0#1 ++ n)
  | .cpyL d a b x g n => some (0xB4#8 ++ d ++ a ++ b ++ 0#4 ++ x ++ g ++ 0#1 ++ n)
  | .cpyS d a b x g n => some (0xB5#8 ++ d ++ a ++ b ++ 0#4 ++ x ++ g ++ 0#1 ++ n)
  | .cpyT2 d a b x g n => some (0xB6#8 ++ d ++ a ++ b ++ 0#4 ++ x ++ g ++ 0#1 ++ n)
  | .cpyT3 d a b x g n => some (0xB7#8 ++ d ++ a ++ b ++ 0#4 ++ x ++ g ++ 0#1 ++ n)
  | .cpyG d a b x g n => some (0xB8#8 ++ d ++ a ++ b ++ 0#4 ++ x ++ g ++ 0#1 ++ n)
  | .cpyRedAdd d a b x g n => some (0xB9#8 ++ d ++ a ++ b ++ 0#4 ++ x ++ g ++ 0#1 ++ n)
  | .cpyRedMin d a b x g n => some (0xB9#8 ++ d ++ a ++ b ++ 1#4 ++ x ++ g ++ 0#1 ++ n)
  | .cpyRedMax d a b x g n => some (0xB9#8 ++ d ++ a ++ b ++ 2#4 ++ x ++ g ++ 0#1 ++ n)
  | .cpyRedAnd d a b x g n => some (0xB9#8 ++ d ++ a ++ b ++ 3#4 ++ x ++ g ++ 0#1 ++ n)
  | .cpyRedOr d a b x g n => some (0xB9#8 ++ d ++ a ++ b ++ 4#4 ++ x ++ g ++ 0#1 ++ n)
  | .cpyRedXor d a b x g n => some (0xB9#8 ++ d ++ a ++ b ++ 5#4 ++ x ++ g ++ 0#1 ++ n)
  | .cpyM d a b x g n => some (0xBA#8 ++ d ++ a ++ b ++ 0#4 ++ x ++ g ++ 0#1 ++ n)
  | .cpyMigr d a b x g n => some (0xBB#8 ++ d ++ a ++ b ++ 0#4 ++ x ++ g ++ 0#1 ++ n)
  | .mzero d a x g n => some (0xC0#8 ++ d ++ a ++ 0#4 ++ 0#4 ++ x ++ g ++ 0#1 ++ n)
  | .mmaP1x1 d a b x g n => some (0xC1#8 ++ d ++ a ++ b ++ 0#4 ++ x ++ g ++ 0#1 ++ n)
  | .mmaP2x1 d a b x g n => some (0xC1#8 ++ d ++ a ++ b ++ 1#4 ++ x ++ g ++ 0#1 ++ n)
  | .mmaP2x2 d a b x g n => some (0xC1#8 ++ d ++ a ++ b ++ 2#4 ++ x ++ g ++ 0#1 ++ n)
  | .mmaP4x1 d a b x g n => some (0xC1#8 ++ d ++ a ++ b ++ 3#4 ++ x ++ g ++ 0#1 ++ n)
  | .mmaP4x2 d a b x g n => some (0xC1#8 ++ d ++ a ++ b ++ 4#4 ++ x ++ g ++ 0#1 ++ n)
  | .mmaP4x4 d a b x g n => some (0xC1#8 ++ d ++ a ++ b ++ 5#4 ++ x ++ g ++ 0#1 ++ n)
  | .mmaP8x1 d a b x g n => some (0xC1#8 ++ d ++ a ++ b ++ 6#4 ++ x ++ g ++ 0#1 ++ n)
  | .mmaP8x2 d a b x g n => some (0xC1#8 ++ d ++ a ++ b ++ 7#4 ++ x ++ g ++ 0#1 ++ n)
  | .mmaP8x4 d a b x g n => some (0xC1#8 ++ d ++ a ++ b ++ 8#4 ++ x ++ g ++ 0#1 ++ n)
  | .mmaP8x8 d a b x g n => some (0xC1#8 ++ d ++ a ++ b ++ 9#4 ++ x ++ g ++ 0#1 ++ n)
  | .mrsumRow d a x g n => some (0xC2#8 ++ d ++ a ++ 0#4 ++ 0#4 ++ x ++ g ++ 0#1 ++ n)
  | .mrsumCol d a x g n => some (0xC2#8 ++ d ++ a ++ 0#4 ++ 1#4 ++ x ++ g ++ 0#1 ++ n)
  | .mdrainI32 d a b x g n => some (0xC3#8 ++ d ++ a ++ b ++ 0#4 ++ x ++ g ++ 0#1 ++ n)
  | .mdrainW48 d a b x g n => some (0xC3#8 ++ d ++ a ++ b ++ 1#4 ++ x ++ g ++ 0#1 ++ n)
  | .mdrainF32 d a b x g n => some (0xC3#8 ++ d ++ a ++ b ++ 2#4 ++ x ++ g ++ 0#1 ++ n)
  | .mplane d a b x g n => some (0xC4#8 ++ d ++ a ++ b ++ 0#4 ++ x ++ g ++ 0#1 ++ n)
  | .mplaneT d a b x g n => some (0xC4#8 ++ d ++ a ++ b ++ 1#4 ++ x ++ g ++ 0#1 ++ n)
  | .mzpc d a b x g n => some (0xC5#8 ++ d ++ a ++ b ++ 0#4 ++ x ++ g ++ 0#1 ++ n)
  | .mfid a n => some (0xC8#8 ++ 0#4 ++ a ++ 0#4 ++ 0#4 ++ 0#5 ++ n)
  | .mstat d i n => some (0xC9#8 ++ d ++ 0#8 ++ 0#4 ++ 0#1 ++ i ++ n)
  | .fidinj a b n => some (0xCA#8 ++ 0#4 ++ a ++ b ++ 0#4 ++ 0#5 ++ n)
  | .phinit a n => some (0xD0#8 ++ 0#4 ++ a ++ 0#4 ++ 0#4 ++ 0#5 ++ n)
  | .phinitForce a n => some (0xD0#8 ++ 0#4 ++ a ++ 0#4 ++ 1#4 ++ 0#5 ++ n)
  | .phregSig d a b q n => some (0xD1#8 ++ d ++ a ++ b ++ 0#4 ++ 0#4 ++ q ++ n)
  | .phregWait d a b q n => some (0xD1#8 ++ d ++ a ++ b ++ 1#4 ++ 0#4 ++ q ++ n)
  | .phregBoth d a b q n => some (0xD1#8 ++ d ++ a ++ b ++ 2#4 ++ 0#4 ++ q ++ n)
  | .phdereg d a b r q n => some (0xD2#8 ++ d ++ a ++ b ++ 0#4 ++ 0#2 ++ r ++ q ++ n)
  | .pharr d a b q n => some (0xD3#8 ++ d ++ a ++ b ++ 0#4 ++ 0#4 ++ q ++ n)
  | .phexp d a b q n => some (0xD4#8 ++ d ++ a ++ b ++ 0#4 ++ 0#4 ++ q ++ n)
  | .phwait d a b q n => some (0xD5#8 ++ d ++ a ++ b ++ 0#4 ++ 0#4 ++ q ++ n)
  | .fenceAcq e n => some (0xD6#8 ++ 0#12 ++ 0#4 ++ 0#2 ++ e ++ n)
  | .fenceRel e n => some (0xD6#8 ++ 0#12 ++ 1#4 ++ 0#2 ++ e ++ n)
  | .fenceAr e n => some (0xD6#8 ++ 0#12 ++ 2#4 ++ 0#2 ++ e ++ n)
  | .xinvPage a b e n => some (0xD8#8 ++ 0#4 ++ a ++ b ++ 0#4 ++ 0#2 ++ e ++ n)
  | .xinvRange a b e n => some (0xD8#8 ++ 0#4 ++ a ++ b ++ 1#4 ++ 0#2 ++ e ++ n)
  | .xinvAsid b e n => some (0xD8#8 ++ 0#8 ++ b ++ 2#4 ++ 0#2 ++ e ++ n)
  | .xinvAll e n => some (0xD8#8 ++ 0#12 ++ 3#4 ++ 0#2 ++ e ++ n)
  | .xfence n => some (0xD9#8 ++ 0#12 ++ 0#4 ++ 0#5 ++ n)
  | .xsync n => some (0xDA#8 ++ 0#12 ++ 0#4 ++ 0#5 ++ n)
  | .xprobe d a b n => some (0xDB#8 ++ d ++ a ++ b ++ 0#4 ++ 0#5 ++ n)
  | .map a b w r n => some (0xDC#8 ++ 0#4 ++ a ++ b ++ 0#4 ++ 0#1 ++ w ++ r ++ n)
  | .unmap r n => some (0xDD#8 ++ 0#12 ++ 0#4 ++ 0#2 ++ r ++ n)
  | .rflush v r n => some (0xDE#8 ++ 0#12 ++ 0#4 ++ 0#1 ++ v ++ r ++ n)
  | .trap i n => some (0xE0#8 ++ 0#5 ++ i ++ n)
  | .syscall i n => some (0xE1#8 ++ 0#5 ++ i ++ n)
  | .eret s n => some (0xE2#8 ++ 0#12 ++ 0#4 ++ 0#4 ++ s ++ n)
  | .ctxsave d a b n => some (0xE3#8 ++ d ++ a ++ b ++ 0#4 ++ 0#5 ++ n)
  | .ctxload d a b n => some (0xE4#8 ++ d ++ a ++ b ++ 0#4 ++ 0#5 ++ n)
  | .launch d a b n => some (0xE5#8 ++ d ++ a ++ b ++ 0#4 ++ 0#5 ++ n)
  | .dcfg d a b n => some (0xE6#8 ++ d ++ a ++ b ++ 0#4 ++ 0#5 ++ n)
  | .ctrrd d i n => some (0xE7#8 ++ d ++ 0#8 ++ 0#4 ++ 0#1 ++ i ++ n)
  | .bkpt c n => some (0xE8#8 ++ 0#12 ++ 0#4 ++ c ++ n)
  | .sysrd d i n => some (0xE9#8 ++ 0#1 ++ d ++ i ++ n)
  | .syswr d i n => some (0xEA#8 ++ 0#1 ++ d ++ i ++ n)
  | .nop x n => some (0xF0#8 ++ x ++ n)
  | .pfL1 x a y o n => some (0xF1#8 ++ x ++ a ++ y ++ o ++ n)
  | .pfL2 x a y o n => some (0xF2#8 ++ x ++ a ++ y ++ o ++ n)
  | .yield x n => some (0xF3#8 ++ x ++ n)
  | .mark x y i n => some (0xF4#8 ++ x ++ y ++ i ++ n)
  | _ => none

end Sys2Proof
end

