-- ==== Sys2Proof/Machine/Float.lean ====
section
/-! DEFINITION. Floating point (spec/03_number_formats.md R63 to R73, spec/06_lane_float.md R124 to R136): formats, exact
values, one rounding function, and the operations on bit patterns. A finite value is exact: a sign, a natural significand
and a power of two; every operation is computed exactly and rounded once (R64). -/

namespace Sys2Proof.Machine

/-- A binary float layout: exponent width, fraction width, bias (R63, R68). -/
structure Fmt where
  ew : Nat
  fw : Nat
  bias : Nat
  deriving DecidableEq, Repr

def Fmt.f32 : Fmt := ⟨8, 23, 127⟩
def Fmt.f16 : Fmt := ⟨5, 10, 15⟩
def Fmt.bf16 : Fmt := ⟨8, 7, 127⟩
def Fmt.f8e4 : Fmt := ⟨4, 3, 7⟩
def Fmt.f8e5 : Fmt := ⟨5, 2, 15⟩
def Fmt.f6e2 : Fmt := ⟨2, 3, 1⟩
def Fmt.f6e3 : Fmt := ⟨3, 2, 3⟩
def Fmt.f4e2 : Fmt := ⟨2, 1, 1⟩

/-- Width in bits. -/
def Fmt.width (F : Fmt) : Nat := 1 + F.ew + F.fw

/-- The reading of a narrow format's top exponent (R69); binary formats are read as `ieee` (R63). -/
inductive Reading where
  | fin | nan | ieee
  deriving DecidableEq, Repr

/-- The readings 0 to 2 of R69; 3 is reserved. -/
def readingOf (n : Nat) : Option Reading :=
  match n with
  | 0 => some .fin
  | 1 => some .nan
  | 2 => some .ieee
  | _ => none

/-- The rounding modes of R65, in the order of their encoding. -/
inductive RMode where
  | rn | rz | rd | ru
  deriving DecidableEq, Repr

/-- The value of an encoding: NaN, an infinity, or the exact (-1)^neg × m × 2^e (R63). -/
inductive FVal where
  | nan
  | inf (neg : Bool)
  | fin (neg : Bool) (m : Nat) (e : Int)
  deriving DecidableEq, Repr

/-- The least power of two a format's significand counts in: 1 − bias − fraction width (R63). -/
def Fmt.qmin (F : Fmt) : Int := 1 - (F.bias : Int) - (F.fw : Int)

/-- The greatest finite magnitude code of a format under a reading (R63, R69). -/
def Fmt.maxCode (F : Fmt) : Reading → Nat
  | .fin => 2 ^ (F.ew + F.fw) - 1
  | .nan => 2 ^ (F.ew + F.fw) - 2
  | .ieee => (2 ^ F.ew - 1) * 2 ^ F.fw - 1

/-- The magnitude code of infinity under the IEEE reading (R63, R69). -/
def Fmt.infCode (F : Fmt) : Nat := (2 ^ F.ew - 1) * 2 ^ F.fw

/-- The canonical NaN a conversion produces, sign 0 (R64, R69): under NAN all ones; under IEEE the top fraction bit. -/
def Fmt.nanCode (F : Fmt) : Reading → Nat
  | .nan => 2 ^ (F.ew + F.fw) - 1
  | _ => F.infCode + 2 ^ (F.fw - 1)

/-- The sign bit of a code, in place. -/
def Fmt.signBit (F : Fmt) (neg : Bool) : Nat := if neg then 2 ^ (F.ew + F.fw) else 0

/-- The value of an encoding under a reading (R63, R69). -/
def Fmt.value (F : Fmt) (r : Reading) (bits : Nat) : FVal :=
  let neg := bits / 2 ^ (F.ew + F.fw) % 2 == 1
  let code := bits % 2 ^ (F.ew + F.fw)
  if r == .ieee && code == F.infCode then .inf neg
  else if code > F.maxCode r then .nan
  else
    let ex := code / 2 ^ F.fw
    let frac := code % 2 ^ F.fw
    if ex == 0 then .fin neg frac F.qmin
    else .fin neg (2 ^ F.fw + frac) (F.qmin + (ex : Int) - 1)

/-- 2^e as a ratio of naturals. -/
def pow2Ratio (e : Int) : Nat × Nat := if 0 ≤ e then (2 ^ e.toNat, 1) else (1, 2 ^ (-e).toNat)

/-- ⌊log2 (num / den)⌋ for positive num and den. -/
def ratioLog2 (num den : Nat) : Int :=
  let e : Int := (Nat.log2 num : Int) - (Nat.log2 den : Int)
  let (p, q) := pow2Ratio e
  if den * p ≤ num * q then e else e - 1

/-- Does the mode round the magnitude away from zero, for quotient `k` with remainder `r` of divisor `d` (R65)? -/
def roundsUp (m : RMode) (neg : Bool) (k r d : Nat) : Bool :=
  match m with
  | .rn => decide (2 * r > d) || (decide (2 * r = d) && k % 2 == 1)
  | .rz => false
  | .rd => neg && r != 0
  | .ru => !neg && r != 0

/-- A rational rounded to an integer magnitude under a mode (R65). -/
def roundNat (m : RMode) (neg : Bool) (num den : Nat) : Nat :=
  let k := num / den
  if roundsUp m neg k (num % den) den then k + 1 else k

/-- The magnitude code of a positive rational rounded to a format with the exponent unbounded above and gradual underflow
below (R65). A code beyond the format's largest finite one means overflow. -/
def roundCode (F : Fmt) (m : RMode) (neg : Bool) (num den : Nat) : Nat :=
  if num == 0 then 0
  else
    let q := max (ratioLog2 num den - (F.fw : Int)) F.qmin
    let (p, r) := pow2Ratio q
    let k := roundNat m neg (num * r) (den * p)
    (q - F.qmin).toNat * 2 ^ F.fw + k

/-- The code of an overflowed magnitude in a format with infinities (R66). -/
def overflowCode (F : Fmt) (m : RMode) (neg : Bool) : Nat :=
  match m, neg with
  | .rn, _ => F.infCode
  | .rz, _ => F.maxCode .ieee
  | .rd, true => F.infCode
  | .rd, false => F.maxCode .ieee
  | .ru, true => F.maxCode .ieee
  | .ru, false => F.infCode

/-- A signed rational rounded to a format under a reading: R65, then R66 (saturation under FIN and NAN). -/
def roundRat (F : Fmt) (r : Reading) (m : RMode) (neg : Bool) (num den : Nat) : Nat :=
  let c := roundCode F m neg num den
  let c' := if c ≤ F.maxCode r then c
            else if r == .ieee then overflowCode F m neg else F.maxCode r
  F.signBit neg + c'

/-- EncodeNarrow of R71, and for the IEEE reading the Round of R131: NaN, infinities, then one rounding. -/
def encodeFloat (F : Fmt) (r : Reading) (m : RMode) (x : FVal) : Nat :=
  match x with
  | .nan => if r == .fin then 0 else F.nanCode r
  | .inf neg =>
    match r with
    | .ieee => F.signBit neg + F.infCode
    | .nan => F.nanCode .nan
    | .fin => F.signBit neg + F.maxCode .fin
  | .fin neg sig e =>
    let (p, q) := pow2Ratio e
    roundRat F r m neg (sig * p) q

/-- Round(x, F, m) of R131 for the binary formats. -/
def roundF (F : Fmt) (m : RMode) (x : FVal) : Nat := encodeFloat F .ieee m x

/-- An exact integer as a value. -/
def FVal.ofInt (i : Int) : FVal := .fin (decide (i < 0)) i.natAbs 0

/-- The signed significand of a finite value counted in 2^e', for e' ≤ e. -/
def alignedSig (neg : Bool) (m : Nat) (e e' : Int) : Int :=
  let k : Int := ((m * 2 ^ (e - e').toNat : Nat) : Int)
  if neg then -k else k

/-- The exact sum with the special cases of R125. -/
def FVal.add : FVal → FVal → FVal
  | .nan, _ => .nan
  | _, .nan => .nan
  | .inf a, .inf b => if a == b then .inf a else .nan
  | .inf a, .fin .. => .inf a
  | .fin .., .inf b => .inf b
  | .fin n1 m1 e1, .fin n2 m2 e2 =>
    if m1 == 0 && m2 == 0 then .fin (n1 && n2) 0 0
    else
      let e := min e1 e2
      let s := alignedSig n1 m1 e1 e + alignedSig n2 m2 e2 e
      .fin (decide (s < 0)) s.natAbs e

def FVal.neg : FVal → FVal
  | .nan => .nan
  | .inf a => .inf (!a)
  | .fin n m e => .fin (!n) m e

/-- The exact product with the special cases of R125. -/
def FVal.mul : FVal → FVal → FVal
  | .nan, _ => .nan
  | _, .nan => .nan
  | .inf a, .inf b => .inf (a != b)
  | .inf a, .fin n m _ => if m == 0 then .nan else .inf (a != n)
  | .fin n m _, .inf b => if m == 0 then .nan else .inf (n != b)
  | .fin n1 m1 e1, .fin n2 m2 e2 => .fin (n1 != n2) (m1 * m2) (e1 + e2)

/-- The real value times 2^k as an integer, exact where k + e ≥ 0 (every use scales far enough). -/
def FVal.scaled (k : Nat) : FVal → Int
  | .fin n m e =>
    let v : Int := ((m * 2 ^ ((k : Int) + e).toNat : Nat) : Int)
    if n then -v else v
  | _ => 0

/-- Numerical comparison of two values that are not NaN: the sign of a − b, with −0 equal to +0. -/
def FVal.cmp (a b : FVal) : Ordering :=
  match a, b with
  | .inf x, .inf y => if x == y then .eq else if x then .lt else .gt
  | .inf x, _ => if x then .lt else .gt
  | _, .inf y => if y then .gt else .lt
  | .fin n1 m1 e1, .fin n2 m2 e2 =>
    let e := min e1 e2
    compare (alignedSig n1 m1 e1 e) (alignedSig n2 m2 e2 e)
  | _, _ => .eq

def FVal.isNan : FVal → Bool
  | .nan => true
  | _ => false

/-- The value of a binary element. -/
def valueOf (F : Fmt) (bits : Nat) : FVal := F.value .ieee bits

def fadd (F : Fmt) (a b : Nat) : Nat := roundF F .rn ((valueOf F a).add (valueOf F b))
def fsub (F : Fmt) (a b : Nat) : Nat := roundF F .rn ((valueOf F a).add (valueOf F b).neg)
def fmul (F : Fmt) (a b : Nat) : Nat := roundF F .rn ((valueOf F a).mul (valueOf F b))
/-- One rounding; the product is never rounded on its own (R124). -/
def ffma (F : Fmt) (a b c : Nat) : Nat := roundF F .rn (((valueOf F a).mul (valueOf F b)).add (valueOf F c))

/-- The sign bit of an element. -/
def signOf (F : Fmt) (a : Nat) : Bool := a / 2 ^ (F.ew + F.fw) % 2 == 1

/-- a is ordered strictly below b, with −0 below +0 (R126). -/
def minLess (F : Fmt) (a b : Nat) : Bool :=
  match (valueOf F a).cmp (valueOf F b) with
  | .lt => true
  | .gt => false
  | .eq => signOf F a && !signOf F b

/-- FMIN and FMAX on one element (R126): one operand's bits unchanged. -/
def fminmax (isMax : Bool) (F : Fmt) (a b : Nat) : Nat :=
  match (valueOf F a).isNan, (valueOf F b).isNan with
  | true, true => F.nanCode .ieee
  | true, false => b
  | false, true => a
  | false, false => if minLess F a b == isMax then b else a

/-- The conditions of FCMP (R127). -/
inductive FCond where
  | eq | ne | lt | le | gt | ge | un
  deriving DecidableEq, Repr

def fcmp (c : FCond) (F : Fmt) (a b : Nat) : Bool :=
  let x := valueOf F a
  let y := valueOf F b
  let un := x.isNan || y.isNan
  let o := x.cmp y
  match c with
  | .eq => !un && o == .eq
  | .ne => un || o != .eq
  | .lt => !un && o == .lt
  | .le => !un && o != .gt
  | .gt => !un && o == .gt
  | .ge => !un && o != .lt
  | .un => un

/-- The class bit of FCLASS (R128). -/
def fclassBit (F : Fmt) (a : Nat) : Nat :=
  match valueOf F a with
  | .nan => 8
  | .inf neg => if neg then 0 else 7
  | .fin neg m _ =>
    if m == 0 then (if neg then 3 else 4)
    else if m < 2 ^ F.fw then (if neg then 2 else 5)
    else (if neg then 1 else 6)

/-- A finite value rounded to an integer under a mode and clamped; NaN gives 0, infinities clamp (R67, R131). -/
def toInt (m : RMode) (lo hi : Int) (x : FVal) : Int :=
  match x with
  | .nan => 0
  | .inf neg => if neg then lo else hi
  | .fin neg sig e =>
    let (p, q) := pow2Ratio e
    let k : Int := ((roundNat m neg (sig * p) q : Nat) : Int)
    max lo (min hi (if neg then -k else k))

/-- ⌊√n⌋, bit by bit from bit `k` down; exact for n < 4^(k+1). -/
def isqrtAux (n : Nat) : Nat → Nat → Nat
  | 0, r => if (r + 1) * (r + 1) ≤ n then r + 1 else r
  | k + 1, r =>
    let r' := r + 2 ^ (k + 1)
    isqrtAux n k (if r' * r' ≤ n then r' else r)

/-- ⌊√n⌋. -/
def isqrt (n : Nat) : Nat := isqrtAux n (Nat.log2 n / 2) 0

/-- The two F32 codes that bracket √(num/den), and whether the first is exact; both magnitudes. The root of any F32 value or
of its reciprocal lies in the normal range. -/
def sqrtBracket (num den : Nat) : Nat × Nat × Bool :=
  let l := ratioLog2 num den
  let q := l.fdiv 2 - 23
  let (p, r) := pow2Ratio (2 * q)
  let n2 := num * r
  let d2 := den * p
  let k := isqrt (n2 / d2)
  let code := (q - Fmt.f32.qmin).toNat * 2 ^ 23 + k
  (code, code + 1, k * k * d2 == n2)

/-- FSQRT (R132): RoundNE of the exact root. No F32 root is a midpoint, so the nearer bracket end is the result. -/
def fsqrt32 (a : Nat) : Nat :=
  match valueOf .f32 a with
  | .nan => Fmt.f32.nanCode .ieee
  | .inf neg => if neg then Fmt.f32.nanCode .ieee else Fmt.f32.infCode
  | .fin neg m e =>
    if m == 0 then a
    else if neg then Fmt.f32.nanCode .ieee
    else
      let (p, q) := pow2Ratio e
      let (lo, hi, _) := sqrtBracket (m * p) q
      -- lo stands for k·2^q0, so compare the argument with ((2k+1)·2^(q0−1))²
      match valueOf .f32 lo with
      | .fin _ k q0 =>
        let (p2, r2) := pow2Ratio (2 * q0 - 2)
        if (2 * k + 1) * (2 * k + 1) * p2 * q < m * p * r2 then hi else lo
      | _ => lo

/-- The members of a one-of set for a faithful result: one value where it is exact, else both bracketing values (R132). -/
def faithful (exact : Bool) (lo hi : Nat) : List Nat := if exact then [lo] else [lo, hi]

/-- The allowed results of FRCP (R132). -/
def frcpSet (a : Nat) : List Nat :=
  match valueOf .f32 a with
  | .nan => [Fmt.f32.nanCode .ieee]
  | .inf neg => [Fmt.f32.signBit neg]
  | .fin neg m e =>
    if m == 0 then [Fmt.f32.signBit neg + Fmt.f32.infCode]
    else
      let (p, q) := pow2Ratio e
      let lo := roundCode .f32 .rz false q (m * p)
      let hi := roundCode .f32 .ru false q (m * p)
      let (pm, qm) := (2 ^ 128 - 2 ^ 104, 1)
      -- the exact quotient exceeds the largest finite value: ±infinity
      if q * qm > pm * (m * p) then [Fmt.f32.signBit neg + Fmt.f32.infCode]
      else (faithful (lo == hi) lo hi).map (Fmt.f32.signBit neg + ·)

/-- The allowed results of FRSQ (R132). -/
def frsqSet (a : Nat) : List Nat :=
  match valueOf .f32 a with
  | .nan => [Fmt.f32.nanCode .ieee]
  | .inf neg => if neg then [Fmt.f32.nanCode .ieee] else [0]
  | .fin neg m e =>
    if m == 0 then [Fmt.f32.signBit neg + Fmt.f32.infCode]
    else if neg then [Fmt.f32.nanCode .ieee]
    else
      let (p, q) := pow2Ratio e
      let (lo, hi, exact) := sqrtBracket q (m * p)
      faithful exact lo hi

/-- The binary points of the fixed-point bounds below: of a fraction, and of a value of any F32 magnitude. -/
def fracBits : Nat := 256
def fxBits : Nat := 512

/-- z + z³/3 + z⁵/5 + … in units of 2^−256 for z = zn/zd ≤ 1/3, from the power `p` of z with the odd exponent `k` on: every
step rounded down (`up` = 0: a lower bound of artanh z), or up and with the tail added (`up` = 1: an upper bound). -/
def atanhSum (up zn zd : Nat) : Nat → Nat → Nat → Nat
  | 0, _, p => up * 2 * p
  | n + 1, k, p => p / k + up + atanhSum up zn zd n (k + 2) (p * (zn * zn) / (zd * zd) + up)

/-- A bound of ln (num/den) × 2^256 for 1 ≤ num/den ≤ 2: below it, or above it. -/
def lnBound (up num den : Nat) : Nat :=
  let zn := num - den
  let zd := num + den
  2 * atanhSum up zn zd 96 1 (2 ^ fracBits * zn / zd + up)

/-- 1 + x + x²/2 + … in units of 2^−256 for x = `x`/2^256 ≤ 1, from the term `t` on; `up` as in `atanhSum`. -/
def expSum (up x : Nat) : Nat → Nat → Nat → Nat
  | 0, _, t => up * 2 * t
  | n + 1, k, t => t + expSum up x n (k + 1) (t * x / (k * 2 ^ fracBits) + up)

/-- A bound of 2^(num/den) × 2^256 for 0 ≤ num/den < 1: below it, or above it. -/
def exp2Bound (up num den : Nat) : Nat :=
  if num = 0 then 2 ^ fracBits
  else expSum up (num * lnBound up 2 1 / den + up) 64 1 (2 ^ fracBits)

/-- Bounds of 2^a × 2^512 for a finite a = ±m·2^e below 128, with the floor of a: (lower, upper, ⌊a⌋, a is an integer). -/
def exp2Bounds (neg : Bool) (m : Nat) (e : Int) : Nat × Nat × Int × Bool :=
  let (p, q) := pow2Ratio e
  if neg && decide (256 * q ≤ m * p) then (0, 2 ^ 256, -256, false)
  else
    let num : Int := if neg then -((m * p : Nat) : Int) else ((m * p : Nat) : Int)
    let fl := num.fdiv (q : Int)
    let fr := (num.fmod (q : Int)).toNat
    let sh := ((fxBits : Int) - fracBits + fl).toNat
    (exp2Bound 0 fr q * 2 ^ sh, exp2Bound 1 fr q * 2 ^ sh, fl, fr == 0)

/-- The F32 code nearest a positive fixed-point value. -/
def nearestFx (x : Nat) : Nat := min (roundCode .f32 .rn false x (2 ^ fxBits)) (Fmt.f32.maxCode .ieee)

/-- A value between the bounds is surely at most `tol` away from `r`. -/
def surelyNear (r lo hi tol : Int) : Bool := decide (r ≤ lo + tol) && decide (hi ≤ r + tol)

/-- The bound of R132 for FEX2, 2 ulp(2^a), where ⌊a⌋ = `fl`; in units of 2^−512. -/
def exp2Tol (fl : Int) : Int := 2 * 2 ^ ((fxBits : Int) + max (fl - 23) (-149)).toNat

/-- FEX2 (R132): `cand` is a proposed result; it is taken when it surely lies within the bound, else the nearest value is.
With a free `cand` every result that surely lies within the bound can occur (logs 8, 162). -/
def fex2 (a : Nat) (cand : Nat) : Nat :=
  match valueOf .f32 a with
  | .nan => Fmt.f32.nanCode .ieee
  | .inf neg => if neg then 0 else Fmt.f32.infCode
  | .fin neg m e =>
    let (p, q) := pow2Ratio e
    if !neg && decide (m * p ≥ 128 * q) then Fmt.f32.infCode
    else
      let (lo, hi, fl, isInt) := exp2Bounds neg m e
      if isInt && decide (-149 ≤ fl) then roundF .f32 .rn (.fin false 1 fl)
      else
        match valueOf .f32 cand with
        | .fin false cm ce =>
          if surelyNear (FVal.scaled fxBits (.fin false cm ce)) lo hi (exp2Tol fl) then cand else nearestFx lo
        | _ => nearestFx lo

/-- Bounds of log2 a × 2^512 for a = m·2^e, m > 0, with the exponent of a: (lower, upper, ⌊log2 a⌋). -/
def log2Bounds (m : Nat) (e : Int) : Int × Int × Int :=
  let l := Nat.log2 m
  let n : Int := (l : Int) + e
  let lo := 2 ^ fxBits * lnBound 0 m (2 ^ l) / lnBound 1 2 1
  let hi := 2 ^ fxBits * lnBound 1 m (2 ^ l) / lnBound 0 2 1 + 1
  (n * 2 ^ fxBits + lo, n * 2 ^ fxBits + hi, n)

/-- The bound of R132 for FLG2, in units of 2^−512: absolute for a in 0.5 to 2, elsewhere 2 ulp(log2 a). -/
def log2Tol (lo hi n : Int) : Int :=
  if n = 0 ∨ n = -1 then 2 ^ (fxBits - 22)
  else 2 * 2 ^ ((Nat.log2 (if lo < 0 then (-hi).toNat else lo.toNat) : Int) - 23).toNat

/-- FLG2 (R132), with a proposed result as in `fex2`. -/
def flg2 (a : Nat) (cand : Nat) : Nat :=
  match valueOf .f32 a with
  | .nan => Fmt.f32.nanCode .ieee
  | .inf neg => if neg then Fmt.f32.nanCode .ieee else Fmt.f32.infCode
  | .fin neg m e =>
    if m == 0 then Fmt.f32.signBit true + Fmt.f32.infCode
    else if neg then Fmt.f32.nanCode .ieee
    else
      let (lo, hi, n) := log2Bounds m e
      if m == 2 ^ Nat.log2 m then roundF .f32 .rn (FVal.ofInt n)
      else
        let near := if lo < 0 then Fmt.f32.signBit true + nearestFx (-hi).toNat else nearestFx lo.toNat
        match valueOf .f32 cand with
        | .fin cn cm ce =>
          if surelyNear (FVal.scaled fxBits (.fin cn cm ce)) lo hi (log2Tol lo hi n) then cand else near
        | _ => near

/-- The lesser of two finite F32 values and zero, as a signed integer scaled by 2^149. -/
def sig149 (a : Nat) : Int := (valueOf .f32 a).scaled 149

def isFinite (F : Fmt) (a : Nat) : Bool :=
  match valueOf F a with
  | .fin .. => true
  | _ => false

/-- QNT (R136): the group parameter word for least value `a` and greatest value `b`, for b-bit codes. -/
def qnt (bits a b : Nat) : Nat :=
  let mx := 2 ^ bits - 1
  if !(isFinite .f32 a && isFinite .f32 b) then 0
  else
    let x := sig149 a
    let y := sig149 b
    let lo := min (min x y) 0
    let hi := max (max x y) 0
    if hi == lo then 0
    else
      let s := min (roundCode .f16 .ru false (hi - lo).toNat (mx * 2 ^ 149)) (Fmt.f16.maxCode .ieee)
      match valueOf .f16 s with
      | .fin _ m e =>
        let (p, q) := pow2Ratio e
        let z := min mx (roundNat .rn false ((-lo).toNat * q) (2 ^ 149 * (m * p)))
        z * 2 ^ 16 + s
      | _ => 0

/-- s × (c − z), the value of a Q4 or Q8 code (R72, R137), rounded to F32 (it is exact there). -/
def dqCode (s z c : Nat) : Nat :=
  let d : Int := (c : Int) - (z : Int)
  roundF .f32 .rn ((valueOf .f16 s).mul (FVal.ofInt d))

/-- QuantCode of R73 for a value x given as an FVal. -/
def quantCode (x : FVal) (s z bits : Nat) : Nat :=
  match x, valueOf .f16 s with
  | .nan, _ => z
  | _, .nan => z
  | _, .inf _ => z
  | .inf neg, .fin sn sm _ => if sm == 0 then z else if neg != sn then 0 else 2 ^ bits - 1
  | .fin n m e, .fin sn sm se =>
    if sm == 0 then z
    else
      let (p, q) := pow2Ratio (e - se)
      let k : Int := ((roundNat .rn (n != sn) (m * p) (sm * q) : Nat) : Int)
      let v := (if n != sn then -k else k) + (z : Int)
      (max 0 (min v ((2 ^ bits - 1 : Nat) : Int))).toNat

end Sys2Proof.Machine
end

