-- ==== Sys2Proof/Config.lean ====
section
/-! DEFINITION. What the spec leaves open or leaves to the implementation: constants with no body, so that nothing proved
about the machine rests on a value of them. -/

namespace Sys2Proof

/-- The free values (R12 and every result the spec does not fix): the model reads `free k` for rising `k` (State.freeIdx),
one at each occurrence. -/
opaque Config.free : Nat → Nat

/-- What other wafers publish of themselves (R165, R166): the usable MiB of slice `slice` of domain `d`, and the ways of the domain's
L2 that are carved into domain scratch. -/
opaque Config.remoteUsable : (wid d slice : Nat) → Nat
opaque Config.remoteWays : (wid d : Nat) → Nat

/-- SHA3-384 (R406, R407, R410): 48 bytes of a byte string. The spec names the function and does not define it. -/
opaque Config.sha3 : List Byte → List Byte

/-- RFC 8032 Ed25519 verification: key, message, signature (R406, R407). -/
opaque Config.ed25519 : List Byte → List Byte → List Byte → Bool

/-- FIPS 204 ML-DSA-65 verification with an empty context string: key, message, signature (R406, R407). -/
opaque Config.mlDsa65 : List Byte → List Byte → List Byte → Bool

/-- The device identity's public keys and its two signatures over a digest (R411). -/
opaque Config.identityEd25519 : List Byte
opaque Config.identityMlDsa : List Byte
opaque Config.signEd25519 : List Byte → List Byte
opaque Config.signMlDsa : List Byte → List Byte

/-- The 32-bit check code over ENG sections (R339): computed by the device in a way the spec does not give. -/
opaque Config.engCheck : List Byte → Word

end Sys2Proof
end

