-- ==== Sys2Proof/Machine/State.lean ====
section
/-! DEFINITION. The machine state as plain data: everything the spec gives the module (INVENTORY.md, State), the state right
after reset, and the names of what can stop a step. -/

namespace Sys2Proof.Machine

/-! ## Threads and bobbins -/

/-- A fixed-latency write that is not yet complete (R42, R46): the register file holds `new` from dispatch on. -/
structure Inflight where
  reg : Reg
  /-- The value the register held before this write. -/
  old : VReg
  new : VReg
  /-- First domain cycle at which a consumer that dispatches finds the result complete (R42). -/
  done : Nat
  deriving DecidableEq, Repr

/-- Where a byte of an access lies: a system physical address in its canonical form (a domain-striped address is folded to
its slice, R164), or a byte of a core's scratchpad. -/
inductive Loc where
  | phys (pa : Nat)
  /-- A byte of a replicated page, at its address in the sequencer domain, with the domain whose replica serves reads (R321). -/
  | replica (pa dom : Nat)
  | scratch (core off : Nat)
  deriving DecidableEq, Repr

/-- How the bytes of a load or an atomic turn into registers (R173, R176, R96, R283). -/
inductive LoadForm where
  /-- Whole words, all with this tag (s-registers have none). -/
  | words (t : Tag)
  /-- The old value of an atomic, in a return slot (R282). -/
  | slot (t : Tag)
  /-- One zero-extended value, tagged n32. -/
  | zext
  /-- One sign-extended value, tagged i32. -/
  | sext
  deriving DecidableEq, Repr

/-- An atomic's function (R283): the kiosk operations. -/
inductive AtomOp where
  | addI32 | minI32 | maxI32 | minN32 | maxN32
  | andB | orB | xorB | xchg | cas | addF32 | addI64 | maxN64
  deriving DecidableEq, Repr

/-- A collective contribution (R293, R294): the contributing block and its binding, the channel, element, op and value;
`root`: the block is on the channel's root core. -/
structure Contribution where
  bid : Nat
  binding : Nat
  chan : Nat
  elem : Nat
  op : Nat
  value : Word
  root : Bool
  deriving DecidableEq, Repr

/-- What completes a pending register group (R48). -/
inductive PendWork where
  /-- A value already decided at dispatch. -/
  | value (ws : List VReg)
  /-- Outstanding accesses give the value (R171): the number of each part, and its bytes once it has bound them. -/
  | access (parts : List (Nat × Option (List Byte))) (form : LoadForm)
  /-- A register loan of this thread's (or another's) v-register, read at completion (R117, R119). -/
  | loan (lender : Nat) (reg : BitVec 6)
  /-- A collective contribution: its round's number arrives when the channel accepts it (R293). -/
  | coll (c : Contribution)
  /-- The value arrives with a reply of the fabric, a dispatcher or another agent: kept open until its event. -/
  | reply
  deriving DecidableEq, Repr

/-- A group of pending registers (R48). -/
structure Pend where
  id : Nat
  regs : List Reg
  work : PendWork
  /-- The cycle of its domain in which the instruction dispatched (R48, R120). -/
  born : Nat
  /-- Counted cycles left until the result has to be complete, where R419 gives its instruction a bound. -/
  left : Option Nat
  deriving DecidableEq, Repr

/-- A write of a thread's v-register that a register loan may return (R119): its number in program order, and the cycle from which
it is performed. -/
structure Lent where
  num : Nat
  reg : BitVec 6
  val : VReg
  done : Nat
  deriving DecidableEq, Repr

/-- What threads and bobbins share: program counter, s-registers, sys.tstate, the stall count's next eligible cycle, and the
results on their way. -/
structure Ctx where
  pc : DWord
  s : Vector Word 16
  /-- sys.tstate (R333): INH [7], PRIV [6], NREAD [5:4], STALLCHK [3]. -/
  tstate : Word
  /-- The agent may issue from this cycle of its domain on (R42). -/
  ready : Nat
  inflight : List Inflight
  pend : List Pend
  /-- An acquire or a fence at sys has come before: its loads of host windows return the latest store (R273). -/
  hostLatest : Bool := false
  /-- How far into State.past its view of each byte of a host window has come (R274): byte and length. -/
  hostSeen : List (Nat × Nat) := []
  /-- The writes of the thread's v-registers since its last release, and what each register so written held then, in program order: what
  loans may return (R118, R119); and the number of the next. -/
  lent : List Lent := []
  lentNext : Nat := 0
  /-- The newest write that a loan of this thread has returned, by lender and register (R119). -/
  borrowed : List (Nat × BitVec 6 × Nat) := []
  deriving DecidableEq, Repr

/-- The trap registers of a thread (R328, R333). -/
structure TrapRegs where
  cause : Word
  word : Word
  pc : DWord
  info : Word
  addr : DWord
  tstate : Word
  deriving DecidableEq, Repr

/-- What has come of a wait on a phaser (R256, R259): nothing yet; a phase has completed, and a waiter's new token is this; a PHINIT
has come. -/
inductive Wake where
  | waiting
  | woken (token : Word)
  | stale
  deriving DecidableEq, Repr

/-- What a blocked thread waits for (R140, R265). -/
inductive Wait where
  /-- PHWAIT, or the early arrival of PHARR (`arrive`), on the phaser at this scratchpad offset of this core: the token,
  the register that receives the new token, the word of the instruction (R262, R264), and whether it has been woken. -/
  | phwait (core off : Nat) (token : Word) (sd : BitVec 4) (arrive : Bool) (word : Word) (wake : Wake)
  /-- RDZV on bobbin `b` of the thread's core: `sd` receives the bobbin's s0 (R188). -/
  | rdzv (b : Nat) (sd : BitVec 4) (word : Word)
  /-- MRECV: no message matches the tag under the mask; `vd` names the group of four (R290). -/
  | mrecv (tag mask : Word) (vd : BitVec 6)
  /-- XSYNC on the thread's sync phaser (R308). -/
  | xsync
  /-- DCFG of `ways` ways of domain `dom` waits for the accesses through the discarded entries (R345). -/
  | dcfg (dom ways old : Nat) (sd : BitVec 4)
  deriving DecidableEq, Repr

/-- The states of R140, with the stops of a save (R337). A runnable thread is a member of a braid or filed in a bin. -/
inductive TStatus where
  | runnable
  | blocked (w : Wait)
  /-- SLEEP until this cycle of the domain (R153). -/
  | sleeping (wake : Nat)
  /-- Stopped on a translation fault (R312). -/
  | parked
  /-- Stopped for a save at a safe point, with the index of R340 and the 128 bits of the live-register mask entry (R156); every
  register is saved where `live` is none. -/
  | stopped (safe : Word) (live : Option Nat)
  | exited
  deriving DecidableEq, Repr

/-- A resident thread. -/
structure Thread where
  ctx : Ctx
  v : Vector VReg 64
  k : BitVec 8
  trap : TrapRegs
  status : TStatus
  /-- The word at the PC does not match a hardware breakpoint: set by ERET (R331, R335). -/
  bpSkip : Bool
  /-- The uniform frame the thread references, if any (R89). -/
  frame : Option Nat
  /-- The held .hi write of trap.pc and of trap.addr (R332). -/
  pcHi : Option Word
  addrHi : Option Word
  deriving DecidableEq, Repr

/-! ## Blocks -/

/-- A line of a valid region that is not invalid: clean with an empty mask, dirty with the mask of its written bytes (R177). -/
structure RegionLine where
  idx : Nat
  mask : BitVec 128
  /-- A write-back of the line has faulted and waits for its retry (R179). -/
  faulted : Bool
  deriving DecidableEq, Repr

/-- A scratchpad region (R177). -/
structure Region where
  valid : Bool
  base : DWord
  page : Nat
  pages : Nat
  wr : Bool
  lines : List RegionLine
  /-- A killed write-back has discarded bytes; the next RFLUSH or UNMAP reports it (R346). -/
  lost : Bool
  /-- Invalid lines that an access waits for: their fill was held back (R179, R325). -/
  wants : List Nat := []
  /-- How far into State.past the unit's view of each byte of a host window has come (R274). -/
  hostSeen : List (Nat × Nat) := []
  deriving DecidableEq, Repr

/-- An entry of the signal list (R268). -/
structure SignalEntry where
  name : Nat
  off : Nat
  count : Nat
  deriving DecidableEq, Repr

/-- A message of a mailbox (R287). -/
structure Message where
  src : BitVec 16
  tag : Word
  payload : DWord
  deriving DecidableEq, Repr

/-- A mailbox (R287): the core-held messages in arrival order, the overflow ring's read position, and what the core wrote to
its entries, oldest first; the entries themselves are bytes of the scratch window. `due` counts the appends whose phase of the
mailbox phaser has not completed yet, `phase` the completed ones (R290). -/
structure Mailbox where
  held : List Message
  ringHead : Nat
  ring : List Message
  due : Nat
  phase : Nat
  deriving DecidableEq, Repr

/-- The block-scope system registers (R333) but those computed from elsewhere (sys.corename, sys.prio EFF). A 64-bit
register holds a pending .hi write until its .lo write (R332). -/
structure BlockRegs where
  blockid : Word
  blockdim : Word
  gridblocks : Word
  qrank : Word
  qsize : Word
  argbase : DWord
  scratchBase : Word
  scratchSize : Word
  lmtBase : DWord
  lmtCount : Word
  ttBase : DWord
  ttCount : Word
  mbox : Word
  cbind : Vector Word 4
  ptroot : DWord
  asid : Word
  tvec : DWord
  ctxid : Word
  /-- sys.prio.GRID: the grid's priority. -/
  grid : Nat
  bp0 : DWord
  bp1 : DWord
  ptrootHi : Option Word
  tvecHi : Option Word
  bp0Hi : Option Word
  bp1Hi : Option Word
  deriving DecidableEq, Repr

/-- Who asked for a save, and where its image goes (R337). -/
inductive SaveDest where
  /-- A save slot of a queue, by its number and address, chosen by the dispatcher (R370). -/
  | slot (queue k addr : Nat)
  /-- An address named by the host or by CTXSAVE. -/
  | named (addr : Nat)
  /-- The emergency area of a domain (R400). -/
  | emergency (addr : Nat)
  deriving DecidableEq, Repr

/-- A resident block. -/
structure Block where
  /-- The model's own number of the block: rising in the order in which blocks became resident. -/
  bid : Nat
  /-- The logical core name (R18). -/
  core : Nat
  /-- The unit (block or quarter) and the grid it belongs to. -/
  unit : Nat
  gridId : Nat
  regs : BlockRegs
  regions : Vector Region 8
  signals : List SignalEntry
  mail : Mailbox
  threads : List Thread
  /-- PRIV of the grid's packet: the privilege of region fills and write-backs (R179). -/
  priv : Bool
  /-- The FID field of the launch (R235). -/
  fid : Byte
  /-- ACCN, and the physical tiles bound to acc0 to acc(ACCN − 1): none once the block has completed (R208). -/
  accn : Nat
  tiles : List Nat
  /-- sys.prio.EFF, as last recomputed (R269). -/
  eff : Nat
  /-- A pre-emption request is pending (R337). -/
  save : Option SaveDest
  /-- Stopped by a context fault of its grid (R329). -/
  halted : Bool
  deriving DecidableEq, Repr

/-! ## Outstanding accesses and translation -/

/-- A TLB entry (R301): a leaf or an intermediate entry as its walk read it, tagged with the ASID it was read under
(no tag for a G leaf). `vpn` is the virtual address shifted right by 12 + 9 × level. -/
structure TlbEntry where
  asid : Option (BitVec 16)
  level : Nat
  vpn : Nat
  entry : DWord
  leaf : Bool
  /-- The system physical address it was read at. -/
  addr : Nat
  deriving DecidableEq, Repr

/-- What an outstanding access does when it is performed. -/
inductive AccessWork where
  | load
  | store (data : List Byte)
  /-- An atomic or a reduction: operand and compare value. -/
  | atomic (op : AtomOp) (operand compare : Nat)
  deriving DecidableEq, Repr

/-- What an access reaches, as its ordering needs it (R272, R334). -/
inductive Home where
  | wafer | mmio
  /-- A host window or another wafer, and another wafer's MMIO. -/
  | outside | outsideMmio
  deriving DecidableEq, Repr

/-- A waiting access that a migration has returned to its agent is translated again (R325): it has its translation; it is due; its
new walk has faulted and the response is awaited. -/
inductive Again where
  | no | due | faulted
  deriving DecidableEq, Repr

/-- An accepted access that has not been performed (R171, R273, R285). Numbers rise in each agent's program order. -/
structure Access where
  id : Nat
  agent : Agent
  /-- The core whose TLB translated it. -/
  core : Nat
  loc : Loc
  width : Nat
  work : AccessWork
  /-- The virtual address, or the scratchpad offset. -/
  va : Nat
  home : Home
  /-- FENCE, acquires and releases order it: all but LDC (R97). -/
  ordered : Bool
  /-- A load of a host window that returns the latest store (R273). -/
  latest : Bool
  /-- A store performed for the agents of its block and not yet globally (R273): the number of that moment. -/
  seen : Option Nat
  /-- Loads of one uniform instruction through one frame are performed together (R96): their common number. -/
  group : Option Nat
  /-- The engine command whose store to a host window it is (R385). -/
  cmd : Option Nat
  /-- The leaf it was translated through, for XSYNC (R307). -/
  via : Option TlbEntry
  again : Again
  deriving DecidableEq, Repr

/-- What an XINV covers (R310). -/
inductive XinvForm where
  | page (va : DWord) (asid : BitVec 16)
  | range (va : DWord) (asid : BitVec 16) (pages : Nat)
  | asid (a : BitVec 16)
  | all
  deriving DecidableEq, Repr

/-- An XINV that no XSYNC has retired (R302, R306): the thread that issued it, or the bobbin whose migration did (R325); the
cores (or the front end) at whose TLB it has been performed, each with the number the next access had at that moment. -/
structure Xinv where
  id : Nat
  agent : Agent
  form : XinvForm
  scope : Scope
  done : List (Nat × Nat)
  deriving DecidableEq, Repr

/-- The agent that an entry of the fault service queue names (R313). -/
inductive FaultAgent where
  | thread (bid tid : Nat)
  | bobbin (core b : Nat)
  | copyQueue (core b : Nat)
  | matrixQueue (core b : Nat)
  | region (bid r line : Nat)
  | channel (bid binding : Nat)
  deriving DecidableEq, Repr

/-- A fault service queue entry before it is laid out in memory (R313). -/
structure FsqEntry where
  va : DWord
  asid : Word
  core : Nat
  agent : FaultAgent
  cause : Nat
  xkind : Nat
  access : Nat
  park : Bool
  block : Word
  info : Word
  /-- The model's own: the word of the parked instruction, 0 for a fetch, for trap.word after a kill (R315, R328). -/
  word : Word
  deriving DecidableEq, Repr

/-- A written entry whose agent is parked and awaits a response (R313, R315). -/
structure FsqOpen where
  seq : Nat
  slot : Nat
  fault : FsqEntry
  withdrawn : Bool
  deriving DecidableEq, Repr

/-! ## Bobbins, the copy engine and the matrix engine -/

/-- A tile's tag (R79). -/
inductive TileTag where
  | raw | i32 | f32 | i64
  deriving DecidableEq, Repr

/-- A posted engine command's kind (R190, R212, R323). -/
inductive CmdOp where
  | cpyL | cpyS | cpyT2 | cpyT3 | cpyG | cpyM | cpyMigr
  | cpyRed (op : Nat)
  | mzero (kind : Nat)
  | mma (p q : Nat)
  | mrsum (col : Bool)
  | mdrain (form : Nat)
  | mplane (transposed : Bool)
  | mzpc
  deriving DecidableEq, Repr

/-- How far a migration has come (R325). -/
inductive MigrStep where
  | waiting
  | frozen
  | swung
  | invalidated
  deriving DecidableEq, Repr

/-- A posted command with everything it captured at posting (R194, R214): the locator and control words, the tensor table
entries as 512-bit numbers, the fidelity field, the phaser's generation; its guard and resolution; its progress. -/
structure Command where
  id : Nat
  op : CmdOp
  tile : Nat
  dst : DWord
  src : DWord
  ctl : Vector Word 4
  dstEntry : Nat
  srcEntry : Nat
  bEntry : Nat
  aParam : Nat
  bParam : Nat
  fid : Byte
  /-- The phasers it credits: block, window offset, captured generation (R266). -/
  phs : List (Nat × Nat × Nat)
  guard : Option Nat
  /-- Guard resolution: none while unresolved, then take or drop (R200). -/
  resolved : Option Bool
  started : Bool
  /-- Bytes, elements or steps already performed. -/
  progress : Nat
  /-- Landed bytes not yet credited (R202). -/
  landed : Nat
  /-- All accesses performed; the release, credits and completion remain. -/
  moved : Bool
  replay : Bool
  migr : MigrStep
  /-- The old leaf and its address, for a migration. -/
  oldLeaf : DWord
  leafAt : Nat
  /-- The queue is parked at this command (R205). -/
  parked : Bool
  /-- The leaves its pages were translated through (R205), each with the code of its access kind. -/
  pages : List (Nat × TlbEntry)
  /-- The index list of cpy.g, read when it starts (R197); the order in which cpy.m writes its targets (R199). -/
  index : List Nat
  /-- The declared tag of the tile at posting (R211). -/
  tag : TileTag
  /-- An armed injection is to be delivered to this MMA (R251). -/
  inject : Bool
  /-- The low rail may have changed the sums at hand (R234, R247). -/
  low : Bool
  /-- The running product sums of an MMA, exact and as the slices hold them (R221, R238): element by element, row by row; in
  float mode segment by segment. -/
  exact : List Nat
  sums : List Nat
  /-- Group steps of the chunk at hand that are due and not yet applied to the tile (R223). -/
  grouped : Nat
  deriving DecidableEq, Repr

/-- A bobbin's states (R183). -/
inductive BStatus where
  | free | running | finishing | ended
  deriving DecidableEq, Repr

/-- A guard slot (R183, R200): open, or the resolution its last GRES gave. -/
inductive Guard where
  | opened | take | drop
  deriving DecidableEq, Repr

/-- A bobbin (R183, R213). -/
structure Bobbin where
  status : BStatus
  bid : Nat
  ctx : Ctx
  guards : Vector Guard 8
  leader : Nat
  /-- The leader's USR values at FORK, indices 0 to 8 (R95). -/
  usr : Vector Word 9
  endAddr : Word
  copyQ : List Command
  matrixQ : List Command
  /-- Trap status: cause, PC and word; cause 0 after a normal end. -/
  cause : Nat
  trapPc : DWord
  trapWord : Word
  joined : Bool
  /-- The fidelity field (R236). -/
  fid : Byte
  /-- Parked on a translation fault of its own (R312). -/
  parked : Bool
  /-- An engine stop waits for the bobbin's next instruction boundary (R206, R232): its cause. -/
  stopCause : Option Nat
  /-- Waits in PHWAIT (R264). -/
  wait : Option Wait
  deriving DecidableEq, Repr

/-- The contents of a tile (R208, R210). -/
structure TileData where
  elems : List Word
  tag : TileTag
  rs : List DWord
  cs : List DWord
  kd : DWord
  deriving DecidableEq, Repr

/-- A physical tile with its shadow and its declared tag (R208, R211, R230). -/
structure Tile where
  cur : TileData
  shadow : TileData
  declared : TileTag
  deriving DecidableEq, Repr

/-- An armed fidelity injection (R250). -/
structure Injection where
  step : Nat
  slice : Nat
  mask : Nat
  col : Nat
  row : Nat
  deriving DecidableEq, Repr

/-! ## Cores and domains -/

/-- A bin (R141): its block, the PC of its key, and its filed threads with the cycle each was filed. -/
structure Bin where
  bid : Nat
  pc : DWord
  threads : List (Nat × Nat)
  /-- It has been counted as aged (counter event 5). -/
  aged : Bool
  deriving DecidableEq, Repr

/-- A braid in an issue slot (R143): members with their positions; instructions issued since it was drawn or since pressure
began; when it issued last; consecutive cycles without a member able to issue. -/
structure Braid where
  bid : Nat
  /-- The PC at which it issues next: members that have not executed there yet stand at it (R146). -/
  pc : DWord
  members : List (Nat × Nat)
  count : Nat
  last : Option Nat
  idle : Nat
  /-- Expanded mode: uniform instructions execute once for each member (R89, R90). -/
  expanded : Bool
  deriving DecidableEq, Repr

/-- An issued instruction that has not dispatched for all its agents (R146, R159): the agents still to execute it, its word as
fetched, the register reads it still lacks grants for, the cycle of its issue, and the cycle from which its next agent may
dispatch. -/
structure Held where
  agents : List Agent
  word : Word
  need : Nat
  cycle : Nat
  next : Nat
  /-- Agents that have executed it in an earlier cycle (R90). -/
  went : List Agent
  deriving DecidableEq, Repr

/-- An issue pipe (R19, R143, R146): its braids, the cycle from which it may issue again, and the instruction it has issued
that has not dispatched yet. -/
structure Pipe where
  braids : List Braid
  busy : Nat
  /-- One more than the cycle of its last draw (R144); 0 before the first. -/
  drawn : Nat
  held : Option Held
  deriving DecidableEq, Repr

/-- An event counter (R336): its configuration and its count. -/
structure Counter where
  cfg : Word
  count : Word
  deriving DecidableEq, Repr

/-- An entry of a name cache (R376): a key with its STATE and CUR. -/
structure NameEntry where
  unit : Nat
  name : Nat
  state : Nat
  cur : Nat
  deriving DecidableEq, Repr

/-- A core. -/
structure CoreState where
  bins : List Bin
  pipes : Vector Pipe 4
  bobbins : Vector Bobbin 4
  tiles : Vector Tile 8
  /-- Uniform frames in use (R89), each with the cycle of its last use. The values a frame holds are the s-registers of the
  threads that reference it. -/
  frames : List (Nat × Nat)
  /-- fid.errcnt, .a, .b, .c, .replay, .trapcnt, and fid.injcnt (R244). -/
  fidCounts : Vector Word 7
  injection : Option Injection
  counters : Vector Counter 4
  /-- The 768 KiB scratchpad: sparse, canonical; an unlisted byte reads 0. -/
  scratch : List Host.Cell
  /-- The context whose block last held each 4 KiB page of the scratchpad (R360). -/
  owners : List (Nat × Nat)
  /-- Granules (offset / 32) that carry the phaser bit (R252). -/
  phasers : List Nat
  tlb : List TlbEntry
  /-- The name cache of the core's network interface, most recently used first (R376). -/
  names : List NameEntry
  /-- L1 lines (address / 128), most recent first (R167). -/
  l1 : List Nat
  /-- The core is under pressure since this cycle (R145). -/
  pressure : Option Nat
  /-- The collector (R159): the cycle its last grants fall in, and the grants given in it. -/
  grantCycle : Nat
  grantsUsed : Nat
  /-- Units act in one order within a cycle (R257, R288): one more than the cycle in which a pipe or a bobbin acted last, and
  which it was, pipes 0 to 3 before bobbins 0 to 3. -/
  actCycle : Nat
  actUnit : Nat
  deriving DecidableEq, Repr

/-- A domain's units (R16). -/
structure DomState where
  /-- dom.cycles (R334). -/
  cycles : Nat
  /-- fsq.base, tail, head (R314), the next SEQ, the written parked entries, and the agents that wait for a slot. -/
  fsqBase : DWord
  fsqTail : Nat
  fsqHead : Nat
  fsqSeq : Nat
  fsqOpen : List FsqOpen
  fsqWait : List FsqEntry
  /-- dom.l2cfg SWAYS: ways carved into domain scratch (R334, R345). -/
  sways : Nat
  /-- Cached L2 lines, with their dirty bit (R168). -/
  l2 : List (Nat × Bool)
  /-- The low rail's step in force (R234). -/
  rail : Nat
  /-- The collector's grant limit G (R159), the limit before its last change, and the first cycle of the new one. -/
  grant : Nat
  grantWas : Nat
  grantFrom : Nat
  deriving DecidableEq, Repr

/-- A phaser credit on its way (R202, R266, R294): the command it comes from (none for a channel), the core that sends it, the block
and the window offset of the phaser, the bytes, the captured generation. -/
structure Credit where
  id : Nat
  cmd : Option Nat
  sender : Nat
  /-- The place in the order of first offering of an arrival that a switching name has held (R376). -/
  held : Option Nat
  bid : Nat
  off : Nat
  bytes : Nat
  gen : Nat
  deriving DecidableEq, Repr

/-! ## The front end (spec/16) -/

/-- A queue's states (R348). -/
inductive QStatus where
  | active | faulted | draining
  deriving DecidableEq, Repr

/-- A write that the front end must make again after RESUME (R348). -/
inductive QRetry where
  | readIndex
  | doneWord (va : DWord) (value : DWord)
  deriving DecidableEq, Repr

/-- A queue that is not absent, with the fields of its descriptor (R347, R349, R352, R353). -/
structure Queue where
  num : Nat
  status : QStatus
  ctxid : Word
  asid : BitVec 16
  log2n : Nat
  pceil : Nat
  pre : Bool
  dlaunch : Bool
  privok : Bool
  dres : Nat
  fres : Nat
  saven : Nat
  slotsz : Nat
  savebase : DWord
  root : DWord
  wptr : DWord
  ring : DWord
  /-- The pattern's words, read at CREATE (R353). -/
  pattern : List Word
  /-- The pattern counter c0. -/
  c0 : Word
  /-- Packets below this index may be read: the last fetch fence (R349). -/
  fence : Nat
  /-- Where each fetch fence that covers a packet still to be read found the write index, with the length of State.past then (R349). -/
  fences : List (Nat × Nat)
  /-- The read index: the next host packet. -/
  readIdx : Nat
  /-- The device ring: packets of LAUNCH, oldest first, with the launching block's number (R352). -/
  device : List (List Word)
  deviceNext : Nat
  /-- The number of the packet that HOLD keeps, and whether its pattern is due to run again (R356). -/
  held : Option Nat
  again : Bool
  retry : List QRetry
  /-- The packet that the front end has begun to read and not yet passed or held (R349). -/
  taking : Option Nat
  deriving DecidableEq, Repr

/-- A home list of a grid (R366): its home (none for any), its units in ascending id, its counter H. -/
structure HomeList where
  home : Option Nat
  units : List Nat
  taken : Nat
  deriving DecidableEq, Repr

/-- A seed image header with its lists (R358). -/
structure Seed where
  sinit : List Word
  cbind : List Word
  mbox : Word
  ttcount : Word
  ttbase : DWord
  tvec : DWord
  stallchk : Bool
  nread : Nat
  accn : Nat
  scratch : Nat
  entry : DWord
  /-- The live-register mask table of the kernel that holds ENTRY. -/
  lmtBase : DWord
  lmtCount : Nat
  phasers : List Nat
  zeroed : List (Nat × Nat)
  deriving DecidableEq, Repr

/-- An accepted grid (R351, R361, R362, R366). -/
structure Grid where
  id : Nat
  queue : Nat
  packet : Nat
  prio : Nat
  chain : Bool
  priv : Bool
  fid : Byte
  qsize : Nat
  gridb : Nat
  bdim : Nat
  argbase : DWord
  done : DWord
  /-- The DONE word of each resume packet (R361): queue, packet number, address, and the unit it belongs to. -/
  resumeDone : List (Nat × Nat × DWord × Nat)
  /-- Those whose unit has completed: queue, packet number and address, not yet written. -/
  doneDue : List (Nat × Nat × DWord)
  /-- The DONE writes of its completion have been begun (R362). -/
  doneTried : Bool
  seed : Option Seed
  lists : List HomeList
  /-- Units in all, and completed. -/
  units : Nat
  completed : Nat
  aborted : Bool
  /-- The cause code of a context fault, 0 for none (R329, R362). -/
  cause : Nat
  /-- The context the grid runs in. -/
  ctxid : Word
  /-- The length of State.past when the grid was launched (R97). -/
  since : Nat
  deriving DecidableEq, Repr

/-- Where the sections of a context image lie (R339): block part 0, bytes per part, the sections within a part, bytes of ENG. -/
structure ImageLayout where
  boff : Nat
  stride : Nat
  thr : Nat
  scr : Nat
  phb : Nat
  tile : Nat
  mbx : Nat
  eng : Nat
  engsz : Nat
  deriving DecidableEq, Repr

/-- A saved unit: its image in memory holds what software may read; what the ENG section holds is here (R339, R342, R361). -/
structure SavedUnit where
  unit : Nat
  gridId : Nat
  /-- The image's address, and where its sections lie. -/
  image : Nat
  lay : ImageLayout
  /-- The domain it was saved from, and the home of a queued resume (R361). -/
  savedIn : Nat
  home : Option Nat
  /-- A resume of the image is queued or in progress (R343), and the queue whose save slot holds it (R370). -/
  resuming : Bool
  slot : Option (Nat × Nat)
  emergency : Bool
  blocks : List Block
  /-- The logical name of each block when it was saved, by block. -/
  names : List (Nat × Nat)
  /-- Every name by which the unit was reached then, aliases of earlier residences too, with its block (R342, R375). -/
  aliases : List (Nat × Nat)
  /-- Bobbins: block, number, contents; tiles: block, contents of acc0 on. -/
  bobbins : List (Nat × Nat × Bobbin)
  tiles : List (Nat × List Tile)
  /-- The ENG section as the save wrote it (R339). -/
  eng : List Byte
  /-- The image is complete (STATE 1), and its COMMIT sequence number. -/
  committed : Bool
  seq : Nat
  /-- Cores, windows and tiles of its blocks are chosen: the restore is under way. -/
  placed : Bool
  deriving DecidableEq, Repr

/-- A loaded kernel (R357). -/
structure Kernel where
  ctxid : Word
  base : DWord
  words : Nat
  lmtBase : DWord
  lmtCount : Nat
  targets : List DWord
  trapEntries : List DWord
  /-- The length of State.past when the kernel was loaded (R357). -/
  since : Nat
  deriving DecidableEq, Repr

/-- What the module sends out: notifications and replies of the Umavo protocols, oldest first. -/
inductive Notice where
  | fsq (dom seq : Nat)
  | contextFault (grid cause : Nat)
  | journal (tail : Nat)
  | status (cmd : Nat) (code detail : Nat)
  /-- An RDMA WRITE and an RDMA READ on a host window's queue pair (R385): remote key, remote address, what is written or how
  many bytes are read. -/
  | rdmaWrite (qpn : Nat) (rkey : Word) (rva : DWord) (bytes : List Byte)
  | rdmaRead (qpn : Nat) (rkey : Word) (rva : DWord) (n : Nat)
  | probe (words : List Word)
  /-- A count of corrected errors: of a router or another place (R404). -/
  | corrected (place count : Nat)
  | power (code detail : Nat)
  /-- The record that answers an ATTEST (R411). -/
  | attest (bytes : List Byte)
  deriving DecidableEq, Repr

/-- An open round of a channel, with the blocks that contributed, their binding and the captured generation (R294). -/
structure Round where
  num : Nat
  op : Nat
  contribs : List Contribution
  targets : List (Nat × Nat × Nat)
  deriving DecidableEq, Repr

/-- A collective channel (R292). -/
structure Channel where
  num : Nat
  members : Nat
  /-- The root core's logical name and its wafer. -/
  root : Nat
  rootWafer : Nat
  scopeSys : Bool
  /-- The tramline tree tables, the number of tramlines, and W0 to W3 (R387). -/
  trees : Nat
  ntram : Nat
  weights : List Nat
  rounds : List Round
  nextRound : Nat
  deriving DecidableEq, Repr

/-! ## The state -/

/-- The agents that the step under way issues, and what they issue (R146). -/
structure Issue where
  /-- Ascending thread order, or one bobbin. -/
  agents : List Agent
  /-- The word as fetched, for trap.word. -/
  word : Word
  core : Nat
  pipe : Nat
  /-- The cycle of issue. -/
  cycle : Nat
  /-- The cycle of dispatch, set when the collector has granted the reads. -/
  now : Nat
  deriving DecidableEq, Repr

/-- One turn of the machine: the schedule and the outside world, as plain data. -/
inductive Turn where
  /-- The braid at this index of this pipe of this core issues. -/
  | issue (core pipe braid : Nat)
  /-- The bobbin issues. -/
  | bobbin (core b : Nat)
  /-- An event of spec/95 occurs. -/
  | event (i : Instr)
  /-- One cycle of the domain passes. -/
  | tick (dom : Nat)
  deriving DecidableEq, Repr

/-! ## The wafer, the fabric, the platform (spec/17, spec/18) -/

/-- The published capacity of the wafer (R28, R29, R247, R389). Positions not listed as dead are live; slices not listed are
usable to 256 MiB. -/
structure Wafer where
  id : Nat
  /-- Dead positions: (domain, position), position = 192 × cluster + physical position. -/
  dead : List (Nat × Nat)
  /-- Retired cores, by logical name (R378). -/
  retired : List Nat
  /-- Usable MiB of a slice: (384 × domain + slice, MiB). -/
  usable : List (Nat × Nat)
  /-- Qualified low-rail steps: (domain, step). -/
  qualified : List (Nat × Nat)
  /-- Declared and undetected error rates: (domain, step, declared, undetected). -/
  rates : List (Nat × Nat × Nat × Nat)
  /-- The domain of each edge link. -/
  linkDomain : List Nat
  /-- The topology table's address and SEQ. -/
  tableAt : Nat
  tableSeq : Nat
  deriving DecidableEq, Repr

/-- A street index entry that is not free (R375). -/
structure StreetEntry where
  unit : Nat
  name : Nat
  cur : Nat
  /-- 1 live, 2 switching, 3 parked. -/
  state : Nat
  image : Nat
  rank : Nat
  /-- Its place in the hash table: 4 × bucket + entry. -/
  slot : Nat
  deriving DecidableEq, Repr

/-- A partition (R379, R380): its domains, contexts, links, the shape of its edge topology, and its route sets. -/
structure Partition where
  num : Nat
  domains : List Nat
  contexts : List Nat
  links : List Nat
  /-- 0 RING, 1 TREE, 2 TORUS, and its list of wafers, of links, or of three sizes. -/
  topology : Nat
  shape : List Nat
  /-- (wafer id, its edge links): none left where every link of the set has been lost (R381). -/
  routes : List (Nat × List Nat)
  /-- Down after a header error, until Umavo resets it (R381). -/
  down : Bool
  /-- Messages discarded for an error in their header, those of another partition among them (R379, R381). -/
  headerErrors : Nat
  deriving DecidableEq, Repr

/-- The setting of a selvedge (R379). -/
inductive Selvedge where
  | join | cut
  deriving DecidableEq, Repr

/-- A host window descriptor (R385). -/
structure HostWindow where
  rva : DWord
  rkey : Word
  qpn : Nat
  size : Nat
  wr : Bool
  rd : Bool
  valid : Bool
  deriving DecidableEq, Repr

/-- A fabric queue that matters to the probes of R383: the queue of one class at one port (R382), with the reserve entry of its port
and class. -/
structure FabricQueue where
  id : Nat
  /-- The head has not advanced for 1024 fabric cycles. -/
  blocked : Bool
  waitsOn : Nat
  /-- Its own probe is outstanding. -/
  probing : Bool
  /-- Probes on their way to it, by origin. -/
  incoming : List Nat
  /-- Its reserve entry holds the head message of this queue. -/
  reserve : Option Nat
  deriving DecidableEq, Repr

/-- How far a change of FSET has come (R398). -/
inductive FreqStep where
  | idle
  | stopping
  | released
  | relocking
  deriving DecidableEq, Repr

/-- A domain's power record and the controller's counts (R391 to R400). Temperatures and currents in quarter units. -/
structure PowerState where
  temps : List Int
  currents : List Int
  suspT : List Nat
  suspI : List Nat
  temp : Int
  icur : Int
  imin : Nat
  ilim : Nat
  tthr : Nat
  ftgt : Nat
  fset : Nat
  sc : Nat
  st : Nat
  ss : Bool
  /-- 0 run, 1 held, 2 emergency, 3 tripped. -/
  state : Nat
  seq : Nat
  /-- Consecutive samples of each rule of R395 and R396, and of TEMP below TTHR for R400. -/
  overN : Nat
  underN : Nat
  hotN : Nat
  coolN : Nat
  grantN : Nat
  belowN : Nat
  /-- Consecutive samples of one raw code, the last one among them, and of the disagreeing test, for each sensor, thermal then current
  (R393). -/
  stuckN : List Nat
  disagreeN : List Nat
  /-- The median of a sensor's neighbours has changed since its reading last did. -/
  moved : List Bool
  freq : FreqStep
  /-- The setting a change in progress goes to. -/
  freqTo : Nat
  /-- Accesses numbered below this were issued before the change in progress stopped new crossings. -/
  freqMark : Nat
  /-- Software has written CLRSUS (R391): the next POWER command takes it. -/
  clrsus : Bool
  /-- Umavo has sent a POWER command for the domain in this emergency (R400). -/
  asked : Bool
  deriving DecidableEq, Repr

/-- A save begun into the emergency area (R401, R412). -/
structure EmergencySave where
  slot : Nat
  image : Nat
  unit : Nat
  /-- The slot is free again: its image reached STATE 3. -/
  freed : Bool
  deriving DecidableEq, Repr

/-- The module's power controller, boot and integrity state (R390, R397, R402, R405, R408 to R412). -/
structure Platform where
  /-- The power area: its address and the header's fields. -/
  areaAt : Nat
  /-- The street index: its address and L, 0 until Umavo allocates it (R375). -/
  streetAt : Nat
  streetLog : Nat
  ebase : Nat
  eslot : Nat
  ecount : Nat
  dumpAt : Nat
  mlogAt : Nat
  mlogN : Nat
  /-- Consecutive samples above 36 kW, below 34 kW, above 40 kW; the module rule is in force. -/
  over36 : Nat
  below34 : Nat
  over40 : Nat
  rationed : Bool
  /-- The core rails are on; a hard trip removes them. -/
  powered : Bool
  /-- A fatal error has stopped every grid; the module needs a reset. -/
  fatal : Bool
  /-- The boot stopped in the recovery state. -/
  recovery : Bool
  /-- MEAS0 to MEAS7. -/
  meas : List (List Byte)
  measSeq : Nat
  /-- Entries of the measurement log, each with its SEQ, made before the log has an address (R410). -/
  measDue : List (Nat × List Byte)
  /-- Fused key-hash slots not revoked, and the fused minimum SVN of KIND 1 to 4. -/
  fuseKeys : List (List Byte)
  fuseSvn : List Nat
  /-- Firmware containers in module flash, by KIND. -/
  flash : List (Nat × List Byte)
  /-- Enrolled key hashes: (context, hash, minimum SVN). -/
  enrolled : List (Nat × List Byte × Nat)
  saves : List EmergencySave
  /-- A dump is due: its bytes after FORMAT up to the image list, as they stood at the event (R412). -/
  dumpDue : Option (List Byte)
  /-- Poisoned 8-byte granules: address / 8 (R405). -/
  poison : List Nat
  /-- Corrected errors (R381, R404): the counter of each router or other place. -/
  corrected : List (Nat × Nat)
  deriving DecidableEq, Repr

/-- The journal (R364). -/
structure Journal where
  /-- None until Umavo sets it. -/
  base : Option Nat
  tail : Nat
  head : Nat
  seq : Nat
  /-- Entries that wait for room in the ring. -/
  waiting : List (List Byte)
  deriving DecidableEq, Repr

/-- The whole machine. -/
structure State where
  /-- DRAM, domain scratch, host windows and other wafers, by system physical address. -/
  mem : List Host.Cell
  /-- What each write of `mem` has replaced while a grid or a kernel was there, newest first: what LDC may still return (R97),
  what a fetch may (R357), and what a load of a host window may (R273). -/
  past : List (List Host.Cell)
  /-- Cores and domains that differ from their reset state, by logical name and by index; number 65,536 holds the front end's
  TLB (R347). -/
  cores : List (Nat × CoreState)
  doms : List (Nat × DomState)
  powers : List (Nat × PowerState)
  /-- Resident blocks in the order in which they became resident. -/
  blocks : List Block
  accs : List Access
  xinvs : List Xinv
  credits : List Credit
  /-- Frames a migration holds frozen: first address, bytes, command (R325). -/
  frozen : List (Nat × Nat × Nat)
  wafer : Wafer
  street : List StreetEntry
  partitions : List Partition
  windows : List (Nat × HostWindow)
  fabric : List FabricQueue
  queues : List Queue
  grids : List Grid
  saved : List SavedUnit
  /-- Complete images in memory whose unit has been stopped (R361): what their ENG sections hold. -/
  images : List SavedUnit
  kernels : List Kernel
  channels : List Channel
  journal : Journal
  platform : Platform
  /-- The front end's cycle count (R364). -/
  feCycles : Nat
  /-- Numbers given out: blocks, units, grids, accesses and commands (the model's own, and R364, R375). -/
  nextBid : Nat
  nextUnit : Nat
  nextGrid : Nat
  nextId : Nat
  /-- What the module has sent out, oldest first. -/
  outbox : List Notice
  /-- The model's own: the next free value to be used (Config.free). -/
  freeIdx : Nat
  /-- The model's own: the turns to come; when empty, the machine's own order decides. -/
  agenda : List Turn
  /-- The model's own: what the step under way issues. -/
  issue : Issue
  deriving DecidableEq, Repr

/-! ## Reset -/

/-- A context with every register 0: nothing has run. -/
def Ctx.zero : Ctx := { pc := 0, s := Vector.replicate 16 0, tstate := 0, ready := 0, inflight := [], pend := [] }

/-- A free bobbin. -/
def Bobbin.zero : Bobbin :=
  { status := .free, bid := 0, ctx := Ctx.zero, guards := Vector.replicate 8 .opened, leader := 0,
    usr := Vector.replicate 9 0, endAddr := 0, copyQ := [], matrixQ := [], cause := 0, trapPc := 0, trapWord := 0,
    joined := false, fid := 0, parked := false, stopCause := none, wait := none }

/-- Zeros with tag raw and zero sum vectors (R208). -/
def TileData.zero : TileData :=
  { elems := List.replicate 1024 0, tag := .raw, rs := List.replicate 32 0, cs := List.replicate 32 0, kd := 0 }

def Tile.zero : Tile := { cur := TileData.zero, shadow := TileData.zero, declared := .raw }

/-- A core as reset leaves it: nothing resident, counters 0 (R244, R333). -/
def CoreState.zero : CoreState :=
  { bins := [], pipes := Vector.replicate 4 { braids := [], busy := 0, drawn := 0, held := none }, bobbins := Vector.replicate 4 Bobbin.zero,
    tiles := Vector.replicate 8 Tile.zero, frames := [], fidCounts := Vector.replicate 7 0, injection := none,
    counters := Vector.replicate 4 { cfg := 0, count := 0 }, scratch := [], owners := [], phasers := [], tlb := [], names := [],
    l1 := [], pressure := none, grantCycle := 0, grantsUsed := 0, actCycle := 0, actUnit := 0 }

/-- A domain as reset leaves it: fsq registers, SWAYS and CYC 0 (R314, R334); rail step 0; G = 16. -/
def DomState.zero : DomState :=
  { cycles := 0, fsqBase := 0, fsqTail := 0, fsqHead := 0, fsqSeq := 0, fsqOpen := [], fsqWait := [], sways := 0,
    l2 := [], rail := 0, grant := 16, grantWas := 16, grantFrom := 0 }

/-- A domain's power state after reset: FTGT 0, ILIM = IMIN, TTHR 85 (R390), no mark, STATE 0. -/
def PowerState.zero : PowerState :=
  { temps := List.replicate 6 0, currents := List.replicate 4 0, suspT := [], suspI := [], temp := 0, icur := 0,
    imin := 0, ilim := 0, tthr := 85, ftgt := 0, fset := 0, sc := 0, st := 0, ss := false, state := 0, seq := 0,
    overN := 0, underN := 0, hotN := 0, coolN := 0, grantN := 0, belowN := 0, stuckN := List.replicate 10 0,
    disagreeN := List.replicate 10 0, moved := List.replicate 10 false, freq := .idle, freqTo := 0, freqMark := 0, clrsus := false,
    asked := false }

def Wafer.zero : Wafer :=
  { id := 0, dead := [], retired := [], usable := [], qualified := [], rates := [],
    linkDomain := List.replicate 96 0, tableAt := 0, tableSeq := 0 }

/-- Measurement registers are zero at module reset (R410). -/
def Platform.zero : Platform :=
  { areaAt := 0, streetAt := 0, streetLog := 0, ebase := 0, eslot := 0, ecount := 0, dumpAt := 0, mlogAt := 0, mlogN := 0, over36 := 0, below34 := 0,
    over40 := 0, rationed := false, powered := true, fatal := false, recovery := false,
    meas := List.replicate 8 (List.replicate 48 0), measSeq := 0, measDue := [], fuseKeys := [], fuseSvn := List.replicate 4 0,
    flash := [], enrolled := [], saves := [], dumpDue := none, poison := [], corrected := [] }

def Journal.zero : Journal := { base := none, tail := 0, head := 0, seq := 0, waiting := [] }

/-- Nothing is being issued. -/
def Issue.zero : Issue := { agents := [], word := 0, core := 0, pipe := 0, cycle := 0, now := 0 }

/-- The machine right after module reset: no queue, no kernel, no block; every register at its reset value; memory with
nothing listed. -/
def State.reset : State :=
  { mem := [], past := [], cores := [], doms := [], powers := [], blocks := [], accs := [], xinvs := [], credits := [], frozen := [],
    wafer := Wafer.zero, street := [], partitions := [], windows := [], fabric := [], queues := [], grids := [],
    saved := [], images := [], kernels := [], channels := [], journal := Journal.zero, platform := Platform.zero, 
    feCycles := 0, nextBid := 0, nextUnit := 0, nextGrid := 0, nextId := 0, outbox := [], freeIdx := 0, agenda := [],
    issue := Issue.zero }

/-! ## What stops a step -/

/-- Why a step stops: nothing stops one. Every instruction has the effect the spec gives it, every exception is taken, and a
module without power stays as it is until the outside world acts (R402). -/
inductive Fault where
  deriving DecidableEq, Repr

/-- Why an instruction has no meaning. -/
inductive Refusal where
  /-- The arm of exec has no meaning yet; raised by Dispatch alone; safe. -/
  | notModelled (mnemonic : String)
  deriving DecidableEq, Repr

end Sys2Proof.Machine
end

