-- ==== Sys2Proof/Machine/Assoc.lean ====
section
/-! DEFINITION. Sparse tables with a default entry, and the machine's accessors built on them: cores, domains, power states,
blocks, threads, bobbins, tiles. Every read and write of these goes through here. -/

namespace Sys2Proof.Machine

/-- The entry of key `k`, or the default. -/
def assocGet {α : Type} (d : α) (k : Nat) : List (Nat × α) → α
  | [] => d
  | (j, x) :: rest => if j = k then x else assocGet d k rest

/-- The table with entry `k` set. -/
def assocSet {α : Type} (k : Nat) (x : α) : List (Nat × α) → List (Nat × α)
  | [] => [(k, x)]
  | (j, y) :: rest => if j = k then (k, x) :: rest else (j, y) :: assocSet k x rest

def State.core (s : State) (k : Nat) : CoreState := assocGet CoreState.zero k s.cores
def State.setCore (s : State) (k : Nat) (c : CoreState) : State := { s with cores := assocSet k c s.cores }
def State.updCore (s : State) (k : Nat) (f : CoreState → CoreState) : State := s.setCore k (f (s.core k))

def State.dom (s : State) (d : Nat) : DomState := assocGet DomState.zero d s.doms
def State.setDom (s : State) (d : Nat) (x : DomState) : State := { s with doms := assocSet d x s.doms }
def State.updDom (s : State) (d : Nat) (f : DomState → DomState) : State := s.setDom d (f (s.dom d))

def State.power (s : State) (d : Nat) : PowerState := assocGet PowerState.zero d s.powers
def State.setPower (s : State) (d : Nat) (x : PowerState) : State := { s with powers := assocSet d x s.powers }
def State.updPower (s : State) (d : Nat) (f : PowerState → PowerState) : State := s.setPower d (f (s.power d))

/-- The domain of a logical core name (R18). -/
def domOf (core : Nat) : Nat := core / 512
/-- The cluster, within its domain, of a logical core name (R18). -/
def clusterOf (core : Nat) : Nat := core / 256 % 2
/-- The logical index of a core in its cluster (R18). -/
def indexOf (core : Nat) : Nat := core % 256

/-- The live count L of a cluster (R17): 192 less its dead positions. -/
def State.liveCount (s : State) (d c : Nat) : Nat :=
  192 - (s.wafer.dead.filter fun p => p.1 == d && p.2 / 192 == c).length

/-- The name names a live core, not a kiosk (R18). -/
def State.coreNamed (s : State) (name : Nat) : Bool :=
  decide (domOf name < 84) && decide (indexOf name < s.liveCount (domOf name) (clusterOf name))

/-- A core that has been retired (R378). -/
def State.retired (s : State) (name : Nat) : Bool := s.wafer.retired.contains name

def State.block? (s : State) (bid : Nat) : Option Block := s.blocks.find? fun b => b.bid == bid

/-- The state with block `bid` changed by `f`. -/
def State.updBlock (s : State) (bid : Nat) (f : Block → Block) : State :=
  { s with blocks := s.blocks.map fun b => if b.bid = bid then f b else b }

/-- Insert into a list that rises by `key`, after equals. -/
def insertBy {α : Type} (key : α → Nat) (x : α) : List α → List α
  | [] => [x]
  | y :: ys => if key x < key y then x :: y :: ys else y :: insertBy key x ys

/-- A list put in rising order of `key`, equals in their old order. -/
def sortBy {α : Type} (key : α → Nat) (xs : List α) : List α := xs.foldl (fun acc x => insertBy key x acc) []

/-- A list with entry `i` changed by `f`. -/
def updAt {α : Type} (f : α → α) : Nat → List α → List α
  | _, [] => []
  | 0, x :: xs => f x :: xs
  | i + 1, x :: xs => x :: updAt f i xs

def State.thread? (s : State) (bid tid : Nat) : Option Thread :=
  match s.block? bid with
  | some b => b.threads[tid]?
  | none => none

def State.updThread (s : State) (bid tid : Nat) (f : Thread → Thread) : State :=
  s.updBlock bid fun b => { b with threads := updAt f tid b.threads }

/-- Bobbin `b` of a core; numbers above 3 give a free bobbin. -/
def State.bobbin (s : State) (core b : Nat) : Bobbin := ((s.core core).bobbins.toList)[b]?.getD Bobbin.zero

/-- A vector with entry `i` changed by `f`; an index outside it changes nothing. -/
def vecUpd {α : Type} {n : Nat} (v : Vector α n) (i : Nat) (f : α → α) : Vector α n :=
  if h : i < n then v.set i (f v[i]) else v

def State.updBobbin (s : State) (core b : Nat) (f : Bobbin → Bobbin) : State :=
  s.updCore core fun c => { c with bobbins := vecUpd c.bobbins b f }

/-- The blocks on a core, in residence order: the core's block order (R144). -/
def State.blocksOn (s : State) (core : Nat) : List Block := s.blocks.filter fun b => b.core == core

/-- The grid of a number. -/
def State.grid? (s : State) (g : Nat) : Option Grid := s.grids.find? fun x => x.id == g

def State.updGrid (s : State) (g : Nat) (f : Grid → Grid) : State :=
  { s with grids := s.grids.map fun x => if x.id = g then f x else x }

def State.queue? (s : State) (q : Nat) : Option Queue := s.queues.find? fun x => x.num == q

def State.updQueue (s : State) (q : Nat) (f : Queue → Queue) : State :=
  { s with queues := s.queues.map fun x => if x.num = q then f x else x }

/-- What a host command does: nothing in the recovery state, where the host port carries only firmware and resets (R409), and
nothing while the core rails are off. -/
def State.hosted (s s' : State) : State := if s.platform.recovery || !s.platform.powered then s else s'

/-- What the module's own units do next: nothing while the core rails are off (R402), and nothing after a fatal error (R405, R413).
-/
def State.live (s s' : State) : State := if s.platform.powered && !s.platform.fatal then s' else s

def State.tell (s : State) (n : Notice) : State := { s with outbox := s.outbox ++ [n] }

/-- The context of an agent; an agent that does not exist has the zero context. -/
def State.ctx (s : State) : Agent → Ctx
  | .thread bid tid => match s.thread? bid tid with
    | some t => t.ctx
    | none => Ctx.zero
  | .bobbin core b => (s.bobbin core b).ctx

def State.updCtx (s : State) (f : Ctx → Ctx) : Agent → State
  | .thread bid tid => s.updThread bid tid fun t => { t with ctx := f t.ctx }
  | .bobbin core b => s.updBobbin core b fun x => { x with ctx := f x.ctx }

/-- The block of an agent. -/
def State.blockOf (s : State) : Agent → Option Block
  | .thread bid _ => s.block? bid
  | .bobbin core b => s.block? (s.bobbin core b).bid

/-- The core of an agent. -/
def State.coreOf (s : State) : Agent → Nat
  | .thread bid _ => match s.block? bid with
    | some b => b.core
    | none => 0
  | .bobbin core _ => core

/-- The cycle count of an agent's domain. -/
def State.cyclesOf (s : State) (ag : Agent) : Nat := (s.dom (domOf (s.coreOf ag))).cycles

end Sys2Proof.Machine
end

