-- ==== Sys2Proof/Machine/Bits.lean ====
section
/-! DEFINITION. Bit fields, sign extension, byte order and the integer operations that the lane and the uniform sets share
(R4, R93, R94, R107 to R113). -/

namespace Sys2Proof.Machine

/-- Bits [lo + len − 1 : lo] of a natural number (R4). -/
def bitsOf (x lo len : Nat) : Nat := x / 2 ^ lo % 2 ^ len

/-- Bit `i` of a natural number. -/
def bitOf (x i : Nat) : Bool := x / 2 ^ i % 2 == 1

/-- Sign extension to a word. -/
def sext32 {w : Nat} (x : BitVec w) : Word := x.signExtend 32

/-- Sign extension to 64 bits. -/
def sext64 {w : Nat} (x : BitVec w) : DWord := x.signExtend 64

/-- Zero extension to a word. -/
def zext32 {w : Nat} (x : BitVec w) : Word := x.zeroExtend 32

/-- A boolean as a word, 1 or 0. -/
def boolWord (b : Bool) : Word := if b then 1 else 0

/-- The nearest value in lo–hi (R106). -/
def clampInt (lo hi x : Int) : Int := max lo (min hi x)

/-- Bits [63:32] of the signed product (R93, R107). -/
def mulhiS (a b : Word) : Word := (sext64 a * sext64 b).extractLsb' 32 32

/-- Bits [63:32] of the unsigned product (R93, R107). -/
def mulhiU (a b : Word) : Word := (a.zeroExtend 64 * b.zeroExtend 64).extractLsb' 32 32

/-- Left shift by an unsigned amount; 32 or more gives 0 (R93, R110). -/
def shl (a n : Word) : Word := if n.toNat ≥ 32 then 0 else a <<< n.toNat

/-- Logical right shift by an unsigned amount; 32 or more gives 0 (R93, R110). -/
def shrU (a n : Word) : Word := if n.toNat ≥ 32 then 0 else a >>> n.toNat

/-- Arithmetic right shift; the amount is limited to 31 (R93, R110). -/
def shrS (a n : Word) : Word := a.sshiftRight (min n.toNat 31)

def rotl (a n : Word) : Word := a.rotateLeft (n.toNat % 32)
def rotr (a n : Word) : Word := a.rotateRight (n.toNat % 32)

/-- The field position of a bit-field operand (R94, R111). -/
def fieldPos (b : Word) : Nat := (b.extractLsb' 0 5).toNat

/-- The field length of a bit-field operand, clipped to the register (R94, R111). -/
def fieldLen (b : Word) : Nat := min (b.extractLsb' 8 6).toNat (32 - fieldPos b)

/-- The low `n` bits set, n at most 32. -/
def lowMask (n : Nat) : Word := BitVec.ofNat 32 (2 ^ n - 1)

/-- Unsigned field extraction (R94, R111). -/
def bfeU (a b : Word) : Word := (a >>> fieldPos b) &&& lowMask (fieldLen b)

/-- Signed field extraction, extended from bit n − 1; a field of length 0 gives 0 (R94, R111). -/
def bfeS (a b : Word) : Word :=
  let n := fieldLen b
  let x := bfeU a b
  if n = 0 then 0 else if x.getLsbD (n - 1) then x ||| ~~~(lowMask n) else x

/-- Field insertion of the low bits of `a` into `base` (R94, R111). -/
def bfi (base a b : Word) : Word :=
  let m := lowMask (fieldLen b) <<< fieldPos b
  (base &&& ~~~m) ||| ((a <<< fieldPos b) &&& m)

/-- Number of 1 bits. -/
def popc (a : Word) : Word :=
  BitVec.ofNat 32 ((List.range 32).filter fun i => a.getLsbD i).length

/-- Number of 0 bits above the highest 1 bit; 32 for 0. -/
def clz (a : Word) : Word := if a = 0 then 32 else BitVec.ofNat 32 (31 - Nat.log2 a.toNat)

/-- Bit i of the result is bit 31 − i. -/
def brev (a : Word) : Word := a.reverse

/-- Byte j of a word (R4). -/
def byteOf (a : Word) (j : Nat) : Byte := a.extractLsb' (8 * j) 8

/-- VPERM (R112): byte c of the pool vb:va for each selector nibble, 0 where its bit 3 is set. -/
def perm (sel a b : Word) : Word :=
  let pick := fun j =>
    let c := (sel.extractLsb' (4 * j) 4).toNat
    if c ≥ 8 then (0 : Byte) else if c < 4 then byteOf a c else byteOf b (c - 4)
  pick 3 ++ pick 2 ++ pick 1 ++ pick 0

/-- VDP4.I8 (R108). -/
def dp4S (a b c : Word) : Word :=
  c + BitVec.ofInt 32 (((List.range 4).map fun j => (byteOf a j).toInt * (byteOf b j).toInt).sum)

/-- VDP4.N8 (R108). -/
def dp4U (a b c : Word) : Word :=
  c + BitVec.ofNat 32 (((List.range 4).map fun j => (byteOf a j).toNat * (byteOf b j).toNat).sum)

/-- VSAD.N8 (R108). -/
def sadU (a b c : Word) : Word :=
  c + BitVec.ofNat 32
    (((List.range 4).map fun j => ((byteOf a j).toNat : Int) - ((byteOf b j).toNat : Int)).map Int.natAbs).sum

def minS (a b : Word) : Word := if a.slt b then a else b
def maxS (a b : Word) : Word := if a.slt b then b else a
def minU (a b : Word) : Word := if a.ult b then a else b
def maxU (a b : Word) : Word := if a.ult b then b else a

/-- Signed saturating addition (R106). -/
def addSatS (a b : Word) : Word := BitVec.ofInt 32 (clampInt (-2 ^ 31) (2 ^ 31 - 1) (a.toInt + b.toInt))
/-- Unsigned saturating addition (R106). -/
def addSatU (a b : Word) : Word := BitVec.ofNat 32 (min (a.toNat + b.toNat) (2 ^ 32 - 1))
/-- Signed saturating subtraction (R106). -/
def subSatS (a b : Word) : Word := BitVec.ofInt 32 (clampInt (-2 ^ 31) (2 ^ 31 - 1) (a.toInt - b.toInt))
/-- Unsigned saturating subtraction (R106). -/
def subSatU (a b : Word) : Word := BitVec.ofNat 32 (a.toNat - b.toNat)

/-- A 64-bit product and sum, signed factors (R107). -/
def madwS (a b : Word) (c : DWord) : DWord := sext64 a * sext64 b + c
/-- A 64-bit product and sum, unsigned factors (R107). -/
def madwU (a b : Word) (c : DWord) : DWord := a.zeroExtend 64 * b.zeroExtend 64 + c

/-- The little-endian value of a byte list (R4). -/
def leNat : List Byte → Nat
  | [] => 0
  | b :: bs => b.toNat + 256 * leNat bs

/-- `n` bytes of a value, least significant first (R4). -/
def leBytes : Nat → Nat → List Byte
  | 0, _ => []
  | n + 1, x => BitVec.ofNat 8 x :: leBytes n (x / 256)

end Sys2Proof.Machine
end

