-- ==== Sys2Proof/Machine/Memory.lean ====
section
/-! DEFINITION. Memory: the canonical byte list, the physical address map with its holes (R163 to R166, R385), bytes of
the scratchpads, and the caches as far as an instruction names them. Byte order is decided here once (R4). -/

namespace Sys2Proof.Machine

/-- What an unlisted byte reads as: 0 (log entry on memory at reset). -/
def unlisted : Byte := 0

/-- Read one byte of a canonical list. -/
def memGet : List Host.Cell → Nat → Byte
  | [], _ => unlisted
  | (b, x) :: rest, a => if b = a then x else if a < b then unlisted else memGet rest a

/-- Write one byte, keeping the canonical form: addresses strictly rising, no entry equal to the unlisted byte. -/
def memSet : List Host.Cell → Nat → Byte → List Host.Cell
  | [], a, x => if x = unlisted then [] else [(a, x)]
  | (b, y) :: rest, a, x =>
    if a < b then (if x = unlisted then (b, y) :: rest else (a, x) :: (b, y) :: rest)
    else if a = b then (if x = unlisted then rest else (a, x) :: rest)
    else (b, y) :: memSet rest a x

/-- Addresses strictly rising from `lo` on, and no entry that equals the unlisted byte. -/
def memSorted : Nat → List Host.Cell → Bool
  | _, [] => true
  | lo, (a, x) :: rest => decide (lo ≤ a) && x != unlisted && memSorted (a + 1) rest

/-- The canonical form of a byte list. -/
def Memory.wf (m : List Host.Cell) : Bool := memSorted 0 m

/-- Bytes at the given keys. -/
def memRead (m : List Host.Cell) (keys : List Nat) : List Byte := keys.map (memGet m)

/-- Write bytes at the given keys, in order. -/
def memWrite (m : List Host.Cell) : List (Nat × Byte) → List Host.Cell
  | [] => m
  | (k, x) :: rest => memWrite (memSet m k x) rest

/-- Usable bytes U(s) of a slice (R165). -/
def State.sliceBytes (s : State) (d slice : Nat) : Nat := assocGet 256 (384 * d + slice) s.wafer.usable * 2 ^ 20

/-- The slice-direct address of a byte (R164). -/
def sliceDirect (wid d slice off : Nat) : Nat := wid * 2 ^ 52 + d * 2 ^ 45 + slice * 2 ^ 35 + off

/-- The slice of a DRAM byte and its offset there, by bits [44:0] of its address: none beyond a mode's fields (R164). -/
def sliceOf (low : Nat) : Option (Nat × Nat) :=
  if bitOf low 44 then
    let o := low % 2 ^ 44
    let g := o / 4096
    if o ≥ 0x1800000000 then none else some (g % 384, g / 384 * 4096 + o % 4096)
  else
    let slice := bitsOf low 35 9
    if slice < 384 ∧ bitsOf low 28 7 = 0 then some (slice, low % 2 ^ 28) else none

/-- A DRAM byte by wafer, domain and bits [44:0] of its address, where slices have `usable` bytes: its slice-direct address, or
none in a hole (R164, R165). -/
def dramKeyIn (wid : Nat) (usable : Nat → Nat) (d low : Nat) : Option Nat :=
  match sliceOf low with
  | some (slice, off) => if off < usable slice then some (sliceDirect wid d slice off) else none
  | none => none

/-- A DRAM byte of this wafer. -/
def State.dramKey (s : State) (d low : Nat) : Option Nat := dramKeyIn s.wafer.id (s.sliceBytes d) d low

/-- Usable bytes of a slice of another wafer, and of its domains' scratch windows (R165, R166): what its own tables publish
(log 153). -/
def remoteSlice (wid d slice : Nat) : Nat := min 256 (Config.remoteUsable wid d slice) * 2 ^ 20
def remoteScratch (wid d : Nat) : Nat := min 16 (Config.remoteWays wid d) * 2 ^ 22

/-- The bytes of a domain's scratch window: 4 MiB for each carved way (R166). -/
def State.domScratchBytes (s : State) (d : Nat) : Nat := (s.dom d).sways * 2 ^ 22

/-- The edge links a context's partition gives a wafer (R163, R380). -/
def State.routeTo (s : State) (ctxid wid : Nat) : List Nat :=
  match s.partitions.find? fun p => p.contexts.contains ctxid with
  | some p => match p.routes.find? fun r => r.1 == wid with
    | some r => r.2
    | none => []
  | none => []

/-- A context's partition has lost its last edge link to a wafer (R381). -/
def State.routeLost (s : State) (ctxid wid : Nat) : Bool :=
  s.partitions.any fun p => p.contexts.contains ctxid && p.routes.any fun r => r.1 == wid && r.2.isEmpty

/-- What a byte of the system physical address space is, for a context (R163 to R166, R385). -/
inductive Place where
  | dram (key : Nat)
  | domScratch (key : Nat)
  | mmio (dom off : Nat)
  | window (key : Nat)
  | remote (key : Nat)
  | remoteMmio (key : Nat)
  deriving DecidableEq, Repr

/-- The byte address a place is stored under. -/
def Place.key : Place → Nat
  | .dram k => k
  | .domScratch k => k
  | .mmio d off => 127 * 2 ^ 45 + d * 2 ^ 38 + 2 ^ 37 + off
  | .window k => k
  | .remote k => k
  | .remoteMmio k => k

/-- The place a system physical address names, or none where it names no storage. `wr` and `rd` say what a host window must
permit (R385). -/
def State.place (s : State) (ctxid : Nat) (rd wr : Bool) (pa : Nat) : Option Place :=
  let wid := pa / 2 ^ 52
  let a := pa % 2 ^ 52
  let d := a / 2 ^ 45
  if wid = 1023 then
    match s.windows.find? fun w => w.1 == bitsOf a 48 4 with
    | some (_, w) =>
      if w.valid && decide (a % 2 ^ 48 < w.size * 4096) && (!rd || w.rd) && (!wr || w.wr) then some (.window pa) else none
    | none => none
  else if wid = s.wafer.id then
    if d = 127 then
      let wd := bitsOf a 38 7
      let off := a % 2 ^ 37
      if wd ≥ 84 then none
      else if bitOf a 37 then some (.mmio wd off)
      else if off < s.domScratchBytes wd then some (.domScratch pa) else none
    else if d < 84 then (s.dramKey d (a % 2 ^ 45)).map Place.dram
    else none
  else if wid < 640 ∧ ((s.routeTo ctxid wid).length > 0 ∨ s.routeLost ctxid wid) then
    if d = 127 then
      let wd := bitsOf a 38 7
      if wd ≥ 84 then none
      else if bitOf a 37 then some (.remoteMmio pa)
      else if a % 2 ^ 37 < remoteScratch wid wd then some (.remote pa) else none
    else if d < 84 then (dramKeyIn wid (remoteSlice wid d) d (a % 2 ^ 45)).map Place.remote
    else none
  else none

/-- Every 4 KiB granule of a range names storage (R165). -/
def State.rangeStored (s : State) (ctxid : Nat) (rd wr : Bool) (pa bytes : Nat) : Bool :=
  (List.range ((bytes + 4095) / 4096)).all fun i => (s.place ctxid rd wr (pa + 4096 * i)).isSome

/-- The range names DRAM of this wafer. -/
def State.rangeDram (s : State) (pa bytes : Nat) : Bool :=
  (List.range ((bytes + 4095) / 4096)).all fun i =>
    match s.place 0 false false (pa + 4096 * i) with
    | some (.dram _) => true
    | _ => false

/-- The key of an address of another wafer, whoever has a route there: a striped DRAM address has that of its slice (R164). -/
def remoteKey (pa : Nat) : Nat :=
  let a := pa % 2 ^ 52
  if a / 2 ^ 45 < 84 then
    (dramKeyIn (pa / 2 ^ 52) (remoteSlice (pa / 2 ^ 52) (a / 2 ^ 45)) (a / 2 ^ 45) (a % 2 ^ 45)).getD pa
  else pa

/-- The key of a physical byte: its slice-direct or window address; an address that names no storage keeps its own. -/
def State.physKey (s : State) (pa : Nat) : Nat :=
  if pa / 2 ^ 52 < 640 ∧ pa / 2 ^ 52 ≠ s.wafer.id then remoteKey pa
  else match s.place 0 false false pa with
    | some p => p.key
    | none => pa

/-- Read `n` bytes from a physical address, lowest first. -/
def State.readPhys (s : State) (pa n : Nat) : List Byte :=
  memRead s.mem ((List.range n).map fun i => s.physKey (pa + i))

/-- What was there before a write of these cells: kept, in front of the older history, while a grid, a kernel or a queue
is there. -/
def State.replaced (s : State) (cells : List Host.Cell) : List (List Host.Cell) :=
  let old := cells.filterMap fun c => if memGet s.mem c.1 = c.2 then none else some (c.1, memGet s.mem c.1)
  if s.grids.isEmpty && s.kernels.isEmpty && s.queues.isEmpty || old.isEmpty then s.past else old :: s.past

/-- Write bytes from a physical address on. -/
def State.writePhys (s : State) (pa : Nat) (bs : List Byte) : State :=
  let cells := (List.range bs.length).zip bs |>.map fun p => (s.physKey (pa + p.1), p.2)
  { s with mem := memWrite s.mem cells, past := s.replaced cells }

/-- Bytes with one write undone. -/
def undo (keys : List Nat) (old : List Host.Cell) (bs : List Byte) : List Byte :=
  (keys.zip bs).map fun p => ((old.find? fun c => c.1 == p.1).map (·.2)).getD p.2

/-- The values that bytes at these keys have had, newest first, each with the length of `past` from which on they had it: `n` is
that of the newest, `bs` the newest. -/
def versionsFrom (keys : List Nat) : List (List Host.Cell) → Nat → List Byte → List (Nat × List Byte)
  | [], n, bs => [(n, bs)]
  | old :: rest, n, bs =>
    if old.any fun c => keys.contains c.1 then (n, bs) :: versionsFrom keys rest (n - 1) (undo keys old bs)
    else versionsFrom keys rest (n - 1) bs

/-- What the bytes at these keys have been since `past` was `since` long, newest first (R97, R273, R357). -/
def State.versions (s : State) (since : Nat) (keys : List Nat) : List (Nat × List Byte) :=
  versionsFrom keys (s.past.take (s.past.length - since)) s.past.length (memRead s.mem keys)

/-- An 8-byte little-endian word of physical memory. -/
def State.readPhys64 (s : State) (pa : Nat) : DWord := BitVec.ofNat 64 (leNat (s.readPhys pa 8))

def State.writePhys64 (s : State) (pa : Nat) (x : DWord) : State := s.writePhys pa (leBytes 8 x.toNat)

/-- Read `n` bytes of a core's scratchpad. -/
def State.readScr (s : State) (core off n : Nat) : List Byte :=
  memRead (s.core core).scratch ((List.range n).map fun i => off + i)

/-- Write bytes of a core's scratchpad. -/
def State.writeScr (s : State) (core off : Nat) (bs : List Byte) : State :=
  s.updCore core fun c =>
    { c with scratch := memWrite c.scratch ((List.range bs.length).zip bs |>.map fun p => (off + p.1, p.2)) }

/-- The address of a DRAM byte with its domain field replaced (R320). -/
def replicaAt (pa d : Nat) : Nat := pa / 2 ^ 52 * 2 ^ 52 + d * 2 ^ 45 + pa % 2 ^ 45

/-- Some granule of a physical range is poisoned (R405). -/
def State.poisoned (s : State) (pa n : Nat) : Bool :=
  (List.range n).any fun i => s.platform.poison.contains (s.physKey (pa + i) / 8)

/-- Bytes stored at a physical address: a granule whose 8 bytes are all written is no longer poisoned (R405). -/
def State.storeRaw (s : State) (pa : Nat) (bs : List Byte) : State :=
  let s := s.writePhys pa bs
  if s.platform.poison.isEmpty then s
  else
    let full := fun g : Nat => (List.range 8).all fun j =>
      (List.range bs.length).any fun i => s.physKey (pa + i) == 8 * g + j
    { s with platform := { s.platform with poison := s.platform.poison.filter (fun g => !full g) } }

/-! ### The power area (R390, R391) -/

/-- The offset in the power area of a stored byte: the area is two pages of wafer DRAM. -/
def State.areaOff (s : State) (key : Nat) : Option Nat :=
  if s.platform.areaAt = 0 then none
  else
    let at_ := fun j : Nat => s.physKey (s.platform.areaAt + 4096 * j)
    ((List.range 2).find? fun j => decide (at_ j ≤ key) && decide (key < at_ j + 4096)).bind fun j =>
      let off := 4096 * j + (key - at_ j)
      if off < 64 + 64 * 84 then some off else none

/-- The bits of a byte of the power area that a store of software changes: the RW fields of the header and of the records. What is
read-only or reserved ignores the store, and CLRSUS reads as 0 (R5). -/
def powerRw (off : Nat) : Byte :=
  if off < 64 then (if off ≥ 32 then 0xFF else 0)
  else match off % 64 with
    | 41 => 0x3C
    | 47 => 0xFF
    | 48 => 0xFF
    | 49 => 0xFF
    | _ => 0

/-- What software only reads, as first addresses and bytes (R5): the fault service queues' rings (R313), the journal's (R364), the
street index (R375). A ring of a queue that has neither an address nor an entry is none (log 166). -/
def State.readOnly (s : State) : List (Nat × Nat) :=
  (s.doms.filterMap fun d =>
    if d.2.fsqBase = 0 ∧ d.2.fsqSeq = 0 then none else some (d.2.fsqBase.toNat, 4096 * 32)) ++
  (match s.journal.base with
    | some a => [(a, 4096 * 32)]
    | none => []) ++
  (if s.platform.streetLog = 0 then [] else [(s.platform.streetAt, 64 * 2 ^ s.platform.streetLog)])

/-- A stored byte lies in a range of physical addresses. -/
def State.keyIn (s : State) (key at_ n : Nat) : Bool :=
  (List.range ((at_ % 4096 + n + 4095) / 4096)).any fun j =>
    let a := at_ / 4096 * 4096 + 4096 * j
    s.physKey a / 4096 == key / 4096 && decide (at_ ≤ a + key % 4096) && decide (a + key % 4096 < at_ + n)

/-- What a byte becomes when software stores `x` there: what it only reads ignores the store (R5). -/
def State.storedByte (s : State) (key : Nat) (x : Byte) : Byte :=
  match s.areaOff key with
  | some off => (x &&& powerRw off) ||| (memGet s.mem key &&& ~~~(powerRw off))
  | none => if s.readOnly.any fun r => s.keyIn key r.1 r.2 then memGet s.mem key else x

/-- All of memory is plain to software: no power area, no ring and no index is set. -/
def State.plain (s : State) : Bool := s.platform.areaAt == 0 && s.readOnly.isEmpty

/-- A byte stored where a record has CLRSUS, bit 309: the next POWER command of the domain takes it. -/
def State.noteClear (s : State) (key : Nat) (x : Byte) : State :=
  match s.areaOff key with
  | some off => if 64 ≤ off ∧ off % 64 = 38 then s.updPower (off / 64 - 1) fun p => { p with clrsus := x.getLsbD 5 } else s
  | none => s

/-- Store bytes at a physical address, as software does. -/
def State.storePhys (s : State) (pa : Nat) (bs : List Byte) : State :=
  if s.plain then s.storeRaw pa bs
  else
    let cells := (List.range bs.length).zip bs |>.map fun p => (s.physKey (pa + p.1), p.2)
    (cells.foldl (fun (s : State) c => s.noteClear c.1 c.2) s).storeRaw pa (cells.map fun c => s.storedByte c.1 c.2)

/-- Read at a location. -/
def State.readLoc (s : State) (l : Loc) (n : Nat) : List Byte :=
  match l with
  | .phys pa => s.readPhys pa n
  | .replica pa d => s.readPhys (replicaAt pa d) n
  | .scratch core off => s.readScr core off n

/-- The keys of the bytes of a location in physical memory; a scratchpad has none. -/
def State.locKeys (s : State) (l : Loc) (n : Nat) : List Nat :=
  match l with
  | .phys pa => (List.range n).map fun i => s.physKey (pa + i)
  | .replica pa d => (List.range n).map fun i => s.physKey (replicaAt pa d + i)
  | .scratch .. => []

/-- Write at a location; every replica of a replicated page (R321). -/
def State.writeLoc (s : State) (l : Loc) (bs : List Byte) : State :=
  match l with
  | .phys pa => s.storePhys pa bs
  | .replica pa _ => (List.range 84).foldl (fun (s : State) d => s.storePhys (replicaAt pa d) bs) s
  | .scratch core off => s.writeScr core off bs

/-- The location is poisoned for a read (R405). -/
def State.locPoisoned (s : State) (l : Loc) (n : Nat) : Bool :=
  match l with
  | .phys pa => s.poisoned pa n
  | .replica pa d => s.poisoned (replicaAt pa d) n
  | .scratch .. => false

/-- Two ranges share a byte. -/
def rangesMeet (a n b m : Nat) : Bool := decide (a < b + m) && decide (b < a + n)

/-- Two locations' ranges share a byte (R270: a byte is a physical byte). -/
def State.locsMeet (s : State) (l : Loc) (n : Nat) (l' : Loc) (m : Nat) : Bool :=
  match l, l' with
  | .scratch c o, .scratch c' o' => c == c' && rangesMeet o n o' m
  | .scratch .., _ => false
  | _, .scratch .. => false
  | .phys a, .phys b => rangesMeet (s.physKey a) n (s.physKey b) m
  | .phys a, .replica b _ => rangesMeet (s.physKey a) n (s.physKey b) m
  | .replica a _, .phys b => rangesMeet (s.physKey a) n (s.physKey b) m
  | .replica a _, .replica b _ => rangesMeet (s.physKey a) n (s.physKey b) m

/-- Some byte of a location, of at most a granule, lies in a frame (R325): the granules of a striped frame lie in different slices
(R164). -/
def State.locInFrame (s : State) (l : Loc) (n frame bytes : Nat) : Bool :=
  let at_ := fun a : Nat => s.keyIn (s.physKey a) frame bytes || s.keyIn (s.physKey (a + n - 1)) frame bytes
  match l with
  | .scratch .. => false
  | .phys a => at_ a
  | .replica a d => at_ a || at_ (replicaAt a d)

/-- A migration holds some byte of the location frozen (R325). -/
def State.locFrozen (s : State) (l : Loc) (n : Nat) : Bool := s.frozen.any fun f => s.locInFrame l n f.1 f.2.1

/-- The domain in which a location lies: none outside the wafer. -/
def State.domOfLoc (s : State) (l : Loc) : Option Nat :=
  match l with
  | .scratch core _ => some (core / 512)
  | .replica _ d => some d
  | .phys pa => match s.place 0 false false pa with
    | some (.dram k) => some (k % 2 ^ 52 / 2 ^ 45)
    | some (.domScratch k) => some (bitsOf k 38 7)
    | some (.mmio d _) => some d
    | _ => none

/-- The granule (offset / 32) carries the phaser bit (R252). -/
def State.phaserBit (s : State) (core granule : Nat) : Bool := (s.core core).phasers.contains granule

/-! ## The caches, as far as an instruction names them (R167, R168) -/

/-- The 128-byte line of wafer DRAM at an address: its number, and its home domain. -/
def State.lineAt (s : State) (pa : Nat) : Option (Nat × Nat) :=
  match s.place 0 false false pa with
  | some (.dram k) => some (k / 128, k % 2 ^ 52 / 2 ^ 45)
  | _ => none

/-- The line of wafer DRAM at a location: of a replicated page, that of the replica that serves the location. -/
def State.dramLine (s : State) (l : Loc) : Option (Nat × Nat) :=
  match l with
  | .phys pa => s.lineAt pa
  | .replica pa d => s.lineAt (replicaAt pa d)
  | .scratch .. => none

/-- The lines that a store to a location writes: of a replicated page, those of all its replicas (R321). -/
def State.storeLines (s : State) (l : Loc) : List (Nat × Nat) :=
  match l with
  | .phys pa => (s.lineAt pa).toList
  | .replica pa _ => (List.range 84).filterMap fun d => s.lineAt (replicaAt pa d)
  | .scratch .. => []

/-- Lines of an L1 (R167): 64 KiB of 128 bytes. -/
def l1Lines : Nat := 512

/-- Lines of a domain's L2 slice (R16, R168): 32,768 of each way that is not carved. -/
def DomState.l2Lines (x : DomState) : Nat := (16 - x.sways) * 32768

/-- A line leaves an L1. -/
def State.dropL1 (s : State) (core line : Nat) : State :=
  s.updCore core fun c => { c with l1 := c.l1.filter (fun x => x != line) }

/-- The home directory invalidates every copy of a line but the core's own (R167). The directory's record of the copies is the
L1s themselves. -/
def State.invalidateOthers (s : State) (keep : Option Nat) (line : Nat) : State :=
  s.cores.foldl (fun (s : State) c => if some c.1 = keep then s else s.dropL1 c.1 line) s

/-- A slice holds its lines as far as its ways have room; the others are evicted, and with its entry of the directory a line leaves
every L1 (R167, R168). -/
def State.fitL2 (s : State) (d : Nat) : State :=
  let x := s.dom d
  if x.l2.length ≤ x.l2Lines then s
  else ((x.l2.drop x.l2Lines).foldl (fun (s : State) y => s.invalidateOthers none y.1) s).updDom d fun x => { x with l2 := x.l2.take x.l2Lines }

/-- A slice has used a line: it is its most recently used one, and stays dirty if it is (log 132). -/
def State.useL2 (s : State) (d line : Nat) (dirty : Bool) : State :=
  (s.updDom d fun x =>
    { x with l2 := (line, dirty || x.l2.contains (line, true)) :: x.l2.filter (fun y => y.1 != line) }).fitL2 d

/-- A load brings its line into the core's L1 and its home L2 (R167). A full L1 gives up its least recently used line (log 132). -/
def State.cacheLoad (s : State) (core : Nat) (l : Loc) : State :=
  match s.dramLine l with
  | some (line, d) =>
    let s := s.useL2 d line false
    if (s.dom d).l2.contains (line, false) || (s.dom d).l2.contains (line, true) then
      s.updCore core fun c => { c with l1 := (line :: c.l1.filter fun x => x != line).take l1Lines }
    else s
  | none => s

/-- A store is performed: every other copy of its lines is invalidated before, and each is dirty in its home L2 (R167). -/
def State.cacheStore (s : State) (core : Option Nat) (l : Loc) : State :=
  (s.storeLines l).foldl (fun (s : State) p => (s.invalidateOthers core p.1).useL2 p.2 p.1 true) s

/-! ## Host windows (R385), and the device's own stores -/

/-- The window that holds a byte, with the remote address of the byte. -/
def State.windowAt (s : State) (l : Loc) : Option (HostWindow × DWord) :=
  match l with
  | .phys pa =>
    if pa / 2 ^ 52 = 1023 then
      (s.windows.find? fun w => w.1 == bitsOf pa 48 4).map fun w => (w.2, w.2.rva + BitVec.ofNat 64 (pa % 2 ^ 48))
    else none
  | _ => none

/-- A load of a host window is an RDMA READ, and a store an RDMA WRITE. -/
def State.rdmaRead (s : State) (l : Loc) (n : Nat) : State :=
  match s.windowAt l with
  | some (w, rva) => s.tell (.rdmaRead w.qpn w.rkey rva n)
  | none => s
def State.rdmaWrite (s : State) (l : Loc) (bs : List Byte) : State :=
  match s.windowAt l with
  | some (w, rva) => s.tell (.rdmaWrite w.qpn w.rkey rva bs)
  | none => s

/-- Bytes are stored at a location: those of a host window by an RDMA WRITE (R385). -/
def State.storeAt (s : State) (l : Loc) (bs : List Byte) : State := (s.writeLoc l bs).rdmaWrite l bs

/-- The device's own units store bytes of physical memory: the cached copies of the lines go first (R167), and what software only
reads they write (R5). -/
def State.deviceStore (s : State) (pa : Nat) (bs : List Byte) : State :=
  (((List.range ((pa % 128 + bs.length + 127) / 128)).foldl (fun (s : State) i =>
    s.cacheStore none (.phys (pa / 128 * 128 + 128 * i))) s).storeRaw pa bs).rdmaWrite (.phys pa) bs

/-! ## What holds a request back -/

/-- The partition that a domain lies in. -/
def State.partitionAt (s : State) (d : Nat) : Option Partition := s.partitions.find? fun p => p.domains.contains d

/-- The selvedges of the boundary between two domains (R379, R381): JOIN where both lie in one partition that is not down, or in
none. -/
def State.selvedge (s : State) (d e : Nat) : Selvedge :=
  match s.partitionAt d, s.partitionAt e with
  | none, none => .join
  | some p, some q => if p.num = q.num ∧ p.down = false then .join else .cut
  | _, _ => .cut

/-- The numbers from `a` to `b`, rising or falling. -/
def between (a b : Nat) : List Nat :=
  if a ≤ b then (List.range (b + 1 - a)).map fun i => a + i else (List.range (a + 1 - b)).map fun i => a - i

/-- The domains on a message's way (R14, R372): along its row to the column of its destination, then along that column. -/
def routeOf (d e : Nat) : List Nat :=
  (between (d % 7) (e % 7)).map (fun c => d / 7 * 7 + c) ++ ((between (d / 7) (e / 7)).drop 1).map fun r => r * 7 + e % 7

/-- A boundary on the way from one domain to another is CUT (R379). -/
def State.cutBetween (s : State) (d e : Nat) : Bool :=
  ((routeOf d e).zip ((routeOf d e).drop 1)).any fun p => s.selvedge p.1 p.2 == .cut

/-- The selvedges of a domain's edge links are CUT: its partition is down (R381). -/
def State.linksCut (s : State) (d : Nat) : Bool := (s.partitionAt d).any (·.down)

/-- A location lies on another wafer. -/
def State.onOtherWafer (s : State) (l : Loc) : Bool :=
  match l with
  | .phys pa => decide (pa / 2 ^ 52 < 640) && pa / 2 ^ 52 != s.wafer.id
  | _ => false

/-- No beat of a core's request to a location can cross: a selvedge on its way is CUT (R379). -/
def State.cutOff (s : State) (core : Nat) (l : Loc) : Bool :=
  match s.domOfLoc l with
  | some e => decide (domOf core < 84) && s.cutBetween (domOf core) e
  | none => s.onOtherWafer l && s.linksCut (domOf core)

/-- A frequency change stops the crossings out of a domain (R398). -/
def State.crossingsStop (s : State) (d : Nat) : Bool := (s.power d).freq == .stopping || (s.power d).freq == .relocking

/-- The message number `id` out of domain `d` to another, or off the wafer, is held (R398): a new one by a clock change of `d`,
until the interfaces release; any by one of the domain it arrives at, while that relocks. -/
def State.wayHeld (s : State) (d id : Nat) (e : Option Nat) : Bool :=
  e != some d && ((s.crossingsStop d && decide ((s.power d).freqMark ≤ id)) || e.any fun e => (s.power e).freq == .relocking)

/-- A request of a core is held on its way: by a clock change (R398), by a CUT selvedge, where it waits (R379, log 148). -/
def State.crossingHeld (s : State) (core id : Nat) (l : Loc) : Bool :=
  s.wayHeld (domOf core) id (s.domOfLoc l) || s.cutOff core l

/-- A request that a core makes now is held: by a frozen frame (R325), or by a clock change (R398). -/
def State.requestHeld (s : State) (core : Nat) (l : Loc) (n : Nat) : Bool := s.locFrozen l n || s.crossingHeld core s.nextId l

/-- A request of a unit's that is no agent's, from one domain to a byte of physical memory, is held by a CUT selvedge (R379). -/
def State.unitCut (s : State) (d pa : Nat) : Bool := (s.domOfLoc (.phys pa)).any fun e => s.cutBetween d e

end Sys2Proof.Machine
end

