-- ==== Sys2Proof/Machine/Operands.lean ====
section
/-! DEFINITION. Operand forms: registers by name, groups and pairs, the tags an operand accepts (R35, R77), reading an operand
that may still be on its way (R45, R46), pending registers (R48). -/

namespace Sys2Proof.Machine

/-- The value of a tag (R75). -/
def tagCode : Tag → Nat
  | .raw => 0 | .i32 => 1 | .n32 => 2 | .f32 => 3 | .f16x2 => 4 | .bf16x2 => 5 | .i64 => 6 | .n64 => 7
  | .x8 => 8 | .f8e4 => 9 | .f8e5 => 10 | .f6e2 => 11 | .f6e3 => 12 | .f4e2 => 13 | .q4 => 14 | .q8 => 15

/-- The tag of a value (R75). -/
def tagOfCode (n : Nat) : Tag :=
  match n % 16 with
  | 0 => .raw | 1 => .i32 | 2 => .n32 | 3 => .f32 | 4 => .f16x2 | 5 => .bf16x2 | 6 => .i64 | 7 => .n64
  | 8 => .x8 | 9 => .f8e4 | 10 => .f8e5 | 11 => .f6e2 | 12 => .f6e3 | 13 => .f4e2 | 14 => .q4 | _ => .q8

/-- The source types of R77. -/
inductive Accept where
  | any
  /-- i32, n32 and raw: also a scratchpad offset. -/
  | int32
  /-- i64, n64 and raw: also a 64-bit address pair. -/
  | int64
  /-- x8 and raw. -/
  | bytes4
  | exactly (t : Tag)
  | oneOf (ts : List Tag)
  deriving DecidableEq, Repr

/-- The tag is in the accepted set (R77). -/
def Accept.ok : Accept → Tag → Bool
  | .any, _ => true
  | .int32, t => t == .i32 || t == .n32 || t == .raw
  | .int64, t => t == .i64 || t == .n64 || t == .raw
  | .bytes4, t => t == .x8 || t == .raw
  | .exactly u, t => t == u
  | .oneOf us, t => us.contains t

/-- A source operand: its register, the operand number of R78, and the tags it accepts. Lists of sources are written in the
checking order of R45 and R78. -/
structure Src where
  reg : Reg
  role : Nat
  acc : Accept
  deriving DecidableEq, Repr

/-- The register code of trap.info (R45): family in [7:6], number in [5:0]. -/
def regCode : Reg → Nat
  | .v i => i.toNat
  | .s i => 64 + i.toNat
  | .k i => 128 + i.toNat

def vSrc (i : BitVec 6) (role : Nat) (acc : Accept) : Src := ⟨.v i, role, acc⟩
def sSrc (i : BitVec 4) : Src := ⟨.s i, 0, .any⟩
def kSrc (i : BitVec 3) : Src := ⟨.k i, 0, .any⟩

/-- The n registers of a v-register group (R35). -/
def vGroup (i : BitVec 6) (n : Nat) : List (BitVec 6) := (List.range n).map fun j => i + BitVec.ofNat 6 j

/-- The n registers of an s-register group (R40). -/
def sGroup (i : BitVec 4) (n : Nat) : List (BitVec 4) := (List.range n).map fun j => i + BitVec.ofNat 4 j

def vSrcs (i : BitVec 6) (n role : Nat) (acc : Accept) : List Src := (vGroup i n).map fun r => vSrc r role acc
def sSrcs (i : BitVec 4) (n : Nat) : List Src := (sGroup i n).map sSrc

/-- The address pair va:va+1 of a lane word: operand 5 (R78, R170). -/
def addrSrcs (a : BitVec 6) : List Src := vSrcs a 2 5 .int64

/-- vc of a three-source major: v(vd + mod) (R35). -/
def vcOf (d : BitVec 6) (c : BitVec 3) : BitVec 6 := d + c.zeroExtend 6

/-- Reason 4 for a register group that is not aligned to its size (R35, R38, R40, R52): (first register, size) each. -/
def groupBad (gs : List (Nat × Nat)) : Option Nat := if gs.all fun g => g.1 % g.2 == 0 then none else some 4

/-- Reason 4 for a vc window past v63 (R35). -/
def windowBad (d : BitVec 6) (c : BitVec 3) : Option Nat := if d.toNat + c.toNat > 63 then some 4 else none

/-- The lowest of two reasons. -/
def worse (a b : Option Nat) : Option Nat :=
  match a, b with
  | some x, some y => some (min x y)
  | some x, none => some x
  | none, y => y

/-- k-flag `i` of the eight. -/
def flagOf (k : BitVec 8) (i : BitVec 3) : Bool := k.getLsbD i.toNat

/-- The flags with one written. -/
def setFlag (k : BitVec 8) (i : BitVec 3) (b : Bool) : BitVec 8 :=
  let m : BitVec 8 := 1#8 <<< i.toNat
  if b then k ||| m else k &&& ~~~m

def Thread.readV (t : Thread) (i : BitVec 6) : VReg := t.v[i.toNat]'i.isLt
def Thread.writeV (t : Thread) (i : BitVec 6) (x : VReg) : Thread := { t with v := t.v.set i.toNat x i.isLt }
def Ctx.readS (c : Ctx) (i : BitVec 4) : Word := c.s[i.toNat]'i.isLt
def Ctx.writeS (c : Ctx) (i : BitVec 4) (x : Word) : Ctx := { c with s := c.s.set i.toNat x i.isLt }

/-- The newest value of a register of an agent; a bobbin has s-registers only. -/
def State.readReg (s : State) (ag : Agent) : Reg → VReg
  | .s i => ⟨(s.ctx ag).readS i, .raw⟩
  | .v i => match ag with
    | .thread bid tid => match s.thread? bid tid with
      | some t => t.readV i
      | none => ⟨0, .raw⟩
    | .bobbin .. => ⟨0, .raw⟩
  | .k i => match ag with
    | .thread bid tid => match s.thread? bid tid with
      | some t => ⟨boolWord (flagOf t.k i), .raw⟩
      | none => ⟨0, .raw⟩
    | .bobbin .. => ⟨0, .raw⟩

/-- Write a register of an agent: value and tag together (R76). A k-flag takes bit 0. -/
def State.writeReg (s : State) (ag : Agent) (r : Reg) (x : VReg) : State :=
  match r with
  | .s i => s.updCtx (fun c => c.writeS i x.val) ag
  | .v i => match ag with
    | .thread bid tid => s.updThread bid tid fun t => t.writeV i x
    | .bobbin .. => s
  | .k i => match ag with
    | .thread bid tid => s.updThread bid tid fun t => { t with k := setFlag t.k i (x.val.getLsbD 0) }
    | .bobbin .. => s

/-- Write several registers in order. -/
def State.writeRegs (s : State) (ag : Agent) : List (Reg × VReg) → State
  | [] => s
  | (r, x) :: rest => (s.writeReg ag r x).writeRegs ag rest

/-- A free value of the spec's "one of": one of `n` choices, the counter advanced (R12). -/
def State.choose (s : State) (n : Nat) : Nat × State :=
  (Config.free s.freeIdx % n, { s with freeIdx := s.freeIdx + 1 })

/-- One of the members of a list, by a free choice where there are several (R12); `d` where there is none. -/
def State.pick {α : Type} (s : State) (d : α) (xs : List α) : α × State :=
  match xs with
  | [] => (d, s)
  | [x] => (x, s)
  | _ => let (k, s) := s.choose xs.length
         (xs.getD k d, s)

/-- A register is pending (R48). -/
def Ctx.isPending (c : Ctx) (r : Reg) : Bool := c.pend.any fun p => p.regs.contains r

/-- The writes of a register that are in flight at a dispatch cycle, oldest first (R46). -/
def Ctx.inflightOf (c : Ctx) (now : Nat) (r : Reg) : List Inflight :=
  c.inflight.filter fun f => f.reg == r && decide (now < f.done)

/-- The register's last write is an incomplete fixed-latency result (R42, R45). -/
def Ctx.incomplete (c : Ctx) (now : Nat) (r : Reg) : Bool :=
  match (c.inflight.filter fun f => f.reg == r).getLast? with
  | some f => decide (now < f.done)
  | none => false

/-- The value an operand yields (R46): complete, its newest value; else, by a free choice, the value before the earliest
write in flight or the result of one of them. -/
def State.operand (s : State) (ag : Agent) (now : Nat) (r : Reg) : VReg × State :=
  let c := s.ctx ag
  if c.incomplete now r then
    match c.inflightOf now r with
    | [] => (s.readReg ag r, s)
    | f :: fs =>
      let all := f.old :: f.new :: fs.map (·.new)
      let (k, s') := s.choose all.length
      (all.getD k f.old, s')
  else (s.readReg ag r, s)

/-- The values of a list of sources, in order. -/
def State.operands (s : State) (ag : Agent) (now : Nat) : List Src → List VReg × State
  | [] => ([], s)
  | x :: rest =>
    let (v, s1) := s.operand ag now x.reg
    let (vs, s2) := s1.operands ag now rest
    (v :: vs, s2)

/-- The first source whose last write is incomplete: what STALL_SHORT reports (R45). -/
def State.firstIncomplete (s : State) (ag : Agent) (now : Nat) (srcs : List Src) : Option Reg :=
  match srcs.find? fun x => (s.ctx ag).incomplete now x.reg with
  | some x => some x.reg
  | none => none

/-- trap.info of FORMAT_TAG (R78). -/
def tagInfo (found : Tag) (role code : Nat) : Word := BitVec.ofNat 32 (tagCode found * 4096 + role * 256 + code)

/-- The first operand whose tag is not accepted: its trap.info (R77, R78). s-registers and k-flags have no tag. -/
def firstBadTag : List Src → List VReg → Option Word
  | [], _ => none
  | _, [] => none
  | x :: xs, v :: vs =>
    match x.reg with
    | .v _ => if x.acc.ok v.tag then firstBadTag xs vs else some (tagInfo v.tag x.role (regCode x.reg))
    | _ => firstBadTag xs vs

/-- The 32 bits of operand `i` of a list. -/
def valAt (vs : List VReg) (i : Nat) : Word := (vs.getD i ⟨0, .raw⟩).val
def tagAt (vs : List VReg) (i : Nat) : Tag := (vs.getD i ⟨0, .raw⟩).tag

/-- The pair of operands `i` and `i + 1`, the even register low (R4). -/
def pairAt (vs : List VReg) (i : Nat) : DWord := pair (valAt vs i) (valAt vs (i + 1))

/-- sys.tstate fields (R333). -/
def inhOf (t : Word) : Bool := t.getLsbD 7
def privOf (t : Word) : Bool := t.getLsbD 6
def nreadOf (t : Word) : Nat := (t.extractLsb' 4 2).toNat
def stallchkOf (t : Word) : Bool := t.getLsbD 3

/-- A sys.tstate word from its fields. -/
def tstateWord (inh priv : Bool) (nread : Nat) (chk : Bool) : Word :=
  BitVec.ofNat 32 ((if inh then 128 else 0) + (if priv then 64 else 0) + nread % 4 * 16 + (if chk then 8 else 0))

end Sys2Proof.Machine
end

