-- ==== Sys2Proof/Machine/Street.lean ====
section
/-! DEFINITION. The street index (R375): its entries in the order in which they were made, each mirrored in the hash table in
wafer DRAM, and the name caches (R376). -/

namespace Sys2Proof.Machine

/-- An entry's 128 bits (R375). -/
def StreetEntry.bits (e : StreetEntry) : Nat :=
  e.unit % 2 ^ 32 * 2 ^ 96 + e.name % 2 ^ 16 * 2 ^ 80 + (if e.state = 3 then 0 else e.cur % 2 ^ 16 * 2 ^ 64) + e.state % 4 * 2 ^ 62 +
    (if e.state = 3 then bitsOf e.image 12 50 * 2 ^ 12 + e.rank % 2 ^ 8 * 2 ^ 4 else 0)

/-- The table has been allocated. -/
def State.streetThere (s : State) : Bool := s.platform.streetLog != 0

/-- Write an entry's place of the table. -/
def State.streetStore (s : State) (slot bits : Nat) : State :=
  if s.streetThere then s.deviceStore (s.platform.streetAt + 16 * slot) (leBytes 16 bits) else s

/-- The first free place of a key's sixteen buckets. -/
def State.streetFree (s : State) (unit name : Nat) : Option Nat :=
  if s.streetThere then
    let n := 2 ^ s.platform.streetLog
    let h := (unit ^^^ (257 * name)) % n
    let places := (List.range (min 16 n)).flatMap fun i => (List.range 4).map fun j => 4 * ((h + i) % n) + j
    places.find? fun p => !s.street.any fun e => e.slot == p
  else some 0

/-- The key of a cached name is this. -/
def NameEntry.has (e : NameEntry) (unit name : Nat) : Bool := e.unit == unit && e.name == name

/-- Keys leave every name cache before an entry's state changes (R376). -/
def State.dropNames (s : State) (unit : Nat) (names : List Nat) : State :=
  { s with cores := s.cores.map fun c => (c.1, { c.2 with names := c.2.names.filter (fun k => !(names.any fun n => k.has unit n)) }) }

/-- The index entry of a key. -/
def State.streetFind (s : State) (unit name : Nat) : Option StreetEntry := s.street.find? fun e => e.unit == unit && e.name == name

/-- What a core's name cache holds of a key, or else the index: a cached entry that was switching is read again (R376). -/
def State.lookName (s : State) (core unit name : Nat) : Option NameEntry :=
  match (s.core core).names.find? fun e => e.has unit name && e.state != 2 with
  | some e => some e
  | none => (s.streetFind unit name).map fun e => { unit := unit, name := name, state := e.state, cur := e.cur }

/-- A core's name cache has used an entry: it is the most recently used one, and the least recently used one leaves a full cache. -/
def State.useName (s : State) (core : Nat) (e : NameEntry) : State :=
  s.updCore core fun c => { c with names := (e :: c.names.filter fun x => !x.has e.unit e.name).take 64 }

/-- A block has used a name of its unit (R376). -/
def State.usedName (s : State) (b : Block) (name : Nat) : State :=
  match s.lookName b.core b.unit name with
  | some e => s.useName b.core e
  | none => s

/-- How a name resolves for a block's arrival (R376). -/
inductive Resolved where
  /-- No entry for the key: NAME_INVALID. -/
  | invalid
  /-- The entry is switching or parked, or its core no longer holds the unit: the arrival is held and resolved again. -/
  | held
  | retired (tb : Block)
  | found (tb : Block)
  deriving DecidableEq, Repr

/-- A name of a block's unit resolves, through the name cache of the block's core (R376, R378): the alias of a restored block too
(R342, R375). -/
def State.resolve (s : State) (b : Block) (name : Nat) : Resolved :=
  match s.lookName b.core b.unit name with
  | none => .invalid
  | some e =>
    if e.state ≠ 1 then .held
    else match s.blocks.find? fun x => x.unit == b.unit && x.core == e.cur with
      | some tb => if s.retired tb.core then .retired tb else .found tb
      | none => .held

/-- The resident block of a block's unit that a name holds. -/
def State.peer (s : State) (b : Block) (name : Nat) : Option Block :=
  match s.resolve b name with
  | .found tb => some tb
  | .retired tb => some tb
  | _ => none

/-- Places for the entries of a unit are free, one after the other (R375): a placement or a restore waits for them. -/
def State.streetRoom (s : State) (unit : Nat) : List Nat → Bool
  | [] => true
  | name :: rest => match s.streetFree unit name with
    | none => false
    | some p =>
      ({ s with street := s.street ++ [{ unit := unit, name := name, cur := name, state := 1, image := 0, rank := 0, slot := p }] } : State).streetRoom unit rest

/-- A live entry for a name, at a place that is free for it. -/
def State.streetAdd (s : State) (unit name cur rank : Nat) : State :=
  match s.streetFree unit name with
  | some p =>
    let e : StreetEntry := { unit := unit, name := name, cur := cur, state := 1, image := 0, rank := rank, slot := p }
    ({ s with street := s.street ++ [e] } : State).streetStore p e.bits
  | none => s

/-- Change the entries of a unit. -/
def State.streetChange (s : State) (unit : Nat) (f : StreetEntry → StreetEntry) : State :=
  let mine := s.street.filter fun e => e.unit == unit
  let s := s.dropNames unit (mine.map (·.name))
  let s : State := { s with street := s.street.map fun e => if e.unit = unit then f e else e }
  mine.foldl (fun (s : State) e => s.streetStore e.slot (f e).bits) s

/-- The entries of a unit are removed. -/
def State.streetDrop (s : State) (unit : Nat) : State :=
  let mine := s.street.filter fun e => e.unit == unit
  let s := s.dropNames unit (mine.map (·.name))
  let s : State := { s with street := s.street.filter fun e => e.unit != unit }
  mine.foldl (fun (s : State) e => s.streetStore e.slot 0) s

/-- NAME_CACHE_FILL: a core's name cache takes a key of its block's unit that the index holds, in place of its least recently
used one when it holds 64 (R376). -/
def execNameCacheFill (core bid name : Nat) (s : State) : Host.Outcome State Fault Refusal :=
  .next (match s.block? bid with
    | some b => match s.streetFind b.unit name with
      | some e => if b.core == core then s.useName core { unit := b.unit, name := name, state := e.state, cur := e.cur } else s
      | none => s
    | none => s)

end Sys2Proof.Machine
end

