-- ==== Sys2Proof/Machine/Ops.lean ====
section
/-! DEFINITION. The named operations that every family shares: filing threads in bins (R141, R142), stopping a grid (R329),
taking an exception and returning from one (R328, R331, R189), retiring an instruction (R42, R47), pending results (R48), the
collector (R159), and the order of checks of one instruction (R53). -/

namespace Sys2Proof.Machine

/-- The cause codes of R330. -/
inductive Cause where
  | illegal | privilege | stallShort | formatTag | tensorInvalid | trap | syscall | break_
  | noncanonical | misaligned | scratchBounds | nameInvalid | memHole | nameRetired | phaserClobber
  | regionInvalid | xlateFault | atomInvalid | msgOverflow
  | phaserInvalid | phaserBusy | phaserStale | collInvalid
  | copyInvalid | matrixInvalid | bobbinTrap
  | regionWb | copyFault | matrixFault | collMismatch
  | fidError | fidReplay | migrSize | migrRace | doubleTrap
  deriving DecidableEq, Repr

def Cause.code : Cause → Nat
  | .illegal => 0x01 | .privilege => 0x02 | .stallShort => 0x03 | .formatTag => 0x04 | .tensorInvalid => 0x05
  | .trap => 0x06 | .syscall => 0x07 | .break_ => 0x08
  | .noncanonical => 0x10 | .misaligned => 0x11 | .scratchBounds => 0x12 | .nameInvalid => 0x13 | .memHole => 0x14
  | .nameRetired => 0x15 | .phaserClobber => 0x16 | .regionInvalid => 0x17 | .xlateFault => 0x18
  | .atomInvalid => 0x19 | .msgOverflow => 0x1A
  | .phaserInvalid => 0x20 | .phaserBusy => 0x21 | .phaserStale => 0x22 | .collInvalid => 0x23
  | .copyInvalid => 0x28 | .matrixInvalid => 0x29 | .bobbinTrap => 0x2A
  | .regionWb => 0x30 | .copyFault => 0x31 | .matrixFault => 0x32 | .collMismatch => 0x33
  | .fidError => 0x38 | .fidReplay => 0x39 | .migrSize => 0x3A | .migrRace => 0x3B | .doubleTrap => 0x3F

/-! ## Bins and braids -/

/-- A bin's oldest filing cycle (R141). -/
def Bin.oldest (b : Bin) : Nat := b.threads.foldl (fun m t => min m t.2) ((b.threads.head?.map (·.2)).getD 0)

/-- A bin is aged when its oldest thread was filed 64 or more cycles ago (R141). -/
def Bin.isAged (b : Bin) (now : Nat) : Bool := decide (now ≥ b.oldest + 64)

/-- File a thread with key (block, pc): the earliest-filed bin of that key with room that is not aged, else a new bin (R141). -/
def fileInBins (bins : List Bin) (now bid tid : Nat) (pc : DWord) : List Bin :=
  let fits := fun b : Bin => b.bid == bid && b.pc == pc && decide (b.threads.length < 32) && !b.isAged now
  match (bins.filter fits).foldl (fun (m : Option Nat) b => match m with
      | none => some b.oldest
      | some o => some (min o b.oldest)) none with
  | none => bins ++ [{ bid := bid, pc := pc, threads := [(tid, now)], aged := false }]
  | some o =>
    match bins.findIdx? fun b => fits b && b.oldest == o with
    | some i => updAt (fun b => { b with threads := b.threads ++ [(tid, now)] }) i bins
    | none => bins

/-- A pipe without one thread among its members; a braid without members ends (R142). -/
def Pipe.without (p : Pipe) (bid tid : Nat) : Pipe :=
  let out := p.braids.map fun b : Braid =>
    if b.bid = bid then { b with members := b.members.filter (fun m => m.1 != tid) } else b
  { p with braids := out.filter (fun b => !b.members.isEmpty) }

/-- A thread leaves its braid at once (R142). -/
def CoreState.leaveBraid (c : CoreState) (bid tid : Nat) : CoreState :=
  { c with pipes := c.pipes.map (fun p => p.without bid tid) }

/-- The core's bins are now these: pressure ends with the last aged bin (R145). A bin whose oldest thread has left it may be
aged no longer. -/
def CoreState.rebin (c : CoreState) (now : Nat) (bins : List Bin) : CoreState :=
  let bins := (bins.filter fun b => !b.threads.isEmpty).map fun b => { b with aged := b.aged && b.isAged now }
  { c with bins := bins, pressure := if bins.any (·.isAged now) then c.pressure else none }

/-- A thread leaves its bin. -/
def CoreState.unfile (c : CoreState) (now bid tid : Nat) : CoreState :=
  c.rebin now (c.bins.map fun b : Bin =>
    if b.bid = bid then { b with threads := b.threads.filter (fun t => t.1 != tid) } else b)

/-- The thread leaves braid and bin: it blocks, parks, exits or stops (R140, R142). -/
def State.withdraw (s : State) (bid tid : Nat) : State :=
  match s.block? bid with
  | some b => s.updCore b.core fun c => (c.leaveBraid bid tid).unfile (s.dom (domOf b.core)).cycles bid tid
  | none => s

/-- The thread is filed at its own PC (R142); no thread of a stopped block is (R329). -/
def State.file (s : State) (bid tid : Nat) : State :=
  match s.block? bid, s.thread? bid tid with
  | some b, some t =>
    if b.halted then s
    else s.updCore b.core fun c =>
      let now := (s.dom (domOf b.core)).cycles
      let c := (c.leaveBraid bid tid).unfile now bid tid
      { c with bins := fileInBins c.bins now bid tid t.ctx.pc }
  | _, _ => s

/-- The thread becomes runnable again and is filed where it resumes (R140). -/
def State.wake (s : State) (bid tid : Nat) : State :=
  (s.updThread bid tid fun t => { t with status := .runnable }).file bid tid

/-- The thread stops with this status. -/
def State.stopThread (s : State) (bid tid : Nat) (st : TStatus) : State :=
  (s.withdraw bid tid).updThread bid tid fun t => { t with status := st }

/-- The members of the braid that holds a thread: none when it is in no braid. -/
def CoreState.braidOf (c : CoreState) (bid tid : Nat) : List Nat :=
  match (c.pipes.toList.flatMap (·.braids)).find? fun b => b.bid == bid && b.members.any fun m => m.1 == tid with
  | some b => b.members.map (·.1)
  | none => []

/-- A runnable thread is a member of a braid or filed (R140): one that is neither is filed. -/
def State.fileLoose (s : State) (bid tid : Nat) : State :=
  match s.block? bid with
  | some b => if ((s.core b.core).braidOf bid tid).isEmpty then s.file bid tid else s
  | none => s

/-! ## Faults that stop a grid -/

/-- An agent's entry waits for the fault service queue of its domain; FAULT_QUEUE_ENTRY_WRITE writes it (R314). -/
def State.fsqAdd (s : State) (d : Nat) (e : FsqEntry) : State := s.updDom d fun x => { x with fsqWait := x.fsqWait ++ [e] }

/-- A bobbin that belongs to no block: its commands are discarded (R329). -/
def Bobbin.cleared : Bobbin := Bobbin.zero

/-- These blocks stop where they stand (R329): their threads leave bins and braids, their bobbins and their engine commands are
discarded, what a migration of theirs froze is released. -/
def State.stopBlocks (s : State) (hit : Block → Bool) : State :=
  let bs := s.blocks.filter hit
  let mine := fun bid : Nat => bs.any fun b => b.bid == bid
  let halt : Block → Block := fun b => if hit b then { b with halted := true, save := none } else b
  let clear : Bobbin → Bobbin := fun x => if x.status != .free && mine x.bid then Bobbin.cleared else x
  let s : State := { s with blocks := s.blocks.map halt }
  let s := bs.foldl (fun (s : State) (b : Block) => s.updCore b.core fun c =>
      { c.rebin (s.dom (domOf b.core)).cycles (c.bins.filter fun x => !mine x.bid) with
        pipes := c.pipes.map (fun p => { p with braids := p.braids.filter (fun x => !mine x.bid) })
        bobbins := c.bobbins.map clear }) s
  let live := fun id : Nat => s.cores.any fun c => c.2.bobbins.toList.any fun x => x.copyQ.any fun k => k.id == id
  { s with
    frozen := s.frozen.filter (fun f => live f.2.2)
    xinvs := s.xinvs.filter (fun x => match x.agent with
      | .thread bid _ => !mine bid
      | .bobbin core b => (s.bobbin core b).status != .free) }

/-- Saved units end, and their street entries are removed (R375). A complete image stays in memory, and what its ENG section holds
with it (R361). -/
def State.dropSaved (s : State) (gone : SavedUnit → Bool) : State :=
  let left := ((s.saved.filter gone).filter (·.committed)).map fun u => { u with resuming := false, placed := false, slot := none }
  (s.saved.filter gone).foldl (fun (s : State) u => s.streetDrop u.unit)
    { s with saved := s.saved.filter (fun u => !gone u), images := s.images ++ left }

/-- Stop a grid: every block of it stops, and its other units are neither placed nor restored (R329, R378, R381). `cause` 0
with `aborted` gives grid status 2. -/
def State.stopGrid (s : State) (g cause : Nat) (aborted : Bool) : State :=
  ((s.stopBlocks fun b => b.gridId == g).dropSaved fun u => u.gridId == g).updGrid g fun x =>
    { x with lists := [], aborted := x.aborted || aborted, cause := if x.cause = 0 then cause else x.cause }

/-- Abort a grid (R363): as stopGrid with status 2, but a unit that is being saved completes its save first. -/
def State.abortGrid (s : State) (g : Nat) : State :=
  ((s.stopBlocks fun b => b.gridId == g && b.save.isNone).dropSaved fun u => u.gridId == g && u.committed).updGrid g fun x =>
    { x with lists := [], aborted := true }

/-- INFO of a context fault's report (R313, R329): the inner code of a DOUBLE_TRAP, the level of a translation fault, the name of
a name fault. -/
def reportInfo (cause : Nat) (r : TrapRegs) : Nat :=
  if cause = Cause.doubleTrap.code then r.cause.toNat
  else if cause = Cause.xlateFault.code then bitsOf r.info.toNat 6 3
  else if cause = Cause.nameInvalid.code ∨ cause = Cause.nameRetired.code then bitsOf r.info.toNat 0 16
  else 0

/-- A context fault of an agent's grid (R329), whose trap registers are these: the report, and the stop. -/
def State.contextFault (s : State) (ag : Agent) (cause : Nat) (r : TrapRegs) : State :=
  match s.blockOf ag with
  | none => s
  | some b =>
    let fa := match ag with
      | .thread bid tid => FaultAgent.thread bid tid
      | .bobbin core x => FaultAgent.bobbin core x
    let s := s.fsqAdd (domOf b.core)
      { va := r.addr, asid := b.regs.asid, core := b.core, agent := fa, cause := cause
        xkind := if cause = Cause.xlateFault.code then bitsOf r.info.toNat 0 4 else 15
        access := if cause = Cause.xlateFault.code then bitsOf r.info.toNat 4 2 else 0
        park := false, block := b.regs.blockid, info := BitVec.ofNat 32 (reportInfo cause r), word := 0 }
    (s.stopGrid b.gridId cause false).tell (.contextFault b.gridId cause)

/-- An uncorrectable payload error of a context: its grids stop and complete with status 2 and cause 0 (R381, R405). -/
def State.payloadError (s : State) (ctxid : Word) : State :=
  ((s.grids.filter fun g => g.ctxid == ctxid).foldl (fun (s : State) g => s.stopGrid g.id 0 true) s).tell
    (.status 0 2 ctxid.toNat)

/-! ## Taking an exception, and returning from one -/

/-- sys.tvec's handler address (R333). -/
def tvecAddr (t : DWord) : DWord := t &&& ~~~(3 : DWord)

/-- Precise trap entry of a thread (R328): the trap registers are written; the handler is entered with PRIV and INH set, or
the grid meets a context fault when INH is set or the vector is disabled. The handler's first instruction issues from cycle
`after` on at the earliest, and when every fixed-latency result of the thread is complete (R50); a member of a braid stays one
(R142). A thread whose block has stopped takes no trap (R329). -/
def State.trapThread (s : State) (bid tid : Nat) (cause : Cause) (info : Word) (addr : DWord) (pc : DWord) (word : Word)
    (after : Nat) : State :=
  match s.thread? bid tid, s.block? bid with
  | some t, some b =>
    let regs : TrapRegs :=
      { cause := BitVec.ofNat 32 cause.code, word := word, pc := pc, info := info, addr := addr, tstate := t.ctx.tstate }
    if b.halted then s
    else if inhOf t.ctx.tstate then
      (s.updThread bid tid fun t => { t with trap := regs }).contextFault (.thread bid tid) Cause.doubleTrap.code regs
    else if !b.regs.tvec.getLsbD 0 then
      (s.updThread bid tid fun t => { t with trap := regs }).contextFault (.thread bid tid) cause.code regs
    else
      let done := t.ctx.inflight.foldl (fun m f => max m f.done) (max t.ctx.ready after)
      (s.updThread bid tid fun t =>
        { t with
          trap := regs
          status := .runnable
          ctx := { t.ctx with
            tstate := tstateWord true true (nreadOf t.ctx.tstate) (stallchkOf t.ctx.tstate)
            pc := tvecAddr b.regs.tvec
            ready := done } }).fileLoose bid tid
  | _, _ => s

/-- Every unresolved guarded command becomes drop (R200). -/
def dropUnresolved (q : List Command) : List Command :=
  q.map fun c => if c.guard.isSome && c.resolved.isNone then { c with resolved := some false } else c

/-- A bobbin stops: cause, PC and word go to its status, and it becomes finishing (R187, R189). -/
def Bobbin.trapped (x : Bobbin) (cause : Nat) (pc : DWord) (word : Word) : Bobbin :=
  { x with
    status := .finishing
    cause := cause
    trapPc := pc
    trapWord := word
    copyQ := dropUnresolved x.copyQ
    matrixQ := dropUnresolved x.matrixQ
    parked := false
    stopCause := none
    wait := none }

/-- The instruction that raises this cause has dispatched: not one that R51 calls not executed, that the privilege check refuses,
or that would read an incomplete operand (R53). -/
def Cause.dispatched : Cause → Bool
  | .illegal => false
  | .privilege => false
  | .stallShort => false
  | _ => true

/-- The stall count of the word at hand, where it has dispatched (R32, R42). -/
def State.stallOf (s : State) (cause : Cause) : Nat := if cause.dispatched then (s.issue.word.extractLsb' 0 3).toNat else 0

/-- The agent takes a precise trap at its own instruction: a thread enters its handler (R328), after the stall count of an
instruction that has dispatched (R42); a bobbin stops (R189). -/
def State.trap (s : State) (ag : Agent) (cause : Cause) (info : Word) (addr : DWord) : State :=
  match ag with
  | .thread bid tid =>
    s.trapThread bid tid cause info addr (s.ctx ag).pc s.issue.word (s.issue.now + 1 + s.stallOf cause)
  | .bobbin core b => s.updBobbin core b fun x => x.trapped cause.code x.ctx.pc s.issue.word

/-- ILLEGAL with its reason in trap.info[3:0] (R51). -/
def State.illegal (s : State) (ag : Agent) (reason : Nat) : State := s.trap ag .illegal (BitVec.ofNat 32 reason) 0

/-- A program counter is the address of a word: its low two bits are 0 (R32). -/
def wordAddr (pc : DWord) : DWord := pc &&& ~~~(3 : DWord)

/-- Return from a trap (R331): sys.tstate from trap.tstate with INH 0, the PC after `skip` words, no hardware breakpoint at
the next word; every fixed-latency result is complete when it goes on (R50). -/
def State.eret (s : State) (bid tid : Nat) (skip : Bool) (ready : Nat) : State :=
  s.updThread bid tid fun t =>
    let done := t.ctx.inflight.foldl (fun m f => max m f.done) ready
    { t with
      bpSkip := true
      ctx := { t.ctx with
        tstate := tstateWord false (privOf t.trap.tstate) (nreadOf t.trap.tstate) (stallchkOf t.trap.tstate)
        pc := wordAddr t.trap.pc + (if skip then 4 else 0)
        ready := done } }

/-- An agent's privilege: a bobbin has its leader's (R101, R327). -/
def State.privOf (s : State) : Agent → Bool
  | .thread bid tid => Machine.privOf (s.ctx (.thread bid tid)).tstate
  | .bobbin core b =>
    let x := s.bobbin core b
    Machine.privOf (s.ctx (.thread x.bid x.leader)).tstate

/-! ## Retiring an instruction -/

/-- The agent goes on at `pc`, eligible again after its stall count (R42). -/
def State.goto (s : State) (ag : Agent) (n : BitVec 3) (pc : DWord) : State :=
  s.updCtx (fun c => { c with pc := pc, ready := s.issue.now + 1 + n.toNat }) ag

/-- The agent goes on at the next word. -/
def State.advance (s : State) (ag : Agent) (n : BitVec 3) : State := s.goto ag n ((s.ctx ag).pc + 4)

/-- A register as written and its value. -/
structure Write where
  reg : Reg
  val : Word
  tag : Tag
  deriving DecidableEq, Repr

def wV (i : BitVec 6) (x : Word) (t : Tag) : Write := ⟨.v i, x, t⟩
def wS (i : BitVec 4) (x : Word) : Write := ⟨.s i, x, .raw⟩
def wK (i : BitVec 3) (b : Bool) : Write := ⟨.k i, boolWord b, .raw⟩

/-- The writes that still matter at a cycle: all those of a register with a write in flight. -/
def liveInflight (now : Nat) (fs : List Inflight) : List Inflight :=
  fs.filter fun f => fs.any fun g => g.reg == f.reg && decide (now < g.done)

/-- A write joins those that loans may return: behind what its register held before, if it is the first since the last release. -/
def Ctx.lend (c : Ctx) (f : Inflight) : Ctx :=
  match f.reg with
  | .v r =>
    let c := if c.lent.any fun x => x.reg == r then c
      else { c with lent := c.lent ++ [{ num := c.lentNext, reg := r, val := f.old, done := 0 }], lentNext := c.lentNext + 1 }
    { c with lent := c.lent ++ [{ num := c.lentNext, reg := r, val := f.new, done := f.done }], lentNext := c.lentNext + 1 }
  | .s _ => c
  | .k _ => c

/-- What loans of a thread's v-register may return at a cycle (R119): the performed writes from number `floor` on, with their
numbers; of a register not written since the last release, what it holds. -/
def Thread.lendable (t : Thread) (now : Nat) (r : BitVec 6) (floor : Nat) : List (Nat × VReg) :=
  let ws := t.ctx.lent.filter fun x => x.reg == r
  if ws.isEmpty then [(t.ctx.lentNext, t.readV r)]
  else (ws.filter fun x => decide (x.done ≤ now) && decide (floor ≤ x.num)).map fun x => (x.num, x.val)

/-- Writes of results of fixed latency `lat`: the registers hold them from dispatch on, and each is in flight until it is
complete (R42, R46, R47). Entries that have completed are forgotten. -/
def State.writeFixed (s : State) (ag : Agent) (lat : Nat) (ws : List Write) : State :=
  let now := s.issue.now
  let entries := ws.map fun w =>
    { reg := w.reg, old := s.readReg ag w.reg, new := ⟨w.val, w.tag⟩, done := now + lat : Inflight }
  (s.updCtx (fun c => entries.foldl Ctx.lend { c with inflight := liveInflight now c.inflight ++ entries }) ag).writeRegs ag
    (ws.map fun w => (w.reg, ⟨w.val, w.tag⟩))

/-- The end of an instruction with results of fixed latency. -/
def State.retire (s : State) (ag : Agent) (n : BitVec 3) (lat : Nat) (ws : List Write) : State :=
  (s.writeFixed ag lat ws).advance ag n

/-! ## Pending results -/

/-- The bound of R419 on the results that wait for nothing outside the core, in cycles. -/
def latVar : Nat := 64

/-- Mark a register group pending (R48); the number identifies it. `left`: the bound R419 gives, if any. -/
def State.addPend (s : State) (ag : Agent) (regs : List Reg) (work : PendWork) (left : Option Nat) : State :=
  ({ s with nextId := s.nextId + 1 } : State).updCtx
    (fun c => { c with pend := c.pend ++ [{ id := s.nextId, regs := regs, work := work, born := s.issue.now, left := left }] }) ag

/-- A loan of one of its own registers that waited for an earlier pending write takes the value written (R117). -/
def Pend.feed (q : Pend) (ag : Agent) (ws : List (Reg × VReg)) : Pend :=
  match q.work, ag with
  | .loan lender r, .thread _ tid =>
    if lender = tid then match ws.find? fun w => w.1 == Reg.v r with
      | some w => { q with work := .value [w.2] }
      | none => q
    else q
  | _, _ => q

/-- Registers are written at once: no older write of them is in flight, and the new one is complete (R48, R118). -/
def State.writeComplete (s : State) (ag : Agent) (ws : List (Reg × VReg)) : State :=
  let entries := ws.map fun w => ({ reg := w.1, old := s.readReg ag w.1, new := w.2, done := 0 } : Inflight)
  (s.updCtx (fun c => entries.foldl Ctx.lend
    { c with inflight := c.inflight.filter (fun f => !(ws.map (·.1)).contains f.reg) }) ag).writeRegs ag ws

/-- The value arrives: the group is written and its mark cleared. -/
def State.completePend (s : State) (ag : Agent) (p : Pend) (vs : List VReg) : State :=
  (s.updCtx (fun c => { c with pend := (c.pend.filter (fun q => q.id != p.id)).map (fun q => q.feed ag (p.regs.zip vs)) }) ag).writeComplete
    ag (p.regs.zip vs)

/-- The end of an instruction whose results are of variable latency and already decided (R43, R48), with the bound of R419. -/
def State.retireVar (s : State) (ag : Agent) (n : BitVec 3) (ws : List Write) (left : Option Nat := none) : State :=
  (s.addPend ag (ws.map (·.reg)) (.value (ws.map fun w => ⟨w.val, w.tag⟩)) left).advance ag n

/-! ## The collector -/

/-- The grants given in a cycle so far. -/
def CoreState.used (c : CoreState) (cycle : Nat) : Nat := if c.grantCycle = cycle then c.grantsUsed else 0

/-- More grants are given in a cycle. -/
def CoreState.grantMore (c : CoreState) (cycle k : Nat) : CoreState :=
  { c with grantCycle := cycle, grantsUsed := c.used cycle + k }

/-- The grant limit in force in the present cycle of a domain: a change applies from the next cycle on (R159). -/
def DomState.grantNow (x : DomState) : Nat := if x.grantFrom ≤ x.cycles then x.grant else x.grantWas

/-- The power controller sets a domain's grant limit (R159, R396). -/
def State.setGrant (s : State) (d g : Nat) : State :=
  s.updDom d fun x => { x with grant := g, grantWas := x.grantNow, grantFrom := x.cycles + 1 }

/-- The instruction at hand has all the grants it needs and dispatches in this cycle (R159); uniform instructions need none. An
instruction that lacks grants does not come here before it has them (State.hold). -/
def State.collect (s : State) (need : Nat) : State :=
  let s : State := { s with issue := { s.issue with now := s.issue.cycle } }
  if need = 0 then s else s.updCore s.issue.core fun c => c.grantMore s.issue.cycle need

/-! ## One instruction: the order of checks -/

/-- Which agents may execute a word (R54, R101). -/
inductive Who where
  | thread | bobbin | both
  deriving DecidableEq, Repr

def Who.allows : Who → Agent → Bool
  | .both, _ => true
  | .thread, .thread .. => true
  | .bobbin, .bobbin .. => true
  | _, _ => false

/-- What the checks of R53 need to know of an instruction: stall count, sources in checking order, destinations, the ILLEGAL
reason (3 to 5, or 7) that its word alone gives, the agents that may execute it, whether it is privileged. -/
structure Op where
  n : BitVec 3
  srcs : List Src := []
  dsts : List Reg := []
  bad : Option Nat := none
  who : Who := .both
  priv : Bool := false
  deriving DecidableEq, Repr

/-- A register the instruction reads or writes is pending: it waits (R48). -/
def Op.waits (o : Op) (c : Ctx) : Bool := (o.srcs.any fun x => c.isPending x.reg) || o.dsts.any fun r => c.isPending r

/-- The ILLEGAL reason of step 1 of R53: the lowest of the word's own, the agent's (6), and the reason 7 that state fixed for
the block's life gives. -/
def Op.reason (o : Op) (ag : Agent) (fixed7 : Bool) : Option Nat :=
  match o.bad with
  | some r => if r < 7 then some r else if o.who.allows ag then some r else some 6
  | none => if !o.who.allows ag then some 6 else if fixed7 then some 7 else none

/-- Steps 1 to 5 of R53 for one agent: ILLEGAL, privilege, the wait for pending registers, STALL_SHORT, FORMAT_TAG. The
agent executes the instruction on the values given, or (none) it has trapped or waits. -/
def State.prepare (s : State) (o : Op) (fixed7 : State → Agent → Bool) (ag : Agent) : State × Option (List VReg) :=
  match o.reason ag (fixed7 s ag) with
  | some r => (s.illegal ag r, none)
  | none =>
    if o.priv && !s.privOf ag then (s.trap ag .privilege 0 0, none)
    else if o.waits (s.ctx ag) then (s, none)
    else
      match (if stallchkOf (s.ctx ag).tstate then s.firstIncomplete ag s.issue.now o.srcs else none) with
      | some r => (s.trap ag .stallShort (BitVec.ofNat 32 (regCode r)) 0, none)
      | none =>
        let (vs, s1) := s.operands ag s.issue.now o.srcs
        match firstBadTag o.srcs vs with
        | some info => (s1.trap ag .formatTag info 0, none)
        | none => (s1, some vs)

/-- One agent executes one instruction (R53): the checks, then the instruction's own part on the values its operands yield. -/
def State.runAgent (o : Op) (fixed7 : State → Agent → Bool) (body : State → Agent → List VReg → State) (s : State)
    (ag : Agent) : State :=
  match s.prepare o fixed7 ag with
  | (s, some vs) => body s ag vs
  | (s, none) => s

/-- v-register reads of an instruction (R159): one for each operand, a register that two operands name counted twice (log 128). -/
def Op.grants (o : Op) : Nat := (o.srcs.filter fun x => match x.reg with
  | .v _ => true
  | _ => false).length

/-- The agents of the step execute the instruction one by one, each with its own state (R88, R146). `opOf` gives each agent's
operands where a source's tag decides what is read (R130). -/
def State.runGroupWith (s : State) (need : Nat) (opOf : State → Agent → Op) (fixed7 : State → Agent → Bool)
    (body : State → Agent → List VReg → State) : State :=
  let s := s.collect need
  s.issue.agents.foldl (fun s ag => State.runAgent (opOf s ag) fixed7 body s ag) s

/-- The agents of the step execute the instruction one by one. -/
def State.runGroup (s : State) (o : Op) (fixed7 : State → Agent → Bool) (body : State → Agent → List VReg → State) : State :=
  s.runGroupWith o.grants (fun _ _ => o) fixed7 body

/-- No reason 7 from fixed state. -/
def noFixed : State → Agent → Bool := fun _ _ => false

/-- The checks for every agent of the step, and the agents that execute, each with its operands' values: for instructions that
act across the braid (R149, R152). -/
def State.gather (s : State) (o : Op) : State × List (Agent × List VReg) :=
  let s := s.collect o.grants
  s.issue.agents.foldl (fun (p : State × List (Agent × List VReg)) ag =>
    match p.1.prepare o noFixed ag with
    | (s, some vs) => (s, p.2 ++ [(ag, vs)])
    | (s, none) => (s, p.2)) (s, [])

/-- The latencies of R43. -/
def latA : Nat := 2
def latM : Nat := 4
def latF : Nat := 5
def latW : Nat := 6

/-- An instruction that writes results of fixed latency computed from its operands alone. -/
def State.runFixed (s : State) (o : Op) (lat : Nat) (f : List VReg → List Write) : State :=
  s.runGroup o noFixed fun s ag vs => s.retire ag o.n lat (f vs)

/-- Members of one braid that have executed an instruction and now stand at different PCs are filed, each member of the braid
at its own PC (R142). -/
def State.diverge (s : State) : State :=
  match s.issue.agents.filterMap (fun ag => match ag with
      | .thread bid tid =>
        if ((s.core s.issue.core).braidOf bid tid).isEmpty then none else some (bid, tid)
      | .bobbin .. => none) with
  | [] => s
  | (bid, tid) :: rest =>
    let pcOf := fun p : Nat × Nat => (s.ctx (.thread p.1 p.2)).pc
    if rest.all fun p => pcOf p == pcOf (bid, tid) then s
    else (((s.core s.issue.core).braidOf bid tid).foldl (fun s t => s.file bid t) s)

/-- A hint: no check, no wait; its stall count is honoured (R55). -/
def State.runHint (s : State) (n : BitVec 3) (body : State → Agent → State) : State :=
  let s := s.collect 0
  s.issue.agents.foldl (fun s ag => (body s ag).advance ag n) s

end Sys2Proof.Machine
end

