-- ==== Sys2Proof/Machine/Translate.lean ====
section
/-! DEFINITION. Translation: page-table entries, the walk, TLB entries, the accessed and dirty bits (R162, R295 to R304,
R320), and the stores of a block that only its own agents see (R273). -/

namespace Sys2Proof.Machine

/-- Bits [63:57] all equal bit 56 (R162). -/
def canonical (va : Nat) : Bool := va / 2 ^ 56 % 256 == 0 || va / 2 ^ 56 % 256 == 255

/-- What an access needs of a leaf (R299). -/
inductive AccKind where
  | read | write | both | execute
  deriving DecidableEq, Repr

/-- The ACCESS code of R313. -/
def AccKind.code : AccKind → Nat
  | .read => 0 | .write => 1 | .execute => 2 | .both => 3

/-- An access kind of R313's code. -/
def accKindOf (n : Nat) : AccKind :=
  match n with
  | 0 => .read | 1 => .write | 2 => .execute | _ => .both

def AccKind.reads : AccKind → Bool
  | .write => false
  | _ => true

def AccKind.writes : AccKind → Bool
  | .write => true
  | .both => true
  | _ => false

/-- What an agent's accesses are translated in: its core's TLBs, its context's ROOT and ASID, its privilege; and its block. -/
structure Space where
  core : Nat
  bid : Nat
  asid : BitVec 16
  root : Nat
  ctxid : Nat
  priv : Bool
  deriving DecidableEq, Repr

/-- The space of a block's accesses under a privilege. -/
def Block.space (b : Block) (priv : Bool) : Space :=
  { core := b.core, bid := b.bid, asid := b.regs.asid.extractLsb' 0 16, root := bitsOf b.regs.ptroot.toNat 12 50 * 4096,
    ctxid := b.regs.ctxid.toNat, priv := priv }

/-- The space of an agent's accesses. -/
def State.spaceOf (s : State) (ag : Agent) : Space :=
  match s.blockOf ag with
  | some b => b.space (s.privOf ag)
  | none => { core := 0, bid := 0, asid := 0, root := 0, ctxid := 0, priv := false }

/-- FRAME of an entry (R297). -/
def pteFrame (e : DWord) : Nat := bitsOf e.toNat 12 50 * 4096

/-- Bytes of a page at a level (R296). -/
def pageBytes (level : Nat) : Nat := 2 ^ (12 + 9 * level)

/-- How a walk or a translation ends (R298). -/
inductive XRes where
  | leaf (e : TlbEntry)
  /-- XKIND of R313, the level, and the entry read there. -/
  | fault (xkind level : Nat) (entry : DWord)
  | hole (level : Nat)
  /-- The walk met a poisoned granule: the context stops (R405). -/
  | poison
  /-- A frozen frame or a clock change holds the walk or its AD back (R325, R398). -/
  | waits
  deriving DecidableEq, Repr

def xNotValid : Nat := 0
def xPerm : Nat := 1
def xBadEntry : Nat := 2

/-- The address lies in the DRAM map of this wafer, holes included (R163). -/
def State.inDram (s : State) (pa : Nat) : Bool := pa / 2 ^ 52 == s.wafer.id && decide (pa % 2 ^ 52 / 2 ^ 45 < 84)

/-- A leaf permits an access (R299). -/
def pteAllows (e : DWord) (kind : AccKind) (priv : Bool) : Bool :=
  (priv || !e.getLsbD 9) &&
  match kind with
  | .read => e.getLsbD 3
  | .write => e.getLsbD 4
  | .both => e.getLsbD 3 && e.getLsbD 4
  | .execute => e.getLsbD 5

/-- What a host window must permit for an access (R385): an atomic is refused there whatever it permits (R284). -/
def AccKind.windowRights : AccKind → Bool × Bool
  | .both => (false, false)
  | k => (k.reads, k.writes)

/-- Is the whole frame range of a leaf storage, each replica's included (R165, R320)? -/
def State.leafStored (s : State) (ctxid : Nat) (kind : AccKind) (e : DWord) (level : Nat) : Bool :=
  if e.getLsbD 11 then (List.range 84).all fun d => s.rangeDram (replicaAt (pteFrame e) d) (pageBytes level)
  else s.rangeStored ctxid kind.windowRights.1 kind.windowRights.2 (pteFrame e) (pageBytes level)

/-- An entry's own checks, in the order of R298, before permission: its XKIND fault if any. -/
def State.pteFault (s : State) (e : DWord) (level : Nat) : Option Nat :=
  let leaf := e.getLsbD 8
  if !e.getLsbD 0 then some xNotValid
  else if e.extractLsb' 62 2 ≠ 0 ∨ e.extractLsb' 1 2 ≠ 0 then some xBadEntry
  else if leaf ∧ level ≥ 3 then some xBadEntry
  else if !leaf ∧ level = 0 then some xBadEntry
  else if !leaf ∧ e.extractLsb' 3 9 ≠ 0 then some xBadEntry
  else if leaf ∧ level = 1 ∧ e.extractLsb' 12 9 ≠ 0 then some xBadEntry
  else if leaf ∧ level = 2 ∧ e.extractLsb' 12 18 ≠ 0 then some xBadEntry
  else if !leaf ∧ !s.rangeDram (pteFrame e) 4096 then some xBadEntry
  else if leaf ∧ e.getLsbD 11 ∧ !s.inDram (pteFrame e) then some xBadEntry
  else none

/-- Walk from the table `tbl` at a level down (R298): the entries read that a TLB may hold, and the outcome. -/
def State.walkFrom (s : State) (sp : Space) (kind : AccKind) (va : Nat) : Nat → Nat → List TlbEntry → List TlbEntry × XRes
  | level, tbl, acc =>
    let addr := tbl + 8 * bitsOf va (12 + 9 * level) 9
    if s.requestHeld sp.core (.phys addr) 8 then (acc, .waits)
    else if s.poisoned addr 8 then (acc, .poison)
    else
      let e := s.readPhys64 addr
      match s.pteFault e level with
      | some x => (acc, .fault x level e)
      | none =>
        let held : TlbEntry :=
          { asid := if e.getLsbD 8 && e.getLsbD 10 then none else some sp.asid, level := level,
            vpn := va % 2 ^ 57 / pageBytes level, entry := e, leaf := e.getLsbD 8, addr := addr }
        if e.getLsbD 8 then
          if !pteAllows e kind sp.priv then (acc, .fault xPerm level e)
          else if !s.leafStored sp.ctxid kind e level then (acc, .hole level)
          else (held :: acc, .leaf held)
        else match level with
          | 0 => (acc, .fault xBadEntry 0 e)
          | l + 1 => s.walkFrom sp kind va l (pteFrame e) (held :: acc)

/-- A whole walk: ROOT is checked as a non-leaf FRAME (R298). -/
def State.walk (s : State) (sp : Space) (kind : AccKind) (va : Nat) : List TlbEntry × XRes :=
  if !s.rangeDram sp.root 4096 then ([], .fault xBadEntry 4 0) else s.walkFrom sp kind va 4 sp.root []

/-- A held entry lies on the path to an address, for an ASID. -/
def TlbEntry.covers (e : TlbEntry) (asid : BitVec 16) (va : Nat) : Bool :=
  (e.asid == none || e.asid == some asid) && e.vpn == va % 2 ^ 57 / pageBytes e.level

/-- A TLB takes the valid entries a walk has read (R301). -/
def State.tlbFill (s : State) (core : Nat) (es : List TlbEntry) : State :=
  s.updCore core fun c => { c with tlb := es.foldl (fun t e => if t.contains e then t else e :: t) c.tlb }

/-- A and D, in place (R297). -/
def pteA : DWord := 0x40
def pteD : DWord := 0x80

/-- An access of this kind needs an AD on the leaf (R304). -/
def needsAD (e : DWord) (kind : AccKind) : Bool := !e.getLsbD 6 || (kind.writes && !e.getLsbD 7)

/-- The bits an AD sets. -/
def adBits (kind : AccKind) : DWord := if kind.writes then pteA ||| pteD else pteA

/-- The kiosk's step of an AD (R304): if the entry in memory still equals the value read in every other bit, A (and D) are
ORed in; whether it did. -/
def State.adUpdate (s : State) (e : TlbEntry) (kind : AccKind) : Bool × State :=
  let cur := s.readPhys64 e.addr
  if cur &&& ~~~(pteA ||| pteD) = e.entry &&& ~~~(pteA ||| pteD) then
    (true, (s.cacheStore none (.phys e.addr)).storePhys e.addr (leBytes 8 (cur ||| adBits kind).toNat))
  else (false, s)

/-- What keeps an AD from being made: something holds the entry back, or the entry's granule is poisoned (R405). -/
def State.adHeld (s : State) (sp : Space) (e : TlbEntry) : Option XRes :=
  if s.requestHeld sp.core (.phys e.addr) 8 then some .waits else if s.poisoned e.addr 8 then some .poison else none

/-- A context has met a poisoned granule in a walk or an AD (R405). -/
def State.walkEnds (s : State) (sp : Space) (r : XRes) : XRes × State :=
  if r = .poison then (r, s.payloadError (BitVec.ofNat 32 sp.ctxid)) else (r, s)

/-! ## Stores that only their own block sees (R273) -/

/-- The block of an agent's outstanding access. -/
def State.bidOf (s : State) : Agent → Nat
  | .thread bid _ => bid
  | .bobbin core b => (s.bobbin core b).bid

/-- The seen stores of a block that are not frozen, in the order in which the block saw them. -/
def State.seenStores (s : State) (bid : Nat) : List Access :=
  sortBy (fun a => a.seen.getD 0)
    (s.accs.filter fun a => a.seen.isSome && s.bidOf a.agent == bid && !s.locFrozen a.loc a.width)

/-- One seen store is performed for every agent. -/
def State.performSeen (s : State) (a : Access) : State :=
  match a.work with
  | .store d => { (s.cacheStore (some a.core) a.loc).writeLoc a.loc d with accs := s.accs.filter (fun x => x.id != a.id) }
  | _ => s

/-- Nothing but an order holds an access: no frozen frame (R325), no interface (R398), no CUT selvedge (R379); it has its
translation. -/
def State.passes (s : State) (a : Access) : Bool :=
  a.again == .no && !s.locFrozen a.loc a.width && !s.crossingHeld a.core a.id a.loc

/-- The seen stores over some bytes, in the order in which they were seen, that are globally performed before another store to these
bytes is performed (R274): those that `mine` names. -/
def State.seenOver (s : State) (mine : Access → Bool) (l : Loc) (n : Nat) : List Access :=
  sortBy (fun a => a.seen.getD 0) (s.accs.filter fun a => a.seen.isSome && mine a && s.locsMeet a.loc a.width l n)

/-- They are. -/
def State.settleSeen (s : State) (mine : Access → Bool) (l : Loc) (n : Nat) : State :=
  (s.seenOver mine l n).foldl State.performSeen s

/-- Nothing holds them back. -/
def State.seenFree (s : State) (mine : Access → Bool) (l : Loc) (n : Nat) : Bool := (s.seenOver mine l n).all s.passes

/-- Every seen store of a block is globally performed. -/
def State.drainSeen (s : State) (bid : Nat) : State := (s.seenStores bid).foldl State.performSeen s

/-! ## Translation of an access -/

/-- A walk from a held intermediate entry, or from the root, with its AD and its TLB fill (R303, R304). -/
def State.walkBy (s : State) (sp : Space) (kind : AccKind) (ad : Bool) (va : Nat) (start : Option TlbEntry) : XRes × State :=
  let (es, r) := match start with
    | some e => s.walkFrom sp kind va (e.level - 1) (pteFrame e.entry) []
    | none => s.walk sp kind va
  match r with
  | .poison => (s.tlbFill sp.core es).walkEnds sp .poison
  | .leaf e =>
    if ad && needsAD e.entry kind then
      let s := (s.adUpdate e kind).2
      let e' := { e with entry := e.entry ||| adBits kind }
      (.leaf e', s.tlbFill sp.core (es.map fun x => if x = e then e' else x))
    else (.leaf e, s.tlbFill sp.core es)
  | r => (r, s.tlbFill sp.core es)

/-- A new walk for an access (R301). A walk may begin at a held intermediate entry: a free choice. -/
def State.newWalk (s : State) (sp : Space) (kind : AccKind) (ad : Bool) (va : Nat) : XRes × State :=
  let s := s.drainSeen sp.bid
  let mids := (s.core sp.core).tlb.filter fun e => !e.leaf && e.covers sp.asid va
  let (k, s) := if mids.isEmpty then (mids.length, s) else s.choose (mids.length + 1)
  s.walkBy sp kind ad va mids[k]?

/-- The byte of an access through a held leaf names storage that permits it: no access is ever performed on a byte that names none
(R165), and a host window permits loads and stores apart (R385). -/
def State.heldStored (s : State) (sp : Space) (kind : AccKind) (e : TlbEntry) (va : Nat) : Bool :=
  e.entry.getLsbD 11 || (s.place sp.ctxid kind.windowRights.1 kind.windowRights.2 (pteFrame e.entry + va % pageBytes e.level)).isSome

/-- Translate by a held leaf, or by a new walk where none is used (R301). A held leaf that needs an AD makes it first, compared
with the held value; when it differs, the access is translated again by a new walk (R304). -/
def State.lookupBy (s : State) (sp : Space) (kind : AccKind) (ad : Bool) (va : Nat) : Option TlbEntry → XRes × State
  | some e =>
    if !s.heldStored sp kind e va then (.hole e.level, s)
    else if ad && needsAD e.entry kind then
      match s.adHeld sp e with
      | some r => s.walkEnds sp r
      | none => match s.adUpdate e kind with
        | (true, s) =>
          let e' := { e with entry := e.entry ||| adBits kind }
          (.leaf e', s.updCore sp.core fun c => { c with tlb := c.tlb.map fun x => if x = e then e' else x })
        | (false, s) => s.newWalk sp kind ad va
    else (.leaf e, s)
  | none => s.newWalk sp kind ad va

/-- Translate for an access (R301): held leaves that do not permit it are discarded; by a free choice one of the others is
used, or a new walk is made. -/
def State.lookup (s : State) (sp : Space) (kind : AccKind) (ad : Bool) (va : Nat) : XRes × State :=
  let mine := fun e : TlbEntry => e.leaf && e.covers sp.asid va
  let s := s.updCore sp.core fun c =>
    { c with tlb := c.tlb.filter (fun e => !mine e || pteAllows e.entry kind sp.priv) }
  let held := (s.core sp.core).tlb.filter mine
  let (k, s) := if held.isEmpty then (held.length, s) else s.choose (held.length + 1)
  s.lookupBy sp kind ad va held[k]?

/-- The translation of an access. One to a wafer that no edge link leads to any more is a payload error of its context (R381). -/
def State.translate (s : State) (sp : Space) (kind : AccKind) (ad : Bool) (va : Nat) : XRes × State :=
  match s.lookup sp kind ad va with
  | (.leaf e, s) =>
    if s.routeLost sp.ctxid (pteFrame e.entry / 2 ^ 52) then (.poison, s.payloadError (BitVec.ofNat 32 sp.ctxid)) else (.leaf e, s)
  | r => r

/-- The number of the front end's own TLB among the TLBs (R347). -/
def frontEnd : Nat := 65536

/-- The location a leaf gives an address (R296, R321): a replicated page is read in the core's own domain, by the front end in the
page's own (log 69). -/
def TlbEntry.loc (e : TlbEntry) (core va : Nat) : Loc :=
  let pa := pteFrame e.entry + va % pageBytes e.level
  if e.entry.getLsbD 11 then .replica pa (if core < frontEnd then domOf core else bitsOf pa 45 7) else .phys pa

def Home.isMmio : Home → Bool
  | .mmio | .outsideMmio => true
  | _ => false
def Home.isOutside : Home → Bool
  | .outside | .outsideMmio => true
  | _ => false

/-- What a physical address is, for ordering and for atomics. -/
def State.homeOf (s : State) (ctxid : Nat) (l : Loc) : Home :=
  match l with
  | .phys pa => match s.place ctxid false false pa with
    | some (.mmio ..) => .mmio
    | some (.window _) => .outside
    | some (.remote _) => .outside
    | some (.remoteMmio _) => .outsideMmio
    | _ => .wafer
  | _ => .wafer

end Sys2Proof.Machine
end

