-- ==== Sys2Proof/Machine/Phaser.lean ====
section
/-! DEFINITION. The phaser object: its fields in a scratchpad granule, tokens, the check that completes a phase, the
registered counts of posted commands (R252 to R257, R266). -/

namespace Sys2Proof.Machine

/-- A phaser's fields (R253). -/
structure Phaser where
  land : Nat
  expb : Nat
  phase : Nat
  drop : Nat
  nsig : Nat
  narr : Nat
  nwait : Nat
  wpri : Nat
  gen : Nat
  nout : Nat
  deriving DecidableEq, Repr

/-- The fields of a granule's 256 bits (R253). -/
def Phaser.ofNat (x : Nat) : Phaser :=
  { land := bitsOf x 224 32, expb := bitsOf x 192 32, phase := bitsOf x 160 32, drop := bitsOf x 128 32,
    nsig := bitsOf x 110 18, narr := bitsOf x 92 18, nwait := bitsOf x 74 18, wpri := bitsOf x 66 8,
    gen := bitsOf x 58 8, nout := bitsOf x 42 16 }

/-- The granule's bits (R253). -/
def Phaser.toNat (p : Phaser) : Nat :=
  p.land % 2 ^ 32 * 2 ^ 224 + p.expb % 2 ^ 32 * 2 ^ 192 + p.phase % 2 ^ 32 * 2 ^ 160 + p.drop % 2 ^ 32 * 2 ^ 128 +
  p.nsig % 2 ^ 18 * 2 ^ 110 + p.narr % 2 ^ 18 * 2 ^ 92 + p.nwait % 2 ^ 18 * 2 ^ 74 + p.wpri % 2 ^ 8 * 2 ^ 66 +
  p.gen % 2 ^ 8 * 2 ^ 58 + p.nout % 2 ^ 16 * 2 ^ 42

/-- A token from its fields (R254). -/
def tokenOf (gen : Nat) (w : Bool) (ph : Nat) : Word :=
  BitVec.ofNat 32 (gen % 256 * 2 ^ 24 + (if w then 2 ^ 23 else 0) + ph % 2 ^ 23)

def tokGen (t : Word) : Nat := (t.extractLsb' 24 8).toNat
def tokW (t : Word) : Bool := t.getLsbD 23
def tokPh (t : Word) : Nat := (t.extractLsb' 0 23).toNat

/-- d of R254: how far the token's phase lies ahead of the phaser's. -/
def tokDist (t : Word) (phase : Nat) : Nat := (tokPh t + 2 ^ 23 - phase % 2 ^ 23) % 2 ^ 23

def isCurrent (t : Word) (phase : Nat) : Bool := tokDist t phase == 0
def isAhead (t : Word) (phase : Nat) : Bool := decide (1 ≤ tokDist t phase) && decide (tokDist t phase ≤ 2 ^ 22 - 1)
def isBehind (t : Word) (phase : Nat) : Bool := !isCurrent t phase && !isAhead t phase

/-- DROP stops at its greatest value (R253). -/
def Phaser.dropped (p : Phaser) : Phaser := { p with drop := min (p.drop + 1) (2 ^ 32 - 1) }

/-- A phase may complete (R256). -/
def Phaser.ready (p : Phaser) : Bool :=
  (decide (p.nsig > 0) || decide (p.expb > 0)) && p.narr == p.nsig && decide (p.land ≥ p.expb)

/-- The completion of a phase, with the priorities still posted (R256). -/
def Phaser.complete (p : Phaser) (wpri : Nat) : Phaser :=
  { p with land := p.land - p.expb, expb := 0, narr := 0, phase := (p.phase + 1) % 2 ^ 32, wpri := wpri }

/-- The absolute scratchpad offset of a window offset of a block. -/
def Block.scr (b : Block) (off : Nat) : Nat := b.regs.scratchBase.toNat + off

def State.phaser (s : State) (core abs : Nat) : Phaser := Phaser.ofNat (leNat (s.readScr core abs 32))
def State.setPhaser (s : State) (core abs : Nat) (p : Phaser) : State := s.writeScr core abs (leBytes 32 p.toNat)

/-- The priorities lowest-numbered first, as bits. -/
def prioBits (ps : List Nat) : Nat := (List.range 8).foldl (fun m p => if ps.contains p then m + 2 ^ p else m) 0

/-- A wait on this phaser that nothing has woken yet: its token. -/
def Wait.tokenOn (w : Wait) (core abs : Nat) : Option Word :=
  match w with
  | .phwait c o t _ _ _ .waiting => if c = core ∧ o = abs then some t else none
  | _ => none

/-- The token with which a thread waits on a phaser. -/
def Thread.tokenOn (t : Thread) (core abs : Nat) : Option Word :=
  match t.status with
  | .blocked w => w.tokenOn core abs
  | _ => none

/-- The token with which a bobbin waits on a phaser. -/
def Bobbin.tokenOn (x : Bobbin) (core abs : Nat) : Option Word := x.wait.bind fun w => w.tokenOn core abs

/-- The threads and bobbins that are blocked on a phaser, each with its token and its block's effective priority. -/
def State.waiters (s : State) (core abs : Nat) : List (Agent × Word × Nat) :=
  (s.blocks.flatMap fun b => ((List.range b.threads.length).zip b.threads).filterMap fun p =>
    (p.2.tokenOn core abs).map fun t => (.thread b.bid p.1, t, b.eff)) ++
  (s.cores.flatMap fun c => ((List.range 4).zip c.2.bobbins.toList).filterMap fun p =>
    (p.2.tokenOn core abs).map fun t => (.bobbin c.1 p.1, t, (((s.block? p.2.bid).map (·.eff)).getD 7)))

/-- WPRI: the priorities posted by the participants that are blocked on a phaser and stay so in phase `phase` (R253, R256). -/
def State.postedPriorities (s : State) (core abs phase : Nat) : Nat :=
  prioBits (((s.waiters core abs).filter fun w => isAhead w.2.1 phase).map fun w => w.2.2)

/-- What has come of a wait. -/
def Wait.setWake (w : Wait) (k : Wake) : Wait :=
  match w with
  | .phwait c o t d a x _ => .phwait c o t d a x k
  | w => w

/-- An agent's wait is over; it goes on with PHWAIT_COMPLETE. -/
def State.wakeWait (s : State) (ag : Agent) (k : Wake) : State :=
  match ag with
  | .thread bid tid => s.updThread bid tid fun t => { t with status := match t.status with
      | .blocked w => .blocked (w.setWake k)
      | x => x }
  | .bobbin core b => s.updBobbin core b fun x => { x with wait := x.wait.map fun w => w.setWake k }

/-- A phase has completed: every wait whose token is no longer ahead is woken (R256); a waiter's new token is formed in the same
phaser operation (R264, log 136). -/
def State.wakeWaits (s : State) (core abs : Nat) (p : Phaser) : State :=
  ((s.waiters core abs).filter fun w => !isAhead w.2.1 p.phase).foldl
    (fun (s : State) w => s.wakeWait w.1 (.woken (tokenOf p.gen true (p.phase + 1)))) s

/-- A PHINIT wakes every wait on its granule into PHASER_STALE (R259). -/
def State.staleWaits (s : State) (core abs : Nat) : State :=
  (s.waiters core abs).foldl (fun (s : State) w => s.wakeWait w.1 .stale) s

/-- Check() of R256 after a change of the phaser. -/
def State.checkPhaser (s : State) (core abs : Nat) (p : Phaser) : State :=
  if p.ready then
    let p := p.complete (s.postedPriorities core abs ((p.phase + 1) % 2 ^ 32))
    (s.setPhaser core abs p).wakeWaits core abs p
  else s.setPhaser core abs p

/-- Where a phaser of a block lies now: its core and absolute offset (the block is resident). -/
def State.phaserOf (s : State) (bid off : Nat) : Option (Nat × Nat) :=
  match s.block? bid with
  | some b => some (b.core, b.scr off)
  | none => none

/-- The phaser of a block at a window offset, where the granule carries the phaser bit. -/
def State.phaserOf? (s : State) (bid off : Nat) : Option (Nat × Nat) :=
  (s.phaserOf bid off).filter fun p => s.phaserBit p.1 (p.2 / 32)

/-- NOUT changes at the phasers of a counted command (R266): no other granule is written. -/
def State.changeOut (s : State) (f : Nat → Nat) (phs : List (Nat × Nat × Nat)) : State :=
  phs.foldl (fun (s : State) x => match s.phaserOf? x.1 x.2.1 with
    | some (core, abs) =>
      let p := s.phaser core abs
      s.setPhaser core abs { p with nout := f p.nout }
    | none => s) s

/-- A counted command ends: NOUT falls by 1 at each of its phasers (R266). -/
def State.uncount (s : State) (phs : List (Nat × Nat × Nat)) : State := s.changeOut (· - 1) phs

/-- A counted command is posted: NOUT rises by 1 at each of its phasers (R266). -/
def State.countOut (s : State) (phs : List (Nat × Nat × Nat)) : State := s.changeOut (· + 1) phs

end Sys2Proof.Machine
end

