-- ==== Sys2Proof/Machine/Fsq.lean ====
section
/-! DEFINITION. The stop of an engine queue (R206, R232), the fault service queue and its responses (R312 to R316, R346), and
the registers of the domain MMIO window (R334). -/

namespace Sys2Proof.Machine

/-! ## Engine queues -/

def Bobbin.queue (x : Bobbin) (matrix : Bool) : List Command := if matrix then x.matrixQ else x.copyQ
def Bobbin.setQueue (x : Bobbin) (matrix : Bool) (q : List Command) : Bobbin :=
  if matrix then { x with matrixQ := q } else { x with copyQ := q }

/-- A queue with the command of number `id` changed. -/
def updCommand (id : Nat) (f : Command → Command) (q : List Command) : List Command :=
  q.map fun c => if c.id = id then f c else c

def State.updCommand (s : State) (core b : Nat) (matrix : Bool) (id : Nat) (f : Command → Command) : State :=
  s.updBobbin core b fun x => x.setQueue matrix (Machine.updCommand id f (x.queue matrix))

/-- The phasers of commands that end lose their counts (R266). -/
def State.uncountAll (s : State) (q : List Command) : State := q.foldl (fun (s : State) c => s.uncount c.phs) s

/-- The tile that a matrix command of the queue names, 0 where it names none. -/
def tileIn (q : List Command) (id : Nat) : Nat :=
  match q.find? fun c => c.id == id with
  | some c => c.tile
  | none => 0

/-- The target that cpy.m writes at a point of its progress, counted from its first rank: in an order of its own (R199). -/
def Command.target (c : Command) (progress : Nat) : Nat := c.index.getD (progress / c.ctl[0].toNat) 0

/-- Which of a command's phasers the bytes at a point of its progress credit (R199). -/
def Command.creditIdx (c : Command) (progress : Nat) : Nat :=
  match c.op with
  | .cpyM => if c.phs.length > 1 then c.target progress else 0
  | _ => 0

/-- Landed bytes of a command that are not yet credited become a credit on its way to one of its phasers (R202). -/
def State.creditLanded (s : State) (core b : Nat) (matrix : Bool) (c : Command) (k : Nat) : State :=
  if c.landed = 0 then s
  else match c.phs[k]? with
    | none => s
    | some (bid, off, gen) =>
      let cr : Credit := { id := s.nextId, cmd := some c.id, sender := core, held := none, bid := bid, off := off, bytes := c.landed, gen := gen }
      ({ s with nextId := s.nextId + 1, credits := s.credits ++ [cr] } : State).updCommand core b matrix c.id fun c => { c with landed := 0 }

/-- The cause a bobbin stops with when a command of its queue has (R206, R232). -/
def stopCauseOf (matrix : Bool) : Cause := if matrix then .matrixFault else .copyFault

/-- A bobbin whose queue has lost the command of this number and every later one: it stops at its next instruction boundary; one
that is already finishing records the cause with its URET. -/
def Bobbin.cut (x : Bobbin) (matrix : Bool) (id : Nat) : Bobbin :=
  let x := x.setQueue matrix ((x.queue matrix).takeWhile fun c => c.id != id)
  let cause := (stopCauseOf matrix).code
  if x.status = .running then { x with stopCause := some cause } else if x.cause = 0 then { x with cause := cause } else x

/-- The entry of a stopped command's queue (R313): the inner cause, for a matrix command its tile, and the address or name. -/
def queueFault (blk : Option Block) (core b : Nat) (matrix : Bool) (inner tile : Nat) (va : DWord) : FsqEntry :=
  { va := va
    asid := (match blk with
      | some k => k.regs.asid
      | none => 0)
    core := core
    agent := if matrix then .matrixQueue core b else .copyQueue core b
    cause := (stopCauseOf matrix).code, xkind := 15, access := 0, park := false
    block := (match blk with
      | some k => k.regs.blockid
      | none => 0)
    info := BitVec.ofNat 32 (inner + if matrix then tile * 256 else 0), word := 0 }

/-- A command stops (R206, R232): the fault is reported with its inner cause; it and every later command of its queue are discarded,
and the bobbin stops. A copy command's bytes that have landed are credited, none of the rest are (R202, R206). -/
def State.stopQueue (s : State) (core b : Nat) (matrix : Bool) (id : Nat) (inner : Nat) (va : DWord) : State :=
  let x := s.bobbin core b
  let q := x.queue matrix
  let gone := q.dropWhile fun c => c.id != id
  let s := s.fsqAdd (domOf core) (queueFault (s.block? x.bid) core b matrix inner (tileIn q id) va)
  let s := if matrix then s else gone.foldl (fun (s : State) c => s.creditLanded core b matrix c (c.creditIdx c.progress)) s
  (s.uncountAll gone).updBobbin core b fun x => x.cut matrix id

/-! ## Responses to faults (R315) -/

/-- The numbers of the accesses that give a pending group its value. -/
def Pend.accessIds (p : Pend) : List Nat :=
  match p.work with
  | .access parts _ => parts.map (·.1)
  | _ => []

/-- The returned accesses of an agent whose fault is resolved are translated again (R315, R325). -/
def State.retryReturned (s : State) (ag : Agent) : State :=
  { s with accs := s.accs.map fun a => if a.agent = ag ∧ a.again = .faulted then { a with again := .due } else a }

/-- Pending groups end without a write. A loan of one of their registers by its own thread waits for an earlier write that is still
pending, if there is one; else it takes what the register holds, which is the last write before it (R117). -/
def endPends (held : Reg → VReg) (ag : Agent) (gone : Pend → Bool) (ps : List Pend) : List Pend :=
  (ps.filter fun p => !gone p).map fun q =>
    let due := (ps.filter fun p => gone p && decide (p.id < q.id)).flatMap (·.regs)
    q.feed ag ((due.filter fun r => !ps.any fun p => !gone p && decide (p.id < q.id) && p.regs.contains r).map fun r => (r, held r))

/-- The returned accesses of an agent whose fault cannot be resolved are ended, and what they would have loaded is not (R315, R325).
-/
def State.endReturned (s : State) (ag : Agent) : State :=
  let gone := s.accs.filter fun a => a.agent == ag && a.again == .faulted
  ({ s with accs := s.accs.filter fun a => !gone.contains a } : State).updCtx
    (fun c => { c with pend := endPends (s.readReg ag) ag (fun p => p.accessIds.any fun i => gone.any fun a => a.id == i) c.pend }) ag

/-- The parked agent resumes: it makes its access again with a new translation. -/
def State.resume (s : State) (a : FaultAgent) : State :=
  match a with
  | .thread bid tid =>
    let s := s.retryReturned (.thread bid tid)
    match s.thread? bid tid, s.block? bid with
    | some t, some b => if t.status = .parked ∧ !b.halted then s.wake bid tid else s
    | _, _ => s
  | .bobbin core b => (s.retryReturned (.bobbin core b)).updBobbin core b fun x => { x with parked := false }
  | .copyQueue core b =>
    s.updBobbin core b fun x => { x with copyQ := x.copyQ.map (fun c => { c with parked := false }) }
  | .matrixQueue core b =>
    s.updBobbin core b fun x => { x with matrixQ := x.matrixQ.map (fun c => { c with parked := false }) }
  | .region bid r line => s.updBlock bid fun b =>
      { b with regions := vecUpd b.regions r (fun g =>
          { g with lines := g.lines.map (fun l => if l.idx = line then { l with faulted := false } else l) }) }
  | .channel .. => s

/-- The parked agent's access is ended with XLATE_FAULT (R315); a region's line loses its written bytes (R346). -/
def State.killAgent (s : State) (e : FsqEntry) : State :=
  match e.agent with
  | .thread bid tid =>
    let s := s.endReturned (.thread bid tid)
    match s.thread? bid tid with
    | some t =>
      if t.status = .parked then
        s.trapThread bid tid .xlateFault
          (BitVec.ofNat 32 (e.xkind % 16 + e.access % 4 * 16 + bitsOf e.info.toNat 0 3 * 64)) e.va t.ctx.pc e.word 0
      else s
    | none => s
  | .bobbin core b => (s.endReturned (.bobbin core b)).updBobbin core b fun x =>
      if x.parked then x.trapped Cause.xlateFault.code x.ctx.pc e.word else x
  | .copyQueue core b => match (s.bobbin core b).copyQ.find? fun c => c.parked with
    | some c => s.stopQueue core b false c.id Cause.xlateFault.code e.va
    | none => s
  | .matrixQueue core b => match (s.bobbin core b).matrixQ.find? fun c => c.parked with
    | some c => s.stopQueue core b true c.id Cause.xlateFault.code e.va
    | none => s
  | .region bid r line => s.updBlock bid fun b =>
      { b with regions := vecUpd b.regions r (fun g =>
          { g with lines := g.lines.filter (fun l => l.idx != line), lost := true }) }
  | .channel .. => s

/-- A write of fsq.resp (R314, R315): an entry that is not parked, withdrawn or unknown, and actions 2 and 3, are ignored. -/
def State.fsqRespond (s : State) (d seq action : Nat) : State :=
  match (s.dom d).fsqOpen.find? fun o => o.seq == seq && !o.withdrawn with
  | some o =>
    if action > 1 then s
    else
      let s := s.updDom d fun x => { x with fsqOpen := x.fsqOpen.filter (fun y => y.seq != seq) }
      if action = 0 then s.resume o.fault.agent else s.killAgent o.fault
  | none => s

/-! ## The ring (R313, R314) -/

/-- KIND and AGENT of R313. -/
def FaultAgent.code : FaultAgent → Nat × Nat
  | .thread _ tid => (0, tid)
  | .bobbin _ b => (1, b)
  | .copyQueue _ b => (2, b)
  | .matrixQueue _ b => (3, b)
  | .region _ r _ => (4, r)
  | .channel _ k => (5, k)

/-- A fault service queue entry's 256 bits (R313). -/
def FsqEntry.bits (e : FsqEntry) (seq : Nat) (withdrawn : Bool) : Nat :=
  let (kind, agent) := e.agent.code
  e.va.toNat * 2 ^ 192 + bitsOf e.asid.toNat 0 16 * 2 ^ 176 + e.core % 2 ^ 16 * 2 ^ 160 + kind * 2 ^ 156 +
  agent % 2 ^ 12 * 2 ^ 144 + e.cause % 256 * 2 ^ 136 + e.xkind % 16 * 2 ^ 132 + e.access % 4 * 2 ^ 130 +
  (if e.park then 2 ^ 129 else 0) + (if withdrawn then 2 ^ 128 else 0) + seq % 2 ^ 32 * 2 ^ 96 +
  e.block.toNat * 2 ^ 64 + e.info.toNat * 2 ^ 32

/-- The address of a slot of the ring. -/
def DomState.fsqSlot (x : DomState) (i : Nat) : Nat := x.fsqBase.toNat + 32 * i

/-- The device writes the waiting entry at place `k`, when a slot is free, then advances fsq.tail and notifies the host. -/
def State.fsqWrite (s : State) (d k : Nat) : State :=
  let x := s.dom d
  match x.fsqWait[k]? with
  | some e =>
    if (x.fsqTail + 1) % 4096 = x.fsqHead then s
    else
      let s := s.deviceStore (x.fsqSlot x.fsqTail) (leBytes 32 (e.bits x.fsqSeq false))
      let o : FsqOpen := { seq := x.fsqSeq, slot := x.fsqTail, fault := e, withdrawn := false }
      (s.updDom d fun y =>
        { y with
          fsqTail := (y.fsqTail + 1) % 4096
          fsqSeq := (y.fsqSeq + 1) % 2 ^ 32
          fsqWait := y.fsqWait.eraseIdx k
          fsqOpen := if e.park then y.fsqOpen ++ [o] else y.fsqOpen }).tell (.fsq d x.fsqSeq)
  | none => s

/-- The entry of an agent that a save meets parked is withdrawn: WDRN is set in it, or it is never written (R316). -/
def State.fsqWithdraw (s : State) (d : Nat) (mine : FaultAgent → Bool) : State :=
  let x := s.dom d
  let s := (x.fsqOpen.filter fun o => mine o.fault.agent && !o.withdrawn).foldl (fun (s : State) o =>
    s.deviceStore (x.fsqSlot o.slot) (leBytes 32 (o.fault.bits o.seq true))) s
  s.updDom d fun y =>
    { y with
      fsqOpen := y.fsqOpen.map (fun o => if mine o.fault.agent then { o with withdrawn := true } else o)
      fsqWait := y.fsqWait.filter (fun e => !(e.park && mine e.agent)) }

/-! ## The domain MMIO window (R334) -/

/-- Byte `i` of the window: the registers of R334; fsq.resp is write-only, and every other offset reads 0. -/
def DomState.mmioByte (x : DomState) (i : Nat) : Byte :=
  let at_ := fun (v lo : Nat) => BitVec.ofNat 8 (v / 2 ^ (8 * (i - lo)))
  if i < 0x8 then at_ x.fsqBase.toNat 0
  else if i < 0xC then at_ x.fsqTail 0x8
  else if i < 0x10 then at_ x.fsqHead 0xC
  else if i < 0x20 then 0
  else if i < 0x24 then at_ x.sways 0x20
  else if i < 0x28 then 0
  else if i < 0x30 then at_ x.cycles 0x28
  else 0

def State.mmioRead (s : State) (d off n : Nat) : List Byte := (List.range n).map fun i => (s.dom d).mmioByte (off + i)

/-- A write of `n` bytes (R334): an 8-byte register is written whole; read-only registers and other offsets ignore it. -/
def State.mmioWrite (s : State) (d off : Nat) (bs : List Byte) : State :=
  let v := leNat bs
  if off = 0 ∧ bs.length = 8 then s.updDom d fun x => { x with fsqBase := BitVec.ofNat 64 (v / 2 ^ 17 * 2 ^ 17) }
  else if off = 0xC ∧ bs.length = 4 then s.updDom d fun x => { x with fsqHead := v % 4096 }
  else if off = 0x8 ∧ bs.length = 8 then s.updDom d fun x => { x with fsqHead := v / 2 ^ 32 % 4096 }
  else if off = 0x10 ∧ bs.length = 8 then s.fsqRespond d (v / 2 ^ 32) (v % 4)
  else s

/-! ## The events -/

def execFaultQueueEntryWrite (d k : Nat) (s : State) : Host.Outcome State Fault Refusal := .next (s.fsqWrite d k)

def execFsqRespRetry (d seq : Nat) (s : State) : Host.Outcome State Fault Refusal := .next (s.fsqRespond d seq 0)

def execFsqRespKill (d seq : Nat) (s : State) : Host.Outcome State Fault Refusal := .next (s.fsqRespond d seq 1)

def execFsqHeadWrite (d index : Nat) (s : State) : Host.Outcome State Fault Refusal :=
  .next (s.mmioWrite d 0xC (leBytes 4 (index % 4096)))

/-- A write to a register without behaviour of its own, by any agent; offset and bytes as given. -/
def execMmioRegisterWrite (d off width value : Nat) (s : State) : Host.Outcome State Fault Refusal :=
  .next (s.mmioWrite d off (leBytes width value))

end Sys2Proof.Machine
end

