-- ==== Sys2Proof/Machine/Access.lean ====
section
/-! DEFINITION. Accesses: acceptance and its faults (R171, R172, R312), performing them in the order R270 to R275 allow, the
kiosk's step (R283, R285), and what acquires, releases and fences make complete (R118, R275, R276). -/

namespace Sys2Proof.Machine

/-! ## Faults -/

/-- The entry of an agent's translation fault is due (R312, R313); `word`: the instruction's. -/
def State.parkEntry (s : State) (ag : Agent) (kind : AccKind) (va : DWord) (xkind level : Nat) (word : Word) : State :=
  let core := s.coreOf ag
  let blk := s.blockOf ag
  s.fsqAdd (domOf core)
    { va := va
      asid := (match blk with
        | some k => k.regs.asid
        | none => 0)
      core := core
      agent := (match ag with
        | .thread bid tid => .thread bid tid
        | .bobbin c b => .bobbin c b)
      cause := Cause.xlateFault.code, xkind := xkind, access := kind.code, park := true
      block := (match blk with
        | some k => k.regs.blockid
        | none => 0)
      info := BitVec.ofNat 32 level, word := word }

/-- The agent stops until its fault is resolved. -/
def State.parkAgent (s : State) (ag : Agent) : State :=
  match ag with
  | .thread bid tid => s.stopThread bid tid .parked
  | .bobbin c b => s.updBobbin c b fun x => { x with parked := true }

/-- An agent parks at its instruction on a translation fault, and an entry is due (R312, R313). -/
def State.park (s : State) (ag : Agent) (kind : AccKind) (va : DWord) (xkind level : Nat) : State :=
  (s.parkEntry ag kind va xkind level s.issue.word).parkAgent ag

/-- A global access up to its acceptance: R172 rows 1, 2, 5 and 6, and the width of an MMIO access. None: the agent has
trapped or parked, or its context has stopped. -/
def State.admitted (s : State) (ag : Agent) (kind : AccKind) (va : DWord) (w : Nat) : Option (Loc × Home × TlbEntry) × State :=
  if !canonical va.toNat then (none, s.trap ag .noncanonical 0 va)
  else if va.toNat % w ≠ 0 then (none, s.trap ag .misaligned 0 va)
  else
    let sp := s.spaceOf ag
    match s.translate sp kind true va.toNat with
    | (.fault x l _, s) => (none, s.park ag kind va x l)
    | (.hole _, s) => (none, s.trap ag .memHole 0 va)
    | (.poison, s) => (none, s)
    | (.waits, s) => (none, s)
    | (.leaf e, s) =>
      let loc := e.loc sp.core va.toNat
      let home := s.homeOf sp.ctxid loc
      if home.isMmio ∧ w ≠ 4 ∧ w ≠ 8 then (none, s.trap ag .misaligned 0 va) else (some (loc, home, e), s)

/-! ## The kiosk's step -/

/-- The sum of two F32 words (R283). -/
def atomAddF32 (a b : Nat) : Nat := fadd .f32 a b

/-- What an atomic writes over `old`: nothing for a failed compare (R284). -/
def AtomOp.apply (op : AtomOp) (w old b cmp : Nat) : Option Nat :=
  let m := 2 ^ (8 * w)
  let s32 := fun x : Nat => (BitVec.ofNat 32 x).toInt
  match op with
  | .addI32 => some ((old + b) % m)
  | .addI64 => some ((old + b) % m)
  | .minI32 => some (if s32 old ≤ s32 b then old else b)
  | .maxI32 => some (if s32 old ≤ s32 b then b else old)
  | .minN32 => some (min old b)
  | .maxN32 => some (max old b)
  | .maxN64 => some (max old b)
  | .andB => some (old &&& b)
  | .orB => some (old ||| b)
  | .xorB => some (old ^^^ b)
  | .xchg => some b
  | .cas => if old = cmp then some b else none
  | .addF32 => some (atomAddF32 old b)

/-! ## Performing an access -/

/-- The next bytes of a location. -/
def Loc.shift (l : Loc) (n : Nat) : Loc :=
  match l with
  | .phys pa => .phys (pa + n)
  | .replica pa d => .replica (pa + n) d
  | .scratch c o => .scratch c (o + n)

/-- Byte `i` of a location as the agents of a block see it: the last of the block's seen stores that covers it, else memory
(R273). -/
def State.blockByte (s : State) (seen : List Access) (l : Loc) (i : Nat) (mem : Byte) : Byte :=
  seen.foldl (fun b a => match a.work with
    | .store d =>
      match (List.range d.length).find? fun j => s.locsMeet (l.shift i) 1 (a.loc.shift j) 1 with
      | some j => d.getD j b
      | none => b
    | _ => b) mem

/-- The bytes a load of a block's agent returns (R273, R274). -/
def State.readFor (s : State) (bid : Nat) (l : Loc) (n : Nat) : List Byte :=
  let mem := s.readLoc l n
  match s.seenStores bid with
  | [] => mem
  | seen => ((List.range n).zip mem).map fun p => s.blockByte seen l p.1 p.2

/-- The register of a domain's MMIO window at a location (R166). -/
def State.mmioAt (s : State) (l : Loc) : Option (Nat × Nat) :=
  match l with
  | .phys pa => match s.place 0 false false pa with
    | some (.mmio d off) => some (d, off)
    | _ => none
  | _ => none

/-- A part of a pending group takes its bytes. -/
def Pend.deliver (p : Pend) (id : Nat) (bs : List Byte) : Pend :=
  match p.work with
  | .access parts form =>
    { p with work := .access (parts.map fun q => if q.1 = id then (q.1, some bs) else q) form }
  | _ => p

/-- An access has been performed: it is no longer outstanding, and its pending group has its bytes. -/
def State.finish (s : State) (a : Access) (bs : List Byte) : State :=
  let s : State := { s with accs := s.accs.filter (fun x => x.id != a.id) }
  s.updCtx (fun c => { c with pend := c.pend.map (fun p => p.deliver a.id bs) }) a.agent

/-- Loads that one frame made together bind at the same point (R96). -/
def State.mates (s : State) (a : Access) : List Access :=
  match a.group with
  | none => [a]
  | some g => s.accs.filter fun x => x.group == some g && x.loc == a.loc && x.width == a.width

def Access.isLoad (a : Access) : Bool := match a.work with
  | .load => true
  | _ => false
def Access.isStore (a : Access) : Bool := match a.work with
  | .store _ => true
  | _ => false
def Access.isAtomic (a : Access) : Bool := match a.work with
  | .atomic .. => true
  | _ => false

/-- A byte of a host window (R385). -/
def Loc.isWindow (l : Loc) : Bool :=
  match l with
  | .phys pa => pa / 2 ^ 52 == 1023
  | _ => false

/-! ## What a block sees before all others (R273, R275) -/

/-- R275 puts an access before a later access of its agent: to the same bytes, unless the agent's block sees the store and the
later one is a load; a load or an atomic before a store or an atomic. R166 keeps MMIO accesses in program order. -/
def State.precedes (s : State) (x y : Access) : Bool :=
  x.agent == y.agent && decide (x.id < y.id) &&
    ((s.locsMeet x.loc x.width y.loc y.width && !(x.seen.isSome && y.isLoad)) ||
     (!y.isLoad && !x.isStore && y.ordered && x.ordered) ||
     (x.home.isMmio && y.home.isMmio))

/-- The seen stores that are globally performed before a store or atomic is performed (R274): its block's earlier ones, and every
other block's. -/
def State.beforeStore (s : State) (a x : Access) : Bool :=
  x.id != a.id && (s.bidOf x.agent != s.bidOf a.agent || match a.seen with
    | some k => decide (x.seen.getD 0 < k)
    | none => true)

/-- Those that are before it is performed for its block. -/
def State.beforeShow (s : State) (a x : Access) : Bool := s.bidOf x.agent != s.bidOf a.agent

/-- A store is performed for its block (R273, R275): the block sees it from now on. -/
def State.showBlock (s : State) (a : Access) : State :=
  let s := s.settleSeen (s.beforeShow a) a.loc a.width
  { s with
    nextId := s.nextId + 1
    accs := s.accs.map (fun x => if x.id = a.id ∧ x.seen = none then { x with seen := some s.nextId } else x) }

/-- A store of the block may be performed for the block now: to wafer memory, when all that goes before it has been (R273). -/
def State.mayShow (s : State) (bid : Nat) (a : Access) : Bool :=
  s.bidOf a.agent == bid && a.isStore && a.seen.isNone && a.home == .wafer && s.seenFree (s.beforeShow a) a.loc a.width &&
    s.accs.all fun x => !s.precedes x a || x.seen.isSome

/-- Stores of a block to bytes that one of its agents reads: each may be performed for the block just before, by a free choice. -/
def State.showFor (s : State) (bid : Nat) (l : Loc) (n : Nat) : State :=
  ((sortBy (fun a : Access => a.id) s.accs).filter fun a => s.locsMeet a.loc a.width l n).foldl (fun (s : State) a =>
    if s.mayShow bid a then
      let (k, s) := s.choose 2
      if k = 1 then s.showBlock a else s
    else s) s

/-- How far the launch of an agent's grid lies back in State.past. -/
def State.sinceOf (s : State) (ag : Agent) : Nat :=
  match s.blockOf ag with
  | some b => ((s.grid? b.gridId).map (·.since)).getD s.past.length
  | none => s.past.length

/-- A view of bytes of a host window has come this far (R274). -/
def seeHost (view : List (Nat × Nat)) (keys : List Nat) (n : Nat) : List (Nat × Nat) :=
  (keys.map fun k => (k, n)) ++ view.filter fun p => !keys.contains p.1

/-- How far a view of bytes of a host window has come. -/
def hostFloor (view : List (Nat × Nat)) (keys : List Nat) : Nat :=
  (view.filter fun p => keys.contains p.1).foldl (fun m p => max m p.2) 0

/-- The bytes a load of a host window returns where the views of its agents have come this far, and how far they then have (R273):
by a free choice any store since the grid's launch that R274 allows (log 131), or the latest. -/
def State.hostBytes (s : State) (latest : Bool) (since : Nat) (view : List (Nat × Nat)) (l : Loc) (n : Nat) :
    List Byte × Nat × State :=
  let keys := s.locKeys l n
  let (v, s) := s.pick (0, []) (s.versions (if latest then s.past.length else max since (hostFloor view keys)) keys)
  (v.2, v.1, s.rdmaRead l n)

/-- A load of a host window that serves these agents at once (R96): each has then seen it (R274). After an acquire at sys it returns
the latest store (R273). -/
def State.hostLoad (s : State) (ags : List Agent) (latest : Bool) (l : Loc) (n : Nat) : List Byte × State :=
  let keys := s.locKeys l n
  let since := (ags.map s.sinceOf).foldl max 0
  let (bs, v, s) := s.hostBytes latest since (ags.flatMap fun ag => (s.ctx ag).hostSeen) l n
  (bs, ags.foldl (fun (s : State) ag => s.updCtx (fun c => { c with hostSeen := seeHost c.hostSeen keys v }) ag) s)

/-- The bytes an LDC returns: of each byte one of the values it has held since the grid's launch (R97, log 130). -/
def State.constBytes (s : State) (ag : Agent) (l : Loc) : Nat → List Byte × State
  | 0 => ([], s)
  | n + 1 =>
    let (bs, s) := s.constBytes ag l n
    let now := (s.readFor (s.bidOf ag) (l.shift n) 1).headD 0
    let held := (s.versions (s.sinceOf ag) (s.locKeys (l.shift n) 1)).map fun v => v.2.headD 0
    let (x, s) := s.pick now (now :: held.filter fun y => y != now).eraseDups
    (bs ++ [x], s)

/-- The bytes a load binds now, for all the agents that it serves; of another wafer's MMIO free ones (log 154). -/
def State.loadBytes (s : State) (a : Access) : List Byte × State :=
  match s.mmioAt a.loc with
  | some (d, off) => (s.mmioRead d off a.width, s)
  | none =>
    if a.home = .outsideMmio then
      let (x, s) := s.choose (2 ^ (8 * a.width))
      (leBytes a.width x, s)
    else if !a.ordered then (s.rdmaRead a.loc a.width).constBytes a.agent a.loc a.width
    else if a.loc.isWindow then s.hostLoad ((s.mates a).map (·.agent)) ((s.mates a).any (·.latest)) a.loc a.width
    else
      let s := s.showFor (s.bidOf a.agent) a.loc a.width
      (s.readFor (s.bidOf a.agent) a.loc a.width, s)

/-- The bytes that a relaxed read of an agent's, made at once, returns (R87, R204): a store of its block may be performed for the
block just before. -/
def State.relaxedBytes (s : State) (ag : Agent) (l : Loc) (n : Nat) : List Byte × State :=
  if l.isWindow then s.hostLoad [ag] (s.ctx ag).hostLatest l n
  else
    let s := s.showFor (s.bidOf ag) l n
    (s.readFor (s.bidOf ag) l n, s)

/-- Performing an access now: the seen stores to the same bytes that R274 puts before it go first; then a load binds its value, a
store writes, an atomic reads and writes in one step. A poisoned granule is not read: the context stops (R405). -/
def State.performNow (s : State) (a : Access) : State :=
  let bid := s.bidOf a.agent
  let s := if a.isLoad then s else s.settleSeen (s.beforeStore a) a.loc a.width
  let ctxid := match s.block? bid with
    | some b => b.regs.ctxid
    | none => 0
  match a.work with
  | .load =>
    if s.locPoisoned a.loc a.width then
      ({ s with accs := s.accs.filter (fun x => x.id != a.id) } : State).payloadError ctxid
    else
      let (bs, s) := s.loadBytes a
      (s.mates a).foldl (fun s m => s.finish m bs) s
  | .store d =>
    let s : State := { s with accs := s.accs.filter (fun x => x.id != a.id) }
    match s.mmioAt a.loc with
    | some (dm, off) => s.mmioWrite dm off d
    | none =>
      if a.home = .outsideMmio then s
      else
        let s := (s.cacheStore (some a.core) a.loc).storeAt a.loc d
        if a.loc.isWindow then
          let keys := s.locKeys a.loc a.width
          (s.updCtx (fun c => { c with hostSeen := seeHost c.hostSeen keys s.past.length }) a.agent)
        else s
  | .atomic op b cmp =>
    if s.locPoisoned a.loc a.width then
      ({ s with accs := s.accs.filter (fun x => x.id != a.id) } : State).payloadError ctxid
    else
      let old := s.readLoc a.loc a.width
      let s := match op.apply a.width (leNat old) b cmp with
        | some v => (s.cacheStore (some a.core) a.loc).writeLoc a.loc (leBytes a.width v)
        | none => s
      s.finish a old

/-! ## The order of performing (R275) -/

/-- Nothing outside the order of R275 holds the access, nor what R274 puts before it. -/
def State.unheld (s : State) (a : Access) : Bool :=
  s.passes a && (a.isLoad || s.seenFree (s.beforeStore a) a.loc a.width)

/-- An agent whose returned access has faulted parks, where it can go on at all (R312, R325). -/
def State.parkReturned (s : State) (a : Access) (kind : AccKind) (xkind level : Nat) : State :=
  let runs : Bool := match a.agent with
    | .thread bid tid => (s.thread? bid tid).any fun t => t.status == .runnable
    | .bobbin c b => (s.bobbin c b).status == .running
  let s := s.parkEntry a.agent kind (BitVec.ofNat 64 a.va) xkind level 0
  if runs then s.parkAgent a.agent else s

/-- A returned access is translated again (R325): through the leaf its agent's TLB or a new walk gives; a fault parks the agent, and
a hole ends the access with MEM_HOLE (log 144). -/
def State.returnAccess (s : State) (a : Access) : State :=
  let kind : AccKind := if a.isLoad then .read else if a.isStore then .write else .both
  let sp := s.spaceOf a.agent
  let upd := fun (s : State) (f : Access → Access) =>
    ({ s with accs := s.accs.map fun x => if x.id = a.id then f x else x } : State)
  match s.translate sp kind true a.va with
  | (.leaf e, s) =>
    let loc := e.loc sp.core a.va
    upd s fun x => { x with loc := loc, home := s.homeOf sp.ctxid loc, via := some e, again := .no }
  | (.fault x l _, s) => (upd s fun x => { x with again := .faulted }).parkReturned a kind x l
  | (.hole _, s) =>
    ((upd s fun x => { x with again := .faulted }).endReturned a.agent).trap a.agent .memHole 0 (BitVec.ofNat 64 a.va)
  | (.poison, s) => s
  | (.waits, s) => s

/-- The access may be performed now, and with it the loads that go with it (R96). -/
def State.mayPerform (s : State) (a : Access) : Bool :=
  (s.mates a).all fun m => s.unheld m && s.accs.all fun x => !s.precedes x m

/-- The outstanding access of a number. -/
def State.access? (s : State) (id : Nat) : Option Access := s.accs.find? fun a => a.id == id

/-- Perform the outstanding access of this number, if the order allows it; a returned one is translated again. -/
def State.perform (s : State) (id : Nat) : State :=
  match s.access? id with
  | some a =>
    if a.again = .due then
      -- an agent that is saved makes it again when it is restored (R316)
      (if (s.blockOf a.agent).isSome then s.returnAccess a else s)
    else if s.mayPerform a then s.performNow a else s
  | none => s

/-- The outstanding accesses, the latest first. -/
def State.latestFirst (s : State) : List Access := (sortBy (fun a : Access => a.id) s.accs).reverse

/-- The outstanding accesses that `want` names with all that has to go before them, in the order in which they are performed. -/
def State.closure (s : State) (want : Access → Bool) : List Access :=
  sortBy (fun a : Access => a.id) (s.latestFirst.foldl (fun (need : List Access) x =>
    if need.contains x then need
    else if want x || need.any (fun y => s.precedes x y) then need ++ (x :: (s.mates x).filter fun m => m.id != x.id && !need.contains m)
    else need) [])

/-- A list of accesses is performed in order; one that is no longer outstanding is passed over. -/
def State.performAll (s : State) (xs : List Access) : State :=
  xs.foldl (fun (s : State) a => match s.access? a.id with
    | some x => s.performNow x
    | none => s) s

/-- These accesses are performed now, after what has to go before them. -/
def State.force (s : State) (want : Access → Bool) : State := s.performAll (s.closure want)

/-- Nothing holds them, nor what has to go before them. -/
def State.forceable (s : State) (want : Access → Bool) : Bool := (s.closure want).all s.unheld

/-! ## Acquires, releases and fences -/

/-- The outstanding accesses of an agent, in program order. -/
def State.outstanding (s : State) (ag : Agent) : List Access := sortBy (·.id) (s.accs.filter fun a => a.agent == ag)

/-- The accesses an ordering rule at a scope covers: below sys not those of host windows and other wafers (R272); never LDC. -/
def coveredAt (sc : Scope) (a : Access) : Bool := a.ordered && (sc == .sys || !a.home.isOutside)

/-- The earlier accesses of an agent that a release at a scope covers. -/
def releases (ag : Agent) (sc : Scope) (a : Access) : Bool := a.agent == ag && coveredAt sc a

/-- The earlier loads and atomics of an agent that a FENCE.ACQ at a scope covers (R275 row 4, log 155). -/
def acquires (ag : Agent) (sc : Scope) (a : Access) : Bool := a.agent == ag && coveredAt sc a && !a.isStore

/-- FENCE.ACQ: every earlier load of the agent is performed, and what must go before it; at sys, its later loads of host windows
return the latest store (R273). -/
def State.drainLoads (s : State) (ag : Agent) (sc : Scope) : State := s.force (acquires ag sc)

/-- An acquire at sys has come (R273). -/
def State.acquireSys (s : State) (ag : Agent) (sc : Scope) : State :=
  if sc = .sys then s.updCtx (fun c => { c with hostLatest := true }) ag else s

/-- A release at a scope (R275 row 5): every earlier access of the agent is performed at the scope; above blk, so are the
stores of its block that its block has seen (R278). Loans that come after return no register write that an earlier one of the
agent has overtaken (R118, R119). -/
def State.drainRelease (s : State) (ag : Agent) (sc : Scope) : State :=
  let s := s.updCtx (fun c => { c with lent := [] }) ag
  if sc = .blk then
    (s.closure (releases ag sc)).foldl (fun (s : State) a => match s.access? a.id with
      | some x => if x.isStore && x.home == .wafer then s.showBlock x else s.performNow x
      | none => s) s
  else (s.drainSeen (s.bidOf ag)).force (releases ag sc)

/-- No frozen frame and no interface holds what a release at a scope performs. -/
def State.releaseFree (s : State) (ag : Agent) (sc : Scope) : Bool :=
  s.forceable (releases ag sc) &&
    (sc == .blk || s.accs.all fun a => !(a.seen.isSome && s.bidOf a.agent == s.bidOf ag) || s.unheld a)

/-- A release waits while an earlier v-register write of the thread is not performed (R118), or something holds back an access it
covers (R325, R398). -/
def State.releaseReady (s : State) (ag : Agent) (sc : Scope) : Bool :=
  let c := s.ctx ag
  (c.pend.all fun p => p.regs.all fun r => match r with
    | .v _ => false
    | _ => true) &&
  (c.inflight.all fun f => match f.reg with
    | .v _ => decide (f.done ≤ s.issue.now)
    | _ => true) &&
  s.releaseFree ag sc

/-! ## Accepting accesses -/

/-- An access as its instruction makes it. -/
def accessOf (ag : Agent) (core : Nat) (loc : Loc) (w : Nat) (work : AccessWork) (va : Nat) (home : Home)
    (via : Option TlbEntry) : Access :=
  { id := 0, agent := ag, core := core, loc := loc, width := w, work := work, via := via, va := va, home := home,
    ordered := true, latest := false, seen := none, group := none, again := .no, cmd := none }

/-- The access is accepted: it is outstanding under the next number. -/
def State.addAccess (s : State) (a : Access) : State :=
  { s with nextId := s.nextId + 1, accs := s.accs ++ [{ a with id := s.nextId, latest := a.latest || (s.ctx a.agent).hostLatest }] }

/-- The two single-copy atomic halves of a 16-byte access, else the access whole (R174). -/
def halves (w : Nat) : List (Nat × Nat) := if w = 16 then [(0, 8), (8, 8)] else [(0, w)]

/-- A load is accepted: its registers are pending until its parts have bound and the group is written (R171, R173). -/
def State.acceptLoad (s : State) (a : Access) (form : LoadForm) (regs : List Reg) : State :=
  let (s, parts) := (halves a.width).foldl (fun (p : State × List (Nat × Option (List Byte))) h =>
    (p.1.addAccess { a with loc := a.loc.shift h.1, width := h.2, va := a.va + h.1 }, p.2 ++ [(p.1.nextId, none)])) (s, [])
  s.addPend a.agent regs (.access parts form) none

/-- A store is accepted (R171). -/
def State.acceptStore (s : State) (a : Access) (data : List Byte) : State :=
  (halves a.width).foldl (fun (s : State) h =>
    s.addAccess { a with loc := a.loc.shift h.1, width := h.2, va := a.va + h.1, work := .store ((data.drop h.1).take h.2) }) s

/-- An atomic or a reduction is accepted (R285). -/
def State.acceptAtomic (s : State) (a : Access) (ret : Option (Tag × List Reg)) : State :=
  let id := s.nextId
  let s := s.addAccess a
  match ret with
  | some (t, regs) => s.addPend a.agent regs (.access [(id, none)] (.slot t)) none
  | none => s

/-- The access just accepted is performed at once, after what R275 puts before it; none where something holds one of these. -/
def State.bindNow (s : State) (id : Nat) : Option State :=
  let want := fun a : Access => a.id == id
  if s.forceable want then some (s.force want) else none

/-! ## The completion of pending groups -/

/-- The registers' values from the bytes of a load (R173, R176, R96). -/
def LoadForm.values (f : LoadForm) (bs : List Byte) : List VReg :=
  let words := fun t : Tag => (List.range (bs.length / 4)).map fun j =>
    (⟨BitVec.ofNat 32 (leNat ((bs.drop (4 * j)).take 4)), t⟩ : VReg)
  match f with
  | .words t => words t
  | .slot t => words t
  | .zext => [⟨BitVec.ofNat 32 (leNat bs), .n32⟩]
  | .sext =>
    let n := 8 * bs.length
    let x := leNat bs
    [⟨BitVec.ofInt 32 (if x ≥ 2 ^ (n - 1) then (x : Int) - 2 ^ n else x), .i32⟩]

/-- All parts have bound: their bytes in order. -/
def boundBytes (parts : List (Nat × Option (List Byte))) : Option (List Byte) :=
  if parts.all fun p => p.2.isSome then some (parts.flatMap fun p => p.2.getD []) else none

end Sys2Proof.Machine
end

