-- ==== Sys2Proof/Machine/Frames.lean ====
section
/-! DEFINITION. Uniform frames and expanded mode (R88 to R90). A frame's values are the s-registers of the threads that
reference it, so the frame rules change timing only. -/

namespace Sys2Proof.Machine

/-- The threads of a core that reference frame `f`. -/
def State.frameThreads (s : State) (core f : Nat) : List (Nat × Nat) :=
  (s.blocksOn core).flatMap fun b =>
    ((List.range b.threads.length).zip b.threads).filterMap fun p =>
      if p.2.frame == some f then some (b.bid, p.1) else none

/-- Frames that no thread references are free. -/
def State.freeFrames (s : State) (core : Nat) : State :=
  s.updCore core fun c => { c with frames := c.frames.filter (fun f => !(s.frameThreads core f.1).isEmpty) }

/-- The threads reference `f` from now on, or no frame. -/
def State.setFrame (s : State) (f : Option Nat) (ms : List (Nat × Nat)) : State :=
  ms.foldl (fun (s : State) m => s.updThread m.1 m.2 fun t => { t with frame := f }) s

/-- The frame is used in this cycle. -/
def State.touchFrame (s : State) (core f : Nat) : State :=
  s.updCore core fun c => { c with frames := assocSet f (s.dom (domOf core)).cycles c.frames }

/-- The least recently used frame that no issuing braid references; among equals the lowest index (R89). -/
def State.victimFrame (s : State) (core : Nat) : Option Nat :=
  let c := s.core core
  let issuing := c.pipes.toList.flatMap fun p => p.braids.flatMap fun b => b.members.map fun m => (b.bid, m.1)
  let free := c.frames.filter fun f => (s.frameThreads core f.1).all fun m => !issuing.contains m
  match free.foldl (fun (m : Option (Nat × Nat)) f => match m with
      | none => some f
      | some g => if f.2 < g.2 ∨ (f.2 = g.2 ∧ f.1 < g.1) then some f else some g) none with
  | some f => some f.1
  | none => none

/-- A free frame, after writing back a victim when all 64 are in use (R89). -/
def State.allocFrame (s : State) (core : Nat) : Option Nat × State :=
  let s := s.freeFrames core
  match (List.range 64).find? fun i => !((s.core core).frames.any fun f => f.1 == i) with
  | some i => (some i, s)
  | none => match s.victimFrame core with
    | some f => (some f, s.setFrame none (s.frameThreads core f))
    | none => (none, s)

def State.sRegs (s : State) (m : Nat × Nat) : Vector Word 16 := (s.ctx (.thread m.1 m.2)).s

/-- All s-registers of the threads are equal. -/
def State.sEqual (s : State) : List (Nat × Nat) → Bool
  | [] => true
  | m :: ms => ms.all fun x => s.sRegs x == s.sRegs m

/-- The braid that holds a thread is in expanded mode (R90). -/
def State.expanded (s : State) (core : Nat) (m : Nat × Nat) : Bool :=
  (s.core core).pipes.toList.any fun p => p.braids.any fun b =>
    b.expanded && b.bid == m.1 && b.members.any fun x => x.1 == m.2

/-- The braids that hold one of these threads enter expanded mode: their members, and these threads, leave their frames, whose
values go to the backing copies (R89). -/
def State.expand (s : State) (core : Nat) (ms : List (Nat × Nat)) : State :=
  let hit := fun b : Braid => ms.any fun m => b.bid == m.1 && b.members.any fun x => x.1 == m.2
  let braids := ((s.core core).pipes.toList.flatMap (·.braids)).filter hit
  let s := s.setFrame none (ms ++ braids.flatMap fun b => b.members.map fun x => (b.bid, x.1))
  s.updCore core fun c =>
    { c with pipes := c.pipes.map fun (p : Pipe) =>
        { p with braids := p.braids.map fun (b : Braid) => if hit b then { b with expanded := true } else b } }

/-- The threads of these that reference frame `f` and no others do; else they get a frame of their own with a copy of its values,
or expand where none is free (R89). -/
def State.ownFrame (s : State) (core f : Nat) (ms : List (Nat × Nat)) : State :=
  if (s.frameThreads core f).all fun x => ms.contains x then s.touchFrame core f
  else match s.allocFrame core with
    | (some g, s) => (s.setFrame (some g) ms).touchFrame core g
    | (none, s) => s.expand core ms

/-- The frame of a thread. -/
def State.frameOf (s : State) (m : Nat × Nat) : Option Nat :=
  match s.thread? m.1 m.2 with
  | some t => t.frame
  | none => none

/-- The threads of the step. -/
def State.issueThreads (s : State) : List (Nat × Nat) :=
  s.issue.agents.filterMap fun ag => match ag with
    | .thread bid tid => some (bid, tid)
    | .bobbin .. => none

/-- The members of the braids that hold one of these threads. -/
def State.braidMates (s : State) (core : Nat) (ms : List (Nat × Nat)) : List (Nat × Nat) :=
  (((s.core core).pipes.toList.flatMap (·.braids)).filter fun b => ms.any fun m => b.bid == m.1 && b.members.any fun x => x.1 == m.2).flatMap
    fun b => b.members.map fun x => (b.bid, x.1)

/-- The frame rules after a uniform instruction (R89), for the braid of the executing members: its members share one frame and the
result is the same for every one of them, else it is in expanded mode. Where only some members have executed (R146) the result is
the same for every member only if all hold equal values afterwards too (log 152). In expanded mode each member's own backing copy is
written (R90). -/
def State.frameRules (s : State) : State :=
  let core := s.issue.core
  match s.braidMates core s.issueThreads with
  | [] => s
  | m :: ms =>
    if s.expanded core m then s
    else match s.frameOf m with
      | some f =>
        if (ms.all fun x => s.frameOf x == some f) && s.sEqual (m :: ms) then s.ownFrame core f (m :: ms)
        else (s.expand core (m :: ms)).freeFrames core
      | none => s.expand core (m :: ms)

/-- Threads filed into one bin whose s-values are all equal may be given one frame: a free choice (R89). -/
def State.frameAtDraw (s : State) (core : Nat) (ms : List (Nat × Nat)) : State :=
  if s.sEqual ms then
    match s.allocFrame core with
    | (some g, s1) =>
      let (k, s2) := s1.choose 2
      if k = 1 then (s2.setFrame (some g) ms).touchFrame core g else s2
    | (none, s1) => s1
  else s

/-- The threads all reference one frame. -/
def State.oneFrame (s : State) : List (Nat × Nat) → Bool
  | [] => true
  | m :: ms => (s.frameOf m).isSome && ms.all fun x => s.frameOf x == s.frameOf m

/-- A braid has been drawn: it is in expanded mode where its threads do not all reference one frame (R89). -/
def State.modeAtDraw (s : State) (core : Nat) (ms : List (Nat × Nat)) : State := if s.oneFrame ms then s else s.expand core ms

/-- A thread whose s-registers have come to differ from those of its frame leaves the frame, and its braid is in expanded mode
(log 152). -/
def State.leaveFrame (s : State) (bid tid : Nat) : State :=
  match s.frameOf (bid, tid) with
  | some f =>
    let core := s.coreOf (.thread bid tid)
    if s.sEqual (s.frameThreads core f) then s else s.expand core [(bid, tid)]
  | none => s

/-- A uniform instruction: its group runs it, then the frame rules apply. -/
def State.runUniform (s : State) (o : Op) (fixed7 : State → Agent → Bool) (body : State → Agent → List VReg → State) :
    State :=
  (s.runGroup o fixed7 body).frameRules

/-- A uniform instruction whose results of fixed latency come from its operands alone. -/
def State.runUFixed (s : State) (o : Op) (lat : Nat) (f : List VReg → List Write) : State :=
  (s.runFixed o lat f).frameRules

end Sys2Proof.Machine
end

