-- ==== Sys2Proof/Machine/Flags.lean ====
section
/-! DEFINITION. Every flag computation: the k-flags that carries, borrows, compares, k-operations, votes and VKWR write
(R106, R114, R115, R127, R152), and the 1 or 0 that the uniform compares write (R93). -/

namespace Sys2Proof.Machine

/-- VADDC (R106): the sum and the carry out. -/
def addCarry (a b : Word) (c : Bool) : Word × Bool :=
  let t := a.toNat + b.toNat + (if c then 1 else 0)
  (BitVec.ofNat 32 t, decide (2 ^ 32 ≤ t))

/-- VSUBB (R106): the difference and the borrow out. -/
def subBorrow (a b : Word) (c : Bool) : Word × Bool :=
  let t : Int := (a.toNat : Int) - (b.toNat : Int) - (if c then 1 else 0)
  (BitVec.ofInt 32 t, decide (t < 0))

/-- The conditions of VCMP and UCMP (R93, R114). -/
inductive Cond where
  | eq | ne | lt | le | gt | ge
  deriving DecidableEq, Repr

/-- Signed comparison (R114). -/
def Cond.signed : Cond → Word → Word → Bool
  | .eq, a, b => a == b
  | .ne, a, b => a != b
  | .lt, a, b => a.slt b
  | .le, a, b => a.sle b
  | .gt, a, b => b.slt a
  | .ge, a, b => b.sle a

/-- Unsigned comparison (R114). -/
def Cond.unsigned : Cond → Word → Word → Bool
  | .eq, a, b => a == b
  | .ne, a, b => a != b
  | .lt, a, b => a.ult b
  | .le, a, b => a.ule b
  | .gt, a, b => b.ult a
  | .ge, a, b => b.ule a

/-- FCMP on F32 registers (R127). -/
def fcmp32 (c : FCond) (a b : Word) : Bool := fcmp c .f32 a.toNat b.toNat

/-- The k-flags that VKWR writes, with their values: flag j where bit j of `b` is set (R115). -/
def vkwrFlags (a b : Word) : List (BitVec 3 × Bool) :=
  ((List.range 8).filter fun j => b.getLsbD j).map fun j => (BitVec.ofNat 3 j, a.getLsbD j)

/-- All eight k-flags as a word, k0 in bit 0 (R115). -/
def flagsWord (k : BitVec 8) : Word := k.zeroExtend 32

/-- The ballot of VOTE (R152): bit p for each position p whose member has the flag set. -/
def ballot (members : List (Nat × Bool)) : Word :=
  members.foldl (fun w m => if m.2 then w ||| BitVec.ofNat 32 (2 ^ m.1) else w) 0

end Sys2Proof.Machine
end

