-- ==== Sys2Proof/Machine/LaneInt.lean ====
section
/-! DEFINITION. Lane integer and logic, k-flags, selects and moves, register loans (R102 to R120). -/

namespace Sys2Proof.Machine

/-- The i32 source type of R102. -/
abbrev aI : Accept := .int32

/-- `vd := f va vb` tagged `t`. -/
def State.vBinary (s : State) (lat : Nat) (f : Word → Word → Word) (t : Tag) (aa ab : Accept) (d a b : BitVec 6)
    (n : BitVec 3) : State :=
  s.runFixed { n := n, srcs := [vSrc a 0 aa, vSrc b 1 ab], dsts := [.v d], who := .thread } lat fun vs =>
    [wV d (f (valAt vs 0) (valAt vs 1)) t]

/-- `vd := f va` tagged `t`. -/
def State.vUnary (s : State) (lat : Nat) (f : Word → Word) (t : Tag) (aa : Accept) (d a : BitVec 6) (n : BitVec 3) :
    State :=
  s.runFixed { n := n, srcs := [vSrc a 0 aa], dsts := [.v d], who := .thread } lat fun vs => [wV d (f (valAt vs 0)) t]

/-- `vd := f va vb vc` tagged `t`, with vc = v(vd + mod) (R35, R104). -/
def State.vTernary (s : State) (lat : Nat) (f : Word → Word → Word → Word) (t : Tag) (aa ab ac : Accept)
    (d a b : BitVec 6) (c : BitVec 3) (n : BitVec 3) : State :=
  s.runFixed
    { n := n, srcs := [vSrc a 0 aa, vSrc b 1 ab, vSrc (vcOf d c) 2 ac], dsts := [.v d], bad := windowBad d c,
      who := .thread } lat fun vs => [wV d (f (valAt vs 0) (valAt vs 1) (valAt vs 2)) t]

/-- `kd := f va vb`. -/
def State.vCompare (s : State) (f : Word → Word → Bool) (d : BitVec 3) (a b : BitVec 6) (n : BitVec 3) : State :=
  s.runFixed { n := n, srcs := [vSrc a 0 aI, vSrc b 1 aI], dsts := [.k d], who := .thread } latA fun vs =>
    [wK d (f (valAt vs 0) (valAt vs 1))]

/-! ## Arithmetic (R106 to R109) -/

def execVaddI32 (d a b : BitVec 6) (n : BitVec 3) (s : State) : Host.Outcome State Fault Refusal :=
  .next (s.vBinary latA (fun x y => x + y) .i32 aI aI d a b n)
def execVaddI32Sat (d a b : BitVec 6) (n : BitVec 3) (s : State) : Host.Outcome State Fault Refusal :=
  .next (s.vBinary latA addSatS .i32 aI aI d a b n)
def execVaddN32Sat (d a b : BitVec 6) (n : BitVec 3) (s : State) : Host.Outcome State Fault Refusal :=
  .next (s.vBinary latA addSatU .n32 aI aI d a b n)
def execVsubI32 (d a b : BitVec 6) (n : BitVec 3) (s : State) : Host.Outcome State Fault Refusal :=
  .next (s.vBinary latA (fun x y => x - y) .i32 aI aI d a b n)
def execVsubI32Sat (d a b : BitVec 6) (n : BitVec 3) (s : State) : Host.Outcome State Fault Refusal :=
  .next (s.vBinary latA subSatS .i32 aI aI d a b n)
def execVsubN32Sat (d a b : BitVec 6) (n : BitVec 3) (s : State) : Host.Outcome State Fault Refusal :=
  .next (s.vBinary latA subSatU .n32 aI aI d a b n)

/-- The flag k is carry source and carry destination (R104, R106). -/
def State.vCarry (s : State) (f : Word → Word → Bool → Word × Bool) (d a b : BitVec 6) (k : BitVec 3) (n : BitVec 3) :
    State :=
  s.runFixed { n := n, srcs := [vSrc a 0 aI, vSrc b 1 aI, kSrc k], dsts := [.v d, .k k], who := .thread } latA fun vs =>
    let r := f (valAt vs 0) (valAt vs 1) ((valAt vs 2).getLsbD 0)
    [wV d r.1 .n32, wK k r.2]

def execVaddc (d a b : BitVec 6) (k : BitVec 3) (n : BitVec 3) (s : State) : Host.Outcome State Fault Refusal :=
  .next (s.vCarry addCarry d a b k n)
def execVsubb (d a b : BitVec 6) (k : BitVec 3) (n : BitVec 3) (s : State) : Host.Outcome State Fault Refusal :=
  .next (s.vCarry subBorrow d a b k n)
def execVmulI32 (d a b : BitVec 6) (n : BitVec 3) (s : State) : Host.Outcome State Fault Refusal :=
  .next (s.vBinary latM (fun x y => x * y) .i32 aI aI d a b n)
def execVmulhiI32 (d a b : BitVec 6) (n : BitVec 3) (s : State) : Host.Outcome State Fault Refusal :=
  .next (s.vBinary latM mulhiS .i32 aI aI d a b n)
def execVmulhiN32 (d a b : BitVec 6) (n : BitVec 3) (s : State) : Host.Outcome State Fault Refusal :=
  .next (s.vBinary latM mulhiU .n32 aI aI d a b n)
def execVmadI32 (d a b : BitVec 6) (c : BitVec 3) (n : BitVec 3) (s : State) : Host.Outcome State Fault Refusal :=
  .next (s.vTernary latM (fun x y z => x * y + z) .i32 aI aI aI d a b c n)

/-- VMADW (R104, R107): vd and vc are pairs; an odd one raises ILLEGAL with reason 4. -/
def State.vMadw (s : State) (f : Word → Word → DWord → DWord) (t : Tag) (d a b : BitVec 6) (c : BitVec 3) (n : BitVec 3) :
    State :=
  let bad := worse (windowBad d c) (groupBad [(d.toNat, 2), (c.toNat, 2)])
  s.runFixed
    { n := n, srcs := [vSrc a 0 aI, vSrc b 1 aI] ++ vSrcs (vcOf d c) 2 2 .int64, dsts := [.v d, .v (d + 1)], bad := bad,
      who := .thread } latW fun vs =>
    let r := f (valAt vs 0) (valAt vs 1) (pairAt vs 2)
    [wV d r.lo t, wV (d + 1) r.hi t]

def execVmadwI32 (d a b : BitVec 6) (c : BitVec 3) (n : BitVec 3) (s : State) : Host.Outcome State Fault Refusal :=
  .next (s.vMadw madwS .i64 d a b c n)
def execVmadwN32 (d a b : BitVec 6) (c : BitVec 3) (n : BitVec 3) (s : State) : Host.Outcome State Fault Refusal :=
  .next (s.vMadw madwU .n64 d a b c n)
def execVminI32 (d a b : BitVec 6) (n : BitVec 3) (s : State) : Host.Outcome State Fault Refusal :=
  .next (s.vBinary latA minS .i32 aI aI d a b n)
def execVminN32 (d a b : BitVec 6) (n : BitVec 3) (s : State) : Host.Outcome State Fault Refusal :=
  .next (s.vBinary latA minU .n32 aI aI d a b n)
def execVmaxI32 (d a b : BitVec 6) (n : BitVec 3) (s : State) : Host.Outcome State Fault Refusal :=
  .next (s.vBinary latA maxS .i32 aI aI d a b n)
def execVmaxN32 (d a b : BitVec 6) (n : BitVec 3) (s : State) : Host.Outcome State Fault Refusal :=
  .next (s.vBinary latA maxU .n32 aI aI d a b n)

/-! ## Shifts, rotates and bits (R110 to R113) -/

def execVshlB32 (d a b : BitVec 6) (n : BitVec 3) (s : State) : Host.Outcome State Fault Refusal :=
  .next (s.vBinary latA shl .raw .any aI d a b n)
def execVshrN32 (d a b : BitVec 6) (n : BitVec 3) (s : State) : Host.Outcome State Fault Refusal :=
  .next (s.vBinary latA shrU .n32 .any aI d a b n)
def execVshrI32 (d a b : BitVec 6) (n : BitVec 3) (s : State) : Host.Outcome State Fault Refusal :=
  .next (s.vBinary latA shrS .i32 .any aI d a b n)
def execVrotlB32 (d a b : BitVec 6) (n : BitVec 3) (s : State) : Host.Outcome State Fault Refusal :=
  .next (s.vBinary latA rotl .raw .any aI d a b n)
def execVrotrB32 (d a b : BitVec 6) (n : BitVec 3) (s : State) : Host.Outcome State Fault Refusal :=
  .next (s.vBinary latA rotr .raw .any aI d a b n)
def execVbfeN32 (d a b : BitVec 6) (n : BitVec 3) (s : State) : Host.Outcome State Fault Refusal :=
  .next (s.vBinary latM bfeU .n32 .any aI d a b n)
def execVbfeI32 (d a b : BitVec 6) (n : BitVec 3) (s : State) : Host.Outcome State Fault Refusal :=
  .next (s.vBinary latM bfeS .i32 .any aI d a b n)

def execVbfiB32 (d a b : BitVec 6) (c : BitVec 3) (n : BitVec 3) (s : State) : Host.Outcome State Fault Refusal :=
  .next (s.vTernary latM (fun x y z => bfi z x y) .raw .any aI .any d a b c n)
def execVpopcB32 (d a : BitVec 6) (n : BitVec 3) (s : State) : Host.Outcome State Fault Refusal :=
  .next (s.vUnary latM popc .n32 .any d a n)
def execVclzB32 (d a : BitVec 6) (n : BitVec 3) (s : State) : Host.Outcome State Fault Refusal :=
  .next (s.vUnary latM clz .n32 .any d a n)
def execVbrevB32 (d a : BitVec 6) (n : BitVec 3) (s : State) : Host.Outcome State Fault Refusal :=
  .next (s.vUnary latM brev .raw .any d a n)

/-- VPERM: vd is the selector, read as a source (R112). -/
def execVpermB32 (d a b : BitVec 6) (n : BitVec 3) (s : State) : Host.Outcome State Fault Refusal :=
  .next (s.runFixed { n := n, srcs := [vSrc a 0 .any, vSrc b 1 .any, vSrc d 3 .any], dsts := [.v d], who := .thread } latM
    fun vs => [wV d (perm (valAt vs 2) (valAt vs 0) (valAt vs 1)) .raw])
def execVdp4I8 (d a b : BitVec 6) (c : BitVec 3) (n : BitVec 3) (s : State) : Host.Outcome State Fault Refusal :=
  .next (s.vTernary latM dp4S .i32 .bytes4 .bytes4 aI d a b c n)
def execVdp4N8 (d a b : BitVec 6) (c : BitVec 3) (n : BitVec 3) (s : State) : Host.Outcome State Fault Refusal :=
  .next (s.vTernary latM dp4U .n32 .bytes4 .bytes4 aI d a b c n)
def execVsadN8 (d a b : BitVec 6) (c : BitVec 3) (n : BitVec 3) (s : State) : Host.Outcome State Fault Refusal :=
  .next (s.vTernary latM sadU .n32 .bytes4 .bytes4 aI d a b c n)
def execVandB32 (d a b : BitVec 6) (n : BitVec 3) (s : State) : Host.Outcome State Fault Refusal :=
  .next (s.vBinary latA (fun x y => x &&& y) .raw .any .any d a b n)
def execVorB32 (d a b : BitVec 6) (n : BitVec 3) (s : State) : Host.Outcome State Fault Refusal :=
  .next (s.vBinary latA (fun x y => x ||| y) .raw .any .any d a b n)
def execVxorB32 (d a b : BitVec 6) (n : BitVec 3) (s : State) : Host.Outcome State Fault Refusal :=
  .next (s.vBinary latA (fun x y => x ^^^ y) .raw .any .any d a b n)
def execVandnB32 (d a b : BitVec 6) (n : BitVec 3) (s : State) : Host.Outcome State Fault Refusal :=
  .next (s.vBinary latA (fun x y => x &&& ~~~y) .raw .any .any d a b n)
def execVnotB32 (d a : BitVec 6) (n : BitVec 3) (s : State) : Host.Outcome State Fault Refusal :=
  .next (s.vUnary latA (fun x => ~~~x) .raw .any d a n)

/-! ## Compares, selects and k-flags (R114, R115) -/

def execVcmpEqI32 (d : BitVec 3) (a b : BitVec 6) (n : BitVec 3) (s : State) : Host.Outcome State Fault Refusal :=
  .next (s.vCompare (Cond.signed .eq) d a b n)
def execVcmpNeI32 (d : BitVec 3) (a b : BitVec 6) (n : BitVec 3) (s : State) : Host.Outcome State Fault Refusal :=
  .next (s.vCompare (Cond.signed .ne) d a b n)
def execVcmpLtI32 (d : BitVec 3) (a b : BitVec 6) (n : BitVec 3) (s : State) : Host.Outcome State Fault Refusal :=
  .next (s.vCompare (Cond.signed .lt) d a b n)
def execVcmpLeI32 (d : BitVec 3) (a b : BitVec 6) (n : BitVec 3) (s : State) : Host.Outcome State Fault Refusal :=
  .next (s.vCompare (Cond.signed .le) d a b n)
def execVcmpGtI32 (d : BitVec 3) (a b : BitVec 6) (n : BitVec 3) (s : State) : Host.Outcome State Fault Refusal :=
  .next (s.vCompare (Cond.signed .gt) d a b n)
def execVcmpGeI32 (d : BitVec 3) (a b : BitVec 6) (n : BitVec 3) (s : State) : Host.Outcome State Fault Refusal :=
  .next (s.vCompare (Cond.signed .ge) d a b n)
def execVcmpLtN32 (d : BitVec 3) (a b : BitVec 6) (n : BitVec 3) (s : State) : Host.Outcome State Fault Refusal :=
  .next (s.vCompare (Cond.unsigned .lt) d a b n)
def execVcmpLeN32 (d : BitVec 3) (a b : BitVec 6) (n : BitVec 3) (s : State) : Host.Outcome State Fault Refusal :=
  .next (s.vCompare (Cond.unsigned .le) d a b n)
def execVcmpGtN32 (d : BitVec 3) (a b : BitVec 6) (n : BitVec 3) (s : State) : Host.Outcome State Fault Refusal :=
  .next (s.vCompare (Cond.unsigned .gt) d a b n)
def execVcmpGeN32 (d : BitVec 3) (a b : BitVec 6) (n : BitVec 3) (s : State) : Host.Outcome State Fault Refusal :=
  .next (s.vCompare (Cond.unsigned .ge) d a b n)

/-- VSEL: the selected operand with its tag. -/
def execVselB32 (d a b : BitVec 6) (k : BitVec 3) (n : BitVec 3) (s : State) : Host.Outcome State Fault Refusal :=
  .next (s.runFixed { n := n, srcs := [vSrc a 0 .any, vSrc b 1 .any, kSrc k], dsts := [.v d], who := .thread } latA
    fun vs => if (valAt vs 2).getLsbD 0 then [wV d (valAt vs 0) (tagAt vs 0)] else [wV d (valAt vs 1) (tagAt vs 1)])

/-- `kd := f ka kb`. -/
def State.kBinary (s : State) (f : Bool → Bool → Bool) (d a b : BitVec 3) (n : BitVec 3) : State :=
  s.runFixed { n := n, srcs := [kSrc a, kSrc b], dsts := [.k d], who := .thread } latA fun vs =>
    [wK d (f ((valAt vs 0).getLsbD 0) ((valAt vs 1).getLsbD 0))]
/-- `kd := f ka`. -/
def State.kUnary (s : State) (f : Bool → Bool) (d a : BitVec 3) (n : BitVec 3) : State :=
  s.runFixed { n := n, srcs := [kSrc a], dsts := [.k d], who := .thread } latA fun vs =>
    [wK d (f ((valAt vs 0).getLsbD 0))]

def execKand (d a b : BitVec 3) (n : BitVec 3) (s : State) : Host.Outcome State Fault Refusal :=
  .next (s.kBinary (fun x y => x && y) d a b n)
def execKor (d a b : BitVec 3) (n : BitVec 3) (s : State) : Host.Outcome State Fault Refusal :=
  .next (s.kBinary (fun x y => x || y) d a b n)
def execKxor (d a b : BitVec 3) (n : BitVec 3) (s : State) : Host.Outcome State Fault Refusal :=
  .next (s.kBinary (fun x y => x != y) d a b n)
def execKandn (d a b : BitVec 3) (n : BitVec 3) (s : State) : Host.Outcome State Fault Refusal :=
  .next (s.kBinary (fun x y => x && !y) d a b n)
def execKnot (d a : BitVec 3) (n : BitVec 3) (s : State) : Host.Outcome State Fault Refusal :=
  .next (s.kUnary (fun x => !x) d a n)
def execKmov (d a : BitVec 3) (n : BitVec 3) (s : State) : Host.Outcome State Fault Refusal :=
  .next (s.kUnary (fun x => x) d a n)

/-- VMOV copies the tag (R116). -/
def execVmovB32 (d a : BitVec 6) (n : BitVec 3) (s : State) : Host.Outcome State Fault Refusal :=
  .next (s.runFixed { n := n, srcs := [vSrc a 0 .any], dsts := [.v d], who := .thread } latA fun vs =>
    [wV d (valAt vs 0) (tagAt vs 0)])
def execVmovsB32 (d : BitVec 6) (a : BitVec 4) (n : BitVec 3) (s : State) : Host.Outcome State Fault Refusal :=
  .next (s.runFixed { n := n, srcs := [sSrc a], dsts := [.v d], who := .thread } latA fun vs => [wV d (valAt vs 0) .raw])

/-- VKRD reads all eight k-flags, k0 in bit 0. -/
def execVkrd (d : BitVec 6) (n : BitVec 3) (s : State) : Host.Outcome State Fault Refusal :=
  .next (s.runFixed
    { n := n, srcs := (List.range 8).map fun j => kSrc (BitVec.ofNat 3 j), dsts := [.v d], who := .thread } latA fun vs =>
    [wV d (BitVec.ofNat 32 (((List.range 8).map fun j => if (valAt vs j).getLsbD 0 then 2 ^ j else 0).sum)) .n32])
def execVkwr (a b : BitVec 6) (n : BitVec 3) (s : State) : Host.Outcome State Fault Refusal :=
  .next (s.runFixed { n := n, srcs := [vSrc a 0 .any, vSrc b 1 .any], who := .thread } latA fun vs =>
    (vkwrFlags (valAt vs 0) (valAt vs 1)).map fun f => wK f.1 f.2)

/-! ## Immediate forms -/

def execVaddiI32 (d a : BitVec 6) (i : BitVec 9) (n : BitVec 3) (s : State) : Host.Outcome State Fault Refusal :=
  .next (s.vUnary latA (fun x => x + sext32 i) .i32 aI d a n)
def execVandiB32 (d a : BitVec 6) (i : BitVec 9) (n : BitVec 3) (s : State) : Host.Outcome State Fault Refusal :=
  .next (s.vUnary latA (fun x => x &&& zext32 i) .raw .any d a n)
def execVoriB32 (d a : BitVec 6) (i : BitVec 9) (n : BitVec 3) (s : State) : Host.Outcome State Fault Refusal :=
  .next (s.vUnary latA (fun x => x ||| zext32 i) .raw .any d a n)
def execVxoriB32 (d a : BitVec 6) (i : BitVec 9) (n : BitVec 3) (s : State) : Host.Outcome State Fault Refusal :=
  .next (s.vUnary latA (fun x => x ^^^ zext32 i) .raw .any d a n)
def execVshliB32 (d a : BitVec 6) (i : BitVec 5) (n : BitVec 3) (s : State) : Host.Outcome State Fault Refusal :=
  .next (s.vUnary latA (fun x => shl x (zext32 i)) .raw .any d a n)
def execVshriN32 (d a : BitVec 6) (i : BitVec 5) (n : BitVec 3) (s : State) : Host.Outcome State Fault Refusal :=
  .next (s.vUnary latA (fun x => shrU x (zext32 i)) .n32 .any d a n)
def execVshriI32 (d a : BitVec 6) (i : BitVec 5) (n : BitVec 3) (s : State) : Host.Outcome State Fault Refusal :=
  .next (s.vUnary latA (fun x => shrS x (zext32 i)) .i32 .any d a n)
def execVmoviI32 (d : BitVec 6) (i : BitVec 9) (n : BitVec 3) (s : State) : Host.Outcome State Fault Refusal :=
  .next (s.runFixed { n := n, dsts := [.v d], who := .thread } latA fun _ => [wV d (sext32 i) .i32])

/-! ## Register loans (R117 to R120) -/

/-- VGET (R117): vd is pending; a lender beyond the block gives 0; its own register gives the last earlier write, after it
has arrived if it is pending (log 156); another thread's register is read at completion. va is not a source operand (R45). -/
def execVgetB32 (d a b : BitVec 6) (n : BitVec 3) (s : State) : Host.Outcome State Fault Refusal :=
  .next (s.runGroup { n := n, srcs := [vSrc b 1 aI], dsts := [.v d], who := .thread } noFixed fun s ag vs =>
    let t := (valAt vs 0).toNat
    let work : PendWork := match ag with
      | .thread bid tid => match s.block? bid with
        | some blk =>
          if t ≥ blk.regs.blockdim.toNat then .value [⟨0, .raw⟩]
          else if t = tid ∧ !(s.ctx ag).isPending (.v a) then .value [s.readReg ag (.v a)]
          else .loan t a
        | none => .value [⟨0, .raw⟩]
      | .bobbin .. => .value [⟨0, .raw⟩]
    (s.addPend ag [.v d] work latVar).advance ag n)

end Sys2Proof.Machine
end

