-- ==== Sys2Proof/Machine/Pending.lean ====
section
/-! DEFINITION. The completion of pending results (R48, R117 to R120, R419), and the performing of stores (R273) and of kiosk
requests (R281, R285). -/

namespace Sys2Proof.Machine

/-- A loan may read now: no earlier loan of the same register of the same lender by this thread is open (R119, condition 4),
and its own register is no longer pending. -/
def Ctx.loanReady (c : Ctx) (tid : Nat) (p : Pend) (lender : Nat) (r : BitVec 6) : Bool :=
  (c.pend.all fun q => decide (q.id ≥ p.id) || match q.work with
    | .loan l x => !(l == lender && x == r)
    | _ => true) &&
  !(lender == tid && c.pend.any fun q => decide (q.id < p.id) && q.regs.contains (.v r))

/-- The number of the newest write that a thread's loans of a lender's register have returned. -/
def Ctx.loanFloor (c : Ctx) (lender : Nat) (r : BitVec 6) : Nat :=
  ((c.borrowed.find? fun b => b.1 == lender && b.2.1 == r).map (·.2.2)).getD 0

/-- The value a loan reads at this instant (R117, R119): 0 with tag raw from a thread that has exited, else by a free choice a write
that the lender has performed, none older than a loan of this thread has returned before. Every write that happens-before the VGET
is older than the lender's last release or the newest before it. -/
def State.loanNow (s : State) (bid tid lender : Nat) (r : BitVec 6) : VReg × State :=
  match s.thread? bid lender with
  | some t =>
    if t.status = .exited then (⟨0, .raw⟩, s)
    else
      let ag := Agent.thread bid tid
      let ws := t.lendable (s.cyclesOf (.thread bid lender)) r ((s.ctx ag).loanFloor lender r)
      let (w, s) := s.pick (0, t.readV r) ws
      (w.2, s.updCtx (fun c =>
        { c with borrowed := (lender, r, w.1) :: c.borrowed.filter fun b => !(b.1 == lender && b.2.1 == r) }) ag)
  | none => (⟨0, .raw⟩, s)

/-- The values of a pending group, once they are all decided. -/
def Pend.ready (p : Pend) : Option (List VReg) :=
  match p.work with
  | .value vs => some vs
  | .access parts form => (boundBytes parts).map form.values
  | .loan .. => none
  | .coll _ => none
  | .reply => none

/-- The groups of the other threads of a thread's uniform frame that are about to write the same values to the same
s-registers: the one result of a uniform instruction, which goes to the frame (R89). -/
def State.frameGroups (s : State) (bid tid : Nat) (p : Pend) (vs : List VReg) : List (Agent × Pend) :=
  let uniform := p.regs.all fun r => match r with
    | .s _ => true
    | .v _ | .k _ => false
  match (if uniform then s.frameOf (bid, tid) else none) with
  | none => []
  | some f =>
    (s.frameThreads (s.coreOf (.thread bid tid)) f).filterMap fun m =>
      if m = (bid, tid) then none
      else
        let ag := Agent.thread m.1 m.2
        ((s.ctx ag).pend.find? fun q => q.regs == p.regs && decide (q.ready = some vs)).map fun q => (ag, q)

/-- A group is written and its mark cleared. A result that is the same for every thread of its uniform frame is written for all
of them at once, to the frame (R89); a thread whose s-registers come to differ leaves it. -/
def State.writeGroup (s : State) (ag : Agent) (p : Pend) (vs : List VReg) : State :=
  match ag with
  | .thread bid tid =>
    let s := (s.frameGroups bid tid p vs).foldl (fun (s : State) g => s.completePend g.1 g.2 vs) (s.completePend ag p vs)
    s.leaveFrame bid tid
  | .bobbin .. => s.completePend ag p vs

/-- The group is written once every part has bound. -/
def State.writeBound (s : State) (ag : Agent) (id : Nat) : State :=
  match (s.ctx ag).pend.find? fun p => p.id == id with
  | some p => match p.work with
    | .access parts form => match boundBytes parts with
      | some bs => s.writeGroup ag p (form.values bs)
      | none => s
    | _ => s
  | none => s

/-- PENDING_COMPLETE: the group `id` of an agent. A load binds its part number `part` (in the order R275 allows); when all
parts have bound, the registers are written. A round or a reply completes with its own event. -/
def execPendingComplete (ag : Agent) (id part : Nat) (s : State) : Host.Outcome State Fault Refusal :=
  .next (match (s.ctx ag).pend.find? fun p => p.id == id with
    | some p => match p.work with
      | .value vs => s.writeGroup ag p vs
      | .access parts _ =>
        let s := match parts[part]? with
          | some q => match s.access? q.1 with
            | some a => if a.isLoad then s.perform q.1 else s
            | none => s
          | none => s
        s.writeBound ag id
      | .loan lender r => match ag with
        | .thread bid tid =>
          if (s.ctx ag).loanReady tid p lender r then
            let (x, s) := s.loanNow bid tid lender r
            s.writeGroup ag p [x]
          else s
        | .bobbin .. => s
      | .coll _ => s
      | .reply => s
    | none => s)

/-- STORE_GLOBAL_PERFORM: an accepted store to wafer memory, or to another wafer, is performed for every agent; a host-window
store waits for its acknowledgement (R385). -/
def execStoreGlobalPerform (id : Nat) (s : State) : Host.Outcome State Fault Refusal :=
  .next (match s.access? id with
    | some a => match a.loc with
      | .phys pa => if a.isStore && pa / 2 ^ 52 != 1023 then s.perform id else s
      | _ => if a.isStore then s.perform id else s
    | none => s)

/-- KIOSK_REQUEST: the owning kiosk performs an accepted atomic or reduction as one step; a returning one then has its value. -/
def execKioskRequest (id : Nat) (s : State) : Host.Outcome State Fault Refusal :=
  .next (match s.access? id with
    | some a => if a.isAtomic then s.perform id else s
    | none => s)

/-- RDMA_WRITE_ACK: a host-window store is acknowledged, and is host-performed. -/
def execRdmaWriteAck (id : Nat) (s : State) : Host.Outcome State Fault Refusal :=
  .next (match s.access? id with
    | some a => match a.loc, a.work with
      | .phys pa, .store _ => if pa / 2 ^ 52 = 1023 ∧ s.mayPerform a then s.perform id else s
      | _, _ => s
    | none => s)

end Sys2Proof.Machine
end

