-- ==== Sys2Proof/Machine/Region.lean ====
section
/-! DEFINITION. Scratchpad regions: MAP, UNMAP and RFLUSH, the region map unit's fills and write-backs (R177 to R180). -/

namespace Sys2Proof.Machine

/-! ## Lines -/

/-- The valid region of a block that holds a window offset, with the line's number in the region. -/
def Block.regionAt (b : Block) (off : Nat) : Option (Nat × Nat) :=
  match ((List.range 8).zip b.regions.toList).find? fun p =>
      p.2.valid && decide (p.2.page * 4096 ≤ off) && decide (off < (p.2.page + p.2.pages) * 4096) with
  | some p => some (p.1, (off - p.2.page * 4096) / 128)
  | none => none

def Block.region (b : Block) (r : Nat) : Option Region := b.regions.toList[r]?

/-- A line that is not invalid. -/
def Region.line? (g : Region) (idx : Nat) : Option RegionLine := g.lines.find? fun l => l.idx == idx

/-- A line's virtual address, and its window offset. -/
def Region.lineVa (g : Region) (idx : Nat) : DWord := g.base + BitVec.ofNat 64 (128 * idx)
def Region.lineOff (g : Region) (idx : Nat) : Nat := g.page * 4096 + 128 * idx

def State.updRegion (s : State) (bid r : Nat) (f : Region → Region) : State :=
  s.updBlock bid fun b => { b with regions := vecUpd b.regions r f }

/-- How a fill ends. -/
inductive Fill where
  | filled
  /-- The home directory holds the frame frozen: the fill waits (R325). -/
  | waits
  | xfault (va : DWord) (xkind level : Nat)
  | stop (cause : Cause) (va : DWord)
  /-- A poisoned granule: the context stops (R405). -/
  | poisoned
  deriving DecidableEq, Repr

/-- The 128 bytes of a fill: a relaxed load, of a host window as any such load (R273). -/
def State.regionBytes (s : State) (b : Block) (r : Nat) (l : Loc) : List Byte × State :=
  if l.isWindow then
    let (bs, v, s) := s.hostBytes false (s.sinceOf (.thread b.bid 0)) ((b.region r).map (·.hostSeen) |>.getD []) l 128
    (bs, s.updRegion b.bid r fun g => { g with hostSeen := seeHost g.hostSeen (s.locKeys l 128) v })
  else (s.readFor b.bid l 128, s)

/-- The fill of a line is held back: an access waits for it. -/
def State.fillWaits (s : State) (bid r idx : Nat) : Fill × State :=
  (.waits, s.updRegion bid r fun g => { g with wants := if g.wants.contains idx then g.wants else idx :: g.wants })

/-- The region map unit fills an invalid line: a relaxed load of 128 bytes with the block's launch privilege (R179). A fault that is
no translation fault is recorded with the line's virtual address (log 133). -/
def State.fillLine (s : State) (bid r idx : Nat) : Fill × State :=
  match s.block? bid with
  | none => (.filled, s)
  | some b => match b.region r with
    | none => (.filled, s)
    | some g =>
      let va := g.lineVa idx
      let sp := b.space b.priv
      match s.translate sp .read true va.toNat with
      | (.fault x l _, s) => (.xfault va x l, s)
      | (.hole _, s) => (.stop .memHole va, s)
      | (.poison, s) => (.poisoned, s)
      | (.waits, s) => s.fillWaits bid r idx
      | (.leaf e, s) =>
        let loc := e.loc sp.core va.toNat
        if (s.homeOf sp.ctxid loc).isMmio then (.stop .misaligned va, s)
        else if s.requestHeld sp.core loc 128 then s.fillWaits bid r idx
        else if s.locPoisoned loc 128 then (.poisoned, s.payloadError b.regs.ctxid)
        else
          let (bs, s) := s.regionBytes b r loc
          let s := s.writeScr b.core (b.scr (g.lineOff idx)) bs
          (.filled, s.updRegion bid r fun g =>
            { g with lines := g.lines ++ [{ idx := idx, mask := 0, faulted := false }], wants := g.wants.filter (fun i => i != idx) })

/-- Before an access to a window range, every invalid line it touches is filled; `whole` lines a write covers need no fill. -/
def State.fillRange (s : State) (bid off n : Nat) (write : Bool) : Fill × State :=
  let lines := (List.range ((off % 128 + n + 127) / 128)).map fun i => off / 128 * 128 + 128 * i
  lines.foldl (fun (p : Fill × State) lo =>
    match p.1 with
    | .filled => match p.2.block? bid with
      | some b => match b.regionAt lo with
        | some (r, idx) => match b.region r with
          | some g =>
            if (g.line? idx).isSome then p
            else if write && decide (off ≤ lo) && decide (lo + 128 ≤ off + n) then p
            else p.2.fillLine bid r idx
          | none => p
        | none => p
      | none => p
    | _ => p) (.filled, s)

/-- The mask of bytes lo to lo + n − 1 of a line. -/
def lineMask (lo n : Nat) : BitVec 128 := BitVec.ofNat 128 ((2 ^ n - 1) * 2 ^ lo)

/-- Bytes written in a region's lines are added to their masks (R179). -/
def State.markWritten (s : State) (bid off n : Nat) : State :=
  let lines := (List.range ((off % 128 + n + 127) / 128)).map fun i => off / 128 * 128 + 128 * i
  lines.foldl (fun (s : State) lo => match s.block? bid with
    | some b => match b.regionAt lo with
      | some (r, idx) =>
        let a := max off lo
        let z := min (off + n) (lo + 128)
        let m := lineMask (a - lo) (z - a)
        s.updRegion bid r fun g =>
          if (g.line? idx).isSome then
            { g with lines := g.lines.map (fun l => if l.idx = idx then { l with mask := l.mask ||| m } else l) }
          else { g with lines := g.lines ++ [{ idx := idx, mask := m, faulted := false }] }
      | none => s
    | none => s) s

/-! ## Write-back -/

/-- The masked bytes of a line, granule by granule: the place of each granule's first byte, and its bytes, none where the mask
leaves one out. -/
def maskedGranules (m : BitVec 128) (bs : List Byte) : List (Nat × List (Option Byte)) :=
  (List.range 16).map fun g => (8 * g, (List.range 8).map fun i => if m.getLsbD (8 * g + i) then bs[8 * g + i]? else none)

/-- The bytes of a granule that are there are stored: all eight in one store, else one by one. -/
def State.storeGranule (s : State) (l : Loc) (bs : List (Option Byte)) : State :=
  if bs.all (·.isSome) then s.storeAt l (bs.filterMap id)
  else ((List.range bs.length).zip bs).foldl (fun (s : State) p => match p.2 with
    | some x => s.storeAt (l.shift p.1) [x]
    | none => s) s

/-- A write-back's fault is entered for the region map unit, which retries when it is resolved (R179, R313). -/
def State.writeBackFault (s : State) (b : Block) (r idx : Nat) (va : DWord) (xkind info : Nat) : State :=
  let s := s.updRegion b.bid r fun g =>
    { g with lines := g.lines.map (fun l => if l.idx = idx then { l with faulted := true } else l) }
  s.fsqAdd (domOf b.core)
    { va := va, asid := b.regs.asid, core := b.core, agent := .region b.bid r idx, cause := Cause.regionWb.code,
      xkind := xkind, access := 1, park := true, block := b.regs.blockid, info := BitVec.ofNat 32 info, word := 0 }

/-- The stores that go before a write-back of a range: those of its block that the block has seen (R273), and, where an RFLUSH or
UNMAP of an agent covers it, the agent's own (R180, R275). -/
def State.beforeWriteBack (s : State) (bid : Nat) (ag : Option Agent) (l : Loc) (a : Access) : Bool :=
  a.isStore && s.locsMeet a.loc a.width l 128 && ((a.seen.isSome && s.bidOf a.agent == bid) || some a.agent == ag)

/-- The region map unit writes back a dirty line: only its masked bytes, as relaxed stores (R179): of the agent whose RFLUSH or
UNMAP covers it, if any (R180). A faulted line waits for its response; a frozen frame or a clock change holds the write back. -/
def State.writeBack (s : State) (ag : Option Agent) (bid r idx : Nat) : State :=
  match s.block? bid with
  | none => s
  | some b => match b.region r with
    | none => s
    | some g => match g.line? idx with
      | none => s
      | some l =>
        if l.mask = 0 ∨ l.faulted then s
        else
          let va := g.lineVa idx
          let sp := b.space b.priv
          match s.translate sp .write true va.toNat with
          | (.fault x lvl _, s) => s.writeBackFault b r idx va x lvl
          | (.hole _, s) => s.writeBackFault b r idx va 15 Cause.memHole.code
          | (.poison, s) => s
          | (.waits, s) => s
          | (.leaf e, s) =>
            let loc := e.loc sp.core va.toNat
            let first := s.beforeWriteBack bid ag loc
            -- a write-back to MMIO, 128 bytes wide: REGION_WB with the code of MISALIGNED (log 134)
            if (s.homeOf sp.ctxid loc).isMmio then s.writeBackFault b r idx va 15 Cause.misaligned.code
            else if s.requestHeld sp.core loc 128 || !s.forceable first || !s.seenFree (fun _ => true) loc 128 then s
            else
              let s := ((s.force first).settleSeen (fun _ => true) loc 128).cacheStore none loc
              let s := (maskedGranules l.mask (s.readScr b.core (b.scr (g.lineOff idx)) 128)).foldl (fun (s : State) p =>
                s.storeGranule (loc.shift p.1) p.2) s
              s.updRegion bid r fun g =>
                { g with
                  lines := g.lines.map (fun l => if l.idx = idx then { l with mask := 0 } else l)
                  hostSeen := if loc.isWindow then seeHost g.hostSeen (s.locKeys loc 128) s.past.length else g.hostSeen }

/-- Every dirty line of a region is written back. -/
def State.writeBackAll (s : State) (ag : Option Agent) (bid r : Nat) : State :=
  match s.block? bid with
  | some b => match b.region r with
    | some g => g.lines.foldl (fun (s : State) l => s.writeBack ag bid r l.idx) s
    | none => s
  | none => s

/-- No line of the region is dirty. -/
def State.regionClean (s : State) (bid r : Nat) : Bool :=
  match s.block? bid with
  | some b => match b.region r with
    | some g => g.lines.all fun l => l.mask == 0
    | none => true
  | none => true

/-- An outstanding access to a block's window: a region operation takes its place after it (R177). -/
def State.inWindow (s : State) (b : Block) (a : Access) : Bool :=
  s.locsMeet a.loc a.width (.scratch b.core b.regs.scratchBase.toNat) b.regs.scratchSize.toNat

/-! ## MAP, UNMAP, RFLUSH (R178) -/

/-- The first reason of REGION_INVALID that MAP finds. -/
def State.mapReason (s : State) (b : Block) (g : Region) (base : DWord) (sb : Word) : Option Nat :=
  let page := (sb.extractLsb' 0 8).toNat
  let n := (sb.extractLsb' 8 8).toNat + 1
  let last := base + BitVec.ofNat 64 (n * 4096 - 1)
  if g.valid then some 1
  else if sb.extractLsb' 16 16 ≠ 0 ∨ (page + n) * 4096 > b.regs.scratchSize.toNat then some 2
  else if b.regions.toList.any fun x => x.valid && rangesMeet page n x.page x.pages then some 3
  else if !canonical base.toNat || base.extractLsb' 0 12 != 0 || !canonical last.toNat ||
      last.getLsbD 56 != base.getLsbD 56 then some 4
  else if (s.core b.core).phasers.any fun p => rangesMeet (32 * p) 32 (b.scr (page * 4096)) (n * 4096) then some 5
  else none

/-- A region operation of each executing thread: it takes its place after every outstanding access to the window, and its
write-backs, which are stores, after the thread's loads (R177, R180, R275). -/
def State.regionOp (s : State) (o : Op) (f : State → Agent → Block → List VReg → State) : State :=
  (s.runGroup o noFixed fun s ag vs => match s.blockOf ag with
    | some b =>
      let first := fun a : Access => s.inWindow b a || acquires ag .sys a
      if s.forceable first then f (s.force first) ag b vs else s
    | none => s).frameRules

/-- MAP. The wr bit is kept and saved; the spec gives it no other effect, and the model gives it none (log 135). -/
def execMap (a b : BitVec 4) (w : BitVec 1) (r : BitVec 3) (n : BitVec 3) (s : State) : Host.Outcome State Fault Refusal :=
  .next (s.regionOp
    { n := n, srcs := sSrcs a 2 ++ [sSrc b], bad := groupBad [(a.toNat, 2)], who := .thread } fun s ag blk vs =>
    let base := pairAt vs 0
    let sb := valAt vs 2
    match blk.region r.toNat with
    | none => s
    | some g => match s.mapReason blk g base sb with
      | some k => s.trap ag .regionInvalid (BitVec.ofNat 32 k) 0
      | none =>
        (s.updRegion blk.bid r.toNat fun _ =>
          { valid := true, base := base, page := (sb.extractLsb' 0 8).toNat, pages := (sb.extractLsb' 8 8).toNat + 1,
            wr := w == 1#1, lines := [], lost := false, wants := [], hostSeen := [] }).advance ag n)

/-- RFLUSH, then what `last` adds: the thread does not go on while a line stays dirty; bytes that a kill discarded give
REGION_INVALID with reason 6 (R346). -/
def State.flush (s : State) (last : Region → Region) (ag : Agent) (blk : Block) (r : Nat) (n : BitVec 3) : State :=
  match blk.region r with
  | none => s
  | some g =>
    if !g.valid then s.trap ag .regionInvalid 1 0
    else
      let s := s.writeBackAll (some ag) blk.bid r
      if !s.regionClean blk.bid r then s
      else
        let lost := match s.block? blk.bid with
          | some b => match b.region r with
            | some g => g.lost
            | none => false
          | none => false
        if lost then (s.updRegion blk.bid r fun g => { g with lost := false }).trap ag .regionInvalid 6 0
        else (s.updRegion blk.bid r last).advance ag n

def execUnmap (r : BitVec 3) (n : BitVec 3) (s : State) : Host.Outcome State Fault Refusal :=
  .next (s.regionOp { n := n, who := .thread } fun s ag blk _ =>
    s.flush (fun g => { g with valid := false, lines := [] }) ag blk r.toNat n)

def execRflush (v : BitVec 1) (r : BitVec 3) (n : BitVec 3) (s : State) : Host.Outcome State Fault Refusal :=
  .next (s.regionOp { n := n, who := .thread } fun s ag blk _ =>
    s.flush (fun g => if v = 1#1 then { g with lines := [] } else g) ag blk r.toNat n)

/-! ## The region map unit's own turns -/

/-- REGION_LINE_FILL: the unit fills a line whose fill an access waits for; other accesses make their fill at their own turn. -/
def execRegionLineFill (bid r line : Nat) (s : State) : Host.Outcome State Fault Refusal :=
  .next (match s.block? bid with
    | some b => match b.region r with
      | some g =>
        if g.valid && (g.line? line).isNone && g.wants.contains line then
          match s.fillLine bid r line with
          | (.filled, s) => s
          | (.poisoned, s) => s
          | _ => s
        else s
      | none => s
    | none => s)

end Sys2Proof.Machine
end

