-- ==== Sys2Proof/Machine/Engine.lean ====
section
/-! DEFINITION. What the copy and the matrix engine share: tensor table entries (R83 to R87), bytes reached by a command in
each space (R191, R204 to R206), elements of a tensor (R72, R81, R82, R85), guards and posting (R194, R200), credits (R202). -/

namespace Sys2Proof.Machine

/-! ## Tensor table entries -/

/-- The fields of an entry (R84). -/
structure Tensor where
  pstr : Nat
  cstr : Nat
  pl : Nat
  enc : Nat
  zp : Nat
  valid : Bool
  fmt : Nat
  space : Nat
  group : Nat
  reading : Nat
  str2 : Nat
  str1 : Nat
  ext2 : Nat
  ext1 : Nat
  ext0 : Nat
  zaddr : Nat
  saddr : Nat
  addr : Nat
  deriving DecidableEq, Repr

/-- An entry from its 512 bits (R84). -/
def Tensor.ofNat (x : Nat) : Tensor :=
  { pstr := bitsOf x 480 32, cstr := bitsOf x 448 32, pl := bitsOf x 446 2, enc := bitsOf x 444 2, zp := bitsOf x 436 8,
    valid := bitOf x 415, fmt := bitsOf x 410 5, space := bitsOf x 408 2, group := bitsOf x 406 2,
    reading := bitsOf x 404 2, str2 := bitsOf x 320 32, str1 := bitsOf x 288 32, ext2 := bitsOf x 256 32,
    ext1 := bitsOf x 224 32, ext0 := bitsOf x 192 32, zaddr := bitsOf x 128 64, saddr := bitsOf x 64 64,
    addr := bitsOf x 0 64 }

/-- FMT 18 is PLANE (R85). -/
def Tensor.isPlane (t : Tensor) : Bool := t.fmt == 18
def Tensor.isQuant (t : Tensor) : Bool := t.fmt == 16 || t.fmt == 17
def Tensor.isNarrow (t : Tensor) : Bool := decide (11 ≤ t.fmt) && decide (t.fmt ≤ 15)

/-- Planes of a PLANE entry (R84). -/
def Tensor.planes (t : Tensor) : Nat := 2 ^ t.pl

/-- Elements of a group (R84). -/
def Tensor.groupSize (t : Tensor) : Nat := 32 * 2 ^ t.group

/-- Bits of an element in memory (R85); 0 for PLANE. -/
def fmtBits (fmt : Nat) : Nat :=
  match fmt with
  | 0 => 8 | 1 => 16 | 2 => 32 | 3 => 64
  | 4 => 8 | 5 => 16 | 6 => 32 | 7 => 64
  | 8 => 32 | 9 => 16 | 10 => 16
  | 11 => 8 | 12 => 8 | 13 => 6 | 14 => 6 | 15 => 4
  | 16 => 4 | 17 => 8
  | _ => 0

def Tensor.bits (t : Tensor) : Nat := fmtBits t.fmt

/-- GROUP is used by Q4, Q8 and by PLANE with ENC 3 (R84). -/
def Tensor.usesGroup (t : Tensor) : Bool := t.isQuant || (t.isPlane && t.enc == 3)

/-- Bits of an address field that a scratchpad space leaves zero (R84). -/
def scratchAddrOk (space a : Nat) : Bool :=
  match space with
  | 1 => decide (a < 2 ^ 20)
  | 2 => decide (a < 2 ^ 36)
  | _ => true

/-- The checks of R86 on a valid handle's entry. -/
def Tensor.ok (t : Tensor) : Bool :=
  t.valid && decide (t.fmt ≤ 18) && t.space != 3 &&
  !(t.usesGroup && t.group == 3) && !(t.isNarrow && t.reading == 3) &&
  -- fields that the format does not use are zero
  (t.isPlane || (t.pstr == 0 && t.cstr == 0 && t.pl == 0 && t.enc == 0)) &&
  ((t.isPlane && t.enc == 2) || t.zp == 0) && (t.usesGroup || (t.group == 0 && t.saddr == 0)) &&
  (t.isQuant || t.zaddr == 0) && (t.isNarrow || t.reading == 0) &&
  scratchAddrOk t.space t.addr && scratchAddrOk t.space t.saddr && scratchAddrOk t.space t.zaddr &&
  t.ext0 != 0 && t.ext1 != 0 && t.ext2 != 0 &&
  (if t.isPlane then
    t.space == 1 && t.ext0 % 128 == 0 && t.ext1 % 32 == 0 && t.addr % 16 == 0 && t.str1 % 16 == 0 &&
    t.cstr % 16 == 0 && t.pstr % 16 == 0
  else
    (decide (t.bits < 8) || (t.addr % (t.bits / 8) == 0 && t.str1 % (t.bits / 8) == 0 && t.str2 % (t.bits / 8) == 0)) &&
    (t.bits != 6 || t.ext0 % 4 == 0) && (t.bits != 4 || t.ext0 % 2 == 0) && (!t.isQuant || t.ext0 % t.groupSize == 0))

/-- The instruction at hand reads the entry of a handle and checks it (R83, R86, R87). A used READING of 3 gives TENSOR_INVALID, as
R86 has it for every reserved value of an entry (log 137). The 64 bytes are those of one instant (log 165). None: the agent has
trapped or parked, or a frozen frame or a clock change holds the read back (R325, R398). -/
def State.tensorEntry (s : State) (ag : Agent) (handle : Nat) : Option Nat × State :=
  let h := handle % 4096
  match s.blockOf ag with
  | none => (none, s)
  | some b =>
    if h ≥ b.regs.ttCount.toNat then (none, s.trap ag .tensorInvalid (BitVec.ofNat 32 h) 0)
    else match s.admitted ag .read (b.regs.ttBase + BitVec.ofNat 64 (64 * h)) 64 with
      | (none, s) => (none, s)
      | (some (loc, _, _), s) =>
        if s.requestHeld b.core loc 64 then (none, s)
        else if s.locPoisoned loc 64 then (none, s.payloadError b.regs.ctxid)
        else
          let (bs, s) := s.relaxedBytes ag loc 64
          let x := leNat bs
          if (Tensor.ofNat x).ok then (some x, s) else (none, s.trap ag .tensorInvalid (BitVec.ofNat 32 h) 0)

/-! ## Bytes of a command -/

/-- Why a command cannot go on at an access (R205, R206). -/
inductive EngStop where
  /-- A translation fault: of a global page, or (`fill`) of the fill of a region line. -/
  | park (va : DWord) (xkind level : Nat) (kind : AccKind) (fill : Bool)
  | stop (cause : Cause) (at_ : DWord)
  /-- A frozen frame holds the access (R325). -/
  | waits
  /-- A poisoned granule: the context has stopped (R405). -/
  | dead
  deriving DecidableEq, Repr

/-- The queue and the command that make an access. -/
structure Eng where
  core : Nat
  b : Nat
  matrix : Bool
  id : Nat
  deriving DecidableEq, Repr

/-- A byte as a locator or an entry names it: a virtual address (space 0) or a window offset of this block (1) or of a named
block (2) (R84, R191). -/
structure Spot where
  space : Nat
  name : Nat
  addr : Nat
  deriving DecidableEq, Repr

def Eng.agent (e : Eng) : Agent := .bobbin e.core e.b

def State.engCommand (s : State) (e : Eng) : Option Command :=
  ((s.bobbin e.core e.b).queue e.matrix).find? fun c => c.id == e.id

def State.updEng (s : State) (e : Eng) (f : Command → Command) : State := s.updCommand e.core e.b e.matrix e.id f

/-- A page of a command is translated once per command (R205); what its frame is may change meanwhile (R381, R385). -/
def State.engLeaf (s : State) (e : Eng) (kind : AccKind) (va : Nat) : Except EngStop TlbEntry × State :=
  let held := match s.engCommand e with
    | some c => c.pages.find? fun p : Nat × TlbEntry => p.1 == kind.code && p.2.vpn == va % 2 ^ 57 / pageBytes p.2.level
    | none => none
  match held with
  | some p =>
    let sp := s.spaceOf e.agent
    if s.routeLost sp.ctxid (pteFrame p.2.entry / 2 ^ 52) then (.error .dead, s.payloadError (BitVec.ofNat 32 sp.ctxid))
    else if !s.heldStored sp kind p.2 va then (.error (.stop .memHole (BitVec.ofNat 64 va)), s)
    else (.ok p.2, s)
  | none => match s.translate (s.spaceOf e.agent) kind true va with
    | (.fault x l _, s) => (.error (.park (BitVec.ofNat 64 va) x l kind false), s)
    | (.hole _, s) => (.error (.stop .memHole (BitVec.ofNat 64 va)), s)
    | (.poison, s) => (.error .dead, s)
    | (.waits, s) => (.error .waits, s)
    | (.leaf t, s) => (.ok t, s.updEng e fun c => { c with pages := (kind.code, t) :: c.pages })

/-- The block whose window a spot lies in (R191, R376). -/
def State.spotBlock (s : State) (e : Eng) (p : Spot) : Except EngStop Block :=
  match s.blockOf e.agent with
  | none => .error .waits
  | some b =>
    if p.space = 1 then .ok b
    else if b.regs.qsize = 0 then .error (.stop .nameInvalid (BitVec.ofNat 64 p.name))
    else match s.resolve b p.name with
      | .invalid => .error (.stop .nameInvalid (BitVec.ofNat 64 p.name))
      | .held => .error .waits
      | .retired _ => .error (.stop .nameRetired (BitVec.ofNat 64 p.name))
      | .found tb => .ok tb

/-- The parts of `n` bytes from an address on that lie in one aligned group of 8 bytes each (R204): distance and length. -/
def pieces (addr n : Nat) : List (Nat × Nat) :=
  if n = 0 then []
  else (List.range ((addr % 8 + n + 7) / 8)).map fun i =>
    (8 * i - addr % 8, min n (8 * (i + 1) - addr % 8) - (8 * i - addr % 8))

/-- The location of a spot of virtual memory, for `n` bytes of one page; a store waits for the seen stores that go before it (R274).
-/
def State.engLocVirtual (s : State) (e : Eng) (kind : AccKind) (va n : Nat) : Except EngStop Loc × State :=
  let at_ := BitVec.ofNat 64 va
  if !canonical va then (.error (.stop .noncanonical at_), s)
  else match s.engLeaf e kind va with
    | (.error x, s) => (.error x, s)
    | (.ok t, s) =>
      let sp := s.spaceOf e.agent
      let loc := t.loc sp.core va
      let home := s.homeOf sp.ctxid loc
      if kind = .both ∧ (home.isMmio ∨ loc.isWindow) then (.error (.stop .atomInvalid at_), s)
      else if home.isMmio then (.error (.stop .misaligned at_), s)
      else if s.requestHeld e.core loc n || kind.writes && !s.seenFree (fun _ => true) loc n then (.error .waits, s)
      else (.ok loc, s)

/-- The location of a spot of a block's scratchpad window, for `n` bytes: a region line that is invalid is filled, unless the bytes
to be written are all of it (R179). -/
def State.engLocWindow (s : State) (b : Block) (kind : AccKind) (off n : Nat) : Except EngStop Loc × State :=
  if off + n > b.regs.scratchSize.toNat then (.error (.stop .scratchBounds (BitVec.ofNat 64 (max off b.regs.scratchSize.toNat))), s)
  else match s.fillRange b.bid off n (kind == .write) with
    | (.xfault va x l, s) => (.error (.park va x l .read true), s)
    | (.stop c va, s) => (.error (.stop c va), s)
    | (.waits, s) => (.error .waits, s)
    | (.poisoned, s) => (.error .dead, s)
    | (.filled, s) =>
      if kind.writes && (s.core b.core).phasers.any (fun g => rangesMeet (32 * g) 32 (b.scr off) n) then
        (.error (.stop .phaserClobber (BitVec.ofNat 64 off)), s)
      else if kind.writes && !s.seenFree (fun _ => true) (.scratch b.core (b.scr off)) n then (.error .waits, s)
      else (.ok (.scratch b.core (b.scr off)), s)

/-- Where `n` bytes of a command lie that one aligned group of 8 bytes or one line holds (R205, R206). An engine's accesses are
byte accesses, which MMIO does not take; the update of an element takes neither MMIO nor a host window (R198). -/
def State.engLoc (s : State) (e : Eng) (kind : AccKind) (p : Spot) (n : Nat) : Except EngStop Loc × State :=
  if p.space = 0 then s.engLocVirtual e kind (p.addr % 2 ^ 64) n
  else match s.spotBlock e p with
    | .error x => (.error x, s)
    | .ok b => (match s.blockOf e.agent with
      | some mine => if p.space = 2 then s.usedName mine p.name else s
      | none => s).engLocWindow b kind p.addr n

/-- The next bytes. -/
def Spot.plus (p : Spot) (n : Nat) : Spot := { p with addr := p.addr + n }

/-- Read bytes of an already located group. -/
def State.engBytes (s : State) (e : Eng) (loc : Loc) (n : Nat) : Except EngStop (List Byte) × State :=
  if s.locPoisoned loc n then
    (.error .dead, match s.blockOf e.agent with
      | some b => s.payloadError b.regs.ctxid
      | none => s)
  else
    let (bs, s) := s.relaxedBytes e.agent loc n
    (.ok bs, s)

/-- Read the parts of a range, lowest first. -/
def State.engReadParts (s : State) (e : Eng) (kind : AccKind) (p : Spot) :
    List (Nat × Nat) → Except EngStop (List Byte) × State
  | [] => (.ok [], s)
  | (at_, n) :: rest => match s.engLoc e kind (p.plus at_) n with
    | (.error x, s) => (.error x, s)
    | (.ok loc, s) => match s.engBytes e loc n with
      | (.error x, s) => (.error x, s)
      | (.ok ys, s) => match s.engReadParts e kind p rest with
        | (.ok zs, s) => (.ok (ys ++ zs), s)
        | (.error x, s) => (.error x, s)

/-- Read `n` bytes, lowest first: each aligned group of 8 at once (R204). -/
def State.engRead (s : State) (e : Eng) (kind : AccKind) (p : Spot) (n : Nat) : Except EngStop (List Byte) × State :=
  s.engReadParts e kind p (pieces p.addr n)

/-- All parts of a range can be reached with this access kind. -/
def State.engReach (s : State) (e : Eng) (kind : AccKind) (p : Spot) : List (Nat × Nat) → Except EngStop Unit × State
  | [] => (.ok (), s)
  | (at_, n) :: rest => match s.engLoc e kind (p.plus at_) n with
    | (.error x, s) => (.error x, s)
    | (.ok _, s) => s.engReach e kind p rest

/-- A command stores at a location: for every agent at once, after the seen stores to these bytes (R274); to a host window by an
RDMA WRITE, outstanding until its acknowledgement (R385). -/
def State.engPut (s : State) (e : Eng) (va : Nat) (loc : Loc) (bs : List Byte) : State :=
  if loc.isWindow then
    let via := (s.engCommand e).bind fun c =>
      (c.pages.find? fun p => AccKind.writes (accKindOf p.1) && p.2.vpn == va % 2 ^ 57 / pageBytes p.2.level).map (·.2)
    s.addAccess { accessOf e.agent e.core loc bs.length (.store bs) va .outside via with cmd := some e.id }
  else ((s.settleSeen (fun _ => true) loc bs.length).cacheStore none loc).storeAt loc bs

/-- A store of the command to a host window awaits its acknowledgement (R385). -/
def State.engOwed (s : State) (e : Eng) : Bool := s.accs.any fun a => a.cmd == some e.id

/-- Store the parts of a range that can be reached. -/
def State.engStore (s : State) (e : Eng) (kind : AccKind) (p : Spot) (bs : List Byte) : List (Nat × Nat) → State
  | [] => s
  | (at_, n) :: rest => match s.engLoc e kind (p.plus at_) n with
    | (.error _, s) => s
    | (.ok loc, s) =>
      let s := s.engPut e (p.addr + at_) loc ((bs.drop at_).take n)
      let s := if p.space = 0 then s else match s.spotBlock e p with
        | .ok b => s.markWritten b.bid (p.addr + at_) n
        | .error _ => s
      s.engStore e kind p bs rest

/-- Write the parts of a range, all or none. -/
def State.engWriteParts (s : State) (e : Eng) (kind : AccKind) (p : Spot) (bs : List Byte) (ps : List (Nat × Nat)) :
    Except EngStop Unit × State :=
  match s.engReach e kind p ps with
  | (.error x, s) => (.error x, s)
  | (.ok _, s) => (.ok (), s.engStore e kind p bs ps)

/-- Write bytes, each aligned group of 8 at once (R204). -/
def State.engWrite (s : State) (e : Eng) (kind : AccKind) (p : Spot) (bs : List Byte) : Except EngStop Unit × State :=
  s.engWriteParts e kind p bs (pieces p.addr bs.length)

/-! ## Elements of a tensor -/

/-- A byte at an address field of an entry plus `rel`, in the entry's space (R84). -/
def Tensor.spot (t : Tensor) (field rel : Nat) : Spot :=
  match t.space with
  | 0 => ⟨0, 0, field + rel⟩
  | 1 => ⟨1, 0, field % 2 ^ 20 + rel⟩
  | _ => ⟨2, bitsOf field 20 16, field % 2 ^ 20 + rel⟩

/-- The first byte of an element's row (R85). -/
def Tensor.row (t : Tensor) (i1 i2 : Nat) : Nat := i2 * t.str2 + i1 * t.str1

/-- The first byte and the bytes that hold element i0 of a row (R85). -/
def Tensor.elemBytes (t : Tensor) (i0 : Nat) : Nat × Nat := (i0 * t.bits / 8, (i0 * t.bits % 8 + t.bits + 7) / 8)

/-- The window offset of the byte that holds plane `i` of a PLANE element (R81); the bit is i0 mod 8. -/
def Tensor.planeOff (t : Tensor) (i0 i1 i2 i : Nat) : Nat :=
  t.addr % 2 ^ 20 + i2 * t.str2 + i1 / 32 * t.str1 + i0 / 128 * t.cstr + i * t.pstr + 16 * (i1 % 32) + i0 % 128 / 8

/-- The group of an element (R82, R85). -/
def Tensor.groupOf (t : Tensor) (i0 i1 i2 : Nat) : Nat :=
  (i2 * t.ext1 + i1) * (t.ext0 / t.groupSize) + i0 / t.groupSize

/-- The code of a PLANE element over planes i.. (R82). -/
def State.planeGet (s : State) (e : Eng) (t : Tensor) (i0 i1 i2 : Nat) : List Nat → Except EngStop Nat × State
  | [] => (.ok 0, s)
  | i :: is => match s.engRead e .read ⟨1, 0, t.planeOff i0 i1 i2 i⟩ 1 with
    | (.error x, s) => (.error x, s)
    | (.ok bs, s) => match s.planeGet e t i0 i1 i2 is with
      | (.ok u, s) => (.ok (u + (if bitOf (leNat bs) (i0 % 8) then 2 ^ i else 0)), s)
      | (.error x, s) => (.error x, s)

/-- The bits of an element (R81, R85). -/
def State.elemGet (s : State) (e : Eng) (t : Tensor) (i0 i1 i2 : Nat) : Except EngStop Nat × State :=
  if t.isPlane then s.planeGet e t i0 i1 i2 (List.range t.planes)
  else
    let (at_, n) := t.elemBytes i0
    match s.engRead e .read (t.spot t.addr (t.row i1 i2 + at_)) n with
    | (.error x, s) => (.error x, s)
    | (.ok bs, s) => (.ok (bitsOf (leNat bs) (i0 * t.bits % 8) t.bits), s)

/-- Bytes with the field [lo + len − 1 : lo] replaced. -/
def mergeBits (old lo len new : Nat) : Nat :=
  old - bitsOf old lo len * 2 ^ lo + new % 2 ^ len * 2 ^ lo

/-- Store a field of the bytes at a spot: the other bits of a shared byte keep their values. -/
def State.fieldPut (s : State) (e : Eng) (p : Spot) (n lo len code : Nat) : Except EngStop Unit × State :=
  if lo = 0 ∧ len = 8 * n then s.engWrite e .write p (leBytes n code)
  else match s.engRead e .write p n with
    | (.error x, s) => (.error x, s)
    | (.ok bs, s) => s.engWrite e .write p (leBytes n (mergeBits (leNat bs) lo len code))

def State.planePut (s : State) (e : Eng) (t : Tensor) (i0 i1 i2 code : Nat) : List Nat → Except EngStop Unit × State
  | [] => (.ok (), s)
  | i :: is => match s.fieldPut e ⟨1, 0, t.planeOff i0 i1 i2 i⟩ 1 (i0 % 8) 1 (code / 2 ^ i) with
    | (.error x, s) => (.error x, s)
    | (.ok _, s) => s.planePut e t i0 i1 i2 code is

/-- Write the bits of an element. -/
def State.elemPut (s : State) (e : Eng) (t : Tensor) (i0 i1 i2 code : Nat) : Except EngStop Unit × State :=
  if t.isPlane then s.planePut e t i0 i1 i2 code (List.range t.planes)
  else
    let (at_, n) := t.elemBytes i0
    s.fieldPut e (t.spot t.addr (t.row i1 i2 + at_)) n (i0 * t.bits % 8) t.bits code

/-- Scale and zero point of an element's group (R72, R85). -/
def State.quantParams (s : State) (e : Eng) (t : Tensor) (i0 i1 i2 : Nat) : Except EngStop (Nat × Nat) × State :=
  let g := t.groupOf i0 i1 i2
  match s.engRead e .read (t.spot t.saddr (2 * g)) 2 with
  | (.error x, s) => (.error x, s)
  | (.ok sc, s) => match s.engRead e .read (t.spot t.zaddr g) 1 with
    | (.error x, s) => (.error x, s)
    | (.ok z, s) => (.ok (leNat sc, leNat z), s)

/-- The layout of a float format code (R85). -/
def fmtOfCode (fmt : Nat) : Option Fmt :=
  match fmt with
  | 8 => some .f32 | 9 => some .f16 | 10 => some .bf16
  | 11 => some .f8e4 | 12 => some .f8e5 | 13 => some .f6e2 | 14 => some .f6e3 | 15 => some .f4e2
  | _ => none

/-- The reading an entry's format uses: its own for narrow formats (R70). -/
def Tensor.readingUsed (t : Tensor) : Reading := if t.isNarrow then (readingOf t.reading).getD .fin else .ieee

/-- A code as a signed integer of w bits. -/
def signedCode (w code : Nat) : Int := if w ≠ 0 ∧ code ≥ 2 ^ (w - 1) then (code : Int) - 2 ^ w else code

/-- The value of an integer code under ENC 0, 1 or 2 (R82). -/
def Tensor.encValue (t : Tensor) (u : Nat) : Int :=
  match t.enc with
  | 0 => u
  | 2 => (u : Int) - t.zp
  | _ => (u : Int) - 2 ^ (t.planes - 1)

/-- The exact value of an element (R72, R82, R196). -/
def State.elemValue (s : State) (e : Eng) (t : Tensor) (i0 i1 i2 : Nat) : Except EngStop FVal × State :=
  match s.elemGet e t i0 i1 i2 with
  | (.error x, s) => (.error x, s)
  | (.ok code, s) =>
    if t.isQuant then match s.quantParams e t i0 i1 i2 with
      | (.error x, s) => (.error x, s)
      | (.ok (sc, z), s) => (.ok ((valueOf .f16 sc).mul (FVal.ofInt ((code : Int) - z))), s)
    else if t.isPlane then
      if t.enc = 3 then match s.engRead e .read (t.spot t.saddr (t.groupOf i0 i1 i2)) 1 with
        | (.error x, s) => (.error x, s)
        | (.ok x, s) =>
          let k := t.encValue code
          (.ok (.fin (decide (k < 0)) k.natAbs (signedCode 8 (leNat x))), s)
      else (.ok (FVal.ofInt (t.encValue code)), s)
    else match fmtOfCode t.fmt with
      | some F => (.ok (F.value t.readingUsed code), s)
      | none => (.ok (FVal.ofInt (if t.fmt < 4 then signedCode t.bits code else code)), s)

/-- Store a value as an element (R196): one rounding; integers clamp (R67). PLANE elements are MPLANE's. A code that the element
cannot hold, a zero point above 15 in a Q4 element, is stored mod 16 (log 138). -/
def State.elemStore (s : State) (e : Eng) (t : Tensor) (i0 i1 i2 : Nat) (x : FVal) : Except EngStop Unit × State :=
  if t.isQuant then match s.quantParams e t i0 i1 i2 with
    | (.error x, s) => (.error x, s)
    | (.ok (sc, z), s) => s.elemPut e t i0 i1 i2 (quantCode x sc z t.bits)
  else match fmtOfCode t.fmt with
    | some F => s.elemPut e t i0 i1 i2 (encodeFloat F t.readingUsed .rn x)
    | none =>
      let w := t.bits
      let (lo, hi) : Int × Int := if t.fmt < 4 then (-2 ^ (w - 1), 2 ^ (w - 1) - 1) else (0, 2 ^ w - 1)
      s.elemPut e t i0 i1 i2 ((toInt .rn lo hi x).emod (2 ^ w)).toNat

/-! ## Ranges that posting checks (R194) -/

/-- Reason 7 (R194, R214): a quarter operand of a block in no quarter, or a name that holds no block of it. -/
def State.nameReasons (s : State) (b : Block) (space name : Nat) : List Nat :=
  if space = 2 ∧ (b.regs.qsize = 0 ∨ (s.peer b name).isNone) then [7] else []

/-- The bytes from lo to hi − 1 of a space, as the checks of posting see them: reason 8 for a global range that is not
canonical throughout, 3 past the block's own window, 7 for a name that holds no block of the quarter; `peers`: 3 past a named
block's window too (R214). -/
def State.rangeReasons (s : State) (peers : Bool) (b : Block) (space name : Nat) (lo hi : Int) : List Nat :=
  if hi ≤ lo then []
  else match space with
    | 0 =>
      let a := lo.toNat
      let z := (hi - 1).toNat
      if lo < 0 || decide (hi > 2 ^ 64) || !canonical a || !canonical z || bitOf a 56 != bitOf z 56 then [8] else []
    | 1 => if lo < 0 ∨ hi > b.regs.scratchSize.toNat then [3] else []
    | _ =>
      s.nameReasons b space name ++ match s.peer b name with
        | none => []
        | some k => if peers && (decide (lo < 0) || decide (hi > k.regs.scratchSize.toNat)) then [3] else []

/-- A window of an entry: origins and extents. -/
structure Window where
  o0 : Nat
  o1 : Nat
  o2 : Nat
  w0 : Nat
  w1 : Nat
  w2 : Nat
  deriving DecidableEq, Repr

/-- The greatest of a function over lo … lo + n − 1. -/
def maxOver (f : Nat → Nat) (lo n : Nat) : Nat := (List.range n).foldl (fun m i => max m (f (lo + i))) 0

/-- The highest window offset of the bytes of a PLANE window (R81). -/
def Tensor.planeTop (t : Tensor) (w : Window) : Nat :=
  t.addr % 2 ^ 20 + (w.o2 + w.w2 - 1) * t.str2 + maxOver (fun i => i / 32 * t.str1 + 16 * (i % 32)) w.o1 w.w1 +
    maxOver (fun i => i / 128 * t.cstr + i % 128 / 8) w.o0 w.w0 + (t.planes - 1) * t.pstr

/-- Reason 4 for a window (R194): past the extents, or an odd origin or width of a sub-byte side. -/
def Tensor.windowReasons (t : Tensor) (w : Window) : List Nat :=
  let past := w.o0 + w.w0 > t.ext0 ∨ w.o1 + w.w1 > t.ext1 ∨ w.o2 + w.w2 > t.ext2
  let odd := (t.bits = 4 ∧ (w.o0 % 2 ≠ 0 ∨ w.w0 % 2 ≠ 0)) ∨ (t.bits = 6 ∧ (w.o0 % 4 ≠ 0 ∨ w.w0 % 4 ≠ 0))
  if past ∨ odd then [4] else []

/-- The bytes of a window of an entry; `scales`: its scale and zero-point bytes are read too (R194 reasons 3, 7, 8). Of a window of
no elements the names are checked. -/
def State.tensorReasons (s : State) (peers : Bool) (b : Block) (t : Tensor) (w : Window) (scales : Bool) : List Nat :=
  if w.w0 = 0 ∨ w.w1 = 0 ∨ w.w2 = 0 then
    (t.addr :: if scales && t.isQuant then [t.saddr, t.zaddr] else []).flatMap fun field =>
      let p := t.spot field 0
      s.nameReasons b p.space p.name
  else if t.isPlane then (if t.planeTop w ≥ b.regs.scratchSize.toNat then [3] else [])
  else
    let at_ := fun (field lo hi : Nat) =>
      let p := t.spot field 0
      s.rangeReasons peers b p.space p.name ((p.addr + lo : Nat) : Int) ((p.addr + hi : Nat) : Int)
    let lo := t.row w.o1 w.o2 + w.o0 * t.bits / 8
    let hi := t.row (w.o1 + w.w1 - 1) (w.o2 + w.w2 - 1) + ((w.o0 + w.w0) * t.bits + 7) / 8
    at_ t.addr lo hi ++
      (if scales && t.isQuant then
        let g := t.groupOf w.o0 w.o1 w.o2
        let g' := t.groupOf (w.o0 + w.w0 - 1) (w.o1 + w.w1 - 1) (w.o2 + w.w2 - 1)
        at_ t.saddr (2 * g) (2 * g' + 2) ++ at_ t.zaddr g (g' + 1)
      else [])

/-- The lowest of a list of reasons. -/
def lowest : List Nat → Option Nat
  | [] => none
  | x :: xs => some (xs.foldl min x)

/-! ## Control words, credits and posting -/

/-- The FLAGS word (R193). -/
def flagScope (f : Word) : Nat := (f.extractLsb' 13 3).toNat
def flagAcq (f : Word) : Bool := f.getLsbD 11
def flagRel (f : Word) : Bool := f.getLsbD 12
def flagCredit (f : Word) : Bool := f.getLsbD 10
def flagDir (f : Word) : Bool := f.getLsbD 9
def flagDsp (f : Word) : Nat := (f.extractLsb' 6 2).toNat
def flagSsp (f : Word) : Nat := (f.extractLsb' 4 2).toNat

def scopeOfNat (n : Nat) : Scope :=
  match n with
  | 0 => .blk | 1 => .clu | 2 => .dom | 3 => .waf | _ => .sys

/-- The fence scope of a command. -/
def Command.scope (c : Command) : Scope := scopeOfNat (flagScope c.ctl[3])

/-- The credited phasers of a command and the reasons their checks give (R193, R194 reasons 2, 6 and 7). `targets` are the
destination blocks that PHQ = 1 may name, by name; a name that holds no block is `none`. -/
def State.creditTargets (s : State) (b : Block) (ph flags : Word) (targets : List (Option Block)) :
    List Nat × List (Block × Nat) :=
  if !flagCredit flags then ([], [])
  else
    let off := (ph.extractLsb' 0 20).toNat
    let r2 := if ph.extractLsb' 21 11 ≠ 0 then [2] else []
    let inWindow := fun k : Block => off % 32 == 0 && decide (off + 32 ≤ k.regs.scratchSize.toNat)
    if ph.getLsbD 20 then
      let ks := targets.filterMap fun x => x
      (r2 ++ (if targets.isEmpty || off % 32 != 0 || !ks.all inWindow then [6] else []) ++
          (if targets.all fun x => x.isSome then [] else [7]),
        ks.map fun k => (k, off))
    else if inWindow b && s.phaserBit b.core (b.scr off / 32) then (r2, [(b, off)])
    else (r2 ++ [6], [])

/-- The phasers with their generations, as captured at posting (R266): of a granule without the phaser bit, whose check comes when
the credit lands, the bits that stand there (log 173). -/
def State.captureGen (s : State) (ts : List (Block × Nat)) : List (Nat × Nat × Nat) :=
  ts.map fun p => (p.1.bid, p.2, (s.phaser p.1.core (p.1.scr p.2)).gen)

/-- A command with nothing but its kind and its control group. -/
def Command.blank (op : CmdOp) : Command :=
  { id := 0, op := op, tile := 0, dst := 0, src := 0, ctl := Vector.replicate 4 0, dstEntry := 0, srcEntry := 0, bEntry := 0,
    aParam := 0, bParam := 0, fid := 0, phs := [], guard := none, resolved := none, started := false, progress := 0,
    landed := 0, moved := false, replay := false, migr := .waiting, oldLeaf := 0, leafAt := 0, parked := false, pages := [],
    index := [], tag := .raw, inject := false, low := false, exact := [], sums := [], grouped := 0 }

/-- The guard operand (R190). -/
def guardOf (x : BitVec 1) (g : BitVec 3) : Option Nat := if x = 1#1 then some g.toNat else none

/-- A guard field without G: a reserved field that is not zero (R190). -/
def guardBad (x : BitVec 1) (g : BitVec 3) : Option Nat := if x = 0#1 ∧ g ≠ 0#3 then some 3 else none

/-- The command goes to the tail of the queue under a new number, its phasers counted (R194, R266); the bobbin goes on. -/
def State.post (s : State) (core b : Nat) (matrix : Bool) (n : BitVec 3) (c : Command) : State :=
  let s := s.countOut c.phs
  let id := s.nextId
  let s : State := { s with nextId := id + 1 }
  (s.updBobbin core b fun x => x.setQueue matrix (x.queue matrix ++ [{ c with id := id }])).advance (.bobbin core b) n

/-- A copy queue holds 16 commands, a matrix queue 8: no more are posted until a place is free (R194, R213). -/
def State.queueFull (s : State) (core b : Nat) (matrix : Bool) : Bool :=
  decide (((s.bobbin core b).queue matrix).length ≥ if matrix then 8 else 16)

/-- Landed bytes of a command that are not yet credited become a credit on its way to one of its phasers (R202). -/
def State.sendCredit (s : State) (e : Eng) (k : Nat) : State :=
  match s.engCommand e with
  | none => s
  | some c => s.creditLanded e.core e.b e.matrix c k

/-- The engine meets a condition at a command's access (R205, R206, R325). -/
def State.engStopped (s : State) (e : Eng) (x : EngStop) : State :=
  match x with
  | .waits => s
  | .dead => s
  | .stop cause va => s.stopQueue e.core e.b e.matrix e.id cause.code va
  | .park va xk lvl kind _ =>
    let blk := s.blockOf e.agent
    let s := s.updEng e fun c => { c with parked := true, pages := [] }
    s.fsqAdd (domOf e.core)
      { va := va
        asid := (match blk with
          | some k => k.regs.asid
          | none => 0)
        core := e.core
        agent := if e.matrix then .matrixQueue e.core e.b else .copyQueue e.core e.b
        cause := Cause.xlateFault.code, xkind := xk, access := kind.code, park := true
        block := (match blk with
          | some k => k.regs.blockid
          | none => 0)
        info := BitVec.ofNat 32 lvl, word := 0 }

/-- The command may perform accesses now: its bobbin runs or finishes, its queue is not parked, every earlier command of the
queue has performed its accesses, its guard lets it start (R200, R201). -/
def State.mayMove (s : State) (e : Eng) : Bool :=
  let x := s.bobbin e.core e.b
  let q := x.queue e.matrix
  let before := q.takeWhile fun c => c.id != e.id
  (x.status == .running || x.status == .finishing) &&
  (match s.block? x.bid with
    | some k => !k.halted
    | none => false) &&
  q.all (fun c => !c.parked) && before.all (fun c => c.moved) &&
  match s.engCommand e with
  | some c => !c.moved && (c.guard.isNone || c.resolved == some true)
  | none => false

/-- A dropped command at the head of its queue is discarded (R200). -/
def State.discardDropped (s : State) (e : Eng) : State :=
  match (s.bobbin e.core e.b).queue e.matrix with
  | c :: rest =>
    if c.id = e.id ∧ c.guard.isSome ∧ c.resolved = some false then
      (s.uncount c.phs).updBobbin e.core e.b fun x => x.setQueue e.matrix rest
    else s
  | [] => s

/-- A release of a command waits, and the command with it (R203, R325, R398). -/
def State.engReleaseHeld (s : State) (e : Eng) (rel : Bool) (sc : Scope) : Bool := rel && !s.releaseFree e.agent sc

/-- All accesses are performed: the release, if the command asks for one (R203), then the last credit to phaser `k`. What holds the
release back, and a store to a host window that is not acknowledged (R385), holds the command. -/
def State.engFinish (s : State) (e : Eng) (rel : Bool) (sc : Scope) (k : Nat) : State :=
  if s.engOwed e || s.engReleaseHeld e rel sc then s
  else
    let s := if rel then s.drainRelease e.agent sc else s
    (s.sendCredit e k).updEng e fun c => { c with moved := true, landed := 0 }

/-- The bobbin's accesses before the posting of a command (R229, R271): it may not start before they have been performed. -/
def beforeCommand (ag : Agent) (id : Nat) (a : Access) : Bool := a.agent == ag && a.ordered && decide (a.id < id)

/-- A command starts: what its bobbin did before the posting, and what its block has seen, is performed; with `acq`, it acquires
(R193, R203). None: something holds one of these accesses. -/
def State.engBegin (s : State) (e : Eng) (acq : Bool) (sc : Scope) : Option State :=
  let want := beforeCommand e.agent e.id
  if s.forceable want then
    let s := (s.drainSeen (s.bidOf e.agent)).force want
    some (if acq then s.acquireSys e.agent sc else s)
  else none

/-- A command completes once its credits have landed (R201); its count at each phaser falls (R266). -/
def State.engComplete (s : State) (e : Eng) : State :=
  match s.engCommand e with
  | some c =>
    if c.moved && s.credits.all (fun k => k.cmd != some c.id) then
      (s.uncount c.phs).updBobbin e.core e.b fun x => x.setQueue e.matrix ((x.queue e.matrix).filter fun y => y.id != e.id)
    else s.discardDropped e
  | none => s

/-- The queue that holds a command. -/
def State.engOf (s : State) (id : Nat) : Option Eng :=
  let hit := fun c : Command => c.id == id
  (s.cores.flatMap fun c => ((List.range 4).zip c.2.bobbins.toList).filterMap fun p =>
    if p.2.copyQ.any hit then some (⟨c.1, p.1, false, id⟩ : Eng)
    else if p.2.matrixQ.any hit then some ⟨c.1, p.1, true, id⟩ else none).head?

/-- A granule's 256 bits after a credit of a generation (R266): LAND wraps modulo 2^32 (log 172). -/
def Phaser.credited (p : Phaser) (c : Credit) : Phaser :=
  if p.gen = c.gen then { p with land := (p.land + c.bytes) % 2 ^ 32 } else p.dropped

/-- A credit waits for those of its sender that a switching name held before (R376). -/
def State.creditWaits (s : State) (c : Credit) : Bool :=
  s.credits.any fun x => x.sender == c.sender && match x.held, c.held with
    | some m, some n => decide (m < n)
    | _, _ => false

/-- A credit offered to a name that is switching is held in the order of the offers (R376). -/
def State.holdCredit (s : State) (c : Credit) : State :=
  if c.held.isSome then s
  else { s with nextId := s.nextId + 1, credits := s.credits.map fun x => if x.id = c.id then { x with held := some s.nextId } else x }

/-- The block has completed and is resident until its unit completes: every thread has exited, no bobbin is left, no region is
valid. -/
def State.completed (s : State) (b : Block) : Bool :=
  (b.threads.all fun t => t.status == .exited) && (b.regions.toList.all fun g => !g.valid) &&
    (s.core b.core).bobbins.toList.all fun x => x.status == .free || x.bid != b.bid

end Sys2Proof.Machine
end

