-- ==== Sys2Proof/Machine/Complete.lean ====
section
/-! DEFINITION. The completion of blocks and units (R153, R189, R346, R361, R375): when every thread has exited and every
bobbin has ended. A quarter's blocks stay resident until their unit completes (log entry on completion). -/

namespace Sys2Proof.Machine

/-- The bobbins of a block that are not free. -/
def State.bobbinsOf (s : State) (b : Block) : List (Nat × Bobbin) :=
  ((List.range 4).zip (s.core b.core).bobbins.toList).filter fun p => p.2.status != .free && p.2.bid == b.bid

/-- Every thread has exited and every bobbin that its threads forked has ended (R153). -/
def State.blockDone (s : State) (b : Block) : Bool :=
  (b.threads.all fun t => t.status == .exited) && (s.bobbinsOf b).all fun p => p.2.status == .ended

/-- A bobbin that nobody joined becomes free; its trap is reported, imprecise (R188, R189). -/
def State.freeUnjoined (s : State) (b : Block) : State :=
  (s.bobbinsOf b).foldl (fun (s : State) (p : Nat × Bobbin) =>
    let s := if p.2.cause = 0 then s else s.fsqAdd (domOf b.core)
      { va := p.2.trapPc, asid := b.regs.asid, core := b.core, agent := .bobbin b.core p.1,
        cause := Cause.bobbinTrap.code, xkind := 15, access := 0, park := false, block := b.regs.blockid,
        info := BitVec.ofNat 32 p.2.cause, word := 0 }
    s.updBobbin b.core p.1 fun _ => Bobbin.zero) s

/-- When a block completes, every valid region is unmapped as if by UNMAP (R180): its dirty lines are written back. -/
def State.flushRegions (s : State) (b : Block) : State :=
  (List.range 8).foldl (fun (s : State) r => s.writeBackAll none b.bid r) (s.force (s.inWindow b))

/-- Bytes of a region that a kill discarded are reported when the block completes (R346). -/
def State.endRegions (s : State) (b : Block) : State :=
  ((List.range 8).zip b.regions.toList).foldl (fun (s : State) (p : Nat × Region) =>
    let s := if p.2.lost then s.fsqAdd (domOf b.core)
      { va := p.2.base, asid := b.regs.asid, core := b.core, agent := .region b.bid p.1 0, cause := Cause.regionWb.code,
        xkind := 15, access := 1, park := false, block := b.regs.blockid, info := 0, word := 0 }
      else s
    s.updRegion b.bid p.1 fun g => { g with valid := false, lines := [], lost := false }) s

/-- A block leaves its core: its phaser granules end. -/
def State.leaveCore (s : State) (b : Block) : State :=
  let lo := b.regs.scratchBase.toNat
  let hi := lo + b.regs.scratchSize.toNat
  let s := s.updCore b.core fun c =>
    { c with phasers := c.phasers.filter (fun g => !(decide (lo ≤ 32 * g) && decide (32 * g < hi))) }
  { s with blocks := s.blocks.filter (fun x => x.bid != b.bid) }

/-- Every block of a unit is done: the unit completes, its street entries are removed (R375), its grid counts it, and a DONE
word of its resume packet is due (R361). -/
def State.unitDone (s : State) (unit : Nat) : State :=
  match s.blocks.find? fun b => b.unit == unit with
  | none => s
  | some b =>
    let s := (s.blocks.filter fun x => x.unit == unit).foldl State.leaveCore s
    let s := s.streetDrop unit
    s.updGrid b.gridId fun g =>
      { g with
        completed := g.completed + 1
        doneDue := g.doneDue ++ (g.resumeDone.filterMap fun r => if r.2.2.2 = unit then some (r.1, r.2.1, r.2.2.1) else none)
        resumeDone := g.resumeDone.filter (fun r => r.2.2.2 != unit) }

/-- After an event that may have completed a block: the accesses to its window are performed and its regions written back first;
what cannot be holds the completion back. -/
def State.settleBlock (s : State) (bid : Nat) : State :=
  match s.block? bid with
  | none => s
  | some b =>
    if b.halted || !s.blockDone b || b.save.isSome || !s.forceable (s.inWindow b) then s
    else
      let s := s.flushRegions b
      if !((List.range 8).all fun r => s.regionClean bid r) then s
      else match s.block? bid with
        | none => s
        | some b =>
          let s := (s.freeUnjoined b).endRegions b
          let s := s.updBlock bid fun b => { b with tiles := [] }
          if (s.blocks.filter fun x => x.unit == b.unit).all fun x => (s.closure (s.inWindow x)).isEmpty && s.blockDone x && x.regions.toList.all (fun g => !g.valid) then
            s.unitDone b.unit
          else s

/-- REGION_WRITE_BACK: at any time the unit chooses, a dirty line is written back; a block that waited for it completes. -/
def execRegionWriteBack (bid r line : Nat) (s : State) : Host.Outcome State Fault Refusal :=
  .next ((match s.block? bid with
    | some b => match b.region r with
      | some g => if g.valid then s.writeBack none bid r line else s
      | none => s
    | none => s).settleBlock bid)

end Sys2Proof.Machine
end

