-- ==== Sys2Proof/Machine/Uniform.lean ====
section
/-! DEFINITION. The uniform set: arithmetic, logic, bit fields, USR, branches, calls and loops (R91 to R101). -/

namespace Sys2Proof.Machine

/-- Two s-register sources. -/
def uOp2 (d a b : BitVec 4) (n : BitVec 3) : Op := { n := n, srcs := [sSrc a, sSrc b], dsts := [.s d] }
/-- One s-register source. -/
def uOp1 (d a : BitVec 4) (n : BitVec 3) : Op := { n := n, srcs := [sSrc a], dsts := [.s d] }

/-- `sd := f sa sb`. -/
def State.uBinary (s : State) (lat : Nat) (f : Word → Word → Word) (d a b : BitVec 4) (n : BitVec 3) : State :=
  s.runUFixed (uOp2 d a b n) lat fun vs => [wS d (f (valAt vs 0) (valAt vs 1))]

/-- `sd := f sa`. -/
def State.uUnary (s : State) (lat : Nat) (f : Word → Word) (d a : BitVec 4) (n : BitVec 3) : State :=
  s.runUFixed (uOp1 d a n) lat fun vs => [wS d (f (valAt vs 0))]

/-- `sd := f sd`, for an immediate form. -/
def State.uImm (s : State) (f : Word → Word) (d : BitVec 4) (n : BitVec 3) : State := s.uUnary latA f d d n

def execUaddI32 (d a b : BitVec 4) (n : BitVec 3) (s : State) : Host.Outcome State Fault Refusal :=
  .next (s.uBinary latA (fun x y => x + y) d a b n)
def execUsubI32 (d a b : BitVec 4) (n : BitVec 3) (s : State) : Host.Outcome State Fault Refusal :=
  .next (s.uBinary latA (fun x y => x - y) d a b n)
def execUmulI32 (d a b : BitVec 4) (n : BitVec 3) (s : State) : Host.Outcome State Fault Refusal :=
  .next (s.uBinary latM (fun x y => x * y) d a b n)
def execUmulhiI32 (d a b : BitVec 4) (n : BitVec 3) (s : State) : Host.Outcome State Fault Refusal :=
  .next (s.uBinary latM mulhiS d a b n)
def execUmulhiN32 (d a b : BitVec 4) (n : BitVec 3) (s : State) : Host.Outcome State Fault Refusal :=
  .next (s.uBinary latM mulhiU d a b n)
def execUminI32 (d a b : BitVec 4) (n : BitVec 3) (s : State) : Host.Outcome State Fault Refusal :=
  .next (s.uBinary latA minS d a b n)
def execUminN32 (d a b : BitVec 4) (n : BitVec 3) (s : State) : Host.Outcome State Fault Refusal :=
  .next (s.uBinary latA minU d a b n)
def execUmaxI32 (d a b : BitVec 4) (n : BitVec 3) (s : State) : Host.Outcome State Fault Refusal :=
  .next (s.uBinary latA maxS d a b n)
def execUmaxN32 (d a b : BitVec 4) (n : BitVec 3) (s : State) : Host.Outcome State Fault Refusal :=
  .next (s.uBinary latA maxU d a b n)
def execUandB32 (d a b : BitVec 4) (n : BitVec 3) (s : State) : Host.Outcome State Fault Refusal :=
  .next (s.uBinary latA (fun x y => x &&& y) d a b n)
def execUorB32 (d a b : BitVec 4) (n : BitVec 3) (s : State) : Host.Outcome State Fault Refusal :=
  .next (s.uBinary latA (fun x y => x ||| y) d a b n)
def execUxorB32 (d a b : BitVec 4) (n : BitVec 3) (s : State) : Host.Outcome State Fault Refusal :=
  .next (s.uBinary latA (fun x y => x ^^^ y) d a b n)
def execUshlB32 (d a b : BitVec 4) (n : BitVec 3) (s : State) : Host.Outcome State Fault Refusal :=
  .next (s.uBinary latA shl d a b n)
def execUshrN32 (d a b : BitVec 4) (n : BitVec 3) (s : State) : Host.Outcome State Fault Refusal :=
  .next (s.uBinary latA shrU d a b n)
def execUshrI32 (d a b : BitVec 4) (n : BitVec 3) (s : State) : Host.Outcome State Fault Refusal :=
  .next (s.uBinary latA shrS d a b n)
def execUbfeN32 (d a b : BitVec 4) (n : BitVec 3) (s : State) : Host.Outcome State Fault Refusal :=
  .next (s.uBinary latM bfeU d a b n)
def execUbfeI32 (d a b : BitVec 4) (n : BitVec 3) (s : State) : Host.Outcome State Fault Refusal :=
  .next (s.uBinary latM bfeS d a b n)

/-- sd is source and destination; sources in checking order sa, sb, sd. -/
def execUbfiB32 (d a b : BitVec 4) (n : BitVec 3) (s : State) : Host.Outcome State Fault Refusal :=
  .next (s.runUFixed { n := n, srcs := [sSrc a, sSrc b, sSrc d], dsts := [.s d] } latM fun vs =>
    [wS d (bfi (valAt vs 2) (valAt vs 0) (valAt vs 1))])
def execUpopcB32 (d a : BitVec 4) (n : BitVec 3) (s : State) : Host.Outcome State Fault Refusal :=
  .next (s.uUnary latM popc d a n)
def execUclzB32 (d a : BitVec 4) (n : BitVec 3) (s : State) : Host.Outcome State Fault Refusal :=
  .next (s.uUnary latM clz d a n)
def execUcmpEqB32 (d a b : BitVec 4) (n : BitVec 3) (s : State) : Host.Outcome State Fault Refusal :=
  .next (s.uBinary latA (fun x y => boolWord (Cond.signed .eq x y)) d a b n)
def execUcmpNeB32 (d a b : BitVec 4) (n : BitVec 3) (s : State) : Host.Outcome State Fault Refusal :=
  .next (s.uBinary latA (fun x y => boolWord (Cond.signed .ne x y)) d a b n)
def execUcmpLtI32 (d a b : BitVec 4) (n : BitVec 3) (s : State) : Host.Outcome State Fault Refusal :=
  .next (s.uBinary latA (fun x y => boolWord (Cond.signed .lt x y)) d a b n)
def execUcmpLeI32 (d a b : BitVec 4) (n : BitVec 3) (s : State) : Host.Outcome State Fault Refusal :=
  .next (s.uBinary latA (fun x y => boolWord (Cond.signed .le x y)) d a b n)
def execUcmpLtN32 (d a b : BitVec 4) (n : BitVec 3) (s : State) : Host.Outcome State Fault Refusal :=
  .next (s.uBinary latA (fun x y => boolWord (Cond.unsigned .lt x y)) d a b n)
def execUcmpLeN32 (d a b : BitVec 4) (n : BitVec 3) (s : State) : Host.Outcome State Fault Refusal :=
  .next (s.uBinary latA (fun x y => boolWord (Cond.unsigned .le x y)) d a b n)
def execUselB32 (d a b c : BitVec 4) (n : BitVec 3) (s : State) : Host.Outcome State Fault Refusal :=
  .next (s.runUFixed { n := n, srcs := [sSrc a, sSrc b, sSrc c], dsts := [.s d] } latA fun vs =>
    [wS d (if valAt vs 2 ≠ 0 then valAt vs 0 else valAt vs 1)])
def execUmovB32 (d a : BitVec 4) (n : BitVec 3) (s : State) : Host.Outcome State Fault Refusal :=
  .next (s.uUnary latA (fun x => x) d a n)

/-- UADD.I64 on even pairs (R91, R93). -/
def execUaddI64 (d a b : BitVec 4) (n : BitVec 3) (s : State) : Host.Outcome State Fault Refusal :=
  .next (s.runUFixed { n := n, srcs := sSrcs a 2 ++ sSrcs b 2, dsts := [.s d, .s (d + 1)],
                         bad := groupBad [(d.toNat, 2), (a.toNat, 2), (b.toNat, 2)] } latM fun vs =>
    let r := pairAt vs 0 + pairAt vs 2
    [wS d r.lo, wS (d + 1) r.hi])
def execUaddiI32 (d : BitVec 4) (i : BitVec 16) (n : BitVec 3) (s : State) : Host.Outcome State Fault Refusal :=
  .next (s.uImm (fun x => x + sext32 i) d n)
def execUmovi (d : BitVec 4) (i : BitVec 16) (n : BitVec 3) (s : State) : Host.Outcome State Fault Refusal :=
  .next (s.runUFixed { n := n, dsts := [.s d] } latA fun _ => [wS d (zext32 i)])
def execUmovhi (d : BitVec 4) (i : BitVec 16) (n : BitVec 3) (s : State) : Host.Outcome State Fault Refusal :=
  .next (s.uImm (fun x => i ++ x.extractLsb' 0 16) d n)
def execUandiB32 (d : BitVec 4) (i : BitVec 16) (n : BitVec 3) (s : State) : Host.Outcome State Fault Refusal :=
  .next (s.uImm (fun x => x &&& zext32 i) d n)
def execUoriB32 (d : BitVec 4) (i : BitVec 16) (n : BitVec 3) (s : State) : Host.Outcome State Fault Refusal :=
  .next (s.uImm (fun x => x ||| zext32 i) d n)
def execUshliB32 (d : BitVec 4) (i : BitVec 5) (n : BitVec 3) (s : State) : Host.Outcome State Fault Refusal :=
  .next (s.uImm (fun x => shl x (zext32 i)) d n)
def execUshriN32 (d : BitVec 4) (i : BitVec 5) (n : BitVec 3) (s : State) : Host.Outcome State Fault Refusal :=
  .next (s.uImm (fun x => shrU x (zext32 i)) d n)

/-- The special registers 0 to 8 of a block's thread (R95). -/
def usrOf (b : Block) (tid idx : Nat) : Word :=
  match idx with
  | 0 => BitVec.ofNat 32 tid
  | 1 => b.regs.blockid
  | 2 => b.regs.blockdim
  | 3 => b.regs.gridblocks
  | 4 => b.regs.qrank
  | 5 => b.regs.qsize
  | 6 => BitVec.ofNat 32 b.core
  | 7 => b.regs.argbase.lo
  | _ => b.regs.argbase.hi

/-- USR as an agent reads it: a bobbin reads its leader's values as they stood at FORK (R95). -/
def State.usr (s : State) (ag : Agent) (idx : Nat) : Word :=
  match ag with
  | .thread bid tid => match s.block? bid with
    | some b => usrOf b tid idx
    | none => 0
  | .bobbin core b => ((s.bobbin core b).usr.toList)[idx]?.getD 0

/-- USR (R95): indices above 8 raise ILLEGAL with reason 7. -/
def execUsr (d : BitVec 4) (i : BitVec 16) (n : BitVec 3) (s : State) : Host.Outcome State Fault Refusal :=
  .next (s.runUniform { n := n, dsts := [.s d], bad := if i.toNat > 8 then some 7 else none } noFixed fun s ag _ =>
    s.retire ag n latA [wS d (s.usr ag i.toNat)])

/-! ## Branches, calls and loops (R98) -/

/-- PC + 4 × the sign-extended displacement (R41). -/
def relTarget {w : Nat} (pc : DWord) (i : BitVec w) : DWord := pc + 4 * sext64 i

/-- Each agent goes on where `next` says; then the braid divides if its members part (R98, R142). -/
def State.uBranch (s : State) (o : Op) (next : DWord → List VReg → DWord) : State :=
  (s.runUniform o noFixed fun s ag vs => s.goto ag o.n (next (s.ctx ag).pc vs)).diverge

def execUbra (i : BitVec 16) (n : BitVec 3) (s : State) : Host.Outcome State Fault Refusal :=
  .next (s.uBranch { n := n } fun pc _ => relTarget pc i)
def execUbrz (d : BitVec 4) (i : BitVec 16) (n : BitVec 3) (s : State) : Host.Outcome State Fault Refusal :=
  .next (s.uBranch { n := n, srcs := [sSrc d] } fun pc vs => if valAt vs 0 = 0 then relTarget pc i else pc + 4)
def execUbrnz (d : BitVec 4) (i : BitVec 16) (n : BitVec 3) (s : State) : Host.Outcome State Fault Refusal :=
  .next (s.uBranch { n := n, srcs := [sSrc d] } fun pc vs => if valAt vs 0 ≠ 0 then relTarget pc i else pc + 4)

/-- ULOOP: the counter wraps at 0; it is a class A result. -/
def execUloop (d : BitVec 4) (i : BitVec 16) (n : BitVec 3) (s : State) : Host.Outcome State Fault Refusal :=
  .next (s.runUniform (uOp1 d d n) noFixed fun s ag vs =>
    let x := valAt vs 0 - 1
    let pc := (s.ctx ag).pc
    (s.writeFixed ag latA [wS d x]).goto ag n (if x ≠ 0 then relTarget pc i else pc + 4)).diverge

/-- UCALL: the low half of the return address is a class M result. -/
def execUcall (d : BitVec 4) (i : BitVec 16) (n : BitVec 3) (s : State) : Host.Outcome State Fault Refusal :=
  .next (s.runUniform { n := n, dsts := [.s d] } noFixed fun s ag _ =>
    let pc := (s.ctx ag).pc
    (s.writeFixed ag latM [wS d (pc + 4).lo]).goto ag n (relTarget pc i)).diverge

/-- A bobbin ends its program: finishing, unresolved commands dropped; its PC and word are kept for a later stop (R187, R189).
Its own loads are ordered by their pending registers. -/
def Bobbin.ending (x : Bobbin) (word : Word) : Bobbin := x.trapped 0 x.ctx.pc word

/-- URET to the FORK word by a bobbin ends it (R187). -/
def State.endsBobbin (s : State) (ag : Agent) (t : Word) : Bool :=
  match ag with
  | .thread .. => false
  | .bobbin core b => (s.bobbin core b).endAddr == t

/-- URET: a misaligned return address raises ILLEGAL with reason 7; the high half of the PC is kept. -/
def execUret (d : BitVec 4) (n : BitVec 3) (s : State) : Host.Outcome State Fault Refusal :=
  .next (s.runUniform { n := n, srcs := [sSrc d] } noFixed fun s ag vs =>
    let t := valAt vs 0
    if t &&& 3 ≠ 0 then s.illegal ag 7
    else if s.endsBobbin ag t then match ag with
      | .bobbin core b => s.updBobbin core b fun x => x.ending s.issue.word
      | .thread .. => s
    else s.goto ag n (pair t (s.ctx ag).pc.hi)).diverge

end Sys2Proof.Machine
end

