-- ==== Sys2Proof/Machine/Control.lean ====
section
/-! DEFINITION. Control flow of the lane set: branches, calls, ELECT, VOTE, sleeping, re-forming, yielding (R149 to R154),
and the hints NOP and MARK (R55). EXIT and SAFE stand with the block's life in Image.lean. -/

namespace Sys2Proof.Machine

/-! ## Branches (R149 to R151) -/

/-- A direct branch each member takes on its own. -/
def State.vBranch (s : State) (o : Op) (next : DWord → List VReg → DWord) : State :=
  (s.runGroup o noFixed fun s ag vs => s.goto ag o.n (next (s.ctx ag).pc vs)).diverge

def execBra (o : BitVec 18) (n : BitVec 3) (s : State) : Host.Outcome State Fault Refusal :=
  .next (s.vBranch { n := n, who := .thread } fun pc _ => relTarget pc o)
def execBraT (k : BitVec 3) (o : BitVec 18) (n : BitVec 3) (s : State) : Host.Outcome State Fault Refusal :=
  .next (s.vBranch { n := n, srcs := [kSrc k], who := .thread } fun pc vs =>
    if (valAt vs 0).getLsbD 0 then relTarget pc o else pc + 4)
def execBraF (k : BitVec 3) (o : BitVec 18) (n : BitVec 3) (s : State) : Host.Outcome State Fault Refusal :=
  .next (s.vBranch { n := n, srcs := [kSrc k], who := .thread } fun pc vs =>
    if (valAt vs 0).getLsbD 0 then pc + 4 else relTarget pc o)

/-- A flag of each executing member. -/
def flagsOf (ms : List (Agent × List VReg)) : List Bool := ms.map fun m => (valAt m.2 0).getLsbD 0

/-- A branch across the braid: every executing member goes to the target when `test` of their flags holds (R149). -/
def State.braidBranch (s : State) (test : List Bool → Bool) (k : BitVec 3) (o : BitVec 18) (n : BitVec 3) :
    State × Bool × List (Agent × List VReg) :=
  let (s, ms) := s.gather { n := n, srcs := [kSrc k], who := .thread }
  let taken := test (flagsOf ms)
  (ms.foldl (fun s m =>
    let pc := (s.ctx m.1).pc
    s.goto m.1 n (if taken then relTarget pc o else pc + 4)) s, taken, ms)

/-- The thread of an agent is filed. -/
def State.fileAgent (s : State) : Agent → State
  | .thread bid tid => s.file bid tid
  | .bobbin .. => s

/-- BRANY: when it is taken, the members are filed at the target. -/
def execBrany (k : BitVec 3) (o : BitVec 18) (n : BitVec 3) (s : State) : Host.Outcome State Fault Refusal :=
  .next (match s.braidBranch (fun fs => fs.any (fun b => b)) k o n with
    | (s, true, ms) => ms.foldl (fun s m => s.fileAgent m.1) s
    | (s, false, _) => s)
def execBrall (k : BitVec 3) (o : BitVec 18) (n : BitVec 3) (s : State) : Host.Outcome State Fault Refusal :=
  .next (s.braidBranch (fun fs => fs.all (fun b => b)) k o n).1
def execBrnone (k : BitVec 3) (o : BitVec 18) (n : BitVec 3) (s : State) : Host.Outcome State Fault Refusal :=
  .next (s.braidBranch (fun fs => fs.all (fun b => !b)) k o n).1

/-- CALL: v63:v62 holds the return address, class M. -/
def execCall (o : BitVec 18) (n : BitVec 3) (s : State) : Host.Outcome State Fault Refusal :=
  .next (s.runGroup { n := n, dsts := [.v 62, .v 63], who := .thread } noFixed fun s ag _ =>
    let pc := (s.ctx ag).pc
    (s.writeFixed ag latM [wV 62 (pc + 4).lo .n64, wV 63 (pc + 4).hi .n64]).goto ag n (relTarget pc o)).diverge

/-- An indirect branch through va+1:va; a misaligned target raises ILLEGAL with reason 7 (R151). -/
def State.vIndirect (s : State) (link : Option (BitVec 6)) (a : BitVec 6) (n : BitVec 3) : State :=
  let dsts := match link with
    | some d => [Reg.v d, .v (d + 1)]
    | none => []
  let groups := match link with
    | some d => [(a.toNat, 2), (d.toNat, 2)]
    | none => [(a.toNat, 2)]
  (s.runGroup { n := n, srcs := addrSrcs a, dsts := dsts, bad := groupBad groups, who := .thread } noFixed fun s ag vs =>
    let t := pairAt vs 0
    let pc := (s.ctx ag).pc
    if t &&& 3 ≠ 0 then s.illegal ag 7
    else
      let ws := match link with
        | some d => [wV d (pc + 4).lo .n64, wV (d + 1) (pc + 4).hi .n64]
        | none => []
      (s.writeFixed ag latM ws).goto ag n t).diverge

def execBrx (a : BitVec 6) (n : BitVec 3) (s : State) : Host.Outcome State Fault Refusal :=
  .next (s.vIndirect none a n)
def execCallx (d a : BitVec 6) (n : BitVec 3) (s : State) : Host.Outcome State Fault Refusal :=
  .next (s.vIndirect (some d) a n)
def execRet (a : BitVec 6) (n : BitVec 3) (s : State) : Host.Outcome State Fault Refusal :=
  .next (s.vIndirect none a n)

/-! ## ELECT and VOTE (R152) -/

/-- sys.threadid of a member of a braid. -/
def threadIdOf : Agent → Nat
  | .thread _ tid => tid
  | .bobbin .. => 0

/-- No executing member has a lower sys.threadid. -/
def elected (ms : List (Agent × List VReg)) (ag : Agent) : Bool := ms.all fun m => decide (threadIdOf ag ≤ threadIdOf m.1)

def execElect (d : BitVec 3) (n : BitVec 3) (s : State) : Host.Outcome State Fault Refusal :=
  .next (
    let (s, ms) := s.gather { n := n, dsts := [.k d], who := .thread }
    ms.foldl (fun s m => s.retire m.1 n latM [wK d (elected ms m.1)]) s)

/-- A vote: every executing member receives what `f` makes of the members' flags. -/
def State.vote (s : State) (dst : Reg) (f : List (Agent × List VReg) → Write) (a : BitVec 3) (n : BitVec 3) : State :=
  let (s, ms) := s.gather { n := n, srcs := [kSrc a], dsts := [dst], who := .thread }
  ms.foldl (fun s m => s.retire m.1 n latM [f ms]) s

def execVoteAny (d a : BitVec 3) (n : BitVec 3) (s : State) : Host.Outcome State Fault Refusal :=
  .next (s.vote (.k d) (fun ms => wK d ((flagsOf ms).any fun b => b)) a n)
def execVoteAll (d a : BitVec 3) (n : BitVec 3) (s : State) : Host.Outcome State Fault Refusal :=
  .next (s.vote (.k d) (fun ms => wK d ((flagsOf ms).all fun b => b)) a n)

/-- The position of a thread in its braid (R143). -/
def CoreState.position (c : CoreState) (bid tid : Nat) : Nat :=
  match ((c.pipes.toList.flatMap fun p => p.braids).filter fun b => b.bid == bid).findSome? fun b =>
      b.members.find? fun m => m.1 == tid with
  | some m => m.2
  | none => 0

def State.positionOf (s : State) : Agent → Nat
  | .thread bid tid => (s.core (s.coreOf (.thread bid tid))).position bid tid
  | .bobbin .. => 0

/-- VOTE.BALLOT: bit i is the flag of the executing member at position i. -/
def execVoteBallot (d : BitVec 6) (a : BitVec 3) (n : BitVec 3) (s : State) : Host.Outcome State Fault Refusal :=
  .next (s.vote (.v d) (fun ms => wV d (ballot (ms.map fun m => (s.positionOf m.1, (valAt m.2 0).getLsbD 0))) .n32) a n)

/-! ## Sleeping, re-forming, yielding, hints (R153, R154, R55) -/

/-- The member is filed at PC + 4. -/
def execReform (n : BitVec 3) (s : State) : Host.Outcome State Fault Refusal :=
  .next (s.runGroup { n := n, who := .thread } noFixed fun s ag _ => (s.advance ag n).fileAgent ag)

/-- A save of the agent's block is requested (R337). -/
def State.saveDue (s : State) (ag : Agent) : Bool :=
  match s.blockOf ag with
  | some b => b.save.isSome
  | none => false

/-- SLEEP: blocked until dispatch + va[19:0]; 0, and a pending pre-emption request, file the thread at once (R153, R154). -/
def execSleep (a : BitVec 6) (n : BitVec 3) (s : State) : Host.Outcome State Fault Refusal :=
  .next (s.runGroup { n := n, srcs := [vSrc a 0 aI], who := .thread } noFixed fun s ag vs =>
    let t := bitsOf (valAt vs 0).toNat 0 20
    let due := s.saveDue ag
    let s := s.advance ag n
    match ag with
    | .thread bid tid =>
      if t = 0 ∨ due = true then s.file bid tid else s.stopThread bid tid (.sleeping (s.issue.now + t))
    | .bobbin .. => s)

/-- Every member of an agent's braid is filed after the word at `pc` (R142): one that has not executed it goes on after it too. -/
def State.fileBraid (s : State) (ag : Agent) (pc : DWord) : State :=
  match ag with
  | .thread bid tid =>
    (tid :: (s.core (s.coreOf ag)).braidOf bid tid).foldl (fun (s : State) t =>
      let waits := !s.issue.agents.contains (.thread bid t) && (s.ctx (.thread bid t)).pc == pc
      let s := if waits then s.updCtx (fun c => { c with pc := pc + 4 }) (.thread bid t) else s
      s.file bid t) s
  | .bobbin .. => s

/-- YIELD: a hint; whether the core takes it is a free choice. Taken, it files every member of the braid at PC + 4 (R153,
log 161). -/
def execYield (_x : BitVec 21) (n : BitVec 3) (s : State) : Host.Outcome State Fault Refusal :=
  .next (
    let ags := s.issue.agents.map fun ag => (ag, (s.ctx ag).pc)
    let s := s.runHint n fun s _ => s
    let (k, s) := s.choose 2
    if k = 1 then ags.foldl (fun s x => s.fileBraid x.1 x.2) s else s)

def execNop (_x : BitVec 21) (n : BitVec 3) (s : State) : Host.Outcome State Fault Refusal := .next (s.runHint n fun s _ => s)

/-- A word of uniform majors 0x75 to 0x7F executes as NOP. -/
def execUndefinedHint (n : BitVec 3) (s : State) : Host.Outcome State Fault Refusal := .next (s.runHint n fun s _ => s)

/-- ILLEGAL of an undefined word, with the reason its decoding gives (R51, R61): each agent traps on its own; a bobbin, and a
lane word in one, take the lowest reason that applies. -/
def execIllegalWord (reason : Nat) (lane : Bool) (s : State) : Host.Outcome State Fault Refusal :=
  .next (
    let s := s.collect 0
    s.issue.agents.foldl (fun s ag => match ag with
      | .thread .. => s.illegal ag reason
      | .bobbin .. => s.illegal ag (if lane then min reason 6 else reason)) s)

/-- SLEEP_EXPIRE: the count has run out, and the thread is filed (R153). -/
def execSleepExpire (bid tid : Nat) (s : State) : Host.Outcome State Fault Refusal :=
  .next (match s.thread? bid tid with
    | some t => match t.status with
      | .sleeping w => if w ≤ s.cyclesOf (.thread bid tid) then s.wake bid tid else s
      | _ => s
    | none => s)

end Sys2Proof.Machine
end

