-- ==== Sys2Proof/Machine/MemAccess.lean ====
section
/-! DEFINITION. Memory access instructions: global loads and stores, acquire loads and release stores, uniform loads, core and
quarter scratchpad, cache operations and prefetch hints (R96, R97, R161, R169 to R176, R181, R182). -/

namespace Sys2Proof.Machine

/-! ## Global loads and stores (R173) -/

/-- The effective address of an LM word: the pair plus the scaled offset (R173). -/
def lmAddr (vs : List VReg) (o : BitVec 9) (w : Nat) : DWord := pairAt vs 0 + sext64 o * BitVec.ofNat 64 w

/-- The registers of a v-group. -/
def vRegs (d : BitVec 6) (n : Nat) : List Reg := (vGroup d n).map Reg.v

/-- Registers that a width of w bytes takes. -/
def regsFor (w : Nat) : Nat := if w = 16 then 4 else if w = 8 then 2 else 1

/-- A global load of one agent from an address: admitted, accepted, and the agent goes on. -/
def State.loadFrom (s : State) (ag : Agent) (n : BitVec 3) (va : DWord) (w : Nat) (form : LoadForm) (regs : List Reg)
    (f : Access → Access) : State :=
  match s.admitted ag .read va w with
  | (none, s) => s
  | (some (loc, home, e), s) =>
    let core := s.coreOf ag
    ((s.cacheLoad core loc).acceptLoad (f (accessOf ag core loc w .load va.toNat home (some e))) form regs).advance ag n

/-- LD: registers at vd, the pair va, the offset (R173). -/
def State.ld (s : State) (w : Nat) (form : LoadForm) (d a : BitVec 6) (o : BitVec 9) (n : BitVec 3) : State :=
  let k := regsFor w
  s.runGroup
    { n := n, srcs := addrSrcs a, dsts := vRegs d k, bad := groupBad [(a.toNat, 2), (d.toNat, k)], who := .thread } noFixed
    fun s ag vs => s.loadFrom ag n (lmAddr vs o w) w form (vRegs d k) fun x => x

/-- The bytes of store data: the low bytes of one register, or whole registers in order (R173). -/
def storeBytes (w : Nat) (vs : List VReg) : List Byte :=
  (vs.flatMap fun v => leBytes 4 v.val.toNat).take w

/-- A global store of one agent. -/
def State.storeTo (s : State) (ag : Agent) (n : BitVec 3) (va : DWord) (w : Nat) (data : List Byte) : State :=
  match s.admitted ag .write va w with
  | (none, s) => s
  | (some (loc, home, e), s) =>
    let core := s.coreOf ag
    (s.acceptStore (accessOf ag core loc w (.store []) va.toNat home (some e)) data).advance ag n

/-- ST: data registers at vs (the vd field), the pair va, the offset. -/
def State.st (s : State) (w : Nat) (d a : BitVec 6) (o : BitVec 9) (n : BitVec 3) : State :=
  let k := regsFor w
  s.runGroup
    { n := n, srcs := addrSrcs a ++ vSrcs d k 3 .any, bad := groupBad [(a.toNat, 2), (d.toNat, k)], who := .thread } noFixed
    fun s ag vs => s.storeTo ag n (lmAddr vs o w) w (storeBytes w (vs.drop 2))

def execLdN8 (d a : BitVec 6) (o : BitVec 9) (n : BitVec 3) (s : State) : Host.Outcome State Fault Refusal :=
  .next (s.ld 1 .zext d a o n)
def execLdI8 (d a : BitVec 6) (o : BitVec 9) (n : BitVec 3) (s : State) : Host.Outcome State Fault Refusal :=
  .next (s.ld 1 .sext d a o n)
def execLdN16 (d a : BitVec 6) (o : BitVec 9) (n : BitVec 3) (s : State) : Host.Outcome State Fault Refusal :=
  .next (s.ld 2 .zext d a o n)
def execLdI16 (d a : BitVec 6) (o : BitVec 9) (n : BitVec 3) (s : State) : Host.Outcome State Fault Refusal :=
  .next (s.ld 2 .sext d a o n)
def execLdB32 (d a : BitVec 6) (o : BitVec 9) (n : BitVec 3) (s : State) : Host.Outcome State Fault Refusal :=
  .next (s.ld 4 (.words .raw) d a o n)
def execLdB64 (d a : BitVec 6) (o : BitVec 9) (n : BitVec 3) (s : State) : Host.Outcome State Fault Refusal :=
  .next (s.ld 8 (.words .raw) d a o n)
def execLdB128 (d a : BitVec 6) (o : BitVec 9) (n : BitVec 3) (s : State) : Host.Outcome State Fault Refusal :=
  .next (s.ld 16 (.words .raw) d a o n)
def execStB8 (d a : BitVec 6) (o : BitVec 9) (n : BitVec 3) (s : State) : Host.Outcome State Fault Refusal :=
  .next (s.st 1 d a o n)
def execStB16 (d a : BitVec 6) (o : BitVec 9) (n : BitVec 3) (s : State) : Host.Outcome State Fault Refusal :=
  .next (s.st 2 d a o n)
def execStB32 (d a : BitVec 6) (o : BitVec 9) (n : BitVec 3) (s : State) : Host.Outcome State Fault Refusal :=
  .next (s.st 4 d a o n)
def execStB64 (d a : BitVec 6) (o : BitVec 9) (n : BitVec 3) (s : State) : Host.Outcome State Fault Refusal :=
  .next (s.st 8 d a o n)
def execStB128 (d a : BitVec 6) (o : BitVec 9) (n : BitVec 3) (s : State) : Host.Outcome State Fault Refusal :=
  .next (s.st 16 d a o n)

/-! ## Acquire loads and release stores (R175, R275) -/

/-- The scope field (R6): 0 to 4. -/
def scopeOf (e : BitVec 3) : Option Scope :=
  match e.toNat with
  | 0 => some .blk
  | 1 => some .clu
  | 2 => some .dom
  | 3 => some .waf
  | 4 => some .sys
  | _ => none

/-- ILLEGAL reason 5 for a scope of 5 to 7. -/
def scopeBad (e : BitVec 3) : Option Nat := if (scopeOf e).isNone then some 5 else none

/-- LD.ACQ.B32: the value is bound at once, after what has to go before it; the thread waits while something holds one of these
(R325, R398). Below sys, a load of a host window or another wafer stays relaxed (R272); at sys it returns the latest store of a
host window, and so do later loads (R273). -/
def execLdAcqB32 (d a : BitVec 6) (e : BitVec 3) (n : BitVec 3) (s : State) : Host.Outcome State Fault Refusal :=
  .next (s.runGroup
    { n := n, srcs := addrSrcs a, dsts := [.v d], bad := worse (groupBad [(a.toNat, 2)]) (scopeBad e), who := .thread }
    noFixed fun s ag vs =>
    let va := pairAt vs 0
    match s.admitted ag .read va 4 with
    | (none, s) => s
    | (some (loc, home, x), s) =>
      let core := s.coreOf ag
      let sc := (scopeOf e).getD .blk
      let t := (s.acquireSys ag sc).cacheLoad core loc
      let id := t.nextId
      let t := t.acceptLoad (accessOf ag core loc 4 .load va.toNat home (some x)) (.words .raw) [.v d]
      if home.isOutside && sc != .sys then t.advance ag n
      else match t.bindNow id with
        | some t => t.advance ag n
        | none => s)

/-- ST.REL.B32: the thread waits until its earlier register writes are performed (R118); its earlier accesses are performed at
the scope; then the store is accepted. -/
def execStRelB32 (d a : BitVec 6) (e : BitVec 3) (n : BitVec 3) (s : State) : Host.Outcome State Fault Refusal :=
  .next (s.runGroup
    { n := n, srcs := addrSrcs a ++ [vSrc d 3 .any], bad := worse (groupBad [(a.toNat, 2)]) (scopeBad e), who := .thread }
    noFixed fun s ag vs =>
    match scopeOf e with
    | none => s
    | some sc =>
      if !s.releaseReady ag sc then s
      else
        let va := pairAt vs 0
        match s.admitted ag .write va 4 with
        | (none, s) => s
        | (some (loc, home, x), s) =>
          let core := s.coreOf ag
          let s := s.drainRelease ag sc
          (s.acceptStore (accessOf ag core loc 4 (.store []) va.toNat home (some x)) (storeBytes 4 (vs.drop 2))).advance ag n)

/-! ## Uniform loads (R96, R97) -/

/-- The frame that all executing threads reference, if they do: one access then serves them all (R96). -/
def State.sharedFrame (s : State) : Option Nat :=
  let fs := s.issue.agents.map fun ag => match ag with
    | .thread bid tid => match s.thread? bid tid with
      | some t => t.frame
      | none => none
    | .bobbin .. => none
  match fs with
  | some f :: rest => if rest.all fun x => x == some f then some f else none
  | _ => none

/-- LDU and LDC: LDC is never ordered by a fence or an acquire (R97). -/
def State.ldu (s : State) (w : Nat) (ordered : Bool) (d a : BitVec 4) (o : BitVec 9) (n : BitVec 3) : State :=
  let k := regsFor w
  let group := if s.sharedFrame.isSome then some s.nextId else none
  s.runUniform
    { n := n, srcs := sSrcs a 2, dsts := (sGroup d k).map Reg.s, bad := groupBad [(a.toNat, 2), (d.toNat, k)] } noFixed
    fun s ag vs => s.loadFrom ag n (lmAddr vs o w) w (.words .raw) ((sGroup d k).map Reg.s) fun x =>
      { x with ordered := ordered, group := group }

def execLduB32 (d a : BitVec 4) (o : BitVec 9) (n : BitVec 3) (s : State) : Host.Outcome State Fault Refusal :=
  .next (s.ldu 4 true d a o n)
def execLduB64 (d a : BitVec 4) (o : BitVec 9) (n : BitVec 3) (s : State) : Host.Outcome State Fault Refusal :=
  .next (s.ldu 8 true d a o n)
def execLdcB32 (d a : BitVec 4) (o : BitVec 9) (n : BitVec 3) (s : State) : Host.Outcome State Fault Refusal :=
  .next (s.ldu 4 false d a o n)
def execLdcB64 (d a : BitVec 4) (o : BitVec 9) (n : BitVec 3) (s : State) : Host.Outcome State Fault Refusal :=
  .next (s.ldu 8 false d a o n)

/-! ## Scratchpad (R176) -/

/-- A scratchpad access of an agent to a block's window up to its acceptance: bounds, the fill of a region line, and for
writes the phaser bit (R172 rows 3, 5, 8). None: the agent has trapped, parked or waits. -/
def State.admitScratch (s : State) (ag : Agent) (tb : Block) (off w : Nat) (write : Bool) (info : Word) :
    Option Loc × State :=
  let addr := BitVec.ofNat 64 off
  if off + w > tb.regs.scratchSize.toNat then (none, s.trap ag .scratchBounds info addr)
  else match s.fillRange tb.bid off w false with
    | (.xfault va x l, s) => (none, s.park ag .read va x l)
    | (.stop c va, s) => (none, s.trap ag c 0 va)
    | (.waits, s) => (none, s)
    | (.poisoned, s) => (none, s)
    | (.filled, s) =>
      if write && s.phaserBit tb.core (tb.scr off / 32) then (none, s.trap ag .phaserClobber 0 addr)
      else (some (.scratch tb.core (tb.scr off)), s)

/-- A load from a block's window; in a region it is performed at its acceptance. -/
def State.scratchLoad (s : State) (ag : Agent) (n : BitVec 3) (tb : Block) (off w : Nat) (info : Word) (regs : List Reg) :
    State :=
  match s.admitScratch ag tb off w false info with
  | (none, s) => s
  | (some loc, s) =>
    let id := s.nextId
    let t := s.acceptLoad (accessOf ag tb.core loc w .load off .wafer none) (.words .raw) regs
    if (tb.regionAt off).isNone then t.advance ag n
    else match t.bindNow id with
      | some t => t.advance ag n
      | none => s

/-- A store to a block's window; in a region it is performed at its acceptance, and its bytes join the line's mask (R179). -/
def State.scratchStore (s : State) (ag : Agent) (n : BitVec 3) (tb : Block) (off w : Nat) (info : Word) (data : List Byte) :
    State :=
  match s.admitScratch ag tb off w true info with
  | (none, s) => s
  | (some loc, s) =>
    let id := s.nextId
    let t := s.acceptStore (accessOf ag tb.core loc w (.store []) off .wafer none) data
    if (tb.regionAt off).isNone then t.advance ag n
    else match t.bindNow id with
      | some t => (t.markWritten tb.bid off w).advance ag n
      | none => s

/-- The exact scratchpad offset of LDS and STS, and its checks: alignment first, then below 0 (R176);
trap.addr holds a negative offset in 64-bit two's complement (log 151). -/
def State.localScratch (s : State) (ag : Agent) (va : Word) (o : BitVec 9) (w : Nat) (f : State → Block → Nat → State) :
    State :=
  let e : Int := (va.toNat : Int) + o.toInt * (w : Int)
  if e.emod w ≠ 0 then s.trap ag .misaligned 0 (BitVec.ofInt 64 e)
  else if e < 0 then s.trap ag .scratchBounds 0 (BitVec.ofInt 64 e)
  else match s.blockOf ag with
    | some b => f s b e.toNat
    | none => s

/-- LDS. -/
def State.lds (s : State) (w : Nat) (d a : BitVec 6) (o : BitVec 9) (n : BitVec 3) : State :=
  let k := regsFor w
  s.runGroup { n := n, srcs := [vSrc a 0 aI], dsts := vRegs d k, bad := groupBad [(d.toNat, k)], who := .thread } noFixed
    fun s ag vs => s.localScratch ag (valAt vs 0) o w fun s b e => s.scratchLoad ag n b e w 0 (vRegs d k)

/-- STS. -/
def State.sts (s : State) (w : Nat) (d a : BitVec 6) (o : BitVec 9) (n : BitVec 3) : State :=
  let k := regsFor w
  s.runGroup
    { n := n, srcs := vSrc a 0 aI :: vSrcs d k 3 .any, bad := groupBad [(d.toNat, k)], who := .thread } noFixed
    fun s ag vs => s.localScratch ag (valAt vs 0) o w fun s b e =>
      s.scratchStore ag n b e w 0 (storeBytes w (vs.drop 1))

def execLdsB32 (d a : BitVec 6) (o : BitVec 9) (n : BitVec 3) (s : State) : Host.Outcome State Fault Refusal :=
  .next (s.lds 4 d a o n)
def execLdsB64 (d a : BitVec 6) (o : BitVec 9) (n : BitVec 3) (s : State) : Host.Outcome State Fault Refusal :=
  .next (s.lds 8 d a o n)
def execStsB32 (d a : BitVec 6) (o : BitVec 9) (n : BitVec 3) (s : State) : Host.Outcome State Fault Refusal :=
  .next (s.sts 4 d a o n)
def execStsB64 (d a : BitVec 6) (o : BitVec 9) (n : BitVec 3) (s : State) : Host.Outcome State Fault Refusal :=
  .next (s.sts 8 d a o n)

/-- The block that a name operand names, with the checks of R172 rows 4 and 7: reserved bits, the quarter, retirement; the name
cache is used (R376). `lone`: a block in no quarter may name itself (R284, R289). None: the agent has trapped, or the arrival is
held. -/
def State.named (s : State) (ag : Agent) (lone : Bool) (name info : Word) (addr : DWord) : Option Block × State :=
  match s.blockOf ag with
  | none => (none, s)
  | some b =>
    let nm := (name.extractLsb' 0 16).toNat
    if name.extractLsb' 16 16 ≠ 0 || !lone && b.regs.qsize == 0 then (none, s.trap ag .nameInvalid info addr)
    else match s.resolve b nm with
      | .invalid => (none, s.trap ag .nameInvalid info addr)
      | .held => (none, s)
      | .retired _ => (none, s.trap ag .nameRetired info addr)
      | .found tb => (some tb, s.usedName b nm)

/-- LDQ and STQ after their operands: alignment, the name, then the window of the block it holds. -/
def State.quarter (s : State) (ag : Agent) (off name : Word) (f : State → Block → Nat → State) : State :=
  let addr := off.zeroExtend 64
  let info := (name.extractLsb' 0 16).zeroExtend 32
  if off &&& 3 ≠ 0 then s.trap ag .misaligned 0 addr
  else match s.named ag false name info 0 with
    | (some tb, s) => f s tb off.toNat
    | (none, s) => s

def execLdqB32 (d a b : BitVec 6) (n : BitVec 3) (s : State) : Host.Outcome State Fault Refusal :=
  .next (s.runGroup { n := n, srcs := [vSrc a 0 aI, vSrc b 1 aI], dsts := [.v d], who := .thread } noFixed fun s ag vs =>
    s.quarter ag (valAt vs 0) (valAt vs 1) fun s tb e =>
      s.scratchLoad ag n tb e 4 ((valAt vs 1).extractLsb' 0 16 |>.zeroExtend 32) [.v d])
def execStqB32 (d a b : BitVec 6) (n : BitVec 3) (s : State) : Host.Outcome State Fault Refusal :=
  .next (s.runGroup { n := n, srcs := [vSrc a 0 aI, vSrc b 1 aI, vSrc d 3 .any], who := .thread } noFixed fun s ag vs =>
    s.quarter ag (valAt vs 0) (valAt vs 1) fun s tb e =>
      s.scratchStore ag n tb e 4 ((valAt vs 1).extractLsb' 0 16 |>.zeroExtend 32) (storeBytes 4 (vs.drop 2)))

/-! ## Cache operations and prefetch hints (R181, R182) -/

/-- What CACHE and the prefetch hints find at an address. -/
inductive LineAt where
  | line (line dom : Nat) (l : Loc)
  /-- No line of wafer DRAM that may be read. -/
  | none
  /-- A frozen frame or a clock change holds the translation back (R325, R398). -/
  | waits
  /-- A poisoned granule: the context has stopped (R405). -/
  | dead
  deriving DecidableEq, Repr

/-- The DRAM line that a readable address translates to; no fault, no AD, and no access. -/
def State.lineFor (s : State) (ag : Agent) (va : DWord) : LineAt × State :=
  if !canonical va.toNat then (.none, s)
  else
    let sp := s.spaceOf ag
    match s.lookup sp .read false va.toNat with
    | (.leaf e, s) => match s.dramLine (e.loc sp.core va.toNat) with
      | some (line, d) => (.line line d (e.loc sp.core va.toNat), s)
      | none => (.none, s)
    | (.waits, s) => (.waits, s)
    | (.poison, s) => (.dead, s)
    | (_, s) => (.none, s)

/-- CACHE: its effect on the line, if it has one; the instruction never faults on the address, and waits while its translation does.
-/
def State.cacheOp (s : State) (a : BitVec 6) (n : BitVec 3) (f : State → Nat → Nat → Nat → State) : State :=
  s.runGroup { n := n, srcs := addrSrcs a, bad := groupBad [(a.toNat, 2)], who := .thread } noFixed fun s ag vs =>
    match s.lineFor ag (pairAt vs 0) with
    | (.line line d _, s) => (f s (s.coreOf ag) line d).advance ag n
    | (.none, s) => s.advance ag n
    | (.waits, s) => s
    | (.dead, s) => s

/-- The line leaves this core's L1. -/
def execCacheEvl1 (a : BitVec 6) (n : BitVec 3) (s : State) : Host.Outcome State Fault Refusal :=
  .next (s.cacheOp a n fun s core line _ => s.dropL1 core line)
/-- A dirty line is written to DRAM and stays in its home L2, clean. -/
def execCacheWbl2 (a : BitVec 6) (n : BitVec 3) (s : State) : Host.Outcome State Fault Refusal :=
  .next (s.cacheOp a n fun s _ line d =>
    s.updDom d fun x => { x with l2 := x.l2.map (fun y => if y.1 = line then (line, false) else y) })
/-- The line leaves its home L2 and every L1. -/
def execCacheEvl2 (a : BitVec 6) (n : BitVec 3) (s : State) : Host.Outcome State Fault Refusal :=
  .next (s.cacheOp a n fun s _ line d =>
    (s.invalidateOthers none line).updDom d fun x => { x with l2 := x.l2.filter (fun y => y.1 != line) })

/-- A prefetch hint: dropped by a free choice, or when an operand is pending or incomplete (R55, R182). -/
def State.prefetch (s : State) (a : BitVec 4) (o : BitVec 9) (n : BitVec 3) (f : State → Nat → Loc → State) : State :=
  s.runHint n fun s ag =>
    let c := s.ctx ag
    let regs := (sGroup a 2).map Reg.s
    if regs.any fun r => c.isPending r || c.incomplete s.issue.now r then s
    else
      let (k, s) := s.choose 2
      if k = 0 then s
      else
        let vs := regs.map fun r => s.readReg ag r
        match s.lineFor ag (lmAddr vs o 128) with
        | (.line _ _ loc, s) => f s (s.coreOf ag) loc
        | (_, s) => s

def execPfL1 (_x a _y : BitVec 4) (o : BitVec 9) (n : BitVec 3) (s : State) : Host.Outcome State Fault Refusal :=
  .next (s.prefetch a o n fun s core loc => s.cacheLoad core loc)
def execPfL2 (_x a _y : BitVec 4) (o : BitVec 9) (n : BitVec 3) (s : State) : Host.Outcome State Fault Refusal :=
  .next (s.prefetch a o n fun s _ loc => match s.dramLine loc with
    | some (line, d) => s.useL2 d line false
    | none => s)

end Sys2Proof.Machine
end

