-- ==== Sys2Proof/Machine/PhaserInstr.lean ====
section
/-! DEFINITION. Phaser instructions and their waits, the signal list and effective priority, FENCE (R255, R258 to R269, R276,
R415). -/

namespace Sys2Proof.Machine

/-! ## Naming a phaser (R255) -/

/-- The phaser that a reference names: its block and absolute offset, after the checks of R255 up to PHASER_INVALID reasons 1
and 2. `name` is the quarter operand when Q = 1. -/
def State.phaserRef (s : State) (ag : Agent) (ref : Word) (name : Option Word) (needBit : Bool) :
    Option (Block × Nat) × State :=
  let off := (ref.extractLsb' 0 20).toNat
  let addr := BitVec.ofNat 64 off
  if off % 32 ≠ 0 then (none, s.trap ag .misaligned 0 addr)
  else
    let (tb, s) := match name with
      | some nm => s.named ag false nm ((nm.extractLsb' 0 16).zeroExtend 32) 0
      | none => (s.blockOf ag, s)
    match tb with
    | none => (none, s)
    | some b =>
      let info := match name with
        | some nm => (nm.extractLsb' 0 16).zeroExtend 32
        | none => 0
      if off + 32 > b.regs.scratchSize.toNat then (none, s.trap ag .scratchBounds info addr)
      else if ref.extractLsb' 20 12 ≠ 0 then (none, s.trap ag .phaserInvalid 1 0)
      else if needBit && !s.phaserBit b.core (b.scr off / 32) then (none, s.trap ag .phaserInvalid 2 0)
      else (some (b, b.scr off), s)

/-- The quarter operand: sb when Q = 1. It is a source only then. -/
def nameSrc (q : BitVec 1) (b : BitVec 4) : List Src := if q = 1#1 then [sSrc b] else []

/-- Reserved sb with Q = 0 (R258): ILLEGAL reason 3. -/
def nameBad (q : BitVec 1) (b : BitVec 4) : Option Nat := if q = 0#1 ∧ b ≠ 0#4 then some 3 else none

def nameOf (q : BitVec 1) (vs : List VReg) (i : Nat) : Option Word := if q = 1#1 then some (valAt vs i) else none

/-- PHARR and PHWAIT act at blk scope for Q = 0 and at clu scope for Q = 1 (R271). -/
def phScope (q : BitVec 1) : Scope := if q = 1#1 then .clu else .blk

/-! ## The signal list (R268) -/

/-- The block whose phaser an entry of a block's signal list names, as the name resolves now, an alias of an earlier residence too
(R268, R342). -/
def State.signalled (s : State) (b : Block) (e : SignalEntry) : Option Block :=
  (s.peer b e.name).or (if e.name = b.core then some b else none)

/-- An entry of a block's signal list names the phaser at an offset of this block's window. -/
def State.signalHits (s : State) (b tb : Block) (off : Nat) (e : SignalEntry) : Bool :=
  e.off == off && (s.signalled b e).map (·.bid) == some tb.bid

/-- The name by which an entry names a block: its core's, or an alias where that is another block's of its unit (log 174). -/
def State.nameFor (s : State) (tb : Block) : Nat :=
  let mine := s.street.filter fun e => e.unit == tb.unit && e.cur == tb.core
  if mine.any fun e => e.name == tb.core then tb.core else ((mine.head?).map (·.name)).getD tb.core

/-- A signaller registers: the phaser's entry counts it, a new entry if the list has room. -/
def State.addSignal (s : State) (bid : Nat) (tb : Block) (off : Nat) : State :=
  match s.block? bid with
  | none => s
  | some b =>
    let hit := s.signalHits b tb off
    s.updBlock bid fun k =>
      if k.signals.any hit then { k with signals := k.signals.map (fun e => if hit e then { e with count := e.count + 1 } else e) }
      else if k.signals.length < 16 then { k with signals := k.signals ++ [{ name := s.nameFor tb, off := off, count := 1 }] }
      else k

/-- A counted deregistration: the entry counts one less, and ends at 0. -/
def State.dropSignal (s : State) (bid : Nat) (tb : Block) (off : Nat) : State :=
  match s.block? bid with
  | none => s
  | some b =>
    let hit := s.signalHits b tb off
    s.updBlock bid fun k =>
      { k with signals := (k.signals.map fun e => if hit e then { e with count := e.count - 1 } else e).filter (fun e => e.count != 0) }

/-! ## PHINIT, PHREG, PHDEREG, PHEXP (R259 to R263) -/

/-- The granule as PHINIT leaves it (R259). -/
def Phaser.init (p : Phaser) (set force : Bool) : Phaser :=
  { land := 0, expb := 0, phase := 0, drop := if set && force then p.drop else 0, nsig := 0, narr := 0, nwait := 0,
    wpri := 0, gen := if set then (p.gen + 1) % 256 else 0, nout := if set then p.nout else 0 }

/-- An access that still reaches a granule: it is performed before the granule becomes a phaser, or is initialised again. -/
def State.toGranule (s : State) (core abs : Nat) (a : Access) : Bool := s.locsMeet a.loc a.width (.scratch core abs) 32

/-- A phaser operation of an agent comes after the agent's own loads of the granule (R252, R417): they are performed first; none
where something holds one back. -/
def State.afterLoads (s : State) (ag : Agent) (core abs : Nat) : Option State :=
  let first := fun a : Access => a.agent == ag && s.toGranule core abs a
  if s.forceable first then some (s.force first) else none

/-- A phaser instruction on the phaser that its reference names, after the issuer's own loads of the granule. -/
def State.onPhaser (s : State) (ag : Agent) (ref : Word) (name : Option Word) (f : State → Block → Nat → State) : State :=
  match s.phaserRef ag ref name true with
  | (none, s) => s
  | (some (tb, abs), s) => match s.afterLoads ag tb.core abs with
    | some s => f s tb abs
    | none => s

def State.phinit (s : State) (force : Bool) (a : BitVec 4) (n : BitVec 3) : State :=
  s.runUniform { n := n, srcs := [sSrc a] } noFixed fun s ag vs =>
    match s.phaserRef ag (valAt vs 0) none false with
    | (none, s) => s
    | (some (b, abs), s) =>
      let off := abs - b.regs.scratchBase.toNat
      if (b.regionAt off).isSome then s.trap ag .phaserInvalid 4 0
      else
        let set := s.phaserBit b.core (abs / 32)
        if set && (s.phaser b.core abs).nout != 0 && !force then s.trap ag .phaserBusy 0 0
        else if !s.forceable (s.toGranule b.core abs) then s
        else
          let s := s.force (s.toGranule b.core abs)
          let s := (s.setPhaser b.core abs ((s.phaser b.core abs).init set force)).staleWaits b.core abs
          (s.updCore b.core fun c =>
            { c with phasers := if set then c.phasers else (abs / 32) :: c.phasers }).advance ag n

def execPhinit (a : BitVec 4) (n : BitVec 3) (s : State) : Host.Outcome State Fault Refusal := .next (s.phinit false a n)
def execPhinitForce (a : BitVec 4) (n : BitVec 3) (s : State) : Host.Outcome State Fault Refusal := .next (s.phinit true a n)

/-- PHREG: registrations and the token (R260). -/
def State.phreg (s : State) (sig wait : Bool) (d a b : BitVec 4) (q : BitVec 1) (n : BitVec 3) : State :=
  s.runUniform { n := n, srcs := sSrc a :: nameSrc q b, dsts := [.s d], bad := nameBad q b } noFixed fun s ag vs =>
    s.onPhaser ag (valAt vs 0) (nameOf q vs 1) fun s tb abs =>
      let p := s.phaser tb.core abs
      let lim := 2 ^ 18 - 1
      if (sig && decide (p.nsig ≥ lim)) || (wait && decide (p.nwait ≥ lim)) then s.trap ag .phaserInvalid 3 0
      else
        let p' := { p with nsig := if sig then p.nsig + 1 else p.nsig, nwait := if wait then p.nwait + 1 else p.nwait }
        let tok := if sig then tokenOf p.gen false p.phase else tokenOf p.gen true (p.phase + 1)
        let s := s.setPhaser tb.core abs p'
        let s := if sig then s.addSignal (s.bidOf ag) tb (abs - tb.regs.scratchBase.toNat) else s
        s.retireVar ag n [wS d tok]

def execPhregSig (d a b : BitVec 4) (q : BitVec 1) (n : BitVec 3) (s : State) : Host.Outcome State Fault Refusal :=
  .next (s.phreg true false d a b q n)
def execPhregWait (d a b : BitVec 4) (q : BitVec 1) (n : BitVec 3) (s : State) : Host.Outcome State Fault Refusal :=
  .next (s.phreg false true d a b q n)
def execPhregBoth (d a b : BitVec 4) (q : BitVec 1) (n : BitVec 3) (s : State) : Host.Outcome State Fault Refusal :=
  .next (s.phreg true true d a b q n)

/-- What a deregistration does to the phaser, and whether it counted a signaller (R261); NARR does not fall below 0 (log 171). -/
def Phaser.deregister (p : Phaser) (t : Word) (sig wait : Bool) : Phaser × Bool :=
  let (p, counted) :=
    if sig then
      if p.nsig = 0 || isBehind t p.phase then (p.dropped, false)
      else if isCurrent t p.phase then ({ p with nsig := p.nsig - 1 }, true)
      else if tokPh t = (p.phase + 1) % 2 ^ 23 then ({ p with nsig := p.nsig - 1, narr := p.narr - 1 }, true)
      else (p.dropped, false)
    else (p, false)
  (if wait && decide (p.nwait > 0) then { p with nwait := p.nwait - 1 } else p, counted)

/-- PHDEREG: role 1 signaller, 2 waiter, 3 both; role 0 raises ILLEGAL with reason 7. A counted one is a release. -/
def execPhdereg (d a b : BitVec 4) (r : BitVec 2) (q : BitVec 1) (n : BitVec 3) (s : State) :
    Host.Outcome State Fault Refusal :=
  .next (s.runUniform
    { n := n, srcs := sSrc a :: nameSrc q b ++ [sSrc d], bad := worse (nameBad q b) (if r = 0 then some 7 else none) } noFixed
    fun s ag vs =>
    let t := valAt vs (1 + (nameSrc q b).length)
    let sig := r.getLsbD 0
    s.onPhaser ag (valAt vs 0) (nameOf q vs 1) fun s tb abs =>
      let p := s.phaser tb.core abs
      if tokGen t ≠ p.gen then (s.setPhaser tb.core abs p.dropped).advance ag n
      else if sig && tokW t then s.trap ag .phaserInvalid 5 0
      else
        let (_, counted) := p.deregister t sig (r.getLsbD 1)
        if counted && !s.releaseReady ag (phScope q) then s
        else
          let s := if counted then s.drainRelease ag (phScope q) else s
          let (p', _) := (s.phaser tb.core abs).deregister t sig (r.getLsbD 1)
          let s := s.checkPhaser tb.core abs p'
          let s := if counted then s.dropSignal (s.bidOf ag) tb (abs - tb.regs.scratchBase.toNat) else s
          s.advance ag n)

/-- PHEXP adds to the expected bytes (R263). -/
def execPhexp (d a b : BitVec 4) (q : BitVec 1) (n : BitVec 3) (s : State) : Host.Outcome State Fault Refusal :=
  .next (s.runUniform { n := n, srcs := sSrc a :: nameSrc q b ++ [sSrc d], bad := nameBad q b } noFixed fun s ag vs =>
    s.onPhaser ag (valAt vs 0) (nameOf q vs 1) fun s tb abs =>
      let p := s.phaser tb.core abs
      let x := (valAt vs (1 + (nameSrc q b).length)).toNat
      (s.checkPhaser tb.core abs { p with expb := (p.expb + x) % 2 ^ 32 }).advance ag n)

/-! ## PHARR and PHWAIT (R262, R264) -/

/-- The effective priority of an agent's block. -/
def State.effOf (s : State) (ag : Agent) : Nat :=
  match s.blockOf ag with
  | some b => b.eff
  | none => 7

/-- The agent blocks at its instruction (R140, R183); its stall count runs from dispatch (R42). -/
def State.blockAgent (s : State) (ag : Agent) (n : BitVec 3) (w : Wait) : State :=
  let s := s.updCtx (fun c => { c with ready := s.issue.now + 1 + n.toNat }) ag
  match ag with
  | .thread bid tid => s.stopThread bid tid (.blocked w)
  | .bobbin core b => s.updBobbin core b fun x => { x with wait := some w }

/-- The agent blocks on a phaser and posts its block's effective priority (R264). -/
def State.waitOn (s : State) (ag : Agent) (n : BitVec 3) (core abs : Nat) (t : Word) (sd : BitVec 4) (arrive : Bool) :
    State :=
  let p := s.phaser core abs
  let s := s.setPhaser core abs { p with wpri := p.wpri ||| 2 ^ s.effOf ag }
  s.blockAgent ag n (.phwait core abs t sd arrive s.issue.word .waiting)

/-- PHARR (R262). An arrival that is counted adds 1 to NARR modulo 2^18 (log 170). -/
def execPharr (d a b : BitVec 4) (q : BitVec 1) (n : BitVec 3) (s : State) : Host.Outcome State Fault Refusal :=
  .next (s.runUniform { n := n, srcs := sSrc a :: nameSrc q b ++ [sSrc d], dsts := [.s d], bad := nameBad q b } noFixed
    fun s ag vs =>
    let t := valAt vs (1 + (nameSrc q b).length)
    s.onPhaser ag (valAt vs 0) (nameOf q vs 1) fun s tb abs =>
      let p := s.phaser tb.core abs
      if tokW t then s.trap ag .phaserInvalid 5 0
      else if tokGen t ≠ p.gen then (s.setPhaser tb.core abs p.dropped).advance ag n
      else if isAhead t p.phase then s.waitOn ag n tb.core abs t d true
      else if isBehind t p.phase then
        (s.setPhaser tb.core abs p.dropped).retireVar ag n [wS d (tokenOf p.gen false p.phase)]
      else if !s.releaseReady ag (phScope q) then s
      else
        let s := s.drainRelease ag (phScope q)
        let p := s.phaser tb.core abs
        (s.checkPhaser tb.core abs { p with narr := (p.narr + 1) % 2 ^ 18 }).retireVar ag n
          [wS d (tokenOf p.gen false (tokPh t + 1))])

/-- A completed wait synchronises-with every arrival and credit counted in the completed phases, those at blk scope by agents of the
phaser's block among them (R277, R415): when that is another block than the waiter's, what the block has seen is performed for every
agent first; none while something holds a store of it. -/
def State.syncWith (s : State) (ag : Agent) (tb : Block) : Option State :=
  if tb.bid = s.bidOf ag then some s
  else if (s.accs.filter fun a => a.seen.isSome && s.bidOf a.agent == tb.bid).all s.passes then some (s.drainSeen tb.bid) else none

/-- The resident block in whose window a phaser lies. -/
def State.phaserBlock (s : State) (core abs : Nat) : Option Block :=
  (s.blocksOn core).find? fun b => decide (b.regs.scratchBase.toNat ≤ abs) && decide (abs < b.scr b.regs.scratchSize.toNat)

def execPhwait (d a b : BitVec 4) (q : BitVec 1) (n : BitVec 3) (s : State) : Host.Outcome State Fault Refusal :=
  .next (s.runUniform { n := n, srcs := sSrc a :: nameSrc q b ++ [sSrc d], dsts := [.s d], bad := nameBad q b } noFixed
    fun s ag vs =>
    let t := valAt vs (1 + (nameSrc q b).length)
    s.onPhaser ag (valAt vs 0) (nameOf q vs 1) fun s tb abs =>
      let p := s.phaser tb.core abs
      if tokGen t ≠ p.gen then s.trap ag .phaserStale 0 0
      else if isAhead t p.phase then s.waitOn ag n tb.core abs t d false
      else match s.syncWith ag tb with
        | none => s
        | some s => if tokW t then s.retireVar ag n [wS d (tokenOf p.gen true (p.phase + 1))] else s.advance ag n)

/-! ## Waking -/

/-- What an agent waits for. -/
def State.waitOf (s : State) (ag : Agent) : Option Wait :=
  match ag with
  | .thread bid tid => match s.thread? bid tid with
    | some t => match t.status with
      | .blocked w => some w
      | _ => none
    | none => none
  | .bobbin core b => (s.bobbin core b).wait

/-- The agent goes on from its wait: runnable, filed where it resumes (R140). -/
def State.unblock (s : State) (ag : Agent) : State :=
  match ag with
  | .thread bid tid => s.wake bid tid
  | .bobbin core b => s.updBobbin core b fun x => { x with wait := none }

/-- The blocked instruction completes: its registers are written, and the agent goes on at the next word. -/
def State.completeWait (s : State) (ag : Agent) (ws : List (Reg × VReg)) : State :=
  let s := ((s.writeComplete ag ws).updCtx (fun c => { c with pc := c.pc + 4 }) ag).unblock ag
  match ag with
  | .thread bid tid => s.leaveFrame bid tid
  | .bobbin .. => s

/-- A trap at the instruction an agent is blocked at. -/
def State.trapAt (s : State) (ag : Agent) (cause : Cause) (info : Word) (addr : DWord) (word : Word) : State :=
  match ag with
  | .thread bid tid => s.trapThread bid tid cause info addr (s.ctx ag).pc word 0
  | .bobbin core b => s.updBobbin core b fun x => x.trapped cause.code x.ctx.pc word

/-- PHWAIT_COMPLETE: a wait that a phase has woken completes, an early arrival by executing its PHARR again (log 136); one that a
PHINIT has woken raises PHASER_STALE (R256, R259, R262, R264). -/
def execPhwaitComplete (ag : Agent) (s : State) : Host.Outcome State Fault Refusal :=
  .next (match s.waitOf ag with
    | some (.phwait core abs t sd arrive word wake) => match wake with
      | .waiting => s
      | .stale => s.trapAt ag .phaserStale 0 0 word
      | .woken tok =>
        if arrive then s.unblock ag
        else match ((s.phaserBlock core abs).elim (some s) (s.syncWith ag)) with
          | none => s
          | some s => s.completeWait ag (if tokW t then [(.s sd, ⟨tok, .raw⟩)] else [])
    | _ => s)

/-! ## Effective priority (R269) -/

/-- The lowest-numbered bit set of WPRI. -/
def lowestPriority (wpri : Nat) : Option Nat := (List.range 8).find? fun p => bitOf wpri p

/-- The priorities lent to a block by the phasers of its signal list. -/
def State.lent (s : State) (b : Block) : List Nat :=
  b.signals.filterMap fun e => (s.signalled b e).bind fun k => lowestPriority (s.phaser k.core (k.scr e.off)).wpri

/-- The phasers on which an agent of a block is blocked: core and absolute offset. -/
def State.waitsOf (s : State) (b : Block) : List (Nat × Nat) :=
  let at_ := fun w : Wait => match w with
    | .phwait c o _ _ _ _ .waiting => some (c, o)
    | _ => none
  (b.threads.filterMap fun t => match t.status with
    | .blocked w => at_ w
    | _ => none) ++
  (((s.core b.core).bobbins.toList.filter fun x => x.bid == b.bid).filterMap fun x => x.wait.bind at_)

/-- A phaser's WPRI is formed anew from the participants blocked on it. -/
def State.repost (s : State) (core abs : Nat) : State :=
  let p := s.phaser core abs
  let w := s.postedPriorities core abs p.phase
  if p.wpri = w then s else s.setPhaser core abs { p with wpri := w }

/-- EFFECTIVE_PRIORITY_UPDATE: each block of the core takes the least of its grid's priority and those lent to it, and its blocked
participants post it, so that inheritance passes along chains of phasers (R269). -/
def execEffectivePriorityUpdate (core : Nat) (s : State) : Host.Outcome State Fault Refusal :=
  .next ((s.blocksOn core).foldl (fun (s : State) b =>
    let eff := (s.lent b).foldl min b.regs.grid
    if b.eff = eff then s
    else (s.waitsOf b).foldl (fun (s : State) p => s.repost p.1 p.2) (s.updBlock b.bid fun k => { k with eff := eff })) s)

/-! ## FENCE (R276) -/

/-- FENCE completes when the earlier accesses that it orders have been performed at its scope (R275, R276): it waits while
something holds one of them back (R325, R398), and R118 applies to FENCE.REL and FENCE.AR. -/
def State.fence (s : State) (acq rel : Bool) (e n : BitVec 3) : State :=
  s.runUniform { n := n, bad := scopeBad e } noFixed fun s ag _ =>
    match scopeOf e with
    | none => s
    | some sc =>
      if rel && !s.releaseReady ag sc || acq && !s.forceable (acquires ag sc) then s
      else
        let s := if acq then (s.drainLoads ag sc).acquireSys ag sc else s
        (if rel then s.drainRelease ag sc else s).advance ag n

def execFenceAcq (e n : BitVec 3) (s : State) : Host.Outcome State Fault Refusal := .next (s.fence true false e n)
def execFenceRel (e n : BitVec 3) (s : State) : Host.Outcome State Fault Refusal := .next (s.fence false true e n)
def execFenceAr (e n : BitVec 3) (s : State) : Host.Outcome State Fault Refusal := .next (s.fence true true e n)

end Sys2Proof.Machine
end

