-- ==== Sys2Proof/Machine/Bobbin.lean ====
section
/-! DEFINITION. FORK, RDZV, GRES and the end of a bobbin (R183 to R189, R200). -/

namespace Sys2Proof.Machine

/-! ## FORK (R184, R185) -/

/-- The lowest-numbered free bobbin of a core. -/
def State.freeBobbin (s : State) (core : Nat) : Option Nat :=
  (List.range 4).find? fun b => (s.bobbin core b).status == .free

/-- A bobbin as FORK starts it. -/
def forkedBobbin (blk : Block) (tid : Nat) (leader : Ctx) (priv : Bool) (regs : List Word) (sd : BitVec 4) (target : DWord)
    (ready : Nat) : Bobbin :=
  let ctx : Ctx :=
    { pc := target, s := Vector.ofFn fun i => regs.getD i.val 0,
      tstate := tstateWord false priv (nreadOf leader.tstate) (stallchkOf leader.tstate), ready := ready, inflight := [],
      pend := [] }
  { Bobbin.zero with
    status := .running
    bid := blk.bid
    ctx := ctx.writeS sd leader.pc.lo
    leader := tid
    usr := Vector.ofFn fun i => usrOf blk tid i.val
    endAddr := leader.pc.lo
    fid := blk.fid }

/-- FORK: every s-register is read; the thread's earlier writes and accesses happen before the bobbin (R185). No thread
of a stopped block starts one (R329). -/
def execFork (d : BitVec 4) (i : BitVec 16) (n : BitVec 3) (s : State) : Host.Outcome State Fault Refusal :=
  .next (s.runUniform { n := n, srcs := sSrcs 0 16, dsts := [.s d], who := .thread } noFixed fun s ag vs =>
    match ag, s.blockOf ag with
    | .thread _ tid, some blk =>
      if !s.releaseReady ag .blk || blk.halted then s
      else
        let s := s.drainRelease ag .blk
        match s.freeBobbin blk.core with
        | none => s.retireVar ag n [wS d 0xFFFFFFFF]
        | some b =>
          let c := s.ctx ag
          let x := forkedBobbin blk tid c (privOf c.tstate) (vs.map (·.val)) d (relTarget c.pc i) (s.issue.now + 1)
          (s.updBobbin blk.core b fun _ => x).retireVar ag n [wS d (BitVec.ofNat 32 b)]
    | _, _ => s)

/-! ## RDZV (R188, R189) -/

/-- trap.info of BOBBIN_TRAP (R189). -/
def bobbinTrapInfo (b cause : Nat) : Word := BitVec.ofNat 32 (b % 4 + cause % 256 * 256)

/-- RDZV: reason 7 for a number above 3, a free bobbin, one of another block, one already joined; else the join, and the wait
until the bobbin has ended. It becomes free before BOBBIN_TRAP is raised. -/
def execRdzv (d a : BitVec 4) (n : BitVec 3) (s : State) : Host.Outcome State Fault Refusal :=
  .next (s.runUniform { n := n, srcs := [sSrc a], dsts := [.s d], who := .thread } noFixed fun s ag vs =>
    match s.blockOf ag with
    | none => s
    | some blk =>
      let b := (valAt vs 0).toNat
      let x := s.bobbin blk.core b
      if b > 3 || x.status == .free || x.bid != blk.bid || x.joined then s.illegal ag 7
      else if x.status = .ended then
        let s := s.updBobbin blk.core b fun _ => Bobbin.zero
        if x.cause ≠ 0 then s.trap ag .bobbinTrap (bobbinTrapInfo b x.cause) x.trapPc
        else s.retireVar ag n [wS d (x.ctx.readS 0)]
      else
        (s.updBobbin blk.core b fun x => { x with joined := true }).blockAgent ag n (.rdzv b d s.issue.word))

/-- A thread blocked in RDZV goes on once its bobbin has ended (R188). -/
def State.rdzvDone (s : State) (ag : Agent) (b : Nat) (sd : BitVec 4) (word : Word) : State :=
  let core := s.coreOf ag
  let x := s.bobbin core b
  if x.status ≠ .ended then s
  else
    let s := s.updBobbin core b fun _ => Bobbin.zero
    if x.cause ≠ 0 then s.trapAt ag .bobbinTrap (bobbinTrapInfo b x.cause) x.trapPc word
    else s.completeWait ag [(.s sd, ⟨x.ctx.readS 0, .raw⟩)]

/-! ## GRES (R200) -/

/-- The commands of a queue that a slot guards and that are unresolved take the resolution. -/
def resolveGuard (g : Nat) (take : Bool) (q : List Command) : List Command :=
  q.map fun c => if c.guard = some g ∧ c.resolved.isNone then { c with resolved := some take } else c

/-- GRES resolves the slot's commands posted so far, in both queues (R200, R213). -/
def State.gres (s : State) (take : Bool) (g n : BitVec 3) : State :=
  s.runUniform { n := n, who := .bobbin } noFixed fun s ag _ => match ag with
    | .bobbin core b =>
      (s.updBobbin core b fun x =>
        { x with
          guards := vecUpd x.guards g.toNat (fun _ => if take then .take else .drop)
          copyQ := resolveGuard g.toNat take x.copyQ
          matrixQ := resolveGuard g.toNat take x.matrixQ }).advance ag n
    | .thread .. => s

def execGresTake (g n : BitVec 3) (s : State) : Host.Outcome State Fault Refusal := .next (s.gres true g n)
def execGresDrop (g n : BitVec 3) (s : State) : Host.Outcome State Fault Refusal := .next (s.gres false g n)

/-! ## The end (R187) -/

/-- The thread that waits in RDZV for a bobbin, if any, goes on. -/
def State.wakeJoiner (s : State) (core b : Nat) : State :=
  let x := s.bobbin core b
  match s.block? x.bid with
  | none => s
  | some blk =>
    ((List.range blk.threads.length).zip blk.threads).foldl (fun (s : State) p => match p.2.status with
      | .blocked (.rdzv k sd word) => if k = b then s.rdzvDone (.thread blk.bid p.1) b sd word else s
      | _ => s) s

/-- BOBBIN_END: a finishing bobbin whose queues are empty and whose own results have arrived becomes ended, with a release at
blk scope; a thread that waits for it in RDZV goes on. -/
def execBobbinEnd (core b : Nat) (s : State) : Host.Outcome State Fault Refusal :=
  .next (
    let x := s.bobbin core b
    let ag := Agent.bobbin core b
    if x.status = .finishing ∧ x.copyQ = [] ∧ x.matrixQ = [] then
      if !s.releaseFree ag .blk then s
      else
        let s := s.drainRelease ag .blk
        if (s.ctx ag).pend ≠ [] then s
        else ((s.updBobbin core b fun x => { x with status := .ended }).wakeJoiner core b).settleBlock x.bid
    else s)

end Sys2Proof.Machine
end

