-- ==== Sys2Proof/Machine/Copy.lean ====
section
/-! DEFINITION. The copy engine: posting of the copy commands with their checks (R190 to R194), and the commands' accesses
(R195 to R206). A queue performs the accesses of its commands one command after another, in the order of its elements, in
parts whose sizes the events choose. -/

namespace Sys2Proof.Machine

/-! ## Operands (R190 to R192) -/

/-- The register words of a copy command: source locator, control group, destination locator. Ignored words read 0. -/
structure CpyWords where
  sa : Word
  sa1 : Word
  sb : Word
  sb1 : Word
  ph : Word
  fl : Word
  sd : Word
  sd1 : Word
  deriving DecidableEq, Repr

/-- The checks of a copy word, and its sources: `b1` and `d1` say whether sb+1 and sd+1 are read (R192). -/
def cpyOp (b1 d1 : Bool) (d a b : BitVec 4) (x : BitVec 1) (g n : BitVec 3) : Op :=
  { n := n
    srcs := sSrcs a 2 ++ (if b1 then sSrcs b 4 else [sSrc b, sSrc (b + 2), sSrc (b + 3)]) ++
      (if d1 then sSrcs d 2 else [sSrc d])
    bad := worse (groupBad [(d.toNat, 2), (a.toNat, 2), (b.toNat, 4)]) (guardBad x g)
    who := .bobbin }

/-- The words from the values of `cpyOp`'s sources. -/
def cpyWords (b1 d1 : Bool) (vs : List VReg) : CpyWords :=
  let i := if b1 then 6 else 5
  { sa := valAt vs 0, sa1 := valAt vs 1, sb := valAt vs 2, sb1 := if b1 then valAt vs 3 else 0, ph := valAt vs (i - 2),
    fl := valAt vs (i - 1), sd := valAt vs i, sd1 := if d1 then valAt vs (i + 1) else 0 }

/-- A space locator (R191). -/
def locSpot (space : Nat) (lo hi : Word) : Spot :=
  match space with
  | 0 => ⟨0, 0, (pair lo hi).toNat⟩
  | 1 => ⟨1, 0, (lo.extractLsb' 0 20).toNat⟩
  | _ => ⟨2, (hi.extractLsb' 0 16).toNat, (lo.extractLsb' 0 20).toNat⟩

/-- Reason 2 for a scratchpad locator whose zero bits are not zero (R191). -/
def locReasons (space : Nat) (lo hi : Word) : List Nat :=
  match space with
  | 1 => if lo.extractLsb' 20 12 ≠ 0 ∨ hi ≠ 0 then [2] else []
  | 2 => if lo.extractLsb' 20 12 ≠ 0 ∨ hi.extractLsb' 16 16 ≠ 0 then [2] else []
  | _ => []

/-- Reason 2 for FLAGS (R193): reserved bits, scope 5 to 7, a space of 3, a field the command does not use. -/
def flagReasons (dir dsp ssp : Bool) (fl : Word) : List Nat :=
  let bad := fl.extractLsb' 16 16 ≠ 0 ∨ fl.getLsbD 8 = true ∨ fl.extractLsb' 0 4 ≠ 0 ∨ flagScope fl ≥ 5 ∨ flagDsp fl = 3 ∨
    flagSsp fl = 3 ∨ (!dir && flagDir fl) = true ∨ (!dsp && flagDsp fl != 0) = true ∨ (!ssp && flagSsp fl != 0) = true
  if bad then [2] else []

/-- A spot moved by a signed distance; a window offset below 0 lies past every window. -/
def Spot.move (p : Spot) (i : Int) : Spot :=
  let x : Int := (p.addr : Int) + i
  if p.space = 0 then { p with addr := (x.emod (2 ^ 64)).toNat } else { p with addr := if x < 0 then 2 ^ 64 else x.toNat }

/-- The bytes lo to hi − 1 from a spot on, as posting sees them. -/
def State.spotReasons (s : State) (b : Block) (p : Spot) (lo hi : Int) : List Nat :=
  s.rangeReasons false b p.space p.name ((p.addr : Int) + lo) ((p.addr : Int) + hi)

/-! ## Posting (R194) -/

/-- The blocks that PHQ = 1 may name for a spot. -/
def State.spotTargets (s : State) (b : Block) (p : Spot) : List (Option Block) :=
  if p.space = 2 then [if b.regs.qsize = 0 then none else s.peer b p.name] else []

/-- A copy command is posted if no reason applies; else COPY_INVALID with the lowest. -/
def State.postCopy (s : State) (ag : Agent) (n : BitVec 3) (x : BitVec 1) (g : BitVec 3) (blk : Block) (w : CpyWords)
    (targets : List (Option Block)) (reasons : List Nat) (c : Command) : State :=
  let (cr, ts) := s.creditTargets blk w.ph w.fl targets
  match lowest (reasons ++ cr) with
  | some r => s.trap ag .copyInvalid (BitVec.ofNat 32 r) 0
  | none => match ag with
    | .bobbin core b =>
      s.post core b false n
        { c with dst := pair w.sd w.sd1, src := pair w.sa w.sa1, ctl := #v[w.sb, w.sb1, w.ph, w.fl],
                 phs := s.captureGen ts, guard := guardOf x g }
    | .thread .. => s

/-- A copy word: its checks, a place in the queue, then what posts it. -/
def State.cpy (s : State) (b1 d1 : Bool) (d a b : BitVec 4) (x : BitVec 1) (g n : BitVec 3)
    (f : State → Agent → Block → CpyWords → State) : State :=
  s.runUniform (cpyOp b1 d1 d a b x g n) noFixed fun s ag vs => match ag, s.blockOf ag with
    | .bobbin core k, some blk =>
      if s.queueFull core k false then s else f s ag blk (cpyWords b1 d1 vs)
    | _, _ => s

def execCpyL (d a b : BitVec 4) (x : BitVec 1) (g n : BitVec 3) (s : State) : Host.Outcome State Fault Refusal :=
  .next (s.cpy false true d a b x g n fun s ag blk w =>
    let len := w.sb.toNat
    let src := locSpot (flagSsp w.fl) w.sa w.sa1
    let dst := locSpot (flagDsp w.fl) w.sd w.sd1
    s.postCopy ag n x g blk w (s.spotTargets blk dst)
      ((if len = 0 then [1] else []) ++ flagReasons false true true w.fl ++ locReasons src.space w.sa w.sa1 ++
        locReasons dst.space w.sd w.sd1 ++ s.spotReasons blk src 0 len ++ s.spotReasons blk dst 0 len)
      (Command.blank .cpyL))

/-- Rows, bytes of a row, and stride of cpy.s (R192). -/
def stripes (sb sb1 : Word) : Nat × Nat × Int := ((sb.extractLsb' 20 12).toNat + 1, (sb.extractLsb' 0 20).toNat, sb1.toInt)

def execCpyS (d a b : BitVec 4) (x : BitVec 1) (g n : BitVec 3) (s : State) : Host.Outcome State Fault Refusal :=
  .next (s.cpy true true d a b x g n fun s ag blk w =>
    let (rows, len, t) := stripes w.sb w.sb1
    let src := locSpot (flagSsp w.fl) w.sa w.sa1
    let dst := locSpot (flagDsp w.fl) w.sd w.sd1
    let far : Int := ((rows - 1 : Nat) : Int) * t
    let strided := fun p => if len = 0 then [] else s.spotReasons blk p (min 0 far) (max 0 far + (len : Int))
    let packed := fun p => s.spotReasons blk p 0 ((rows * len : Nat) : Int)
    s.postCopy ag n x g blk w (s.spotTargets blk dst)
      ((if len = 0 then [1] else []) ++ flagReasons true true true w.fl ++ locReasons src.space w.sa w.sa1 ++
        locReasons dst.space w.sd w.sd1 ++
        (if flagDir w.fl then packed src ++ strided dst else strided src ++ packed dst))
      (Command.blank .cpyS))

/-- The window of a handle locator (R191): handle in [11:0], origin i2 in [31:12]; origins i0 and i1. -/
def handleWindow (lo hi : Word) (w0 w1 w2 : Nat) : Window :=
  { o0 := (hi.extractLsb' 0 16).toNat, o1 := (hi.extractLsb' 16 16).toNat, o2 := (lo.extractLsb' 12 20).toNat,
    w0 := w0, w1 := w1, w2 := w2 }

/-- Formats between which elements are converted (R196). -/
def converts (f : Nat) : Bool := decide (8 ≤ f) && decide (f ≤ 17)

/-- A handle command reads its entries, destination first (R194). -/
def State.handles (s : State) (ag : Agent) (w : CpyWords) (f : State → Nat → Nat → State) : State :=
  match s.tensorEntry ag w.sd.toNat with
  | (none, s) => s
  | (some de, s) => match s.tensorEntry ag w.sa.toNat with
    | (none, s) => s
    | (some se, s) => f s de se

/-- Windows and entries of cpy.t2, cpy.t3 and cpy.red, posted as `op`; `fits` gives the formats' reason. -/
def State.postTensor (s : State) (ag : Agent) (n : BitVec 3) (x : BitVec 1) (g : BitVec 3) (blk : Block) (w : CpyWords)
    (w2 : Nat) (extra : List Nat) (fits : Tensor → Tensor → Bool) (op : CmdOp) : State :=
  s.handles ag w fun s de se =>
    let dt := Tensor.ofNat de
    let st := Tensor.ofNat se
    let w0 := (w.sb.extractLsb' 0 16).toNat
    let w1 := (w.sb.extractLsb' 16 16).toNat
    let src := handleWindow w.sa w.sa1 w0 w1 w2
    let dst := handleWindow w.sd w.sd1 w0 w1 w2
    let conv := dt.fmt != st.fmt
    s.postCopy ag n x g blk w (s.spotTargets blk (dt.spot dt.addr 0))
      ((if w0 = 0 ∨ w1 = 0 ∨ w2 = 0 then [1] else []) ++ extra ++ flagReasons false false false w.fl ++
        st.windowReasons src ++ dt.windowReasons dst ++ s.tensorReasons false blk st src conv ++ s.tensorReasons false blk dt dst conv ++
        (if fits dt st then [] else [5]))
      { Command.blank op with dstEntry := de, srcEntry := se }

/-- Elements are copied between entries of one FMT, or converted (R196). -/
def copyFits (d t : Tensor) : Bool := d.fmt == t.fmt || (converts d.fmt && converts t.fmt)

def execCpyT2 (d a b : BitVec 4) (x : BitVec 1) (g n : BitVec 3) (s : State) : Host.Outcome State Fault Refusal :=
  .next (s.cpy false true d a b x g n fun s ag blk w => s.postTensor ag n x g blk w 1 [] copyFits .cpyT2)

def execCpyT3 (d a b : BitVec 4) (x : BitVec 1) (g n : BitVec 3) (s : State) : Host.Outcome State Fault Refusal :=
  .next (s.cpy true true d a b x g n fun s ag blk w =>
    s.postTensor ag n x g blk w (w.sb1.extractLsb' 0 16).toNat (if w.sb1.extractLsb' 16 16 ≠ 0 then [2] else []) copyFits
      .cpyT3)

/-- The rows that the index list of cpy.g names at posting, as reason 3 needs them (R194). A list in a region line is read as the
scratchpad holds it: posting makes no fill (log 140). -/
def State.indexList (s : State) (b : Block) (off m : Nat) : List Nat :=
  (List.range m).map fun k => leNat (s.readFor b.bid (.scratch b.core (b.scr (off + 4 * k))) 4)

def execCpyG (d a b : BitVec 4) (x : BitVec 1) (g n : BitVec 3) (s : State) : Host.Outcome State Fault Refusal :=
  .next (s.cpy true true d a b x g n fun s ag blk w => s.handles ag w fun s de se =>
    let dt := Tensor.ofNat de
    let st := Tensor.ofNat se
    let w0 := (w.sb.extractLsb' 0 16).toNat
    let m := (w.sb.extractLsb' 16 16).toNat
    let off := (w.sb1.extractLsb' 0 20).toNat
    let conv := dt.fmt != st.fmt
    let list := s.rangeReasons false blk 1 0 (off : Int) ((off + 4 * m : Nat) : Int)
    let rows := if list = [] ∧ off % 4 = 0 then (s.indexList blk off m).filter fun i => decide (i < st.ext1) else []
    let src := { handleWindow w.sa w.sa1 w0 1 1 with o1 := 0 }
    let named := fun t : Tensor => if t.isPlane then [] else
      let p := t.spot t.addr 0
      if p.space = 2 then s.rangeReasons false blk 2 p.name 0 1 else []
    let dst := handleWindow w.sd w.sd1 w0 m 1
    let least := rows.foldl min (rows.headD 0)
    let top := rows.foldl max 0
    s.postCopy ag n x g blk w (s.spotTargets blk (dt.spot dt.addr 0))
      ((if w0 = 0 ∨ m = 0 then [1] else []) ++ (if w.sb1.extractLsb' 20 12 ≠ 0 then [2] else []) ++
        flagReasons false false false w.fl ++ (if off % 4 ≠ 0 then [4] else []) ++ list ++ st.windowReasons src ++
        dt.windowReasons dst ++ named st ++
        (if rows = [] then [] else s.tensorReasons false blk st { src with o1 := least, w1 := top - least + 1 } conv) ++
        s.tensorReasons false blk dt dst conv ++ (if copyFits dt st then [] else [5]))
      { Command.blank .cpyG with dstEntry := de, srcEntry := se })

/-- The operations cpy.red allows (R198): 0 add, 1 min, 2 max, 3 and, 4 or, 5 xor. -/
def redFits (op : Nat) (d t : Tensor) : Bool := d.fmt == t.fmt && (decide (d.fmt < 8) || (d.fmt == 8 && decide (op < 3)))

/-- cpy.red: windows as cpy.t3 (R198). -/
def State.cpyRed (s : State) (op : Nat) (d a b : BitVec 4) (x : BitVec 1) (g n : BitVec 3) : State :=
  s.cpy true true d a b x g n fun s ag blk w =>
    s.postTensor ag n x g blk w (w.sb1.extractLsb' 0 16).toNat (if w.sb1.extractLsb' 16 16 ≠ 0 then [2] else []) (redFits op)
      (.cpyRed op)

def execCpyRedAdd (d a b : BitVec 4) (x : BitVec 1) (g n : BitVec 3) (s : State) : Host.Outcome State Fault Refusal :=
  .next (s.cpyRed 0 d a b x g n)
def execCpyRedMin (d a b : BitVec 4) (x : BitVec 1) (g n : BitVec 3) (s : State) : Host.Outcome State Fault Refusal :=
  .next (s.cpyRed 1 d a b x g n)
def execCpyRedMax (d a b : BitVec 4) (x : BitVec 1) (g n : BitVec 3) (s : State) : Host.Outcome State Fault Refusal :=
  .next (s.cpyRed 2 d a b x g n)
def execCpyRedAnd (d a b : BitVec 4) (x : BitVec 1) (g n : BitVec 3) (s : State) : Host.Outcome State Fault Refusal :=
  .next (s.cpyRed 3 d a b x g n)
def execCpyRedOr (d a b : BitVec 4) (x : BitVec 1) (g n : BitVec 3) (s : State) : Host.Outcome State Fault Refusal :=
  .next (s.cpyRed 4 d a b x g n)
def execCpyRedXor (d a b : BitVec 4) (x : BitVec 1) (g n : BitVec 3) (s : State) : Host.Outcome State Fault Refusal :=
  .next (s.cpyRed 5 d a b x g n)

/-- The block of a quarter with a rank. -/
def State.rankBlock (s : State) (b : Block) (rank : Nat) : Option Block :=
  s.blocks.find? fun x => x.unit == b.unit && x.regs.qrank.toNat == rank

/-- Reason 3 for the bytes that cpy.m writes in the issuing block's own window, where its rank is one of the targets' (R194, R199,
log 139). -/
def State.ownRankReasons (s : State) (b : Block) (w : CpyWords) (len r0 c : Nat) : List Nat :=
  let off := (w.sd.extractLsb' 0 20).toNat
  if b.regs.qsize ≠ 0 ∧ r0 ≤ b.regs.qrank.toNat ∧ b.regs.qrank.toNat < r0 + c then
    s.rangeReasons false b 1 0 (off : Int) ((off + len : Nat) : Int)
  else []

def execCpyM (d a b : BitVec 4) (x : BitVec 1) (g n : BitVec 3) (s : State) : Host.Outcome State Fault Refusal :=
  .next (s.cpy true false d a b x g n fun s ag blk w =>
    let len := w.sb.toNat
    let c := (w.sb1.extractLsb' 16 16).toNat
    let r0 := (w.sb1.extractLsb' 0 16).toNat
    let src := locSpot (flagSsp w.fl) w.sa w.sa1
    let far := blk.regs.qsize = 0 ∨ r0 + c > blk.regs.qsize.toNat
    s.postCopy ag n x g blk w (if far then [none] else (List.range c).map fun k => s.rankBlock blk (r0 + k))
      ((if len = 0 ∨ c = 0 ∨ c > 192 then [1] else []) ++ flagReasons false false true w.fl ++
        locReasons src.space w.sa w.sa1 ++ s.spotReasons blk src 0 len ++ s.ownRankReasons blk w len r0 c ++
        (if far then [7] else []))
      (Command.blank .cpyM))

/-! ## Shape of a posted command -/

def Command.flags (c : Command) : Word := c.ctl[3]
def Command.dstT (c : Command) : Tensor := Tensor.ofNat c.dstEntry
def Command.srcT (c : Command) : Tensor := Tensor.ofNat c.srcEntry

/-- Window extents of a handle command: a row of w0, rows, batches. -/
def Command.shape (c : Command) : Nat × Nat × Nat :=
  let w0 := bitsOf c.ctl[0].toNat 0 16
  let w1 := bitsOf c.ctl[0].toNat 16 16
  match c.op with
  | .cpyT3 => (w0, w1, bitsOf c.ctl[1].toNat 0 16)
  | .cpyRed _ => (w0, w1, bitsOf c.ctl[1].toNat 0 16)
  | _ => (w0, w1, 1)

/-- How a copy command moves (R204): bytes of a row, bits of a plane, or one element after the other. -/
inductive Grain where
  | bytes | planes | elems
  deriving DecidableEq, Repr

def Command.grain (c : Command) : Grain :=
  match c.op with
  | .cpyL => .bytes
  | .cpyS => .bytes
  | .cpyM => .bytes
  | .cpyRed _ => .elems
  | _ => if c.dstT.fmt ≠ c.srcT.fmt then .elems else if c.dstT.isPlane then .planes else .bytes

/-- Bytes of a row of a handle command between entries of one FMT: the checks of posting leave whole bytes. -/
def Command.rowBytes (c : Command) : Nat := c.shape.1 * c.dstT.bits / 8

/-- Bytes, bits of planes, or elements that a copy command performs in all. -/
def Command.total (c : Command) : Nat :=
  match c.op with
  | .cpyL => c.ctl[0].toNat
  | .cpyS => let (rows, len, _) := stripes c.ctl[0] c.ctl[1]; rows * len
  | .cpyM => c.ctl[0].toNat * bitsOf c.ctl[1].toNat 16 16
  | _ =>
    let (a, b, d) := c.shape
    match c.grain with
    | .bytes => c.rowBytes * b * d
    | .planes => a * b * d * c.dstT.planes
    | .elems => a * b * d

/-- The element at a point of a window: its indices on both sides; `none` for a source row of cpy.g outside EXT1. -/
def Command.elemAt (c : Command) (i : Nat) : (Nat × Nat × Nat) × Option (Nat × Nat × Nat) :=
  let (w0, w1, _) := c.shape
  let a := i % w0
  let b := i / w0 % w1
  let k := i / w0 / w1
  let sw := handleWindow c.src.lo c.src.hi 0 0 0
  let dw := handleWindow c.dst.lo c.dst.hi 0 0 0
  let d := (dw.o0 + a, dw.o1 + b, dw.o2 + k)
  match c.op with
  | .cpyG =>
    let r := c.index.getD b 0
    (d, if r < c.srcT.ext1 then some (sw.o0 + a, r, sw.o2) else none)
  | _ => (d, some (sw.o0 + a, sw.o1 + b, sw.o2 + k))

/-- The first byte of an element of an entry that is not PLANE. -/
def Tensor.elemSpot (t : Tensor) (i : Nat × Nat × Nat) : Spot := t.spot t.addr (t.row i.2.1 i.2.2 + (t.elemBytes i.1).1)

/-! ## Bytes (R195, R199) -/

/-- Source and destination of byte `i` of a command that moves bytes, and the bytes left in its row: no source for a row of zeros
(R197). A target of cpy.m is named by its place from the first rank. -/
def Command.byteAt (c : Command) (i : Nat) : Option Spot × Spot × Nat :=
  let src := locSpot (flagSsp c.flags) c.src.lo c.src.hi
  let dst := locSpot (flagDsp c.flags) c.dst.lo c.dst.hi
  match c.op with
  | .cpyL => (some (src.move i), dst.move i, c.total - i)
  | .cpyS =>
    let (_, len, t) := stripes c.ctl[0] c.ctl[1]
    let strided : Int := ((i / len : Nat) : Int) * t + ((i % len : Nat) : Int)
    if flagDir c.flags then (some (src.move i), dst.move strided, len - i % len)
    else (some (src.move strided), dst.move i, len - i % len)
  | .cpyM =>
    let len := c.ctl[0].toNat
    (some (src.move ((i % len : Nat) : Int)), ⟨2, c.target i, (c.dst.extractLsb' 0 20).toNat + i % len⟩, len - i % len)
  | _ =>
    let len := c.rowBytes
    let (d, x) := c.elemAt (i / len * c.shape.1)
    (x.map fun y => (c.srcT.elemSpot y).plus (i % len), (c.dstT.elemSpot d).plus (i % len), len - i % len)

/-- A target of cpy.m by its logical name (R199). -/
def State.targetSpot (s : State) (e : Eng) (c : Command) (p : Spot) : Spot :=
  match c.op with
  | .cpyM => match (s.blockOf e.agent).bind fun b => s.rankBlock b (bitsOf c.ctl[1].toNat 0 16 + p.name) with
    | some k => { p with name := k.core }
    | none => { p with name := 2 ^ 16 }
  | _ => p

/-! ## Landed bytes (R195) -/

/-- Of the bytes that the points i to i + n − 1 of a command's progress write, those that no earlier point has written. -/
def freshBytes (at_ : Nat → List Nat) (i n : Nat) : Nat :=
  (((List.range n).flatMap fun k => at_ (i + k)).eraseDups.filter fun x =>
    (List.range i).all fun j => !(at_ j).contains x).length

/-- The plane, and the point of the window, of a bit of a command that moves planes: row by row, plane by plane. -/
def Command.bitAt (c : Command) (i : Nat) : Nat × Nat :=
  let w0 := c.shape.1
  (i / w0 % c.dstT.planes, i / w0 / c.dstT.planes * w0 + i % w0)

/-- The addresses of the destination bytes that a point of a command's progress writes. -/
def Command.writesAt (c : Command) (i : Nat) : List Nat :=
  match c.grain with
  | .bytes => [(c.byteAt i).2.1.addr]
  | .planes =>
    let (p, k) := c.bitAt i
    let d := (c.elemAt k).1
    [c.dstT.planeOff d.1 d.2.1 d.2.2 p]
  | .elems =>
    let d := (c.elemAt i).1
    (List.range (c.dstT.elemBytes d.1).2).map fun j => (c.dstT.elemSpot d).addr + j

/-- Bytes that land for the first time; they are counted for a command that credits. -/
def Command.lands (c : Command) (i n : Nat) : Nat :=
  if c.phs.isEmpty then 0
  else match c.op with
    | .cpyL => n
    | .cpyM => n
    | _ => freshBytes c.writesAt i n

/-! ## Pages (R207) -/

/-- The pages that a point of a command's progress reads and writes. -/
def Command.pagesAt (c : Command) (i : Nat) : Option (Nat × Nat) × Nat × Nat :=
  let page := fun p : Spot => (p.name, p.addr / 4096)
  match c.grain with
  | .bytes => let (x, d, _) := c.byteAt i; (x.map page, page d)
  | .planes =>
    let (p, k) := c.bitAt i
    let (d, x) := c.elemAt k
    (x.map fun y => (0, c.srcT.planeOff y.1 y.2.1 y.2.2 p / 4096), (0, c.dstT.planeOff d.1 d.2.1 d.2.2 p / 4096))
  | .elems => let (d, x) := c.elemAt i; (x.map fun y => page (c.srcT.elemSpot y), page (c.dstT.elemSpot d))

/-- A command stands at a page boundary: before its first access, after its last, or where it comes to another page of its source or
its destination (log 141). -/
def Command.atPage (c : Command) : Bool :=
  c.progress == 0 || decide (c.progress ≥ c.total) || c.pagesAt c.progress != c.pagesAt (c.progress - 1)

/-! ## The parts of a command (R196 to R199, R204) -/

/-- The bytes of a row that a part moves: up to the next aligned group of 8 bytes of either side (R204, log 157). -/
def groupBytes (src : Option Spot) (dst : Spot) (left : Nat) : Nat :=
  min left (min (8 - dst.addr % 8) (match src with
    | some p => 8 - p.addr % 8
    | none => 8))

/-- The next bytes of a row are all of an invalid region line, and come from one page: one write may cover the line (R179). -/
def State.coversLine (s : State) (e : Eng) (src : Option Spot) (dst : Spot) (left : Nat) : Bool :=
  dst.space != 0 && dst.addr % 128 == 0 && decide (left ≥ 128) &&
  (match src with
    | some p => decide (p.addr % 4096 + 128 ≤ 4096)
    | none => true) &&
  match s.spotBlock e dst with
  | .ok b => match b.regionAt dst.addr with
    | some (r, idx) => (b.region r).any fun g => (g.line? idx).isNone
    | none => false
  | .error _ => false

/-- One part of a command that moves bytes: a group of 8, or by a free choice a whole region line (log 142). -/
def State.byteUnit (s : State) (e : Eng) (c : Command) : Except EngStop Nat × State :=
  let (src, dst, left) := c.byteAt c.progress
  let dst := s.targetSpot e c dst
  let (k, s) := if s.coversLine e src dst left then s.choose 2 else (0, s)
  let n := if k = 1 then 128 else groupBytes src dst left
  match (match src with
    | some p => s.engRead e .read p n
    | none => (.ok (List.replicate n 0), s)) with
  | (.error x, s) => (.error x, s)
  | (.ok bs, s) => match s.engWriteParts e .write dst bs [(0, n)] with
    | (.error x, s) => (.error x, s)
    | (.ok _, s) => (.ok n, s)

/-- One part of a command that moves planes: bits of one plane up to the next aligned group of 8 bytes of either side. A plane that
the source does not have is not stated. -/
def State.planeRun (s : State) (e : Eng) (c : Command) : Except EngStop Nat × State :=
  let (p, k) := c.bitAt c.progress
  let (d, x) := c.elemAt k
  let left := min (c.shape.1 - c.progress % c.shape.1) (64 - d.1 % 64)
  let put := fun (s : State) (n code : Nat) =>
    match s.fieldPut e ⟨1, 0, c.dstT.planeOff d.1 d.2.1 d.2.2 p⟩ ((d.1 % 8 + n + 7) / 8) (d.1 % 8) n code with
    | (.error z, s) => (.error z, s)
    | (.ok _, s) => (.ok n, s)
  match x with
  | none => put s left 0
  | some y =>
    let n := min left (64 - y.1 % 64)
    if p ≥ c.srcT.planes then
      let (code, s) := s.choose (2 ^ n)
      put s n code
    else match s.engRead e .read ⟨1, 0, c.srcT.planeOff y.1 y.2.1 y.2.2 p⟩ ((y.1 % 8 + n + 7) / 8) with
      | (.error z, s) => (.error z, s)
      | (.ok bs, s) => put s n (bitsOf (leNat bs) (y.1 % 8) n)

/-- cpy.red's combination of an element of `w` bits (R198). -/
def redCombine (op fmt w old x : Nat) : Nat :=
  if fmt = 8 then
    match op with
    | 0 => fadd .f32 old x
    | 1 => fminmax false .f32 old x
    | _ => fminmax true .f32 old x
  else
    let less := if fmt < 4 then decide (signedCode w old < signedCode w x) else decide (old < x)
    match op with
    | 0 => (old + x) % 2 ^ w
    | 1 => if less then old else x
    | 2 => if less then x else old
    | 3 => old &&& x
    | 4 => old ||| x
    | _ => old ^^^ x

/-- Move the elements i … i + n − 1 as `f` moves one. -/
def State.elemLoop (s : State) (f : State → Nat → Except EngStop Unit × State) (i : Nat) : Nat → Except EngStop Unit × State
  | 0 => (.ok (), s)
  | n + 1 => match f s i with
    | (.error x, s) => (.error x, s)
    | (.ok _, s) => s.elemLoop f (i + 1) n

/-- One element of cpy.red, or of a conversion of cpy.t2, cpy.t3 or cpy.g. -/
def State.elemMove (s : State) (e : Eng) (c : Command) (i : Nat) : Except EngStop Unit × State :=
  let dt := c.dstT
  let st := c.srcT
  let (d, sr) := c.elemAt i
  match sr with
  | none => s.elemPut e dt d.1 d.2.1 d.2.2 0
  | some x =>
    match c.op with
    | .cpyRed op => match s.elemGet e st x.1 x.2.1 x.2.2 with
      | (.error z, s) => (.error z, s)
      | (.ok v, s) =>
        match s.engRead e .both (dt.elemSpot d) (dt.bits / 8) with
        | (.error z, s) => (.error z, s)
        | (.ok bs, s) =>
          s.engWrite e .both (dt.elemSpot d) (leBytes (dt.bits / 8) (redCombine op dt.fmt dt.bits (leNat bs) v))
    | _ => match s.elemValue e st x.1 x.2.1 x.2.2 with
      | (.error z, s) => (.error z, s)
      | (.ok v, s) => s.elemStore e dt d.1 d.2.1 d.2.2 v

/-- One element. -/
def State.elemUnit (s : State) (e : Eng) (c : Command) : Except EngStop Nat × State :=
  match s.elemMove e c c.progress with
  | (.error x, s) => (.error x, s)
  | (.ok _, s) => (.ok 1, s)

/-! ## Starting and moving on (R200, R201) -/

/-- cpy.g reads its index list before anything else (R197). -/
def State.readIndex (s : State) (e : Eng) (c : Command) : Except EngStop (List Nat) × State :=
  let m := bitsOf c.ctl[0].toNat 16 16
  match s.engRead e .read ⟨1, 0, (c.ctl[1].extractLsb' 0 20).toNat⟩ (4 * m) with
  | (.error x, s) => (.error x, s)
  | (.ok bs, s) => (.ok ((List.range m).map fun k => leNat ((bs.drop (4 * k)).take 4)), s)

/-- The numbers of a list in an order of its own: a free choice (R199, log 158). -/
def State.shuffle (s : State) : Nat → List Nat → List Nat × State
  | 0, _ => ([], s)
  | n + 1, xs =>
    let (k, s) := s.choose (n + 1)
    let (ys, s) := s.shuffle n (xs.eraseIdx k)
    (xs.getD k 0 :: ys, s)

/-- The command starts, with its acquire; cpy.g reads its list, cpy.m chooses the order of its targets. -/
def State.copyBegin (s : State) (e : Eng) (c : Command) : Except EngStop Unit × State :=
  if c.started then (.ok (), s)
  else match s.engBegin e (flagAcq c.flags) c.scope with
    | none => (.error .waits, s)
    | some s =>
      match c.op with
      | .cpyG => match s.readIndex e c with
        | (.error x, s) => (.error x, s)
        | (.ok is, s) => (.ok (), s.updEng e fun c => { c with started := true, index := is })
      | .cpyM =>
        let n := bitsOf c.ctl[1].toNat 16 16
        let (is, s) := s.shuffle n (List.range n)
        (.ok (), s.updEng e fun c => { c with started := true, index := is })
      | _ => (.ok (), s.updEng e fun c => { c with started := true })

/-- A save of the block asks the queue to stop (R207). -/
def State.saving (s : State) (e : Eng) : Bool := (s.blockOf e.agent).any fun b => b.save.isSome

/-- The accesses of the next part, and the bytes it lands; `true`: the command may go on. Where a save is under way it stops at a
page boundary (R207). -/
def State.copyUnit (s : State) (e : Eng) : Bool × State :=
  match s.engCommand e with
  | none => (false, s)
  | some c =>
    if c.progress ≥ c.total then (false, s.engFinish e (flagRel c.flags) c.scope (c.creditIdx (c.total - 1)))
    else
      match (match c.grain with
        | .bytes => s.byteUnit e c
        | .planes => s.planeRun e c
        | .elems => s.elemUnit e c) with
      | (.error x, s) => (false, s.engStopped e x)
      | (.ok n, s) =>
        let now := c.creditIdx c.progress
        let c' : Command := { c with progress := c.progress + n }
        let s := s.updEng e fun k => { k with progress := k.progress + n, landed := k.landed + c.lands c.progress n }
        if c'.progress ≥ c.total then (false, s.engFinish e (flagRel c.flags) c.scope now)
        else (!(s.saving e && c'.atPage), if c.creditIdx c'.progress = now then s else s.sendCredit e now)

/-- Up to `n` parts, as long as nothing stops the command. -/
def State.copyUnits (s : State) (e : Eng) : Nat → State
  | 0 => s
  | n + 1 => match s.copyUnit e with
    | (true, s) => s.copyUnits e n
    | (false, s) => s

/-- Landed bytes of a command under way may be credited: they have been written (R385), and with REL = 1 bytes remain for the credit
that follows the release (R203). -/
def State.mayCredit (s : State) (e : Eng) (c : Command) : Bool :=
  !c.moved && decide (c.progress < c.total) && !s.engOwed e && (!flagRel c.flags || c.lands c.progress (c.total - c.progress) != 0)

/-- COPY_COMMAND_START: the command starts, or goes on by `parts` more parts; bytes already landed may be credited then, by a
free choice (R202). -/
def execCopyCommandStart (core b id parts : Nat) (s : State) : Host.Outcome State Fault Refusal :=
  .next (
    let e : Eng := ⟨core, b, false, id⟩
    match s.engCommand e with
    | none => s
    | some c =>
      let s := s.discardDropped e
      if !s.mayMove e || c.op == .cpyMigr then s
      else match s.copyBegin e c with
        | (.error x, s) => s.engStopped e x
        | (.ok _, s) =>
          let s := s.copyUnits e parts
          match s.engCommand e with
          | some c =>
            if !s.mayCredit e c then s
            else
              let (k, s) := s.choose 2
              if k = 1 then s.sendCredit e (c.creditIdx c.progress) else s
          | none => s)

/-- COPY_COMMAND_COMPLETE: all accesses, credits and the release are performed (R201). -/
def execCopyCommandComplete (core b id : Nat) (s : State) : Host.Outcome State Fault Refusal :=
  .next (s.engComplete ⟨core, b, false, id⟩)

end Sys2Proof.Machine
end

