-- ==== Sys2Proof/Machine/Matrix.lean ====
section
/-! DEFINITION. The matrix engine: tiles and their tags, posting of the matrix commands with their checks (R208 to R216, R220,
R224 to R226), and what MZERO, MZPC, MRSUM, MPLANE and MDRAIN do when they run (R215 to R219, R224 to R228, R230, R232). The
steps of MMA stand in Fidelity. -/

namespace Sys2Proof.Machine

/-! ## Tiles -/

/-- Physical tile `k` of a core. -/
def State.tile (s : State) (core k : Nat) : Tile := ((s.core core).tiles.toList)[k]?.getD Tile.zero

def State.updTile (s : State) (core k : Nat) (f : Tile → Tile) : State :=
  s.updCore core fun c => { c with tiles := vecUpd c.tiles k f }

/-- The physical tile bound to acc n of a block (R208); 8 for none. -/
def Block.phys (b : Block) (n : Nat) : Nat := b.tiles.getD n 8

/-- The declared tag of acc n of a block (R211). -/
def State.declaredTag (s : State) (b : Block) (n : Nat) : TileTag := (s.tile b.core (b.phys n)).declared

def State.declare (s : State) (b : Block) (n : Nat) (t : TileTag) : State :=
  s.updTile b.core (b.phys n) fun x => { x with declared := t }

/-- The format tag a tile tag has in trap.info (R75, R79). -/
def tileTag : TileTag → Tag
  | .raw => .raw | .i32 => .i32 | .f32 => .f32 | .i64 => .i64

/-- trap.info of FORMAT_TAG for a tile: operand 4, register family 3 (R78). -/
def tileInfo (t : TileTag) (n : Nat) : Word := tagInfo (tileTag t) 4 (192 + n)

/-- A pair named by its even tile: both tiles tagged i64, the even one checked first (R209). -/
def State.pairTag (s : State) (b : Block) (n : Nat) : Except Word TileTag :=
  if s.declaredTag b n ≠ .i64 ∨ n % 2 = 1 then .error (tileInfo (s.declaredTag b n) n)
  else if s.declaredTag b (n + 1) ≠ .i64 then .error (tileInfo (s.declaredTag b (n + 1)) (n + 1))
  else .ok .i64

/-- The declared tag of the tile a command names, if it is one of those the command takes. -/
def State.takeTag (s : State) (b : Block) (n : Nat) (ts : List TileTag) : Except Word TileTag :=
  let t := s.declaredTag b n
  if t = .i64 ∧ ts.contains .i64 then s.pairTag b n
  else if ts.contains t then .ok t
  else .error (tileInfo t n)

/-! ## Posting (R212 to R214) -/

/-- ILLEGAL reason 7 for a tile field of 8 to 15. -/
def tileBad (d : BitVec 4) : Option Nat := if d.toNat ≥ 8 then some 7 else none

/-- ILLEGAL reason 7 for a tile the block does not have (R208); `wide`: the word names a pair. -/
def tileAbsent (d : BitVec 4) (wide : Bool) : State → Agent → Bool := fun s ag =>
  match s.blockOf ag with
  | some b => decide (d.toNat + (if wide then 1 else 0) ≥ b.tiles.length)
  | none => true

/-- A matrix word up to its checks at posting: a place in the queue, then FORMAT_TAG, then what posts it. -/
def State.mcmd (s : State) (o : Op) (absent : State → Agent → Bool) (tag : State → Block → Except Word TileTag)
    (f : State → Agent → Block → TileTag → List VReg → State) : State :=
  s.runUniform o absent fun s ag vs => match ag, s.blockOf ag with
    | .bobbin core k, some blk =>
      if s.queueFull core k true then s
      else match tag s blk with
        | .error info => s.trap ag .formatTag info 0
        | .ok t => f s ag blk t vs
    | _, _ => s

/-- A matrix command is posted with the bobbin's fidelity field if no reason applies; else MATRIX_INVALID with the lowest
(R214). -/
def State.postMatrix (s : State) (ag : Agent) (n : BitVec 3) (x : BitVec 1) (g : BitVec 3) (blk : Block) (ph fl : Word)
    (targets : List (Option Block)) (reasons : List Nat) (c : Command) : State :=
  let (cr, ts) := s.creditTargets blk ph fl targets
  match lowest (reasons ++ cr) with
  | some r => s.trap ag .matrixInvalid (BitVec.ofNat 32 r) 0
  | none => match ag with
    | .bobbin core b =>
      s.post core b true n
        { c with phs := s.captureGen ts, guard := guardOf x g, fid := (s.bobbin core b).fid }
    | .thread .. => s

/-- MZERO: kind 0 i32, 1 f32, 2 i64 pair (R215). -/
def execMzero (d a : BitVec 4) (x : BitVec 1) (g n : BitVec 3) (s : State) : Host.Outcome State Fault Refusal :=
  .next (
    let kind := a.toNat
    let wide := kind == 2
    let t : TileTag := if kind = 0 then .i32 else if kind = 1 then .f32 else .i64
    s.mcmd
      { n := n, who := .bobbin,
        bad := worse (guardBad x g) (worse (tileBad d) (worse (if kind ≥ 3 then some 7 else none)
          (if wide && d.toNat % 2 == 1 then some 4 else none))) }
      (tileAbsent d wide) (fun _ _ => .ok t) fun s ag blk t _ =>
        let s := s.postMatrix ag n x g blk 0 0 [] [] { Command.blank (.mzero kind) with tile := d.toNat, tag := t }
        let s := s.declare blk d.toNat t
        if wide then s.declare blk (d.toNat + 1) t else s)

/-- The windows of an MMA operand: K chunks of depth, 32 lines (R220). -/
def mmaWindow (lo hi : Word) (k : Nat) : Window := handleWindow lo hi (128 * k) 32 1

/-- Reasons 4 and 5 of an MMA operand with `p` planes (R220). -/
def Tensor.operandReasons (t : Tensor) (w : Window) (p : Nat) : List Nat :=
  t.windowReasons w ++ (if w.o0 % 128 ≠ 0 ∨ w.o1 % 32 ≠ 0 then [4] else []) ++
    (if !t.isPlane || t.planes != p then [5] else [])

/-- The bytes from lo to hi − 1 past an address field of an entry, as posting sees them. -/
def State.fieldReasons (s : State) (b : Block) (t : Tensor) (field lo hi : Nat) : List Nat :=
  let p := t.spot field 0
  s.rangeReasons true b p.space p.name ((p.addr + lo : Nat) : Int) ((p.addr + hi : Nat) : Int)

/-- The groups of a window: the first and the last (R85). -/
def Tensor.groupSpan (t : Tensor) (w : Window) : Nat × Nat :=
  (t.groupOf w.o0 w.o1 w.o2, t.groupOf (w.o0 + w.w0 - 1) (w.o1 + w.w1 - 1) (w.o2 + w.w2 - 1))

/-- The exponent bytes of an aligned PLANE window (R82). -/
def State.exponentReasons (s : State) (b : Block) (t : Tensor) (w : Window) : List Nat :=
  if t.isPlane && t.enc == 3 && w.w0 != 0 && w.w1 != 0 && w.w2 != 0 then
    let (g, g') := t.groupSpan w
    s.fieldReasons b t t.saddr g (g' + 1)
  else []

/-- The reasons of a parameter entry (R223): Q4 or Q8, extents that cover the window, its scale and zero-point bytes. -/
def State.paramReasons (s : State) (b : Block) (t : Tensor) (w : Window) : List Nat :=
  (if t.isQuant then [] else [5]) ++
    (if w.o0 + w.w0 > t.ext0 ∨ w.o1 + w.w1 > t.ext1 ∨ w.o2 + w.w2 > t.ext2 then [4] else []) ++
    (if t.isQuant && w.w0 != 0 then
      let (g, g') := t.groupSpan w
      s.fieldReasons b t t.saddr (2 * g) (2 * g' + 2) ++ s.fieldReasons b t t.zaddr g (g' + 1)
    else [])

/-- The group size of an operand in float mode, if it has groups (R223). -/
def operandGroup (t : Tensor) (param : Option Tensor) : Option Nat :=
  match param with
  | some q => some q.groupSize
  | none => if t.enc = 3 then some t.groupSize else none

/-- Reason 5 of a mode (R222, R223): integer mode takes neither ENC 3 nor parameters; in float mode a parameter goes with
ENC 0, and group sizes agree. -/
def modeReasons (float : Bool) (a b : Tensor) (pa pb : Option Tensor) : List Nat :=
  let bad :=
    if float then
      (pa.isSome && a.enc != 0) || (pb.isSome && b.enc != 0) || match operandGroup a pa, operandGroup b pb with
        | some x, some y => x != y
        | _, _ => false
    else pa.isSome || pb.isSome || a.enc == 3 || b.enc == 3
  if bad then [5] else []

/-- An entry is read when its bit asks for it (R214). -/
def State.paramEntry (s : State) (ag : Agent) (want : Bool) (handle : Nat) : Option (Option Nat) × State :=
  if want then match s.tensorEntry ag handle with
    | (some x, s) => (some (some x), s)
    | (none, s) => (none, s)
  else (some none, s)

/-- mma.pPxQ (R220). -/
def State.mma (s : State) (p q : Nat) (d a b : BitVec 4) (x : BitVec 1) (g n : BitVec 3) : State :=
  s.mcmd
    { n := n, srcs := sSrcs a 2 ++ sSrcs b 4, who := .bobbin,
      bad := worse (guardBad x g) (worse (tileBad d) (groupBad [(a.toNat, 2), (b.toNat, 4)])) }
    (tileAbsent d false) (fun s blk => s.takeTag blk d.toNat [.i32, .f32, .i64]) fun s ag blk t vs =>
    let sb2 := valAt vs 4
    let sb3 := valAt vs 5
    let pa := sb3.getLsbD 24
    let pb := sb3.getLsbD 25
    let k := (sb2.extractLsb' 0 12).toNat
    match s.tensorEntry ag (valAt vs 0).toNat with
    | (none, s) => s
    | (some ae, s) => match s.tensorEntry ag (valAt vs 2).toNat with
      | (none, s) => s
      | (some be, s) => match s.paramEntry ag pa (sb3.extractLsb' 0 12).toNat with
        | (none, s) => s
        | (some ap, s) => match s.paramEntry ag pb (sb3.extractLsb' 12 12).toNat with
          | (none, s) => s
          | (some bp, s) =>
            let at_ := Tensor.ofNat ae
            let bt := Tensor.ofNat be
            let aw := mmaWindow (valAt vs 0) (valAt vs 1) k
            let bw := mmaWindow (valAt vs 2) (valAt vs 3) k
            let apt := ap.map Tensor.ofNat
            let bpt := bp.map Tensor.ofNat
            let param := fun (pt : Option Tensor) w => match pt with
              | some y => s.paramReasons blk y w
              | none => []
            let words := if sb2.extractLsb' 12 20 ≠ 0 ∨ sb3.extractLsb' 26 6 ≠ 0 ∨ (!pa && sb3.extractLsb' 0 12 != 0) = true ∨
              (!pb && sb3.extractLsb' 12 12 != 0) = true then [2] else []
            s.postMatrix ag n x g blk 0 0 []
              ((if k = 0 then [1] else []) ++ words ++ at_.operandReasons aw p ++ bt.operandReasons bw q ++
                s.tensorReasons true blk at_ aw false ++ s.tensorReasons true blk bt bw false ++ s.exponentReasons blk at_ aw ++
                s.exponentReasons blk bt bw ++ param apt aw ++ param bpt bw ++ modeReasons (t == .f32) at_ bt apt bpt)
              { Command.blank (.mma p q) with
                tile := d.toNat, tag := t, src := pair (valAt vs 0) (valAt vs 1),
                ctl := #v[valAt vs 2, valAt vs 3, sb2, sb3], srcEntry := ae, bEntry := be, aParam := ap.getD 0,
                bParam := bp.getD 0 }

def execMmaP1x1 (d a b : BitVec 4) (x : BitVec 1) (g n : BitVec 3) (s : State) : Host.Outcome State Fault Refusal :=
  .next (s.mma 1 1 d a b x g n)
def execMmaP2x1 (d a b : BitVec 4) (x : BitVec 1) (g n : BitVec 3) (s : State) : Host.Outcome State Fault Refusal :=
  .next (s.mma 2 1 d a b x g n)
def execMmaP2x2 (d a b : BitVec 4) (x : BitVec 1) (g n : BitVec 3) (s : State) : Host.Outcome State Fault Refusal :=
  .next (s.mma 2 2 d a b x g n)
def execMmaP4x1 (d a b : BitVec 4) (x : BitVec 1) (g n : BitVec 3) (s : State) : Host.Outcome State Fault Refusal :=
  .next (s.mma 4 1 d a b x g n)
def execMmaP4x2 (d a b : BitVec 4) (x : BitVec 1) (g n : BitVec 3) (s : State) : Host.Outcome State Fault Refusal :=
  .next (s.mma 4 2 d a b x g n)
def execMmaP4x4 (d a b : BitVec 4) (x : BitVec 1) (g n : BitVec 3) (s : State) : Host.Outcome State Fault Refusal :=
  .next (s.mma 4 4 d a b x g n)
def execMmaP8x1 (d a b : BitVec 4) (x : BitVec 1) (g n : BitVec 3) (s : State) : Host.Outcome State Fault Refusal :=
  .next (s.mma 8 1 d a b x g n)
def execMmaP8x2 (d a b : BitVec 4) (x : BitVec 1) (g n : BitVec 3) (s : State) : Host.Outcome State Fault Refusal :=
  .next (s.mma 8 2 d a b x g n)
def execMmaP8x4 (d a b : BitVec 4) (x : BitVec 1) (g n : BitVec 3) (s : State) : Host.Outcome State Fault Refusal :=
  .next (s.mma 8 4 d a b x g n)
def execMmaP8x8 (d a b : BitVec 4) (x : BitVec 1) (g n : BitVec 3) (s : State) : Host.Outcome State Fault Refusal :=
  .next (s.mma 8 8 d a b x g n)

/-- MRSUM (R225): 256 bytes at a window offset. -/
def State.mrsum (s : State) (col : Bool) (d a : BitVec 4) (x : BitVec 1) (g n : BitVec 3) : State :=
  s.mcmd { n := n, srcs := [sSrc a], who := .bobbin, bad := worse (guardBad x g) (tileBad d) } (tileAbsent d false)
    (fun s blk => s.takeTag blk d.toNat [.i32, .i64]) fun s ag blk t vs =>
    let off := (valAt vs 0).extractLsb' 0 20
    s.postMatrix ag n x g blk 0 0 []
      ((if (valAt vs 0).extractLsb' 20 12 ≠ 0 then [2] else []) ++ (if off.toNat % 8 ≠ 0 then [4] else []) ++
        s.rangeReasons true blk 1 0 (off.toNat : Int) ((off.toNat + 256 : Nat) : Int))
      { Command.blank (.mrsum col) with tile := d.toNat, tag := t, dst := off.zeroExtend 64 }

def execMrsumRow (d a : BitVec 4) (x : BitVec 1) (g n : BitVec 3) (s : State) : Host.Outcome State Fault Refusal :=
  .next (s.mrsum false d a x g n)
def execMrsumCol (d a : BitVec 4) (x : BitVec 1) (g n : BitVec 3) (s : State) : Host.Outcome State Fault Refusal :=
  .next (s.mrsum true d a x g n)

/-- The destination formats of MDRAIN's forms 0 i32, 1 w48, 2 f32 (R226). -/
def drainFits (form fmt : Nat) : Bool :=
  match form with
  | 0 => [2, 0, 1, 4, 5, 6, 8, 9, 10].contains fmt
  | 1 => [3, 2, 8].contains fmt
  | _ => [8, 9, 10, 11, 12, 13, 14, 15, 16, 17].contains fmt

/-- MDRAIN (R226): KEEP, the destination window of 32 × 32, spaces 1 and 2 only. sb+1 is ignored. -/
def State.mdrain (s : State) (form : Nat) (d a b : BitVec 4) (x : BitVec 1) (g n : BitVec 3) : State :=
  let wide := form == 1
  s.mcmd
    { n := n, srcs := sSrcs a 2 ++ [sSrc b, sSrc (b + 2), sSrc (b + 3)], who := .bobbin,
      bad := worse (guardBad x g) (worse (tileBad d) (worse (groupBad [(a.toNat, 2), (b.toNat, 4)])
        (if wide && d.toNat % 2 == 1 then some 4 else none))) }
    (tileAbsent d wide)
    (fun s blk => s.takeTag blk d.toNat [if form = 0 then .i32 else if form = 1 then .i64 else .f32]) fun s ag blk t vs =>
    let keep := valAt vs 2
    let ph := valAt vs 3
    let fl := valAt vs 4
    match s.tensorEntry ag (valAt vs 0).toNat with
    | (none, s) => s
    | (some de, s) =>
      let dt := Tensor.ofNat de
      let w := handleWindow (valAt vs 0) (valAt vs 1) 32 32 1
      let s1 := s.postMatrix ag n x g blk ph fl (s.spotTargets blk (dt.spot dt.addr 0))
        ((if keep.extractLsb' 1 31 ≠ 0 then [2] else []) ++ flagReasons false false false fl ++
          (if fl.getLsbD 11 then [2] else []) ++ dt.windowReasons w ++ s.tensorReasons true blk dt w true ++
          (if dt.space = 0 ∨ drainFits form dt.fmt = false then [5] else []))
        { Command.blank (.mdrain form) with
          tile := d.toNat, tag := t, dst := pair (valAt vs 0) (valAt vs 1), ctl := #v[keep, 0, ph, fl], dstEntry := de }
      if keep.getLsbD 0 || s1.nextId == s.nextId then s1
      else
        let s := s1.declare blk d.toNat .raw
        if wide then s.declare blk (d.toNat + 1) .raw else s

def execMdrainI32 (d a b : BitVec 4) (x : BitVec 1) (g n : BitVec 3) (s : State) : Host.Outcome State Fault Refusal :=
  .next (s.mdrain 0 d a b x g n)
def execMdrainW48 (d a b : BitVec 4) (x : BitVec 1) (g n : BitVec 3) (s : State) : Host.Outcome State Fault Refusal :=
  .next (s.mdrain 1 d a b x g n)
def execMdrainF32 (d a b : BitVec 4) (x : BitVec 1) (g n : BitVec 3) (s : State) : Host.Outcome State Fault Refusal :=
  .next (s.mdrain 2 d a b x g n)

/-- The formats and encodings of MPLANE (R217). -/
def planeFits (st dt : Tensor) : Bool :=
  let p := dt.planes
  !(dt.enc == 2 && decide (dt.zp ≥ 2 ^ p)) &&
  if st.fmt < 8 then decide (dt.enc ≤ 2)
  else if st.isQuant then (dt.enc == 0 || dt.enc == 2) && (if st.fmt = 16 then decide (p ≥ 4) else p == 8)
  else !st.isPlane && dt.enc == 3 && decide (p ≥ 2)

/-- The source window of an MPLANE, without padding (R216). -/
def planeSource (tr : Bool) (st : Tensor) (w : Window) : Window :=
  let w := if tr then { w with w0 := w.w1, w1 := w.w0 } else w
  { w with w0 := min w.w0 (st.ext0 - w.o0), w1 := min w.w1 (st.ext1 - w.o1), w2 := min w.w2 (st.ext2 - w.o2) }

/-- MPLANE and MPLANE.T (R216). -/
def State.mplaneWord (s : State) (tr : Bool) (d a b : BitVec 4) (x : BitVec 1) (g n : BitVec 3) : State :=
  s.mcmd
    { n := n, srcs := sSrcs a 2 ++ sSrcs b 4 ++ sSrcs d 2, who := .bobbin,
      bad := worse (guardBad x g) (groupBad [(d.toNat, 2), (a.toNat, 2), (b.toNat, 4)]) }
    noFixed (fun _ _ => .ok .raw) fun s ag blk _ vs =>
    let w0 := ((valAt vs 2).extractLsb' 0 16).toNat
    let w1 := ((valAt vs 2).extractLsb' 16 16).toNat
    let w2 := ((valAt vs 3).extractLsb' 0 16).toNat
    let ph := valAt vs 4
    let fl := valAt vs 5
    match s.tensorEntry ag (valAt vs 6).toNat with
    | (none, s) => s
    | (some de, s) => match s.tensorEntry ag (valAt vs 0).toNat with
      | (none, s) => s
      | (some se, s) =>
        let dt := Tensor.ofNat de
        let st := Tensor.ofNat se
        let dw := handleWindow (valAt vs 6) (valAt vs 7) w0 w1 w2
        let sw := planeSource tr st (handleWindow (valAt vs 0) (valAt vs 1) w0 w1 w2)
        let odd := dw.o0 % 128 ≠ 0 ∨ w0 % 128 ≠ 0 ∨ dw.o1 % 32 ≠ 0 ∨ w1 % 32 ≠ 0
        s.postMatrix ag n x g blk ph fl []
          ((if w0 = 0 ∨ w1 = 0 ∨ w2 = 0 then [1] else []) ++ (if (valAt vs 3).extractLsb' 16 16 ≠ 0 then [2] else []) ++
            flagReasons false false false fl ++ dt.windowReasons dw ++ (if odd then [4] else []) ++
            s.tensorReasons true blk dt dw false ++ s.exponentReasons blk dt dw ++ s.tensorReasons true blk st sw true ++
            (if dt.isPlane && planeFits st dt then [] else [5]))
          { Command.blank (.mplane tr) with
            dst := pair (valAt vs 6) (valAt vs 7), src := pair (valAt vs 0) (valAt vs 1),
            ctl := #v[valAt vs 2, valAt vs 3, ph, fl], dstEntry := de, srcEntry := se }

def execMplane (d a b : BitVec 4) (x : BitVec 1) (g n : BitVec 3) (s : State) : Host.Outcome State Fault Refusal :=
  .next (s.mplaneWord false d a b x g n)
def execMplaneT (d a b : BitVec 4) (x : BitVec 1) (g n : BitVec 3) (s : State) : Host.Outcome State Fault Refusal :=
  .next (s.mplaneWord true d a b x g n)

/-- MZPC reads zA and zB at posting (R224). -/
def execMzpc (d a b : BitVec 4) (x : BitVec 1) (g n : BitVec 3) (s : State) : Host.Outcome State Fault Refusal :=
  .next (s.mcmd
    { n := n, srcs := [sSrc a, sSrc b], who := .bobbin, bad := worse (guardBad x g) (tileBad d) } (tileAbsent d false)
    (fun s blk => s.takeTag blk d.toNat [.i32, .i64]) fun s ag blk t vs =>
    s.postMatrix ag n x g blk 0 0 [] []
      { Command.blank .mzpc with tile := d.toNat, tag := t, ctl := #v[valAt vs 0, valAt vs 1, 0, 0] })

/-! ## Tile contents -/

/-- The tiles a command names, by acc number: two for a pair (R209). -/
def Command.tilesNamed (c : Command) : List Nat :=
  match c.op with
  | .mplane _ => []
  | _ => if c.tag = .i64 then [c.tile, c.tile + 1] else [c.tile]

/-- The physical tile of a command's acc, and of the odd tile of its pair. -/
def State.tileOf (s : State) (e : Eng) (c : Command) (odd : Nat) : Nat :=
  match s.blockOf e.agent with
  | some b => b.phys (c.tile + odd)
  | none => 8

def State.tileData (s : State) (e : Eng) (c : Command) (odd : Nat) : TileData := (s.tile e.core (s.tileOf e c odd)).cur

def State.updTileData (s : State) (e : Eng) (c : Command) (odd : Nat) (f : TileData → TileData) : State :=
  s.updTile e.core (s.tileOf e c odd) fun t => { t with cur := f t.cur }

/-- The 1024 elements of a tile, or of a pair as 48-bit values, row by row (R209). -/
def State.tileElems (s : State) (e : Eng) (c : Command) : List Nat :=
  let lo := (s.tileData e c 0).elems.map (·.toNat)
  if c.tag = .i64 then
    List.zipWith (fun l h => l + h % 65536 * 2 ^ 32) lo ((s.tileData e c 1).elems.map (·.toNat))
  else lo

/-- The odd tile's word of a 48-bit value: bits [47:32] sign-extended (R209). -/
def highHalf (x : Nat) : Word := (BitVec.ofNat 16 (x / 2 ^ 32)).signExtend 32

/-- Write the elements of a tile or a pair. -/
def State.setTileElems (s : State) (e : Eng) (c : Command) (xs : List Nat) : State :=
  let s := s.updTileData e c 0 fun t => { t with elems := xs.map (BitVec.ofNat 32) }
  if c.tag = .i64 then s.updTileData e c 1 fun t => { t with elems := xs.map highHalf } else s

/-- Bits of an element: 32, or 48 of a pair. -/
def Command.tileBits (c : Command) : Nat := if c.tag = .i64 then 48 else 32

/-- The engine copies the tile, or both tiles of a pair, into the shadow (R230). -/
def State.shadowTiles (s : State) (e : Eng) (c : Command) : State :=
  (c.tilesNamed.map fun n => n - c.tile).foldl (fun (s : State) k =>
    s.updTile e.core (s.tileOf e c k) fun t => { t with shadow := t.cur }) s

/-- The tile, or the pair, is restored from the shadow (R230, R232). -/
def State.restoreTiles (s : State) (e : Eng) (c : Command) : State :=
  (c.tilesNamed.map fun n => n - c.tile).foldl (fun (s : State) k =>
    s.updTile e.core (s.tileOf e c k) fun t => { t with cur := t.shadow }) s

/-- MZERO (R215). -/
def State.runMzero (s : State) (e : Eng) (c : Command) : State :=
  (c.tilesNamed.map fun n => n - c.tile).foldl (fun (s : State) k =>
    s.updTileData e c k fun _ => { TileData.zero with tag := c.tag }) s

/-- MZPC's correction of one element (R224). -/
def zeroPoint (w : Nat) (v : Nat) (za zb kd rs cs : Nat) : Nat :=
  (((v : Int) + (za : Int) * zb * kd - (zb : Int) * rs - (za : Int) * cs).emod (2 ^ w)).toNat

/-- MZPC (R224). -/
def State.runMzpc (s : State) (e : Eng) (c : Command) : State :=
  let t := s.tileData e c 0
  let za := c.ctl[0].toNat
  let zb := c.ctl[1].toNat
  let xs := ((List.range 1024).zip (s.tileElems e c)).map fun p =>
    zeroPoint c.tileBits p.2 za zb t.kd.toNat (t.rs.getD (p.1 / 32) 0).toNat (t.cs.getD (p.1 % 32) 0).toNat
  (s.setTileElems e c xs).updTileData e c 0 fun t =>
    { t with rs := List.replicate 32 0, cs := List.replicate 32 0, kd := 0 }

/-! ## MRSUM, MDRAIN, MPLANE: their parts -/

/-- Word i of MRSUM. -/
def State.mrsumUnit (s : State) (e : Eng) (c : Command) (col : Bool) (i : Nat) : Except EngStop Nat × State :=
  let t := s.tileData e c 0
  let x := (if col then t.cs else t.rs).getD i 0
  match s.engWrite e .write ⟨1, 0, c.dst.toNat + 8 * i⟩ (leBytes 8 x.toNat) with
  | (.error z, s) => (.error z, s)
  | (.ok _, s) => (.ok 1, s)

/-- The value MDRAIN writes for an element (R226). -/
def drainValue (form : Nat) (x : Nat) : FVal :=
  match form with
  | 0 => FVal.ofInt (signedCode 32 x)
  | 1 => FVal.ofInt (signedCode 48 x)
  | _ => valueOf .f32 x

/-- Elements that share whole bytes and are written together: each byte once (R226). -/
def drainStep (t : Tensor) : Nat := if t.bits = 4 then 2 else if t.bits = 6 then 4 else 1

/-- MDRAIN's elements from `i` on: element (row, column) goes to (p0 + column, p1 + row, p2) (R226). -/
def State.drainUnit (s : State) (e : Eng) (c : Command) (form i : Nat) : Except EngStop Nat × State :=
  let dt := c.dstT
  let w := handleWindow c.dst.lo c.dst.hi 32 32 1
  let xs := s.tileElems e c
  let n := drainStep dt
  match s.elemLoop (fun s k => s.elemStore e dt (w.o0 + k % 32) (w.o1 + k / 32) w.o2 (drainValue form (xs.getD k 0))) i n with
  | (.error z, s) => (.error z, s)
  | (.ok _, s) => (.ok n, s)

/-- Extents of an MPLANE window. -/
def Command.planeShape (c : Command) : Nat × Nat × Nat :=
  (bitsOf c.ctl[0].toNat 0 16, bitsOf c.ctl[0].toNat 16 16, bitsOf c.ctl[1].toNat 0 16)

/-- Destination elements that one part of an MPLANE converts: a byte of each plane, or a whole group for ENC 3 (R218). -/
def planeStep (t : Tensor) : Nat := if t.enc = 3 then t.groupSize else 8

/-- The source value of a destination element: none for padding (R216). Codes of Q4 and Q8 are taken as they are. -/
def State.planeValue (s : State) (e : Eng) (c : Command) (tr : Bool) (d l k : Nat) : Except EngStop (Option FVal) × State :=
  let st := c.srcT
  let o := handleWindow c.src.lo c.src.hi 0 0 0
  let (i0, i1, i2) := if tr then (o.o0 + l, o.o1 + d, o.o2 + k) else (o.o0 + d, o.o1 + l, o.o2 + k)
  if i0 ≥ st.ext0 ∨ i1 ≥ st.ext1 ∨ i2 ≥ st.ext2 then (.ok none, s)
  else if st.isQuant then
    match s.elemGet e st i0 i1 i2 with
    | (.error z, s) => (.error z, s)
    | (.ok code, s) => match s.quantParams e st i0 i1 i2 with
      | (.error z, s) => (.error z, s)
      | (.ok _, s) => (.ok (some (FVal.ofInt code)), s)
  else match s.elemValue e st i0 i1 i2 with
    | (.error z, s) => (.error z, s)
    | (.ok v, s) => (.ok (some v), s)

/-- The values of `n` elements from depth `d` on. -/
def State.planeValues (s : State) (e : Eng) (c : Command) (tr : Bool) (d l k : Nat) :
    Nat → Except EngStop (List (Option FVal)) × State
  | 0 => (.ok [], s)
  | n + 1 => match s.planeValue e c tr d l k with
    | (.error z, s) => (.error z, s)
    | (.ok v, s) => match s.planeValues e c tr (d + 1) l k n with
      | (.error z, s) => (.error z, s)
      | (.ok vs, s) => (.ok (v :: vs), s)

/-- The integer that a value stands for, rounded to the nearest. -/
def fvalInt (x : FVal) : Int := toInt .rn (-2 ^ 64) (2 ^ 64) x

/-- The code of a value for ENC 0 to 2 and p planes (R217); padding has the code of zero (R216). -/
def planeCode (quant : Bool) (enc p zp : Nat) (x : Option FVal) : Nat :=
  let h : Int := 2 ^ (p - 1)
  match x with
  | none => if enc = 1 then h.toNat else if enc = 2 then zp else 0
  | some v =>
    let i := fvalInt v
    if quant then i.toNat
    else if enc = 0 then (clampInt 0 (2 ^ p - 1) i).toNat
    else if enc = 1 then (clampInt (-h) (h - 1) i + h).toNat
    else (clampInt 0 (2 ^ p - 1) (i + zp)).toNat

/-- Floor(Log2(Abs(x))) of a finite non-zero value. -/
def fvalLog2 (x : FVal) : Option Int :=
  match x with
  | .fin _ m e => if m = 0 then none else some ((Nat.log2 m : Int) + e)
  | _ => none

/-- The exponent of a group for ENC 3 (R218); padding is 0. -/
def groupExponent (p : Nat) (xs : List (Option FVal)) : Int :=
  match xs.filterMap fun x => match x with
    | some v => fvalLog2 v
    | none => none with
  | [] => 0
  | y :: ys => clampInt (-128) 127 (ys.foldl max y - (p : Int) + 2)

/-- The code of a value under a group exponent (R218). -/
def alignedCode (p : Nat) (ex : Int) (x : Option FVal) : Nat :=
  let h : Int := 2 ^ (p - 1)
  let q : Int := match x with
    | none => 0
    | some .nan => 0
    | some (.inf neg) => if neg then -h else h
    | some (.fin neg m e) => fvalInt (.fin neg m (e - ex))
  (clampInt (-h) (h - 1) q + h).toNat

/-- The byte of plane `i` that holds eight codes in depth order (R81). -/
def planeByte (i : Nat) (codes : List Nat) : Byte :=
  BitVec.ofNat 8 (((List.range 8).zip codes).map fun q => if bitOf q.2 i then 2 ^ q.1 else 0).sum

/-- Write codes from a destination element on, eight at a time, into every plane. -/
def State.planeWrite (s : State) (e : Eng) (t : Tensor) (i0 i1 i2 : Nat) (codes : List Nat) :
    List (Nat × Nat) → Except EngStop Unit × State
  | [] => (.ok (), s)
  | (j, i) :: rest =>
    match s.engWrite e .write ⟨1, 0, t.planeOff (i0 + 8 * j) i1 i2 i⟩ [planeByte i ((codes.drop (8 * j)).take 8)] with
    | (.error z, s) => (.error z, s)
    | (.ok _, s) => s.planeWrite e t i0 i1 i2 codes rest

/-- One part of an MPLANE: a run of depth of one destination line (R216 to R219). -/
def State.planeUnit (s : State) (e : Eng) (c : Command) (tr : Bool) (i : Nat) : Except EngStop Nat × State :=
  let dt := c.dstT
  let (w0, w1, _) := c.planeShape
  let n := planeStep dt
  let d := i % w0
  let l := i / w0 % w1
  let k := i / w0 / w1
  let o := handleWindow c.dst.lo c.dst.hi 0 0 0
  match s.planeValues e c tr d l k n with
  | (.error z, s) => (.error z, s)
  | (.ok xs, s) =>
    let p := dt.planes
    let ex := groupExponent p xs
    let codes := if dt.enc = 3 then xs.map (alignedCode p ex) else xs.map (planeCode c.srcT.isQuant dt.enc p dt.zp)
    let slots := (List.range (n / 8)).flatMap fun j => (List.range p).map fun b => (j, b)
    match s.planeWrite e dt (o.o0 + d) (o.o1 + l) (o.o2 + k) codes slots with
    | (.error z, s) => (.error z, s)
    | (.ok _, s) =>
      if dt.enc = 3 then
        match s.engWrite e .write (dt.spot dt.saddr (dt.groupOf (o.o0 + d) (o.o1 + l) (o.o2 + k))) [BitVec.ofInt 8 ex] with
        | (.error z, s) => (.error z, s)
        | (.ok _, s) => (.ok n, s)
      else (.ok n, s)

/-- The addresses of the destination bytes that element `i` of MDRAIN or MPLANE writes (R195). -/
def Command.drainsAt (c : Command) (i : Nat) : List Nat :=
  let t := c.dstT
  match c.op with
  | .mdrain _ =>
    let w := handleWindow c.dst.lo c.dst.hi 32 32 1
    let d := (w.o0 + i % 32, w.o1 + i / 32, w.o2)
    (List.range (t.elemBytes d.1).2).map fun j => (t.elemSpot d).addr + j
  | .mplane _ =>
    let (w0, w1, _) := c.planeShape
    let o := handleWindow c.dst.lo c.dst.hi 0 0 0
    let d := (o.o0 + i % w0, o.o1 + i / w0 % w1, o.o2 + i / w0 / w1)
    (if t.enc = 3 then [(t.spot t.saddr (t.groupOf d.1 d.2.1 d.2.2)).addr] else []) ++
      (List.range t.planes).map fun p => t.planeOff d.1 d.2.1 d.2.2 p
  | _ => []

/-! ## Starting and moving on -/

/-- Words or elements that MRSUM, MDRAIN and MPLANE perform in all. -/
def Command.matrixTotal (c : Command) : Nat :=
  match c.op with
  | .mrsum _ => 32
  | .mdrain _ => 1024
  | .mplane _ => let (a, b, d) := c.planeShape; a * b * d
  | _ => 0

/-- A parked command goes on from the page of its fault: a global page of MPLANE's source (R205, R219). Every other one is performed
again from its beginning (R228, R230). -/
def Command.goesOn (c : Command) (fill : Bool) : Bool := !fill && match c.op with
  | .mplane _ => true
  | _ => false

/-- A matrix command that meets a condition at an access: MMA and MZPC get their tile back from the shadow, and a parked command is
performed again (R230, R232). An MMA parked in a replay stays one (log 168), and one to receive an injection leaves it armed
(log 167). -/
def State.matrixStopped (s : State) (e : Eng) (c : Command) (x : EngStop) : State :=
  let s := match x, c.op with
    | .waits, _ => s
    | .dead, _ => s
    | _, .mma .. => s.restoreTiles e c
    | _, .mzpc => s.restoreTiles e c
    | _, _ => s
  let s := match x with
    | .park _ _ _ _ fill => if c.goesOn fill then s else s.updEng e fun c =>
        { c with started := false, progress := 0, landed := 0, inject := false, low := false, exact := [], sums := [], grouped := 0 }
    | _ => s
  s.engStopped e x

/-- Every earlier command of the core that names one of the command's tiles has completed (R211, R228). -/
def State.tilesReady (s : State) (e : Eng) (c : Command) : Bool :=
  let bid := s.bidOf e.agent
  ((s.core e.core).bobbins.toList.filter fun x => x.bid == bid).all fun x => x.matrixQ.all fun k =>
    decide (k.id ≥ c.id) || !(k.tilesNamed.any fun t => c.tilesNamed.contains t)

/-- The next part of MRSUM, MDRAIN or MPLANE; its landed bytes are credited at its end (R219, R227). -/
def State.matrixUnit (s : State) (e : Eng) : Bool × State :=
  match s.engCommand e with
  | none => (false, s)
  | some c =>
    if c.progress ≥ c.matrixTotal then (false, s.engFinish e (flagRel c.flags) c.scope 0)
    else
      match (match c.op with
        | .mrsum col => s.mrsumUnit e c col c.progress
        | .mdrain form => s.drainUnit e c form c.progress
        | .mplane tr => s.planeUnit e c tr c.progress
        | _ => (.error .waits, s)) with
      | (.error x, s) => (false, s.matrixStopped e c x)
      | (.ok n, s) =>
        let landed := if c.phs.isEmpty then 0 else freshBytes c.drainsAt c.progress n
        let s := s.updEng e fun k => { k with progress := k.progress + n, landed := k.landed + landed }
        if c.progress + n ≥ c.matrixTotal then (false, s.engFinish e (flagRel c.flags) c.scope 0) else (true, s)

/-- Up to `n` parts. -/
def State.matrixUnits (s : State) (e : Eng) : Nat → State
  | 0 => s
  | n + 1 => match s.matrixUnit e with
    | (true, s) => s.matrixUnits e n
    | (false, s) => s

/-- MATRIX_COMMAND_COMPLETE: accesses, credit and release are done; MDRAIN with KEEP 0 releases the tile (R228, R229). -/
def execMatrixCommandComplete (core b id : Nat) (s : State) : Host.Outcome State Fault Refusal :=
  .next (
    let e : Eng := ⟨core, b, true, id⟩
    match s.engCommand e with
    | none => s
    | some c =>
      let release := match c.op with
        | .mdrain _ => c.moved && !c.ctl[0].getLsbD 0 && s.credits.all (fun k => k.cmd != some id)
        | _ => false
      let s := if release then (c.tilesNamed.map fun n => n - c.tile).foldl (fun (s : State) k =>
          s.updTileData e c k fun t =>
            { t with tag := .raw, rs := List.replicate 32 0, cs := List.replicate 32 0, kd := 0 }) s
        else s
      s.engComplete e)

end Sys2Proof.Machine
end

