-- ==== Sys2Proof/Machine/Record.lean ====
section
/-! DEFINITION. The domain records of the power area, as the device writes them (R390, R391). Which of their bits a store of software
changes is in Memory. -/

namespace Sys2Proof.Machine

/-- G as the record codes it. -/
def grantCode (g : Nat) : Nat := if g ≥ 16 then 0 else if g = 12 then 1 else if g = 8 then 2 else 3

/-- A set of sensor numbers as a bit mask. -/
def sensorMask (js : List Nat) : Nat := (js.eraseDups.map fun j => 2 ^ j).sum

/-- A signed 16-bit value. -/
def code16 (x : Int) : Nat := (BitVec.ofInt 16 x).toNat

/-- The bits of a record that software writes and reads: ILIM, TTHR, FTGT. -/
def recordRw (x : Nat) : Nat := bitsOf x 384 16 * 2 ^ 384 + bitsOf x 376 8 * 2 ^ 376 + bitsOf x 330 4 * 2 ^ 330

/-- The bits of a record that the device writes, but SEQ. -/
def State.recordRo (s : State) (d : Nat) : Nat :=
  let p := s.power d
  let raw := fun (xs : List Int) (lo : Nat) => ((List.range xs.length).map fun j => code16 (xs.getD j 0) * 2 ^ (lo + 16 * j)).sum
  p.imin % 2 ^ 16 * 2 ^ 400 + code16 p.temp * 2 ^ 360 + code16 p.icur * 2 ^ 344 +
    sensorMask p.suspT * 2 ^ 338 + sensorMask p.suspI * 2 ^ 334 + p.fset % 16 * 2 ^ 326 + p.sc % 16 * 2 ^ 322 + p.st % 16 * 2 ^ 318 +
    (if p.ss then 2 ^ 317 else 0) + grantCode (s.dom d).grant * 2 ^ 315 + (s.dom d).rail % 4 * 2 ^ 313 + p.state % 8 * 2 ^ 310 +
    raw (p.temps.take 6) 160 + raw (p.currents.take 4) 96

/-- Where a domain's record lies. -/
def State.recordAt (s : State) (d : Nat) : Nat := s.platform.areaAt + 64 + 64 * d

/-- The 512 bits of a domain's record: software's fields as they stand in memory, the device's as they are now. -/
def State.recordBits (s : State) (d : Nat) : Nat :=
  recordRw (leNat (s.readPhys (s.recordAt d) 64)) + s.recordRo d + (s.power d).seq % 2 ^ 32 * 2 ^ 416

/-- The device writes a record, SEQ with it; before Umavo has set the area there is none. -/
def State.writeRecord (s : State) (d : Nat) : State :=
  let s := s.updPower d fun p => { p with seq := (p.seq + 1) % 2 ^ 32 }
  if s.platform.areaAt = 0 then s
  else (s.cacheStore none (.phys (s.recordAt d))).storeRaw (s.recordAt d) (leBytes 64 (s.recordBits d))

/-- The record of a domain is written after a change of what it shows (R390). -/
def State.recorded (s t : State) (d : Nat) : State := if t.recordRo d = s.recordRo d then t else t.writeRecord d

end Sys2Proof.Machine
end

