-- ==== Sys2Proof/Machine/Fidelity.lean ====
section
/-! DEFINITION. The steps of MMA on the significance slices with their checks and policies (R221 to R223, R230, R233 to R243,
R251), the counters and MSTAT (R244, R245), MFID (R237), FIDINJ (R250), the domain's low rail (R249). -/

namespace Sys2Proof.Machine

/-! ## The fidelity field (R235) -/

def fidSplit (f : Byte) : Nat := (f.extractLsb' 0 2).toNat
def fidStep (f : Byte) : Nat := (f.extractLsb' 2 2).toNat
def fidPolicy (f : Byte) : Nat := (f.extractLsb' 4 2).toNat

/-- Reserved bits and policy 3 are not accepted (R236, R237). -/
def fidOk (f : Byte) : Bool := f.extractLsb' 6 2 == 0 && fidPolicy f != 3

/-- The highest step no greater than the request that is qualified in the domain (R248). -/
def State.qualifiedStep (s : State) (d req : Nat) : Nat :=
  (List.range (req + 1)).foldl (fun m k => if k = 0 ∨ s.wafer.qualified.contains (d, k) then k else m) 0

/-- The request of a field, if it makes one (R249). -/
def State.fidRequest (s : State) (d : Nat) (f : Byte) : Option Nat :=
  if fidSplit f ≠ 0 ∧ fidStep f ≠ 0 then some (s.qualifiedStep d (fidStep f)) else none

/-- A new request below the rail step moves the rail first (R249). -/
def State.lowerRail (s : State) (d : Nat) (f : Byte) : State :=
  match s.fidRequest d f with
  | some r => s.recorded (s.updDom d fun x => { x with rail := min x.rail r }) d
  | none => s

/-- The fidelity fields of a bobbin and of its posted matrix commands. -/
def Bobbin.fields (x : Bobbin) : List Byte := x.fid :: x.matrixQ.map (·.fid)

/-- The fields of a saved unit's blocks, bobbins and commands (R236). -/
def SavedUnit.fields (u : SavedUnit) : List Byte := u.blocks.map (·.fid) ++ u.bobbins.flatMap fun p => p.2.2.fields

/-- The requests in force in a domain: resident blocks' grids, bobbins that are not free, their posted matrix commands, and those of
units whose restore into the domain is under way (R249). -/
def State.fidRequests (s : State) (d : Nat) : List Nat :=
  let grids := (s.blocks.filter fun b => domOf b.core == d).map (·.fid)
  let bobbins := (s.cores.filter fun c => domOf c.1 == d).flatMap fun c =>
    (c.2.bobbins.toList.filter fun x => x.status != .free).flatMap Bobbin.fields
  let coming := (s.saved.filter fun u => u.placed && u.blocks.any fun b => domOf b.core == d).flatMap SavedUnit.fields
  (grids ++ bobbins ++ coming).filterMap (s.fidRequest d)

/-- LOW_RAIL_MOVE: the rail moves to the least request, or to 0 where there is none. -/
def execLowRailMove (d : Nat) (s : State) : Host.Outcome State Fault Refusal :=
  .next (if s.platform.powered then s.recorded (s.updDom d fun x => { x with rail := (lowest (s.fidRequests d)).getD 0 }) d else s)

/-! ## Counters (R244) -/

/-- One event of a counter; it stops at its greatest value. -/
def satInc (w : Word) : Word := if w = 0xFFFFFFFF then w else w + 1

def State.fidCount (s : State) (core i : Nat) : State :=
  s.updCore core fun c => { c with fidCounts := vecUpd c.fidCounts i satInc }

def State.fidCountIf (s : State) (core i : Nat) (b : Bool) : State := if b then s.fidCount core i else s

/-- The register of R244 that an index names. -/
def State.fidRegister (s : State) (core i : Nat) : Word :=
  let c := s.core core
  if i = 6 then BitVec.ofNat 32 ((if c.injection.isSome then 4 else 0) + (s.dom (domOf core)).rail)
  else (c.fidCounts.toList[if i = 7 then 6 else i]?).getD 0

/-- MSTAT (R245). -/
def execMstat (d i : BitVec 4) (n : BitVec 3) (s : State) : Host.Outcome State Fault Refusal :=
  .next (s.runUniform { n := n, dsts := [.s d], bad := if i.toNat ≥ 8 then some 7 else none } noFixed fun s ag _ =>
    s.retireVar ag n [wS d (s.fidRegister (s.coreOf ag) i.toNat)] latVar)

/-- MFID (R237). -/
def execMfid (a : BitVec 4) (n : BitVec 3) (s : State) : Host.Outcome State Fault Refusal :=
  .next (s.runUniform { n := n, srcs := [sSrc a], who := .bobbin } noFixed fun s ag vs =>
    match ag, s.blockOf ag with
    | .bobbin core b, some blk =>
      let v := valAt vs 0
      let low : Byte := v.extractLsb' 0 8
      let bad := v.extractLsb' 9 23 ≠ 0 ∨ (if v.getLsbD 8 then decide (low ≠ 0) else !fidOk low) = true
      if bad then s.illegal ag 7
      else
        let f := if v.getLsbD 8 then blk.fid else low
        ((s.updBobbin core b fun x => { x with fid := f }).lowerRail (domOf core) f).advance ag n
    | _, _ => s)

/-- FIDINJ's operands (R250). -/
def injectionOf (a b : Word) : Option Injection :=
  let slice := (b.extractLsb' 20 2).toNat
  let mask := (b.extractLsb' 16 4).toNat
  if a.extractLsb' 18 14 ≠ 0 ∨ b.extractLsb' 22 10 ≠ 0 ∨ b.extractLsb' 13 3 ≠ 0 ∨ b.extractLsb' 5 3 ≠ 0 ∨ slice = 3 ∨ mask = 0
  then none
  else some { step := (a.extractLsb' 0 18).toNat, slice := slice, mask := mask, col := (b.extractLsb' 8 5).toNat,
              row := (b.extractLsb' 0 5).toNat }

/-- No command of the core is to receive an injection. -/
def State.clearInject (s : State) (core : Nat) : State :=
  s.updCore core fun c => { c with bobbins := c.bobbins.map (fun (x : Bobbin) =>
    { x with matrixQ := x.matrixQ.map (fun (k : Command) => { k with inject := false }) }) }

/-- FIDINJ arms the core's injection in place of any armed before (R250). -/
def execFidinj (a b : BitVec 4) (n : BitVec 3) (s : State) : Host.Outcome State Fault Refusal :=
  .next (s.runUniform { n := n, srcs := [sSrc a, sSrc b], priv := true } noFixed fun s ag vs =>
    match injectionOf (valAt vs 0) (valAt vs 1) with
    | none => s.illegal ag 7
    | some i =>
      ((s.clearInject (s.coreOf ag)).updCore (s.coreOf ag) fun c => { c with injection := some i }).advance ag n)

/-! ## The shape of an MMA -/

structure MmaShape where
  k : Nat
  p : Nat
  q : Nat
  /-- Elements of a segment, and segments of a chunk (R221, R223). -/
  seg : Nat
  segs : Nat
  float : Bool
  a : Tensor
  b : Tensor
  aw : Window
  bw : Window
  ap : Option Tensor
  bp : Option Tensor
  deriving DecidableEq, Repr

def Command.mmaShape (c : Command) (p q : Nat) : MmaShape :=
  let k := bitsOf c.ctl[2].toNat 0 12
  let float := c.tag == .f32
  let a := c.srcT
  let b := Tensor.ofNat c.bEntry
  let ap := if c.ctl[3].getLsbD 24 then some (Tensor.ofNat c.aParam) else none
  let bp := if c.ctl[3].getLsbD 25 then some (Tensor.ofNat c.bParam) else none
  let seg := if float then ((operandGroup a ap).orElse fun _ => operandGroup b bp).getD 128 else 128
  { k := k, p := p, q := q, seg := seg, segs := 128 / seg, float := float, a := a, b := b,
    aw := mmaWindow c.src.lo c.src.hi k, bw := mmaWindow c.ctl[0] c.ctl[1] k, ap := ap, bp := bp }

/-- Plane-pair steps in all. -/
def MmaShape.steps (m : MmaShape) : Nat := m.k * m.p * m.q

/-- N of R238. -/
def MmaShape.feeding (m : MmaShape) : Nat := if m.float then m.p * m.q else m.steps

/-- S of R233. -/
def splitColumn (f : Byte) : Nat := 4 * fidSplit f

/-- The 16 bytes of chunk `ch` of 32 lines of a plane, as 128-bit numbers (R81). -/
def State.planeLines (s : State) (e : Eng) (t : Tensor) (w : Window) (ch plane : Nat) :
    List Nat → Except EngStop (List Nat) × State
  | [] => (.ok [], s)
  | i :: is =>
    match s.engRead e .read ⟨1, 0, t.planeOff (w.o0 + 128 * ch) (w.o1 + i) w.o2 plane⟩ 16 with
    | (.error x, s) => (.error x, s)
    | (.ok bs, s) => match s.planeLines e t w ch plane is with
      | (.error x, s) => (.error x, s)
      | (.ok xs, s) => (.ok (leNat bs :: xs), s)

/-- Number of 1 bits among the low `n`. -/
def popNat (n x : Nat) : Nat := ((List.range n).filter fun i => bitOf x i).length

/-- A line's part in a segment. -/
def segOf (seg k x : Nat) : Nat := bitsOf x (seg * k) seg

/-- The popcounts of a step: element by element, row by row, segment by segment (R221). -/
def stepPops (m : MmaShape) (as bs : List Nat) : List Nat :=
  as.flatMap fun x => bs.flatMap fun y => (List.range m.segs).map fun k => popNat m.seg (segOf m.seg k (x &&& y))

/-! ## One plane-pair step -/

/-- A change at a step: the place in the list of sums, the bits of the sum it changes, and the slices A to C whose carry out it
changes, as three bits. -/
structure Strike where
  at_ : Nat
  mask : Nat
  carries : Nat
  deriving DecidableEq, Repr

/-- What the changes of a step change at one place. -/
def strikesAt (ks : List Strike) (i : Nat) : Nat × Nat :=
  (ks.filter fun k => k.at_ == i).foldl (fun p k => (p.1 ^^^ k.mask, p.2 ^^^ k.carries)) (0, 0)

/-- A slice's field and carry out, struck, from what it adds up to; and whether its residue check disagrees (R241): 16 is 1 mod 3.
-/
def sliceOut (sum mask carry : Nat) : Nat × Nat × Bool :=
  let field := sum % 16 ^^^ mask
  let out := sum / 16 ^^^ carry
  (field, out, decide ((field + 16 * out) % 3 ≠ sum % 3))

/-- A sum and a contribution added slice by slice (R233), each slice with the carry that the one below has handed on (log 143): the
new sum, and the slices A to C that report a mismatch, as three bits. -/
def sliceSum (x y : Nat) (struck : Nat × Nat) : Nat × Nat :=
  let bit := fun i : Nat => struck.2 / 2 ^ i % 2
  let a := sliceOut (bitsOf x 0 4 + bitsOf y 0 4) (bitsOf struck.1 0 4) (bit 0)
  let b := sliceOut (bitsOf x 4 4 + bitsOf y 4 4 + a.2.1) (bitsOf struck.1 4 4) (bit 1)
  let c := sliceOut (bitsOf x 8 4 + bitsOf y 8 4 + b.2.1) (bitsOf struck.1 8 4) (bit 2)
  let d := (x / 2 ^ 12 + y / 2 ^ 12 + c.2.1) ^^^ (struck.1 / 2 ^ 12)
  (a.1 + 16 * b.1 + 256 * c.1 + 4096 * d,
    (if a.2.2 then 1 else 0) + (if b.2.2 then 2 else 0) + (if c.2.2 then 4 else 0))

/-- The sums after a step's own additions, with its changes. -/
def addSums (weight : Nat) (pops xs : List Nat) (ks : List Strike) : List Nat :=
  ks.foldl (fun ys k => updAt (fun _ =>
      (sliceSum (xs.getD k.at_ 0) (2 ^ weight * pops.getD k.at_ 0) (strikesAt ks k.at_)).1) k.at_ ys)
    (List.zipWith (fun x p => x + 2 ^ weight * p) xs pops)

/-- The slices that report a mismatch in a step, as three bits (R241, R242). -/
def mismatches (weight : Nat) (pops xs : List Nat) (ks : List Strike) : Nat :=
  ks.foldl (fun m k => m |||
    (sliceSum (xs.getD k.at_ 0) (2 ^ weight * pops.getD k.at_ 0) (strikesAt ks k.at_)).2) 0

/-- The injection armed on the core strikes this MMA at this step (R251): in float mode the segment of lowest depth (R416). -/
def State.injectNow (s : State) (e : Eng) (c : Command) (m : MmaShape) : List Strike × State :=
  match (s.core e.core).injection with
  | some i =>
    if c.inject && !c.replay && i.step == c.progress then
      let s := (s.updCore e.core fun x => { x with injection := none }).fidCount e.core 6
      ([⟨(32 * i.row + i.col) * m.segs, i.mask * 2 ^ (4 * i.slice), 0⟩], s.updEng e fun c => { c with inject := false })
    else ([], s)
  | none => ([], s)

/-- A soft error as its event gives it: row in [4:0], column in [9:5], the changed carries in [12:10], the changed bits above. -/
def softStrike (m : MmaShape) (soft segment : Nat) : List Strike :=
  if soft / 2 ^ 10 = 0 then []
  else [⟨(32 * (soft % 32) + soft / 32 % 32) * m.segs + segment % m.segs, soft / 2 ^ 13, bitsOf soft 10 3⟩]

/-- The step runs its low slices on the low rail (R234). -/
def Command.onLowRail (c : Command) : Bool := fidSplit c.fid != 0 && fidStep c.fid != 0 && !c.replay

/-- The declared and the undetected error rate of a step of the low rail (R247). -/
def State.stepRates (s : State) (d k : Nat) : Nat × Nat :=
  match s.wafer.rates.find? fun r => r.1 == d && r.2.1 == k with
  | some r => r.2.2
  | none => (0, 0)

/-- The rates of a step of this command: none on the nominal rail, which rail step 0 is (R234). -/
def State.lowRates (s : State) (core : Nat) (c : Command) : Nat × Nat :=
  let k := (s.dom (domOf core)).rail
  if c.onLowRail && k != 0 then s.stepRates (domOf core) k else (0, 0)

/-- A free value within the bound of R238 around an exact sum. -/
def State.freeSum (s : State) (split n : Nat) (x : Nat) : Int × State :=
  let (e, s) := s.choose (2 * n + 1)
  let (l, s) := s.choose (2 ^ split)
  ((((x / 2 ^ split : Nat) : Int) + (e : Int) - (n : Int)) * 2 ^ split + (l : Int), s)

/-- The sums as the engine yields them: exact, struck, or free within the bound. -/
def State.yieldSums (s : State) (c : Command) (m : MmaShape) : List Int × State :=
  if c.low then
    c.exact.foldl (fun (p : List Int × State) x =>
      let (v, s) := p.2.freeSum (splitColumn c.fid) m.feeding x
      (p.1 ++ [v], s)) ([], s)
  else (c.sums.map Int.ofNat, s)

/-! ## The group steps of float mode (R223) -/

/-- Zero point and scale of an operand at depth `d` of the window, line `i`. -/
def State.operandParams (s : State) (e : Eng) (t : Tensor) (w : Window) (param : Option Tensor) (d i : Nat) :
    Except EngStop (Nat × FVal) × State :=
  match param with
  | some y => match s.quantParams e y (w.o0 + d) (w.o1 + i) w.o2 with
    | (.error x, s) => (.error x, s)
    | (.ok (sc, z), s) => (.ok (z, valueOf .f16 sc), s)
  | none =>
    if t.enc = 3 then match s.engRead e .read (t.spot t.saddr (t.groupOf (w.o0 + d) (w.o1 + i) w.o2)) 1 with
      | (.error x, s) => (.error x, s)
      | (.ok bs, s) => (.ok (2 ^ (t.planes - 1), .fin false 1 (signedCode 8 (leNat bs))), s)
    else (.ok (if t.enc = 1 then 2 ^ (t.planes - 1) else if t.enc = 2 then t.zp else 0, FVal.ofInt 1), s)

/-- Those of 32 lines. -/
def State.lineParams (s : State) (e : Eng) (t : Tensor) (w : Window) (param : Option Tensor) (d : Nat) :
    List Nat → Except EngStop (List (Nat × FVal)) × State
  | [] => (.ok [], s)
  | i :: is => match s.operandParams e t w param d i with
    | (.error x, s) => (.error x, s)
    | (.ok y, s) => match s.lineParams e t w param d is with
      | (.error x, s) => (.error x, s)
      | (.ok ys, s) => (.ok (y :: ys), s)

/-- The sums of codes of 32 lines over one segment of a chunk. -/
def State.codeSums (s : State) (e : Eng) (m : MmaShape) (t : Tensor) (w : Window) (ch seg : Nat) :
    List Nat → Except EngStop (List Nat) × State
  | [] => (.ok (List.replicate 32 0), s)
  | p :: ps => match s.planeLines e t w ch p (List.range 32) with
    | (.error x, s) => (.error x, s)
    | (.ok xs, s) => match s.codeSums e m t w ch seg ps with
      | (.error x, s) => (.error x, s)
      | (.ok ys, s) => (.ok (List.zipWith (fun x y => 2 ^ p * popNat m.seg (segOf m.seg seg x) + y) xs ys), s)

/-- One element's group step: the sum taken exactly, rounded once. -/
def groupStep (n : Nat) (tile : Word) (prod : Int) (a b : Nat × FVal) (ua ub : Nat) : Word :=
  let x : Int := prod - (b.1 : Int) * ua - (a.1 : Int) * ub + (n : Int) * a.1 * b.1
  BitVec.ofNat 32 (roundF .f32 .rn ((valueOf .f32 tile.toNat).add ((a.2.mul b.2).mul (FVal.ofInt x))))

/-- The group steps of a chunk, in ascending depth; `sums` holds the product sums of every segment. -/
def State.groupSteps (s : State) (e : Eng) (c : Command) (m : MmaShape) (ch : Nat) (sums : List Int) :
    List Nat → Except EngStop Unit × State
  | [] => (.ok (), s)
  | g :: gs =>
    let d := 128 * ch + m.seg * g
    match s.lineParams e m.a m.aw m.ap d (List.range 32) with
    | (.error x, s) => (.error x, s)
    | (.ok pa, s) => match s.lineParams e m.b m.bw m.bp d (List.range 32) with
      | (.error x, s) => (.error x, s)
      | (.ok pb, s) => match s.codeSums e m m.a m.aw ch g (List.range m.p) with
        | (.error x, s) => (.error x, s)
        | (.ok ua, s) => match s.codeSums e m m.b m.bw ch g (List.range m.q) with
          | (.error x, s) => (.error x, s)
          | (.ok ub, s) =>
            let one : Nat × FVal := (0, FVal.ofInt 1)
            let s := s.updTileData e c 0 fun t =>
              { t with elems := ((List.range 1024).zip t.elems).map (fun p =>
                  groupStep m.seg p.2 (sums.getD (p.1 * m.segs + g) 0) (pa.getD (p.1 / 32) one) (pb.getD (p.1 % 32) one)
                    (ua.getD (p.1 / 32) 0) (ub.getD (p.1 % 32) 0)) }
            (s.updEng e fun c => { c with grouped := c.grouped - 1 }).groupSteps e c m ch sums gs

/-! ## MMA -/

/-- The command starts, or starts again: running sums as they stand before its first step. -/
def State.mmaBegin (s : State) (e : Eng) (c : Command) (m : MmaShape) : State :=
  let xs := if m.float then List.replicate (1024 * m.segs) 0 else s.tileElems e c
  s.updEng e fun c => { c with started := true, progress := 0, low := false, exact := xs, sums := xs, grouped := 0 }

/-- The sum vectors of a step (R222): RS once for each A plane of a chunk, CS for each B plane, KD for each chunk. -/
def State.sumVectors (s : State) (e : Eng) (c : Command) (a b : Nat) (as bs : List Nat) : State :=
  let add := fun (w : Nat) (v : List DWord) (xs : List Nat) =>
    List.zipWith (fun (x : DWord) y => x + BitVec.ofNat 64 (2 ^ w * popNat 128 y)) v xs
  s.updTileData e c 0 fun t =>
    { t with
      rs := if b = 0 then add a t.rs as else t.rs
      cs := if a = 0 then add b t.cs bs else t.cs
      kd := if a = 0 ∧ b = 0 then t.kd + 128 else t.kd }

/-- What a mismatch leads to under the captured policy (R242). -/
inductive FidAct where
  | goOn | replay | stop (c : Cause)
  deriving DecidableEq, Repr

def fidAction (policy : Nat) (replay : Bool) (mismatch : Nat) : FidAct :=
  if mismatch = 0 then .goOn
  else if policy = 1 then (if replay then .stop .fidReplay else .replay)
  else if policy = 2 then .stop .fidError
  else .goOn

/-- The counters of a step's mismatches (R244). -/
def State.countMismatch (s : State) (core mismatch : Nat) : State :=
  if mismatch = 0 then s
  else
    let s := s.fidCount core 0
    let s := s.fidCountIf core 1 (bitOf mismatch 0)
    let s := s.fidCountIf core 2 (bitOf mismatch 1)
    s.fidCountIf core 3 (bitOf mismatch 2)

/-- What the sums are after a step: a soft error lies outside the bound of R238, an injection within it; `err` says that the low
rail may have changed them. After the last step of a chunk its group steps are due. -/
def Command.addStep (c : Command) (m : MmaShape) (weight : Nat) (pops : List Nat) (inj soft : List Strike) (err : Bool) : Command :=
  let top := fun x : Nat => if m.float then x else x % 2 ^ c.tileBits
  { c with
    progress := c.progress + 1
    exact := (addSums weight pops c.exact soft).map top
    sums := (addSums weight pops c.sums (inj ++ soft)).map top
    low := c.low || err
    grouped := if m.float && (c.progress + 1) % (m.p * m.q) == 0 then m.segs else 0 }

/-- The sums are complete: in integer mode the elements of the tile, after every chunk the group steps of float mode. -/
def State.mmaSums (s : State) (e : Eng) (c : Command) (m : MmaShape) : State :=
  let last := decide (c.progress ≥ m.steps)
  if m.float then
    let due := (List.range m.segs).drop (m.segs - c.grouped)
    let (xs, s) := if due.isEmpty then ([], s) else s.yieldSums c m
    match s.groupSteps e c m (c.progress / (m.p * m.q) - 1) xs due with
    | (.error x, s) => s.matrixStopped e c x
    | (.ok _, s) =>
      let zero := List.replicate (1024 * m.segs) 0
      let s := if due.isEmpty then s else s.updEng e fun c => { c with low := false, exact := zero, sums := zero }
      if last then s.engFinish e false .blk 0 else s
  else if last then
    let (xs, s) := s.yieldSums c m
    (s.setTileElems e c (xs.map fun x => (x.emod (2 ^ c.tileBits)).toNat)).engFinish e false .blk 0
  else s

/-- One step of a started MMA (R221, R241, R242). -/
def State.mmaStep (s : State) (e : Eng) (c : Command) (m : MmaShape) (soft : Nat) : State :=
  let ch := c.progress / (m.p * m.q)
  let a := c.progress / m.q % m.p
  let b := c.progress % m.q
  match s.planeLines e m.a m.aw ch a (List.range 32) with
  | (.error x, s) => s.matrixStopped e c x
  | (.ok as, s) => match s.planeLines e m.b m.bw ch b (List.range 32) with
    | (.error x, s) => s.matrixStopped e c x
    | (.ok bs, s) =>
      let pops := stepPops m as bs
      let (inj, s) := s.injectNow e c m
      let (sk, s) := if soft / 2 ^ 10 ≠ 0 ∧ m.segs > 1 then s.choose m.segs else (0, s)
      let sft := softStrike m soft sk
      let struck := mismatches (a + b) pops c.sums (inj ++ sft)
      -- where the rail's rates allow errors (R247), which low slices report one is free, and so are the sums of an error; with a
      -- change that strikes the same slice an error may make a net change that is not detected (R241)
      let rates := s.lowRates e.core c
      let (fr, s) := if rates.1 ≠ 0 then s.choose (2 ^ fidSplit c.fid) else (0, s)
      let (un, s) := if struck ≠ 0 ∧ (rates.1 ≠ 0 ∨ rates.2 ≠ 0) then s.choose (2 ^ fidSplit c.fid) else (0, s)
      let err := decide (rates.2 ≠ 0) || decide (fr ≠ 0) || decide (struck &&& un ≠ 0)
      let mismatch := fr ||| (struck - (struck &&& un))
      let s := if m.float then s else s.sumVectors e c a b as bs
      let s := s.updEng e fun c => { c.addStep m (a + b) pops inj sft err with inject := c.inject }
      let s := s.countMismatch e.core mismatch
      match fidAction (fidPolicy c.fid) c.replay mismatch with
      | .goOn => match s.engCommand e with
        | some c => s.mmaSums e c m
        | none => s
      | .replay =>
        let s := (s.restoreTiles e c).fidCount e.core 4
        (s.updEng e fun c => { c with replay := true, inject := false }).mmaBegin e c m
      | .stop cause =>
        let s := s.fidCountIf e.core 5 (cause == .fidError)
        s.matrixStopped e c (.stop cause 0)

/-- PLANE_PAIR_STEP: one step of the MMA of this number, with the soft error that strikes it, if any. -/
def execPlanePairStep (core b id soft : Nat) (s : State) : Host.Outcome State Fault Refusal :=
  .next (
    let e : Eng := ⟨core, b, true, id⟩
    if !s.mayMove e then s
    else match s.engCommand e with
      | some c => match c.op with
        | .mma p q =>
          let m := c.mmaShape p q
          if !c.started then s
          else if c.grouped = 0 ∧ c.progress < m.steps then s.mmaStep e c m soft
          else s.mmaSums e c m
        | _ => s
      | none => s)

/-! ## Starting (R211, R230) -/

/-- The first MMA that meets both conditions receives the armed injection (R251); where it does not come to the step, the injection
stays armed and the next such MMA that starts receives it (log 167). -/
def State.takesInjection (s : State) (e : Eng) (c : Command) (m : MmaShape) : Bool :=
  match (s.core e.core).injection with
  | some i => decide (m.steps > i.step) && decide (i.slice < fidSplit c.fid) &&
      !(s.core e.core).bobbins.toList.any fun x => x.matrixQ.any fun k => k.inject
  | none => false

/-- MATRIX_COMMAND_START: the command starts; MRSUM, MDRAIN and MPLANE also go on, by `parts` more parts; the steps of an MMA
are PLANE_PAIR_STEP's. -/
def execMatrixCommandStart (core b id parts : Nat) (s : State) : Host.Outcome State Fault Refusal :=
  .next (
    let e : Eng := ⟨core, b, true, id⟩
    let s := s.discardDropped e
    match s.engCommand e with
    | none => s
    | some c =>
      let acq := match c.op with
        | .mplane _ => flagAcq c.flags
        | _ => false
      if !s.mayMove e || !s.tilesReady e c then s
      else match (if c.started then some s else s.engBegin e acq c.scope) with
      | none => s
      | some s =>
        match c.op with
        | .mzero _ => (s.runMzero e c).engFinish e false .blk 0
        | .mzpc => ((s.shadowTiles e c).runMzpc e c).engFinish e false .blk 0
        | .mma p q =>
          if c.started then s
          else
            let m := c.mmaShape p q
            let inj := s.takesInjection e c m
            let s := (s.shadowTiles e c).mmaBegin e c m
            if inj then s.updEng e fun c => { c with inject := true } else s
        | _ => (s.updEng e fun c => { c with started := true }).matrixUnits e parts)

end Sys2Proof.Machine
end

