-- ==== Sys2Proof/Machine/Kiosk.lean ====
section
/-! DEFINITION. Atomics and reductions (R280 to R286): operands, the two forms of the address, return slots. The kiosk's step
itself is `AtomOp.apply`; it is performed at KIOSK_REQUEST. -/

namespace Sys2Proof.Machine

/-- The XOR of bits lo to hi of an address. -/
def xorBits (pa lo hi : Nat) : Nat := ((List.range (hi + 1 - lo)).map fun i => bitsOf pa (lo + i) 1).sum % 2

/-- The kiosk of a byte of a wafer's DRAM or domain scratch, by its key: wafer, domain, cluster. -/
def kioskOfKey (k : Nat) : Nat × Nat × Nat :=
  let d := k % 2 ^ 52 / 2 ^ 45
  if d = 127 then (k / 2 ^ 52, bitsOf k 38 7, xorBits k 7 36) else (k / 2 ^ 52, d, xorBits k 7 43)

/-- The owning kiosk of a location (R280): wafer, domain and cluster, a DRAM line by its slice-direct address, which both of its
addresses share (log 164); another wafer's memory by the same rows there. No atomic reaches MMIO or a host window. A kiosk's
operation is one step of the model whichever kiosk it is. -/
def State.owningKiosk (s : State) (l : Loc) : Option (Nat × Nat × Nat) :=
  let own := fun pa : Nat => match s.place 0 false false pa with
    | some (.dram k) => some (kioskOfKey k)
    | some (.domScratch k) => some (kioskOfKey k)
    | _ => if s.onOtherWafer (.phys pa) && !(pa % 2 ^ 52 / 2 ^ 45 == 127 && bitOf pa 37) then some (kioskOfKey (remoteKey pa)) else none
  match l with
  | .scratch core _ => some (s.wafer.id, domOf core, clusterOf core)
  | .phys pa => own pa
  | .replica pa d => own (replicaAt pa d)

/-- The scratch form: va+1[31:16] is 0x8000 (R284). -/
def scratchForm (addr : DWord) : Bool := addr.extractLsb' 48 16 == 0x8000

/-- The scratch form's target: a block of the thread's quarter, or its own block (R284). -/
def State.atomTarget (s : State) (ag : Agent) (addr : DWord) : Option Block × State :=
  let name := (addr.extractLsb' 32 16).zeroExtend 32
  s.named ag true name name 0

/-- An atomic up to its acceptance: the location, or the agent has trapped, parked or waits (R284). -/
def State.admitAtomic (s : State) (ag : Agent) (addr : DWord) (w : Nat) :
    Option (Loc × Home × Option TlbEntry × Option Block) × State :=
  if scratchForm addr then
    let off := addr.lo
    if off.toNat % w ≠ 0 then (none, s.trap ag .misaligned 0 (off.zeroExtend 64))
    else match s.atomTarget ag addr with
      | (none, s) => (none, s)
      | (some tb, s) => match s.admitScratch ag tb off.toNat w true ((addr.extractLsb' 32 16).zeroExtend 32) with
        | (some loc, s) => (some (loc, .wafer, none, some tb), s)
        | (none, s) => (none, s)
  else match s.admitted ag .both addr w with
    | (none, s) => (none, s)
    | (some (loc, home, e), s) =>
      match loc with
      | .phys _ =>
        if loc.isWindow then (none, s.trap ag .atomInvalid 1 addr)
        else if home.isMmio then (none, s.trap ag .atomInvalid 2 addr)
        else (some (loc, home, some e, none), s)
      | _ => (some (loc, home, some e, none), s)

/-- Return slots the agent holds (R282). -/
def Ctx.slots (c : Ctx) : Nat := (c.pend.filter fun p => match p.work with
  | .access _ (.slot _) => true
  | _ => false).length

/-- The operand and compare values of an atomic of width w: for a compare-and-swap the compare value comes first (R283). -/
def atomOperands (op : AtomOp) (w : Nat) (vs : List VReg) : Nat × Nat :=
  let x := valAt vs 0
  if w = 4 then (if op = .cas then ((valAt vs 1).toNat, x.toNat) else (x.toNat, 0))
  else (if op = .cas then ((pairAt vs 2).toNat, (pairAt vs 0).toNat) else ((pairAt vs 0).toNat, 0))

/-- Registers an atomic's operand field names (R283). -/
def atomGroup (op : AtomOp) (w : Nat) : Nat := (if op = .cas then 2 else 1) * (if w = 8 then 2 else 1)

/-- ATOM and RED (R283 to R286). `ret` is the return slot and its tag; RED has none. A thread that holds 8 slots waits. The step in
a region line is performed at once, so that the line's mask covers what it writes: a failed compare writes nothing (R285). -/
def State.atom (s : State) (op : AtomOp) (w : Nat) (acc : Accept) (ret : Option (Tag × BitVec 6)) (a b : BitVec 6)
    (n : BitVec 3) : State :=
  let k := atomGroup op w
  let regs := match ret with
    | some (_, d) => vRegs d (w / 4)
    | none => []
  let groups := match ret with
    | some (_, d) => [(a.toNat, 2), (b.toNat, k), (d.toNat, w / 4)]
    | none => [(a.toNat, 2), (b.toNat, k)]
  s.runGroup
    { n := n, srcs := addrSrcs a ++ vSrcs b k 1 acc, dsts := regs, bad := groupBad groups, who := .thread } noFixed
    fun s ag vs =>
    if ret.isSome && decide ((s.ctx ag).slots ≥ 8) then s
    else
      let addr := pairAt vs 0
      match s.admitAtomic ag addr w with
      | (none, s) => s
      | (some (loc, home, via, tb), s) =>
        let (x, c) := atomOperands op w (vs.drop 2)
        let id := s.nextId
        let t := s.acceptAtomic (accessOf ag (s.coreOf ag) loc w (.atomic op x c) addr.toNat home via)
          (ret.map fun r => (r.1, regs))
        match tb.filter fun b => (b.regionAt addr.lo.toNat).isSome with
        | none => t.advance ag n
        | some b =>
          let todo := t.closure fun y => y.id == id
          if !todo.all t.unheld then s
          else
            let t := t.performAll (todo.filter fun y => y.id != id)
            let old := leNat (t.readLoc loc w)
            let t := t.performAll (todo.filter fun y => y.id == id)
            (if (op.apply w old x c).isSome then t.markWritten b.bid addr.lo.toNat w else t).advance ag n

def execAtomAddI32 (d a b : BitVec 6) (n : BitVec 3) (s : State) : Host.Outcome State Fault Refusal :=
  .next (s.atom .addI32 4 aI (some (.i32, d)) a b n)
def execAtomMinI32 (d a b : BitVec 6) (n : BitVec 3) (s : State) : Host.Outcome State Fault Refusal :=
  .next (s.atom .minI32 4 aI (some (.i32, d)) a b n)
def execAtomMaxI32 (d a b : BitVec 6) (n : BitVec 3) (s : State) : Host.Outcome State Fault Refusal :=
  .next (s.atom .maxI32 4 aI (some (.i32, d)) a b n)
def execAtomMinN32 (d a b : BitVec 6) (n : BitVec 3) (s : State) : Host.Outcome State Fault Refusal :=
  .next (s.atom .minN32 4 aI (some (.n32, d)) a b n)
def execAtomMaxN32 (d a b : BitVec 6) (n : BitVec 3) (s : State) : Host.Outcome State Fault Refusal :=
  .next (s.atom .maxN32 4 aI (some (.n32, d)) a b n)
def execAtomAndB32 (d a b : BitVec 6) (n : BitVec 3) (s : State) : Host.Outcome State Fault Refusal :=
  .next (s.atom .andB 4 .any (some (.raw, d)) a b n)
def execAtomOrB32 (d a b : BitVec 6) (n : BitVec 3) (s : State) : Host.Outcome State Fault Refusal :=
  .next (s.atom .orB 4 .any (some (.raw, d)) a b n)
def execAtomXorB32 (d a b : BitVec 6) (n : BitVec 3) (s : State) : Host.Outcome State Fault Refusal :=
  .next (s.atom .xorB 4 .any (some (.raw, d)) a b n)
def execAtomXchgB32 (d a b : BitVec 6) (n : BitVec 3) (s : State) : Host.Outcome State Fault Refusal :=
  .next (s.atom .xchg 4 .any (some (.raw, d)) a b n)
def execAtomCasB32 (d a b : BitVec 6) (n : BitVec 3) (s : State) : Host.Outcome State Fault Refusal :=
  .next (s.atom .cas 4 .any (some (.raw, d)) a b n)
def execAtomAddF32 (d a b : BitVec 6) (n : BitVec 3) (s : State) : Host.Outcome State Fault Refusal :=
  .next (s.atom .addF32 4 (.exactly .f32) (some (.f32, d)) a b n)
def execAtomAddI64 (d a b : BitVec 6) (n : BitVec 3) (s : State) : Host.Outcome State Fault Refusal :=
  .next (s.atom .addI64 8 .int64 (some (.i64, d)) a b n)
def execAtomMaxN64 (d a b : BitVec 6) (n : BitVec 3) (s : State) : Host.Outcome State Fault Refusal :=
  .next (s.atom .maxN64 8 .int64 (some (.n64, d)) a b n)
def execAtomXchgB64 (d a b : BitVec 6) (n : BitVec 3) (s : State) : Host.Outcome State Fault Refusal :=
  .next (s.atom .xchg 8 .any (some (.raw, d)) a b n)
def execAtomCasB64 (d a b : BitVec 6) (n : BitVec 3) (s : State) : Host.Outcome State Fault Refusal :=
  .next (s.atom .cas 8 .any (some (.raw, d)) a b n)
def execRedAddI32 (a b : BitVec 6) (n : BitVec 3) (s : State) : Host.Outcome State Fault Refusal :=
  .next (s.atom .addI32 4 aI none a b n)
def execRedMinI32 (a b : BitVec 6) (n : BitVec 3) (s : State) : Host.Outcome State Fault Refusal :=
  .next (s.atom .minI32 4 aI none a b n)
def execRedMaxI32 (a b : BitVec 6) (n : BitVec 3) (s : State) : Host.Outcome State Fault Refusal :=
  .next (s.atom .maxI32 4 aI none a b n)
def execRedMinN32 (a b : BitVec 6) (n : BitVec 3) (s : State) : Host.Outcome State Fault Refusal :=
  .next (s.atom .minN32 4 aI none a b n)
def execRedMaxN32 (a b : BitVec 6) (n : BitVec 3) (s : State) : Host.Outcome State Fault Refusal :=
  .next (s.atom .maxN32 4 aI none a b n)
def execRedAndB32 (a b : BitVec 6) (n : BitVec 3) (s : State) : Host.Outcome State Fault Refusal :=
  .next (s.atom .andB 4 .any none a b n)
def execRedOrB32 (a b : BitVec 6) (n : BitVec 3) (s : State) : Host.Outcome State Fault Refusal :=
  .next (s.atom .orB 4 .any none a b n)
def execRedXorB32 (a b : BitVec 6) (n : BitVec 3) (s : State) : Host.Outcome State Fault Refusal :=
  .next (s.atom .xorB 4 .any none a b n)
def execRedAddF32 (a b : BitVec 6) (n : BitVec 3) (s : State) : Host.Outcome State Fault Refusal :=
  .next (s.atom .addF32 4 (.exactly .f32) none a b n)
def execRedAddI64 (a b : BitVec 6) (n : BitVec 3) (s : State) : Host.Outcome State Fault Refusal :=
  .next (s.atom .addI64 8 .int64 none a b n)

end Sys2Proof.Machine
end

