-- ==== Sys2Proof/Machine/Message.lean ====
section
/-! DEFINITION. Mailboxes: MSEND, MRECV, MPROBE, MCANCEL and the mailbox phaser (R287 to R291). -/

namespace Sys2Proof.Machine

/-! ## The mailbox (R287) -/

/-- sys.mbox: ring capacity in messages, and the ring's window offset. -/
def ringCap (m : Word) : Nat := (m.extractLsb' 20 12).toNat
def ringOff (m : Word) : Nat := 16 * (m.extractLsb' 4 16).toNat

/-- A message as a ring entry's 128 bits. -/
def Message.toNat (m : Message) : Nat := m.payload.toNat * 2 ^ 64 + m.tag.toNat * 2 ^ 32 + m.src.toNat

def Message.ofNat (x : Nat) : Message :=
  { src := BitVec.ofNat 16 x, tag := BitVec.ofNat 32 (x / 2 ^ 32), payload := BitVec.ofNat 64 (x / 2 ^ 64) }

/-- The window offset of the ring's entry `i`, counted from the oldest: the first message goes to slot 0, the next ones to the slots
after it, modulo CAP, and those behind a message that is taken out of the middle move up (R287, log 175). -/
def Block.ringAt (b : Block) (i : Nat) : Nat := ringOff b.regs.mbox + 16 * ((b.mail.ringHead + i) % ringCap b.regs.mbox)

def State.updMail (s : State) (bid : Nat) (f : Mailbox → Mailbox) : State := s.updBlock bid fun b => { b with mail := f b.mail }

/-- One of two values of a field: free only where they differ. -/
def State.either {α : Type} [DecidableEq α] (s : State) (x y : α) : α × State :=
  if x = y then (x, s)
  else
    let (k, s) := s.choose 2
    (if k = 1 then y else x, s)

/-- A ring entry as an operation reads it: each field is what the core wrote or what a program has stored since (R287). -/
def State.ringEntry (s : State) (b : Block) (i : Nat) (m : Message) : Message × State :=
  let stored := Message.ofNat (leNat (s.readScr b.core (b.scr (b.ringAt i)) 16))
  let (src, s) := s.either m.src stored.src
  let (tag, s) := s.either m.tag stored.tag
  let (payload, s) := s.either m.payload stored.payload
  ({ src := src, tag := tag, payload := payload }, s)

/-- All messages of a mailbox in arrival order, as an operation reads them. -/
def State.messages (s : State) (b : Block) : List Message × State :=
  ((List.range b.mail.ring.length).zip b.mail.ring).foldl (fun (p : List Message × State) x =>
    let (m, s) := p.2.ringEntry b x.1 x.2
    (p.1 ++ [m], s)) (b.mail.held, s)

/-- Put these messages into the ring, oldest first, from read position `head` on; entries whose bytes already hold the message
are not written again. -/
def State.writeRing (s : State) (b : Block) (head : Nat) (ms : List Message) : State :=
  let b' := { b with mail := { b.mail with ringHead := head } }
  let s := ((List.range ms.length).zip ms).foldl (fun (s : State) x =>
    let at_ := b.scr (b'.ringAt x.1)
    if Message.ofNat (leNat (s.readScr b.core at_ 16)) = x.2 then s
    else s.writeScr b.core at_ (leBytes 16 x.2.toNat)) s
  s.updMail b.bid fun m => { m with ringHead := head, ring := ms }

/-- The mailbox holds these messages: the first 64 on the core, the others in the ring; the ring's oldest messages have taken
the places that became free on the core. -/
def State.setMessages (s : State) (b : Block) (ms : List Message) : State :=
  let rest := ms.drop 64
  let cap := ringCap b.regs.mbox
  let moved := b.mail.ring.length - rest.length
  let s := s.updMail b.bid fun m => { m with held := ms.take 64 }
  if cap = 0 then s else s.writeRing b ((b.mail.ringHead + moved) % cap) rest

/-- The target acknowledges the append of a message (R289). -/
def State.append (s : State) (b : Block) (m : Message) : State :=
  let s :=
    if b.mail.held.length < 64 ∧ b.mail.ring = [] then s.updMail b.bid fun x => { x with held := x.held ++ [m] }
    else
      let s := s.writeScr b.core (b.scr (b.ringAt b.mail.ring.length)) (leBytes 16 m.toNat)
      s.updMail b.bid fun x => { x with ring := x.ring ++ [m] }
  s.updMail b.bid fun x => { x with due := x.due + 1 }

/-- A message matches (R288). -/
def Message.matchesTag (m : Message) (tag mask : Word) : Bool := (m.tag ^^^ tag) &&& mask == 0

/-- The oldest matching message with its place. -/
def oldestMatch (ms : List Message) (tag mask : Word) : Option (Nat × Message) :=
  ((List.range ms.length).zip ms).find? fun p => p.2.matchesTag tag mask

/-- The group of four that MRECV and MPROBE write for a message (R290). -/
def messageWrites (d : BitVec 6) (m : Message) : List Write :=
  [wV d m.payload.lo .raw, wV (d + 1) m.payload.hi .raw, wV (d + 2) m.tag .n32, wV (d + 3) (m.src.zeroExtend 32) .n32]

/-- What MPROBE writes where nothing matches (R291). -/
def noMessageWrites (d : BitVec 6) : List Write :=
  [wV d 0 .n32, wV (d + 1) 0 .n32, wV (d + 2) 0 .n32, wV (d + 3) 0xFFFFFFFF .n32]

/-! ## MSEND (R289) -/

/-- MSEND: the checks, the release at clu scope, the append. -/
def execMsend (d a b : BitVec 6) (n : BitVec 3) (s : State) : Host.Outcome State Fault Refusal :=
  .next (s.runGroup
    { n := n, srcs := [vSrc a 0 aI, vSrc b 1 .any] ++ vSrcs d 2 3 .any, bad := groupBad [(d.toNat, 2)], who := .thread } noFixed
    fun s ag vs =>
    let name := (valAt vs 0).extractLsb' 0 16
    let info := name.zeroExtend 32
    match s.blockOf ag with
    | none => s
    | some own =>
      let (tb, s) := s.named ag true (valAt vs 0) info 0
      match tb with
      | none => s
      | some tb =>
        if !s.releaseReady ag .clu then s
        else if tb.mail.held.length + tb.mail.ring.length ≥ 64 + ringCap tb.regs.mbox then s.trap ag .msgOverflow info 0
        else
          let s := s.drainRelease ag .clu
          let m : Message := { src := BitVec.ofNat 16 own.core, tag := valAt vs 1, payload := pairAt vs 2 }
          match s.block? tb.bid with
          | some tb => (s.append tb m).advance ag n
          | none => s)

/-! ## MRECV, MPROBE, MCANCEL (R290, R291) -/

/-- Remove the message at a place of the mailbox. -/
def State.removeMessage (s : State) (b : Block) (ms : List Message) (i : Nat) : State := s.setMessages b (ms.eraseIdx i)

/-- MRECV: the oldest match is removed and returned; without a match the thread waits for the mailbox phaser. -/
def execMrecv (d a b : BitVec 6) (n : BitVec 3) (s : State) : Host.Outcome State Fault Refusal :=
  .next (s.runGroup
    { n := n, srcs := [vSrc a 0 .any, vSrc b 1 .any], dsts := (vGroup d 4).map Reg.v, bad := groupBad [(d.toNat, 4)],
      who := .thread } noFixed fun s ag vs =>
    match s.blockOf ag with
    | none => s
    | some own =>
      let (ms, s) := s.messages own
      match oldestMatch ms (valAt vs 0) (valAt vs 1) with
      | some (i, m) => (s.removeMessage own ms i).retireVar ag n (messageWrites d m)
      | none => s.blockAgent ag n (.mrecv (valAt vs 0) (valAt vs 1) d))

/-- MPROBE writes the group for the oldest match and leaves it. -/
def execMprobe (d a b : BitVec 6) (n : BitVec 3) (s : State) : Host.Outcome State Fault Refusal :=
  .next (s.runGroup
    { n := n, srcs := [vSrc a 0 .any, vSrc b 1 .any], dsts := (vGroup d 4).map Reg.v, bad := groupBad [(d.toNat, 4)],
      who := .thread } noFixed fun s ag vs =>
    match s.blockOf ag with
    | none => s
    | some own =>
      let (ms, s) := s.messages own
      match oldestMatch ms (valAt vs 0) (valAt vs 1) with
      | some (_, m) => s.retireVar ag n (messageWrites d m)
      | none => s.retireVar ag n (noMessageWrites d))

/-- MCANCEL removes every match and writes their number. -/
def execMcancel (d a b : BitVec 6) (n : BitVec 3) (s : State) : Host.Outcome State Fault Refusal :=
  .next (s.runGroup { n := n, srcs := [vSrc a 0 .any, vSrc b 1 .any], dsts := [.v d], who := .thread } noFixed fun s ag vs =>
    match s.blockOf ag with
    | none => s
    | some own =>
      let (ms, s) := s.messages own
      let keep := ms.filter fun m => !m.matchesTag (valAt vs 0) (valAt vs 1)
      let s := if keep.length = ms.length then s else s.setMessages own keep
      s.retireVar ag n [wV d (BitVec.ofNat 32 (ms.length - keep.length)) .n32])

/-! ## The mailbox phaser (R290) -/

/-- A blocked MRECV retries. -/
def State.retryMrecv (s : State) (bid tid : Nat) : State :=
  match s.block? bid, s.waitOf (.thread bid tid) with
  | some own, some (.mrecv tag mask d) =>
    let (ms, s) := s.messages own
    match oldestMatch ms tag mask with
    | some (i, m) =>
      (s.removeMessage own ms i).completeWait (.thread bid tid) ((messageWrites d m).map fun w => (w.reg, ⟨w.val, w.tag⟩))
    | none => s
  | _, _ => s

/-- MAILBOX_APPEND: an append completes a phase of the block's mailbox phaser, and the woken MRECVs retry in ascending thread
order (R288, R290). -/
def execMailboxAppend (bid : Nat) (s : State) : Host.Outcome State Fault Refusal :=
  .next (match s.block? bid with
    | none => s
    | some b =>
      if b.mail.due = 0 ∨ b.halted then s
      else
        let s := s.updMail bid fun m => { m with due := m.due - 1, phase := m.phase + 1 }
        (List.range b.threads.length).foldl (fun (s : State) tid => s.retryMrecv bid tid) s)

end Sys2Proof.Machine
end

