-- ==== Sys2Proof/Machine/Xlate.lean ====
section
/-! DEFINITION. Translation as programs see it: XINV, XFENCE, XSYNC, XPROBE (R305 to R311), walks and ADs on their own (R301,
R304), the migrate command (R323 to R326). -/

namespace Sys2Proof.Machine

/-! ## What an XINV covers (R310) -/

/-- The pages of an entry meet the bytes lo to hi of the 57-bit space. -/
def TlbEntry.meets (e : TlbEntry) (lo hi : Nat) : Bool :=
  decide (e.vpn * pageBytes e.level ≤ hi) && decide (lo < (e.vpn + 1) * pageBytes e.level)

/-- The entry is tagged with an ASID, or is a G leaf. -/
def TlbEntry.ofAsid (e : TlbEntry) (a : BitVec 16) : Bool := e.asid == some a || (e.leaf && e.asid == none)

def XinvForm.covers (x : XinvForm) (e : TlbEntry) : Bool :=
  match x with
  | .page va a => canonical va.toNat && e.ofAsid a && e.meets (va.toNat % 2 ^ 57) (va.toNat % 2 ^ 57)
  | .range va a n =>
    let lo := va.toNat % 2 ^ 57 / 4096 * 4096
    canonical va.toNat && e.ofAsid a && e.meets lo (lo + n * 4096 - 1)
  | .asid a => e.asid == some a
  | .all => true

/-- A core, or the front end, holds a TLB within a scope of another core (R6, R306, R347). -/
def inScope (sc : Scope) (own core : Nat) : Bool :=
  match sc with
  | .blk => core == own
  | .clu => core / 256 == own / 256
  | .dom => domOf core == domOf own
  | .waf => true
  | .sys => true

/-- The leaves that the commands of a core's bobbins have translated their pages through. -/
def State.heldPages (s : State) (core : Nat) : List TlbEntry :=
  (s.core core).bobbins.toList.flatMap fun x => (x.copyQ ++ x.matrixQ).flatMap fun c => c.pages.map (·.2)

/-! ## XINV, XFENCE (R305, R306) -/

/-- An XINV is issued; it is performed at each TLB by XINV_TLB_PERFORM. -/
def State.issueXinv (s : State) (ag : Agent) (form : XinvForm) (sc : Scope) : State :=
  { s with
    nextId := s.nextId + 1
    xinvs := s.xinvs ++ [{ id := s.nextId, agent := ag, form := form, scope := sc, done := [] }] }

/-- The four XINV words: `form` gives what is covered, or ILLEGAL reason 7 (none). -/
def State.xinv (s : State) (srcs : List Src) (bad : Option Nat) (e n : BitVec 3) (form : List VReg → Option XinvForm) : State :=
  s.runUniform { n := n, srcs := srcs, bad := worse bad (scopeBad e), who := .thread, priv := true } noFixed fun s ag vs =>
    match form vs, scopeOf e with
    | some f, some sc => (s.issueXinv ag f sc).advance ag n
    | _, _ => s.illegal ag 7

/-- An ASID operand: [31:16] are zero. -/
def asidOf (w : Word) : Option (BitVec 16) := if w.extractLsb' 16 16 = 0 then some (w.extractLsb' 0 16) else none

def execXinvPage (a b : BitVec 4) (e n : BitVec 3) (s : State) : Host.Outcome State Fault Refusal :=
  .next (s.xinv (sSrcs a 2 ++ [sSrc b]) (groupBad [(a.toNat, 2)]) e n fun vs =>
    (asidOf (valAt vs 2)).map fun i => .page (pairAt vs 0) i)

def execXinvRange (a b : BitVec 4) (e n : BitVec 3) (s : State) : Host.Outcome State Fault Refusal :=
  .next (s.xinv (sSrcs a 2 ++ sSrcs b 2) (groupBad [(a.toNat, 2), (b.toNat, 2)]) e n fun vs =>
    let pages := (valAt vs 3).toNat
    if pages = 0 ∨ pages > 2 ^ 20 then none else (asidOf (valAt vs 2)).map fun i => .range (pairAt vs 0) i pages)

def execXinvAsid (b : BitVec 4) (e n : BitVec 3) (s : State) : Host.Outcome State Fault Refusal :=
  .next (s.xinv [sSrc b] none e n fun vs => (asidOf (valAt vs 0)).map .asid)

def execXinvAll (e n : BitVec 3) (s : State) : Host.Outcome State Fault Refusal :=
  .next (s.xinv [] none e n fun _ => some .all)

/-- XINV_TLB_PERFORM: the XINV of this number is performed at one TLB (R306): covered entries leave it, and commands under way
translate their pages again. One that leaves its domain is held as a request is (R398). -/
def execXinvTlbPerform (id core : Nat) (s : State) : Host.Outcome State Fault Refusal :=
  .next (match s.xinvs.find? fun x => x.id == id with
    | none => s
    | some x =>
      if !inScope x.scope (s.coreOf x.agent) core || (x.done.any fun d => d.1 == core) ||
          s.wayHeld (domOf (s.coreOf x.agent)) id (some (domOf core)) then s
      else
        let keep := fun c : Command => { c with pages := c.pages.filter (fun p => !x.form.covers p.2) }
        let s := s.updCore core fun c =>
          { c with
            tlb := c.tlb.filter (fun e => !x.form.covers e)
            bobbins := c.bobbins.map (fun (b : Bobbin) => { b with copyQ := b.copyQ.map keep, matrixQ := b.matrixQ.map keep }) }
        { s with xinvs := s.xinvs.map fun y => if y.id = id then { y with done := (core, s.nextId) :: y.done } else y })

/-- XFENCE: every earlier store of the thread is globally performed, or host-performed. -/
def execXfence (n : BitVec 3) (s : State) : Host.Outcome State Fault Refusal :=
  .next (s.runUniform { n := n, who := .thread } noFixed fun s ag _ =>
    if s.releaseFree ag .sys then (s.drainRelease ag .sys).advance ag n else s)

/-! ## XSYNC (R307, R308) -/

/-- An XINV is performed at a core: it is not in its scope, it has answered, or it holds no entry that the XINV covers. -/
def State.xinvDoneAt (s : State) (x : Xinv) (c : Nat × CoreState) : Bool :=
  !inScope x.scope (s.coreOf x.agent) c.1 || (x.done.any fun d => d.1 == c.1) ||
    !(c.2.tlb.any x.form.covers || (s.heldPages c.1).any x.form.covers)

/-- An XINV is performed at its scope: at every TLB there that holds an entry it covers. -/
def State.xinvDone (s : State) (x : Xinv) : Bool := s.cores.all (s.xinvDoneAt x)

/-- An outstanding access was translated through an entry that the XINV removes. -/
def State.xinvHolds (s : State) (x : Xinv) (a : Access) : Bool :=
  match a.via with
  | some e => x.form.covers e && inScope x.scope (s.coreOf x.agent) a.core &&
      !(x.done.any fun d => d.1 == a.core && decide (a.id ≥ d.2))
  | none => false

/-- Every access translated through an entry that the XINV removed has been performed. -/
def State.xinvSettled (s : State) (x : Xinv) : Bool := s.accs.all fun a => !s.xinvHolds x a

/-- What an XSYNC makes complete itself: the earlier loads of its thread, as FENCE.ACQ at waf (R307), and its accepted atomics,
wherever they go (R282). -/
def syncs (ag : Agent) (a : Access) : Bool := acquires ag .waf a || a.agent == ag && a.isAtomic

/-- The conditions of R307 for the XINVs of an agent, and nothing holds what its XSYNC makes complete. -/
def State.xsyncReady (s : State) (ag : Agent) : Bool :=
  ((s.xinvs.filter fun x => x.agent == ag).all fun x => s.xinvDone x && s.xinvSettled x) && s.forceable (syncs ag)

/-- XSYNC completes: the XINVs of the agent are retired. -/
def State.xsyncDone (s : State) (ag : Agent) : State :=
  ({ s with xinvs := s.xinvs.filter fun x => x.agent != ag } : State).force (syncs ag)

/-- XSYNC completes at once where the conditions hold, as an acquire at waf; else the thread waits on its sync phaser. -/
def execXsync (n : BitVec 3) (s : State) : Host.Outcome State Fault Refusal :=
  .next (s.runUniform { n := n, who := .thread } noFixed fun s ag _ =>
    if s.xsyncReady ag then (s.xsyncDone ag).advance ag n else s.blockAgent ag n .xsync)

/-- XSYNC_COMPLETE: the conditions hold for a blocked XSYNC. -/
def execXsyncComplete (bid tid : Nat) (s : State) : Host.Outcome State Fault Refusal :=
  .next (
    let ag := Agent.thread bid tid
    match s.waitOf ag with
    | some .xsync => if s.xsyncReady ag then (s.xsyncDone ag).completeWait ag [] else s
    | _ => s)

/-! ## XPROBE (R311) -/

/-- An access kind operand. -/
def probeKind (w : Word) : Option AccKind :=
  match w.toNat with
  | 0 => some .read
  | 1 => some .write
  | 2 => some .execute
  | _ => none

/-- The result for a leaf at a level: its bits with the level in [2:1]. -/
def probeLeaf (status level : Nat) (e : DWord) : DWord :=
  BitVec.ofNat 64 (status * 2 ^ 62 + e.toNat % 2 ^ 62 / 8 * 8 + level * 2 + e.toNat % 2)

def probeNone (status level : Nat) : DWord := BitVec.ofNat 64 (status * 2 ^ 62 + level)

def probeResult (r : XRes) : DWord :=
  match r with
  | .leaf e => probeLeaf 0 e.level e.entry
  | .fault x l e => if x = xPerm then probeLeaf 2 l e else if x = xNotValid then probeNone 1 l else probeNone 3 l
  | .hole l => probeNone 3 l
  | .poison => 0
  | .waits => 0

def execXprobe (d a b : BitVec 4) (n : BitVec 3) (s : State) : Host.Outcome State Fault Refusal :=
  .next (s.runUniform
    { n := n, srcs := sSrcs a 2 ++ [sSrc b], dsts := (sGroup d 2).map Reg.s,
      bad := groupBad [(d.toNat, 2), (a.toNat, 2)], who := .thread } noFixed fun s ag vs =>
    match probeKind (valAt vs 2) with
    | none => s.illegal ag 7
    | some kind =>
      let va := pairAt vs 0
      if !canonical va.toNat then
        s.retireVar ag n [wS d (probeNone 1 7).lo, wS (d + 1) (probeNone 1 7).hi]
      else match s.lookup (s.spaceOf ag) kind false va.toNat with
        | (.poison, s) => s
        | (.waits, s) => s
        | (r, s) => s.retireVar ag n [wS d (probeResult r).lo, wS (d + 1) (probeResult r).hi])

/-! ## Walks and ADs on their own -/

/-- PAGE_WALK: the walker walks a canonical address of a resident context without an access (R301): the TLB takes the valid
entries; no AD, no fault, but a poisoned granule ends the context (R405). `kind` is a permission of the leaf. -/
def execPageWalk (bid va kind : Nat) (s : State) : Host.Outcome State Fault Refusal :=
  .next (match s.block? bid with
    | none => s
    | some b =>
      if !canonical va then s
      else
        let (es, r) := s.walk (b.space true) (accKindOf kind) va
        match r with
        | .poison => ((s.tlbFill b.core es).walkEnds (b.space true) .poison).2
        | .waits => s
        | _ => s.tlbFill b.core es)

/-- AD_UPDATE: the AD of an agent's access through a held leaf that needs one (R304), made before the access. -/
def execAdUpdate (ag : Agent) (va kind : Nat) (s : State) : Host.Outcome State Fault Refusal :=
  .next (
    let sp := s.spaceOf ag
    let k := accKindOf kind
    match (s.core sp.core).tlb.find? fun e => e.leaf && e.covers sp.asid va && pteAllows e.entry k sp.priv && needsAD e.entry k with
    | none => s
    | some e => match s.adHeld sp e with
      | some r => (s.walkEnds sp r).2
      | none => match s.adUpdate e k with
        | (true, s) =>
          let e' := { e with entry := e.entry ||| adBits k }
          s.updCore sp.core fun c => { c with tlb := c.tlb.map (fun x => if x = e then e' else x) }
        | (false, s) => s.updCore sp.core fun c => { c with tlb := c.tlb.filter (fun x => x != e) })

/-! ## Migration (R323 to R326) -/

/-- The frame lies in the DRAM map or in the domain scratch windows of this wafer. -/
def State.migrTarget (s : State) (pa : Nat) : Bool :=
  s.inDram pa || (pa / 2 ^ 52 == s.wafer.id && pa % 2 ^ 52 / 2 ^ 45 == 127 && !bitOf pa 37 && decide (bitsOf pa 38 7 < 84))

/-- The reasons of R324. -/
def State.migrReasons (s : State) (va leaf : DWord) (sb fl : Word) : List Nat :=
  let level := (sb.extractLsb' 0 2).toNat
  (if sb.extractLsb' 2 30 ≠ 0 then [2] else []) ++ flagReasons false false false fl ++
    (if level < 2 ∧ va.toNat % pageBytes level ≠ 0 then [4] else []) ++
    (if level ≥ 2 || !leaf.getLsbD 0 || !leaf.getLsbD 8 || leaf.getLsbD 11 || leaf.extractLsb' 62 2 != 0 ||
        leaf.extractLsb' 1 2 != 0 || pteFrame leaf % pageBytes level != 0 || !s.migrTarget (pteFrame leaf) then [5] else []) ++
    (if canonical va.toNat then [] else [8])

def execCpyMigr (d a b : BitVec 4) (x : BitVec 1) (g n : BitVec 3) (s : State) : Host.Outcome State Fault Refusal :=
  .next (s.runUniform { cpyOp false true d a b x g n with priv := true } noFixed fun s ag vs => match ag, s.blockOf ag with
    | .bobbin core k, some blk =>
      if s.queueFull core k false then s
      else
        let w := cpyWords false true vs
        s.postCopy ag n x g blk w [] (s.migrReasons (pair w.sa w.sa1) (pair w.sd w.sd1) w.sb w.fl) (Command.blank .cpyMigr)
    | _, _ => s)

/-- The leaf that a walk of an address meets, whatever it permits and whether or not its frame has storage: its address, its
level and its entry. -/
def State.leafAt (s : State) (va : Nat) : Nat → Nat → Option (Nat × Nat × DWord)
  | level, tbl =>
    let addr := tbl + 8 * bitsOf va (12 + 9 * level) 9
    let e := s.readPhys64 addr
    if (s.pteFault e level).isSome then none
    else if e.getLsbD 8 then some (addr, level, e)
    else match level with
      | 0 => none
      | l + 1 => s.leafAt va l (pteFrame e)

/-- LEVEL of a migrate command and the bytes of its page. -/
def Command.migrLevel (c : Command) : Nat := (c.ctl[0].extractLsb' 0 2).toNat
def Command.migrBytes (c : Command) : Nat := pageBytes c.migrLevel

/-- MIGR_START: the walk and its checks, then the freeze (R325 steps 1 and 2). -/
def execMigrStart (core b id : Nat) (s : State) : Host.Outcome State Fault Refusal :=
  .next (
    let e : Eng := ⟨core, b, false, id⟩
    let s := s.discardDropped e
    match s.engCommand e with
    | none => s
    | some c =>
      if !s.mayMove e || c.op != .cpyMigr || c.migr != .waiting then s
      else match s.engBegin e false c.scope with
      | none => s
      | some s =>
        let sp := s.spaceOf e.agent
        let va := c.src.toNat
        let stop := fun cause => s.engStopped e (.stop cause c.src)
        match s.walk sp .read va with
        | (_, .poison) => s.payloadError (BitVec.ofNat 32 sp.ctxid)
        | (_, .waits) => s
        | _ =>
          match (if s.rangeDram sp.root 4096 then s.leafAt va 4 sp.root else none) with
          | none => stop .xlateFault
          | some (addr, level, leaf) =>
            if level ≠ c.migrLevel ∨ leaf.getLsbD 11 = true then stop .migrSize
            else if !s.rangeStored sp.ctxid false false (pteFrame leaf) c.migrBytes then stop .memHole
            else if !s.rangeStored sp.ctxid false false (pteFrame c.dst) c.migrBytes then stop .memHole
            else
              let s := s.updEng e fun c => { c with started := true, migr := .frozen, oldLeaf := leaf, leafAt := addr }
              { s with frozen := s.frozen ++ [(pteFrame leaf, c.migrBytes, id)] })

/-- The frames that a command holds frozen are free again. -/
def State.unfreeze (s : State) (id : Nat) : State := { s with frozen := s.frozen.filter fun f => f.2.2 != id }

/-- Outstanding accesses to a frame. -/
def State.accessesOf (s : State) (frame bytes : Nat) : List Access :=
  sortBy (·.id) (s.accs.filter fun a => s.locInFrame a.loc a.width frame bytes)

/-- The accesses that had reached the frame before the freeze, a free choice among those the orders allow, are performed. -/
def State.drainFrame (s : State) (id frame bytes : Nat) : State :=
  let held := s.frozen
  let s := (s.accessesOf frame bytes).foldl (fun (s : State) a =>
    let (k, s) := s.choose 2
    if k = 1 then s.perform a.id else s) (s.unfreeze id)
  { s with frozen := held }

/-- A frame is copied into another, line by line (R325). -/
def State.copyFrame (s : State) (src dst bytes : Nat) : State :=
  (List.range (bytes / 128)).foldl (fun (s : State) i =>
    (s.cacheStore none (.phys (dst + 128 * i))).storePhys (dst + 128 * i) (s.readPhys (src + 128 * i) 128)) s

/-- MIGR_DRAIN_DONE: earlier accesses are drained, the acquire is made, the frame is copied, the leaf is swung (R325 steps 3 to 5,
R326). -/
def execMigrDrainDone (core b id : Nat) (s : State) : Host.Outcome State Fault Refusal :=
  .next (
    let e : Eng := ⟨core, b, false, id⟩
    match s.engCommand e with
    | none => s
    | some c =>
      if c.op ≠ .cpyMigr ∨ c.migr ≠ .frozen then s
      else
        let frame := pteFrame c.oldLeaf
        let s := s.drainFrame id frame c.migrBytes
        let s := if flagAcq c.flags then s.acquireSys e.agent c.scope else s
        let ctxid := (s.spaceOf e.agent).ctxid
        if s.poisoned frame c.migrBytes || s.poisoned c.leafAt 8 then (s.unfreeze id).payloadError (BitVec.ofNat 32 ctxid)
        else
          let s := s.copyFrame frame (pteFrame c.dst) c.migrBytes
          let cur := s.readPhys64 c.leafAt
          let ad := pteA ||| pteD
          if cur &&& ~~~ad = c.oldLeaf &&& ~~~ad then
            let s := (s.cacheStore none (.phys c.leafAt)).storePhys c.leafAt (leBytes 8 (c.dst ||| (cur &&& ad)).toNat)
            let asid := (s.spaceOf e.agent).asid
            (s.updEng e fun c => { c with migr := .swung }).issueXinv e.agent (.page c.src asid) .waf
          else (s.unfreeze id).engStopped e (.stop .migrRace c.src))

/-- Waiting accesses that were translated through the swung leaf are returned to their agents (R325 step 7). -/
def State.returnSwung (s : State) (c : Command) (held : List Access) : State :=
  held.foldl (fun (s : State) a =>
    if (a.via.map (·.addr)) = some c.leafAt then
      ({ s with accs := s.accs.map fun x => if x.id = a.id then { x with again := .due } else x } : State).returnAccess a
    else s) s

/-- The invalidation of a migration is complete (R325 step 6): performed at every TLB, and every access through what it removed has
been, but those that wait at the frame. -/
def State.migrInvalidated (s : State) (e : Eng) (c : Command) : Bool :=
  (s.xinvs.filter fun x => x.agent == e.agent).all fun x =>
    s.xinvDone x && s.accs.all fun a =>
      !s.xinvHolds x a || s.locInFrame a.loc a.width (pteFrame c.oldLeaf) c.migrBytes

/-- MIGR_INVALIDATE_DONE: the invalidation is complete; the frame is unfrozen, the waiting accesses go on,
then the release and the credit (R325 steps 6 to 8). -/
def execMigrInvalidateDone (core b id : Nat) (s : State) : Host.Outcome State Fault Refusal :=
  .next (
    let e : Eng := ⟨core, b, false, id⟩
    match s.engCommand e with
    | none => s
    | some c =>
      let finish := fun (s : State) => s.engFinish e (flagRel c.flags) c.scope 0
      if c.op ≠ .cpyMigr then s
      else if c.migr = .invalidated then (if c.moved then s else finish s)
      else if c.migr ≠ .swung ∨ !s.migrInvalidated e c then s
      else
        let held := s.accessesOf (pteFrame c.oldLeaf) c.migrBytes
        let s := s.unfreeze id
        let s : State := { s with xinvs := s.xinvs.filter fun x => x.agent != e.agent }
        let s := s.returnSwung c held
        let s := s.updEng e fun c => { c with migr := .invalidated, progress := c.migrBytes, landed := c.migrBytes }
        finish s)

end Sys2Proof.Machine
end

