-- ==== Sys2Proof/Machine/System.lean ====
section
/-! DEFINITION. The fetch of a word (R99), traps by instruction and the return from one (R331), the system registers (R332,
R333), event counters and MARK (R336, R55), breakpoints (R335), LAUNCH (R344), DCFG (R345). -/

namespace Sys2Proof.Machine

/-! ## Fetch -/

/-- The loaded kernel of an agent's context whose code range holds its PC (R357). -/
def State.kernelOf (s : State) (ag : Agent) : Option Kernel :=
  match s.blockOf ag with
  | none => none
  | some b =>
    let pc := (s.ctx ag).pc.toNat
    s.kernels.find? fun k => k.ctxid == b.regs.ctxid && decide (k.base.toNat ≤ pc) && decide (pc < k.base.toNat + 4 * k.words)

/-- The bytes of the word fetched at a location: in a loaded kernel's code one of the values the word has held since the load, by a
free choice (R357, log 130). -/
def State.codeBytes (s : State) (ag : Agent) (l : Loc) : List Byte × State :=
  match s.mmioAt l with
  | some (d, off) => (s.mmioRead d off 4, s)
  | none =>
    let s := s.rdmaRead l 4
    let now := s.readFor (s.bidOf ag) l 4
    match s.kernelOf ag with
    | none => (now, s)
    | some k => s.pick now (now :: ((s.versions k.since (s.locKeys l 4)).map (·.2)).filter (fun x => x != now)).eraseDups

/-- The word at an agent's PC, or what its fetch meets: a trap with the target's address, a parked agent (R99, R312). -/
def State.fetch (s : State) (ag : Agent) : Option Word × State :=
  match s.admitted ag .execute (s.ctx ag).pc 4 with
  | (none, s) => (none, s)
  | (some (loc, _, _), s) =>
    if s.requestHeld (s.coreOf ag) loc 4 then (none, s)
    else if s.locPoisoned loc 4 then
      (none, s.payloadError (match s.blockOf ag with
        | some b => b.regs.ctxid
        | none => 0))
    else
      let (bs, s) := s.codeBytes ag loc
      (some (BitVec.ofNat 32 (leNat bs)), s)

/-- FETCH_FAULT: the fetch of each agent of the step faults before any word exists; trap.word is 0. -/
def execFetchFault (s : State) : Host.Outcome State Fault Refusal :=
  .next (
    let s : State := { s with issue := { s.issue with word := 0 } }
    s.issue.agents.foldl (fun (s : State) ag => (s.fetch ag).2) s)

/-! ## Event counters (R336) -/

/-- Counters that count event `ev` advance by `k`. -/
def State.countEvent (s : State) (core ev k : Nat) : State :=
  s.updCore core fun c => { c with counters := c.counters.map (fun (x : Counter) =>
    if (x.cfg.extractLsb' 0 4).toNat = ev then { x with count := x.count + BitVec.ofNat 32 k } else x) }

/-- Uniform instructions that the issuing group executes: one where one frame stands for all its members, else one for each
member, as in expanded mode (R336, R90). -/
def State.uniformCount (s : State) : Nat :=
  let ms := s.issueThreads
  if !ms.isEmpty && s.oneFrame ms && !(ms.any fun m => s.expanded s.issue.core m) then 1 else s.issue.agents.length

/-- MARK: its reserved fields are ignored; the counters see imm16. -/
def execMark (_x : BitVec 1) (_y : BitVec 4) (i : BitVec 16) (n : BitVec 3) (s : State) : Host.Outcome State Fault Refusal :=
  .next (
    let k := s.uniformCount
    let s := s.countEvent s.issue.core 7 k
    let s := s.updCore s.issue.core fun c => { c with counters := c.counters.map (fun (x : Counter) =>
      if (x.cfg.extractLsb' 0 4).toNat = 8 ∧ x.cfg.extractLsb' 8 16 = i then { x with count := x.count + BitVec.ofNat 32 k }
      else x) }
    s.runHint n fun s _ => s)

/-- CTRRD: a counter, or half of the domain's cycle count. -/
def State.ctrRegister (s : State) (core i : Nat) : Word :=
  let cyc : DWord := BitVec.ofNat 64 (s.dom (domOf core)).cycles
  if i = 4 then cyc.lo else if i = 5 then cyc.hi
  else match (s.core core).counters.toList[i]? with
    | some x => x.count
    | none => 0

def execCtrrd (d i : BitVec 4) (n : BitVec 3) (s : State) : Host.Outcome State Fault Refusal :=
  .next (s.runUniform { n := n, dsts := [.s d], bad := if i.toNat ≥ 6 then some 7 else none } noFixed fun s ag _ =>
    s.retireVar ag n [wS d (s.ctrRegister (s.coreOf ag) i.toNat)] latVar)

/-! ## TRAP, SYSCALL, BKPT, ERET (R331) -/

def execTrap (i : BitVec 16) (n : BitVec 3) (s : State) : Host.Outcome State Fault Refusal :=
  .next (s.runUniform { n := n, who := .thread } noFixed fun s ag _ => s.trap ag .trap (i.zeroExtend 32) 0)

def execSyscall (i : BitVec 16) (n : BitVec 3) (s : State) : Host.Outcome State Fault Refusal :=
  .next (s.runUniform { n := n, who := .thread } noFixed fun s ag _ => s.trap ag .syscall (i.zeroExtend 32) 0)

/-- BKPT: BREAK in a thread; a bobbin stops with cause BREAK (R189). -/
def execBkpt (c : BitVec 5) (n : BitVec 3) (s : State) : Host.Outcome State Fault Refusal :=
  .next (s.runUniform { n := n } noFixed fun s ag _ => s.trap ag .break_ (c.zeroExtend 32) 0)

/-- A thread stops at a safe point for the pending save (R155, R331, R337). -/
def State.stopSafe (s : State) (bid tid : Nat) (safe : Word) (live : Option Nat) : State :=
  s.stopThread bid tid (.stopped safe live)

/-- ERET: outside a handler ILLEGAL with reason 7; else the return, which is a safe point for a pending save. -/
def execEret (skip : BitVec 1) (n : BitVec 3) (s : State) : Host.Outcome State Fault Refusal :=
  .next (s.runUniform { n := n, who := .thread, priv := true } noFixed fun s ag _ =>
    if !inhOf (s.ctx ag).tstate then s.illegal ag 7
    else match ag with
      | .thread bid tid =>
        let s' := s.eret bid tid (skip == 1) (s.issue.now + 1 + n.toNat)
        if s.saveDue ag then s'.stopSafe bid tid 0xFFFFFFFE none else s'
      | .bobbin .. => s).diverge

/-! ## System registers (R332, R333) -/

/-- sys.prio. -/
def Block.prio (b : Block) : Word := BitVec.ofNat 32 (b.regs.grid % 8 * 16 + b.eff % 8)

/-- Registers 10 to 27, 36, 37 and 46 to 49: those of the block. -/
def Block.sysReg (b : Block) (i : Nat) : Word :=
  match i with
  | 10 => b.regs.scratchBase | 11 => b.regs.scratchSize
  | 12 => b.regs.lmtBase.lo | 13 => b.regs.lmtBase.hi | 14 => b.regs.lmtCount
  | 15 => b.regs.ttBase.lo | 16 => b.regs.ttBase.hi | 17 => b.regs.ttCount
  | 18 => b.regs.mbox
  | 19 => b.regs.cbind[0] | 20 => b.regs.cbind[1] | 21 => b.regs.cbind[2] | 22 => b.regs.cbind[3]
  | 23 => b.regs.ptroot.lo | 24 => b.regs.ptroot.hi | 25 => b.regs.asid
  | 26 => b.regs.tvec.lo | 27 => b.regs.tvec.hi
  | 36 => b.regs.ctxid | 37 => b.prio
  | 46 => b.regs.bp0.lo | 47 => b.regs.bp0.hi | 48 => b.regs.bp1.lo | 49 => b.regs.bp1.hi
  | _ => 0

/-- Registers 28 to 35: the trap registers of a thread. -/
def TrapRegs.sysReg (t : TrapRegs) (i : Nat) : Word :=
  match i with
  | 28 => t.cause | 29 => t.word | 30 => t.pc.lo | 31 => t.pc.hi
  | 32 => t.info | 33 => t.addr.lo | 34 => t.addr.hi | _ => t.tstate

/-- A system register as an agent reads it. A bobbin has no trap registers: what it reads there is free. -/
def State.sysReg (s : State) (ag : Agent) (i : Nat) : Word × State :=
  let core := s.coreOf ag
  if i < 9 then (s.usr ag i, s)
  else if i = 9 then ((s.ctx ag).tstate, s)
  else if 28 ≤ i ∧ i < 36 then match ag with
    | .thread bid tid => match s.thread? bid tid with
      | some t => (t.trap.sysReg i, s)
      | none => (0, s)
    | .bobbin .. =>
      let (k, s) := s.choose (2 ^ 32)
      (BitVec.ofNat 32 k, s)
  else if 38 ≤ i ∧ i < 46 then (s.fidRegister core (i - 38), s)
  else if 50 ≤ i then (match (s.core core).counters.toList[i - 50]? with
      | some x => x.cfg
      | none => 0, s)
  else match s.blockOf ag with
    | some b => (b.sysReg i, s)
    | none => (0, s)

/-- SYSRD. -/
def execSysrd (d : BitVec 4) (i : BitVec 16) (n : BitVec 3) (s : State) : Host.Outcome State Fault Refusal :=
  .next (s.runUniform { n := n, dsts := [.s d], bad := if i.toNat ≥ 54 then some 7 else none } noFixed fun s ag _ =>
    let (x, s) := s.sysReg ag i.toNat
    s.retireVar ag n [wS d x] latVar)

/-- A SYSWR of these registers is privileged: those marked P. -/
def sysPriv (i : Nat) : Bool := (decide (23 ≤ i) && decide (i ≤ 35)) || (decide (38 ≤ i) && decide (i ≤ 53))

/-- A 64-bit register written by its .lo word: the held .hi, or its own. -/
def loWrite (old : DWord) (held : Option Word) (lo : Word) : DWord := pair lo (held.getD old.hi)

def ptrootMask : DWord := 0x3FFFFFFFFFFFF000
def vectorMask : DWord := 0xFFFFFFFFFFFFFFFD

/-- A write of a block-scope register; read-only ones ignore it. -/
def BlockRegs.write (r : BlockRegs) (i : Nat) (x : Word) : BlockRegs :=
  match i with
  | 23 => { r with ptroot := loWrite r.ptroot r.ptrootHi x &&& ptrootMask, ptrootHi := none }
  | 24 => { r with ptrootHi := some x }
  | 25 => { r with asid := x &&& 0xFFFF }
  | 26 => { r with tvec := loWrite r.tvec r.tvecHi x &&& vectorMask, tvecHi := none }
  | 27 => { r with tvecHi := some x }
  | 46 => { r with bp0 := loWrite r.bp0 r.bp0Hi x &&& vectorMask, bp0Hi := none }
  | 47 => { r with bp0Hi := some x }
  | 48 => { r with bp1 := loWrite r.bp1 r.bp1Hi x &&& vectorMask, bp1Hi := none }
  | 49 => { r with bp1Hi := some x }
  | _ => r

/-- A write of a per-thread register: sys.tstate keeps INH and PRIV. -/
def Thread.writeSys (t : Thread) (i : Nat) (x : Word) : Thread :=
  match i with
  | 9 =>
    let w := tstateWord (inhOf t.ctx.tstate) (Machine.privOf t.ctx.tstate) (nreadOf x) (stallchkOf x)
    { t with ctx := { t.ctx with tstate := w } }
  | 28 => { t with trap := { t.trap with cause := x &&& 0xFF } }
  | 29 => { t with trap := { t.trap with word := x } }
  | 30 => { t with trap := { t.trap with pc := loWrite t.trap.pc t.pcHi x }, pcHi := none }
  | 31 => { t with pcHi := some x }
  | 32 => { t with trap := { t.trap with info := x } }
  | 33 => { t with trap := { t.trap with addr := loWrite t.trap.addr t.addrHi x }, addrHi := none }
  | 34 => { t with addrHi := some x }
  | 35 => { t with trap := { t.trap with tstate := x &&& 0xF8 } }
  | _ => t

/-- A write of a per-core register: the fidelity counters, and a counter's configuration, which clears its count. -/
def CoreState.writeSys (c : CoreState) (i : Nat) (x : Word) : CoreState :=
  if i = 45 then { c with fidCounts := vecUpd c.fidCounts 6 (fun _ => x) }
  else if 38 ≤ i ∧ i < 44 then { c with fidCounts := vecUpd c.fidCounts (i - 38) (fun _ => x) }
  else if 50 ≤ i ∧ i < 54 then
    { c with counters := vecUpd c.counters (i - 50) (fun _ => { cfg := x &&& 0x00FFFF0F, count := 0 }) }
  else c

/-- A write of a system register by a thread. -/
def State.writeSys (s : State) (bid tid i : Nat) (x : Word) : State :=
  let s := s.updThread bid tid fun t => t.writeSys i x
  let s := s.updBlock bid fun b => { b with regs := b.regs.write i x }
  if 38 ≤ i then s.updCore (s.coreOf (.thread bid tid)) fun c => c.writeSys i x else s

/-- SYSWR: sd is a source; the write takes effect from the thread's next instruction. -/
def execSyswr (d : BitVec 4) (i : BitVec 16) (n : BitVec 3) (s : State) : Host.Outcome State Fault Refusal :=
  .next (s.runUniform
    { n := n, srcs := [sSrc d], bad := if i.toNat ≥ 54 then some 7 else none, who := .thread, priv := sysPriv i.toNat } noFixed
    fun s ag vs => match ag with
      | .thread bid tid => (s.writeSys bid tid i.toNat (valAt vs 0)).advance ag n
      | .bobbin .. => s)

/-! ## Hardware breakpoints (R335) -/

/-- A breakpoint register is enabled and names this address. -/
def bpMatches (bp pc : DWord) : Bool := bp.getLsbD 0 && (bp &&& ~~~(3 : DWord)) == pc

/-- The breakpoint that stops a thread before the word at its PC. -/
def State.breakpoint (s : State) (ag : Agent) : Option Nat :=
  match ag with
  | .thread bid tid => match s.thread? bid tid, s.block? bid with
    | some t, some b =>
      if t.bpSkip then none
      else if bpMatches b.regs.bp0 t.ctx.pc then some 0
      else if bpMatches b.regs.bp1 t.ctx.pc then some 1 else none
    | _, _ => none
  | .bobbin .. => none

/-! ## LAUNCH (R344, R352) -/

/-- The 32 words of a packet. -/
def packetWords (bs : List Byte) : List Word := (List.range 32).map fun j => BitVec.ofNat 32 (leNat ((bs.drop (4 * j)).take 4))

/-- The status LAUNCH gives, and the appended packet. -/
def State.launchStatus (s : State) (q : Nat) : Nat :=
  match s.queue? q with
  | none => 2
  | some x => if x.device.length ≥ 64 then 1 else if !x.dlaunch || x.status != .active then 2 else 0

def execLaunch (d a b : BitVec 4) (n : BitVec 3) (s : State) : Host.Outcome State Fault Refusal :=
  .next (s.runUniform
    { n := n, srcs := sSrcs a 2 ++ [sSrc b], dsts := [.s d], bad := groupBad [(a.toNat, 2)], who := .thread } noFixed
    fun s ag vs =>
    let q := (valAt vs 2).toNat
    if q > 4095 then s.illegal ag 7
    else if !s.releaseReady ag .waf then s
    else match s.admitted ag .read (pairAt vs 0) 128 with
      | (none, s) => s
      | (some (loc, _, _), s) =>
        if s.requestHeld (s.coreOf ag) loc 128 then s
        else if s.locPoisoned loc 128 then
          s.payloadError (match s.blockOf ag with
            | some k => k.regs.ctxid
            | none => 0)
        else
          let (bs, s) := (s.drainRelease ag .waf).relaxedBytes ag loc 128
          let words := packetWords bs
          let st := s.launchStatus q
          let s := if st = 0 then s.updQueue q fun x => { x with device := x.device ++ [words] } else s
          s.retireVar ag n [wS d (BitVec.ofNat 32 st)])

/-! ## DCFG (R345) -/

/-- The first system physical address of a domain's scratch window. -/
def State.domScratchAt (s : State) (d : Nat) : Nat := s.wafer.id * 2 ^ 52 + 127 * 2 ^ 45 + d * 2 ^ 38

/-- The bytes lo to hi − 1 of a domain's scratch window hold nothing. -/
def State.clearDomScratch (s : State) (d lo hi : Nat) : State :=
  let a := s.domScratchAt d
  { s with mem := s.mem.filter fun c => !(decide (a + lo ≤ c.1) && decide (c.1 < a + hi)) }

/-- Entries whose frames meet a physical range leave every TLB and every command (R345). -/
def State.dropFrames (s : State) (a bytes : Nat) : State :=
  let hit := fun e : TlbEntry => e.leaf && rangesMeet (pteFrame e.entry) (pageBytes e.level) a bytes
  let keep := fun c : Command => { c with pages := c.pages.filter (fun p => !hit p.2) }
  { s with cores := s.cores.map fun p => (p.1,
      { p.2 with
        tlb := p.2.tlb.filter (fun e => !hit e)
        bobbins := p.2.bobbins.map (fun (b : Bobbin) => { b with copyQ := b.copyQ.map keep, matrixQ := b.matrixQ.map keep }) }) }

/-- No access to the bytes a shrinking DCFG removes is outstanding. -/
def State.dcfgReady (s : State) (d ways old : Nat) : Bool :=
  s.accs.all fun a => !s.locsMeet a.loc a.width (.phys (s.domScratchAt d + ways * 2 ^ 22)) ((old - ways) * 2 ^ 22)

/-- Another DCFG of the domain is under way. -/
def State.dcfgBusy (s : State) (d : Nat) : Bool :=
  s.blocks.any fun b => b.threads.any fun t => match t.status with
    | .blocked (.dcfg d' _ _ _) => d' == d
    | _ => false

def execDcfg (d a b : BitVec 4) (n : BitVec 3) (s : State) : Host.Outcome State Fault Refusal :=
  .next (s.runUniform { n := n, srcs := [sSrc a, sSrc b], dsts := [.s d], who := .thread, priv := true } noFixed fun s ag vs =>
    let ways := (valAt vs 0).toNat
    let dm := (valAt vs 1).toNat
    if ways > 16 ∨ dm > 83 then s.illegal ag 7
    else if s.dcfgBusy dm then s
    else
      let old := (s.dom dm).sways
      let done := fun s : State => (s.writeComplete ag [(.s d, ⟨BitVec.ofNat 32 old, .raw⟩)]).advance ag n
      let s := (s.updDom dm fun x => { x with sways := ways }).fitL2 dm
      if ways ≥ old then done (s.clearDomScratch dm (old * 2 ^ 22) (ways * 2 ^ 22))
      else
        let s := s.dropFrames (s.domScratchAt dm + ways * 2 ^ 22) ((old - ways) * 2 ^ 22)
        if s.dcfgReady dm ways old then done (s.clearDomScratch dm (ways * 2 ^ 22) (old * 2 ^ 22))
        else s.blockAgent ag n (.dcfg dm ways old d))

/-- DCFG_COMPLETE: the accesses through the removed entries are performed; the bytes are discarded, sd receives the old way
count. -/
def execDcfgComplete (bid tid : Nat) (s : State) : Host.Outcome State Fault Refusal :=
  .next (
    let ag := Agent.thread bid tid
    match s.waitOf ag with
    | some (.dcfg dm ways old sd) =>
      if s.dcfgReady dm ways old then
        (s.clearDomScratch dm (ways * 2 ^ 22) (old * 2 ^ 22)).completeWait ag [(.s sd, ⟨BitVec.ofNat 32 old, .raw⟩)]
      else s
    | _ => s)

end Sys2Proof.Machine
end

