-- ==== Sys2Proof/Machine/Image.lean ====
section
/-! DEFINITION. EXIT and SAFE (R153, R155, R156), pre-emption requests (R337), context images: their layout, writing, parked
arrivals and restoring (R339 to R343, R420). -/

namespace Sys2Proof.Machine

/-! ## EXIT and SAFE -/

/-- EXIT: once none of its registers is pending the thread is exited. -/
def execExit (n : BitVec 3) (s : State) : Host.Outcome State Fault Refusal :=
  .next (s.runGroup { n := n, who := .thread } noFixed fun s ag _ =>
    if (s.ctx ag).pend ≠ [] then s
    else match ag with
      | .thread bid tid =>
        ((s.stopThread bid tid .exited).updThread bid tid fun t => { t with frame := none }).settleBlock bid
      | .bobbin .. => s)

/-- SAFE's index is not below sys.lmt.count: ILLEGAL with reason 7. -/
def safeFixed (i : BitVec 18) : State → Agent → Bool := fun s ag =>
  match s.blockOf ag with
  | some b => decide (i.toNat ≥ b.regs.lmtCount.toNat)
  | none => false

/-- SAFE: with a save pending the thread reads its entry of the live-register mask table and stops; else no effect. -/
def execSafe (i : BitVec 18) (n : BitVec 3) (s : State) : Host.Outcome State Fault Refusal :=
  .next (s.runGroup { n := n, who := .thread } (safeFixed i) fun s ag _ =>
    match ag, s.blockOf ag with
    | .thread bid tid, some b =>
      if b.save.isNone then s.advance ag n
      else match s.admitted ag .read (b.regs.lmtBase + BitVec.ofNat 64 (16 * i.toNat)) 16 with
        | (none, s) => s
        | (some (loc, _, _), s) =>
          if s.requestHeld b.core loc 16 then s
          else if s.locPoisoned loc 16 then s.payloadError b.regs.ctxid
          else
            let (bs, s) := s.relaxedBytes ag loc 16
            s.stopSafe bid tid (i.zeroExtend 32) (some (leNat bs))
    | _, _ => s)

/-! ## The layout of an image (R339, R420) -/

def roundUp (x m : Nat) : Nat := (x + m - 1) / m * m

/-- Offsets of the sections of a block part, as this device chooses them. -/
def Block.thrOff (_b : Block) : Nat := 768
def Block.scrOff (b : Block) : Nat := b.thrOff + 512 * b.regs.blockdim.toNat
def Block.phbOff (b : Block) : Nat := b.scrOff + b.regs.scratchSize.toNat
def Block.tileOff (b : Block) : Nat := b.phbOff + b.regs.scratchSize.toNat / 256
def Block.mbxOff (b : Block) : Nat := b.tileOff + 4672 * b.accn
def Block.engOff (b : Block) : Nat := b.mbxOff + 1024

/-- Bytes of an ENG section of this device. -/
def engSection : Nat := 256

/-- P of R420 for these dimensions, and the unit's image bound B. -/
def partBytes (bdim scratch accn : Nat) : Nat :=
  roundUp (768 + 512 * bdim + scratch + scratch / 256 + 4672 * accn + 1024 + 196608) 4096

def imageBound (qsize bdim scratch accn : Nat) : Nat := 4096 + max 1 qsize * partBytes bdim scratch accn

/-- The number of bytes of a block part, and of an image, of a block's unit. -/
def Block.partSize (b : Block) : Nat := partBytes b.regs.blockdim.toNat b.regs.scratchSize.toNat b.accn
def Block.bound (b : Block) : Nat := imageBound b.regs.qsize.toNat b.regs.blockdim.toNat b.regs.scratchSize.toNat b.accn

/-- The rank of a block in its unit, and where its part begins in an image. -/
def Block.rank (b : Block) : Nat := if b.regs.qsize = 0 then 0 else b.regs.qrank.toNat
def Block.partAt (b : Block) (image : Nat) : Nat := image + 4096 + b.rank * b.partSize

/-- The layout that this device gives the image of a block's unit. -/
def Block.layout (b : Block) : ImageLayout :=
  { boff := 4096, stride := b.partSize, thr := b.thrOff, scr := b.scrOff, phb := b.phbOff, tile := b.tileOff, mbx := b.mbxOff,
    eng := b.engOff, engsz := engSection }

/-- The layout that an image's header gives, from its 256 bytes. -/
def ImageLayout.ofHeader (x : Nat) : ImageLayout :=
  { boff := bitsOf x 96 32, stride := bitsOf x 64 32, thr := bitsOf x 288 32, scr := bitsOf x 256 32, phb := bitsOf x 224 32,
    tile := bitsOf x 192 32, mbx := bitsOf x 160 32, eng := bitsOf x 128 32, engsz := bitsOf x 320 32 }

/-- Where the part of a block of a saved unit begins. -/
def SavedUnit.partAt (u : SavedUnit) (b : Block) : Nat := u.image + u.lay.boff + b.rank * u.lay.stride

/-- The COMMIT word (R339). -/
def commitWord (seq nblk kind state : Nat) : Nat :=
  seq % 2 ^ 32 * 2 ^ 32 + nblk % 256 * 2 ^ 24 + kind * 2 ^ 16 + 2 ^ 8 + state

/-- Words as bytes. -/
def wordBytes (ws : List Word) : List Byte := ws.flatMap fun w => leBytes 4 w.toNat

/-- The header past COMMIT. -/
def imageHeader (b : Block) (self : Nat) (chk : Word) : List Byte :=
  let l := b.layout
  ([l.stride, l.boff, l.eng, l.mbx, l.tile, l.phb, l.scr, l.thr, l.engsz].flatMap (leBytes 4)) ++
    leBytes 4 chk.toNat ++ leBytes 8 b.regs.ctxid.toNat ++ leBytes 8 self ++ List.replicate 192 0

/-- The block-scope registers by index, zero elsewhere: 64 words. -/
def Block.regWords (b : Block) : List Word :=
  (List.range 64).map fun i => if 1 ≤ i ∧ i ≤ 8 then usrOf b 0 i else b.sysReg i

def SignalEntry.bytes (e : SignalEntry) : List Byte :=
  leBytes 16 (e.count % 2 ^ 32 * 2 ^ 64 + e.off % 2 ^ 20 * 2 ^ 32 + e.name % 2 ^ 16)

def Region.imgBytes (g : Region) : List Byte :=
  if g.valid then
    leBytes 32 ((if g.wr then 2 ^ 81 else 0) + 2 ^ 80 + (g.pages - 1) % 256 * 2 ^ 72 + g.page % 256 * 2 ^ 64 + g.base.toNat)
  else List.replicate 32 0

/-- The state byte of a thread record (R340). -/
def TStatus.record : TStatus → Nat
  | .runnable => 0
  | .blocked _ => 1
  | .sleeping _ => 2
  | .parked => 3
  | .stopped _ _ => 0
  | .exited => 4

/-- The SAFE index of a thread record. -/
def TStatus.safeIndex : TStatus → Word
  | .stopped i _ => i
  | _ => 0xFFFFFFFF

/-- The live-register mask that a thread is saved under: all registers but at a SAFE. -/
def TStatus.live : TStatus → Nat
  | .stopped _ (some m) => m
  | _ => 2 ^ 128 - 1

def vLive (m : Nat) (j : Nat) : Bool := bitOf m (64 + j)
def sLive (m : Nat) (j : Nat) : Bool := bitOf m (48 + j)
def kLive (m : Nat) : BitVec 8 := BitVec.ofNat 8 (m / 2 ^ 40)

/-- The writes of a thread record: offset and bytes. Registers outside the mask are not written. -/
def Thread.record (t : Thread) : List (Nat × List Byte) :=
  let m := t.status.live
  let tags := fun j : Nat => if vLive m j then tagCode (t.v.toList.getD j ⟨0, .raw⟩).tag else 0
  ((List.range 64).filter (vLive m)).map (fun j => (4 * j, leBytes 4 (t.v.toList.getD j ⟨0, .raw⟩).val.toNat)) ++
    (List.range 32).map (fun i => (0x100 + i, [BitVec.ofNat 8 (tags (2 * i) + 16 * tags (2 * i + 1))])) ++
    ((List.range 16).filter (sLive m)).map (fun j => (0x120 + 4 * j, leBytes 4 (t.ctx.s.toList.getD j 0).toNat)) ++
    [(0x160, leBytes 8 t.ctx.pc.toNat ++ leBytes 4 t.ctx.tstate.toNat ++ [t.k &&& kLive m, BitVec.ofNat 8 t.status.record, 0, 0] ++
        leBytes 4 t.status.safeIndex.toNat ++ leBytes 4 0 ++
        wordBytes [t.trap.cause, t.trap.word, t.trap.pc.lo, t.trap.pc.hi, t.trap.addr.lo, t.trap.addr.hi, t.trap.info,
          t.trap.tstate] ++ List.replicate 104 0)]

/-- A tile's 4672 bytes. -/
def TileData.imgBytes (t : TileData) : List Byte :=
  wordBytes t.elems ++ t.rs.flatMap (fun x => leBytes 8 x.toNat) ++ t.cs.flatMap (fun x => leBytes 8 x.toNat) ++
    leBytes 8 t.kd.toNat ++ leBytes 56 (tagCode (tileTag t.tag))

/-! ## Requests (R337) -/

/-- A request for a unit: its sleeping threads are woken (R154). -/
def State.requestSave (s : State) (unit : Nat) (dest : SaveDest) : State :=
  let mine := s.blocks.filter fun b => b.unit == unit
  mine.foldl (fun (s : State) b =>
    let s := s.updBlock b.bid fun b => { b with save := some dest }
    ((List.range b.threads.length).zip b.threads).foldl (fun (s : State) p => match p.2.status with
      | .sleeping _ => s.wake b.bid p.1
      | _ => s) s) s

/-- The units with a block in a domain, each with the name of its first core, in ascending order of it (R400). -/
def State.unitsIn (s : State) (d : Nat) : List Nat :=
  let firsts := (s.blocks.filter fun b => domOf b.core == d && !b.halted && b.rank == 0)
  (sortBy (fun b : Block => b.core) firsts).map (·.unit)

/-- The free emergency slot of lowest index, where one can hold an image of `bound` bytes (R401). -/
def State.emergencySlot (s : State) (bound : Nat) : Option Nat :=
  if bound > s.platform.eslot * 4096 then none
  else (List.range s.platform.ecount).find? fun k => !s.platform.saves.any fun e => e.slot == k && !e.freed

/-- An emergency image has reached STATE 3: its slot is free. -/
def State.freeEmergency (s : State) (unit : Nat) : State :=
  { s with platform := { s.platform with saves := s.platform.saves.map fun e => if e.unit = unit then { e with freed := true } else e } }

/-- The device writes the COMMIT word of an image (R339, R341). -/
def State.putCommit (s : State) (image seq nblk state : Nat) : State :=
  s.deviceStore image (leBytes 8 (commitWord seq nblk 1 state))

/-- The sequence number that stands in an image's COMMIT word. -/
def State.commitSeq (s : State) (image : Nat) : Nat := leNat (s.readPhys (image + 4) 4)

/-- A unit for which an emergency has no slot is stopped (R400): the report of R329, with cause code 0 as the completion has, and a
grid that completes with status 2 (log 145). -/
def State.stopUnsaved (s : State) (b : Block) : State :=
  let s := s.fsqAdd (domOf b.core)
    { va := 0, asid := b.regs.asid, core := b.core, agent := .thread b.bid 0, cause := 0, xkind := 15, access := 0, park := false,
      block := b.regs.blockid, info := 0, word := 0 }
  (s.stopGrid b.gridId 0 true).tell (.contextFault b.gridId 0)

/-- A unit's emergency save begins in a slot: its image is incomplete from now on (R341, R403). -/
def State.saveEmergency (s : State) (b : Block) (k : Nat) : State :=
  let p := s.platform
  let image := p.ebase + k * p.eslot * 4096
  let e : EmergencySave := { slot := k, image := image, unit := b.unit, freed := false }
  let nblk := (s.blocks.filter fun x => x.unit == b.unit).length
  (({ s with platform := { p with saves := p.saves ++ [e] } } : State).putCommit image (s.commitSeq image) nblk 0).requestSave b.unit
    (.emergency image)

/-- Requests of a domain's emergency (R400): while fewer than 8 of its units are being saved, the next one is requested into
its slot; a unit without a slot is stopped. -/
def State.emergencyNext (s : State) (d : Nat) : State :=
  if (s.power d).state ≠ 2 then s
  else (s.unitsIn d).foldl (fun (s : State) unit =>
    let under := ((s.blocks.filter fun b => match b.save with
      | some (.emergency _) => domOf b.core == d && b.rank == 0
      | _ => false).length) + (s.saved.filter fun u => u.emergency && !u.committed && u.savedIn == d).length
    match s.blocks.find? fun b => b.unit == unit && !b.halted && b.save.isNone with
    | none => s
    | some b =>
      if under ≥ 8 then s
      else match s.emergencySlot b.bound with
        | none => s.stopUnsaved b
        | some k => s.saveEmergency b k) s

/-- A system physical range that can hold an image: stored throughout, in wafer DRAM or in one host window. -/
def State.imageRange (s : State) (ctxid pa bytes : Nat) : Bool :=
  s.rangeDram pa bytes ||
    (pa / 2 ^ 52 == 1023 && (pa + bytes - 1) / 2 ^ 48 == pa / 2 ^ 48 && s.rangeStored ctxid true true pa bytes)

/-- The blocks that a save has taken from a core and not yet committed, and those being restored there: a CTXSAVE counts them after
the core's resident blocks (log 146). -/
def State.movingOn (s : State) (core : Nat) : List Block :=
  s.saved.flatMap fun u =>
    if u.placed then u.blocks.filter fun b => b.core == core
    else if u.committed then [] else u.blocks.filter fun b => u.names.contains (b.bid, core)

/-- The status of CTXSAVE (R343), and the request where it is 0. `own` is the issuer's unit; `want` the block id it must
have. -/
def State.saveStatus (s : State) (own : Option Nat) (core idx pa : Nat) (want : Option Word) : Nat × State :=
  let here := (s.blocksOn core).filter fun b => !b.halted
  match here[idx]? with
  | none => (if idx < here.length + (s.movingOn core).length then 2 else 1, s)
  | some b =>
    if b.save.isSome then (2, s)
    else if own = some b.unit then (3, s)
    else if !s.imageRange b.regs.ctxid.toNat pa b.bound then (4, s)
    else if want.isSome && want != some b.regs.blockid then (5, s)
    else (0, s.requestSave b.unit (.named pa))

def execCtxsave (d a b : BitVec 4) (n : BitVec 3) (s : State) : Host.Outcome State Fault Refusal :=
  .next (s.runUniform
    { n := n, srcs := sSrcs a 2 ++ [sSrc b, sSrc d], dsts := [.s d], bad := groupBad [(a.toNat, 2)], who := .thread,
      priv := true } noFixed fun s ag vs =>
    let pa := pairAt vs 0
    let x := valAt vs 2
    if pa.extractLsb' 0 12 ≠ 0 ∨ x.extractLsb' 21 11 ≠ 0 then s.illegal ag 7
    else
      let own := (s.blockOf ag).map (·.unit)
      let (st, s) := s.saveStatus own (x.extractLsb' 0 16).toNat (x.extractLsb' 16 5).toNat pa.toNat (some (valAt vs 3))
      s.retireVar ag n [wS d (BitVec.ofNat 32 st)])

/-- HOST_PRE_EMPTION: the host names a block by core and index and the image's address; the status goes back to it. -/
def execHostPreEmption (core idx pa : Nat) (s : State) : Host.Outcome State Fault Refusal :=
  .next (s.hosted (
    if pa % 4096 ≠ 0 then s.tell (.status 1 4 0)
    else
      let (st, s) := s.saveStatus none core idx pa none
      s.tell (.status 1 st 0)))

/-! ## The journal (R364) -/

/-- A journal entry is due. -/
def State.journalAdd (s : State) (pkt queue kind status detail grid info : Nat) : State :=
  let x := pkt % 2 ^ 64 * 2 ^ 192 + s.journal.seq % 2 ^ 32 * 2 ^ 160 + queue % 4096 * 2 ^ 148 + kind * 2 ^ 144 +
    status % 256 * 2 ^ 136 + detail % 256 * 2 ^ 128 + s.feCycles % 2 ^ 64 * 2 ^ 64 + grid % 2 ^ 32 * 2 ^ 32 + info % 2 ^ 32
  { s with journal := { s.journal with seq := s.journal.seq + 1, waiting := s.journal.waiting ++ [leBytes 32 x] } }

/-- JOURNAL_ENTRY_WRITE: the oldest entry is written when the ring has an address and room; the tail advances; the host is
notified. -/
def execJournalEntryWrite (s : State) : Host.Outcome State Fault Refusal :=
  .next (s.live (
    let j := s.journal
    match j.waiting, j.base with
    | e :: rest, some base =>
      if (j.tail + 1) % 4096 = j.head then s
      else
        let s := s.deviceStore (base + 32 * j.tail) e
        let tail := (j.tail + 1) % 4096
        ({ s with journal := { j with tail := tail, waiting := rest } } : State).tell (.journal tail)
    | _, _ => s))

/-- The entries that wait are never written (R413): the journal holds those written before the event. -/
def Journal.cut (j : Journal) : Journal := { j with waiting := [], seq := j.seq - j.waiting.length }

/-- JACK: the host advances the head; an index outside head to tail is ignored. -/
def execJack (head : Nat) (s : State) : Host.Outcome State Fault Refusal :=
  .next (s.hosted (
    let j := s.journal
    if head < 4096 ∧ (head + 4096 - j.head) % 4096 ≤ (j.tail + 4096 - j.head) % 4096 then
      { s with journal := { j with head := head } }
    else s))

/-- JOURNAL_ADDRESS_SET: tail and head become 0. -/
def execJournalAddressSet (pa : Nat) (s : State) : Host.Outcome State Fault Refusal :=
  .next (s.hosted (if pa % 2 ^ 17 = 0 then { s with journal := { s.journal with base := some pa, tail := 0, head := 0 } } else s))

/-- The ring has room for one more entry than those that wait to be written. -/
def State.journalRoom (s : State) : Bool :=
  let j := s.journal
  decide ((j.head + 4095 - j.tail) % 4096 > j.waiting.length)

/-- An action of the front end: one that needs a journal entry waits while the ring is full (R364). -/
def State.withRoom (s t : State) : State := if t.journal.waiting.length > s.journal.waiting.length ∧ !s.journalRoom then s else t

/-- The queue and the packet number of a grid. -/
def State.gridOrigin (s : State) (g : Nat) : Nat × Nat :=
  match s.grid? g with
  | some x => (x.queue, x.packet)
  | none => (0, 0)

/-- The journal entry of a saved or restored unit (R365 kinds 6 to 8). -/
def State.journalUnit (s : State) (u : SavedUnit) (kind : Nat) : State :=
  let (q, pkt) := s.gridOrigin u.gridId
  let name := match u.blocks with
    | b :: _ => b.core
    | [] => 0
  let slot := (u.slot.map (·.2)).getD 0xFFFF
  s.journalAdd pkt q kind 0 0 u.gridId ((if kind = 8 then 0 else slot % 65536 * 65536) + name % 65536)

/-! ## The save (R337, R341) -/

/-- A thread at which the save may be made. -/
def TStatus.savable : TStatus → Bool
  | .runnable => false
  | .blocked (.dcfg ..) => false
  | .blocked _ => true
  | .sleeping _ => false
  | .parked => true
  | .stopped _ _ => true
  | .exited => true

/-- A migration between its freeze and its end (R325). -/
def Command.migrating (c : Command) : Bool := c.op == .cpyMigr && !c.moved && c.migr != .waiting

/-- A copy command at which a save may stop its queue: it has not begun, it is done, it is parked, or it stands at a page boundary
(R207, R316). -/
def Command.savable (c : Command) : Bool := !c.migrating && (!c.started || c.moved || c.parked || c.atPage)

/-- Every agent of a block has stopped (R337, R308): threads at their safe points, no register pending, no XINV under way. -/
def State.blockStopped (s : State) (b : Block) : Bool :=
  b.save.isSome && !b.halted &&
  (b.threads.all fun t => t.status.savable && t.ctx.pend.isEmpty) &&
  ((s.bobbinsOf b).all fun p => p.2.ctx.pend.isEmpty && p.2.copyQ.all Command.savable) &&
  (s.xinvs.all fun x => match x.agent with
    | .thread bid _ => bid != b.bid || (s.xinvDone x && s.xinvSettled x)
    | .bobbin .. => true)

/-- An agent of the fault service queue belongs to one of these blocks. -/
def FaultAgent.ofBlocks (s : State) (bids : List Nat) : FaultAgent → Bool
  | .thread bid _ => bids.contains bid
  | .bobbin core b => bids.contains (s.bobbin core b).bid
  | .copyQueue core b => bids.contains (s.bobbin core b).bid
  | .matrixQueue core b => bids.contains (s.bobbin core b).bid
  | .region bid _ _ => bids.contains bid
  | .channel bid _ => bids.contains bid

/-- A command as a save keeps it: a copy command with its progress (R207), a matrix command not started (R231, R243). -/
def Command.saved (c : Command) (matrix : Bool) : Command :=
  let c := { c with parked := false, pages := [] }
  if matrix && !c.moved then
    { c with started := false, progress := 0, landed := 0, replay := false, inject := false, low := false, exact := [],
             sums := [], grouped := 0 }
  else c

/-- A bobbin as a save keeps it: its waits and faults are met again, its fixed-latency results are complete (R186). -/
def Bobbin.saved (x : Bobbin) : Bobbin :=
  { x with
    ctx := { x.ctx with inflight := [], ready := 0 }
    copyQ := x.copyQ.map (Command.saved · false)
    matrixQ := x.matrixQ.map (Command.saved · true)
    parked := false
    wait := none }

/-- The tiles of a block get back what they held before the command under way (R231). -/
def State.restoreStarted (s : State) (b : Block) : State :=
  (s.bobbinsOf b).foldl (fun (s : State) p => p.2.matrixQ.foldl (fun (s : State) c =>
    let e : Eng := ⟨b.core, p.1, true, c.id⟩
    match c.op with
    | .mma .. => if c.started && !c.moved then s.restoreTiles e c else s
    | _ => s) s) s

/-- `n` free bytes: what the device writes into its own ENG section. -/
def State.freeBytes (s : State) : Nat → List Byte × State
  | 0 => ([], s)
  | n + 1 =>
    let (k, s) := s.choose 256
    let (bs, s) := s.freeBytes n
    (BitVec.ofNat 8 k :: bs, s)

/-- One block's part of an image, but ENG. -/
def State.writePart (s : State) (b : Block) (image : Nat) : State :=
  let at_ := b.partAt image
  let put := fun (s : State) (off : Nat) (bs : List Byte) => s.deviceStore (at_ + off) bs
  let size := b.regs.scratchSize.toNat
  let s := put s 0 (wordBytes b.regWords)
  let s := put s 256 (((b.signals.map SignalEntry.bytes).flatMap fun x => x) ++ List.replicate (16 * (16 - b.signals.length)) 0)
  let s := put s 512 (b.regions.toList.flatMap Region.imgBytes)
  let s := ((List.range b.threads.length).zip b.threads).foldl (fun (s : State) p =>
    p.2.record.foldl (fun (s : State) w => put s (b.thrOff + 512 * p.1 + w.1) w.2) s) s
  let s := put s b.scrOff (s.readScr b.core b.regs.scratchBase.toNat size)
  let bits := (List.range (size / 256)).map fun i => BitVec.ofNat 8
    (((List.range 8).map fun j => if s.phaserBit b.core (b.regs.scratchBase.toNat / 32 + 8 * i + j) then 2 ^ j else 0).sum)
  let s := put s b.phbOff bits
  let s := (List.range b.tiles.length).foldl (fun (s : State) i =>
    put s (b.tileOff + 4672 * i) (s.tile b.core (b.phys i)).cur.imgBytes) s
  let held := b.mail.held.map Message.toNat
  put s b.mbxOff ((held.flatMap (leBytes 16)) ++ List.replicate (16 * (64 - held.length)) 0)

/-- What a save destination names. -/
def SaveDest.addr : SaveDest → Nat
  | .slot _ _ a => a
  | .named a => a
  | .emergency a => a

/-- The save slot of a queue that a destination is. -/
def SaveDest.slot? : SaveDest → Option (Nat × Nat)
  | .slot q k _ => some (q, k)
  | _ => none

/-- The destination is in the emergency area. -/
def SaveDest.isEmergency : SaveDest → Bool
  | .emergency _ => true
  | _ => false

/-- A block leaves its core with a save. -/
def State.saveBlock (s : State) (b : Block) : State :=
  let s := (s.bobbinsOf b).foldl (fun (s : State) p => s.updBobbin b.core p.1 fun _ => Bobbin.zero) s
  s.leaveCore b

/-- A block as a save keeps it. -/
def Block.asSaved (b : Block) : Block :=
  { b with
    save := none
    threads := b.threads.map (fun (t : Thread) => { t with
      ctx := { t.ctx with inflight := [], ready := 0 }
      frame := none })
    regions := b.regions.map (fun (g : Region) => { g with lines := g.lines.map (fun (l : RegionLine) => { l with faulted := false }) }) }

/-- An access that is performed before a block is saved: one that reaches its window, or one of its own agents', but a thread's
that waits for the response to a fault. -/
def State.beforeSave (s : State) (b : Block) (a : Access) : Bool :=
  s.inWindow b a || (s.bidOf a.agent == b.bid && match a.agent with
    | .thread .. => a.again != .faulted
    | .bobbin .. => true)

/-- What is under way in the blocks of a unit comes to its end before the save: tiles go back to the command under way, faults of
stopped agents are withdrawn (R231, R316), the faulted accesses are made again, XINVs are done. -/
def State.settleSave (s : State) (mine : List Block) : State :=
  let bids := mine.map (·.bid)
  let s := mine.foldl State.restoreStarted s
  let s := ((mine.map fun b => domOf b.core).eraseDups).foldl (fun (s : State) d => s.fsqWithdraw d (FaultAgent.ofBlocks s bids)) s
  let ours : Agent → Bool := fun ag => match ag with
    | .thread bid _ => bids.contains bid
    | .bobbin .. => false
  { s with
    accs := s.accs.map fun a => if ours a.agent && a.again == .faulted then { a with again := .due } else a
    xinvs := s.xinvs.filter fun x => !ours x.agent }

/-- The names that resolve to a block: those of earlier residences, and its core's unless that is one of another block of its unit
(R342, R375). -/
def State.namesOf (s : State) (b : Block) : List Nat :=
  let mine := s.street.filter fun e => e.unit == b.unit && e.state == 1
  ((mine.filter fun e => e.cur == b.core).map (·.name)) ++ (if mine.any fun e => e.name == b.core then [] else [b.core])

/-- The unit as its image will hold it, its ENG sections with these bytes. -/
def State.savedUnit (s : State) (unit : Nat) (first : Block) (mine : List Block) (dest : SaveDest) (eng : List Byte) : SavedUnit :=
  { unit := unit, gridId := first.gridId, image := dest.addr, lay := first.layout, savedIn := domOf first.core, home := none
    resuming := false, slot := dest.slot?, emergency := dest.isEmergency
    blocks := mine.map Block.asSaved
    names := mine.map fun b => (b.bid, b.core)
    aliases := mine.flatMap fun b => s.namesOf b |>.map fun n => (n, b.bid)
    bobbins := mine.flatMap fun b => (s.bobbinsOf b).map fun p => (b.bid, p.1, p.2.saved)
    tiles := mine.map fun b => (b.bid, (List.range b.tiles.length).map fun i => s.tile b.core (b.phys i))
    eng := eng, committed := false, seq := s.commitSeq dest.addr + 1, placed := false }

/-- The bytes of an image but its last COMMIT, in the order of R341. -/
def State.writeImage (s : State) (u : SavedUnit) (first : Block) (mine : List Block) : State :=
  let s := s.putCommit u.image (s.commitSeq u.image) mine.length 0
  let s := mine.foldl (fun (s : State) b => s.writePart b u.image) s
  let s := ((List.range mine.length).zip mine).foldl (fun (s : State) p =>
    s.deviceStore (p.2.partAt u.image + p.2.engOff) ((u.eng.drop (engSection * p.1)).take engSection)) s
  s.deviceStore (u.image + 8) (imageHeader first u.image (Config.engCheck u.eng))

/-- SAVE_IMAGE_WRITE: every block of the unit has stopped; the image is written with STATE 0, the names become parked, the
blocks leave their cores (R341, R342). It waits where a selvedge on the way to the image is CUT (R379). -/
def execSaveImageWrite (unit : Nat) (s : State) : Host.Outcome State Fault Refusal :=
  .next (s.live (
    let mine := s.blocks.filter fun b => b.unit == unit
    let before := fun a : Access => mine.any fun b => s.beforeSave b a
    match mine.head?.bind (·.save) with
    | none => s
    | some dest =>
      if !mine.all s.blockStopped || !s.forceable before || mine.any fun b => s.unitCut (domOf b.core) dest.addr then s
      else
        let s := (s.force before).settleSave mine
        let mine := s.blocks.filter fun b => b.unit == unit
        match mine with
        | [] => s
        | first :: _ =>
          let (eng, s) := s.freeBytes (engSection * mine.length)
          let u := s.savedUnit unit first mine dest eng
          let s := mine.foldl State.saveBlock (s.writeImage u first mine)
          ({ s with saved := s.saved ++ [u] } : State).streetChange unit fun e =>
            match mine.find? fun b => b.core == e.cur with
            | some b => { e with state := 3, image := u.image, rank := b.rank }
            | none => e))

/-- The grid has been aborted or stopped. -/
def State.gridStopped (s : State) (g : Nat) : Bool :=
  match s.grid? g with
  | some x => x.aborted || x.cause != 0
  | none => true

/-- IMAGE_COMMIT: COMMIT with STATE 1 and the next SEQ, as a release; the journal entry; a unit saved into a slot or into the
emergency area awaits restore (R341, R370, R400). A unit of a grid aborted meanwhile stops now (R363). -/
def execImageCommit (unit : Nat) (s : State) : Host.Outcome State Fault Refusal :=
  .next (s.live (match s.saved.find? fun u => u.unit == unit with
    | none => s
    | some u =>
      if u.committed || s.unitCut u.savedIn u.image then s
      else s.withRoom (
        let queued := u.slot.isSome || u.emergency
        let u' := { u with committed := true, resuming := queued, home := some u.savedIn }
        let s := s.putCommit u.image u.seq u.blocks.length 1
        let s : State := { s with saved := s.saved.map fun x => if x.unit = unit then u' else x }
        let s := if s.gridStopped u.gridId then s.dropSaved fun x => x.unit == unit else s
        (s.journalUnit u (if u.emergency then 8 else 6)).emergencyNext u.savedIn)))

/-! ## Reading an image back -/

/-- A thread with every register 0 and tag raw. -/
def Thread.blank : Thread :=
  { ctx := Ctx.zero, v := Vector.replicate 64 ⟨0, .raw⟩, k := 0, trap := { cause := 0, word := 0, pc := 0, info := 0, addr := 0, tstate := 0 }
    status := .runnable, bpSkip := false, frame := none, pcHi := none, addrHi := none }

/-- A region that is not mapped. -/
def Region.none : Region :=
  { valid := false, base := 0, page := 0, pages := 0, wr := false, lines := [], lost := false, wants := [], hostSeen := [] }

/-- A mailbox with nothing in it. -/
def Mailbox.empty : Mailbox := { held := [], ringHead := 0, ring := [], due := 0, phase := 0 }

/-- Block-scope registers that are all 0. -/
def BlockRegs.zero : BlockRegs :=
  { blockid := 0, blockdim := 0, gridblocks := 0, qrank := 0, qsize := 0, argbase := 0, scratchBase := 0, scratchSize := 0, lmtBase := 0
    lmtCount := 0, ttBase := 0, ttCount := 0, mbox := 0, cbind := Vector.replicate 4 0, ptroot := 0, asid := 0, tvec := 0, ctxid := 0
    grid := 0, bp0 := 0, bp1 := 0, ptrootHi := Option.none, tvecHi := Option.none, bp0Hi := Option.none, bp1Hi := Option.none }

/-- A block's registers from the words of its part. -/
def BlockRegs.ofWords (r : BlockRegs) (w : Nat → Word) : BlockRegs :=
  { r with
    blockid := w 1, blockdim := w 2, gridblocks := w 3, qrank := w 4, qsize := w 5, argbase := pair (w 7) (w 8)
    scratchSize := w 11, lmtBase := pair (w 12) (w 13), lmtCount := w 14, ttBase := pair (w 15) (w 16), ttCount := w 17
    mbox := w 18, cbind := #v[w 19, w 20, w 21, w 22], ptroot := pair (w 23) (w 24) &&& ptrootMask, asid := w 25 &&& 0xFFFF
    tvec := pair (w 26) (w 27) &&& vectorMask, ctxid := w 36, bp0 := pair (w 46) (w 47) &&& vectorMask
    bp1 := pair (w 48) (w 49) &&& vectorMask }

def SignalEntry.ofNat (x : Nat) : SignalEntry :=
  { name := bitsOf x 0 16, off := bitsOf x 32 20, count := bitsOf x 64 32 }

/-- A region from its 32 bytes; its line states come from the ENG section. -/
def Region.ofNat (g : Region) (x : Nat) : Region :=
  { g with valid := bitOf x 80, wr := bitOf x 81, pages := bitsOf x 72 8 + 1, page := bitsOf x 64 8, base := BitVec.ofNat 64 x,
           lines := if bitOf x 80 then g.lines else [] }

/-- A thread from its record; registers outside its mask are 0 with tag raw (R340). `old` is what ENG holds of it. -/
def Thread.ofRecord (old : Thread) (now : Nat) (rd : Nat → Nat → Nat) : Thread :=
  let m := old.status.live
  let word := fun off : Nat => BitVec.ofNat 32 (rd off 4)
  let status : TStatus := match rd 0x16D 1 with
    | 1 => match old.status with
      | .blocked (.rdzv b sd w) => .blocked (.rdzv b sd w)
      | _ => .runnable
    | 2 => .sleeping (now + rd 0x174 4)
    | 4 => .exited
    | _ => .runnable
  { old with
    ctx := { pc := wordAddr (BitVec.ofNat 64 (rd 0x160 8))
             s := Vector.ofFn fun i : Fin 16 => if sLive m i.val then word (0x120 + 4 * i.val) else 0
             tstate := word 0x168 &&& 0xF8, ready := 0, inflight := [], pend := [] }
    v := Vector.ofFn fun i : Fin 64 =>
      if vLive m i.val then ⟨word (4 * i.val), tagOfCode (rd (0x100 + i.val / 2) 1 / 16 ^ (i.val % 2))⟩ else ⟨0, .raw⟩
    k := BitVec.ofNat 8 (rd 0x16C 1) &&& kLive m
    trap := { cause := word 0x178, word := word 0x17C, pc := BitVec.ofNat 64 (rd 0x180 8), addr := BitVec.ofNat 64 (rd 0x188 8)
              info := word 0x190, tstate := word 0x194 }
    status := status
    frame := none }

/-- A tile from its 4672 bytes. -/
def TileData.ofImage (rd : Nat → Nat → Nat) : TileData :=
  { elems := (List.range 1024).map fun i => BitVec.ofNat 32 (rd (4 * i) 4)
    tag := match rd 4616 1 % 16 with
      | 1 => .i32
      | 3 => .f32
      | 6 => .i64
      | _ => .raw
    rs := (List.range 32).map fun i => BitVec.ofNat 64 (rd (4096 + 8 * i) 8)
    cs := (List.range 32).map fun i => BitVec.ofNat 64 (rd (4352 + 8 * i) 8)
    kd := BitVec.ofNat 64 (rd 4608 8) }

/-- The little-endian value at a system physical address. -/
def State.physNat (s : State) (pa n : Nat) : Nat := leNat (s.readPhys pa n)

/-- A block as its image and ENG give it, on the core chosen for it. -/
def State.blockFromImage (s : State) (u : SavedUnit) (b : Block) : Block :=
  let at_ := u.partAt b
  let now := (s.dom (domOf b.core)).cycles
  let regs := b.regs.ofWords fun i => BitVec.ofNat 32 (s.physNat (at_ + 4 * i) 4)
  let signals := ((List.range 16).map (fun j => SignalEntry.ofNat (s.physNat (at_ + 256 + 16 * j) 16))).filter (fun e => e.count != 0)
  let regions := Vector.ofFn (fun (r : Fin 8) => (b.regions[r.val]).ofNat (s.physNat (at_ + 512 + 32 * r.val) 32))
  let held := (List.range b.mail.held.length).map (fun j => Message.ofNat (s.physNat (at_ + u.lay.mbx + 16 * j) 16))
  let mail := { b.mail with held := held }
  let threads := ((List.range b.threads.length).zip b.threads).map (fun p =>
    p.2.ofRecord now (fun off n => s.physNat (at_ + u.lay.thr + 512 * p.1 + off) n))
  { b with regs := regs, signals := signals, regions := regions, mail := mail, threads := threads }

/-! ## Parked arrivals (R342, R257) -/

/-- The saved unit that holds a block, with the block. -/
def State.savedBlock (s : State) (bid : Nat) : Option (SavedUnit × Block) :=
  s.saved.findSome? fun u => (u.blocks.find? fun b => b.bid == bid).map fun b => (u, b)

/-- The image address of a window byte of a saved block. -/
def SavedUnit.scratchAt (u : SavedUnit) (b : Block) (off : Nat) : Nat := u.partAt b + u.lay.scr + off

/-- The phaser bit of a granule in an image. -/
def State.imagePhaserBit (s : State) (u : SavedUnit) (b : Block) (granule : Nat) : Bool :=
  bitOf (s.physNat (u.partAt b + u.lay.phb + granule / 8) 1) (granule % 8)

/-- A credited phaser of a saved block counts a discarded command out (R266, R342). -/
def State.uncountSaved (s : State) (phs : List (Nat × Nat × Nat)) : State :=
  phs.foldl (fun (s : State) x => match s.savedBlock x.1 with
    | none => s
    | some (u, b) =>
      if s.imagePhaserBit u b (x.2.1 / 32) then
        let p := Phaser.ofNat (s.physNat (u.scratchAt b x.2.1) 32)
        s.deviceStore (u.scratchAt b x.2.1) (leBytes 32 { p with nout := p.nout - 1 }.toNat)
      else s) s

/-- A command of a saved bobbin stops (R206, R232, R342), as at the core it was saved from: the bytes that it and the later copy
commands have landed are credited (R202). -/
def State.stopSaved (s : State) (id : Nat) (va : DWord) : State :=
  let has := fun (x : Bobbin) (matrix : Bool) => (x.queue matrix).any fun c => c.id == id
  match s.saved.findSome? fun u => (u.bobbins.find? fun p => has p.2.2 false || has p.2.2 true).map fun p => (u, p) with
  | none => s
  | some (u, bid, k, x) =>
    let matrix := has x true
    let core := (u.names.find? fun n => n.1 == bid).elim 0 (·.2)
    let s := s.fsqAdd u.savedIn (queueFault (u.blocks.find? fun b => b.bid == bid) core k matrix Cause.phaserInvalid.code
      (tileIn (x.queue matrix) id) va)
    let gone := (x.queue matrix).dropWhile fun c => c.id != id
    let s := if matrix then s else gone.foldl (fun (s : State) c => s.creditLanded core k matrix c (c.creditIdx c.progress)) s
    let s := s.uncountSaved (gone.flatMap (·.phs))
    { s with saved := s.saved.map fun w => if w.unit = u.unit then
        { w with bobbins := w.bobbins.map fun p => if p.1 = bid ∧ p.2.1 = k then (p.1, p.2.1, p.2.2.cut matrix id) else p } else w }

/-- A credit meets a granule that is no phaser: the command it comes from stops (R206, R232), in its saved image too (R342). -/
def State.creditFails (s : State) (c : Credit) : State :=
  match c.cmd with
  | none => s
  | some k => match s.engOf k with
    | some e => s.stopQueue e.core e.b e.matrix k Cause.phaserInvalid.code (BitVec.ofNat 64 c.off)
    | none => s.stopSaved k (BitVec.ofNat 64 c.off)

/-- PHASER_CREDIT: a credit lands (R202, R266): added to LAND, or dropped for a stale generation; one aimed at a granule that
is no phaser stops its command (R206). A credit for a saved block is performed by PARKED_ARRIVAL, and held while its name switches
(R342); one of a channel for a block that has completed is discarded (R294). -/
def execPhaserCredit (id : Nat) (s : State) : Host.Outcome State Fault Refusal :=
  .next (match s.credits.find? fun c => c.id == id with
    | none => s
    | some c =>
      let gone : State := { s with credits := s.credits.filter (fun x => x.id != id) }
      if s.creditWaits c then s
      else match s.block? c.bid with
        | some b =>
          let abs := b.scr c.off
          -- the router holds what arrives while the domain relocks (R398)
          if (s.power (domOf b.core)).freq = .relocking then s
          else if c.cmd.isNone && s.completed b then gone
          else if s.phaserBit b.core (abs / 32) then
            let p := s.phaser b.core abs
            if p.gen = c.gen then gone.checkPhaser b.core abs (p.credited c) else gone.setPhaser b.core abs (p.credited c)
          else gone.creditFails c
        | none => match s.saved.find? fun u => u.blocks.any fun k => k.bid == c.bid with
          | some u => if u.placed then s.holdCredit c else s
          | none => gone.creditFails c)

/-- A credit's effect on the 256 bits of a phaser in an image: a phase that is ready completes, and wakes nobody. -/
def Phaser.parkedCredit (p : Phaser) (c : Credit) : Phaser :=
  let q := p.credited c
  if p.gen = c.gen ∧ q.ready then q.complete 0 else q

/-- The kiosk that performs the arrivals for a saved unit at an address of its image (R280, R342): wafer, domain and cluster. -/
def State.imageKiosk (s : State) (u : SavedUnit) (a : Nat) : Option (Nat × Nat × Nat) :=
  if Loc.isWindow (.phys a) then some (s.wafer.id, u.savedIn, 0) else s.owningKiosk (.phys a)

/-- PARKED_ARRIVAL: the kiosk performs a credit for a saved block against its image, under the rules of the core (R342): one aimed
at a granule that is no phaser stops its command, a poisoned granule its context (R405). In a host window it is a read and a write
of the window (R280, R385). -/
def execParkedArrival (id : Nat) (s : State) : Host.Outcome State Fault Refusal :=
  .next (s.live (match s.credits.find? fun c => c.id == id with
    | none => s
    | some c => match s.savedBlock c.bid with
      | none => s
      | some (u, b) =>
        if u.placed || s.creditWaits c then s
        else
          let s : State := { s with credits := s.credits.filter (fun x => x.id != id) }
          let a := u.scratchAt b c.off
          if !s.imagePhaserBit u b (c.off / 32) then s.creditFails c
          else if s.poisoned a 32 then s.payloadError b.regs.ctxid
          else
            let p := Phaser.ofNat (s.physNat a 32)
            (s.rdmaRead (.phys a) 32).deviceStore a (leBytes 32 (p.parkedCredit c).toNat)))

/-! ## The restore (R342, R343) -/

/-- The contents of a saved block's window, phaser bits and tiles come back from its image. A tile whose declared format nothing has
kept has that of its tag (R211). -/
def State.loadPart (s : State) (u : SavedUnit) (b : Block) : State :=
  let s := s.rdmaRead (.phys (u.partAt b)) u.lay.stride
  let size := b.regs.scratchSize.toNat
  let base := b.regs.scratchBase.toNat
  let bits := ((List.range (size / 32)).filter fun g => s.imagePhaserBit u b g).map fun g => base / 32 + g
  let s := s.writeScr b.core base (s.readPhys (u.scratchAt b 0) size)
  let s := s.updCore b.core fun c => { c with phasers := bits ++ c.phasers }
  let olds := match u.tiles.find? fun p => p.1 == b.bid with
    | some p => p.2.map Tile.declared
    | none => []
  (List.range b.tiles.length).foldl (fun (s : State) i =>
    let d := TileData.ofImage fun off n => s.physNat (u.partAt b + u.lay.tile + 4672 * i + off) n
    s.updTile b.core (b.phys i) fun _ => { cur := d, shadow := d, declared := olds.getD i d.tag }) s

/-- The threads of a restored block go on. -/
def State.resumeBlock (s : State) (b : Block) : State :=
  ((List.range b.threads.length).zip b.threads).foldl (fun (s : State) p => match p.2.status with
    | .runnable => s.file b.bid p.1
    | .blocked (.rdzv k sd word) => s.rdzvDone (.thread b.bid p.1) k sd word
    | _ => s) s

/-- The core on which a saved unit's block now is. -/
def SavedUnit.coreOf (u : SavedUnit) (bid : Nat) : Option Nat := (u.blocks.find? fun b => b.bid == bid).map (·.core)

/-- The names by which a restored unit is reached, each with its block's core: those it was saved under, and its new cores' unless
they are among them already (R342, R375): a name that is another block's alias stays that (log 174). -/
def SavedUnit.newNames (u : SavedUnit) : List (Nat × Nat) :=
  let old := u.aliases.filterMap fun a => (u.coreOf a.2).map fun k => (a.1, k)
  old ++ ((u.blocks.map (·.core)).filter fun k => !old.any fun o => o.1 == k).map fun k => (k, k)

/-- The street index after a restore: the saved names are aliases of the new ones (R375). -/
def State.reviveNames (s : State) (u : SavedUnit) : State :=
  let s := s.streetChange u.unit fun e =>
    match u.newNames.find? fun n => n.1 == e.name with
    | some n => { e with cur := n.2, state := 1, image := 0, rank := 0 }
    | none => e
  u.newNames.foldl (fun (s : State) n =>
    if s.street.any fun e => e.unit == u.unit && e.name == n.1 then s else s.streetAdd u.unit n.1 n.2 0) s

/-- The names a restored unit takes that the index does not hold yet. -/
def State.newNames (s : State) (u : SavedUnit) : List Nat :=
  (u.newNames.map (·.1)).filter fun k => !s.street.any fun e => e.unit == u.unit && e.name == k

/-- The bytes of an image's blocks are poisoned somewhere (R405). -/
def State.imagePoisoned (s : State) (u : SavedUnit) : Bool :=
  u.blocks.any fun b => s.poisoned (u.partAt b) (u.lay.eng + u.lay.engsz)

/-- RESTORE_COMPLETE: the unit is resident on the cores chosen for it, the names go live, STATE becomes 3, its slot is free; it
waits for room in the street index (R375), and where a selvedge on the way from the image is CUT (R379). In a domain in emergency
the unit is asked to be saved again (R400). -/
def execRestoreComplete (unit : Nat) (s : State) : Host.Outcome State Fault Refusal :=
  .next (s.live (match s.saved.find? fun u => u.unit == unit with
    | none => s
    | some u =>
      if !u.placed || !s.streetRoom unit (s.newNames u) || u.blocks.any fun b => s.unitCut (domOf b.core) u.image then s
      else if s.imagePoisoned u then s.payloadError ((u.blocks.head?.map (·.regs.ctxid)).getD 0)
      else s.withRoom (
        let s := u.blocks.foldl (fun (s : State) b => s.loadPart u b) s
        let blocks := u.blocks.map fun b => s.blockFromImage u b
        let s := s.reviveNames u
        let s : State := { s with blocks := s.blocks ++ blocks, saved := s.saved.filter (fun x => x.unit != unit) }
        let s := u.bobbins.foldl (fun (s : State) p => match blocks.find? fun b => b.bid == p.1 with
          | some b => s.updBobbin b.core p.2.1 fun _ => p.2.2
          | none => s) s
        let s := s.putCommit u.image u.seq u.blocks.length 3
        let s := if u.emergency then s.freeEmergency u.unit else s
        let s := s.journalUnit { u with blocks := blocks } 7
        let s := blocks.foldl State.resumeBlock s
        let s := blocks.foldl (fun (s : State) b => s.settleBlock b.bid) s
        s.emergencyNext (domOf ((blocks.head?.map (·.core)).getD 0)))))

end Sys2Proof.Machine
end

