-- ==== Sys2Proof/Machine/FrontEnd.lean ====
section
/-! DEFINITION. The front end: its accesses in a queue's context (R347), queues (R348, R349), patterns (R353 to R356), packets
and their checks (R350 to R352), seed images (R358, R359), resumes (R343, R361), acceptance (R366), completion and destruction
(R362, R363). -/

namespace Sys2Proof.Machine

/-! ## Accesses of the front end -/

/-- Why an access of the front end is not performed: a frozen frame or an error of its context, or a fault with its address and
the DETAIL of R364. -/
inductive FeStop where
  | waits
  | fault (va : Nat) (detail : Nat)
  deriving DecidableEq, Repr

/-- The front end translates through a queue's ROOT and ASID, as a privileged agent; it belongs to no block. -/
def State.feSpace (s : State) (root : Nat) (asid : BitVec 16) (ctxid : Nat) : Space :=
  { core := frontEnd, bid := s.nextBid, asid := asid, root := root, ctxid := ctxid, priv := true }

def Queue.space (q : Queue) (s : State) : Space := s.feSpace (bitsOf q.root.toNat 12 50 * 4096) q.asid q.ctxid.toNat

/-- The location of a virtual address for the front end. -/
def State.feLoc (s : State) (sp : Space) (kind : AccKind) (va : Nat) : Except FeStop Loc × State :=
  if !canonical va then (.error (.fault va 0x10), s)
  else match s.translate sp kind true va with
    | (.fault x _ _, s) => (.error (.fault va x), s)
    | (.hole _, s) => (.error (.fault va 0x14), s)
    | (.poison, s) => (.error .waits, s)
    | (.waits, s) => (.error .waits, s)
    | (.leaf e, s) => (.ok (e.loc sp.core va), s)

/-- The location of a virtual address that is read and written: a host window must permit both (R348, R385). -/
def State.feBothLoc (s : State) (sp : Space) (va : Nat) : Except FeStop Loc × State :=
  match s.feLoc sp .read va with
  | (.error e, s) => (.error e, s)
  | (.ok _, s) => s.feLoc sp .write va

/-- The bytes at a location, as the front end reads them now: of a host window by an RDMA READ (R385). -/
def State.feBytes (s : State) (l : Loc) (n : Nat) : List Byte × State :=
  match s.mmioAt l with
  | some (d, off) => (s.mmioRead d off n, s)
  | none => (s.readLoc l n, s.rdmaRead l n)

/-- The front end stores bytes at a location: in every replica of a replicated page (R321). -/
def State.feStore (s : State) (l : Loc) (bs : List Byte) : State :=
  match s.mmioAt l with
  | some (d, off) => s.mmioWrite d off bs
  | none => (s.cacheStore none l).storeAt l bs

/-- Read `n` bytes, page by page (`fuel` pages at most). -/
def State.feRead (s : State) (sp : Space) (kind : AccKind) : Nat → Nat → Nat → Except FeStop (List Byte) × State
  | 0, _, _ => (.ok [], s)
  | fuel + 1, va, n =>
    if n = 0 then (.ok [], s)
    else
      let v := va % 2 ^ 64
      let m := min n (4096 - v % 4096)
      match s.feLoc sp kind v with
      | (.error e, s) => (.error e, s)
      | (.ok l, s) =>
        if s.requestHeld sp.core l m then (.error .waits, s)
        else if s.locPoisoned l m then (.error .waits, s.payloadError (BitVec.ofNat 32 sp.ctxid))
        else
          let (bs, s) := s.feBytes l m
          match s.feRead sp kind fuel (v + m) (n - m) with
          | (.ok rest, s) => (.ok (bs ++ rest), s)
          | (.error e, s) => (.error e, s)

/-- Read a range of any length. -/
def State.feRange (s : State) (sp : Space) (va n : Nat) : Except FeStop (List Byte) × State :=
  s.feRead sp .read (n / 4096 + 2) va n

/-- Write within one page. -/
def State.feWrite (s : State) (sp : Space) (va : Nat) (bs : List Byte) : Except FeStop Unit × State :=
  match s.feLoc sp .write va with
  | (.error e, s) => (.error e, s)
  | (.ok l, s) =>
    if s.requestHeld sp.core l bs.length then (.error .waits, s) else (.ok (), s.feStore l bs)

/-! ## Patterns (R353 to R356) -/

def patOp (w : Word) : Nat := (w.extractLsb' 24 8).toNat
def patD (w : Word) : Nat := (w.extractLsb' 20 4).toNat
def patA (w : Word) : Nat := (w.extractLsb' 16 4).toNat
def patImm (w : Word) : Nat := (w.extractLsb' 0 16).toNat

/-- The index a branch of the word at `i` goes to. -/
def patTarget (w : Word) (i : Nat) : Int := i + (w.extractLsb' 0 16).toInt

/-- The load checks of R355 on the word at index `i` of `n`. -/
def patWordOk (n i : Nat) (w : Word) : Bool :=
  let d := patD w
  let a := patA w
  let imm := patImm w
  let branch := decide (0 ≤ patTarget w i) && decide (patTarget w i < n)
  let fields := match patOp w with
    | 0x01 => decide (d < 8) && a == 0 && decide (imm < 32)
    | 0x02 => decide (d < 8) && a == 0
    | 0x03 => decide (d < 8) && a == 0 && decide (imm < 3)
    | 0x04 => decide (d < 8) && decide (a < 8) && imm == 0
    | 0x05 => decide (d < 8) && a == 0
    | 0x06 => decide (d < 8) && decide (a < 8) && imm == 0
    | 0x07 => decide (d < 8) && decide (a < 8) && imm == 0
    | 0x08 => decide (d < 8) && a == 0 && decide (imm < 32)
    | 0x09 => decide (d < 8) && decide (a < 8) && imm == 0
    | 0x10 => decide (d < 8) && a == 0 && (imm == 0 || imm == 12)
    | 0x11 => decide (d < 8) && a == 0 && imm == 0
    | 0x20 => d == 0 && a == 0 && branch
    | 0x21 => decide (d < 8) && decide (a < 8) && branch
    | 0x22 => decide (d < 8) && decide (a < 8) && branch
    | 0x30 => d == 0 && a == 0 && imm == 0
    | 0x31 => d == 0 && a == 0 && decide (imm < 256)
    | 0x32 => d == 0 && a == 0 && imm == 0
    | _ => false
  fields && (decide (i + 1 < n) || [0x20, 0x30, 0x31, 0x32].contains (patOp w))

/-- The index of the first word that fails a load check. -/
def patternBad (ws : List Word) : Option Nat := (List.range ws.length).find? fun i => !patWordOk ws.length i (ws.getD i 0)

/-- A pattern at work: the word to execute next, p0 to p7, the packet's words, c0. -/
structure PatRun where
  pc : Nat
  p : Vector Word 8
  w : List Word
  c0 : Word
  deriving DecidableEq, Repr

inductive PatEnd where
  | accept
  | reject (code : Nat)
  | hold
  | budget
  deriving DecidableEq, Repr

def PatRun.reg (r : PatRun) (i : Nat) : Word := r.p.toList.getD i 0
def PatRun.set (r : PatRun) (i : Nat) (x : Word) : PatRun := { r with p := vecUpd r.p i (fun _ => x), pc := r.pc + 1 }

/-- One word (R354): the end, or the pattern after it. `num` is the packet number, `running` the queue's accepted grids not yet
completed. -/
def PatRun.step (r : PatRun) (x : Word) (num running : Nat) : PatEnd ⊕ PatRun :=
  let d := patD x
  let pd := r.reg d
  let pa := r.reg (patA x)
  let imm := patImm x
  let jump := fun b : Bool => { r with pc := if b then (patTarget x r.pc).toNat else r.pc + 1 }
  match patOp x with
  | 0x01 => .inr (r.set d (r.w.getD imm 0))
  | 0x02 => .inr (r.set d (BitVec.ofNat 32 imm))
  | 0x03 => .inr (r.set d (if imm = 0 then BitVec.ofNat 32 num else if imm = 1 then BitVec.ofNat 32 running else r.c0))
  | 0x04 => .inr (r.set d (pd + pa))
  | 0x05 => .inr (r.set d (pd + (x.extractLsb' 0 16).signExtend 32))
  | 0x06 => .inr (r.set d (pd &&& pa))
  | 0x07 => .inr (r.set d (pd ||| pa))
  | 0x08 => .inr (r.set d (pd >>> imm))
  | 0x09 => .inr (r.set d (minU pd pa))
  | 0x10 => .inr { r with w := updAt (fun _ => pd) imm r.w, pc := r.pc + 1 }
  | 0x11 => .inr { r with c0 := pd, pc := r.pc + 1 }
  | 0x20 => .inr (jump true)
  | 0x21 => .inr (jump (pd == pa))
  | 0x22 => .inr (jump (pd.ult pa))
  | 0x30 => .inl .accept
  | 0x31 => .inl (.reject (imm % 256))
  | _ => .inl .hold

/-- A pattern runs, `fuel` steps at most; a run that has not ended by then is out of budget (R356). -/
def runPattern (pat : List Word) (num running : Nat) : Nat → PatRun → PatEnd × PatRun
  | 0, r => (.budget, r)
  | fuel + 1, r => match pat[r.pc]? with
    | none => (.budget, r)
    | some x => match r.step x num running with
      | .inl e => (e, r)
      | .inr r => runPattern pat num running fuel r

/-! ## Queues (R347 to R349) -/

/-- A queue from its descriptor's 512 bits, active, with a pattern. -/
def Queue.ofDescriptor (num x : Nat) (pat : List Word) : Queue :=
  { num := num, status := .active, ctxid := BitVec.ofNat 32 (bitsOf x 480 32), asid := BitVec.ofNat 16 (bitsOf x 464 16),
    log2n := bitsOf x 460 4, pceil := bitsOf x 457 3, pre := bitOf x 456, dlaunch := bitOf x 455, privok := bitOf x 454,
    dres := bitsOf x 440 8, fres := bitsOf x 432 8, saven := bitsOf x 416 16, slotsz := bitsOf x 384 32,
    savebase := BitVec.ofNat 64 (bitsOf x 320 64), root := BitVec.ofNat 64 (bitsOf x 142 50 * 4096),
    wptr := BitVec.ofNat 64 (bitsOf x 64 64), ring := BitVec.ofNat 64 (bitsOf x 0 64), pattern := pat, c0 := 0, fence := 0,
    fences := [], readIdx := 0, device := [], deviceNext := 0, held := none, again := false, retry := [], taking := none }

/-- The checks of a descriptor that give BAD_DESC (R348). -/
def badDescriptor (x : Nat) : Bool :=
  bitsOf x 448 6 != 0 || bitsOf x 192 55 != 0 || bitsOf x 128 14 != 0 || decide (bitsOf x 460 4 < 4) ||
  decide (bitsOf x 247 9 > 256) || bitsOf x 320 12 != 0 || bitsOf x 256 2 != 0 || bitsOf x 64 4 != 0 || bitsOf x 0 7 != 0

/-- The words of a byte list. -/
def wordsOf (bs : List Byte) (n : Nat) : List Word :=
  (List.range n).map fun j => BitVec.ofNat 32 (leNat ((bs.drop (4 * j)).take 4))

/-- The bandwidth floors of the live queues and these would pass 48 (R348). -/
def State.overbooked (s : State) (dres fres : Nat) : Bool :=
  decide ((s.queues.map (·.dres)).sum + dres > 48) || decide ((s.queues.map (·.fres)).sum + fres > 48)

/-- CREATE: its status and detail, in the order of checks 4, 3, 5, 1, 2. None: it waits. -/
def State.createQueue (s : State) (num x : Nat) : Option (Nat × Nat) × State :=
  if (s.queue? num).isSome then (some (4, 0), s)
  else if badDescriptor x then (some (3, 0), s)
  else
    let q := Queue.ofDescriptor num x []
    let sp := q.space s
    let plen := bitsOf x 247 9
    match s.feRange sp (bitsOf x 256 64) (4 * plen) with
    | (.error .waits, s) => (none, s)
    | (.error (.fault ..), s) => (some (5, 0), s)
    | (.ok bs, s) => match s.feBothLoc sp q.wptr.toNat with
      | (.error .waits, s) => (none, s)
      | (.error (.fault ..), s) => (some (5, 1), s)
      | (.ok l, s) =>
        let pat := wordsOf bs plen
        match patternBad pat with
        | some i => (some (1, i), s)
        | none =>
          if s.overbooked q.dres q.fres then (some (2, 0), s)
          else if s.requestHeld sp.core l 16 then (none, s)
          else
            let s := s.feStore l (leBytes 16 0)
            (some (0, 0), { s with queues := s.queues ++ [{ q with pattern := pat }] })

/-- QUEUE_CREATE: the host names a queue and its descriptor. -/
def execQueueCreate (num desc : Nat) (s : State) : Host.Outcome State Fault Refusal :=
  .next (s.hosted (if num ≥ 4096 then s
    else match s.createQueue num desc with
      | (some (st, detail), s) => s.tell (.status 2 st detail)
      | (none, s) => s))

/-- A queue becomes faulted, with a journal entry of kind 3 (R348, R364). -/
def State.faultQueue (s : State) (num pkt va detail : Nat) : State :=
  (s.updQueue num fun q => { q with status := .faulted }).journalAdd pkt num 3 0 detail 0 va

/-- A write of the front end for a queue (R348): a fault of an active queue's write faults it; RESUME makes the write again. A write
that a frozen frame holds is made again with the queue's next one, and so is one whose fault has no room in the journal (R364). A
draining queue's faulting write is lost. -/
def State.queueWrite (s : State) (num pkt : Nat) (va : DWord) (bs : List Byte) (again : QRetry) : State :=
  match s.queue? num with
  | none => s
  | some q =>
    let keep := fun s : State => s.updQueue num fun q => { q with retry := q.retry ++ [again] }
    match s.feWrite (q.space s) va.toNat bs with
    | (.ok _, s) => s
    | (.error .waits, s) => keep s
    | (.error (.fault v detail), s) =>
      match q.status with
      | .active => if s.journalRoom then (keep s).faultQueue num pkt v detail else keep s
      | .faulted => keep s
      | .draining => s

/-- The read index is written (R349). -/
def State.writeReadIndex (s : State) (num pkt : Nat) : State :=
  match s.queue? num with
  | some q => s.queueWrite num pkt (q.wptr + 8) (leBytes 8 q.readIdx) .readIndex
  | none => s

/-- The writes a queue still owes are made again, in order. -/
def State.redoWrites (s : State) (num : Nat) : State :=
  match s.queue? num with
  | none => s
  | some q => q.retry.foldl (fun (s : State) r => match r with
      | .readIndex => s.writeReadIndex num (q.readIdx - 1)
      | .doneWord va value => s.queueWrite num (value.toNat / 2 ^ 32) va (leBytes 8 value.toNat) (.doneWord va value))
      (s.updQueue num fun q => { q with retry := [] })

/-- The fetch fence: the write index is read as an acquire at sys (R349). -/
def State.fetchFence (s : State) (num : Nat) : State :=
  match s.queue? num with
  | none => s
  | some q =>
    if q.status ≠ .active then s
    else match s.feRange (q.space s) q.wptr.toNat 8 with
      | (.ok bs, t) => t.updQueue num fun q =>
          { q with fence := leNat bs, fences := q.fences.filter (fun f => decide (f.1 > q.readIdx)) ++ [(leNat bs, t.past.length)] }
      | (.error .waits, t) => t
      | (.error (.fault v detail), t) => s.withRoom (t.faultQueue num q.readIdx v detail)

def execDoorbell (num : Nat) (s : State) : Host.Outcome State Fault Refusal := .next (s.hosted (s.fetchFence num))
def execFetchFenceTimer (num : Nat) (s : State) : Host.Outcome State Fault Refusal := .next (s.live (s.fetchFence num))

/-- A held packet's pattern is due again (R356). -/
def State.retryHeld (s : State) (num : Nat) : State := s.updQueue num fun q => { q with again := q.held.isSome }

def execKick (num : Nat) (s : State) : Host.Outcome State Fault Refusal := .next (s.hosted (s.retryHeld num))
def execPatternHoldRetry (num : Nat) (s : State) : Host.Outcome State Fault Refusal := .next (s.live (s.retryHeld num))

/-- QUEUE_RESUME: failed writes are made again; the packet at hand is then read again. -/
def execQueueResume (num : Nat) (s : State) : Host.Outcome State Fault Refusal :=
  .next (s.hosted (match s.queue? num with
    | some q =>
      if q.status = .faulted then
        ((s.updQueue num fun q => { q with status := .active }).redoWrites num).retryHeld num
      else s
    | none => s))

/-- The accepted grids of a queue that have not completed. -/
def State.gridsOf (s : State) (num : Nat) : List Grid := s.grids.filter fun g => g.queue == num

/-- A draining queue with no grid left, and no write that it still owes, is absent (R348). -/
def State.queueGone (s : State) (num : Nat) : State :=
  match s.queue? num with
  | some q =>
    if q.status = .draining ∧ (s.gridsOf num).isEmpty ∧ q.retry.isEmpty then { s with queues := s.queues.filter fun x => x.num != num } else s
  | none => s

/-- The packet that a DESTROY discards: the one that HOLD keeps, or the one that the front end has begun to read (R349, R363). -/
def Queue.atHand (q : Queue) : Option Nat := q.held.or q.taking

/-- DESTROY (R363): the packet at hand is discarded, and the read index passes it; the queue drains; the journal entry of kind 5
counts the grids that ABORT stops. While the ring is full the rest waits (R364). -/
def State.destroyQueue (s : State) (num : Nat) (abort : Bool) : State :=
  match s.queue? num with
  | none => s
  | some q =>
    if q.status = .draining ∨ !s.journalRoom then s
    else
      let s := match q.atHand with
        | some n =>
          let s := s.updQueue num fun q => { q with held := none, taking := none, again := false }
          if n < 2 ^ 63 then (s.updQueue num fun q => { q with readIdx := n + 1 }).writeReadIndex num n else s
        | none => s
      if !s.journalRoom then s
      else
        let gs := s.gridsOf num
        let s := s.updQueue num fun q => { q with status := .draining, device := [] }
        let s := if abort then gs.foldl (fun (s : State) g => s.abortGrid g.id) s else s
        (s.journalAdd 0 num 5 0 0 0 (if abort then gs.length else 0)).queueGone num

def execQueueDestroy (num : Nat) (s : State) : Host.Outcome State Fault Refusal := .next (s.hosted (s.destroyQueue num false))
def execQueueDestroyAbort (num : Nat) (s : State) : Host.Outcome State Fault Refusal := .next (s.hosted (s.destroyQueue num true))

/-! ## Packets (R350, R351) -/

def pktWord (w : List Word) (i : Nat) : Nat := (w.getD i 0).toNat
def pktPair (w : List Word) (i : Nat) : Nat := pktWord w i + pktWord w (i + 1) * 2 ^ 32

def pktKind (w : List Word) : Nat := bitsOf (pktWord w 0) 24 8
def pktFid (w : List Word) : Byte := BitVec.ofNat 8 (bitsOf (pktWord w 0) 16 8)
def pktPrio (w : List Word) : Nat := bitsOf (pktWord w 0) 13 3
def pktChain (w : List Word) : Bool := bitOf (pktWord w 0) 12
def pktPriv (w : List Word) : Bool := bitOf (pktWord w 0) 11
def pktHmode (w : List Word) : Nat := bitsOf (pktWord w 0) 9 2
def pktHint (w : List Word) : Nat := bitsOf (pktWord w 0) 2 7
def pktQsize (w : List Word) : Nat := bitsOf (pktWord w 1) 24 8
def pktGridb (w : List Word) : Nat := bitsOf (pktWord w 2) 0 24
def pktBdim (w : List Word) : Nat := bitsOf (pktWord w 3) 0 11
def pktImage (w : List Word) : Nat := pktPair w 4
def pktArgbase (w : List Word) : Nat := pktPair w 6
def pktDone (w : List Word) : Nat := pktPair w 8
def pktHtab (w : List Word) : Nat := pktPair w 10

/-- Units of a packet's grid (R350). -/
def pktUnits (w : List Word) : Nat := if pktQsize w = 0 then pktGridb w else pktGridb w / pktQsize w

/-- BAD_FIELD (R350, R351). -/
def pktBadField (w : List Word) : Bool :=
  bitsOf (pktWord w 0) 0 2 != 0 || pktHmode w == 3 || (List.range 19).any (fun i => pktWord w (13 + i) != 0) ||
  pktDone w % 8 != 0 ||
  if pktKind w = 1 then
    bitsOf (pktWord w 1) 0 24 != 0 || bitsOf (pktWord w 2) 24 8 != 0 || bitsOf (pktWord w 3) 11 21 != 0 ||
    decide (pktQsize w > 192) || pktGridb w == 0 || pktBdim w == 0 || decide (pktBdim w > 1024) ||
    (pktQsize w != 0 && pktGridb w % pktQsize w != 0) || pktImage w % 8 != 0
  else
    pktHmode w == 2 || bitsOf (pktWord w 0) 11 2 != 0 || pktFid w != 0 || [1, 2, 3, 6, 7, 10, 11, 12].any (fun i => pktWord w i != 0) ||
    pktImage w % 4096 != 0

/-- The largest live count of the topology table's clusters (R23). -/
def State.largestCluster (s : State) : Nat :=
  (List.range 168).foldl (fun m i => max m (s.liveCount (i / 2) (i % 2))) 0

/-- The checks of step 3: the lowest status that applies, 0 for none. -/
def State.packetStatus (s : State) (q : Queue) (w : List Word) : Nat :=
  if pktKind w ≠ 1 ∧ pktKind w ≠ 2 then 1
  else if pktBadField w then 2
  else if pktKind w = 1 ∧ !fidOk (pktFid w) then 3
  else if pktPriv w ∧ !q.privok then 4
  else if pktQsize w > s.largestCluster then 8
  else 0

/-! ## Seed images (R358, R359) -/

/-- The kernel of a context that holds an address. -/
def State.kernelAt (s : State) (ctxid : Word) (va : DWord) : Option Kernel :=
  s.kernels.find? fun k => k.ctxid == ctxid && decide (k.base.toNat ≤ va.toNat) && decide (va.toNat < k.base.toNat + 4 * k.words)

def seedEntry (x : Nat) : DWord := BitVec.ofNat 64 (bitsOf x 64 64)
def seedNph (x : Nat) : Nat := bitsOf x 576 16
def seedNzr (x : Nat) : Nat := bitsOf x 592 16
def seedScratch (x : Nat) : Nat := bitsOf x 192 32
def seedCbind (x i : Nat) : Nat := bitsOf x (448 + 32 * i) 32
def seedMbox (x : Nat) : Nat := bitsOf x 416 32
def seedTvec (x : Nat) : Nat := bitsOf x 256 64

/-- Reasons 1 to 4, from the header alone (R359). -/
def seedHeaderReason (x : Nat) : Nat :=
  if bitsOf x 16 8 ≠ 2 ∨ bitsOf x 8 8 ≠ 1 ∨ bitsOf x 0 8 ≠ 1 then 1
  else if bitsOf x 1120 928 ≠ 0 ∨ bitsOf x 397 19 ≠ 0 ∨ bitsOf x 231 25 ≠ 0 ∨ bitsOf x 128 64 ≠ 0 ∨ bitsOf x 416 4 ≠ 0 ∨
      bitOf (seedTvec x) 1 = true ∨ ((List.range 4).any fun i => bitsOf (seedCbind x i) 1 7 != 0) = true ∨ bitsOf x 228 2 = 3 ∨
      bitsOf x 384 13 > 4096 ∨ seedNph x > 4096 ∨ seedNzr x > 1024 then 2
  else if seedScratch x % 4096 ≠ 0 ∨ seedScratch x > 786432 then 3
  else if bitsOf x 224 4 > 8 then 4
  else 0

/-- The mailbox ring's bytes: window offset and length (R287). -/
def mailRing (mbox : Nat) : Nat × Nat := (bitsOf mbox 4 16 * 16, bitsOf mbox 20 12 * 16)

/-- Reasons 5 to 9, with the lists. -/
def State.seedListReason (s : State) (k : Kernel) (x : Nat) (phs : List Nat) (zs : List (Nat × Nat)) : Nat :=
  let size := seedScratch x
  let (off, len) := mailRing (seedMbox x)
  if phs.any fun p => p % 32 != 0 || decide (p + 32 > size) then 5
  else if zs.any fun z => z.1 % 16 != 0 || z.2 % 16 != 0 || decide (z.1 + z.2 > size) then 6
  else if len ≠ 0 ∧ (off + len > size ∨ (phs.any fun p => rangesMeet off len p 32) = true) then 7
  else if (List.range 4).any fun i =>
      let b := seedCbind x i
      bitOf b 0 && (!phs.contains (bitsOf b 8 12 * 256 + 256) || !s.channels.any fun c => c.num == bitsOf b 20 12) then 8
  else if bitOf (seedTvec x) 0 ∧ !k.trapEntries.contains (BitVec.ofNat 64 (seedTvec x / 4 * 4)) then 9
  else 0

def Seed.ofImage (k : Kernel) (x : Nat) (phs : List Nat) (zs : List (Nat × Nat)) : Seed :=
  { sinit := (List.range 16).map fun i => BitVec.ofNat 32 (bitsOf x (608 + 32 * i) 32)
    cbind := (List.range 4).map fun i => BitVec.ofNat 32 (seedCbind x i)
    mbox := BitVec.ofNat 32 (seedMbox x), ttcount := BitVec.ofNat 32 (bitsOf x 384 13), ttbase := BitVec.ofNat 64 (bitsOf x 320 64)
    tvec := BitVec.ofNat 64 (seedTvec x), stallchk := bitOf x 230, nread := bitsOf x 228 2, accn := bitsOf x 224 4
    scratch := seedScratch x, entry := seedEntry x, lmtBase := k.lmtBase, lmtCount := k.lmtCount, phasers := phs, zeroed := zs }

/-- The front end's judgement of a packet: it faults or waits, is refused, or passes. -/
inductive Judged (α : Type) where
  | stop (e : FeStop)
  | refuse (status detail : Nat)
  | pass (x : α)

/-- Step 5 for a seed image: statuses 5 and 6. -/
def State.readSeed (s : State) (q : Queue) (image : Nat) : Judged Seed × State :=
  let sp := q.space s
  match s.feRange sp image 256 with
  | (.error e, s) => (.stop e, s)
  | (.ok bs, s) =>
    let x := leNat bs
    match s.kernelAt q.ctxid (seedEntry x) with
    | none => (.refuse 5 0, s)
    | some k =>
      if seedHeaderReason x ≠ 0 then (.refuse 6 (seedHeaderReason x), s)
      else match s.feRange sp (image + 256) (4 * seedNph x + 8 * seedNzr x) with
        | (.error e, s) => (.stop e, s)
        | (.ok ls, s) =>
          let phs := (wordsOf ls (seedNph x)).map (·.toNat)
          let zw := (wordsOf (ls.drop (4 * seedNph x)) (2 * seedNzr x)).map (·.toNat)
          let zs := (List.range (seedNzr x)).map fun i => (zw.getD (2 * i) 0, zw.getD (2 * i + 1) 0)
          let r := s.seedListReason k x phs zs
          if r ≠ 0 then (.refuse 6 r, s) else (.pass (Seed.ofImage k x phs zs), s)

/-! ## Context images to be resumed (R343, R361) -/

/-- The header of an image, 2048 bits. -/
def State.imageHead (s : State) (image : Nat) : Nat := s.physNat image 256

/-- NBLK of a header. -/
def headBlocks (x : Nat) : Nat := bitsOf x 24 8

/-- The bytes of the ENG sections of an image, as its header places them. -/
def State.engSections (s : State) (image : Nat) : List Byte :=
  let x := s.imageHead image
  let l := ImageLayout.ofHeader x
  (List.range (headBlocks x)).flatMap fun k => s.readPhys (image + l.boff + k * l.stride + l.eng) l.engsz

/-- The header of an image names a complete, unspoilt image at its own address (R343): STATE, KIND, VERSION, CHK, SELF; and no
resume of it is queued or in progress. -/
def State.imageValid (s : State) (image : Nat) : Bool :=
  let x := s.imageHead image
  bitsOf x 0 8 == 1 && bitsOf x 8 8 == 1 && bitsOf x 16 8 == 1 && bitsOf x 448 64 == image &&
  bitsOf x 352 32 == (Config.engCheck (s.engSections image)).toNat &&
  s.saved.all fun u => u.image != image || !(u.resuming || u.placed)

/-- The context that the header of an image names: 64 bits. -/
def State.imageCtx (s : State) (image : Nat) : Nat := s.physNat (image + 48) 8

/-! An image whose ENG sections this device did not write, such as one that another module saved into the same host window, passes the
checks of R343 when its CHK matches. What its ENG holds the model cannot read: the unit has no bobbins, no lines in its regions and no
core-held messages, and the rest is as the sections that software may read give it (log 147). -/

/-- The live-register mask of a thread of such an image: that of its SAFE in its kernel's table. -/
def State.foreignMask (s : State) (r : BlockRegs) (idx : Nat) : Option Nat × State :=
  if idx ≥ r.lmtCount.toNat then (none, s)
  else match s.feRange (s.feSpace r.ptroot.toNat (r.asid.extractLsb' 0 16) r.ctxid.toNat) (r.lmtBase.toNat + 16 * idx) 16 with
    | (.ok bs, s) => (some (leNat bs), s)
    | (.error _, s) => (none, s)

/-- The threads of a block of such an image, as far as their records do not give them, from thread `t` on. -/
def State.foreignThreads (s : State) (r : BlockRegs) (recs : Nat) : Nat → List Thread × State
  | 0 => ([], s)
  | n + 1 =>
    let (ts, s) := s.foreignThreads r recs n
    let idx := s.physNat (recs + 512 * n + 0x170) 4
    let (m, s) := s.foreignMask r idx
    (ts ++ [if idx < r.lmtCount.toNat then { Thread.blank with status := .stopped (BitVec.ofNat 32 idx) m } else Thread.blank], s)

/-- Block `k` of such an image. Its grid's fidelity field, which no readable section gives, is 0 (R236, log 147). -/
def State.foreignBlock (s : State) (image k : Nat) : Block × State :=
  let l := ImageLayout.ofHeader (s.imageHead image)
  let at_ := image + l.boff + k * l.stride
  let r := BlockRegs.zero.ofWords fun i => BitVec.ofNat 32 (s.physNat (at_ + 4 * i) 4)
  let accn := min 8 ((l.mbx - l.tile) / 4672)
  let (ts, s) := s.foreignThreads r (at_ + l.thr) (min 1024 r.blockdim.toNat)
  ({ bid := s.nextBid + k, core := 0, unit := s.nextUnit, gridId := s.nextGrid, regs := r, regions := Vector.replicate 8 Region.none
     signals := [], mail := Mailbox.empty, threads := ts, priv := Machine.privOf (BitVec.ofNat 32 (s.physNat (at_ + l.thr + 0x168) 4))
     fid := 0, accn := accn, tiles := List.range accn, eff := 7, save := none, halted := false }, s)

/-- The unit of such an image. -/
def State.foreignUnit (s : State) (image : Nat) : SavedUnit × State :=
  let x := s.imageHead image
  let (bs, s) := (List.range (headBlocks x)).foldl (fun (p : List Block × State) k =>
    let (b, s) := p.2.foreignBlock image k
    (p.1 ++ [b], s)) ([], s)
  ({ unit := s.nextUnit, gridId := s.nextGrid, image := image, lay := ImageLayout.ofHeader x, savedIn := 0, home := none
     resuming := false, slot := none, emergency := false, blocks := bs, names := [], aliases := [], bobbins := [], tiles := []
     eng := s.engSections image, committed := true, seq := bitsOf x 32 32, placed := false }, s)

/-- The unit that the image at an address holds: the last save there that wrote the ENG sections it has, its unit stopped since or
not, or else what the image itself gives. -/
def State.unitAt (s : State) (image : Nat) : SavedUnit × State :=
  match (s.images ++ s.saved).reverse.find? fun u => u.image == image && u.committed && u.eng == s.engSections image with
  | some u => (u, s)
  | none => s.foreignUnit image

/-- Blocks of a saved quarter, 0 for a block in no quarter. -/
def SavedUnit.qsize (u : SavedUnit) : Nat := match u.blocks with
  | b :: _ => b.regs.qsize.toNat
  | [] => 0

/-- Bytes of a unit's image. -/
def SavedUnit.bytes (u : SavedUnit) : Nat := u.lay.boff + u.blocks.length * u.lay.stride

/-- The image of a unit lies on storage throughout. -/
def State.imageStored (s : State) (ctxid : Nat) (u : SavedUnit) : Bool := !u.blocks.isEmpty && s.imageRange ctxid u.image u.bytes

/-- A grid of one unit, for a unit whose own grid is gone (R361, R413). -/
def Grid.ofUnit (id queue packet prio since : Nat) (done : DWord) (u : SavedUnit) : Grid :=
  let b := u.blocks.head?
  { id := id, queue := queue, packet := packet, prio := prio, chain := false, priv := (b.map (·.priv)).getD false,
    fid := (b.map (·.fid)).getD 0, qsize := u.qsize, gridb := (b.map (·.regs.gridblocks.toNat)).getD 0,
    bdim := (b.map (·.regs.blockdim.toNat)).getD 0, argbase := (b.map (·.regs.argbase)).getD 0, done := done, resumeDone := [],
    doneDue := [], doneTried := false, seed := none, lists := [], units := 1, completed := 0, aborted := false, cause := 0,
    ctxid := (b.map (·.regs.ctxid)).getD 0, since := since }

/-- A unit that was stopped, or of which the machine has no record, is a saved unit from now on. -/
def State.keepUnit (s : State) (u : SavedUnit) : State :=
  if s.saved.any fun x => x.unit == u.unit then s
  else
    { s with saved := s.saved ++ [u], images := s.images.filter (fun x => x.unit != u.unit), nextUnit := max s.nextUnit (u.unit + 1),
             nextBid := s.nextBid + u.blocks.length }

/-- A unit's image is queued as a saved unit awaiting restore, with a home that replaces its own, in its grid or in a grid of
one unit; the number of that grid, and whether it is new. A unit that this device did not save has no home of its own (R368). -/
def State.queueResume (s : State) (u : SavedUnit) (home : Option Nat) (queue packet prio : Nat) (done : DWord) :
    Nat × Bool × State :=
  let home := home.or (if u.names.isEmpty then none else some u.savedIn)
  let s := s.keepUnit u
  match s.grid? u.gridId with
  | some g =>
    let s : State := { s with saved := s.saved.map fun x => if x.unit = u.unit then { x with resuming := true, home := home } else x }
    let s := if done = 0 then s else s.updGrid g.id fun g => { g with resumeDone := g.resumeDone ++ [(queue, packet, done, u.unit)] }
    (g.id, false, s)
  | none =>
    let id := s.nextGrid
    let mine := fun b : Block => { b with gridId := id, regs := { b.regs with grid := prio }, eff := prio }
    let up := fun x : SavedUnit =>
      if x.unit = u.unit then { x with resuming := true, home := home, gridId := id, blocks := x.blocks.map mine } else x
    (id, true, { s with nextGrid := id + 1, saved := s.saved.map up, grids := s.grids ++ [Grid.ofUnit id queue packet prio s.past.length done u] })

/-- CTXLOAD's status and effect (R343). -/
def State.ctxload (s : State) (pa : Nat) (home : Option Nat) (b : Block) : Nat × State :=
  if !s.imageRange b.regs.ctxid.toNat pa 4096 then (4, s)
  else if !s.imageValid pa then (1, s)
  else
    let (u, s) := s.unitAt pa
    if u.qsize > s.largestCluster then (2, s)
    else if !s.imageStored b.regs.ctxid.toNat u then (4, s)
    else
      let (queue, _) := s.gridOrigin b.gridId
      let (id, new, s) := s.queueResume u home queue 0 b.regs.grid 0
      (0, if new then s.journalAdd 0 queue 1 0 0 id 1 else s)

def execCtxload (d a b : BitVec 4) (n : BitVec 3) (s : State) : Host.Outcome State Fault Refusal :=
  .next (s.runUniform
    { n := n, srcs := sSrcs a 2 ++ [sSrc b], dsts := [.s d], bad := groupBad [(a.toNat, 2)], who := .thread, priv := true } noFixed
    fun s ag vs =>
    let pa := pairAt vs 0
    let x := valAt vs 2
    if pa.extractLsb' 0 12 ≠ 0 ∨ x.extractLsb' 7 25 ≠ 0 then s.illegal ag 7
    else match s.blockOf ag with
      | none => s
      | some blk =>
        if s.requestHeld blk.core (.phys pa.toNat) 256 then s
        else if s.poisoned pa.toNat 256 then s.payloadError blk.regs.ctxid
        else
          let (st, t) := (s.rdmaRead (.phys pa.toNat) 256).ctxload pa.toNat (if x.toNat < 84 then some x.toNat else none) blk
          s.withRoom (t.retireVar ag n [wS d (BitVec.ofNat 32 st)]))

/-! ## Taking a packet (R351) -/

/-- The packet a queue takes next (R352, R356): its number. -/
def Queue.nextPacket (q : Queue) : Option Nat :=
  match q.held with
  | some n => if q.again then some n else none
  | none => if !q.device.isEmpty then some (2 ^ 63 + q.deviceNext) else if q.readIdx < q.fence then some q.readIdx else none

/-- The length of State.past at the fetch fence that covered a packet first. -/
def Queue.fencedAt (q : Queue) (n now : Nat) : Nat := ((q.fences.find? fun f => decide (n < f.1)).map (·.2)).getD now

/-- `m` 8-byte words at a location, each as it is, or, where stores have come since `since`, as it was at some time from then on, by
a free choice (R349). -/
def State.tornWords (s : State) (l : Loc) (since : Nat) : Nat → List Byte × State
  | 0 => ([], s)
  | m + 1 =>
    let (bs, s) := s.tornWords l since m
    let at_ := l.shift (8 * m)
    let now := s.readLoc at_ 8
    let (x, s) := s.pick now (now :: ((s.versions since (s.locKeys at_ 8)).map (·.2)).filter (fun y => y != now)).eraseDups
    (bs ++ x, s)

/-- Step 1: the packet's 32 words, one relaxed read. A slot that the producer writes after the fetch fence that covers its packet
may be read torn at its 8-byte words (R349, log 73). -/
def State.readPacket (s : State) (q : Queue) (n : Nat) : Except FeStop (List Word) × State :=
  let sp := q.space s
  if n ≥ 2 ^ 63 then (.ok (q.device.headD []), s)
  else match s.feLoc sp .read ((q.ring.toNat + n % 2 ^ q.log2n * 128) % 2 ^ 64) with
    | (.error e, s) => (.error e, s)
    | (.ok l, s) =>
      if s.requestHeld sp.core l 128 then (.error .waits, s)
      else if s.locPoisoned l 128 then (.error .waits, s.payloadError q.ctxid)
      else if (s.mmioAt l).isSome then
        let (bs, s) := s.feBytes l 128
        (.ok (packetWords bs), s)
      else
        let (bs, s) := (s.rdmaRead l 128).tornWords l (q.fencedAt n s.past.length) 16
        (.ok (packetWords bs), s)

/-- The packet has been accepted, refused or discarded (R349, R352). -/
def State.passPacket (s : State) (num n : Nat) : State :=
  if n ≥ 2 ^ 63 then
    s.updQueue num fun q =>
      { q with device := q.device.tail, deviceNext := q.deviceNext + 1, held := none, taking := none, again := false }
  else (s.updQueue num fun q => { q with readIdx := n + 1, held := none, taking := none, again := false }).writeReadIndex num n

/-- The front end stops at a packet that it has begun to read (R348, R349). -/
def State.stopPacket (s : State) (num n : Nat) (e : FeStop) : State :=
  let s := s.updQueue num fun q => { q with taking := some n }
  match e with
  | .waits => s
  | .fault v detail => s.faultQueue num n v detail

/-- A packet is refused, with a journal entry of kind 2. -/
def State.refusePacket (s : State) (num n status detail : Nat) : State :=
  (s.journalAdd n num 2 status detail 0 0).passPacket num n

/-- The home lists of a grid (R366): by home domain, `none` for any. -/
def homeLists (units : Nat) (home : Nat → Option Nat) : List HomeList :=
  let all := List.range units
  ((none :: (List.range 84).map some).map fun h => ({ home := h, units := all.filter fun u => home u == h, taken := 0 } : HomeList)).filter
    fun l => !l.units.isEmpty

/-- A hint as a home domain. -/
def hintHome (h : Nat) : Option Nat := if h < 84 then some h else none

/-- A grid from its packet, its seed and its hint bytes. -/
def Grid.ofPacket (id since : Nat) (q : Queue) (n : Nat) (w : List Word) (seed : Seed) (hints : List Byte) : Grid :=
  let home := fun u : Nat => match pktHmode w with
    | 1 => hintHome (pktHint w)
    | 2 => hintHome ((hints.getD u 127).toNat)
    | _ => none
  { id := id, queue := q.num, packet := n, prio := max (pktPrio w) q.pceil, chain := pktChain w, priv := pktPriv w,
    fid := pktFid w, qsize := pktQsize w, gridb := pktGridb w, bdim := pktBdim w, argbase := BitVec.ofNat 64 (pktArgbase w),
    done := BitVec.ofNat 64 (pktDone w), resumeDone := [], doneDue := [], doneTried := false, seed := some seed, lists := homeLists (pktUnits w) home,
    units := pktUnits w, completed := 0, aborted := false, cause := 0, ctxid := q.ctxid
    since := since }

/-- Steps 4 to 6 for a grid from a seed image. -/
def State.takeGrid (s : State) (q : Queue) (n : Nat) (w : List Word) : Judged Unit × State :=
  let hinted := if pktHmode w = 2 then s.feRange (q.space s) (pktHtab w) (pktUnits w) else (.ok [], s)
  match hinted with
  | (.error e, s) => (.stop e, s)
  | (.ok hints, s) => match s.readSeed q (pktImage w) with
    | (.stop e, s) => (.stop e, s)
    | (.refuse st detail, s) => (.refuse st detail, s)
    | (.pass seed, s) =>
      let id := s.nextGrid
      let g := Grid.ofPacket id s.past.length q n w seed hints
      (.pass (), ({ s with nextGrid := id + 1, grids := s.grids ++ [g] } : State).journalAdd n q.num 1 0 0 id (pktGridb w))

/-- Steps 5 and 6 for a resume. What can be read and is no place for an image (R339), neither wafer DRAM nor a host window that can
be written, is refused as IMAGE_INVALID (log 169). -/
def State.takeResume (s : State) (q : Queue) (n : Nat) (w : List Word) : Judged Unit × State :=
  let image := pktImage w
  if !s.rangeStored q.ctxid.toNat true false image 4096 then (.stop (.fault image 0x14), s)
  else if !s.imageRange q.ctxid.toNat image 4096 then (.refuse 7 0, s)
  else if s.requestHeld frontEnd (.phys image) 256 then (.stop .waits, s)
  else if s.poisoned image 256 then (.stop .waits, s.payloadError q.ctxid)
  else
    let s := s.rdmaRead (.phys image) 256
    if !s.imageValid image || s.imageCtx image != q.ctxid.toNat then (.refuse 7 0, s)
    else
      let (u, s) := s.unitAt image
      if u.qsize > s.largestCluster then (.refuse 8 0, s)
      else if !s.rangeStored q.ctxid.toNat true false image u.bytes then (.stop (.fault image 0x14), s)
      else if !s.imageStored q.ctxid.toNat u then (.refuse 7 0, s)
      else
        let home := if pktHmode w = 1 then hintHome (pktHint w) else none
        let (id, new, s) := s.queueResume u home q.num n (max (pktPrio w) q.pceil) (BitVec.ofNat 64 (pktDone w))
        (.pass (), s.journalAdd n q.num 1 0 0 id (if new then 1 else 0))

/-- Steps 3 to 6 of R351. -/
def State.judgePacket (s : State) (q : Queue) (n : Nat) (w : List Word) : Judged Unit × State :=
  let st := s.packetStatus q w
  if st ≠ 0 then (.refuse st 0, s)
  else if pktKind w = 1 then s.takeGrid q n w else s.takeResume q n w

/-- PACKET_TAKE: the front end makes the writes that a queue still owes, or takes its next packet; one that needs a journal entry
waits for room (R364). -/
def execPacketTake (num : Nat) (s : State) : Host.Outcome State Fault Refusal :=
  .next (s.live (s.withRoom (match s.queue? num with
    | none => s
    | some q =>
      if q.status = .faulted then s
      else if !q.retry.isEmpty then (s.redoWrites num).queueGone num
      else if q.status = .draining then s
      else match q.nextPacket with
        | none => s
        | some n => match s.readPacket q n with
          | (.error e, s) => s.stopPacket num n e
          | (.ok w, s) =>
            let (e, r) := if q.pattern.isEmpty then (PatEnd.accept, ({ pc := 0, p := Vector.replicate 8 0, w := w, c0 := q.c0 } : PatRun))
              else runPattern q.pattern n (s.gridsOf num).length 256 { pc := 0, p := Vector.replicate 8 0, w := w, c0 := q.c0 }
            let s := s.updQueue num fun q => { q with c0 := r.c0 }
            match e with
            | .hold => s.updQueue num fun q => { q with held := some n, taking := none, again := false }
            | .reject code => s.refusePacket num n 9 code
            | .budget => s.refusePacket num n 10 0
            | .accept => match s.judgePacket q n r.w with
              | (.stop e, s) => (s.updQueue num fun x => { x with c0 := q.c0 }).stopPacket num n e
              | (.refuse st detail, s) => s.refusePacket num n st detail
              | (.pass _, s) => s.passPacket num n)))

/-! ## Completion (R362) -/

/-- The agent belongs to a resident block of another grid. -/
def State.elsewhere (s : State) (g : Nat) : Agent → Bool
  | .thread bid _ => match s.block? bid with
    | some b => b.gridId != g
    | none => false
  | .bobbin core b =>
    let x := s.bobbin core b
    x.status != .free && match s.block? x.bid with
      | some k => k.gridId != g
      | none => false

/-- Every store of the agents of a grid that is about to complete has been performed. -/
def State.gridStored (s : State) (g : Nat) : Bool := s.accs.all fun a => a.isLoad || s.elsewhere g a.agent

/-- Every unit has completed, or the grid has been stopped and none of its units is resident or saved. -/
def State.gridOver (s : State) (g : Grid) : Bool :=
  g.completed == g.units ||
  ((g.aborted || g.cause != 0) && (s.blocks.all fun b => b.gridId != g.id || b.halted) && s.saved.all fun u => u.gridId != g.id)

/-- The grid status (R362). -/
def Grid.status (g : Grid) : Nat := if g.aborted then 2 else if g.cause ≠ 0 then 1 else 0

/-- A completion word (R362). -/
def doneWordOf (pkt cause status : Nat) : DWord := BitVec.ofNat 64 (pkt % 2 ^ 32 * 2 ^ 32 + cause % 256 * 256 + status)

def State.writeDone (s : State) (queue pkt : Nat) (va value : DWord) : State :=
  if va = 0 then s else s.queueWrite queue pkt va (leBytes 8 value.toNat) (.doneWord va value)

/-- The blocks of a stopped grid leave their cores. -/
def State.dropBlocks (s : State) (g : Nat) : State :=
  (s.blocks.filter fun b => b.gridId == g).foldl (fun (s : State) b => (s.leaveCore b).streetDrop b.unit) s

/-- The completion word of a grid. -/
def Grid.doneWord (g : Grid) : DWord := doneWordOf g.packet g.cause g.status

/-- The words of resumed units of a grid that have completed are written. -/
def State.writeDue (s : State) (g : Grid) : State :=
  (g.doneDue.foldl (fun (s : State) r => s.writeDone r.1 r.2.1 r.2.2 (doneWordOf r.2.1 0 0)) s).updGrid g.id fun g => { g with doneDue := [] }

/-- Step 2 of R362: the completion word is written once; a write that faulted is made again at RESUME, one that was held, now. -/
def State.writeGridDone (s : State) (g : Grid) : State :=
  if !g.doneTried then (s.writeDone g.queue g.packet g.done g.doneWord).updGrid g.id fun g => { g with doneTried := true }
  else match s.queue? g.queue with
    | some q => if q.status = .faulted then s else s.redoWrites g.queue
    | none => s

/-- The write of a grid's completion word has not been made yet. -/
def State.doneOwed (s : State) (g : Grid) : Bool :=
  match s.queue? g.queue with
  | some q => q.retry.contains (.doneWord g.done g.doneWord)
  | none => false

/-- GRID_COMPLETE: once its stores are performed, the completion word; once that is written, the journal entry of kind 4, and the
end of the grid; a held packet of its queue is tried again. A resumed unit that has completed has its own word written. -/
def execGridComplete (gid : Nat) (s : State) : Host.Outcome State Fault Refusal :=
  .next (s.live (match s.grid? gid with
    | none => s
    | some g =>
      if !s.gridStored gid then s
      else
        let s := s.writeDue g
        if !s.gridOver g then s
        else
          let s := s.writeGridDone g
          if s.doneOwed g || !s.journalRoom then s
          else
            let s := (s.journalAdd g.packet g.queue 4 g.status g.cause g.id g.completed).dropBlocks gid
            let s : State := { s with grids := s.grids.filter fun x => x.id != gid }
            (s.retryHeld g.queue).queueGone g.queue))

end Sys2Proof.Machine
end

