-- ==== Sys2Proof/Machine/Coll.lean ====
section
/-! DEFINITION. Collective channels: COLL, the acceptance of contributions, the completion of rounds (R292 to R294), the
configuration and removal of channels (R387). -/

namespace Sys2Proof.Machine

/-! ## Bindings (R292) -/

def bindValid (x : Word) : Bool := x.getLsbD 0
def bindChan (x : Word) : Nat := (x.extractLsb' 20 12).toNat

/-- The window offset of a binding's result buffer, and of its phaser after it. -/
def bindOff (x : Word) : Nat := 256 * (x.extractLsb' 8 12).toNat
def bindPhaser (x : Word) : Nat := bindOff x + 256

def Block.binding (b : Block) (k : Nat) : Word := b.regs.cbind.toList.getD k 0

def State.channel? (s : State) (k : Nat) : Option Channel := s.channels.find? fun c => c.num == k

def State.updChannel (s : State) (k : Nat) (f : Channel → Channel) : State :=
  { s with channels := s.channels.map fun c => if c.num = k then f c else c }

/-! ## COLL (R293) -/

/-- The reason of COLL_INVALID, if any, for the operand vb. -/
def State.collReason (s : State) (b : Block) (x : Word) : Option Nat :=
  let k := b.binding (x.extractLsb' 8 2).toNat
  if x.extractLsb' 6 2 ≠ 0 ∨ x.extractLsb' 10 22 ≠ 0 then some 1
  else if !bindValid k then some 2
  else if (s.channel? (bindChan k)).isNone then some 3
  else none

/-- COLL: the checks; vd is pending until the channel accepts the contribution. -/
def State.coll (s : State) (op : Nat) (acc : Accept) (d a b : BitVec 6) (n : BitVec 3) : State :=
  s.runGroup { n := n, srcs := [vSrc a 0 acc, vSrc b 1 aI], dsts := [.v d], who := .thread } noFixed fun s ag vs =>
    match ag, s.blockOf ag with
    | .thread bid _, some blk =>
      let x := valAt vs 1
      match s.collReason blk x with
      | some r => s.trap ag .collInvalid (BitVec.ofNat 32 r) 0
      | none =>
        let binding := (x.extractLsb' 8 2).toNat
        let chan := bindChan (blk.binding binding)
        let root := match s.channel? chan with
          | some c => c.root == blk.core && c.rootWafer == s.wafer.id
          | none => false
        let c : Contribution := { bid := bid, binding := binding, chan := chan, elem := (x.extractLsb' 0 6).toNat, op := op,
                                  value := valAt vs 0, root := root }
        (s.addPend ag [.v d] (.coll c) none).advance ag n
    | _, _ => s

def execCollSumF32 (d a b : BitVec 6) (n : BitVec 3) (s : State) : Host.Outcome State Fault Refusal :=
  .next (s.coll 0 (.exactly .f32) d a b n)
def execCollSumI32 (d a b : BitVec 6) (n : BitVec 3) (s : State) : Host.Outcome State Fault Refusal :=
  .next (s.coll 1 aI d a b n)
def execCollMaxI32 (d a b : BitVec 6) (n : BitVec 3) (s : State) : Host.Outcome State Fault Refusal :=
  .next (s.coll 2 aI d a b n)
def execCollBcastB32 (d a b : BitVec 6) (n : BitVec 3) (s : State) : Host.Outcome State Fault Refusal :=
  .next (s.coll 3 .any d a b n)

/-! ## Acceptance (R294) -/

/-- Contributions of an element to a round. -/
def Round.of (r : Round) (e : Nat) : List Contribution := r.contribs.filter fun c => c.elem == e

/-- The GEN that a block's binding phaser holds. -/
def State.bindingGen (s : State) (b : Block) (k : Nat) : Nat := (s.phaser b.core (b.scr (bindPhaser (b.binding k)))).gen

/-- A round takes a contribution; the block's first one captures its phaser's generation. -/
def State.joinRound (s : State) (b : Block) (c : Contribution) (r : Round) : Round :=
  { r with
    contribs := r.contribs ++ [c]
    targets := if r.targets.any fun t => t.1 == c.bid && t.2.1 == c.binding then r.targets
      else r.targets ++ [(c.bid, c.binding, s.bindingGen b c.binding)] }

/-- A contribution of another op than its round's is reported (R294): the entry's VA holds the round, its INFO the channel. -/
def State.collMismatch (s : State) (b : Block) (c : Contribution) (round : Nat) : State :=
  s.fsqAdd (domOf b.core)
    { va := BitVec.ofNat 64 round, asid := b.regs.asid, core := b.core, agent := .channel c.bid c.binding,
      cause := Cause.collMismatch.code, xkind := 15, access := 0, park := false, block := b.regs.blockid,
      info := BitVec.ofNat 32 c.chan, word := 0 }

/-- The domain of a channel's root: none on another wafer. -/
def State.rootDom (s : State) (c : Channel) : Option Nat := if c.rootWafer = s.wafer.id then some (domOf c.root) else none

/-- A contribution, number `id`, from a domain to its channel's root is held on its way (R379, R398). -/
def State.contributionHeld (s : State) (d id : Nat) (c : Channel) : Bool :=
  s.wayHeld d id (s.rootDom c) || match s.rootDom c with
    | some e => s.cutBetween d e
    | none => s.linksCut d

/-- COLL_CONTRIBUTION_ACCEPT: the channel takes the contribution of pending group `id` into its oldest open round with room for its
element, or into a new round; vd receives the round's number. A contribution that no round holds yet when its channel is removed or
configured anew stays pending, and joins the channel that has the number then (log 176). It waits while its way out of the domain is
stopped (R379, R398). -/
def execCollContributionAccept (ag : Agent) (id : Nat) (s : State) : Host.Outcome State Fault Refusal :=
  .next (match (s.ctx ag).pend.find? fun p => p.id == id with
    | none => s
    | some p => match p.work with
      | .coll c => match s.channel? c.chan, s.block? c.bid with
        | some ch, some b =>
          if s.contributionHeld (domOf b.core) id ch then s else
          let (r, ch) := match ch.rounds.find? fun r => decide ((r.of c.elem).length < ch.members) with
            | some r => (r, ch)
            | none =>
              let r : Round := { num := ch.nextRound, op := c.op, contribs := [], targets := [] }
              (r, { ch with rounds := ch.rounds ++ [r], nextRound := (ch.nextRound + 1) % 2 ^ 32 })
          let r' := s.joinRound b c r
          let ch := { ch with rounds := ch.rounds.map fun x => if x.num = r.num then r' else x }
          let s := s.updChannel c.chan fun _ => ch
          let s := if c.op = r.op then s else s.collMismatch b c r.num
          s.writeGroup ag p [⟨BitVec.ofNat 32 r.num, .n32⟩]
        | _, _ => s
      | _ => s)

/-! ## Completion of a round (R294) -/

/-- The result of one element over the used contributions. -/
def collResult (op : Nat) (cs : List Contribution) : Word :=
  match op with
  | 0 => match cs.map fun c => valueOf .f32 c.value.toNat with
    | [] => 0
    | x :: xs => BitVec.ofNat 32 (roundF .f32 .rn (xs.foldl FVal.add x))
  | 1 => cs.foldl (fun m c => m + c.value) 0
  | 2 => cs.foldl (fun m c => maxS m c.value) 0x80000000
  | _ => match cs.find? fun c => c.root with
    | some c => c.value
    | none => 0

/-- The 256 result bytes of a round. -/
def Round.bytes (r : Round) : List Byte :=
  (List.range 64).flatMap fun e => leBytes 4 (collResult r.op ((r.of e).filter fun c => c.op == r.op)).toNat

/-- Each of the 64 elements has M contributions. -/
def Round.full (r : Round) (members : Nat) : Bool := (List.range 64).all fun e => (r.of e).length == members

/-- The results are written into one block's buffer, and a credit for its binding phaser is sent; a saved block's image takes
them, in a host window by a read and a write of the window (R280, R385); a block that has completed gets nothing. -/
def State.deliverRound (s : State) (sender : Nat) (bs : List Byte) (t : Nat × Nat × Nat) : State :=
  let credit := fun (s : State) (b : Block) =>
    let c : Credit := { id := s.nextId, cmd := none, sender := sender, held := none, bid := t.1, off := bindPhaser (b.binding t.2.1),
                        bytes := 256, gen := t.2.2 }
    ({ s with nextId := s.nextId + 1, credits := s.credits ++ [c] } : State)
  match s.block? t.1 with
  | some b =>
    let off := bindOff (b.binding t.2.1)
    if s.completed b then s else credit ((s.writeScr b.core (b.scr off) bs).markWritten t.1 off 256) b
  | none => match s.savedBlock t.1 with
    | some (u, b) =>
      let a := u.scratchAt b (bindOff (b.binding t.2.1))
      credit ((s.rdmaRead (.phys a) bs.length).deviceStore a bs) b
    | none => s

/-- A selvedge between a channel's root and one of a round's blocks, or its image, is CUT (R379). -/
def State.resultHeld (s : State) (ch : Channel) (t : Nat × Nat × Nat) : Bool :=
  let cut := fun e : Nat => match s.rootDom ch with
    | some d => s.cutBetween d e
    | none => s.linksCut e
  match s.block? t.1 with
  | some b => cut (domOf b.core)
  | none => match s.savedBlock t.1 with
    | some (u, _) => (s.domOfLoc (.phys u.image)).any cut
    | none => false

/-- COLL_ROUND_COMPLETE: the oldest round of a channel that has every contribution completes; what cannot reach its block now,
later. -/
def execCollRoundComplete (chan : Nat) (s : State) : Host.Outcome State Fault Refusal :=
  .next (match s.channel? chan with
    | none => s
    | some ch => match ch.rounds.find? fun r => r.full ch.members && !(!r.targets.isEmpty && r.targets.all (s.resultHeld ch)) with
      | none => s
      | some r =>
        let left := r.targets.filter (s.resultHeld ch)
        let rest := fun rs : List Round =>
          if left.isEmpty then rs.filter fun x => x.num != r.num else rs.map fun x => if x.num = r.num then { x with targets := left } else x
        let s' := s.updChannel chan fun c => { c with rounds := rest c.rounds }
        (r.targets.filter fun t => !s.resultHeld ch t).foldl (fun (s : State) t => s.deliverRound ch.root r.bytes t) s')

/-! ## Configuration (R387) -/

/-- A channel from its descriptor's 512 bits, with no round. -/
def Channel.ofDescriptor (x : Nat) : Channel :=
  { num := bitsOf x 0 12, members := bitsOf x 12 23, root := bitsOf x 38 16, rootWafer := bitsOf x 54 10, scopeSys := bitOf x 35,
    trees := bitsOf x 448 64, ntram := bitsOf x 36 2 + 1, weights := (List.range 4).map fun i => bitsOf x (64 + 8 * i) 8,
    rounds := [], nextRound := 0 }

/-- A descriptor is refused for a reserved bit, for weights that are all zero, or for no members. -/
def badChannel (x : Nat) : Bool :=
  let c := Channel.ofDescriptor x
  bitsOf x 96 352 != 0 || (c.weights.take c.ntram).all (fun w => w == 0) || c.members == 0

/-- CHANNEL_CONFIGURE: a channel configured before loses its open rounds. -/
def execChannelConfigure (desc : Nat) (s : State) : Host.Outcome State Fault Refusal :=
  .next (s.hosted (if badChannel desc then s.tell (.status 3 1 0)
    else
      let c := Channel.ofDescriptor desc
      ({ s with channels := s.channels.filter (fun x => x.num != c.num) ++ [c] } : State).tell (.status 3 0 0)))

/-- CHANNEL_REMOVE: its open rounds are discarded. -/
def execChannelRemove (chan : Nat) (s : State) : Host.Outcome State Fault Refusal :=
  .next (s.hosted { s with channels := s.channels.filter fun c => c.num != chan })

end Sys2Proof.Machine
end

