-- ==== Sys2Proof/Machine/Dispatcher.lean ====
section
/-! DEFINITION. The domain dispatchers: which core a unit fits on (R367), placement from a seed image (R360, R208, R249), the
restore of a saved unit (R361), stealing, pre-emption, and their order (R366 to R370, R394, R400). -/

namespace Sys2Proof.Machine

/-! ## Fitting (R367) -/

/-- The live cores of a domain that are not retired, ascending. -/
def State.coresOf (s : State) (d : Nat) : List Nat :=
  ((List.range 2).flatMap fun c => (List.range (s.liveCount d c)).map fun i => d * 512 + c * 256 + i).filter fun k => !s.retired k

/-- What stands on a core or is about to: its resident blocks, and those being restored there. -/
def State.occupants (s : State) (core : Nat) : List Block :=
  s.blocksOn core ++ (s.saved.filter fun u => u.placed).flatMap fun u => u.blocks.filter fun b => b.core == core

/-- What a unit needs of each core it is placed on: threads, scratchpad bytes, tiles, blocks of its quarter (0: no quarter),
and for each rank the bobbin numbers that must be free. -/
structure Need where
  bdim : Nat
  scratch : Nat
  accn : Nat
  qsize : Nat
  bobs : List (List Nat)
  deriving DecidableEq, Repr

/-- The lowest free contiguous range of a scratchpad, at 4 KiB granularity. -/
def freeScratch (occ : List Block) (size : Nat) : Option Nat :=
  ((List.range 193).map fun i => 4096 * i).find? fun base =>
    decide (base + size ≤ 786432) &&
    occ.all fun b => !rangesMeet base size b.regs.scratchBase.toNat b.regs.scratchSize.toNat

/-- The lowest free tiles. -/
def freeTiles (occ : List Block) (n : Nat) : Option (List Nat) :=
  let free := (List.range 8).filter fun t => occ.all fun b => !b.tiles.contains t
  if free.length < n then none else some (free.take n)

/-- The bobbin is free, and no restore under way needs it. -/
def State.bobbinFree (s : State) (core k : Nat) : Bool :=
  (s.bobbin core k).status == .free &&
  s.saved.all fun u => !u.placed || u.blocks.all fun b => b.core != core || u.bobbins.all fun p => !(p.1 == b.bid && p.2.1 == k)

/-- A block fits on a core: the base of its window, and its tiles. -/
def State.fitsOn (s : State) (n : Need) (bobs : List Nat) (core : Nat) : Option (Nat × List Nat) :=
  let occ := s.occupants core
  if (occ.map fun b => b.threads.length).sum + n.bdim > 2048 ∨ occ.length ≥ 32 ∨ !bobs.all (s.bobbinFree core) then none
  else match freeScratch occ n.scratch, freeTiles occ n.accn with
    | some base, some tiles => some (base, tiles)
    | _, _ => none

/-- A place for one block: its core, window base, tiles. -/
abbrev Spot3 := Nat × Nat × List Nat

/-- Each rank takes the first core of the list, not yet taken, on which it fits. -/
def State.assign (s : State) (n : Need) : List (List Nat) → List Nat → Option (List Spot3)
  | [], _ => some []
  | bobs :: rest, cores => match cores.find? fun k => (s.fitsOn n bobs k).isSome with
    | none => none
    | some k => match s.fitsOn n bobs k, s.assign n rest (cores.filter fun x => x != k) with
      | some (base, tiles), some more => some ((k, base, tiles) :: more)
      | _, _ => none

/-- The core with the fewest resident threads, then of the lowest name. -/
def State.leastLoaded (s : State) (cores : List Nat) : Option Nat :=
  (sortBy (fun k => ((s.occupants k).map fun b => b.threads.length).sum * 65536 + k) cores).head?

/-- Where a unit goes in a domain (R367), one place for each rank; none where it does not fit. -/
def State.findPlace (s : State) (d : Nat) (n : Need) : Option (List Spot3) :=
  let fits := (s.coresOf d).filter fun k => (s.fitsOn n [] k).isSome
  if n.qsize = 0 then
    match s.leastLoaded (fits.filter fun k => (s.fitsOn n (n.bobs.headD []) k).isSome) with
    | some k => s.assign n n.bobs [k]
    | none => none
  else
    let c0 := fits.filter fun k => clusterOf k == 0
    let c1 := fits.filter fun k => clusterOf k == 1
    match s.assign n n.bobs c0, s.assign n n.bobs c1 with
    | some p0, some p1 => if c1.length > c0.length then some p1 else some p0
    | some p0, none => some p0
    | none, p1 => p1

/-- What a unit of a grid needs. -/
def Grid.need (g : Grid) : Option Need :=
  g.seed.map fun x => { bdim := g.bdim, scratch := x.scratch, accn := x.accn, qsize := g.qsize, bobs := List.replicate (max 1 g.qsize) [] }

/-- A saved unit's blocks by rank. -/
def SavedUnit.ranked (u : SavedUnit) : List Block := sortBy (fun b : Block => b.rank) u.blocks

/-- What a saved unit needs. -/
def SavedUnit.need (u : SavedUnit) : Need :=
  let b := u.blocks.head?
  { bdim := (b.map (·.threads.length)).getD 0, scratch := (b.map (·.regs.scratchSize.toNat)).getD 0, accn := (b.map (·.accn)).getD 0,
    qsize := u.qsize, bobs := u.ranked.map fun b => (u.bobbins.filter fun p => p.1 == b.bid).map fun p => p.2.1 }

/-! ## Placement from a seed (R360) -/

/-- A thread at its start. -/
def Thread.fresh (x : Seed) (priv : Bool) : Thread :=
  { Thread.blank with
    ctx := { Ctx.zero with pc := wordAddr x.entry, s := Vector.ofFn (fun i : Fin 16 => x.sinit.getD i.val 0),
                           tstate := tstateWord false priv x.nread x.stallchk } }

/-- The registers of block `rank` of unit `u` of a grid. -/
def BlockRegs.fresh (g : Grid) (x : Seed) (q : Queue) (u rank base : Nat) : BlockRegs :=
  { blockid := BitVec.ofNat 32 (if g.qsize = 0 then u else u * g.qsize + rank), blockdim := BitVec.ofNat 32 g.bdim
    gridblocks := BitVec.ofNat 32 g.gridb, qrank := if g.qsize = 0 then 0xFFFFFFFF else BitVec.ofNat 32 rank, qsize := BitVec.ofNat 32 g.qsize, argbase := g.argbase
    scratchBase := BitVec.ofNat 32 base, scratchSize := BitVec.ofNat 32 x.scratch, lmtBase := x.lmtBase
    lmtCount := BitVec.ofNat 32 x.lmtCount, ttBase := x.ttbase, ttCount := x.ttcount, mbox := x.mbox
    cbind := Vector.ofFn (fun i : Fin 4 => x.cbind.getD i.val 0), ptroot := q.root, asid := q.asid.zeroExtend 32, tvec := x.tvec
    ctxid := q.ctxid, grid := g.prio, bp0 := 0, bp1 := 0, ptrootHi := Option.none, tvecHi := Option.none, bp0Hi := Option.none
    bp1Hi := Option.none }

/-- Block `rank` of unit `u` of a grid. -/
def Block.fresh (bid unit : Nat) (g : Grid) (x : Seed) (q : Queue) (u rank : Nat) (p : Spot3) : Block :=
  { bid := bid, core := p.1, unit := unit, gridId := g.id, regs := BlockRegs.fresh g x q u rank p.2.1
    regions := Vector.replicate 8 Region.none, signals := []
    mail := Mailbox.empty
    threads := List.replicate g.bdim (Thread.fresh x g.priv), priv := g.priv, fid := g.fid, accn := x.accn, tiles := p.2.2
    eff := g.prio, save := Option.none, halted := false }

/-- Every byte of a scratchpad range is 0. -/
def State.clearScr (s : State) (core lo n : Nat) : State :=
  s.updCore core fun c => { c with scratch := c.scratch.filter (fun x => !(decide (lo ≤ x.1) && decide (x.1 < lo + n))) }

/-- A page of a new window: what an earlier block of the same context left, by a free choice, or 0 (R360). -/
def State.startPage (s : State) (core ctxid page : Nat) : State :=
  let c := s.core core
  let (k, s) := if c.owners.any fun o => o.1 == page && o.2 == ctxid then s.choose 2 else (0, s)
  let s := if k = 1 then s else s.clearScr core (4096 * page) 4096
  s.updCore core fun c => { c with owners := assocSet page ctxid c.owners }

/-- The window of a new block: its pages, its zeroed ranges, its phaser granules. -/
def State.startWindow (s : State) (b : Block) (x : Seed) : State :=
  let base := b.regs.scratchBase.toNat
  let s := (List.range (x.scratch / 4096)).foldl (fun (s : State) i => s.startPage b.core b.regs.ctxid.toNat (base / 4096 + i)) s
  let s := x.zeroed.foldl (fun (s : State) z => s.clearScr b.core (base + z.1) z.2) s
  let s := x.phasers.foldl (fun (s : State) p => s.clearScr b.core (base + p) 32) s
  s.updCore b.core fun c => { c with phasers := (x.phasers.map fun p => (base + p) / 32).eraseDups ++ c.phasers }

/-- A new block is resident: window, tiles, street entry, threads filed. -/
def State.startBlock (s : State) (b : Block) (x : Seed) : State :=
  let s := s.startWindow b x
  let s := b.tiles.foldl (fun (s : State) t => s.updTile b.core t fun _ => Tile.zero) s
  let s := s.streetAdd b.unit b.core b.core b.rank
  let s : State := { s with blocks := s.blocks ++ [b] }
  (List.range b.threads.length).foldl (fun (s : State) t => s.file b.bid t) s

/-- UNIT_PLACE: unit `u` of a grid goes to these places (R360); the low rail moves first where the grid asks for less (R249). -/
def State.placeUnit (s : State) (g : Grid) (u : Nat) (ps : List Spot3) : State :=
  match g.seed, s.queue? g.queue with
  | some x, some q =>
    let unit := s.nextUnit
    let first := s.nextBid
    let s : State := { s with nextUnit := unit + 1, nextBid := first + ps.length }
    let s := match ps with
      | p :: _ => s.lowerRail (domOf p.1) g.fid
      | [] => s
    ((List.range ps.length).zip ps).foldl (fun (s : State) p =>
      s.startBlock (Block.fresh (first + p.1) unit g x q u p.1 p.2) x) s
  | _, _ => s

/-! ## Restore (R361) -/

/-- A saved block goes to a place. -/
def Block.movedTo (b : Block) (p : Spot3) (prio : Nat) : Block :=
  { b with core := p.1, tiles := if b.tiles.isEmpty then [] else p.2.2, regs := { b.regs with scratchBase := BitVec.ofNat 32 p.2.1, grid := prio } }

/-- UNIT_RESTORE: the unit takes these places, its names are switching, and its restore is under way. -/
def State.beginRestore (s : State) (u : SavedUnit) (ps : List Spot3) : State :=
  let prio := match s.grid? u.gridId with
    | some g => g.prio
    | none => 7
  let blocks := (u.ranked.zip ps).map fun p => p.1.movedTo p.2 prio
  let u' := { u with blocks := blocks, placed := true }
  let d := domOf ((ps.headD (0, 0, [])).1)
  let s := (u.blocks.map (·.fid) ++ u.bobbins.flatMap fun p => p.2.2.fid :: p.2.2.matrixQ.map (·.fid)).foldl
    (fun (s : State) f => s.lowerRail d f) s
  ({ s with saved := s.saved.map fun x => if x.unit = u.unit then u' else x } : State).streetChange u.unit fun e =>
    if e.state = 3 then { e with state := 2 } else e

/-! ## Candidates (R368) -/

inductive Candidate where
  | saved (u : SavedUnit)
  | grid (g : Grid)

/-- The block of a saved unit that a name of its signal lists names, by any name the unit was reached by (R342, R375); in a unit of
one block it is that block. -/
def SavedUnit.named (u : SavedUnit) (name : Nat) : Option Block :=
  match u.blocks with
  | [b] => some b
  | bs => (u.aliases.find? fun a => a.1 == name).bind fun a => bs.find? fun b => b.bid == a.2

/-- The lowest priority number that a saved unit's phasers lend it: those of its image's signal lists. -/
def State.savedLent (s : State) (u : SavedUnit) : List Nat :=
  u.blocks.flatMap fun b => (List.range 16).filterMap fun j =>
    let e := SignalEntry.ofNat (s.physNat (u.partAt b + 256 + 16 * j) 16)
    if e.count = 0 then none
    else (u.named e.name).bind fun k => lowestPriority (Phaser.ofNat (s.physNat (u.scratchAt k e.off) 32)).wpri

def State.savedPriority (s : State) (u : SavedUnit) : Nat :=
  (s.savedLent u).foldl min (match s.grid? u.gridId with
    | some g => g.prio
    | none => 7)

/-- A list of a grid that has untaken units. -/
def HomeList.open (l : HomeList) : Bool := decide (l.taken < l.units.length)

/-- The list of a grid with this home, while it has untaken units. -/
def Grid.listOf (g : Grid) (home : Option Nat) : Option HomeList := g.lists.find? fun l => l.home == home && l.open

/-- A chained grid waits for its queue's earlier grids (R362). -/
def State.chained (s : State) (g : Grid) : Bool := g.chain && s.grids.any fun x => x.queue == g.queue && decide (x.id < g.id)

def State.prioOf (s : State) : Candidate → Nat
  | .saved u => s.savedPriority u
  | .grid g => g.prio

/-- Candidates in order of effective priority, then of acceptance; a grid's saved units before its new ones. -/
def State.candidates (s : State) : List Candidate :=
  let grids := (s.grids.filter fun g => g.lists.any HomeList.open && !s.chained g).map Candidate.grid
  let units := (s.saved.filter fun u => u.committed && u.resuming && !u.placed).map Candidate.saved
  sortBy (fun c => match c with
    | .saved u => ((s.savedPriority u * 2 ^ 64 + u.gridId) * 2) * 2 ^ 64 + u.unit
    | .grid g => ((g.prio * 2 ^ 64 + g.id) * 2 + 1) * 2 ^ 64) (units ++ grids)

/-- A context runs in the domains of its partition alone (R379); one that lies in no partition runs in any domain. -/
def State.partitionHolds (s : State) (d : Nat) (ctxid : Word) : Bool :=
  match s.partitions.find? fun p => p.contexts.contains ctxid.toNat with
  | some p => p.domains.contains d && !p.down
  | none => true

/-- A grid's unit fits in a domain. -/
def State.gridPlace (s : State) (d : Nat) (g : Grid) : Option (List Spot3) :=
  match g.need with
  | some n => if s.partitionHolds d g.ctxid then s.findPlace d n else none
  | none => none

/-- The context of a saved unit. -/
def SavedUnit.ctxid (u : SavedUnit) : Word := (u.blocks.head?.map (·.regs.ctxid)).getD 0

/-- A domain overflows (R367). -/
def State.overflows (s : State) (e : Nat) : Bool :=
  s.grids.any fun g => (g.listOf (some e)).isSome && (s.gridPlace e g).isNone

/-- Distance of two domains on the wafer's grid of seven columns. -/
def domDistance (d e : Nat) : Nat :=
  let diff := fun a b : Nat => max a b - min a b
  diff (d / 7) (e / 7) + diff (d % 7) (e % 7)

/-- The overflowing list of a grid that a dispatcher would take from: at the least distance, then of the lowest index. -/
def State.stealFrom (s : State) (d : Nat) (g : Grid) : Option Nat :=
  (sortBy (fun e => domDistance d e * 128 + e)
    ((List.range 84).filter fun e => e != d && (g.listOf (some e)).isSome && s.overflows e)).head?

/-- Fetch-and-add 1 on the counter of a home list (R366), and the placing of the unit received. -/
def State.takeUnit (s : State) (g : Nat) (home : Option Nat) (ps : List Spot3) : State :=
  match s.grid? g with
  | none => s
  | some x => match x.listOf home with
    | none => s
    | some l =>
      let s := s.updGrid g fun x =>
        { x with lists := x.lists.map fun y => if y.home = home then { y with taken := y.taken + 1 } else y }
      s.placeUnit x (l.units.getD l.taken 0) ps

/-- The street index has room for a new unit on these places: a placement waits for it (R375). -/
def State.roomFor (s : State) (ps : List Spot3) : Bool := s.streetRoom s.nextUnit (ps.map (·.1))

/-- Up to `k` units of a list are placed, while they fit. -/
def State.takeUnits (s : State) (d g : Nat) (home : Option Nat) : Nat → State
  | 0 => s
  | k + 1 => match s.grid? g with
    | none => s
    | some x => match x.listOf home, s.gridPlace d x with
      | some _, some ps => if s.roomFor ps then (s.takeUnit g home ps).takeUnits d g home k else s
      | _, _ => s

/-! ## Pre-emption (R370) -/

/-- The effective priority of a resident unit: the least of its blocks'. -/
def State.unitEff (s : State) (unit : Nat) : Nat :=
  (s.blocks.filter fun b => b.unit == unit).foldl (fun m b => min m b.eff) 7

/-- The machine as it would stand without a unit. -/
def State.without (s : State) (unit : Nat) : State :=
  let mine := s.blocks.filter fun b => b.unit == unit
  let s := mine.foldl (fun (s : State) b => (s.bobbinsOf b).foldl (fun (s : State) p => s.updBobbin b.core p.1 fun _ => Bobbin.zero) s) s
  { s with blocks := s.blocks.filter fun b => b.unit != unit }

/-- The rest of a slot, page by page, is at the physical addresses that follow. -/
def State.slotRest (s : State) (sp : Space) (va pa : Nat) : Nat → Bool × State
  | 0 => (true, s)
  | k + 1 => match s.feLoc sp .write va with
    | (.ok (.phys p), s) => if p = pa then s.slotRest sp (va + 4096) (pa + 4096) k else (false, s)
    | (_, s) => (false, s)

/-- A slot of a queue is taken: a save into it is under way, or its image awaits restore (R370). -/
def State.slotUsed (s : State) (q k : Nat) : Bool :=
  (s.blocks.any fun b => (b.save.bind SaveDest.slot?) == some (q, k)) || s.saved.any fun u => u.slot == some (q, k)

/-- An image in a range of memory awaits restore, or is being written, or read back (R370): whoever saved it there. -/
def State.imageWaits (s : State) (pa bytes : Nat) : Bool :=
  (s.saved.any fun u => (!u.committed || u.resuming || u.placed) && rangesMeet pa bytes u.image u.bytes) ||
    s.blocks.any fun b => match b.save with
      | some d => rangesMeet pa bytes d.addr b.bound
      | none => false

/-- The physical address of slot `k` of a queue, if it is free (R370). -/
def State.slotAt (s : State) (q : Queue) (k : Nat) : Option Nat × State :=
  if s.slotUsed q.num k then (none, s)
  else
    let va := (q.savebase.toNat + k * q.slotsz * 4096) % 2 ^ 64
    match s.feLoc (q.space s) .write va with
    | (.ok (.phys pa), s) =>
      match s.slotRest (q.space s) (va + 4096) (pa + 4096) (q.slotsz - 1) with
      | (true, s) =>
        (if s.imageRange q.ctxid.toNat pa (q.slotsz * 4096) && !s.imageWaits pa (q.slotsz * 4096) then some pa else none, s)
      | (false, s) => (none, s)
    | (_, s) => (none, s)

/-- The free slot of lowest index from `k` on: its number and address. -/
def State.freeSlot (s : State) (q : Queue) (k : Nat) : Nat → Option (Nat × Nat) × State
  | 0 => (none, s)
  | fuel + 1 => match s.slotAt q k with
    | (some pa, s) => (some (k, pa), s)
    | (none, s) => s.freeSlot q (k + 1) fuel

/-- A save is in progress in a domain. -/
def State.savingIn (s : State) (d : Nat) : Bool :=
  (s.blocks.any fun b => domOf b.core == d && b.save.isSome) || s.saved.any fun u => !u.committed && u.savedIn == d

/-- The place of a unit in the order of placement. -/
def State.placedAt (s : State) (unit : Nat) : Nat :=
  ((List.range s.blocks.length).zip s.blocks).foldl (fun m p => if p.2.unit = unit then p.1 else m) 0

/-- The units that a pre-emption for priority `p` may take, the victim first (R370). -/
def State.victims (s : State) (d p : Nat) (n : Need) : List Nat :=
  let ok := fun unit : Nat => match s.blocks.find? fun b => b.unit == unit with
    | none => false
    | some b => match s.grid? b.gridId with
      | none => false
      | some g => match s.queue? g.queue with
        | none => false
        | some q => q.pre && decide (q.slotsz * 4096 ≥ b.bound) && decide (s.unitEff unit > p) && ((s.without unit).findPlace d n).isSome
  sortBy (fun unit => (7 - s.unitEff unit) * 2 ^ 32 + (s.blocks.length - s.placedAt unit)) ((s.unitsIn d).filter ok)

/-- The first victim that has a free slot is asked to be saved there. -/
def State.preemptFirst (s : State) : List Nat → Option State
  | [] => none
  | unit :: rest =>
    match s.blocks.find? fun b => b.unit == unit with
    | none => s.preemptFirst rest
    | some b => match s.queue? (s.gridOrigin b.gridId).1 with
      | none => s.preemptFirst rest
      | some q => match s.freeSlot q 0 q.saven with
        | (some (k, pa), s) => some (s.requestSave unit (.slot q.num k pa))
        | (none, s) => s.preemptFirst rest

/-- R370: a request for a candidate's unit that fits nowhere in the domain. -/
def State.preempt (s : State) (d p : Nat) (n : Need) : Option State :=
  if (s.findPlace d n).isSome ∨ s.savingIn d then none else s.preemptFirst (s.victims d p n)

/-! ## The decision (R368) -/

/-- A saved unit may be restored in a domain. -/
def State.homeAllows (s : State) (d : Nat) (u : SavedUnit) : Bool :=
  match u.home with
  | none => true
  | some h => h == d || s.overflows h

/-- The list that a dispatcher takes a grid's next unit from (R368): its own, or that for any domain, or an overflowing one; and how
many units it asks for. -/
def State.nextList (s : State) (d : Nat) (g : Grid) : Option (Option Nat × Nat) :=
  if (g.listOf (some d)).isSome then some (some d, 1)
  else if (g.listOf none).isSome then some (none, 1)
  else (s.stealFrom d g).map fun e => (some e, 8)

/-- What a dispatcher does for one candidate whose context may run in its domain; none: it considers the next. A saved unit that
does not fit may pre-empt wherever its home is (R370). -/
def State.decideFor (s : State) (d : Nat) : Candidate → Option State
  | .saved u =>
    if !s.partitionHolds d u.ctxid then none
    else match s.findPlace d u.need with
      | some ps =>
        if !s.homeAllows d u then none
        else if s.streetRoom u.unit (s.newNames { u with blocks := (u.ranked.zip ps).map fun p => p.1.movedTo p.2 0 }) then some (s.beginRestore u ps)
        else some s
      | none => s.preempt d (s.savedPriority u) u.need
  | .grid g =>
    if !s.partitionHolds d g.ctxid then none
    else match s.nextList d g, g.need with
      | some (home, k), some n => match s.findPlace d n with
        | some ps => some (if s.roomFor ps then s.takeUnits d g.id home k else s)
        | none => s.preempt d g.prio n
      | _, _ => none

/-- A dispatcher decides: not in a held or emergency domain, not without power, not while a frequency change stops its crossings
(R398, log 178). -/
def State.dispatches (s : State) (d : Nat) : Bool :=
  !s.crossingsStop d &&
  s.platform.powered && !s.platform.fatal && !s.platform.recovery && (s.power d).state == 0 && decide (d < 84)

/-- DISPATCH_DECISION: the dispatcher of a domain makes one decision. -/
def execDispatchDecision (d : Nat) (s : State) : Host.Outcome State Fault Refusal :=
  .next (if s.dispatches d then (s.candidates.findSome? (s.decideFor d)).getD s else s)

end Sys2Proof.Machine
end

