-- ==== Sys2Proof/Machine/Fabric.lean ====
section
/-! DEFINITION. The wafer's fabric and what reaches it from outside: the topology table and retired cores (R378, R389),
partitions (R379, R380), errors on links (R381), probes (R383), host windows (R385). -/

namespace Sys2Proof.Machine

/-! ## The topology table (R389) -/

/-- A bit set of 384 positions as 48 bytes. -/
def positionBits (f : Nat → Bool) : List Byte :=
  (List.range 48).map fun i => BitVec.ofNat 8 (((List.range 8).map fun j => if f (8 * i + j) then 2 ^ j else 0).sum)

def State.positionLive (s : State) (d p : Nat) : Bool := !s.wafer.dead.contains (d, p)

/-- The logical index, within its cluster, of a live position (R17). -/
def State.indexAt (s : State) (d p : Nat) : Nat :=
  ((List.range (p % 192)).filter fun i => s.positionLive d (p / 192 * 192 + i)).length

/-- The core at a live position is retired. -/
def State.positionRetired (s : State) (d p : Nat) : Bool :=
  s.positionLive d p && s.retired (d * 512 + p / 192 * 256 + s.indexAt d p)

/-- Domain record d of the topology table: 1024 bytes. -/
def State.domainRecord (s : State) (d : Nat) : List Byte :=
  leBytes 2 (s.liveCount d 0) ++ leBytes 2 (s.liveCount d 1) ++ leBytes 4 0 ++ positionBits (s.positionLive d) ++
    positionBits (s.positionRetired d) ++ ((List.range 384).flatMap fun i => leBytes 2 (s.sliceBytes d i / 2 ^ 20)) ++
    ([1, 2, 3].flatMap fun k =>
      leBytes 4 (if s.wafer.qualified.contains (d, k) then 1 else 0) ++ leBytes 4 (s.stepRates d k).1 ++ leBytes 4 (s.stepRates d k).2) ++
    List.replicate 116 0

/-- Live cores on the wafer. -/
def State.liveCores (s : State) : Nat := ((List.range 168).map fun i => s.liveCount (i / 2) (i % 2)).sum

/-- The whole table: header, domain records, link map. -/
def State.topologyTable (s : State) : List Byte :=
  leBytes 4 1 ++ leBytes 2 s.wafer.id ++ leBytes 2 84 ++ leBytes 4 s.liveCores ++ leBytes 4 s.wafer.tableSeq ++ leBytes 4 64 ++
    leBytes 4 86080 ++ List.replicate 40 0 ++ ((List.range 84).flatMap s.domainRecord) ++
    ((List.range 96).map fun k => BitVec.ofNat 8 (s.wafer.linkDomain.getD k 0))

/-- After a retirement the device rewrites the domain's record, then SEQ as a release at sys; before boot there is no table. -/
def State.rewriteRecord (s : State) (d : Nat) : State :=
  if s.wafer.tableAt = 0 then s
  else
    let s := s.deviceStore (s.wafer.tableAt + 64 + 1024 * d) (s.domainRecord d)
    let seq := (s.wafer.tableSeq + 1) % 2 ^ 32
    ({ s with wafer := { s.wafer with tableSeq := seq } } : State).deviceStore (s.wafer.tableAt + 12) (leBytes 4 seq)

/-! ## Retirement (R378) -/

/-- Restores under way onto a core are given up: the units await restore again. -/
def State.giveUpRestores (s : State) (core : Nat) : State :=
  (s.saved.filter fun u => u.placed && u.blocks.any fun b => b.core == core).foldl (fun (s : State) u =>
    ({ s with saved := s.saved.map fun x => if x.unit = u.unit then { x with placed := false } else x } : State).streetChange u.unit fun e =>
      if e.state = 2 then { e with state := 3 } else e) s

/-- A core is retired: every grid with a unit on it stops with status 1 and cause NAME_RETIRED. -/
def State.retire_ (s : State) (core : Nat) : State :=
  if !s.coreNamed core || s.retired core then s
  else
    let grids := ((s.blocksOn core).map (·.gridId)).eraseDups
    let s : State := { s with wafer := { s.wafer with retired := s.wafer.retired ++ [core] } }
    let s := grids.foldl (fun (s : State) g => s.stopGrid g Cause.nameRetired.code false) (s.giveUpRestores core)
    s.rewriteRecord (domOf core)

/-- CORE_RETIRE: by Umavo, as its other commands; by an end-to-end check it is UNCORRECTABLE_ERROR that retires a core (R404). -/
def execCoreRetire (core : Nat) (s : State) : Host.Outcome State Fault Refusal := .next (s.hosted (s.retire_ core))

/-! ## Partitions (R379, R380) -/

/-- The domains are a rectangle of the wafer's grid. -/
def isRectangle (ds : List Nat) : Bool :=
  match ds with
  | [] => false
  | d :: _ =>
    let rows := ds.map (· / 7)
    let cols := ds.map (· % 7)
    let r0 := rows.foldl min (d / 7)
    let r1 := rows.foldl max (d / 7)
    let c0 := cols.foldl min (d % 7)
    let c1 := cols.foldl max (d % 7)
    ds.all (fun x => decide (x < 84)) &&
    (List.range 84).all fun x => ds.contains x == (decide (r0 ≤ x / 7) && decide (x / 7 ≤ r1) && decide (c0 ≤ x % 7) && decide (x % 7 ≤ c1))

/-- Links and routes as R380 allows them: links 0 to 95, wafer ids 0 to 639, at most four links of the list for a wafer; a torus
of at most 640 wafers. -/
def wiringOk (topology : Nat) (shape links : List Nat) (routes : List (Nat × List Nat)) : Bool :=
  decide (topology < 3) && links.all (fun l => decide (l < 96)) &&
  routes.all (fun r => decide (r.1 < 640) && decide (r.2.length ≤ 4) && r.2.all links.contains) &&
  (topology != 2 || (shape.length == 3 && decide (shape.foldl (fun m x => m * x) 1 ≤ 640)))

/-- A unit of one of these contexts is resident or saved. -/
def State.contextsBusy (s : State) (cs : List Nat) : Bool :=
  (s.blocks.any fun b => cs.contains b.regs.ctxid.toNat) || s.saved.any fun u => u.blocks.any fun b => cs.contains b.regs.ctxid.toNat

/-- A route set that is configured empty names no storage (R163, R380): it is as if it were not there. -/
def routesSet (routes : List (Nat × List Nat)) : List (Nat × List Nat) := routes.filter fun r => !r.2.isEmpty

/-- PARTITION_REWIRE: a partition's links, shape and routes are set while none of its units is resident or saved; a partition
that is new is joined for these domains and contexts (R379). -/
def execPartitionRewire (num : Nat) (domains contexts : List Nat) (topology : Nat) (shape links : List Nat)
    (routes : List (Nat × List Nat)) (s : State) : Host.Outcome State Fault Refusal :=
  .next (s.hosted (
    if !wiringOk topology shape links routes then s.tell (.status 4 1 0)
    else match s.partitions.find? fun p => p.num == num with
      | some p =>
        if s.contextsBusy p.contexts then s.tell (.status 4 1 0)
        else
          let p' := { p with topology := topology, shape := shape, links := links, routes := routesSet routes }
          ({ s with partitions := s.partitions.map fun x => if x.num = num then p' else x } : State).tell (.status 4 0 0)
      | none =>
        let meets := s.partitions.any fun p =>
          p.domains.any domains.contains || p.contexts.any contexts.contains || p.links.any links.contains
        if !isRectangle domains || meets || s.contextsBusy contexts then s.tell (.status 4 1 0)
        else
          let p : Partition := { num := num, domains := domains, contexts := contexts, links := links, topology := topology,
                                 shape := shape, routes := routesSet routes, down := false, headerErrors := 0 }
          ({ s with partitions := s.partitions ++ [p] } : State).tell (.status 4 0 0)))

/-- PARTITION_RESET: a partition that went down can run work again (R381). -/
def execPartitionReset (num : Nat) (s : State) : Host.Outcome State Fault Refusal :=
  .next (s.hosted { s with partitions := s.partitions.map fun p => if p.num = num then { p with down := false } else p })

/-! ## Errors (R381, R404) -/

/-- The context of an outstanding access. -/
def State.accessCtx (s : State) (a : Access) : Word :=
  match s.blockOf a.agent with
  | some b => b.regs.ctxid
  | none => match s.savedBlock (s.bidOf a.agent) with
    | some (_, b) => b.regs.ctxid
    | none => 0

/-- The message of an access is lost: the access is never performed. -/
def State.loseAccess (s : State) (id : Nat) : State := { s with accs := s.accs.filter fun a => a.id != id }

/-- A corrected error is counted where it was corrected, and the count is reported (R381, R404). -/
def State.countCorrected (s : State) (place : Nat) : State :=
  let n := assocGet 0 place s.platform.corrected + 1
  ({ s with platform := { s.platform with corrected := assocSet place n s.platform.corrected } } : State).tell (.corrected place n)

/-- LINK_FLIT_ERROR: the router of an edge link, 0 to 95, sends the flit again from its replay buffer and counts it. Any other place
whose errors are corrected where they stand (R404) counts them under a number of its own (log 149). -/
def execLinkFlitError (place : Nat) (s : State) : Host.Outcome State Fault Refusal := .next (s.countCorrected place)

/-- PAYLOAD_ERROR: a message of a context is discarded, and the context's grids stop; `lost` is the access it carried, if it
carried one. -/
def execPayloadError (ctxid : BitVec 32) (lost : Option Nat) (s : State) : Host.Outcome State Fault Refusal :=
  .next (
    let s := match lost with
      | some id => match s.access? id with
        | some a => if s.accessCtx a = ctxid then s.loseAccess id else s
        | none => s
      | none => s
    s.payloadError ctxid)

/-- HEADER_ERROR: a router discards a message for its header, one of another partition among them, and counts it (R379). The
partition whose link has detected it goes down: every grid of its contexts stops with status 2, its selvedges are CUT, and what its
contexts' agents had under way across them is lost. -/
def execHeaderError (num : Nat) (s : State) : Host.Outcome State Fault Refusal :=
  .next (match s.partitions.find? fun p => p.num == num with
    | none => s
    | some p =>
      let s : State := { s with partitions := s.partitions.map fun x =>
        if x.num = num then { x with down := true, headerErrors := x.headerErrors + 1 } else x }
      let ours := s.accs.filter fun a => p.contexts.contains (s.accessCtx a).toNat
      let s := (s.grids.filter fun g => p.contexts.contains g.ctxid.toNat).foldl (fun (s : State) g => s.stopGrid g.id 0 true) s
      let gone := ours.filter fun a => s.cutOff a.core a.loc
      (gone.foldl (fun (s : State) a => s.loseAccess a.id) s).tell (.status 0 3 num))

/-- The wafer an access goes to. -/
def Access.wafer (a : Access) : Nat :=
  match a.loc with
  | .phys pa => pa / 2 ^ 52
  | .replica pa _ => pa / 2 ^ 52
  | .scratch .. => 1024

/-- Each access that meets a test is lost, and its context has a payload error. -/
def State.failAccesses (s : State) (hit : Access → Bool) : State :=
  (s.accs.filter hit).foldl (fun (s : State) a => (s.loseAccess a.id).payloadError (s.accessCtx a)) s

/-- EDGE_LINK_LOSS: the link leaves every route set, and its messages go by another link of the set; the messages to a wafer
without a link left are payload errors. -/
def execEdgeLinkLoss (link : Nat) (s : State) : Host.Outcome State Fault Refusal :=
  .next (
    let cut := fun p : Partition => { p with links := p.links.filter (fun l => l != link),
                                             routes := p.routes.map (fun r => (r.1, r.2.filter (fun l => l != link))) }
    let s : State := { s with partitions := s.partitions.map cut }
    s.failAccesses fun a =>
      decide (a.wafer < 640) && a.wafer != s.wafer.id && (s.routeTo (s.accessCtx a).toNat a.wafer).isEmpty)

/-! ## Host windows (R385) -/

/-- HOST_WINDOW_WRITE: Umavo writes a window's descriptor; its reserved bits are ignored. -/
def execHostWindowWrite (w desc : Nat) (s : State) : Host.Outcome State Fault Refusal :=
  .next (s.hosted (if w ≥ 16 then s
    else
      let d : HostWindow :=
        { rva := BitVec.ofNat 64 (bitsOf desc 192 64), rkey := BitVec.ofNat 32 (bitsOf desc 160 32), qpn := bitsOf desc 136 24,
          size := bitsOf desc 96 40, wr := bitOf desc 2, rd := bitOf desc 1, valid := bitOf desc 0 }
      { s with windows := assocSet w d s.windows }))

/-- HOST_CONNECTION_FAILURE: every context with a store to the window that is not host-performed has a payload error; the window
is no longer VALID. -/
def execHostConnectionFailure (w : Nat) (s : State) : Host.Outcome State Fault Refusal :=
  .next (
    let hit := fun a : Access => a.isStore && (match a.loc with
      | .phys pa => pa / 2 ^ 52 == 1023 && bitsOf pa 48 4 == w
      | _ => false)
    let s := s.failAccesses hit
    { s with windows := s.windows.map fun p => if p.1 = w then (p.1, { p.2 with valid := false }) else p })

/-! ## Probes (R383) -/

/-- A fabric queue as it stands: unknown ones are empty and move. -/
def State.fabricQueue (s : State) (id : Nat) : FabricQueue :=
  (s.fabric.find? fun q => q.id == id).getD
    { id := id, blocked := false, waitsOn := id, probing := false, incoming := [], reserve := none }

def State.updFabric (s : State) (id : Nat) (f : FabricQueue → FabricQueue) : State :=
  { s with fabric := f (s.fabricQueue id) :: s.fabric.filter fun q => q.id != id }

/-- FABRIC_PROBE_SEND: the queue's head has not advanced for 1024 fabric cycles; it sends a probe to the queue its head waits
on, unless one is outstanding. -/
def execFabricProbeSend (id waitsOn : Nat) (s : State) : Host.Outcome State Fault Refusal :=
  .next (
    let out := (s.fabricQueue id).probing
    let s := s.updFabric id fun q => { q with blocked := true, waitsOn := waitsOn, probing := true }
    if out then s else s.updFabric waitsOn fun q => { q with incoming := q.incoming ++ [id] })

/-- A message in a reserve entry goes on under the ordinary rules, and may have left by the next cycle: the entry is
free then (log 159). -/
def State.drainReserves (s : State) : State :=
  s.fabric.foldl (fun (s : State) q =>
    if q.reserve.isNone then s
    else
      let (k, s) := s.choose 2
      if k = 1 then s.updFabric q.id fun x => { x with reserve := none } else s) s

/-- FABRIC_PROBE_RECEIVE: the oldest probe at a queue. Back at its origin it shows a cycle: the head message moves into the reserve
entry of the next hop, if that is empty. A blocked queue forwards it; another discards it. `blocked` says whether the queue is
blocked now. -/
def execFabricProbeReceive (id : Nat) (blocked : Bool) (s : State) : Host.Outcome State Fault Refusal :=
  .next (
    let q := s.fabricQueue id
    match q.incoming with
    | [] => s
    | origin :: rest =>
      let s := s.updFabric id fun q => { q with incoming := rest, blocked := blocked }
      if origin = id then
        let s := s.updFabric id fun q => { q with probing := false }
        if !blocked || (s.fabricQueue q.waitsOn).reserve.isSome then s
        else (s.updFabric q.waitsOn fun n => { n with reserve := some id }).updFabric id fun q => { q with blocked := false }
      else if blocked then s.updFabric q.waitsOn fun n => { n with incoming := n.incoming ++ [origin] }
      else s.updFabric origin fun o => { o with probing := false })

end Sys2Proof.Machine
end

