-- ==== Sys2Proof/Machine/Power.lean ====
section
/-! DEFINITION. The power controller: power records (R390, R391), sensors (R392 to R394), current, temperature and frequency
(R395 to R399), the emergency state (R400), rationing and trips (R397, R402), the dump (R412), uncorrectable errors (R404,
R405). Temperatures are in quarters of a degree, currents in quarters of an ampere. -/

namespace Sys2Proof.Machine

/-! ## Records (R391) -/

/-- POWER_RECORD_WRITE: every 1 ms. -/
def execPowerRecordWrite (d : Nat) (s : State) : Host.Outcome State Fault Refusal :=
  .next (if d < 84 ∧ s.platform.powered then s.writeRecord d else s)

/-! ## The setting in force (R395, R398) -/

/-- FSET as R395 gives it. -/
def PowerState.target (p : PowerState) : Nat :=
  if p.state = 0 then p.ftgt - p.sc - p.st - (if p.ss then 1 else 0) else 0

/-- FREQUENCY_CHANGE_START: a setting that differs from the one in force stops new crossings; one change at a time. -/
def State.startFrequency (s : State) (d : Nat) : State :=
  let p := s.power d
  if p.freq = .idle ∧ p.target ≠ p.fset then
    s.updPower d fun p => { p with freq := .stopping, freqTo := p.target, freqMark := s.nextId }
  else s

/-- A location lies outside a domain: in another one, of this wafer or another, or in a host window. -/
def Loc.outside (l : Loc) (wafer d : Nat) : Bool :=
  match l with
  | .phys pa => !(pa / 2 ^ 52 == wafer && (pa % 2 ^ 52 / 2 ^ 45 == d || (pa % 2 ^ 52 / 2 ^ 45 == 127 && bitsOf pa 38 7 == d)))
  | .replica _ r => r != d
  | .scratch c _ => domOf c != d

/-- A contribution out of a domain to a channel, made before message number `mark`, is not accepted yet. -/
def State.contributionOwed (s : State) (d mark : Nat) (p : Pend) : Bool :=
  decide (p.id < mark) && match p.work with
    | .coll c => (s.channel? c.chan).any fun ch => s.rootDom ch != some d
    | _ => false

/-- A request that a domain's agents made before message number `mark` is outside it, or a response to one is owed (R398): an
access, an XINV at other domains' TLBs, a contribution to a channel. -/
def State.requestOwed (s : State) (d mark : Nat) : Bool :=
  (s.accs.any fun a => domOf a.core == d && decide (a.id < mark) && a.loc.outside s.wafer.id d) ||
  (s.xinvs.any fun x => domOf (s.coreOf x.agent) == d && decide (x.id < mark) &&
    s.cores.any fun c => domOf c.1 != d && !s.xinvDoneAt x c) ||
  s.blocks.any fun b => domOf b.core == d && b.threads.any fun t => t.ctx.pend.any (s.contributionOwed d mark)

/-- QUIESCE_POINT: no request that the domain's agents made before the stop is outside it, and none is owed a response; rails and
clock change, and the clock relocks (R398). -/
def execQuiescePoint (d : Nat) (s : State) : Host.Outcome State Fault Refusal :=
  .next (
    let p := s.power d
    if p.freq = .stopping ∧ !s.requestOwed d p.freqMark then s.updPower d fun p => { p with freq := .relocking } else s)

/-- QUIESCE_TIMEOUT: the held messages are released. -/
def execQuiesceTimeout (d : Nat) (s : State) : Host.Outcome State Fault Refusal :=
  .next (if (s.power d).freq = .stopping then s.updPower d fun p => { p with freq := .released } else s)

/-- QUIESCE_RETRY: the change is tried again. -/
def execQuiesceRetry (d : Nat) (s : State) : Host.Outcome State Fault Refusal :=
  .next (if (s.power d).freq = .released then (s.updPower d fun p => { p with freq := .idle }).startFrequency d else s)

/-- CLOCK_RELOCK: the new setting is in force; a change that came meanwhile starts. -/
def execClockRelock (d : Nat) (s : State) : Host.Outcome State Fault Refusal :=
  .next (if (s.power d).freq = .relocking ∧ s.platform.powered then
      s.recorded ((s.updPower d fun p => { p with freq := .idle, fset := p.freqTo }).startFrequency d) d
    else s)

/-! ## Sensors (R392, R393) -/

/-- Twice the median of a list, if it has one. -/
def median2 (xs : List Int) : Option Int :=
  let ys := sortBy (fun x : Int => (x + 2 ^ 20).toNat) xs
  match ys with
  | [] => none
  | _ => some (ys.getD ((ys.length - 1) / 2) 0 + ys.getD (ys.length / 2) 0)

/-- The trusted of `n` sensors. -/
def trusted (n : Nat) (susp : List Nat) : List Nat := (List.range n).filter fun j => !susp.contains j

/-- Twice the median of the neighbours of sensor `j`. -/
def neighbours2 (xs : List Int) (susp : List Nat) (j : Nat) : Option Int :=
  median2 (((trusted xs.length susp).filter fun i => i != j).map fun i => xs.getD i 0)

/-- A reading out of range. -/
def outOfRange (thermal : Bool) (x : Int) : Bool := if thermal then decide (x < -80) || decide (x > 600) else decide (x > 4096)

/-- A reading that disagrees with twice the median of its neighbours. -/
def disagrees (thermal : Bool) (x : Int) (m2 : Option Int) : Bool :=
  match m2 with
  | none => false
  | some m =>
    let diff := (2 * x - m).natAbs
    if thermal then decide (diff > 64) else decide (100 * diff > 15 * m.natAbs)

/-- The counts of one sensor after a sample, its number among the ten being `k`: samples of one raw code, the first of them where no
sample is counted yet; samples that disagree; whether its neighbours' median has moved among samples of one code. -/
def PowerState.count (p : PowerState) (k : Nat) (same dis move : Bool) : PowerState :=
  let again := same && decide (p.stuckN.getD k 0 > 0)
  { p with
    stuckN := updAt (fun n => if again then n + 1 else 1) k p.stuckN
    disagreeN := updAt (fun n => if dis then n + 1 else 0) k p.disagreeN
    moved := updAt (fun m => again && (m || move)) k p.moved }

/-- The tests of R393 on one kind of sensor: the counts, and the sensors that become suspect. -/
def PowerState.test (p : PowerState) (thermal : Bool) (old new : List Int) (susp : List Nat) : PowerState × List Nat :=
  let base := if thermal then 0 else 6
  (List.range new.length).foldl (fun (r : PowerState × List Nat) j =>
    if susp.contains j then r
    else
      let x := new.getD j 0
      let m := neighbours2 new susp j
      let q := r.1.count (base + j) (x == old.getD j 0) (disagrees thermal x m) (m != neighbours2 old susp j)
      let bad := outOfRange thermal x || (decide (q.stuckN.getD (base + j) 0 ≥ 65536) && q.moved.getD (base + j) false) ||
        decide (q.disagreeN.getD (base + j) 0 ≥ 8)
      (q, if bad then r.2 ++ [j] else r.2)) (p, [])

/-- Quarter units from a count of `k`-ths of them, rounded up. -/
def roundUpBy (k : Int) (x : Int) : Int := -((-x) / k)

/-- TEMP: the largest value; a suspect sensor's is the median of the trusted ones and 5 °C. -/
def tempOf (xs : List Int) (susp : List Nat) : Int :=
  match median2 ((trusted xs.length susp).map fun j => xs.getD j 0) with
  | none => 0x7FFF
  | some m => (List.range xs.length).foldl (fun t j =>
      max t (if susp.contains j then roundUpBy 2 m + 20 else xs.getD j 0)) (-0x8000)

/-- ICUR: the sum; a suspect sensor's value is the median of the trusted ones and 10 %. -/
def icurOf (xs : List Int) (susp : List Nat) : Int :=
  match median2 ((trusted xs.length susp).map fun j => xs.getD j 0) with
  | none => 0xFFFF
  | some m => roundUpBy 20 (((List.range xs.length).map fun j => if susp.contains j then 11 * m else 20 * xs.getD j 0).sum)

/-- Too few sensors are trusted (R394). -/
def PowerState.fewTrusted (p : PowerState) : Bool :=
  decide ((trusted 6 p.suspT).length < 3) || decide ((trusted 4 p.suspI).length < 2)

def PowerState.noThermal (p : PowerState) : Bool := (trusted 6 p.suspT).isEmpty

/-! ## The grant limit (R396) -/

/-- G in the held and emergency states and under the module rule. -/
def State.forceGrant (s : State) (d : Nat) : State :=
  if (s.power d).state = 1 ∨ (s.power d).state = 2 ∨ s.platform.rationed then s.setGrant d 4 else s

/-- GRANT_STEP_DOWN: ICUR exceeds ILIM. -/
def State.grantDown (s : State) (d : Nat) : State :=
  if (s.power d).icur > (s.power d).ilim then s.setGrant d (max 4 ((s.dom d).grant - 4)) else s

/-- GRANT_STEP_UP: after 32 samples below 0.9 ILIM, one value a sample. -/
def execGrantStepUp (d : Nat) (s : State) : Host.Outcome State Fault Refusal :=
  .next (
    let p := s.power d
    if p.grantN ≥ 32 ∧ p.icur ≤ p.ilim ∧ s.platform.powered then
      s.recorded (((s.setGrant d (min 16 ((s.dom d).grant + 4))).updPower d fun p => { p with grantN := 31 }).forceGrant d) d
    else s)

/-! ## Step-downs (R395) -/

/-- The end of a power event: a frequency change that is due starts, and the record is written if it has changed. -/
def State.powerDone (s t : State) (d : Nat) : State := s.recorded (t.startFrequency d) d

def execCurrentStepDown (d : Nat) (s : State) : Host.Outcome State Fault Refusal :=
  .next (if (s.power d).overN ≥ 100 ∧ s.platform.powered then s.powerDone (s.updPower d fun p => { p with sc := min (p.sc + 1) 8, overN := 0 }) d else s)

def execCurrentStepUp (d : Nat) (s : State) : Host.Outcome State Fault Refusal :=
  .next (if (s.power d).underN ≥ 10000 ∧ (s.power d).sc > 0 ∧ s.platform.powered then
      s.powerDone (s.updPower d fun p => { p with sc := p.sc - 1, underN := 9999 }) d
    else s)

def execThermalStepDown (d : Nat) (s : State) : Host.Outcome State Fault Refusal :=
  .next (if (s.power d).hotN ≥ 1000 ∧ s.platform.powered then s.powerDone (s.updPower d fun p => { p with st := min (p.st + 1) 8, hotN := 0 }) d else s)

def execThermalStepUp (d : Nat) (s : State) : Host.Outcome State Fault Refusal :=
  .next (if (s.power d).coolN ≥ 10000 ∧ (s.power d).st > 0 ∧ s.platform.powered then
      s.powerDone (s.updPower d fun p => { p with st := p.st - 1, coolN := 9999 }) d
    else s)

/-! ## The states of a domain (R394, R400) -/

/-- EMERGENCY_EXIT: Umavo has sent a POWER command in this emergency, and TEMP has stayed below TTHR for 100 ms (R400, log 177). -/
def State.leaveEmergency (s : State) (d : Nat) : State :=
  let p := s.power d
  if p.state = 2 ∧ p.asked ∧ p.belowN ≥ 100000 then s.updPower d fun p => { p with state := if p.fewTrusted then 1 else 0, asked := false }
  else s

/-- EMERGENCY_EXIT, DOMAIN_HOLD, EMERGENCY_ENTER, what an emergency asks for next, and the end of a hold. -/
def State.settlePower (s : State) (d : Nat) : State :=
  let s := s.leaveEmergency d
  let p := s.power d
  if p.state = 3 then s
  else if p.state = 2 then s.emergencyNext d
  else if p.temp ≥ 420 ∨ p.noThermal then
    ((s.updPower d fun p => { p with state := 2, belowN := 0, asked := false }).forceGrant d).emergencyNext d
  else (s.updPower d fun p => { p with state := if p.fewTrusted then 1 else 0 }).forceGrant d

/-- One more sample that meets a condition, or none. -/
def runOf (n : Nat) (b : Bool) : Nat := if b then n + 1 else 0

/-- The consecutive samples of R395, R396 and R400 after a sample; `g` is the grant limit it was taken under. -/
def PowerState.tally (p : PowerState) (g : Nat) : PowerState :=
  { p with
    overN := runOf p.overN (decide (p.icur > p.ilim) && g == 4)
    underN := runOf p.underN (decide (10 * p.icur < 8 * p.ilim) && g == 16 && decide (p.sc > 0))
    hotN := runOf p.hotN (decide (p.temp ≥ 4 * p.tthr))
    coolN := runOf p.coolN (decide (p.temp < 4 * p.tthr - 20) && decide (p.st > 0))
    grantN := runOf p.grantN (decide (10 * p.icur < 9 * p.ilim))
    belowN := runOf p.belowN (decide (p.temp < 4 * p.tthr)) }

/-- Readings of a sample in a domain: raw values, suspicions, estimates, counts. -/
def PowerState.sample (p : PowerState) (temps currents : List Int) (g : Nat) : PowerState × List Nat × List Nat :=
  let (p1, ts) := p.test true p.temps temps p.suspT
  let (p2, is) := p1.test false p.currents currents p.suspI
  let p3 := { p2 with temps := temps, currents := currents, suspT := p2.suspT ++ ts, suspI := p2.suspI ++ is,
                      ss := p2.ss || !ts.isEmpty || !is.isEmpty }
  let p4 := { p3 with temp := tempOf temps p3.suspT, icur := icurOf currents p3.suspI }
  (p4.tally g, ts, is)

/-- The module's input power at a sample, in watts (R397): domain 0's sample carries it. -/
def State.modulePower (s : State) (d watts : Nat) : State :=
  if d ≠ 0 then s
  else
    let p := s.platform
    { s with platform := { p with over36 := runOf p.over36 (decide (watts > 36000)), below34 := runOf p.below34 (decide (watts < 34000)),
                                  over40 := runOf p.over40 (decide (watts > 40000)) } }

/-- SENSOR_SAMPLE: six thermal and four current readings of a domain, and the module's input power. -/
def execSensorSample (d : Nat) (temps currents : List Int) (watts : Nat) (s : State) : Host.Outcome State Fault Refusal :=
  .next (
    if d ≥ 84 ∨ temps.length ≠ 6 ∨ currents.length ≠ 4 ∨ !s.platform.powered then s
    else
      let (p, ts, is) := (s.power d).sample temps currents (s.dom d).grant
      let t := (s.setPower d p).modulePower d watts
      let t := (ts ++ is.map (6 + ·)).foldl (fun (s : State) j => s.tell (.power d j)) t
      s.powerDone (((t.grantDown d).forceGrant d).settlePower d) d)

/-! ## POWER (R390) -/

/-- The entries of the measurement log that are due are written, in its ring, once it has an address (R410). -/
def State.writeLog (s : State) : State :=
  let p := s.platform
  if p.mlogAt = 0 ∨ p.mlogN = 0 then s
  else
    { p.measDue.foldl (fun (s : State) e => s.deviceStore (p.mlogAt + 64 * (e.1 % p.mlogN)) e.2) s with platform := { p with measDue := [] } }

/-- The header of the power area. -/
def State.readHeader (s : State) : State :=
  let x := leNat (s.readPhys s.platform.areaAt 64)
  let p := s.platform
  ({ s with platform := { p with ebase := bitsOf x 448 64, eslot := bitsOf x 416 32, ecount := bitsOf x 400 16, dumpAt := bitsOf x 336 64,
                                 mlogAt := bitsOf x 272 64, mlogN := bitsOf x 256 16 } } : State).writeLog

/-- The fields that software writes in a record, as the device takes them; CLRSUS is taken once, and a sensor whose mark it clears
is tested anew (R393). -/
def PowerState.take (p : PowerState) (x : Nat) : PowerState :=
  let p := { p with
    ilim := max p.imin (bitsOf x 384 16)
    tthr := (if 60 ≤ bitsOf x 376 8 ∧ bitsOf x 376 8 ≤ 100 then bitsOf x 376 8 else p.tthr)
    ftgt := (if bitsOf x 330 4 ≤ 8 then bitsOf x 330 4 else p.ftgt) }
  if p.clrsus then
    let cleared := fun k : Nat => p.suspT.contains k || (decide (k ≥ 6) && p.suspI.contains (k - 6))
    { p with clrsus := false, suspT := [], suspI := [], ss := false
             stuckN := (List.range 10).map fun k => if cleared k then 0 else p.stuckN.getD k 0
             disagreeN := (List.range 10).map fun k => if cleared k then 0 else p.disagreeN.getD k 0
             moved := (List.range 10).map fun k => !cleared k && p.moved.getD k false }
  else p

/-- POWER: the device reads the RW fields of the header and of the domain's record. -/
def execPower (d : Nat) (s : State) : Host.Outcome State Fault Refusal :=
  .next (s.hosted (
    if d ≥ 84 ∨ s.platform.areaAt = 0 ∨ !s.platform.powered then s
    else
      let t := s.readHeader
      let t := t.updPower d fun p =>
        let p := p.take (leNat (s.readPhys (s.recordAt d) 64))
        { p with asked := p.state == 2 }
      let t := t.settlePower d
      s.powerDone (t.forceGrant d) d))

/-! ## Rationing and trips (R397, R402) -/

def execModuleRationStart (s : State) : Host.Outcome State Fault Refusal :=
  .next (if s.platform.over36 ≥ 20 ∧ s.platform.powered then
      let s : State := { s with platform := { s.platform with rationed := true, over36 := 0 } }
      (List.range 84).foldl (fun (s : State) d => s.recorded (s.forceGrant d) d) s
    else s)

def execModuleRationEnd (s : State) : Host.Outcome State Fault Refusal :=
  .next (if s.platform.rationed ∧ s.platform.below34 ≥ 1000 ∧ s.platform.powered then { s with platform := { s.platform with rationed := false } } else s)

/-- What stands in the cores and is under way is gone: threads, bobbins, scratchpads, accesses not performed, saves not
committed, entries not written (R402, R403, R413). -/
def State.losePowered (s : State) : State :=
  { s with
    cores := [], blocks := [], accs := [], xinvs := [], credits := [], frozen := [],
    saved := (s.saved.filter fun u => u.committed).map fun u => { u with placed := false }
    doms := s.doms.map (fun p => (p.1, { p.2 with fsqOpen := [], fsqWait := [], l2 := [] }))
    journal := s.journal.cut }

/-- The bytes of the dump after FORMAT up to its image list, at the event that causes it (R412, log 160). -/
def State.dumpHead (s : State) (cause d sensor : Nat) : List Byte :=
  let j := s.journal
  leBytes 4 cause ++ leBytes 8 s.feCycles ++ leBytes 2 d ++ leBytes 2 (if cause = 1 then sensor else 0) ++ leBytes 4 j.tail ++
    leBytes 4 (j.seq + 2 ^ 32 - 1 - j.waiting.length) ++ leBytes 4 s.platform.saves.length ++
    (List.range 84).flatMap fun k => leBytes 64 (s.recordBits k)

/-- The hard trip (R402): the core rails are removed, every domain is in state 3, a dump is due. -/
def State.hardTrip (s : State) (cause d sensor : Nat) : State :=
  if !s.platform.powered then s
  else
    let t := (List.range 84).foldl (fun (s : State) k => s.updPower k fun p => { p with state := 3 }) s.losePowered
    { t with platform := { t.platform with powered := false, dumpDue := some (s.dumpHead cause d sensor) } }

/-- The sensor by which a domain is too hot (R402, R412): its reading is 115 °C or more; or TEMP is, while a sensor is trusted, and
no reading: the suspect sensor whose value TEMP then has, the first. -/
def PowerState.tooHot (p : PowerState) (sensor : Nat) : Bool :=
  if p.temps.any fun x => decide (x ≥ 460) then decide (p.temps.getD sensor 0 ≥ 460)
  else !p.noThermal && decide (p.temp ≥ 460) && p.suspT.foldl min 6 == sensor

/-- HARD_TRIP: the comparators see it at a sensor of a domain. -/
def execHardTrip (d sensor : Nat) (s : State) : Host.Outcome State Fault Refusal :=
  .next (if (s.power d).tooHot sensor then s.hardTrip 1 d sensor else s)

/-- MODULE_POWER_TRIP. -/
def execModulePowerTrip (s : State) : Host.Outcome State Fault Refusal :=
  .next (if s.platform.over40 ≥ 50 then s.hardTrip 2 127 0 else s)

/-! ## The dump (R412) -/

/-- The dump's image list: each STATE is read from its COMMIT after the event (R403). -/
def State.dumpImages (s : State) : List Byte :=
  s.platform.saves.flatMap fun e => leBytes 8 e.image ++ leBytes 4 e.unit ++ leBytes 1 (s.physNat e.image 1) ++ leBytes 3 0

/-- DUMP_WRITE: the always-on controller writes the dump, FORMAT last; before POWER has given its address there is none. -/
def execDumpWrite (s : State) : Host.Outcome State Fault Refusal :=
  .next (match s.platform.dumpDue with
    | none => s
    | some head =>
      let s : State := { s with platform := { s.platform with dumpDue := none } }
      if s.platform.dumpAt = 0 then s
      else (s.deviceStore (s.platform.dumpAt + 4) (head ++ s.dumpImages)).deviceStore s.platform.dumpAt (leBytes 4 1))

/-! ## Uncorrectable errors (R404, R405) -/

/-- FATAL_ERROR: every grid stops, as after a context fault with its notice to the host (R329), and a dump with cause 3 is due; the
module needs a reset. The journal keeps what was written before (R413). -/
def State.fatalError (s : State) (d : Nat) : State :=
  let t := s.grids.foldl (fun (s : State) g => (s.stopGrid g.id 0 true).tell (.contextFault g.id 0)) s
  { t with journal := t.journal.cut, platform := { t.platform with fatal := true, dumpDue := some (s.dumpHead 3 d 0) } }

/-- UNCORRECTABLE_ERROR by place: 0 registers, scratchpad or tiles of a core, which is retired; 1 the granule of a byte of L2,
domain scratch or DRAM, which is poisoned; 2 a shared unit of a domain (127 for the front end). -/
def execUncorrectableError (place x : Nat) (s : State) : Host.Outcome State Fault Refusal :=
  .next (match place with
    | 0 => if s.platform.powered then s.retire_ x else s
    | 1 =>
      let k := s.physKey x / 8
      if s.platform.poison.contains k then s else { s with platform := { s.platform with poison := s.platform.poison ++ [k] } }
    | 2 => if s.platform.powered ∧ !s.platform.fatal then s.fatalError x else s
    | _ => s)

/-- POWER_LOSS: everything but what is stored stops; a save in progress stays at STATE 0 (R341). -/
def execPowerLoss (s : State) : Host.Outcome State Fault Refusal :=
  .next ({ s.losePowered with platform := { s.platform with powered := false } })

end Sys2Proof.Machine
end

