-- ==== Sys2Proof/Machine/Boot.lean ====
section
/-! DEFINITION. Containers (R406 to R408), boot and measurement (R409 to R411), resets (R413), and the loading of kernels with
the bound of safe points (R157, R357, R414). -/

namespace Sys2Proof.Machine

/-! ## Containers (R406, R407) -/

/-- Bytes `off` to `off + n − 1`. -/
def partOf (bs : List Byte) (off n : Nat) : List Byte := (bs.drop off).take n

/-- A field of a container. -/
def fieldOf (bs : List Byte) (off n : Nat) : Nat := leNat (partOf bs off n)

/-- A byte string of exactly `n` bytes. -/
def fitTo (n : Nat) (bs : List Byte) : List Byte := (bs ++ List.replicate n 0).take n

def contKind (c : List Byte) : Nat := fieldOf c 4 2
def contSvn (c : List Byte) : Nat := fieldOf c 6 2
def contPlen (c : List Byte) : Nat := fieldOf c 12 4
def contAddr (c : List Byte) : Nat := fieldOf c 16 8
def contPayload (c : List Byte) : List Byte := c.drop 0x1510

/-- K: the hash of the two keys. -/
def contKey (c : List Byte) : List Byte := fitTo 48 (Config.sha3 (partOf c 0x20 32 ++ partOf c 0x40 1952))

/-- D: the signed digest. -/
def contDigest (c : List Byte) : List Byte := fitTo 48 (Config.sha3 (c.take 0x7E0 ++ contPayload c))

/-- Reason 1: the form of a container of a kind. -/
def contForm (kind : Nat) (c : List Byte) : Bool :=
  decide (fieldOf c 0 4 = 1) && contKind c == kind && decide (fieldOf c 8 4 = 0) && decide (fieldOf c 24 8 = 0) &&
  decide (fieldOf c 0x150D 3 = 0) && decide (contPlen c ≥ 1) && (kind == 5 || decide (contAddr c = 0)) &&
  decide ((contPayload c).length = contPlen c)

/-- The first check that fails, 0 for none; `trust` gives the minimum SVN that goes with a trusted key hash. -/
def contReason (kind : Nat) (trust : List Byte → Option Nat) (c : List Byte) : Nat :=
  if !contForm kind c then 1
  else match trust (contKey c) with
    | none => 2
    | some minimum =>
      if !Config.ed25519 (partOf c 0x20 32) (contDigest c) (partOf c 0x7E0 64) then 3
      else if !Config.mlDsa65 (partOf c 0x40 1952) (contDigest c) (partOf c 0x820 3309) then 4
      else if contSvn c < minimum then 5
      else 0

/-! ## Measurement (R410) -/

/-- An extend of MEASi, with its entry in the log; before POWER has given the log's address the entry is due. -/
def State.extend (s : State) (i : Nat) (d : List Byte) (kind svn : Nat) : State :=
  let p := s.platform
  let old := p.meas.getD i (List.replicate 48 0)
  let new := fitTo 48 (Config.sha3 (old ++ fitTo 48 d ++ leBytes 2 kind ++ leBytes 2 svn))
  let entry := fitTo 48 d ++ leBytes 2 kind ++ leBytes 2 svn ++ leBytes 1 i ++ leBytes 3 0 ++ leBytes 4 p.measSeq ++ leBytes 4 0
  ({ s with platform := { p with meas := updAt (fun _ => new) i p.meas, measSeq := (p.measSeq + 1) % 2 ^ 32,
                                 measDue := p.measDue ++ [(p.measSeq, entry)] } } : State).writeLog

/-- The minimum SVN of a key hash enrolled for a context (R408). -/
def State.enrolledSvn (s : State) (ctxid : Nat) (k : List Byte) : Option Nat :=
  (s.platform.enrolled.find? fun e => e.1 == ctxid && e.2.1 == k).map (·.2.2)

/-- ENROLL: a key hash with its minimum SVN, sixteen to a context; a hash enrolled again takes the new minimum. -/
def execEnroll (ctxid : Nat) (key : List Byte) (svn : Nat) (s : State) : Host.Outcome State Fault Refusal :=
  .next (s.hosted (
    let rest := s.platform.enrolled.filter fun e => !(e.1 == ctxid && e.2.1 == key)
    if key.length ≠ 48 ∨ svn ≥ 2 ^ 16 ∨ (rest.filter fun e => e.1 == ctxid).length ≥ 16 then s.tell (.status 6 1 0)
    else
      let s : State := { s with platform := { s.platform with enrolled := rest ++ [(ctxid, key, svn)] } }
      (s.extend 6 key 0x0101 svn).tell (.status 6 0 0)))

/-- ATTEST (R411). -/
def execAttest (nonce : List Byte) (s : State) : Host.Outcome State Fault Refusal :=
  .next (s.hosted (
    let head := leBytes 4 1 ++ leBytes 2 s.wafer.id ++ leBytes 2 0 ++ leBytes 4 (s.platform.measSeq + 2 ^ 32 - 1) ++
      leBytes 4 s.wafer.tableSeq ++ fitTo 32 nonce ++ (s.platform.meas.flatMap (fitTo 48)) ++
      fitTo 32 Config.identityEd25519 ++ fitTo 1952 Config.identityMlDsa
    let digest := fitTo 48 (Config.sha3 head)
    s.tell (.attest (head ++ fitTo 64 (Config.signEd25519 digest) ++ fitTo 3309 (Config.signMlDsa digest) ++ leBytes 3 0))))

/-! ## Boot (R409) and resets (R413) -/

/-- Firmware of a kind is checked and loaded: none where it is missing or refused. -/
def State.bootFirmware (s : State) (kind : Nat) : Option State :=
  match s.platform.flash.find? fun f => f.1 == kind with
  | none => none
  | some (_, c) =>
    let trust := fun k => if s.platform.fuseKeys.contains k then some (s.platform.fuseSvn.getD (kind - 1) 0) else none
    if contReason kind trust c ≠ 0 then none else some (s.extend (kind - 1) (contDigest c) kind (contSvn c))

/-- The boot stops in the recovery state. -/
def State.recover (s : State) : State := { s with platform := { s.platform with recovery := true } }

/-- The topology table is written and measured. -/
def State.bootTable (s : State) : State :=
  let t := s.topologyTable
  let s := if s.wafer.tableAt = 0 then s else s.deviceStore s.wafer.tableAt t
  s.extend 4 (Config.sha3 t) 0x0100 1

/-- Steps 1 to 3 of the boot. -/
def State.boot (s : State) : State :=
  match s.bootFirmware 1 with
  | none => s.recover
  | some s => [2, 3, 4].foldl (fun (s : State) kind =>
      if s.platform.recovery then s
      else match s.bootFirmware kind with
        | some s => s
        | none => s.recover) s.bootTable

/-- What wafer test and the fuses fixed, as a reset finds it: positions of retired cores are live no longer (R378). -/
def State.bootWafer (s : State) (tableAt : Nat) : Wafer :=
  let gone := (List.range 84).flatMap fun d => ((List.range 384).filter fun p => s.positionRetired d p).map fun p => (d, p)
  { s.wafer with dead := s.wafer.dead ++ gone, retired := [], tableAt := tableAt, tableSeq := 0 }

/-- The state in which a boot begins, over a memory, its poisoned granules and saved units; the addresses are those that Umavo and
the boot firmware choose for the power area, the table and the street index. -/
def State.booted (s : State) (mem : List Host.Cell) (poison : List Nat) (saved : List SavedUnit) (areaAt tableAt streetAt streetLog : Nat) : State :=
  { State.reset with
    mem := (if streetLog = 0 then mem else mem.filter fun c => !(decide (streetAt ≤ c.1) && decide (c.1 < streetAt + 64 * 2 ^ streetLog)))
    saved := saved
    wafer := s.bootWafer tableAt
    powers := s.powers.map (fun p => (p.1, { PowerState.zero with imin := p.2.imin, ilim := p.2.imin }))
    platform := { Platform.zero with areaAt := areaAt, streetAt := streetAt, streetLog := streetLog, fuseKeys := s.platform.fuseKeys,
                                     fuseSvn := s.platform.fuseSvn, flash := s.platform.flash, poison := poison }
    nextBid := s.nextBid
    nextUnit := s.nextUnit
    nextGrid := s.nextGrid
    nextId := s.nextId
    outbox := s.outbox
    freeIdx := s.freeIdx
    agenda := s.agenda
    issue := s.issue }

/-- Addresses that Umavo may choose: 4 KiB-aligned, L 10 to 20, or no table. -/
def bootOk (areaAt tableAt streetAt streetLog : Nat) : Bool :=
  decide (areaAt % 4096 = 0) && decide (tableAt % 64 = 0) && decide (streetAt % 64 = 0) &&
  (streetLog == 0 || (decide (10 ≤ streetLog) && decide (streetLog ≤ 20)))

/-- A saved unit as a warm reset leaves it: its image is in DRAM, its grid and its queue are gone. -/
def SavedUnit.afterReset (u : SavedUnit) : SavedUnit :=
  { u with resuming := false, placed := false, slot := none, emergency := false, home := none }

/-- A stored byte of this wafer that is not in DRAM: a reset clears it. -/
def State.inScratchWindow (s : State) (key : Nat) : Bool := key / 2 ^ 52 == s.wafer.id && key % 2 ^ 52 / 2 ^ 45 == 127

def State.warmReset (s : State) (areaAt tableAt streetAt streetLog : Nat) : State :=
  let mem := s.mem.filter fun c => !s.inScratchWindow c.1
  let poison := s.platform.poison.filter fun g => !s.inScratchWindow (8 * g)
  (s.booted mem poison ((s.saved.filter fun u => u.committed).map SavedUnit.afterReset) areaAt tableAt streetAt streetLog).boot

def State.coldReset (s : State) (areaAt tableAt streetAt streetLog : Nat) : State :=
  (s.booted [] [] [] areaAt tableAt streetAt streetLog).boot

/-- WARM_RESET: DRAM keeps its contents. -/
def execWarmReset (areaAt tableAt streetAt streetLog : Nat) (s : State) : Host.Outcome State Fault Refusal :=
  .next (if bootOk areaAt tableAt streetAt streetLog then s.warmReset areaAt tableAt streetAt streetLog else s)

/-- COLD_RESET: DRAM is cleared. -/
def execColdReset (areaAt tableAt streetAt streetLog : Nat) (s : State) : Host.Outcome State Fault Refusal :=
  .next (if bootOk areaAt tableAt streetAt streetLog then s.coldReset areaAt tableAt streetAt streetLog else s)

/-- MODULE_RESET: warm after a trip or a fatal error, otherwise cold. -/
def execModuleReset (areaAt tableAt streetAt streetLog : Nat) (s : State) : Host.Outcome State Fault Refusal :=
  .next (if !bootOk areaAt tableAt streetAt streetLog then s
    else if s.platform.fatal || !s.platform.powered then s.warmReset areaAt tableAt streetAt streetLog
    else s.coldReset areaAt tableAt streetAt streetLog)

/-- FIRMWARE_WRITE: a firmware container goes to module flash. -/
def execFirmwareWrite (kind : Nat) (container : List Byte) (s : State) : Host.Outcome State Fault Refusal :=
  .next (if 1 ≤ kind ∧ kind ≤ 4 then
      { s with platform := { s.platform with flash := assocSet kind container s.platform.flash } }
    else s)

/-! ## Safe points (R157) -/

/-- What a code word does to a path of execution: continue, end it, a SAFE with its index, an unconditional transfer, a
conditional one, a call with its direct target, an indirect call; offsets in words. -/
inductive CodeWord where
  | plain
  | stop
  | safe (index : Nat)
  | jump (off : Int)
  | branch (off : Int)
  | call (off : Int)
  | callx
  deriving DecidableEq, Repr

/-- A word as the loader sees it: a word that is illegal by itself is plain. -/
def codeWord (w : Word) : CodeWord :=
  let o18 := (w.extractLsb' 3 18).toInt
  let o16 := (w.extractLsb' 3 16).toInt
  let zero := fun m : Word => w &&& m == 0
  let on := fun (m : Word) (c : CodeWord) => if zero m then c else .plain
  match (w.extractLsb' 24 8).toNat with
  | 0x50 => on 0x00E00000 (.jump o18)
  | 0x51 => .branch o18
  | 0x52 => .branch o18
  | 0x53 => .branch o18
  | 0x54 => .branch o18
  | 0x55 => .branch o18
  | 0x56 => on 0x00E00000 (.call o18)
  | 0x57 => on 0x00FC1FF8 .stop
  | 0x58 => on 0x00041FF8 .callx
  | 0x59 => on 0x00FC1FF8 .stop
  | 0x5C => on 0x00FFFFF8 .stop
  | 0x5E => on 0x00E00000 (.safe (w.extractLsb' 3 18).toNat)
  | 0xA4 => on 0x00F80000 (.jump o16)
  | 0xA5 => on 0x00800000 (.branch o16)
  | 0xA6 => on 0x00800000 (.branch o16)
  | 0xA7 => on 0x00800000 (.branch o16)
  | 0xA8 => on 0x00800000 (.call o16)
  | 0xA9 => on 0x000FFFF8 .stop
  | 0xE2 => on 0x00FFFFF0 .stop
  | _ => .plain

/-- The indices at which a path continues after word `i`; a direct call continues into the callee. -/
def pathNext (i : Int) : CodeWord → List Int
  | .plain => [i + 1]
  | .stop => []
  | .safe _ => [i + 1]
  | .jump o => [i + o]
  | .branch o => [i + o, i + 1]
  | .call o => [i + o]
  | .callx => []

def CodeWord.isCall : CodeWord → Bool
  | .call _ => true
  | .callx => true
  | _ => false

def CodeWord.isSafe : CodeWord → Bool
  | .safe _ => true
  | _ => false

/-- The word at an index of the range. -/
def codeAt (code : Array CodeWord) (i : Int) : Option CodeWord := if i < 0 then none else code[i.toNat]?

/-- What threads reach by fall-through, branch or call from the indices in `todo`, words after calls with them (R414): the
marks, and whether every index met lies in the range. -/
def reachFrom (code : Array CodeWord) : Nat → List Int → Array Bool → Array Bool × Bool
  | 0, _, seen => (seen, false)
  | _ + 1, [], seen => (seen, true)
  | fuel + 1, i :: todo, seen =>
    match codeAt code i with
    | none => (seen, false)
    | some c =>
      if seen.getD i.toNat false then reachFrom code fuel todo seen
      else
        let more := pathNext i c ++ (if c.isCall then [i + 1] else [])
        reachFrom code fuel (more ++ todo) (seen.setIfInBounds i.toNat true)

/-- The words from which some path of at least one more word than those of `long` runs, none of its words but the last ending
it. -/
def longer (code : Array CodeWord) (long : Array Bool) : Array Bool :=
  (Array.range code.size).map fun (i : Nat) =>
    match code[i]? with
    | none => false
    | some c => !c.isSafe && (pathNext i c).any fun j => decide (0 ≤ j) && long.getD j.toNat false

/-- The words from which a path of 2048 words or more runs, its own counted, ends at its last at the earliest. -/
def longPaths (code : Array CodeWord) : Array Bool :=
  Nat.repeat (longer code) 2047 (Array.replicate code.size true)

/-- R157 on the words of the range; `entries` are the kernel entry and the words of both lists that lie in the range. -/
def pathsBounded (code : Array CodeWord) (lmtCount : Nat) (entries : List Int) : Bool :=
  let (seen, inside) := reachFrom code (4 * code.size + entries.length + 1) entries (Array.replicate code.size false)
  let long := longPaths code
  let words := List.range code.size
  let at_ := fun i : Nat => (code[i]?).getD .plain
  let starts := entries ++ ((words.filter fun i => seen.getD i false).flatMap fun i : Nat =>
    (if (at_ i).isSafe then [(i : Int)] else []) ++ (if (at_ i).isCall then [(i : Int) + 1] else []))
  inside &&
  (words.all fun i => !(at_ i).isCall || (at_ (i + 1)).isSafe) &&
  (words.all fun i => match at_ i with
    | .safe k => decide (k < lmtCount)
    | _ => true) &&
  starts.all fun i => (pathNext i ((codeAt code i).getD .plain)).all fun j => !long.getD j.toNat false

/-! ## LOAD and UNLOAD (R357) -/

/-- The pages of the range permit execute. -/
def State.executable (s : State) (sp : Space) (base n : Nat) : Bool × State :=
  (List.range (n / 4096 + 2)).foldl (fun (r : Bool × State) k =>
    let va := if k = 0 then base else (base / 4096 + k) * 4096
    if !r.1 || va ≥ base + n then r
    else match r.2.feLoc sp .execute va with
      | (.ok _, s) => (true, s)
      | (.error _, s) => (false, s)) (true, s)

/-- The words at the addresses of a list. -/
def State.listWords (s : State) (sp : Space) : List Nat → Except FeStop (List Word) × State
  | [] => (.ok [], s)
  | va :: rest => match s.feRange sp va 4 with
    | (.error e, s) => (.error e, s)
    | (.ok bs, s) => match s.listWords sp rest with
      | (.ok ws, s) => (.ok (BitVec.ofNat 32 (leNat bs) :: ws), s)
      | (.error e, s) => (.error e, s)

/-- The status of a LOAD whose container, with this code, is accepted; none while a frozen frame holds its reads. -/
def State.loadStatus (s : State) (sp : Space) (base : Nat) (ws : List Word) (lmtBase lmtCount : Nat) (lists : List Nat) :
    Option Nat × State :=
  let n := ws.length
  if base % 4 ≠ 0 ∨ base / 2 ^ 32 ≠ (base + 4 * n - 1) / 2 ^ 32 then (some 2, s)
  else
    let (ok, s) := s.executable sp base (4 * n)
    match s.feRange sp base (4 * n) with
    | (.error .waits, s) => (none, s)
    | (.error (.fault ..), s) => (some 2, s)
    | (.ok _, s) => match s.listWords sp lists with
      | (.error .waits, s) => (none, s)
      | (.error (.fault ..), s) => (some 2, s)
      | (.ok named, s) => match s.feRange sp lmtBase (16 * lmtCount) with
        | (.error .waits, s) => (none, s)
        | (.error (.fault ..), s) => (some 2, s)
        | (.ok _, s) =>
          if !ok then (some 2, s)
          else
            let code := (ws.map codeWord).toArray
            let inRange := lists.filter fun va => decide (base ≤ va) && decide (va < base + 4 * n)
            let entries := (0 : Int) :: inRange.map fun va => (((va - base) / 4 : Nat) : Int)
            let word := fun p : Nat × Word =>
              if base ≤ p.1 ∧ p.1 < base + 4 * n then ws.getD ((p.1 - base) / 4) 0 else p.2
            if ((lists.zip named).all fun p => (codeWord (word p)).isSafe) && (lists.all fun va => va % 4 == 0) && pathsBounded code lmtCount entries then
              (some 0, s)
            else (some 1, s)

/-- The payload of an accepted container stands at its code range (R408, log 85), page by page, `fuel` pages at most. -/
def State.putCode (s : State) (sp : Space) : Nat → Nat → List Byte → State
  | 0, _, _ => s
  | fuel + 1, va, bs =>
    if bs.isEmpty then s
    else
      let m := 4096 - va % 4096
      match s.feLoc sp .execute va with
      | (.ok l, s) => (s.feStore l (bs.take m)).putCode sp fuel (va + m) (bs.drop m)
      | (.error _, s) => s

/-- LOAD: the container, then the LAYOUT checks, then those of R157; an accepted container extends MEAS5, and its payload is the
code of a loaded kernel. -/
def execLoad (ctxid root : Nat) (asid : BitVec 16) (container : List Byte) (lmtBase lmtCount : Nat) (targets traps : List Nat)
    (s : State) : Host.Outcome State Fault Refusal :=
  .next (s.hosted (
    let reason := contReason 5 (s.enrolledSvn ctxid) container
    if reason ≠ 0 then s.tell (.status 5 3 reason)
    else
      let n := contPlen container / 4
      let code := (contPayload container).take (4 * n)
      let sp := s.feSpace root asid ctxid
      match s.loadStatus sp (contAddr container) (wordsOf code n) lmtBase lmtCount (targets ++ traps) with
      | (none, s) => s
      | (some st, s) =>
        let s := s.extend 5 (contDigest container) 5 (contSvn container)
        let s := if st = 0 then s.putCode sp (n / 1024 + 2) (contAddr container) code else s
        let k : Kernel := { ctxid := BitVec.ofNat 32 ctxid, base := BitVec.ofNat 64 (contAddr container), words := n,
                            lmtBase := BitVec.ofNat 64 lmtBase, lmtCount := lmtCount, targets := targets.map (BitVec.ofNat 64),
                            trapEntries := traps.map (BitVec.ofNat 64), since := s.past.length }
        let s : State := if st = 0 then { s with kernels := s.kernels ++ [k] } else s
        s.tell (.status 5 st 0)))

/-- UNLOAD: the kernel at an address of a context. -/
def execUnload (ctxid : Nat) (base : DWord) (s : State) : Host.Outcome State Fault Refusal :=
  .next (s.hosted { s with kernels := s.kernels.filter (fun k => !(k.ctxid.toNat == ctxid && k.base == base)) })

end Sys2Proof.Machine
end

