-- ==== Sys2Proof/Machine/LaneFloat.lean ====
section
/-! DEFINITION. Lane floating point, conversions, pack and unpack, group quantisation, tags (R121 to R139). -/

namespace Sys2Proof.Machine

/-- An operation on F32 bit patterns as one on words. -/
def w32 (f : Nat → Nat → Nat) (a b : Word) : Word := BitVec.ofNat 32 (f a.toNat b.toNat)

/-- Element 0 or 1 of a packed register (R124). -/
def half (x : Word) (e : Nat) : Nat := bitsOf x.toNat (16 * e) 16

/-- A packed register from its two elements. -/
def packHalves (lo hi : Nat) : Word := BitVec.ofNat 32 (hi % 65536 * 65536 + lo % 65536)

/-- An operation on both elements of packed registers, each on its own (R124). -/
def packed2 (f : Nat → Nat → Nat) (a b : Word) : Word := packHalves (f (half a 0) (half b 0)) (f (half a 1) (half b 1))

/-- As `packed2`, with three operands. -/
def packed3 (f : Nat → Nat → Nat → Nat) (a b c : Word) : Word :=
  packHalves (f (half a 0) (half b 0) (half c 0)) (f (half a 1) (half b 1) (half c 1))

/-- `vd := f va vb`, all of one float tag. -/
def State.fBinary (s : State) (f : Word → Word → Word) (t : Tag) (d a b : BitVec 6) (n : BitVec 3) : State :=
  s.vBinary latF f t (.exactly t) (.exactly t) d a b n

/-! ## Arithmetic (R124, R125) -/

def execFaddF32 (d a b : BitVec 6) (n : BitVec 3) (s : State) : Host.Outcome State Fault Refusal :=
  .next (s.fBinary (w32 (fadd .f32)) .f32 d a b n)
def execFaddF16 (d a b : BitVec 6) (n : BitVec 3) (s : State) : Host.Outcome State Fault Refusal :=
  .next (s.fBinary (packed2 (fadd .f16)) .f16x2 d a b n)
def execFaddBf16 (d a b : BitVec 6) (n : BitVec 3) (s : State) : Host.Outcome State Fault Refusal :=
  .next (s.fBinary (packed2 (fadd .bf16)) .bf16x2 d a b n)
def execFsubF32 (d a b : BitVec 6) (n : BitVec 3) (s : State) : Host.Outcome State Fault Refusal :=
  .next (s.fBinary (w32 (fsub .f32)) .f32 d a b n)
def execFsubF16 (d a b : BitVec 6) (n : BitVec 3) (s : State) : Host.Outcome State Fault Refusal :=
  .next (s.fBinary (packed2 (fsub .f16)) .f16x2 d a b n)
def execFsubBf16 (d a b : BitVec 6) (n : BitVec 3) (s : State) : Host.Outcome State Fault Refusal :=
  .next (s.fBinary (packed2 (fsub .bf16)) .bf16x2 d a b n)
def execFmulF32 (d a b : BitVec 6) (n : BitVec 3) (s : State) : Host.Outcome State Fault Refusal :=
  .next (s.fBinary (w32 (fmul .f32)) .f32 d a b n)
def execFmulF16 (d a b : BitVec 6) (n : BitVec 3) (s : State) : Host.Outcome State Fault Refusal :=
  .next (s.fBinary (packed2 (fmul .f16)) .f16x2 d a b n)
def execFmulBf16 (d a b : BitVec 6) (n : BitVec 3) (s : State) : Host.Outcome State Fault Refusal :=
  .next (s.fBinary (packed2 (fmul .bf16)) .bf16x2 d a b n)

/-- FFMA on one register: one rounding for each element. -/
def State.fFma (s : State) (f : Word → Word → Word → Word) (t : Tag) (d a b : BitVec 6) (c : BitVec 3) (n : BitVec 3) :
    State :=
  s.vTernary latF f t (.exactly t) (.exactly t) (.exactly t) d a b c n

def execFfmaF32 (d a b : BitVec 6) (c : BitVec 3) (n : BitVec 3) (s : State) : Host.Outcome State Fault Refusal :=
  .next (s.fFma (fun x y z => BitVec.ofNat 32 (ffma .f32 x.toNat y.toNat z.toNat)) .f32 d a b c n)
def execFfmaF16 (d a b : BitVec 6) (c : BitVec 3) (n : BitVec 3) (s : State) : Host.Outcome State Fault Refusal :=
  .next (s.fFma (packed3 (ffma .f16)) .f16x2 d a b c n)
def execFfmaBf16 (d a b : BitVec 6) (c : BitVec 3) (n : BitVec 3) (s : State) : Host.Outcome State Fault Refusal :=
  .next (s.fFma (packed3 (ffma .bf16)) .bf16x2 d a b c n)

/-! ## Minimum, maximum, compare, class and sign (R126 to R129) -/

def execFminF32 (d a b : BitVec 6) (n : BitVec 3) (s : State) : Host.Outcome State Fault Refusal :=
  .next (s.fBinary (w32 (fminmax false .f32)) .f32 d a b n)
def execFminF16 (d a b : BitVec 6) (n : BitVec 3) (s : State) : Host.Outcome State Fault Refusal :=
  .next (s.fBinary (packed2 (fminmax false .f16)) .f16x2 d a b n)
def execFminBf16 (d a b : BitVec 6) (n : BitVec 3) (s : State) : Host.Outcome State Fault Refusal :=
  .next (s.fBinary (packed2 (fminmax false .bf16)) .bf16x2 d a b n)
def execFmaxF32 (d a b : BitVec 6) (n : BitVec 3) (s : State) : Host.Outcome State Fault Refusal :=
  .next (s.fBinary (w32 (fminmax true .f32)) .f32 d a b n)
def execFmaxF16 (d a b : BitVec 6) (n : BitVec 3) (s : State) : Host.Outcome State Fault Refusal :=
  .next (s.fBinary (packed2 (fminmax true .f16)) .f16x2 d a b n)
def execFmaxBf16 (d a b : BitVec 6) (n : BitVec 3) (s : State) : Host.Outcome State Fault Refusal :=
  .next (s.fBinary (packed2 (fminmax true .bf16)) .bf16x2 d a b n)

/-- FCMP: class A. -/
def State.fCompare (s : State) (c : FCond) (d : BitVec 3) (a b : BitVec 6) (n : BitVec 3) : State :=
  s.runFixed { n := n, srcs := [vSrc a 0 (.exactly .f32), vSrc b 1 (.exactly .f32)], dsts := [.k d], who := .thread } latA
    fun vs => [wK d (fcmp32 c (valAt vs 0) (valAt vs 1))]

def execFcmpEqF32 (d : BitVec 3) (a b : BitVec 6) (n : BitVec 3) (s : State) : Host.Outcome State Fault Refusal :=
  .next (s.fCompare .eq d a b n)
def execFcmpNeF32 (d : BitVec 3) (a b : BitVec 6) (n : BitVec 3) (s : State) : Host.Outcome State Fault Refusal :=
  .next (s.fCompare .ne d a b n)
def execFcmpLtF32 (d : BitVec 3) (a b : BitVec 6) (n : BitVec 3) (s : State) : Host.Outcome State Fault Refusal :=
  .next (s.fCompare .lt d a b n)
def execFcmpLeF32 (d : BitVec 3) (a b : BitVec 6) (n : BitVec 3) (s : State) : Host.Outcome State Fault Refusal :=
  .next (s.fCompare .le d a b n)
def execFcmpGtF32 (d : BitVec 3) (a b : BitVec 6) (n : BitVec 3) (s : State) : Host.Outcome State Fault Refusal :=
  .next (s.fCompare .gt d a b n)
def execFcmpGeF32 (d : BitVec 3) (a b : BitVec 6) (n : BitVec 3) (s : State) : Host.Outcome State Fault Refusal :=
  .next (s.fCompare .ge d a b n)
def execFcmpUnF32 (d : BitVec 3) (a b : BitVec 6) (n : BitVec 3) (s : State) : Host.Outcome State Fault Refusal :=
  .next (s.fCompare .un d a b n)
def execFclassF32 (d a : BitVec 6) (n : BitVec 3) (s : State) : Host.Outcome State Fault Refusal :=
  .next (s.vUnary latA (fun x => BitVec.ofNat 32 (2 ^ fclassBit .f32 x.toNat)) .n32 (.exactly .f32) d a n)
def execFabsF32 (d a : BitVec 6) (n : BitVec 3) (s : State) : Host.Outcome State Fault Refusal :=
  .next (s.vUnary latA (fun x => x &&& 0x7FFFFFFF) .f32 (.exactly .f32) d a n)
def execFnegF32 (d a : BitVec 6) (n : BitVec 3) (s : State) : Host.Outcome State Fault Refusal :=
  .next (s.vUnary latA (fun x => x ^^^ 0x80000000) .f32 (.exactly .f32) d a n)
def execFcsgnF32 (d a b : BitVec 6) (n : BitVec 3) (s : State) : Host.Outcome State Fault Refusal :=
  .next (s.vBinary latA (fun x y => (y &&& 0x80000000) ||| (x &&& 0x7FFFFFFF)) .f32 (.exactly .f32) (.exactly .f32) d a b n)

/-! ## Reciprocal, roots, exponential, logarithm (R132): variable latency -/

/-- A one-source F32 instruction of variable latency; the result may use a free value. -/
def State.fVar (s : State) (f : State → Nat → Nat × State) (d a : BitVec 6) (n : BitVec 3) : State :=
  s.runGroup { n := n, srcs := [vSrc a 0 (.exactly .f32)], dsts := [.v d], who := .thread } noFixed fun s ag vs =>
    let (r, s) := f s (valAt vs 0).toNat
    s.retireVar ag n [wV d (BitVec.ofNat 32 r) .f32] latVar

/-- One member of a set of allowed results, by a free choice (R12); a single result is no choice. -/
def State.oneOf (s : State) (xs : List Nat) : Nat × State :=
  s.pick 0 xs

/-- A result within a bound: `f` accepts or replaces a free 32-bit candidate. -/
def State.within (s : State) (f : Nat → Nat) : Nat × State :=
  let (k, s) := s.choose (2 ^ 32)
  (f k, s)

def execFrcpF32 (d a : BitVec 6) (n : BitVec 3) (s : State) : Host.Outcome State Fault Refusal :=
  .next (s.fVar (fun s x => s.oneOf (frcpSet x)) d a n)
def execFrsqF32 (d a : BitVec 6) (n : BitVec 3) (s : State) : Host.Outcome State Fault Refusal :=
  .next (s.fVar (fun s x => s.oneOf (frsqSet x)) d a n)
def execFsqrtF32 (d a : BitVec 6) (n : BitVec 3) (s : State) : Host.Outcome State Fault Refusal :=
  .next (s.fVar (fun s x => (fsqrt32 x, s)) d a n)
def execFex2F32 (d a : BitVec 6) (n : BitVec 3) (s : State) : Host.Outcome State Fault Refusal :=
  .next (s.fVar (fun s x => s.within (fex2 x)) d a n)
def execFlg2F32 (d a : BitVec 6) (n : BitVec 3) (s : State) : Host.Outcome State Fault Refusal :=
  .next (s.fVar (fun s x => s.within (flg2 x)) d a n)

/-! ## Conversions (R130, R131) -/

/-- The tags CVT accepts. -/
def cvtTags : List Tag := [.i32, .n32, .f32, .f16x2, .bf16x2, .i64, .n64]

def is64 (t : Tag) : Bool := t == .i64 || t == .n64

/-- A CVT source: the value read by its tag, element `e` of a packed one (R130). `wide` is the pair of a 64-bit source. -/
def cvtSource (t : Tag) (x : Word) (wide : DWord) (e : Nat) : FVal :=
  match t with
  | .i32 => .ofInt x.toInt
  | .n32 => .ofInt (x.toNat : Int)
  | .f32 => valueOf .f32 x.toNat
  | .f16x2 => valueOf .f16 (half x e)
  | .bf16x2 => valueOf .bf16 (half x e)
  | .i64 => .ofInt wide.toInt
  | _ => .ofInt (wide.toNat : Int)

/-- The converted word: F32, or an integer clamped to its range. -/
def cvtToF32 (m : RMode) (x : FVal) : Word := BitVec.ofNat 32 (roundF .f32 m x)
def cvtToI32 (m : RMode) (x : FVal) : Word := BitVec.ofInt 32 (toInt m (-2 ^ 31) (2 ^ 31 - 1) x)
def cvtToN32 (m : RMode) (x : FVal) : Word := BitVec.ofInt 32 (toInt m 0 (2 ^ 32 - 1) x)

/-- The CVT reads va+1 too: the value that va yields at dispatch, by the choice of R46 where va is incomplete, has a 64-bit tag,
and va is even (R130). -/
def State.readsPair (s : State) (ag : Agent) (a : BitVec 6) : Bool :=
  is64 (s.operand ag s.issue.cycle (.v a)).1.tag && a.toNat % 2 == 0

/-- The operands of a CVT of one source: va, and va+1 where it is read (R130). -/
def cvtOp (d a : BitVec 6) (n : BitVec 3) (s : State) (ag : Agent) : Op :=
  { n := n
    srcs := [vSrc a 0 (.oneOf cvtTags)] ++ (if s.readsPair ag a then [vSrc (a + 1) 0 .any] else [])
    dsts := [.v d]
    who := .thread }

/-- CVT of one source (R130, R131). A 64-bit source needs an even va, and va+1 with a 64-bit tag. -/
def State.cvtOne (s : State) (f : FVal → Word) (t : Tag) (d a : BitVec 6) (e : BitVec 1) (n : BitVec 3) : State :=
  let need := if s.issue.agents.any fun ag => s.readsPair ag a then 2 else 1
  s.runGroupWith need (cvtOp d a n) noFixed fun s ag vs =>
    let x := valAt vs 0
    let tg := tagAt vs 0
    if is64 tg then
      if a.toNat % 2 = 1 then s.trap ag .formatTag (tagInfo tg 0 a.toNat) 0
      else
        if is64 (tagAt vs 1) then s.retire ag n latF [wV d (f (cvtSource tg x (pairAt vs 0) 0)) t]
        else s.trap ag .formatTag (tagInfo (tagAt vs 1) 0 (a + 1).toNat) 0
    else s.retire ag n latF [wV d (f (cvtSource tg x 0 e.toNat)) t]

/-- CVT to a packed format: va gives element 0 and vb element 1, each from the position of its own operand. -/
def State.cvtTwo (s : State) (F : Fmt) (t : Tag) (m : RMode) (d a b : BitVec 6) (n : BitVec 3) : State :=
  let tags := [Tag.i32, .n32, .f32, .f16x2, .bf16x2]
  s.runFixed { n := n, srcs := [vSrc a 0 (.oneOf tags), vSrc b 1 (.oneOf tags)], dsts := [.v d], who := .thread } latF
    fun vs =>
    [wV d (packHalves (roundF F m (cvtSource (tagAt vs 0) (valAt vs 0) 0 0))
      (roundF F m (cvtSource (tagAt vs 1) (valAt vs 1) 0 1))) t]

def execCvtF32Rn (d a : BitVec 6) (e : BitVec 1) (n : BitVec 3) (s : State) : Host.Outcome State Fault Refusal :=
  .next (s.cvtOne (cvtToF32 .rn) .f32 d a e n)
def execCvtF32Rz (d a : BitVec 6) (e : BitVec 1) (n : BitVec 3) (s : State) : Host.Outcome State Fault Refusal :=
  .next (s.cvtOne (cvtToF32 .rz) .f32 d a e n)
def execCvtF32Rd (d a : BitVec 6) (e : BitVec 1) (n : BitVec 3) (s : State) : Host.Outcome State Fault Refusal :=
  .next (s.cvtOne (cvtToF32 .rd) .f32 d a e n)
def execCvtF32Ru (d a : BitVec 6) (e : BitVec 1) (n : BitVec 3) (s : State) : Host.Outcome State Fault Refusal :=
  .next (s.cvtOne (cvtToF32 .ru) .f32 d a e n)
def execCvtF16Rn (d a b : BitVec 6) (n : BitVec 3) (s : State) : Host.Outcome State Fault Refusal :=
  .next (s.cvtTwo .f16 .f16x2 .rn d a b n)
def execCvtF16Rz (d a b : BitVec 6) (n : BitVec 3) (s : State) : Host.Outcome State Fault Refusal :=
  .next (s.cvtTwo .f16 .f16x2 .rz d a b n)
def execCvtF16Rd (d a b : BitVec 6) (n : BitVec 3) (s : State) : Host.Outcome State Fault Refusal :=
  .next (s.cvtTwo .f16 .f16x2 .rd d a b n)
def execCvtF16Ru (d a b : BitVec 6) (n : BitVec 3) (s : State) : Host.Outcome State Fault Refusal :=
  .next (s.cvtTwo .f16 .f16x2 .ru d a b n)
def execCvtBf16Rn (d a b : BitVec 6) (n : BitVec 3) (s : State) : Host.Outcome State Fault Refusal :=
  .next (s.cvtTwo .bf16 .bf16x2 .rn d a b n)
def execCvtBf16Rz (d a b : BitVec 6) (n : BitVec 3) (s : State) : Host.Outcome State Fault Refusal :=
  .next (s.cvtTwo .bf16 .bf16x2 .rz d a b n)
def execCvtBf16Rd (d a b : BitVec 6) (n : BitVec 3) (s : State) : Host.Outcome State Fault Refusal :=
  .next (s.cvtTwo .bf16 .bf16x2 .rd d a b n)
def execCvtBf16Ru (d a b : BitVec 6) (n : BitVec 3) (s : State) : Host.Outcome State Fault Refusal :=
  .next (s.cvtTwo .bf16 .bf16x2 .ru d a b n)
def execCvtI32Rn (d a : BitVec 6) (e : BitVec 1) (n : BitVec 3) (s : State) : Host.Outcome State Fault Refusal :=
  .next (s.cvtOne (cvtToI32 .rn) .i32 d a e n)
def execCvtI32Rz (d a : BitVec 6) (e : BitVec 1) (n : BitVec 3) (s : State) : Host.Outcome State Fault Refusal :=
  .next (s.cvtOne (cvtToI32 .rz) .i32 d a e n)
def execCvtI32Rd (d a : BitVec 6) (e : BitVec 1) (n : BitVec 3) (s : State) : Host.Outcome State Fault Refusal :=
  .next (s.cvtOne (cvtToI32 .rd) .i32 d a e n)
def execCvtI32Ru (d a : BitVec 6) (e : BitVec 1) (n : BitVec 3) (s : State) : Host.Outcome State Fault Refusal :=
  .next (s.cvtOne (cvtToI32 .ru) .i32 d a e n)
def execCvtN32Rn (d a : BitVec 6) (e : BitVec 1) (n : BitVec 3) (s : State) : Host.Outcome State Fault Refusal :=
  .next (s.cvtOne (cvtToN32 .rn) .n32 d a e n)
def execCvtN32Rz (d a : BitVec 6) (e : BitVec 1) (n : BitVec 3) (s : State) : Host.Outcome State Fault Refusal :=
  .next (s.cvtOne (cvtToN32 .rz) .n32 d a e n)
def execCvtN32Rd (d a : BitVec 6) (e : BitVec 1) (n : BitVec 3) (s : State) : Host.Outcome State Fault Refusal :=
  .next (s.cvtOne (cvtToN32 .rd) .n32 d a e n)
def execCvtN32Ru (d a : BitVec 6) (e : BitVec 1) (n : BitVec 3) (s : State) : Host.Outcome State Fault Refusal :=
  .next (s.cvtOne (cvtToN32 .ru) .n32 d a e n)

/-! ## Narrow pack and unpack (R134) -/

/-- A register of narrow codes from a window of F32 values (R71). -/
def packWindow (F : Fmt) (r : Reading) (xs : List Word) : Word :=
  BitVec.ofNat 32 ((((List.range xs.length).zip xs).map fun p =>
    encodeFloat F r .rn (valueOf .f32 p.2.toNat) * 2 ^ (F.width * p.1)).sum)

/-- The F32 value of code j of a register; a NaN code gives the canonical NaN (R71). -/
def unpackCode (F : Fmt) (r : Reading) (x : Word) (j : Nat) : Word :=
  BitVec.ofNat 32 (roundF .f32 .rn (F.value r (bitsOf x.toNat (F.width * j) F.width)))

/-- NPACK: the window at va; an NREAD of 3 raises ILLEGAL with reason 7. -/
def State.npack (s : State) (F : Fmt) (k : Nat) (t : Tag) (d a : BitVec 6) (n : BitVec 3) : State :=
  s.runGroup { n := n, srcs := vSrcs a k 0 (.exactly .f32), dsts := [.v d], bad := groupBad [(a.toNat, k)], who := .thread }
    noFixed fun s ag vs =>
    match readingOf (nreadOf (s.ctx ag).tstate) with
    | none => s.illegal ag 7
    | some r => s.retire ag n latF [wV d (packWindow F r (vs.map (·.val))) t]

/-- NUNPACK: the window at vd. -/
def State.nunpack (s : State) (F : Fmt) (k : Nat) (t : Tag) (d a : BitVec 6) (n : BitVec 3) : State :=
  s.runGroup
    { n := n, srcs := [vSrc a 0 (.exactly t)], dsts := (vGroup d k).map Reg.v, bad := groupBad [(d.toNat, k)],
      who := .thread } noFixed fun s ag vs =>
    match readingOf (nreadOf (s.ctx ag).tstate) with
    | none => s.illegal ag 7
    | some r => s.retire ag n latF
        (((List.range k).zip (vGroup d k)).map fun p => wV p.2 (unpackCode F r (valAt vs 0) p.1) .f32)

def execNpackF8e4 (d a : BitVec 6) (n : BitVec 3) (s : State) : Host.Outcome State Fault Refusal :=
  .next (s.npack .f8e4 4 .f8e4 d a n)
def execNunpackF8e4 (d a : BitVec 6) (n : BitVec 3) (s : State) : Host.Outcome State Fault Refusal :=
  .next (s.nunpack .f8e4 4 .f8e4 d a n)
def execNpackF8e5 (d a : BitVec 6) (n : BitVec 3) (s : State) : Host.Outcome State Fault Refusal :=
  .next (s.npack .f8e5 4 .f8e5 d a n)
def execNunpackF8e5 (d a : BitVec 6) (n : BitVec 3) (s : State) : Host.Outcome State Fault Refusal :=
  .next (s.nunpack .f8e5 4 .f8e5 d a n)
def execNpackF6e2 (d a : BitVec 6) (n : BitVec 3) (s : State) : Host.Outcome State Fault Refusal :=
  .next (s.npack .f6e2 4 .f6e2 d a n)
def execNunpackF6e2 (d a : BitVec 6) (n : BitVec 3) (s : State) : Host.Outcome State Fault Refusal :=
  .next (s.nunpack .f6e2 4 .f6e2 d a n)
def execNpackF6e3 (d a : BitVec 6) (n : BitVec 3) (s : State) : Host.Outcome State Fault Refusal :=
  .next (s.npack .f6e3 4 .f6e3 d a n)
def execNunpackF6e3 (d a : BitVec 6) (n : BitVec 3) (s : State) : Host.Outcome State Fault Refusal :=
  .next (s.nunpack .f6e3 4 .f6e3 d a n)
def execNpackF4e2 (d a : BitVec 6) (n : BitVec 3) (s : State) : Host.Outcome State Fault Refusal :=
  .next (s.npack .f4e2 8 .f4e2 d a n)
def execNunpackF4e2 (d a : BitVec 6) (n : BitVec 3) (s : State) : Host.Outcome State Fault Refusal :=
  .next (s.nunpack .f4e2 8 .f4e2 d a n)

/-! ## Group quantisation (R135 to R137) -/

/-- QNT: the group parameter word, variable latency. -/
def State.quantise (s : State) (bits : Nat) (d a b : BitVec 6) (n : BitVec 3) : State :=
  s.runGroup { n := n, srcs := [vSrc a 0 (.exactly .f32), vSrc b 1 (.exactly .f32)], dsts := [.v d], who := .thread } noFixed
    fun s ag vs => s.retireVar ag n [wV d (w32 (qnt bits) (valAt vs 0) (valAt vs 1)) .raw] latVar

/-- DQ: the k values of a register of codes under the group parameter word. -/
def State.dequantise (s : State) (bits k : Nat) (t : Tag) (d a b : BitVec 6) (n : BitVec 3) : State :=
  s.runFixed
    { n := n, srcs := [vSrc a 0 (.exactly t), vSrc b 1 aI], dsts := (vGroup d k).map Reg.v,
      bad := groupBad [(d.toNat, k)], who := .thread } latF fun vs =>
    let g := (valAt vs 1).toNat
    ((List.range k).zip (vGroup d k)).map fun p =>
      wV p.2 (BitVec.ofNat 32 (dqCode (bitsOf g 0 16) (bitsOf g 16 8) (bitsOf (valAt vs 0).toNat (bits * p.1) bits))) .f32

def execQntQ4 (d a b : BitVec 6) (n : BitVec 3) (s : State) : Host.Outcome State Fault Refusal :=
  .next (s.quantise 4 d a b n)
def execQntQ8 (d a b : BitVec 6) (n : BitVec 3) (s : State) : Host.Outcome State Fault Refusal :=
  .next (s.quantise 8 d a b n)
def execDqQ4 (d a b : BitVec 6) (n : BitVec 3) (s : State) : Host.Outcome State Fault Refusal :=
  .next (s.dequantise 4 8 .q4 d a b n)
def execDqQ8 (d a b : BitVec 6) (n : BitVec 3) (s : State) : Host.Outcome State Fault Refusal :=
  .next (s.dequantise 8 4 .q8 d a b n)

/-! ## Tags (R138, R139) -/

/-- TAGSET keeps the value read from vd and gives it the tag. -/
def execTagset (d : BitVec 6) (i : BitVec 4) (n : BitVec 3) (s : State) : Host.Outcome State Fault Refusal :=
  .next (s.runFixed { n := n, srcs := [vSrc d 3 .any], dsts := [.v d], who := .thread } latA fun vs =>
    [wV d (valAt vs 0) (tagOfCode i.toNat)])
def execTagget (d a : BitVec 6) (n : BitVec 3) (s : State) : Host.Outcome State Fault Refusal :=
  .next (s.runFixed { n := n, srcs := [vSrc a 0 .any], dsts := [.v d], who := .thread } latA fun vs =>
    [wV d (BitVec.ofNat 32 (tagCode (tagAt vs 0))) .n32])

end Sys2Proof.Machine
end

