-- ==== Sys2Proof/Machine/Sched.lean ====
section
/-! DEFINITION. Drawing braids from bins, the pressure of aged bins, and the return of braids (R141 to R145). -/

namespace Sys2Proof.Machine

/-- The cycle count of a core's domain. -/
def State.now (s : State) (core : Nat) : Nat := (s.dom (domOf core)).cycles

/-- A bin of the core has become aged and is not counted yet. -/
def State.agedDue (s : State) (core : Nat) : Bool := (s.core core).bins.any fun b => b.isAged (s.now core) && !b.aged

/-- BIN_AGED: the counters see the bins that became aged; pressure begins, and braids count from then on (R145). -/
def execBinAged (core : Nat) (s : State) : Host.Outcome State Fault Refusal :=
  .next (
    let now := s.now core
    let new := ((s.core core).bins.filter fun b => b.isAged now && !b.aged).length
    if new = 0 then s
    else
      let s := s.countEvent core 5 new
      s.updCore core fun c =>
        let c := { c with bins := c.bins.map (fun (b : Bin) => { b with aged := b.isAged now }) }
        if c.pressure.isSome then c
        else
          { c with pressure := some now
                   pipes := c.pipes.map (fun (p : Pipe) => { p with braids := p.braids.map (fun (b : Braid) => { b with count := 0 }) }) })

/-- A block is settled: none of its threads is a member of a braid (R144). -/
def CoreState.settled (c : CoreState) (bid : Nat) : Bool := c.pipes.toList.all fun p => p.braids.all fun b => b.bid != bid

/-- A bin is eligible (R144). -/
def CoreState.eligible (c : CoreState) (now : Nat) (b : Bin) : Bool :=
  decide (b.threads.length ≥ 32) || b.isAged now || c.settled b.bid

/-- The place of a block in the core's block order (R144). -/
def State.blockOrder (s : State) (core bid : Nat) : Nat := (s.blocksOn core).findIdx fun b => b.bid == bid

/-- `x` goes before `y` under R144; `order` is the block order. Aged bins filed in the same cycle go by PC and block order too
(log 129); equals keep the order of their bins. -/
def drawsBefore (now : Nat) (order : Nat → Nat) (x y : Bin) : Bool :=
  if x.isAged now != y.isAged now then x.isAged now
  else if x.isAged now ∧ x.oldest ≠ y.oldest then decide (x.oldest < y.oldest)
  else if x.pc ≠ y.pc then x.pc.ult y.pc
  else if order x.bid ≠ order y.bid then decide (order x.bid < order y.bid)
  else decide (x.oldest < y.oldest)

/-- The index of the bin that the core draws next, if any (R144). -/
def State.drawChoice (s : State) (core : Nat) : Option Nat :=
  let c := s.core core
  let now := s.now core
  let order := s.blockOrder core
  (List.range c.bins.length).foldl (fun (m : Option Nat) i =>
    match c.bins[i]?, m with
    | none, m => m
    | some b, none => if c.eligible now b then some i else none
    | some b, some j => match c.bins[j]? with
      | some x => if c.eligible now b && drawsBefore now order b x then some i else some j
      | none => some j) none

/-- Positions 0 to n − 1 in ascending thread order (R143). -/
def braidOfBin (b : Bin) : Braid :=
  let tids := sortBy (fun x : Nat => x) (b.threads.map (·.1))
  { bid := b.bid, pc := b.pc, members := (List.range tids.length).map (fun i => (tids.getD i 0, i)), count := 0, last := none, idle := 0, expanded := false }

/-- Pressure ends with the last aged bin (R145). -/
def State.easePressure (s : State) (core : Nat) : State :=
  let now := s.now core
  s.updCore core fun c => if c.bins.any fun b => b.isAged now then c else { c with pressure := none }

/-- A pipe may draw: it has a free braid slot, and it has drawn nothing in this cycle (R143, R144). -/
def State.mayDraw (s : State) (core pipe : Nat) : Bool :=
  match (s.core core).pipes.toList[pipe]? with
  | some p => decide (p.braids.length < 32) && p.drawn != s.now core + 1
  | none => false

/-- One pipe draws one bin: its threads become members of a braid (R143); equal s-registers may get a frame (R89). -/
def State.drawInto (s : State) (core pipe : Nat) : State :=
  if !s.mayDraw core pipe then s
  else match s.drawChoice core with
    | none => s
    | some i => match (s.core core).bins[i]? with
      | none => s
      | some b =>
        let br := braidOfBin b
        let now := s.now core
        let s := s.updCore core fun c =>
          { c with bins := c.bins.eraseIdx i
                   pipes := vecUpd c.pipes pipe (fun p => { p with braids := p.braids ++ [br], drawn := now + 1 }) }
        let ms := br.members.map (fun m => (b.bid, m.1))
        (((s.countEvent core 4 1).frameAtDraw core ms).modeAtDraw core ms).easePressure core

/-- The core has a bin to draw and a pipe to draw it. -/
def State.drawDue (s : State) (core : Nat) : Bool :=
  (s.drawChoice core).isSome && (List.range 4).any fun p => s.mayDraw core p

/-- BRAID_DRAW: pipes 0 to 3 in order, at most one bin each in a cycle (R144). -/
def execBraidDraw (core : Nat) (s : State) : Host.Outcome State Fault Refusal :=
  .next ((List.range 4).foldl (fun (s : State) p => s.drawInto core p) s)

/-- A braid that a core under pressure returns (R145). -/
def Braid.tired (b : Braid) : Bool := decide (b.count ≥ 4) || decide (b.idle ≥ 16)

/-- The braids of a core that are due to return: pipe and members' block. -/
def State.returnDue (s : State) (core : Nat) : List Braid :=
  let c := s.core core
  if c.pressure.isSome && c.bins.any fun b => b.isAged (s.now core) then
    (c.pipes.toList.flatMap (·.braids)).filter Braid.tired
  else []

/-- BRAID_RETURN: every member of each such braid is filed (R142, R145). -/
def execBraidReturn (core : Nat) (s : State) : Host.Outcome State Fault Refusal :=
  .next ((s.returnDue core).foldl (fun (s : State) b => b.members.foldl (fun (s : State) m => s.file b.bid m.1) s) s)

end Sys2Proof.Machine
end

