-- ==== Sys2Proof/Machine/Dispatch.lean ====
section
/-! DEFINITION. One arm per constructor: each calls the instruction's meaning. -/

namespace Sys2Proof.Machine

def exec (i : Instr) (s : State) : Host.Outcome State Fault Refusal :=
  match i with
  | .vaddI32 d a b n => Sys2Proof.Machine.execVaddI32 d a b n s
  | .vaddI32Sat d a b n => Sys2Proof.Machine.execVaddI32Sat d a b n s
  | .vaddN32Sat d a b n => Sys2Proof.Machine.execVaddN32Sat d a b n s
  | .vsubI32 d a b n => Sys2Proof.Machine.execVsubI32 d a b n s
  | .vsubI32Sat d a b n => Sys2Proof.Machine.execVsubI32Sat d a b n s
  | .vsubN32Sat d a b n => Sys2Proof.Machine.execVsubN32Sat d a b n s
  | .vaddc d a b k n => Sys2Proof.Machine.execVaddc d a b k n s
  | .vsubb d a b k n => Sys2Proof.Machine.execVsubb d a b k n s
  | .vmulI32 d a b n => Sys2Proof.Machine.execVmulI32 d a b n s
  | .vmulhiI32 d a b n => Sys2Proof.Machine.execVmulhiI32 d a b n s
  | .vmulhiN32 d a b n => Sys2Proof.Machine.execVmulhiN32 d a b n s
  | .vmadI32 d a b c n => Sys2Proof.Machine.execVmadI32 d a b c n s
  | .vmadwI32 d a b c n => Sys2Proof.Machine.execVmadwI32 d a b c n s
  | .vmadwN32 d a b c n => Sys2Proof.Machine.execVmadwN32 d a b c n s
  | .vminI32 d a b n => Sys2Proof.Machine.execVminI32 d a b n s
  | .vminN32 d a b n => Sys2Proof.Machine.execVminN32 d a b n s
  | .vmaxI32 d a b n => Sys2Proof.Machine.execVmaxI32 d a b n s
  | .vmaxN32 d a b n => Sys2Proof.Machine.execVmaxN32 d a b n s
  | .vshlB32 d a b n => Sys2Proof.Machine.execVshlB32 d a b n s
  | .vshrN32 d a b n => Sys2Proof.Machine.execVshrN32 d a b n s
  | .vshrI32 d a b n => Sys2Proof.Machine.execVshrI32 d a b n s
  | .vrotlB32 d a b n => Sys2Proof.Machine.execVrotlB32 d a b n s
  | .vrotrB32 d a b n => Sys2Proof.Machine.execVrotrB32 d a b n s
  | .vbfeN32 d a b n => Sys2Proof.Machine.execVbfeN32 d a b n s
  | .vbfeI32 d a b n => Sys2Proof.Machine.execVbfeI32 d a b n s
  | .vbfiB32 d a b c n => Sys2Proof.Machine.execVbfiB32 d a b c n s
  | .vpopcB32 d a n => Sys2Proof.Machine.execVpopcB32 d a n s
  | .vclzB32 d a n => Sys2Proof.Machine.execVclzB32 d a n s
  | .vbrevB32 d a n => Sys2Proof.Machine.execVbrevB32 d a n s
  | .vpermB32 d a b n => Sys2Proof.Machine.execVpermB32 d a b n s
  | .vdp4I8 d a b c n => Sys2Proof.Machine.execVdp4I8 d a b c n s
  | .vdp4N8 d a b c n => Sys2Proof.Machine.execVdp4N8 d a b c n s
  | .vsadN8 d a b c n => Sys2Proof.Machine.execVsadN8 d a b c n s
  | .vandB32 d a b n => Sys2Proof.Machine.execVandB32 d a b n s
  | .vorB32 d a b n => Sys2Proof.Machine.execVorB32 d a b n s
  | .vxorB32 d a b n => Sys2Proof.Machine.execVxorB32 d a b n s
  | .vandnB32 d a b n => Sys2Proof.Machine.execVandnB32 d a b n s
  | .vnotB32 d a n => Sys2Proof.Machine.execVnotB32 d a n s
  | .vcmpEqI32 d a b n => Sys2Proof.Machine.execVcmpEqI32 d a b n s
  | .vcmpNeI32 d a b n => Sys2Proof.Machine.execVcmpNeI32 d a b n s
  | .vcmpLtI32 d a b n => Sys2Proof.Machine.execVcmpLtI32 d a b n s
  | .vcmpLeI32 d a b n => Sys2Proof.Machine.execVcmpLeI32 d a b n s
  | .vcmpGtI32 d a b n => Sys2Proof.Machine.execVcmpGtI32 d a b n s
  | .vcmpGeI32 d a b n => Sys2Proof.Machine.execVcmpGeI32 d a b n s
  | .vcmpLtN32 d a b n => Sys2Proof.Machine.execVcmpLtN32 d a b n s
  | .vcmpLeN32 d a b n => Sys2Proof.Machine.execVcmpLeN32 d a b n s
  | .vcmpGtN32 d a b n => Sys2Proof.Machine.execVcmpGtN32 d a b n s
  | .vcmpGeN32 d a b n => Sys2Proof.Machine.execVcmpGeN32 d a b n s
  | .vselB32 d a b k n => Sys2Proof.Machine.execVselB32 d a b k n s
  | .kand d a b n => Sys2Proof.Machine.execKand d a b n s
  | .kor d a b n => Sys2Proof.Machine.execKor d a b n s
  | .kxor d a b n => Sys2Proof.Machine.execKxor d a b n s
  | .kandn d a b n => Sys2Proof.Machine.execKandn d a b n s
  | .knot d a n => Sys2Proof.Machine.execKnot d a n s
  | .kmov d a n => Sys2Proof.Machine.execKmov d a n s
  | .vmovB32 d a n => Sys2Proof.Machine.execVmovB32 d a n s
  | .vmovsB32 d a n => Sys2Proof.Machine.execVmovsB32 d a n s
  | .vgetB32 d a b n => Sys2Proof.Machine.execVgetB32 d a b n s
  | .vkrd d n => Sys2Proof.Machine.execVkrd d n s
  | .vkwr a b n => Sys2Proof.Machine.execVkwr a b n s
  | .vaddiI32 d a imm n => Sys2Proof.Machine.execVaddiI32 d a imm n s
  | .vandiB32 d a imm n => Sys2Proof.Machine.execVandiB32 d a imm n s
  | .voriB32 d a imm n => Sys2Proof.Machine.execVoriB32 d a imm n s
  | .vxoriB32 d a imm n => Sys2Proof.Machine.execVxoriB32 d a imm n s
  | .vshliB32 d a imm n => Sys2Proof.Machine.execVshliB32 d a imm n s
  | .vshriN32 d a imm n => Sys2Proof.Machine.execVshriN32 d a imm n s
  | .vshriI32 d a imm n => Sys2Proof.Machine.execVshriI32 d a imm n s
  | .vmoviI32 d imm n => Sys2Proof.Machine.execVmoviI32 d imm n s
  | .collSumF32 d a b n => Sys2Proof.Machine.execCollSumF32 d a b n s
  | .collSumI32 d a b n => Sys2Proof.Machine.execCollSumI32 d a b n s
  | .collMaxI32 d a b n => Sys2Proof.Machine.execCollMaxI32 d a b n s
  | .collBcastB32 d a b n => Sys2Proof.Machine.execCollBcastB32 d a b n s
  | .faddF32 d a b n => Sys2Proof.Machine.execFaddF32 d a b n s
  | .faddF16 d a b n => Sys2Proof.Machine.execFaddF16 d a b n s
  | .faddBf16 d a b n => Sys2Proof.Machine.execFaddBf16 d a b n s
  | .fsubF32 d a b n => Sys2Proof.Machine.execFsubF32 d a b n s
  | .fsubF16 d a b n => Sys2Proof.Machine.execFsubF16 d a b n s
  | .fsubBf16 d a b n => Sys2Proof.Machine.execFsubBf16 d a b n s
  | .fmulF32 d a b n => Sys2Proof.Machine.execFmulF32 d a b n s
  | .fmulF16 d a b n => Sys2Proof.Machine.execFmulF16 d a b n s
  | .fmulBf16 d a b n => Sys2Proof.Machine.execFmulBf16 d a b n s
  | .ffmaF32 d a b c n => Sys2Proof.Machine.execFfmaF32 d a b c n s
  | .ffmaF16 d a b c n => Sys2Proof.Machine.execFfmaF16 d a b c n s
  | .ffmaBf16 d a b c n => Sys2Proof.Machine.execFfmaBf16 d a b c n s
  | .fminF32 d a b n => Sys2Proof.Machine.execFminF32 d a b n s
  | .fminF16 d a b n => Sys2Proof.Machine.execFminF16 d a b n s
  | .fminBf16 d a b n => Sys2Proof.Machine.execFminBf16 d a b n s
  | .fmaxF32 d a b n => Sys2Proof.Machine.execFmaxF32 d a b n s
  | .fmaxF16 d a b n => Sys2Proof.Machine.execFmaxF16 d a b n s
  | .fmaxBf16 d a b n => Sys2Proof.Machine.execFmaxBf16 d a b n s
  | .fcmpEqF32 d a b n => Sys2Proof.Machine.execFcmpEqF32 d a b n s
  | .fcmpNeF32 d a b n => Sys2Proof.Machine.execFcmpNeF32 d a b n s
  | .fcmpLtF32 d a b n => Sys2Proof.Machine.execFcmpLtF32 d a b n s
  | .fcmpLeF32 d a b n => Sys2Proof.Machine.execFcmpLeF32 d a b n s
  | .fcmpGtF32 d a b n => Sys2Proof.Machine.execFcmpGtF32 d a b n s
  | .fcmpGeF32 d a b n => Sys2Proof.Machine.execFcmpGeF32 d a b n s
  | .fcmpUnF32 d a b n => Sys2Proof.Machine.execFcmpUnF32 d a b n s
  | .fclassF32 d a n => Sys2Proof.Machine.execFclassF32 d a n s
  | .fabsF32 d a n => Sys2Proof.Machine.execFabsF32 d a n s
  | .fnegF32 d a n => Sys2Proof.Machine.execFnegF32 d a n s
  | .fcsgnF32 d a b n => Sys2Proof.Machine.execFcsgnF32 d a b n s
  | .frcpF32 d a n => Sys2Proof.Machine.execFrcpF32 d a n s
  | .frsqF32 d a n => Sys2Proof.Machine.execFrsqF32 d a n s
  | .fsqrtF32 d a n => Sys2Proof.Machine.execFsqrtF32 d a n s
  | .fex2F32 d a n => Sys2Proof.Machine.execFex2F32 d a n s
  | .flg2F32 d a n => Sys2Proof.Machine.execFlg2F32 d a n s
  | .cvtF32Rn d a e n => Sys2Proof.Machine.execCvtF32Rn d a e n s
  | .cvtF32Rz d a e n => Sys2Proof.Machine.execCvtF32Rz d a e n s
  | .cvtF32Rd d a e n => Sys2Proof.Machine.execCvtF32Rd d a e n s
  | .cvtF32Ru d a e n => Sys2Proof.Machine.execCvtF32Ru d a e n s
  | .cvtF16Rn d a b n => Sys2Proof.Machine.execCvtF16Rn d a b n s
  | .cvtF16Rz d a b n => Sys2Proof.Machine.execCvtF16Rz d a b n s
  | .cvtF16Rd d a b n => Sys2Proof.Machine.execCvtF16Rd d a b n s
  | .cvtF16Ru d a b n => Sys2Proof.Machine.execCvtF16Ru d a b n s
  | .cvtBf16Rn d a b n => Sys2Proof.Machine.execCvtBf16Rn d a b n s
  | .cvtBf16Rz d a b n => Sys2Proof.Machine.execCvtBf16Rz d a b n s
  | .cvtBf16Rd d a b n => Sys2Proof.Machine.execCvtBf16Rd d a b n s
  | .cvtBf16Ru d a b n => Sys2Proof.Machine.execCvtBf16Ru d a b n s
  | .cvtI32Rn d a e n => Sys2Proof.Machine.execCvtI32Rn d a e n s
  | .cvtI32Rz d a e n => Sys2Proof.Machine.execCvtI32Rz d a e n s
  | .cvtI32Rd d a e n => Sys2Proof.Machine.execCvtI32Rd d a e n s
  | .cvtI32Ru d a e n => Sys2Proof.Machine.execCvtI32Ru d a e n s
  | .cvtN32Rn d a e n => Sys2Proof.Machine.execCvtN32Rn d a e n s
  | .cvtN32Rz d a e n => Sys2Proof.Machine.execCvtN32Rz d a e n s
  | .cvtN32Rd d a e n => Sys2Proof.Machine.execCvtN32Rd d a e n s
  | .cvtN32Ru d a e n => Sys2Proof.Machine.execCvtN32Ru d a e n s
  | .npackF8e4 d a n => Sys2Proof.Machine.execNpackF8e4 d a n s
  | .npackF8e5 d a n => Sys2Proof.Machine.execNpackF8e5 d a n s
  | .npackF6e2 d a n => Sys2Proof.Machine.execNpackF6e2 d a n s
  | .npackF6e3 d a n => Sys2Proof.Machine.execNpackF6e3 d a n s
  | .npackF4e2 d a n => Sys2Proof.Machine.execNpackF4e2 d a n s
  | .nunpackF8e4 d a n => Sys2Proof.Machine.execNunpackF8e4 d a n s
  | .nunpackF8e5 d a n => Sys2Proof.Machine.execNunpackF8e5 d a n s
  | .nunpackF6e2 d a n => Sys2Proof.Machine.execNunpackF6e2 d a n s
  | .nunpackF6e3 d a n => Sys2Proof.Machine.execNunpackF6e3 d a n s
  | .nunpackF4e2 d a n => Sys2Proof.Machine.execNunpackF4e2 d a n s
  | .qntQ4 d a b n => Sys2Proof.Machine.execQntQ4 d a b n s
  | .qntQ8 d a b n => Sys2Proof.Machine.execQntQ8 d a b n s
  | .dqQ4 d a b n => Sys2Proof.Machine.execDqQ4 d a b n s
  | .dqQ8 d a b n => Sys2Proof.Machine.execDqQ8 d a b n s
  | .tagset d imm n => Sys2Proof.Machine.execTagset d imm n s
  | .tagget d a n => Sys2Proof.Machine.execTagget d a n s
  | .bra o n => Sys2Proof.Machine.execBra o n s
  | .braT k o n => Sys2Proof.Machine.execBraT k o n s
  | .braF k o n => Sys2Proof.Machine.execBraF k o n s
  | .brany k o n => Sys2Proof.Machine.execBrany k o n s
  | .brall k o n => Sys2Proof.Machine.execBrall k o n s
  | .brnone k o n => Sys2Proof.Machine.execBrnone k o n s
  | .call o n => Sys2Proof.Machine.execCall o n s
  | .brx a n => Sys2Proof.Machine.execBrx a n s
  | .callx d a n => Sys2Proof.Machine.execCallx d a n s
  | .ret a n => Sys2Proof.Machine.execRet a n s
  | .elect d n => Sys2Proof.Machine.execElect d n s
  | .voteAny d a n => Sys2Proof.Machine.execVoteAny d a n s
  | .voteAll d a n => Sys2Proof.Machine.execVoteAll d a n s
  | .voteBallot d a n => Sys2Proof.Machine.execVoteBallot d a n s
  | .exit n => Sys2Proof.Machine.execExit n s
  | .sleep a n => Sys2Proof.Machine.execSleep a n s
  | .safe imm n => Sys2Proof.Machine.execSafe imm n s
  | .reform n => Sys2Proof.Machine.execReform n s
  | .ldN8 d a o n => Sys2Proof.Machine.execLdN8 d a o n s
  | .ldI8 d a o n => Sys2Proof.Machine.execLdI8 d a o n s
  | .ldN16 d a o n => Sys2Proof.Machine.execLdN16 d a o n s
  | .ldI16 d a o n => Sys2Proof.Machine.execLdI16 d a o n s
  | .ldB32 d a o n => Sys2Proof.Machine.execLdB32 d a o n s
  | .ldB64 d a o n => Sys2Proof.Machine.execLdB64 d a o n s
  | .ldB128 d a o n => Sys2Proof.Machine.execLdB128 d a o n s
  | .stB8 d a o n => Sys2Proof.Machine.execStB8 d a o n s
  | .stB16 d a o n => Sys2Proof.Machine.execStB16 d a o n s
  | .stB32 d a o n => Sys2Proof.Machine.execStB32 d a o n s
  | .stB64 d a o n => Sys2Proof.Machine.execStB64 d a o n s
  | .stB128 d a o n => Sys2Proof.Machine.execStB128 d a o n s
  | .ldsB32 d a o n => Sys2Proof.Machine.execLdsB32 d a o n s
  | .ldsB64 d a o n => Sys2Proof.Machine.execLdsB64 d a o n s
  | .stsB32 d a o n => Sys2Proof.Machine.execStsB32 d a o n s
  | .stsB64 d a o n => Sys2Proof.Machine.execStsB64 d a o n s
  | .ldqB32 d a b n => Sys2Proof.Machine.execLdqB32 d a b n s
  | .stqB32 d a b n => Sys2Proof.Machine.execStqB32 d a b n s
  | .ldAcqB32 d a e n => Sys2Proof.Machine.execLdAcqB32 d a e n s
  | .stRelB32 d a e n => Sys2Proof.Machine.execStRelB32 d a e n s
  | .cacheEvl1 a n => Sys2Proof.Machine.execCacheEvl1 a n s
  | .cacheWbl2 a n => Sys2Proof.Machine.execCacheWbl2 a n s
  | .cacheEvl2 a n => Sys2Proof.Machine.execCacheEvl2 a n s
  | .atomAddI32 d a b n => Sys2Proof.Machine.execAtomAddI32 d a b n s
  | .atomMinI32 d a b n => Sys2Proof.Machine.execAtomMinI32 d a b n s
  | .atomMaxI32 d a b n => Sys2Proof.Machine.execAtomMaxI32 d a b n s
  | .atomMinN32 d a b n => Sys2Proof.Machine.execAtomMinN32 d a b n s
  | .atomMaxN32 d a b n => Sys2Proof.Machine.execAtomMaxN32 d a b n s
  | .atomAndB32 d a b n => Sys2Proof.Machine.execAtomAndB32 d a b n s
  | .atomOrB32 d a b n => Sys2Proof.Machine.execAtomOrB32 d a b n s
  | .atomXorB32 d a b n => Sys2Proof.Machine.execAtomXorB32 d a b n s
  | .atomXchgB32 d a b n => Sys2Proof.Machine.execAtomXchgB32 d a b n s
  | .atomCasB32 d a b n => Sys2Proof.Machine.execAtomCasB32 d a b n s
  | .atomAddF32 d a b n => Sys2Proof.Machine.execAtomAddF32 d a b n s
  | .atomAddI64 d a b n => Sys2Proof.Machine.execAtomAddI64 d a b n s
  | .atomMaxN64 d a b n => Sys2Proof.Machine.execAtomMaxN64 d a b n s
  | .atomXchgB64 d a b n => Sys2Proof.Machine.execAtomXchgB64 d a b n s
  | .atomCasB64 d a b n => Sys2Proof.Machine.execAtomCasB64 d a b n s
  | .redAddI32 a b n => Sys2Proof.Machine.execRedAddI32 a b n s
  | .redMinI32 a b n => Sys2Proof.Machine.execRedMinI32 a b n s
  | .redMaxI32 a b n => Sys2Proof.Machine.execRedMaxI32 a b n s
  | .redMinN32 a b n => Sys2Proof.Machine.execRedMinN32 a b n s
  | .redMaxN32 a b n => Sys2Proof.Machine.execRedMaxN32 a b n s
  | .redAndB32 a b n => Sys2Proof.Machine.execRedAndB32 a b n s
  | .redOrB32 a b n => Sys2Proof.Machine.execRedOrB32 a b n s
  | .redXorB32 a b n => Sys2Proof.Machine.execRedXorB32 a b n s
  | .redAddF32 a b n => Sys2Proof.Machine.execRedAddF32 a b n s
  | .redAddI64 a b n => Sys2Proof.Machine.execRedAddI64 a b n s
  | .msend d a b n => Sys2Proof.Machine.execMsend d a b n s
  | .mrecv d a b n => Sys2Proof.Machine.execMrecv d a b n s
  | .mprobe d a b n => Sys2Proof.Machine.execMprobe d a b n s
  | .mcancel d a b n => Sys2Proof.Machine.execMcancel d a b n s
  | .uaddI32 d a b n => Sys2Proof.Machine.execUaddI32 d a b n s
  | .usubI32 d a b n => Sys2Proof.Machine.execUsubI32 d a b n s
  | .umulI32 d a b n => Sys2Proof.Machine.execUmulI32 d a b n s
  | .umulhiI32 d a b n => Sys2Proof.Machine.execUmulhiI32 d a b n s
  | .umulhiN32 d a b n => Sys2Proof.Machine.execUmulhiN32 d a b n s
  | .uminI32 d a b n => Sys2Proof.Machine.execUminI32 d a b n s
  | .uminN32 d a b n => Sys2Proof.Machine.execUminN32 d a b n s
  | .umaxI32 d a b n => Sys2Proof.Machine.execUmaxI32 d a b n s
  | .umaxN32 d a b n => Sys2Proof.Machine.execUmaxN32 d a b n s
  | .uandB32 d a b n => Sys2Proof.Machine.execUandB32 d a b n s
  | .uorB32 d a b n => Sys2Proof.Machine.execUorB32 d a b n s
  | .uxorB32 d a b n => Sys2Proof.Machine.execUxorB32 d a b n s
  | .ushlB32 d a b n => Sys2Proof.Machine.execUshlB32 d a b n s
  | .ushrN32 d a b n => Sys2Proof.Machine.execUshrN32 d a b n s
  | .ushrI32 d a b n => Sys2Proof.Machine.execUshrI32 d a b n s
  | .ubfeN32 d a b n => Sys2Proof.Machine.execUbfeN32 d a b n s
  | .ubfeI32 d a b n => Sys2Proof.Machine.execUbfeI32 d a b n s
  | .ubfiB32 d a b n => Sys2Proof.Machine.execUbfiB32 d a b n s
  | .upopcB32 d a n => Sys2Proof.Machine.execUpopcB32 d a n s
  | .uclzB32 d a n => Sys2Proof.Machine.execUclzB32 d a n s
  | .ucmpEqB32 d a b n => Sys2Proof.Machine.execUcmpEqB32 d a b n s
  | .ucmpNeB32 d a b n => Sys2Proof.Machine.execUcmpNeB32 d a b n s
  | .ucmpLtI32 d a b n => Sys2Proof.Machine.execUcmpLtI32 d a b n s
  | .ucmpLeI32 d a b n => Sys2Proof.Machine.execUcmpLeI32 d a b n s
  | .ucmpLtN32 d a b n => Sys2Proof.Machine.execUcmpLtN32 d a b n s
  | .ucmpLeN32 d a b n => Sys2Proof.Machine.execUcmpLeN32 d a b n s
  | .uselB32 d a b c n => Sys2Proof.Machine.execUselB32 d a b c n s
  | .umovB32 d a n => Sys2Proof.Machine.execUmovB32 d a n s
  | .uaddI64 d a b n => Sys2Proof.Machine.execUaddI64 d a b n s
  | .uaddiI32 d imm n => Sys2Proof.Machine.execUaddiI32 d imm n s
  | .umovi d imm n => Sys2Proof.Machine.execUmovi d imm n s
  | .umovhi d imm n => Sys2Proof.Machine.execUmovhi d imm n s
  | .uandiB32 d imm n => Sys2Proof.Machine.execUandiB32 d imm n s
  | .uoriB32 d imm n => Sys2Proof.Machine.execUoriB32 d imm n s
  | .ushliB32 d imm n => Sys2Proof.Machine.execUshliB32 d imm n s
  | .ushriN32 d imm n => Sys2Proof.Machine.execUshriN32 d imm n s
  | .usr d imm n => Sys2Proof.Machine.execUsr d imm n s
  | .lduB32 d a o n => Sys2Proof.Machine.execLduB32 d a o n s
  | .lduB64 d a o n => Sys2Proof.Machine.execLduB64 d a o n s
  | .ldcB32 d a o n => Sys2Proof.Machine.execLdcB32 d a o n s
  | .ldcB64 d a o n => Sys2Proof.Machine.execLdcB64 d a o n s
  | .ubra imm n => Sys2Proof.Machine.execUbra imm n s
  | .ubrz d imm n => Sys2Proof.Machine.execUbrz d imm n s
  | .ubrnz d imm n => Sys2Proof.Machine.execUbrnz d imm n s
  | .uloop d imm n => Sys2Proof.Machine.execUloop d imm n s
  | .ucall d imm n => Sys2Proof.Machine.execUcall d imm n s
  | .uret d n => Sys2Proof.Machine.execUret d n s
  | .fork d imm n => Sys2Proof.Machine.execFork d imm n s
  | .rdzv d a n => Sys2Proof.Machine.execRdzv d a n s
  | .gresTake g n => Sys2Proof.Machine.execGresTake g n s
  | .gresDrop g n => Sys2Proof.Machine.execGresDrop g n s
  | .cpyL d a b x g n => Sys2Proof.Machine.execCpyL d a b x g n s
  | .cpyS d a b x g n => Sys2Proof.Machine.execCpyS d a b x g n s
  | .cpyT2 d a b x g n => Sys2Proof.Machine.execCpyT2 d a b x g n s
  | .cpyT3 d a b x g n => Sys2Proof.Machine.execCpyT3 d a b x g n s
  | .cpyG d a b x g n => Sys2Proof.Machine.execCpyG d a b x g n s
  | .cpyRedAdd d a b x g n => Sys2Proof.Machine.execCpyRedAdd d a b x g n s
  | .cpyRedMin d a b x g n => Sys2Proof.Machine.execCpyRedMin d a b x g n s
  | .cpyRedMax d a b x g n => Sys2Proof.Machine.execCpyRedMax d a b x g n s
  | .cpyRedAnd d a b x g n => Sys2Proof.Machine.execCpyRedAnd d a b x g n s
  | .cpyRedOr d a b x g n => Sys2Proof.Machine.execCpyRedOr d a b x g n s
  | .cpyRedXor d a b x g n => Sys2Proof.Machine.execCpyRedXor d a b x g n s
  | .cpyM d a b x g n => Sys2Proof.Machine.execCpyM d a b x g n s
  | .cpyMigr d a b x g n => Sys2Proof.Machine.execCpyMigr d a b x g n s
  | .mzero d a x g n => Sys2Proof.Machine.execMzero d a x g n s
  | .mmaP1x1 d a b x g n => Sys2Proof.Machine.execMmaP1x1 d a b x g n s
  | .mmaP2x1 d a b x g n => Sys2Proof.Machine.execMmaP2x1 d a b x g n s
  | .mmaP2x2 d a b x g n => Sys2Proof.Machine.execMmaP2x2 d a b x g n s
  | .mmaP4x1 d a b x g n => Sys2Proof.Machine.execMmaP4x1 d a b x g n s
  | .mmaP4x2 d a b x g n => Sys2Proof.Machine.execMmaP4x2 d a b x g n s
  | .mmaP4x4 d a b x g n => Sys2Proof.Machine.execMmaP4x4 d a b x g n s
  | .mmaP8x1 d a b x g n => Sys2Proof.Machine.execMmaP8x1 d a b x g n s
  | .mmaP8x2 d a b x g n => Sys2Proof.Machine.execMmaP8x2 d a b x g n s
  | .mmaP8x4 d a b x g n => Sys2Proof.Machine.execMmaP8x4 d a b x g n s
  | .mmaP8x8 d a b x g n => Sys2Proof.Machine.execMmaP8x8 d a b x g n s
  | .mrsumRow d a x g n => Sys2Proof.Machine.execMrsumRow d a x g n s
  | .mrsumCol d a x g n => Sys2Proof.Machine.execMrsumCol d a x g n s
  | .mdrainI32 d a b x g n => Sys2Proof.Machine.execMdrainI32 d a b x g n s
  | .mdrainW48 d a b x g n => Sys2Proof.Machine.execMdrainW48 d a b x g n s
  | .mdrainF32 d a b x g n => Sys2Proof.Machine.execMdrainF32 d a b x g n s
  | .mplane d a b x g n => Sys2Proof.Machine.execMplane d a b x g n s
  | .mplaneT d a b x g n => Sys2Proof.Machine.execMplaneT d a b x g n s
  | .mzpc d a b x g n => Sys2Proof.Machine.execMzpc d a b x g n s
  | .mfid a n => Sys2Proof.Machine.execMfid a n s
  | .mstat d imm n => Sys2Proof.Machine.execMstat d imm n s
  | .fidinj a b n => Sys2Proof.Machine.execFidinj a b n s
  | .phinit a n => Sys2Proof.Machine.execPhinit a n s
  | .phinitForce a n => Sys2Proof.Machine.execPhinitForce a n s
  | .phregSig d a b q n => Sys2Proof.Machine.execPhregSig d a b q n s
  | .phregWait d a b q n => Sys2Proof.Machine.execPhregWait d a b q n s
  | .phregBoth d a b q n => Sys2Proof.Machine.execPhregBoth d a b q n s
  | .phdereg d a b r q n => Sys2Proof.Machine.execPhdereg d a b r q n s
  | .pharr d a b q n => Sys2Proof.Machine.execPharr d a b q n s
  | .phexp d a b q n => Sys2Proof.Machine.execPhexp d a b q n s
  | .phwait d a b q n => Sys2Proof.Machine.execPhwait d a b q n s
  | .fenceAcq e n => Sys2Proof.Machine.execFenceAcq e n s
  | .fenceRel e n => Sys2Proof.Machine.execFenceRel e n s
  | .fenceAr e n => Sys2Proof.Machine.execFenceAr e n s
  | .xinvPage a b e n => Sys2Proof.Machine.execXinvPage a b e n s
  | .xinvRange a b e n => Sys2Proof.Machine.execXinvRange a b e n s
  | .xinvAsid b e n => Sys2Proof.Machine.execXinvAsid b e n s
  | .xinvAll e n => Sys2Proof.Machine.execXinvAll e n s
  | .xfence n => Sys2Proof.Machine.execXfence n s
  | .xsync n => Sys2Proof.Machine.execXsync n s
  | .xprobe d a b n => Sys2Proof.Machine.execXprobe d a b n s
  | .map a b w r n => Sys2Proof.Machine.execMap a b w r n s
  | .unmap r n => Sys2Proof.Machine.execUnmap r n s
  | .rflush v r n => Sys2Proof.Machine.execRflush v r n s
  | .trap imm n => Sys2Proof.Machine.execTrap imm n s
  | .syscall imm n => Sys2Proof.Machine.execSyscall imm n s
  | .eret sk n => Sys2Proof.Machine.execEret sk n s
  | .ctxsave d a b n => Sys2Proof.Machine.execCtxsave d a b n s
  | .ctxload d a b n => Sys2Proof.Machine.execCtxload d a b n s
  | .launch d a b n => Sys2Proof.Machine.execLaunch d a b n s
  | .dcfg d a b n => Sys2Proof.Machine.execDcfg d a b n s
  | .ctrrd d imm n => Sys2Proof.Machine.execCtrrd d imm n s
  | .bkpt c n => Sys2Proof.Machine.execBkpt c n s
  | .sysrd d imm n => Sys2Proof.Machine.execSysrd d imm n s
  | .syswr d imm n => Sys2Proof.Machine.execSyswr d imm n s
  | .nop x n => Sys2Proof.Machine.execNop x n s
  | .pfL1 x a y o n => Sys2Proof.Machine.execPfL1 x a y o n s
  | .pfL2 x a y o n => Sys2Proof.Machine.execPfL2 x a y o n s
  | .yield x n => Sys2Proof.Machine.execYield x n s
  | .mark x y imm n => Sys2Proof.Machine.execMark x y imm n s
  | .pendingComplete ag id part => Sys2Proof.Machine.execPendingComplete ag id part s
  | .phwaitComplete ag => Sys2Proof.Machine.execPhwaitComplete ag s
  | .sleepExpire bid tid => Sys2Proof.Machine.execSleepExpire bid tid s
  | .binAged core => Sys2Proof.Machine.execBinAged core s
  | .braidDraw core => Sys2Proof.Machine.execBraidDraw core s
  | .braidReturn core => Sys2Proof.Machine.execBraidReturn core s
  | .effectivePriorityUpdate core => Sys2Proof.Machine.execEffectivePriorityUpdate core s
  | .storeGlobalPerform id => Sys2Proof.Machine.execStoreGlobalPerform id s
  | .regionLineFill bid r line => Sys2Proof.Machine.execRegionLineFill bid r line s
  | .regionWriteBack bid r line => Sys2Proof.Machine.execRegionWriteBack bid r line s
  | .kioskRequest id => Sys2Proof.Machine.execKioskRequest id s
  | .pageWalk bid va kind => Sys2Proof.Machine.execPageWalk bid va kind s
  | .adUpdate ag va kind => Sys2Proof.Machine.execAdUpdate ag va kind s
  | .xinvTlbPerform id core => Sys2Proof.Machine.execXinvTlbPerform id core s
  | .xsyncComplete bid tid => Sys2Proof.Machine.execXsyncComplete bid tid s
  | .faultQueueEntryWrite d k => Sys2Proof.Machine.execFaultQueueEntryWrite d k s
  | .fsqRespRetry d seq => Sys2Proof.Machine.execFsqRespRetry d seq s
  | .fsqRespKill d seq => Sys2Proof.Machine.execFsqRespKill d seq s
  | .fsqHeadWrite d index => Sys2Proof.Machine.execFsqHeadWrite d index s
  | .mmioRegisterWrite d off width value => Sys2Proof.Machine.execMmioRegisterWrite d off width value s
  | .bobbinEnd core b => Sys2Proof.Machine.execBobbinEnd core b s
  | .copyCommandStart core b id parts => Sys2Proof.Machine.execCopyCommandStart core b id parts s
  | .copyCommandComplete core b id => Sys2Proof.Machine.execCopyCommandComplete core b id s
  | .phaserCredit id => Sys2Proof.Machine.execPhaserCredit id s
  | .matrixCommandStart core b id parts => Sys2Proof.Machine.execMatrixCommandStart core b id parts s
  | .planePairStep core b id soft => Sys2Proof.Machine.execPlanePairStep core b id soft s
  | .matrixCommandComplete core b id => Sys2Proof.Machine.execMatrixCommandComplete core b id s
  | .lowRailMove d => Sys2Proof.Machine.execLowRailMove d s
  | .migrStart core b id => Sys2Proof.Machine.execMigrStart core b id s
  | .migrDrainDone core b id => Sys2Proof.Machine.execMigrDrainDone core b id s
  | .migrInvalidateDone core b id => Sys2Proof.Machine.execMigrInvalidateDone core b id s
  | .mailboxAppend bid => Sys2Proof.Machine.execMailboxAppend bid s
  | .collContributionAccept ag id => Sys2Proof.Machine.execCollContributionAccept ag id s
  | .collRoundComplete chan => Sys2Proof.Machine.execCollRoundComplete chan s
  | .parkedArrival id => Sys2Proof.Machine.execParkedArrival id s
  | .nameCacheFill core bid name => Sys2Proof.Machine.execNameCacheFill core bid name s
  | .dcfgComplete bid tid => Sys2Proof.Machine.execDcfgComplete bid tid s
  | .saveImageWrite unit => Sys2Proof.Machine.execSaveImageWrite unit s
  | .imageCommit unit => Sys2Proof.Machine.execImageCommit unit s
  | .restoreComplete unit => Sys2Proof.Machine.execRestoreComplete unit s
  | .queueCreate num desc => Sys2Proof.Machine.execQueueCreate num desc s
  | .queueDestroy num => Sys2Proof.Machine.execQueueDestroy num s
  | .queueDestroyAbort num => Sys2Proof.Machine.execQueueDestroyAbort num s
  | .queueResume num => Sys2Proof.Machine.execQueueResume num s
  | .kick num => Sys2Proof.Machine.execKick num s
  | .doorbell num => Sys2Proof.Machine.execDoorbell num s
  | .fetchFenceTimer num => Sys2Proof.Machine.execFetchFenceTimer num s
  | .packetTake num => Sys2Proof.Machine.execPacketTake num s
  | .patternHoldRetry num => Sys2Proof.Machine.execPatternHoldRetry num s
  | .gridComplete gid => Sys2Proof.Machine.execGridComplete gid s
  | .journalEntryWrite => Sys2Proof.Machine.execJournalEntryWrite s
  | .jack head => Sys2Proof.Machine.execJack head s
  | .dispatchDecision d => Sys2Proof.Machine.execDispatchDecision d s
  | .load ctxid root asid container lmtBase lmtCount targets traps => Sys2Proof.Machine.execLoad ctxid root asid container lmtBase lmtCount targets traps s
  | .unload ctxid base => Sys2Proof.Machine.execUnload ctxid base s
  | .enroll ctxid key svn => Sys2Proof.Machine.execEnroll ctxid key svn s
  | .attest nonce => Sys2Proof.Machine.execAttest nonce s
  | .power d => Sys2Proof.Machine.execPower d s
  | .hostPreEmption core idx pa => Sys2Proof.Machine.execHostPreEmption core idx pa s
  | .channelConfigure desc => Sys2Proof.Machine.execChannelConfigure desc s
  | .channelRemove chan => Sys2Proof.Machine.execChannelRemove chan s
  | .partitionRewire num domains contexts topology shape links routes => Sys2Proof.Machine.execPartitionRewire num domains contexts topology shape links routes s
  | .hostWindowWrite w desc => Sys2Proof.Machine.execHostWindowWrite w desc s
  | .coreRetire core => Sys2Proof.Machine.execCoreRetire core s
  | .fabricProbeSend id waitsOn => Sys2Proof.Machine.execFabricProbeSend id waitsOn s
  | .fabricProbeReceive id blocked => Sys2Proof.Machine.execFabricProbeReceive id blocked s
  | .linkFlitError link => Sys2Proof.Machine.execLinkFlitError link s
  | .payloadError ctxid lost => Sys2Proof.Machine.execPayloadError ctxid lost s
  | .headerError num => Sys2Proof.Machine.execHeaderError num s
  | .edgeLinkLoss link => Sys2Proof.Machine.execEdgeLinkLoss link s
  | .rdmaWriteAck id => Sys2Proof.Machine.execRdmaWriteAck id s
  | .hostConnectionFailure w => Sys2Proof.Machine.execHostConnectionFailure w s
  | .sensorSample d temps currents watts => Sys2Proof.Machine.execSensorSample d temps currents watts s
  | .grantStepUp d => Sys2Proof.Machine.execGrantStepUp d s
  | .currentStepDown d => Sys2Proof.Machine.execCurrentStepDown d s
  | .currentStepUp d => Sys2Proof.Machine.execCurrentStepUp d s
  | .thermalStepDown d => Sys2Proof.Machine.execThermalStepDown d s
  | .thermalStepUp d => Sys2Proof.Machine.execThermalStepUp d s
  | .moduleRationStart => Sys2Proof.Machine.execModuleRationStart s
  | .moduleRationEnd => Sys2Proof.Machine.execModuleRationEnd s
  | .modulePowerTrip => Sys2Proof.Machine.execModulePowerTrip s
  | .hardTrip d sensor => Sys2Proof.Machine.execHardTrip d sensor s
  | .dumpWrite => Sys2Proof.Machine.execDumpWrite s
  | .powerRecordWrite d => Sys2Proof.Machine.execPowerRecordWrite d s
  | .quiescePoint d => Sys2Proof.Machine.execQuiescePoint d s
  | .quiesceTimeout d => Sys2Proof.Machine.execQuiesceTimeout d s
  | .quiesceRetry d => Sys2Proof.Machine.execQuiesceRetry d s
  | .clockRelock d => Sys2Proof.Machine.execClockRelock d s
  | .uncorrectableError place x => Sys2Proof.Machine.execUncorrectableError place x s
  | .moduleReset areaAt tableAt streetAt streetLog => Sys2Proof.Machine.execModuleReset areaAt tableAt streetAt streetLog s
  | .warmReset areaAt tableAt streetAt streetLog => Sys2Proof.Machine.execWarmReset areaAt tableAt streetAt streetLog s
  | .coldReset areaAt tableAt streetAt streetLog => Sys2Proof.Machine.execColdReset areaAt tableAt streetAt streetLog s
  | .illegalWord reason lane => Sys2Proof.Machine.execIllegalWord reason lane s
  | .undefinedHint n => Sys2Proof.Machine.execUndefinedHint n s
  | .fetchFault => Sys2Proof.Machine.execFetchFault s
  | .powerLoss => Sys2Proof.Machine.execPowerLoss s
  | .partitionReset num => Sys2Proof.Machine.execPartitionReset num s
  | .firmwareWrite kind container => Sys2Proof.Machine.execFirmwareWrite kind container s
  | .journalAddressSet pa => Sys2Proof.Machine.execJournalAddressSet pa s

end Sys2Proof.Machine
end

