-- ==== Sys2Proof/Machine/Issue.lean ====
section
/-! DEFINITION. From a braid or a bobbin to an instruction: which agents issue (R146), the fetch of their word (R99),
breakpoints (R335), decoding (R51, R61), execution, and where the braid goes on (R142); the cycle of a domain; and the machine's
own order of turns, which is taken where no schedule is given. -/

namespace Sys2Proof.Machine

/-- What a step answers. -/
abbrev Answer : Type := Host.Outcome State Fault Refusal

/-- A next state goes on through `f`. -/
def thenDo (f : State → State) : Answer → Answer
  | .next s => .next (f s)
  | .fault r => .fault r
  | .refused r => .refused r

/-- The next state, or the one given where there is none. -/
def orStay (s : State) : Answer → State
  | .next t => t
  | _ => s

/-! ## One word -/

/-- A decoded word runs; a word that is no instruction raises ILLEGAL, and an undefined hint executes as NOP (R51, R55, R61). -/
noncomputable def State.runWord (s : State) (w : Word) : Answer :=
  match decodeWord w with
  | .ok i => exec i s
  | .error .hint => exec (.undefinedHint (w.extractLsb' 0 3)) s
  | .error r => exec (.illegalWord r.reason (!w.getLsbD 31)) s

/-- The step's agents are these. -/
def State.among (s : State) (ags : List Agent) : State := { s with issue := { s.issue with agents := ags } }

/-- An agent is in a block that has been stopped. -/
def State.stopped (s : State) (ag : Agent) : Bool :=
  match s.blockOf ag with
  | some b => b.halted
  | none => true

/-- A thread's status: none for a bobbin. -/
def State.statusOf (s : State) : Agent → Option TStatus
  | .thread bid tid => (s.thread? bid tid).map (·.status)
  | .bobbin .. => none

/-- A bobbin's status, whether it is parked, and what it waits for: none for a thread. -/
def State.bstatusOf (s : State) : Agent → Option (BStatus × Bool × Option Wait)
  | .thread .. => none
  | .bobbin core b => some ((s.bobbin core b).status, (s.bobbin core b).parked, (s.bobbin core b).wait)

/-- Between two states an agent has executed its word, taken a trap or stopped; else it waits (R48). -/
def acted (s t : State) (ag : Agent) : Bool :=
  decide (s.ctx ag ≠ t.ctx ag) || decide (s.statusOf ag ≠ t.statusOf ag) || decide (s.bstatusOf ag ≠ t.bstatusOf ag) || s.stopped ag != t.stopped ag

/-- Each agent fetches the word at its PC, one whose fetch faults takes that fault alone (R99, R146). The words, and the state. -/
def State.fetchAll (s : State) : List Agent → List (Agent × Word) × State
  | [] => ([], s)
  | ag :: rest =>
    match s.fetch ag with
    | (some w, s) =>
      let (ws, s) := s.fetchAll rest
      ((ag, w) :: ws, s)
    | (none, _) => (orStay s (exec .fetchFault (s.among [ag]))).fetchAll rest

/-- A breakpoint stops the thread before its word, which does not dispatch, with trap.info 0x100 and its number (R335). -/
def State.breakAt (s : State) (ag : Agent) : State :=
  match ag, s.breakpoint ag with
  | .thread bid tid, some k =>
    s.trapThread bid tid .break_ (BitVec.ofNat 32 (0x100 + k)) 0 (s.ctx ag).pc s.issue.word (s.issue.now + 1)
  | _, _ => s

/-- The word after an ERET is being executed: breakpoints match again (R331, R335). -/
def State.clearSkip (s : State) : State :=
  s.issue.agents.foldl (fun (s : State) ag => match ag with
    | .thread bid tid => s.updThread bid tid fun t => { t with bpSkip := false }
    | .bobbin .. => s) s

/-- The event counters see the word (R336): a lane word counts once for its braid, a uniform word once for each frame or member. -/
def State.countWord (s : State) (w : Word) : State :=
  if w.getLsbD 31 then s.countEvent s.issue.core 3 s.uniformCount else s.countEvent s.issue.core 2 1

/-- An attempt of agents that wait has all the same done something: an RFLUSH writes lines back, or reports a fault of a
write-back, and waits on (R178, R179). -/
def stirred (s t : State) : Bool := decide (s.mem ≠ t.mem) || decide (s.blocks ≠ t.blocks) || decide (s.doms ≠ t.doms)

/-- The agents of the step that execute the word now: those that wait for pending results or room are left out (R48, R146). -/
noncomputable def State.able (s : State) (w : Word) : List Agent :=
  match s.runWord w with
  | .next t => s.issue.agents.filter (acted s t)
  | _ => s.issue.agents

/-- An attempt at which every agent waits, and which has all the same done something. -/
noncomputable def State.attempt (s : State) (w : Word) : Option Answer :=
  match s.runWord w with
  | .next t => if stirred s t then some (.next t) else none
  | a => some a

/-- The agents of the step fetch what stands at their PC, and breakpoints stop some of them (R99, R335): the state then, and the
word with the agents that are to execute it. Members whose word differs from the first one's wait for another turn. -/
noncomputable def State.fetchStep (s : State) : State × Option Word :=
  let (ws, s1) := s.fetchAll s.issue.agents
  match ws with
  | [] => (s1.among [], none)
  | (_, w) :: _ =>
    let group := (ws.filter fun x => x.2 == w).map (·.1)
    let s2 : State := { s1 with issue := { s1.issue with word := w } }
    let hit := group.filter fun ag => (s2.breakpoint ag).isSome
    ((hit.foldl State.breakAt s2).among (group.filter fun ag => !hit.contains ag), some w)

/-! ## Dispatch (R146, R159) -/

/-- The braids of a pipe, those of the block of an agent that hold it. -/
def Braid.holds (b : Braid) : Agent → Bool
  | .thread bid tid => b.bid == bid && b.members.any fun m => m.1 == tid
  | .bobbin .. => false

/-- An instruction has been issued that does not dispatch for all its agents in this cycle: its pipe holds it. -/
def State.hold (s : State) (h : Held) : State :=
  s.updCore s.issue.core fun c => { c with pipes := vecUpd c.pipes s.issue.pipe (fun p => { p with held := some h }) }

/-- The register reads that an execution has been granted in the cycle of the step. -/
def State.granted (s t : State) : Nat :=
  (t.core s.issue.core).used s.issue.cycle - (s.core s.issue.core).used s.issue.cycle

/-- The agents of the step issue a lane word (R159): it dispatches where this cycle has the grants it needs, and else takes those
there are and is held. -/
noncomputable def State.issueLane (s : State) (w : Word) : Answer :=
  let s := s.clearSkip.countWord w
  let a := s.runWord w
  let k := s.issue.core
  let need := match a with
    | .next t => s.granted t
    | _ => 0
  let left := (s.dom (domOf k)).grantNow - (s.core k).used s.issue.cycle
  if need ≤ left then a
  else .next ((s.updCore k fun c => c.grantMore s.issue.cycle left).hold
    { agents := s.issue.agents, word := w, need := need - left, cycle := s.issue.cycle, next := s.issue.cycle + 1, went := [] })

/-- The agents of the step issue a uniform word: one time for all of them, or in expanded mode for each in a cycle of its own
(R50, R90). -/
noncomputable def State.issueUniform (s : State) (expanded : Bool) (w : Word) : Answer :=
  match s.issue.agents with
  | ag :: x :: rest =>
    if expanded then
      let h : Held := { agents := x :: rest, word := w, need := 0, cycle := s.issue.cycle, next := s.issue.cycle + 1, went := [] }
      let s := (s.hold h).among [ag]
      (s.clearSkip.countWord w).runWord w
    else (s.clearSkip.countWord w).runWord w
  | _ => (s.clearSkip.countWord w).runWord w

/-- The agents of the step issue what stands at their PC: fetch, breakpoints, execution by those that do not wait. None where
nothing at all has happened. -/
noncomputable def State.issueNow (s : State) (expanded : Bool) : Option Answer :=
  let ags := s.issue.agents
  let idle := fun t : State => if ags.any (acted s t) then some (Host.Outcome.next t) else none
  match s.fetchStep with
  | (s1, none) => idle s1
  | (s1, some w) =>
    let go := s1.able w
    if go.isEmpty then (match s1.attempt w with
      | some a => some a
      | none => idle s1)
    else if w.getLsbD 31 then some ((s1.among go).issueUniform expanded w) else some ((s1.among go).issueLane w)

/-! ## Braids and bobbins -/

/-- The domain's cores run: no clock change is being made (R398). -/
def State.clocked (s : State) (d : Nat) : Bool := s.platform.powered && !((s.power d).freq == .relocking)

/-- Members of a braid that may issue: they stand at its PC and their stall counts have run out (R42, R146). -/
def State.issuers (s : State) (br : Braid) (now : Nat) : List Agent :=
  (sortBy (fun x : Nat => x) (br.members.map (·.1))).filterMap fun tid =>
    let c := s.ctx (.thread br.bid tid)
    if c.pc = br.pc ∧ c.ready ≤ now then some (.thread br.bid tid) else none

/-- A braid goes on at the PC of the members that are behind; when none is left there, at the one its members share, and
members that have parted are filed (R142). -/
def State.settleBraid (s : State) (core : Nat) (br : Braid) : State :=
  let pcs := br.members.map fun m => (s.ctx (.thread br.bid m.1)).pc
  match pcs with
  | [] => s
  | p :: _ =>
    if pcs.contains br.pc then s
    else if pcs.all fun q => q == p then
      s.updCore core fun c => { c with pipes := c.pipes.map (fun (x : Pipe) => { x with braids := x.braids.map (fun (b : Braid) =>
        if b.bid = br.bid ∧ b.members = br.members then { b with pc := p } else b) }) }
    else br.members.foldl (fun (s : State) m => s.file br.bid m.1) s

def State.settleBraids (s : State) (core : Nat) : State :=
  ((s.core core).pipes.toList.flatMap (·.braids)).foldl (fun (s : State) br => s.settleBraid core br) s

/-- The braid at a place of a pipe. -/
def State.braidAt (s : State) (core pipe idx : Nat) : Option Braid :=
  match (s.core core).pipes.toList[pipe]? with
  | some p => p.braids[idx]?
  | none => none

/-- The unit acts in this cycle. -/
def State.takesTurn (s : State) (core unit : Nat) : State :=
  let now := s.now core
  s.updCore core fun c => { c with actCycle := now + 1, actUnit := unit }

/-- The step under way is that of these agents, in the domain's present cycle. -/
def State.issuing (s : State) (core unit : Nat) (ags : List Agent) (w : Word) : State :=
  let now := s.now core
  { s.takesTurn core unit with issue := { agents := ags, word := w, core := core, pipe := unit, cycle := now, now := now } }

/-- The braid is being issued: its counts (R145, R146), its pipe, the agents. -/
def State.startIssue (s : State) (core pipe idx : Nat) (ags : List Agent) : State :=
  let now := s.now core
  (s.updCore core fun c => { c with pipes := vecUpd c.pipes pipe (fun p =>
    { p with busy := max p.busy (now + 1)
             braids := updAt (fun (b : Braid) => { b with count := b.count + 1, last := some now, idle := 0 }) idx p.braids }) }).issuing
    core pipe ags 0

/-- The pipe may issue: it has issued nothing in this cycle, and its last word has dispatched (R146). -/
def State.pipeFree (s : State) (core pipe : Nat) : Bool :=
  match (s.core core).pipes.toList[pipe]? with
  | some p => decide (p.busy ≤ s.now core) && p.held.isNone
  | none => false

/-- Members that executed one word and stand at different PCs part, and braids go on (R142). -/
def State.part (s : State) (core : Nat) (ags : List Agent) : State := ((s.among ags).diverge).settleBraids core

/-- The agents that have executed the word that a pipe holds. -/
def State.wentOf (s : State) (core pipe : Nat) : List Agent :=
  match (s.core core).pipes.toList[pipe]? with
  | some p => (p.held.map (·.went)).getD []
  | none => []

/-- The pipe holds a uniform word that some members have still to execute (R90). -/
def State.halfway (s : State) (core pipe : Nat) : Bool :=
  match (s.core core).pipes.toList[pipe]? with
  | some p => p.held.any fun h => h.word.getLsbD 31
  | none => false

/-- After an issue in which `ags` were to execute a word: those that have, in this cycle or an earlier one, part where their PCs
differ, once every member has had its turn (R90, R142). -/
def State.afterIssue (s : State) (core pipe : Nat) (ags : List Agent) (t : State) : State :=
  let went := s.wentOf core pipe ++ ags.filter (acted s t)
  if t.halfway core pipe then
    t.updCore core fun c =>
      { c with pipes := vecUpd c.pipes pipe fun p => { p with held := p.held.map fun h => { h with went := went } } }
  else t.part core (went.filter fun ag => (t.core core).pipes.toList.any fun p => p.braids.any fun b => b.holds ag)

/-- A braid whose members do not all reference one frame is in expanded mode (R89). -/
def State.enterMode (s : State) (core : Nat) (b : Braid) : State :=
  let ms := b.members.map fun m => (b.bid, m.1)
  if b.expanded || s.oneFrame ms then s else s.expand core ms

/-- The braid issues in expanded mode. -/
def Braid.mode (b : Braid) (s : State) : Bool := b.expanded || !s.oneFrame (b.members.map fun m => (b.bid, m.1))

/-- A braid issues: none where none of its members can. -/
noncomputable def State.issueBraid (s : State) (core pipe idx : Nat) : Option Answer :=
  match s.braidAt core pipe idx with
  | none => none
  | some br =>
    let ags := s.issuers br (s.now core)
    if ags.isEmpty || !s.clocked (domOf core) then none
    else (((s.enterMode core br).startIssue core pipe idx ags).issueNow (br.mode s)).map (thenDo (s.afterIssue core pipe ags))

/-- An agent of a held word is still the runnable member of a braid of the core, in a block that runs. -/
def State.stillHeld (s : State) (core : Nat) (ag : Agent) : Bool :=
  !s.stopped ag && s.statusOf ag == some .runnable && (s.core core).pipes.toList.any fun p => p.braids.any fun b => b.holds ag

/-- A held word dispatches: a lane word for all its agents at once when it has its grants, a uniform word in expanded mode for
the next of them (R90, R159). None where it is not its time. -/
noncomputable def State.dispatchHeld (s : State) (core pipe : Nat) (h : Held) : Option Answer :=
  let now := s.now core
  let setHeld := fun (s : State) (x : Option Held) => s.updCore core fun c =>
    { c with pipes := vecUpd c.pipes pipe (fun p => { p with held := x, busy := if h.word.getLsbD 31 then now + 1 else p.busy }) }
  let ags := h.agents.filter (s.stillHeld core)
  match ags with
  | [] => some (.next (s.afterIssue core pipe [] (setHeld s none)))
  | ag :: rest =>
    if h.need ≠ 0 ∨ now < h.next ∨ !s.clocked (domOf core) then none
    else if h.word.getLsbD 31 then
      let more := if rest.isEmpty then none else some { h with agents := rest, next := now + 1 }
      some (thenDo (s.afterIssue core pipe [ag])
        (((((setHeld s more).issuing core pipe [ag] h.word).clearSkip).countWord h.word).runWord h.word))
    else
      let c := s.core core
      some (thenDo (fun t => s.afterIssue core pipe ags (t.updCore core fun x =>
          { x with grantCycle := c.grantCycle, grantsUsed := c.grantsUsed }))
        (((setHeld s none).issuing core pipe ags h.word).runWord h.word))

/-- A bobbin is able to issue: it runs, waits for nothing, and its stall count has run out (R183). -/
def State.bobbinReady (s : State) (core b : Nat) : Bool :=
  let x := s.bobbin core b
  decide (b < 4) && decide (x.status = .running) && !x.parked && x.wait.isNone && decide (x.ctx.ready ≤ s.now core) &&
    !s.stopped (.bobbin core b)

/-- A bobbin issues; one that an engine has stopped does so now, at its instruction boundary, with the PC and the word of the
instruction there (R189, R206, R232): word 0 where that word cannot be fetched (log 24). A fetch that is held back has the bobbin
wait. -/
noncomputable def State.issueBobbin (s : State) (core b : Nat) : Option Answer :=
  let x := s.bobbin core b
  let ag := Agent.bobbin core b
  if !s.clocked (domOf core) then none
  else match x.stopCause with
    | some cause => match s.fetch ag with
      | (some w, s) => some (.next (s.updBobbin core b fun x => x.trapped cause x.ctx.pc w))
      | (none, t) => if acted s t ag then some (.next (s.updBobbin core b fun x => x.trapped cause x.ctx.pc 0)) else none
    | none => if !s.bobbinReady core b then none else (s.issuing core (4 + b) [ag] 0).issueNow false

/-! ## The order of units -/

/-- Braids of a pipe, the least recently issued first (R146): one that has never issued before all others. -/
def Braid.age (b : Braid) : Nat := match b.last with
  | some c => c + 1
  | none => 0

def issueOrder (p : Pipe) : List Nat :=
  sortBy (fun i => match p.braids[i]? with
    | some b => b.age
    | none => 0) (List.range p.braids.length)

/-- No ready braid of the pipe issued less recently than this one (R146). -/
noncomputable def State.isNext (s : State) (core pipe idx : Nat) : Bool :=
  match (s.core core).pipes.toList[pipe]?, s.braidAt core pipe idx with
  | some p, some b => (List.range p.braids.length).all fun i => match p.braids[i]? with
      | some x => decide (b.age ≤ x.age) || (s.issueBraid core pipe i).isNone
      | none => true
  | _, _ => false

/-- What a pipe does in a cycle (R146): the word it holds, else the ready braid that issued least recently; where several never
issued, any of them: `pick`, or the first. -/
noncomputable def State.pipeTurn (s : State) (core pipe : Nat) (pick : Option Nat) : Option Answer :=
  match (s.core core).pipes.toList[pipe]? with
  | none => none
  | some p => match p.held with
    | some h => s.dispatchHeld core pipe h
    | none =>
      if !s.pipeFree core pipe then none
      else match pick with
        | some i => if s.isNext core pipe i then s.issueBraid core pipe i else none
        | none => (issueOrder p).findSome? fun i => s.issueBraid core pipe i

/-- What a unit of a core does in this cycle, if anything: pipes 0 to 3 are units 0 to 3, bobbins 0 to 3 units 4 to 7. -/
noncomputable def State.unitTurn (s : State) (core unit : Nat) : Option Answer :=
  if unit < 4 then s.pipeTurn core unit none else s.issueBobbin core (unit - 4)

/-- The first of the units whose turn in this cycle has not passed. -/
def State.firstUnit (s : State) (core : Nat) : Nat :=
  let c := s.core core
  if c.actCycle = s.now core + 1 then c.actUnit else 0

/-- Units act in one order within a cycle (R257, R288): it is a unit's turn when none after it has acted in the cycle and none
before it that has not had its turn is able to. -/
noncomputable def State.inTurn (s : State) (core unit : Nat) : Bool :=
  decide (s.firstUnit core ≤ unit) &&
    (List.range unit).all fun u => decide (u < s.firstUnit core) || (s.unitTurn core u).isNone

/-- The first unit of a core that acts, of those whose turn has not passed. -/
noncomputable def State.coreIssue (s : State) (core : Nat) : Option Answer :=
  ((List.range 8).filter fun u => decide (s.firstUnit core ≤ u)).findSome? (s.unitTurn core)

/-! ## A cycle -/

/-- No register of these agents is pending. -/
def State.unmarked (s : State) (ags : List Agent) : State :=
  ags.foldl (fun (s : State) ag => s.updCtx (fun c => { c with pend := c.pend.map fun p => { p with regs := [] } }) ag) s

/-- The braid has no member able to issue because of stall counts or pending registers (R145): each member whose stall count has
run out would execute if none of its registers were pending. -/
noncomputable def State.stalled (s : State) (core pipe idx : Nat) (br : Braid) : Bool :=
  (s.issueBraid core pipe idx).isNone &&
    (s.issuers br (s.now core)).all fun ag =>
      (((s.unmarked [ag]).startIssue core pipe idx [ag]).issueNow (br.mode s)).isSome

/-- A braid's consecutive cycles without a member able to issue (R145); not while its word is held. -/
noncomputable def State.idleCount (s : State) (core pipe idx : Nat) (br : Braid) : Nat :=
  let held := match (s.core core).pipes.toList[pipe]? with
    | some p => p.held.any fun h => h.agents.any br.holds
    | none => false
  if br.last == some (s.now core) || held || !s.stalled core pipe idx br then 0 else br.idle + 1

noncomputable def State.idleBraids (s : State) (core : Nat) : State :=
  (List.range 4).foldl (fun (t : State) p => match (s.core core).pipes.toList[p]? with
    | none => t
    | some x =>
      let counts := (List.range x.braids.length).map fun i => match x.braids[i]? with
        | some br => s.idleCount core p i br
        | none => 0
      t.updCore core fun c => { c with pipes := vecUpd c.pipes p (fun x =>
        { x with braids := (x.braids.zip counts).map (fun (q : Braid × Nat) => { q.1 with idle := q.2 }) }) }) s

/-- A unit of a core that can act in the cycle, and whose turn has not passed, does so before it passes (R146). -/
noncomputable def State.finishUnit (core : Nat) (s : State) (u : Nat) : State :=
  if u < s.firstUnit core then s
  else match s.unitTurn core u with
    | some a => orStay s a
    | none => s

/-- Each unit has its turn in order; a pipe whose held word has dispatched may issue in the same cycle. -/
noncomputable def State.finishCycle (s : State) (core : Nat) : State :=
  ((List.range 8).flatMap fun u => [u, u]).foldl (State.finishUnit core) s

/-- The collector holds an issued word for lack of grants (R159). -/
def CoreState.starved (c : CoreState) : Bool := c.pipes.toList.any fun p => p.held.any fun h => h.need != 0

/-- The agents of a core. -/
def State.agentsOn (s : State) (core : Nat) : List Agent :=
  ((s.blocksOn core).flatMap fun b => (List.range b.threads.length).map fun t => Agent.thread b.bid t) ++
    (List.range 4).map fun b => .bobbin core b

/-- A cycle of the bounds of R419 passes for an agent: results whose bound has run out complete now. A loan of a register whose
own earlier write is still on its way completes with that write (R117, log 163). -/
noncomputable def State.ageAgent (s : State) (ag : Agent) : State :=
  let s := s.updCtx (fun c => { c with pend := c.pend.map fun p => { p with left := p.left.map (· - 1) } }) ag
  ((s.ctx ag).pend.filter fun p => p.left == some 0).foldl (fun (s : State) p => orStay s (exec (.pendingComplete ag p.id 0) s)) s

/-- The bounds of R419 run, but in cycles in which the collector holds a word at a grant limit below 16. -/
noncomputable def State.agePending (s : State) (core : Nat) : State :=
  if (s.core core).starved && decide ((s.dom (domOf core)).grantNow < 16) then s else (s.agentsOn core).foldl State.ageAgent s

/-- What a core does in every cycle before its units issue: threads whose sleep has ended are filed (R153), aged bins are noted and
tired braids returned (R145), and each pipe draws (R144). -/
noncomputable def State.gatherCycle (s : State) (core : Nat) : State :=
  let sleepers := (s.blocksOn core).flatMap fun b => (List.range b.threads.length).map fun t => Instr.sleepExpire b.bid t
  (sleepers ++ [Instr.binAged core, .braidReturn core, .braidDraw core]).foldl (fun (s : State) i => orStay s (exec i s)) s

/-- A cycle of a core ends: whatever it has to do in every cycle is done, and it counts (R336) the cycle, and whether the collector
held a word in it. -/
noncomputable def State.tickCore (s : State) (core : Nat) : State :=
  let s := (((s.gatherCycle core).finishCycle core).idleBraids core).countEvent core 1 1
  let s := if (s.core core).starved then s.countEvent core 6 1 else s
  s.agePending core

/-- At the beginning of a cycle the collector serves the held words in their order of issue, lower pipes first (R159). -/
def CoreState.serve (c : CoreState) (cycle g : Nat) : CoreState :=
  let order := sortBy (fun i => match c.pipes.toList[i]? with
    | some p => (p.held.map (·.cycle)).getD 0
    | none => 0) (List.range 4)
  order.foldl (fun (c : CoreState) i => match c.pipes.toList[i]? with
    | some p => match p.held with
      | some h =>
        let k := min h.need (g - c.used cycle)
        { c.grantMore cycle k with pipes := vecUpd c.pipes i (fun p => { p with held := some { h with need := h.need - k } }) }
      | none => c
    | none => c) c

/-- The cores of a domain that hold anything. -/
def State.coresIn (s : State) (d : Nat) : List Nat := (s.cores.map (·.1)).filter fun k => domOf k == d && k != frontEnd

/-- A cycle of a domain passes, after every unit has had its turn in it; at least once every 256 cycles effective priorities are
recomputed (R269). Numbers above 83 stand for the front end. -/
noncomputable def State.tick (s : State) (d : Nat) : State :=
  if d ≥ 84 then ({ s with feCycles := s.feCycles + 1 } : State).drainReserves
  else if !s.clocked d then s
  else
    let s := (s.coresIn d).foldl State.tickCore s
    let s := s.updDom d fun x => { x with cycles := x.cycles + 1 }
    let s := (s.coresIn d).foldl (fun (s : State) k => s.updCore k fun c => c.serve (s.dom d).cycles (s.dom d).grantNow) s
    if (s.dom d).cycles % 256 ≠ 0 then s
    else (s.coresIn d).foldl (fun (s : State) k => orStay s (exec (.effectivePriorityUpdate k) s)) s

/-! ## The machine's own order -/

/-- The parts of a pending group, one where it has none of its own. -/
def Pend.parts (p : Pend) : Nat :=
  match p.work with
  | .access parts _ => max 1 parts.length
  | _ => 1

/-- What an agent may be waiting for. -/
noncomputable def Ctx.dueOf (c : Ctx) (ag : Agent) : List Instr :=
  (c.pend.flatMap fun p => (List.range p.parts).map (fun k => .pendingComplete ag p.id k) ++ [.collContributionAccept ag p.id]) ++
    [.phwaitComplete ag]

noncomputable def Block.due (b : Block) : List Instr :=
  .mailboxAppend b.bid :: .saveImageWrite b.unit ::
    (((List.range b.threads.length).zip b.threads).flatMap fun p =>
      p.2.ctx.dueOf (.thread b.bid p.1) ++ [.sleepExpire b.bid p.1, .xsyncComplete b.bid p.1, .dcfgComplete b.bid p.1]) ++
    (if b.threads.all fun t => t.status == .exited then
      (List.range 8).flatMap fun r => (match b.regions.toList[r]? with
        | some g => g.lines.map fun l => .regionWriteBack b.bid r l.idx
        | none => [])
    else [])

noncomputable def Bobbin.due (x : Bobbin) (core b : Nat) : List Instr :=
  x.ctx.dueOf (.bobbin core b) ++
    (x.copyQ.flatMap fun c => [.copyCommandStart core b c.id (2 ^ 32), .copyCommandComplete core b c.id, .migrStart core b c.id,
      .migrDrainDone core b c.id, .migrInvalidateDone core b c.id]) ++
    (x.matrixQ.flatMap fun c => [.matrixCommandStart core b c.id (2 ^ 32), .planePairStep core b c.id 0,
      .matrixCommandComplete core b c.id]) ++ [.bobbinEnd core b]

noncomputable def State.coreDue (s : State) (core : Nat) : List Instr :=
  ((List.range 4).flatMap fun b => (s.bobbin core b).due core b) ++ [.binAged core, .braidReturn core, .braidDraw core]

noncomputable def State.domDue (s : State) (d : Nat) : List Instr :=
  ((List.range (s.dom d).fsqWait.length).map fun k => .faultQueueEntryWrite d k) ++ [.lowRailMove d]

noncomputable def State.powerDue (d : Nat) : List Instr :=
  [.quiescePoint d, .clockRelock d, .currentStepDown d, .currentStepUp d, .thermalStepDown d, .thermalStepUp d] ++
    (List.range 6).map fun j => .hardTrip d j

noncomputable def State.frontDue (s : State) : List Instr :=
  .journalEntryWrite :: .dumpWrite :: (s.queues.map fun q => .packetTake q.num) ++ (s.grids.map fun g => .gridComplete g.id) ++
    (s.saved.flatMap fun u => [.imageCommit u.unit, .restoreComplete u.unit]) ++ (s.channels.map fun c => .collRoundComplete c.num) ++
    (if s.grids.isEmpty && s.saved.isEmpty then [] else (List.range 84).map fun d => .dispatchDecision d)

/-- The activity of the machine's units that may be due, in the order in which it is tried. -/
noncomputable def State.due (s : State) : List Instr :=
  (s.accs.flatMap fun a => [.storeGlobalPerform a.id, .kioskRequest a.id, .rdmaWriteAck a.id]) ++
    (s.credits.flatMap fun c => [.phaserCredit c.id, .parkedArrival c.id]) ++
    (s.xinvs.flatMap fun x => (s.cores.map (·.1)).map fun k => .xinvTlbPerform x.id k) ++
    (s.blocks.flatMap Block.due) ++ ((s.cores.map (·.1)).flatMap s.coreDue) ++ ((s.doms.map (·.1)).flatMap s.domDue) ++
    ((s.powers.map (·.1)).flatMap State.powerDue) ++ [.moduleRationStart, .moduleRationEnd, .modulePowerTrip] ++ s.frontDue

/-- What an event does, if it does more than draw free values. -/
def State.effect (s : State) (i : Instr) : Option State :=
  match exec i s with
  | .next t => if ({ t with freeIdx := s.freeIdx } : State) = s then none else some t
  | _ => none

/-- Work that comes round with the front end's cycles (R349, R356, R391, R398). -/
noncomputable def State.periodic (s : State) : State :=
  if s.feCycles % 4096 ≠ 0 then s
  else
    let events := (s.queues.flatMap fun q => [Instr.fetchFenceTimer q.num]) ++
      (s.powers.flatMap fun p => [.quiesceRetry p.1, .grantStepUp p.1, .powerRecordWrite p.1]) ++
      (if s.feCycles % 65536 = 0 then s.queues.map fun q => .patternHoldRetry q.num else [])
    events.foldl (fun (s : State) i => orStay s (exec i s)) s

/-- A cycle of every domain and of the front end. -/
noncomputable def State.tickAll (s : State) : State :=
  (((List.range 84).foldl State.tick s).tick 84).periodic

/-- The activity of a module whose core rails are off: the always-on controller writes the dump (R402, R412). -/
noncomputable def State.alwaysOn (s : State) : State := (s.effect .dumpWrite).getD s

/-- The machine's own turn: the first activity that is due, else the first issue, else a cycle. -/
noncomputable def State.autoTurn (s : State) : Answer :=
  match s.due.findSome? s.effect with
  | some t => .next t
  | none => match (s.cores.map (·.1)).findSome? s.coreIssue with
    | some a => a
    | none => .next s.tickAll

/-- One turn of the schedule. A braid or bobbin that cannot issue, or whose turn in the cycle has passed, lets the turn pass; an
event is one of spec/95. -/
noncomputable def State.turn (s : State) : Turn → Answer
  | .issue core pipe braid => if s.inTurn core pipe then (s.pipeTurn core pipe (some braid)).getD (.next s) else .next s
  | .bobbin core b => if s.inTurn core (4 + b) then (s.issueBobbin core b).getD (.next s) else .next s
  | .event i => if i.isEvent then exec i s else .next s
  | .tick d => .next (s.tick d)

end Sys2Proof.Machine
end

