-- ==== Sys2Proof/Machine/Step.lean ====
section
/-! DEFINITION. One step of the machine: the first turn of the schedule in State.agenda, or, where it is empty, the machine's own
turn. And how a word comes to stand where the next step fetches it. -/

namespace Sys2Proof.Machine

/-- One step. Without the core rails only the always-on controller acts, until the outside world does (R402). -/
noncomputable def step (s : State) : Host.Outcome State Fault Refusal :=
  match s.agenda with
  | t :: rest => ({ s with agenda := rest } : State).turn t
  | [] => if s.platform.powered then s.autoTurn else .next s.alwaysOn

/-- A word that only a bobbin executes: uniform majors 0x32, 0x34 to 0x3B, 0x40 to 0x45, 0x48 (R54, R101). -/
def bobbinWord (w : Word) : Bool :=
  [0xB2, 0xB4, 0xB5, 0xB6, 0xB7, 0xB8, 0xB9, 0xBA, 0xBB, 0xC0, 0xC1, 0xC2, 0xC3, 0xC4, 0xC5, 0xC8].contains
    (w.extractLsb' 24 8).toNat

/-- Where withFetchWord puts its page tables, and the code page after them: domain 0 of the wafer. -/
def State.fetchTables (s : State) : Nat := s.wafer.id * 2 ^ 52 + 0x10000

/-- The virtual address of the word, in a top-level entry of its own. -/
def fetchVa : DWord := 0x0001000000001000

/-- One page table entry at a table: bits of the entry beside FRAME. -/
def State.putEntry (s : State) (table index frame bits : Nat) : State :=
  s.storePhys (table + 8 * index) (leBytes 8 (frame + bits))

/-- Five levels of tables that map fetchVa to a page for reading and executing, and the word on it. -/
def State.putWord (s : State) (w : Word) : State :=
  let a := s.fetchTables
  let s := s.putEntry a 1 (a + 0x1000) 1
  let s := s.putEntry (a + 0x1000) 0 (a + 0x2000) 1
  let s := s.putEntry (a + 0x2000) 0 (a + 0x3000) 1
  let s := s.putEntry (a + 0x3000) 0 (a + 0x4000) 1
  let s := s.putEntry (a + 0x4000) 1 (a + 0x5000) 0x169
  s.storePhys (a + 0x5000) (leBytes 4 w.toNat)

/-- A context at the word, eligible at once. -/
def fetchCtx (priv : Bool) : Ctx := { Ctx.zero with pc := fetchVa, tstate := tstateWord false priv 0 false }

/-- A thread of privileged code at the word. -/
def fetchThread : Thread :=
  { ctx := fetchCtx true, v := Vector.replicate 64 ⟨0, .raw⟩, k := 0,
    trap := { cause := 0, word := 0, pc := 0, info := 0, addr := 0, tstate := 0 },
    status := .runnable, bpSkip := false, frame := none, pcHi := none, addrHi := none }

/-- A block of one thread on core 0, translated through the tables. -/
def State.fetchBlock (s : State) : Block :=
  { bid := s.nextBid, core := 0, unit := s.nextUnit, gridId := s.nextGrid,
    regs := { blockid := 0, blockdim := 1, gridblocks := 1, qrank := 0xFFFFFFFF, qsize := 0, argbase := 0, scratchBase := 0, scratchSize := 0,
              lmtBase := 0, lmtCount := 0, ttBase := 0, ttCount := 0, mbox := 0, cbind := Vector.replicate 4 0,
              ptroot := BitVec.ofNat 64 s.fetchTables, asid := 0, tvec := 0, ctxid := 0, grid := 0, bp0 := 0, bp1 := 0,
              ptrootHi := none, tvecHi := none, bp0Hi := none, bp1Hi := none },
    regions := Vector.replicate 8 { valid := false, base := 0, page := 0, pages := 0, wr := false, lines := [], lost := false },
    signals := [], mail := { held := [], ringHead := 0, ring := [], due := 0, phase := 0 }, threads := [fetchThread], priv := true,
    fid := 0, accn := 0, tiles := [], eff := 0, save := none, halted := false }

/-- The thread is the only member of a braid of pipe 0. -/
def State.fetchBraid (s : State) : Braid := { bid := s.nextBid, pc := fetchVa, members := [(0, 0)], count := 0, last := none, idle := 0, expanded := false }

/-- Bobbin 0 of the block, at the word. -/
def State.fetchBobbin (s : State) : Bobbin := { Bobbin.zero with status := .running, bid := s.nextBid, ctx := fetchCtx true }

/-- The instruction whose bits are `w` stands where the next step fetches: a block of one privileged thread is resident on core 0,
at a word of its own, and the next turn is the issue of its braid (of its bobbin, for a word that only bobbins execute). The
number of bits is 32 for every word instruction. -/
def State.withFetchWord (s : State) (nbits w : Nat) : State :=
  let x := BitVec.ofNat 32 (w % 2 ^ nbits)
  let blk := s.fetchBlock
  let br := s.fetchBraid
  let bob := s.fetchBobbin
  let onBobbin := bobbinWord x
  let s := s.putWord x
  let idx := match (s.core 0).pipes.toList with
    | p :: _ => p.braids.length
    | [] => 0
  let s := s.updCore 0 fun c =>
    { c with
      tlb := []
      pipes := (if onBobbin then c.pipes else vecUpd c.pipes 0 (fun p => { p with braids := p.braids ++ [br], busy := 0, held := none }))
      actCycle := 0
      bobbins := (if onBobbin then vecUpd c.bobbins 0 (fun _ => bob) else c.bobbins) }
  { s with
    blocks := s.blocks ++ [blk]
    nextBid := s.nextBid + 1
    nextUnit := s.nextUnit + 1
    nextGrid := s.nextGrid + 1
    agenda := (if onBobbin then Turn.bobbin 0 0 else Turn.issue 0 0 idx) :: s.agenda }

end Sys2Proof.Machine
end

