-- ==== Sys2Proof/Safety.lean ====
section
/-! DEFINITION. What counts as a safe state, and the terms the statements are made in: the canonical form of memory as an
invariant, an agent that stands ready at an instruction, what an instruction's results are, and what it leaves unchanged. -/

namespace Sys2Proof.Machine

/-- Every byte list of the machine is in canonical form: memory and each core's scratchpad. -/
def State.MemOk (s : State) : Prop := Memory.wf s.mem = true ∧ ∀ k, Memory.wf (s.core k).scratch = true

/-! ## Numbers -/

/-- The real value of a finite float value: (-1)^s times its significand times its power of two (R63). -/
def FVal.real : FVal → Option ℚ
  | .fin s m e => some ((if s then -1 else 1) * (m : ℚ) * (2 : ℚ) ^ e)
  | _ => none

/-- A magnitude that a format has with its exponent unbounded above and gradual underflow below (R65). -/
def Fmt.Representable (F : Fmt) (y : ℚ) : Prop :=
  ∃ (k : Nat) (q : Int), k < 2 ^ (F.fw + 1) ∧ 1 - (F.bias : Int) - F.fw ≤ q ∧ y = k * (2 : ℚ) ^ q

/-- The least significant significand bit of a representable magnitude is even (R65). -/
def Fmt.EvenAt (F : Fmt) (y : ℚ) : Prop :=
  ∃ (k : Nat) (q : Int), k < 2 ^ (F.fw + 1) ∧ 1 - (F.bias : Int) - F.fw ≤ q ∧
    (2 ^ F.fw ≤ k ∨ q = 1 - (F.bias : Int) - F.fw) ∧ k % 2 = 0 ∧ y = k * (2 : ℚ) ^ q

/-- The magnitude `y` is what the mode rounds the magnitude `a` of a value with sign `neg` to (R65): the nearest representable one, an
even one in a tie; the nearest not larger; the nearest such that the signed value is not greater, or not less. -/
def Fmt.RoundsTo (F : Fmt) (m : RMode) (neg : Bool) (a y : ℚ) : Prop :=
  let below := y ≤ a ∧ ∀ z, F.Representable z → z ≤ a → z ≤ y
  let above := a ≤ y ∧ ∀ z, F.Representable z → a ≤ z → y ≤ z
  F.Representable y ∧
  match m, neg with
  | .rn, _ => (∀ z, F.Representable z → |y - a| ≤ |z - a|) ∧
      ((∃ z, F.Representable z ∧ z ≠ y ∧ |z - a| = |y - a|) → F.EvenAt y)
  | .rz, _ => below
  | .rd, true => above
  | .rd, false => below
  | .ru, true => below
  | .ru, false => above

/-- The integer `k` is what the mode rounds the real `v` to (R65, R67). -/
def IntRounds (m : RMode) (v : ℚ) (k : Int) : Prop :=
  match m with
  | .rn => |(k : ℚ) - v| ≤ 1 / 2 ∧ (|(k : ℚ) - v| = 1 / 2 → k % 2 = 0)
  | .rz => k = if 0 ≤ v then ⌊v⌋ else ⌈v⌉
  | .rd => k = ⌊v⌋
  | .ru => k = ⌈v⌉

/-! ## Memory that software may write -/

/-- A stored byte that lies in nothing that software only reads: not in the power area, a fault service queue's ring, the journal or
the street index (R5). -/
abbrev State.Writable (s : State) (key : Nat) : Prop := s.areaOff key = none ∧ ∀ r ∈ s.readOnly, s.keyIn key r.1 r.2 = false

/-- No store that only its own block sees (R273), but for the access of this number, lies over these bytes. -/
def State.NoneSeen (s : State) (id : Nat) (l : Loc) (n : Nat) : Prop :=
  ∀ x ∈ s.accs, x.id ≠ id → x.seen.isSome = true → s.locsMeet x.loc x.width l n = false

/-! ## Words (R54, R56 to R61), by bits [31:24] -/

/-- The majors without an instruction (R61). -/
def reservedMajors : List Nat :=
  [0x00, 0x2D, 0x2E, 0x2F, 0x80, 0x9F, 0xAA, 0xAB, 0xAC, 0xAD, 0xAE, 0xAF, 0xB3, 0xBC, 0xBD, 0xBE, 0xBF, 0xC6, 0xC7, 0xCB, 0xCC, 0xCD,
   0xCE, 0xCF, 0xD7, 0xDF, 0xEB, 0xEC, 0xED, 0xEE, 0xEF]

/-- The majors that only a bobbin executes (R58). -/
def bobbinMajors : List Nat := [0xB2, 0xB4, 0xB5, 0xB6, 0xB7, 0xB8, 0xB9, 0xBA, 0xBB, 0xC0, 0xC1, 0xC2, 0xC3, 0xC4, 0xC5, 0xC8]

/-- A major without a sub-op field: LI, LM, LB, the LA majors whose mod is an operand, UI, and the UA majors of offset form (R36, R40,
R56, R58). -/
def noSubop (m : Nat) : Bool :=
  [0x03, 0x04, 0x07, 0x08, 0x09, 0x13, 0x18, 0x19, 0x1A, 0x1E, 0x36, 0x37, 0x38, 0x4E, 0x5E, 0x72, 0x73, 0xB0, 0xE0, 0xE1, 0xE9, 0xEA].contains m ||
    (decide (0x24 ≤ m) && decide (m ≤ 0x2B)) || (decide (0x50 ≤ m) && decide (m ≤ 0x56)) || (decide (0x60 ≤ m) && decide (m ≤ 0x6F)) ||
    (decide (0x98 ≤ m) && decide (m ≤ 0x9E)) || (decide (0xA0 ≤ m) && decide (m ≤ 0xA8))

/-- The least and the greatest sub-op of a major that has them (R57, R59). -/
def subopsOf (m : Nat) : Nat × Nat :=
  if m = 0x1D then (2, 5)
  else (0, ((([(1, [0x06, 0x11, 0x12, 0x23, 0x31, 0x33, 0x35, 0x3A, 0x3C, 0x4C, 0x4D, 0x7B, 0x86, 0x87, 0x8E, 0x92, 0x93, 0x94, 0xB2, 0xC2, 0xC4, 0xD0]),
      (2, [0x01, 0x02, 0x3F, 0x5B, 0x74, 0x76, 0x77, 0x7A, 0xC3, 0xD1, 0xD6]), (3, [0x2C, 0x45, 0x46, 0x47, 0x48, 0x49, 0x78, 0xD8]),
      (4, [0x1B, 0x4A, 0x4B, 0x75, 0x79]), (5, [0x1C, 0x1F, 0xB9]), (6, [0x3D]), (9, [0xC1])] : List (Nat × List Nat)).find?
        fun p => p.2.contains m).map (·.1)).getD 0)

/-- The sub-op field of a word: mod[5:3] of a lane word, mod[11:8] of a uniform one (R36, R40). -/
def subopOf (w : Word) : Nat := if w.getLsbD 31 then (w.extractLsb' 8 4).toNat else (w.extractLsb' 3 3).toNat

/-! ## An agent at an instruction -/

/-- The agent exists: a thread of a resident block, or one of the four bobbins of a core (R183). -/
def State.present (s : State) : Agent → Prop
  | .thread bid tid => (s.thread? bid tid).isSome = true
  | .bobbin _ b => b < 4

/-- The last writes of a register have arrived: it is not pending (R48), and no fixed-latency result of it is incomplete in
the cycle of issue (R42). -/
def State.settled (s : State) (ag : Agent) (r : Reg) : Prop :=
  (s.ctx ag).isPending r = false ∧ ∀ f ∈ (s.ctx ag).inflight, f.reg = r → f.done ≤ s.issue.cycle

/-- Nothing stands in the way of an instruction of the agent with these sources and destinations (R53): the agent may execute
it, its sources have arrived with accepted tags (R77), its destinations are not pending. -/
structure State.Ready (s : State) (who : Who) (srcs : List Src) (dsts : List Reg) (ag : Agent) : Prop where
  present : s.present ag
  allowed : who.allows ag = true
  sources : ∀ x ∈ srcs, s.settled ag x.reg ∧ x.acc.ok (s.readReg ag x.reg).tag = true
  dests : ∀ r ∈ dsts, (s.ctx ag).isPending r = false

/-- The agents of the step are different agents, each ready. -/
def State.AllReady (s : State) (who : Who) (srcs : List Src) (dsts : List Reg) : Prop :=
  s.issue.agents.Nodup ∧ ∀ ag ∈ s.issue.agents, s.Ready who srcs dsts ag

/-- What an agent's sources hold. -/
def State.sources (s : State) (ag : Agent) (srcs : List Src) : List VReg := srcs.map fun x => s.readReg ag x.reg

/-! ## Results -/

/-- What register `r` holds after these writes in order, where it held `x` before: value and tag together (R76). -/
def written (ws : List Write) (r : Reg) (x : VReg) : VReg :=
  ws.foldl (fun x w => if w.reg = r then ⟨w.val, w.tag⟩ else x) x

/-- The agent has executed an instruction that wrote `ws` with latency `lat` (R42, R46) and no other register, and goes on at
`pc` after its stall count. -/
structure Executed (s t : State) (ag : Agent) (n : BitVec 3) (lat : Nat) (ws : List Write) (pc : DWord) : Prop where
  registers : ∀ r, t.readReg ag r = written ws r (s.readReg ag r)
  pc : (t.ctx ag).pc = pc
  eligible : (t.ctx ag).ready = t.issue.now + 1 + n.toNat
  inFlight : ∀ w ∈ ws, ∃ f ∈ (t.ctx ag).inflight, f.reg = w.reg ∧ f.new = ⟨w.val, w.tag⟩ ∧ f.done = t.issue.now + lat
  status : (t.ctx ag).tstate = (s.ctx ag).tstate
  pending : (t.ctx ag).pend = (s.ctx ag).pend

/-! ## What stays -/

/-- A thread without its context, registers and uniform frame: what is left is its trap registers, status and breakpoint skip. -/
def Thread.body (t : Thread) : Thread := { t with ctx := Ctx.zero, v := Vector.replicate 64 ⟨0, .raw⟩, k := 0, frame := none }

def Block.body (b : Block) : Block := { b with threads := b.threads.map Thread.body }

def Bobbin.body (b : Bobbin) : Bobbin := { b with ctx := Ctx.zero }

/-- A core without what issuing an instruction changes: pipe times, the collector's grants, uniform frames and which braids are in
expanded mode, bobbin contexts. -/
def CoreState.body (c : CoreState) : CoreState :=
  { c with
    pipes := c.pipes.map fun (p : Pipe) => { p with busy := 0, braids := p.braids.map fun (b : Braid) => { b with expanded := false } }
    frames := []
    grantCycle := 0
    grantsUsed := 0
    bobbins := c.bobbins.map Bobbin.body }

/-- Two states differ at most in the contexts and registers of agents, in the timing of pipes, and in the model's own counters
of numbers and free values: memory, scratchpads, tiles, outstanding accesses, system, trap and exception registers, blocks,
engines, queues, domains and the platform are the same. -/
structure SameBody (s t : State) : Prop where
  rest : { t with cores := s.cores, blocks := s.blocks, issue := s.issue, nextId := s.nextId, freeIdx := s.freeIdx } = s
  cores : ∀ k, (t.core k).body = (s.core k).body
  blocks : t.blocks.map Block.body = s.blocks.map Block.body
  issue : t.issue = { s.issue with now := t.issue.now }

/-- The agent's context and registers are the same. -/
def SameAgent (s t : State) (ag : Agent) : Prop := t.ctx ag = s.ctx ag ∧ ∀ r, t.readReg ag r = s.readReg ag r

/-- Only registers, program counters and timing of the agents of the step have changed. -/
def OnlyAgents (s t : State) : Prop := SameBody s t ∧ ∀ ag, ag ∉ s.issue.agents → SameAgent s t ag

/-- A core without its bins, their pressure, its braids and what CoreState.body leaves out. -/
def CoreState.store (c : CoreState) : CoreState :=
  { c.body with bins := [], pressure := none, pipes := c.pipes.map fun (p : Pipe) => { p with braids := [], busy := 0, drawn := 0 } }

/-- As SameBody, and the two states may also differ in bins and braids: where threads stand, and nothing they have stored. -/
structure SameStore (s t : State) : Prop where
  rest : { t with cores := s.cores, blocks := s.blocks, issue := s.issue, nextId := s.nextId, freeIdx := s.freeIdx } = s
  cores : ∀ k, (t.core k).store = (s.core k).store
  blocks : t.blocks.map Block.body = s.blocks.map Block.body
  issue : t.issue = { s.issue with now := t.issue.now }

/-- Only registers, program counters, bins, braids and timing have changed, and registers only of the agents of the step. -/
def OnlyControl (s t : State) : Prop := SameStore s t ∧ ∀ ag, ag ∉ s.issue.agents → SameAgent s t ag

/-- The thread is filed (R142): it is in a bin of its core whose key is its block and this PC, and in no braid. -/
def State.Filed (s : State) (bid tid : Nat) (pc : DWord) : Prop :=
  ∃ b, s.block? bid = some b ∧
    (∃ x ∈ (s.core b.core).bins, x.bid = bid ∧ x.pc = pc ∧ tid ∈ x.threads.map (·.1)) ∧
    ∀ p ∈ (s.core b.core).pipes.toList, ∀ br ∈ p.braids, br.bid = bid → tid ∉ br.members.map (·.1)

/-! ## Exceptions -/

/-- The thread takes traps: its block has not stopped (R329), INH is clear and the block's trap vector is enabled (R328, R333). -/
def State.TrapsOn (s : State) (bid tid : Nat) : Prop :=
  ∃ x b, s.thread? bid tid = some x ∧ s.block? bid = some b ∧ b.halted = false ∧ inhOf x.ctx.tstate = false ∧
    b.regs.tvec.getLsbD 0 = true

/-- The thread has taken a precise trap at its own instruction (R328): the trap registers hold the cause, the word, the PC, the
info and the address values and sys.tstate as it was; the thread stands at the handler with INH and PRIV set, NREAD and STALLCHK
kept; its registers are as they were; it issues there after the stall count of a word that has dispatched (R42), and when every
fixed-latency result is complete (R50); nothing stored, and no other agent, has changed. -/
structure EntersHandler (s t : State) (bid tid : Nat) (cause : Cause) (info : Word) (addr : DWord) : Prop where
  entry : ∃ x b y, s.thread? bid tid = some x ∧ s.block? bid = some b ∧ t.thread? bid tid = some y ∧
    y.trap = { cause := BitVec.ofNat 32 cause.code, word := s.issue.word, pc := x.ctx.pc, info := info, addr := addr,
               tstate := x.ctx.tstate } ∧
    y.ctx.pc = b.regs.tvec &&& ~~~3 ∧ inhOf y.ctx.tstate = true ∧ privOf y.ctx.tstate = true ∧
    nreadOf y.ctx.tstate = nreadOf x.ctx.tstate ∧ stallchkOf y.ctx.tstate = stallchkOf x.ctx.tstate ∧
    y.v = x.v ∧ y.k = x.k ∧ y.ctx.s = x.ctx.s ∧ y.ctx.pend = x.ctx.pend ∧ y.ctx.inflight = x.ctx.inflight ∧
    (∀ f ∈ x.ctx.inflight, f.done ≤ y.ctx.ready) ∧ t.issue.now + 1 + s.stallOf cause ≤ y.ctx.ready ∧ y.status = .runnable
  others : ∀ ag, ag ≠ .thread bid tid → SameAgent s t ag
  threads : ∀ x y, x ≠ bid ∨ y ≠ tid → (t.thread? x y).map Thread.body = (s.thread? x y).map Thread.body
  blocks : (t.blocks.map fun b => { b with threads := [] }) = s.blocks.map fun b => { b with threads := [] }
  rest : { t with cores := s.cores, blocks := s.blocks, issue := s.issue, nextId := s.nextId, freeIdx := s.freeIdx } = s
  cores : ∀ k, (t.core k).store = (s.core k).store

/-! ## Shapes of completion -/

/-- Every agent of a step that is ready at the instruction executes it: it writes `ws` of its sources' values with latency
`lat`, goes on at the next word, and nothing else changes. -/
def FixedLatency (i : Instr) (who : Who) (srcs : List Src) (dsts : List Reg) (n : BitVec 3) (lat : Nat)
    (ws : List VReg → List Write) : Prop :=
  ∀ s : State, s.AllReady who srcs dsts →
    ∃ t, exec i s = .next t ∧ OnlyAgents s t ∧ t.issue.now = s.issue.cycle ∧
      ∀ ag ∈ s.issue.agents, Executed s t ag n lat (ws (s.sources ag srcs)) ((s.ctx ag).pc + 4)

/-- The agent has executed an instruction of variable latency: the group `regs` is pending from its dispatch on until `work` gives
its value (R48), at most for the cycles of `left` (R419); its registers hold what they held, and it goes on at `pc` after its stall
count. -/
structure Awaiting (s t : State) (ag : Agent) (n : BitVec 3) (regs : List Reg) (work : PendWork) (left : Option Nat) (pc : DWord) :
    Prop where
  registers : ∀ r, t.readReg ag r = s.readReg ag r
  pc : (t.ctx ag).pc = pc
  eligible : (t.ctx ag).ready = t.issue.now + 1 + n.toNat
  pending : ∃ id, s.nextId ≤ id ∧ id < t.nextId ∧ (t.ctx ag).pend = (s.ctx ag).pend ++
    [{ id := id, regs := regs, work := work, born := t.issue.now, left := left }]
  status : (t.ctx ag).tstate = (s.ctx ag).tstate
  inFlight : (t.ctx ag).inflight = (s.ctx ag).inflight

/-- Every agent of a step that is ready at the instruction executes it: its destinations are pending with a value that `ok`
allows of its sources' values, within the bound `left` of R419, it goes on at the next word, and nothing else changes. -/
def VariableLatency (i : Instr) (who : Who) (srcs : List Src) (dsts : List Reg) (n : BitVec 3) (left : Option Nat)
    (ok : State → Agent → List VReg → PendWork → Prop) : Prop :=
  ∀ s : State, s.AllReady who srcs dsts →
    ∃ t, exec i s = .next t ∧ OnlyAgents s t ∧ t.issue.now = s.issue.cycle ∧
      ∀ ag ∈ s.issue.agents, ∃ work, ok s ag (s.sources ag srcs) work ∧ Awaiting s t ag n dsts work left ((s.ctx ag).pc + 4)

/-- Every agent of a step that is ready at the branch goes to the target `next` gives of its PC, its sources' values and the
values of all agents' sources, and writes `ws` of its PC with latency 4; memory and everything stored stay. -/
def BranchTo (i : Instr) (who : Who) (srcs : List Src) (dsts : List Reg) (n : BitVec 3)
    (next : DWord → List VReg → List (List VReg) → DWord) (ws : DWord → List Write) : Prop :=
  ∀ s : State, s.AllReady who srcs dsts →
    ∃ t, exec i s = .next t ∧ OnlyControl s t ∧ t.issue.now = s.issue.cycle ∧
      ∀ ag ∈ s.issue.agents, Executed s t ag n 4 (ws (s.ctx ag).pc)
        (next (s.ctx ag).pc (s.sources ag srcs) (s.issue.agents.map fun x => s.sources x srcs))

/-- One agent has executed an instruction that writes no register yet: it goes on at the next word after its stall count, its
groups of pending registers are those it had and `more`, and no other agent's context or registers have changed. -/
structure GoesOn (s t : State) (ag : Agent) (n : BitVec 3) (more : List Pend) : Prop where
  registers : ∀ r, t.readReg ag r = s.readReg ag r
  pc : (t.ctx ag).pc = (s.ctx ag).pc + 4
  eligible : (t.ctx ag).ready = t.issue.now + 1 + n.toNat
  issued : t.issue.now = s.issue.cycle
  status : (t.ctx ag).tstate = (s.ctx ag).tstate
  pending : (t.ctx ag).pend = (s.ctx ag).pend ++ more
  inFlight : (t.ctx ag).inflight = (s.ctx ag).inflight
  others : ∀ x, x ≠ ag → SameAgent s t x

/-- What an outstanding access does: whose it is, where, how many bytes, and the work. -/
def Access.what (a : Access) : Agent × Loc × Nat × AccessWork := (a.agent, a.loc, a.width, a.work)

/-- An access of one agent has been accepted (R171): from the state `u` that its translation left, `new` join the outstanding
accesses; the agent goes on at the next word with its registers as they were; memory, scratchpads and everything else but cached
lines and the agent's own context are as `u` has them, and no other agent's context or registers have changed since `s`. -/
structure Accepted (s u t : State) (ag : Agent) (n : BitVec 3) (new : List (Loc × Nat × AccessWork)) : Prop where
  accesses : t.accs.map Access.what = u.accs.map Access.what ++ new.map fun x => (ag, x)
  registers : ∀ r, t.readReg ag r = s.readReg ag r
  pc : (t.ctx ag).pc = (s.ctx ag).pc + 4
  eligible : (t.ctx ag).ready = t.issue.now + 1 + n.toNat
  status : (t.ctx ag).tstate = (s.ctx ag).tstate
  inFlight : (t.ctx ag).inflight = (s.ctx ag).inflight
  others : ∀ x, x ≠ ag → SameAgent s t x
  memory : t.mem = u.mem
  scratch : ∀ k, (t.core k).scratch = (u.core k).scratch
  rest : { t with cores := u.cores, doms := u.doms, blocks := u.blocks, accs := u.accs, issue := u.issue,
                  nextId := u.nextId, freeIdx := u.freeIdx } = u

/-- The parts in which an access of `w` bytes is made: two single-copy atomic halves of 8 bytes for 16, else one (R174). -/
def partsOf (w : Nat) (loc : Loc) (work : Nat → Nat → AccessWork) : List (Loc × Nat × AccessWork) :=
  if w = 16 then [(loc, 8, work 0 8), (loc.shift 8, 8, work 8 8)] else [(loc, w, work 0 w)]

/-- A load of one agent whose address is accepted (R172) is outstanding, its registers pending until its parts have bound. -/
def Loads (i : Instr) (who : Who) (srcs : List Src) (regs : List Reg) (n : BitVec 3) (w : Nat) (form : LoadForm)
    (addr : List VReg → DWord) : Prop :=
  ∀ (s u : State) (ag : Agent) (loc : Loc) (home : Home) (e : TlbEntry), s.issue.agents = [ag] → s.Ready who srcs regs ag →
    (s.collect ({ n := n, srcs := srcs } : Op).grants).admitted ag .read (addr (s.sources ag srcs)) w =
      (some (loc, home, e), u) →
    ∃ t id, exec i s = .next t ∧ Accepted s u t ag n ((partsOf w loc fun _ _ => .load)) ∧
      (t.ctx ag).pend = (s.ctx ag).pend ++
        [⟨id, regs, .access ((t.accs.drop u.accs.length).map fun a => (a.id, none)) form, t.issue.now, none⟩]

/-- A store of one agent whose address is accepted is outstanding with the bytes of its data registers, and nothing is pending. -/
def Stores (i : Instr) (who : Who) (srcs : List Src) (n : BitVec 3) (w : Nat) (addr : List VReg → DWord)
    (data : List VReg → List Byte) : Prop :=
  ∀ (s u : State) (ag : Agent) (loc : Loc) (home : Home) (e : TlbEntry), s.issue.agents = [ag] → s.Ready who srcs [] ag →
    (s.collect ({ n := n, srcs := srcs } : Op).grants).admitted ag .write (addr (s.sources ag srcs)) w =
      (some (loc, home, e), u) →
    ∃ t, exec i s = .next t ∧ Accepted s u t ag n
        (partsOf w loc fun o k => .store (((data (s.sources ag srcs)).drop o).take k)) ∧
      (t.ctx ag).pend = (s.ctx ag).pend

/-- A bobbin has stopped at its own instruction (R189): it is finishing with this cause, its PC and the word. -/
structure BobbinStops (s t : State) (core b : Nat) (cause : Cause) : Prop where
  status : (t.bobbin core b).status = .finishing
  cause : (t.bobbin core b).cause = cause.code
  pc : (t.bobbin core b).trapPc = (s.bobbin core b).ctx.pc
  word : (t.bobbin core b).trapWord = s.issue.word
  others : ∀ x, x ≠ .bobbin core b → SameAgent s t x
  rest : { t with cores := s.cores, blocks := s.blocks, issue := s.issue, nextId := s.nextId, freeIdx := s.freeIdx } = s
  scratch : ∀ k, (t.core k).scratch = (s.core k).scratch ∧ (t.core k).tiles = (s.core k).tiles

/-- A bobbin has posted command `c` at the tail of one of its queues under a new number and goes on (R194, R213); memory and the
outstanding accesses are as `u`, the state that reading tensor entries left, has them. -/
structure Posts (s u t : State) (core b : Nat) (matrix : Bool) (n : BitVec 3) (c : Command) : Prop where
  queue : ∃ id, s.nextId ≤ id ∧ id < t.nextId ∧
    (t.bobbin core b).queue matrix = (s.bobbin core b).queue matrix ++ [{ c with id := id }]
  other : (t.bobbin core b).queue (!matrix) = (s.bobbin core b).queue (!matrix)
  goesOn : GoesOn s t (.bobbin core b) n []
  memory : t.mem = u.mem
  accesses : t.accs = u.accs
  scratch : c.phs = [] → ∀ k, (t.core k).scratch = (u.core k).scratch

/-- A command stands at the head of its queue, has begun, and nothing holds its next part: its bobbin runs, the queue is not parked, it is
unguarded and credits no phaser, no region is mapped, and no access of its block, and none of the command's own, is outstanding. -/
structure State.Moving (s : State) (core b : Nat) (matrix : Bool) (c : Command) (rest : List Command) (blk : Block) : Prop where
  bobbin : b < 4
  queue : (s.bobbin core b).queue matrix = c :: rest
  ids : ∀ y ∈ rest, y.id ≠ c.id
  running : (s.bobbin core b).status = .running
  block : s.blockOf (.bobbin core b) = some blk
  goes : blk.halted = false
  unparked : ∀ y ∈ c :: rest, y.parked = false
  free : c.guard = none ∧ c.moved = false ∧ c.phs = [] ∧ c.started = true
  regions : ∀ k ∈ s.blocks, ∀ g ∈ k.regions.toList, g.valid = false
  quiet : ∀ a ∈ s.accs, s.bidOf a.agent ≠ blk.bid ∧ a.seen = none ∧ a.cmd ≠ some c.id
  memory : s.MemOk ∧ s.platform.poison = []

/-- A location of `n` bytes in one aligned group of 8, that every store of software writes: of a scratchpad, or of memory outside host
windows. -/
def State.PlainAt (s : State) (l : Loc) (n : Nat) : Prop :=
  match l with
  | .phys pa => pa / 2 ^ 52 ≠ 1023 ∧ pa % 8 + n ≤ 8 ∧ ∀ i, i < n → s.Writable (s.physKey (pa + i))
  | .scratch .. => True
  | .replica .. => False

/-- These bytes have been stored at a location; every other byte, the outstanding accesses, and every agent's context and registers
are as before. -/
structure Stored (s t : State) (l : Loc) (bs : List Byte) : Prop where
  bytes : t.readLoc l bs.length = bs
  memory : ∀ x, (∀ pa, l = .phys pa → ∀ i, i < bs.length → x ≠ s.physKey (pa + i)) → memGet t.mem x = memGet s.mem x
  scratch : ∀ k x, (∀ o, l = .scratch k o → x < o ∨ o + bs.length ≤ x) → memGet (t.core k).scratch x = memGet (s.core k).scratch x
  accesses : t.accs = s.accs
  agents : ∀ ag, SameAgent s t ag

/-- `vd := f va` tagged `t`, of fixed latency. -/
def LaneUnary (i : Instr) (d a : BitVec 6) (acc : Accept) (n : BitVec 3) (lat : Nat) (t : Tag) (f : Word → Word) : Prop :=
  FixedLatency i .thread [vSrc a 0 acc] [.v d] n lat fun vs => [wV d (f (valAt vs 0)) t]

/-- `vd := f va vb` tagged `t`, of fixed latency. -/
def LaneBinary (i : Instr) (d a b : BitVec 6) (accA accB : Accept) (n : BitVec 3) (lat : Nat) (t : Tag)
    (f : Word → Word → Word) : Prop :=
  FixedLatency i .thread [vSrc a 0 accA, vSrc b 1 accB] [.v d] n lat fun vs => [wV d (f (valAt vs 0) (valAt vs 1)) t]

/-- `vd := f va vb vc` tagged `t`, of fixed latency, with vc = v(vd + c) (R35). -/
def LaneTernary (i : Instr) (d a b : BitVec 6) (c : BitVec 3) (accA accB accC : Accept) (n : BitVec 3) (lat : Nat) (t : Tag)
    (f : Word → Word → Word → Word) : Prop :=
  FixedLatency i .thread [vSrc a 0 accA, vSrc b 1 accB, vSrc (d + c.zeroExtend 6) 2 accC] [.v d] n lat fun vs =>
    [wV d (f (valAt vs 0) (valAt vs 1) (valAt vs 2)) t]

/-- `kd := f va vb`. -/
def LaneCompare (i : Instr) (d : BitVec 3) (a b : BitVec 6) (acc : Accept) (n : BitVec 3) (lat : Nat)
    (f : Word → Word → Bool) : Prop :=
  FixedLatency i .thread [vSrc a 0 acc, vSrc b 1 acc] [.k d] n lat fun vs => [wK d (f (valAt vs 0) (valAt vs 1))]

/-- `kd := f ka kb`. -/
def FlagBinary (i : Instr) (d a b : BitVec 3) (n : BitVec 3) (f : Bool → Bool → Bool) : Prop :=
  FixedLatency i .thread [kSrc a, kSrc b] [.k d] n 2 fun vs =>
    [wK d (f ((valAt vs 0).getLsbD 0) ((valAt vs 1).getLsbD 0))]

end Sys2Proof.Machine
end

