-- ==== Sys2Proof/Certificates/Slice0/Obligations.lean ====
section
/-! DEFINITION. The statements about the machine: one Prop each, from the numbered rules of the spec. -/

open Sys2Proof Sys2Proof.Machine

/-- For every group of distinct ready threads, VADD, VSUB (wrapping, signed and unsigned saturating), VADDC, VSUBB, VADDI and
VMOVI answer a next state in which each thread holds the result of R106 with its tag of R102 (and the carry or borrow flag), two
cycles in flight, goes on at the next word after its stall count, and nothing else of the machine differs. -/
def Obligations.LaneAddSub : Prop :=
  ∀ (d a b : BitVec 6) (k n : BitVec 3) (imm : BitVec 9),
    LaneBinary (.vaddI32 d a b n) d a b .int32 .int32 n 2 .i32 (fun x y => BitVec.ofNat 32 (x.toNat + y.toNat)) ∧
    LaneBinary (.vaddI32Sat d a b n) d a b .int32 .int32 n 2 .i32
      (fun x y => BitVec.ofInt 32 (max (-2 ^ 31) (min (2 ^ 31 - 1) (x.toInt + y.toInt)))) ∧
    LaneBinary (.vaddN32Sat d a b n) d a b .int32 .int32 n 2 .n32
      (fun x y => BitVec.ofNat 32 (min (2 ^ 32 - 1) (x.toNat + y.toNat))) ∧
    LaneBinary (.vsubI32 d a b n) d a b .int32 .int32 n 2 .i32 (fun x y => BitVec.ofInt 32 (x.toInt - y.toInt)) ∧
    LaneBinary (.vsubI32Sat d a b n) d a b .int32 .int32 n 2 .i32
      (fun x y => BitVec.ofInt 32 (max (-2 ^ 31) (min (2 ^ 31 - 1) (x.toInt - y.toInt)))) ∧
    LaneBinary (.vsubN32Sat d a b n) d a b .int32 .int32 n 2 .n32
      (fun x y => BitVec.ofInt 32 (max 0 ((x.toNat : Int) - y.toNat))) ∧
    FixedLatency (.vaddc d a b k n) .thread [vSrc a 0 .int32, vSrc b 1 .int32, kSrc k] [.v d, .k k] n 2 (fun vs =>
      let t := (valAt vs 0).toNat + (valAt vs 1).toNat + ((valAt vs 2).getLsbD 0).toNat
      [wV d (BitVec.ofNat 32 t) .n32, wK k (decide (2 ^ 32 ≤ t))]) ∧
    FixedLatency (.vsubb d a b k n) .thread [vSrc a 0 .int32, vSrc b 1 .int32, kSrc k] [.v d, .k k] n 2 (fun vs =>
      let t : Int := (valAt vs 0).toNat - (valAt vs 1).toNat - ((valAt vs 2).getLsbD 0).toNat
      [wV d (BitVec.ofInt 32 t) .n32, wK k (decide (t < 0))]) ∧
    LaneUnary (.vaddiI32 d a imm n) d a .int32 n 2 .i32 (fun x => BitVec.ofInt 32 (x.toInt + imm.toInt)) ∧
    FixedLatency (.vmoviI32 d imm n) .thread [] [.v d] n 2 (fun _ => [wV d (BitVec.ofInt 32 imm.toInt) .i32])

/-- For every group of distinct ready threads, VMUL, VMULHI, VMAD, VMADW (with even vd and vc), VDP4 and VSAD answer a next
state in which each thread holds the result of R107 or R108 with its tag (both registers of the pair for VMADW), in flight for 4
cycles (6 for VMADW), and nothing else of the machine differs. -/
def Obligations.LaneMultiply : Prop :=
  ∀ (d a b : BitVec 6) (c n : BitVec 3), d.toNat + c.toNat ≤ 63 →
    LaneBinary (.vmulI32 d a b n) d a b .int32 .int32 n 4 .i32 (fun x y => BitVec.ofInt 32 (x.toInt * y.toInt)) ∧
    LaneBinary (.vmulhiI32 d a b n) d a b .int32 .int32 n 4 .i32 (fun x y => BitVec.ofInt 32 (x.toInt * y.toInt / 2 ^ 32)) ∧
    LaneBinary (.vmulhiN32 d a b n) d a b .int32 .int32 n 4 .n32 (fun x y => BitVec.ofNat 32 (x.toNat * y.toNat / 2 ^ 32)) ∧
    LaneTernary (.vmadI32 d a b c n) d a b c .int32 .int32 .int32 n 4 .i32
      (fun x y z => BitVec.ofInt 32 (x.toInt * y.toInt + z.toInt)) ∧
    (d.toNat % 2 = 0 → c.toNat % 2 = 0 →
      FixedLatency (.vmadwI32 d a b c n) .thread
        [vSrc a 0 .int32, vSrc b 1 .int32, vSrc (d + c.zeroExtend 6) 2 .int64, vSrc (d + c.zeroExtend 6 + 1) 2 .int64]
        [.v d, .v (d + 1)] n 6 (fun vs =>
          let r := BitVec.ofInt 64 ((valAt vs 0).toInt * (valAt vs 1).toInt + (valAt vs 3 ++ valAt vs 2).toInt)
          [wV d (r.extractLsb' 0 32) .i64, wV (d + 1) (r.extractLsb' 32 32) .i64]) ∧
      FixedLatency (.vmadwN32 d a b c n) .thread
        [vSrc a 0 .int32, vSrc b 1 .int32, vSrc (d + c.zeroExtend 6) 2 .int64, vSrc (d + c.zeroExtend 6 + 1) 2 .int64]
        [.v d, .v (d + 1)] n 6 (fun vs =>
          let r := BitVec.ofNat 64 ((valAt vs 0).toNat * (valAt vs 1).toNat + (valAt vs 3 ++ valAt vs 2).toNat)
          [wV d (r.extractLsb' 0 32) .n64, wV (d + 1) (r.extractLsb' 32 32) .n64])) ∧
    LaneTernary (.vdp4I8 d a b c n) d a b c .bytes4 .bytes4 .int32 n 4 .i32 (fun x y z => BitVec.ofInt 32
      ((((List.range 4).map fun j => (x.extractLsb' (8 * j) 8).toInt * (y.extractLsb' (8 * j) 8).toInt).sum) + z.toInt)) ∧
    LaneTernary (.vdp4N8 d a b c n) d a b c .bytes4 .bytes4 .int32 n 4 .n32 (fun x y z => BitVec.ofNat 32
      ((((List.range 4).map fun j => (x.extractLsb' (8 * j) 8).toNat * (y.extractLsb' (8 * j) 8).toNat).sum) + z.toNat)) ∧
    LaneTernary (.vsadN8 d a b c n) d a b c .bytes4 .bytes4 .int32 n 4 .n32 (fun x y z => BitVec.ofInt 32
      ((((List.range 4).map fun j => |((x.extractLsb' (8 * j) 8).toNat : Int) - (y.extractLsb' (8 * j) 8).toNat|).sum) + z.toNat))

/-- For every group of distinct ready threads, VMIN, VMAX, VSHL, VSHR, VROTL, VROTR, their immediate forms, VBFE, VBFI, VPOPC,
VCLZ, VBREV and VPERM answer a next state in which each thread holds the result of R109 to R112, bit by bit, with its tag of
R102, and nothing else of the machine differs. -/
def Obligations.LaneMinMaxShiftBits : Prop :=
  ∀ (d a b : BitVec 6) (c n : BitVec 3) (sh : BitVec 5),
    let pos := fun y : Word => (y.extractLsb' 0 5).toNat
    let len := fun y : Word => min (y.extractLsb' 8 6).toNat (32 - (y.extractLsb' 0 5).toNat)
    LaneBinary (.vminI32 d a b n) d a b .int32 .int32 n 2 .i32 (fun x y => BitVec.ofInt 32 (min x.toInt y.toInt)) ∧
    LaneBinary (.vminN32 d a b n) d a b .int32 .int32 n 2 .n32 (fun x y => BitVec.ofNat 32 (min x.toNat y.toNat)) ∧
    LaneBinary (.vmaxI32 d a b n) d a b .int32 .int32 n 2 .i32 (fun x y => BitVec.ofInt 32 (max x.toInt y.toInt)) ∧
    LaneBinary (.vmaxN32 d a b n) d a b .int32 .int32 n 2 .n32 (fun x y => BitVec.ofNat 32 (max x.toNat y.toNat)) ∧
    LaneBinary (.vshlB32 d a b n) d a b .any .int32 n 2 .raw (fun x y =>
      if 32 ≤ y.toNat then 0 else BitVec.ofNat 32 (x.toNat * 2 ^ y.toNat)) ∧
    LaneBinary (.vshrN32 d a b n) d a b .any .int32 n 2 .n32 (fun x y =>
      if 32 ≤ y.toNat then 0 else BitVec.ofNat 32 (x.toNat / 2 ^ y.toNat)) ∧
    LaneBinary (.vshrI32 d a b n) d a b .any .int32 n 2 .i32 (fun x y => BitVec.ofInt 32 (x.toInt / 2 ^ min y.toNat 31)) ∧
    LaneUnary (.vshliB32 d a sh n) d a .any n 2 .raw (fun x => BitVec.ofNat 32 (x.toNat * 2 ^ sh.toNat)) ∧
    LaneUnary (.vshriN32 d a sh n) d a .any n 2 .n32 (fun x => BitVec.ofNat 32 (x.toNat / 2 ^ sh.toNat)) ∧
    LaneUnary (.vshriI32 d a sh n) d a .any n 2 .i32 (fun x => BitVec.ofInt 32 (x.toInt / 2 ^ sh.toNat)) ∧
    LaneBinary (.vrotlB32 d a b n) d a b .any .int32 n 2 .raw (fun x y =>
      (x <<< (y.toNat % 32)) ||| (x >>> (32 - y.toNat % 32))) ∧
    LaneBinary (.vrotrB32 d a b n) d a b .any .int32 n 2 .raw (fun x y =>
      (x >>> (y.toNat % 32)) ||| (x <<< (32 - y.toNat % 32))) ∧
    LaneBinary (.vbfeN32 d a b n) d a b .any .int32 n 4 .n32 (fun x y => ((x >>> pos y).setWidth (len y)).zeroExtend 32) ∧
    LaneBinary (.vbfeI32 d a b n) d a b .any .int32 n 4 .i32 (fun x y => ((x >>> pos y).setWidth (len y)).signExtend 32) ∧
    (d.toNat + c.toNat ≤ 63 → LaneTernary (.vbfiB32 d a b c n) d a b c .any .int32 .any n 4 .raw (fun x y z =>
      BitVec.ofFnLE fun i : Fin 32 =>
        if pos y ≤ i.val ∧ i.val < pos y + len y then x.getLsbD (i.val - pos y) else z.getLsbD i.val)) ∧
    LaneUnary (.vpopcB32 d a n) d a .any n 4 .n32 (fun x =>
      BitVec.ofNat 32 (((List.range 32).map fun i => (x.getLsbD i).toNat).sum)) ∧
    LaneUnary (.vclzB32 d a n) d a .any n 4 .n32 (fun x =>
      BitVec.ofNat 32 (((List.range 32).takeWhile fun i => !x.getLsbD (31 - i)).length)) ∧
    LaneUnary (.vbrevB32 d a n) d a .any n 4 .raw (fun x => BitVec.ofFnLE fun i : Fin 32 => x.getLsbD (31 - i.val)) ∧
    FixedLatency (.vpermB32 d a b n) .thread [vSrc a 0 .any, vSrc b 1 .any, vSrc d 3 .any] [.v d] n 4 (fun vs =>
      [wV d (BitVec.ofFnLE fun i : Fin 32 =>
        let c := (valAt vs 2).toNat / 16 ^ (i.val / 8) % 16
        decide (c < 8) && (valAt vs 1 ++ valAt vs 0).getLsbD (8 * c + i.val % 8)) .raw])

/-- For every group of distinct ready threads, the logic forms and their immediate forms, VCMP, VSEL, the k-operations, VKRD,
VKWR, VMOV, VMOVS, TAGSET and TAGGET answer a next state in which each thread holds the result and tag of R113 to R116 (TAGSET
of R138, TAGGET of R139), class A, and nothing else of the machine differs. -/
def Obligations.LaneLogicMoveFlags : Prop :=
  ∀ (d a b : BitVec 6) (sa : BitVec 4) (kd ka kb n : BitVec 3) (imm : BitVec 9) (tg : BitVec 4),
    let any2 := [vSrc a 0 .any, vSrc b 1 .any]
    LaneBinary (.vandB32 d a b n) d a b .any .any n 2 .raw (fun x y => x &&& y) ∧
    LaneBinary (.vorB32 d a b n) d a b .any .any n 2 .raw (fun x y => x ||| y) ∧
    LaneBinary (.vxorB32 d a b n) d a b .any .any n 2 .raw (fun x y => x ^^^ y) ∧
    LaneBinary (.vandnB32 d a b n) d a b .any .any n 2 .raw (fun x y => x &&& ~~~y) ∧
    LaneUnary (.vnotB32 d a n) d a .any n 2 .raw (fun x => ~~~x) ∧
    LaneUnary (.vandiB32 d a imm n) d a .any n 2 .raw (fun x => x &&& BitVec.ofNat 32 imm.toNat) ∧
    LaneUnary (.voriB32 d a imm n) d a .any n 2 .raw (fun x => x ||| BitVec.ofNat 32 imm.toNat) ∧
    LaneUnary (.vxoriB32 d a imm n) d a .any n 2 .raw (fun x => x ^^^ BitVec.ofNat 32 imm.toNat) ∧
    LaneCompare (.vcmpEqI32 kd a b n) kd a b .int32 n 2 (fun x y => decide (x.toInt = y.toInt)) ∧
    LaneCompare (.vcmpNeI32 kd a b n) kd a b .int32 n 2 (fun x y => decide (x.toInt ≠ y.toInt)) ∧
    LaneCompare (.vcmpLtI32 kd a b n) kd a b .int32 n 2 (fun x y => decide (x.toInt < y.toInt)) ∧
    LaneCompare (.vcmpLeI32 kd a b n) kd a b .int32 n 2 (fun x y => decide (x.toInt ≤ y.toInt)) ∧
    LaneCompare (.vcmpGtI32 kd a b n) kd a b .int32 n 2 (fun x y => decide (x.toInt > y.toInt)) ∧
    LaneCompare (.vcmpGeI32 kd a b n) kd a b .int32 n 2 (fun x y => decide (x.toInt ≥ y.toInt)) ∧
    LaneCompare (.vcmpLtN32 kd a b n) kd a b .int32 n 2 (fun x y => decide (x.toNat < y.toNat)) ∧
    LaneCompare (.vcmpLeN32 kd a b n) kd a b .int32 n 2 (fun x y => decide (x.toNat ≤ y.toNat)) ∧
    LaneCompare (.vcmpGtN32 kd a b n) kd a b .int32 n 2 (fun x y => decide (x.toNat > y.toNat)) ∧
    LaneCompare (.vcmpGeN32 kd a b n) kd a b .int32 n 2 (fun x y => decide (x.toNat ≥ y.toNat)) ∧
    FixedLatency (.vselB32 d a b ka n) .thread (any2 ++ [kSrc ka]) [.v d] n 2 (fun vs =>
      if (valAt vs 2).getLsbD 0 then [wV d (valAt vs 0) (tagAt vs 0)] else [wV d (valAt vs 1) (tagAt vs 1)]) ∧
    FlagBinary (.kand kd ka kb n) kd ka kb n (fun x y => x && y) ∧
    FlagBinary (.kor kd ka kb n) kd ka kb n (fun x y => x || y) ∧
    FlagBinary (.kxor kd ka kb n) kd ka kb n (fun x y => x ^^ y) ∧
    FlagBinary (.kandn kd ka kb n) kd ka kb n (fun x y => x && !y) ∧
    FixedLatency (.knot kd ka n) .thread [kSrc ka] [.k kd] n 2 (fun vs => [wK kd (!(valAt vs 0).getLsbD 0)]) ∧
    FixedLatency (.kmov kd ka n) .thread [kSrc ka] [.k kd] n 2 (fun vs => [wK kd ((valAt vs 0).getLsbD 0)]) ∧
    FixedLatency (.vkrd d n) .thread ((List.range 8).map fun j => kSrc (BitVec.ofNat 3 j)) [.v d] n 2 (fun vs =>
      [wV d (BitVec.ofFnLE fun i : Fin 32 => decide (i.val < 8) && (valAt vs i.val).getLsbD 0) .n32]) ∧
    FixedLatency (.vkwr a b n) .thread any2 [] n 2 (fun vs =>
      ((List.range 8).filter fun j => (valAt vs 1).getLsbD j).map fun j => wK (BitVec.ofNat 3 j) ((valAt vs 0).getLsbD j)) ∧
    FixedLatency (.vmovB32 d a n) .thread [vSrc a 0 .any] [.v d] n 2 (fun vs => [wV d (valAt vs 0) (tagAt vs 0)]) ∧
    FixedLatency (.vmovsB32 d sa n) .thread [sSrc sa] [.v d] n 2 (fun vs => [wV d (valAt vs 0) .raw]) ∧
    FixedLatency (.tagset d tg n) .thread [vSrc d 3 .any] [.v d] n 2 (fun vs => [wV d (valAt vs 0) (tagOfCode tg.toNat)]) ∧
    FixedLatency (.tagget d a n) .thread [vSrc a 0 .any] [.v d] n 2 (fun vs =>
      [wV d (BitVec.ofNat 32 (tagCode (tagAt vs 0))) .n32])

/-- For every group of distinct ready threads (sources tagged with the element format), FADD, FSUB, FMUL and FFMA answer a next
state in which vd holds, for each element on its own, the exact result rounded once under rn (R124), and FMIN and FMAX one
operand by R126, tagged with the format, class F; nothing else of the machine differs. -/
def Obligations.LaneFloatArithmetic : Prop :=
  ∀ (d a b : BitVec 6) (c n : BitVec 3),
    let one := fun (F : Fmt) (op : FVal → FVal → FVal) (x y : Nat) => roundF F .rn (op (valueOf F x) (valueOf F y))
    let fused := fun (F : Fmt) (x y z : Nat) => roundF F .rn (((valueOf F x).mul (valueOf F y)).add (valueOf F z))
    let pick := fun (lesser : Bool) (F : Fmt) (x y : Nat) =>
      if (valueOf F x).isNan ∧ (valueOf F y).isNan then F.nanCode .ieee
      else if (valueOf F x).isNan then y else if (valueOf F y).isNan then x
      else if (decide ((valueOf F x).cmp (valueOf F y) = .lt) ||
        (decide ((valueOf F x).cmp (valueOf F y) = .eq) && signOf F x && !signOf F y)) = lesser then x else y
    let word := fun (g : Nat → Nat → Nat) (x y : Word) => (BitVec.ofNat 32 (g x.toNat y.toNat) : Word)
    let halves := fun (g : Nat → Nat → Nat) (x y : Word) =>
      (BitVec.ofNat 16 (g (x.extractLsb' 16 16).toNat (y.extractLsb' 16 16).toNat) ++
        BitVec.ofNat 16 (g (x.extractLsb' 0 16).toNat (y.extractLsb' 0 16).toNat) : Word)
    let halves3 := fun (g : Nat → Nat → Nat → Nat) (x y z : Word) =>
      (BitVec.ofNat 16 (g (x.extractLsb' 16 16).toNat (y.extractLsb' 16 16).toNat (z.extractLsb' 16 16).toNat) ++
        BitVec.ofNat 16 (g (x.extractLsb' 0 16).toNat (y.extractLsb' 0 16).toNat (z.extractLsb' 0 16).toNat) : Word)
    let sub := fun (x y : FVal) => x.add y.neg
    let f32 := fun (i : Instr) (g : Nat → Nat → Nat) =>
      LaneBinary i d a b (.exactly .f32) (.exactly .f32) n 5 .f32 (word g)
    let f16 := fun (i : Instr) (g : Nat → Nat → Nat) =>
      LaneBinary i d a b (.exactly .f16x2) (.exactly .f16x2) n 5 .f16x2 (halves g)
    let bf16 := fun (i : Instr) (g : Nat → Nat → Nat) =>
      LaneBinary i d a b (.exactly .bf16x2) (.exactly .bf16x2) n 5 .bf16x2 (halves g)
    (f32 (.faddF32 d a b n) (one .f32 .add) ∧ f16 (.faddF16 d a b n) (one .f16 .add) ∧ bf16 (.faddBf16 d a b n) (one .bf16 .add)) ∧
    (f32 (.fsubF32 d a b n) (one .f32 sub) ∧ f16 (.fsubF16 d a b n) (one .f16 sub) ∧ bf16 (.fsubBf16 d a b n) (one .bf16 sub)) ∧
    (f32 (.fmulF32 d a b n) (one .f32 .mul) ∧ f16 (.fmulF16 d a b n) (one .f16 .mul) ∧ bf16 (.fmulBf16 d a b n) (one .bf16 .mul)) ∧
    (f32 (.fminF32 d a b n) (pick true .f32) ∧ f16 (.fminF16 d a b n) (pick true .f16) ∧
      bf16 (.fminBf16 d a b n) (pick true .bf16)) ∧
    (f32 (.fmaxF32 d a b n) (pick false .f32) ∧ f16 (.fmaxF16 d a b n) (pick false .f16) ∧
      bf16 (.fmaxBf16 d a b n) (pick false .bf16)) ∧
    (d.toNat + c.toNat ≤ 63 →
      LaneTernary (.ffmaF32 d a b c n) d a b c (.exactly .f32) (.exactly .f32) (.exactly .f32) n 5 .f32
        (fun x y z => BitVec.ofNat 32 (fused .f32 x.toNat y.toNat z.toNat)) ∧
      LaneTernary (.ffmaF16 d a b c n) d a b c (.exactly .f16x2) (.exactly .f16x2) (.exactly .f16x2) n 5 .f16x2
        (halves3 (fused .f16)) ∧
      LaneTernary (.ffmaBf16 d a b c n) d a b c (.exactly .bf16x2) (.exactly .bf16x2) (.exactly .bf16x2) n 5 .bf16x2
        (halves3 (fused .bf16)))

/-- For each of F32, F16 and BF16: any NaN operand gives the canonical NaN; zero times infinity gives NaN, also in FFMA; a sum
of opposite infinities gives NaN, also of an infinite product and the addend in FFMA; any remaining infinity gives that
infinity, a product with the XOR of the signs; a zero product has the XOR of the signs, two zeros of one sign keep it, and every
other exact zero sum is +0, in FFMA too (R125). -/
def Obligations.FloatSpecialCases : Prop :=
  ∀ F ∈ [Fmt.f32, Fmt.f16, Fmt.bf16], ∀ x y z : Nat,
    let nan := F.nanCode .ieee
    let inf := fun s : Bool => F.signBit s + F.infCode
    let v := valueOf F
    let sum := fun x y => roundF F .rn ((v x).add (v y))
    let product := fun x y => roundF F .rn ((v x).mul (v y))
    let fused := fun x y z => roundF F .rn (((v x).mul (v y)).add (v z))
    ((v x = .nan ∨ v y = .nan) → sum x y = nan ∧ product x y = nan ∧ fused x y z = nan) ∧
    (v z = .nan → fused x y z = nan) ∧
    (∀ s t e, ((v x = .inf s ∧ v y = .fin t 0 e) ∨ (v x = .fin t 0 e ∧ v y = .inf s)) → product x y = nan ∧ fused x y z = nan) ∧
    (∀ s, v x = .inf s → v y = .inf (!s) → sum x y = nan) ∧
    (∀ s t m e, m ≠ 0 → ((v x = .inf s ∧ (v y = .inf t ∨ v y = .fin t m e)) ∨ (v x = .fin s m e ∧ v y = .inf t)) →
      (v z = .inf (!(s != t)) → fused x y z = nan) ∧
      (v z = .inf (s != t) ∨ (∃ u k f, v z = .fin u k f) → fused x y z = inf (s != t))) ∧
    (∀ s m e t k f u, v x = .fin s m e → v y = .fin t k f → v z = .inf u → fused x y z = inf u) ∧
    (∀ s m e t k f u g, v x = .fin s m e → v y = .fin t k f → (m = 0 ∨ k = 0) → v z = .fin u 0 g →
      fused x y z = F.signBit ((s != t) && u)) ∧
    (∀ s m e t k f w g, v x = .fin s m e → v y = .fin t k f → v z = .fin (!(s != t)) w g → m ≠ 0 → k ≠ 0 →
      (m * k : ℚ) * (2 : ℚ) ^ (e + f) = w * (2 : ℚ) ^ g → fused x y z = 0) ∧
    (∀ s, v x = .inf s → v y = .inf s → sum x y = inf s) ∧
    (∀ s t m e, v x = .inf s → v y = .fin t m e → sum x y = inf s ∧ sum y x = inf s ∧
      (m ≠ 0 → product x y = inf (s != t) ∧ product y x = inf (s != t))) ∧
    (∀ s t, v x = .inf s → v y = .inf t → product x y = inf (s != t)) ∧
    (∀ s m e t k f, v x = .fin s m e → v y = .fin t k f → (m = 0 ∨ k = 0) → product x y = F.signBit (s != t)) ∧
    (∀ s e t f, v x = .fin s 0 e → v y = .fin t 0 f → sum x y = F.signBit (s && t)) ∧
    (∀ s m e, m ≠ 0 → v x = .fin s m e → v y = .fin (!s) m e → sum x y = 0)

/-- The value of an encoding with sign S, exponent field E and fraction F is that of R63 for F32, F16 and BF16, and that of R68
and R69 for the five narrow formats under each reading: the infinities, the NaN codes, else (-1)^S times 2^(E - bias) (1 + F /
2^f), or 2^(1 - bias) F / 2^f where E is 0. The model sum and product of two finite values are finite and have exactly the
rational sum and product, so that the only rounding is the one to the result format (R64, first point). -/
def Obligations.FloatValueExact : Prop :=
  (∀ row ∈ [(Fmt.f32, (8 : Nat), (23 : Nat), (127 : Nat), [Reading.ieee]), (.f16, 5, 10, 15, [.ieee]), (.bf16, 8, 7, 127, [.ieee]),
      (.f8e4, 4, 3, 7, [.fin, .nan, .ieee]), (.f8e5, 5, 2, 15, [.fin, .nan, .ieee]), (.f6e2, 2, 3, 1, [.fin, .nan, .ieee]),
      (.f6e3, 3, 2, 3, [.fin, .nan, .ieee]), (.f4e2, 2, 1, 1, [.fin, .nan, .ieee])], ∀ rd ∈ row.2.2.2.2, ∀ x : Nat,
    let ew := row.2.1
    let fw := row.2.2.1
    let bias : Int := (row.2.2.2.1 : Nat)
    let neg : Bool := decide (x / 2 ^ (ew + fw) % 2 = 1)
    let ex := x / 2 ^ fw % 2 ^ ew
    let fr := x % 2 ^ fw
    let top := ex = 2 ^ ew - 1
    let v := row.1.value rd x
    (rd = .ieee ∧ top ∧ fr = 0 → v = .inf neg) ∧
    ((rd = .ieee ∧ top ∧ fr ≠ 0) ∨ (rd = .nan ∧ top ∧ fr = 2 ^ fw - 1) → v = .nan) ∧
    (rd = .fin ∨ (rd = .nan ∧ ¬(top ∧ fr = 2 ^ fw - 1)) ∨ (rd = .ieee ∧ ¬top) → ∃ m e, v = .fin neg m e ∧
      (m : ℚ) * (2 : ℚ) ^ e =
        if ex = 0 then (2 : ℚ) ^ (1 - bias) * (fr / 2 ^ fw) else (2 : ℚ) ^ ((ex : Int) - bias) * (1 + fr / 2 ^ fw))) ∧
  (∀ (s t : Bool) (m k : Nat) (e f : Int), ∃ p q : ℚ,
    (FVal.fin s m e).real = some p ∧ (FVal.fin t k f).real = some q ∧ ((FVal.fin s m e).add (.fin t k f)).real = some (p + q) ∧
      ((FVal.fin s m e).mul (.fin t k f)).real = some (p * q) ∧ (FVal.fin s m e).neg.real = some (-p))

/-- The integer magnitude that the model takes for a nonnegative ratio num/den under a mode is within one of it; rz never
exceeds it; rn is within half, and even in a tie; rd takes the greatest integer not above the signed value and ru the least not
below (R65). A finite value encoded in F32, F16 or BF16, or in a narrow format under a reading, has the magnitude to which the
mode rounds it with the exponent unbounded above, where that does not exceed the largest finite value; else it is the overflow
of the table of R66: an infinity or the largest finite value by mode and sign, and under the readings FIN and NAN the largest
finite value of its sign. A NaN and an infinity have the codes of R64, R69 and R71. -/
def Obligations.RoundingModes : Prop :=
  (∀ row ∈ [(Fmt.f32, Reading.ieee, (2 - 2 ^ (-23 : Int)) * 2 ^ 127, 0x7FC00000, 0x7F800000), (.f16, .ieee, 65504, 0x7E00, 0x7C00),
      (.bf16, .ieee, (2 - 2 ^ (-7 : Int)) * 2 ^ 127, 0x7FC0, 0x7F80),
      (.f8e4, .fin, 480, 0, 0x7F), (.f8e4, .nan, 448, 0x7F, 0x7F), (.f8e4, .ieee, 240, 0x7C, 0x78),
      (.f8e5, .fin, 114688, 0, 0x7F), (.f8e5, .nan, 98304, 0x7F, 0x7F), (.f8e5, .ieee, 57344, 0x7E, 0x7C),
      (.f6e2, .fin, 15 / 2, 0, 0x1F), (.f6e2, .nan, 7, 0x1F, 0x1F), (.f6e2, .ieee, 15 / 4, 0x1C, 0x18),
      (.f6e3, .fin, 28, 0, 0x1F), (.f6e3, .nan, 24, 0x1F, 0x1F), (.f6e3, .ieee, 14, 0x1E, 0x1C),
      (.f4e2, .fin, 6, 0, 7), (.f4e2, .nan, 4, 7, 7), (.f4e2, .ieee, (3 : ℚ), 7, 6)], ∀ (m : RMode) (s : Bool) (k : Nat) (e : Int),
    let F := row.1
    let rd := row.2.1
    let top := row.2.2.1
    let r := encodeFloat F rd m (.fin s k e)
    let is := fun y : ℚ => ∃ j q, F.value rd r = .fin s j q ∧ (j : ℚ) * (2 : ℚ) ^ q = y
    encodeFloat F rd m .nan = row.2.2.2.1 ∧
    encodeFloat F rd m (.inf s) = row.2.2.2.2 + (if s ∧ rd ≠ .nan then 2 ^ (F.width - 1) else 0) ∧
    r < 2 ^ F.width ∧
    ∃ y, F.RoundsTo m s (k * (2 : ℚ) ^ e) y ∧ (y ≤ top → is y) ∧
      (top < y →
        if rd = .ieee ∧ (m = .rn ∨ (m = .rd ∧ s = true) ∨ (m = .ru ∧ s = false)) then F.value rd r = .inf s else is top)) ∧
  ∀ (num den : Nat) (neg : Bool), 0 < den →
    (let k := roundNat .rz neg num den; k * den ≤ num ∧ num < (k + 1) * den) ∧
    (let k := roundNat .rn neg num den
     2 * (k * den) ≤ 2 * num + den ∧ 2 * num ≤ 2 * (k * den) + den ∧
       ((2 * (k * den) = 2 * num + den ∨ 2 * num = 2 * (k * den) + den) → k % 2 = 0)) ∧
    (let k := roundNat .rd neg num den
     if neg then num ≤ k * den ∧ k * den < num + den else k * den ≤ num ∧ num < (k + 1) * den) ∧
    (let k := roundNat .ru neg num den
     if neg then k * den ≤ num ∧ num < (k + 1) * den else num ≤ k * den ∧ k * den < num + den)

/-- For F32, F16 and BF16 and every encoding that is no NaN, rounding its value to the format gives the encoding back, in each
of the four modes; a NaN gives the canonical NaN (R131: a source that is already in the destination format is copied, except
that a NaN becomes the canonical NaN). -/
def Obligations.FloatFormatKept : Prop :=
  ∀ F ∈ [Fmt.f32, Fmt.f16, Fmt.bf16], ∀ (m : RMode) (x : Nat), x < 2 ^ F.width →
    roundF F m (valueOf F x) = if (valueOf F x).isNan then F.nanCode .ieee else x

/-- For every group of distinct ready threads with sources tagged f32, FCMP writes kd by its condition (NaN unordered, finite
values by their reals with the zeros equal, infinities beyond them), FCLASS the one class bit tagged n32, FABS, FNEG and FCSGN
act on bit 31 alone; class A; nothing else of the machine differs. -/
def Obligations.LaneFloatCompareSign : Prop :=
  ∀ (kd n : BitVec 3) (d a b : BitVec 6),
    let f := Accept.exactly .f32
    let v := fun x : Word => valueOf .f32 x.toNat
    let un := fun x y : Word => (v x).isNan || (v y).isNan
    let ord := fun x y : Word => (v x).cmp (v y)
    LaneCompare (.fcmpEqF32 kd a b n) kd a b f n 2 (fun x y => !un x y && decide (ord x y = .eq)) ∧
    LaneCompare (.fcmpNeF32 kd a b n) kd a b f n 2 (fun x y => un x y || decide (ord x y ≠ .eq)) ∧
    LaneCompare (.fcmpLtF32 kd a b n) kd a b f n 2 (fun x y => !un x y && decide (ord x y = .lt)) ∧
    LaneCompare (.fcmpLeF32 kd a b n) kd a b f n 2 (fun x y => !un x y && decide (ord x y ≠ .gt)) ∧
    LaneCompare (.fcmpGtF32 kd a b n) kd a b f n 2 (fun x y => !un x y && decide (ord x y = .gt)) ∧
    LaneCompare (.fcmpGeF32 kd a b n) kd a b f n 2 (fun x y => !un x y && decide (ord x y ≠ .lt)) ∧
    LaneCompare (.fcmpUnF32 kd a b n) kd a b f n 2 un ∧
    LaneUnary (.fclassF32 d a n) d a f n 2 .n32 (fun x => match v x with
      | .nan => 256
      | .inf s => if s then 1 else 128
      | .fin s m _ =>
        if m = 0 then (if s then 8 else 16) else if m < 2 ^ 23 then (if s then 4 else 32) else if s then 2 else 64) ∧
    LaneUnary (.fabsF32 d a n) d a f n 2 .f32 (fun x => 0#1 ++ x.extractLsb' 0 31) ∧
    LaneUnary (.fnegF32 d a n) d a f n 2 .f32 (fun x => ~~~(x.extractLsb' 31 1) ++ x.extractLsb' 0 31) ∧
    LaneBinary (.fcsgnF32 d a b n) d a b f f n 2 .f32 (fun x y => y.extractLsb' 31 1 ++ x.extractLsb' 0 31) ∧
    (∀ s t e k, (FVal.fin s 0 e).cmp (.fin t 0 k) = .eq) ∧
    (∀ (x y : FVal) (p q : ℚ), x.real = some p → y.real = some q →
      (x.cmp y = .lt ↔ p < q) ∧ (x.cmp y = .eq ↔ p = q) ∧ (x.cmp y = .gt ↔ q < p)) ∧
    (∀ (x : FVal) (p : ℚ), x.real = some p → x.cmp (.inf false) = .lt ∧ (FVal.inf true).cmp x = .lt ∧
      (FVal.inf false).cmp x = .gt ∧ x.cmp (.inf true) = .gt) ∧
    (FVal.inf true).cmp (.inf false) = .lt ∧ (FVal.inf false).cmp (.inf true) = .gt ∧ ∀ s, (FVal.inf s).cmp (.inf s) = .eq

/-- For every group of distinct ready threads, the F32 functions of R132 and QNT answer a next state in which vd is pending with
an F32 (raw for QNT) value that the model allows for the source: one member of the set for FRCP and FRSQ, the rounded root for
FSQRT, a value for FEX2 and FLG2 that depends on the free choice c (its bounds are those of FloatFunctionBounds), for QNT the
parameter word of R136: +0 and 0 for a NaN, an infinite operand or an empty range, else the range over M rounded upward to F16
and at most 65504 as the scale, and minus the least value over the scale, rounded and clamped, as the zero point; every NaN,
infinity, zero and negative operand that the table of R132 names, overflow and underflow of FEX2 among them, gives the value of
the table. VGET leaves vd pending with 0 tagged raw for a lender outside the block, its own value, or the loan (R117). Each
completes within 64 cycles (R419). Nothing else of the machine differs. -/
def Obligations.LaneFloatVariable : Prop :=
  ∀ (d a b : BitVec 6) (n : BitVec 3),
    let f := Accept.exactly .f32
    let one := fun (ok : Nat → Nat → Prop) (_ : State) (_ : Agent) (vs : List VReg) (w : PendWork) =>
      ∃ r, ok (valAt vs 0).toNat r ∧ w = .value [⟨BitVec.ofNat 32 r, .f32⟩]
    let val := valueOf .f32
    let nan := 0x7FC00000
    VariableLatency (.frcpF32 d a n) .thread [vSrc a 0 f] [.v d] n (some 64) (one fun x r => r ∈ frcpSet x) ∧
    VariableLatency (.frsqF32 d a n) .thread [vSrc a 0 f] [.v d] n (some 64) (one fun x r => r ∈ frsqSet x) ∧
    VariableLatency (.fsqrtF32 d a n) .thread [vSrc a 0 f] [.v d] n (some 64) (one fun x r => r = fsqrt32 x) ∧
    VariableLatency (.fex2F32 d a n) .thread [vSrc a 0 f] [.v d] n (some 64) (one fun x r => ∃ c : Word, r = fex2 x c.toNat) ∧
    VariableLatency (.flg2F32 d a n) .thread [vSrc a 0 f] [.v d] n (some 64) (one fun x r => ∃ c : Word, r = flg2 x c.toNat) ∧
    VariableLatency (.qntQ4 d a b n) .thread [vSrc a 0 f, vSrc b 1 f] [.v d] n (some 64)
      (fun _ _ vs w => w = .value [⟨BitVec.ofNat 32 (qnt 4 (valAt vs 0).toNat (valAt vs 1).toNat), .raw⟩]) ∧
    VariableLatency (.qntQ8 d a b n) .thread [vSrc a 0 f, vSrc b 1 f] [.v d] n (some 64)
      (fun _ _ vs w => w = .value [⟨BitVec.ofNat 32 (qnt 8 (valAt vs 0).toNat (valAt vs 1).toNat), .raw⟩]) ∧
    VariableLatency (.vgetB32 d a b n) .thread [vSrc b 1 .int32] [.v d] n (some 64) (fun s ag vs w =>
      ∀ bid tid blk, ag = .thread bid tid → s.block? bid = some blk →
        w = if blk.regs.blockdim.toNat ≤ (valAt vs 0).toNat then .value [⟨0, .raw⟩]
          else if (valAt vs 0).toNat = tid ∧ (s.ctx ag).isPending (.v a) = false then .value [s.readReg ag (.v a)]
          else .loan (valAt vs 0).toNat a) ∧
    (∀ bits ∈ ([4, 8] : List Nat), ∀ x y : Nat,
      ((val x).real = none ∨ (val y).real = none → qnt bits x y = 0) ∧
      ∀ p q : ℚ, (val x).real = some p → (val y).real = some q →
        let lo := min (min p q) 0
        let hi := max (max p q) 0
        let top : Nat := 2 ^ bits - 1
        (hi = lo → qnt bits x y = 0) ∧
        (hi ≠ lo → ∃ (sc z : Nat) (u v : ℚ) (k : Int), Fmt.f16.RoundsTo .ru false ((hi - lo) / top) u ∧ v = min u 65504 ∧
          (valueOf .f16 sc).real = some v ∧ sc < 2 ^ 15 ∧ IntRounds .rn (-lo / v) k ∧
          z = (max 0 (min k top)).toNat ∧ qnt bits x y = z * 2 ^ 16 + sc)) ∧
    (∀ x c, val x = .nan → frcpSet x = [nan] ∧ frsqSet x = [nan] ∧ fsqrt32 x = nan ∧ fex2 x c = nan ∧ flg2 x c = nan) ∧
    (∀ x c, (val x = .inf true ∨ ∃ m e, m ≠ 0 ∧ val x = .fin true m e) →
      frsqSet x = [nan] ∧ fsqrt32 x = nan ∧ flg2 x c = nan) ∧
    (∀ x c m e, val x = .fin false m e → (128 : ℚ) ≤ m * (2 : ℚ) ^ e → fex2 x c = 0x7F800000) ∧
    (∀ x m e (c : Word), val x = .fin true m e → (151 : ℚ) ≤ m * (2 : ℚ) ^ e → fex2 x c.toNat ∈ [0, 1, 2]) ∧
    (∀ c, frcpSet 0 = [0x7F800000] ∧ frcpSet 0x80000000 = [0xFF800000] ∧ frcpSet 0x7F800000 = [0] ∧
      frcpSet 0xFF800000 = [0x80000000] ∧ frsqSet 0 = [0x7F800000] ∧ frsqSet 0x80000000 = [0xFF800000] ∧
      frsqSet 0x7F800000 = [0] ∧ fsqrt32 0x80000000 = 0x80000000 ∧ fsqrt32 0 = 0 ∧ fsqrt32 0x7F800000 = 0x7F800000 ∧
      fex2 0xFF800000 c = 0 ∧ fex2 0x7F800000 c = 0x7F800000 ∧ flg2 0 c = 0xFF800000 ∧ flg2 0x80000000 c = 0xFF800000 ∧
      flg2 0x7F800000 c = 0x7F800000 ∧ flg2 0x3F800000 c = 0 ∧ flg2 0x40000000 c = 0x3F800000 ∧ fex2 0x40000000 c = 0x40800000 ∧
      fex2 0 c = 0x3F800000 ∧ fex2 0x80000000 c = 0x3F800000)

/-- R132 in real numbers, for every F32 operand a and every value c of the free choice: the F32 codes next to a member of the
set for FRCP and FRSQ bracket 1/a and 1/√a (the member is exact, or one of the two neighbours), and FRCP overflows exactly where
1/|a| exceeds the largest finite value; FSQRT lies within half the distance to each neighbour of √a; FEX2 below 128 is finite,
not below +0, within 2 ulp of 2^a and exact for an integer a from −149 on; FLG2 is within 2^−22 of log2 a for a in 0.5 to 2,
elsewhere within 2 ulp, and exact for every power of two. -/
def Obligations.FloatFunctionBounds : Prop :=
  ∀ (x c : Nat) (s : Bool) (m : Nat) (e : Int), c < 2 ^ 32 → m ≠ 0 → valueOf .f32 x = .fin s m e →
    let real := fun y : Nat => match valueOf .f32 y with
      | .fin t k q => (if t then -1 else 1) * (k : ℝ) * (2 : ℝ) ^ q
      | _ => 0
    let mag : ℝ := m * (2 : ℝ) ^ e
    let a : ℝ := (if s then -1 else 1) * mag
    let sign : Nat := if s then 2 ^ 31 else 0
    let top : ℝ := 2 ^ 128 - 2 ^ 104
    let faithful := fun (r : Nat) (y : ℝ) => r < 0x7F800000 ∧
      (real r = y ∨ (real r < y ∧ y < real (r + 1)) ∨ (0 < r ∧ y < real r ∧ real (r - 1) < y))
    (top < 1 / mag → frcpSet x = [sign + 0x7F800000]) ∧
    (1 / mag ≤ top → frcpSet x ≠ [] ∧ ∀ r ∈ frcpSet x, ∃ r0, r = sign + r0 ∧ faithful r0 (1 / mag)) ∧
    (s = false → (∀ r ∈ frsqSet x, faithful r (1 / √a)) ∧ frsqSet x ≠ [] ∧
      (let r := fsqrt32 x
       0 < r ∧ r < 0x7F7FFFFF ∧ 2 * √a ≤ real r + real (r + 1) ∧ real (r - 1) + real r ≤ 2 * √a)) ∧
    (a < 128 → ∃ k q, valueOf .f32 (fex2 x c) = .fin false k q ∧
      |real (fex2 x c) - (2 : ℝ) ^ a| ≤ 2 * (2 : ℝ) ^ (max (⌊a⌋ - 23) (-149)) ∧
      ∀ j : Int, a = j → -149 ≤ j → real (fex2 x c) = (2 : ℝ) ^ j) ∧
    (s = false → ∃ t k q, valueOf .f32 (flg2 x c) = .fin t k q ∧
      (1 / 2 ≤ a → a ≤ 2 → |real (flg2 x c) - Real.logb 2 a| ≤ (2 : ℝ) ^ (-22 : Int)) ∧
      (a < 1 / 2 ∨ 2 < a →
        |real (flg2 x c) - Real.logb 2 a| ≤ 2 * (2 : ℝ) ^ (⌊Real.logb 2 |Real.logb 2 a|⌋ - 23)) ∧
      ∀ j : Int, a = (2 : ℝ) ^ j → real (flg2 x c) = j)

/-- For every group of distinct ready threads whose source tags are accepted, the 20 CVT forms answer a next state in which vd
holds Round or ToInt of the source value that the tag names (element el of a packed register; the even-odd pair of a 64-bit
tag), under the rounding mode of the sub-op, class F; the packed forms take element 0 from va and element 1 from vb; nothing
else of the machine differs. ToInt of a NaN is 0, an infinity gives the end of the range, and a finite value is rounded to an
integer under the mode and then clamped (R67). -/
def Obligations.LaneConvert : Prop :=
  ∀ (d a b : BitVec 6) (el : BitVec 1) (n : BitVec 3),
    let narrow := Accept.oneOf [Tag.i32, .n32, .f32, .f16x2, .bf16x2]
    let wide := Accept.oneOf [Tag.i64, .n64]
    let source := fun (t : Tag) (x : Word) (e : Nat) => match t with
      | .i32 => FVal.ofInt x.toInt
      | .n32 => FVal.ofInt x.toNat
      | .f32 => valueOf .f32 x.toNat
      | .f16x2 => valueOf .f16 (x.extractLsb' (16 * e) 16).toNat
      | _ => valueOf .bf16 (x.extractLsb' (16 * e) 16).toNat
    let one := fun (i : Instr) (t : Tag) (f : FVal → Word) =>
      FixedLatency i .thread [vSrc a 0 narrow] [.v d] n 5 (fun vs => [wV d (f (source (tagAt vs 0) (valAt vs 0) el.toNat)) t]) ∧
      (a.toNat % 2 = 0 → FixedLatency i .thread [vSrc a 0 wide, vSrc (a + 1) 0 wide] [.v d] n 5 (fun vs =>
        [wV d (f (if tagAt vs 0 = .i64 then .ofInt (valAt vs 1 ++ valAt vs 0).toInt
          else .ofInt (valAt vs 1 ++ valAt vs 0).toNat)) t]))
    let two := fun (i : Instr) (t : Tag) (F : Fmt) (m : RMode) =>
      FixedLatency i .thread [vSrc a 0 narrow, vSrc b 1 narrow] [.v d] n 5 (fun vs =>
        [wV d (BitVec.ofNat 16 (roundF F m (source (tagAt vs 1) (valAt vs 1) 1)) ++
          BitVec.ofNat 16 (roundF F m (source (tagAt vs 0) (valAt vs 0) 0))) t])
    let f32 := fun (m : RMode) (x : FVal) => (BitVec.ofNat 32 (roundF .f32 m x) : Word)
    let i32 := fun (m : RMode) (x : FVal) => (BitVec.ofInt 32 (toInt m (-2 ^ 31) (2 ^ 31 - 1) x) : Word)
    let n32 := fun (m : RMode) (x : FVal) => (BitVec.ofInt 32 (toInt m 0 (2 ^ 32 - 1) x) : Word)
    (∀ (m : RMode) (lo hi : Int), lo ≤ 0 → 0 ≤ hi →
      toInt m lo hi .nan = 0 ∧ toInt m lo hi (.inf true) = lo ∧ toInt m lo hi (.inf false) = hi ∧
      ∀ (x : FVal) (v : ℚ), x.real = some v → ∃ k, IntRounds m v k ∧ toInt m lo hi x = max lo (min hi k)) ∧
    (one (.cvtF32Rn d a el n) .f32 (f32 .rn) ∧ one (.cvtF32Rz d a el n) .f32 (f32 .rz) ∧
      one (.cvtF32Rd d a el n) .f32 (f32 .rd) ∧ one (.cvtF32Ru d a el n) .f32 (f32 .ru)) ∧
    (one (.cvtI32Rn d a el n) .i32 (i32 .rn) ∧ one (.cvtI32Rz d a el n) .i32 (i32 .rz) ∧
      one (.cvtI32Rd d a el n) .i32 (i32 .rd) ∧ one (.cvtI32Ru d a el n) .i32 (i32 .ru)) ∧
    (one (.cvtN32Rn d a el n) .n32 (n32 .rn) ∧ one (.cvtN32Rz d a el n) .n32 (n32 .rz) ∧
      one (.cvtN32Rd d a el n) .n32 (n32 .rd) ∧ one (.cvtN32Ru d a el n) .n32 (n32 .ru)) ∧
    (two (.cvtF16Rn d a b n) .f16x2 .f16 .rn ∧ two (.cvtF16Rz d a b n) .f16x2 .f16 .rz ∧
      two (.cvtF16Rd d a b n) .f16x2 .f16 .rd ∧ two (.cvtF16Ru d a b n) .f16x2 .f16 .ru) ∧
    (two (.cvtBf16Rn d a b n) .bf16x2 .bf16 .rn ∧ two (.cvtBf16Rz d a b n) .bf16x2 .bf16 .rz ∧
      two (.cvtBf16Rd d a b n) .bf16x2 .bf16 .rd ∧ two (.cvtBf16Ru d a b n) .bf16x2 .bf16 .ru)

/-- For every group of distinct ready threads whose NREAD names a reading, NPACK writes the codes of its aligned window lowest
first and NUNPACK the F32 values of the codes to its window; DQ writes s times (c - z) of each code to its window; each with its
tag, class F; nothing else of the machine differs. The value of a finite narrow code and a finite scale times (c - z) are exact
in F32, the sign of a zero too; an infinite scale gives the infinity of the product's sign, or NaN where c = z (R71, R72, R137).
-/
def Obligations.LanePackDequantise : Prop :=
  ∀ (d a b : BitVec 6) (n : BitVec 3) (rd : Reading) (code : Nat), readingOf code = some rd →
    let regs := fun (x : BitVec 6) (k : Nat) => (List.range k).map fun j => x + BitVec.ofNat 6 j
    let reading := fun (i : Instr) (srcs : List Src) (dsts : List Reg) (ws : List VReg → List Write) =>
      ∀ s : State, s.AllReady .thread srcs dsts → (∀ ag ∈ s.issue.agents, nreadOf (s.ctx ag).tstate = code) →
        ∃ t, exec i s = .next t ∧ OnlyAgents s t ∧ t.issue.now = s.issue.cycle ∧
          ∀ ag ∈ s.issue.agents, Executed s t ag n 5 (ws (s.sources ag srcs)) ((s.ctx ag).pc + 4)
    let pack := fun (i : Instr) (F : Fmt) (k : Nat) (t : Tag) => a.toNat % k = 0 →
      reading i ((regs a k).map fun x => vSrc x 0 (.exactly .f32)) [.v d] (fun vs =>
        [wV d (BitVec.ofFnLE fun p : Fin 32 => decide (p.val < k * F.width) &&
          (encodeFloat F rd .rn (valueOf .f32 (valAt vs (p.val / F.width)).toNat)).testBit (p.val % F.width)) t])
    let unpack := fun (i : Instr) (F : Fmt) (k : Nat) (t : Tag) => d.toNat % k = 0 →
      reading i [vSrc a 0 (.exactly t)] ((regs d k).map Reg.v) (fun vs =>
        (List.range k).map fun j => wV (d + BitVec.ofNat 6 j)
          (BitVec.ofNat 32 (roundF .f32 .rn (F.value rd ((valAt vs 0).toNat / 2 ^ (F.width * j) % 2 ^ F.width)))) .f32)
    let dq := fun (i : Instr) (bits k : Nat) (t : Tag) => d.toNat % k = 0 →
      FixedLatency i .thread [vSrc a 0 (.exactly t), vSrc b 1 .int32] ((regs d k).map Reg.v) n 5 (fun vs =>
        let scale := valueOf .f16 ((valAt vs 1).extractLsb' 0 16).toNat
        let zp := ((valAt vs 1).extractLsb' 16 8).toNat
        (List.range k).map fun j => wV (d + BitVec.ofNat 6 j)
          (BitVec.ofNat 32 (roundF .f32 .rn (scale.mul
            (.ofInt (((valAt vs 0).toNat / 2 ^ (bits * j) % 2 ^ bits : Nat) - (zp : Int)))))) .f32)
    (∀ F ∈ [Fmt.f8e4, .f8e5, .f6e2, .f6e3, .f4e2], ∀ x s m e, F.value rd x = .fin s m e →
      ∃ j q, valueOf .f32 (roundF .f32 .rn (.fin s m e)) = .fin s j q ∧ (j : ℚ) * (2 : ℚ) ^ q = m * (2 : ℚ) ^ e) ∧
    (∀ (sc : Nat) (c z : Fin 256) (s : Bool),
      let diff : Int := (c.val : Int) - z.val
      let value := valueOf .f32 (roundF .f32 .rn ((valueOf .f16 sc).mul (.ofInt diff)))
      (∀ m e, valueOf .f16 sc = .fin s m e → ∃ j q, value = .fin (s != decide (diff < 0)) j q ∧
        (j : ℚ) * (2 : ℚ) ^ q = m * (2 : ℚ) ^ e * |(diff : ℚ)|) ∧
      (valueOf .f16 sc = .inf s → value = if diff = 0 then .nan else .inf (s != decide (diff < 0))) ∧
      (valueOf .f16 sc = .nan → value = .nan)) ∧
    (pack (.npackF8e4 d a n) .f8e4 4 .f8e4 ∧ pack (.npackF8e5 d a n) .f8e5 4 .f8e5 ∧ pack (.npackF6e2 d a n) .f6e2 4 .f6e2 ∧
      pack (.npackF6e3 d a n) .f6e3 4 .f6e3 ∧ pack (.npackF4e2 d a n) .f4e2 8 .f4e2) ∧
    (unpack (.nunpackF8e4 d a n) .f8e4 4 .f8e4 ∧ unpack (.nunpackF8e5 d a n) .f8e5 4 .f8e5 ∧
      unpack (.nunpackF6e2 d a n) .f6e2 4 .f6e2 ∧ unpack (.nunpackF6e3 d a n) .f6e3 4 .f6e3 ∧
      unpack (.nunpackF4e2 d a n) .f4e2 8 .f4e2) ∧
    dq (.dqQ4 d a b n) 4 8 .q4 ∧ dq (.dqQ8 d a b n) 8 4 .q8

/-- For every group of distinct ready threads, BRA, BRA.T, BRA.F, BRANY, BRALL, BRNONE, CALL and, with an aligned target and
even pairs, BRX, CALLX and RET answer a next state in which each thread stands at the PC of R149 or R151 after its stall
count; CALL and CALLX write the return address tagged n64, class M; no other register, no memory and nothing stored changes.
-/
def Obligations.LaneBranches : Prop :=
  ∀ (k n : BitVec 3) (o : BitVec 18) (d a : BitVec 6),
    let rel := fun pc : DWord => pc + BitVec.ofInt 64 (4 * o.toInt)
    let flag := fun vs : List VReg => (valAt vs 0).getLsbD 0
    let link := fun (r : BitVec 6) (pc : DWord) => [wV r ((pc + 4).extractLsb' 0 32) .n64, wV (r + 1) ((pc + 4).extractLsb' 32 32) .n64]
    BranchTo (.bra o n) .thread [] [] n (fun pc _ _ => rel pc) (fun _ => []) ∧
    BranchTo (.braT k o n) .thread [kSrc k] [] n (fun pc vs _ => if flag vs then rel pc else pc + 4) (fun _ => []) ∧
    BranchTo (.braF k o n) .thread [kSrc k] [] n (fun pc vs _ => if flag vs then pc + 4 else rel pc) (fun _ => []) ∧
    BranchTo (.brany k o n) .thread [kSrc k] [] n (fun pc _ all => if all.any flag then rel pc else pc + 4) (fun _ => []) ∧
    BranchTo (.brall k o n) .thread [kSrc k] [] n (fun pc _ all => if all.all flag then rel pc else pc + 4) (fun _ => []) ∧
    BranchTo (.brnone k o n) .thread [kSrc k] [] n (fun pc _ all => if all.any flag then pc + 4 else rel pc) (fun _ => []) ∧
    BranchTo (.call o n) .thread [] [.v 62, .v 63] n (fun pc _ _ => rel pc) (link 62) ∧
    (∀ s : State, a.toNat % 2 = 0 →
      (∀ ag ∈ s.issue.agents, ((s.readReg ag (.v a)).val.extractLsb' 0 2) = 0) →
      let target := fun ag => (s.readReg ag (.v (a + 1))).val ++ (s.readReg ag (.v a)).val
      let goes := fun (i : Instr) (ws : DWord → List Write) =>
        ∃ t, exec i s = .next t ∧ OnlyControl s t ∧ t.issue.now = s.issue.cycle ∧
          ∀ ag ∈ s.issue.agents, Executed s t ag n 4 (ws (s.ctx ag).pc) (target ag)
      (s.AllReady .thread [vSrc a 5 .int64, vSrc (a + 1) 5 .int64] [] → goes (.brx a n) (fun _ => []) ∧ goes (.ret a n) (fun _ => [])) ∧
      (d.toNat % 2 = 0 → s.AllReady .thread [vSrc a 5 .int64, vSrc (a + 1) 5 .int64] [.v d, .v (d + 1)] →
        goes (.callx d a n) (link d)))

/-- When BRA.T sends two threads of one braid to different PCs, every member of that braid is afterwards filed at its own next
PC and in no braid; after a taken BRANY every executing thread is filed at the target; after REFORM and after SLEEP with a count
of 0 the executing thread is filed at PC + 4 (R142, R149, R153), in a block that has not stopped (R329). -/
def Obligations.BranchTakenFiles : Prop :=
  ∀ (s t : State) (k n : BitVec 3) (o : BitVec 18) (a : BitVec 6),
    let live := fun bid => ∀ b, s.block? bid = some b → b.halted = false
    (∀ bid x y, live bid → s.AllReady .thread [kSrc k] [] → exec (.braT k o n) s = .next t →
      (∀ ag ∈ s.issue.agents, ∃ z, ag = .thread bid z ∧ s.coreOf ag = s.issue.core ∧
        z ∈ (s.core s.issue.core).braidOf bid z) →
      (∀ z, z ∈ (s.core s.issue.core).braidOf bid x → (s.thread? bid z).isSome) →
      .thread bid x ∈ s.issue.agents → .thread bid y ∈ s.issue.agents →
      (∀ ag ∈ s.issue.agents, ∀ z, ag = .thread bid z → (s.core s.issue.core).braidOf bid z = (s.core s.issue.core).braidOf bid x) →
      (t.ctx (.thread bid x)).pc ≠ (t.ctx (.thread bid y)).pc →
      ∀ z ∈ (s.core s.issue.core).braidOf bid x, t.Filed bid z (t.ctx (.thread bid z)).pc) ∧
    (s.AllReady .thread [kSrc k] [] → (∃ ag ∈ s.issue.agents, (s.readReg ag (.k k)).val.getLsbD 0 = true) →
      exec (.brany k o n) s = .next t → ∀ bid tid, live bid → .thread bid tid ∈ s.issue.agents →
        t.Filed bid tid ((s.ctx (.thread bid tid)).pc + BitVec.ofInt 64 (4 * o.toInt))) ∧
    (∀ bid tid, live bid → s.issue.agents = [.thread bid tid] → s.Ready .thread [] [] (.thread bid tid) →
      ∃ u, exec (.reform n) s = .next u ∧ OnlyControl s u ∧ u.Filed bid tid ((s.ctx (.thread bid tid)).pc + 4) ∧
        Executed s u (.thread bid tid) n 0 [] ((s.ctx (.thread bid tid)).pc + 4)) ∧
    (∀ bid tid, live bid → s.issue.agents = [.thread bid tid] → s.Ready .thread [vSrc a 0 .int32] [] (.thread bid tid) →
      (s.readReg (.thread bid tid) (.v a)).val.extractLsb' 0 20 = 0 →
      ∃ u, exec (.sleep a n) s = .next u ∧ OnlyControl s u ∧ u.Filed bid tid ((s.ctx (.thread bid tid)).pc + 4) ∧
        Executed s u (.thread bid tid) n 0 [] ((s.ctx (.thread bid tid)).pc + 4))

/-- For every group of distinct ready threads, ELECT writes 1 to kd of the member with the lowest thread number and 0 to every
other; VOTE.ANY and VOTE.ALL write the OR and the AND of the members flags; VOTE.BALLOT writes the mask of the flags by
position, tagged n32; class M; nothing else of the machine differs (R152). A ready thread alone in its step: EXIT of a thread
with no pending register and a block that goes on leaves it exited; EXIT of the last thread of a unit of one block, with no
bobbin, no valid region and no access left, completes the block and counts the unit in its grid; SLEEP with a count above 0 and
no save request leaves it sleeping until dispatch plus va[19:0], at PC + 4; SAFE with an index below sys.lmt.count and no
request goes on at the next word; with a request it reads the 16 bytes of its entry of the live-register mask table and stops
there with its index and that entry; with an index not below sys.lmt.count it is ILLEGAL with reason 7; SLEEP_EXPIRE at or after
the wake cycle files the thread and makes it runnable, and memory is unchanged (R153, R155, R156). -/
def Obligations.VotesAndThreadLife : Prop :=
  (
  ∀ (s : State) (kd ka n : BitVec 3) (d : BitVec 6),
    let flag := fun ag => (s.readReg ag (.k ka)).val.getLsbD 0
    let gives := fun (i : Instr) (w : Agent → Write) =>
      ∃ t, exec i s = .next t ∧ OnlyAgents s t ∧ t.issue.now = s.issue.cycle ∧
        ∀ ag ∈ s.issue.agents, Executed s t ag n 4 [w ag] ((s.ctx ag).pc + 4)
    (s.AllReady .thread [] [.k kd] → gives (.elect kd n) (fun ag =>
      wK kd (decide (∀ x ∈ s.issue.agents, threadIdOf ag ≤ threadIdOf x)))) ∧
    (s.AllReady .thread [kSrc ka] [.k kd] →
      gives (.voteAny kd ka n) (fun _ => wK kd (s.issue.agents.any flag)) ∧
      gives (.voteAll kd ka n) (fun _ => wK kd (s.issue.agents.all flag))) ∧
    (s.AllReady .thread [kSrc ka] [.v d] →
      gives (.voteBallot d ka n) (fun _ => wV d (BitVec.ofFnLE fun p : Fin 32 =>
        s.issue.agents.any fun ag => decide (s.positionOf ag = p.val) && flag ag) .n32))) ∧
  (
  ∀ (s : State) (bid tid : Nat) (n : BitVec 3) (a : BitVec 6) (idx : BitVec 18) (blk : Block),
    let ag := Agent.thread bid tid
    s.issue.agents = [ag] → s.block? bid = some blk →
    (s.Ready .thread [] [] ag → (s.ctx ag).pend = [] →
      (∃ j u, j ≠ tid ∧ blk.threads[j]? = some u ∧ u.status ≠ .exited) →
      ∃ t, exec (.exit n) s = .next t ∧ (t.thread? bid tid).map (·.status) = some .exited ∧ t.mem = s.mem ∧ t.accs = s.accs) ∧
    (s.Ready .thread [] [] ag → (s.ctx ag).pend = [] → (∀ j ≠ tid, ∀ u, blk.threads[j]? = some u → u.status = .exited) →
      blk.halted = false → blk.save = none → s.accs = [] → (∀ p ∈ (s.core blk.core).bobbins.toList, p.status = .free) →
      (∀ g ∈ blk.regions.toList, g.valid = false ∧ g.lines = [] ∧ g.lost = false) →
      (∀ b ∈ s.blocks, b.unit = blk.unit ∨ b.bid = bid → b = blk) →
      ∃ t, exec (.exit n) s = .next t ∧ t.block? bid = none ∧ (s.platform.streetLog = 0 → t.mem = s.mem) ∧
        ∀ g ∈ s.grids, ∃ h ∈ t.grids, h.id = g.id ∧ h.completed = g.completed + if g.id = blk.gridId then 1 else 0) ∧
    (s.Ready .thread [vSrc a 0 .int32] [] ag → blk.save = none →
      (s.readReg ag (.v a)).val.extractLsb' 0 20 ≠ 0 →
      ∃ t, exec (.sleep a n) s = .next t ∧ (t.ctx ag).pc = (s.ctx ag).pc + 4 ∧ t.issue.now = s.issue.cycle ∧
        (t.thread? bid tid).map (·.status) =
          some (.sleeping (t.issue.now + ((s.readReg ag (.v a)).val.extractLsb' 0 20).toNat)) ∧
        (∀ r, t.readReg ag r = s.readReg ag r) ∧ t.mem = s.mem ∧ t.accs = s.accs) ∧
    (s.Ready .thread [] [] ag → blk.save = none → idx.toNat < blk.regs.lmtCount.toNat →
      ∃ t, exec (.safe idx n) s = .next t ∧ OnlyAgents s t ∧ Executed s t ag n 0 [] ((s.ctx ag).pc + 4)) ∧
    (∀ u loc home e, s.Ready .thread [] [] ag → blk.save ≠ none → idx.toNat < blk.regs.lmtCount.toNat →
      (s.collect 0).admitted ag .read (blk.regs.lmtBase + BitVec.ofNat 64 (16 * idx.toNat)) 16 = (some (loc, home, e), u) →
      u.requestHeld blk.core loc 16 = false → u.locPoisoned loc 16 = false → u.blocks = s.blocks →
      let r := u.relaxedBytes ag loc 16
      ∃ t, exec (.safe idx n) s = .next t ∧ t.mem = r.2.mem ∧ (t.ctx ag).pc = (s.ctx ag).pc ∧
        (t.thread? bid tid).map (·.status) = some (.stopped (idx.zeroExtend 32) (some (leNat r.1)))) ∧
    (s.Ready .thread [] [] ag → s.TrapsOn bid tid → blk.regs.lmtCount.toNat ≤ idx.toNat →
      ∃ t, exec (.safe idx n) s = .next t ∧ EntersHandler s t bid tid .illegal 7 0) ∧
    (∀ u w, blk.halted = false → s.thread? bid tid = some u → u.status = .sleeping w → w ≤ (s.dom (blk.core / 512)).cycles →
      ∃ t, exec (.sleepExpire bid tid) s = .next t ∧ (t.thread? bid tid).map (·.status) = some .runnable ∧
        t.Filed bid tid u.ctx.pc ∧ (∀ x, SameAgent s t x) ∧ t.mem = s.mem ∧ t.accs = s.accs))

/-- For every group of distinct ready agents, threads or bobbins, every uniform instruction of R93 and R94 (register and
immediate forms) answers a next state in which sd (or the even pair of UADD.I64) holds the result, with the latency class of
R91, and nothing else of the machine differs but timing. -/
def Obligations.UniformArithmetic : Prop :=
  ∀ (d a b c : BitVec 4) (n : BitVec 3) (imm : BitVec 16) (sh : BitVec 5),
    let two := fun (i : Instr) (lat : Nat) (f : Word → Word → Word) =>
      FixedLatency i .both [sSrc a, sSrc b] [.s d] n lat (fun vs => [wS d (f (valAt vs 0) (valAt vs 1))])
    let one := fun (i : Instr) (lat : Nat) (f : Word → Word) =>
      FixedLatency i .both [sSrc a] [.s d] n lat (fun vs => [wS d (f (valAt vs 0))])
    let own := fun (i : Instr) (f : Word → Word) =>
      FixedLatency i .both [sSrc d] [.s d] n 2 (fun vs => [wS d (f (valAt vs 0))])
    let bit := fun p : Bool => (if p then 1 else 0 : Word)
    let pos := fun y : Word => (y.extractLsb' 0 5).toNat
    let len := fun y : Word => min (y.extractLsb' 8 6).toNat (32 - (y.extractLsb' 0 5).toNat)
    (two (.uaddI32 d a b n) 2 (fun x y => BitVec.ofNat 32 (x.toNat + y.toNat)) ∧
      two (.usubI32 d a b n) 2 (fun x y => BitVec.ofInt 32 (x.toInt - y.toInt)) ∧
      two (.umulI32 d a b n) 4 (fun x y => BitVec.ofInt 32 (x.toInt * y.toInt)) ∧
      two (.umulhiI32 d a b n) 4 (fun x y => BitVec.ofInt 32 (x.toInt * y.toInt / 2 ^ 32)) ∧
      two (.umulhiN32 d a b n) 4 (fun x y => BitVec.ofNat 32 (x.toNat * y.toNat / 2 ^ 32))) ∧
    (two (.uminI32 d a b n) 2 (fun x y => BitVec.ofInt 32 (min x.toInt y.toInt)) ∧
      two (.uminN32 d a b n) 2 (fun x y => BitVec.ofNat 32 (min x.toNat y.toNat)) ∧
      two (.umaxI32 d a b n) 2 (fun x y => BitVec.ofInt 32 (max x.toInt y.toInt)) ∧
      two (.umaxN32 d a b n) 2 (fun x y => BitVec.ofNat 32 (max x.toNat y.toNat))) ∧
    (two (.uandB32 d a b n) 2 (fun x y => x &&& y) ∧ two (.uorB32 d a b n) 2 (fun x y => x ||| y) ∧
      two (.uxorB32 d a b n) 2 (fun x y => x ^^^ y)) ∧
    (two (.ushlB32 d a b n) 2 (fun x y => if 32 ≤ y.toNat then 0 else BitVec.ofNat 32 (x.toNat * 2 ^ y.toNat)) ∧
      two (.ushrN32 d a b n) 2 (fun x y => if 32 ≤ y.toNat then 0 else BitVec.ofNat 32 (x.toNat / 2 ^ y.toNat)) ∧
      two (.ushrI32 d a b n) 2 (fun x y => BitVec.ofInt 32 (x.toInt / 2 ^ min y.toNat 31))) ∧
    (two (.ubfeN32 d a b n) 4 (fun x y => ((x >>> pos y).setWidth (len y)).zeroExtend 32) ∧
      two (.ubfeI32 d a b n) 4 (fun x y => ((x >>> pos y).setWidth (len y)).signExtend 32) ∧
      FixedLatency (.ubfiB32 d a b n) .both [sSrc a, sSrc b, sSrc d] [.s d] n 4 (fun vs =>
        let y := valAt vs 1
        [wS d (BitVec.ofFnLE fun i : Fin 32 =>
          if pos y ≤ i.val ∧ i.val < pos y + len y then (valAt vs 0).getLsbD (i.val - pos y) else (valAt vs 2).getLsbD i.val)])) ∧
    (one (.upopcB32 d a n) 4 (fun x => BitVec.ofNat 32 (((List.range 32).map fun i => (x.getLsbD i).toNat).sum)) ∧
      one (.uclzB32 d a n) 4 (fun x => BitVec.ofNat 32 (((List.range 32).takeWhile fun i => !x.getLsbD (31 - i)).length)) ∧
      one (.umovB32 d a n) 2 (fun x => x)) ∧
    (two (.ucmpEqB32 d a b n) 2 (fun x y => bit (decide (x = y))) ∧ two (.ucmpNeB32 d a b n) 2 (fun x y => bit (decide (x ≠ y))) ∧
      two (.ucmpLtI32 d a b n) 2 (fun x y => bit (decide (x.toInt < y.toInt))) ∧
      two (.ucmpLeI32 d a b n) 2 (fun x y => bit (decide (x.toInt ≤ y.toInt))) ∧
      two (.ucmpLtN32 d a b n) 2 (fun x y => bit (decide (x.toNat < y.toNat))) ∧
      two (.ucmpLeN32 d a b n) 2 (fun x y => bit (decide (x.toNat ≤ y.toNat))) ∧
      FixedLatency (.uselB32 d a b c n) .both [sSrc a, sSrc b, sSrc c] [.s d] n 2 (fun vs =>
        [wS d (if valAt vs 2 = 0 then valAt vs 1 else valAt vs 0)])) ∧
    (d.toNat % 2 = 0 → a.toNat % 2 = 0 → b.toNat % 2 = 0 →
      FixedLatency (.uaddI64 d a b n) .both [sSrc a, sSrc (a + 1), sSrc b, sSrc (b + 1)] [.s d, .s (d + 1)] n 4 (fun vs =>
        let r := (valAt vs 1 ++ valAt vs 0) + (valAt vs 3 ++ valAt vs 2)
        [wS d (r.extractLsb' 0 32), wS (d + 1) (r.extractLsb' 32 32)])) ∧
    (own (.uaddiI32 d imm n) (fun x => BitVec.ofInt 32 (x.toInt + imm.toInt)) ∧
      own (.uandiB32 d imm n) (fun x => x &&& BitVec.ofNat 32 imm.toNat) ∧
      own (.uoriB32 d imm n) (fun x => x ||| BitVec.ofNat 32 imm.toNat) ∧
      own (.ushliB32 d sh n) (fun x => BitVec.ofNat 32 (x.toNat * 2 ^ sh.toNat)) ∧
      own (.ushriN32 d sh n) (fun x => BitVec.ofNat 32 (x.toNat / 2 ^ sh.toNat)) ∧
      own (.umovhi d imm n) (fun x => imm ++ x.extractLsb' 0 16) ∧
      FixedLatency (.umovi d imm n) .both [] [.s d] n 2 (fun _ => [wS d (BitVec.ofNat 32 imm.toNat)]))

/-- For every group of distinct ready agents, USR with an index 0 to 8 answers a next state in which sd holds the register of
R95: for a thread its index, its block id, dimensions, quarter rank and size, core name and argument address; for a bobbin the
value its leader held at FORK; nothing else differs. An index above 8 raises ILLEGAL with reason 7: a thread alone in its step
that takes traps enters its handler. -/
def Obligations.UniformSpecialRegisters : Prop :=
  ∀ (s : State) (d : BitVec 4) (idx : BitVec 16) (n : BitVec 3), s.AllReady .both [] [.s d] →
    (∀ ag ∈ s.issue.agents, (s.blockOf ag).isSome) →
    (idx.toNat ≤ 8 →
      ∃ t, exec (.usr d idx n) s = .next t ∧ OnlyAgents s t ∧ ∀ ag ∈ s.issue.agents,
        ∃ x : Word, Executed s t ag n 2 [wS d x] ((s.ctx ag).pc + 4) ∧
          (∀ core b, ag = .bobbin core b → (s.bobbin core b).usr.toList[idx.toNat]? = some x) ∧
          (∀ bid tid blk, ag = .thread bid tid → s.block? bid = some blk →
            (idx = 0 → x = BitVec.ofNat 32 tid) ∧ (idx = 1 → x = blk.regs.blockid) ∧ (idx = 2 → x = blk.regs.blockdim) ∧
            (idx = 3 → x = blk.regs.gridblocks) ∧ (idx = 4 → x = blk.regs.qrank) ∧ (idx = 5 → x = blk.regs.qsize) ∧
            (idx = 6 → x = BitVec.ofNat 32 blk.core) ∧ (idx = 7 → x = blk.regs.argbase.extractLsb' 0 32) ∧
            (idx = 8 → x = blk.regs.argbase.extractLsb' 32 32))) ∧
    (8 < idx.toNat → ∀ bid tid, s.issue.agents = [.thread bid tid] → s.TrapsOn bid tid →
      ∃ t, exec (.usr d idx n) s = .next t ∧ EntersHandler s t bid tid .illegal 7 0)

/-- For every group of distinct ready agents, UBRA, UBRZ, UBRNZ, ULOOP, UCALL and URET (to an aligned address that does not end
a bobbin) answer a next state in which each agent stands at the PC of R98 after its stall count; ULOOP writes the counter less
one (wrapping), class A, and UCALL the low half of the return address, class M; nothing stored changes. A bobbin whose URET
names its FORK word becomes finishing with cause 0. -/
def Obligations.UniformBranches : Prop :=
  ∀ (d : BitVec 4) (n : BitVec 3) (imm : BitVec 16),
    let rel := fun pc : DWord => pc + BitVec.ofInt 64 (4 * imm.toInt)
    BranchTo (.ubra imm n) .both [] [] n (fun pc _ _ => rel pc) (fun _ => []) ∧
    BranchTo (.ubrz d imm n) .both [sSrc d] [] n (fun pc vs _ => if valAt vs 0 = 0 then rel pc else pc + 4) (fun _ => []) ∧
    BranchTo (.ubrnz d imm n) .both [sSrc d] [] n (fun pc vs _ => if valAt vs 0 = 0 then pc + 4 else rel pc) (fun _ => []) ∧
    BranchTo (.ucall d imm n) .both [] [.s d] n (fun pc _ _ => rel pc) (fun pc => [wS d ((pc + 4).extractLsb' 0 32)]) ∧
    (∀ s : State, s.AllReady .both [sSrc d] [.s d] →
      let x := fun ag => BitVec.ofInt 32 ((s.readReg ag (.s d)).val.toInt - 1)
      ∃ t, exec (.uloop d imm n) s = .next t ∧ OnlyControl s t ∧ ∀ ag ∈ s.issue.agents,
        Executed s t ag n 2 [wS d (x ag)] (if x ag = 0 then (s.ctx ag).pc + 4 else rel (s.ctx ag).pc)) ∧
    (∀ s : State, s.AllReady .both [sSrc d] [] →
      (∀ ag ∈ s.issue.agents, (s.readReg ag (.s d)).val.extractLsb' 0 2 = 0 ∧
        ∀ core b, ag = .bobbin core b → (s.bobbin core b).endAddr ≠ (s.readReg ag (.s d)).val) →
      ∃ t, exec (.uret d n) s = .next t ∧ OnlyControl s t ∧ ∀ ag ∈ s.issue.agents,
        Executed s t ag n 2 [] ((s.ctx ag).pc.extractLsb' 32 32 ++ (s.readReg ag (.s d)).val)) ∧
    (∀ (s : State) core b, s.issue.agents = [.bobbin core b] → s.Ready .both [sSrc d] [] (.bobbin core b) →
      (s.bobbin core b).endAddr = (s.readReg (.bobbin core b) (.s d)).val → (s.bobbin core b).endAddr.extractLsb' 0 2 = 0 →
      ∃ t, exec (.uret d n) s = .next t ∧ (t.bobbin core b).status = .finishing ∧ (t.bobbin core b).cause = 0 ∧
        t.mem = s.mem ∧ t.accs = s.accs)

/-- For every thread alone in its step that takes traps, TRAP, SYSCALL and BKPT answer a next state in which the thread stands
at its handler with cause TRAP, SYSCALL or BREAK and the zero-extended immediate in trap.info (R328, R331); a bobbin that
executes BKPT becomes finishing with cause BREAK, its PC and its word (R189). When a thread of a running block, alone in its
step, executes TRAP with INH = 1 or with its trap vector disabled, the trap registers are written, every block of its grid
stops, the grid keeps no further unit and has a fault cause, and the fault service queue of the domain is due one more report,
PARK = 0, with DOUBLE_TRAP and the inner code in INFO when INH was 1, else with the code of the trap and, as the model deduces
(log 25: R329 gives INFO for DOUBLE_TRAP only), 0 in INFO; memory is unchanged but for the street entries of the grid's saved
units (R328, R329, R375). -/
def Obligations.TrapsAndContextFaults : Prop :=
  (
  ∀ (s : State) (n : BitVec 3) (i : BitVec 16) (c : BitVec 5),
    (∀ bid tid, s.issue.agents = [.thread bid tid] → s.TrapsOn bid tid →
      (∃ t, exec (.trap i n) s = .next t ∧ EntersHandler s t bid tid .trap (BitVec.ofNat 32 i.toNat) 0) ∧
      (∃ t, exec (.syscall i n) s = .next t ∧ EntersHandler s t bid tid .syscall (BitVec.ofNat 32 i.toNat) 0) ∧
      (∃ t, exec (.bkpt c n) s = .next t ∧ EntersHandler s t bid tid .break_ (BitVec.ofNat 32 c.toNat) 0)) ∧
    (∀ core b, b < 4 → s.issue.agents = [.bobbin core b] →
      ∃ t, exec (.bkpt c n) s = .next t ∧ BobbinStops s t core b .break_)) ∧
  (
  ∀ (s : State) (n : BitVec 3) (i : BitVec 16) bid tid x b, s.issue.agents = [.thread bid tid] →
    s.thread? bid tid = some x → s.block? bid = some b → b.halted = false →
    (inhOf x.ctx.tstate = true ∨ b.regs.tvec.getLsbD 0 = false) →
    ∃ t y e, exec (.trap i n) s = .next t ∧ t.thread? bid tid = some y ∧
      y.trap = { cause := 6, word := s.issue.word, pc := x.ctx.pc, info := BitVec.ofNat 32 i.toNat, addr := 0,
                 tstate := x.ctx.tstate } ∧
      (t.dom (b.core / 512)).fsqWait = (s.dom (b.core / 512)).fsqWait ++ [e] ∧ e.park = false ∧ e.agent = .thread bid tid ∧
      e.cause = (if inhOf x.ctx.tstate then 0x3F else 6) ∧ e.info = (if inhOf x.ctx.tstate then 6 else 0) ∧
      (∀ z ∈ t.blocks, z.gridId = b.gridId → z.halted = true) ∧
      (∀ g ∈ t.grids, g.id = b.gridId → g.lists = [] ∧ g.cause ≠ 0) ∧
      (s.platform.streetLog = 0 ∨ (∀ u ∈ s.saved, u.gridId ≠ b.gridId) → t.mem = s.mem))

/-- For a privileged thread alone in its step, in its handler (INH = 1) and with no save request, ERET answers a next state in
which sys.tstate is that of trap.tstate with INH 0, the PC is the word address of trap.pc (R32) plus 4 for each skipped word,
the thread issues there after the stall count and not before every fixed-latency result is complete, the next word matches no
hardware breakpoint, and registers, memory and other agents are as they were; with a save request the thread is then stopped for
the save at the restored PC, its SAFE index 0xFFFF_FFFE. Outside a handler it raises ILLEGAL with reason 7, without privilege
PRIVILEGE (R327, R331). -/
def Obligations.ReturnFromTrap : Prop :=
  ∀ (s : State) (n : BitVec 3) (skip : BitVec 1) bid tid x blk, s.issue.agents = [.thread bid tid] →
    s.thread? bid tid = some x → s.block? bid = some blk →
    (privOf x.ctx.tstate = true → inhOf x.ctx.tstate = true →
      ∃ t y, exec (.eret skip n) s = .next t ∧ t.thread? bid tid = some y ∧
        y.ctx.pc = (x.trap.pc &&& ~~~3) + BitVec.ofNat 64 (4 * skip.toNat) ∧ inhOf y.ctx.tstate = false ∧
        privOf y.ctx.tstate = privOf x.trap.tstate ∧ nreadOf y.ctx.tstate = nreadOf x.trap.tstate ∧
        stallchkOf y.ctx.tstate = stallchkOf x.trap.tstate ∧ y.bpSkip = true ∧ y.ctx.inflight = x.ctx.inflight ∧
        (∀ f ∈ x.ctx.inflight, f.done ≤ y.ctx.ready) ∧ s.issue.cycle + 1 + n.toNat ≤ y.ctx.ready ∧
        y.ctx.pend = x.ctx.pend ∧ y.trap = x.trap ∧ (∀ r, t.readReg (.thread bid tid) r = s.readReg (.thread bid tid) r) ∧
        (∀ ag, ag ≠ .thread bid tid → SameAgent s t ag) ∧ t.mem = s.mem ∧ t.accs = s.accs ∧
        y.status = (if blk.save = none then x.status else .stopped 0xFFFFFFFE none)) ∧
    (s.TrapsOn bid tid →
      (privOf x.ctx.tstate = true → ∃ t, exec (.eret skip n) s = .next t ∧ EntersHandler s t bid tid .illegal 7 0) ∧
      (privOf x.ctx.tstate = false → ∃ t, exec (.eret skip n) s = .next t ∧ EntersHandler s t bid tid .privilege 0 0))

/-- For every group of distinct ready agents of resident blocks, SYSRD with an index 0 to 53 and CTRRD with an index 0 to 5
answer a next state in which sd is pending with the value of the register the table of R333 or R336 names; nothing else of the
machine differs. A bobbin has no trap registers: what it reads at indices 28 to 35 is a free value (log entry 28). For a ready
thread alone in its step, privileged where R333 marks the register P, SYSWR answers a next state in which the thread goes on at
the next word with its registers as they were, and the register holds sd under its field map: sys.tstate keeps INH and PRIV; a
.hi word is held until its .lo word is written; a read-only register ignores the write; other agents and memory are unchanged.
Without privilege a marked register raises PRIVILEGE, an index of 54 or more ILLEGAL with reason 7. -/
def Obligations.SystemRegisters : Prop :=
  (
  ∀ (d : BitVec 4) (i : BitVec 16) (j : BitVec 4) (n : BitVec 3),
    (i.toNat ≤ 53 → VariableLatency (.sysrd d i n) .both [] [.s d] n (some 64) fun s ag _ w => ∃ x : Word, w = .value [⟨x, .raw⟩] ∧
      (i.toNat < 9 → x = s.usr ag i.toNat) ∧ (i = 9 → x = (s.ctx ag).tstate) ∧
      (∀ b, s.blockOf ag = some b → ∀ p ∈
        [(10, b.regs.scratchBase), (11, b.regs.scratchSize), (12, b.regs.lmtBase.extractLsb' 0 32),
         (13, b.regs.lmtBase.extractLsb' 32 32), (14, b.regs.lmtCount), (15, b.regs.ttBase.extractLsb' 0 32),
         (16, b.regs.ttBase.extractLsb' 32 32), (17, b.regs.ttCount), (18, b.regs.mbox), (19, b.regs.cbind[0]),
         (20, b.regs.cbind[1]), (21, b.regs.cbind[2]), (22, b.regs.cbind[3]), (23, b.regs.ptroot.extractLsb' 0 32),
         (24, b.regs.ptroot.extractLsb' 32 32), (25, b.regs.asid), (26, b.regs.tvec.extractLsb' 0 32),
         (27, b.regs.tvec.extractLsb' 32 32), (36, b.regs.ctxid),
         (37, BitVec.ofNat 32 (b.regs.grid % 8 * 16 + b.eff % 8)), (46, b.regs.bp0.extractLsb' 0 32),
         (47, b.regs.bp0.extractLsb' 32 32), (48, b.regs.bp1.extractLsb' 0 32), (49, b.regs.bp1.extractLsb' 32 32)],
        i.toNat = p.1 → x = p.2) ∧
      (∀ bid tid u, ag = .thread bid tid → s.thread? bid tid = some u → ∀ p ∈
        [(28, u.trap.cause), (29, u.trap.word), (30, u.trap.pc.extractLsb' 0 32), (31, u.trap.pc.extractLsb' 32 32),
         (32, u.trap.info), (33, u.trap.addr.extractLsb' 0 32), (34, u.trap.addr.extractLsb' 32 32), (35, u.trap.tstate)],
        i.toNat = p.1 → x = p.2) ∧
      (38 ≤ i.toNat → i.toNat < 46 → x = s.fidRegister (s.coreOf ag) (i.toNat - 38)) ∧
      (∀ k : Fin 4, i.toNat = 50 + k.val → x = ((s.core (s.coreOf ag)).counters[k]).cfg)) ∧
    (j.toNat ≤ 5 → VariableLatency (.ctrrd d j n) .both [] [.s d] n (some 64) fun s ag _ w => ∃ x : Word, w = .value [⟨x, .raw⟩] ∧
      (∀ k : Fin 4, j.toNat = k.val → x = ((s.core (s.coreOf ag)).counters[k]).count) ∧
      (j = 4 → x = BitVec.ofNat 32 ((s.dom (s.coreOf ag / 512)).cycles)) ∧
      (j = 5 → x = BitVec.ofNat 32 ((s.dom (s.coreOf ag / 512)).cycles / 2 ^ 32)))) ∧
  (
  ∀ (s : State) (d : BitVec 4) (i : BitVec 16) (n : BitVec 3) bid tid x blk,
    let ag := Agent.thread bid tid
    let v := (s.readReg ag (.s d)).val
    let marked := (23 ≤ i.toNat ∧ i.toNat ≤ 35) ∨ (38 ≤ i.toNat ∧ i.toNat ≤ 53)
    let writes := fun P : State → Thread → Block → Prop => ∃ t y b, exec (.syswr d i n) s = .next t ∧
      t.thread? bid tid = some y ∧ t.block? bid = some b ∧ (t.ctx ag).pc = (s.ctx ag).pc + 4 ∧
      (∀ r, t.readReg ag r = s.readReg ag r) ∧ (∀ o, o ≠ ag → SameAgent s t o) ∧ t.mem = s.mem ∧ t.accs = s.accs ∧ P t y b
    let pairs := fun (hi : Option Word) (old : DWord) => (hi.getD (old.extractLsb' 32 32)) ++ v
    s.issue.agents = [ag] → s.thread? bid tid = some x → s.block? bid = some blk →
    (s.Ready .thread [sSrc d] [] ag → i.toNat ≤ 53 → (marked → privOf x.ctx.tstate = true) →
      writes (fun t y b =>
        (i.toNat ≠ 9 → y.ctx.tstate = x.ctx.tstate) ∧
        (i = 9 → inhOf y.ctx.tstate = inhOf x.ctx.tstate ∧ privOf y.ctx.tstate = privOf x.ctx.tstate ∧
          nreadOf y.ctx.tstate = nreadOf v ∧ stallchkOf y.ctx.tstate = stallchkOf v) ∧
        (i = 23 → b.regs.ptroot = pairs blk.regs.ptrootHi blk.regs.ptroot &&& 0x3FFFFFFFFFFFF000) ∧
        (i = 24 → b.regs.ptroot = blk.regs.ptroot ∧ b.regs.ptrootHi = some v) ∧
        (i = 25 → b.regs.asid = v &&& 0xFFFF) ∧
        (i = 26 → b.regs.tvec = pairs blk.regs.tvecHi blk.regs.tvec &&& 0xFFFFFFFFFFFFFFFD) ∧
        (i = 27 → b.regs.tvec = blk.regs.tvec ∧ b.regs.tvecHi = some v) ∧
        (i = 28 → y.trap = { x.trap with cause := v &&& 0xFF }) ∧ (i = 29 → y.trap = { x.trap with word := v }) ∧
        (i = 30 → y.trap = { x.trap with pc := pairs x.pcHi x.trap.pc }) ∧ (i = 31 → y.trap = x.trap ∧ y.pcHi = some v) ∧
        (i = 32 → y.trap = { x.trap with info := v }) ∧ (i = 33 → y.trap = { x.trap with addr := pairs x.addrHi x.trap.addr }) ∧
        (i = 34 → y.trap = x.trap ∧ y.addrHi = some v) ∧ (i = 35 → y.trap = { x.trap with tstate := v &&& 0xF8 }) ∧
        (i = 46 → b.regs.bp0 = pairs blk.regs.bp0Hi blk.regs.bp0 &&& 0xFFFFFFFFFFFFFFFD) ∧
        (i = 47 → b.regs.bp0 = blk.regs.bp0 ∧ b.regs.bp0Hi = some v) ∧ (i = 49 → b.regs.bp1 = blk.regs.bp1 ∧ b.regs.bp1Hi = some v) ∧
        (i = 44 → OnlyAgents s t) ∧
        (i = 48 → b.regs.bp1 = pairs blk.regs.bp1Hi blk.regs.bp1 &&& 0xFFFFFFFFFFFFFFFD) ∧
        (∀ k : Fin 4, i.toNat = 50 + k.val → (t.core blk.core).counters[k] = { cfg := v &&& 0x00FFFF0F, count := 0 }) ∧
        (38 ≤ i.toNat → i.toNat ≤ 45 → i ≠ 44 → t.fidRegister blk.core (i.toNat - 38) = v) ∧
        (i.toNat < 9 ∨ (10 ≤ i.toNat ∧ i.toNat ≤ 22) ∨ i = 36 ∨ i = 37 → OnlyAgents s t))) ∧
    (s.TrapsOn bid tid →
      (53 < i.toNat → ∃ t, exec (.syswr d i n) s = .next t ∧ EntersHandler s t bid tid .illegal 7 0) ∧
      (marked → privOf x.ctx.tstate = false →
        ∃ t, exec (.syswr d i n) s = .next t ∧ EntersHandler s t bid tid .privilege 0 0)))

/-- For an agent alone in its step: a thread that takes traps and executes a well-formed word of a bobbin-only major raises ILLEGAL
with reason 6, whatever its fields; a bobbin that executes VADD, FORK or RDZV stops with cause ILLEGAL; every privileged word of a
thread, well formed and executed without privilege, raises PRIVILEGE, and a bobbin's CPY.MIGR stops with it; a pending source or
destination makes the agent wait, with nothing of any agent changed; with STALLCHK a source whose last write is incomplete at
dispatch raises STALL_SHORT, and a source whose tag the operand does not accept FORMAT_TAG, each with the first such operand in
trap.info as R45 and R78 code it. The last three are shown on VADD.I32, for every word shares them (R45, R48, R53, R54, R58, R78). -/
def Obligations.OrderOfChecks : Prop :=
  ∀ (s : State) (d a b : BitVec 6) (e f g : BitVec 4) (sc n : BitVec 3) (x1 : BitVec 1) (i16 : BitVec 16),
    (∀ bid tid x, s.issue.agents = [.thread bid tid] → s.TrapsOn bid tid → s.thread? bid tid = some x →
      let stops := fun (i : Instr) (c : Cause) (info : Word) => ∃ t, exec i s = .next t ∧ EntersHandler s t bid tid c info 0
      let inc := fun r : Reg => ∃ y, (x.ctx.inflight.filter fun z => z.reg == r).getLast? = some y ∧ s.issue.cycle < y.done
      let wrong := fun t : Tag => t ≠ .raw ∧ t ≠ .i32 ∧ t ≠ .n32
      let tagOf := fun r : BitVec 6 => (s.readReg (.thread bid tid) (.v r)).tag
      (∀ i w, encode i = some w → i.wf = true → (w.extractLsb' 24 8).toNat ∈ bobbinMajors → stops i .illegal 6) ∧
      (privOf x.ctx.tstate = false →
        ∀ i ∈ [Instr.fidinj e f n, .dcfg e f g n, .ctxsave e f g n, .ctxload e f g n, .xinvAll sc n, .xinvAsid e sc n,
               .xinvPage f e sc n, .xinvRange f g sc n, .eret x1 n], i.wf = true → stops i .privilege 0) ∧
      ((s.ctx (.thread bid tid)).isPending (.v a) = false → (s.ctx (.thread bid tid)).isPending (.v b) = false →
        (s.ctx (.thread bid tid)).isPending (.v d) = false → stallchkOf x.ctx.tstate = true →
        (inc (.v a) → stops (.vaddI32 d a b n) .stallShort (BitVec.ofNat 32 a.toNat)) ∧
        (¬inc (.v a) → inc (.v b) → stops (.vaddI32 d a b n) .stallShort (BitVec.ofNat 32 b.toNat))) ∧
      (s.settled (.thread bid tid) (.v a) → s.settled (.thread bid tid) (.v b) →
        (s.ctx (.thread bid tid)).isPending (.v d) = false →
        (wrong (tagOf a) → stops (.vaddI32 d a b n) .formatTag (BitVec.ofNat 32 (tagCode (tagOf a) * 2 ^ 12 + a.toNat))) ∧
        (¬wrong (tagOf a) → wrong (tagOf b) →
          stops (.vaddI32 d a b n) .formatTag (BitVec.ofNat 32 (tagCode (tagOf b) * 2 ^ 12 + 1 * 2 ^ 8 + b.toNat))))) ∧
    (∀ core k, k < 4 → s.issue.agents = [.bobbin core k] →
      (∀ i ∈ [Instr.vaddI32 d a b n, .fork e i16 n, .rdzv e f n], ∃ t, exec i s = .next t ∧ BobbinStops s t core k .illegal) ∧
      ((Instr.cpyMigr e f g x1 sc n).wf = true → s.privOf (.bobbin core k) = false →
        ∃ t, exec (.cpyMigr e f g x1 sc n) s = .next t ∧ BobbinStops s t core k .privilege)) ∧
    (∀ bid tid, s.issue.agents = [.thread bid tid] →
      (∃ r ∈ [Reg.v a, .v b, .v d], (s.ctx (.thread bid tid)).isPending r = true) →
      ∃ t, exec (.vaddI32 d a b n) s = .next t ∧ (∀ ag, SameAgent s t ag) ∧ SameBody s t)

/-- For every group of distinct resident agents, NOP, every undefined hint and MARK go on at the next word after the stall count
with no register changed, without any check of operands; MARK advances the event counters that count event 7, or event 8 with
its value; YIELD may also file the members of the braids, those of its PC that have not executed it at the next word (R153); a
prefetch of an agent alone changes cached lines and translations but no register, and no byte of memory where no access is
outstanding (R55, R182, R336). For a thread alone in its step that takes traps, a word that decodes to no instruction raises
ILLEGAL with its reason; a fetch from a non-canonical or misaligned address raises NONCANONICAL or MISALIGNED with that address
and trap.word 0; a fetch whose translation faults parks the thread with an entry due in the fault service queue of its domain,
PARK = 1, ACCESS 2; a bobbin stops at an undefined word with cause ILLEGAL (R51, R99, R312). Here the reason is the event's own
argument; a step takes it from decodeWord, and the last clause gives that for every word: exactly the reserved majors of R61 have
reason 1, the sub-ops that R57 and R59 do not list reason 2, the majors 0x75 to 0x7F are undefined hints; a word of no instruction's
fields has reason 3, and an instruction's word its own: 3 for an unused field, 4 for a register group, 5 for a scope (R51, R52, R61).
How often a uniform word counts, s.uniformCount, is the model's reading (logs 17, 54). -/
def Obligations.HintsIllegalWordsAndFetch : Prop :=
  (
  ∀ (s : State) (n : BitVec 3) (x21 : BitVec 21) (x1 : BitVec 1) (x4 a y : BitVec 4) (i : BitVec 16) (o : BitVec 9),
    s.issue.agents.Nodup → (∀ ag ∈ s.issue.agents, s.present ag) →
    let done := fun t : State => ∀ ag ∈ s.issue.agents, Executed s t ag n 0 [] ((s.ctx ag).pc + 4)
    (∀ w ∈ [Instr.nop x21 n, .undefinedHint n], ∃ t, exec w s = .next t ∧ OnlyAgents s t ∧ done t) ∧
    ((∀ a ∈ s.issue.agents, ∀ b ∈ s.issue.agents, (s.ctx a).pc = (s.ctx b).pc) →
      ∃ t, exec (.yield x21 n) s = .next t ∧ SameStore s t ∧ done t ∧ ∀ ag, ag ∉ s.issue.agents →
        (∀ r, t.readReg ag r = s.readReg ag r) ∧
          (t.ctx ag = s.ctx ag ∨ t.ctx ag = { s.ctx ag with pc := (s.ctx ag).pc + 4 })) ∧
    (∃ t, exec (.mark x1 x4 i n) s = .next t ∧ done t ∧ t.mem = s.mem ∧ t.accs = s.accs ∧ t.blocks.map Block.body = s.blocks.map Block.body ∧
      (∀ ag, ag ∉ s.issue.agents → SameAgent s t ag) ∧
      ∀ k : Fin 4, ∀ c, (s.core s.issue.core).counters[k] = c →
        (t.core s.issue.core).counters[k] = { c with count := (c.count + BitVec.ofNat 32
          (if c.cfg.extractLsb' 0 4 = 7 ∨ (c.cfg.extractLsb' 0 4 = 8 ∧ c.cfg.extractLsb' 8 16 = i) then s.uniformCount else 0)) }) ∧
    (∀ ag, s.issue.agents = [ag] → s.platform.poison = [] →
      ∀ w ∈ [Instr.pfL1 x4 a y o n, .pfL2 x4 a y o n], ∃ t, exec w s = .next t ∧ done t ∧ (∀ z, z ≠ ag → SameAgent s t z) ∧
        (s.accs = [] → t.mem = s.mem))) ∧
  (
  ∀ (s : State) (reason : Nat) (lane : Bool),
    let z : State := { s with issue := { s.issue with word := 0 } }
    (∀ bid tid, s.issue.agents = [.thread bid tid] → s.TrapsOn bid tid →
      let ag := Agent.thread bid tid
      let pc := (s.ctx ag).pc
      (∃ t, exec (.illegalWord reason lane) s = .next t ∧ EntersHandler s t bid tid .illegal (BitVec.ofNat 32 reason) 0) ∧
      (canonical pc.toNat = false → ∃ t, exec .fetchFault s = .next t ∧ EntersHandler z t bid tid .noncanonical 0 pc) ∧
      (canonical pc.toNat = true → pc.toNat % 4 ≠ 0 →
        ∃ t, exec .fetchFault s = .next t ∧ EntersHandler z t bid tid .misaligned 0 pc) ∧
      (canonical pc.toNat = true → pc.toNat % 4 = 0 → ∀ x level entry u,
        z.translate (z.spaceOf ag) .execute true pc.toNat = (.fault x level entry, u) →
        ∃ t e y, exec .fetchFault s = .next t ∧ t.thread? bid tid = some y ∧ y.status = .parked ∧ y.ctx.pc = pc ∧
          (t.dom (s.coreOf ag / 512)).fsqWait = (u.dom (s.coreOf ag / 512)).fsqWait ++ [e] ∧ e.va = pc ∧ e.xkind = x ∧
          e.access = 2 ∧ e.park = true ∧ e.agent = .thread bid tid ∧ t.mem = u.mem)) ∧
    (∀ core b, b < 4 → s.issue.agents = [.bobbin core b] →
      ∃ t, exec (.illegalWord reason lane) s = .next t ∧ BobbinStops s t core b .illegal)) ∧
  ∀ w : Word,
    let m := (w.extractLsb' 24 8).toNat
    let undefinedSubop := noSubop m = false ∧ ¬((subopsOf m).1 ≤ subopOf w ∧ subopOf w ≤ (subopsOf m).2)
    (decodeWord w = .error .major ↔ m ∈ reservedMajors) ∧ (decodeWord w = .error .hint ↔ 0xF5 ≤ m) ∧
    (decodeWord w = .error .subop ↔ m ∉ reservedMajors ∧ m < 0xF0 ∧ undefinedSubop) ∧
    (m ∉ reservedMajors → m < 0xF5 → (m < 0xF0 → ¬undefinedSubop) → (∀ i, encode i ≠ some w) → decodeWord w = .error .field) ∧
    (∀ i, encode i = some w → decodeWord w = if i.reservedOk = false then .error .field else if i.groupsOk = false then .error .group
      else if i.scopeOk = false then .error .scope else .ok i) ∧
    Reject.major.reason = 1 ∧ Reject.subop.reason = 2 ∧ Reject.field.reason = 3 ∧ Reject.group.reason = 4 ∧ Reject.scope.reason = 5

/-- For a ready thread alone in its step whose packet address is accepted for a read of 128 bytes and that may release at waf,
LAUNCH answers a next state in which sd is pending with status 0, 1 or 2 of R344, the queue holds one more packet, the 32 words
read after the release, exactly when the status is 0, and no other queue has changed; its release is that of R275. A queue
number above 4095 raises ILLEGAL with reason 7. For a ready privileged thread alone in its step, DCFG of up to 16 ways in a
domain 0 to 83 with no other DCFG of it under way answers a next state in which the domain has the new way count, sd holds the
old one or the thread waits for accesses to the removed bytes (R418), and no byte of memory outside the bytes added or removed
has changed; at once, those bytes read 0. A larger operand raises ILLEGAL with reason 7. DCFG_COMPLETE then gives the old count
when those accesses have been performed (R345). -/
def Obligations.LaunchAndDomainScratch : Prop :=
  (
  ∀ (s : State) (d a b : BitVec 4) (n : BitVec 3) bid tid, a.toNat % 2 = 0 →
    let ag := Agent.thread bid tid
    let v := fun r : BitVec 4 => (s.readReg ag (.s r)).val
    let q := (v b).toNat
    let c := s.collect 0
    s.issue.agents = [ag] → s.Ready .thread [sSrc a, sSrc (a + 1), sSrc b] [.s d] ag →
    (q ≤ 4095 → c.releaseReady ag .waf = true → ∀ loc home e u,
      c.admitted ag .read (v (a + 1) ++ v a) 128 = (some (loc, home, e), u) →
      u.requestHeld (u.coreOf ag) loc 128 = false → u.locPoisoned loc 128 = false →
      let read := (u.drainRelease ag .waf).relaxedBytes ag loc 128
      let r := read.2
      let status : Nat := match r.queue? q with
        | none => 2
        | some x => if 64 ≤ x.device.length then 1 else if x.dlaunch = true ∧ x.status = .active then 0 else 2
      ∃ t id, exec (.launch d a b n) s = .next t ∧ (t.ctx ag).pc = (r.ctx ag).pc + 4 ∧
        (t.ctx ag).pend = (r.ctx ag).pend ++
          [{ id := id, regs := [.s d], work := .value [⟨BitVec.ofNat 32 status, .raw⟩], born := t.issue.now, left := none }] ∧
        t.mem = r.mem ∧ t.accs = r.accs ∧
        (status ≠ 0 → t.queues = r.queues) ∧
        (status = 0 → ∃ words, words.length = 32 ∧ packetWords read.1 = words ∧
          t.queues = (r.updQueue q fun x => { x with device := x.device ++ [words] }).queues)) ∧
    (4095 < q → s.TrapsOn bid tid → ∃ t, exec (.launch d a b n) s = .next t ∧ EntersHandler s t bid tid .illegal 7 0)) ∧
  (
  ∀ (s : State) (d a b : BitVec 4) (n : BitVec 3) bid tid, s.MemOk →
    let ag := Agent.thread bid tid
    let ways := (s.readReg ag (.s a)).val.toNat
    let dm := (s.readReg ag (.s b)).val.toNat
    let old := (s.dom dm).sways
    let base := s.wafer.id * 2 ^ 52 + 127 * 2 ^ 45 + dm * 2 ^ 38
    let inside := fun x : Nat => base + min ways old * 2 ^ 22 ≤ x ∧ x < base + max ways old * 2 ^ 22
    s.issue.agents = [ag] → s.Ready .thread [sSrc a, sSrc b] [.s d] ag → s.privOf ag = true →
    (ways ≤ 16 → dm ≤ 83 → s.dcfgBusy dm = false →
      ∃ t, exec (.dcfg d a b n) s = .next t ∧ (t.dom dm).sways = ways ∧ (∀ k, k ≠ dm → t.dom k = s.dom k) ∧
        (∀ x, ¬ inside x → memGet t.mem x = memGet s.mem x) ∧
        (∀ r, r ≠ .s d → t.readReg ag r = s.readReg ag r) ∧ (∀ x, x ≠ ag → SameAgent s t x) ∧
        (t.ctx ag).pend = (s.ctx ag).pend ∧
        (((t.ctx ag).pc = (s.ctx ag).pc + 4 ∧ t.readReg ag (.s d) = ⟨BitVec.ofNat 32 old, .raw⟩ ∧
            ∀ x, inside x → memGet t.mem x = 0) ∨
          (ways < old ∧ t.readReg ag (.s d) = s.readReg ag (.s d) ∧ (t.ctx ag).pc = (s.ctx ag).pc ∧ (t.thread? bid tid).map (·.status) = some (.blocked (.dcfg dm ways old d)) ∧ t.mem = s.mem)) ∧
        (s.accs = [] → (t.thread? bid tid).map (·.status) = (s.thread? bid tid).map (·.status))) ∧
    (s.TrapsOn bid tid → (16 < ways ∨ 83 < dm) → ∃ t, exec (.dcfg d a b n) s = .next t ∧ EntersHandler s t bid tid .illegal 7 0) ∧
    (∀ x w o, s.waitOf ag = some (.dcfg x w o d) → s.dcfgReady x w o = true → (s.ctx ag).isPending (.s d) = false →
      ∃ t, exec (.dcfgComplete bid tid) s = .next t ∧ (t.readReg ag (.s d)) = ⟨BitVec.ofNat 32 o, .raw⟩ ∧
        (t.thread? bid tid).map (·.status) = some .runnable))

/-- Writing a byte of a canonical list gives a canonical list that reads the byte back and reads every other address as before;
two canonical lists that read the same everywhere are the same list; an aligned access of 1, 2, 4 or 8 bytes lies in consecutive
bytes of the store, so that the bytes stored at a physical address that software may write read back; a byte of a fault service
queue's ring, the journal or the street index, which software only reads, stays as it was (R5, R313, R364, R375); every other
byte is unchanged (R4, R164). -/
def Obligations.MemoryLaws : Prop :=
  (∀ (m : List Host.Cell) (a : Nat) (x : Byte), Memory.wf m = true →
    Memory.wf (memSet m a x) = true ∧ memGet (memSet m a x) a = x ∧ ∀ b, b ≠ a → memGet (memSet m a x) b = memGet m b) ∧
  (∀ m m' : List Host.Cell, Memory.wf m = true → Memory.wf m' = true → (∀ a, memGet m a = memGet m' a) → m = m') ∧
  (∀ (s : State) (pa : Nat) (bs : List Byte), s.MemOk → bs.length ∈ [1, 2, 4, 8] → pa % bs.length = 0 →
    (∀ i, i < bs.length → s.physKey (pa + i) = s.physKey pa + i) ∧
    ((∀ i, i < bs.length → s.Writable (s.physKey (pa + i))) → (s.storePhys pa bs).readPhys pa bs.length = bs) ∧
    (∀ i, i < bs.length → s.areaOff (s.physKey (pa + i)) = none → (∃ r ∈ s.readOnly, s.keyIn (s.physKey (pa + i)) r.1 r.2 = true) →
      memGet (s.storePhys pa bs).mem (s.physKey (pa + i)) = memGet s.mem (s.physKey (pa + i))) ∧
    (s.storePhys pa bs).MemOk ∧
    ∀ x, x < s.physKey pa ∨ s.physKey pa + bs.length ≤ x → memGet (s.storePhys pa bs).mem x = memGet s.mem x)

/-- For every translation of a canonical address that gives a leaf, in a state whose block has no store that only it has seen:
the leaf covers the address for the ASID, permits the access under R299, is held in the TLB of the core, and for an access has A
set and, for a write, D; every agent and block is as it was, and memory differs at most in the 8 bytes of the leaf, which alone
may have A and D newly set (R297, R299, R301, R304). In a state with no poisoned granule and nothing that holds the walk, a walk
whose root table lies in DRAM and whose entries above some level are valid tables gives the leaf of that level's entry, at level
0, 1 or 2, where it is valid, permits the access and names storage, with the physical address FRAME plus the low 12, 21 or 30
bits, in the replica of the core's own domain where REP is set; an entry with V = 0, with reserved bits, a leaf above level 2 or
with a frame that is not aligned to its page, and a table at level 0 give fault 0 or 2 at their level, a leaf without the
permission fault 1, a frame outside storage a hole (R296 to R299, R320, R321). -/
def Obligations.WalksAndTranslation : Prop :=
  (
  ∀ (s u : State) (sp : Space) (kind : AccKind) (ad : Bool) (va : Nat) (e : TlbEntry), s.MemOk → s.seenStores sp.bid = [] →
    s.translate sp kind ad va = (.leaf e, u) →
    e.leaf = true ∧ e.covers sp.asid va = true ∧ pteAllows e.entry kind sp.priv = true ∧ e ∈ (u.core sp.core).tlb ∧
    (ad = true → e.entry.getLsbD 6 = true ∧ (kind.writes = true → e.entry.getLsbD 7 = true)) ∧
    (∀ ag, SameAgent s u ag) ∧ u.blocks = s.blocks ∧ u.accs = s.accs ∧ u.MemOk ∧
    (∀ k, (u.core k).scratch = (s.core k).scratch) ∧
    (ad = false → u.mem = s.mem) ∧
    (∀ x, (∀ j, j < 8 → x ≠ s.physKey (e.addr + j)) → memGet u.mem x = memGet s.mem x)) ∧
  (
  ∀ (s : State) (sp : Space) (kind : AccKind) (va : Nat) (t : Fin 5 → DWord), s.platform.poison = [] →
    s.rangeDram sp.root 4096 = true → (∀ addr, s.requestHeld sp.core (.phys addr) 8 = false) →
    let at_ := fun (tbl level : Nat) => tbl + 8 * (va / 2 ^ (12 + 9 * level) % 512)
    let frame := fun e : DWord => (e.extractLsb' 12 50).toNat * 4096
    s.readPhys64 (at_ sp.root 4) = t 4 →
    (∀ k : Fin 4, s.pteFault (t k.succ) k.succ.val = none → (t k.succ).getLsbD 8 = false →
      s.readPhys64 (at_ (frame (t k.succ)) k.val) = t k.castSucc) →
    (((t 4).getLsbD 0 = false → (s.walk sp kind va).2 = .fault 0 4 (t 4)) ∧
    (∀ l : Fin 4, (∀ k : Fin 5, l.val < k.val → s.pteFault (t k) k.val = none ∧ (t k).getLsbD 8 = false) →
      let e := t l.castSucc
      (e.getLsbD 0 = false → (s.walk sp kind va).2 = .fault 0 l.val e) ∧
      (e.getLsbD 0 = true →
        e.extractLsb' 1 2 ≠ 0 ∨ e.extractLsb' 62 2 ≠ 0 ∨ (e.getLsbD 8 = true ∧ l.val = 3) ∨ (e.getLsbD 8 = false ∧ l.val = 0) ∨
          (e.getLsbD 8 = false ∧ e.extractLsb' 3 9 ≠ 0) ∨ (e.getLsbD 8 = true ∧ l.val = 1 ∧ e.extractLsb' 12 9 ≠ 0) ∨
          (e.getLsbD 8 = true ∧ l.val = 2 ∧ e.extractLsb' 12 18 ≠ 0) →
        (s.walk sp kind va).2 = .fault 2 l.val e) ∧
      (s.pteFault e l.val = none → e.getLsbD 8 = true →
        (pteAllows e kind sp.priv = false → (s.walk sp kind va).2 = .fault 1 l.val e) ∧
        (pteAllows e kind sp.priv = true → s.leafStored sp.ctxid kind e l.val = false → (s.walk sp kind va).2 = .hole l.val) ∧
        (pteAllows e kind sp.priv = true → s.leafStored sp.ctxid kind e l.val = true → l.val ≤ 2 ∧
          ∃ x, (s.walk sp kind va).2 = .leaf x ∧ x.entry = e ∧ x.level = l.val ∧ ∀ core, core < 65536 →
            let pa := frame e + va % (4096 * 512 ^ l.val)
            x.loc core va = if e.getLsbD 11 then .replica pa (core / 512) else .phys pa)))))

/-- For every agent alone in its step, ready, whose register groups are aligned and whose address is accepted: LD of every width
and sign, LDU and LDC answer a next state in which the load is outstanding at the location of the pair plus the scaled offset
and its registers are pending with the form of R173; ST of every width is outstanding with the low bytes of its data registers
in order; 16-byte accesses are made in two halves; memory is unchanged until they are performed, and registers and every other
agent are as they were. -/
def Obligations.LoadsAndStoresAccepted : Prop :=
  ∀ (d a : BitVec 6) (ud ua : BitVec 4) (o : BitVec 9) (n : BitVec 3), a.toNat % 2 = 0 → ua.toNat % 2 = 0 →
    let va := fun (w : Nat) (vs : List VReg) => (valAt vs 1 ++ valAt vs 0) + BitVec.ofInt 64 (o.toInt * w)
    let asrc := [vSrc a 5 .int64, vSrc (a + 1) 5 .int64]
    let usrc := [sSrc ua, sSrc (ua + 1)]
    let ld := fun (i : Instr) (w : Nat) (form : LoadForm) => Loads i .thread asrc [.v d] n w form (va w)
    let bytes := fun (k : Nat) (vs : List VReg) => (vs.drop 2).flatMap fun v => (List.range k).map fun j => v.val.extractLsb' (8 * j) 8
    ld (.ldN8 d a o n) 1 .zext ∧ ld (.ldI8 d a o n) 1 .sext ∧ ld (.ldN16 d a o n) 2 .zext ∧ ld (.ldI16 d a o n) 2 .sext ∧
    ld (.ldB32 d a o n) 4 (.words .raw) ∧
    (d.toNat % 2 = 0 → Loads (.ldB64 d a o n) .thread asrc [.v d, .v (d + 1)] n 8 (.words .raw) (va 8)) ∧
    (d.toNat % 4 = 0 → Loads (.ldB128 d a o n) .thread asrc [.v d, .v (d + 1), .v (d + 2), .v (d + 3)] n 16 (.words .raw) (va 16)) ∧
    (∀ i ∈ [Instr.lduB32 ud ua o n, .ldcB32 ud ua o n], Loads i .both usrc [.s ud] n 4 (.words .raw) (va 4)) ∧
    (ud.toNat % 2 = 0 → ∀ i ∈ [Instr.lduB64 ud ua o n, .ldcB64 ud ua o n],
      Loads i .both usrc [.s ud, .s (ud + 1)] n 8 (.words .raw) (va 8)) ∧
    Stores (.stB8 d a o n) .thread (asrc ++ [vSrc d 3 .any]) n 1 (va 1) (bytes 1) ∧
    Stores (.stB16 d a o n) .thread (asrc ++ [vSrc d 3 .any]) n 2 (va 2) (bytes 2) ∧
    Stores (.stB32 d a o n) .thread (asrc ++ [vSrc d 3 .any]) n 4 (va 4) (bytes 4) ∧
    (d.toNat % 2 = 0 → Stores (.stB64 d a o n) .thread (asrc ++ [vSrc d 3 .any, vSrc (d + 1) 3 .any]) n 8 (va 8) (bytes 4)) ∧
    (d.toNat % 4 = 0 → Stores (.stB128 d a o n) .thread
      (asrc ++ [vSrc d 3 .any, vSrc (d + 1) 3 .any, vSrc (d + 2) 3 .any, vSrc (d + 3) 3 .any]) n 16 (va 16) (bytes 4))

/-- For a thread alone in its step that takes traps and is ready, every form of LD, ST, LDU and LDC, and every ATOM and RED with
a global address, raises NONCANONICAL, then MISALIGNED, with the address in trap.addr; a translation fault parks it at its
instruction with PARK = 1 and its kind, access code and level in an entry of the fault service queue of its domain; an address
that names no storage raises MEM_HOLE, one that names MMIO, at a width other than 4 and 8, MISALIGNED; in each case no access is
made by it. An ATOM or RED of a host window raises ATOM_INVALID with 1, of MMIO with 2; in the scratch form it raises MISALIGNED
for its offset, then NAME_INVALID, NAME_RETIRED, SCRATCH_BOUNDS and, outside every region, PHASER_CLOBBER as STQ does (R172,
R284). -/
def Obligations.AccessFaults : Prop :=
  ∀ (s : State) (d a b : BitVec 6) (ud ua : BitVec 4) (o : BitVec 9) (n : BitVec 3) bid tid blk, a.toNat % 2 = 0 →
    d.toNat % 4 = 0 → b.toNat % 4 = 0 → ud.toNat % 2 = 0 → ua.toNat % 2 = 0 →
    let ag := Agent.thread bid tid
    s.issue.agents = [ag] → s.TrapsOn bid tid → s.block? bid = some blk →
    let traps := fun (z : State) (i : Instr) (c : Cause) (info : Word) (addr : DWord) =>
      ∃ t, exec i s = .next t ∧ EntersHandler z t bid tid c info addr
    let faults := fun (i : Instr) (w : Nat) (kind : AccKind) (grants : Nat) (va : DWord) =>
      let c := s.collect grants
      let sp := c.spaceOf ag
      (canonical va.toNat = false → traps s i .noncanonical 0 va) ∧
      (canonical va.toNat = true → va.toNat % w ≠ 0 → traps s i .misaligned 0 va) ∧
      (canonical va.toNat = true → va.toNat % w = 0 →
        (∀ x level entry u, c.translate sp kind true va.toNat = (.fault x level entry, u) →
          ∃ t e y, exec i s = .next t ∧ t.thread? bid tid = some y ∧ y.status = .parked ∧ y.ctx.pc = (s.ctx ag).pc ∧
            (t.dom (s.coreOf ag / 512)).fsqWait = (u.dom (s.coreOf ag / 512)).fsqWait ++ [e] ∧ e.va = va ∧ e.xkind = x ∧
            e.access = (match kind with | .read => 0 | .write => 1 | .execute => 2 | .both => 3) ∧ e.park = true ∧
            e.agent = .thread bid tid ∧ e.info = BitVec.ofNat 32 level ∧ t.mem = u.mem ∧ t.accs = u.accs) ∧
        (∀ level u, c.translate sp kind true va.toNat = (.hole level, u) → traps u i .memHole 0 va) ∧
        (∀ e u, c.translate sp kind true va.toNat = (.leaf e, u) →
          (u.homeOf sp.ctxid (e.loc sp.core va.toNat)).isMmio = true → w ≠ 4 → w ≠ 8 → traps u i .misaligned 0 va))
    let scaled := fun (x : DWord) (w : Nat) => x + BitVec.ofInt 64 (o.toInt * (w : Nat))
    let pair := (s.readReg ag (.v (a + 1))).val ++ (s.readReg ag (.v a)).val
    (s.Ready .thread (addrSrcs a ++ vSrcs d 4 3 .any) (vRegs d 4) ag →
      ∀ p ∈ [(Instr.ldN8 d a o n, 1, AccKind.read, 2), (.ldI8 d a o n, 1, .read, 2), (.ldN16 d a o n, 2, .read, 2),
             (.ldI16 d a o n, 2, .read, 2), (.ldB32 d a o n, 4, .read, 2), (.ldB64 d a o n, 8, .read, 2), (.ldB128 d a o n, 16, .read, 2),
             (.stB8 d a o n, 1, .write, 3), (.stB16 d a o n, 2, .write, 3), (.stB32 d a o n, 4, .write, 3), (.stB64 d a o n, 8, .write, 4),
             (.stB128 d a o n, 16, .write, 6)],
      faults p.1 p.2.1 p.2.2.1 p.2.2.2 (scaled pair p.2.1)) ∧
    (s.Ready .both [sSrc ua, sSrc (ua + 1)] [.s ud, .s (ud + 1)] ag →
      ∀ p ∈ [(Instr.lduB32 ud ua o n, 4), (.lduB64 ud ua o n, 8), (.ldcB32 ud ua o n, 4), (.ldcB64 ud ua o n, 8)],
      faults p.1 p.2 .read 0 (scaled ((s.readReg ag (.s (ua + 1))).val ++ (s.readReg ag (.s ua)).val) p.2)) ∧
    (∀ p ∈ [(Instr.atomAddI32 d a b n, 4, 1, Accept.int32), (.atomMinI32 d a b n, 4, 1, .int32), (.atomMaxI32 d a b n, 4, 1, .int32),
            (.atomMinN32 d a b n, 4, 1, .int32), (.atomMaxN32 d a b n, 4, 1, .int32), (.atomAndB32 d a b n, 4, 1, .any),
            (.atomOrB32 d a b n, 4, 1, .any), (.atomXorB32 d a b n, 4, 1, .any), (.atomXchgB32 d a b n, 4, 1, .any),
            (.atomCasB32 d a b n, 4, 2, .any), (.atomAddF32 d a b n, 4, 1, .exactly .f32), (.atomAddI64 d a b n, 8, 2, .int64),
            (.atomMaxN64 d a b n, 8, 2, .int64), (.atomXchgB64 d a b n, 8, 2, .any), (.atomCasB64 d a b n, 8, 4, .any),
            (.redAddI32 a b n, 4, 1, .int32), (.redMinI32 a b n, 4, 1, .int32), (.redMaxI32 a b n, 4, 1, .int32),
            (.redMinN32 a b n, 4, 1, .int32), (.redMaxN32 a b n, 4, 1, .int32), (.redAndB32 a b n, 4, 1, .any),
            (.redOrB32 a b n, 4, 1, .any), (.redXorB32 a b n, 4, 1, .any), (.redAddF32 a b n, 4, 1, .exactly .f32),
            (.redAddI64 a b n, 8, 2, .int64)],
      s.Ready .thread (addrSrcs a ++ vSrcs b p.2.2.1 1 p.2.2.2) (vRegs d 2) ag → (s.ctx ag).slots < 8 →
      let w := p.2.1
      let c := s.collect (2 + p.2.2.1)
      let sp := c.spaceOf ag
      let off := pair.extractLsb' 0 32
      let nm := (pair.extractLsb' 32 16).toNat
      let name : Word := (pair.extractLsb' 32 16).zeroExtend 32
      let c' := c.usedName blk nm
      (pair.extractLsb' 48 16 ≠ 0x8000 → faults p.1 w .both (2 + p.2.2.1) pair ∧
        ∀ e u, canonical pair.toNat = true → pair.toNat % w = 0 → c.translate sp .both true pair.toNat = (.leaf e, u) →
          let loc := e.loc sp.core pair.toNat
          (loc.isWindow = true → traps u p.1 .atomInvalid 1 pair) ∧
          ((u.homeOf sp.ctxid loc).isMmio = true → traps u p.1 .atomInvalid 2 pair)) ∧
      (pair.extractLsb' 48 16 = 0x8000 →
        (off.toNat % w ≠ 0 → traps s p.1 .misaligned 0 (off.zeroExtend 64)) ∧
        (off.toNat % w = 0 →
          (c.resolve blk nm = .invalid → traps s p.1 .nameInvalid name 0) ∧
          ((∃ k, c.resolve blk nm = .retired k) → traps s p.1 .nameRetired name 0) ∧
          ∀ tb, c.resolve blk nm = .found tb → c'.block? tb.bid = some tb →
            (tb.regs.scratchSize.toNat < off.toNat + w → traps c' p.1 .scratchBounds name (off.zeroExtend 64)) ∧
            (off.toNat + w ≤ tb.regs.scratchSize.toNat → tb.regionAt off.toNat = none →
              c'.phaserBit tb.core (tb.scr off.toNat / 32) = true → traps c' p.1 .phaserClobber 0 (off.zeroExtend 64)))))

/-- When PENDING_COMPLETE comes for the only outstanding part of a load of a thread (LD, LDU, LDS or LDQ; no MMIO register, no
host window), the load may be performed under R275, its bytes are not poisoned and no store that its block alone sees, or may
see just before it, is there: the registers of the group take those bytes, least significant first, zero- or sign-extended for 8
and 16 bits with tags n32 and i32 and raw words for 32 and 64, the group is no longer pending, the access is no longer
outstanding, memory and every agent that shares no uniform frame with the thread are as they were. A load that R275 does not let
perform changes nothing (R173, R273, R275, R48). Of the two halves of LD.B128 the first to be performed has its bytes in the
group and no register changes; with the second the four registers take the bytes of both, low half first (R174). An LDC of a
thread or of a bobbin takes for each byte what memory holds or a value it has held since the launch of its grid (R97). When
STORE_GLOBAL_PERFORM comes for an outstanding store to bytes of wafer memory that software may write, or to a scratchpad, that
R275 lets perform, with no store over these bytes seen by its block alone, its bytes are in memory and every other byte of
memory and of every scratchpad is as it was; the store is no longer outstanding and no agent has changed. A store that may not
perform yet changes nothing (R273, R275). -/
def Obligations.AccessesBindAndPerform : Prop :=
  (
  ∀ (s : State) bid tid id aid (a : Access) (regs : List Reg) (form : LoadForm) (b : Nat → Byte) (born : Nat) (left : Option Nat),
    let ag := Agent.thread bid tid
    let shares := fun x : Agent => ∃ y z, x = .thread y z ∧ s.frameOf (y, z) ≠ none ∧ s.frameOf (y, z) = s.frameOf (bid, tid)
    s.present ag → (s.ctx ag).pend.find? (fun p => p.id == id) = some ⟨id, regs, .access [(aid, none)] form, born, left⟩ →
    s.access? aid = some a → a.agent = ag → a.work = .load → a.group = none → a.again ≠ .due →
    (s.mayPerform a = false → exec (.pendingComplete ag id 0) s = .next s) ∧
    (s.mayPerform a = true → s.locPoisoned a.loc a.width = false → s.mmioAt a.loc = none → s.seenStores bid = [] →
      a.ordered = true → a.home ≠ .outsideMmio → a.loc.isWindow = false →
      (∀ x ∈ s.accs, s.locsMeet x.loc x.width a.loc a.width = true → s.mayShow bid x = false) →
      (∀ j, j < a.width → (s.readLoc a.loc a.width)[j]? = some (b j)) →
      let gives := fun ws : List (Reg × Word × Tag) => ∃ t, exec (.pendingComplete ag id 0) s = .next t ∧
        (∀ r, t.readReg ag r = written (ws.map fun w => ⟨w.1, w.2.1, w.2.2⟩) r (s.readReg ag r)) ∧
        ((t.ctx ag).pend.all fun p => p.id != id) = true ∧ (t.ctx ag).pc = (s.ctx ag).pc ∧
        t.accs = s.accs.filter (fun x => x.id != aid) ∧ t.mem = s.mem ∧ (∀ x, x ≠ ag → ¬ shares x → SameAgent s t x)
      (∀ d, regs = [.v d] → a.width = 1 → form = .zext → gives [(.v d, (b 0).zeroExtend 32, .n32)]) ∧
      (∀ d, regs = [.v d] → a.width = 1 → form = .sext → gives [(.v d, (b 0).signExtend 32, .i32)]) ∧
      (∀ d, regs = [.v d] → a.width = 2 → form = .zext → gives [(.v d, (b 1 ++ b 0).zeroExtend 32, .n32)]) ∧
      (∀ d, regs = [.v d] → a.width = 2 → form = .sext → gives [(.v d, (b 1 ++ b 0).signExtend 32, .i32)]) ∧
      (∀ r, (∃ d, r = .v d) ∨ (∃ d, r = .s d) → regs = [r] → a.width = 4 → form = .words .raw →
        gives [(r, b 3 ++ b 2 ++ b 1 ++ b 0, .raw)]) ∧
      (∀ r q, ((∃ d, r = .v d ∧ q = .v (d + 1)) ∨ ∃ d, r = .s d ∧ q = .s (d + 1)) → regs = [r, q] → a.width = 8 →
        form = .words .raw → gives [(r, b 3 ++ b 2 ++ b 1 ++ b 0, .raw), (q, b 7 ++ b 6 ++ b 5 ++ b 4, .raw)]))) ∧
  (
  ∀ (s : State) bid tid id aid other (a : Access) (d : BitVec 6) (k : Fin 2) (b lo hi : Nat → Byte) (born : Nat) (left : Option Nat),
    let ag := Agent.thread bid tid
    let regs := [Reg.v d, .v (d + 1), .v (d + 2), .v (d + 3)]
    let have_ := fun (x : Nat → Byte) => (List.range 8).map x
    let group := fun (p q : Option (List Byte)) => (⟨id, regs, .access (if k = 0 then [(aid, p), (other, q)] else
      [(other, q), (aid, p)]) (.words .raw), born, left⟩ : Pend)
    s.present ag → s.access? aid = some a → a.agent = ag → a.work = .load → a.width = 8 → a.group = none → aid ≠ other →
    s.mayPerform a = true → s.locPoisoned a.loc 8 = false → s.mmioAt a.loc = none → s.seenStores bid = [] → a.ordered = true →
    a.home ≠ .outsideMmio → a.loc.isWindow = false → (∀ x ∈ s.accs, s.locsMeet x.loc x.width a.loc 8 = true → s.mayShow bid x = false) →
    s.readLoc a.loc 8 = have_ b →
    ((s.ctx ag).pend = [group none none] → ∃ t, exec (.pendingComplete ag id k.val) s = .next t ∧ t.mem = s.mem ∧
      (t.ctx ag).pend = [group (some (have_ b)) none] ∧ (∀ r, t.readReg ag r = s.readReg ag r) ∧
      t.accs = s.accs.filter (fun x => x.id != aid)) ∧
    ((s.ctx ag).pend = [group none (some (have_ (if k = 0 then hi else lo)))] →
      let low := if k = 0 then b else lo
      let high := if k = 0 then hi else b
      let word := fun (x : Nat → Byte) (j : Nat) => x (j + 3) ++ x (j + 2) ++ x (j + 1) ++ x j
      ∃ t, exec (.pendingComplete ag id k.val) s = .next t ∧ t.mem = s.mem ∧ (t.ctx ag).pend = [] ∧
        (∀ r, t.readReg ag r = written [⟨.v d, word low 0, .raw⟩, ⟨.v (d + 1), word low 4, .raw⟩, ⟨.v (d + 2), word high 0, .raw⟩,
          ⟨.v (d + 3), word high 4, .raw⟩] r (s.readReg ag r)) ∧ t.accs = s.accs.filter (fun x => x.id != aid))) ∧
  (
  ∀ (s : State) (ag : Agent) id aid (a : Access) (d : BitVec 4) (born : Nat) (left : Option Nat), s.present ag →
    (s.ctx ag).pend = [⟨id, [.s d], .access [(aid, none)] (.words .raw), born, left⟩] →
    s.access? aid = some a → a.agent = ag → a.work = .load → a.width = 4 → a.group = none → a.ordered = false →
    s.mayPerform a = true → s.locPoisoned a.loc 4 = false → s.mmioAt a.loc = none → s.seenStores (s.bidOf ag) = [] →
    a.home ≠ .outsideMmio → a.loc.isWindow = false → (∀ c o, a.loc ≠ .scratch c o) →
    ∃ t, ∃ x : Word, exec (.pendingComplete ag id 0) s = .next t ∧ t.readReg ag (.s d) = ⟨x, .raw⟩ ∧
      (∀ r, r ≠ .s d → t.readReg ag r = s.readReg ag r) ∧ (t.ctx ag).pend = [] ∧ t.mem = s.mem ∧
      t.accs = s.accs.filter (fun x => x.id != aid) ∧
      ∀ j, j < 4 → let y := x.extractLsb' (8 * j) 8
        (s.readLoc (a.loc.shift j) 1 = [y] ∨
          ∃ v ∈ s.versions (s.sinceOf ag) (s.locKeys (a.loc.shift j) 1), v.2 = [y])) ∧
  (
  ∀ (s : State) (id : Nat) (a : Access) (bs : List Byte), s.MemOk → s.access? id = some a → a.work = .store bs →
    s.NoneSeen id a.loc a.width → bs.length ∈ [1, 2, 4, 8] → a.home ≠ .outsideMmio → a.again ≠ .due →
    (∀ pa, a.loc = .phys pa → pa / 2 ^ 52 ≠ 1023 → s.mmioAt a.loc = none → pa % bs.length = 0 →
      (∀ i, i < bs.length → s.Writable (s.physKey (pa + i))) →
      (s.mayPerform a = false → exec (.storeGlobalPerform id) s = .next s) ∧
      (s.mayPerform a = true → ∃ t, exec (.storeGlobalPerform id) s = .next t ∧ t.readPhys pa bs.length = bs ∧
        (∀ x, x < s.physKey pa ∨ s.physKey pa + bs.length ≤ x → memGet t.mem x = memGet s.mem x) ∧
        (∀ k, (t.core k).scratch = (s.core k).scratch) ∧ (∀ ag, SameAgent s t ag) ∧ t.blocks = s.blocks ∧
        t.accs = s.accs.filter (fun x => x.id != id))) ∧
    (∀ core off, a.loc = .scratch core off → s.mayPerform a = true →
      ∃ t, exec (.storeGlobalPerform id) s = .next t ∧ t.readScr core off bs.length = bs ∧
        (∀ x, x < off ∨ off + bs.length ≤ x → memGet (t.core core).scratch x = memGet (s.core core).scratch x) ∧
        (∀ k, k ≠ core → t.core k = s.core k) ∧ t.mem = s.mem ∧ t.blocks = s.blocks ∧ (∀ ag, SameAgent s t ag) ∧
        t.accs = s.accs.filter (fun x => x.id != id)))

/-- For a ready thread alone in its step: LDS and STS at an aligned offset va + offset9 × w inside the window, in no region, are
accepted at that offset of the own window; LDQ and STQ likewise in the window of the block that the name holds; STS and STQ
raise PHASER_CLOBBER on a phaser granule; a misaligned offset raises MISALIGNED first, an offset below 0 or past the window
SCRATCH_BOUNDS, each with its offset in trap.addr (an offset below 0 in 64-bit two's complement: the model's choice, log 151)
and, for LDQ and STQ, the name in trap.info; a name that holds no block of the quarter, or a block in no quarter, NAME_INVALID,
a retired name NAME_RETIRED, with the name in trap.info and 0 in trap.addr; while the name cache holds the arrival, nothing of
any agent changes (R172, R176, R376). In a region whose line is filled, with no access outstanding, the bytes of an LDS are
bound when the thread goes on, and those of an STS are in the window and in the line's mask (R179). -/
def Obligations.ScratchpadAccess : Prop :=
  ∀ (s : State) (d a b : BitVec 6) (o : BitVec 9) (n : BitVec 3) bid tid blk,
    let ag := Agent.thread bid tid
    let x := (s.readReg ag (.v a)).val
    let bytes := fun rs : List (BitVec 6) => rs.flatMap fun r => (List.range 4).map fun j => (s.readReg ag (.v r)).val.extractLsb' (8 * j) 8
    let ready := fun rs : List (BitVec 6) => s.Ready .thread (vSrc a 0 .int32 :: rs.map fun r => vSrc r 3 .any) (rs.map Reg.v) ag
    s.issue.agents = [ag] → s.block? bid = some blk →
    let loads := fun (i : Instr) (k : Block) (e : Nat) (w : Nat) (regs : List Reg) => ∃ t id, exec i s = .next t ∧
      Accepted s s t ag n [(.scratch k.core (k.scr e), w, .load)] ∧
      (t.ctx ag).pend = (s.ctx ag).pend ++
        [⟨id, regs, .access ((t.accs.drop s.accs.length).map fun y => (y.id, none)) (.words .raw), t.issue.now, none⟩]
    let stores := fun (i : Instr) (k : Block) (e : Nat) (w : Nat) (rs : List (BitVec 6)) => ∃ t, exec i s = .next t ∧
      Accepted s s t ag n [(.scratch k.core (k.scr e), w, .store (bytes rs))] ∧ (t.ctx ag).pend = (s.ctx ag).pend
    let traps := fun (i : Instr) (c : Cause) (info : Word) (addr : DWord) => ∃ t, exec i s = .next t ∧ EntersHandler s t bid tid c info addr
    (∀ p ∈ [(Instr.ldsB32 d a o n, Instr.stsB32 d a o n, 4, [d]), (.ldsB64 d a o n, .stsB64 d a o n, 8, [d, d + 1])],
      let w : Nat := p.2.2.1
      let e : Int := (x.toNat : Int) + o.toInt * (w : Int)
      ready p.2.2.2 → (w = 8 → d.toNat % 2 = 0) →
      (∀ (off r idx : Nat) g line, e = (off : Int) → off % w = 0 → off + w ≤ blk.regs.scratchSize.toNat →
        blk.regionAt off = some (r, idx) → blk.region r = some g → g.line? idx = some line → s.accs = [] →
        (∀ p ∈ (s.ctx ag).pend, ∀ i ∈ p.accessIds, i < s.nextId) →
        let lo := off % 128
        (∃ t id aid, exec p.1 s = .next t ∧ GoesOn s t ag n [⟨id, p.2.2.2.map Reg.v,
            .access [(aid, some (s.readScr blk.core (blk.scr off) w))] (.words .raw), t.issue.now, none⟩] ∧
          t.accs = [] ∧ t.mem = s.mem ∧ ∀ k, (t.core k).scratch = (s.core k).scratch) ∧
        (s.phaserBit blk.core (blk.scr off / 32) = false → ∃ t, exec p.2.1 s = .next t ∧ GoesOn s t ag n [] ∧ t.accs = [] ∧
          t.mem = s.mem ∧ t.readScr blk.core (blk.scr off) w = bytes p.2.2.2 ∧
          (∀ y, y < blk.scr off ∨ blk.scr off + w ≤ y →
            memGet (t.core blk.core).scratch y = memGet (s.core blk.core).scratch y) ∧
          ∃ k h, t.block? bid = some k ∧ k.region r = some h ∧ ∃ l ∈ h.lines, l.idx = idx ∧
            ∀ j : Fin 128, l.mask.getLsbD j.val = (line.mask.getLsbD j.val || (decide (lo ≤ j.val) && decide (j.val < lo + w))))) ∧
      (∀ off : Nat, e = (off : Int) → off % w = 0 → off + w ≤ blk.regs.scratchSize.toNat → blk.regionAt off = none →
        loads p.1 blk off w (p.2.2.2.map Reg.v) ∧
        (s.phaserBit blk.core (blk.scr off / 32) = false → stores p.2.1 blk off w p.2.2.2) ∧
        (s.TrapsOn bid tid → s.phaserBit blk.core (blk.scr off / 32) = true → traps p.2.1 .phaserClobber 0 (BitVec.ofNat 64 off))) ∧
      (s.TrapsOn bid tid → ∀ i ∈ [p.1, p.2.1],
        (e % (w : Int) ≠ 0 → traps i .misaligned 0 (BitVec.ofInt 64 e)) ∧
        (e % (w : Int) = 0 → e < 0 ∨ (blk.regs.scratchSize.toNat : Int) < e + w → traps i .scratchBounds 0 (BitVec.ofInt 64 e)))) ∧
    (let nm := (s.readReg ag (.v b)).val
     let name : Word := (nm.extractLsb' 0 16).zeroExtend 32
     let finds := s.resolve blk (nm.extractLsb' 0 16).toNat
     let both := [Instr.ldqB32 d a b n, .stqB32 d a b n]
     ready [d] → s.settled ag (.v b) → Accept.int32.ok (s.readReg ag (.v b)).tag = true →
      (s.TrapsOn bid tid → x.toNat % 4 ≠ 0 → ∀ i ∈ both, traps i .misaligned 0 (x.zeroExtend 64)) ∧
      (x.toNat % 4 = 0 →
      (∀ tb, nm.extractLsb' 16 16 = 0 → blk.regs.qsize ≠ 0 → finds = .found tb → s.block? tb.bid = some tb →
        (x.toNat + 4 ≤ tb.regs.scratchSize.toNat → tb.regionAt x.toNat = none →
          loads (.ldqB32 d a b n) tb x.toNat 4 [.v d] ∧
          (s.phaserBit tb.core (tb.scr x.toNat / 32) = false → stores (.stqB32 d a b n) tb x.toNat 4 [d]) ∧
          (s.TrapsOn bid tid → s.phaserBit tb.core (tb.scr x.toNat / 32) = true → ∃ t, exec (.stqB32 d a b n) s = .next t ∧
            EntersHandler (s.usedName blk (nm.extractLsb' 0 16).toNat) t bid tid .phaserClobber 0 (BitVec.ofNat 64 x.toNat))) ∧
        (s.TrapsOn bid tid → tb.regs.scratchSize.toNat < x.toNat + 4 → ∀ i ∈ both, ∃ t, exec i s = .next t ∧
          EntersHandler (s.usedName blk (nm.extractLsb' 0 16).toNat) t bid tid .scratchBounds name (BitVec.ofNat 64 x.toNat))) ∧
      (s.TrapsOn bid tid → (nm.extractLsb' 16 16 ≠ 0 ∨ blk.regs.qsize = 0 ∨ finds = .invalid) → ∀ i ∈ both, traps i .nameInvalid name 0) ∧
      (s.TrapsOn bid tid → nm.extractLsb' 16 16 = 0 → blk.regs.qsize ≠ 0 → (∃ c, finds = .retired c) →
        ∀ i ∈ both, traps i .nameRetired name 0) ∧
      (nm.extractLsb' 16 16 = 0 → blk.regs.qsize ≠ 0 → finds = .held → ∀ i ∈ both, ∃ t, exec i s = .next t ∧ SameBody s t ∧
        ∀ x, SameAgent s t x)))

/-- For a ready privileged thread alone in its step, each XINV form with a scope 0 to 4 is issued with what R310 covers, and an
operand outside its range raises ILLEGAL with reason 7; XINV_TLB_PERFORM removes exactly the covered entries from one TLB within
the scope, and waits while a clock change holds it on its way (R398); XFENCE leaves no earlier ordered access of the thread
unperformed, loads included, and waits while something holds one (R325, R398; as the model deduces, logs 33 and 56); XSYNC goes
on at once, its XINVs retired, where each is performed and settled, else blocks until XSYNC_COMPLETE; XPROBE gives the
doubleword of R311 and raises ILLEGAL with reason 7 for any other access kind; PAGE_WALK, where nothing holds it, adds only
entries of its walk to the TLB; AD_UPDATE, where nothing holds it and software may write the entry, ORs A, and D, into the entry
in memory when it still equals the held one elsewhere, and no other byte changes (R301, R304 to R311). -/
def Obligations.TranslationMaintenance : Prop :=
  (∀ (s : State) (a b : BitVec 4) (e n : BitVec 3) bid tid, a.toNat % 2 = 0 →
    let ag := Agent.thread bid tid
    let v := fun r : BitVec 4 => (s.readReg ag (.s r)).val
    let va := v (a + 1) ++ v a
    let issued := fun (i : Instr) (form : XinvForm) => ∀ sc, scopeOf e = some sc → ∃ t id, exec i s = .next t ∧ GoesOn s t ag n [] ∧
      s.nextId ≤ id ∧ id < t.nextId ∧ t.xinvs = s.xinvs ++ [⟨id, ag, form, sc, []⟩] ∧ t.mem = s.mem ∧ t.accs = s.accs ∧
      ∀ k, (t.core k).tlb = (s.core k).tlb
    let illegal := fun (i : Instr) (r : Word) => ∃ t, exec i s = .next t ∧ EntersHandler s t bid tid .illegal r 0
    s.issue.agents = [ag] → s.privOf ag = true →
    (s.Ready .thread [sSrc a, sSrc (a + 1), sSrc b, sSrc (b + 1)] [] ag →
      (e.toNat ≤ 4 → (v b).toNat < 65536 →
        issued (.xinvPage a b e n) (.page va ((v b).extractLsb' 0 16)) ∧ issued (.xinvAsid b e n) (.asid ((v b).extractLsb' 0 16)) ∧
        issued (.xinvAll e n) .all ∧
        (b.toNat % 2 = 0 → 1 ≤ (v (b + 1)).toNat → (v (b + 1)).toNat ≤ 2 ^ 20 →
          issued (.xinvRange a b e n) (.range va ((v b).extractLsb' 0 16) (v (b + 1)).toNat))) ∧
      (s.TrapsOn bid tid → e.toNat ≤ 4 → 65536 ≤ (v b).toNat → illegal (.xinvPage a b e n) 7 ∧ illegal (.xinvAsid b e n) 7) ∧
      (s.TrapsOn bid tid → e.toNat ≤ 4 → b.toNat % 2 = 0 → (65536 ≤ (v b).toNat ∨ (v (b + 1)) = 0 ∨ 2 ^ 20 < (v (b + 1)).toNat) →
        illegal (.xinvRange a b e n) 7)) ∧
    (s.TrapsOn bid tid → 4 < e.toNat → ∀ i ∈ [Instr.xinvPage a b e n, .xinvAsid b e n, .xinvAll e n], illegal i 5)) ∧
  (∀ (s : State) (x : Xinv) core, s.xinvs.find? (fun y => y.id == x.id) = some x →
    let held := s.wayHeld (s.coreOf x.agent / 512) x.id (some (core / 512))
    (inScope x.scope (s.coreOf x.agent) core = false ∨ core ∈ x.done.map (·.1) ∨ held = true →
      exec (.xinvTlbPerform x.id core) s = .next s) ∧
    (inScope x.scope (s.coreOf x.agent) core = true → core ∉ x.done.map (·.1) → held = false → ∃ t, exec (.xinvTlbPerform x.id core) s = .next t ∧
      (∀ e, e ∈ (t.core core).tlb ↔ e ∈ (s.core core).tlb ∧ x.form.covers e = false) ∧ (∀ e ∈ t.heldPages core, x.form.covers e = false) ∧
      (∀ k, k ≠ core → t.core k = s.core k) ∧ t.mem = s.mem ∧ t.accs = s.accs ∧ t.blocks = s.blocks ∧ (∀ ag, SameAgent s t ag) ∧
      ∃ y ∈ t.xinvs, y.id = x.id ∧ y.form = x.form ∧ core ∈ y.done.map (·.1))) ∧
  (∀ (s : State) (n : BitVec 3) bid tid, let ag := Agent.thread bid tid
    (s.accs.map (·.id)).Nodup →
    (s.issue.agents = [ag] → s.Ready .thread [] [] ag →
      ((s.collect 0).releaseFree ag .sys = false → ∃ t, exec (.xfence n) s = .next t ∧ SameBody s t ∧ ∀ x, SameAgent s t x) ∧
      ((s.collect 0).releaseFree ag .sys = true → ∃ t, exec (.xfence n) s = .next t ∧
        (∀ x ∈ t.accs, x.agent = ag → x.ordered = false) ∧
        (t.present ag → (t.ctx ag).ready = t.issue.now + 1 + n.toNat) ∧ (s.accs = [] → GoesOn s t ag n [] ∧ t.mem = s.mem)) ∧
      (s.accs = [] → s.xsyncReady ag = true → ∃ t, exec (.xsync n) s = .next t ∧ GoesOn s t ag n [] ∧ t.mem = s.mem ∧
        t.xinvs = s.xinvs.filter fun x => x.agent != ag) ∧
      (s.xsyncReady ag = false → ∃ t, exec (.xsync n) s = .next t ∧ t.waitOf ag = some .xsync ∧ (t.ctx ag).pc = (s.ctx ag).pc ∧
        t.xinvs = s.xinvs ∧ t.accs = s.accs ∧ t.mem = s.mem ∧ (∀ r, t.readReg ag r = s.readReg ag r) ∧ ∀ x, x ≠ ag → SameAgent s t x)) ∧
    (s.waitOf ag = some .xsync →
      (s.xsyncReady ag = false → exec (.xsyncComplete bid tid) s = .next s) ∧
      (s.xsyncReady ag = true → s.accs = [] → ∃ t, exec (.xsyncComplete bid tid) s = .next t ∧ (t.ctx ag).pc = (s.ctx ag).pc + 4 ∧
        (t.thread? bid tid).map (·.status) = some .runnable ∧ (t.xinvs = s.xinvs.filter fun x => x.agent != ag) ∧ t.mem = s.mem ∧
        (∀ r, t.readReg ag r = s.readReg ag r) ∧ ∀ x, x ≠ ag → SameAgent s t x))) ∧
  (∀ (s : State) (d a b : BitVec 4) (n : BitVec 3) bid tid, d.toNat % 2 = 0 → a.toNat % 2 = 0 →
    let ag := Agent.thread bid tid
    let v := fun r : BitVec 4 => (s.readReg ag (.s r)).val
    let va := v (a + 1) ++ v a
    let gives := fun (P : DWord → State → Prop) => ∃ t id, ∃ x : DWord, exec (.xprobe d a b n) s = .next t ∧
      GoesOn s t ag n [⟨id, [.s d, .s (d + 1)], .value [⟨x.extractLsb' 0 32, .raw⟩, ⟨x.extractLsb' 32 32, .raw⟩], t.issue.now, none⟩] ∧
      P x t
    s.issue.agents = [ag] → s.Ready .thread [sSrc a, sSrc (a + 1), sSrc b] [.s d, .s (d + 1)] ag →
    (s.TrapsOn bid tid → 3 ≤ (v b).toNat → ∃ t, exec (.xprobe d a b n) s = .next t ∧ EntersHandler s t bid tid .illegal 7 0) ∧
    ∀ p ∈ [((0 : Word), AccKind.read), (1, .write), (2, .execute)], v b = p.1 →
      (canonical va.toNat = false → gives fun x t => x = 0x4000000000000007 ∧ t.mem = s.mem) ∧
      (canonical va.toNat = true → ∀ u, let c := s.collect 0
        (∀ e, c.lookup (c.spaceOf ag) p.2 false va.toNat = (.leaf e, u) → e.level ≤ 2 → gives fun x t => t.mem = u.mem ∧
          x.extractLsb' 62 2 = 0 ∧ x.extractLsb' 3 59 = e.entry.extractLsb' 3 59 ∧ (x.extractLsb' 1 2).toNat = e.level ∧
          x.getLsbD 0 = e.entry.getLsbD 0) ∧
        (∀ kind level e, c.lookup (c.spaceOf ag) p.2 false va.toNat = (.fault kind level e, u) → level ≤ 4 →
          gives fun x t => t.mem = u.mem ∧
            (kind = 0 → x.extractLsb' 62 2 = 1 ∧ x.extractLsb' 0 62 = BitVec.ofNat 62 level) ∧
            (kind = 1 → level ≤ 2 → x.extractLsb' 62 2 = 2 ∧ x.extractLsb' 3 59 = e.extractLsb' 3 59 ∧ (x.extractLsb' 1 2).toNat = level) ∧
            (kind = 2 → x.extractLsb' 62 2 = 3 ∧ x.extractLsb' 0 62 = BitVec.ofNat 62 level)) ∧
        (∀ level, c.lookup (c.spaceOf ag) p.2 false va.toNat = (.hole level, u) → gives fun x t => t.mem = u.mem ∧
          x.extractLsb' 62 2 = 3 ∧ x.extractLsb' 0 62 = BitVec.ofNat 62 level))) ∧
  (∀ (s : State) bid va kind blk, s.block? bid = some blk → canonical va = true → s.platform.poison = [] →
    let w := s.walk (blk.space true) (accKindOf kind) va
    w.2 ≠ .waits → ∃ t, exec (.pageWalk bid va kind) s = .next t ∧ t.mem = s.mem ∧ t.accs = s.accs ∧ t.blocks = s.blocks ∧ (∀ ag, SameAgent s t ag) ∧
      (∀ e, e ∈ (t.core blk.core).tlb ↔ e ∈ (s.core blk.core).tlb ∨ e ∈ w.1) ∧ ∀ e, w.2 = .leaf e → e ∈ (t.core blk.core).tlb) ∧
  (∀ (s : State) ag va kind e, s.MemOk → s.platform.poison = [] →
    let sp := s.spaceOf ag
    let k := accKindOf kind
    let cur := s.readPhys64 e.addr
    let m : DWord := 0xFFFFFFFFFFFFFF3F
    (s.core sp.core).tlb.find? (fun e => e.leaf && e.covers sp.asid va && pteAllows e.entry k sp.priv && needsAD e.entry k) = some e →
    e.addr % 8 = 0 → s.requestHeld sp.core (.phys e.addr) 8 = false → (∀ i, i < 8 → s.Writable (s.physKey (e.addr + i))) →
    ∃ t, exec (.adUpdate ag va kind) s = .next t ∧ (∀ x, SameAgent s t x) ∧ t.blocks = s.blocks ∧ t.accs = s.accs ∧
      (cur &&& m = e.entry &&& m → t.readPhys64 e.addr = cur ||| (if k.writes then 0xC0 else 0x40) ∧
        ∀ x, x < s.physKey e.addr ∨ s.physKey e.addr + 8 ≤ x → memGet t.mem x = memGet s.mem x) ∧
      (cur &&& m ≠ e.entry &&& m → t.mem = s.mem ∧ e ∉ (t.core sp.core).tlb))

/-- Each of the five events answers a next state in every state, and that state is the one its rule gives.
FAULT_QUEUE_ENTRY_WRITE of a waiting entry writes the 32 bytes of R313 to the slot at fsq.tail of a ring in wafer memory,
advances tail and SEQ and notifies the host, and changes no other byte; with a full ring, or with no such entry, nothing
changes. A retry of an entry that awaits a response resumes its agent: a parked thread is runnable at its instruction and filed,
a bobbin and the commands of a queue are parked no more, a region's line is written back again, and returned accesses are
translated again (R325). A kill raises XLATE_FAULT at a parked thread's instruction, or, where the thread cannot take the trap,
gives a context fault of its grid; it stops a parked bobbin with XLATE_FAULT, and a queue's parked command with the cause of its
queue and XLATE_FAULT as the inner one; a region's line loses its written bytes. An unknown or withdrawn SEQ and actions 2 and 3
are ignored. fsq.head, fsq.base and fsq.resp take their fields; 4-byte writes to halves of 8-byte registers, read-only registers
and other offsets ignore a write (R206, R232, R312 to R315, R329, R334, R346). -/
def Obligations.FaultServiceQueue : Prop :=
  (∀ (s : State) d k e, s.MemOk → (s.dom d).fsqWait[k]? = some e →
    let x := s.dom d
    let slot := x.fsqBase.toNat + 32 * x.fsqTail
    ((x.fsqTail + 1) % 4096 = x.fsqHead → exec (.faultQueueEntryWrite d k) s = .next s) ∧
    ((x.fsqTail + 1) % 4096 ≠ x.fsqHead → x.fsqBase.toNat % 2 ^ 17 = 0 → slot / 2 ^ 52 ≠ 1023 →
      ∃ t, exec (.faultQueueEntryWrite d k) s = .next t ∧
      (t.dom d).fsqTail = (x.fsqTail + 1) % 4096 ∧ (t.dom d).fsqSeq = (x.fsqSeq + 1) % 2 ^ 32 ∧ (t.dom d).fsqWait = x.fsqWait.eraseIdx k ∧
      (t.dom d).fsqOpen = x.fsqOpen ++ (if e.park then [⟨x.fsqSeq, x.fsqTail, e, false⟩] else []) ∧
      t.outbox = s.outbox ++ [.fsq d x.fsqSeq] ∧ (∀ j, j ≠ d → { (t.dom j) with l2 := (s.dom j).l2 } = s.dom j) ∧
      (∀ c, { (t.core c) with l1 := (s.core c).l1 } = s.core c) ∧ t.blocks = s.blocks ∧ t.accs = s.accs ∧
      (∀ a, a < s.physKey slot ∨ s.physKey slot + 32 ≤ a → memGet t.mem a = memGet s.mem a) ∧
      let w := fun j => t.readPhys64 (slot + 8 * j)
      w 3 = e.va ∧ (w 2).extractLsb' 48 16 = e.asid.extractLsb' 0 16 ∧ ((w 2).extractLsb' 32 16).toNat = e.core % 65536 ∧
      ((w 2).extractLsb' 8 8).toNat = e.cause % 256 ∧ ((w 2).extractLsb' 4 4).toNat = e.xkind % 16 ∧
      ((w 2).extractLsb' 2 2).toNat = e.access % 4 ∧ (w 2).getLsbD 1 = e.park ∧ (w 2).getLsbD 0 = false ∧
      ((w 1).extractLsb' 32 32).toNat = x.fsqSeq % 2 ^ 32 ∧ (w 1).extractLsb' 0 32 = e.block ∧ (w 0).extractLsb' 32 32 = e.info ∧
      (w 0).extractLsb' 0 32 = 0 ∧
      ∀ kind num, (kind, num) = (match e.agent with
          | .thread _ tid => ((0 : Nat), tid) | .bobbin _ b => (1, b) | .copyQueue _ b => (2, b) | .matrixQueue _ b => (3, b)
          | .region _ r _ => (4, r) | .channel _ c => (5, c)) →
        ((w 2).extractLsb' 28 4).toNat = kind ∧ ((w 2).extractLsb' 16 12).toNat = num % 4096)) ∧
  (∀ (s : State) d k, (s.dom d).fsqWait[k]? = none → exec (.faultQueueEntryWrite d k) s = .next s) ∧
  (∀ (s : State) d seq,
    ((∀ o ∈ (s.dom d).fsqOpen, o.seq = seq → o.withdrawn = true) →
      exec (.fsqRespRetry d seq) s = .next s ∧ exec (.fsqRespKill d seq) s = .next s) ∧
    (∀ o, (s.dom d).fsqOpen.find? (fun o => o.seq == seq && !o.withdrawn) = some o →
      let answered := fun (i : Instr) (P : State → Prop) => ∃ t, exec i s = .next t ∧ (∀ y ∈ (t.dom d).fsqOpen, y.seq ≠ seq) ∧ P t
      let report := fun (t : State) (e : FsqEntry) => let dom := e.core / 512
        (t.dom dom).fsqWait = (s.dom dom).fsqWait ++ [e] ∧ e.park = false ∧ e.va = o.fault.va
      (∀ bid tid x blk, o.fault.agent = .thread bid tid →
        s.thread? bid tid = some x → s.block? bid = some blk → x.status = .parked → blk.halted = false →
        let info := BitVec.ofNat 32 (o.fault.xkind % 16 + o.fault.access % 4 * 16 + o.fault.info.toNat % 8 * 64)
        let regs : TrapRegs := ⟨0x18, o.fault.word, x.ctx.pc, info, o.fault.va, x.ctx.tstate⟩
        answered (.fsqRespRetry d seq) (fun t => (t.thread? bid tid).map (·.status) = some .runnable ∧
          (∀ ag, SameAgent s t ag) ∧ t.Filed bid tid x.ctx.pc ∧ t.mem = s.mem ∧ t.accs.map Access.what = s.accs.map Access.what ∧
          ∀ y ∈ t.accs, y.agent = .thread bid tid → y.again ≠ .faulted) ∧
        (s.TrapsOn bid tid → answered (.fsqRespKill d seq) fun t => ∃ y, t.thread? bid tid = some y ∧ y.trap = regs ∧
          y.ctx.pc = blk.regs.tvec &&& ~~~3 ∧ inhOf y.ctx.tstate = true ∧ y.status = .runnable ∧
          (∀ ag, ag ≠ .thread bid tid → SameAgent s t ag) ∧ t.mem = s.mem) ∧
        (inhOf x.ctx.tstate = true ∨ blk.regs.tvec.getLsbD 0 = false → answered (.fsqRespKill d seq) fun t => ∃ y e,
          t.thread? bid tid = some y ∧ y.trap = regs ∧ e.core = blk.core ∧ report t e ∧ e.agent = .thread bid tid ∧
          e.cause = (if inhOf x.ctx.tstate then 0x3F else 0x18) ∧
          (inhOf x.ctx.tstate = true → e.info = 0x18) ∧ (inhOf x.ctx.tstate = false → e.info = BitVec.ofNat 32 (o.fault.info.toNat % 8)) ∧
          (∀ z ∈ t.blocks, z.gridId = blk.gridId → z.halted = true) ∧
          (∀ g ∈ t.grids, g.id = blk.gridId → g.lists = [] ∧ g.cause ≠ 0) ∧
          (s.platform.streetLog = 0 ∨ (∀ u ∈ s.saved, u.gridId ≠ blk.gridId) → t.mem = s.mem))) ∧
      (∀ core b, b < 4 → o.fault.agent = .bobbin core b →
        let x := s.bobbin core b
        answered (.fsqRespRetry d seq) (fun t => t.bobbin core b = { x with parked := false } ∧ t.mem = s.mem ∧
          (∀ y ∈ t.accs, y.agent = .bobbin core b → y.again ≠ .faulted)) ∧
        (x.parked = true → (∀ y ∈ s.accs, y.agent = .bobbin core b → y.again ≠ .faulted) →
          answered (.fsqRespKill d seq) fun t => let y := t.bobbin core b
            y.status = .finishing ∧ y.cause = 0x18 ∧ y.trapPc = x.ctx.pc ∧ y.trapWord = o.fault.word ∧ y.parked = false ∧
            (∀ ag, ag ≠ .bobbin core b → SameAgent s t ag) ∧ t.mem = s.mem ∧ t.accs = s.accs)) ∧
      (∀ core b matrix, b < 4 → o.fault.agent = (if matrix then .matrixQueue core b else .copyQueue core b) →
        let x := s.bobbin core b
        answered (.fsqRespRetry d seq) (fun t =>
          (t.bobbin core b).queue matrix = (x.queue matrix).map (fun c => { c with parked := false }) ∧
          (t.bobbin core b).queue (!matrix) = x.queue (!matrix) ∧ t.mem = s.mem ∧ t.accs = s.accs) ∧
        (∀ pre c post, x.queue matrix = pre ++ c :: post → (∀ y ∈ pre, y.parked = false ∧ y.id ≠ c.id) → c.parked = true →
          x.status = .running → (∀ y ∈ c :: post, y.phs = []) →
          answered (.fsqRespKill d seq) fun t => ∃ e, e.core = core ∧ report t e ∧
            e.agent = (if matrix then .matrixQueue core b else .copyQueue core b) ∧ e.cause = (if matrix then 0x32 else 0x31) ∧
            e.info = BitVec.ofNat 32 (0x18 + if matrix then c.tile * 256 else 0) ∧
            (t.bobbin core b).queue matrix = pre ∧ (t.bobbin core b).queue (!matrix) = x.queue (!matrix) ∧
            (t.bobbin core b).stopCause = some (if matrix then 0x32 else 0x31) ∧ t.mem = s.mem ∧ t.accs = s.accs)) ∧
      (∀ bid r idx blk g, o.fault.agent = .region bid r idx → s.block? bid = some blk → blk.region r = some g → r < 8 →
        answered (.fsqRespRetry d seq) (fun t => ∃ k, t.block? bid = some k ∧
          k.region r = some { g with lines := g.lines.map fun l => if l.idx = idx then { l with faulted := false } else l } ∧
          t.mem = s.mem) ∧
        answered (.fsqRespKill d seq) (fun t => ∃ k, t.block? bid = some k ∧
          k.region r = some { g with lines := g.lines.filter (fun l => l.idx != idx), lost := true } ∧ t.mem = s.mem)))) ∧
  (∀ (s : State) d v, exec (.fsqHeadWrite d v) s = .next (s.updDom d fun x => { x with fsqHead := v % 4096 }) ∧
    exec (.mmioRegisterWrite d 0 8 v) s = .next (s.updDom d fun x => { x with fsqBase := BitVec.ofNat 64 (v / 2 ^ 17 * 2 ^ 17) }) ∧
    exec (.mmioRegisterWrite d 12 4 v) s = .next (s.updDom d fun x => { x with fsqHead := v % 4096 }) ∧
    (∀ off ∈ [0, 4, 8, 16, 20], exec (.mmioRegisterWrite d off 4 v) s = .next s) ∧
    (∀ off w, 0x18 ≤ off → exec (.mmioRegisterWrite d off w v) s = .next s) ∧
    (v % 4 = 0 → exec (.mmioRegisterWrite d 16 8 v) s = exec (.fsqRespRetry d (v / 2 ^ 32 % 2 ^ 32)) s) ∧
    (v % 4 = 1 → exec (.mmioRegisterWrite d 16 8 v) s = exec (.fsqRespKill d (v / 2 ^ 32 % 2 ^ 32)) s) ∧
    (2 ≤ v % 4 → exec (.mmioRegisterWrite d 16 8 v) s = .next s)) ∧
  (∀ (s : State) d seq k off w v, ∃ t1 t2 t3 t4 t5, exec (.faultQueueEntryWrite d k) s = .next t1 ∧
    exec (.fsqRespRetry d seq) s = .next t2 ∧ exec (.fsqRespKill d seq) s = .next t3 ∧ exec (.fsqHeadWrite d v) s = .next t4 ∧
    exec (.mmioRegisterWrite d off w v) s = .next t5)

/-- For a ready agent alone in its step and every scope 0 to 4: LD.ACQ.B32 of an accepted, unpoisoned wafer address that nothing
holds, with no access of the agent outstanding and no store of its block that it may see, has its four bytes of memory bound
when the thread goes on; ST.REL.B32, and FENCE.REL and FENCE.AR once a release may complete (R118, R325, R398), leave
outstanding, of the earlier accesses that the scope covers, none, or at blk only stores that the block already sees; FENCE.ACQ
leaves no covered load or atomic outstanding, performing them at its own step, as the model deduces (logs 33 and 155). A fence
that something holds changes nothing and waits. A scope of 5 to 7 raises ILLEGAL with reason 5 (R175, R272, R275, R276). -/
def Obligations.AcquireReleaseFence : Prop :=
  ∀ (s : State) (d a : BitVec 6) (e n : BitVec 3) (ag : Agent), s.issue.agents = [ag] → a.toNat % 2 = 0 →
    (s.accs.map (·.id)).Nodup →
    let asrc := [vSrc a 5 .int64, vSrc (a + 1) 5 .int64]
    let va := (s.readReg ag (.v (a + 1))).val ++ (s.readReg ag (.v a)).val
    let left := fun (sc : Scope) (x : Access) => sc = .blk ∧ x.isStore = true ∧ x.seen.isSome = true
    (∀ u loc home l, s.Ready .thread asrc [.v d] ag → e.toNat ≤ 4 → (s.collect 2).admitted ag .read va 4 = (some (loc, home, l), u) →
      home = .wafer → u.requestHeld (u.coreOf ag) loc 4 = false → u.locPoisoned loc 4 = false → u.outstanding ag = [] →
      u.seenStores (u.bidOf ag) = [] → loc.isWindow = false →
      (∀ x ∈ u.accs, x.id < u.nextId ∧ (u.locsMeet x.loc x.width loc 4 = true → u.mayShow (u.bidOf ag) x = false)) →
      (∀ p ∈ (s.ctx ag).pend, ∀ i ∈ p.accessIds, i < u.nextId) → u.mmioAt loc = none →
      ∃ t id aid, exec (.ldAcqB32 d a e n) s = .next t ∧ t.accs = u.accs ∧ t.mem = u.mem ∧
        (t.ctx ag).pend = (s.ctx ag).pend ++ [⟨id, [.v d], .access [(aid, some (u.readLoc loc 4))] (.words .raw), t.issue.now, none⟩] ∧
        (∀ r, t.readReg ag r = s.readReg ag r) ∧ (t.ctx ag).pc = (s.ctx ag).pc + 4 ∧ ∀ x, x ≠ ag → SameAgent s t x) ∧
    (∀ u loc home l sc, s.Ready .thread (asrc ++ [vSrc d 3 .any]) [] ag → scopeOf e = some sc →
      (s.collect 3).releaseReady ag sc = true → (s.collect 3).admitted ag .write va 4 = (some (loc, home, l), u) →
      ∃ t old new, exec (.stRelB32 d a e n) s = .next t ∧ t.accs = old ++ [new] ∧
        new.what = (ag, loc, 4, .store ((List.range 4).map fun j => (s.readReg ag (.v d)).val.extractLsb' (8 * j) 8)) ∧
        (∀ x ∈ old, x.agent = ag → coveredAt sc x = true → left sc x) ∧
        (t.present ag → (t.ctx ag).ready = t.issue.now + 1 + n.toNat)) ∧
    (∀ sc, s.Ready .both [] [] ag → scopeOf e = some sc →
      let rel := (s.collect 0).releaseReady ag sc
      let acq := (s.collect 0).forceable (acquires ag sc)
      let goes := fun (i : Instr) (stays : Access → Prop) => ∃ t, exec i s = .next t ∧
        (t.present ag → (t.ctx ag).ready = t.issue.now + 1 + n.toNat) ∧
        ∀ x ∈ t.accs, x.agent = ag → coveredAt sc x = true → stays x
      let waits := fun i : Instr => ∃ t, exec i s = .next t ∧ SameBody s t ∧ ∀ x, SameAgent s t x
      (rel = true → goes (.fenceRel e n) (left sc)) ∧ (rel = false → waits (.fenceRel e n)) ∧
      (acq = true → goes (.fenceAcq e n) fun x => x.isStore = true) ∧ (acq = false → waits (.fenceAcq e n)) ∧
      (rel = true → acq = true → goes (.fenceAr e n) (left sc)) ∧ (rel = false ∨ acq = false → waits (.fenceAr e n))) ∧
    (∀ bid tid, ag = .thread bid tid → s.TrapsOn bid tid → 4 < e.toNat → s.Ready .thread (asrc ++ [vSrc d 3 .any]) [.v d] ag →
      ∀ i ∈ [Instr.ldAcqB32 d a e n, .stRelB32 d a e n, .fenceAcq e n, .fenceRel e n, .fenceAr e n],
        ∃ t, exec i s = .next t ∧ EntersHandler s t bid tid .illegal 5 0)

/-- For a ready thread alone in its step in a state with no poisoned granule and no store that its block alone sees, every CACHE
sub-op goes on at the next word with no register changed, whatever the address, and waits, no agent changed, while a frozen
frame or a clock change holds its translation back (R325, R398); where the address translates to a line of wafer DRAM, evl1
removes it from the L1 of the own core, wbl2 leaves it clean in its home L2 where it was there, evl2 removes it from its home L2
and from every L1; no byte of memory differs from what the translation left (R181). -/
def Obligations.CacheOperations : Prop :=
  ∀ (s : State) (a : BitVec 6) (n : BitVec 3) bid tid, a.toNat % 2 = 0 →
    let ag := Agent.thread bid tid
    let va := (s.readReg ag (.v (a + 1))).val ++ (s.readReg ag (.v a)).val
    s.issue.agents = [ag] → s.Ready .thread [vSrc a 5 .int64, vSrc (a + 1) 5 .int64] [] ag → s.platform.poison = [] →
    s.seenStores bid = [] →
    let u := ((s.collect 2).lineFor ag va).2
    let found := ((s.collect 2).lineFor ag va).1
    let done := fun (i : Instr) (P : State → Prop) => ∃ t, exec i s = .next t ∧ t.mem = u.mem ∧ t.accs = u.accs ∧
      (found = .waits → (∀ x, SameAgent s t x) ∧ ∀ k, (t.core k).l1 = (s.core k).l1 ∧ (t.dom k).l2 = (s.dom k).l2) ∧
      (found ≠ .waits → GoesOn s t ag n [] ∧ P t)
    done (.cacheEvl1 a n) (fun t => (∀ line d loc, found = .line line d loc → line ∉ (t.core (s.coreOf ag)).l1) ∧
      (found = .none → (t.core (s.coreOf ag)).l1 = (s.core (s.coreOf ag)).l1) ∧ ∀ k, (t.dom k).l2 = (s.dom k).l2) ∧
    done (.cacheWbl2 a n) (fun t => (∀ line d loc, found = .line line d loc →
        (line, true) ∉ (t.dom d).l2 ∧ ∀ w, (w, false) ∈ (t.dom d).l2 ↔ ((w, false) ∈ (s.dom d).l2 ∨ (w = line ∧ (w, true) ∈ (s.dom d).l2))) ∧
      ∀ k, (t.core k).l1 = (s.core k).l1) ∧
    done (.cacheEvl2 a n) (fun t => ∀ line d loc, found = .line line d loc →
      (∀ w ∈ (t.dom d).l2, w.1 ≠ line) ∧ ∀ k, line ∉ (t.core k).l1)

/-- For a ready thread alone in its step that holds fewer than 8 return slots and whose location is accepted under R284 (global
form, or scratch form outside every region): every ATOM and RED answers a next state in which the request with its operands (for
a compare-and-swap the compare value first) is outstanding at that location and, for ATOM, the destination register or pair is
pending with the slot of R283 and its tag; registers and other agents are as they were, and nothing is written before the kiosk
performs it. A thread that holds 8 slots waits at its instruction, nothing changed (R282 to R285). When KIOSK_REQUEST comes for
an outstanding atomic on an aligned word of memory that software may write and that R275 lets perform, unpoisoned and with no
store over it seen by its block alone: the word holds Op(old, operand) of R283 (a failed compare leaves it, minima and maxima
signed or unsigned as named, the F32 sum rounded to nearest), no other byte differs, the request is no longer outstanding, and
the slot of a returning atomic has the old bytes, which PENDING_COMPLETE then writes with the tag of R283 (R283, R284, R285). -/
def Obligations.AtomicsAndKiosk : Prop :=
  (
  ∀ (d a b : BitVec 6) (n : BitVec 3), a.toNat % 2 = 0 →
    let asrc := [vSrc a 5 .int64, vSrc (a + 1) 5 .int64]
    let accepts := fun (i : Instr) (w : Nat) (osrc : List Src) (ret : Option (Tag × List Reg)) (work : List VReg → AccessWork) =>
      ∀ (s : State) (ag : Agent), s.issue.agents = [ag] →
        s.Ready .thread (asrc ++ osrc) ((ret.map (·.2)).getD []) ag →
        let vs := s.sources ag (asrc ++ osrc)
        (∀ u loc home via tb, (ret.isSome = true → (s.ctx ag).slots < 8) →
          (s.collect (2 + osrc.length)).admitAtomic ag (valAt vs 1 ++ valAt vs 0) w = (some (loc, home, via, tb), u) →
          (∀ k, tb = some k → k.regionAt (valAt vs 0).toNat = none) →
          ∃ t, exec i s = .next t ∧ Accepted s u t ag n [(loc, w, work (vs.drop 2))] ∧
            (ret = none → (t.ctx ag).pend = (s.ctx ag).pend) ∧
            (∀ tag regs, ret = some (tag, regs) → ∃ id, (t.ctx ag).pend = (s.ctx ag).pend ++
              [⟨id, regs, .access ((t.accs.drop u.accs.length).map fun x => (x.id, none)) (.slot tag), t.issue.now, none⟩])) ∧
        (ret.isSome = true → 8 ≤ (s.ctx ag).slots → ∃ t, exec i s = .next t ∧ OnlyAgents s t ∧ SameAgent s t ag)
    let atomic := fun (i : Instr) (op : AtomOp) (acc : Accept) (tag : Option Tag) =>
      accepts i 4 [vSrc b 1 acc] (tag.map fun t => (t, [.v d])) fun vs => .atomic op (valAt vs 0).toNat 0
    let atomic8 := fun (i : Instr) (op : AtomOp) (acc : Accept) (tag : Option Tag) =>
      accepts i 8 [vSrc b 1 acc, vSrc (b + 1) 1 acc] (tag.map fun t => (t, [.v d, .v (d + 1)]))
        fun vs => .atomic op (valAt vs 1 ++ valAt vs 0).toNat 0
    (atomic (.atomAddI32 d a b n) .addI32 .int32 (some .i32) ∧ atomic (.redAddI32 a b n) .addI32 .int32 none) ∧
    (atomic (.atomMinI32 d a b n) .minI32 .int32 (some .i32) ∧ atomic (.redMinI32 a b n) .minI32 .int32 none) ∧
    (atomic (.atomMaxI32 d a b n) .maxI32 .int32 (some .i32) ∧ atomic (.redMaxI32 a b n) .maxI32 .int32 none) ∧
    (atomic (.atomMinN32 d a b n) .minN32 .int32 (some .n32) ∧ atomic (.redMinN32 a b n) .minN32 .int32 none) ∧
    (atomic (.atomMaxN32 d a b n) .maxN32 .int32 (some .n32) ∧ atomic (.redMaxN32 a b n) .maxN32 .int32 none) ∧
    (atomic (.atomAndB32 d a b n) .andB .any (some .raw) ∧ atomic (.redAndB32 a b n) .andB .any none) ∧
    (atomic (.atomOrB32 d a b n) .orB .any (some .raw) ∧ atomic (.redOrB32 a b n) .orB .any none) ∧
    (atomic (.atomXorB32 d a b n) .xorB .any (some .raw) ∧ atomic (.redXorB32 a b n) .xorB .any none) ∧
    (atomic (.atomXchgB32 d a b n) .xchg .any (some .raw)) ∧
    (atomic (.atomAddF32 d a b n) .addF32 (.exactly .f32) (some .f32) ∧ atomic (.redAddF32 a b n) .addF32 (.exactly .f32) none) ∧
    (b.toNat % 2 = 0 → accepts (.atomCasB32 d a b n) 4 [vSrc b 1 .any, vSrc (b + 1) 1 .any] (some (.raw, [.v d]))
      fun vs => .atomic .cas (valAt vs 1).toNat (valAt vs 0).toNat) ∧
    (b.toNat % 2 = 0 → d.toNat % 2 = 0 →
      atomic8 (.atomAddI64 d a b n) .addI64 .int64 (some .i64) ∧ atomic8 (.redAddI64 a b n) .addI64 .int64 none ∧
      atomic8 (.atomMaxN64 d a b n) .maxN64 .int64 (some .n64) ∧
      atomic8 (.atomXchgB64 d a b n) .xchg .any (some .raw)) ∧
    (b.toNat % 4 = 0 → d.toNat % 2 = 0 →
      accepts (.atomCasB64 d a b n) 8 [vSrc b 1 .any, vSrc (b + 1) 1 .any, vSrc (b + 2) 1 .any, vSrc (b + 3) 1 .any]
        (some (.raw, [.v d, .v (d + 1)]))
        fun vs => .atomic .cas (valAt vs 3 ++ valAt vs 2).toNat (valAt vs 1 ++ valAt vs 0).toNat)) ∧
  (
  ∀ (s : State) (id : Nat) (a : Access) (op : AtomOp) (x cmp pa : Nat), s.MemOk → s.access? id = some a →
    a.work = .atomic op x cmp → a.loc = .phys pa → a.width ∈ [4, 8] → pa % a.width = 0 → s.mayPerform a = true →
    s.locPoisoned a.loc a.width = false → s.NoneSeen id a.loc a.width →
    let old := leNat (s.readPhys pa a.width)
    let i32 := fun v : Nat => (BitVec.ofNat 32 v).toInt
    let new : Nat := match op with
      | .addI32 => (old + x) % 2 ^ (8 * a.width)
      | .addI64 => (old + x) % 2 ^ (8 * a.width)
      | .minI32 => if i32 old ≤ i32 x then old else x
      | .maxI32 => if i32 old ≤ i32 x then x else old
      | .minN32 => min old x
      | .maxN32 => max old x
      | .maxN64 => max old x
      | .andB => old &&& x
      | .orB => old ||| x
      | .xorB => old ^^^ x
      | .xchg => x
      | .cas => if old = cmp then x else old
      | .addF32 => fadd .f32 old x
    ∃ t, exec (.kioskRequest id) s = .next t ∧
      ((∀ i, i < a.width → s.Writable (s.physKey (pa + i))) → x < 2 ^ (8 * a.width) → new < 2 ^ (8 * a.width) → leNat (t.readPhys pa a.width) = new) ∧
      (∀ y, y < s.physKey pa ∨ s.physKey pa + a.width ≤ y → memGet t.mem y = memGet s.mem y) ∧
      t.accs = s.accs.filter (fun y => y.id != id) ∧ (∀ ag, ag ≠ a.agent → SameAgent s t ag) ∧
      (s.present a.agent → (t.ctx a.agent).pend = (s.ctx a.agent).pend.map fun p => p.deliver id (s.readPhys pa a.width)) ∧
      (∀ bid tid g d tag born left, a.agent = .thread bid tid → s.present a.agent → a.width = 4 →
        (s.ctx a.agent).pend.find? (fun p => p.id == g) = some ⟨g, [.v d], .access [(id, none)] (.slot tag), born, left⟩ →
        ∃ w, exec (.pendingComplete a.agent g 0) t = .next w ∧ w.readReg a.agent (.v d) = ⟨BitVec.ofNat 32 old, tag⟩))

/-- For a ready thread alone in its step, register pair aligned, whose name resolves to its own block or to a block of its
quarter, on a core that is not retired (R376), whose release at clu may complete, and whose target has room: MSEND answers a
next state in which exactly one message, the own core name, vb and the pair, is the newest of the target mailbox (on the core
while fewer than 64 are held and the ring is empty, else in the ring and in its 16 bytes of the target window), one more append
is due to be signalled, and the thread goes on. A full mailbox raises MSG_OVERFLOW, a name outside the quarter NAME_INVALID, one
of a retired core NAME_RETIRED, each with the name in trap.info; while the name cache holds the message, nothing of any agent
changes (R287, R289, R376). When MAILBOX_APPEND comes for a block that is not stopped with an append due: one append is
signalled and the phase has advanced by one; where one thread alone is blocked in MRECV and the mailbox, its ring empty, holds a
match, that thread has the oldest match in its group, stands at the next word runnable and filed, and the message is gone; where
no thread is blocked in MRECV nothing else has changed. With none due nothing changes (R288, R290). -/
def Obligations.MessagesSentAndSignalled : Prop :=
  (
  ∀ (s : State) (d a b : BitVec 6) (n : BitVec 3) bid tid own tb, d.toNat % 2 = 0 →
    let ag := Agent.thread bid tid
    let v := fun r : BitVec 6 => (s.readReg ag (.v r)).val
    let name : Word := ((v a).extractLsb' 0 16).zeroExtend 32
    let m : Message := { src := BitVec.ofNat 16 own.core, tag := v b, payload := v (d + 1) ++ v d }
    s.issue.agents = [ag] → s.block? bid = some own →
    s.Ready .thread [vSrc a 0 .int32, vSrc b 1 .any, vSrc d 3 .any, vSrc (d + 1) 3 .any] [] ag →
    let finds := s.resolve own ((v a).extractLsb' 0 16).toNat
    let high := (v a).extractLsb' 16 16
    let c := (s.collect 4).usedName own ((v a).extractLsb' 0 16).toNat
    (s.TrapsOn bid tid →
      (high ≠ 0 ∨ finds = .invalid → ∃ t, exec (.msend d a b n) s = .next t ∧ EntersHandler s t bid tid .nameInvalid name 0) ∧
      (high = 0 → (∃ k, finds = .retired k) → ∃ t, exec (.msend d a b n) s = .next t ∧ EntersHandler s t bid tid .nameRetired name 0)) ∧
    (high = 0 → finds = .held → ∃ t, exec (.msend d a b n) s = .next t ∧ SameBody s t ∧ ∀ x, SameAgent s t x) ∧
    (high = 0 → finds = .found tb → c.releaseReady ag .clu = true →
    (tb.mail.held.length + tb.mail.ring.length < 64 + (tb.regs.mbox.extractLsb' 20 12).toNat →
      let r := c.drainRelease ag .clu
      r.MemOk → ∀ k, r.block? tb.bid = some k →
      ∃ t z, exec (.msend d a b n) s = .next t ∧ t.block? tb.bid = some z ∧ z.mail.due = k.mail.due + 1 ∧
        (k.mail.held.length < 64 → k.mail.ring = [] → z.mail.held = k.mail.held ++ [m] ∧ z.mail.ring = []) ∧
        (¬(k.mail.held.length < 64 ∧ k.mail.ring = []) → z.mail.held = k.mail.held ∧ z.mail.ring = k.mail.ring ++ [m] ∧
          Message.ofNat (leNat (t.readScr k.core (k.scr (k.ringAt k.mail.ring.length)) 16)) = m) ∧
        (t.ctx ag).pc = (r.ctx ag).pc + 4 ∧ (∀ x, x ≠ ag → SameAgent r t x) ∧ t.mem = r.mem ∧ t.accs = r.accs) ∧
    (s.TrapsOn bid tid → 64 + (tb.regs.mbox.extractLsb' 20 12).toNat ≤ tb.mail.held.length + tb.mail.ring.length →
      ∃ t, exec (.msend d a b n) s = .next t ∧ EntersHandler c t bid tid .msgOverflow name 0))) ∧
  (
  ∀ (s : State) bid blk, s.block? bid = some blk → blk.halted = false →
    (blk.mail.due = 0 → exec (.mailboxAppend bid) s = .next s) ∧
    (0 < blk.mail.due → ∃ t z, exec (.mailboxAppend bid) s = .next t ∧ t.block? bid = some z ∧ z.mail.due = blk.mail.due - 1 ∧
      z.mail.phase = blk.mail.phase + 1 ∧ t.mem = s.mem ∧ t.accs = s.accs ∧
      ((∀ j g m k, s.waitOf (.thread bid j) ≠ some (.mrecv g m k)) → z.mail.held = blk.mail.held ∧ ∀ x, SameAgent s t x) ∧
      (∀ tid tag mask d i m, blk.mail.ring = [] → d.toNat % 4 = 0 → s.waitOf (.thread bid tid) = some (.mrecv tag mask d) →
        (∀ j g x k, j ≠ tid → s.waitOf (.thread bid j) ≠ some (.mrecv g x k)) →
        blk.mail.held[i]? = some m → (m.tag ^^^ tag) &&& mask = 0 →
        (∀ j x, j < i → blk.mail.held[j]? = some x → (x.tag ^^^ tag) &&& mask ≠ 0) →
        let ag := Agent.thread bid tid
        t.readReg ag (.v d) = ⟨m.payload.extractLsb' 0 32, .raw⟩ ∧ t.readReg ag (.v (d + 1)) = ⟨m.payload.extractLsb' 32 32, .raw⟩ ∧
        t.readReg ag (.v (d + 2)) = ⟨m.tag, .n32⟩ ∧ t.readReg ag (.v (d + 3)) = ⟨m.src.zeroExtend 32, .n32⟩ ∧
        (t.ctx ag).pc = (s.ctx ag).pc + 4 ∧ (t.thread? bid tid).map (·.status) = some .runnable ∧
        z.mail.held = (blk.mail.held.eraseIdx i).take 64)))

/-- For a ready thread alone in its step: with a matching message, MRECV and MPROBE answer a next state in which the group of
four is pending with payload, tag and sender of the oldest match, and MRECV has removed exactly it, the others keeping their
order, the first 64 on the core and the rest in the ring; without one MRECV blocks and MPROBE gives zeros and 0xFFFF_FFFF;
MCANCEL removes every match and gives their number. Messages are those the mailbox holds as R287 lets them be read (R287, R288,
R290, R291). -/
def Obligations.MessagesReceived : Prop :=
  ∀ (s u : State) (d a b : BitVec 6) (n : BitVec 3) bid tid own ms,
    let ag := Agent.thread bid tid
    let tag := (s.readReg ag (.v a)).val
    let mask := (s.readReg ag (.v b)).val
    let hit := fun m : Message => (m.tag ^^^ tag) &&& mask = 0
    let holds := fun (t : State) (xs : List Message) => ∀ z, t.block? bid = some z →
      z.mail.held = xs.take 64 ∧ (own.regs.mbox.extractLsb' 20 12 ≠ 0 → z.mail.ring = xs.drop 64)
    s.issue.agents = [ag] → s.block? bid = some own → s.Ready .thread [vSrc a 0 .any, vSrc b 1 .any] ((vGroup d 4).map .v) ag →
    (s.collect 2).messages own = (ms, u) →
    let goes := fun (t : State) (regs : List Reg) (vals : List VReg) => ∃ id, GoesOn s t ag n [⟨id, regs, .value vals, t.issue.now, none⟩]
    (∀ i m, ms[i]? = some m → hit m → (∀ j x, j < i → ms[j]? = some x → ¬ hit x) → d.toNat % 4 = 0 →
      let vals : List VReg := [⟨m.payload.extractLsb' 0 32, .raw⟩, ⟨m.payload.extractLsb' 32 32, .raw⟩, ⟨m.tag, .n32⟩,
        ⟨m.src.zeroExtend 32, .n32⟩]
      (∃ t, exec (.mrecv d a b n) s = .next t ∧ goes t [.v d, .v (d + 1), .v (d + 2), .v (d + 3)] vals ∧ holds t (ms.eraseIdx i) ∧
        t.mem = s.mem ∧ t.accs = s.accs) ∧
      (∃ t, exec (.mprobe d a b n) s = .next t ∧ goes t [.v d, .v (d + 1), .v (d + 2), .v (d + 3)] vals ∧ OnlyAgents s t)) ∧
    ((∀ m ∈ ms, ¬ hit m) → d.toNat % 4 = 0 →
      (∃ t, exec (.mrecv d a b n) s = .next t ∧ (t.thread? bid tid).map (·.status) = some (.blocked (.mrecv tag mask d)) ∧
        (t.ctx ag).pc = (s.ctx ag).pc ∧ (∀ r, t.readReg ag r = s.readReg ag r) ∧ ∀ x, x ≠ ag → SameAgent s t x) ∧
      (∃ t, exec (.mprobe d a b n) s = .next t ∧ OnlyAgents s t ∧
        goes t [.v d, .v (d + 1), .v (d + 2), .v (d + 3)] [⟨0, .n32⟩, ⟨0, .n32⟩, ⟨0, .n32⟩, ⟨0xFFFFFFFF, .n32⟩])) ∧
    (∃ t, exec (.mcancel d a b n) s = .next t ∧
      goes t [.v d] [⟨BitVec.ofNat 32 (ms.filter fun m => decide (hit m)).length, .n32⟩] ∧
      ((∃ m ∈ ms, hit m) → holds t (ms.filter fun m => decide (¬ hit m))) ∧ t.mem = s.mem ∧ t.accs = s.accs) ∧
    (own.mail.ring = [] → ms = own.mail.held ∧ u = s.collect 2)

/-- A reference at an aligned window offset of the own block (Q = 0), or of the block of the quarter that the name resolves to
(Q = 1, R376), inside that window, with zero high bits and, where it must, the phaser bit set, gives that block and absolute
offset and changes nothing but the use of the name in the name cache; otherwise the thread raises, in this order, MISALIGNED,
NAME_INVALID, NAME_RETIRED, SCRATCH_BOUNDS, PHASER_INVALID with reason 1, then reason 2: PHEXP enters the handler with it
(R255); while the name cache holds the arrival nothing of any agent changes. For a ready agent alone in its step whose reference
is accepted, with no load of its own outstanding on the granule (R417): PHINIT (outside every region, nothing outstanding on the
granule) sets the phaser bit and every field as R259 gives, PHINIT.FORCE also with commands outstanding, and PHINIT then raises
PHASER_BUSY; PHREG counts the registrations, gives the token of R260 and enters a signaller in the signal list, or raises
PHASER_INVALID with reason 3 at the limit; PHEXP adds to the expected bytes and then makes the check of R256; no byte outside
the granule changes (R256, R259, R260, R263, R268). -/
def Obligations.PhaserReferenceAndRegistration : Prop :=
  (
  ∀ (s : State) (d a b : BitVec 4) (q : BitVec 1) (n : BitVec 3) bid tid own, (q = 0 → b = 0) →
    let ag := Agent.thread bid tid
    let ref := (s.readReg ag (.s a)).val
    let nm := (s.readReg ag (.s b)).val
    let off := (ref.extractLsb' 0 20).toNat
    let info : Word := if q = 1 then (nm.extractLsb' 0 16).zeroExtend 32 else 0
    let opts : Option Word := if q = 1 then some nm else none
    let finds := s.resolve own (nm.extractLsb' 0 16).toNat
    let w := if q = 1 then s.usedName own (nm.extractLsb' 0 16).toNat else s
    let named := nm.extractLsb' 16 16 = 0 ∧ own.regs.qsize ≠ 0
    let trapsIn := fun (v : State) (c : Cause) (i : Word) (x : DWord) => s.TrapsOn bid tid →
      ∃ t, exec (.phexp d a b q n) s = .next t ∧ EntersHandler v t bid tid c i x
    let traps := trapsIn w
    s.issue.agents = [ag] → s.block? bid = some own →
    s.Ready .both ([sSrc a] ++ (if q = 1 then [sSrc b] else []) ++ [sSrc d]) [] ag →
    (off % 32 ≠ 0 → trapsIn s .misaligned 0 (BitVec.ofNat 64 off)) ∧
    (off % 32 = 0 →
      (q = 1 → ¬ named ∨ finds = .invalid → trapsIn s .nameInvalid info 0) ∧
      (q = 1 → named → (∃ k, finds = .retired k) → trapsIn s .nameRetired info 0) ∧
      (q = 1 → named → finds = .held → ∃ t, exec (.phexp d a b q n) s = .next t ∧ SameBody s t ∧ ∀ x, SameAgent s t x) ∧
      (∀ tb, (q = 0 ∧ tb = own) ∨ (q = 1 ∧ named ∧ finds = .found tb) →
        (tb.regs.scratchSize.toNat < off + 32 → traps .scratchBounds info (BitVec.ofNat 64 off)) ∧
        (off + 32 ≤ tb.regs.scratchSize.toNat →
          (ref.extractLsb' 20 12 ≠ 0 → traps .phaserInvalid 1 0) ∧
          (ref.extractLsb' 20 12 = 0 →
            (s.phaserBit tb.core (tb.scr off / 32) = false → traps .phaserInvalid 2 0) ∧
            (s.phaserBit tb.core (tb.scr off / 32) = true → ∀ need, s.phaserRef ag ref opts need = (some (tb, tb.scr off), w)) ∧
            s.phaserRef ag ref opts false = (some (tb, tb.scr off), w)))))) ∧
  (
  ∀ (s u : State) (d a b : BitVec 4) (q : BitVec 1) (n : BitVec 3) (ag : Agent) tb abs, (q = 0 → b = 0) → s.MemOk →
    let v := fun r : BitVec 4 => (s.readReg ag (.s r)).val
    let opts : Option Word := if q = 1 then some (v b) else none
    let names : List Src := if q = 1 then [sSrc b] else []
    let p := s.phaser tb.core abs
    let quiet := ∀ x ∈ s.accs, x.agent = ag → s.locsMeet x.loc x.width (.scratch tb.core abs) 32 = false
    let outside := fun t : State => t.mem = s.mem ∧ t.accs = s.accs ∧ (∀ k, k ≠ tb.core → (t.core k).scratch = (s.core k).scratch) ∧
      ∀ x, x < abs ∨ abs + 32 ≤ x → memGet (t.core tb.core).scratch x = memGet (s.core tb.core).scratch x
    let check := fun p : Phaser => if (0 < p.nsig ∨ 0 < p.expb) ∧ p.narr = p.nsig ∧ p.expb ≤ p.land
      then { p with land := p.land - p.expb, expb := 0, narr := 0, phase := (p.phase + 1) % 2 ^ 32 } else p
    let token := fun (g : Nat) (w : BitVec 1) (x : Nat) => BitVec.ofNat 8 g ++ w ++ BitVec.ofNat 23 x
    s.issue.agents = [ag] → (s.blockOf ag).isSome = true →
    (s.Ready .both [sSrc a] [] ag → s.phaserRef ag (v a) none false = (some (tb, abs), s) →
      tb.regionAt (abs - tb.regs.scratchBase.toNat) = none →
      (s.accs.all fun x => !s.locsMeet x.loc x.width (.scratch tb.core abs) 32) = true →
      let bit := s.phaserBit tb.core (abs / 32)
      ∀ f : Bool, let i := if f then Instr.phinitForce a n else .phinit a n
      (f = true ∨ bit = false ∨ p.nout = 0 →
        ∃ t, exec i s = .next t ∧ GoesOn s t ag n [] ∧ outside t ∧ t.phaserBit tb.core (abs / 32) = true ∧
          t.phaser tb.core abs = ⟨0, 0, 0, if bit && f then p.drop else 0, 0, 0, 0, 0, if bit then (p.gen + 1) % 256 else 0,
            if bit then p.nout else 0⟩) ∧
      (f = false → bit = true → p.nout ≠ 0 → ∀ bid tid, ag = .thread bid tid → s.TrapsOn bid tid →
        ∃ t, exec i s = .next t ∧ EntersHandler s t bid tid .phaserBusy 0 0)) ∧
    (s.Ready .both (sSrc a :: names) [.s d] ag → s.phaserRef ag (v a) opts true = (some (tb, abs), u) → quiet →
      ∀ k ∈ [(Instr.phregSig d a b q n, true, false), (.phregWait d a b q n, false, true), (.phregBoth d a b q n, true, true)],
      ((k.2.1 = true → p.nsig < 2 ^ 18 - 1) → (k.2.2 = true → p.nwait < 2 ^ 18 - 1) →
        ∃ t id, exec k.1 s = .next t ∧ outside t ∧
          GoesOn s t ag n [⟨id, [.s d], .value [⟨if k.2.1 then token p.gen 0 p.phase else token p.gen 1 (p.phase + 1), .raw⟩], t.issue.now, none⟩] ∧
          t.phaser tb.core abs = { p with nsig := p.nsig + k.2.1.toNat, nwait := p.nwait + k.2.2.toNat } ∧
          (k.2.1 = true → ∀ own, s.blockOf ag = some own → own.signals = [] → (∀ e ∈ s.street, e.cur = tb.core → e.name = tb.core) →
            ∀ z, t.block? own.bid = some z →
            z.signals = [{ name := tb.core, off := abs - tb.regs.scratchBase.toNat, count := 1 }])) ∧
      ((k.2.1 = true ∧ 2 ^ 18 - 1 ≤ p.nsig) ∨ (k.2.2 = true ∧ 2 ^ 18 - 1 ≤ p.nwait) → ∀ bid tid, ag = .thread bid tid →
        s.TrapsOn bid tid → ∃ t, exec k.1 s = .next t ∧ EntersHandler u t bid tid .phaserInvalid 3 0)) ∧
    (s.Ready .both (sSrc a :: names ++ [sSrc d]) [] ag → s.phaserRef ag (v a) opts true = (some (tb, abs), u) → quiet →
      ∃ t w, exec (.phexp d a b q n) s = .next t ∧ GoesOn s t ag n [] ∧ outside t ∧
        t.phaser tb.core abs = { (check { p with expb := (p.expb + (v d).toNat) % 2 ^ 32 }) with wpri := w }))

/-- For a ready agent alone in its step whose reference is accepted and that has no access outstanding: a current token arrives
(NARR + 1, the check of R256, the next token), a behind one and one of another generation are dropped, an ahead one blocks;
PHDEREG removes a registration with its arrival, or counts a drop; PHWAIT passes a token that is not ahead (a waiter token moves
to the next phase), blocks on one that is, and raises PHASER_STALE for another generation; a waiter token at PHARR, or with the
signaller role at PHDEREG, raises PHASER_INVALID with reason 5. -/
def Obligations.PhaserArrivalAndWait : Prop :=
  ∀ (s u : State) (d a b : BitVec 4) (q : BitVec 1) (role : BitVec 2) (n : BitVec 3) (ag : Agent) tb abs, (q = 0 → b = 0) → s.MemOk →
    s.issue.agents = [ag] → (s.blockOf ag).isSome = true → s.accs = [] →
    let v := fun r : BitVec 4 => (s.readReg ag (.s r)).val
    let opts : Option Word := if q = 1 then some (v b) else none
    let srcs : List Src := sSrc a :: (if q = 1 then [sSrc b] else []) ++ [sSrc d]
    let p := s.phaser tb.core abs
    let tok := v d
    let gen := (tok.extractLsb' 24 8).toNat
    let waiter := tok.getLsbD 23
    let dist := (tok.extractLsb' 0 23 - BitVec.ofNat 23 p.phase).toNat
    let ahead := 1 ≤ dist ∧ dist < 2 ^ 22
    let dropped := { p with drop := min (p.drop + 1) (2 ^ 32 - 1) }
    let check := fun p : Phaser => if (0 < p.nsig ∨ 0 < p.expb) ∧ p.narr = p.nsig ∧ p.expb ≤ p.land
      then { p with land := p.land - p.expb, expb := 0, narr := 0, phase := (p.phase + 1) % 2 ^ 32 } else p
    let token := fun (g : Nat) (w : BitVec 1) (x : Nat) => BitVec.ofNat 8 g ++ w ++ BitVec.ofNat 23 x
    let gives := fun (i : Instr) (more : List VReg) (p' : Phaser) => ∃ t w, exec i s = .next t ∧
      (∃ id, GoesOn s t ag n (if more = [] then [] else [⟨id, [.s d], .value more, t.issue.now, none⟩])) ∧ t.mem = s.mem ∧
      t.phaser tb.core abs = { p' with wpri := w }
    let traps := fun (i : Instr) (c : Cause) (x : Word) => ∀ bid tid, ag = .thread bid tid → s.TrapsOn bid tid →
      ∃ t, exec i s = .next t ∧ EntersHandler u t bid tid c x 0
    let blocks := fun (i : Instr) (arrive : Bool) => ∃ t, exec i s = .next t ∧ (t.ctx ag).pc = (s.ctx ag).pc ∧
      t.waitOf ag = some (.phwait tb.core abs tok d arrive s.issue.word .waiting) ∧ (∀ r, t.readReg ag r = s.readReg ag r) ∧
      (t.phaser tb.core abs).phase = p.phase ∧ (t.phaser tb.core abs).narr = p.narr
    s.phaserRef ag (v a) opts true = (some (tb, abs), u) →
    (s.Ready .both srcs [.s d] ag → let i := Instr.pharr d a b q n
      (waiter = true → traps i .phaserInvalid 5) ∧
      (waiter = false → gen ≠ p.gen → gives i [] dropped) ∧
      (waiter = false → gen = p.gen → ahead → blocks i true) ∧
      (waiter = false → gen = p.gen → 2 ^ 22 ≤ dist → gives i [⟨token p.gen 0 p.phase, .raw⟩] dropped) ∧
      (waiter = false → gen = p.gen → dist = 0 → (s.collect 0).releaseReady ag (if q = 1 then .clu else .blk) = true →
        gives i [⟨token p.gen 0 ((tok.extractLsb' 0 23).toNat + 1), .raw⟩] (check { p with narr := (p.narr + 1) % 2 ^ 18 }))) ∧
    (s.Ready .both srcs [.s d] ag → let i := Instr.phwait d a b q n
      (gen ≠ p.gen → traps i .phaserStale 0) ∧ (gen = p.gen → ahead → blocks i false) ∧
      (gen = p.gen → ¬ahead → waiter = true → gives i [⟨token p.gen 1 (p.phase + 1), .raw⟩] p) ∧
      (gen = p.gen → ¬ahead → waiter = false → gives i [] p)) ∧
    (s.Ready .both srcs [] ag → role ≠ 0 → let i := Instr.phdereg d a b role q n
      let out := fun p : Phaser => if role.getLsbD 1 = true ∧ 0 < p.nwait then { p with nwait := p.nwait - 1 } else p
      let early := (tok.extractLsb' 0 23) = BitVec.ofNat 23 (p.phase + 1)
      (gen ≠ p.gen → gives i [] dropped) ∧
      (gen = p.gen → role.getLsbD 0 = true → waiter = true → traps i .phaserInvalid 5) ∧
      (gen = p.gen → role.getLsbD 0 = false → gives i [] (check (out p))) ∧
      (gen = p.gen → role.getLsbD 0 = true → waiter = false →
        (p.nsig = 0 ∨ 2 ^ 22 ≤ dist → gives i [] (check (out dropped))) ∧
        (p.nsig ≠ 0 → (s.collect 0).releaseReady ag (if q = 1 then .clu else .blk) = true →
          (dist = 0 → gives i [] (check (out { p with nsig := p.nsig - 1 }))) ∧
          (early → gives i [] (check (out { p with nsig := p.nsig - 1, narr := p.narr - 1 })))) ∧
        (p.nsig ≠ 0 → ahead → ¬early → gives i [] (check (out dropped)))))

/-- PHWAIT_COMPLETE of a thread blocked on a phaser: while nothing has woken the wait, nothing changes; once a phase has, a
PHWAIT stands at the next word, runnable, a waiter token moved to the next phase, and an early PHARR is runnable at its own
word; where the phaser lies in another block's window, no store that this block alone has seen is then left (R277, R415); once a
PHINIT has, it raises PHASER_STALE at its word. The completion of a phase by the check of R256 wakes exactly the waits whose
token is then no longer ahead, each with the token formed in that operation (log 136), and PHINIT every wait on its granule.
EFFECTIVE_PRIORITY_UPDATE gives a block without signal list the priority of its grid, any block at most that, and one whose
phasers lie in its own window at most each priority posted there; it changes effective priorities, WPRI of phasers, and nothing
else (R256, R259, R262, R264, R269). -/
def Obligations.PhaserWakesAndPriorities : Prop :=
  (∀ (s : State) bid tid core abs tok sd arrive word wake, let ag := Agent.thread bid tid
    s.waitOf ag = some (.phwait core abs tok sd arrive word wake) →
    (wake = .waiting → exec (.phwaitComplete ag) s = .next s) ∧
    (∀ new tb, wake = .woken new → arrive = false → s.phaserBlock core abs = some tb → tb.bid ≠ bid →
      (∀ x ∈ s.accs, x.seen.isSome = true → s.bidOf x.agent = tb.bid → s.passes x = true) → ∃ t, exec (.phwaitComplete ag) s = .next t ∧
        (t.ctx ag).pc = (s.ctx ag).pc + 4 ∧ ∀ x ∈ t.accs, s.bidOf x.agent = tb.bid → x.seen = none) ∧
    (∀ new, wake = .woken new → (∀ x ∈ s.accs, x.seen = none) → ∃ t, exec (.phwaitComplete ag) s = .next t ∧ (t.thread? bid tid).map (·.status) = some .runnable ∧
      t.mem = s.mem ∧ t.accs = s.accs ∧ (∀ x, x ≠ ag → SameAgent s t x) ∧
      (t.ctx ag).pc = (s.ctx ag).pc + (if arrive then 0 else 4) ∧
      (∀ r, r ≠ .s sd ∨ arrive = true ∨ tok.getLsbD 23 = false → t.readReg ag r = s.readReg ag r) ∧
      (arrive = false → tok.getLsbD 23 = true → t.readReg ag (.s sd) = ⟨new, .raw⟩)) ∧
    (wake = .stale → s.TrapsOn bid tid → ∃ t y, exec (.phwaitComplete ag) s = .next t ∧ t.thread? bid tid = some y ∧
      y.trap.cause = 0x22 ∧ y.trap.pc = (s.ctx ag).pc ∧ y.trap.word = word ∧ inhOf y.ctx.tstate = true)) ∧
  (∀ (s : State) bid tid core abs tok sd arrive word (p : Phaser), let ag := Agent.thread bid tid
    s.waitOf ag = some (.phwait core abs tok sd arrive word .waiting) → (s.blocks.map (·.bid)).Nodup →
    let wait := fun k => some (Wait.phwait core abs tok sd arrive word k)
    let dist := (tok.extractLsb' 0 23 - BitVec.ofNat 23 (p.phase + 1)).toNat
    let ready := (0 < p.nsig ∨ 0 < p.expb) ∧ p.narr = p.nsig ∧ p.expb ≤ p.land
    p.phase < 2 ^ 32 →
    (¬ready ∨ (1 ≤ dist ∧ dist < 2 ^ 22) → (s.checkPhaser core abs p).waitOf ag = wait .waiting) ∧
    (ready → ¬(1 ≤ dist ∧ dist < 2 ^ 22) → (s.checkPhaser core abs p).waitOf ag =
      wait (.woken (BitVec.ofNat 8 p.gen ++ 1#1 ++ BitVec.ofNat 23 (p.phase + 2)))) ∧
    (s.staleWaits core abs).waitOf ag = wait .stale) ∧
  (∀ (s : State) core, (s.blocks.map (·.bid)).Nodup → ∃ t, exec (.effectivePriorityUpdate core) s = .next t ∧
    { t with blocks := s.blocks, cores := s.cores } = s ∧
    (∀ k, { t.core k with scratch := (s.core k).scratch } = s.core k) ∧
    (t.blocks.map fun b => { b with eff := 0 }) = s.blocks.map (fun b => { b with eff := 0 }) ∧
    (∀ b ∈ s.blocks, b.core ≠ core → b ∈ t.blocks) ∧
    (∀ b ∈ t.blocks, b.core = core → b.eff ≤ b.regs.grid ∧ (b.signals = [] → b.eff = b.regs.grid)) ∧
    ((s.blocksOn core).all (fun b => (s.waitsOf b).isEmpty) = true → (∀ k, (t.core k).scratch = (s.core k).scratch) ∧
      ∀ b ∈ t.blocks, b.core = core → ∀ e ∈ b.signals, ∀ k, s.signalled b e = some k →
        ∀ j : Fin 8, bitOf (s.phaser k.core (k.scr e.off)).wpri j.val = true → b.eff ≤ j.val))

/-- FORK of a ready thread alone in its step whose release may complete: with a free bobbin on its core, the lowest one runs at
PC + 4 × SignExtend(imm16) with the s-registers of the thread, sd replaced by the low half of the FORK address, the thread as
leader, empty queues, open guards, no trap status, and sd is pending with its number; with none, sd is pending with 0xFFFF_FFFF.
RDZV of an ended bobbin frees it and gives its s0, or raises BOBBIN_TRAP with its number, cause and trap PC; of a bobbin that
has not ended, it joins it and blocks; of a number above 3, a free, foreign or joined bobbin, it raises ILLEGAL with reason 7.
GRES resolves the unresolved commands of its slot and no others. BOBBIN_END ends a finishing bobbin with nothing left, and a
thread that waits for it goes on with its s0 (R184, R185, R187, R188, R189, R200). -/
def Obligations.BobbinLife : Prop :=
  (∀ (s : State) (d : BitVec 4) (i : BitVec 16) (n : BitVec 3) bid tid blk,
    let ag := Agent.thread bid tid
    s.issue.agents = [ag] → s.block? bid = some blk → s.Ready .thread (sSrcs 0 16) [.s d] ag →
    (s.collect 0).releaseReady ag .blk = true →
    let r := (s.collect 0).drainRelease ag .blk
    let pc := (r.ctx ag).pc
    (r.present ag → (∀ b, b < 4 → (r.bobbin blk.core b).status ≠ .free) → r.block? bid = some blk →
      ∃ t id, exec (.fork d i n) s = .next t ∧ (t.ctx ag).pc = pc + 4 ∧
        (t.ctx ag).pend = (r.ctx ag).pend ++ [⟨id, [.s d], .value [⟨0xFFFFFFFF, .raw⟩], t.issue.now, none⟩] ∧ ∀ x, x ≠ ag → SameAgent r t x) ∧
    (r.present ag → ∀ b, b < 4 → (r.bobbin blk.core b).status = .free → (∀ k, k < b → (r.bobbin blk.core k).status ≠ .free) →
      r.block? bid = some blk → blk.bid = bid →
      ∃ t id, exec (.fork d i n) s = .next t ∧ (t.ctx ag).pc = pc + 4 ∧
        (t.ctx ag).pend = (r.ctx ag).pend ++ [⟨id, [.s d], .value [⟨BitVec.ofNat 32 b, .raw⟩], t.issue.now, none⟩] ∧
        (∀ x, x ≠ ag → x ≠ .bobbin blk.core b → SameAgent r t x) ∧ t.mem = r.mem ∧
        let x := t.bobbin blk.core b
        x.status = .running ∧ x.bid = bid ∧ x.leader = tid ∧ x.ctx.pc = pc + BitVec.ofInt 64 (4 * i.toInt) ∧
        x.endAddr = pc.extractLsb' 0 32 ∧ x.copyQ = [] ∧ x.matrixQ = [] ∧ x.cause = 0 ∧ x.joined = false ∧
        (∀ g : Fin 8, x.guards[g] = .opened) ∧ (t.readReg (.bobbin blk.core b) (.s d)).val = pc.extractLsb' 0 32 ∧
        (∀ k, k ≠ d → (t.readReg (.bobbin blk.core b) (.s k)).val = (s.readReg ag (.s k)).val) ∧
        nreadOf x.ctx.tstate = nreadOf (r.ctx ag).tstate ∧ stallchkOf x.ctx.tstate = stallchkOf (r.ctx ag).tstate)) ∧
  (∀ (s : State) (d a : BitVec 4) (n : BitVec 3) bid tid blk,
    let ag := Agent.thread bid tid
    let b := (s.readReg ag (.s a)).val.toNat
    let x := s.bobbin blk.core b
    s.issue.agents = [ag] → s.block? bid = some blk → s.Ready .thread [sSrc a] [.s d] ag →
    (s.TrapsOn bid tid → 3 < b ∨ x.status = .free ∨ x.bid ≠ bid ∨ x.joined = true →
      ∃ t, exec (.rdzv d a n) s = .next t ∧ EntersHandler s t bid tid .illegal 7 0) ∧
    (b ≤ 3 → x.status ≠ .free → x.bid = bid → x.joined = false →
      (x.status = .ended → x.cause = 0 → ∃ t id, exec (.rdzv d a n) s = .next t ∧ (t.bobbin blk.core b).status = .free ∧
        (t.ctx ag).pend = (s.ctx ag).pend ++ [⟨id, [.s d], .value [⟨x.ctx.readS 0, .raw⟩], t.issue.now, none⟩] ∧ (t.ctx ag).pc = (s.ctx ag).pc + 4 ∧
        (∀ y, y ≠ ag → y ≠ .bobbin blk.core b → SameAgent s t y) ∧ t.mem = s.mem) ∧
      (x.status = .ended → x.cause ≠ 0 → s.TrapsOn bid tid → ∃ t y, exec (.rdzv d a n) s = .next t ∧
        (t.bobbin blk.core b).status = .free ∧ t.thread? bid tid = some y ∧ y.trap.cause = 0x2A ∧ y.trap.pc = (s.ctx ag).pc ∧
        y.trap.word = s.issue.word ∧ y.trap.info = BitVec.ofNat 32 (b + x.cause % 256 * 256) ∧ y.trap.addr = x.trapPc ∧
        inhOf y.ctx.tstate = true) ∧
      (x.status ≠ .ended → ∃ t, exec (.rdzv d a n) s = .next t ∧ (t.bobbin blk.core b).joined = true ∧
        (t.bobbin blk.core b).status = x.status ∧ t.waitOf ag = some (.rdzv b d s.issue.word) ∧ (t.ctx ag).pc = (s.ctx ag).pc ∧
        ∀ y, y ≠ ag → SameAgent s t y))) ∧
  (∀ (s : State) (g n : BitVec 3) core b, b < 4 → s.issue.agents = [.bobbin core b] →
    ∀ p ∈ [(Instr.gresTake g n, true), (.gresDrop g n, false)], ∃ t, exec p.1 s = .next t ∧ GoesOn s t (.bobbin core b) n [] ∧
      let solve := fun c : Command => if c.guard = some g.toNat ∧ c.resolved = none then { c with resolved := some p.2 } else c
      (t.bobbin core b).copyQ = (s.bobbin core b).copyQ.map solve ∧ (t.bobbin core b).matrixQ = (s.bobbin core b).matrixQ.map solve ∧
      t.mem = s.mem ∧ t.accs = s.accs) ∧
  (∀ (s : State) core b blk, b < 4 → let x := s.bobbin core b
    x.status = .finishing → x.copyQ = [] → x.matrixQ = [] → s.accs = [] → x.ctx.pend = [] → s.block? x.bid = some blk →
    blk.core = core → (∃ u ∈ blk.threads, u.status ≠ .exited) →
    ((∀ tid d w, s.waitOf (.thread x.bid tid) ≠ some (.rdzv b d w)) → ∃ t, exec (.bobbinEnd core b) s = .next t ∧
      (t.bobbin core b).status = .ended ∧ (∀ ag, SameAgent s t ag) ∧ t.mem = s.mem) ∧
    (∀ tid d w, s.waitOf (.thread x.bid tid) = some (.rdzv b d w) → x.cause = 0 →
      (∀ k e v, k ≠ tid → s.waitOf (.thread x.bid k) ≠ some (.rdzv b e v)) →
      ∃ t, exec (.bobbinEnd core b) s = .next t ∧ (t.bobbin core b).status = .free ∧
        t.readReg (.thread x.bid tid) (.s d) = ⟨x.ctx.readS 0, .raw⟩ ∧
        (t.thread? x.bid tid).map (·.status) = some .runnable ∧ (t.ctx (.thread x.bid tid)).pc = (s.ctx (.thread x.bid tid)).pc + 4))

/-- For a ready thread alone in its step with no access outstanding: MAP of an invalid region under the conditions of R178
records base, page, pages and wr with every line invalid; each condition that fails raises REGION_INVALID with its reason;
RFLUSH and UNMAP of a valid region with no dirty line go on, RFLUSH with inv making every line invalid and UNMAP ending the
region; of an invalid region they raise REGION_INVALID with reason 1. A line fill for which an access waits makes the line clean
with the 128 bytes of memory in the window; a write-back writes exactly the masked bytes of a dirty line to memory and makes it
clean, where no stores are outstanding that the block has seen on that line (R178, R179, R273). -/
def Obligations.RegionsMapped : Prop :=
  (∀ (s : State) (a b : BitVec 4) (w v : BitVec 1) (r n : BitVec 3) bid tid blk g, a.toNat % 2 = 0 →
    let ag := Agent.thread bid tid
    let base := (s.readReg ag (.s (a + 1))).val ++ (s.readReg ag (.s a)).val
    let sb := (s.readReg ag (.s b)).val
    let page := (sb.extractLsb' 0 8).toNat
    let pages := (sb.extractLsb' 8 8).toNat + 1
    let last := base + BitVec.ofNat 64 (pages * 4096 - 1)
    let traps := fun (i : Instr) (k : Nat) => s.TrapsOn bid tid → ∃ t, exec i s = .next t ∧ EntersHandler s t bid tid .regionInvalid (BitVec.ofNat 32 k) 0
    let region := fun (i : Instr) (g' : Region) => ∃ t z, exec i s = .next t ∧ GoesOn s t ag n [] ∧ t.block? bid = some z ∧
      z.regions.toList[r.toNat]? = some g' ∧ (∀ k, k ≠ r.toNat → z.regions.toList[k]? = blk.regions.toList[k]?) ∧ t.mem = s.mem ∧
      ∀ k, (t.core k).scratch = (s.core k).scratch
    s.issue.agents = [ag] → s.accs = [] → s.block? bid = some blk → blk.regions.toList[r.toNat]? = some g →
    (s.Ready .thread [sSrc a, sSrc (a + 1), sSrc b] [] ag → let i := Instr.map a b w r n
      let c1 := g.valid = false
      let c2 := sb.extractLsb' 16 16 = 0 ∧ (page + pages) * 4096 ≤ blk.regs.scratchSize.toNat
      let c3 := ∀ x ∈ blk.regions.toList, x.valid = true → page + pages ≤ x.page ∨ x.page + x.pages ≤ page
      let c4 := canonical base.toNat = true ∧ base.extractLsb' 0 12 = 0 ∧ canonical last.toNat = true ∧ last.getLsbD 56 = base.getLsbD 56
      let c5 := ∀ p ∈ (s.core blk.core).phasers, 32 * p + 32 ≤ blk.scr (page * 4096) ∨ blk.scr (page * 4096) + pages * 4096 ≤ 32 * p
      (c1 → c2 → c3 → c4 → c5 → region i { valid := true, base := base, page := page, pages := pages, wr := w == 1, lines := [], lost := false, wants := [], hostSeen := [] }) ∧
      (¬c1 → traps i 1) ∧ (c1 → ¬c2 → traps i 2) ∧ (c1 → c2 → ¬c3 → traps i 3) ∧ (c1 → c2 → c3 → ¬c4 → traps i 4) ∧
      (c1 → c2 → c3 → c4 → ¬c5 → traps i 5)) ∧
    (s.Ready .thread [] [] ag →
      (g.valid = false → traps (.unmap r n) 1 ∧ traps (.rflush v r n) 1) ∧
      (g.valid = true → (g.lines.all fun l => l.mask == 0) = true →
        (g.lost = false → region (.rflush v r n) (if v = 1 then { g with lines := [] } else g) ∧
          region (.unmap r n) { g with valid := false, lines := [] }) ∧
        (g.lost = true → s.TrapsOn bid tid → ∀ i ∈ [Instr.unmap r n, .rflush v r n], ∃ t y, exec i s = .next t ∧
          t.thread? bid tid = some y ∧ y.trap.cause = 0x17 ∧ y.trap.info = 6)))) ∧
  (∀ (s u : State) bid r line blk g e, s.MemOk → s.block? bid = some blk → blk.regions.toList[r]? = some g → g.valid = true →
    line < 32 * g.pages → (∃ x ∈ blk.threads, x.status ≠ .exited) →
    let va := (g.base + BitVec.ofNat 64 (128 * line)).toNat
    let off := blk.scr (g.page * 4096 + 128 * line)
    (g.lines.find? (fun l => l.idx == line) = none → g.wants.contains line = true →
      s.translate (blk.space blk.priv) .read true va = (.leaf e, u) →
      (u.homeOf blk.regs.ctxid.toNat (e.loc blk.core va)).isMmio = false → (e.loc blk.core va).isWindow = false →
      u.requestHeld blk.core (e.loc blk.core va) 128 = false → u.locPoisoned (e.loc blk.core va) 128 = false →
      ∃ t z, exec (.regionLineFill bid r line) s = .next t ∧ t.readScr blk.core off 128 = u.readFor bid (e.loc blk.core va) 128 ∧
        t.block? bid = some z ∧ z.regions.toList[r]? = some { g with lines := g.lines ++ [{ idx := line, mask := 0, faulted := false }], wants := g.wants.filter (fun i => i != line) } ∧
        t.mem = u.mem ∧ ∀ ag, SameAgent s t ag) ∧
    (∀ l pa, g.lines.find? (fun l => l.idx == line) = some l → l.mask ≠ 0 → l.faulted = false →
      s.translate (blk.space blk.priv) .write true va = (.leaf e, u) → e.loc blk.core va = .phys pa →
      (u.homeOf blk.regs.ctxid.toNat (.phys pa)).isMmio = false → u.requestHeld blk.core (.phys pa) 128 = false → pa % 128 = 0 →
      (∀ i, i < 128 → u.Writable (u.physKey (pa + i))) → (∀ a ∈ u.accs, u.beforeWriteBack bid none (.phys pa) a = false) →
      (∀ a ∈ u.accs, a.seen.isSome = true → u.locsMeet a.loc a.width (.phys pa) 128 = false) →
      ∃ t z g', exec (.regionWriteBack bid r line) s = .next t ∧ t.block? bid = some z ∧ z.regions.toList[r]? = some g' ∧
        (∀ x ∈ g'.lines, x.idx = line → x.mask = 0) ∧ (∀ ag, SameAgent s t ag) ∧
        (∀ j : Fin 128, memGet t.mem (u.physKey pa + j.val) =
          if l.mask.getLsbD j.val then memGet (u.core blk.core).scratch (off + j.val) else memGet u.mem (u.physKey pa + j.val)) ∧
        ∀ x, x < u.physKey pa ∨ u.physKey pa + 128 ≤ x → memGet t.mem x = memGet u.mem x))

/-- For a ready bobbin alone in its step with a place in its copy queue: cpy.l, cpy.s and cpy.m post their command exactly
when no condition of R194 applies (lengths, FLAGS, locators, ranges in the own window, canonical ranges, names, the credited
phaser); cpy.t2, cpy.t3, cpy.g, cpy.red and cpy.migr do so after reading their entries; the command holds the register words,
the entries and the captured generation of its phaser; otherwise the bobbin stops with COPY_INVALID. A full queue makes the
bobbin wait, a handle of no entry raises TENSOR_INVALID; a posting accesses no memory but entries (R190 to R194, R198, R324). That FLAGS
bits without a use have to be 0 (log 41), cpy.m's sd[31:20] goes unread (43), a range past 2^64 has reason 8 (45), cpy.m's own window
falls under reason 3 (139) and cpy.g's index list is read as it is held (140) are the model's deductions and choices. -/
def Obligations.CopyCommandsPosted : Prop :=
  ∀ (s : State) (d a b : BitVec 4) (x : BitVec 1) (g n : BitVec 3) core k blk, d.toNat % 2 = 0 → a.toNat % 2 = 0 → b.toNat % 4 = 0 →
    (x = 0 → g = 0) → k < 4 →
    let ag := Agent.bobbin core k
    let v := fun r : BitVec 4 => (s.readReg ag (.s r)).val
    let sa := v a
    let sa1 := v (a + 1)
    let sb := v b
    let sb1 := v (b + 1)
    let ph := v (b + 2)
    let fl := v (b + 3)
    let sd := v d
    let sd1 := v (d + 1)
    let ready := fun b1 d1 => s.Ready .bobbin (cpyOp b1 d1 d a b x g n).srcs [] ag ∧ (s.bobbin core k).copyQ.length < 16
    let words := fun (u : State) (b1 d1 : Bool) (ts : List (Option Block)) (c : Command) =>
      { c with dst := (if d1 then sd1 else 0) ++ sd, src := sa1 ++ sa, ctl := #v[sb, if b1 then sb1 else 0, ph, fl],
               phs := (u.creditTargets blk ph fl ts).2.map fun p => (p.1.bid, p.2, (u.phaser p.1.core (p.1.scr p.2)).gen),
               guard := if x = 1 then some g.toNat else none }
    let outcome := fun (i : Instr) (u : State) (b1 d1 : Bool) (ts : List (Option Block)) (c : Command) (good : Prop) =>
      (good → (u.creditTargets blk ph fl ts).1 = [] → ∃ t, exec i s = .next t ∧ Posts s u t core k false n (words u b1 d1 ts c)) ∧
      (¬good ∨ (u.creditTargets blk ph fl ts).1 ≠ [] → ∃ t, exec i s = .next t ∧ BobbinStops u t core k .copyInvalid)
    let flags := fun (dir dsp ssp : Bool) => fl.extractLsb' 16 16 = 0 ∧ fl.getLsbD 8 = false ∧ fl.extractLsb' 0 4 = 0 ∧ (fl.extractLsb' 13 3).toNat ≤ 4 ∧
      fl.extractLsb' 6 2 ≠ 3 ∧ fl.extractLsb' 4 2 ≠ 3 ∧ (dir = false → fl.getLsbD 9 = false) ∧ (dsp = false → fl.extractLsb' 6 2 = 0) ∧
      (ssp = false → fl.extractLsb' 4 2 = 0)
    let range := fun (space : BitVec 2) (lo hi : Word) (from_ to_ : Int) =>
      (space = 0 → let p : Int := ((hi ++ lo).toNat : Int) + from_
        let z : Int := ((hi ++ lo).toNat : Int) + to_ - 1
        0 ≤ p ∧ z < 2 ^ 64 ∧ canonical p.toNat = true ∧ canonical z.toNat = true ∧ p.toNat / 2 ^ 56 % 2 = z.toNat / 2 ^ 56 % 2) ∧
      (space = 1 → lo.extractLsb' 20 12 = 0 ∧ hi = 0 ∧ 0 ≤ (lo.toNat : Int) + from_ ∧ (lo.toNat : Int) + to_ ≤ blk.regs.scratchSize.toNat) ∧
      (space = 2 → lo.extractLsb' 20 12 = 0 ∧ hi.extractLsb' 16 16 = 0 ∧ blk.regs.qsize ≠ 0 ∧
        (s.peer blk (hi.extractLsb' 0 16).toNat).isSome = true)
    let ssp := fl.extractLsb' 4 2
    let dsp := fl.extractLsb' 6 2
    let named := fun (u : State) (k : Nat) => if blk.regs.qsize = 0 then none else u.peer blk k
    let target : List (Option Block) := if dsp = 2 ∨ dsp = 3 then [named s (sd1.extractLsb' 0 16).toNat] else []
    let len : Int := (sb.toNat : Int)
    let c0 := s.collect 0
    s.issue.agents = [ag] → s.blockOf ag = some blk →
    (ready false true → outcome (.cpyL d a b x g n) s false true target (Command.blank .cpyL)
      (sb ≠ 0 ∧ flags false true true ∧ range ssp sa sa1 0 len ∧ range dsp sd sd1 0 len)) ∧
    (ready true true →
      let rowBytes : Int := ((sb.extractLsb' 0 20).toNat : Int)
      let rows : Int := ((sb.extractLsb' 20 12).toNat : Int) + 1
      let far := (rows - 1) * sb1.toInt
      let strided := fun (space : BitVec 2) (lo hi : Word) => range space lo hi (min 0 far) (max 0 far + rowBytes)
      let packed := fun (space : BitVec 2) (lo hi : Word) => range space lo hi 0 (rows * rowBytes)
      outcome (.cpyS d a b x g n) s true true target (Command.blank .cpyS)
        (0 < rowBytes ∧ flags true true true ∧ (fl.getLsbD 9 = false → strided ssp sa sa1 ∧ packed dsp sd sd1) ∧
          (fl.getLsbD 9 = true → packed ssp sa sa1 ∧ strided dsp sd sd1))) ∧
    (ready true false →
      let m := (sb1.extractLsb' 16 16).toNat
      let r := (sb1.extractLsb' 0 16).toNat
      let inside := blk.regs.qsize ≠ 0 ∧ r + m ≤ blk.regs.qsize.toNat
      (inside → outcome (.cpyM d a b x g n) s true false ((List.range m).map fun j => s.rankBlock blk (r + j)) (Command.blank .cpyM)
        (sb ≠ 0 ∧ 1 ≤ m ∧ m ≤ 192 ∧ flags false false true ∧ range ssp sa sa1 0 len ∧
          (r ≤ blk.regs.qrank.toNat → blk.regs.qrank.toNat < r + m →
            (sd.extractLsb' 0 20).toNat + sb.toNat ≤ blk.regs.scratchSize.toNat))) ∧
      (¬inside → ∃ t, exec (.cpyM d a b x g n) s = .next t ∧ BobbinStops s t core k .copyInvalid)) ∧
    (∀ u1 u de se, c0.tensorEntry ag sd.toNat = (some de, u1) → u1.tensorEntry ag sa.toNat = (some se, u) →
      let dt := Tensor.ofNat de
      let st := Tensor.ofNat se
      let w0 := (sb.extractLsb' 0 16).toNat
      let w1 := (sb.extractLsb' 16 16).toNat
      let w2 := (sb1.extractLsb' 0 16).toNat
      let off := (sb1.extractLsb' 0 20).toNat
      let conv := dt.fmt != st.fmt
      let copies := st.fmt = dt.fmt ∨ (8 ≤ st.fmt ∧ st.fmt ≤ 17 ∧ 8 ≤ dt.fmt ∧ dt.fmt ≤ 17)
      let win := fun (lo hi : Word) (p q r : Nat) => (⟨(hi.extractLsb' 0 16).toNat, (hi.extractLsb' 16 16).toNat, (lo.extractLsb' 12 20).toNat, p, q, r⟩ : Window)
      let fitsIn := fun (t : Tensor) (w : Window) (c : Bool) => t.windowReasons w = [] ∧ u.tensorReasons false blk t w c = []
      let peer : List (Option Block) := if dt.space = 2 ∨ dt.space = 3 then [named u (dt.addr / 2 ^ 20 % 2 ^ 16)] else []
      let cmd := fun op => { Command.blank op with dstEntry := de, srcEntry := se }
      (ready false true → outcome (.cpyT2 d a b x g n) u false true peer (cmd .cpyT2)
        (0 < w0 ∧ 0 < w1 ∧ flags false false false ∧ fitsIn st (win sa sa1 w0 w1 1) conv ∧ fitsIn dt (win sd sd1 w0 w1 1) conv ∧ copies)) ∧
      (ready true true →
        outcome (.cpyT3 d a b x g n) u true true peer (cmd .cpyT3)
          (0 < w0 ∧ 0 < w1 ∧ 0 < w2 ∧ sb1.extractLsb' 16 16 = 0 ∧ flags false false false ∧ fitsIn st (win sa sa1 w0 w1 w2) conv ∧
            fitsIn dt (win sd sd1 w0 w1 w2) conv ∧ copies) ∧
        (∀ p ∈ [(Instr.cpyRedAdd d a b x g n, 0), (.cpyRedMin d a b x g n, 1), (.cpyRedMax d a b x g n, 2), (.cpyRedAnd d a b x g n, 3),
                (.cpyRedOr d a b x g n, 4), (.cpyRedXor d a b x g n, 5)],
          outcome p.1 u true true peer (cmd (.cpyRed p.2))
            (0 < w0 ∧ 0 < w1 ∧ 0 < w2 ∧ sb1.extractLsb' 16 16 = 0 ∧ flags false false false ∧ fitsIn st (win sa sa1 w0 w1 w2) conv ∧
              fitsIn dt (win sd sd1 w0 w1 w2) conv ∧ st.fmt = dt.fmt ∧ (dt.fmt < 8 ∨ (dt.fmt = 8 ∧ p.2 < 3)))) ∧
        (let rows := (u.indexList blk off w1).filter fun i => decide (i < st.ext1)
         outcome (.cpyG d a b x g n) u true true peer (cmd .cpyG)
          (0 < w0 ∧ 0 < w1 ∧ sb1.extractLsb' 20 12 = 0 ∧ flags false false false ∧ off % 4 = 0 ∧ off + 4 * w1 ≤ blk.regs.scratchSize.toNat ∧
            st.windowReasons { win sa sa1 w0 1 1 with o1 := 0 } = [] ∧
            (st.fmt ≠ 18 → st.space = 2 ∨ st.space = 3 → (named u (st.addr / 2 ^ 20 % 2 ^ 16)).isSome = true) ∧
            (∀ lo hi, lo ∈ rows → hi ∈ rows → (∀ i ∈ rows, lo ≤ i ∧ i ≤ hi) →
              u.tensorReasons false blk st { win sa sa1 w0 (hi - lo + 1) 1 with o1 := lo } conv = []) ∧
            fitsIn dt (win sd sd1 w0 w1 1) conv ∧ copies)))) ∧
    (ready false true → s.privOf ag = true →
      let page : Nat := 2 ^ (12 + 9 * sb.toNat)
      let leaf := sd1 ++ sd
      let frame := (leaf.extractLsb' 12 50).toNat * 4096
      outcome (.cpyMigr d a b x g n) s false true [] (Command.blank .cpyMigr)
        (sb.toNat ≤ 1 ∧ flags false false false ∧ (sa1 ++ sa).toNat % page = 0 ∧ canonical (sa1 ++ sa).toNat = true ∧
          leaf.getLsbD 0 = true ∧ leaf.getLsbD 8 = true ∧ leaf.getLsbD 11 = false ∧ leaf.extractLsb' 62 2 = 0 ∧ leaf.extractLsb' 1 2 = 0 ∧
          frame % page = 0 ∧ s.migrTarget frame = true)) ∧
    (16 ≤ (s.bobbin core k).copyQ.length → s.Ready .bobbin (cpyOp true true d a b x g n).srcs [] ag →
      ∀ i ∈ [Instr.cpyL d a b x g n, .cpyS d a b x g n, .cpyT2 d a b x g n, .cpyT3 d a b x g n, .cpyG d a b x g n, .cpyM d a b x g n,
        .cpyRedAdd d a b x g n, .cpyRedMin d a b x g n, .cpyRedMax d a b x g n, .cpyRedAnd d a b x g n, .cpyRedOr d a b x g n,
        .cpyRedXor d a b x g n],
        ∃ t, exec i s = .next t ∧ SameBody s t ∧ ∀ y, SameAgent s t y) ∧
    (ready true true → blk.regs.ttCount.toNat ≤ sd.toNat % 4096 → ∀ i ∈ [Instr.cpyT2 d a b x g n, .cpyT3 d a b x g n, .cpyG d a b x g n,
        .cpyRedAdd d a b x g n, .cpyRedMin d a b x g n, .cpyRedMax d a b x g n, .cpyRedAnd d a b x g n, .cpyRedOr d a b x g n,
        .cpyRedXor d a b x g n],
      ∃ t, exec i s = .next t ∧ BobbinStops s t core k .tensorInvalid)

/-- One part of a cpy.l between two places of a window without regions, with nothing of its block outstanding, copies its bytes
and no others, in order, up to the next 8-byte boundary of either side (the size of a part is the model's choice, log 157), and
a command whose last byte has moved is finished. One part of a cpy.l, cpy.s (by DIR, with its stride), cpy.m (each byte to each
rank), cpy.t2, cpy.t3 and cpy.g between entries of one FMT (row by row; zeros for a row of the list that the source does not
have) likewise stores the bytes of its source at its destination, wherever the engine finds the two, global memory and named
windows included; one element of cpy.red stores what its operation makes of the two, and one of a conversion between float
formats the exact value, rounded once. A finished command whose credits have landed leaves its queue, and a dropped one leaves
it untouched by its accesses; a credit that nothing holds adds its bytes to LAND and makes the check of R256, is dropped for
another generation, and stops its command where there is no phaser (the entry's inner cause and address are the model's
deductions, logs 46 and 127); one for a saved block waits; a migration freezes the frame of a leaf of its level, or stops with
MIGR_SIZE; then it copies the frame, swings the leaf keeping A and D, and issues its XINV, or stops with MIGR_RACE; then it
unfreezes the frame (R192, R195 to R202, R204, R206, R256, R266, R325, R326). -/
def Obligations.CopyCommandsRun : Prop :=
  (∀ (s : State) core b id c rest blk, b < 4 → let x := s.bobbin core b
    x.copyQ = c :: rest → c.id = id → (∀ y ∈ rest, y.id ≠ id) →
    (c.guard.isSome = true → c.resolved = some false → c.moved = false → ∀ i ∈ [Instr.copyCommandStart core b id 1, .copyCommandComplete core b id],
      ∃ t, exec i s = .next t ∧ (t.bobbin core b).copyQ = rest ∧ t.mem = s.mem ∧ (c.phs = [] → ∀ k, (t.core k).scratch = (s.core k).scratch) ∧
        ∀ ag, SameAgent s t ag) ∧
    (c.moved = true → (∀ k ∈ s.credits, k.cmd ≠ some id) → ∃ t, exec (.copyCommandComplete core b id) s = .next t ∧ (t.bobbin core b).copyQ = rest ∧
      t.mem = s.mem ∧ (c.phs = [] → ∀ k, (t.core k).scratch = (s.core k).scratch) ∧ ∀ ag, SameAgent s t ag) ∧
    (c.moved = false → c.guard = none → exec (.copyCommandComplete core b id) s = .next s) ∧
    (s.MemOk → x.status = .running → (∀ y ∈ x.copyQ, y.parked = false) → s.blockOf (.bobbin core b) = some blk → blk.halted = false →
      c.op = .cpyL → c.moved = false → c.guard = none → c.phs = [] →
      (∀ a ∈ s.accs, s.bidOf a.agent ≠ blk.bid ∧ a.seen = none ∧ a.cmd ≠ some id) →
      (c.started = true ∨ c.ctl[3].getLsbD 11 = false) → (∀ g ∈ blk.regions.toList, g.valid = false) →
      c.ctl[3].extractLsb' 4 2 = 1 → c.ctl[3].extractLsb' 6 2 = 1 → c.ctl[3].getLsbD 12 = false →
      let total := c.ctl[0].toNat
      let p := c.progress
      let src := (c.src.extractLsb' 0 20).toNat + p
      let dst := (c.dst.extractLsb' 0 20).toNat + p
      let n := min (total - p) (min (8 - src % 8) (8 - dst % 8))
      p < total → src + n ≤ blk.regs.scratchSize.toNat → dst + n ≤ blk.regs.scratchSize.toNat →
      (∀ g ∈ (s.core blk.core).phasers, 32 * g + 32 ≤ blk.scr dst ∨ blk.scr dst + n ≤ 32 * g) →
      ∃ t, exec (.copyCommandStart core b id 1) s = .next t ∧ t.readScr blk.core (blk.scr dst) n = s.readScr blk.core (blk.scr src) n ∧
        (∀ j, j < blk.scr dst ∨ blk.scr dst + n ≤ j → memGet (t.core blk.core).scratch j = memGet (s.core blk.core).scratch j) ∧
        (∀ k, k ≠ blk.core → (t.core k).scratch = (s.core k).scratch) ∧ t.mem = s.mem ∧ t.accs = s.accs ∧ (∀ ag, SameAgent s t ag) ∧
        (t.bobbin core b).copyQ = { c with started := true, progress := p + n, moved := decide (total ≤ p + n), landed := if total ≤ p + n then 0 else c.landed } :: rest)) ∧
  (∀ (s : State) core b c rest blk (src : Option Spot) (dst : Spot) (total left : Nat) l l', s.Moving core b false c rest blk →
    let e : Eng := ⟨core, b, false, c.id⟩
    let p := c.progress
    let (sb, sb1, fl) := (c.ctl[0], c.ctl[1], c.ctl[3])
    let place := fun (space : BitVec 2) (x : DWord) (d : Int) (q : Spot) => space ≠ 3 ∧ q.space = space.toNat ∧ q.addr < 2 ^ 64 ∧
      (q.addr : Int) = ((if space = 0 then x.toNat else (x.extractLsb' 0 20).toNat : Nat) : Int) + d ∧
      q.name = if space = 2 then (x.extractLsb' 32 16).toNat else 0
    let from_ := fun (d : Int) => ∃ q, src = some q ∧ place (fl.extractLsb' 4 2) c.src d q
    let to_ := fun (d : Int) => place (fl.extractLsb' 6 2) c.dst d dst
    let len := (sb.extractLsb' 0 20).toNat
    let row : Int := ((p / len : Nat) : Int) * sb1.toInt + ((p % len : Nat) : Int)
    let lines := c.op = .cpyL ∧ total = sb.toNat ∧ left = total - p ∧ from_ p ∧ to_ p
    let stripe := c.op = .cpyS ∧ total = ((sb.extractLsb' 20 12).toNat + 1) * len ∧ left = len - p % len ∧
      (fl.getLsbD 9 = false → from_ row ∧ to_ p) ∧ (fl.getLsbD 9 = true → from_ p ∧ to_ row)
    let several := c.op = .cpyM ∧ total = sb.toNat * (sb1.extractLsb' 16 16).toNat ∧ left = sb.toNat - p % sb.toNat ∧
      from_ ((p % sb.toNat : Nat) : Int) ∧ ∃ k, s.rankBlock blk ((sb1.extractLsb' 0 16).toNat + c.index.getD (p / sb.toNat) 0) = some k ∧
        dst = ⟨2, k.core, (c.dst.extractLsb' 0 20).toNat + p % sb.toNat⟩
    let (dt, st) := (Tensor.ofNat c.dstEntry, Tensor.ofNat c.srcEntry)
    let (w0, w1) := ((sb.extractLsb' 0 16).toNat, (sb.extractLsb' 16 16).toNat)
    let w2 := if c.op = .cpyT3 then (sb1.extractLsb' 0 16).toNat else 1
    let bytes := w0 * dt.bits / 8
    let point := fun (t : Tensor) (x : DWord) (i1 i2 : Nat) =>
      let at_ := ((x.extractLsb' 12 20).toNat + i2) * t.str2 + i1 * t.str1 + (x.extractLsb' 32 16).toNat * t.bits / 8 + p % bytes
      if t.space = 0 then (⟨0, 0, t.addr + at_⟩ : Spot) else ⟨t.space, if t.space = 2 then t.addr / 2 ^ 20 % 2 ^ 16 else 0, t.addr % 2 ^ 20 + at_⟩
    let line := p / bytes % w1
    let tensor := c.op ∈ [.cpyT2, .cpyT3, .cpyG] ∧ dt.fmt = st.fmt ∧ dt.fmt ≤ 17 ∧ st.space < 3 ∧ dt.space < 3 ∧ total = bytes * w1 * w2 ∧
      left = bytes - p % bytes ∧ dst = point dt c.dst ((c.dst.extractLsb' 48 16).toNat + line) (p / bytes / w1) ∧
      (c.op ≠ .cpyG → src = some (point st c.src ((c.src.extractLsb' 48 16).toNat + line) (p / bytes / w1))) ∧
      (c.op = .cpyG → src = if c.index.getD line 0 < st.ext1 then some (point st c.src (c.index.getD line 0) 0) else none)
    let n := min left (min (8 - dst.addr % 8) (src.elim 8 fun q => 8 - q.addr % 8))
    lines ∨ stripe ∨ several ∨ tensor → p < total → 0 < left → fl.getLsbD 12 = false →
    (∀ q, src = some q → s.engLoc e .read q n = (.ok l, s) ∧ l.isWindow = false) →
    s.engLoc e .write dst n = (.ok l', s) → s.PlainAt l' n →
    ∃ t, exec (.copyCommandStart core b c.id 1) s = .next t ∧
      Stored s t l' (src.elim (List.replicate n 0) fun _ => s.readFor blk.bid l n) ∧
      (t.bobbin core b).copyQ = { c with progress := p + n, moved := decide (total ≤ p + n), landed := if total ≤ p + n then 0 else c.landed } :: rest) ∧
  (∀ (s : State) core b c rest blk l l', s.Moving core b false c rest blk →
    let e : Eng := ⟨core, b, false, c.id⟩
    let p := c.progress
    let (sb, sb1) := (c.ctl[0], c.ctl[1])
    let (dt, st) := (Tensor.ofNat c.dstEntry, Tensor.ofNat c.srcEntry)
    let (w0, w1) := ((sb.extractLsb' 0 16).toNat, (sb.extractLsb' 16 16).toNat)
    let w2 := if c.op = .cpyT2 ∨ c.op = .cpyG then 1 else (sb1.extractLsb' 0 16).toNat
    let point := fun (t : Tensor) (x : DWord) (i1 : Nat) =>
      let at_ := ((x.extractLsb' 12 20).toNat + p / w0 / w1) * t.str2 + i1 * t.str1 + ((x.extractLsb' 32 16).toNat + p % w0) * (t.bits / 8)
      if t.space = 0 then (⟨0, 0, t.addr + at_⟩ : Spot) else ⟨t.space, if t.space = 2 then t.addr / 2 ^ 20 % 2 ^ 16 else 0, t.addr % 2 ^ 20 + at_⟩
    let line := p / w0 % w1
    let dst := point dt c.dst ((c.dst.extractLsb' 48 16).toNat + line)
    let src := point st c.src (if c.op = .cpyG then c.index.getD line 0 else (c.src.extractLsb' 48 16).toNat + line)
    let (n, m) := (dt.bits / 8, st.bits / 8)
    let gives := fun (kind : AccKind) (new : Nat → Nat → Nat) => s.engLoc e .read src m = (.ok l, s) → l.isWindow = false →
      s.engLoc e kind dst n = (.ok l', s) → s.PlainAt l' n → ∃ t, exec (.copyCommandStart core b c.id 1) s = .next t ∧
        Stored s t l' (leBytes n (new (leNat (s.readFor blk.bid l' n)) (leNat (s.readFor blk.bid l m)))) ∧
        (t.bobbin core b).copyQ = { c with progress := p + 1, moved := decide (w0 * w1 * w2 ≤ p + 1),
                                           landed := if w0 * w1 * w2 ≤ p + 1 then 0 else c.landed } :: rest
    p < w0 * w1 * w2 → c.ctl[3].getLsbD 12 = false → dst.addr % n = 0 → src.addr % m = 0 → dt.space < 3 → st.space < 3 →
    (∀ k, c.op = .cpyRed k → dt.fmt = st.fmt →
      let int := fun x : Nat => if dt.fmt < 4 ∧ 2 ^ (dt.bits - 1) ≤ x then (x : Int) - 2 ^ dt.bits else x
      (dt.fmt < 8 → k < 6 → gives .both fun old x => match k with
        | 0 => (old + x) % 2 ^ dt.bits
        | 1 => if int old < int x then old else x
        | 2 => if int old < int x then x else old
        | 3 => old &&& x
        | 4 => old ||| x
        | _ => old ^^^ x) ∧
      (dt.fmt = 8 → k < 3 → gives .both fun old x => match k with
        | 0 => fadd .f32 old x
        | 1 => fminmax false .f32 old x
        | _ => fminmax true .f32 old x)) ∧
    (c.op ∈ [.cpyT2, .cpyT3, .cpyG] → (c.op = .cpyG → c.index.getD line 0 < st.ext1) → dt.fmt ≠ st.fmt →
      ∀ D S, (dt.fmt, D) ∈ [(8, Fmt.f32), (9, .f16), (10, .bf16)] → (st.fmt, S) ∈ [(8, Fmt.f32), (9, .f16), (10, .bf16)] →
      gives .write fun _ x => encodeFloat D .ieee .rn (valueOf S x))) ∧
  (∀ (s : State) (c : Credit), s.MemOk → s.credits.find? (fun k => k.id == c.id) = some c →
    let left := s.credits.filter fun k => k.id != c.id
    let earlier := s.credits.any fun x => x.sender == c.sender && match x.held, c.held with
      | some m, some n => decide (m < n)
      | _, _ => false
    (earlier = true → exec (.phaserCredit c.id) s = .next s) ∧
    (∀ blk, earlier = false → s.block? c.bid = some blk → (s.power (blk.core / 512)).freq ≠ .relocking →
      (c.cmd = none → s.completed blk = false) →
      let abs := blk.scr c.off
      let p := s.phaser blk.core abs
      let q := { p with land := (p.land + c.bytes) % 2 ^ 32 }
      let check := fun p : Phaser => if (0 < p.nsig ∨ 0 < p.expb) ∧ p.narr = p.nsig ∧ p.expb ≤ p.land
        then { p with land := p.land - p.expb, expb := 0, narr := 0, phase := (p.phase + 1) % 2 ^ 32 } else p
      (s.phaserBit blk.core (abs / 32) = true → ∃ t w, exec (.phaserCredit c.id) s = .next t ∧ t.credits = left ∧ t.mem = s.mem ∧
        (∀ ag, SameAgent s t ag) ∧ (∀ j, j < abs ∨ abs + 32 ≤ j → memGet (t.core blk.core).scratch j = memGet (s.core blk.core).scratch j) ∧
        t.phaser blk.core abs = (if p.gen = c.gen then { check q with wpri := w } else { p with drop := min (p.drop + 1) (2 ^ 32 - 1) })) ∧
      (s.phaserBit blk.core (abs / 32) = false →
        (c.cmd = none → exec (.phaserCredit c.id) s = .next { s with credits := left }) ∧
        (∀ k e z, c.cmd = some k → s.engOf k = some e → s.engCommand e = some z →
          (((s.bobbin e.core e.b).queue e.matrix).map (·.id)).Nodup → ∃ t y more, exec (.phaserCredit c.id) s = .next t ∧
          t.credits = left ++ more ∧ (e.matrix = true → more = []) ∧
          (∀ w ∈ more, ∃ x ∈ (s.bobbin e.core e.b).queue e.matrix, w.cmd = some x.id ∧ w.bytes = x.landed) ∧ t.mem = s.mem ∧
          (t.dom (e.core / 512)).fsqWait = (s.dom (e.core / 512)).fsqWait ++ [y] ∧ y.cause = (if e.matrix then 0x32 else 0x31) ∧
          y.info = BitVec.ofNat 32 (0x20 + if e.matrix then z.tile * 256 else 0) ∧
          y.park = false ∧ (t.bobbin e.core e.b).queue e.matrix = ((s.bobbin e.core e.b).queue e.matrix).takeWhile (fun z => z.id != k) ∧
          ((s.bobbin e.core e.b).status = .running → (t.bobbin e.core e.b).stopCause = some y.cause)))) ∧
    (∀ u, earlier = false → s.block? c.bid = none → (s.saved.find? fun u => u.blocks.any fun k => k.bid == c.bid) = some u →
      (u.placed = false → exec (.phaserCredit c.id) s = .next s) ∧
      (u.placed = true → ∃ t, exec (.phaserCredit c.id) s = .next t ∧ t.mem = s.mem ∧ (∀ ag, SameAgent s t ag) ∧
        (t.credits.map fun x => { x with held := none }) = (s.credits.map fun x => { x with held := none }) ∧
        (t.credits.find? (fun k => k.id == c.id)).any (fun x => x.held.isSome) = true)) ∧
    (earlier = false → s.block? c.bid = none → (s.saved.any fun u => u.blocks.any fun k => k.bid == c.bid) = false → c.cmd = none →
      exec (.phaserCredit c.id) s = .next { s with credits := left })) ∧
  (∀ (s : State) core b id c rest blk, b < 4 → let x := s.bobbin core b
    let ag := Agent.bobbin core b
    let level := (c.ctl[0].extractLsb' 0 2).toNat
    let bytes : Nat := 2 ^ (12 + 9 * level)
    let frame := fun l : DWord => (l.extractLsb' 12 50).toNat * 4096
    let m : DWord := 0xFFFFFFFFFFFFFF3F
    let stops := fun (i : Instr) (inner : Word) => ∃ t y, exec i s = .next t ∧ (t.bobbin core b).copyQ = [] ∧ (t.bobbin core b).stopCause = some 0x31 ∧
      (t.dom (core / 512)).fsqWait = (s.dom (core / 512)).fsqWait ++ [y] ∧ y.cause = 0x31 ∧ y.info = inner ∧ y.park = false ∧ y.va = c.src
    s.MemOk → x.copyQ = c :: rest → c.id = id → (∀ y ∈ rest, y.id ≠ id) → c.op = .cpyMigr → c.moved = false → c.guard = none → x.status = .running →
    s.blockOf ag = some blk → blk.halted = false → (∀ y ∈ x.copyQ, y.parked = false) → s.platform.poison = [] → s.accs = [] →
    (c.migr = .waiting → (s.walk (s.spaceOf ag) .read c.src.toNat).2 ≠ .poison → (s.walk (s.spaceOf ag) .read c.src.toNat).2 ≠ .waits →
      s.rangeDram (s.spaceOf ag).root 4096 = true →
      (s.leafAt c.src.toNat 4 (s.spaceOf ag).root = none → stops (.migrStart core b id) 0x18) ∧
      ∀ addr l leaf, s.leafAt c.src.toNat 4 (s.spaceOf ag).root = some (addr, l, leaf) →
        (l ≠ level ∨ leaf.getLsbD 11 = true → stops (.migrStart core b id) 0x3A) ∧
        (l = level → leaf.getLsbD 11 = false → s.rangeStored (s.spaceOf ag).ctxid false false (frame leaf) bytes = true →
          s.rangeStored (s.spaceOf ag).ctxid false false (frame c.dst) bytes = true →
          ∃ t, exec (.migrStart core b id) s = .next t ∧ t.frozen = s.frozen ++ [(frame leaf, bytes, id)] ∧ t.mem = s.mem ∧
            (t.bobbin core b).copyQ = { c with started := true, migr := .frozen, oldLeaf := leaf, leafAt := addr } :: rest)) ∧
    (c.migr = .frozen → c.leafAt % 8 = 0 → ((List.range bytes).map fun i => s.physKey (frame c.dst + i)).Nodup →
      (∀ i j, i < bytes → j < 8 → s.physKey (frame c.dst + i) ≠ s.physKey (c.leafAt + j)) →
      (∀ i j, i < bytes → j < bytes → s.physKey (frame c.dst + i) ≠ s.physKey (frame c.oldLeaf + j)) →
      (∀ i, i < bytes → s.Writable (s.physKey (frame c.dst + i))) → (∀ j, j < 8 → s.Writable (s.physKey (c.leafAt + j))) →
      let cur := s.readPhys64 c.leafAt
      (cur &&& m ≠ c.oldLeaf &&& m → stops (.migrDrainDone core b id) 0x3B) ∧
      (cur &&& m = c.oldLeaf &&& m → ∃ t k, exec (.migrDrainDone core b id) s = .next t ∧ t.frozen = s.frozen ∧
        (∀ i, i < bytes → memGet t.mem (s.physKey (frame c.dst + i)) = memGet s.mem (s.physKey (frame c.oldLeaf + i))) ∧
        t.readPhys64 c.leafAt = c.dst ||| (cur &&& 0xC0) ∧
        (∀ y, (∀ i, i < bytes → y ≠ s.physKey (frame c.dst + i)) → (∀ j, j < 8 → y ≠ s.physKey (c.leafAt + j)) → memGet t.mem y = memGet s.mem y) ∧
        t.xinvs = s.xinvs ++ [⟨k, ag, .page c.src (s.spaceOf ag).asid, .waf, []⟩] ∧ (t.bobbin core b).copyQ = { c with migr := .swung } :: rest)) ∧
    (c.migr = .swung →
      ((∃ y ∈ s.xinvs, y.agent = ag ∧ s.xinvDone y = false) → exec (.migrInvalidateDone core b id) s = .next s) ∧
      ((∀ y ∈ s.xinvs, y.agent = ag → s.xinvDone y = true) → c.phs = [] → c.ctl[3].getLsbD 12 = false →
        ∃ t, exec (.migrInvalidateDone core b id) s = .next t ∧ t.frozen = s.frozen.filter (fun f => f.2.2 != id) ∧ t.mem = s.mem ∧
          t.xinvs = s.xinvs.filter (fun y => y.agent != ag) ∧
          (t.bobbin core b).copyQ = { c with migr := .invalidated, progress := bytes, landed := 0, moved := true } :: rest)))

/-- For a ready bobbin alone in its step with a place in its matrix queue and a tile it holds: MZERO, MMA, MRSUM, MDRAIN, MPLANE
and MZPC post their command with the entries they read, the tile's declared tag and the fidelity field; MZERO declares its tag,
MDRAIN with KEEP 0 declares the tile raw; a tile tag the command does not take raises FORMAT_TAG, a condition of R214
MATRIX_INVALID, a tile field beyond the block's tiles ILLEGAL. MFID sets the field, MSTAT reads a fidelity register, FIDINJ arms
the injection of its core (R208, R211 to R217, R220, R223 to R226, R236, R237, R245, R250). That FLAGS bits without a use have to be
0 (log 41) and a range past 2^64 has reason 8 (log 45) are the model's deductions. -/
def Obligations.MatrixCommandsPosted : Prop :=
  (∀ (s : State) (d a b : BitVec 4) (x : BitVec 1) (g n : BitVec 3) core k blk, a.toNat % 2 = 0 → b.toNat % 4 = 0 →
    (x = 0 → g = 0) → k < 4 → (∀ p ∈ blk.tiles, p < 8) →
    let ag := Agent.bobbin core k
    let v := fun r : BitVec 4 => (s.readReg ag (.s r)).val
    let fid := (s.bobbin core k).fid
    let slot := if x = 1 then some g.toNat else none
    let ready := fun srcs => s.Ready .bobbin srcs [] ag ∧ (s.bobbin core k).matrixQ.length < 8
    let tag := s.declaredTag blk d.toNat
    let pairOk := d.toNat % 2 = 0 ∧ s.declaredTag blk (d.toNat + 1) = .i64
    let takes := fun (i32 f32 i64 : Bool) => (tag = .i32 ∧ i32 = true) ∨ (tag = .f32 ∧ f32 = true) ∨ (tag = .i64 ∧ i64 = true ∧ pairOk)
    let stops := fun (i : Instr) (u : State) (c : Cause) => ∃ t, exec i s = .next t ∧ BobbinStops u t core k c
    let posts := fun (i : Instr) (u : State) (c : Command) (P : State → Prop) => ∃ t, exec i s = .next t ∧
      Posts s u t core k true n { c with guard := slot, fid := fid } ∧ P t
    let any := fun _ : State => True
    let all := sSrcs a 2 ++ sSrcs b 4
    let outcome := fun (i : Instr) (u : State) (c : Command) (good : Prop) => (good → posts i u c any) ∧ (¬good → stops i u .matrixInvalid)
    let flags := fun (fl : Word) => fl.extractLsb' 16 16 = 0 ∧ fl.getLsbD 8 = false ∧ fl.getLsbD 9 = false ∧ fl.extractLsb' 0 8 = 0 ∧
      (fl.extractLsb' 13 3).toNat ≤ 4
    let win := fun (lo hi : Word) (p q r : Nat) => (⟨(hi.extractLsb' 0 16).toNat, (hi.extractLsb' 16 16).toNat, (lo.extractLsb' 12 20).toNat, p, q, r⟩ : Window)
    let phs := fun (u : State) (ts : List (Block × Nat)) => ts.map fun p => (p.1.bid, p.2, (u.phaser p.1.core (p.1.scr p.2)).gen)
    let c0 := s.collect 0
    let mmas := [(Instr.mmaP1x1 d a b x g n, 1, 1), (.mmaP2x1 d a b x g n, 2, 1), (.mmaP2x2 d a b x g n, 2, 2), (.mmaP4x1 d a b x g n, 4, 1),
      (.mmaP4x2 d a b x g n, 4, 2), (.mmaP4x4 d a b x g n, 4, 4), (.mmaP8x1 d a b x g n, 8, 1), (.mmaP8x2 d a b x g n, 8, 2),
      (.mmaP8x4 d a b x g n, 8, 4), (.mmaP8x8 d a b x g n, 8, 8)]
    s.issue.agents = [ag] → s.blockOf ag = some blk →
    (blk.tiles.length ≤ d.toNat ∨ 8 ≤ d.toNat → (∀ m ∈ mmas, stops m.1 s .illegal) ∧
      ∀ i ∈ [Instr.mzero d 0 x g n, .mzero d 1 x g n, .mrsumRow d a x g n, .mrsumCol d a x g n, .mzpc d a b x g n,
        .mdrainI32 d a b x g n, .mdrainF32 d a b x g n], stops i s .illegal) ∧
    (blk.tiles.length ≤ d.toNat + 1 ∨ 8 ≤ d.toNat ∨ d.toNat % 2 = 1 → ∀ i ∈ [Instr.mzero d 2 x g n, .mdrainW48 d a b x g n], stops i s .illegal) ∧
    (∀ kind : BitVec 4, 3 ≤ kind.toNat → stops (.mzero d kind x g n) s .illegal) ∧
    (d.toNat < 8 → d.toNat < blk.tiles.length →
      (ready [] →
        posts (.mzero d 0 x g n) s { Command.blank (.mzero 0) with tile := d.toNat, tag := .i32 } (fun t => t.declaredTag blk d.toNat = .i32) ∧
        posts (.mzero d 1 x g n) s { Command.blank (.mzero 1) with tile := d.toNat, tag := .f32 } (fun t => t.declaredTag blk d.toNat = .f32) ∧
        (d.toNat % 2 = 0 → d.toNat + 1 < blk.tiles.length →
          posts (.mzero d 2 x g n) s { Command.blank (.mzero 2) with tile := d.toNat, tag := .i64 } fun t =>
            t.declaredTag blk d.toNat = .i64 ∧ t.declaredTag blk (d.toNat + 1) = .i64)) ∧
      (ready all →
        (¬takes true true true → ∀ m ∈ mmas, stops m.1 s .formatTag) ∧
        (¬takes true false true → ∀ i ∈ [Instr.mrsumRow d a x g n, .mrsumCol d a x g n, .mzpc d a b x g n], stops i s .formatTag) ∧
        (¬takes true false false → stops (.mdrainI32 d a b x g n) s .formatTag) ∧ (¬takes false true false → stops (.mdrainF32 d a b x g n) s .formatTag) ∧
        (¬takes false false true → d.toNat % 2 = 0 → d.toNat + 1 < blk.tiles.length → stops (.mdrainW48 d a b x g n) s .formatTag) ∧
        (takes true false true →
          posts (.mzpc d a b x g n) s { Command.blank .mzpc with tile := d.toNat, tag := tag, ctl := #v[v a, v b, 0, 0] } any ∧
          ∀ m ∈ [(Instr.mrsumRow d a x g n, false), (.mrsumCol d a x g n, true)],
            outcome m.1 s { Command.blank (.mrsum m.2) with tile := d.toNat, tag := tag, dst := ((v a).extractLsb' 0 20).zeroExtend 64 }
              ((v a).extractLsb' 20 12 = 0 ∧ (v a).toNat % 8 = 0 ∧ (v a).toNat + 256 ≤ blk.regs.scratchSize.toNat)) ∧
        (takes true true true → ∀ u1 u2 u3 u ae be ap bp,
          let sb2 := v (b + 2)
          let sb3 := v (b + 3)
          c0.tensorEntry ag (v a).toNat = (some ae, u1) → u1.tensorEntry ag (v b).toNat = (some be, u2) →
          u2.paramEntry ag (sb3.getLsbD 24) (sb3.extractLsb' 0 12).toNat = (some ap, u3) →
          u3.paramEntry ag (sb3.getLsbD 25) (sb3.extractLsb' 12 12).toNat = (some bp, u) →
          let ta := Tensor.ofNat ae
          let tb := Tensor.ofNat be
          let chunks := (sb2.extractLsb' 0 12).toNat
          let wa := win (v a) (v (a + 1)) (128 * chunks) 32 1
          let wb := win (v b) (v (b + 1)) (128 * chunks) 32 1
          let operand := fun (t : Tensor) (w : Window) (planes : Nat) (param : Option Nat) => t.windowReasons w = [] ∧ w.o0 % 128 = 0 ∧ w.o1 % 32 = 0 ∧
            t.isPlane = true ∧ t.planes = planes ∧ u.tensorReasons true blk t w false = [] ∧ u.exponentReasons blk t w = [] ∧
            ∀ y, param = some y → u.paramReasons blk (Tensor.ofNat y) w = []
          ∀ m ∈ mmas, outcome m.1 u
            { Command.blank (.mma m.2.1 m.2.2) with tile := d.toNat, tag := tag, src := v (a + 1) ++ v a, ctl := #v[v b, v (b + 1), sb2, sb3], srcEntry := ae, bEntry := be, aParam := ap.getD 0, bParam := bp.getD 0 }
            (0 < chunks ∧ sb2.extractLsb' 12 20 = 0 ∧ sb3.extractLsb' 26 6 = 0 ∧ (sb3.getLsbD 24 = false → sb3.extractLsb' 0 12 = 0) ∧
              (sb3.getLsbD 25 = false → sb3.extractLsb' 12 12 = 0) ∧ operand ta wa m.2.1 ap ∧ operand tb wb m.2.2 bp ∧
              (tag ≠ .f32 → ap = none ∧ bp = none ∧ ta.enc ≠ 3 ∧ tb.enc ≠ 3) ∧
              (tag = .f32 → (ap ≠ none → ta.enc = 0) ∧ (bp ≠ none → tb.enc = 0) ∧
                ∀ p q, operandGroup ta (ap.map Tensor.ofNat) = some p → operandGroup tb (bp.map Tensor.ofNat) = some q → p = q))) ∧
        (∀ u de, c0.tensorEntry ag (v a).toNat = (some de, u) →
          let keep := v b
          let fl := v (b + 3)
          let dt := Tensor.ofNat de
          let w := win (v a) (v (a + 1)) 32 32 1
          let cr := u.creditTargets blk (v (b + 2)) fl (if dt.space = 2 ∨ dt.space = 3 then
            [if blk.regs.qsize = 0 then none else u.peer blk (dt.addr / 2 ^ 20 % 2 ^ 16)] else [])
          ∀ m ∈ [(Instr.mdrainI32 d a b x g n, 0, [2, 0, 1, 4, 5, 6, 8, 9, 10], takes true false false),
                 (.mdrainW48 d a b x g n, 1, [3, 2, 8], takes false false true ∧ d.toNat + 1 < blk.tiles.length),
                 (.mdrainF32 d a b x g n, 2, [8, 9, 10, 11, 12, 13, 14, 15, 16, 17], takes false true false)], m.2.2.2 →
            let good := keep.extractLsb' 1 31 = 0 ∧ flags fl ∧ fl.getLsbD 11 = false ∧ dt.windowReasons w = [] ∧ u.tensorReasons true blk dt w true = [] ∧
              dt.space ≠ 0 ∧ dt.fmt ∈ m.2.2.1 ∧ cr.1 = []
            (¬good → stops m.1 u .matrixInvalid) ∧
            (good → posts m.1 u
              { Command.blank (.mdrain m.2.1) with tile := d.toNat, tag := tag, dst := v (a + 1) ++ v a, ctl := #v[keep, 0, v (b + 2), fl], dstEntry := de, phs := phs u cr.2 }
              fun t => t.declaredTag blk d.toNat = if keep.getLsbD 0 then tag else .raw)))) ∧
    (d.toNat % 2 = 0 → ready (all ++ sSrcs d 2) → ∀ u1 u de se, c0.tensorEntry ag (v d).toNat = (some de, u1) → u1.tensorEntry ag (v a).toNat = (some se, u) →
      let dt := Tensor.ofNat de
      let st := Tensor.ofNat se
      let w0 := ((v b).extractLsb' 0 16).toNat
      let w1 := ((v b).extractLsb' 16 16).toNat
      let w2 := ((v (b + 1)).extractLsb' 0 16).toNat
      let fl := v (b + 3)
      let w := win (v d) (v (d + 1)) w0 w1 w2
      let cr := u.creditTargets blk (v (b + 2)) fl []
      ∀ m ∈ [(Instr.mplane d a b x g n, false), (.mplaneT d a b x g n, true)],
        let sw := planeSource m.2 st (win (v a) (v (a + 1)) w0 w1 w2)
        let good := 0 < w0 ∧ 0 < w1 ∧ 0 < w2 ∧ (v (b + 1)).extractLsb' 16 16 = 0 ∧ flags fl ∧ dt.windowReasons w = [] ∧ w.o0 % 128 = 0 ∧ w0 % 128 = 0 ∧
          w.o1 % 32 = 0 ∧ w1 % 32 = 0 ∧ u.tensorReasons true blk dt w false = [] ∧ u.exponentReasons blk dt w = [] ∧ u.tensorReasons true blk st sw true = [] ∧
          dt.isPlane = true ∧ planeFits st dt = true ∧ cr.1 = []
        (¬good → stops m.1 u .matrixInvalid) ∧
        (good → posts m.1 u
          { Command.blank (.mplane m.2) with dst := v (d + 1) ++ v d, src := v (a + 1) ++ v a, ctl := #v[v b, v (b + 1), v (b + 2), fl], dstEntry := de, srcEntry := se, phs := phs u cr.2 } any)) ∧
    (s.Ready .bobbin [sSrc a] [] ag →
      let f := v a
      let ok := f.extractLsb' 9 23 = 0 ∧ (f.getLsbD 8 = true → f.extractLsb' 0 8 = 0) ∧ (f.getLsbD 8 = false → f.extractLsb' 6 2 = 0 ∧ f.extractLsb' 4 2 ≠ 3)
      (ok → ∃ t, exec (.mfid a n) s = .next t ∧ GoesOn s t ag n [] ∧ (t.bobbin core k).fid = (if f.getLsbD 8 then blk.fid else f.extractLsb' 0 8) ∧
        (t.bobbin core k).matrixQ = (s.bobbin core k).matrixQ ∧ t.mem = s.mem ∧ t.accs = s.accs) ∧
      (¬ok → stops (.mfid a n) s .illegal))) ∧
  (∀ (d i : BitVec 4) (n : BitVec 3), i.toNat < 8 → VariableLatency (.mstat d i n) .both [] [.s d] n (some 64) fun s ag _ w =>
    w = .value [⟨s.fidRegister (s.coreOf ag) i.toNat, .raw⟩]) ∧
  (∀ (s : State) (a b : BitVec 4) (n : BitVec 3) ag, s.issue.agents = [ag] → (∀ core k, ag = .bobbin core k → k < 4) → s.privOf ag = true →
    s.Ready .both [sSrc a, sSrc b] [] ag →
    let x := (s.readReg ag (.s a)).val
    let y := (s.readReg ag (.s b)).val
    let ok := x.extractLsb' 18 14 = 0 ∧ y.extractLsb' 22 10 = 0 ∧ y.extractLsb' 13 3 = 0 ∧ y.extractLsb' 5 3 = 0 ∧ y.extractLsb' 20 2 ≠ 3 ∧ y.extractLsb' 16 4 ≠ 0
    (ok → ∃ t, exec (.fidinj a b n) s = .next t ∧ GoesOn s t ag n [] ∧ t.mem = s.mem ∧ t.accs = s.accs ∧
      (t.core (s.coreOf ag)).injection = some ⟨x.toNat, (y.extractLsb' 20 2).toNat, (y.extractLsb' 16 4).toNat, (y.extractLsb' 8 5).toNat, (y.extractLsb' 0 5).toNat⟩ ∧
      ∀ k, k ≠ s.coreOf ag → (t.core k).injection = (s.core k).injection) ∧
    (∀ bid tid, ¬ok → ag = .thread bid tid → s.TrapsOn bid tid → ∃ t, exec (.fidinj a b n) s = .next t ∧ EntersHandler s t bid tid .illegal 7 0))

/-- For the command at the head of the matrix queue of a running bobbin, unguarded, whose tiles no earlier command names and
whose block has nothing outstanding: MZERO clears its tile, or pair, and gives it its tag; MZPC applies R224 to every element of
an i32 tile and clears the sums; a part of MRSUM writes one 8-byte sum; an MMA starts by copying the tile to its shadow and, in
integer mode with split 0, each plane-pair step adds 2^(a+b) times the popcount of the ANDed lines to each sum, the last one
giving the elements of the tile (of a pair: 48 bits, R209); in float mode the last step of a chunk makes the group steps of R223.
A part of MDRAIN writes one element, exact, clamped or rounded as R226 has it; a part of MPLANE writes the codes of R217, or of R218
with the group's exponent, into the bits of R81. Sums that the low rail may have changed stay within the bound of R238; a soft error
of one bit in a low slice, or an injection, is counted, replayed or stops the command as the policy of R242 has it. A finished
command leaves its queue, MDRAIN with KEEP 0 releasing its tile. LOW_RAIL_MOVE moves
the rail to the least request, or 0, and writes nothing but the record of its domain (R209, R215, R221, R222, R224, R225, R228
to R230, R249). -/
def Obligations.MatrixCommandsRun : Prop :=
  (∀ (s : State) core b id c rest blk (p : Nat), b < 4 → let x := s.bobbin core b
    let e : Eng := ⟨core, b, true, id⟩
    let cur := (s.tile core p).cur
    let frame := fun t : State => t.mem = s.mem ∧ t.accs = s.accs ∧ (∀ ag, SameAgent s t ag) ∧ ∀ q, q ≠ p → t.tile core q = s.tile core q
    let still := fun t : State => ∀ k, (t.core k).scratch = (s.core k).scratch
    let queue := fun (t : State) (c' : Command) => (t.bobbin core b).matrixQ = c' :: rest
    let done := fun c : Command => { c with moved := true, landed := 0 }
    x.matrixQ = c :: rest → c.id = id → (∀ y ∈ rest, y.id ≠ id) → x.status = .running → (∀ y ∈ x.matrixQ, y.parked = false) →
    s.blockOf e.agent = some blk → blk.halted = false → c.guard = none → p < 8 → blk.phys c.tile = p → s.MemOk →
    (∀ a ∈ s.accs, s.bidOf a.agent ≠ blk.bid ∧ a.seen = none ∧ a.cmd ≠ some id) →
    (c.moved = false → s.tilesReady e c = true →
      (∀ k, c.op = .mzero k → c.tag ≠ .i64 → ∃ t, exec (.matrixCommandStart core b id 1) s = .next t ∧ frame t ∧ still t ∧ queue t (done c) ∧
        (t.tile core p).cur = ⟨List.replicate 1024 0, c.tag, List.replicate 32 0, List.replicate 32 0, 0⟩) ∧
      (∀ k q, c.op = .mzero k → c.tag = .i64 → blk.phys (c.tile + 1) = q → q < 8 → ∃ t, exec (.matrixCommandStart core b id 1) s = .next t ∧ still t ∧
        t.mem = s.mem ∧ queue t (done c) ∧ ∀ z ∈ [p, q], (t.tile core z).cur = ⟨List.replicate 1024 0, .i64, List.replicate 32 0, List.replicate 32 0, 0⟩) ∧
      (c.op = .mzpc → c.tag = .i32 → cur.elems.length = 1024 → ∃ t, exec (.matrixCommandStart core b id 1) s = .next t ∧ frame t ∧ still t ∧ queue t (done c) ∧
        (t.tile core p).shadow = cur ∧ (t.tile core p).cur.rs = List.replicate 32 0 ∧ (t.tile core p).cur.cs = List.replicate 32 0 ∧
        (t.tile core p).cur.kd = 0 ∧ (t.tile core p).cur.elems.length = 1024 ∧
        ∀ i j : Fin 32, (t.tile core p).cur.elems.getD (32 * i.val + j.val) 0 = BitVec.ofInt 32
          (((cur.elems.getD (32 * i.val + j.val) 0).toNat : Int) + c.ctl[0].toNat * c.ctl[1].toNat * cur.kd.toNat -
            c.ctl[1].toNat * (cur.rs.getD i.val 0).toNat - c.ctl[0].toNat * (cur.cs.getD j.val 0).toNat)) ∧
      (∀ col, c.op = .mrsum col → c.started = true → c.progress < 31 → c.phs = [] → c.ctl[3] = 0 → (∀ g ∈ blk.regions.toList, g.valid = false) →
        let off := c.dst.toNat + 8 * c.progress
        off + 8 ≤ blk.regs.scratchSize.toNat → (∀ g ∈ (s.core blk.core).phasers, 32 * g + 32 ≤ blk.scr off ∨ blk.scr off + 8 ≤ 32 * g) →
        ∃ t, exec (.matrixCommandStart core b id 1) s = .next t ∧ frame t ∧ t.tile core p = s.tile core p ∧ queue t { c with progress := c.progress + 1 } ∧
          t.readScr blk.core (blk.scr off) 8 = leBytes 8 ((if col then cur.cs else cur.rs).getD c.progress 0).toNat ∧
          ∀ j, j < blk.scr off ∨ blk.scr off + 8 ≤ j → memGet (t.core blk.core).scratch j = memGet (s.core blk.core).scratch j) ∧
      (∀ P Q, c.op = .mma P Q → c.tag = .i32 → let m := c.mmaShape P Q
        (c.started = false → ∃ t, exec (.matrixCommandStart core b id 1) s = .next t ∧ frame t ∧ still t ∧ (t.tile core p).shadow = cur ∧
          (t.tile core p).cur = cur ∧ ∃ c', queue t c' ∧ c'.started = true ∧ c'.progress = 0 ∧ c'.sums = cur.elems.map (·.toNat) ∧
            c'.exact = c'.sums ∧ c'.op = c.op ∧ c'.fid = c.fid) ∧
        (c.started = true → c.grouped = 0 → c.progress < c.ctl[2].toNat % 4096 * P * Q → (s.core core).injection = none → c.fid.extractLsb' 0 2 = 0 →
          c.sums.length = 1024 → c.exact.length = 1024 → ∀ as bs,
          let pa := c.progress / Q % P
          let pb := c.progress % Q
          s.planeLines e m.a m.aw (c.progress / (P * Q)) pa (List.range 32) = (.ok as, s) →
          s.planeLines e m.b m.bw (c.progress / (P * Q)) pb (List.range 32) = (.ok bs, s) → as.length = 32 → bs.length = 32 →
          let sum := fun (i j : Nat) => (c.sums.getD (32 * i + j) 0 + 2 ^ (pa + pb) *
            ((List.range 128).filter fun k => (as.getD i 0).testBit k && (bs.getD j 0).testBit k).length) % 2 ^ 32
          ∃ t c', exec (.planePairStep core b id 0) s = .next t ∧ frame t ∧ still t ∧ queue t c' ∧ c'.progress = c.progress + 1 ∧
            (∀ i j : Fin 32, c'.sums.getD (32 * i.val + j.val) 0 = sum i.val j.val) ∧
            (c'.progress < c.ctl[2].toNat % 4096 * P * Q → c'.moved = false ∧ (t.tile core p).cur.elems = cur.elems) ∧
            (c'.progress = c.ctl[2].toNat % 4096 * P * Q → c'.moved = true ∧ (c.low = false →
              ∀ i j : Fin 32, (t.tile core p).cur.elems.getD (32 * i.val + j.val) 0 = BitVec.ofNat 32 (sum i.val j.val)))))) ∧
    (c.moved = true → c.phs = [] → (∀ k ∈ s.credits, k.cmd ≠ some id) → ∃ t, exec (.matrixCommandComplete core b id) s = .next t ∧ still t ∧
      (t.bobbin core b).matrixQ = rest ∧ t.mem = s.mem ∧ (∀ ag, SameAgent s t ag) ∧
      ((∀ f, c.op = .mdrain f → c.ctl[0].getLsbD 0 = true) → ∀ q, t.tile core q = s.tile core q) ∧
      (∀ f, c.op = .mdrain f → c.ctl[0].getLsbD 0 = false → c.tag ≠ .i64 → (t.tile core p).cur.tag = .raw ∧
        (t.tile core p).cur.elems = cur.elems ∧ ∀ q, q ≠ p → t.tile core q = s.tile core q)) ∧
    (c.moved = false → exec (.matrixCommandComplete core b id) s = .next s)) ∧
  (∀ (s : State) core b c rest blk f l', s.Moving core b true c rest blk → s.tilesReady ⟨core, b, true, c.id⟩ c = true →
    c.op = .mdrain f → c.progress < 1024 → c.ctl[3].getLsbD 12 = false →
    let i := c.progress
    let dt := Tensor.ofNat c.dstEntry
    let n := dt.bits / 8
    let dst : Spot := ⟨dt.space, if dt.space = 2 then dt.addr / 2 ^ 20 % 2 ^ 16 else 0, dt.addr % 2 ^ 20 +
      ((c.dst.extractLsb' 12 20).toNat * dt.str2 + ((c.dst.extractLsb' 48 16).toNat + i / 32) * dt.str1 +
        ((c.dst.extractLsb' 32 16).toNat + i % 32) * n)⟩
    let tile := fun k => (s.tile core (blk.phys k)).cur.elems
    let lo := (tile c.tile).getD i 0
    let v : Int := if f = 1 then (((tile (c.tile + 1)).getD i 0).extractLsb' 0 16 ++ lo).toInt else lo.toInt
    let gives := fun x : Nat => ∃ t, exec (.matrixCommandStart core b c.id 1) s = .next t ∧ Stored s t l' (leBytes n x) ∧
      (t.bobbin core b).matrixQ = { c with progress := i + 1, moved := decide (1024 ≤ i + 1), landed := if 1024 ≤ i + 1 then 0 else c.landed } :: rest
    dt.space = 1 ∨ dt.space = 2 → (tile c.tile).length = 1024 → (f = 1 → (tile (c.tile + 1)).length = 1024) →
    c.tag = (if f = 0 then .i32 else if f = 1 then .i64 else .f32) →
    dst.addr % n = 0 → s.engLoc ⟨core, b, true, c.id⟩ .write dst n = (.ok l', s) → s.PlainAt l' n →
    (f < 2 → dt.fmt < 4 → gives ((max (-2 ^ (dt.bits - 1)) (min (2 ^ (dt.bits - 1) - 1) v)) % 2 ^ dt.bits).toNat) ∧
    (f < 2 → 4 ≤ dt.fmt → dt.fmt < 7 → gives (max 0 (min (2 ^ dt.bits - 1) v)).toNat) ∧
    (∀ D, (dt.fmt, D) ∈ [(8, Fmt.f32), (9, .f16), (10, .bf16)] →
      (f < 2 → gives (encodeFloat D .ieee .rn (FVal.ofInt v))) ∧ (f = 2 → gives (encodeFloat D .ieee .rn (valueOf .f32 lo.toNat))))) ∧
  (∀ (s : State) core b c rest blk tr xs, s.Moving core b true c rest blk → c.op = .mplane tr → c.ctl[3].getLsbD 12 = false →
    let i := c.progress
    let (dt, st) := (Tensor.ofNat c.dstEntry, Tensor.ofNat c.srcEntry)
    let (w0, w1) := ((c.ctl[0].extractLsb' 0 16).toNat, (c.ctl[0].extractLsb' 16 16).toNat)
    let total := w0 * w1 * (c.ctl[1].extractLsb' 0 16).toNat
    let (d, l, k) := (i % w0, i / w0 % w1, i / w0 / w1)
    let (i0, i1, i2) := ((c.dst.extractLsb' 32 16).toNat + d, (c.dst.extractLsb' 48 16).toNat + l, (c.dst.extractLsb' 12 20).toNat + k)
    let p := 2 ^ dt.pl
    let h : Int := 2 ^ (p - 1)
    let n := if dt.enc = 3 then 32 * 2 ^ dt.group else 8
    let off := fun (j q : Nat) => dt.addr % 2 ^ 20 + i2 * dt.str2 + i1 / 32 * dt.str1 + (i0 + j) / 128 * dt.cstr + q * dt.pstr +
      16 * (i1 % 32) + (i0 + j) % 128 / 8
    let expAt := dt.saddr % 2 ^ 20 + ((i2 * dt.ext1 + i1) * (dt.ext0 / (32 * 2 ^ dt.group)) + i0 / (32 * 2 ^ dt.group))
    let clamp := fun a z x : Int => max a (min z x)
    let byte := fun (t : State) (x : Nat) => memGet (t.core blk.core).scratch (blk.scr x)
    i < total → i0 % 8 = 0 → dt.space = 1 → (s.core blk.core).phasers = [] →
    (∀ j q, j < n → q < p → off j q < blk.regs.scratchSize.toNat ∧ (dt.enc = 3 → off j q ≠ expAt)) → (dt.enc = 3 → expAt < blk.regs.scratchSize.toNat) →
    (∀ j q j' q', j < n → q < p → j' < n → q' < p → off j q = off j' q' → j / 8 = j' / 8 ∧ q = q') →
    s.planeValues ⟨core, b, true, c.id⟩ c tr d l k n = (.ok xs, s) →
    ∃ t, exec (.matrixCommandStart core b c.id 1) s = .next t ∧ t.mem = s.mem ∧ t.accs = s.accs ∧ (∀ ag, SameAgent s t ag) ∧
      (t.bobbin core b).matrixQ = { c with progress := i + n, moved := decide (total ≤ i + n), landed := if total ≤ i + n then 0 else c.landed } :: rest ∧
      (dt.enc < 3 → ∀ j q u, j < n → q < p →
        ((xs[j]? = some none ∧ u = if dt.enc = 0 then 0 else if dt.enc = 1 then h.toNat else dt.zp) ∨
          ∃ x, ∃ y : Int, xs[j]? = some (some x) ∧ x.real = some (y : ℚ) ∧ y.natAbs ≤ 2 ^ 63 ∧ (u : Int) =
            if st.fmt = 16 ∨ st.fmt = 17 then y else if dt.enc = 0 then clamp 0 (2 ^ p - 1) y
            else if dt.enc = 1 then clamp (-h) (h - 1) y + h else clamp 0 (2 ^ p - 1) (y + dt.zp)) →
        (byte t (off j q)).getLsbD (j % 8) = u.testBit q) ∧
      (dt.enc = 3 → ∀ ex : Int,
        (((∀ x y, some x ∈ xs → x.real = some y → y = 0) ∧ ex = 0) ∨ ∃ top : Int,
          (∃ x y, some x ∈ xs ∧ x.real = some y ∧ (2 : ℚ) ^ top ≤ |y|) ∧ (∀ x y, some x ∈ xs → x.real = some y → |y| < (2 : ℚ) ^ (top + 1)) ∧
          ex = clamp (-128) 127 (top - p + 2)) →
        byte t expAt = BitVec.ofInt 8 ex ∧
        ∀ j q, ∀ y : Int, j < n → q < p → y.natAbs ≤ 2 ^ 63 →
          ((xs[j]? = some none ∧ y = 0) ∨ (xs[j]? = some (some .nan) ∧ y = 0) ∨ (∃ neg, xs[j]? = some (some (.inf neg)) ∧ y = if neg then -h else h) ∨
            ∃ x z, xs[j]? = some (some x) ∧ x.real = some z ∧ IntRounds .rn (z / 2 ^ ex) y) →
          (byte t (off j q)).getLsbD (j % 8) = (clamp (-h) (h - 1) y + h).toNat.testBit q)) ∧
  (∀ (s : State) core b c rest blk P Q as bs, s.Moving core b true c rest blk → c.op = .mma P Q → c.grouped = 0 →
    let e : Eng := ⟨core, b, true, c.id⟩
    let m := c.mmaShape P Q
    let steps := (c.ctl[2].extractLsb' 0 12).toNat * P * Q
    let (ch, a, k) := (c.progress / (P * Q), c.progress / Q % P, c.progress % Q)
    let (p, q) := (blk.phys c.tile, blk.phys (c.tile + 1))
    let old := (s.tile core p).cur.elems
    let split := (c.fid.extractLsb' 0 2).toNat
    c.progress < steps → p < 8 → old.length = 1024 → split = 0 ∨ (s.dom (core / 512)).rail = 0 →
    s.planeLines e m.a m.aw ch a (List.range 32) = (.ok as, s) → s.planeLines e m.b m.bw ch k (List.range 32) = (.ok bs, s) →
    as.length = 32 → bs.length = 32 → c.sums.length = 1024 * m.segs → c.exact.length = 1024 * m.segs →
    let more := fun (i j g : Nat) => 2 ^ (a + k) *
      ((List.range m.seg).filter fun x => (as.getD i 0).testBit (m.seg * g + x) && (bs.getD j 0).testBit (m.seg * g + x)).length
    (c.tag = .i64 → c.inject = false → q < 8 → q ≠ p →
      let sum := fun (i j : Nat) => (c.sums.getD (32 * i + j) 0 + more i j 0) % 2 ^ 48
      ∃ t c', exec (.planePairStep core b c.id 0) s = .next t ∧ (t.bobbin core b).matrixQ = c' :: rest ∧ c'.progress = c.progress + 1 ∧
        (∀ i j : Fin 32, c'.sums.getD (32 * i.val + j.val) 0 = sum i.val j.val) ∧ (c'.moved = true ↔ c'.progress = steps) ∧
        (c'.progress = steps → c.low = false → ∀ i j : Fin 32,
          (t.tile core p).cur.elems.getD (32 * i.val + j.val) 0 = BitVec.ofNat 32 (sum i.val j.val) ∧
          (t.tile core q).cur.elems.getD (32 * i.val + j.val) 0 = (BitVec.ofNat 16 (sum i.val j.val / 2 ^ 32)).signExtend 32)) ∧
    (c.tag = .i32 → c.inject = false → c.low = true → c.progress + 1 = steps →
      ∃ t, exec (.planePairStep core b c.id 0) s = .next t ∧ ∀ i j : Fin 32, ∃ d low : Int, d.natAbs ≤ steps ∧ 0 ≤ low ∧ low < 2 ^ (4 * split) ∧
        let exact : Nat := (c.exact.getD (32 * i.val + j.val) 0 + more i j 0) % 2 ^ 32
        (t.tile core p).cur.elems.getD (32 * i.val + j.val) 0 =
          BitVec.ofInt 32 ((((exact / 2 ^ (4 * split) : Nat) : Int) + d) * 2 ^ (4 * split) + low)) ∧
    (c.tag = .f32 → c.inject = false → c.low = false → (c.progress + 1) % (P * Q) = 0 → 0 < m.segs → m.seg * m.segs = 128 →
      ∀ (pa pb : Nat → List (Nat × FVal)) (ua ub : Nat → List Nat),
      (∀ g, g < m.segs → (s.lineParams e m.a m.aw m.ap (128 * ch + m.seg * g) (List.range 32) = (.ok (pa g), s) ∧
        s.lineParams e m.b m.bw m.bp (128 * ch + m.seg * g) (List.range 32) = (.ok (pb g), s)) ∧ (pa g).length = 32 ∧ (pb g).length = 32 ∧
        s.codeSums e m m.a m.aw ch g (List.range P) = (.ok (ua g), s) ∧ s.codeSums e m m.b m.bw ch g (List.range Q) = (.ok (ub g), s)) →
      let one : Nat × FVal := (0, FVal.ofInt 1)
      let step := fun (i j : Nat) (v : Word) (g : Nat) =>
        let ((za, sa), (zb, sb)) := ((pa g).getD i one, (pb g).getD j one)
        let x : Int := ((c.sums.getD ((32 * i + j) * m.segs + g) 0 + more i j g : Nat) : Int) - (zb * (ua g).getD i 0 : Nat) - (za * (ub g).getD j 0 : Nat) +
          (m.seg * za * zb : Nat)
        BitVec.ofNat 32 (roundF .f32 .rn ((valueOf .f32 v.toNat).add ((sa.mul sb).mul (FVal.ofInt x))))
      ∃ t c', exec (.planePairStep core b c.id 0) s = .next t ∧ (t.bobbin core b).matrixQ = c' :: rest ∧ c'.progress = c.progress + 1 ∧
        c'.grouped = 0 ∧ c'.sums = List.replicate (1024 * m.segs) 0 ∧ (c'.moved = true ↔ c'.progress = steps) ∧
        ∀ i j : Fin 32, (t.tile core p).cur.elems.getD (32 * i.val + j.val) 0 =
          (List.range m.segs).foldl (step i.val j.val) (old.getD (32 * i.val + j.val) 0)) ∧
    (c.tag = .i32 → ∀ row col bit, row < 32 → col < 32 → bit < 12 → c.progress + 1 < steps →
      let counts := fun (t : State) (ks : List Nat) => ∀ z, z < 7 → (t.core core).fidCounts.toList.getD z 0 =
        let w := (s.core core).fidCounts.toList.getD z 0
        if z ∈ ks ∧ w ≠ 0xFFFFFFFF then w + 1 else w
      let slice := 1 + bit / 4
      let soft := row + 32 * col + 2 ^ (13 + bit)
      let policy := (c.fid.extractLsb' 4 2).toNat
      let stops := fun (inner : Nat) (ks : List Nat) => ∃ t y, exec (.planePairStep core b c.id soft) s = .next t ∧ (t.bobbin core b).matrixQ = [] ∧
        (t.bobbin core b).stopCause = some 0x32 ∧ (t.dom (core / 512)).fsqWait = (s.dom (core / 512)).fsqWait ++ [y] ∧ y.cause = 0x32 ∧
        y.info = BitVec.ofNat 32 (inner + c.tile * 256) ∧ (t.tile core p).cur = (s.tile core p).shadow ∧ counts t ks
      (c.inject = false → policy = 0 → ∃ t c', exec (.planePairStep core b c.id soft) s = .next t ∧ (t.bobbin core b).matrixQ = c' :: rest ∧
        c'.progress = c.progress + 1 ∧ c'.moved = false ∧ t.tile core p = { s.tile core p with cur := (t.tile core p).cur } ∧ counts t [0, slice]) ∧
      (c.inject = false → policy = 1 → c.replay = false → ∃ t c', exec (.planePairStep core b c.id soft) s = .next t ∧
        (t.bobbin core b).matrixQ = c' :: rest ∧ c'.progress = 0 ∧ c'.replay = true ∧ c'.moved = false ∧
        (t.tile core p).cur = (s.tile core p).shadow ∧ c'.sums = (s.tile core p).shadow.elems.map (·.toNat) ∧ counts t [0, slice, 4]) ∧
      (c.inject = false → policy = 1 → c.replay = true → stops 0x39 [0, slice]) ∧ (c.inject = false → policy = 2 → stops 0x38 [0, slice, 5]) ∧
      (∀ z, c.inject = true → c.replay = false → (s.core core).injection = some z → z.step = c.progress → z.row = row → z.col = col →
        z.slice = bit / 4 → z.mask = 2 ^ (bit % 4) → policy = 0 → ∃ t c', exec (.planePairStep core b c.id 0) s = .next t ∧
          (t.bobbin core b).matrixQ = c' :: rest ∧ c'.progress = c.progress + 1 ∧ c'.inject = false ∧ (t.core core).injection = none ∧
          counts t [0, slice, 6]))) ∧
  (∀ (s : State) d, s.platform.powered = false → exec (.lowRailMove d) s = .next s) ∧
  (∀ (s : State) d, s.MemOk → s.platform.powered = true → ∃ t, exec (.lowRailMove d) s = .next t ∧
    (s.platform.areaAt = 0 → (∀ k, k ≠ d → t.dom k = s.dom k ∧ t.power k = s.power k) ∧ { t with doms := s.doms, powers := s.powers } = s) ∧
    t.blocks = s.blocks ∧ t.accs = s.accs ∧ (∀ ag, SameAgent s t ag) ∧ (∀ k, (t.core k).scratch = (s.core k).scratch) ∧
    (∀ k, k ≠ d → (t.dom k).rail = (s.dom k).rail) ∧
    (∀ x, (∀ i, i < 64 → x ≠ s.physKey (s.recordAt d + i)) → memGet t.mem x = memGet s.mem x) ∧
    (s.fidRequests d = [] → (t.dom d).rail = 0) ∧ (s.fidRequests d ≠ [] → (t.dom d).rail ∈ s.fidRequests d) ∧
    ∀ r ∈ s.fidRequests d, (t.dom d).rail ≤ r)

/-- For a ready thread alone in its step, each COLL word with a valid operand, binding and channel goes on with its contribution
pending, and raises COLL_INVALID with reason 1, 2 or 3 otherwise. The channel takes a contribution whose way to the root is open into
its oldest round with room for the element, else into a new round, gives the number of the round tagged n32, and reports another op
with COLL_MISMATCH, the round in VA and the channel in INFO (the model's deduction, log 53). A round that has every contribution writes
its 256 result bytes (sums of f32 rounded once, sums and maxima of i32, the root's value) into the bound buffer of every block that took part,
in whichever number, and sends each a credit of 256 bytes, but nothing to a block that has completed. A credit for a saved block
changes the phaser in its image, where it carries the phaser bit. CHANNEL_CONFIGURE and CHANNEL_REMOVE set and remove a channel (a
descriptor with 0 members is refused by the model's choice, log 98; the numbers of the host's messages are the model's, log 90);
NAME_CACHE_FILL caches a key of the block (R257, R292 to R294, R342, R376, R387). -/
def Obligations.CollectiveRounds : Prop :=
  (∀ (s : State) (d a b : BitVec 6) (n : BitVec 3) bid tid blk,
    let ag := Agent.thread bid tid
    let x := (s.readReg ag (.v b)).val
    let k : Fin 4 := (x.extractLsb' 8 2).toFin
    let bind := blk.regs.cbind[k]
    let chan := (bind.extractLsb' 20 12).toNat
    s.issue.agents = [ag] → s.block? bid = some blk →
    ∀ p ∈ [(Instr.collSumF32 d a b n, 0, Accept.exactly .f32), (.collSumI32 d a b n, 1, .int32), (.collMaxI32 d a b n, 2, .int32),
           (.collBcastB32 d a b n, 3, .any)],
      s.Ready .thread [vSrc a 0 p.2.2, vSrc b 1 .int32] [.v d] ag →
      let traps := fun r : Word => s.TrapsOn bid tid → ∃ t, exec p.1 s = .next t ∧ EntersHandler s t bid tid .collInvalid r 0
      let c1 := x.extractLsb' 6 2 = 0 ∧ x.extractLsb' 10 22 = 0
      (¬c1 → traps 1) ∧ (c1 → bind.getLsbD 0 = false → traps 2) ∧ (c1 → bind.getLsbD 0 = true → s.channel? chan = none → traps 3) ∧
      (∀ ch, c1 → bind.getLsbD 0 = true → s.channel? chan = some ch → ∃ t id, exec p.1 s = .next t ∧ t.mem = s.mem ∧ t.channels = s.channels ∧
        GoesOn s t ag n [⟨id, [.v d], .coll ⟨bid, k.val, chan, (x.extractLsb' 0 6).toNat, p.2.1, (s.readReg ag (.v a)).val,
          ch.root == blk.core && ch.rootWafer == s.wafer.id⟩, t.issue.now, none⟩])) ∧
  (∀ (s : State) bid tid id d (c : Contribution) ch blk born left,
    let ag := Agent.thread bid tid
    let count := fun r : Round => (r.contribs.filter fun x => x.elem == c.elem).length
    s.present ag → (s.ctx ag).pend.find? (fun p => p.id == id) = some ⟨id, [.v d], .coll c, born, left⟩ → s.channel? c.chan = some ch →
    s.block? c.bid = some blk → s.contributionHeld (blk.core / 512) id ch = false →
    let gives := fun (num : Nat) (P : State → Channel → Prop) => ∃ t ch', exec (.collContributionAccept ag id) s = .next t ∧
      t.readReg ag (.v d) = ⟨BitVec.ofNat 32 num, .n32⟩ ∧ (∀ r, r ≠ .v d → t.readReg ag r = s.readReg ag r) ∧
      ((t.ctx ag).pend.all fun p => p.id != id) = true ∧ (∀ y, y ≠ ag → SameAgent s t y) ∧ t.mem = s.mem ∧ t.channel? c.chan = some ch' ∧ P t ch'
    ((∀ r ∈ ch.rounds, ch.members ≤ count r) → gives ch.nextRound fun t ch' => ch'.nextRound = (ch.nextRound + 1) % 2 ^ 32 ∧
      ∃ r ∈ ch'.rounds, r.num = ch.nextRound ∧ r.op = c.op ∧ r.contribs = [c]) ∧
    (∀ r, ch.rounds.find? (fun r => decide (count r < ch.members)) = some r → gives r.num fun t ch' =>
      ch'.nextRound = ch.nextRound ∧ (∃ r' ∈ ch'.rounds, r'.num = r.num ∧ r'.op = r.op ∧ r'.contribs = r.contribs ++ [c]) ∧
      (r.op = c.op → t.doms = s.doms) ∧
      (r.op ≠ c.op → ∃ e, (t.dom (blk.core / 512)).fsqWait = (s.dom (blk.core / 512)).fsqWait ++ [e] ∧ e.cause = 0x33 ∧ e.park = false ∧
        e.va = BitVec.ofNat 64 r.num ∧ e.info = BitVec.ofNat 32 c.chan))) ∧
  (∀ (s : State) chan ch r, s.MemOk → s.channel? chan = some ch →
    let all := fun r : Round => ∀ e, e < 64 → (r.contribs.filter fun c => c.elem == e).length = ch.members
    let vals := fun e : Nat => r.contribs.filter fun c => c.elem == e && c.op == r.op
    let off := fun (blk : Block) (z : Nat × Nat × Nat) => 256 * ((blk.regs.cbind.toList.getD z.2.1 0).extractLsb' 8 12).toNat
    ((∀ r ∈ ch.rounds, ¬all r) → exec (.collRoundComplete chan) s = .next s) ∧
    (∀ pre post, ch.rounds = pre ++ r :: post → (∀ z ∈ pre, ¬all z) → all r → (∀ z ∈ r.targets, s.resultHeld ch z = false) →
      (∀ z blk, r.targets = [z] → s.block? z.1 = some blk → s.completed blk = true →
        ∃ t, exec (.collRoundComplete chan) s = .next t ∧ { t with channels := s.channels } = s) ∧
      ((∀ z ∈ r.targets, ∃ blk, s.block? z.1 = some blk ∧ s.completed blk = false) →
        (r.targets.Pairwise fun (z y : Nat × Nat × Nat) => ∀ b d, s.block? z.1 = some b → s.block? y.1 = some d →
          b.core ≠ d.core ∨ b.scr (off b z) + 256 ≤ d.scr (off d y) ∨ d.scr (off d y) + 256 ≤ b.scr (off b z)) →
        ∃ t, exec (.collRoundComplete chan) s = .next t ∧ t.mem = s.mem ∧ (∀ ag, SameAgent s t ag) ∧
        (∃ ch', t.channel? chan = some ch' ∧ ch'.rounds = ch.rounds.filter fun z => z.num != r.num) ∧
        (∃ new, t.credits = s.credits ++ new ∧ new.length = r.targets.length ∧ ∀ (j : Nat) (z : Nat × Nat × Nat) (blk : Block), r.targets[j]? = some z → s.block? z.1 = some blk →
          ∃ id, new[j]? = some ⟨id, none, ch.root, none, z.1, off blk z + 256, 256, z.2.2⟩) ∧
        (∀ k x, (∀ z ∈ r.targets, ∀ blk, s.block? z.1 = some blk → blk.core = k → x < blk.scr (off blk z) ∨ blk.scr (off blk z) + 256 ≤ x) →
          memGet (t.core k).scratch x = memGet (s.core k).scratch x) ∧
        ∀ z ∈ r.targets, ∀ blk, s.block? z.1 = some blk → ∀ e, e < 64 →
          let w := BitVec.ofNat 32 (leNat (t.readScr blk.core (blk.scr (off blk z + 4 * e)) 4))
          (r.op = 0 → (vals e = [] → w = 0) ∧ ∀ c cs, vals e = c :: cs → w = BitVec.ofNat 32
            (roundF .f32 .rn ((cs.map fun y => valueOf .f32 y.value.toNat).foldl FVal.add (valueOf .f32 c.value.toNat)))) ∧
          (r.op = 1 → w = BitVec.ofInt 32 (((vals e).map fun c => c.value.toInt).sum)) ∧
          (r.op = 2 → vals e ≠ [] → (∃ c ∈ vals e, w = c.value) ∧ ∀ c ∈ vals e, c.value.toInt ≤ w.toInt) ∧
          (r.op = 3 → ∀ c, (vals e).find? (·.root) = some c → w = c.value)))) ∧
  (∀ (s : State) (c : Credit) u blk, s.MemOk → s.platform.poison = [] → s.platform.powered = true → s.platform.fatal = false →
    s.creditWaits c = false → s.credits.find? (fun k => k.id == c.id) = some c →
    s.savedBlock c.bid = some (u, blk) →
    let left := s.credits.filter fun k => k.id != c.id
    let at_ := u.scratchAt blk c.off
    let p := Phaser.ofNat (leNat (s.readPhys at_ 32))
    (u.placed = true → exec (.parkedArrival c.id) s = .next s) ∧
    (u.placed = false → s.imagePhaserBit u blk (c.off / 32) = false → c.cmd = none →
      exec (.parkedArrival c.id) s = .next { s with credits := left }) ∧
    (u.placed = false → s.imagePhaserBit u blk (c.off / 32) = true → at_ % 32 = 0 → p.gen = c.gen →
      ¬((0 < p.nsig ∨ 0 < p.expb) ∧ p.narr = p.nsig ∧ p.expb ≤ (p.land + c.bytes) % 2 ^ 32) →
      ∃ t, exec (.parkedArrival c.id) s = .next t ∧ t.credits = left ∧ t.blocks = s.blocks ∧ (∀ ag, SameAgent s t ag) ∧
        (∀ k, (t.core k).scratch = (s.core k).scratch) ∧ Phaser.ofNat (leNat (t.readPhys at_ 32)) = { p with land := (p.land + c.bytes) % 2 ^ 32 } ∧
        ∀ x, x < s.physKey at_ ∨ s.physKey at_ + 32 ≤ x → memGet t.mem x = memGet s.mem x)) ∧
  (∀ (s : State) core bid name blk, s.block? bid = some blk →
    ((blk.core ≠ core ∨ ∀ e ∈ s.street, e.unit = blk.unit → e.name ≠ name) → exec (.nameCacheFill core bid name) s = .next s) ∧
    (∀ e, blk.core = core → s.street.find? (fun e => e.unit == blk.unit && e.name == name) = some e →
      ∃ t, exec (.nameCacheFill core bid name) s = .next t ∧
      (t.core core).names.head? = some { unit := blk.unit, name := name, state := e.state, cur := e.cur } ∧ (t.core core).names.length ≤ 64 ∧ t.mem = s.mem ∧ t.blocks = s.blocks ∧
      (∀ ag, SameAgent s t ag) ∧ ∀ k, (t.core k).scratch = (s.core k).scratch)) ∧
  (∀ (s : State) (x k : Nat), s.platform.powered = true → s.platform.recovery = false →
    (∃ t, exec (.channelRemove k) s = .next t ∧ t.channels = s.channels.filter (fun c => c.num != k) ∧ { t with channels := s.channels } = s) ∧
    (∃ t, exec (.channelConfigure x) s = .next t ∧ { t with channels := s.channels, outbox := s.outbox } = s ∧
      (badChannel x = true → t.channels = s.channels ∧ t.outbox = s.outbox ++ [.status 3 1 0]) ∧
      (badChannel x = false → t.outbox = s.outbox ++ [.status 3 0 0] ∧ ∃ c, t.channel? (x % 4096) = some c ∧ c.members = x / 2 ^ 12 % 2 ^ 23 ∧
        c.root = x / 2 ^ 38 % 2 ^ 16 ∧ c.rounds = [] ∧ c.nextRound = 0 ∧ ∀ y, y ≠ x % 4096 → t.channel? y = s.channel? y)))

/-- QUEUE_CREATE of a taken number or a bad descriptor tells status 4 or 3 and changes nothing else, and a sound one adds an
active queue with empty indices; a fetch fence of an active queue takes the write index; KICK and the hold timer make a held
packet due; RESUME makes a faulted queue active; DESTROY passes the packet at hand, removes a queue without grids that owes no
write, and DESTROY with ABORT aborts its grids, each with a journal entry of kind 5; a taken packet is held, refused with its
status in an entry of kind 2, or passed, as its pattern and the checks of R351 say, and the read index passes it; a dispatcher
that runs places a unit of its first candidate on the cores chosen; a grid whose units have completed leaves with an entry of
kind 4; a journal entry is written to the ring at the tail and the host notified; LOAD and UNLOAD add and remove a kernel (R347
to R351, R356, R357, R360, R362 to R368). That entries wait before they are written, that no ring is written before its address is
set, that an entry of kind 5 has packet number 0 and the numbers of the host's messages are the model's choices (logs 65, 66, 75,
90). -/
def Obligations.FrontEndQueuesAndGrids : Prop :=
  ∀ (s : State) (num : Nat), s.platform.powered = true → s.platform.recovery = false → s.platform.fatal = false →
    let entry := fun (t : State) (kind status : Nat) => ∃ e : List Byte, t.journal.waiting = s.journal.waiting ++ [e] ∧ e.length = 32 ∧
      leNat e / 2 ^ 144 % 16 = kind ∧ leNat e / 2 ^ 136 % 256 = status
    let told := fun (i : Instr) (code detail : Nat) => exec i s = .next { s with outbox := s.outbox ++ [.status 2 code detail] }
    (∀ (e : List Byte) (rest : List (List Byte)), let j := s.journal
      (j.waiting = [] ∨ j.base = none ∨ (j.tail + 1) % 4096 = j.head → exec .journalEntryWrite s = .next s) ∧
      (∀ base, j.waiting = e :: rest → e.length = 32 → j.base = some base → base % 32 = 0 → (j.tail + 1) % 4096 ≠ j.head → s.MemOk →
        s.platform.poison = [] → Loc.isWindow (.phys (base + 32 * j.tail)) = false →
        ∃ t : State, exec .journalEntryWrite s = .next t ∧ t.readPhys (base + 32 * j.tail) 32 = e ∧
          t.journal = { j with tail := (j.tail + 1) % 4096, waiting := rest } ∧ t.outbox = s.outbox ++ [.journal ((j.tail + 1) % 4096)] ∧
          (∀ x, x < s.physKey (base + 32 * j.tail) ∨ s.physKey (base + 32 * j.tail) + 32 ≤ x → memGet t.mem x = memGet s.mem x) ∧
          t.blocks = s.blocks ∧ t.accs = s.accs ∧ (∀ ag, SameAgent s t ag) ∧ ∀ k, (t.core k).scratch = (s.core k).scratch)) ∧
    (∀ h, let j := s.journal
      (4096 ≤ h ∨ (j.tail + 4096 - j.head) % 4096 < (h + 4096 - j.head) % 4096 → exec (.jack h) s = .next s) ∧
      (h < 4096 → (h + 4096 - j.head) % 4096 ≤ (j.tail + 4096 - j.head) % 4096 → exec (.jack h) s = .next { s with journal := { j with head := h } })) ∧
    (∀ pa, (pa % 2 ^ 17 = 0 → exec (.journalAddressSet pa) s = .next { s with journal := { s.journal with base := some pa, tail := 0, head := 0 } }) ∧
      (pa % 2 ^ 17 ≠ 0 → exec (.journalAddressSet pa) s = .next s)) ∧
    (∀ x, (4096 ≤ num → exec (.queueCreate num x) s = .next s) ∧
      (num < 4096 → (s.queue? num).isSome = true → told (.queueCreate num x) 4 0) ∧
      (num < 4096 → s.queue? num = none → badDescriptor x = true → told (.queueCreate num x) 3 0) ∧
      (num < 4096 → s.queue? num = none → badDescriptor x = false → ∀ (u1 u : State) (l : Loc) (bs : List Byte),
        let q := Queue.ofDescriptor num x []
        let plen := x / 2 ^ 247 % 512
        s.feRange (q.space s) (x / 2 ^ 256 % 2 ^ 64) (4 * plen) = (.ok bs, u1) → u1.feBothLoc (q.space s) q.wptr.toNat = (.ok l, u) →
        patternBad (wordsOf bs plen) = none → u.overbooked q.dres q.fres = false → u.requestHeld frontEnd l 16 = false → u.mmioAt l = none → l.isWindow = false →
        ∃ (t : State) (z : Queue), exec (.queueCreate num x) s = .next t ∧ t.queues = u.queues ++ [z] ∧ t.outbox = u.outbox ++ [.status 2 0 0] ∧ z.num = num ∧
          z.status = .active ∧ z.ctxid.toNat = x / 2 ^ 480 % 2 ^ 32 ∧ z.asid.toNat = x / 2 ^ 464 % 2 ^ 16 ∧ z.ring.toNat = x % 2 ^ 64 ∧
          z.wptr.toNat = x / 2 ^ 64 % 2 ^ 64 ∧ z.pattern = wordsOf bs plen ∧ z.readIdx = 0 ∧ z.fence = 0 ∧ z.device = [] ∧ z.held = none ∧ z.c0 = 0)) ∧
    (∀ (q : Queue), s.queue? num = some q →
      (q.status ≠ .active → ∀ i ∈ [Instr.doorbell num, .fetchFenceTimer num], exec i s = .next s) ∧
      (q.status = .faulted ∨ (q.status = .draining ∧ q.retry = []) → exec (.packetTake num) s = .next s) ∧
      (q.status = .active → ∀ (bs : List Byte) (u : State), s.feRange (q.space s) q.wptr.toNat 8 = (.ok bs, u) →
        ∀ i ∈ [Instr.doorbell num, .fetchFenceTimer num], ∃ t : State, exec i s = .next t ∧ { t with queues := u.queues } = u ∧
          (∀ z, u.queue? num = some z → t.queue? num =
            some { z with fence := leNat bs, fences := z.fences.filter (fun y => decide (y.1 > z.readIdx)) ++ [(leNat bs, u.past.length)] }) ∧ ∀ k, k ≠ num → t.queue? k = u.queue? k) ∧
      (∀ i ∈ [Instr.kick num, .patternHoldRetry num], ∃ t : State, exec i s = .next t ∧ t.queue? num = some { q with again := q.held.isSome } ∧
        { t with queues := s.queues } = s ∧ ∀ k, k ≠ num → t.queue? k = s.queue? k) ∧
      (q.status ≠ .faulted → exec (.queueResume num) s = .next s) ∧
      (q.status = .faulted → q.retry = [] → ∃ t : State, exec (.queueResume num) s = .next t ∧
        t.queue? num = some { q with status := .active, again := q.held.isSome } ∧ { t with queues := s.queues } = s) ∧
      (q.status ≠ .draining → s.journalRoom = true → ∀ n, q.held.or q.taking = some n → n < 2 ^ 63 →
        let u := (s.updQueue num fun q => { q with held := none, taking := none, again := false, readIdx := n + 1 }).writeReadIndex num n
        u.journalRoom = true → u.gridsOf num ≠ [] →
        ∃ (t : State) (z : Queue), exec (.queueDestroy num) s = .next t ∧ t.queue? num = some z ∧ z.status = .draining ∧ z.held = none ∧
          z.taking = none ∧ z.readIdx = n + 1 ∧ t.grids = u.grids ∧ t.blocks = u.blocks) ∧
      (q.status ≠ .draining → s.journalRoom = false → ∀ i ∈ [Instr.queueDestroy num, .queueDestroyAbort num], exec i s = .next s) ∧
      (q.status ≠ .draining → q.held = none → q.taking = none → q.retry = [] → s.journalRoom = true →
        (s.gridsOf num = [] → ∀ i ∈ [Instr.queueDestroy num, .queueDestroyAbort num], ∃ t : State, exec i s = .next t ∧ t.queue? num = none ∧ entry t 5 0 ∧
          { t with queues := s.queues, journal := s.journal } = s ∧ ∀ k, k ≠ num → t.queue? k = s.queue? k) ∧
        (s.gridsOf num ≠ [] → ∃ (t : State) (z : Queue), exec (.queueDestroy num) s = .next t ∧ t.queue? num = some z ∧ z.status = .draining ∧ z.device = [] ∧
          t.grids = s.grids ∧ t.blocks = s.blocks ∧ entry t 5 0) ∧
        (s.gridsOf num ≠ [] → ∃ (t : State) (z : Queue), exec (.queueDestroyAbort num) s = .next t ∧ t.queue? num = some z ∧ z.status = .draining ∧ entry t 5 0 ∧
          (∀ g ∈ t.grids, g.queue = num → g.aborted = true ∧ g.lists = []) ∧
          (∀ b ∈ t.blocks, (∃ g ∈ s.grids, g.queue = num ∧ g.id = b.gridId) → b.save = none → b.halted = true) ∧
          ((∀ u ∈ s.saved, ∀ g ∈ s.gridsOf num, u.gridId ≠ g.id) → t.mem = s.mem))) ∧
      (q.status = .active → q.retry = [] → s.journalRoom = true → ∀ (n : Nat) (w : List Word) (u : State), q.nextPacket = some n → s.readPacket q n = (.ok w, u) →
        ∀ (e : PatEnd) (r : PatRun), (q.pattern = [] ∧ e = .accept ∧ r = ⟨0, Vector.replicate 8 0, w, q.c0⟩) ∨
          (q.pattern ≠ [] ∧ runPattern q.pattern n (u.gridsOf num).length 256 ⟨0, Vector.replicate 8 0, w, q.c0⟩ = (e, r)) →
        let refused := fun (status detail : Nat) => ∃ (t : State) (z : Queue), exec (.packetTake num) s = .next t ∧ t.queue? num = some z ∧ z.held = none ∧
          (n < 2 ^ 63 → z.readIdx = n + 1) ∧ (2 ^ 63 ≤ n → z.device = q.device.tail) ∧
          ∃ (x : List Byte) (more : List (List Byte)), t.journal.waiting = s.journal.waiting ++ x :: more ∧ leNat x / 2 ^ 144 % 16 = 2 ∧ leNat x / 2 ^ 136 % 256 = status % 256 ∧
            leNat x / 2 ^ 128 % 256 = detail % 256
        (e = .hold → ∃ t : State, exec (.packetTake num) s = .next t ∧ t.queue? num = some { q with c0 := r.c0, held := some n, taking := none, again := false } ∧
          t.grids = s.grids ∧ t.journal = s.journal ∧ t.mem = u.mem) ∧
        (∀ code, e = .reject code → refused 9 code) ∧ (e = .budget → refused 10 0) ∧
        (e = .accept → u.packetStatus q r.w ≠ 0 → refused (u.packetStatus q r.w) 0) ∧
        (e = .accept → ∀ v, (u.updQueue num fun x => { x with c0 := r.c0 }).judgePacket q n r.w = (.pass (), v) →
          exec (.packetTake num) s = .next (v.passPacket num n) ∧
          (∀ z : Queue, v.queue? num = some z → ∃ y : Queue, (v.passPacket num n).queue? num = some y ∧ y.held = none ∧ (n < 2 ^ 63 → y.readIdx = n + 1)) ∧
          (pktKind r.w = 1 → ∃ g : Grid, v.grids = u.grids ++ [g] ∧ g.id = u.nextGrid ∧ v.nextGrid = u.nextGrid + 1 ∧ g.queue = q.num ∧ g.packet = n ∧
            g.prio = max (pktPrio r.w) q.pceil ∧ g.units = pktUnits r.w ∧ g.completed = 0 ∧ g.ctxid = q.ctxid ∧ g.bdim = pktBdim r.w ∧
            g.fid = pktFid r.w ∧ g.priv = pktPriv r.w ∧ (g.lists.map (fun l => l.taken)).sum = 0)))) ∧
    (∀ (g : Grid) (gid : Nat), s.grid? gid = some g →
      (s.gridStored gid = false → exec (.gridComplete gid) s = .next s) ∧
      (s.gridStored gid = true → s.journalRoom = true → g.doneDue = [] → g.completed = g.units → g.done = 0 → g.doneTried = false →
        (∀ q, s.queue? g.queue = some q → q.retry = []) →
        (∀ b ∈ s.blocks, b.gridId ≠ gid) → ∃ t : State, exec (.gridComplete gid) s = .next t ∧ t.grid? gid = none ∧ entry t 4 g.status ∧ t.mem = s.mem ∧
          t.blocks = s.blocks ∧ ∀ k, k ≠ gid → t.grid? k = s.grid? k)) ∧
    (∀ d, (s.dispatches d = false ∨ s.candidates = [] → exec (.dispatchDecision d) s = .next s) ∧
      (∀ (g : Grid) (rest : List Candidate) (ps : List Spot3) (x : Seed) (q : Queue) (l : HomeList), s.dispatches d = true → s.candidates = .grid g :: rest → s.grid? g.id = some g → g.seed = some x → s.queue? g.queue = some q →
        s.gridPlace d g = some ps → g.listOf (some d) = some l → s.streetRoom s.nextUnit (ps.map (·.1)) = true →
        (ps.map (·.1)).Nodup → (∀ b ∈ s.blocks, b.bid < s.nextBid) →
        ∃ (t : State) (new : List Block), exec (.dispatchDecision d) s = .next t ∧ t.blocks = s.blocks ++ new ∧ new.map (·.core) = ps.map (·.1) ∧
          (∀ b ∈ new, b.gridId = g.id ∧ b.unit = s.nextUnit ∧ b.threads.length = g.bdim ∧ b.regs.ctxid = q.ctxid ∧ b.eff = g.prio) ∧
          (∀ i b, new[i]? = some b → b.regs.qrank = BitVec.ofNat 32 i ∧
            b.regs.blockid = BitVec.ofNat 32 (if g.qsize = 0 then l.units.getD l.taken 0 else l.units.getD l.taken 0 * g.qsize + i)) ∧
          (∀ b ∈ new, ∀ y ∈ b.threads, y.ctx.pc = x.entry &&& ~~~3 ∧ y.status = .runnable ∧ inhOf y.ctx.tstate = false ∧ privOf y.ctx.tstate = g.priv) ∧
          (∃ (g' : Grid) (l' : HomeList), t.grid? g.id = some g' ∧ l' ∈ g'.lists ∧ l'.home = some d ∧ l'.taken = l.taken + 1))) ∧
    (∀ (ctxid root : Nat) (asid : BitVec 16) (c : List Byte) (lb lc : Nat) (ts trs : List Nat), let r := contReason 5 (s.enrolledSvn ctxid) c
      (r ≠ 0 → exec (.load ctxid root asid c lb lc ts trs) s = .next { s with outbox := s.outbox ++ [.status 5 3 r] }) ∧
      (r = 0 → ∀ (st : Nat) (u : State), let words := wordsOf ((contPayload c).take (4 * (contPlen c / 4))) (contPlen c / 4)
        s.loadStatus (s.feSpace root asid ctxid) (contAddr c) words lb lc (ts ++ trs) = (some st, u) →
        ∃ (t : State) (more : List Notice), exec (.load ctxid root asid c lb lc ts trs) s = .next t ∧
          t.outbox = u.outbox ++ more ++ [.status 5 st 0] ∧
          t.kernels = u.kernels ++ (if st = 0 then [⟨BitVec.ofNat 32 ctxid, BitVec.ofNat 64 (contAddr c), contPlen c / 4, BitVec.ofNat 64 lb, lc,
            ts.map (BitVec.ofNat 64), trs.map (BitVec.ofNat 64), t.past.length⟩] else []))) ∧
    (∀ ctxid base, ∃ t : State, exec (.unload ctxid base) s = .next t ∧ { t with kernels := s.kernels } = s ∧
      ∀ k, k ∈ t.kernels ↔ k ∈ s.kernels ∧ ¬(k.ctxid.toNat = ctxid ∧ k.base = base))

/-- For a ready privileged thread alone in its step, an even address pair aligned to 4 KiB and an operand without reserved bits,
CTXSAVE goes on with the status of R343 pending in sd, in the order of its checks: 1 no such block, 2 a save or a restore under
way, 3 its own unit, 4 no storage, 5 another block id, and 0, with which every block of the unit is asked to be saved; a status
other than 0 changes nothing else. CTXLOAD gives 4, 1, 2 or 0, with which the image is queued as a saved unit awaiting restore,
in a grid of one unit where its own is gone. The host request answers with the same statuses. While the journal has no room for the entry of that grid the word waits. Other operands raise ILLEGAL with
reason 7. Where the module is powered and has met no fatal error, a unit whose blocks have stopped becomes a saved unit, its
blocks leave, its names are parked; the commit writes COMMIT with STATE 1 and an entry of kind 6 or 8; a restore under way ends
with the blocks resident, COMMIT with STATE 3 and an entry of kind 7; each waits where a selvedge on the way to the image is CUT
(R337, R339, R341 to R343, R361, R365, R370, R379). The orders of the statuses (logs 59, 82), status 4 for a host's misaligned address
(60), SEQ plus 1 (63), the indices of blocks on the move (146) and what a foreign image holds (147) are the model's. -/
def Obligations.ContextImages : Prop :=
  (∀ (s : State) (own : Option Nat) (core idx pa : Nat) (want : Option Word),
    let r := s.saveStatus own core idx pa want
    let gives := fun st : Nat => r = (st, s)
    let here := (s.blocksOn core).filter fun b => !b.halted
    (here.length ≤ idx → idx < here.length + (s.movingOn core).length → gives 2) ∧
    (here.length + (s.movingOn core).length ≤ idx → gives 1) ∧
    ∀ b : Block, here[idx]? = some b →
      (b.save.isSome = true → gives 2) ∧
      (b.save = none →
        (own = some b.unit → gives 3) ∧
        (own ≠ some b.unit →
          (s.imageRange b.regs.ctxid.toNat pa b.bound = false → gives 4) ∧
          (s.imageRange b.regs.ctxid.toNat pa b.bound = true →
            (∀ w, want = some w → w ≠ b.regs.blockid → gives 5) ∧
            ((∀ w, want = some w → w = b.regs.blockid) → r.1 = 0 ∧ r.2.mem = s.mem ∧ r.2.saved = s.saved ∧ r.2.accs = s.accs ∧
              (∀ ag, SameAgent s r.2 ag) ∧ r.2.blocks.map (·.bid) = s.blocks.map (·.bid) ∧
              (∀ c ∈ r.2.blocks, c.unit = b.unit → c.save = some (.named pa)) ∧
              (∀ c ∈ s.blocks, c.unit ≠ b.unit → (∀ k ∈ s.blocks, k.bid = c.bid → k.unit = c.unit) → c ∈ r.2.blocks)))))) ∧
  (∀ (s : State) (d a b : BitVec 4) (n : BitVec 3) (bid tid : Nat) (blk : Block),
    let ag := Agent.thread bid tid
    let pa := ((s.readReg ag (.s a)).val.toNat + (s.readReg ag (.s (a + 1))).val.toNat * 2 ^ 32)
    let x := (s.readReg ag (.s b)).val
    let done := fun (t : State) (st : Nat) => ∃ id : Nat, GoesOn s t ag n [⟨id, [.s d], .value [⟨BitVec.ofNat 32 st, .raw⟩], t.issue.now, none⟩]
    s.issue.agents = [ag] → s.privOf ag = true → s.block? bid = some blk → a.toNat % 2 = 0 →
    (s.Ready .thread (sSrcs a 2 ++ [sSrc b, sSrc d]) [.s d] ag →
      (pa % 4096 = 0 → x.toNat < 2 ^ 21 →
        let r := s.saveStatus (some blk.unit) (x.toNat % 2 ^ 16) (x.toNat / 2 ^ 16) pa (some (s.readReg ag (.s d)).val)
        ∃ t : State, exec (.ctxsave d a b n) s = .next t ∧ done t r.1 ∧ t.mem = s.mem ∧ t.saved = s.saved ∧ (r.1 ≠ 0 → OnlyAgents s t) ∧
          t.blocks.map (fun c => c.save) = r.2.blocks.map (fun c => c.save)) ∧
      (pa % 4096 ≠ 0 ∨ 2 ^ 21 ≤ x.toNat → s.TrapsOn bid tid → ∃ t : State, exec (.ctxsave d a b n) s = .next t ∧ EntersHandler s t bid tid .illegal 7 0)) ∧
    (s.Ready .thread (sSrcs a 2 ++ [sSrc b]) [.s d] ag →
      (pa % 4096 ≠ 0 ∨ 2 ^ 7 ≤ x.toNat → s.TrapsOn bid tid → ∃ t : State, exec (.ctxload d a b n) s = .next t ∧ EntersHandler s t bid tid .illegal 7 0) ∧
      (pa % 4096 = 0 → x.toNat < 2 ^ 7 → s.requestHeld blk.core (.phys pa) 256 = false → s.poisoned pa 256 = false → Loc.isWindow (.phys pa) = false →
        let gives := fun st : Nat => ∃ t : State, exec (.ctxload d a b n) s = .next t ∧ done t st ∧ OnlyAgents s t
        (s.imageRange blk.regs.ctxid.toNat pa 4096 = false → gives 4) ∧
        (s.imageRange blk.regs.ctxid.toNat pa 4096 = true → (s.imageValid pa = false → gives 1) ∧
          (s.imageValid pa = true → ∀ u : SavedUnit, (s.unitAt pa).1 = u → (u ∈ s.saved ∨ ∀ v ∈ s.saved, v.unit ≠ u.unit) →
            (s.largestCluster < u.qsize → gives 2) ∧
            (u.qsize ≤ s.largestCluster → (s.imageStored blk.regs.ctxid.toNat u = false → gives 4) ∧
              (s.imageStored blk.regs.ctxid.toNat u = true → s.journalRoom = false → s.grid? u.gridId = none →
                ∃ t : State, exec (.ctxload d a b n) s = .next t ∧ OnlyAgents s t ∧ (t.ctx ag).pc = (s.ctx ag).pc) ∧
              (s.imageStored blk.regs.ctxid.toNat u = true → s.journalRoom = true ∨ s.grid? u.gridId ≠ none → ∃ t : State, exec (.ctxload d a b n) s = .next t ∧ done t 0 ∧ t.mem = s.mem ∧
                t.blocks.map Block.body = s.blocks.map Block.body ∧
                (∃ v ∈ t.saved, v.unit = u.unit ∧ v.image = u.image ∧ v.resuming = true ∧ v.placed = u.placed ∧ v.lay = u.lay ∧
                  v.blocks.length = u.blocks.length ∧ v.home = (if x.toNat < 84 then some x.toNat else if u.names = [] then none else some u.savedIn) ∧
                  (s.grid? u.gridId = none → v.gridId = s.nextGrid ∧ ∃ g : Grid, t.grids = s.grids ++ [g] ∧ g.id = s.nextGrid ∧ g.units = 1 ∧
                    g.prio = blk.regs.grid ∧ g.completed = 0) ∧
                  (s.grid? u.gridId ≠ none → v.gridId = u.gridId ∧ t.grids = s.grids)) ∧
                t.saved.filter (fun v => v.unit != u.unit) = s.saved.filter (fun v => v.unit != u.unit)))))))) ∧
  (∀ (s : State) (core idx pa : Nat), s.platform.powered = true → s.platform.recovery = false →
    let r := s.saveStatus none core idx pa none
    (pa % 4096 ≠ 0 → exec (.hostPreEmption core idx pa) s = .next { s with outbox := s.outbox ++ [.status 1 4 0] }) ∧
    (pa % 4096 = 0 → exec (.hostPreEmption core idx pa) s = .next { (r.2) with outbox := r.2.outbox ++ [.status 1 r.1 0] })) ∧
  (∀ (s : State) (unit : Nat),
    let mine := s.blocks.filter fun b => b.unit == unit
    let entry := fun (t : State) (kind : Nat) => ∃ e : List Byte, t.journal.waiting = s.journal.waiting ++ [e] ∧ e.length = 32 ∧
      leNat e / 2 ^ 144 % 16 = kind
    ((mine = [] ∨ (∃ b ∈ mine, s.blockStopped b = false) ∨ s.forceable (fun a => mine.any fun b => s.beforeSave b a) = false ∨
        ∃ b ∈ mine, ∃ dest, mine.head?.bind (·.save) = some dest ∧ s.unitCut (b.core / 512) dest.addr = true) →
      exec (.saveImageWrite unit) s = .next s) ∧
    (s.platform.powered = false ∨ s.platform.fatal = true → ∀ i ∈ [Instr.saveImageWrite unit, .imageCommit unit, .restoreComplete unit], exec i s = .next s) ∧
    (∀ (first : Block) (rest : List Block) (dest : SaveDest), mine = first :: rest → first.save = some dest → mine.all s.blockStopped = true →
      s.platform.powered = true → s.platform.fatal = false → s.accs = [] → (∀ b ∈ mine, s.unitCut (b.core / 512) dest.addr = false) →
      ∃ (t : State) (u : SavedUnit), exec (.saveImageWrite unit) s = .next t ∧ t.saved = s.saved ++ [u] ∧ u.unit = unit ∧ u.image = dest.addr ∧
        u.committed = false ∧ u.placed = false ∧ u.resuming = false ∧ u.gridId = first.gridId ∧ u.savedIn = first.core / 512 ∧
        u.lay = first.layout ∧ u.slot = dest.slot? ∧ u.emergency = dest.isEmergency ∧ ((∀ d, (s.dom d).fsqOpen = []) → u.seq = s.commitSeq dest.addr + 1) ∧ u.eng.length = 256 * mine.length ∧
        u.blocks.map (·.bid) = mine.map (·.bid) ∧ t.blocks.map (·.bid) = (s.blocks.filter fun b => !(mine.map (·.bid)).contains b.bid).map (·.bid) ∧
        (∀ e ∈ t.street, e.unit = unit → (mine.map (·.core)).contains e.cur = true → e.state = 3 ∧ e.image = dest.addr) ∧
        (∀ b ∈ mine, ∀ k < 4, (s.bobbin b.core k).bid = b.bid → (s.bobbin b.core k).status ≠ .free → (t.bobbin b.core k).status = .free)) ∧
    (s.saved.find? (fun u => u.unit == unit) = none → exec (.imageCommit unit) s = .next s ∧ exec (.restoreComplete unit) s = .next s) ∧
    ∀ u : SavedUnit, s.saved.find? (fun u => u.unit == unit) = some u →
      let commit := fun (t : State) (state : Nat) => t.physNat u.image 8 = u.seq % 2 ^ 32 * 2 ^ 32 + u.blocks.length % 256 * 2 ^ 24 + 2 ^ 16 + 2 ^ 8 + state
      (u.committed = true ∨ s.journalRoom = false ∨ s.unitCut u.savedIn u.image = true → exec (.imageCommit unit) s = .next s) ∧
      (s.platform.powered = true → s.platform.fatal = false → u.committed = false → s.journalRoom = true → s.unitCut u.savedIn u.image = false → s.MemOk → u.image % 4096 = 0 → ∃ t : State, exec (.imageCommit unit) s = .next t ∧
        ((s.power u.savedIn).state ≠ 2 → s.platform.streetLog = 0 → commit t 1) ∧ entry t (if u.emergency then 8 else 6) ∧
        ((s.power u.savedIn).state ≠ 2 → t.blocks = s.blocks ∧ t.grids = s.grids ∧
          (s.gridStopped u.gridId = true → t.saved = s.saved.filter fun x => x.unit != unit) ∧
          (s.gridStopped u.gridId = false → t.saved = s.saved.map fun x => if x.unit = unit then
            { u with committed := true, resuming := u.slot.isSome || u.emergency, home := some u.savedIn } else x))) ∧
      (u.placed = false ∨ s.streetRoom unit (s.newNames u) = false ∨ (∃ b ∈ u.blocks, s.unitCut (b.core / 512) u.image = true) ∨
        (s.journalRoom = false ∧ s.imagePoisoned u = false) → exec (.restoreComplete unit) s = .next s) ∧
      (s.platform.powered = true → s.platform.fatal = false → u.placed = true → s.journalRoom = true → s.streetRoom unit (s.newNames u) = true →
        (∀ b ∈ u.blocks, s.unitCut (b.core / 512) u.image = false) → s.imagePoisoned u = false → s.MemOk → u.image % 4096 = 0 → (∀ b ∈ u.blocks, (s.power (b.core / 512)).state ≠ 2) → (s.power 0).state ≠ 2 →
        (∀ b ∈ u.blocks, s.block? b.bid = none ∧ b.threads ≠ [] ∧ s.physNat (u.partAt b + u.lay.thr + 0x16D) 1 = 0 ∧
            ∀ x ∈ b.threads, ∀ (k : Nat) (sd : BitVec 4) (w : Word), x.status ≠ .blocked (.rdzv k sd w)) →
        ∃ t : State, exec (.restoreComplete unit) s = .next t ∧ t.saved = s.saved.filter (fun x => x.unit != unit) ∧ commit t 3 ∧ entry t 7 ∧
          t.blocks.map (·.bid) = s.blocks.map (·.bid) ++ u.blocks.map (·.bid) ∧
          (∀ b ∈ u.blocks, ∃ c ∈ t.blocks, c.bid = b.bid ∧ c.core = b.core ∧ c.unit = b.unit ∧ ∃ x : Thread, c.threads[0]? = some x ∧
            x.status = .runnable ∧ x.ctx.pc = BitVec.ofNat 64 (s.physNat (u.partAt b + u.lay.thr + 0x160) 8) &&& ~~~3) ∧
          (∀ q k : Nat, u.slot = some (q, k) → (∀ v ∈ s.saved, v.unit ≠ unit → v.slot ≠ some (q, k)) →
            (∀ b ∈ s.blocks ++ u.blocks, b.save.bind SaveDest.slot? ≠ some (q, k)) → t.slotUsed q k = false)))

/-- PARTITION_REWIRE sets the wiring of a partition without resident or saved units, or joins a new rectangle, and answers
status 1 otherwise; PARTITION_RESET lets it run again. A retired core stops every grid with a block on it with cause 0x15 and
takes its mark; other blocks stay. A probe is queued at the queue the head waits on, at most one at a time; received, it is
discarded, forwarded, or fills a free reserve entry. A corrected error is counted at its place and reported; a payload error
stops the grids of its context and no other block; a header error takes its partition down, is counted, and loses what is under
way across its selvedges; a lost link leaves every route set and fails the accesses left without one. A window descriptor is
taken field by field, an acknowledged store to a window is performed, a failed connection invalidates it. An uncorrectable error
retires its core, poisons its granule, or is fatal, with a notice for every grid. A new partition joined by PARTITION_REWIRE (log
99), window bytes held in memory (103), status 2 after a fatal error (109), the numbers of places (149) and of messages (90) are the
model's choices (R378 to R385, R404, R405). -/
def Obligations.FabricPartitionsAndErrors : Prop :=
  ∀ s : State,
    let stopped := fun (t : State) (hit : Nat → Prop) => (∀ b ∈ t.blocks, hit b.gridId → b.halted = true) ∧
      (∀ g ∈ t.grids, hit g.id → g.lists = []) ∧ (∀ b ∈ s.blocks, ¬ hit b.gridId → b ∈ t.blocks) ∧
      (∀ u ∈ t.saved, ¬ hit u.gridId) ∧ t.blocks.length = s.blocks.length
    let ofCtx := fun (c : Word) (id : Nat) => ∃ g ∈ s.grids, g.id = id ∧ g.ctxid = c
    let kept := fun t : State => s.platform.streetLog = 0 → t.mem = s.mem
    (s.platform.powered = true → s.platform.recovery = false →
      (∀ (num : Nat) (ds cs : List Nat) (topo : Nat) (shape links : List Nat) (routes : List (Nat × List Nat)),
        let i := Instr.partitionRewire num ds cs topo shape links routes
        let told := exec i s = .next { s with outbox := s.outbox ++ [.status 4 1 0] }
        (wiringOk topo shape links routes = false → told) ∧
        (wiringOk topo shape links routes = true →
          (∀ p : Partition, s.partitions.find? (fun p => p.num == num) = some p →
            (s.contextsBusy p.contexts = true → told) ∧
            (s.contextsBusy p.contexts = false → exec i s = .next { s with outbox := s.outbox ++ [.status 4 0 0], partitions := s.partitions.map fun x => if x.num = num then { p with topology := topo, shape := shape, links := links, routes := routesSet routes } else x })) ∧
          (s.partitions.find? (fun p => p.num == num) = none →
            let free := ∀ p ∈ s.partitions, (∀ d ∈ p.domains, d ∉ ds) ∧ (∀ c ∈ p.contexts, c ∉ cs) ∧ (∀ l ∈ p.links, l ∉ links)
            (isRectangle ds = false ∨ ¬ free ∨ s.contextsBusy cs = true → told) ∧
            (isRectangle ds = true → free → s.contextsBusy cs = false → exec i s = .next { s with outbox := s.outbox ++ [.status 4 0 0], partitions := s.partitions ++ [{ num := num, domains := ds, contexts := cs, links := links, topology := topo, shape := shape, routes := routesSet routes, down := false, headerErrors := 0 }] })))) ∧
      (∀ num : Nat, exec (.partitionReset num) s = .next { s with partitions := s.partitions.map fun p => if p.num = num then { p with down := false } else p }) ∧
      (∀ w desc : Nat, (16 ≤ w → exec (.hostWindowWrite w desc) s = .next s) ∧
        (w < 16 → ∃ (t : State) (d : HostWindow), exec (.hostWindowWrite w desc) s = .next t ∧ t.windows = assocSet w d s.windows ∧ { t with windows := s.windows } = s ∧
          d.valid = desc.testBit 0 ∧ d.rd = desc.testBit 1 ∧ d.wr = desc.testBit 2 ∧ d.size = desc / 2 ^ 96 % 2 ^ 40 ∧ d.qpn = desc / 2 ^ 136 % 2 ^ 24 ∧
          d.rkey.toNat = desc / 2 ^ 160 % 2 ^ 32 ∧ d.rva.toNat = desc / 2 ^ 192 % 2 ^ 64))) ∧
    (∀ core : Nat, (s.platform.powered = false ∨ s.platform.recovery = true ∨ s.coreNamed core = false ∨ s.retired core = true →
        exec (.coreRetire core) s = .next s) ∧
      (s.platform.powered = false ∨ s.coreNamed core = false ∨ s.retired core = true → exec (.uncorrectableError 0 core) s = .next s) ∧
      (s.platform.powered = true → s.coreNamed core = true → s.retired core = false → ∃ t : State, exec (.uncorrectableError 0 core) s = .next t ∧
        (s.platform.recovery = false → exec (.coreRetire core) s = .next t) ∧ t.wafer.retired = s.wafer.retired ++ [core] ∧ stopped t (fun id => ∃ b ∈ s.blocks, b.core = core ∧ b.gridId = id) ∧ t.accs = s.accs ∧
        (∀ g ∈ t.grids, (∃ b ∈ s.blocks, b.core = core ∧ b.gridId = g.id) → (∀ h ∈ s.grids, h.id = g.id → h.cause = 0) → g.cause = 0x15) ∧
        (s.wafer.tableAt = 0 → kept t) ∧
        (s.wafer.tableAt ≠ 0 → s.wafer.tableAt % 64 = 0 → s.MemOk → t.wafer.tableSeq = (s.wafer.tableSeq + 1) % 2 ^ 32 ∧
          t.physNat (s.wafer.tableAt + 12) 4 = t.wafer.tableSeq))) ∧
    (∀ id on : Nat, ∃ t : State, exec (.fabricProbeSend id on) s = .next t ∧ { t with fabric := s.fabric } = s ∧
      (t.fabricQueue id).blocked = true ∧ (t.fabricQueue id).waitsOn = on ∧ (t.fabricQueue id).probing = true ∧
      (t.fabricQueue on).incoming = (s.fabricQueue on).incoming ++ (if (s.fabricQueue id).probing then [] else [id]) ∧
      ∀ k, k ≠ id → k ≠ on → t.fabricQueue k = s.fabricQueue k) ∧
    (∀ (id : Nat) (blocked : Bool) (q : FabricQueue), s.fabricQueue id = q →
      (q.incoming = [] → exec (.fabricProbeReceive id blocked) s = .next s) ∧
      ∀ (origin : Nat) (rest : List Nat), q.incoming = origin :: rest → q.waitsOn ≠ id →
        ∃ t : State, exec (.fabricProbeReceive id blocked) s = .next t ∧ { t with fabric := s.fabric } = s ∧
          (t.fabricQueue id).incoming = rest ∧
          (origin ≠ id → blocked = true → (t.fabricQueue id).blocked = true ∧
            (t.fabricQueue q.waitsOn).incoming = (s.fabricQueue q.waitsOn).incoming ++ [origin]) ∧
          (origin ≠ id → blocked = false → (t.fabricQueue origin).probing = false) ∧
          (origin = id → (t.fabricQueue id).probing = false ∧
            (blocked = true → (s.fabricQueue q.waitsOn).reserve = none →
              (t.fabricQueue q.waitsOn).reserve = some id ∧ (t.fabricQueue id).blocked = false) ∧
            (blocked = false ∨ (s.fabricQueue q.waitsOn).reserve ≠ none → t.fabricQueue q.waitsOn = s.fabricQueue q.waitsOn))) ∧
    (∀ place : Nat, let n := assocGet 0 place s.platform.corrected + 1
      exec (.linkFlitError place) s = .next { s with platform := { s.platform with corrected := assocSet place n s.platform.corrected }, outbox := s.outbox ++ [.corrected place n] }) ∧
    (∀ (c : Word) (lost : Option Nat), ∃ t : State, exec (.payloadError c lost) s = .next t ∧ stopped t (ofCtx c) ∧
      (∀ g ∈ t.grids, ofCtx c g.id → g.aborted = true) ∧ t.outbox = s.outbox ++ [.status 0 2 c.toNat] ∧ kept t ∧
      (lost = none → t.accs = s.accs) ∧
      (∀ (id : Nat) (a : Access), lost = some id → s.access? id = some a → t.accs = if s.accessCtx a = c then s.accs.filter (fun x => x.id != id) else s.accs)) ∧
    (∀ num : Nat, (s.partitions.find? (fun p => p.num == num) = none → exec (.headerError num) s = .next s) ∧
      (∀ p : Partition, s.partitions.find? (fun p => p.num == num) = some p → ∃ t : State, exec (.headerError num) s = .next t ∧
        stopped t (fun id => ∃ g ∈ s.grids, g.id = id ∧ g.ctxid.toNat ∈ p.contexts) ∧ kept t ∧ t.outbox = s.outbox ++ [.status 0 3 num] ∧
        (∀ g ∈ t.grids, (∃ h ∈ s.grids, h.id = g.id ∧ h.ctxid.toNat ∈ p.contexts) → g.aborted = true) ∧
        (∀ a ∈ s.accs, (s.accessCtx a).toNat ∈ p.contexts → t.cutOff a.core a.loc = true → a ∉ t.accs) ∧
        (∀ a ∈ s.accs, (s.accessCtx a).toNat ∉ p.contexts → (∀ y ∈ s.accs, y.id = a.id → y = a) → a ∈ t.accs) ∧
        t.partitions = s.partitions.map fun x => if x.num = num then { x with down := true, headerErrors := x.headerErrors + 1 } else x)) ∧
    (∀ link : Nat,
      let v : State := { s with partitions := s.partitions.map fun p => { p with links := p.links.filter (fun l => l != link), routes := p.routes.map (fun r => (r.1, r.2.filter (fun l => l != link))) } }
      let lost := fun a : Access => a ∈ s.accs ∧ a.wafer < 640 ∧ a.wafer ≠ s.wafer.id ∧ v.routeTo (v.accessCtx a).toNat a.wafer = []
      ((∀ a, ¬ lost a) → exec (.edgeLinkLoss link) s = .next v) ∧
      ∃ t : State, exec (.edgeLinkLoss link) s = .next t ∧ t.partitions = v.partitions ∧ kept t ∧ (∀ a, lost a → a ∉ t.accs) ∧
        (∀ a, lost a → ∀ (bid tid : Nat) (b : Block), a.agent = .thread bid tid → s.block? bid = some b → ∀ g ∈ t.grids, g.ctxid = b.regs.ctxid → g.aborted = true) ∧
        ∀ a ∈ s.accs, (∀ x, lost x → x.id ≠ a.id) → a ∈ t.accs) ∧
    (∀ w : Nat,
      let lost := fun a : Access => a ∈ s.accs ∧ a.isStore = true ∧ ∃ pa, a.loc = .phys pa ∧ pa / 2 ^ 52 = 1023 ∧ pa / 2 ^ 48 % 16 = w
      ∃ t : State, exec (.hostConnectionFailure w) s = .next t ∧ kept t ∧ (∀ a, lost a → a ∉ t.accs) ∧
        t.windows = s.windows.map (fun p => if p.1 = w then (p.1, { p.2 with valid := false }) else p) ∧
        (∀ a, lost a → ∀ (bid tid : Nat) (b : Block), a.agent = .thread bid tid → s.block? bid = some b → ∀ g ∈ t.grids, g.ctxid = b.regs.ctxid → g.aborted = true) ∧
        ∀ a ∈ s.accs, (∀ x, lost x → x.id ≠ a.id) → a ∈ t.accs) ∧
    (∀ (id : Nat) (a : Access), s.access? id = some a →
      ((∀ pa bs, a.loc = .phys pa → a.work = .store bs → pa / 2 ^ 52 ≠ 1023 ∨ s.mayPerform a = false) → exec (.rdmaWriteAck id) s = .next s) ∧
      (∀ pa bs, a.loc = .phys pa → a.work = .store bs → pa / 2 ^ 52 = 1023 → s.mayPerform a = true → s.MemOk → pa % 16 + bs.length ≤ 16 → s.NoneSeen id a.loc a.width → a.seen = none →
        a.home ≠ .outsideMmio → s.mmioAt a.loc = none → (∀ i < bs.length, s.Writable (s.physKey (pa + i))) →
        ∃ t : State, exec (.rdmaWriteAck id) s = .next t ∧ t.readPhys pa bs.length = bs ∧
          (∀ x : Nat × HostWindow, s.windows.find? (fun w => w.1 == pa / 2 ^ 48 % 16) = some x →
            t.outbox = s.outbox ++ [.rdmaWrite x.2.qpn x.2.rkey (x.2.rva + BitVec.ofNat 64 (pa % 2 ^ 48)) bs]) ∧
          t.accs = s.accs.filter (fun x => x.id != id) ∧ t.blocks.map (·.bid) = s.blocks.map (·.bid))) ∧
    (∀ x : Nat, ∃ t : State, exec (.uncorrectableError 1 x) s = .next t ∧ { t with platform := s.platform } = s ∧
      ∀ k, k ∈ t.platform.poison ↔ k ∈ s.platform.poison ∨ k = s.physKey x / 8) ∧
    (s.platform.powered = false ∨ s.platform.fatal = true → ∀ d : Nat, exec (.uncorrectableError 2 d) s = .next s) ∧
    (s.platform.powered = true → s.platform.fatal = false → ∀ d : Nat, ∃ t : State, exec (.uncorrectableError 2 d) s = .next t ∧
      t.outbox = s.outbox ++ s.grids.map (fun g => .contextFault g.id 0) ∧ t.platform.fatal = true ∧ t.platform.dumpDue = some (s.dumpHead 3 d 0) ∧ t.journal.waiting = [] ∧ kept t ∧
      stopped t (fun id => ∃ g ∈ s.grids, g.id = id) ∧ ∀ g ∈ t.grids, g.aborted = true)

/-- A sample of six temperatures and four currents replaces the readings, recomputes TEMP and ICUR, counts, marks out-of-range
sensors suspect and settles the state and the grant limit; each step-down, step-up, relock and record write acts when its count
or its step is due and does nothing otherwise, and a change of the setting starts when none is in progress; the record in memory
is written when what it shows has changed, SEQ with it, and no other byte of memory. The module rule sets every grant limit to
4. A hard trip removes power, ends everything in the cores, keeps memory and committed saves, and leaves a dump due, which
DUMP_WRITE writes with FORMAT 1. POWER takes the header and the RW fields of a record. An emergency ends once Umavo has sent POWER
and TEMP has stayed below TTHR for 100 ms (R390 to R402, R412). Without core power none of them acts. What a step leaves of its
count (log 104), the rounding of TEMP and ICUR (105), a trip without a trusted sensor (106), when CLRSUS is taken (107), address 0
for not set (110), memory at a power loss (111), a dump formed at the event (160) and the 100 ms that may precede POWER (177) are
the model's. -/
def Obligations.PowerControl : Prop :=
  ∀ (s : State) (d : Nat),
    let p := s.power d
    let same := fun i : Instr => exec i s = .next s
    let alone := fun t : State => (∀ k, k ≠ d → t.power k = s.power k) ∧ t.outbox = s.outbox ∧ t.blocks = s.blocks ∧
      (∀ k, { t.dom k with l2 := (s.dom k).l2 } = s.dom k) ∧ (s.platform.areaAt = 0 → { t with powers := s.powers } = s)
    let recorded := fun t : State => s.platform.areaAt ≠ 0 → s.platform.areaAt % 4096 = 0 → s.MemOk →
      (∀ j ∈ (t.power d).suspT, j < 6) → (∀ j ∈ (t.power d).suspI, j < 4) →
      let x := t.physNat (s.platform.areaAt + 64 + 64 * d) 64
      x / 2 ^ 416 = (t.power d).seq % 2 ^ 32 ∧ x / 2 ^ 326 % 16 = (t.power d).fset % 16 ∧ x / 2 ^ 322 % 16 = (t.power d).sc % 16 ∧
      x / 2 ^ 318 % 16 = (t.power d).st % 16 ∧ x / 2 ^ 310 % 8 = (t.power d).state % 8 ∧
      ∀ y : Nat, (∀ j < 64, y ≠ s.physKey (s.platform.areaAt + 64 + 64 * d + j)) → memGet t.mem y = memGet s.mem y
    let started := fun q : PowerState => if q.freq = .idle ∧ q.target ≠ q.fset then { q with freq := .stopping, freqTo := q.target, freqMark := s.nextId } else q
    let after := fun (i : Instr) (q : PowerState) => ∃ t u : State, exec i s = .next t ∧ alone t ∧
      u = s.setPower d (started q) ∧ { t.power d with seq := q.seq } = started q ∧
      (u.recordRo d = s.recordRo d → t.power d = started q ∧ { t with powers := s.powers } = s) ∧
      (u.recordRo d ≠ s.recordRo d → (t.power d).seq = (q.seq + 1) % 2 ^ 32 ∧ recorded t)
    (p.overN < 100 ∨ s.platform.powered = false → same (.currentStepDown d)) ∧
    (100 ≤ p.overN → s.platform.powered = true → after (.currentStepDown d) { p with sc := min (p.sc + 1) 8, overN := 0 }) ∧
    (p.underN < 10000 ∨ p.sc = 0 ∨ s.platform.powered = false → same (.currentStepUp d)) ∧
    (10000 ≤ p.underN → 0 < p.sc → s.platform.powered = true → after (.currentStepUp d) { p with sc := p.sc - 1, underN := 9999 }) ∧
    (p.hotN < 1000 ∨ s.platform.powered = false → same (.thermalStepDown d)) ∧
    (1000 ≤ p.hotN → s.platform.powered = true → after (.thermalStepDown d) { p with st := min (p.st + 1) 8, hotN := 0 }) ∧
    (p.coolN < 10000 ∨ p.st = 0 ∨ s.platform.powered = false → same (.thermalStepUp d)) ∧
    (10000 ≤ p.coolN → 0 < p.st → s.platform.powered = true → after (.thermalStepUp d) { p with st := p.st - 1, coolN := 9999 }) ∧
    (p.freq ≠ .relocking ∨ s.platform.powered = false → same (.clockRelock d)) ∧
    (p.freq = .relocking → s.platform.powered = true → after (.clockRelock d) { p with freq := .idle, fset := p.freqTo }) ∧
    (84 ≤ d ∨ s.platform.powered = false → same (.powerRecordWrite d)) ∧
    (d < 84 → s.platform.powered = true → ∃ t : State, exec (.powerRecordWrite d) s = .next t ∧ alone t ∧ recorded t ∧
      t.power d = { p with seq := (p.seq + 1) % 2 ^ 32 }) ∧
    (let owed := ∃ a ∈ s.accs, a.core / 512 = d ∧ a.id < p.freqMark ∧ a.loc.outside s.wafer.id d = true
     (owed → s.requestOwed d p.freqMark = true) ∧ (¬ owed → s.xinvs = [] → s.channels = [] → s.requestOwed d p.freqMark = false) ∧
     (p.freq ≠ .stopping ∨ s.requestOwed d p.freqMark = true → same (.quiescePoint d)) ∧
     (p.freq = .stopping → s.requestOwed d p.freqMark = false → ∃ t : State, exec (.quiescePoint d) s = .next t ∧ { t with powers := s.powers } = s ∧ alone t ∧
       t.power d = { p with freq := .relocking })) ∧
    (p.freq ≠ .stopping → same (.quiesceTimeout d)) ∧
    (p.freq = .stopping → ∃ t : State, exec (.quiesceTimeout d) s = .next t ∧ { t with powers := s.powers } = s ∧ alone t ∧
      t.power d = { p with freq := .released }) ∧
    (p.freq ≠ .released → same (.quiesceRetry d)) ∧
    (p.freq = .released → ∃ t : State, exec (.quiesceRetry d) s = .next t ∧ { t with powers := s.powers } = s ∧ alone t ∧
      t.power d = started { p with freq := .idle }) ∧
    (p.grantN < 32 ∨ p.ilim < p.icur ∨ s.platform.powered = false → same (.grantStepUp d)) ∧
    (32 ≤ p.grantN → p.icur ≤ p.ilim → s.platform.powered = true → ∃ t : State, exec (.grantStepUp d) s = .next t ∧ { t.power d with seq := p.seq } = { p with grantN := 31 } ∧
      (∀ k, k ≠ d → t.power k = s.power k) ∧ t.outbox = s.outbox ∧ t.blocks = s.blocks ∧ (∀ k, k ≠ d → (t.dom k).grant = (s.dom k).grant) ∧
      (t.dom d).grant = (if p.state = 1 ∨ p.state = 2 ∨ s.platform.rationed = true then 4 else min 16 ((s.dom d).grant + 4)) ∧
      (grantCode (t.dom d).grant = grantCode (s.dom d).grant → (t.power d).seq = p.seq ∧ t.mem = s.mem) ∧
      (grantCode (t.dom d).grant ≠ grantCode (s.dom d).grant → (t.power d).seq = (p.seq + 1) % 2 ^ 32 ∧ recorded t)) ∧
    (s.platform.over36 < 20 ∨ s.platform.powered = false → same .moduleRationStart) ∧
    (20 ≤ s.platform.over36 → s.platform.powered = true → ∃ t : State, exec .moduleRationStart s = .next t ∧
      { t.platform with poison := s.platform.poison } = { s.platform with rationed := true, over36 := 0 } ∧
      (s.platform.areaAt = 0 → { t with platform := s.platform, doms := s.doms, powers := s.powers } = s) ∧ t.blocks = s.blocks ∧ t.outbox = s.outbox ∧
      (∀ k, { t.power k with seq := (s.power k).seq } = s.power k) ∧
      (∀ k, k < 84 → (t.dom k).grant = 4 ∧ (t.power k).seq = if grantCode (s.dom k).grant = 3 then (s.power k).seq else ((s.power k).seq + 1) % 2 ^ 32) ∧
      ∀ k, 84 ≤ k → (t.dom k).grant = (s.dom k).grant ∧ t.power k = s.power k) ∧
    (s.platform.rationed = false ∨ s.platform.below34 < 1000 ∨ s.platform.powered = false → same .moduleRationEnd) ∧
    (s.platform.rationed = true → 1000 ≤ s.platform.below34 → s.platform.powered = true → exec .moduleRationEnd s = .next { s with platform := { s.platform with rationed := false } }) ∧
    (let trips := fun (i : Instr) (cause dom sensor : Nat) => ∃ t : State, exec i s = .next t ∧ t.platform.powered = false ∧
       t.platform.dumpDue = some (s.dumpHead cause dom sensor) ∧ t.mem = s.mem ∧ t.blocks = [] ∧ t.accs = [] ∧ t.cores = [] ∧
       t.saved = (s.saved.filter fun u => u.committed).map (fun u => { u with placed := false }) ∧ t.journal.waiting = [] ∧ t.grids = s.grids ∧ t.queues = s.queues ∧
       ∀ k, k < 84 → (t.power k).state = 3
     (∀ j : Nat, ((∃ x ∈ p.temps, 460 ≤ x) → (p.tooHot j = true ↔ 460 ≤ p.temps.getD j 0)) ∧
       ((∀ x ∈ p.temps, x < 460) → p.temp < 460 → p.tooHot j = false) ∧ (p.tooHot j = false ∨ s.platform.powered = false → same (.hardTrip d j)) ∧
       (p.tooHot j = true → s.platform.powered = true → trips (.hardTrip d j) 1 d j)) ∧
     (s.platform.over40 < 50 ∨ s.platform.powered = false → same .modulePowerTrip) ∧
     (50 ≤ s.platform.over40 → s.platform.powered = true → trips .modulePowerTrip 2 127 0)) ∧
    (∃ t : State, exec .powerLoss s = .next t ∧ t.platform = { s.platform with powered := false } ∧ t.mem = s.mem ∧ t.blocks = [] ∧ t.accs = [] ∧
      t.cores = [] ∧ t.saved = (s.saved.filter fun u => u.committed).map fun u => { u with placed := false }) ∧
    (s.platform.dumpDue = none → same .dumpWrite) ∧
    (s.platform.dumpDue ≠ none → ∃ t : State, exec .dumpWrite s = .next t ∧ t.platform.dumpDue = none ∧ t.blocks = s.blocks ∧
      (s.platform.dumpAt = 0 → { t with platform := s.platform } = s) ∧
      (s.platform.dumpAt ≠ 0 → s.platform.dumpAt % 4096 = 0 → s.MemOk → t.physNat s.platform.dumpAt 4 = 1)) ∧
    (∀ (temps currents : List Int) (watts : Nat),
      let i := Instr.sensorSample d temps currents watts
      (84 ≤ d ∨ temps.length ≠ 6 ∨ currents.length ≠ 4 ∨ s.platform.powered = false → same i) ∧
      (d < 84 → temps.length = 6 → currents.length = 4 → s.platform.powered = true → ∃ (t : State) (ts is : List Nat), exec i s = .next t ∧
        let q := t.power d
        q.temps = temps ∧ q.currents = currents ∧ q.suspT = p.suspT ++ ts ∧ q.suspI = p.suspI ++ is ∧ (p.ss = true → q.ss = true) ∧
        (∀ j < 6, temps.getD j 0 < -80 ∨ 600 < temps.getD j 0 → j ∈ q.suspT) ∧ (∀ j < 4, 4096 < currents.getD j 0 → j ∈ q.suspI) ∧
        (∀ j < 6, 65535 ≤ p.stuckN.getD j 0 → p.moved.getD j false = true → temps.getD j 0 = p.temps.getD j 0 → j ∈ q.suspT) ∧
        q.temp = tempOf temps q.suspT ∧ q.icur = icurOf currents q.suspI ∧ q.ilim = p.ilim ∧ q.sc = p.sc ∧ q.st = p.st ∧ q.fset = p.fset ∧
        q.overN = (if (p.ilim : Int) < q.icur ∧ (s.dom d).grant = 4 then p.overN + 1 else 0) ∧
        q.hotN = (if 4 * (p.tthr : Int) ≤ q.temp then p.hotN + 1 else 0) ∧
        q.state = (if p.state = 3 then 3 else if p.state = 2 ∧ ¬(p.asked = true ∧ q.temp < 4 * (p.tthr : Int) ∧ 99999 ≤ p.belowN) then 2 else if 420 ≤ q.temp ∨ q.noThermal = true then 2 else if q.fewTrusted then 1 else 0) ∧
        (t.dom d).grant = (if p.state = 1 ∨ p.state = 2 ∨ q.state = 1 ∨ q.state = 2 ∨ s.platform.rationed = true then 4
          else if (p.ilim : Int) < q.icur then max 4 ((s.dom d).grant - 4) else (s.dom d).grant) ∧
        (∃ more : List Notice, t.outbox = s.outbox ++ ts.map (fun j => Notice.power d j) ++ is.map (fun j => Notice.power d (6 + j)) ++ more ∧ (q.state ≠ 2 → more = [])) ∧
        (q.state ≠ 2 → (∀ k, k ≠ d → t.power k = s.power k) ∧ t.blocks = s.blocks ∧ (s.platform.areaAt = 0 → t.mem = s.mem) ∧
          (t.recordRo d = s.recordRo d → q.seq = p.seq ∧ t.mem = s.mem) ∧ (t.recordRo d ≠ s.recordRo d → q.seq = (p.seq + 1) % 2 ^ 32 ∧ recorded t)) ∧
        (d = 0 → t.platform.over40 = if 40000 < watts then s.platform.over40 + 1 else 0) ∧ (d ≠ 0 → t.platform.over40 = s.platform.over40))) ∧
    (s.platform.recovery = true ∨ s.platform.powered = false ∨ 84 ≤ d ∨ s.platform.areaAt = 0 → same (.power d)) ∧
    (s.platform.recovery = false → s.platform.powered = true → d < 84 → s.platform.areaAt ≠ 0 → ∃ t : State, exec (.power d) s = .next t ∧
      let h := s.physNat s.platform.areaAt 64
      let x := s.physNat (s.platform.areaAt + 64 + 64 * d) 64
      let q := t.power d
      t.platform.ebase = h / 2 ^ 448 % 2 ^ 64 ∧ t.platform.eslot = h / 2 ^ 416 % 2 ^ 32 ∧ t.platform.ecount = h / 2 ^ 400 % 2 ^ 16 ∧
      t.platform.dumpAt = h / 2 ^ 336 % 2 ^ 64 ∧ t.platform.mlogAt = h / 2 ^ 272 % 2 ^ 64 ∧ t.platform.mlogN = h / 2 ^ 256 % 2 ^ 16 ∧
      (h / 2 ^ 272 % 2 ^ 64 ≠ 0 → h / 2 ^ 256 % 2 ^ 16 ≠ 0 → t.platform.measDue = []) ∧
      (s.platform.measDue = [] → q.ilim = max p.imin (x / 2 ^ 384 % 2 ^ 16) ∧
        q.tthr = (if 60 ≤ x / 2 ^ 376 % 2 ^ 8 ∧ x / 2 ^ 376 % 2 ^ 8 ≤ 100 then x / 2 ^ 376 % 2 ^ 8 else p.tthr) ∧
        q.ftgt = (if x / 2 ^ 330 % 2 ^ 4 ≤ 8 then x / 2 ^ 330 % 2 ^ 4 else p.ftgt) ∧
        (p.clrsus = true → q.suspT = [] ∧ q.suspI = [] ∧ q.ss = false ∧ q.clrsus = false) ∧
        (p.clrsus = false → q.suspT = p.suspT ∧ q.suspI = p.suspI ∧ q.ss = p.ss) ∧
        (p.state = 3 → q.state = 3) ∧ (p.state = 2 → p.belowN < 100000 → q.state = 2) ∧
        (p.state = 2 → 100000 ≤ p.belowN → p.temp < 420 → q.noThermal = false → q.state = if q.fewTrusted then 1 else 0) ∧
        (q.state ≠ 2 → (∀ k, k ≠ d → t.power k = s.power k) ∧ t.outbox = s.outbox)))

/-- A warm reset keeps wafer memory but the domain scratch windows, and the committed saved units; a cold reset keeps neither;
both leave no block, grid, queue, kernel, access or partition and the fuses, the flash and the wafer as they were, retired cores
dead; without firmware in flash the boot stops in the recovery state. MODULE_RESET is warm after a trip or a fatal error and
cold otherwise; addresses that Umavo may not choose change nothing. FIRMWARE_WRITE stores a container of KIND 1 to 4. ENROLL
takes a 48-byte hash with its minimum SVN, sixteen to a context, or answers status 1; ATTEST answers a record of FORMAT 1 of
fixed length (R378, R408, R409, R411, R413). The addresses are given with the reset; log entries 4 and 112 to 116 say how the
model reads these rules, and that an enrolment of a known key takes its new minimum, a seventeenth key answers status 1 (89), flash is
written outside the recovery state too (117) and the numbers of the host's messages (90) are the model's. -/
def Obligations.BootResetEnrollAttest : Prop :=
  ∀ s : State,
    (∀ a1 a2 a3 lg : Nat,
      let ok := a1 % 4096 = 0 ∧ a2 % 64 = 0 ∧ a3 % 64 = 0 ∧ (lg = 0 ∨ (10 ≤ lg ∧ lg ≤ 20))
      (¬ ok → ∀ i ∈ [Instr.warmReset a1 a2 a3 lg, .coldReset a1 a2 a3 lg, .moduleReset a1 a2 a3 lg], exec i s = .next s) ∧
      (ok → ∀ i ∈ [Instr.warmReset a1 a2 a3 lg, .coldReset a1 a2 a3 lg], ∃ t : State, exec i s = .next t ∧
        t.blocks = [] ∧ t.grids = [] ∧ t.queues = [] ∧ t.kernels = [] ∧ t.accs = [] ∧ t.partitions = [] ∧ t.channels = [] ∧ t.cores = [] ∧ t.windows = [] ∧
        t.street = [] ∧ t.journal = { base := none, tail := 0, head := 0, seq := 0, waiting := [] } ∧ t.outbox = s.outbox ∧ t.platform.powered = true ∧
        t.platform.fatal = false ∧ t.platform.fuseKeys = s.platform.fuseKeys ∧ t.platform.fuseSvn = s.platform.fuseSvn ∧
        t.platform.flash = s.platform.flash ∧ t.platform.enrolled = [] ∧ t.wafer.id = s.wafer.id ∧ t.wafer.retired = [] ∧ t.wafer.usable = s.wafer.usable ∧
        (∀ q ∈ s.wafer.dead, q ∈ t.wafer.dead) ∧ (∀ e < 84, ∀ q < 384, s.positionRetired e q = true → (e, q) ∈ t.wafer.dead) ∧
        (t.power 0).imin = (s.power 0).imin ∧ (t.power 0).state = 0 ∧ (t.power 0).fset = 0 ∧
        (s.platform.flash = [] → t.platform.recovery = true ∧ t.platform.meas = List.replicate 8 (List.replicate 48 0))) ∧
      (ok → ∃ t : State, exec (.coldReset a1 a2 a3 lg) s = .next t ∧ t.saved = [] ∧ (s.platform.flash = [] → t.mem = [])) ∧
      (ok → ∃ t : State, exec (.warmReset a1 a2 a3 lg) s = .next t ∧
        t.saved.map (fun u => (u.unit, u.image, u.seq, u.resuming)) = (s.saved.filter fun u => u.committed).map (fun u => (u.unit, u.image, u.seq, false)) ∧
        (s.platform.flash = [] → ∀ g : Nat, g ∈ t.platform.poison ↔ g ∈ s.platform.poison ∧ ¬(8 * g / 2 ^ 52 = s.wafer.id ∧ 8 * g / 2 ^ 45 % 2 ^ 7 = 127)) ∧
        (s.platform.flash = [] → s.MemOk → ∀ x : Nat, (x / 2 ^ 52 = s.wafer.id → x / 2 ^ 45 % 2 ^ 7 = 127 → memGet t.mem x = 0) ∧
          ((x / 2 ^ 52 ≠ s.wafer.id ∨ x / 2 ^ 45 % 2 ^ 7 ≠ 127) → (lg = 0 ∨ x < a3 ∨ a3 + 64 * 2 ^ lg ≤ x) → memGet t.mem x = memGet s.mem x))) ∧
      (s.platform.fatal = true ∨ s.platform.powered = false → exec (.moduleReset a1 a2 a3 lg) s = exec (.warmReset a1 a2 a3 lg) s) ∧
      (s.platform.fatal = false → s.platform.powered = true → exec (.moduleReset a1 a2 a3 lg) s = exec (.coldReset a1 a2 a3 lg) s)) ∧
    (∀ (kind : Nat) (c : List Byte),
      (kind = 0 ∨ 4 < kind → exec (.firmwareWrite kind c) s = .next s) ∧
      (1 ≤ kind → kind ≤ 4 → exec (.firmwareWrite kind c) s = .next { s with platform := { s.platform with flash := assocSet kind c s.platform.flash } })) ∧
    (s.platform.powered = true → s.platform.recovery = false →
      (∀ (ctxid svn : Nat) (key : List Byte),
        let rest := s.platform.enrolled.filter fun e => !(e.1 == ctxid && e.2.1 == key)
        let full := (rest.filter fun e => e.1 == ctxid).length ≥ 16
        (key.length ≠ 48 ∨ 2 ^ 16 ≤ svn ∨ full → exec (.enroll ctxid key svn) s = .next { s with outbox := s.outbox ++ [.status 6 1 0] }) ∧
        (key.length = 48 → svn < 2 ^ 16 → ¬ full → ∃ t : State, exec (.enroll ctxid key svn) s = .next t ∧
          t.platform.enrolled = rest ++ [(ctxid, key, svn)] ∧
          (∃ more : List Notice, t.outbox = s.outbox ++ more ++ [.status 6 0 0] ∧ (s.platform.mlogAt = 0 → more = [] ∧ t.platform.measDue.length = s.platform.measDue.length + 1)) ∧ t.enrolledSvn ctxid key = some svn ∧
          t.platform.measSeq = (s.platform.measSeq + 1) % 2 ^ 32 ∧ (∀ k, k ≠ 6 → t.platform.meas[k]? = s.platform.meas[k]?) ∧
          t.blocks = s.blocks ∧ t.kernels = s.kernels ∧ (s.platform.mlogAt = 0 → t.mem = s.mem))) ∧
      (∀ nonce : List Byte, ∃ bs : List Byte, exec (.attest nonce) s = .next { s with outbox := s.outbox ++ [.attest bs] } ∧ bs.take 4 = [1, 0, 0, 0] ∧
        bs.length = 5408 + 48 * s.platform.meas.length ∧ (nonce.length = 32 → (bs.drop 16).take 32 = nonce)))

/-- BIN_AGED marks the bins that are 64 or more cycles old, counts the new ones on event 5, and begins pressure, from which
braids count anew; without a new one it does nothing. The bin a core draws is eligible; an aged one goes first, the earliest
filed of them (of those filed in one cycle the one of the lowest PC: log entry 129), else the one of the lowest PC. A pipe that
may draw takes the bin away and holds a braid of its threads at positions 0, 1, ... in ascending order, counted on event 4;
pressure ends with the last aged bin. BRAID_RETURN files every member of each tired braid at its own PC, and registers and
memory stay (R141 to R145, R336). -/
def Obligations.BinsAndBraids : Prop :=
  ∀ (s : State) (core : Nat),
    let c := s.core core
    let now := (s.dom (core / 512)).cycles
    let old := fun b : Bin => b.oldest + 64 ≤ now
    let eligible := fun b : Bin => 32 ≤ b.threads.length ∨ old b ∨ ∀ p ∈ c.pipes.toList, ∀ r ∈ p.braids, r.bid ≠ b.bid
    let counted := fun (ev n : Nat) => c.counters.map fun x : Counter =>
      if (x.cfg.extractLsb' 0 4).toNat = ev then { x with count := x.count + BitVec.ofNat 32 n } else x
    let fresh := (c.bins.filter fun b => b.isAged now && !b.aged).length
    (fresh = 0 → exec (.binAged core) s = .next s) ∧
    (fresh ≠ 0 → ∃ t : State, exec (.binAged core) s = .next t ∧ { t with cores := s.cores } = s ∧ (∀ k, k ≠ core → t.core k = s.core k) ∧
      t.core core = { c with counters := counted 5 fresh, bins := c.bins.map (fun b => { b with aged := decide (old b) }), pressure := some (c.pressure.getD now), pipes := if c.pressure.isSome then c.pipes else c.pipes.map (fun p => { p with braids := p.braids.map (fun b => { b with count := 0 }) }) }) ∧
    (s.drawChoice core = none → (∀ b ∈ c.bins, ¬ eligible b) ∧ exec (.braidDraw core) s = .next s) ∧
    (∀ i : Nat, s.drawChoice core = some i → ∃ b : Bin, c.bins[i]? = some b ∧ eligible b ∧
      (∀ x ∈ c.bins, eligible x → old x → old b ∧ b.oldest ≤ x.oldest ∧ (x.oldest = b.oldest → b.pc.toNat ≤ x.pc.toNat)) ∧ (¬ old b → ∀ x ∈ c.bins, eligible x → b.pc.toNat ≤ x.pc.toNat) ∧
      ∀ (k : Nat) (pipe : Pipe), k < 4 → c.pipes.toList[k]? = some pipe → pipe.braids.length < 32 → pipe.drawn ≠ now + 1 →
        (∀ q < 4, q ≠ k → s.mayDraw core q = false) →
        ∃ (t : State) (br : Braid), exec (.braidDraw core) s = .next t ∧ (t.core core).bins = c.bins.eraseIdx i ∧
          (∃ p : Pipe, (t.core core).pipes.toList[k]? = some p ∧ p.braids = pipe.braids ++ [br] ∧ p.drawn = now + 1) ∧
          br.bid = b.bid ∧ br.pc = b.pc ∧ br.count = 0 ∧ br.members.length = b.threads.length ∧ br.members.map (·.2) = List.range b.threads.length ∧
          (br.members.map (·.1)).Perm (b.threads.map (·.1)) ∧ (br.members.map (·.1)).Pairwise (· ≤ ·) ∧
          (t.core core).counters = counted 4 1 ∧ ((∀ x ∈ c.bins.eraseIdx i, ¬ old x) → (t.core core).pressure = none) ∧
          t.mem = s.mem ∧ ∀ ag, SameAgent s t ag) ∧
    ((c.pressure = none ∨ (∀ b ∈ c.bins, ¬ old b) ∨ ∀ p ∈ c.pipes.toList, ∀ r ∈ p.braids, r.count < 4 ∧ r.idle < 16) →
      exec (.braidReturn core) s = .next s) ∧
    (∃ t : State, exec (.braidReturn core) s = .next t ∧ SameStore s t ∧ (∀ ag, SameAgent s t ag) ∧
      (c.pressure.isSome = true → (∃ b ∈ c.bins, old b) → ∀ p ∈ c.pipes.toList, ∀ r ∈ p.braids, 4 ≤ r.count ∨ 16 ≤ r.idle →
        ∀ m ∈ r.members, ∀ (blk : Block) (x : Thread), s.block? r.bid = some blk → blk.core = core → s.thread? r.bid m.1 = some x → t.Filed r.bid m.1 x.ctx.pc))

/-- When the next turn issues a braid whose pipe is free and holds no word, in its turn of the cycle and in a domain whose clock
runs, no ready braid of the pipe having issued less recently, and the members that may issue fetch one word without a fault or a
breakpoint, and all of them act, then the step is exec of the instruction that the word decodes to (an undefined hint and an
illegal word have instructions of their own), at the state in which those members are the agents of the step, the breakpoint
skips are cleared and the counters have seen the word; after it the braid goes on, parts or is filed. In expanded mode a uniform
word is executed for the first member, and the pipe holds it for the others; a lane word that this cycle cannot grant all its
register reads is held with what it lacks. A bobbin that may issue does the same without a braid. A held word that is not due,
and an absent braid, let the turn pass. A turn that names an event of the machine is exec of that event, and any other
instruction lets the turn pass (R42, R46, R51, R55, R61, R90, R99, R142, R146, R159, R335). That the counters see a word before it
executes, and how often a uniform word counts, is the model's (logs 17, 54). -/
def Obligations.StepRunsDecoded : Prop :=
  ∀ (s : State) (core : Nat) (rest : List Turn) (w : Word) (i : Instr) (s2 u t : State) (ags : List Agent),
    let s0 := ({ s with agenda := rest } : State)
    let reads := decodeWord w = .ok i ∨ (decodeWord w = .error .hint ∧ i = .undefinedHint (w.extractLsb' 0 3)) ∨
      ∃ r : Reject, r ≠ .hint ∧ decodeWord w = .error r ∧ i = .illegalWord r.reason (!w.getLsbD 31)
    let runs := fun (s1 : State) (expanded : Bool) (goes : State → State) => s1.issue.agents = ags → ags ≠ [] →
      s1.fetchAll ags = (ags.map (fun x => (x, w)), s2) → reads →
      let s3 := (({ s2 with issue := { s2.issue with word := w } } : State).among ags)
      let s4 := s3.clearSkip.countWord w
      let k := s3.issue.cycle
      (∀ x ∈ ags, ({ s2 with issue := { s2.issue with word := w } } : State).breakpoint x = none) → exec i s3 = .next u → (∀ x ∈ ags, acted s3 u x = true) →
      exec i s4 = .next t →
      (w.getLsbD 31 = true → expanded = false ∨ ags.length = 1 → step s = .next (goes t)) ∧
      (w.getLsbD 31 = true → expanded = true → ∀ (x y : Agent) (more : List Agent) (v : State), ags = x :: y :: more →
        exec i ((((s3.hold { agents := y :: more, word := w, need := 0, cycle := k, next := k + 1, went := [] }).among [x]).clearSkip).countWord w) = .next v →
        step s = .next (goes v)) ∧
      (w.getLsbD 31 = false →
        let need := s4.granted t
        let left := (s4.dom (s4.issue.core / 512)).grantNow - (s4.core s4.issue.core).used s4.issue.cycle
        (need ≤ left → step s = .next (goes t)) ∧
        (left < need → step s = .next (goes ((s4.updCore s4.issue.core fun c => c.grantMore s4.issue.cycle left).hold
          { agents := s4.issue.agents, word := w, need := need - left, cycle := s4.issue.cycle, next := s4.issue.cycle + 1, went := [] }))))
    (∀ (pipe idx : Nat) (br : Braid), s.agenda = .issue core pipe idx :: rest → s0.pipeFree core pipe = true → s0.inTurn core pipe = true →
      s0.clocked (core / 512) = true → s0.braidAt core pipe idx = some br →
      (∀ (j : Nat) (b : Braid), s0.braidAt core pipe j = some b → br.age ≤ b.age ∨ s0.issueBraid core pipe j = none) →
      s0.issuers br (s0.now core) = ags → runs ((s0.enterMode core br).startIssue core pipe idx ags) (br.mode s0)
        (s0.afterIssue core pipe ags)) ∧
    (∀ b : Nat, s.agenda = .bobbin core b :: rest → s0.clocked (core / 512) = true → s0.inTurn core (4 + b) = true → (s0.bobbin core b).stopCause = none →
      s0.bobbinReady core b = true → ags = [.bobbin core b] → runs (s0.issuing core (4 + b) ags 0) false (fun t => t)) ∧
    (∀ (pipe idx : Nat) (p : Pipe) (h : Held), s.agenda = .issue core pipe idx :: rest → (s0.core core).pipes.toList[pipe]? = some p → p.held = some h →
      h.agents.filter (s0.stillHeld core) ≠ [] → h.need ≠ 0 ∨ s0.now core < h.next → step s = .next s0) ∧
    (∀ e : Instr, s.agenda = .event e :: rest → step s = if e.isEvent then exec e s0 else .next s0) ∧
    (∀ pipe idx : Nat, s.agenda = .issue core pipe idx :: rest → s0.braidAt core pipe idx = none →
      (∀ p : Pipe, (s0.core core).pipes.toList[pipe]? = some p → p.held = none) → step s = .next s0)

/-- Each of these words of the spec's tables and examples, one or more for each family, decodes to the instruction the spec
gives it, with its registers, offsets and stall count; words of unassigned majors, of unlisted sub-ops, with a reserved field set,
with a misaligned register group or with a scope above 4 are rejected with the reason of R52, and words of the majors 0x75 to 0x7F,
0xFFFFFFFF among them, are undefined hints (R34, R40, R51, R52, R55 to R61). -/
def Obligations.DecodeWords : Prop :=
  (∀ p ∈ ([
    (0x03182109, .vaddc 6 2 4 1 1),
    (0x1C042001, .vcmpEqI32 1 2 0 1),
    (0x1F041051, .kxor 1 1 1 1),
    (0x22154040, .vgetB32 5 20 1 0),
    (0x4C2020C0, .qntQ4 8 2 3 0),
    (0x4D404200, .dqQ4 16 4 8 0),
    (0x4E100070, .tagset 4 14 0),
    (0x50000010, .bra 2 0),
    (0x51200018, .braT 1 3 0),
    (0x533FFFF0, .brany 1 262142 0),
    (0x5C000000, .exit 0),
    (0x64102018, .ldB32 4 2 3 0),
    (0x6E106FF8, .stsB32 4 6 511 0),
    (0x81221000, .uaddI32 2 2 1 0),
    (0x99080020, .umovi 1 4 0),
    (0x9999FC00, .umovhi 3 16256 0),
    (0x9E080001, .usr 1 0 1),
    (0xA70FFFF9, .uloop 1 65535 1),
    (0xB0100018, .fork 2 3 0),
    (0xB1320000, .rdzv 3 2 0),
    (0xB608C000, .cpyT2 0 8 12 0 0 0),
    (0xBB024000, .cpyMigr 0 2 4 0 0 0),
    (0xC1004600, .mmaP8x1 0 0 4 0 0 0),
    (0xC308C100, .mdrainW48 0 8 12 0 0 0),
    (0xC44AC100, .mplaneT 4 10 12 0 0 0),
    (0xC9300008, .mstat 3 1 0),
    (0xDC024048, .map 2 4 1 1 0),
    (0xE0000108, .trap 33 0),
    (0xE2000008, .eret 1 0),
    (0xE3426000, .ctxsave 4 2 6 0),
    (0xE5526000, .launch 5 2 6 0),
    (0xE6123000, .dcfg 1 2 3 0),
    (0xE7100020, .ctrrd 1 4 0),
    (0xE9180048, .sysrd 3 9 0),
    (0xEA180048, .syswr 3 9 0)] : List (Word × Instr)), decodeWord p.1 = .ok p.2) ∧
  (∀ p ∈ ([(0x00000000, .major), (0x2D000000, .major), (0xEB000000, .major), (0x010000F8, .subop), (0x1D042000, .subop),
      (0xD2000100, .subop), (0x50200010, .field), (0x5C000008, .field), (0x64100018, .field), (0x65082000, .group), (0x71042028, .group),
      (0x72042028, .scope), (0xF5000000, .hint), (0xFA123456, .hint), (0xFFFFFFFF, .hint)] : List (Word × Reject)), decodeWord p.1 = .error p.2) ∧
  (Reject.major.reason, Reject.subop.reason, Reject.field.reason, Reject.group.reason, Reject.scope.reason) = (1, 2, 3, 4, 5)

/-- Every instruction that has a word, with every operand at every value its fields admit, has a word by the encoder exactly
when it is no event of the machine, and where it is well formed the decoder gives it back from that word and from its four bytes
in memory order; whatever the decoder gives is well formed. -/
def Obligations.DecodeEncode : Prop :=
  (∀ i : Instr, i.wf = true → ∃ w : Word, encode i = some w ∧ decodeWord w = .ok i ∧
    ∀ rest : List Byte, decodeBytes ([byteOfWord w 0, byteOfWord w 1, byteOfWord w 2, byteOfWord w 3] ++ rest) = some (.ok i, rest)) ∧
  (∀ i : Instr, (encode i).isSome = !i.isEvent) ∧
  ∀ (w : Word) (i : Instr), decodeWord w = .ok i → i.wf = true

/-- From any state whose memory and scratchpads list rising addresses and no byte that equals what an unlisted byte reads as, a
step leads to such a state, whatever the schedule names and whatever instruction or event runs: two memories that read alike are
then equal data. (The form is the model's own representation of R4 and R163 to R166.) -/
def Obligations.MemoryStaysCanonical : Prop :=
  ∀ s t : State, s.MemOk → step s = .next t → t.MemOk

/-- After reset no block, queue, kernel, grid, saved unit, channel, partition or window exists, the journal is empty, the
measurement registers are zero, every pipe of a core holds no braid and the bobbins are free, every domain has no carved way,
memory reads 0 everywhere, and memory is in canonical form. What the spec leaves open here is a choice of the model (log entries
1 to 4). -/
def Obligations.ResetState : Prop :=
  State.reset.MemOk ∧ State.reset.blocks = [] ∧ State.reset.queues = [] ∧ State.reset.kernels = [] ∧ State.reset.grids = [] ∧
  State.reset.saved = [] ∧ State.reset.channels = [] ∧ State.reset.partitions = [] ∧ State.reset.windows = [] ∧ State.reset.accs = [] ∧
  State.reset.journal.waiting = [] ∧ State.reset.platform.powered = true ∧ (∀ m ∈ State.reset.platform.meas, m = List.replicate 48 0) ∧
  (∀ k, ∀ p ∈ (State.reset.core k).pipes.toList, p.braids = []) ∧ (∀ k b, (State.reset.bobbin k b).status = .free) ∧
  (∀ d, (State.reset.dom d).sways = 0 ∧ (State.reset.dom d).cycles = 0) ∧ ∀ a, memGet State.reset.mem a = 0
end

