-- ==== Sys2Proof/Laws/State.lean ====
section
/-! SUPPORT. One lemma per field per named update of the state: what the update leaves, true by rfl. -/

namespace Sys2Proof.Machine

@[simp] theorem State.setCore_mem (s : State) (k : Nat) (c : CoreState) : (s.setCore k c).mem = s.mem := rfl
@[simp] theorem State.setCore_past (s : State) (k : Nat) (c : CoreState) : (s.setCore k c).past = s.past := rfl
@[simp] theorem State.setCore_doms (s : State) (k : Nat) (c : CoreState) : (s.setCore k c).doms = s.doms := rfl
@[simp] theorem State.setCore_powers (s : State) (k : Nat) (c : CoreState) : (s.setCore k c).powers = s.powers := rfl
@[simp] theorem State.setCore_blocks (s : State) (k : Nat) (c : CoreState) : (s.setCore k c).blocks = s.blocks := rfl
@[simp] theorem State.setCore_accs (s : State) (k : Nat) (c : CoreState) : (s.setCore k c).accs = s.accs := rfl
@[simp] theorem State.setCore_xinvs (s : State) (k : Nat) (c : CoreState) : (s.setCore k c).xinvs = s.xinvs := rfl
@[simp] theorem State.setCore_credits (s : State) (k : Nat) (c : CoreState) : (s.setCore k c).credits = s.credits := rfl
@[simp] theorem State.setCore_frozen (s : State) (k : Nat) (c : CoreState) : (s.setCore k c).frozen = s.frozen := rfl
@[simp] theorem State.setCore_wafer (s : State) (k : Nat) (c : CoreState) : (s.setCore k c).wafer = s.wafer := rfl
@[simp] theorem State.setCore_street (s : State) (k : Nat) (c : CoreState) : (s.setCore k c).street = s.street := rfl
@[simp] theorem State.setCore_partitions (s : State) (k : Nat) (c : CoreState) : (s.setCore k c).partitions = s.partitions := rfl
@[simp] theorem State.setCore_windows (s : State) (k : Nat) (c : CoreState) : (s.setCore k c).windows = s.windows := rfl
@[simp] theorem State.setCore_fabric (s : State) (k : Nat) (c : CoreState) : (s.setCore k c).fabric = s.fabric := rfl
@[simp] theorem State.setCore_queues (s : State) (k : Nat) (c : CoreState) : (s.setCore k c).queues = s.queues := rfl
@[simp] theorem State.setCore_grids (s : State) (k : Nat) (c : CoreState) : (s.setCore k c).grids = s.grids := rfl
@[simp] theorem State.setCore_saved (s : State) (k : Nat) (c : CoreState) : (s.setCore k c).saved = s.saved := rfl
@[simp] theorem State.setCore_images (s : State) (k : Nat) (c : CoreState) : (s.setCore k c).images = s.images := rfl
@[simp] theorem State.setCore_kernels (s : State) (k : Nat) (c : CoreState) : (s.setCore k c).kernels = s.kernels := rfl
@[simp] theorem State.setCore_channels (s : State) (k : Nat) (c : CoreState) : (s.setCore k c).channels = s.channels := rfl
@[simp] theorem State.setCore_journal (s : State) (k : Nat) (c : CoreState) : (s.setCore k c).journal = s.journal := rfl
@[simp] theorem State.setCore_platform (s : State) (k : Nat) (c : CoreState) : (s.setCore k c).platform = s.platform := rfl
@[simp] theorem State.setCore_feCycles (s : State) (k : Nat) (c : CoreState) : (s.setCore k c).feCycles = s.feCycles := rfl
@[simp] theorem State.setCore_nextBid (s : State) (k : Nat) (c : CoreState) : (s.setCore k c).nextBid = s.nextBid := rfl
@[simp] theorem State.setCore_nextUnit (s : State) (k : Nat) (c : CoreState) : (s.setCore k c).nextUnit = s.nextUnit := rfl
@[simp] theorem State.setCore_nextGrid (s : State) (k : Nat) (c : CoreState) : (s.setCore k c).nextGrid = s.nextGrid := rfl
@[simp] theorem State.setCore_nextId (s : State) (k : Nat) (c : CoreState) : (s.setCore k c).nextId = s.nextId := rfl
@[simp] theorem State.setCore_outbox (s : State) (k : Nat) (c : CoreState) : (s.setCore k c).outbox = s.outbox := rfl
@[simp] theorem State.setCore_freeIdx (s : State) (k : Nat) (c : CoreState) : (s.setCore k c).freeIdx = s.freeIdx := rfl
@[simp] theorem State.setCore_agenda (s : State) (k : Nat) (c : CoreState) : (s.setCore k c).agenda = s.agenda := rfl
@[simp] theorem State.setCore_issue (s : State) (k : Nat) (c : CoreState) : (s.setCore k c).issue = s.issue := rfl

@[simp] theorem State.updCore_mem (s : State) (k : Nat) (f : CoreState → CoreState) : (s.updCore k f).mem = s.mem := rfl
@[simp] theorem State.updCore_past (s : State) (k : Nat) (f : CoreState → CoreState) : (s.updCore k f).past = s.past := rfl
@[simp] theorem State.updCore_doms (s : State) (k : Nat) (f : CoreState → CoreState) : (s.updCore k f).doms = s.doms := rfl
@[simp] theorem State.updCore_powers (s : State) (k : Nat) (f : CoreState → CoreState) : (s.updCore k f).powers = s.powers := rfl
@[simp] theorem State.updCore_blocks (s : State) (k : Nat) (f : CoreState → CoreState) : (s.updCore k f).blocks = s.blocks := rfl
@[simp] theorem State.updCore_accs (s : State) (k : Nat) (f : CoreState → CoreState) : (s.updCore k f).accs = s.accs := rfl
@[simp] theorem State.updCore_xinvs (s : State) (k : Nat) (f : CoreState → CoreState) : (s.updCore k f).xinvs = s.xinvs := rfl
@[simp] theorem State.updCore_credits (s : State) (k : Nat) (f : CoreState → CoreState) : (s.updCore k f).credits = s.credits := rfl
@[simp] theorem State.updCore_frozen (s : State) (k : Nat) (f : CoreState → CoreState) : (s.updCore k f).frozen = s.frozen := rfl
@[simp] theorem State.updCore_wafer (s : State) (k : Nat) (f : CoreState → CoreState) : (s.updCore k f).wafer = s.wafer := rfl
@[simp] theorem State.updCore_street (s : State) (k : Nat) (f : CoreState → CoreState) : (s.updCore k f).street = s.street := rfl
@[simp] theorem State.updCore_partitions (s : State) (k : Nat) (f : CoreState → CoreState) : (s.updCore k f).partitions = s.partitions := rfl
@[simp] theorem State.updCore_windows (s : State) (k : Nat) (f : CoreState → CoreState) : (s.updCore k f).windows = s.windows := rfl
@[simp] theorem State.updCore_fabric (s : State) (k : Nat) (f : CoreState → CoreState) : (s.updCore k f).fabric = s.fabric := rfl
@[simp] theorem State.updCore_queues (s : State) (k : Nat) (f : CoreState → CoreState) : (s.updCore k f).queues = s.queues := rfl
@[simp] theorem State.updCore_grids (s : State) (k : Nat) (f : CoreState → CoreState) : (s.updCore k f).grids = s.grids := rfl
@[simp] theorem State.updCore_saved (s : State) (k : Nat) (f : CoreState → CoreState) : (s.updCore k f).saved = s.saved := rfl
@[simp] theorem State.updCore_images (s : State) (k : Nat) (f : CoreState → CoreState) : (s.updCore k f).images = s.images := rfl
@[simp] theorem State.updCore_kernels (s : State) (k : Nat) (f : CoreState → CoreState) : (s.updCore k f).kernels = s.kernels := rfl
@[simp] theorem State.updCore_channels (s : State) (k : Nat) (f : CoreState → CoreState) : (s.updCore k f).channels = s.channels := rfl
@[simp] theorem State.updCore_journal (s : State) (k : Nat) (f : CoreState → CoreState) : (s.updCore k f).journal = s.journal := rfl
@[simp] theorem State.updCore_platform (s : State) (k : Nat) (f : CoreState → CoreState) : (s.updCore k f).platform = s.platform := rfl
@[simp] theorem State.updCore_feCycles (s : State) (k : Nat) (f : CoreState → CoreState) : (s.updCore k f).feCycles = s.feCycles := rfl
@[simp] theorem State.updCore_nextBid (s : State) (k : Nat) (f : CoreState → CoreState) : (s.updCore k f).nextBid = s.nextBid := rfl
@[simp] theorem State.updCore_nextUnit (s : State) (k : Nat) (f : CoreState → CoreState) : (s.updCore k f).nextUnit = s.nextUnit := rfl
@[simp] theorem State.updCore_nextGrid (s : State) (k : Nat) (f : CoreState → CoreState) : (s.updCore k f).nextGrid = s.nextGrid := rfl
@[simp] theorem State.updCore_nextId (s : State) (k : Nat) (f : CoreState → CoreState) : (s.updCore k f).nextId = s.nextId := rfl
@[simp] theorem State.updCore_outbox (s : State) (k : Nat) (f : CoreState → CoreState) : (s.updCore k f).outbox = s.outbox := rfl
@[simp] theorem State.updCore_freeIdx (s : State) (k : Nat) (f : CoreState → CoreState) : (s.updCore k f).freeIdx = s.freeIdx := rfl
@[simp] theorem State.updCore_agenda (s : State) (k : Nat) (f : CoreState → CoreState) : (s.updCore k f).agenda = s.agenda := rfl
@[simp] theorem State.updCore_issue (s : State) (k : Nat) (f : CoreState → CoreState) : (s.updCore k f).issue = s.issue := rfl

@[simp] theorem State.setDom_mem (s : State) (d : Nat) (x : DomState) : (s.setDom d x).mem = s.mem := rfl
@[simp] theorem State.setDom_past (s : State) (d : Nat) (x : DomState) : (s.setDom d x).past = s.past := rfl
@[simp] theorem State.setDom_cores (s : State) (d : Nat) (x : DomState) : (s.setDom d x).cores = s.cores := rfl
@[simp] theorem State.setDom_powers (s : State) (d : Nat) (x : DomState) : (s.setDom d x).powers = s.powers := rfl
@[simp] theorem State.setDom_blocks (s : State) (d : Nat) (x : DomState) : (s.setDom d x).blocks = s.blocks := rfl
@[simp] theorem State.setDom_accs (s : State) (d : Nat) (x : DomState) : (s.setDom d x).accs = s.accs := rfl
@[simp] theorem State.setDom_xinvs (s : State) (d : Nat) (x : DomState) : (s.setDom d x).xinvs = s.xinvs := rfl
@[simp] theorem State.setDom_credits (s : State) (d : Nat) (x : DomState) : (s.setDom d x).credits = s.credits := rfl
@[simp] theorem State.setDom_frozen (s : State) (d : Nat) (x : DomState) : (s.setDom d x).frozen = s.frozen := rfl
@[simp] theorem State.setDom_wafer (s : State) (d : Nat) (x : DomState) : (s.setDom d x).wafer = s.wafer := rfl
@[simp] theorem State.setDom_street (s : State) (d : Nat) (x : DomState) : (s.setDom d x).street = s.street := rfl
@[simp] theorem State.setDom_partitions (s : State) (d : Nat) (x : DomState) : (s.setDom d x).partitions = s.partitions := rfl
@[simp] theorem State.setDom_windows (s : State) (d : Nat) (x : DomState) : (s.setDom d x).windows = s.windows := rfl
@[simp] theorem State.setDom_fabric (s : State) (d : Nat) (x : DomState) : (s.setDom d x).fabric = s.fabric := rfl
@[simp] theorem State.setDom_queues (s : State) (d : Nat) (x : DomState) : (s.setDom d x).queues = s.queues := rfl
@[simp] theorem State.setDom_grids (s : State) (d : Nat) (x : DomState) : (s.setDom d x).grids = s.grids := rfl
@[simp] theorem State.setDom_saved (s : State) (d : Nat) (x : DomState) : (s.setDom d x).saved = s.saved := rfl
@[simp] theorem State.setDom_images (s : State) (d : Nat) (x : DomState) : (s.setDom d x).images = s.images := rfl
@[simp] theorem State.setDom_kernels (s : State) (d : Nat) (x : DomState) : (s.setDom d x).kernels = s.kernels := rfl
@[simp] theorem State.setDom_channels (s : State) (d : Nat) (x : DomState) : (s.setDom d x).channels = s.channels := rfl
@[simp] theorem State.setDom_journal (s : State) (d : Nat) (x : DomState) : (s.setDom d x).journal = s.journal := rfl
@[simp] theorem State.setDom_platform (s : State) (d : Nat) (x : DomState) : (s.setDom d x).platform = s.platform := rfl
@[simp] theorem State.setDom_feCycles (s : State) (d : Nat) (x : DomState) : (s.setDom d x).feCycles = s.feCycles := rfl
@[simp] theorem State.setDom_nextBid (s : State) (d : Nat) (x : DomState) : (s.setDom d x).nextBid = s.nextBid := rfl
@[simp] theorem State.setDom_nextUnit (s : State) (d : Nat) (x : DomState) : (s.setDom d x).nextUnit = s.nextUnit := rfl
@[simp] theorem State.setDom_nextGrid (s : State) (d : Nat) (x : DomState) : (s.setDom d x).nextGrid = s.nextGrid := rfl
@[simp] theorem State.setDom_nextId (s : State) (d : Nat) (x : DomState) : (s.setDom d x).nextId = s.nextId := rfl
@[simp] theorem State.setDom_outbox (s : State) (d : Nat) (x : DomState) : (s.setDom d x).outbox = s.outbox := rfl
@[simp] theorem State.setDom_freeIdx (s : State) (d : Nat) (x : DomState) : (s.setDom d x).freeIdx = s.freeIdx := rfl
@[simp] theorem State.setDom_agenda (s : State) (d : Nat) (x : DomState) : (s.setDom d x).agenda = s.agenda := rfl
@[simp] theorem State.setDom_issue (s : State) (d : Nat) (x : DomState) : (s.setDom d x).issue = s.issue := rfl

@[simp] theorem State.updDom_mem (s : State) (d : Nat) (f : DomState → DomState) : (s.updDom d f).mem = s.mem := rfl
@[simp] theorem State.updDom_past (s : State) (d : Nat) (f : DomState → DomState) : (s.updDom d f).past = s.past := rfl
@[simp] theorem State.updDom_cores (s : State) (d : Nat) (f : DomState → DomState) : (s.updDom d f).cores = s.cores := rfl
@[simp] theorem State.updDom_powers (s : State) (d : Nat) (f : DomState → DomState) : (s.updDom d f).powers = s.powers := rfl
@[simp] theorem State.updDom_blocks (s : State) (d : Nat) (f : DomState → DomState) : (s.updDom d f).blocks = s.blocks := rfl
@[simp] theorem State.updDom_accs (s : State) (d : Nat) (f : DomState → DomState) : (s.updDom d f).accs = s.accs := rfl
@[simp] theorem State.updDom_xinvs (s : State) (d : Nat) (f : DomState → DomState) : (s.updDom d f).xinvs = s.xinvs := rfl
@[simp] theorem State.updDom_credits (s : State) (d : Nat) (f : DomState → DomState) : (s.updDom d f).credits = s.credits := rfl
@[simp] theorem State.updDom_frozen (s : State) (d : Nat) (f : DomState → DomState) : (s.updDom d f).frozen = s.frozen := rfl
@[simp] theorem State.updDom_wafer (s : State) (d : Nat) (f : DomState → DomState) : (s.updDom d f).wafer = s.wafer := rfl
@[simp] theorem State.updDom_street (s : State) (d : Nat) (f : DomState → DomState) : (s.updDom d f).street = s.street := rfl
@[simp] theorem State.updDom_partitions (s : State) (d : Nat) (f : DomState → DomState) : (s.updDom d f).partitions = s.partitions := rfl
@[simp] theorem State.updDom_windows (s : State) (d : Nat) (f : DomState → DomState) : (s.updDom d f).windows = s.windows := rfl
@[simp] theorem State.updDom_fabric (s : State) (d : Nat) (f : DomState → DomState) : (s.updDom d f).fabric = s.fabric := rfl
@[simp] theorem State.updDom_queues (s : State) (d : Nat) (f : DomState → DomState) : (s.updDom d f).queues = s.queues := rfl
@[simp] theorem State.updDom_grids (s : State) (d : Nat) (f : DomState → DomState) : (s.updDom d f).grids = s.grids := rfl
@[simp] theorem State.updDom_saved (s : State) (d : Nat) (f : DomState → DomState) : (s.updDom d f).saved = s.saved := rfl
@[simp] theorem State.updDom_images (s : State) (d : Nat) (f : DomState → DomState) : (s.updDom d f).images = s.images := rfl
@[simp] theorem State.updDom_kernels (s : State) (d : Nat) (f : DomState → DomState) : (s.updDom d f).kernels = s.kernels := rfl
@[simp] theorem State.updDom_channels (s : State) (d : Nat) (f : DomState → DomState) : (s.updDom d f).channels = s.channels := rfl
@[simp] theorem State.updDom_journal (s : State) (d : Nat) (f : DomState → DomState) : (s.updDom d f).journal = s.journal := rfl
@[simp] theorem State.updDom_platform (s : State) (d : Nat) (f : DomState → DomState) : (s.updDom d f).platform = s.platform := rfl
@[simp] theorem State.updDom_feCycles (s : State) (d : Nat) (f : DomState → DomState) : (s.updDom d f).feCycles = s.feCycles := rfl
@[simp] theorem State.updDom_nextBid (s : State) (d : Nat) (f : DomState → DomState) : (s.updDom d f).nextBid = s.nextBid := rfl
@[simp] theorem State.updDom_nextUnit (s : State) (d : Nat) (f : DomState → DomState) : (s.updDom d f).nextUnit = s.nextUnit := rfl
@[simp] theorem State.updDom_nextGrid (s : State) (d : Nat) (f : DomState → DomState) : (s.updDom d f).nextGrid = s.nextGrid := rfl
@[simp] theorem State.updDom_nextId (s : State) (d : Nat) (f : DomState → DomState) : (s.updDom d f).nextId = s.nextId := rfl
@[simp] theorem State.updDom_outbox (s : State) (d : Nat) (f : DomState → DomState) : (s.updDom d f).outbox = s.outbox := rfl
@[simp] theorem State.updDom_freeIdx (s : State) (d : Nat) (f : DomState → DomState) : (s.updDom d f).freeIdx = s.freeIdx := rfl
@[simp] theorem State.updDom_agenda (s : State) (d : Nat) (f : DomState → DomState) : (s.updDom d f).agenda = s.agenda := rfl
@[simp] theorem State.updDom_issue (s : State) (d : Nat) (f : DomState → DomState) : (s.updDom d f).issue = s.issue := rfl

@[simp] theorem State.setPower_mem (s : State) (d : Nat) (x : PowerState) : (s.setPower d x).mem = s.mem := rfl
@[simp] theorem State.setPower_past (s : State) (d : Nat) (x : PowerState) : (s.setPower d x).past = s.past := rfl
@[simp] theorem State.setPower_cores (s : State) (d : Nat) (x : PowerState) : (s.setPower d x).cores = s.cores := rfl
@[simp] theorem State.setPower_doms (s : State) (d : Nat) (x : PowerState) : (s.setPower d x).doms = s.doms := rfl
@[simp] theorem State.setPower_blocks (s : State) (d : Nat) (x : PowerState) : (s.setPower d x).blocks = s.blocks := rfl
@[simp] theorem State.setPower_accs (s : State) (d : Nat) (x : PowerState) : (s.setPower d x).accs = s.accs := rfl
@[simp] theorem State.setPower_xinvs (s : State) (d : Nat) (x : PowerState) : (s.setPower d x).xinvs = s.xinvs := rfl
@[simp] theorem State.setPower_credits (s : State) (d : Nat) (x : PowerState) : (s.setPower d x).credits = s.credits := rfl
@[simp] theorem State.setPower_frozen (s : State) (d : Nat) (x : PowerState) : (s.setPower d x).frozen = s.frozen := rfl
@[simp] theorem State.setPower_wafer (s : State) (d : Nat) (x : PowerState) : (s.setPower d x).wafer = s.wafer := rfl
@[simp] theorem State.setPower_street (s : State) (d : Nat) (x : PowerState) : (s.setPower d x).street = s.street := rfl
@[simp] theorem State.setPower_partitions (s : State) (d : Nat) (x : PowerState) : (s.setPower d x).partitions = s.partitions := rfl
@[simp] theorem State.setPower_windows (s : State) (d : Nat) (x : PowerState) : (s.setPower d x).windows = s.windows := rfl
@[simp] theorem State.setPower_fabric (s : State) (d : Nat) (x : PowerState) : (s.setPower d x).fabric = s.fabric := rfl
@[simp] theorem State.setPower_queues (s : State) (d : Nat) (x : PowerState) : (s.setPower d x).queues = s.queues := rfl
@[simp] theorem State.setPower_grids (s : State) (d : Nat) (x : PowerState) : (s.setPower d x).grids = s.grids := rfl
@[simp] theorem State.setPower_saved (s : State) (d : Nat) (x : PowerState) : (s.setPower d x).saved = s.saved := rfl
@[simp] theorem State.setPower_images (s : State) (d : Nat) (x : PowerState) : (s.setPower d x).images = s.images := rfl
@[simp] theorem State.setPower_kernels (s : State) (d : Nat) (x : PowerState) : (s.setPower d x).kernels = s.kernels := rfl
@[simp] theorem State.setPower_channels (s : State) (d : Nat) (x : PowerState) : (s.setPower d x).channels = s.channels := rfl
@[simp] theorem State.setPower_journal (s : State) (d : Nat) (x : PowerState) : (s.setPower d x).journal = s.journal := rfl
@[simp] theorem State.setPower_platform (s : State) (d : Nat) (x : PowerState) : (s.setPower d x).platform = s.platform := rfl
@[simp] theorem State.setPower_feCycles (s : State) (d : Nat) (x : PowerState) : (s.setPower d x).feCycles = s.feCycles := rfl
@[simp] theorem State.setPower_nextBid (s : State) (d : Nat) (x : PowerState) : (s.setPower d x).nextBid = s.nextBid := rfl
@[simp] theorem State.setPower_nextUnit (s : State) (d : Nat) (x : PowerState) : (s.setPower d x).nextUnit = s.nextUnit := rfl
@[simp] theorem State.setPower_nextGrid (s : State) (d : Nat) (x : PowerState) : (s.setPower d x).nextGrid = s.nextGrid := rfl
@[simp] theorem State.setPower_nextId (s : State) (d : Nat) (x : PowerState) : (s.setPower d x).nextId = s.nextId := rfl
@[simp] theorem State.setPower_outbox (s : State) (d : Nat) (x : PowerState) : (s.setPower d x).outbox = s.outbox := rfl
@[simp] theorem State.setPower_freeIdx (s : State) (d : Nat) (x : PowerState) : (s.setPower d x).freeIdx = s.freeIdx := rfl
@[simp] theorem State.setPower_agenda (s : State) (d : Nat) (x : PowerState) : (s.setPower d x).agenda = s.agenda := rfl
@[simp] theorem State.setPower_issue (s : State) (d : Nat) (x : PowerState) : (s.setPower d x).issue = s.issue := rfl

@[simp] theorem State.updPower_mem (s : State) (d : Nat) (f : PowerState → PowerState) : (s.updPower d f).mem = s.mem := rfl
@[simp] theorem State.updPower_past (s : State) (d : Nat) (f : PowerState → PowerState) : (s.updPower d f).past = s.past := rfl
@[simp] theorem State.updPower_cores (s : State) (d : Nat) (f : PowerState → PowerState) : (s.updPower d f).cores = s.cores := rfl
@[simp] theorem State.updPower_doms (s : State) (d : Nat) (f : PowerState → PowerState) : (s.updPower d f).doms = s.doms := rfl
@[simp] theorem State.updPower_blocks (s : State) (d : Nat) (f : PowerState → PowerState) : (s.updPower d f).blocks = s.blocks := rfl
@[simp] theorem State.updPower_accs (s : State) (d : Nat) (f : PowerState → PowerState) : (s.updPower d f).accs = s.accs := rfl
@[simp] theorem State.updPower_xinvs (s : State) (d : Nat) (f : PowerState → PowerState) : (s.updPower d f).xinvs = s.xinvs := rfl
@[simp] theorem State.updPower_credits (s : State) (d : Nat) (f : PowerState → PowerState) : (s.updPower d f).credits = s.credits := rfl
@[simp] theorem State.updPower_frozen (s : State) (d : Nat) (f : PowerState → PowerState) : (s.updPower d f).frozen = s.frozen := rfl
@[simp] theorem State.updPower_wafer (s : State) (d : Nat) (f : PowerState → PowerState) : (s.updPower d f).wafer = s.wafer := rfl
@[simp] theorem State.updPower_street (s : State) (d : Nat) (f : PowerState → PowerState) : (s.updPower d f).street = s.street := rfl
@[simp] theorem State.updPower_partitions (s : State) (d : Nat) (f : PowerState → PowerState) : (s.updPower d f).partitions = s.partitions := rfl
@[simp] theorem State.updPower_windows (s : State) (d : Nat) (f : PowerState → PowerState) : (s.updPower d f).windows = s.windows := rfl
@[simp] theorem State.updPower_fabric (s : State) (d : Nat) (f : PowerState → PowerState) : (s.updPower d f).fabric = s.fabric := rfl
@[simp] theorem State.updPower_queues (s : State) (d : Nat) (f : PowerState → PowerState) : (s.updPower d f).queues = s.queues := rfl
@[simp] theorem State.updPower_grids (s : State) (d : Nat) (f : PowerState → PowerState) : (s.updPower d f).grids = s.grids := rfl
@[simp] theorem State.updPower_saved (s : State) (d : Nat) (f : PowerState → PowerState) : (s.updPower d f).saved = s.saved := rfl
@[simp] theorem State.updPower_images (s : State) (d : Nat) (f : PowerState → PowerState) : (s.updPower d f).images = s.images := rfl
@[simp] theorem State.updPower_kernels (s : State) (d : Nat) (f : PowerState → PowerState) : (s.updPower d f).kernels = s.kernels := rfl
@[simp] theorem State.updPower_channels (s : State) (d : Nat) (f : PowerState → PowerState) : (s.updPower d f).channels = s.channels := rfl
@[simp] theorem State.updPower_journal (s : State) (d : Nat) (f : PowerState → PowerState) : (s.updPower d f).journal = s.journal := rfl
@[simp] theorem State.updPower_platform (s : State) (d : Nat) (f : PowerState → PowerState) : (s.updPower d f).platform = s.platform := rfl
@[simp] theorem State.updPower_feCycles (s : State) (d : Nat) (f : PowerState → PowerState) : (s.updPower d f).feCycles = s.feCycles := rfl
@[simp] theorem State.updPower_nextBid (s : State) (d : Nat) (f : PowerState → PowerState) : (s.updPower d f).nextBid = s.nextBid := rfl
@[simp] theorem State.updPower_nextUnit (s : State) (d : Nat) (f : PowerState → PowerState) : (s.updPower d f).nextUnit = s.nextUnit := rfl
@[simp] theorem State.updPower_nextGrid (s : State) (d : Nat) (f : PowerState → PowerState) : (s.updPower d f).nextGrid = s.nextGrid := rfl
@[simp] theorem State.updPower_nextId (s : State) (d : Nat) (f : PowerState → PowerState) : (s.updPower d f).nextId = s.nextId := rfl
@[simp] theorem State.updPower_outbox (s : State) (d : Nat) (f : PowerState → PowerState) : (s.updPower d f).outbox = s.outbox := rfl
@[simp] theorem State.updPower_freeIdx (s : State) (d : Nat) (f : PowerState → PowerState) : (s.updPower d f).freeIdx = s.freeIdx := rfl
@[simp] theorem State.updPower_agenda (s : State) (d : Nat) (f : PowerState → PowerState) : (s.updPower d f).agenda = s.agenda := rfl
@[simp] theorem State.updPower_issue (s : State) (d : Nat) (f : PowerState → PowerState) : (s.updPower d f).issue = s.issue := rfl

@[simp] theorem State.updBlock_mem (s : State) (bid : Nat) (f : Block → Block) : (s.updBlock bid f).mem = s.mem := rfl
@[simp] theorem State.updBlock_past (s : State) (bid : Nat) (f : Block → Block) : (s.updBlock bid f).past = s.past := rfl
@[simp] theorem State.updBlock_cores (s : State) (bid : Nat) (f : Block → Block) : (s.updBlock bid f).cores = s.cores := rfl
@[simp] theorem State.updBlock_doms (s : State) (bid : Nat) (f : Block → Block) : (s.updBlock bid f).doms = s.doms := rfl
@[simp] theorem State.updBlock_powers (s : State) (bid : Nat) (f : Block → Block) : (s.updBlock bid f).powers = s.powers := rfl
@[simp] theorem State.updBlock_accs (s : State) (bid : Nat) (f : Block → Block) : (s.updBlock bid f).accs = s.accs := rfl
@[simp] theorem State.updBlock_xinvs (s : State) (bid : Nat) (f : Block → Block) : (s.updBlock bid f).xinvs = s.xinvs := rfl
@[simp] theorem State.updBlock_credits (s : State) (bid : Nat) (f : Block → Block) : (s.updBlock bid f).credits = s.credits := rfl
@[simp] theorem State.updBlock_frozen (s : State) (bid : Nat) (f : Block → Block) : (s.updBlock bid f).frozen = s.frozen := rfl
@[simp] theorem State.updBlock_wafer (s : State) (bid : Nat) (f : Block → Block) : (s.updBlock bid f).wafer = s.wafer := rfl
@[simp] theorem State.updBlock_street (s : State) (bid : Nat) (f : Block → Block) : (s.updBlock bid f).street = s.street := rfl
@[simp] theorem State.updBlock_partitions (s : State) (bid : Nat) (f : Block → Block) : (s.updBlock bid f).partitions = s.partitions := rfl
@[simp] theorem State.updBlock_windows (s : State) (bid : Nat) (f : Block → Block) : (s.updBlock bid f).windows = s.windows := rfl
@[simp] theorem State.updBlock_fabric (s : State) (bid : Nat) (f : Block → Block) : (s.updBlock bid f).fabric = s.fabric := rfl
@[simp] theorem State.updBlock_queues (s : State) (bid : Nat) (f : Block → Block) : (s.updBlock bid f).queues = s.queues := rfl
@[simp] theorem State.updBlock_grids (s : State) (bid : Nat) (f : Block → Block) : (s.updBlock bid f).grids = s.grids := rfl
@[simp] theorem State.updBlock_saved (s : State) (bid : Nat) (f : Block → Block) : (s.updBlock bid f).saved = s.saved := rfl
@[simp] theorem State.updBlock_images (s : State) (bid : Nat) (f : Block → Block) : (s.updBlock bid f).images = s.images := rfl
@[simp] theorem State.updBlock_kernels (s : State) (bid : Nat) (f : Block → Block) : (s.updBlock bid f).kernels = s.kernels := rfl
@[simp] theorem State.updBlock_channels (s : State) (bid : Nat) (f : Block → Block) : (s.updBlock bid f).channels = s.channels := rfl
@[simp] theorem State.updBlock_journal (s : State) (bid : Nat) (f : Block → Block) : (s.updBlock bid f).journal = s.journal := rfl
@[simp] theorem State.updBlock_platform (s : State) (bid : Nat) (f : Block → Block) : (s.updBlock bid f).platform = s.platform := rfl
@[simp] theorem State.updBlock_feCycles (s : State) (bid : Nat) (f : Block → Block) : (s.updBlock bid f).feCycles = s.feCycles := rfl
@[simp] theorem State.updBlock_nextBid (s : State) (bid : Nat) (f : Block → Block) : (s.updBlock bid f).nextBid = s.nextBid := rfl
@[simp] theorem State.updBlock_nextUnit (s : State) (bid : Nat) (f : Block → Block) : (s.updBlock bid f).nextUnit = s.nextUnit := rfl
@[simp] theorem State.updBlock_nextGrid (s : State) (bid : Nat) (f : Block → Block) : (s.updBlock bid f).nextGrid = s.nextGrid := rfl
@[simp] theorem State.updBlock_nextId (s : State) (bid : Nat) (f : Block → Block) : (s.updBlock bid f).nextId = s.nextId := rfl
@[simp] theorem State.updBlock_outbox (s : State) (bid : Nat) (f : Block → Block) : (s.updBlock bid f).outbox = s.outbox := rfl
@[simp] theorem State.updBlock_freeIdx (s : State) (bid : Nat) (f : Block → Block) : (s.updBlock bid f).freeIdx = s.freeIdx := rfl
@[simp] theorem State.updBlock_agenda (s : State) (bid : Nat) (f : Block → Block) : (s.updBlock bid f).agenda = s.agenda := rfl
@[simp] theorem State.updBlock_issue (s : State) (bid : Nat) (f : Block → Block) : (s.updBlock bid f).issue = s.issue := rfl

@[simp] theorem State.updThread_mem (s : State) (bid tid : Nat) (f : Thread → Thread) : (s.updThread bid tid f).mem = s.mem := rfl
@[simp] theorem State.updThread_past (s : State) (bid tid : Nat) (f : Thread → Thread) : (s.updThread bid tid f).past = s.past := rfl
@[simp] theorem State.updThread_cores (s : State) (bid tid : Nat) (f : Thread → Thread) : (s.updThread bid tid f).cores = s.cores := rfl
@[simp] theorem State.updThread_doms (s : State) (bid tid : Nat) (f : Thread → Thread) : (s.updThread bid tid f).doms = s.doms := rfl
@[simp] theorem State.updThread_powers (s : State) (bid tid : Nat) (f : Thread → Thread) : (s.updThread bid tid f).powers = s.powers := rfl
@[simp] theorem State.updThread_accs (s : State) (bid tid : Nat) (f : Thread → Thread) : (s.updThread bid tid f).accs = s.accs := rfl
@[simp] theorem State.updThread_xinvs (s : State) (bid tid : Nat) (f : Thread → Thread) : (s.updThread bid tid f).xinvs = s.xinvs := rfl
@[simp] theorem State.updThread_credits (s : State) (bid tid : Nat) (f : Thread → Thread) : (s.updThread bid tid f).credits = s.credits := rfl
@[simp] theorem State.updThread_frozen (s : State) (bid tid : Nat) (f : Thread → Thread) : (s.updThread bid tid f).frozen = s.frozen := rfl
@[simp] theorem State.updThread_wafer (s : State) (bid tid : Nat) (f : Thread → Thread) : (s.updThread bid tid f).wafer = s.wafer := rfl
@[simp] theorem State.updThread_street (s : State) (bid tid : Nat) (f : Thread → Thread) : (s.updThread bid tid f).street = s.street := rfl
@[simp] theorem State.updThread_partitions (s : State) (bid tid : Nat) (f : Thread → Thread) : (s.updThread bid tid f).partitions = s.partitions := rfl
@[simp] theorem State.updThread_windows (s : State) (bid tid : Nat) (f : Thread → Thread) : (s.updThread bid tid f).windows = s.windows := rfl
@[simp] theorem State.updThread_fabric (s : State) (bid tid : Nat) (f : Thread → Thread) : (s.updThread bid tid f).fabric = s.fabric := rfl
@[simp] theorem State.updThread_queues (s : State) (bid tid : Nat) (f : Thread → Thread) : (s.updThread bid tid f).queues = s.queues := rfl
@[simp] theorem State.updThread_grids (s : State) (bid tid : Nat) (f : Thread → Thread) : (s.updThread bid tid f).grids = s.grids := rfl
@[simp] theorem State.updThread_saved (s : State) (bid tid : Nat) (f : Thread → Thread) : (s.updThread bid tid f).saved = s.saved := rfl
@[simp] theorem State.updThread_images (s : State) (bid tid : Nat) (f : Thread → Thread) : (s.updThread bid tid f).images = s.images := rfl
@[simp] theorem State.updThread_kernels (s : State) (bid tid : Nat) (f : Thread → Thread) : (s.updThread bid tid f).kernels = s.kernels := rfl
@[simp] theorem State.updThread_channels (s : State) (bid tid : Nat) (f : Thread → Thread) : (s.updThread bid tid f).channels = s.channels := rfl
@[simp] theorem State.updThread_journal (s : State) (bid tid : Nat) (f : Thread → Thread) : (s.updThread bid tid f).journal = s.journal := rfl
@[simp] theorem State.updThread_platform (s : State) (bid tid : Nat) (f : Thread → Thread) : (s.updThread bid tid f).platform = s.platform := rfl
@[simp] theorem State.updThread_feCycles (s : State) (bid tid : Nat) (f : Thread → Thread) : (s.updThread bid tid f).feCycles = s.feCycles := rfl
@[simp] theorem State.updThread_nextBid (s : State) (bid tid : Nat) (f : Thread → Thread) : (s.updThread bid tid f).nextBid = s.nextBid := rfl
@[simp] theorem State.updThread_nextUnit (s : State) (bid tid : Nat) (f : Thread → Thread) : (s.updThread bid tid f).nextUnit = s.nextUnit := rfl
@[simp] theorem State.updThread_nextGrid (s : State) (bid tid : Nat) (f : Thread → Thread) : (s.updThread bid tid f).nextGrid = s.nextGrid := rfl
@[simp] theorem State.updThread_nextId (s : State) (bid tid : Nat) (f : Thread → Thread) : (s.updThread bid tid f).nextId = s.nextId := rfl
@[simp] theorem State.updThread_outbox (s : State) (bid tid : Nat) (f : Thread → Thread) : (s.updThread bid tid f).outbox = s.outbox := rfl
@[simp] theorem State.updThread_freeIdx (s : State) (bid tid : Nat) (f : Thread → Thread) : (s.updThread bid tid f).freeIdx = s.freeIdx := rfl
@[simp] theorem State.updThread_agenda (s : State) (bid tid : Nat) (f : Thread → Thread) : (s.updThread bid tid f).agenda = s.agenda := rfl
@[simp] theorem State.updThread_issue (s : State) (bid tid : Nat) (f : Thread → Thread) : (s.updThread bid tid f).issue = s.issue := rfl

@[simp] theorem State.updBobbin_mem (s : State) (core b : Nat) (f : Bobbin → Bobbin) : (s.updBobbin core b f).mem = s.mem := rfl
@[simp] theorem State.updBobbin_past (s : State) (core b : Nat) (f : Bobbin → Bobbin) : (s.updBobbin core b f).past = s.past := rfl
@[simp] theorem State.updBobbin_doms (s : State) (core b : Nat) (f : Bobbin → Bobbin) : (s.updBobbin core b f).doms = s.doms := rfl
@[simp] theorem State.updBobbin_powers (s : State) (core b : Nat) (f : Bobbin → Bobbin) : (s.updBobbin core b f).powers = s.powers := rfl
@[simp] theorem State.updBobbin_blocks (s : State) (core b : Nat) (f : Bobbin → Bobbin) : (s.updBobbin core b f).blocks = s.blocks := rfl
@[simp] theorem State.updBobbin_accs (s : State) (core b : Nat) (f : Bobbin → Bobbin) : (s.updBobbin core b f).accs = s.accs := rfl
@[simp] theorem State.updBobbin_xinvs (s : State) (core b : Nat) (f : Bobbin → Bobbin) : (s.updBobbin core b f).xinvs = s.xinvs := rfl
@[simp] theorem State.updBobbin_credits (s : State) (core b : Nat) (f : Bobbin → Bobbin) : (s.updBobbin core b f).credits = s.credits := rfl
@[simp] theorem State.updBobbin_frozen (s : State) (core b : Nat) (f : Bobbin → Bobbin) : (s.updBobbin core b f).frozen = s.frozen := rfl
@[simp] theorem State.updBobbin_wafer (s : State) (core b : Nat) (f : Bobbin → Bobbin) : (s.updBobbin core b f).wafer = s.wafer := rfl
@[simp] theorem State.updBobbin_street (s : State) (core b : Nat) (f : Bobbin → Bobbin) : (s.updBobbin core b f).street = s.street := rfl
@[simp] theorem State.updBobbin_partitions (s : State) (core b : Nat) (f : Bobbin → Bobbin) : (s.updBobbin core b f).partitions = s.partitions := rfl
@[simp] theorem State.updBobbin_windows (s : State) (core b : Nat) (f : Bobbin → Bobbin) : (s.updBobbin core b f).windows = s.windows := rfl
@[simp] theorem State.updBobbin_fabric (s : State) (core b : Nat) (f : Bobbin → Bobbin) : (s.updBobbin core b f).fabric = s.fabric := rfl
@[simp] theorem State.updBobbin_queues (s : State) (core b : Nat) (f : Bobbin → Bobbin) : (s.updBobbin core b f).queues = s.queues := rfl
@[simp] theorem State.updBobbin_grids (s : State) (core b : Nat) (f : Bobbin → Bobbin) : (s.updBobbin core b f).grids = s.grids := rfl
@[simp] theorem State.updBobbin_saved (s : State) (core b : Nat) (f : Bobbin → Bobbin) : (s.updBobbin core b f).saved = s.saved := rfl
@[simp] theorem State.updBobbin_images (s : State) (core b : Nat) (f : Bobbin → Bobbin) : (s.updBobbin core b f).images = s.images := rfl
@[simp] theorem State.updBobbin_kernels (s : State) (core b : Nat) (f : Bobbin → Bobbin) : (s.updBobbin core b f).kernels = s.kernels := rfl
@[simp] theorem State.updBobbin_channels (s : State) (core b : Nat) (f : Bobbin → Bobbin) : (s.updBobbin core b f).channels = s.channels := rfl
@[simp] theorem State.updBobbin_journal (s : State) (core b : Nat) (f : Bobbin → Bobbin) : (s.updBobbin core b f).journal = s.journal := rfl
@[simp] theorem State.updBobbin_platform (s : State) (core b : Nat) (f : Bobbin → Bobbin) : (s.updBobbin core b f).platform = s.platform := rfl
@[simp] theorem State.updBobbin_feCycles (s : State) (core b : Nat) (f : Bobbin → Bobbin) : (s.updBobbin core b f).feCycles = s.feCycles := rfl
@[simp] theorem State.updBobbin_nextBid (s : State) (core b : Nat) (f : Bobbin → Bobbin) : (s.updBobbin core b f).nextBid = s.nextBid := rfl
@[simp] theorem State.updBobbin_nextUnit (s : State) (core b : Nat) (f : Bobbin → Bobbin) : (s.updBobbin core b f).nextUnit = s.nextUnit := rfl
@[simp] theorem State.updBobbin_nextGrid (s : State) (core b : Nat) (f : Bobbin → Bobbin) : (s.updBobbin core b f).nextGrid = s.nextGrid := rfl
@[simp] theorem State.updBobbin_nextId (s : State) (core b : Nat) (f : Bobbin → Bobbin) : (s.updBobbin core b f).nextId = s.nextId := rfl
@[simp] theorem State.updBobbin_outbox (s : State) (core b : Nat) (f : Bobbin → Bobbin) : (s.updBobbin core b f).outbox = s.outbox := rfl
@[simp] theorem State.updBobbin_freeIdx (s : State) (core b : Nat) (f : Bobbin → Bobbin) : (s.updBobbin core b f).freeIdx = s.freeIdx := rfl
@[simp] theorem State.updBobbin_agenda (s : State) (core b : Nat) (f : Bobbin → Bobbin) : (s.updBobbin core b f).agenda = s.agenda := rfl
@[simp] theorem State.updBobbin_issue (s : State) (core b : Nat) (f : Bobbin → Bobbin) : (s.updBobbin core b f).issue = s.issue := rfl

@[simp] theorem State.updGrid_mem (s : State) (g : Nat) (f : Grid → Grid) : (s.updGrid g f).mem = s.mem := rfl
@[simp] theorem State.updGrid_past (s : State) (g : Nat) (f : Grid → Grid) : (s.updGrid g f).past = s.past := rfl
@[simp] theorem State.updGrid_cores (s : State) (g : Nat) (f : Grid → Grid) : (s.updGrid g f).cores = s.cores := rfl
@[simp] theorem State.updGrid_doms (s : State) (g : Nat) (f : Grid → Grid) : (s.updGrid g f).doms = s.doms := rfl
@[simp] theorem State.updGrid_powers (s : State) (g : Nat) (f : Grid → Grid) : (s.updGrid g f).powers = s.powers := rfl
@[simp] theorem State.updGrid_blocks (s : State) (g : Nat) (f : Grid → Grid) : (s.updGrid g f).blocks = s.blocks := rfl
@[simp] theorem State.updGrid_accs (s : State) (g : Nat) (f : Grid → Grid) : (s.updGrid g f).accs = s.accs := rfl
@[simp] theorem State.updGrid_xinvs (s : State) (g : Nat) (f : Grid → Grid) : (s.updGrid g f).xinvs = s.xinvs := rfl
@[simp] theorem State.updGrid_credits (s : State) (g : Nat) (f : Grid → Grid) : (s.updGrid g f).credits = s.credits := rfl
@[simp] theorem State.updGrid_frozen (s : State) (g : Nat) (f : Grid → Grid) : (s.updGrid g f).frozen = s.frozen := rfl
@[simp] theorem State.updGrid_wafer (s : State) (g : Nat) (f : Grid → Grid) : (s.updGrid g f).wafer = s.wafer := rfl
@[simp] theorem State.updGrid_street (s : State) (g : Nat) (f : Grid → Grid) : (s.updGrid g f).street = s.street := rfl
@[simp] theorem State.updGrid_partitions (s : State) (g : Nat) (f : Grid → Grid) : (s.updGrid g f).partitions = s.partitions := rfl
@[simp] theorem State.updGrid_windows (s : State) (g : Nat) (f : Grid → Grid) : (s.updGrid g f).windows = s.windows := rfl
@[simp] theorem State.updGrid_fabric (s : State) (g : Nat) (f : Grid → Grid) : (s.updGrid g f).fabric = s.fabric := rfl
@[simp] theorem State.updGrid_queues (s : State) (g : Nat) (f : Grid → Grid) : (s.updGrid g f).queues = s.queues := rfl
@[simp] theorem State.updGrid_saved (s : State) (g : Nat) (f : Grid → Grid) : (s.updGrid g f).saved = s.saved := rfl
@[simp] theorem State.updGrid_images (s : State) (g : Nat) (f : Grid → Grid) : (s.updGrid g f).images = s.images := rfl
@[simp] theorem State.updGrid_kernels (s : State) (g : Nat) (f : Grid → Grid) : (s.updGrid g f).kernels = s.kernels := rfl
@[simp] theorem State.updGrid_channels (s : State) (g : Nat) (f : Grid → Grid) : (s.updGrid g f).channels = s.channels := rfl
@[simp] theorem State.updGrid_journal (s : State) (g : Nat) (f : Grid → Grid) : (s.updGrid g f).journal = s.journal := rfl
@[simp] theorem State.updGrid_platform (s : State) (g : Nat) (f : Grid → Grid) : (s.updGrid g f).platform = s.platform := rfl
@[simp] theorem State.updGrid_feCycles (s : State) (g : Nat) (f : Grid → Grid) : (s.updGrid g f).feCycles = s.feCycles := rfl
@[simp] theorem State.updGrid_nextBid (s : State) (g : Nat) (f : Grid → Grid) : (s.updGrid g f).nextBid = s.nextBid := rfl
@[simp] theorem State.updGrid_nextUnit (s : State) (g : Nat) (f : Grid → Grid) : (s.updGrid g f).nextUnit = s.nextUnit := rfl
@[simp] theorem State.updGrid_nextGrid (s : State) (g : Nat) (f : Grid → Grid) : (s.updGrid g f).nextGrid = s.nextGrid := rfl
@[simp] theorem State.updGrid_nextId (s : State) (g : Nat) (f : Grid → Grid) : (s.updGrid g f).nextId = s.nextId := rfl
@[simp] theorem State.updGrid_outbox (s : State) (g : Nat) (f : Grid → Grid) : (s.updGrid g f).outbox = s.outbox := rfl
@[simp] theorem State.updGrid_freeIdx (s : State) (g : Nat) (f : Grid → Grid) : (s.updGrid g f).freeIdx = s.freeIdx := rfl
@[simp] theorem State.updGrid_agenda (s : State) (g : Nat) (f : Grid → Grid) : (s.updGrid g f).agenda = s.agenda := rfl
@[simp] theorem State.updGrid_issue (s : State) (g : Nat) (f : Grid → Grid) : (s.updGrid g f).issue = s.issue := rfl

@[simp] theorem State.updQueue_mem (s : State) (q : Nat) (f : Queue → Queue) : (s.updQueue q f).mem = s.mem := rfl
@[simp] theorem State.updQueue_past (s : State) (q : Nat) (f : Queue → Queue) : (s.updQueue q f).past = s.past := rfl
@[simp] theorem State.updQueue_cores (s : State) (q : Nat) (f : Queue → Queue) : (s.updQueue q f).cores = s.cores := rfl
@[simp] theorem State.updQueue_doms (s : State) (q : Nat) (f : Queue → Queue) : (s.updQueue q f).doms = s.doms := rfl
@[simp] theorem State.updQueue_powers (s : State) (q : Nat) (f : Queue → Queue) : (s.updQueue q f).powers = s.powers := rfl
@[simp] theorem State.updQueue_blocks (s : State) (q : Nat) (f : Queue → Queue) : (s.updQueue q f).blocks = s.blocks := rfl
@[simp] theorem State.updQueue_accs (s : State) (q : Nat) (f : Queue → Queue) : (s.updQueue q f).accs = s.accs := rfl
@[simp] theorem State.updQueue_xinvs (s : State) (q : Nat) (f : Queue → Queue) : (s.updQueue q f).xinvs = s.xinvs := rfl
@[simp] theorem State.updQueue_credits (s : State) (q : Nat) (f : Queue → Queue) : (s.updQueue q f).credits = s.credits := rfl
@[simp] theorem State.updQueue_frozen (s : State) (q : Nat) (f : Queue → Queue) : (s.updQueue q f).frozen = s.frozen := rfl
@[simp] theorem State.updQueue_wafer (s : State) (q : Nat) (f : Queue → Queue) : (s.updQueue q f).wafer = s.wafer := rfl
@[simp] theorem State.updQueue_street (s : State) (q : Nat) (f : Queue → Queue) : (s.updQueue q f).street = s.street := rfl
@[simp] theorem State.updQueue_partitions (s : State) (q : Nat) (f : Queue → Queue) : (s.updQueue q f).partitions = s.partitions := rfl
@[simp] theorem State.updQueue_windows (s : State) (q : Nat) (f : Queue → Queue) : (s.updQueue q f).windows = s.windows := rfl
@[simp] theorem State.updQueue_fabric (s : State) (q : Nat) (f : Queue → Queue) : (s.updQueue q f).fabric = s.fabric := rfl
@[simp] theorem State.updQueue_grids (s : State) (q : Nat) (f : Queue → Queue) : (s.updQueue q f).grids = s.grids := rfl
@[simp] theorem State.updQueue_saved (s : State) (q : Nat) (f : Queue → Queue) : (s.updQueue q f).saved = s.saved := rfl
@[simp] theorem State.updQueue_images (s : State) (q : Nat) (f : Queue → Queue) : (s.updQueue q f).images = s.images := rfl
@[simp] theorem State.updQueue_kernels (s : State) (q : Nat) (f : Queue → Queue) : (s.updQueue q f).kernels = s.kernels := rfl
@[simp] theorem State.updQueue_channels (s : State) (q : Nat) (f : Queue → Queue) : (s.updQueue q f).channels = s.channels := rfl
@[simp] theorem State.updQueue_journal (s : State) (q : Nat) (f : Queue → Queue) : (s.updQueue q f).journal = s.journal := rfl
@[simp] theorem State.updQueue_platform (s : State) (q : Nat) (f : Queue → Queue) : (s.updQueue q f).platform = s.platform := rfl
@[simp] theorem State.updQueue_feCycles (s : State) (q : Nat) (f : Queue → Queue) : (s.updQueue q f).feCycles = s.feCycles := rfl
@[simp] theorem State.updQueue_nextBid (s : State) (q : Nat) (f : Queue → Queue) : (s.updQueue q f).nextBid = s.nextBid := rfl
@[simp] theorem State.updQueue_nextUnit (s : State) (q : Nat) (f : Queue → Queue) : (s.updQueue q f).nextUnit = s.nextUnit := rfl
@[simp] theorem State.updQueue_nextGrid (s : State) (q : Nat) (f : Queue → Queue) : (s.updQueue q f).nextGrid = s.nextGrid := rfl
@[simp] theorem State.updQueue_nextId (s : State) (q : Nat) (f : Queue → Queue) : (s.updQueue q f).nextId = s.nextId := rfl
@[simp] theorem State.updQueue_outbox (s : State) (q : Nat) (f : Queue → Queue) : (s.updQueue q f).outbox = s.outbox := rfl
@[simp] theorem State.updQueue_freeIdx (s : State) (q : Nat) (f : Queue → Queue) : (s.updQueue q f).freeIdx = s.freeIdx := rfl
@[simp] theorem State.updQueue_agenda (s : State) (q : Nat) (f : Queue → Queue) : (s.updQueue q f).agenda = s.agenda := rfl
@[simp] theorem State.updQueue_issue (s : State) (q : Nat) (f : Queue → Queue) : (s.updQueue q f).issue = s.issue := rfl

@[simp] theorem State.tell_mem (s : State) (n : Notice) : (s.tell n).mem = s.mem := rfl
@[simp] theorem State.tell_past (s : State) (n : Notice) : (s.tell n).past = s.past := rfl
@[simp] theorem State.tell_cores (s : State) (n : Notice) : (s.tell n).cores = s.cores := rfl
@[simp] theorem State.tell_doms (s : State) (n : Notice) : (s.tell n).doms = s.doms := rfl
@[simp] theorem State.tell_powers (s : State) (n : Notice) : (s.tell n).powers = s.powers := rfl
@[simp] theorem State.tell_blocks (s : State) (n : Notice) : (s.tell n).blocks = s.blocks := rfl
@[simp] theorem State.tell_accs (s : State) (n : Notice) : (s.tell n).accs = s.accs := rfl
@[simp] theorem State.tell_xinvs (s : State) (n : Notice) : (s.tell n).xinvs = s.xinvs := rfl
@[simp] theorem State.tell_credits (s : State) (n : Notice) : (s.tell n).credits = s.credits := rfl
@[simp] theorem State.tell_frozen (s : State) (n : Notice) : (s.tell n).frozen = s.frozen := rfl
@[simp] theorem State.tell_wafer (s : State) (n : Notice) : (s.tell n).wafer = s.wafer := rfl
@[simp] theorem State.tell_street (s : State) (n : Notice) : (s.tell n).street = s.street := rfl
@[simp] theorem State.tell_partitions (s : State) (n : Notice) : (s.tell n).partitions = s.partitions := rfl
@[simp] theorem State.tell_windows (s : State) (n : Notice) : (s.tell n).windows = s.windows := rfl
@[simp] theorem State.tell_fabric (s : State) (n : Notice) : (s.tell n).fabric = s.fabric := rfl
@[simp] theorem State.tell_queues (s : State) (n : Notice) : (s.tell n).queues = s.queues := rfl
@[simp] theorem State.tell_grids (s : State) (n : Notice) : (s.tell n).grids = s.grids := rfl
@[simp] theorem State.tell_saved (s : State) (n : Notice) : (s.tell n).saved = s.saved := rfl
@[simp] theorem State.tell_images (s : State) (n : Notice) : (s.tell n).images = s.images := rfl
@[simp] theorem State.tell_kernels (s : State) (n : Notice) : (s.tell n).kernels = s.kernels := rfl
@[simp] theorem State.tell_channels (s : State) (n : Notice) : (s.tell n).channels = s.channels := rfl
@[simp] theorem State.tell_journal (s : State) (n : Notice) : (s.tell n).journal = s.journal := rfl
@[simp] theorem State.tell_platform (s : State) (n : Notice) : (s.tell n).platform = s.platform := rfl
@[simp] theorem State.tell_feCycles (s : State) (n : Notice) : (s.tell n).feCycles = s.feCycles := rfl
@[simp] theorem State.tell_nextBid (s : State) (n : Notice) : (s.tell n).nextBid = s.nextBid := rfl
@[simp] theorem State.tell_nextUnit (s : State) (n : Notice) : (s.tell n).nextUnit = s.nextUnit := rfl
@[simp] theorem State.tell_nextGrid (s : State) (n : Notice) : (s.tell n).nextGrid = s.nextGrid := rfl
@[simp] theorem State.tell_nextId (s : State) (n : Notice) : (s.tell n).nextId = s.nextId := rfl
@[simp] theorem State.tell_freeIdx (s : State) (n : Notice) : (s.tell n).freeIdx = s.freeIdx := rfl
@[simp] theorem State.tell_agenda (s : State) (n : Notice) : (s.tell n).agenda = s.agenda := rfl
@[simp] theorem State.tell_issue (s : State) (n : Notice) : (s.tell n).issue = s.issue := rfl

@[simp] theorem State.fsqAdd_mem (s : State) (d : Nat) (e : FsqEntry) : (s.fsqAdd d e).mem = s.mem := rfl
@[simp] theorem State.fsqAdd_past (s : State) (d : Nat) (e : FsqEntry) : (s.fsqAdd d e).past = s.past := rfl
@[simp] theorem State.fsqAdd_cores (s : State) (d : Nat) (e : FsqEntry) : (s.fsqAdd d e).cores = s.cores := rfl
@[simp] theorem State.fsqAdd_powers (s : State) (d : Nat) (e : FsqEntry) : (s.fsqAdd d e).powers = s.powers := rfl
@[simp] theorem State.fsqAdd_blocks (s : State) (d : Nat) (e : FsqEntry) : (s.fsqAdd d e).blocks = s.blocks := rfl
@[simp] theorem State.fsqAdd_accs (s : State) (d : Nat) (e : FsqEntry) : (s.fsqAdd d e).accs = s.accs := rfl
@[simp] theorem State.fsqAdd_xinvs (s : State) (d : Nat) (e : FsqEntry) : (s.fsqAdd d e).xinvs = s.xinvs := rfl
@[simp] theorem State.fsqAdd_credits (s : State) (d : Nat) (e : FsqEntry) : (s.fsqAdd d e).credits = s.credits := rfl
@[simp] theorem State.fsqAdd_frozen (s : State) (d : Nat) (e : FsqEntry) : (s.fsqAdd d e).frozen = s.frozen := rfl
@[simp] theorem State.fsqAdd_wafer (s : State) (d : Nat) (e : FsqEntry) : (s.fsqAdd d e).wafer = s.wafer := rfl
@[simp] theorem State.fsqAdd_street (s : State) (d : Nat) (e : FsqEntry) : (s.fsqAdd d e).street = s.street := rfl
@[simp] theorem State.fsqAdd_partitions (s : State) (d : Nat) (e : FsqEntry) : (s.fsqAdd d e).partitions = s.partitions := rfl
@[simp] theorem State.fsqAdd_windows (s : State) (d : Nat) (e : FsqEntry) : (s.fsqAdd d e).windows = s.windows := rfl
@[simp] theorem State.fsqAdd_fabric (s : State) (d : Nat) (e : FsqEntry) : (s.fsqAdd d e).fabric = s.fabric := rfl
@[simp] theorem State.fsqAdd_queues (s : State) (d : Nat) (e : FsqEntry) : (s.fsqAdd d e).queues = s.queues := rfl
@[simp] theorem State.fsqAdd_grids (s : State) (d : Nat) (e : FsqEntry) : (s.fsqAdd d e).grids = s.grids := rfl
@[simp] theorem State.fsqAdd_saved (s : State) (d : Nat) (e : FsqEntry) : (s.fsqAdd d e).saved = s.saved := rfl
@[simp] theorem State.fsqAdd_images (s : State) (d : Nat) (e : FsqEntry) : (s.fsqAdd d e).images = s.images := rfl
@[simp] theorem State.fsqAdd_kernels (s : State) (d : Nat) (e : FsqEntry) : (s.fsqAdd d e).kernels = s.kernels := rfl
@[simp] theorem State.fsqAdd_channels (s : State) (d : Nat) (e : FsqEntry) : (s.fsqAdd d e).channels = s.channels := rfl
@[simp] theorem State.fsqAdd_journal (s : State) (d : Nat) (e : FsqEntry) : (s.fsqAdd d e).journal = s.journal := rfl
@[simp] theorem State.fsqAdd_platform (s : State) (d : Nat) (e : FsqEntry) : (s.fsqAdd d e).platform = s.platform := rfl
@[simp] theorem State.fsqAdd_feCycles (s : State) (d : Nat) (e : FsqEntry) : (s.fsqAdd d e).feCycles = s.feCycles := rfl
@[simp] theorem State.fsqAdd_nextBid (s : State) (d : Nat) (e : FsqEntry) : (s.fsqAdd d e).nextBid = s.nextBid := rfl
@[simp] theorem State.fsqAdd_nextUnit (s : State) (d : Nat) (e : FsqEntry) : (s.fsqAdd d e).nextUnit = s.nextUnit := rfl
@[simp] theorem State.fsqAdd_nextGrid (s : State) (d : Nat) (e : FsqEntry) : (s.fsqAdd d e).nextGrid = s.nextGrid := rfl
@[simp] theorem State.fsqAdd_nextId (s : State) (d : Nat) (e : FsqEntry) : (s.fsqAdd d e).nextId = s.nextId := rfl
@[simp] theorem State.fsqAdd_outbox (s : State) (d : Nat) (e : FsqEntry) : (s.fsqAdd d e).outbox = s.outbox := rfl
@[simp] theorem State.fsqAdd_freeIdx (s : State) (d : Nat) (e : FsqEntry) : (s.fsqAdd d e).freeIdx = s.freeIdx := rfl
@[simp] theorem State.fsqAdd_agenda (s : State) (d : Nat) (e : FsqEntry) : (s.fsqAdd d e).agenda = s.agenda := rfl
@[simp] theorem State.fsqAdd_issue (s : State) (d : Nat) (e : FsqEntry) : (s.fsqAdd d e).issue = s.issue := rfl

@[simp] theorem State.writePhys_cores (s : State) (pa : Nat) (bs : List Byte) : (s.writePhys pa bs).cores = s.cores := rfl
@[simp] theorem State.writePhys_doms (s : State) (pa : Nat) (bs : List Byte) : (s.writePhys pa bs).doms = s.doms := rfl
@[simp] theorem State.writePhys_powers (s : State) (pa : Nat) (bs : List Byte) : (s.writePhys pa bs).powers = s.powers := rfl
@[simp] theorem State.writePhys_blocks (s : State) (pa : Nat) (bs : List Byte) : (s.writePhys pa bs).blocks = s.blocks := rfl
@[simp] theorem State.writePhys_accs (s : State) (pa : Nat) (bs : List Byte) : (s.writePhys pa bs).accs = s.accs := rfl
@[simp] theorem State.writePhys_xinvs (s : State) (pa : Nat) (bs : List Byte) : (s.writePhys pa bs).xinvs = s.xinvs := rfl
@[simp] theorem State.writePhys_credits (s : State) (pa : Nat) (bs : List Byte) : (s.writePhys pa bs).credits = s.credits := rfl
@[simp] theorem State.writePhys_frozen (s : State) (pa : Nat) (bs : List Byte) : (s.writePhys pa bs).frozen = s.frozen := rfl
@[simp] theorem State.writePhys_wafer (s : State) (pa : Nat) (bs : List Byte) : (s.writePhys pa bs).wafer = s.wafer := rfl
@[simp] theorem State.writePhys_street (s : State) (pa : Nat) (bs : List Byte) : (s.writePhys pa bs).street = s.street := rfl
@[simp] theorem State.writePhys_partitions (s : State) (pa : Nat) (bs : List Byte) : (s.writePhys pa bs).partitions = s.partitions := rfl
@[simp] theorem State.writePhys_windows (s : State) (pa : Nat) (bs : List Byte) : (s.writePhys pa bs).windows = s.windows := rfl
@[simp] theorem State.writePhys_fabric (s : State) (pa : Nat) (bs : List Byte) : (s.writePhys pa bs).fabric = s.fabric := rfl
@[simp] theorem State.writePhys_queues (s : State) (pa : Nat) (bs : List Byte) : (s.writePhys pa bs).queues = s.queues := rfl
@[simp] theorem State.writePhys_grids (s : State) (pa : Nat) (bs : List Byte) : (s.writePhys pa bs).grids = s.grids := rfl
@[simp] theorem State.writePhys_saved (s : State) (pa : Nat) (bs : List Byte) : (s.writePhys pa bs).saved = s.saved := rfl
@[simp] theorem State.writePhys_images (s : State) (pa : Nat) (bs : List Byte) : (s.writePhys pa bs).images = s.images := rfl
@[simp] theorem State.writePhys_kernels (s : State) (pa : Nat) (bs : List Byte) : (s.writePhys pa bs).kernels = s.kernels := rfl
@[simp] theorem State.writePhys_channels (s : State) (pa : Nat) (bs : List Byte) : (s.writePhys pa bs).channels = s.channels := rfl
@[simp] theorem State.writePhys_journal (s : State) (pa : Nat) (bs : List Byte) : (s.writePhys pa bs).journal = s.journal := rfl
@[simp] theorem State.writePhys_platform (s : State) (pa : Nat) (bs : List Byte) : (s.writePhys pa bs).platform = s.platform := rfl
@[simp] theorem State.writePhys_feCycles (s : State) (pa : Nat) (bs : List Byte) : (s.writePhys pa bs).feCycles = s.feCycles := rfl
@[simp] theorem State.writePhys_nextBid (s : State) (pa : Nat) (bs : List Byte) : (s.writePhys pa bs).nextBid = s.nextBid := rfl
@[simp] theorem State.writePhys_nextUnit (s : State) (pa : Nat) (bs : List Byte) : (s.writePhys pa bs).nextUnit = s.nextUnit := rfl
@[simp] theorem State.writePhys_nextGrid (s : State) (pa : Nat) (bs : List Byte) : (s.writePhys pa bs).nextGrid = s.nextGrid := rfl
@[simp] theorem State.writePhys_nextId (s : State) (pa : Nat) (bs : List Byte) : (s.writePhys pa bs).nextId = s.nextId := rfl
@[simp] theorem State.writePhys_outbox (s : State) (pa : Nat) (bs : List Byte) : (s.writePhys pa bs).outbox = s.outbox := rfl
@[simp] theorem State.writePhys_freeIdx (s : State) (pa : Nat) (bs : List Byte) : (s.writePhys pa bs).freeIdx = s.freeIdx := rfl
@[simp] theorem State.writePhys_agenda (s : State) (pa : Nat) (bs : List Byte) : (s.writePhys pa bs).agenda = s.agenda := rfl
@[simp] theorem State.writePhys_issue (s : State) (pa : Nat) (bs : List Byte) : (s.writePhys pa bs).issue = s.issue := rfl

@[simp] theorem State.writeScr_mem (s : State) (core off : Nat) (bs : List Byte) : (s.writeScr core off bs).mem = s.mem := rfl
@[simp] theorem State.writeScr_past (s : State) (core off : Nat) (bs : List Byte) : (s.writeScr core off bs).past = s.past := rfl
@[simp] theorem State.writeScr_doms (s : State) (core off : Nat) (bs : List Byte) : (s.writeScr core off bs).doms = s.doms := rfl
@[simp] theorem State.writeScr_powers (s : State) (core off : Nat) (bs : List Byte) : (s.writeScr core off bs).powers = s.powers := rfl
@[simp] theorem State.writeScr_blocks (s : State) (core off : Nat) (bs : List Byte) : (s.writeScr core off bs).blocks = s.blocks := rfl
@[simp] theorem State.writeScr_accs (s : State) (core off : Nat) (bs : List Byte) : (s.writeScr core off bs).accs = s.accs := rfl
@[simp] theorem State.writeScr_xinvs (s : State) (core off : Nat) (bs : List Byte) : (s.writeScr core off bs).xinvs = s.xinvs := rfl
@[simp] theorem State.writeScr_credits (s : State) (core off : Nat) (bs : List Byte) : (s.writeScr core off bs).credits = s.credits := rfl
@[simp] theorem State.writeScr_frozen (s : State) (core off : Nat) (bs : List Byte) : (s.writeScr core off bs).frozen = s.frozen := rfl
@[simp] theorem State.writeScr_wafer (s : State) (core off : Nat) (bs : List Byte) : (s.writeScr core off bs).wafer = s.wafer := rfl
@[simp] theorem State.writeScr_street (s : State) (core off : Nat) (bs : List Byte) : (s.writeScr core off bs).street = s.street := rfl
@[simp] theorem State.writeScr_partitions (s : State) (core off : Nat) (bs : List Byte) : (s.writeScr core off bs).partitions = s.partitions := rfl
@[simp] theorem State.writeScr_windows (s : State) (core off : Nat) (bs : List Byte) : (s.writeScr core off bs).windows = s.windows := rfl
@[simp] theorem State.writeScr_fabric (s : State) (core off : Nat) (bs : List Byte) : (s.writeScr core off bs).fabric = s.fabric := rfl
@[simp] theorem State.writeScr_queues (s : State) (core off : Nat) (bs : List Byte) : (s.writeScr core off bs).queues = s.queues := rfl
@[simp] theorem State.writeScr_grids (s : State) (core off : Nat) (bs : List Byte) : (s.writeScr core off bs).grids = s.grids := rfl
@[simp] theorem State.writeScr_saved (s : State) (core off : Nat) (bs : List Byte) : (s.writeScr core off bs).saved = s.saved := rfl
@[simp] theorem State.writeScr_images (s : State) (core off : Nat) (bs : List Byte) : (s.writeScr core off bs).images = s.images := rfl
@[simp] theorem State.writeScr_kernels (s : State) (core off : Nat) (bs : List Byte) : (s.writeScr core off bs).kernels = s.kernels := rfl
@[simp] theorem State.writeScr_channels (s : State) (core off : Nat) (bs : List Byte) : (s.writeScr core off bs).channels = s.channels := rfl
@[simp] theorem State.writeScr_journal (s : State) (core off : Nat) (bs : List Byte) : (s.writeScr core off bs).journal = s.journal := rfl
@[simp] theorem State.writeScr_platform (s : State) (core off : Nat) (bs : List Byte) : (s.writeScr core off bs).platform = s.platform := rfl
@[simp] theorem State.writeScr_feCycles (s : State) (core off : Nat) (bs : List Byte) : (s.writeScr core off bs).feCycles = s.feCycles := rfl
@[simp] theorem State.writeScr_nextBid (s : State) (core off : Nat) (bs : List Byte) : (s.writeScr core off bs).nextBid = s.nextBid := rfl
@[simp] theorem State.writeScr_nextUnit (s : State) (core off : Nat) (bs : List Byte) : (s.writeScr core off bs).nextUnit = s.nextUnit := rfl
@[simp] theorem State.writeScr_nextGrid (s : State) (core off : Nat) (bs : List Byte) : (s.writeScr core off bs).nextGrid = s.nextGrid := rfl
@[simp] theorem State.writeScr_nextId (s : State) (core off : Nat) (bs : List Byte) : (s.writeScr core off bs).nextId = s.nextId := rfl
@[simp] theorem State.writeScr_outbox (s : State) (core off : Nat) (bs : List Byte) : (s.writeScr core off bs).outbox = s.outbox := rfl
@[simp] theorem State.writeScr_freeIdx (s : State) (core off : Nat) (bs : List Byte) : (s.writeScr core off bs).freeIdx = s.freeIdx := rfl
@[simp] theorem State.writeScr_agenda (s : State) (core off : Nat) (bs : List Byte) : (s.writeScr core off bs).agenda = s.agenda := rfl
@[simp] theorem State.writeScr_issue (s : State) (core off : Nat) (bs : List Byte) : (s.writeScr core off bs).issue = s.issue := rfl

end Sys2Proof.Machine
end

