-- ==== Sys2Proof/Laws/Tables.lean ====
section
/-! SUPPORT. Reading a table, a vector, a list or an accessor of the state after one entry of it has been written. -/

namespace Sys2Proof.Machine

variable {α : Type}

/-! ## Tables, vectors, lists -/

@[simp] theorem assocGet_assocSet_self (d : α) (k : Nat) (x : α) (l : List (Nat × α)) : assocGet d k (assocSet k x l) = x := by
  induction l with
  | nil => simp [assocSet, assocGet]
  | cons p l ih => by_cases h : p.1 = k <;> simp [assocSet, assocGet, h, ih]

theorem assocGet_assocSet_of_ne (d : α) {k j : Nat} (h : j ≠ k) (x : α) (l : List (Nat × α)) :
    assocGet d k (assocSet j x l) = assocGet d k l := by
  induction l with
  | nil => simp [assocSet, assocGet, h]
  | cons p l ih =>
    by_cases hj : p.1 = j
    · simp [assocSet, assocGet, hj, h]
    · simp [assocSet, assocGet, hj, ih]

theorem vecUpd_get {n : Nat} (v : Vector α n) (i : Nat) (f : α → α) (j : Nat) :
    (vecUpd v i f).toList[j]? = if i = j then v.toList[j]?.map f else v.toList[j]? := by
  unfold vecUpd
  split
  · rename_i h
    by_cases hij : i = j
    · subst hij
      simp [h]
    · simp [hij]
  · rename_i h
    split
    · rename_i hij
      subst hij
      simp [h]
    · rfl

theorem updAt_get (f : α → α) (i j : Nat) (xs : List α) : (updAt f i xs)[j]? = if i = j then xs[j]?.map f else xs[j]? := by
  induction xs generalizing i j with
  | nil => simp [updAt]
  | cons x xs ih =>
    cases i with
    | zero => cases j <;> simp [updAt]
    | succ i => cases j <;> simp [updAt, ih]

@[simp] theorem updAt_length (f : α → α) (i : Nat) (xs : List α) : (updAt f i xs).length = xs.length := by
  induction xs generalizing i with
  | nil => simp [updAt]
  | cons x xs ih => cases i <;> simp [updAt, ih]

theorem map_updAt_of_eq {β : Type} (g : α → β) (f : α → α) (h : ∀ x, g (f x) = g x) (i : Nat) (xs : List α) :
    (updAt f i xs).map g = xs.map g := by
  induction xs generalizing i with
  | nil => simp [updAt]
  | cons x xs ih => cases i <;> simp [updAt, ih, h]

theorem map_vecUpd_of_eq {β : Type} {n : Nat} (g : α → β) (f : α → α) (h : ∀ x, g (f x) = g x) (v : Vector α n) (i : Nat) :
    (vecUpd v i f).map g = v.map g := by
  unfold vecUpd
  split
  · ext j hj
    by_cases hij : i = j
    · subst hij; simp [h]
    · simp [hij]
  · rfl

/-! ## Cores and domains -/

@[simp] theorem State.core_setCore_self (s : State) (k : Nat) (c : CoreState) : (s.setCore k c).core k = c := by
  simp [State.core, State.setCore]

theorem State.core_setCore_of_ne (s : State) {k j : Nat} (h : k ≠ j) (c : CoreState) : (s.setCore k c).core j = s.core j := by
  simp [State.core, State.setCore, assocGet_assocSet_of_ne _ h]

@[simp] theorem State.core_updCore_self (s : State) (k : Nat) (f : CoreState → CoreState) :
    (s.updCore k f).core k = f (s.core k) := by
  simp [State.updCore]

theorem State.core_updCore_of_ne (s : State) {k j : Nat} (h : k ≠ j) (f : CoreState → CoreState) :
    (s.updCore k f).core j = s.core j := by
  simp [State.updCore, State.core_setCore_of_ne _ h]

theorem State.core_updCore (s : State) (k j : Nat) (f : CoreState → CoreState) :
    (s.updCore k f).core j = if k = j then f (s.core j) else s.core j := by
  split
  · rename_i h; subst h; simp
  · rename_i h; exact s.core_updCore_of_ne h f

@[simp] theorem State.dom_setDom_self (s : State) (k : Nat) (x : DomState) : (s.setDom k x).dom k = x := by
  simp [State.dom, State.setDom]

theorem State.dom_setDom_of_ne (s : State) {k j : Nat} (h : k ≠ j) (x : DomState) : (s.setDom k x).dom j = s.dom j := by
  simp [State.dom, State.setDom, assocGet_assocSet_of_ne _ h]

theorem State.dom_updDom (s : State) (k j : Nat) (f : DomState → DomState) :
    (s.updDom k f).dom j = if k = j then f (s.dom j) else s.dom j := by
  unfold State.updDom
  split
  · rename_i h; subst h; simp
  · rename_i h; exact s.dom_setDom_of_ne h _

/-! ## Bobbins -/

theorem State.bobbin_updBobbin (s : State) (core b core' b' : Nat) (f : Bobbin → Bobbin) :
    (s.updBobbin core b f).bobbin core' b' =
      if core = core' ∧ b = b' ∧ b < 4 then f (s.bobbin core' b') else s.bobbin core' b' := by
  unfold State.updBobbin State.bobbin
  rw [State.core_updCore]
  by_cases hc : core = core'
  · subst hc
    simp only [if_true, true_and, vecUpd_get]
    by_cases hb : b = b'
    · subst hb
      by_cases h4 : b < 4 <;> simp [h4]
    · simp [hb]
  · simp [hc]

/-! ## Blocks and threads -/

theorem find?_map_of_keep (p : α → Bool) (g : α → α) (h : ∀ x, p (g x) = p x) (xs : List α) :
    (xs.map g).find? p = (xs.find? p).map g := by
  induction xs with
  | nil => rfl
  | cons x xs ih => by_cases hx : p x <;> simp [List.find?, h, hx, ih]

/-- Changing one block's contents, not its number. -/
theorem State.block?_updBlock (s : State) (bid bid' : Nat) (f : Block → Block) (h : ∀ b, (f b).bid = b.bid) :
    (s.updBlock bid f).block? bid' = if bid = bid' then (s.block? bid').map f else s.block? bid' := by
  have hk : ∀ b : Block, ((if b.bid = bid then f b else b).bid == bid') = (b.bid == bid') := by
    intro b; split <;> simp [h]
  have e : (s.updBlock bid f).block? bid' = (s.block? bid').map fun b => if b.bid = bid then f b else b := by
    simp only [State.block?, State.updBlock]
    exact find?_map_of_keep _ _ hk _
  rw [e]
  cases hb : s.block? bid' with
  | none => simp
  | some b =>
    have : b.bid = bid' := by
      have := List.find?_some hb
      simpa using this
    by_cases hh : bid = bid'
    · subst hh; simp [this]
    · have : ¬ b.bid = bid := fun e => hh (e ▸ this)
      simp [hh, this]

theorem State.block?_updThread (s : State) (bid tid bid' : Nat) (f : Thread → Thread) :
    (s.updThread bid tid f).block? bid' =
      if bid = bid' then (s.block? bid').map fun b => { b with threads := updAt f tid b.threads } else s.block? bid' :=
  s.block?_updBlock bid bid' _ fun _ => rfl

theorem State.thread?_updThread (s : State) (bid tid bid' tid' : Nat) (f : Thread → Thread) :
    (s.updThread bid tid f).thread? bid' tid' =
      if bid = bid' ∧ tid = tid' then (s.thread? bid' tid').map f else s.thread? bid' tid' := by
  simp only [State.thread?, s.block?_updThread]
  by_cases hb : bid = bid'
  · subst hb
    cases s.block? bid with
    | none => simp
    | some b => simp [updAt_get]
  · simp [hb]

@[simp] theorem State.thread?_updCore (s : State) (k : Nat) (f : CoreState → CoreState) (bid tid : Nat) :
    (s.updCore k f).thread? bid tid = s.thread? bid tid := rfl
@[simp] theorem State.block?_updCore (s : State) (k : Nat) (f : CoreState → CoreState) (bid : Nat) :
    (s.updCore k f).block? bid = s.block? bid := rfl
@[simp] theorem State.thread?_updBobbin (s : State) (k b : Nat) (f : Bobbin → Bobbin) (bid tid : Nat) :
    (s.updBobbin k b f).thread? bid tid = s.thread? bid tid := rfl
@[simp] theorem State.bobbin_updThread (s : State) (bid tid : Nat) (f : Thread → Thread) (k b : Nat) :
    (s.updThread bid tid f).bobbin k b = s.bobbin k b := rfl
@[simp] theorem State.core_updThread (s : State) (bid tid : Nat) (f : Thread → Thread) (k : Nat) :
    (s.updThread bid tid f).core k = s.core k := rfl
@[simp] theorem State.core_updBlock (s : State) (bid : Nat) (f : Block → Block) (k : Nat) :
    (s.updBlock bid f).core k = s.core k := rfl

end Sys2Proof.Machine
end

