-- ==== Sys2Proof/Laws/Agents.lean ====
section
/-! SUPPORT. What writing an agent's context or a register does: to that agent, to every other agent, to the rest of the
machine. -/

namespace Sys2Proof.Machine

/-! ## The relations -/

theorem SameBody.refl (s : State) : SameBody s s := ⟨rfl, fun _ => rfl, rfl, rfl⟩

theorem SameBody.trans {s t u : State} (a : SameBody s t) (b : SameBody t u) : SameBody s u where
  rest := by
    have hb := b.rest
    have ha := a.rest
    rw [← ha, ← hb]
  cores k := (b.cores k).trans (a.cores k)
  blocks := b.blocks.trans a.blocks
  issue := by rw [b.issue, a.issue]

theorem SameBody.mem {s t : State} (h : SameBody s t) : t.mem = s.mem := by
  have := congrArg State.mem h.rest; exact this

theorem SameBody.scratch {s t : State} (h : SameBody s t) (k : Nat) : (t.core k).scratch = (s.core k).scratch := by
  have := congrArg CoreState.scratch (h.cores k); exact this

theorem SameBody.memOk {s t : State} (h : SameBody s t) (hs : s.MemOk) : t.MemOk :=
  ⟨h.mem ▸ hs.1, fun k => h.scratch k ▸ hs.2 k⟩

theorem SameAgent.refl (s : State) (ag : Agent) : SameAgent s s ag := ⟨rfl, fun _ => rfl⟩

theorem SameAgent.trans {s t u : State} {ag : Agent} (a : SameAgent s t ag) (b : SameAgent t u ag) : SameAgent s u ag :=
  ⟨b.1.trans a.1, fun r => (b.2 r).trans (a.2 r)⟩

/-! ## Writing a context -/

theorem State.updCtx_sameBody (s : State) (f : Ctx → Ctx) (ag : Agent) : SameBody s (s.updCtx f ag) := by
  cases ag with
  | thread bid tid =>
    refine ⟨rfl, fun _ => rfl, ?_, rfl⟩
    simp only [State.updCtx, State.updThread, State.updBlock, List.map_map]
    apply List.map_congr_left
    intro b _
    simp only [Function.comp]
    split
    · simp only [Block.body]
      rw [map_updAt_of_eq Thread.body (fun t : Thread => { t with ctx := f t.ctx }) fun _ => rfl]
    · rfl
  | bobbin core b =>
    refine ⟨rfl, fun k => ?_, rfl, rfl⟩
    simp only [State.updCtx, State.updBobbin, State.core_updCore]
    split
    · simp only [CoreState.body]
      rw [map_vecUpd_of_eq Bobbin.body (fun x : Bobbin => { x with ctx := f x.ctx }) fun _ => rfl]
    · rfl

theorem State.updThread_sameBody (s : State) (bid tid : Nat) (f : Thread → Thread) (h : ∀ t, (f t).body = t.body) :
    SameBody s (s.updThread bid tid f) := by
  refine ⟨rfl, fun _ => rfl, ?_, rfl⟩
  simp only [State.updThread, State.updBlock, List.map_map]
  apply List.map_congr_left
  intro b _
  simp only [Function.comp]
  split
  · simp only [Block.body]
    rw [map_updAt_of_eq Thread.body _ h]
  · rfl

theorem State.ctx_updCtx_self (s : State) (f : Ctx → Ctx) {ag : Agent} (h : s.present ag) :
    (s.updCtx f ag).ctx ag = f (s.ctx ag) := by
  cases ag with
  | thread bid tid =>
    simp only [State.present, Option.isSome_iff_exists] at h
    obtain ⟨t, ht⟩ := h
    simp [State.updCtx, State.ctx, State.thread?_updThread, ht]
  | bobbin core b =>
    simp only [State.present] at h
    simp [State.updCtx, State.ctx, State.bobbin_updBobbin, h]

theorem State.ctx_updCtx_of_ne (s : State) (f : Ctx → Ctx) {ag ag' : Agent} (h : ag ≠ ag') :
    (s.updCtx f ag).ctx ag' = s.ctx ag' := by
  cases ag with
  | thread bid tid =>
    cases ag' with
    | thread bid' tid' =>
      have : ¬ (bid = bid' ∧ tid = tid') := fun e => h (by rw [e.1, e.2])
      simp [State.updCtx, State.ctx, State.thread?_updThread, this]
    | bobbin core b => rfl
  | bobbin core b =>
    cases ag' with
    | thread bid' tid' => rfl
    | bobbin core' b' =>
      have : ¬ (core = core' ∧ b = b' ∧ b < 4) := fun e => h (by rw [e.1, e.2.1])
      simp [State.updCtx, State.ctx, State.bobbin_updBobbin, this]

theorem State.readReg_updCtx (s : State) (f : Ctx → Ctx) (h : ∀ c, (f c).s = c.s) (ag ag' : Agent) (r : Reg) :
    (s.updCtx f ag).readReg ag' r = s.readReg ag' r := by
  cases r with
  | s i =>
    by_cases hag : ag = ag'
    · subst hag
      have : ((s.updCtx f ag).ctx ag).s = (s.ctx ag).s := by
        cases ag with
        | thread bid tid =>
          simp only [State.updCtx, State.ctx, State.thread?_updThread]
          cases s.thread? bid tid <;> simp [h]
        | bobbin core b =>
          simp only [State.updCtx, State.ctx, State.bobbin_updBobbin]
          split <;> simp [h]
      simp [State.readReg, Ctx.readS, this]
    · simp [State.readReg, s.ctx_updCtx_of_ne f hag]
  | v i =>
    cases ag' with
    | bobbin core b => rfl
    | thread bid' tid' =>
      cases ag with
      | bobbin core b => rfl
      | thread bid tid =>
        simp only [State.readReg, State.updCtx, State.thread?_updThread]
        by_cases hb : bid = bid' ∧ tid = tid'
        · simp only [hb, and_self, if_true]
          cases s.thread? bid' tid' <;> rfl
        · simp only [hb, if_false]
  | k i =>
    cases ag' with
    | bobbin core b => rfl
    | thread bid' tid' =>
      cases ag with
      | bobbin core b => rfl
      | thread bid tid =>
        simp only [State.readReg, State.updCtx, State.thread?_updThread]
        by_cases hb : bid = bid' ∧ tid = tid'
        · simp only [hb, and_self, if_true]
          cases s.thread? bid' tid' <;> rfl
        · simp only [hb, if_false]

theorem State.present_updCtx (s : State) (f : Ctx → Ctx) (ag ag' : Agent) : (s.updCtx f ag).present ag' ↔ s.present ag' := by
  cases ag' with
  | bobbin => exact Iff.rfl
  | thread bid' tid' =>
    cases ag with
    | bobbin => exact Iff.rfl
    | thread bid tid =>
      simp only [State.present, State.updCtx, State.thread?_updThread]
      split <;> simp

/-! ## Writing a register -/

/-- The write is of a register that the agent has, in the form in which it reads back: a bobbin has s-registers only, an
s-register and a k-flag have no tag, a k-flag holds one bit. -/
def Write.fits (w : Write) (ag : Agent) : Prop :=
  match w.reg, ag with
  | .s _, _ => w.tag = .raw
  | .v _, .thread .. => True
  | .k _, .thread .. => w.tag = .raw ∧ ∃ b, w.val = boolWord b
  | _, .bobbin .. => False

theorem State.writeReg_sameBody (s : State) (ag : Agent) (r : Reg) (x : VReg) : SameBody s (s.writeReg ag r x) := by
  cases r with
  | s i => exact s.updCtx_sameBody (fun c => c.writeS i x.val) ag
  | v i => cases ag with
    | thread bid tid => exact s.updThread_sameBody bid tid (fun t => t.writeV i x) fun _ => rfl
    | bobbin => exact SameBody.refl s
  | k i => cases ag with
    | thread bid tid => exact s.updThread_sameBody bid tid (fun t => { t with k := setFlag t.k i (x.val.getLsbD 0) }) fun _ => rfl
    | bobbin => exact SameBody.refl s

theorem State.present_writeReg (s : State) (ag ag' : Agent) (r : Reg) (x : VReg) :
    (s.writeReg ag r x).present ag' ↔ s.present ag' := by
  cases ag' with
  | bobbin => exact Iff.rfl
  | thread bid' tid' =>
    cases r with
    | s i => exact s.present_updCtx (fun c => c.writeS i x.val) ag _
    | v i => cases ag with
      | bobbin => exact Iff.rfl
      | thread bid tid =>
        simp only [State.present, State.writeReg, State.thread?_updThread]
        split <;> simp
    | k i => cases ag with
      | bobbin => exact Iff.rfl
      | thread bid tid =>
        simp only [State.present, State.writeReg, State.thread?_updThread]
        split <;> simp

theorem State.ctx_updThread_of_eq (s : State) (bid tid : Nat) (f : Thread → Thread) (h : ∀ t, (f t).ctx = t.ctx) (ag : Agent) :
    (s.updThread bid tid f).ctx ag = s.ctx ag := by
  cases ag with
  | bobbin => rfl
  | thread bid' tid' =>
    simp only [State.ctx, State.thread?_updThread]
    by_cases hb : bid = bid' ∧ tid = tid'
    · simp only [hb, and_self, if_true]
      cases s.thread? bid' tid' with
      | none => rfl
      | some t => exact h t
    · simp only [hb, if_false]

/-- A register write changes no part of a context but its s-registers. -/
theorem State.ctx_writeReg (s : State) (ag ag' : Agent) (r : Reg) (x : VReg) :
    ∃ v, (s.writeReg ag r x).ctx ag' = { s.ctx ag' with s := v } := by
  have same : ∃ v, s.ctx ag' = { s.ctx ag' with s := v } := ⟨_, rfl⟩
  cases r with
  | s i =>
    by_cases h : ag = ag'
    · subst h
      cases ag with
      | thread bid tid =>
        simp only [State.writeReg, State.updCtx, State.ctx, State.thread?_updThread]
        cases s.thread? bid tid with
        | none => exact ⟨_, rfl⟩
        | some t => exact ⟨_, rfl⟩
      | bobbin core b =>
        simp only [State.writeReg, State.updCtx, State.ctx, State.bobbin_updBobbin]
        split <;> exact ⟨_, rfl⟩
    · simpa [State.writeReg, s.ctx_updCtx_of_ne _ h] using same
  | v i => cases ag with
    | thread bid tid => exact ⟨_, s.ctx_updThread_of_eq bid tid (fun t => t.writeV i x) (fun _ => rfl) ag'⟩
    | bobbin => exact same
  | k i => cases ag with
    | thread bid tid =>
      exact ⟨_, s.ctx_updThread_of_eq bid tid (fun t => { t with k := setFlag t.k i (x.val.getLsbD 0) }) (fun _ => rfl) ag'⟩
    | bobbin => exact same

theorem State.ctx_writeReg_of_ne (s : State) {ag ag' : Agent} (h : ag ≠ ag') (r : Reg) (x : VReg) :
    (s.writeReg ag r x).ctx ag' = s.ctx ag' := by
  cases r with
  | s i => exact s.ctx_updCtx_of_ne (fun c => c.writeS i x.val) h
  | v i => cases ag with
    | thread bid tid => exact s.ctx_updThread_of_eq bid tid (fun t => t.writeV i x) (fun _ => rfl) ag'
    | bobbin => rfl
  | k i => cases ag with
    | thread bid tid => exact s.ctx_updThread_of_eq bid tid (fun t => { t with k := setFlag t.k i (x.val.getLsbD 0) }) (fun _ => rfl) ag'
    | bobbin => rfl

theorem flagOf_setFlag (k : BitVec 8) (i j : BitVec 3) (b : Bool) :
    flagOf (setFlag k i b) j = if i = j then b else flagOf k j := by
  revert i j b
  simp only [flagOf, setFlag]
  intro i j b
  have hi := i.isLt
  have hj := j.isLt
  by_cases h : i = j
  · subst h
    cases b <;> simp <;> omega
  · have hn : i.toNat ≠ j.toNat := fun e => h (BitVec.eq_of_toNat_eq e)
    cases b <;> simp [h] <;> omega

theorem boolWord_getLsbD (b : Bool) : (boolWord b).getLsbD 0 = b := by cases b <;> rfl

theorem State.readReg_writeReg_of_ne (s : State) {ag ag' : Agent} (h : ag ≠ ag') (r r' : Reg) (x : VReg) :
    (s.writeReg ag r x).readReg ag' r' = s.readReg ag' r' := by
  cases r' with
  | s j => simp [State.readReg, s.ctx_writeReg_of_ne h]
  | v j | k j =>
    cases ag' with
    | bobbin => rfl
    | thread bid' tid' =>
      cases ag with
      | bobbin core b => cases r <;> rfl
      | thread bid tid =>
        have hn : ¬ (bid = bid' ∧ tid = tid') := fun e => h (by rw [e.1, e.2])
        cases r <;> simp [State.readReg, State.writeReg, State.updCtx, State.thread?_updThread, hn]

theorem State.readReg_writeReg (s : State) {ag : Agent} (h : s.present ag) (w : Write) (hw : w.fits ag) (r : Reg) :
    (s.writeReg ag w.reg ⟨w.val, w.tag⟩).readReg ag r = if w.reg = r then ⟨w.val, w.tag⟩ else s.readReg ag r := by
  obtain ⟨wr, val, tag⟩ := w
  cases ag with
  | bobbin core b =>
    cases wr with
    | s i =>
      simp only [Write.fits] at hw
      subst hw
      cases r with
      | s j =>
        simp only [State.readReg, State.writeReg, s.ctx_updCtx_self _ h, Ctx.readS, Ctx.writeS, Vector.getElem_set]
        by_cases e : i = j
        · subst e; simp
        · have : i.toNat ≠ j.toNat := fun q => e (BitVec.eq_of_toNat_eq q)
          simp [this, e]
      | v j => rfl
      | k j => rfl
    | v i => exact hw.elim
    | k i => exact hw.elim
  | thread bid tid =>
    have hp := h
    simp only [State.present, Option.isSome_iff_exists] at hp
    obtain ⟨t, ht⟩ := hp
    cases wr with
    | s i =>
      simp only [Write.fits] at hw
      subst hw
      cases r with
      | s j =>
        simp only [State.readReg, State.writeReg, s.ctx_updCtx_self _ h, Ctx.readS, Ctx.writeS, Vector.getElem_set]
        by_cases e : i = j
        · subst e; simp
        · have : i.toNat ≠ j.toNat := fun q => e (BitVec.eq_of_toNat_eq q)
          simp [this, e]
      | v j => simp [State.readReg, State.writeReg, State.updCtx, State.thread?_updThread, ht, Thread.readV]
      | k j => simp [State.readReg, State.writeReg, State.updCtx, State.thread?_updThread, ht]
    | v i =>
      cases r with
      | v j =>
        simp only [State.readReg, State.writeReg, State.thread?_updThread, ht, Thread.readV, Thread.writeV]
        by_cases e : i = j
        · subst e; simp
        · have : i.toNat ≠ j.toNat := fun q => e (BitVec.eq_of_toNat_eq q)
          simp [this, e]
      | s j => simp [State.readReg, State.writeReg, State.ctx, State.thread?_updThread, ht, Thread.writeV, Ctx.readS]
      | k j => simp [State.readReg, State.writeReg, State.thread?_updThread, ht, Thread.writeV]
    | k i =>
      simp only [Write.fits] at hw
      obtain ⟨rfl, b, rfl⟩ := hw
      cases r with
      | k j =>
        simp only [State.readReg, State.writeReg, State.thread?_updThread, ht]
        by_cases e : i = j
        · subst e; simp [flagOf_setFlag]; cases b <;> rfl
        · simp [flagOf_setFlag, e]
      | s j => simp [State.readReg, State.writeReg, State.ctx, State.thread?_updThread, ht, Ctx.readS]
      | v j => simp [State.readReg, State.writeReg, State.thread?_updThread, ht, Thread.readV]

end Sys2Proof.Machine
end

