-- ==== Sys2Proof/Laws/Fixed.lean ====
section
/-! SUPPORT. What the shared operations of an instruction do (R42, R46, R53): the collector, the checks for an agent that is
ready, results of fixed latency, and the group of a step. -/

namespace Sys2Proof.Machine

/-! ## The collector -/

/-- The instruction at hand dispatches in the cycle of issue (R159); the collector does nothing else to the step. -/
theorem State.collect_issue (s : State) (need : Nat) : (s.collect need).issue = { s.issue with now := s.issue.cycle } := by
  unfold State.collect
  dsimp only
  split <;> rfl

theorem State.collect_now (s : State) (need : Nat) : (s.collect need).issue.now = s.issue.cycle := by rw [State.collect_issue]

theorem State.collect_blocks (s : State) (need : Nat) : (s.collect need).blocks = s.blocks := by
  unfold State.collect
  dsimp only
  split <;> rfl

/-- The collector counts grants at the core that issues. -/
theorem State.collect_core (s : State) (need k : Nat) :
    (s.collect need).core k = s.core k ∨ (s.collect need).core k = (s.core k).grantMore s.issue.cycle need := by
  unfold State.collect
  dsimp only
  split
  · exact .inl rfl
  · rw [State.core_updCore]
    split
    · exact .inr rfl
    · exact .inl rfl

theorem State.collect_bobbin (s : State) (need core b : Nat) : (s.collect need).bobbin core b = s.bobbin core b := by
  simp only [State.bobbin]
  obtain h | h := s.collect_core need core <;> rw [h]
  rfl

theorem State.collect_ctx (s : State) (need : Nat) (ag : Agent) : (s.collect need).ctx ag = s.ctx ag := by
  cases ag with
  | thread bid tid => simp only [State.ctx, State.thread?, State.block?, s.collect_blocks]
  | bobbin core b => simp only [State.ctx, s.collect_bobbin]

theorem State.collect_thread? (s : State) (need bid tid : Nat) : (s.collect need).thread? bid tid = s.thread? bid tid := by
  simp only [State.thread?, State.block?, s.collect_blocks]

theorem State.collect_readReg (s : State) (need : Nat) (ag : Agent) (r : Reg) : (s.collect need).readReg ag r = s.readReg ag r := by
  cases r <;> cases ag <;> simp only [State.readReg, s.collect_ctx, s.collect_thread?]

theorem State.collect_sameAgent (s : State) (need : Nat) (ag : Agent) : SameAgent s (s.collect need) ag :=
  ⟨s.collect_ctx need ag, s.collect_readReg need ag⟩

theorem State.collect_sameBody (s : State) (need : Nat) : SameBody s (s.collect need) := by
  refine ⟨?_, fun k => ?_, ?_, ?_⟩
  · unfold State.collect
    dsimp only
    split <;> rfl
  · obtain h | h := s.collect_core need k <;> rw [h]
    rfl
  · rw [s.collect_blocks]
  · rw [s.collect_issue]

theorem State.collect_agents (s : State) (need : Nat) : (s.collect need).issue.agents = s.issue.agents :=
  by rw [(s.collect_sameBody need).issue]

/-! ## Presence and readiness -/

theorem State.present_congr {s t : State} {ag : Agent}
    (h : ∀ bid tid, (t.thread? bid tid).isSome = (s.thread? bid tid).isSome) : t.present ag ↔ s.present ag := by
  cases ag with
  | thread bid tid => simp only [State.present, h]
  | bobbin => exact Iff.rfl

theorem State.collect_present (s : State) (need : Nat) (ag : Agent) : (s.collect need).present ag ↔ s.present ag :=
  State.present_congr fun bid tid => by rw [s.collect_thread?]

theorem State.settled.complete {s : State} {ag : Agent} {r : Reg} (h : s.settled ag r) {now : Nat} (hn : s.issue.cycle ≤ now) :
    (s.ctx ag).incomplete now r = false := by
  unfold Ctx.incomplete
  split
  · rename_i f hf
    have hm := List.mem_of_getLast? hf
    rw [List.mem_filter] at hm
    have := h.2 f hm.1 (by simpa using hm.2)
    simp; omega
  · rfl

theorem State.operands_settled {s : State} {ag : Agent} {now : Nat} (hn : s.issue.cycle ≤ now) :
    ∀ {srcs : List Src}, (∀ x ∈ srcs, s.settled ag x.reg) → s.operands ag now srcs = (s.sources ag srcs, s)
  | [], _ => rfl
  | x :: rest, h => by
    have hx := (h x (by simp)).complete hn
    have ih := State.operands_settled hn (srcs := rest) fun y hy => h y (by simp [hy])
    simp [State.operands, State.operand, hx, ih, State.sources]

theorem firstBadTag_ok {s : State} {ag : Agent} :
    ∀ {srcs : List Src}, (∀ x ∈ srcs, x.acc.ok (s.readReg ag x.reg).tag = true) → firstBadTag srcs (s.sources ag srcs) = none
  | [], _ => rfl
  | x :: rest, h => by
    have hx := h x (by simp)
    have ih := firstBadTag_ok (srcs := rest) fun y hy => h y (by simp [hy])
    simp only [State.sources, List.map_cons, firstBadTag]
    have ih' : firstBadTag rest (rest.map fun x => s.readReg ag x.reg) = none := ih
    split <;> simp [hx, ih']

/-- Ready at the state as the collector leaves it. -/
structure State.ReadyAt (s : State) (o : Op) (ag : Agent) : Prop where
  ready : s.Ready o.who o.srcs o.dsts ag
  issued : s.issue.cycle ≤ s.issue.now

/-- An agent that is ready passes every check of R53. -/
theorem State.prepare_ready {s : State} {o : Op} {ag : Agent} {fx : State → Agent → Bool} (h : s.ReadyAt o ag)
    (hbad : o.bad = none) (hfx : fx s ag = false) (hpriv : o.priv = true → s.privOf ag = true) :
    s.prepare o fx ag = (s, some (s.sources ag o.srcs)) := by
  have hr := h.ready
  have hset : ∀ x ∈ o.srcs, s.settled ag x.reg := fun x hx => (hr.sources x hx).1
  unfold State.prepare
  have h1 : o.reason ag (fx s ag) = none := by simp [Op.reason, hbad, hr.allowed, hfx]
  have h2 : (o.priv && !s.privOf ag) = false := by
    cases hp : o.priv
    · rfl
    · simp [hpriv hp]
  have h3 : o.waits (s.ctx ag) = false := by
    simp only [Op.waits, Bool.or_eq_false_iff, List.any_eq_false]
    exact ⟨fun x hx => by simp [(hset x hx).1], fun r hrr => by simp [hr.dests r hrr]⟩
  have h4 : s.firstIncomplete ag s.issue.now o.srcs = none := by
    unfold State.firstIncomplete
    have : (o.srcs.find? fun x => (s.ctx ag).incomplete s.issue.now x.reg) = none := by
      rw [List.find?_eq_none]
      intro x hx
      simp [(hset x hx).complete h.issued]
    rw [this]
  simp only [h1, h2, h3, h4, ite_self, Bool.false_eq_true, if_false, State.operands_settled h.issued hset,
    firstBadTag_ok fun x hx => (hr.sources x hx).2]

/-! ## Results of fixed latency -/

theorem State.writeRegs_sameBody (s : State) (ag : Agent) (ws : List (Reg × VReg)) : SameBody s (s.writeRegs ag ws) := by
  induction ws generalizing s with
  | nil => exact SameBody.refl s
  | cons w ws ih => exact (s.writeReg_sameBody ag w.1 w.2).trans (ih _)

theorem State.writeRegs_present (s : State) (ag ag' : Agent) (ws : List (Reg × VReg)) :
    (s.writeRegs ag ws).present ag' ↔ s.present ag' := by
  induction ws generalizing s with
  | nil => exact Iff.rfl
  | cons w ws ih => exact (ih _).trans (s.present_writeReg ag ag' w.1 w.2)

theorem State.writeRegs_other (s : State) {ag ag' : Agent} (h : ag ≠ ag') (ws : List (Reg × VReg)) :
    SameAgent s (s.writeRegs ag ws) ag' := by
  induction ws generalizing s with
  | nil => exact SameAgent.refl s ag'
  | cons w ws ih =>
    exact SameAgent.trans ⟨s.ctx_writeReg_of_ne h w.1 w.2, fun r => s.readReg_writeReg_of_ne h w.1 r w.2⟩ (ih _)

theorem State.writeRegs_ctx (s : State) (ag ag' : Agent) (ws : List (Reg × VReg)) :
    ∃ v, (s.writeRegs ag ws).ctx ag' = { s.ctx ag' with s := v } := by
  induction ws generalizing s with
  | nil => exact ⟨_, rfl⟩
  | cons w ws ih =>
    obtain ⟨v, hv⟩ := s.ctx_writeReg ag ag' w.1 w.2
    obtain ⟨u, hu⟩ := ih (s.writeReg ag w.1 w.2)
    exact ⟨u, by rw [State.writeRegs, hu, hv]⟩

theorem State.writeRegs_read (s : State) {ag : Agent} (hp : s.present ag) (ws : List Write) (hw : ∀ w ∈ ws, w.fits ag) (r : Reg) :
    (s.writeRegs ag (ws.map fun w => (w.reg, ⟨w.val, w.tag⟩))).readReg ag r = written ws r (s.readReg ag r) := by
  induction ws generalizing s with
  | nil => rfl
  | cons w ws ih =>
    have h1 := s.readReg_writeReg hp w (hw w (by simp)) r
    have h2 := ih (s.writeReg ag w.reg ⟨w.val, w.tag⟩) ((s.present_writeReg ag ag _ _).2 hp) fun x hx => hw x (by simp [hx])
    simp only [List.map_cons, State.writeRegs]
    rw [h2, h1]
    rfl

theorem State.goto_sameBody (s : State) (ag : Agent) (n : BitVec 3) (pc : DWord) : SameBody s (s.goto ag n pc) :=
  s.updCtx_sameBody _ ag

/-- What loans may return changes with a write, and nothing else of the context (R119). -/
theorem Ctx.lend_same (c : Ctx) (f : Inflight) : ∃ l k, c.lend f = { c with lent := l, lentNext := k } := by
  unfold Ctx.lend
  split
  · dsimp only
    split <;> exact ⟨_, _, rfl⟩
  · exact ⟨_, _, rfl⟩
  · exact ⟨_, _, rfl⟩

theorem Ctx.lends_same (fs : List Inflight) (c : Ctx) : ∃ l k, fs.foldl Ctx.lend c = { c with lent := l, lentNext := k } := by
  induction fs generalizing c with
  | nil => exact ⟨c.lent, c.lentNext, rfl⟩
  | cons f fs ih =>
    obtain ⟨l, k, h⟩ := c.lend_same f
    obtain ⟨l', k', h'⟩ := ih (c.lend f)
    exact ⟨l', k', by rw [List.foldl_cons, h', h]⟩

theorem Ctx.lends_s (fs : List Inflight) (c : Ctx) : (fs.foldl Ctx.lend c).s = c.s := by
  obtain ⟨l, k, h⟩ := Ctx.lends_same fs c
  rw [h]

/-- A result of fixed latency leaves everything but the agent's own registers and context. -/
theorem State.writeFixed_sameBody (s : State) (ag : Agent) (lat : Nat) (ws : List Write) : SameBody s (s.writeFixed ag lat ws) :=
  (s.updCtx_sameBody _ ag).trans (State.writeRegs_sameBody _ ag _)

theorem State.retire_sameBody (s : State) (ag : Agent) (n : BitVec 3) (lat : Nat) (ws : List Write) :
    SameBody s (s.retire ag n lat ws) :=
  (s.writeFixed_sameBody ag lat ws).trans (State.goto_sameBody _ ag n _)

theorem State.goto_other (s : State) {ag ag' : Agent} (h : ag ≠ ag') (n : BitVec 3) (pc : DWord) :
    SameAgent s (s.goto ag n pc) ag' := by
  unfold State.goto
  exact ⟨s.ctx_updCtx_of_ne _ h, fun r => by apply State.readReg_updCtx; intro c; rfl⟩

theorem State.writeFixed_other (s : State) {ag ag' : Agent} (h : ag ≠ ag') (lat : Nat) (ws : List Write) :
    SameAgent s (s.writeFixed ag lat ws) ag' := by
  unfold State.writeFixed
  refine SameAgent.trans ?_ (State.writeRegs_other _ h _)
  exact ⟨s.ctx_updCtx_of_ne _ h, fun r => by apply State.readReg_updCtx; intro c; exact Ctx.lends_s _ _⟩

theorem State.retire_other (s : State) {ag ag' : Agent} (h : ag ≠ ag') (n : BitVec 3) (lat : Nat) (ws : List Write) :
    SameAgent s (s.retire ag n lat ws) ag' :=
  (s.writeFixed_other h lat ws).trans (State.goto_other _ h n _)

theorem State.goto_present (s : State) (ag ag' : Agent) (n : BitVec 3) (pc : DWord) : (s.goto ag n pc).present ag' ↔ s.present ag' :=
  s.present_updCtx _ ag ag'

theorem State.writeFixed_present (s : State) (ag ag' : Agent) (lat : Nat) (ws : List Write) :
    (s.writeFixed ag lat ws).present ag' ↔ s.present ag' :=
  (State.writeRegs_present _ ag ag' _).trans (s.present_updCtx _ ag ag')

theorem State.retire_present (s : State) (ag ag' : Agent) (n : BitVec 3) (lat : Nat) (ws : List Write) :
    (s.retire ag n lat ws).present ag' ↔ s.present ag' :=
  (State.goto_present _ ag ag' n _).trans (s.writeFixed_present ag ag' lat ws)

@[simp] theorem State.updCtx_issue (s : State) (f : Ctx → Ctx) (ag : Agent) : (s.updCtx f ag).issue = s.issue := by
  cases ag <;> rfl

@[simp] theorem State.writeReg_issue (s : State) (ag : Agent) (r : Reg) (x : VReg) : (s.writeReg ag r x).issue = s.issue := by
  cases r <;> cases ag <;> rfl

@[simp] theorem State.writeRegs_issue (s : State) (ag : Agent) (ws : List (Reg × VReg)) :
    (s.writeRegs ag ws).issue = s.issue := by
  induction ws generalizing s with
  | nil => rfl
  | cons w ws ih => rw [State.writeRegs, ih, State.writeReg_issue]

@[simp] theorem State.writeFixed_issue (s : State) (ag : Agent) (lat : Nat) (ws : List Write) :
    (s.writeFixed ag lat ws).issue = s.issue := by
  unfold State.writeFixed
  rw [State.writeRegs_issue, State.updCtx_issue]

@[simp] theorem State.goto_issue (s : State) (ag : Agent) (n : BitVec 3) (pc : DWord) : (s.goto ag n pc).issue = s.issue :=
  State.updCtx_issue _ _ _

@[simp] theorem State.retire_issue (s : State) (ag : Agent) (n : BitVec 3) (lat : Nat) (ws : List Write) :
    (s.retire ag n lat ws).issue = s.issue := by
  unfold State.retire State.advance
  rw [State.goto_issue, State.writeFixed_issue]

theorem State.goto_ctx (s : State) {ag : Agent} (hp : s.present ag) (n : BitVec 3) (pc : DWord) :
    (s.goto ag n pc).ctx ag = { s.ctx ag with pc := pc, ready := s.issue.now + 1 + n.toNat } :=
  s.ctx_updCtx_self _ hp

theorem State.goto_readReg (s : State) (ag ag' : Agent) (n : BitVec 3) (pc : DWord) (r : Reg) :
    (s.goto ag n pc).readReg ag' r = s.readReg ag' r := by
  unfold State.goto
  apply State.readReg_updCtx
  intro c
  rfl

/-- The entries of writes in flight that results of latency `lat` leave (R42). -/
def State.entries (s : State) (ag : Agent) (lat : Nat) (ws : List Write) : List Inflight :=
  ws.map fun w => { reg := w.reg, old := s.readReg ag w.reg, new := ⟨w.val, w.tag⟩, done := s.issue.now + lat }

theorem State.writeFixed_ctx (s : State) {ag : Agent} (hp : s.present ag) (lat : Nat) (ws : List Write) :
    ∃ v l k, (s.writeFixed ag lat ws).ctx ag =
      { s.ctx ag with inflight := liveInflight s.issue.now (s.ctx ag).inflight ++ s.entries ag lat ws, s := v, lent := l,
                      lentNext := k } := by
  unfold State.writeFixed
  obtain ⟨v, hv⟩ := State.writeRegs_ctx (s.updCtx (fun c => (s.entries ag lat ws).foldl Ctx.lend
    { c with inflight := liveInflight s.issue.now c.inflight ++ s.entries ag lat ws }) ag) ag ag
    (ws.map fun w => (w.reg, (⟨w.val, w.tag⟩ : VReg)))
  rw [s.ctx_updCtx_self _ hp] at hv
  obtain ⟨l, k, hl⟩ := Ctx.lends_same (s.entries ag lat ws)
    { s.ctx ag with inflight := liveInflight s.issue.now (s.ctx ag).inflight ++ s.entries ag lat ws }
  rw [hl] at hv
  exact ⟨v, l, k, hv⟩

theorem State.writeFixed_readReg (s : State) {ag : Agent} (hp : s.present ag) (lat : Nat) (ws : List Write)
    (hw : ∀ w ∈ ws, w.fits ag) (r : Reg) : (s.writeFixed ag lat ws).readReg ag r = written ws r (s.readReg ag r) := by
  unfold State.writeFixed
  rw [State.writeRegs_read _ ((s.present_updCtx _ ag ag).2 hp) ws hw]
  congr 1
  apply State.readReg_updCtx
  intro c
  exact Ctx.lends_s _ _

/-- An instruction with results of fixed latency has executed for an agent that exists. -/
theorem State.retire_executed (s : State) {ag : Agent} (hp : s.present ag) (n : BitVec 3) (lat : Nat) (ws : List Write)
    (hw : ∀ w ∈ ws, w.fits ag) : Executed s (s.retire ag n lat ws) ag n lat ws ((s.ctx ag).pc + 4) := by
  obtain ⟨v, l, k, hv⟩ := s.writeFixed_ctx hp lat ws
  have hp1 := (s.writeFixed_present ag ag lat ws).2 hp
  have hc := State.goto_ctx (s.writeFixed ag lat ws) hp1 n (((s.writeFixed ag lat ws).ctx ag).pc + 4)
  rw [State.writeFixed_issue] at hc
  rw [hv] at hc
  have hr : s.retire ag n lat ws = (s.writeFixed ag lat ws).goto ag n ((s.ctx ag).pc + 4) := by
    unfold State.retire State.advance
    rw [hv]
  rw [← hr] at hc
  refine ⟨fun r => ?_, ?_, ?_, ?_, ?_, ?_⟩
  · rw [hr, State.goto_readReg, s.writeFixed_readReg hp lat ws hw]
  · rw [hc]
  · rw [hc, State.retire_issue]
  · intro w hwm
    rw [hc, State.retire_issue]
    exact ⟨_, List.mem_append_right _ (List.mem_map_of_mem hwm), rfl, rfl, rfl⟩
  · rw [hc]
  · rw [hc]

end Sys2Proof.Machine
end

