-- ==== Sys2Proof/Laws/Group.lean ====
section
/-! SUPPORT. The group of a step: what it does when each agent, on its own, does something known (R88, R146); completion of the
instructions whose results have a fixed latency. -/

namespace Sys2Proof.Machine

/-! ## What the relations say of each other -/

theorem Thread.body_ne {t u : Thread} (h : t.body = u.body) : t.trap = u.trap ∧ t.status = u.status := by
  have h1 := congrArg Thread.trap h
  have h2 := congrArg Thread.status h
  exact ⟨h1, h2⟩

theorem SameBody.block? {s t : State} (h : SameBody s t) (bid : Nat) :
    (t.block? bid).map Block.body = (s.block? bid).map Block.body := by
  have e : ∀ u : State, (u.block? bid).map Block.body = (u.blocks.map Block.body).find? fun b => b.bid == bid := by
    intro u
    rw [find?_map_of_keep (fun b : Block => b.bid == bid) Block.body fun _ => rfl]
    rfl
  rw [e t, e s, h.blocks]

theorem SameBody.thread? {s t : State} (h : SameBody s t) (bid tid : Nat) :
    (t.thread? bid tid).map Thread.body = (s.thread? bid tid).map Thread.body := by
  have hb := h.block? bid
  unfold State.thread?
  cases ht : t.block? bid with
  | none =>
    rw [ht] at hb
    cases hs : s.block? bid with
    | none => rfl
    | some b => rw [hs] at hb; simp at hb
  | some b =>
    rw [ht] at hb
    cases hs : s.block? bid with
    | none => rw [hs] at hb; simp at hb
    | some b' =>
      rw [hs] at hb
      have := congrArg Block.threads (Option.some.inj hb)
      simp only [Block.body] at this
      rw [← List.getElem?_map, ← List.getElem?_map, this]

theorem SameBody.present {s t : State} (h : SameBody s t) (ag : Agent) : t.present ag ↔ s.present ag :=
  State.present_congr fun bid tid => by
    have := congrArg Option.isSome (h.thread? bid tid)
    simpa using this

theorem SameAgent.sources {s t : State} {ag : Agent} (h : SameAgent s t ag) (srcs : List Src) :
    t.sources ag srcs = s.sources ag srcs := by
  simp only [State.sources, h.2]

theorem State.Ready.congr {s t : State} {who : Who} {srcs : List Src} {dsts : List Reg} {ag : Agent}
    (h : s.Ready who srcs dsts ag) (ha : SameAgent s t ag) (hp : t.present ag ↔ s.present ag)
    (hc : t.issue.cycle = s.issue.cycle) : t.Ready who srcs dsts ag where
  present := hp.2 h.present
  allowed := h.allowed
  sources x hx := by
    have := h.sources x hx
    simp only [State.settled, ha.1, ha.2, hc] at this ⊢
    exact this
  dests r hr := by rw [ha.1]; exact h.dests r hr

theorem Executed.congr {s s' t t' : State} {ag : Agent} {n : BitVec 3} {lat : Nat} {ws : List Write} {pc : DWord}
    (h : Executed s t ag n lat ws pc) (hs : SameAgent s s' ag) (ht : SameAgent t t' ag) (hn : t'.issue.now = t.issue.now) :
    Executed s' t' ag n lat ws pc where
  registers r := by rw [ht.2, hs.2, h.registers]
  pc := by rw [ht.1, h.pc]
  eligible := by rw [ht.1, hn, h.eligible]
  inFlight w hw := by rw [ht.1, hn]; exact h.inFlight w hw
  status := by rw [ht.1, hs.1, h.status]
  pending := by rw [ht.1, hs.1, h.pending]

theorem SameAgent.symm {s t : State} {ag : Agent} (h : SameAgent s t ag) : SameAgent t s ag :=
  ⟨h.1.symm, fun r => (h.2 r).symm⟩

/-! ## The group -/

/-- A relation that every agent's part keeps, strong enough for the next agent to be ready still. -/
structure Carries (R : State → State → Prop) : Prop where
  refl : ∀ s, R s s
  trans : ∀ {s t u}, R s t → R t u → R s u
  issue : ∀ {s t}, R s t → t.issue = s.issue
  present : ∀ {s t}, R s t → ∀ ag, t.present ag ↔ s.present ag

theorem foldl_agents {R : State → State → Prop} (hR : Carries R) (f : State → Agent → State) (P : State → Agent → Prop)
    (s : State) (ags : List Agent) (hn : ags.Nodup)
    (h : ∀ u ag, ag ∈ ags → R s u → SameAgent s u ag →
      R u (f u ag) ∧ (∀ o, o ≠ ag → SameAgent u (f u ag) o) ∧ P (f u ag) ag)
    (hP : ∀ ag u t, P u ag → R u t → SameAgent u t ag → P t ag) :
    R s (ags.foldl f s) ∧ (∀ ag, ag ∉ ags → SameAgent s (ags.foldl f s) ag) ∧ ∀ ag ∈ ags, P (ags.foldl f s) ag := by
  suffices H : ∀ (l : List Agent), l.Nodup → (∀ ag ∈ l, ag ∈ ags) → ∀ u, R s u → (∀ ag ∈ l, SameAgent s u ag) →
      R u (l.foldl f u) ∧ (∀ ag, ag ∉ l → SameAgent u (l.foldl f u) ag) ∧ ∀ ag ∈ l, P (l.foldl f u) ag by
    exact H ags hn (fun _ h => h) s (hR.refl s) fun ag _ => SameAgent.refl s ag
  intro l
  induction l with
  | nil => exact fun _ _ u _ _ => ⟨hR.refl u, fun ag _ => SameAgent.refl u ag, by simp⟩
  | cons a l ih =>
    intro hl hm u hu hs
    obtain ⟨h1, h2, h3⟩ := h u a (hm a (by simp)) hu (hs a (by simp))
    have hl' := List.nodup_cons.1 hl
    obtain ⟨g1, g2, g3⟩ := ih hl'.2 (fun ag hag => hm ag (by simp [hag])) (f u a) (hR.trans hu h1) fun ag hag =>
      (hs ag (by simp [hag])).trans (h2 ag fun e => hl'.1 (e ▸ hag))
    refine ⟨hR.trans h1 g1, fun ag hag => ?_, fun ag hag => ?_⟩
    · rw [List.mem_cons, not_or] at hag
      exact (h2 ag hag.1).trans (g2 ag hag.2)
    · rcases List.mem_cons.1 hag with rfl | hin
      · exact hP ag _ _ h3 g1 (g2 ag hl'.1)
      · exact g3 ag hin

/-- A group of ready agents: what the instruction's own part does to each, it does to all. `opOf` gives every agent the operands
`o`. -/
theorem State.runGroupWith_ready {R : State → State → Prop} (hR : Carries R) {s : State} {need : Nat} {opOf : State → Agent → Op}
    {o : Op} {fx : State → Agent → Bool} {body : State → Agent → List VReg → State} (P : State → Agent → Prop)
    (h : s.AllReady o.who o.srcs o.dsts) (hbad : o.bad = none)
    (hop : ∀ u ag, ag ∈ s.issue.agents → R (s.collect need) u → SameAgent s u ag → opOf u ag = o)
    (hfx : ∀ u ag, ag ∈ s.issue.agents → R (s.collect need) u → SameAgent s u ag → fx u ag = false)
    (hpriv : o.priv = true → ∀ u ag, ag ∈ s.issue.agents → R (s.collect need) u → SameAgent s u ag → u.privOf ag = true)
    (hb : ∀ u ag, ag ∈ s.issue.agents → R (s.collect need) u → SameAgent s u ag → u.present ag →
      R u (body u ag (s.sources ag o.srcs)) ∧ (∀ x, x ≠ ag → SameAgent u (body u ag (s.sources ag o.srcs)) x) ∧
        P (body u ag (s.sources ag o.srcs)) ag)
    (hP : ∀ ag u t, P u ag → R u t → SameAgent u t ag → P t ag) :
    R (s.collect need) (s.runGroupWith need opOf fx body) ∧
      (∀ ag, ag ∉ s.issue.agents → SameAgent s (s.runGroupWith need opOf fx body) ag) ∧
      ∀ ag ∈ s.issue.agents, P (s.runGroupWith need opOf fx body) ag := by
  have key := foldl_agents hR (fun u ag => State.runAgent (opOf u ag) fx body u ag) P (s.collect need) s.issue.agents h.1
    (fun u ag hag hu hsa => by
      have hsa' : SameAgent s u ag := (s.collect_sameAgent need ag).trans hsa
      have hcyc : u.issue.cycle = s.issue.cycle := by rw [hR.issue hu, (s.collect_sameBody need).issue]
      have hpres : u.present ag ↔ s.present ag := (hR.present hu ag).trans (s.collect_present need ag)
      have hr : u.ReadyAt o ag := ⟨(h.2 ag hag).congr hsa' hpres hcyc, by
        rw [hcyc, hR.issue hu]; exact Nat.le_of_eq (s.collect_now need).symm⟩
      have hprep := State.prepare_ready hr hbad (hfx u ag hag hu hsa') fun hp => hpriv hp u ag hag hu hsa'
      have hrun : State.runAgent (opOf u ag) fx body u ag = body u ag (s.sources ag o.srcs) := by
        simp only [hop u ag hag hu hsa', State.runAgent, hprep, hsa'.sources]
      simp only [hrun]
      exact hb u ag hag hu hsa' (hpres.2 (h.2 ag hag).present)) hP
  have hag : (s.collect need).issue.agents = s.issue.agents := s.collect_agents need
  have hrun : s.runGroupWith need opOf fx body =
      s.issue.agents.foldl (fun u ag => State.runAgent (opOf u ag) fx body u ag) (s.collect need) := by
    simp only [State.runGroupWith, hag]
  rw [hrun]
  exact ⟨key.1, fun ag hn => (s.collect_sameAgent need ag).trans (key.2.1 ag hn), key.2.2⟩

/-- As runGroupWith_ready, with the same operands for every agent. -/
theorem State.runGroup_ready {R : State → State → Prop} (hR : Carries R) {s : State} {o : Op} {fx : State → Agent → Bool}
    {body : State → Agent → List VReg → State} (P : State → Agent → Prop) (h : s.AllReady o.who o.srcs o.dsts)
    (hbad : o.bad = none)
    (hfx : ∀ u ag, ag ∈ s.issue.agents → R (s.collect o.grants) u → SameAgent s u ag → fx u ag = false)
    (hpriv : o.priv = true → ∀ u ag, ag ∈ s.issue.agents → R (s.collect o.grants) u → SameAgent s u ag → u.privOf ag = true)
    (hb : ∀ u ag, ag ∈ s.issue.agents → R (s.collect o.grants) u → SameAgent s u ag → u.present ag →
      R u (body u ag (s.sources ag o.srcs)) ∧ (∀ x, x ≠ ag → SameAgent u (body u ag (s.sources ag o.srcs)) x) ∧
        P (body u ag (s.sources ag o.srcs)) ag)
    (hP : ∀ ag u t, P u ag → R u t → SameAgent u t ag → P t ag) :
    R (s.collect o.grants) (s.runGroup o fx body) ∧ (∀ ag, ag ∉ s.issue.agents → SameAgent s (s.runGroup o fx body) ag) ∧
      ∀ ag ∈ s.issue.agents, P (s.runGroup o fx body) ag :=
  State.runGroupWith_ready hR P h hbad (fun _ _ _ _ _ => rfl) hfx hpriv hb hP

/-- Registers and contexts only, at one time. -/
def Steady (s t : State) : Prop := SameBody s t ∧ t.issue = s.issue

theorem steady_carries : Carries Steady where
  refl s := ⟨SameBody.refl s, rfl⟩
  trans a b := ⟨a.1.trans b.1, b.2.trans a.2⟩
  issue h := h.2
  present h := h.1.present

/-- Ready agents execute an instruction whose own part, on the values at hand, is the retirement of results of fixed latency. -/
theorem State.runGroupWith_retires {s : State} {need : Nat} {opOf : State → Agent → Op} {o : Op}
    {body : State → Agent → List VReg → State} {lat : Nat} {f : List VReg → List Write} (h : s.AllReady o.who o.srcs o.dsts)
    (hbad : o.bad = none) (hpriv : o.priv = false)
    (hop : ∀ u ag, ag ∈ s.issue.agents → SameAgent s u ag → opOf u ag = o)
    (hb : ∀ u ag, ag ∈ s.issue.agents → SameAgent s u ag → u.present ag →
      body u ag (s.sources ag o.srcs) = u.retire ag o.n lat (f (s.sources ag o.srcs)))
    (hw : ∀ ag ∈ s.issue.agents, ∀ w ∈ f (s.sources ag o.srcs), w.fits ag) :
    OnlyAgents s (s.runGroupWith need opOf noFixed body) ∧ (s.runGroupWith need opOf noFixed body).issue.now = s.issue.cycle ∧
      ∀ ag ∈ s.issue.agents,
        Executed s (s.runGroupWith need opOf noFixed body) ag o.n lat (f (s.sources ag o.srcs)) ((s.ctx ag).pc + 4) := by
  have key := State.runGroupWith_ready steady_carries (s := s) (need := need) (opOf := opOf) (o := o) (fx := noFixed)
    (body := body)
    (fun t ag => Executed s t ag o.n lat (f (s.sources ag o.srcs)) ((s.ctx ag).pc + 4)) h hbad
    (fun u ag hag _ hsa => hop u ag hag hsa) (fun _ _ _ _ _ => rfl)
    (fun hp => by rw [hpriv] at hp; exact absurd hp (by decide))
    (fun u ag hag _ hsa hp => by
      rw [hb u ag hag hsa hp]
      refine ⟨⟨u.retire_sameBody ag o.n lat _, u.retire_issue ag o.n lat _⟩, fun x hx => u.retire_other (Ne.symm hx) o.n lat _, ?_⟩
      have := u.retire_executed hp o.n lat (f (s.sources ag o.srcs)) (hw ag hag)
      rw [hsa.1] at this
      exact this.congr hsa.symm (SameAgent.refl _ ag) rfl)
    (fun ag u t hPu hR hsa => hPu.congr (SameAgent.refl s ag) hsa (by rw [hR.2]))
  refine ⟨⟨(s.collect_sameBody need).trans key.1.1, key.2.1⟩, ?_, key.2.2⟩
  rw [key.1.2]
  exact s.collect_now need

/-- An instruction of fixed latency, executed by ready agents. -/
theorem State.runFixed_ready {s : State} {o : Op} {lat : Nat} {f : List VReg → List Write} (h : s.AllReady o.who o.srcs o.dsts)
    (hbad : o.bad = none) (hpriv : o.priv = false)
    (hw : ∀ ag ∈ s.issue.agents, ∀ w ∈ f (s.sources ag o.srcs), w.fits ag) :
    OnlyAgents s (s.runFixed o lat f) ∧ (s.runFixed o lat f).issue.now = s.issue.cycle ∧
      ∀ ag ∈ s.issue.agents, Executed s (s.runFixed o lat f) ag o.n lat (f (s.sources ag o.srcs)) ((s.ctx ag).pc + 4) :=
  State.runGroupWith_retires (need := o.grants) (opOf := fun _ _ => o) (body := fun s ag vs => s.retire ag o.n lat (f vs)) h hbad
    hpriv (fun _ _ _ _ => rfl) (fun _ _ _ _ _ => rfl) hw

/-- Completion of a constructor whose meaning is runFixed. -/
theorem fixedLatency_of_runFixed {i : Instr} {o : Op} {lat : Nat} {f : List VReg → List Write}
    (hi : ∀ s, exec i s = .next (s.runFixed o lat f)) (hbad : o.bad = none) (hpriv : o.priv = false)
    (hw : ∀ vs ag, o.who.allows ag = true → ∀ w ∈ f vs, w.fits ag) :
    FixedLatency i o.who o.srcs o.dsts o.n lat f := by
  intro s h
  obtain ⟨h1, h2, h3⟩ := State.runFixed_ready (lat := lat) (f := f) h hbad hpriv fun ag hag => hw _ ag (h.2 ag hag).allowed
  exact ⟨_, hi s, h1, h2, h3⟩

end Sys2Proof.Machine
end

