-- ==== Sys2Proof/Laws/Lane.lean ====
section
/-! SUPPORT. Completion of the lane forms: a constructor whose meaning is one of the shared lane operations, with a function
equal to the one named, completes with it. -/

namespace Sys2Proof.Machine

theorem wV_fits (d : BitVec 6) (x : Word) (t : Tag) {ag : Agent} (h : Who.thread.allows ag = true) : (wV d x t).fits ag := by
  cases ag with
  | thread => trivial
  | bobbin => simp [Who.allows] at h

theorem wK_fits (d : BitVec 3) (b : Bool) {ag : Agent} (h : Who.thread.allows ag = true) : (wK d b).fits ag := by
  cases ag with
  | thread => exact ⟨rfl, b, rfl⟩
  | bobbin => simp [Who.allows] at h

theorem wS_fits (d : BitVec 4) (x : Word) (ag : Agent) : (wS d x).fits ag := by cases ag <;> rfl

/-- An instruction of fixed latency that completes with `g`, given an equal function `f` in its meaning. -/
theorem fixedLatency_of {i : Instr} {o : Op} {who : Who} {n : BitVec 3} {lat : Nat} {srcs : List Src} {dsts : List Reg}
    {f g : List VReg → List Write} (hi : ∀ s, exec i s = .next (s.runFixed o lat f)) (hbad : o.bad = none)
    (hw : ∀ vs ag, who.allows ag = true → ∀ w ∈ g vs, w.fits ag) (hf : ∀ vs, f vs = g vs) (hwho : o.who = who := by rfl)
    (hs : o.srcs = srcs := by rfl) (hd : o.dsts = dsts := by rfl) (hn : o.n = n := by rfl) (hpriv : o.priv = false := by rfl) :
    FixedLatency i who srcs dsts n lat g := by
  have : f = g := funext hf
  subst this hwho hs hd hn
  exact fixedLatency_of_runFixed hi hbad hpriv hw

theorem laneUnary_of {i : Instr} {lat : Nat} {f g : Word → Word} {t : Tag} {aa : Accept} {d a : BitVec 6} {n : BitVec 3}
    (hi : ∀ s, exec i s = .next (s.vUnary lat f t aa d a n)) (hf : ∀ x, f x = g x) : LaneUnary i d a aa n lat t g := by
  have : f = g := funext hf
  subst this
  exact fixedLatency_of_runFixed hi rfl rfl fun vs ag h w hw => by
    rw [List.mem_singleton.1 hw]; exact wV_fits _ _ _ h

theorem laneBinary_of {i : Instr} {lat : Nat} {f g : Word → Word → Word} {t : Tag} {aa ab : Accept} {d a b : BitVec 6}
    {n : BitVec 3} (hi : ∀ s, exec i s = .next (s.vBinary lat f t aa ab d a b n)) (hf : ∀ x y, f x y = g x y) :
    LaneBinary i d a b aa ab n lat t g := by
  have : f = g := funext fun x => funext fun y => hf x y
  subst this
  exact fixedLatency_of_runFixed hi rfl rfl fun vs ag h w hw => by
    rw [List.mem_singleton.1 hw]; exact wV_fits _ _ _ h

theorem windowBad_none {d : BitVec 6} {c : BitVec 3} (h : d.toNat + c.toNat ≤ 63) : windowBad d c = none := by
  unfold windowBad
  rw [if_neg (by omega)]

theorem laneTernary_of {i : Instr} {lat : Nat} {f g : Word → Word → Word → Word} {t : Tag} {aa ab ac : Accept}
    {d a b : BitVec 6} {c n : BitVec 3} (hc : d.toNat + c.toNat ≤ 63)
    (hi : ∀ s, exec i s = .next (s.vTernary lat f t aa ab ac d a b c n)) (hf : ∀ x y z, f x y z = g x y z) :
    LaneTernary i d a b c aa ab ac n lat t g := by
  have : f = g := funext fun x => funext fun y => funext fun z => hf x y z
  subst this
  exact fixedLatency_of_runFixed hi (windowBad_none hc) rfl fun vs ag h w hw => by
    rw [List.mem_singleton.1 hw]; exact wV_fits _ _ _ h

theorem laneCompare_of {i : Instr} {f g : Word → Word → Bool} {d : BitVec 3} {a b : BitVec 6} {n : BitVec 3}
    (hi : ∀ s, exec i s = .next (s.vCompare f d a b n)) (hf : ∀ x y, f x y = g x y) :
    LaneCompare i d a b .int32 n latA g := by
  have : f = g := funext fun x => funext fun y => hf x y
  subst this
  exact fixedLatency_of_runFixed hi rfl rfl fun vs ag h w hw => by
    rw [List.mem_singleton.1 hw]; exact wK_fits _ _ h

theorem flagBinary_of {i : Instr} {f g : Bool → Bool → Bool} {d a b : BitVec 3} {n : BitVec 3}
    (hi : ∀ s, exec i s = .next (s.kBinary f d a b n)) (hf : ∀ x y, f x y = g x y) : FlagBinary i d a b n g := by
  have : f = g := funext fun x => funext fun y => hf x y
  subst this
  exact fixedLatency_of_runFixed hi rfl rfl fun vs ag h w hw => by
    rw [List.mem_singleton.1 hw]; exact wK_fits _ _ h

end Sys2Proof.Machine
end

