-- ==== Sys2Proof/Laws/Variable.lean ====
section
/-! SUPPORT. Results of variable latency (R48): what marking a group pending does, and completion of the instructions that do
so. -/

namespace Sys2Proof.Machine

/-- The state with the model's counters set: the next number, the next free value. -/
def State.counting (s : State) (n f : Nat) : State := { s with nextId := n, freeIdx := f }

theorem State.addPend_eq (s : State) (ag : Agent) (regs : List Reg) (work : PendWork) (left : Option Nat) :
    s.addPend ag regs work left = (s.counting (s.nextId + 1) s.freeIdx).updCtx
      (fun c => { c with pend := c.pend ++ [{ id := s.nextId, regs := regs, work := work, born := s.issue.now, left := left }] }) ag := rfl

/-- The counters of numbers and free values are no part of what an agent or the machine holds. -/
theorem sameBody_counters (s : State) (n f : Nat) : SameBody s (s.counting n f) :=
  ⟨rfl, fun _ => rfl, rfl, rfl⟩

theorem sameAgent_counters (s : State) (n f : Nat) (ag : Agent) : SameAgent s (s.counting n f) ag := by
  refine ⟨?_, fun r => ?_⟩
  · cases ag <;> rfl
  · cases r <;> cases ag <;> rfl

theorem present_counters (s : State) (n f : Nat) (ag : Agent) :
    (s.counting n f).present ag ↔ s.present ag := by cases ag <;> exact Iff.rfl

theorem State.addPend_sameBody (s : State) (ag : Agent) (regs : List Reg) (work : PendWork) (left : Option Nat) :
    SameBody s (s.addPend ag regs work left) :=
  (sameBody_counters s (s.nextId + 1) s.freeIdx).trans (State.updCtx_sameBody _ _ ag)

theorem State.addPend_other (s : State) {ag ag' : Agent} (h : ag ≠ ag') (regs : List Reg) (work : PendWork) (left : Option Nat) :
    SameAgent s (s.addPend ag regs work left) ag' := by
  refine (sameAgent_counters s (s.nextId + 1) s.freeIdx ag').trans ?_
  rw [State.addPend_eq]
  exact ⟨State.ctx_updCtx_of_ne _ _ h, fun r => by apply State.readReg_updCtx; intro c; rfl⟩

theorem State.addPend_readReg (s : State) (ag : Agent) (regs : List Reg) (work : PendWork) (left : Option Nat) (ag' : Agent) (r : Reg) :
    (s.addPend ag regs work left).readReg ag' r = s.readReg ag' r := by
  rw [State.addPend_eq, State.readReg_updCtx]
  · exact (sameAgent_counters s (s.nextId + 1) s.freeIdx ag').2 r
  · intro c; rfl

theorem State.addPend_ctx (s : State) {ag : Agent} (h : s.present ag) (regs : List Reg) (work : PendWork) (left : Option Nat) :
    (s.addPend ag regs work left).ctx ag =
      { s.ctx ag with pend := (s.ctx ag).pend ++ [{ id := s.nextId, regs := regs, work := work, born := s.issue.now, left := left }] } := by
  rw [State.addPend_eq, State.ctx_updCtx_self _ _ ((present_counters s (s.nextId + 1) s.freeIdx ag).2 h)]
  have := (sameAgent_counters s (s.nextId + 1) s.freeIdx ag).1
  rw [this]

@[simp] theorem State.addPend_issue (s : State) (ag : Agent) (regs : List Reg) (work : PendWork) (left : Option Nat) :
    (s.addPend ag regs work left).issue = s.issue := State.updCtx_issue _ _ _

theorem State.addPend_nextId (s : State) (ag : Agent) (regs : List Reg) (work : PendWork) (left : Option Nat) :
    (s.addPend ag regs work left).nextId = s.nextId + 1 := by cases ag <;> rfl

theorem State.goto_nextId (s : State) (ag : Agent) (n : BitVec 3) (pc : DWord) : (s.goto ag n pc).nextId = s.nextId := by
  cases ag <;> rfl

theorem State.addPend_present (s : State) (ag ag' : Agent) (regs : List Reg) (work : PendWork) (left : Option Nat) :
    (s.addPend ag regs work left).present ag' ↔ s.present ag' :=
  (State.present_updCtx _ _ ag ag').trans (present_counters s (s.nextId + 1) s.freeIdx ag')

theorem Awaiting.congr {s s' t t' : State} {ag : Agent} {n : BitVec 3} {regs : List Reg} {work : PendWork} {left : Option Nat} {pc : DWord}
    (h : Awaiting s t ag n regs work left pc) (hs : SameAgent s s' ag) (ht : SameAgent t t' ag) (hn : t'.issue.now = t.issue.now)
    (hi : s'.nextId ≤ s.nextId) (hj : t.nextId ≤ t'.nextId) : Awaiting s' t' ag n regs work left pc where
  registers r := by rw [ht.2, hs.2, h.registers]
  pc := by rw [ht.1, h.pc]
  eligible := by rw [ht.1, hn, h.eligible]
  pending := by
    obtain ⟨id, h1, h2, h3⟩ := h.pending
    exact ⟨id, by omega, by omega, by rw [ht.1, hs.1, hn, h3]⟩
  status := by rw [ht.1, hs.1, h.status]
  inFlight := by rw [ht.1, hs.1, h.inFlight]

/-- A group has been marked pending by an agent that exists. -/
theorem State.addPend_awaiting (s : State) {ag : Agent} (h : s.present ag) (n : BitVec 3) (regs : List Reg) (work : PendWork) (left : Option Nat) :
    Awaiting s ((s.addPend ag regs work left).advance ag n) ag n regs work left ((s.ctx ag).pc + 4) := by
  have hp := (s.addPend_present ag ag regs work left).2 h
  have hc : ((s.addPend ag regs work left).advance ag n).ctx ag =
      { s.ctx ag with
        pend := (s.ctx ag).pend ++ [{ id := s.nextId, regs := regs, work := work, born := s.issue.now, left := left }]
        pc := (s.ctx ag).pc + 4
        ready := s.issue.now + 1 + n.toNat } := by
    unfold State.advance
    rw [State.goto_ctx _ hp, State.addPend_ctx s h, State.addPend_issue]
  refine ⟨fun r => ?_, ?_, ?_, ⟨s.nextId, Nat.le_refl _, ?_, ?_⟩, ?_, ?_⟩
  · unfold State.advance
    rw [State.goto_readReg, State.addPend_readReg]
  · rw [hc]
  · rw [hc]
    unfold State.advance
    rw [State.goto_issue, State.addPend_issue]
  · unfold State.advance
    rw [State.goto_nextId, State.addPend_nextId]
    exact Nat.lt_succ_self _
  · rw [hc]
    unfold State.advance
    rw [State.goto_issue, State.addPend_issue]
  · rw [hc]
  · rw [hc]

theorem State.advance_sameBody (s : State) (ag : Agent) (n : BitVec 3) : SameBody s (s.advance ag n) := s.goto_sameBody ag n _

theorem State.advance_other (s : State) {ag ag' : Agent} (h : ag ≠ ag') (n : BitVec 3) : SameAgent s (s.advance ag n) ag' :=
  s.goto_other h n _

/-- Registers and contexts only, at one time, numbers rising. -/
def Rising (s t : State) : Prop := SameBody s t ∧ t.issue = s.issue ∧ s.nextId ≤ t.nextId

theorem rising_carries : Carries Rising where
  refl s := ⟨SameBody.refl s, rfl, Nat.le_refl _⟩
  trans a b := ⟨a.1.trans b.1, b.2.1.trans a.2.1, Nat.le_trans a.2.2 b.2.2⟩
  issue h := h.2.1
  present h := h.1.present

theorem State.collect_nextId (s : State) (need : Nat) : (s.collect need).nextId = s.nextId := by
  unfold State.collect
  split <;> rfl

/-- Completion of a constructor whose meaning marks its destinations pending, each agent on its own. `draw` is what the agent's
part does to the model's counters first. -/
theorem variableLatency_of_op {i : Instr} {o : Op} {body : State → Agent → List VReg → State}
    {left : Option Nat} {ok : State → Agent → List VReg → PendWork → Prop} (hi : ∀ s, exec i s = .next (s.runGroup o noFixed body))
    (hbody : ∀ s u ag vs, Rising s u → SameAgent s u ag → o.who.allows ag = true → ∃ f work, ok s ag vs work ∧
      body u ag vs = ((u.counting u.nextId f).addPend ag o.dsts work left).advance ag o.n)
    (hc : ∀ s ag vs w, ok (s.collect o.grants) ag vs w → ok s ag vs w) (hbad : o.bad = none) (hpriv : o.priv = false) : VariableLatency i o.who o.srcs o.dsts o.n left ok := by
  intro s h
  have key := State.runGroup_ready rising_carries (s := s) (o := o) (fx := noFixed) (body := body)
    (fun t ag => ∃ work, ok s ag (s.sources ag o.srcs) work ∧ Awaiting s t ag o.n o.dsts work left ((s.ctx ag).pc + 4)) h hbad
    (fun _ _ _ _ _ => rfl) (fun hp => by rw [hpriv] at hp; exact absurd hp (by decide))
    (fun u ag hag hR hsa hp => by
      obtain ⟨f, work, hok, hb⟩ := hbody (s.collect o.grants) u ag (s.sources ag o.srcs) hR
        ((s.collect_sameAgent o.grants ag).symm.trans hsa) (h.2 ag hag).allowed
      rw [hb]
      have hp' : (u.counting u.nextId f).present ag := (present_counters u u.nextId f ag).2 hp
      have hsa0 : SameAgent u (u.counting u.nextId f) ag := sameAgent_counters u u.nextId f ag
      have hsb0 : SameBody u (u.counting u.nextId f) := sameBody_counters u u.nextId f
      have aw := (u.counting u.nextId f).addPend_awaiting hp' o.n o.dsts work left
      refine ⟨⟨(hsb0.trans (State.addPend_sameBody _ ag _ work left)).trans (State.advance_sameBody _ ag o.n), ?_, ?_⟩,
        fun x hx => ?_, work, hc s ag _ work hok, ?_⟩
      · unfold State.advance
        rw [State.goto_issue, State.addPend_issue]
        rfl
      · unfold State.advance
        rw [State.goto_nextId, State.addPend_nextId]
        exact Nat.le_succ _
      · exact ((sameAgent_counters u u.nextId f x).trans (State.addPend_other _ (Ne.symm hx) _ work left)).trans
          (State.advance_other _ (Ne.symm hx) o.n)
      · rw [hsa0.1, hsa.1] at aw
        have hn : s.nextId ≤ u.nextId := by
          have := hR.2.2
          rwa [s.collect_nextId] at this
        exact aw.congr ((hsa.trans hsa0).symm) (SameAgent.refl _ ag) rfl hn (Nat.le_refl _))
    (fun ag u t hPu hR hsa => by
      obtain ⟨w, h1, h2⟩ := hPu
      exact ⟨w, h1, h2.congr (SameAgent.refl s ag) hsa (by rw [hR.2.1]) (Nat.le_refl _) hR.2.2⟩)
  refine ⟨_, hi s, ⟨(s.collect_sameBody o.grants).trans key.1.1, key.2.1⟩, ?_, key.2.2⟩
  rw [key.1.2.1]
  exact s.collect_now o.grants

/-- As variableLatency_of_op, the operands named one by one. -/
theorem variableLatency_of {i : Instr} {o : Op} {body : State → Agent → List VReg → State} {who : Who} {srcs : List Src}
    {dsts : List Reg} {n : BitVec 3} {left : Option Nat} {ok : State → Agent → List VReg → PendWork → Prop}
    (hi : ∀ s, exec i s = .next (s.runGroup o noFixed body))
    (hbody : ∀ s u ag vs, Rising s u → SameAgent s u ag → who.allows ag = true → ∃ f work, ok s ag vs work ∧
      body u ag vs = ((u.counting u.nextId f).addPend ag dsts work left).advance ag n)
    (hc : ∀ s ag vs w, ok (s.collect o.grants) ag vs w → ok s ag vs w) (hbad : o.bad = none := by rfl)
    (hpriv : o.priv = false := by rfl) (hwho : o.who = who := by rfl) (hs : o.srcs = srcs := by rfl)
    (hd : o.dsts = dsts := by rfl) (hn : o.n = n := by rfl) : VariableLatency i who srcs dsts n left ok := by
  subst hwho hs hd hn
  exact variableLatency_of_op hi hbody hc hbad hpriv

end Sys2Proof.Machine
end

