-- ==== Sys2Proof/Laws/Control.lean ====
section
/-! SUPPORT. Filing threads (R142), the members that act across a braid (R149, R152), and completion of the branches. -/

namespace Sys2Proof.Machine

/-! ## The relations -/

theorem SameBody.store {s t : State} (h : SameBody s t) : SameStore s t where
  rest := h.rest
  cores k := by
    have := h.cores k
    have e : ∀ c : CoreState, c.store =
        { c.body with
          bins := []
          pressure := none
          pipes := c.body.pipes.map fun (p : Pipe) => { p with braids := [], busy := 0, drawn := 0 } } := by
      intro c
      simp only [CoreState.store, CoreState.body, Vector.map_map]
      rfl
    rw [e, e, this]
  blocks := h.blocks
  issue := h.issue

theorem SameStore.refl (s : State) : SameStore s s := (SameBody.refl s).store

theorem SameStore.trans {s t u : State} (a : SameStore s t) (b : SameStore t u) : SameStore s u where
  rest := by
    have hb := b.rest
    have ha := a.rest
    rw [← ha, ← hb]
  cores k := (b.cores k).trans (a.cores k)
  blocks := b.blocks.trans a.blocks
  issue := by rw [b.issue, a.issue]

theorem SameStore.mem {s t : State} (h : SameStore s t) : t.mem = s.mem := by
  have := congrArg State.mem h.rest; exact this

theorem SameStore.scratch {s t : State} (h : SameStore s t) (k : Nat) : (t.core k).scratch = (s.core k).scratch := by
  have := congrArg CoreState.scratch (h.cores k); exact this

theorem SameStore.memOk {s t : State} (h : SameStore s t) (hs : s.MemOk) : t.MemOk :=
  ⟨h.mem ▸ hs.1, fun k => h.scratch k ▸ hs.2 k⟩

/-! ## Filing -/

theorem State.updCore_sameStore (s : State) (k : Nat) (f : CoreState → CoreState) (h : ∀ c, (f c).store = c.store) :
    SameStore s (s.updCore k f) := by
  refine ⟨rfl, fun j => ?_, rfl, rfl⟩
  rw [State.core_updCore]
  split
  · exact h _
  · rfl

theorem State.updCore_sameAgent (s : State) (k : Nat) (f : CoreState → CoreState) (h : ∀ c, (f c).bobbins = c.bobbins)
    (ag : Agent) : SameAgent s (s.updCore k f) ag := by
  have hb : ∀ j b, (s.updCore k f).bobbin j b = s.bobbin j b := by
    intro j b
    simp only [State.bobbin, State.core_updCore]
    split <;> simp [h]
  refine ⟨?_, fun r => ?_⟩
  · cases ag with
    | thread => rfl
    | bobbin core b => simp only [State.ctx, hb]
  · cases ag with
    | thread => cases r <;> rfl
    | bobbin core b => cases r <;> simp only [State.readReg, State.ctx, hb]

theorem CoreState.leaveBraid_store (c : CoreState) (bid tid : Nat) : (c.leaveBraid bid tid).store = c.store := by
  simp only [CoreState.leaveBraid, CoreState.store, CoreState.body, Vector.map_map]
  rfl

theorem CoreState.rebin_store (c : CoreState) (now : Nat) (bins : List Bin) : (c.rebin now bins).store = c.store := rfl

theorem CoreState.unfile_store (c : CoreState) (now bid tid : Nat) : (c.unfile now bid tid).store = c.store := rfl

theorem State.withdraw_sameStore (s : State) (bid tid : Nat) : SameStore s (s.withdraw bid tid) := by
  unfold State.withdraw
  split
  · exact s.updCore_sameStore _ _ fun c => by rw [CoreState.unfile_store, CoreState.leaveBraid_store]
  · exact SameStore.refl s

theorem State.file_sameStore (s : State) (bid tid : Nat) : SameStore s (s.file bid tid) := by
  unfold State.file
  split
  · split
    · exact SameStore.refl s
    · refine s.updCore_sameStore _ _ fun c => ?_
      rw [← CoreState.leaveBraid_store c bid tid]
      rfl
  · exact SameStore.refl s

theorem State.withdraw_sameAgent (s : State) (bid tid : Nat) (ag : Agent) : SameAgent s (s.withdraw bid tid) ag := by
  unfold State.withdraw
  split
  · apply State.updCore_sameAgent; intro c; rfl
  · exact SameAgent.refl s ag

theorem State.file_sameAgent (s : State) (bid tid : Nat) (ag : Agent) : SameAgent s (s.file bid tid) ag := by
  unfold State.file
  split
  · split
    · exact SameAgent.refl s ag
    · apply State.updCore_sameAgent; intro c; rfl
  · exact SameAgent.refl s ag

@[simp] theorem State.file_blocks (s : State) (bid tid : Nat) : (s.file bid tid).blocks = s.blocks := by
  unfold State.file
  repeat' split
  all_goals rfl

@[simp] theorem State.file_issue (s : State) (bid tid : Nat) : (s.file bid tid).issue = s.issue := by
  unfold State.file
  repeat' split
  all_goals rfl

/-- Filing a thread that is in no braid files it, or changes nothing. -/
theorem State.fileLoose_cases (s : State) (bid tid : Nat) : s.fileLoose bid tid = s ∨ s.fileLoose bid tid = s.file bid tid := by
  unfold State.fileLoose
  repeat' split
  · exact .inr rfl
  · exact .inl rfl
  · exact .inl rfl

theorem State.fileLoose_files (s : State) (bid tid : Nat) : SameStore s (s.fileLoose bid tid) ∧
    (∀ ag, SameAgent s (s.fileLoose bid tid) ag) ∧ (s.fileLoose bid tid).blocks = s.blocks ∧
    (s.fileLoose bid tid).issue = s.issue := by
  obtain h | h := s.fileLoose_cases bid tid <;> rw [h]
  · exact ⟨SameStore.refl s, fun ag => SameAgent.refl s ag, rfl, rfl⟩
  · exact ⟨s.file_sameStore bid tid, s.file_sameAgent bid tid, s.file_blocks bid tid, s.file_issue bid tid⟩

theorem State.fileAgent_sameStore (s : State) (ag : Agent) : SameStore s (s.fileAgent ag) := by
  cases ag with
  | thread bid tid => exact s.file_sameStore bid tid
  | bobbin => exact SameStore.refl s

theorem State.fileAgent_sameAgent (s : State) (ag x : Agent) : SameAgent s (s.fileAgent ag) x := by
  cases ag with
  | thread bid tid => exact s.file_sameAgent bid tid x
  | bobbin => exact SameAgent.refl s x

/-- A list of changes each of which only files threads. -/
theorem foldl_files {α : Type} (f : State → α → State) (h : ∀ u a, SameStore u (f u a) ∧ (∀ ag, SameAgent u (f u a) ag) ∧
    (f u a).issue = u.issue) (l : List α) (s : State) :
    SameStore s (l.foldl f s) ∧ (∀ ag, SameAgent s (l.foldl f s) ag) ∧ (l.foldl f s).issue = s.issue := by
  induction l generalizing s with
  | nil => exact ⟨SameStore.refl s, fun ag => SameAgent.refl s ag, rfl⟩
  | cons a l ih =>
    obtain ⟨h1, h2, h3⟩ := h s a
    obtain ⟨g1, g2, g3⟩ := ih (f s a)
    exact ⟨h1.trans g1, fun ag => (h2 ag).trans (g2 ag), g3.trans h3⟩

theorem State.diverge_files (s : State) :
    SameStore s s.diverge ∧ (∀ ag, SameAgent s s.diverge ag) ∧ s.diverge.issue = s.issue := by
  unfold State.diverge
  have r : SameStore s s ∧ (∀ ag, SameAgent s s ag) ∧ s.issue = s.issue := ⟨SameStore.refl s, fun ag => SameAgent.refl s ag, rfl⟩
  split
  · exact r
  · dsimp only
    split
    · exact r
    · exact foldl_files _ (fun u a => ⟨u.file_sameStore _ a, fun ag => u.file_sameAgent _ a ag, u.file_issue _ a⟩) _ s

/-! ## Acting across a braid -/

/-- Every ready agent passes the checks, and is given with its sources' values. -/
theorem State.gather_ready {s : State} {o : Op} (h : s.AllReady o.who o.srcs o.dsts) (hbad : o.bad = none) (hpriv : o.priv = false) :
    s.gather o = (s.collect o.grants, s.issue.agents.map fun ag => (ag, s.sources ag o.srcs)) := by
  have key : ∀ (l : List Agent) (acc : List (Agent × List VReg)), (∀ ag ∈ l, ag ∈ s.issue.agents) →
      l.foldl (fun (p : State × List (Agent × List VReg)) ag =>
        match p.1.prepare o noFixed ag with
        | (s, some vs) => (s, p.2 ++ [(ag, vs)])
        | (s, none) => (s, p.2)) (s.collect o.grants, acc) =
        (s.collect o.grants, acc ++ l.map fun ag => (ag, s.sources ag o.srcs)) := by
    intro l
    induction l with
    | nil => intro acc _; simp
    | cons a l ih =>
      intro acc hl
      have hsa := s.collect_sameAgent o.grants a
      have hcyc : (s.collect o.grants).issue.cycle = s.issue.cycle := by rw [(s.collect_sameBody o.grants).issue]
      have hr : (s.collect o.grants).ReadyAt o a := ⟨(h.2 a (hl a (by simp))).congr hsa (s.collect_present o.grants a) hcyc, by
        rw [hcyc]; exact Nat.le_of_eq (s.collect_now o.grants).symm⟩
      have hp := State.prepare_ready (fx := noFixed) hr hbad rfl fun hq => by rw [hpriv] at hq; exact absurd hq (by decide)
      simp only [List.foldl_cons, hp, hsa.sources]
      rw [ih _ fun ag hag => hl ag (by simp [hag])]
      simp
  have hk := key s.issue.agents [] fun _ h => h
  have hg : s.gather o = s.issue.agents.foldl (fun (p : State × List (Agent × List VReg)) ag =>
        match p.1.prepare o noFixed ag with
        | (s, some vs) => (s, p.2 ++ [(ag, vs)])
        | (s, none) => (s, p.2)) (s.collect o.grants, []) := by
    rw [← s.collect_agents o.grants]
    rfl
  rw [hg, hk, List.nil_append]

/-! ## Completion -/

theorem State.writeFixed_nil_ctx (s : State) (ag : Agent) (h : s.present ag) (n : BitVec 3) (lat : Nat) (ws : List Write)
    (hw : ∀ w ∈ ws, w.fits ag) (pc : DWord) :
    Executed s ((s.writeFixed ag lat ws).goto ag n pc) ag n lat ws pc := by
  obtain ⟨v, l, k, hv⟩ := s.writeFixed_ctx h lat ws
  have hp1 := (s.writeFixed_present ag ag lat ws).2 h
  have hc := State.goto_ctx (s.writeFixed ag lat ws) hp1 n pc
  rw [State.writeFixed_issue, hv] at hc
  refine ⟨fun r => ?_, ?_, ?_, ?_, ?_, ?_⟩
  · rw [State.goto_readReg, s.writeFixed_readReg h lat ws hw]
  · rw [hc]
  · rw [hc, State.goto_issue, State.writeFixed_issue]
  · intro w hwm
    rw [hc, State.goto_issue, State.writeFixed_issue]
    exact ⟨_, List.mem_append_right _ (List.mem_map_of_mem hwm), rfl, rfl, rfl⟩
  · rw [hc]
  · rw [hc]

theorem State.goto_executed (s : State) (ag : Agent) (h : s.present ag) (n : BitVec 3) (lat : Nat) (pc : DWord) :
    Executed s (s.goto ag n pc) ag n lat [] pc := by
  have hc := State.goto_ctx s h n pc
  refine ⟨fun r => ?_, ?_, ?_, ?_, ?_, ?_⟩
  · rw [State.goto_readReg]; rfl
  · rw [hc]
  · rw [hc, State.goto_issue]
  · intro w hw; simp at hw
  · rw [hc]
  · rw [hc]

/-- Completion of a branch that each thread takes on its own and that files a braid whose members part. -/
theorem branchTo_of {i : Instr} {o : Op} {body : State → Agent → List VReg → State} {who : Who} {srcs : List Src}
    {dsts : List Reg} {n : BitVec 3} {next : DWord → List VReg → List (List VReg) → DWord} {ws : DWord → List Write}
    {nx : DWord → List VReg → DWord}
    (hi : ∀ s, exec i s = .next (s.runGroup o noFixed body).diverge) (hnext : ∀ pc vs all, next pc vs all = nx pc vs)
    (hbody : ∀ u ag vs, u.present ag → who.allows ag = true →
      SameBody u (body u ag vs) ∧ (body u ag vs).issue = u.issue ∧ (∀ x, x ≠ ag → SameAgent u (body u ag vs) x) ∧
        Executed u (body u ag vs) ag n 4 (ws (u.ctx ag).pc) (nx (u.ctx ag).pc vs))
    (hbad : o.bad = none := by rfl) (hpriv : o.priv = false := by rfl) (hwho : o.who = who := by rfl)
    (hs : o.srcs = srcs := by rfl) (hd : o.dsts = dsts := by rfl) : BranchTo i who srcs dsts n next ws := by
  subst hwho hs hd
  intro s h
  have key := State.runGroup_ready steady_carries (s := s) (o := o) (fx := noFixed) (body := body)
    (fun t ag => Executed s t ag n 4 (ws (s.ctx ag).pc) (nx (s.ctx ag).pc (s.sources ag o.srcs))) h hbad
    (fun _ _ _ _ _ => rfl) (fun hp => by rw [hpriv] at hp; exact absurd hp (by decide))
    (fun u ag hag _ hsa hp => by
      obtain ⟨h1, h2, h3, h4⟩ := hbody u ag (s.sources ag o.srcs) hp (h.2 ag hag).allowed
      rw [hsa.1] at h4
      exact ⟨⟨h1, h2⟩, h3, h4.congr hsa.symm (SameAgent.refl _ ag) rfl⟩)
    (fun ag u t hPu hR hsa => hPu.congr (SameAgent.refl s ag) hsa (by rw [hR.2]))
  obtain ⟨d1, d2, d3⟩ := State.diverge_files (s.runGroup o noFixed body)
  refine ⟨_, hi s, ⟨((s.collect_sameBody o.grants).trans key.1.1).store.trans d1, fun ag hag => (key.2.1 ag hag).trans (d2 ag)⟩,
    ?_, fun ag hag => ?_⟩
  · rw [d3, key.1.2]
    exact s.collect_now o.grants
  · rw [hnext]
    exact (key.2.2 ag hag).congr (SameAgent.refl s ag) (d2 ag) (by rw [d3])

end Sys2Proof.Machine
end

