-- ==== Sys2Proof/Laws/Alone.lean ====
section
/-! SUPPORT. One agent alone in its step: its group is the agent, what its instruction does is the instruction's own part after
the checks; and what a precise trap at its instruction does (R328). -/

namespace Sys2Proof.Machine

theorem State.collect_privOf (s : State) (need : Nat) (ag : Agent) : (s.collect need).privOf ag = s.privOf ag := by
  cases ag <;> simp only [State.privOf, State.collect_ctx, State.collect_bobbin]

theorem State.collect_readyAt {s : State} {o : Op} {ag : Agent} (h : s.Ready o.who o.srcs o.dsts ag) (need : Nat) :
    (s.collect need).ReadyAt o ag :=
  ⟨h.congr (s.collect_sameAgent need ag) (s.collect_present need ag) (by rw [(s.collect_sameBody need).issue]), by
    rw [(s.collect_sameBody need).issue]; exact Nat.le_of_eq (s.collect_now need).symm⟩

/-- The instruction of a ready agent alone in its step is the instruction's own part, after the collector. -/
theorem State.runGroup_alone {s : State} {o : Op} {fx : State → Agent → Bool} {body : State → Agent → List VReg → State}
    {ag : Agent} (ha : s.issue.agents = [ag]) (hr : s.Ready o.who o.srcs o.dsts ag) (hbad : o.bad = none)
    (hfx : fx (s.collect o.grants) ag = false) (hpriv : o.priv = true → s.privOf ag = true) :
    s.runGroup o fx body = body (s.collect o.grants) ag (s.sources ag o.srcs) := by
  have hsa := s.collect_sameAgent o.grants ag
  have hp := State.prepare_ready (fx := fx) (State.collect_readyAt hr o.grants) hbad hfx fun h => by
    rw [State.collect_privOf]; exact hpriv h
  simp only [State.runGroup, State.runGroupWith, State.collect_agents, ha, List.foldl_cons, List.foldl_nil, State.runAgent, hp,
    hsa.sources]

/-! ## sys.tstate -/

/-- Every field of a sys.tstate word reads back. -/
theorem tstateWord_fields : ∀ (a b c : Bool) (m : Fin 4),
    inhOf (tstateWord a b m.val c) = a ∧ privOf (tstateWord a b m.val c) = b ∧ nreadOf (tstateWord a b m.val c) = m.val ∧
      stallchkOf (tstateWord a b m.val c) = c := by decide

theorem nreadOf_lt (w : Word) : nreadOf w < 4 := by
  unfold nreadOf
  exact BitVec.isLt _

theorem tstateWord_reads (a b c : Bool) (w : Word) : inhOf (tstateWord a b (nreadOf w) c) = a ∧
    privOf (tstateWord a b (nreadOf w) c) = b ∧ nreadOf (tstateWord a b (nreadOf w) c) = nreadOf w ∧
    stallchkOf (tstateWord a b (nreadOf w) c) = c := tstateWord_fields a b c ⟨nreadOf w, nreadOf_lt w⟩

/-! ## Traps -/

/-- A change of one thread leaves every other agent. -/
theorem State.updThread_otherAgent (s : State) (bid tid : Nat) (f : Thread → Thread) {ag : Agent} (h : ag ≠ .thread bid tid) :
    SameAgent s (s.updThread bid tid f) ag := by
  cases ag with
  | bobbin core b =>
    refine ⟨by simp only [State.ctx, State.bobbin_updThread], fun r => ?_⟩
    cases r <;> simp only [State.readReg, State.ctx, State.bobbin_updThread]
  | thread i j =>
    have hne : ¬(bid = i ∧ tid = j) := by
      rintro ⟨rfl, rfl⟩
      exact h rfl
    have ht : (s.updThread bid tid f).thread? i j = s.thread? i j := by
      rw [State.thread?_updThread, if_neg hne]
    refine ⟨by simp only [State.ctx, ht], fun r => ?_⟩
    cases r <;> simp only [State.readReg, State.ctx, ht]

/-- The greatest of a number and some completion times. -/
theorem foldl_done_ge (fs : List Inflight) (m : Nat) :
    m ≤ fs.foldl (fun m f => max m f.done) m ∧ ∀ f ∈ fs, f.done ≤ fs.foldl (fun m f => max m f.done) m := by
  induction fs generalizing m with
  | nil => exact ⟨Nat.le_refl m, by simp⟩
  | cons f fs ih =>
    obtain ⟨h1, h2⟩ := ih (max m f.done)
    refine ⟨Nat.le_trans (Nat.le_max_left _ _) h1, fun g hg => ?_⟩
    rcases List.mem_cons.1 hg with rfl | hg
    · exact Nat.le_trans (Nat.le_max_right _ _) h1
    · exact h2 g hg

/-- A thread that takes traps enters its handler. -/
theorem State.trap_enters {s : State} {bid tid : Nat} (h : s.TrapsOn bid tid) (cause : Cause) (info : Word) (addr : DWord) :
    EntersHandler s (s.trap (.thread bid tid) cause info addr) bid tid cause info addr := by
  obtain ⟨x, b, hx, hb, hh, hinh, hen⟩ := h
  let f : Thread → Thread := fun u =>
    { u with
      trap := { cause := BitVec.ofNat 32 cause.code, word := s.issue.word, pc := x.ctx.pc, info := info, addr := addr,
                tstate := x.ctx.tstate }
      status := .runnable
      ctx := { u.ctx with
        tstate := tstateWord true true (nreadOf u.ctx.tstate) (stallchkOf u.ctx.tstate)
        pc := tvecAddr b.regs.tvec
        ready := x.ctx.inflight.foldl (fun m f => max m f.done) (max x.ctx.ready (s.issue.now + 1 + s.stallOf cause)) } }
  have hc : s.ctx (.thread bid tid) = x.ctx := by simp [State.ctx, hx]
  have ht : s.trap (.thread bid tid) cause info addr = (s.updThread bid tid f).fileLoose bid tid := by
    simp only [State.trap, State.trapThread, hx, hb, hh, hinh, hen, hc, Bool.not_true, Bool.false_eq_true, if_false]
    rfl
  obtain ⟨g1, g2, g3, g4⟩ := State.fileLoose_files (s.updThread bid tid f) bid tid
  have hth : ∀ i j, ((s.updThread bid tid f).fileLoose bid tid).thread? i j =
      if bid = i ∧ tid = j then (s.thread? i j).map f else s.thread? i j := fun i j => by
    simp only [State.thread?, State.block?, g3]
    exact State.thread?_updThread s bid tid i j f
  have hr := tstateWord_reads true true (stallchkOf x.ctx.tstate) x.ctx.tstate
  obtain ⟨d1, d2⟩ := foldl_done_ge x.ctx.inflight (max x.ctx.ready (s.issue.now + 1 + s.stallOf cause))
  rw [ht]
  refine ⟨⟨x, b, f x, hx, hb, ?_, rfl, rfl, hr.1, hr.2.1, hr.2.2.1, hr.2.2.2, rfl, rfl, rfl, rfl, rfl, d2, ?_, rfl⟩,
    fun ag hne => (s.updThread_otherAgent bid tid f hne).trans (g2 ag), ?_, ?_, ?_, fun k => g1.cores k⟩
  · rw [hth, if_pos ⟨rfl, rfl⟩, hx]; rfl
  · rw [g4]
    exact Nat.le_trans (Nat.le_max_right _ _) d1
  · intro i j hne
    rw [hth, if_neg]
    rintro ⟨rfl, rfl⟩
    rcases hne with h | h <;> exact h rfl
  · rw [g3]
    simp only [State.updThread, State.updBlock, List.map_map]
    apply List.map_congr_left
    intro y _
    simp only [Function.comp]
    split <;> rfl
  · obtain h | h := State.fileLoose_cases (s.updThread bid tid f) bid tid <;> rw [h]
    · rfl
    · unfold State.file
      repeat' split
      all_goals rfl

end Sys2Proof.Machine
end

