-- ==== Sys2Proof/Laws/Frames.lean ====
section
/-! SUPPORT. The frame rules of uniform instructions (R89, R90) change timing only. -/

namespace Sys2Proof.Machine

/-- Two states differ at most in uniform frames and in the time that pipes are held. -/
structure FramesOnly (s t : State) : Prop where
  body : SameBody s t
  agents : ∀ ag, SameAgent s t ag
  issue : t.issue = s.issue
  nextId : t.nextId = s.nextId
  threads : ∀ bid tid x, s.thread? bid tid = some x → ∃ f, t.thread? bid tid = some { x with frame := f }
  coreBody : ∀ k, (t.core k).bobbins = (s.core k).bobbins

theorem FramesOnly.refl (s : State) : FramesOnly s s where
  body := SameBody.refl s
  agents := SameAgent.refl s
  issue := rfl
  nextId := rfl
  threads _ _ x h := ⟨x.frame, h⟩
  coreBody _ := rfl

theorem FramesOnly.trans {s t u : State} (a : FramesOnly s t) (b : FramesOnly t u) : FramesOnly s u where
  body := a.body.trans b.body
  agents ag := (a.agents ag).trans (b.agents ag)
  issue := b.issue.trans a.issue
  nextId := b.nextId.trans a.nextId
  threads bid tid x h := by
    obtain ⟨f, hf⟩ := a.threads bid tid x h
    obtain ⟨g, hg⟩ := b.threads bid tid _ hf
    exact ⟨g, hg⟩
  coreBody k := (b.coreBody k).trans (a.coreBody k)

theorem State.updCore_framesOnly (s : State) (k : Nat) (f : CoreState → CoreState) (h : ∀ c, (f c).body = c.body)
    (hb : ∀ c, (f c).bobbins = c.bobbins) : FramesOnly s (s.updCore k f) where
  body := ⟨rfl, fun j => by rw [State.core_updCore]; split <;> simp [h], rfl, rfl⟩
  agents ag := s.updCore_sameAgent k f hb ag
  issue := rfl
  nextId := rfl
  threads _ _ x hx := ⟨x.frame, hx⟩
  coreBody j := by rw [State.core_updCore]; split <;> simp [hb]

theorem State.updThread_framesOnly (s : State) (bid tid : Nat) (fr : Option Nat) :
    FramesOnly s (s.updThread bid tid fun t => { t with frame := fr }) where
  body := s.updThread_sameBody bid tid _ fun _ => rfl
  agents ag := by
    by_cases h : ag = .thread bid tid
    · subst h
      have hc := State.ctx_updThread_of_eq s bid tid (fun t => { t with frame := fr }) (fun _ => rfl) (.thread bid tid)
      refine ⟨hc, fun r => ?_⟩
      cases r <;> simp only [State.readReg, hc, State.thread?_updThread, and_self, if_true]
      all_goals cases s.thread? bid tid <;> rfl
    · exact s.updThread_otherAgent bid tid _ h
  issue := rfl
  nextId := rfl
  threads i j x hx := by
    rw [State.thread?_updThread, hx]
    split
    · exact ⟨fr, rfl⟩
    · exact ⟨x.frame, rfl⟩
  coreBody _ := rfl

theorem State.setFrame_framesOnly (s : State) (f : Option Nat) (ms : List (Nat × Nat)) : FramesOnly s (s.setFrame f ms) := by
  induction ms generalizing s with
  | nil => exact FramesOnly.refl s
  | cons m ms ih => exact (s.updThread_framesOnly m.1 m.2 f).trans (ih _)

theorem State.freeFrames_framesOnly (s : State) (core : Nat) : FramesOnly s (s.freeFrames core) :=
  s.updCore_framesOnly core _ (fun _ => rfl) fun _ => rfl

theorem State.touchFrame_framesOnly (s : State) (core f : Nat) : FramesOnly s (s.touchFrame core f) :=
  s.updCore_framesOnly core _ (fun _ => rfl) fun _ => rfl

theorem State.expand_framesOnly (s : State) (core : Nat) (ms : List (Nat × Nat)) : FramesOnly s (s.expand core ms) := by
  unfold State.expand
  dsimp only
  refine FramesOnly.trans (State.setFrame_framesOnly _ _ _) (State.updCore_framesOnly _ _ _ (fun c => ?_) fun _ => rfl)
  simp only [CoreState.body, Vector.map_map]
  congr 2
  funext p
  simp only [Function.comp, List.map_map]
  congr 2
  funext b
  simp only [Function.comp]
  split <;> rfl

theorem State.allocFrame_framesOnly (s : State) (core : Nat) : FramesOnly s (s.allocFrame core).2 := by
  unfold State.allocFrame
  dsimp only
  split
  · exact s.freeFrames_framesOnly core
  · split
    · exact (s.freeFrames_framesOnly core).trans (State.setFrame_framesOnly _ _ _)
    · exact s.freeFrames_framesOnly core

theorem State.ownFrame_framesOnly (s : State) (core f : Nat) (ms : List (Nat × Nat)) : FramesOnly s (s.ownFrame core f ms) := by
  unfold State.ownFrame
  split
  · exact s.touchFrame_framesOnly _ _
  · have h := s.allocFrame_framesOnly core
    split <;> rename_i heq <;> rw [heq] at h
    · exact (h.trans (State.setFrame_framesOnly _ _ _)).trans (State.touchFrame_framesOnly _ _ _)
    · exact h.trans (State.expand_framesOnly _ _ _)

/-- The frame rules change frames and timing only. -/
theorem State.frameRules_framesOnly (s : State) : FramesOnly s s.frameRules := by
  unfold State.frameRules
  dsimp only
  split
  · exact FramesOnly.refl s
  · split
    · exact FramesOnly.refl s
    · split
      · split
        · exact s.ownFrame_framesOnly _ _ _
        · exact (s.expand_framesOnly _ _).trans (State.freeFrames_framesOnly _ _)
      · exact s.expand_framesOnly _ _

/-! ## Traps of uniform words -/

/-- A trap taken after the collector and before the frame rules. -/
theorem EntersHandler.frames {s s0 t u : State} {bid tid} {c : Cause} {i : Word} {a : DWord}
   (h0 : SameBody s s0) (hc : ∀ ag, SameAgent s s0 ag) (hth : ∀ i j, s0.thread? i j = s.thread? i j) (hb : s0.blocks = s.blocks)
   (h : EntersHandler s0 t bid tid c i a) (hf : FramesOnly t u) : EntersHandler s u bid tid c i a := by
  obtain ⟨⟨x, b, y, e1, e2, e3, e4, e5, e6, e7, e8, e9, e10, e11, e12, e13, e14, e15, e16, e17⟩, h2, h3, h4, h5, h6⟩ := h
  obtain ⟨f, hf'⟩ := hf.threads _ _ _ e3
  have hblk : ∀ k, s0.block? k = s.block? k := fun k => by simp [State.block?, hb]
  refine ⟨⟨x, b, { y with frame := f }, (hth _ _).symm.trans e1, (hblk _) ▸ e2, hf', ?_, ?_⟩, ?_, ?_, ?_, ?_, ?_⟩
  · rw [h0.issue] at e4; exact e4
  · refine ⟨e5, e6, e7, e8, e9, e10, e11, e12, e13, e14, e15, ?_, e17⟩
    rw [hf.issue]
    unfold State.stallOf at e16 ⊢
    rw [h0.issue] at e16
    exact e16
  · exact fun ag hne => ((hc ag).trans (h2 ag hne)).trans (hf.agents ag)
  · intro p q hpq
    rw [← hth, ← h3 p q hpq]
    have := hf.body.thread? p q
    exact this
  · rw [← hb, ← h4]
    have hz : ∀ b : Block, ({ b with threads := [] } : Block) = { b.body with threads := [] } := fun _ => rfl
    have := congrArg (List.map fun b : Block => ({ b with threads := [] } : Block)) hf.body.blocks
    simp only [List.map_map] at this
    exact this
  · have r0 := h0.rest
    have r1 := hf.body.rest
    rw [← r0, ← h5, ← r1]
  · intro k
    exact ((hf.body.store).cores k).trans ((h6 k).trans (h0.store.cores k))

/-- A uniform word whose own part is a trap, in a thread alone in its step. -/
theorem uniform_traps {s : State} {bid tid : Nat} {o : Op} {body : State → Agent → List VReg → State} {c : Cause} {i : Word} {a : DWord}
    (ha : s.issue.agents = [.thread bid tid]) (ht : s.TrapsOn bid tid) (hr : s.Ready o.who o.srcs o.dsts (.thread bid tid))
    (hbad : o.bad = none) (hp : o.priv = true → s.privOf (.thread bid tid) = true)
    (hb : ∀ u vs, body u (.thread bid tid) vs = u.trap (.thread bid tid) c i a) :
    EntersHandler s (s.runUniform o noFixed body) bid tid c i a := by
  unfold State.runUniform
  rw [State.runGroup_alone ha hr hbad rfl hp, hb]
  have ht' : (s.collect o.grants).TrapsOn bid tid := by
    obtain ⟨x, b, h1, h2, h3⟩ := ht
    exact ⟨x, b, by rw [State.collect_thread?]; exact h1, by simp only [State.block?, State.collect_blocks] at h2 ⊢; exact h2, h3⟩
  exact EntersHandler.frames (s.collect_sameBody _) (s.collect_sameAgent _) (fun _ _ => State.collect_thread? ..)
    (s.collect_blocks _) (State.trap_enters ht' c i a) (State.frameRules_framesOnly _)

end Sys2Proof.Machine
end

