-- ==== Sys2Proof/Laws/Memory.lean ====
section
/-! SUPPORT. The laws of byte lists and of memory: every memory operation keeps the canonical form, a read after a write to the
same place gives the value written, a write leaves every other place alone. -/

namespace Sys2Proof.Machine

/-! ## Byte lists -/

theorem memSorted_mono {m : List Host.Cell} {lo lo' : Nat} (h : memSorted lo m = true) (hl : lo' ≤ lo) : memSorted lo' m = true := by
  cases m with
  | nil => rfl
  | cons c rest =>
    simp only [memSorted, Bool.and_eq_true, decide_eq_true_eq] at h ⊢
    exact ⟨⟨by omega, h.1.2⟩, h.2⟩

/-- Setting a byte keeps the canonical form. -/
theorem memSet_sorted {m : List Host.Cell} {lo a : Nat} {x : Byte} (h : memSorted lo m = true) (hl : lo ≤ a) :
    memSorted lo (memSet m a x) = true := by
  induction m generalizing lo with
  | nil =>
    unfold memSet
    split
    · rfl
    · rename_i hx; simp [memSorted, hl, bne_iff_ne, hx]
  | cons c rest ih =>
    obtain ⟨b, y⟩ := c
    simp only [memSorted, Bool.and_eq_true, decide_eq_true_eq, bne_iff_ne] at h
    obtain ⟨⟨hb, hy⟩, hr⟩ := h
    unfold memSet
    split
    · rename_i hab
      split
      · simp [memSorted, hb, hy, hr]
      · rename_i hx
        have : a + 1 ≤ b := hab
        simp [memSorted, hl, hx, this, hy, hr]
    · split
      · rename_i hab heq
        subst heq
        split
        · exact memSorted_mono hr (by omega)
        · rename_i hx; simp [memSorted, hl, hx, hr]
      · rename_i hab hne
        have : b + 1 ≤ a := by omega
        simp [memSorted, hb, hy, ih hr this]

theorem memSet_wf {m : List Host.Cell} (h : Memory.wf m = true) (a : Nat) (x : Byte) : Memory.wf (memSet m a x) = true :=
  memSet_sorted h (Nat.zero_le a)

/-- Writing any bytes keeps the canonical form. -/
theorem memWrite_wf {m : List Host.Cell} (h : Memory.wf m = true) (ps : List (Nat × Byte)) : Memory.wf (memWrite m ps) = true := by
  induction ps generalizing m with
  | nil => exact h
  | cons p rest ih => exact ih (memSet_wf h p.1 p.2)

theorem filter_sorted {m : List Host.Cell} {lo : Nat} (h : memSorted lo m = true) (p : Host.Cell → Bool) :
    memSorted lo (m.filter p) = true := by
  induction m generalizing lo with
  | nil => rfl
  | cons c rest ih =>
    obtain ⟨b, y⟩ := c
    simp only [memSorted, Bool.and_eq_true, decide_eq_true_eq] at h
    rw [List.filter_cons]
    split
    · simp only [memSorted, Bool.and_eq_true, decide_eq_true_eq]
      exact ⟨h.1, ih h.2⟩
    · exact memSorted_mono (ih h.2) (by omega)

/-- Dropping entries keeps the canonical form. -/
theorem filter_wf {m : List Host.Cell} (h : Memory.wf m = true) (p : Host.Cell → Bool) : Memory.wf (m.filter p) = true :=
  filter_sorted h p

theorem memGet_below {m : List Host.Cell} {lo a : Nat} (h : memSorted lo m = true) (ha : a < lo) : memGet m a = unlisted := by
  cases m with
  | nil => rfl
  | cons c rest =>
    obtain ⟨b, y⟩ := c
    simp only [memSorted, Bool.and_eq_true, decide_eq_true_eq] at h
    have h1 : b ≠ a := by omega
    have h2 : a < b := by omega
    simp [memGet, h1, h2]

/-- A read after a write of one byte gives that byte there, and elsewhere what was read before. -/
theorem memGet_memSet {m : List Host.Cell} (h : Memory.wf m = true) (a k : Nat) (x : Byte) :
    memGet (memSet m a x) k = if k = a then x else memGet m k := by
  suffices ∀ lo, memSorted lo m = true → memGet (memSet m a x) k = if k = a then x else memGet m k from this 0 h
  clear h
  induction m with
  | nil =>
    intro lo _
    unfold memSet
    by_cases hk : k = a <;> split <;> simp_all [memGet] <;> omega
  | cons c rest ih =>
    intro lo h
    obtain ⟨b, y⟩ := c
    simp only [memSorted, Bool.and_eq_true, decide_eq_true_eq, bne_iff_ne] at h
    obtain ⟨⟨hb, hy⟩, hr⟩ := h
    unfold memSet
    split
    · rename_i hab
      by_cases hk : k = a
      · subst hk
        have : b ≠ k := by omega
        split <;> simp_all [memGet]
      · split
        · simp
        · simp only [memGet, if_neg (Ne.symm hk)]
          by_cases hlt : k < a
          · have h1 : b ≠ k := by omega
            have h2 : k < b := by omega
            simp [hlt, h1, h2]
          · simp [hlt]
    · split
      · rename_i hab heq
        subst heq
        by_cases hk : k = a
        · subst hk
          split
          · rename_i hx; simp [hx, memGet_below hr (Nat.lt_succ_self k)]
          · simp [memGet]
        · split
          · simp only [memGet, if_neg (Ne.symm hk)]
            by_cases hlt : k < a
            · simp [hlt, memGet_below hr (show k < a + 1 by omega)]
            · simp [hlt]
          · simp [memGet, Ne.symm hk]
      · rename_i hab hne
        simp only [memGet]
        by_cases hbk : b = k
        · subst hbk
          simp [Ne.symm hne]
        · by_cases hlt : k < b
          · have : k ≠ a := by omega
            simp [hbk, hlt, this]
          · simp [hbk, hlt, ih _ hr]

/-- A read elsewhere than at the keys written gives what was read before. -/
theorem memGet_memWrite_of_notMem {m : List Host.Cell} (h : Memory.wf m = true) {ps : List (Nat × Byte)} {k : Nat}
    (hk : k ∉ ps.map (·.1)) : memGet (memWrite m ps) k = memGet m k := by
  induction ps generalizing m with
  | nil => rfl
  | cons p rest ih =>
    simp only [List.map_cons, List.mem_cons, not_or] at hk
    rw [memWrite, ih (memSet_wf h _ _) hk.2, memGet_memSet h, if_neg hk.1]

/-- A read at a key that is written once gives the byte written there. -/
theorem memGet_memWrite_of_mem {m : List Host.Cell} (h : Memory.wf m = true) {ps : List (Nat × Byte)} (hn : (ps.map (·.1)).Nodup)
    {k : Nat} {x : Byte} (hk : (k, x) ∈ ps) : memGet (memWrite m ps) k = x := by
  induction ps generalizing m with
  | nil => simp at hk
  | cons p rest ih =>
    simp only [List.map_cons, List.nodup_cons] at hn
    simp only [List.mem_cons] at hk
    rcases hk with rfl | hk
    · rw [memWrite, memGet_memWrite_of_notMem (memSet_wf h _ _) hn.1, memGet_memSet h, if_pos rfl]
    · exact ih (memSet_wf h _ _) hn.2 hk

/-! ## Bytes of a number, and what a write leaves to read -/

@[simp] theorem leBytes_length (n x : Nat) : (leBytes n x).length = n := by
  induction n generalizing x with
  | zero => rfl
  | succ n ih => simp [leBytes, ih]

/-- The number of its `n` least significant bytes. -/
theorem leNat_leBytes (n x : Nat) : leNat (leBytes n x) = x % 256 ^ n := by
  induction n generalizing x with
  | zero => simp [leBytes, leNat, Nat.mod_one]
  | succ n ih =>
    have : x % 256 ^ (n + 1) = x % 256 + 256 * (x / 256 % 256 ^ n) := by rw [Nat.pow_succ', Nat.mod_mul]
    simp [leBytes, leNat, ih, this]

/-- Bytes written at an address whose keys are distinct read back there. -/
theorem State.readPhys_writePhys {s : State} (h : Memory.wf s.mem = true) (pa : Nat) (bs : List Byte)
    (hn : ((List.range bs.length).map fun i => s.physKey (pa + i)).Nodup) : (s.writePhys pa bs).readPhys pa bs.length = bs := by
  have hk : ∀ x, (s.writePhys pa bs).physKey x = s.physKey x := fun _ => rfl
  refine List.ext_getElem (by simp [readPhys, memRead]) fun i h1 h2 => ?_
  simp only [readPhys, memRead, List.getElem_map, List.getElem_range, hk]
  refine memGet_memWrite_of_mem h ?_ (List.mem_map.mpr ⟨(i, bs[i]), List.mem_iff_getElem.mpr ⟨i, by simpa using h2, by simp⟩, rfl⟩)
  have : ∀ (xs : List Nat) (ys : List Byte), xs.length = ys.length →
      ((xs.zip ys).map fun p => (s.physKey (pa + p.1), p.2)).map (·.1) = xs.map fun i => s.physKey (pa + i) := by
    intro xs ys hl
    simp only [List.map_map, Function.comp_def]
    rw [← List.map_fst_zip (l₁ := xs) (l₂ := ys) (by omega), List.map_map]
    simp [Function.comp_def, List.map_fst_zip (l₁ := xs) (l₂ := ys) (by omega)]
  rwa [this _ _ (by simp)]

/-! ## The machine's memory and scratchpads -/

/-- The canonical form depends on memory and scratchpads alone. -/
theorem State.MemOk.of_same {s t : State} (h : s.MemOk) (hm : t.mem = s.mem) (hs : ∀ k, (t.core k).scratch = (s.core k).scratch) :
    t.MemOk := ⟨hm ▸ h.1, fun k => hs k ▸ h.2 k⟩

theorem State.MemOk.updCore {s : State} (h : s.MemOk) (k : Nat) (f : CoreState → CoreState)
    (hf : ∀ c, Memory.wf c.scratch = true → Memory.wf (f c).scratch = true) : (s.updCore k f).MemOk := by
  refine ⟨h.1, fun j => ?_⟩
  rw [State.core_updCore]
  split
  · exact hf _ (h.2 j)
  · exact h.2 j

theorem State.MemOk.writePhys {s : State} (h : s.MemOk) (pa : Nat) (bs : List Byte) : (s.writePhys pa bs).MemOk :=
  ⟨memWrite_wf h.1 _, h.2⟩

theorem State.MemOk.storeRaw {s : State} (h : s.MemOk) (pa : Nat) (bs : List Byte) : (s.storeRaw pa bs).MemOk := by
  unfold State.storeRaw
  dsimp only
  split
  · exact h.writePhys pa bs
  · exact ⟨(h.writePhys pa bs).1, (h.writePhys pa bs).2⟩

/-- Taking note of CLRSUS changes power state only. -/
@[simp] theorem State.noteClear_mem (s : State) (key : Nat) (x : Byte) : (s.noteClear key x).mem = s.mem := by
  unfold State.noteClear
  repeat' split
  all_goals rfl

@[simp] theorem State.noteClear_cores (s : State) (key : Nat) (x : Byte) : (s.noteClear key x).cores = s.cores := by
  unfold State.noteClear
  repeat' split
  all_goals rfl

theorem State.MemOk.writeScr {s : State} (h : s.MemOk) (core off : Nat) (bs : List Byte) : (s.writeScr core off bs).MemOk :=
  h.updCore core _ fun _ hc => memWrite_wf hc _

theorem State.MemOk.clearScr {s : State} (h : s.MemOk) (core lo n : Nat) : (s.clearScr core lo n).MemOk :=
  h.updCore core _ fun _ hc => filter_wf hc _

/-- A fold of operations that keep the canonical form keeps it. -/
theorem State.MemOk.foldl {α : Type} {f : State → α → State} (hf : ∀ u x, u.MemOk → (f u x).MemOk) {s : State} (h : s.MemOk)
    (xs : List α) : (xs.foldl f s).MemOk := by
  induction xs generalizing s with
  | nil => exact h
  | cons x rest ih => exact ih (hf s x h)

theorem State.MemOk.storePhys {s : State} (h : s.MemOk) (pa : Nat) (bs : List Byte) : (s.storePhys pa bs).MemOk := by
  unfold State.storePhys
  dsimp only
  split
  · exact h.storeRaw pa bs
  · refine State.MemOk.storeRaw (State.MemOk.foldl (fun u x hu => ?_) h _) pa _
    exact hu.of_same (by simp) fun k => by simp [State.core]

/-- Where nothing in memory is read-only to software, a store is the bare store (R5). -/
theorem State.storePhys_of_plain {s : State} (h : s.plain = true) (pa : Nat) (bs : List Byte) :
    s.storePhys pa bs = s.storeRaw pa bs := by rw [State.storePhys, if_pos h]

theorem State.MemOk.writeLoc {s : State} (h : s.MemOk) (l : Loc) (bs : List Byte) : (s.writeLoc l bs).MemOk := by
  cases l with
  | phys pa => exact h.storePhys pa bs
  | replica pa d => exact State.MemOk.foldl (fun u x hu => hu.storePhys _ _) h _
  | scratch core off => exact h.writeScr core off bs

/-- Memory is in canonical form at reset. -/
theorem State.reset_memOk : State.reset.MemOk := ⟨rfl, fun _ => rfl⟩

end Sys2Proof.Machine
end

