-- ==== Sys2Proof/Tests/Slice0.lean ====
section
/-! SUPPORT. The model's own tests: ill-formed instructions that the checks refuse, words of the spec that decode to what they
stand for, single steps, and for each statement of Obligations a state that meets its hypotheses. Expected values come from the
spec's tables and examples, or by hand from them. -/

namespace Sys2Proof.Tests

-- One theorem is checked at a time, so the memory of one suffices.
set_option Elab.async false

open Sys2Proof Sys2Proof.Machine

/-! ## Small machines -/

/-- Core 0 after reset with the word in place, alone in its step: one privileged thread, or a bobbin for a bobbin's word. -/
def benchOf (w : Nat) (ags : List Agent) : State :=
  { (State.reset.withFetchWord 32 w) with agenda := [], issue := { agents := ags, word := 0, core := 0, pipe := 0, cycle := 0, now := 0 } }

def bench : State := benchOf 0 [.thread 0 0]

/-- A bobbin alone in its step, of a block with one thread. -/
def bobBench : State := benchOf 0xC0020000 [.bobbin 0 0]

/-- The thread's v-registers all hold `x`. -/
def benchV (x : VReg) : State := bench.updThread 0 0 fun t => { t with v := Vector.replicate 64 x }

/-- The agent's s-registers all hold `x`. -/
def withS (s : State) (ag : Agent) (x : Word) : State := s.updCtx (fun c => { c with s := Vector.replicate 16 x }) ag

/-- The block takes traps at 0x2000. -/
def withTraps (s : State) : State := s.updBlock 0 fun b => { b with regs := { b.regs with tvec := 0x2001 } }

/-- The thread is not privileged. -/
def asUser (s : State) : State := s.updCtx (fun c => { c with tstate := c.tstate &&& ~~~0x40 }) (.thread 0 0)

/-- Two threads in one braid, both in the step; thread 1 holds flags `k1`. -/
def pairBench (k1 : BitVec 8) : State :=
  let s := bench.updBlock 0 fun b => { b with threads := b.threads ++ b.threads.map (fun t => { t with k := k1 }) }
  let s := s.updCore 0 fun c => { c with pipes := vecUpd c.pipes 0 (fun p => { p with braids := p.braids.map (fun b => { b with members := [(0, 0), (1, 1)] }) }) }
  { s with issue := { s.issue with agents := [.thread 0 0, .thread 0 1] } }

/-- An agent without a pending register or an incomplete result is ready at an instruction whose operands its tags suit. -/
theorem ready_idle {s : State} {who : Who} {srcs : List Src} {dsts : List Reg} {ag : Agent} (hp : s.present ag)
    (hw : who.allows ag = true) (h : (s.ctx ag).pend = [] ∧ (s.ctx ag).inflight = [])
    (ha : ∀ x ∈ srcs, x.acc.ok (s.readReg ag x.reg).tag = true) : s.Ready who srcs dsts ag where
  present := hp
  allowed := hw
  sources := fun x hx => ⟨⟨by simp [Ctx.isPending, h.1], by simp [h.2]⟩, ha x hx⟩
  dests := fun r _ => by simp [Ctx.isPending, h.1]

/-- As ready_idle, for thread 0 of block 0. -/
theorem ready_thread {s : State} {who : Who} {srcs : List Src} {dsts : List Reg} (hw : who.allows (.thread 0 0) = true)
    (h : (s.thread? 0 0).isSome = true ∧ (s.ctx (.thread 0 0)).pend = [] ∧ (s.ctx (.thread 0 0)).inflight = [] ∧
      ∀ x ∈ srcs, x.acc.ok (s.readReg (.thread 0 0) x.reg).tag = true) : s.Ready who srcs dsts (.thread 0 0) :=
  ready_idle h.1 hw ⟨h.2.1, h.2.2.1⟩ h.2.2.2

/-- As ready_idle, for bobbin 0 of core 0. -/
theorem ready_bobbin {s : State} {who : Who} {srcs : List Src} {dsts : List Reg} (hw : who.allows (.bobbin 0 0) = true)
    (h : (s.ctx (.bobbin 0 0)).pend = [] ∧ (s.ctx (.bobbin 0 0)).inflight = [] ∧
      ∀ x ∈ srcs, x.acc.ok (s.readReg (.bobbin 0 0) x.reg).tag = true) : s.Ready who srcs dsts (.bobbin 0 0) :=
  ready_idle (show (0 : Nat) < 4 by decide) hw ⟨h.1, h.2.1⟩ h.2.2

theorem allReady_thread {s : State} {who : Who} {srcs : List Src} {dsts : List Reg} (hi : s.issue.agents = [.thread 0 0])
    (h : s.Ready who srcs dsts (.thread 0 0)) : s.AllReady who srcs dsts ∧ s.issue.agents ≠ [] := by
  refine ⟨⟨by simp [hi], fun ag ha => ?_⟩, by simp [hi]⟩
  simp only [hi, List.mem_singleton] at ha
  exact ha ▸ h

theorem trapsOn_thread {s : State} (h : ∃ x ∈ (s.thread? 0 0), ∃ b ∈ (s.block? 0), b.halted = false ∧ inhOf x.ctx.tstate = false ∧ b.regs.tvec.getLsbD 0 = true) :
    s.TrapsOn 0 0 :=
  let ⟨x, hx, b, hb, h⟩ := h
  ⟨x, b, hx, hb, h⟩

/-- What a step leaves. -/
def after (i : Instr) (s : State) : State := match exec i s with
  | .next t => t
  | _ => s

theorem pair_each (P : Agent → Prop) (h : P (.thread 0 0) ∧ P (.thread 0 1)) : ∀ ag ∈ (pairBench 1).issue.agents, P ag := fun ag ha => by
  have : ag ∈ [Agent.thread 0 0, .thread 0 1] := ha
  simp only [List.mem_cons, List.not_mem_nil, or_false] at this
  exact this.elim (fun e => e ▸ h.1) fun e => e ▸ h.2

/-! ## Ill-formed instructions are refused by the check that names them -/

theorem test_wf_event : (Instr.moduleRationStart).wf = false ∧ (Instr.moduleRationStart).isEvent = true := by decide +kernel
/-- vmadw with an odd vd (R35): no aligned pair. -/
theorem test_wf_group : (Instr.vmadwI32 1 2 4 0 0).groupsOk = false ∧ (Instr.vmadwI32 2 2 4 0 0).wf = true := by decide +kernel
/-- The vc window of v62 + 7 passes v63. -/
theorem test_wf_window : (Instr.vmadI32 62 0 0 7 0).groupsOk = false ∧ (Instr.vmadI32 62 0 0 1 0).wf = true := by decide +kernel
/-- A guard slot named with G = 0 (R190). -/
theorem test_wf_reserved : (Instr.mzero 0 2 0 1 0).reservedOk = false ∧ (Instr.mzero 0 2 1 1 0).wf = true := by decide +kernel
/-- sb used with Q = 0 (R258). -/
theorem test_wf_name : (Instr.phwait 0 0 3 0 0).reservedOk = false ∧ (Instr.phwait 0 0 3 1 0).wf = true := by decide +kernel
/-- A scope value that R6 does not give. -/
theorem test_wf_scope : (Instr.fenceAcq 7 0).scopeOk = false ∧ (Instr.fenceAcq 0 0).wf = true := by decide +kernel

/-! ## Words of the spec's tables decode to what they stand for: the fixed bits and each field at its place (R34, R56 to R61) -/

theorem test_decode_lane : ([
    ((0x24000000 ||| 2 <<< 18 ||| 3 <<< 12 ||| 5 <<< 3 : Word), Instr.vaddiI32 2 3 5 0),
    ((0x08000000 ||| 62 <<< 18 ||| 1 <<< 12 ||| 63 <<< 6 ||| 7 : Word), Instr.vmadwI32 62 1 63 0 7),
    ((0x28000000 ||| 1 <<< 18 ||| 2 <<< 12 ||| 31 <<< 3 : Word), Instr.vshliB32 1 2 31 0),
    ((0x30000000 ||| 63 <<< 18 ||| 1 <<< 6 ||| 2 : Word), Instr.faddF32 63 0 1 2),
    ((0x38000000 ||| 4 <<< 18 ||| 5 <<< 12 ||| 6 <<< 6 ||| 7 <<< 3 : Word), Instr.ffmaBf16 4 5 6 7 0),
    ((0x46000008 ||| 1 <<< 18 ||| 2 <<< 12 ||| 3 <<< 6 : Word), Instr.cvtF16Rz 1 2 3 0),
    ((0x4A000020 ||| 3 <<< 18 ||| 8 <<< 12 : Word), Instr.npackF4e2 3 8 0),
    ((0x4B000000 ||| 8 <<< 18 ||| 3 <<< 12 : Word), Instr.nunpackF8e4 8 3 0),
    ((0x43000000 ||| 1 <<< 18 ||| 63 <<< 12 ||| 1 : Word), Instr.fex2F32 1 63 1),
    ((0x3E000000 ||| 2 <<< 18 ||| 1 <<< 12 : Word), Instr.fclassF32 2 1 0)] : List (Word × Instr)).all (fun p => decide (decodeWord p.1 = .ok p.2)) = true := by decide +kernel

theorem test_decode_control : ([
    ((0x5B000010 ||| 9 <<< 18 ||| 5 <<< 12 : Word), Instr.voteBallot 9 5 0),
    ((0x5A000000 ||| 7 <<< 18 : Word), Instr.elect 7 0),
    ((0x5E000000 ||| 0x3FFFF <<< 3 : Word), Instr.safe 0x3FFFF 0),
    ((0x5D000000 ||| 33 <<< 12 : Word), Instr.sleep 33 0),
    ((0x58000000 ||| 62 <<< 18 ||| 4 <<< 12 : Word), Instr.callx 62 4 0),
    ((0x57000000 ||| 62 <<< 12 : Word), Instr.brx 62 0),
    ((0x5F000000 : Word), Instr.reform 0),
    ((0xF0000000 ||| 1 <<< 3 : Word), Instr.nop 1 0),
    ((0xF3000000 ||| 3 : Word), Instr.yield 0 3)] : List (Word × Instr)).all (fun p => decide (decodeWord p.1 = .ok p.2)) = true := by decide +kernel

theorem test_decode_memory : ([
    ((0x66000000 ||| 4 <<< 18 ||| 62 <<< 12 ||| 511 <<< 3 : Word), Instr.ldB128 4 62 511 0),
    ((0x68000000 ||| 5 <<< 18 ||| 2 <<< 12 ||| 1 <<< 3 : Word), Instr.stB16 5 2 1 0),
    ((0x70000000 ||| 1 <<< 18 ||| 2 <<< 12 ||| 3 <<< 6 : Word), Instr.ldqB32 1 2 3 0),
    ((0xA1000000 ||| 2 <<< 20 ||| 4 <<< 16 ||| 511 <<< 3 : Word), Instr.lduB64 2 4 511 0),
    ((0x72000000 ||| 1 <<< 18 ||| 2 <<< 12 ||| 4 <<< 3 : Word), Instr.ldAcqB32 1 2 4 0),
    ((0xD6000200 ||| 3 <<< 3 : Word), Instr.fenceAr 3 0),
    ((0x78000018 ||| 2 <<< 18 ||| 4 <<< 12 ||| 8 <<< 6 : Word), Instr.atomCasB64 2 4 8 0),
    ((0x7B000000 ||| 2 <<< 12 ||| 3 <<< 6 : Word), Instr.redAddF32 2 3 0),
    ((0x74000010 ||| 2 <<< 12 : Word), Instr.cacheEvl2 2 0),
    ((0xF1000000 ||| 2 <<< 16 : Word), Instr.pfL1 0 2 0 0 0)] : List (Word × Instr)).all (fun p => decide (decodeWord p.1 = .ok p.2)) = true := by decide +kernel

theorem test_decode_messages : ([
    ((0x7C000000 ||| 2 <<< 18 ||| 4 <<< 12 ||| 5 <<< 6 : Word), Instr.msend 2 4 5 0),
    ((0x7D000000 ||| 4 <<< 18 ||| 1 <<< 12 ||| 2 <<< 6 : Word), Instr.mrecv 4 1 2 0),
    ((0x2C000000 ||| 1 <<< 18 ||| 2 <<< 12 ||| 3 <<< 6 : Word), Instr.collSumF32 1 2 3 0),
    ((0xD0000000 ||| 5 <<< 16 : Word), Instr.phinit 5 0),
    ((0xD3000000 ||| 1 <<< 20 ||| 2 <<< 16 ||| 3 <<< 12 ||| 1 <<< 3 : Word), Instr.pharr 1 2 3 1 0),
    ((0xD1000200 ||| 1 <<< 20 ||| 2 <<< 16 ||| 3 <<< 12 ||| 1 <<< 3 : Word), Instr.phregBoth 1 2 3 1 0),
    ((0xD2000000 ||| 1 <<< 20 ||| 2 <<< 16 ||| 3 <<< 12 ||| 3 <<< 4 ||| 1 <<< 3 : Word), Instr.phdereg 1 2 3 3 1 0)] : List (Word × Instr)).all (fun p => decide (decodeWord p.1 = .ok p.2)) = true := by decide +kernel

theorem test_decode_engines : ([
    ((0xB2000000 ||| 7 <<< 4 : Word), Instr.gresTake 7 0),
    ((0xB5000000 ||| 2 <<< 16 ||| 4 <<< 12 ||| 1 <<< 7 ||| 7 <<< 4 : Word), Instr.cpyS 0 2 4 1 7 0),
    ((0xB9000000 ||| 2 <<< 16 ||| 4 <<< 12 : Word), Instr.cpyRedAdd 0 2 4 0 0 0),
    ((0xC2000100 ||| 3 <<< 20 ||| 4 <<< 16 : Word), Instr.mrsumCol 3 4 0 0 0),
    ((0xC5000000 ||| 1 <<< 20 ||| 2 <<< 16 ||| 4 <<< 12 : Word), Instr.mzpc 1 2 4 0 0 0),
    ((0xC8000000 ||| 11 <<< 16 : Word), Instr.mfid 11 0),
    ((0xCA000000 ||| 1 <<< 16 ||| 2 <<< 12 : Word), Instr.fidinj 1 2 0),
    ((0xDE000000 ||| 2 <<< 3 : Word), Instr.rflush 0 2 0),
    ((0xDD000000 ||| 7 <<< 3 : Word), Instr.unmap 7 0)] : List (Word × Instr)).all (fun p => decide (decodeWord p.1 = .ok p.2)) = true := by decide +kernel

theorem test_decode_uniform : ([
    ((0x97000000 ||| 14 <<< 20 ||| 2 <<< 16 ||| 4 <<< 12 : Word), Instr.uaddI64 14 2 4 0),
    ((0x93000000 ||| 1 <<< 20 ||| 2 <<< 16 ||| 3 <<< 12 : Word), Instr.ucmpLtI32 1 2 3 0),
    ((0x82000000 ||| 9 <<< 20 ||| 9 <<< 16 ||| 11 <<< 12 : Word), Instr.usubI32 9 9 11 0),
    ((0xA9000000 ||| 15 <<< 20 : Word), Instr.uret 15 0),
    ((0xA5000000 ||| 3 <<< 19 ||| 65535 <<< 3 : Word), Instr.ubrz 3 65535 0)] : List (Word × Instr)).all (fun p => decide (decodeWord p.1 = .ok p.2)) = true := by decide +kernel

theorem test_decode_system : ([
    ((0xE1000000 ||| 5 <<< 3 : Word), Instr.syscall 5 0),
    ((0xE8000000 ||| 3 <<< 3 : Word), Instr.bkpt 3 0),
    ((0xE4000000 ||| 4 <<< 20 ||| 2 <<< 16 ||| 6 <<< 12 : Word), Instr.ctxload 4 2 6 0),
    ((0xD8000100 ||| 2 <<< 16 ||| 4 <<< 12 ||| 1 <<< 3 : Word), Instr.xinvRange 2 4 1 0),
    ((0xDA000000 : Word), Instr.xsync 0),
    ((0xDB000000 ||| 2 <<< 20 ||| 4 <<< 16 ||| 6 <<< 12 : Word), Instr.xprobe 2 4 6 0),
    ((0xF4000000 ||| 1 <<< 23 ||| 7 <<< 3 : Word), Instr.mark 1 0 7 0)] : List (Word × Instr)).all (fun p => decide (decodeWord p.1 = .ok p.2)) = true := by decide +kernel

/-- Reserved bits, a group of four and a pair at a register that does not divide, and the zero word do not decode (R51). -/
theorem test_decode_reserved : ([0x5C000008, 0x50200010, 0x66000000 ||| 5 <<< 18, 0x97000000 ||| 13 <<< 20, 0x00000000] : List Word).all
    (fun w => match decodeWord w with
      | .ok _ => false
      | .error _ => true) = true := by decide +kernel

/-! ## States that meet the hypotheses of the statements: the lane and uniform files -/

/-- Sources and destinations at the ends of the register file. -/
theorem witness_LaneAddSub :
    ((benchV ⟨0xFFFFFFFF, .i32⟩).AllReady .thread [vSrc 0 0 .int32, vSrc 63 1 .int32] [.v 63] ∧ (benchV ⟨0xFFFFFFFF, .i32⟩).issue.agents ≠ []) ∧
    ((benchV ⟨0xFFFFFFFF, .n32⟩).AllReady .thread [vSrc 0 0 .int32, vSrc 63 1 .int32, kSrc 7] [.v 63, .k 7] ∧ bench.issue.agents ≠ []) ∧
    (bench.AllReady .thread [] [.v 0] ∧ bench.issue.agents ≠ []) :=
  ⟨allReady_thread rfl (ready_thread rfl (by decide +kernel)), allReady_thread rfl (ready_thread rfl (by decide +kernel)),
    allReady_thread rfl (ready_thread rfl (by decide +kernel))⟩

theorem witness_LaneMultiply : (62#6).toNat + (0#3).toNat ≤ 63 ∧ (62#6).toNat % 2 = 0 ∧ (0#3).toNat % 2 = 0 ∧
    ((benchV ⟨7, .i64⟩).updThread 0 0 fun t => { t with v := vecUpd (vecUpd t.v 0 fun _ => ⟨7, .i32⟩) 1 fun _ => ⟨7, .i32⟩ }).AllReady .thread
      [vSrc 0 0 .int32, vSrc 1 1 .int32, vSrc (62 + (0#3).zeroExtend 6) 2 .int64, vSrc (62 + (0#3).zeroExtend 6 + 1) 2 .int64]
      [.v 62, .v (62 + 1)] ∧
    (benchV ⟨7, .x8⟩).AllReady .thread [vSrc 0 0 .bytes4, vSrc 63 1 .bytes4] [.v 63] :=
  ⟨by decide, by decide, by decide, (allReady_thread rfl (ready_thread rfl (by decide +kernel))).1,
    (allReady_thread rfl (ready_thread rfl (by decide +kernel))).1⟩

theorem witness_LaneMinMaxShiftBits : (56#6).toNat + (7#3).toNat ≤ 63 ∧
    (benchV ⟨0x2020, .n32⟩).AllReady .thread [vSrc 0 0 .any, vSrc 1 1 .int32, vSrc (56 + (7#3).zeroExtend 6) 2 .any] [.v 56] ∧
    (benchV ⟨0x2020, .f32⟩).AllReady .thread [vSrc 0 0 .any, vSrc 1 1 .any, vSrc 63 3 .any] [.v 63] :=
  ⟨by decide, (allReady_thread rfl (ready_thread rfl (by decide +kernel))).1, (allReady_thread rfl (ready_thread rfl (by decide +kernel))).1⟩

theorem witness_LaneLogicMoveFlags :
    bench.AllReady .thread [vSrc 0 0 .any, vSrc 63 1 .any, kSrc 7] [.v 63] ∧ bench.AllReady .thread [kSrc 0, kSrc 7] [.k 7] ∧
    bench.AllReady .thread ((List.range 8).map fun j => kSrc (BitVec.ofNat 3 j)) [.v 0] ∧ bench.AllReady .thread [sSrc 15] [.v 0] ∧
    (benchV ⟨3, .n32⟩).AllReady .thread [vSrc 0 0 .int32, vSrc 1 1 .int32] [.k 0] :=
  ⟨(allReady_thread rfl (ready_thread rfl (by decide +kernel))).1, (allReady_thread rfl (ready_thread rfl (by decide +kernel))).1,
    (allReady_thread rfl (ready_thread rfl (by decide +kernel))).1, (allReady_thread rfl (ready_thread rfl (by decide +kernel))).1,
    (allReady_thread rfl (ready_thread rfl (by decide +kernel))).1⟩

theorem witness_LaneFloatArithmetic : (63#6).toNat + (0#3).toNat ≤ 63 ∧
    ∀ t ∈ [Tag.f32, .f16x2, .bf16x2], (benchV ⟨0x3F803F80, t⟩).AllReady .thread
      [vSrc 0 0 (.exactly t), vSrc 1 1 (.exactly t), vSrc (63 + (0#3).zeroExtend 6) 2 (.exactly t)] [.v 63] := by
  refine ⟨by decide, fun t ht => ?_⟩
  fin_cases ht <;> exact (allReady_thread rfl (ready_thread rfl (by decide +kernel))).1

/-- A NaN, both infinities, zeros of both signs and a number with its negative in each format (R64). -/
theorem witness_FloatSpecialCases :
    valueOf .f32 0x7FC00000 = .nan ∧ valueOf .f32 0x7F800000 = .inf false ∧ valueOf .f32 0xFF800000 = .inf true ∧
    (∃ e, valueOf .f32 0x80000000 = .fin true 0 e) ∧ (∃ e, valueOf .f32 0 = .fin false 0 e) ∧
    (∃ m e, m ≠ 0 ∧ valueOf .f32 0x3F800000 = .fin false m e ∧ valueOf .f32 0xBF800000 = .fin true m e) ∧
    valueOf .f16 0x7E00 = .nan ∧ valueOf .f16 0x7C00 = .inf false ∧ (∃ e, valueOf .f16 0x8000 = .fin true 0 e) ∧
    valueOf .bf16 0x7FC0 = .nan ∧ valueOf .bf16 0x7F80 = .inf false ∧ (∃ e, valueOf .bf16 0x8000 = .fin true 0 e) :=
  ⟨rfl, rfl, rfl, ⟨_, rfl⟩, ⟨_, rfl⟩, ⟨_, _, by decide, rfl, rfl⟩, rfl, rfl, ⟨_, rfl⟩, rfl, rfl, ⟨_, rfl⟩⟩

/-- A half that is a tie, in each sign. -/
theorem witness_RoundingModes : 0 < 2 ∧ roundNat .rn false 5 2 = 2 ∧ roundNat .rd true 5 2 = 3 ∧ roundNat .ru false 5 2 = 3 := by
  decide +kernel

theorem witness_FloatFormatKept : (0xFFFFFFFF : Nat) < 2 ^ Fmt.f32.width ∧ Fmt.bf16 ∈ [Fmt.f32, .f16, .bf16] := by decide

theorem witness_LaneFloatCompareSign : (benchV ⟨0x80000000, .f32⟩).AllReady .thread [vSrc 0 0 (.exactly .f32), vSrc 63 1 (.exactly .f32)] [.k 7] ∧
    (benchV ⟨0x80000000, .f32⟩).AllReady .thread [vSrc 63 0 (.exactly .f32)] [.v 63] :=
  ⟨(allReady_thread rfl (ready_thread rfl (by decide +kernel))).1, (allReady_thread rfl (ready_thread rfl (by decide +kernel))).1⟩

theorem witness_LaneFloatVariable : (benchV ⟨0x7FC00000, .f32⟩).AllReady .thread [vSrc 0 0 (.exactly .f32), vSrc 1 1 (.exactly .f32)] [.v 63] ∧
    (benchV ⟨1, .n32⟩).AllReady .thread [vSrc 1 1 .int32] [.v 63] ∧ (bench.block? 0).isSome = true ∧ valueOf .f32 0x7FC00000 = .nan :=
  ⟨(allReady_thread rfl (ready_thread rfl (by decide +kernel))).1, (allReady_thread rfl (ready_thread rfl (by decide +kernel))).1,
    by decide +kernel, rfl⟩

/-- 1.0, −1.0, 2^127, the least subnormal value, and 1.5 are finite and not zero; their real values reach every clause. -/
theorem witness_FloatFunctionBounds : (2 ^ 32 - 1 < 2 ^ 32) ∧ (∃ m e, m ≠ 0 ∧ valueOf .f32 0x3F800000 = .fin false m e ∧ valueOf .f32 0xBF800000 = .fin true m e) ∧
    (∃ m e, m ≠ 0 ∧ valueOf .f32 0x7F000000 = .fin false m e) ∧ (∃ e, valueOf .f32 1 = .fin false 1 e) ∧
    (∃ m e, m ≠ 0 ∧ valueOf .f32 0x3FC00000 = .fin false m e) :=
  ⟨by decide, ⟨_, _, by decide, rfl, rfl⟩, ⟨_, _, by decide, rfl⟩, ⟨_, rfl⟩, ⟨_, _, by decide, rfl⟩⟩

theorem witness_LaneConvert : (62#6).toNat % 2 = 0 ∧
    (benchV ⟨1, .i64⟩).AllReady .thread [vSrc 62 0 (.oneOf [.i64, .n64]), vSrc (62 + 1) 0 (.oneOf [.i64, .n64])] [.v 62] ∧
    (benchV ⟨1, .bf16x2⟩).AllReady .thread [vSrc 0 0 (.oneOf [.i32, .n32, .f32, .f16x2, .bf16x2]),
      vSrc 1 1 (.oneOf [.i32, .n32, .f32, .f16x2, .bf16x2])] [.v 62] :=
  ⟨by decide, (allReady_thread rfl (ready_thread rfl (by decide +kernel))).1, (allReady_thread rfl (ready_thread rfl (by decide +kernel))).1⟩

/-- After reset NREAD is 0, which names a reading. -/
theorem witness_LanePackDequantise : (readingOf 0).isSome = true ∧ (60#6).toNat % 4 = 0 ∧ (56#6).toNat % 8 = 0 ∧
    nreadOf ((benchV ⟨1, .f32⟩).ctx (.thread 0 0)).tstate = 0 ∧
    (benchV ⟨1, .f32⟩).AllReady .thread (((List.range 8).map fun j => (56#6) + BitVec.ofNat 6 j).map fun x => vSrc x 0 (.exactly .f32)) [.v 63] ∧
    (benchV ⟨1, .f4e2⟩).AllReady .thread [vSrc 0 0 (.exactly .f4e2)] (((List.range 8).map fun j => (56#6) + BitVec.ofNat 6 j).map Reg.v) ∧
    ((benchV ⟨1, .q4⟩).updThread 0 0 fun t => { t with v := vecUpd t.v 1 fun _ => ⟨7, .i32⟩ }).AllReady .thread
      [vSrc 0 0 (.exactly .q4), vSrc 1 1 .int32] (((List.range 8).map fun j => (56#6) + BitVec.ofNat 6 j).map Reg.v) :=
  ⟨by decide +kernel, by decide, by decide, by decide +kernel, (allReady_thread rfl (ready_thread rfl (by decide +kernel))).1,
    (allReady_thread rfl (ready_thread rfl (by decide +kernel))).1, (allReady_thread rfl (ready_thread rfl (by decide +kernel))).1⟩

/-! ## Branches, threads, traps and system registers -/

theorem witness_LaneBranches :
    (pairBench 1).AllReady .thread [kSrc 0] [] ∧ (pairBench 1).issue.agents = [.thread 0 0, .thread 0 1] ∧ (62#6).toNat % 2 = 0 ∧
    (benchV ⟨0x1000, .n64⟩).AllReady .thread [vSrc 62 5 .int64, vSrc (62 + 1) 5 .int64] [.v 0, .v (0 + 1)] ∧
    (∀ ag ∈ (benchV ⟨0x1000, .n64⟩).issue.agents, (((benchV ⟨0x1000, .n64⟩).readReg ag (.v 62)).val.extractLsb' 0 2) = 0) :=
  ⟨⟨by decide +kernel, pair_each _ ⟨ready_idle (show _ = true by decide +kernel) rfl (by decide +kernel) (by decide +kernel),
      ready_idle (show _ = true by decide +kernel) rfl (by decide +kernel) (by decide +kernel)⟩⟩,
    rfl, by decide, (allReady_thread rfl (ready_thread rfl (by decide +kernel))).1, by decide +kernel⟩

/-- Two threads of one braid of which BRA.T sends only thread 1 away. -/
theorem witness_BranchTakenFiles :
    let s := pairBench 1
    s.AllReady .thread [kSrc 0] [] ∧ exec (.braT 0 5 0) s = .next (after (.braT 0 5 0) s) ∧
    (∀ ag ∈ s.issue.agents, ∃ z, ag = .thread 0 z ∧ s.coreOf ag = s.issue.core ∧ z ∈ (s.core s.issue.core).braidOf 0 z) ∧
    (∀ z, z ∈ (s.core s.issue.core).braidOf 0 0 → (s.thread? 0 z).isSome) ∧
    (∀ ag ∈ s.issue.agents, ∀ z, ag = .thread 0 z → (s.core s.issue.core).braidOf 0 z = (s.core s.issue.core).braidOf 0 0) ∧
    (s.block? 0).map (·.halted) = some false ∧
    ((after (.braT 0 5 0) s).ctx (.thread 0 0)).pc ≠ ((after (.braT 0 5 0) s).ctx (.thread 0 1)).pc ∧
    (∃ ag ∈ s.issue.agents, (s.readReg ag (.k 0)).val.getLsbD 0 = true) ∧
    ((bench.readReg (.thread 0 0) (.v 0)).val.extractLsb' 0 20 = 0 ∧ (benchV ⟨0, .i32⟩).Ready .thread [vSrc 0 0 .int32] [] (.thread 0 0)) :=
  ⟨witness_LaneBranches.1, rfl, pair_each _ ⟨⟨0, by decide +kernel⟩, ⟨1, by decide +kernel⟩⟩, by decide +kernel,
    pair_each _ ⟨fun z h => by cases h; rfl, fun z h => by cases h; decide +kernel⟩, by decide +kernel, by decide +kernel,
    by decide +kernel, by decide +kernel, ready_thread rfl (by decide +kernel)⟩

/-- The SAFE entry 0 at the word's own page, with a save pending; no entry at all; the last thread of a unit of one block. -/
theorem witness_VotesAndThreadLife_save :
    let l := bench.updBlock 0 fun b => { b with regs := { b.regs with lmtCount := 1, lmtBase := fetchVa }, save := some (.named 0) }
    l.Ready .thread [] [] (.thread 0 0) ∧ (withTraps bench).TrapsOn 0 0 ∧
    (∃ b ∈ l.block? 0, b.save ≠ none ∧ (0#18).toNat < b.regs.lmtCount.toNat ∧ b.regs.lmtBase = fetchVa) ∧
    (match (l.collect 0).admitted (.thread 0 0) .read fetchVa 16 with
      | (some (loc, _, _), u) => decide (u.requestHeld 0 loc 16 = false ∧ u.locPoisoned loc 16 = false ∧ u.blocks = l.blocks)
      | _ => false) = true ∧
    (∃ b ∈ (withTraps bench).block? 0, b.regs.lmtCount.toNat ≤ (0#18).toNat) ∧
    (∃ b ∈ bench.block? 0, b.threads.length = 1 ∧ b.halted = false ∧ b.save = none ∧
      (∀ g ∈ b.regions.toList, g.valid = false ∧ g.lines = [] ∧ g.lost = false) ∧ bench.blocks = [b]) ∧ bench.accs = [] ∧
    (∀ p ∈ (bench.core 0).bobbins.toList, p.status = .free) ∧ bench.platform.streetLog = 0 :=
  ⟨ready_thread rfl (by decide +kernel), trapsOn_thread (by decide +kernel), by decide +kernel⟩

/-- Thread 0 of a block of two; a sleeping thread at its wake cycle; a SAFE index below sys.lmt.count. -/
theorem witness_VotesAndThreadLife :
    let s := { pairBench 1 with issue := bench.issue }
    let z := bench.updThread 0 0 fun t => { t with status := .sleeping 0 }
    let l := bench.updBlock 0 fun b => { b with regs := { b.regs with lmtCount := 1 } }
    s.Ready .thread [] [] (.thread 0 0) ∧ (s.ctx (.thread 0 0)).pend = [] ∧
    (∃ blk ∈ s.block? 0, ∃ u ∈ blk.threads[1]?, u.status ≠ .exited) ∧
    ((benchV ⟨0xFFFFF, .i32⟩).Ready .thread [vSrc 0 0 .int32] [] (.thread 0 0) ∧
      ((benchV ⟨0xFFFFF, .i32⟩).readReg (.thread 0 0) (.v 0)).val.extractLsb' 0 20 ≠ 0 ∧
      ((benchV ⟨0xFFFFF, .i32⟩).block? 0).map (·.save) = some none) ∧
    (∃ blk ∈ l.block? 0, blk.save = none ∧ (0#18).toNat < blk.regs.lmtCount.toNat) ∧
    (∃ blk ∈ z.block? 0, ∃ u ∈ z.thread? 0 0, u.status = .sleeping 0 ∧ 0 ≤ (z.dom (blk.core / 512)).cycles) :=
  ⟨ready_thread rfl (by decide +kernel), by decide +kernel, by decide +kernel,
    ⟨ready_thread rfl (by decide +kernel), by decide +kernel⟩, by decide +kernel⟩

theorem allReady_bobbin {s : State} {who : Who} {srcs : List Src} {dsts : List Reg} (hi : s.issue.agents = [.bobbin 0 0])
    (h : s.Ready who srcs dsts (.bobbin 0 0)) : s.AllReady who srcs dsts ∧ s.issue.agents ≠ [] := by
  refine ⟨⟨by simp [hi], fun ag ha => ?_⟩, by simp [hi]⟩
  simp only [hi, List.mem_singleton] at ha
  exact ha ▸ h

theorem witness_UniformArithmetic : (14#4).toNat % 2 = 0 ∧
    bench.AllReady .both [sSrc 0, sSrc (0 + 1), sSrc 14, sSrc (14 + 1)] [.s 14, .s (14 + 1)] ∧
    bobBench.AllReady .both [sSrc 0, sSrc 15] [.s 15] ∧ bobBench.issue.agents = [.bobbin 0 0] :=
  ⟨by decide, (allReady_thread rfl (ready_thread rfl (by decide +kernel))).1, (allReady_bobbin rfl (ready_bobbin rfl (by decide +kernel))).1, rfl⟩

/-- Index 8 and index 9. -/
theorem witness_UniformSpecialRegisters :
    (withTraps bench).AllReady .both [] [.s 0] ∧ bobBench.AllReady .both [] [.s 15] ∧
    (∀ ag ∈ (withTraps bench).issue.agents, ((withTraps bench).blockOf ag).isSome) ∧ (∀ ag ∈ bobBench.issue.agents, (bobBench.blockOf ag).isSome) ∧
    (8#16).toNat ≤ 8 ∧ 8 < (9#16).toNat ∧ (withTraps bench).TrapsOn 0 0 :=
  ⟨(allReady_thread rfl (ready_thread rfl (by decide +kernel))).1, (allReady_bobbin rfl (ready_bobbin rfl (by decide +kernel))).1,
    by decide +kernel, by decide +kernel, by decide, by decide, trapsOn_thread (by decide +kernel)⟩

/-- After reset a bobbin has end address 0; its s-register 0 holds 0, its s-register 1 another word. -/
theorem witness_UniformBranches :
    let s := bobBench.updCtx (fun c => { c with s := vecUpd c.s 1 fun _ => 0x2000 }) (.bobbin 0 0)
    s.AllReady .both [sSrc 1] [] ∧
    (∀ ag ∈ s.issue.agents, (s.readReg ag (.s 1)).val.extractLsb' 0 2 = 0 ∧ ∀ core b, ag = .bobbin core b → (s.bobbin core b).endAddr ≠ (s.readReg ag (.s 1)).val) ∧
    s.AllReady .both [sSrc 0] [.s 0] ∧
    ((s.bobbin 0 0).endAddr = (s.readReg (.bobbin 0 0) (.s 0)).val ∧ (s.bobbin 0 0).endAddr.extractLsb' 0 2 = 0) := by
  refine ⟨(allReady_bobbin rfl (ready_bobbin rfl (by decide +kernel))).1, fun ag ha => ?_,
    (allReady_bobbin rfl (ready_bobbin rfl (by decide +kernel))).1, by decide +kernel⟩
  have : ag = .bobbin 0 0 := List.mem_singleton.mp (show ag ∈ [Agent.bobbin 0 0] from ha)
  subst this
  refine ⟨by decide +kernel, fun core b h => ?_⟩
  cases h
  decide +kernel

/-- Traps on; and traps off, with INH clear after reset and the vector disabled, or in a handler. -/
theorem witness_TrapsAndContextFaults :
    (withTraps bench).TrapsOn 0 0 ∧ (withTraps bench).issue.agents = [.thread 0 0] ∧ bobBench.issue.agents = [.bobbin 0 0] ∧
    (∃ x ∈ bench.thread? 0 0, ∃ b ∈ bench.block? 0, inhOf x.ctx.tstate = false ∧ b.regs.tvec.getLsbD 0 = false) ∧
    (let s := (withTraps bench).updCtx (fun c => { c with tstate := c.tstate ||| 0x80 }) (.thread 0 0)
     ∃ x ∈ s.thread? 0 0, inhOf x.ctx.tstate = true) :=
  ⟨trapsOn_thread (by decide +kernel), rfl, rfl, by decide +kernel⟩

theorem witness_ReturnFromTrap :
    (let s := bench.updCtx (fun c => { c with tstate := c.tstate ||| 0x80 }) (.thread 0 0)
     ∃ x ∈ s.thread? 0 0, ∃ b ∈ s.block? 0, privOf x.ctx.tstate = true ∧ inhOf x.ctx.tstate = true ∧ b.save = none) ∧
    ((withTraps bench).TrapsOn 0 0 ∧ ∃ x ∈ (withTraps bench).thread? 0 0, privOf x.ctx.tstate = true) ∧
    ((asUser (withTraps bench)).TrapsOn 0 0 ∧ ∃ x ∈ (asUser (withTraps bench)).thread? 0 0, privOf x.ctx.tstate = false) :=
  ⟨by decide +kernel, ⟨trapsOn_thread (by decide +kernel), by decide +kernel⟩, trapsOn_thread (by decide +kernel), by decide +kernel⟩

/-- Registers 0, 9, 23 and 53 for a privileged thread; 54 and, for a user, 23. -/
theorem witness_SystemRegisters :
    bench.AllReady .both [] [.s 0] ∧ bobBench.AllReady .both [] [.s 15] ∧
    bench.Ready .thread [sSrc 15] [] (.thread 0 0) ∧ (bench.block? 0).isSome = true ∧ (∃ x ∈ bench.thread? 0 0, privOf x.ctx.tstate = true) ∧
    (53#16).toNat ≤ 53 ∧ 53 < (54#16).toNat ∧ 23 ≤ (23#16).toNat ∧ (withTraps bench).TrapsOn 0 0 ∧
    (asUser (withTraps bench)).TrapsOn 0 0 ∧ ∃ x ∈ (asUser (withTraps bench)).thread? 0 0, privOf x.ctx.tstate = false :=
  ⟨(allReady_thread rfl (ready_thread rfl (by decide +kernel))).1, (allReady_bobbin rfl (ready_bobbin rfl (by decide +kernel))).1,
    ready_thread rfl (by decide +kernel), by decide +kernel, by decide +kernel, by decide, by decide, by decide,
    trapsOn_thread (by decide +kernel), trapsOn_thread (by decide +kernel), by decide +kernel⟩

/-- A user; an incomplete source under STALLCHK; an f32 source of an integer operand; a pending destination. -/
theorem witness_OrderOfChecks :
    let short := (withTraps bench).updCtx (fun c => { c with
      tstate := c.tstate ||| 0x08, inflight := [{ reg := .v 0, old := ⟨0, .raw⟩, new := ⟨1, .i32⟩, done := 100 }] }) (.thread 0 0)
    let wait := bench.updCtx (fun c => { c with pend := [⟨1, [.v 2], .value [⟨0, .raw⟩], 0, none⟩] }) (.thread 0 0)
    ((asUser (withTraps bench)).TrapsOn 0 0 ∧ ∃ x ∈ (asUser (withTraps bench)).thread? 0 0, privOf x.ctx.tstate = false) ∧
    (short.TrapsOn 0 0 ∧ ∃ x ∈ short.thread? 0 0, stallchkOf x.ctx.tstate = true ∧ ∃ g ∈ (x.ctx.inflight.filter fun f => f.reg == .v 0).getLast?, (short.collect 2).issue.now < g.done) ∧
    ((short.ctx (.thread 0 0)).isPending (.v 0) = false ∧ (short.ctx (.thread 0 0)).isPending (.v 1) = false) ∧
    ((withTraps (benchV ⟨0, .f32⟩)).TrapsOn 0 0 ∧ (withTraps (benchV ⟨0, .f32⟩)).Ready .thread [vSrc 0 0 .any, vSrc 1 1 .any] [.v 2] (.thread 0 0) ∧
      ((withTraps (benchV ⟨0, .f32⟩)).readReg (.thread 0 0) (.v 0)).tag = .f32) ∧
    (wait.ctx (.thread 0 0)).isPending (.v 2) = true ∧ bobBench.issue.agents = [.bobbin 0 0] :=
  ⟨⟨trapsOn_thread (by decide +kernel), by decide +kernel⟩, ⟨trapsOn_thread (by decide +kernel), by decide +kernel⟩,
    by decide +kernel, ⟨trapsOn_thread (by decide +kernel), ready_thread rfl (by decide +kernel), by decide +kernel⟩,
    by decide +kernel, rfl⟩

/-- A well-formed word that only a bobbin executes; well-formed privileged words; a short second source, a second source of another
tag; a bobbin without privilege. -/
theorem witness_OrderOfChecks_words :
    let short := (withTraps bench).updCtx (fun c => { c with
      tstate := c.tstate ||| 0x08, inflight := [{ reg := .v 1, old := ⟨0, .raw⟩, new := ⟨1, .i32⟩, done := 100 }] }) (.thread 0 0)
    let mixed := (withTraps (benchV ⟨0, .i32⟩)).updThread 0 0 fun t => { t with v := vecUpd t.v 1 fun _ => ⟨0, .f32⟩ }
    let user := asUser bobBench
    ((encode (.mzero 3 0 0 0 7)).map (fun w => decide ((w.extractLsb' 24 8).toNat ∈ bobbinMajors)) = some true ∧ (Instr.mzero 3 0 0 0 7).wf = true) ∧
    (∀ i ∈ [Instr.fidinj 1 2 7, .dcfg 1 2 3 7, .ctxsave 1 2 3 7, .ctxload 1 2 4 7, .xinvAll 4 7, .xinvAsid 1 4 7, .xinvPage 2 1 4 7,
      .xinvRange 2 4 4 7, .eret 1 7, .cpyMigr 0 2 4 0 0 7], i.wf = true) ∧
    (short.TrapsOn 0 0 ∧ ∃ x ∈ short.thread? 0 0, stallchkOf x.ctx.tstate = true ∧ (x.ctx.inflight.filter fun f => f.reg == .v 0) = [] ∧
      ∃ g ∈ (x.ctx.inflight.filter fun f => f.reg == .v 1).getLast?, short.issue.cycle < g.done) ∧
    (mixed.TrapsOn 0 0 ∧ mixed.Ready .thread [vSrc 0 0 .int32, vSrc 1 1 .any] [.v 2] (.thread 0 0) ∧ (mixed.readReg (.thread 0 0) (.v 1)).tag = .f32) ∧
    user.privOf (.bobbin 0 0) = false ∧ user.issue.agents = [.bobbin 0 0] :=
  ⟨by decide +kernel, by decide +kernel, ⟨trapsOn_thread (by decide +kernel), by decide +kernel⟩,
    ⟨trapsOn_thread (by decide +kernel), ready_thread rfl (by decide +kernel), by decide +kernel⟩, by decide +kernel, rfl⟩

/-! ## Memory, translation, order, atomics, messages -/

/-- `bench` with a second page, at 0x0001_0000_0000_2000, for reading and writing (V, R, W, A, D, leaf), whose address v0, v1 and
s0, s1 hold; v4 to v7 hold `x`. -/
def dataBench (x : VReg) : State :=
  let a := bench.fetchTables
  let s := bench.putEntry (a + 0x4000) 2 (a + 0x6000) 0x1D9
  let s := s.updThread 0 0 fun t => { t with
    v := vecUpd (vecUpd (Vector.replicate 64 x) 0 fun _ => ⟨0x2000, .n64⟩) 1 fun _ => ⟨0x00010000, .n64⟩ }
  s.updCtx (fun c => { c with s := vecUpd (vecUpd c.s 0 fun _ => 0x2000) 1 fun _ => 0x00010000 }) (.thread 0 0)

/-- The address of that page. -/
def dataVa : DWord := 0x0001000000002000

def isLeaf : XRes → Bool
  | .leaf _ => true
  | _ => false

theorem leaf_of {r : XRes × State} (h : isLeaf r.1 = true) : ∃ e u, r = (.leaf e, u) := by
  obtain ⟨a, u⟩ := r
  cases a <;> simp_all [isLeaf]

def isFault : XRes → Bool
  | .fault .. => true
  | _ => false

theorem fault_of {r : XRes × State} (h : isFault r.1 = true) : ∃ x l e u, r = (.fault x l e, u) := by
  obtain ⟨a, u⟩ := r
  cases a <;> simp_all [isFault]

theorem some_of {α : Type} {r : Option α × State} (h : r.1.isSome = true) : ∃ x u, r = (some x, u) := by
  obtain ⟨a, u⟩ := r
  cases a <;> simp_all

theorem memOk_of {s : State} (hm : Memory.wf s.mem = true) (hc : ∀ k, (s.core k).scratch = []) : s.MemOk :=
  ⟨hm, fun k => by rw [hc]; decide⟩

/-- A machine without a frozen frame, a partition or a power event holds no request. -/
theorem unheld_idle {s : State} {c n : Nat} {l : Loc} (h : s.frozen = [] ∧ s.partitions = [] ∧ s.powers = []) : s.requestHeld c l n = false := by
  obtain ⟨hf, hq, hp⟩ := h
  have hpow : ∀ d, s.power d = PowerState.zero := fun d => by simp [State.power, hp, assocGet]
  have hpart : ∀ d, s.partitionAt d = none := fun d => by simp [State.partitionAt, hq]
  have hz : PowerState.zero.freq = FreqStep.idle := rfl
  have hcut : s.cutOff c l = false := by
    unfold State.cutOff
    cases s.domOfLoc l <;> simp [State.cutBetween, State.selvedge, State.linksCut, hpart]
  have hno : (FreqStep.idle == FreqStep.relocking) = false := rfl
  have hns : (FreqStep.idle == FreqStep.stopping) = false := rfl
  have hway : ∀ d i e, s.wayHeld d i e = false := fun d i e => by
    cases e <;> simp [State.wayHeld, State.crossingsStop, hpow, hz, hno, hns]
  simp [State.requestHeld, State.crossingHeld, State.locFrozen, hf, hcut, hway]

/-- A packet in readable memory for a queue number that exists or not; a number above 4095; a domain of 0 to 83. -/
theorem witness_LaunchAndDomainScratch :
    let s := (dataBench ⟨0, .i32⟩).updCtx (fun c => { c with s := vecUpd c.s 5 fun _ => 4096 }) (.thread 0 0)
    s.Ready .thread [sSrc 0, sSrc (0 + 1), sSrc 2] [.s 3] (.thread 0 0) ∧ (withTraps s).TrapsOn 0 0 ∧
    (s.readReg (.thread 0 0) (.s 2)).val.toNat ≤ 4095 ∧
    4095 < (s.readReg (.thread 0 0) (.s 5)).val.toNat ∧ (s.collect 0).releaseReady (.thread 0 0) .waf = true ∧
    (match (s.collect 0).admitted (.thread 0 0) .read dataVa 128 with
      | (some x, u) => decide (u.requestHeld (u.coreOf (.thread 0 0)) x.1 128 = false ∧ u.locPoisoned x.1 128 = false)
      | _ => false) = true ∧
    s.privOf (.thread 0 0) = true ∧ s.dcfgBusy 0 = false ∧ Memory.wf s.mem = true :=
  ⟨ready_thread rfl (by decide +kernel), trapsOn_thread (by decide +kernel), by decide +kernel⟩

/-- The braid of two; program counters whose fetch fails, in each way; a word of each fate. -/
theorem witness_HintsIllegalWordsAndFetch :
    let at_ := fun pc : DWord => (withTraps bench).updCtx (fun c => { c with pc := pc }) (.thread 0 0)
    let z := at_ 0x3000
    (∀ ag ∈ (pairBench 1).issue.agents, (pairBench 1).present ag) ∧ (withTraps bench).TrapsOn 0 0 ∧ z.TrapsOn 0 0 ∧
    (∃ x l e u, z.translate (z.spaceOf (.thread 0 0)) .execute true 0x3000 = (.fault x l e, u)) ∧
    (pairBench 1).issue.agents.Nodup ∧ ((pairBench 1).ctx (.thread 0 0)).pc = ((pairBench 1).ctx (.thread 0 1)).pc ∧ bench.platform.poison = [] ∧
    canonical 0x0200000000000000 = false ∧ canonical 0x3002 = true ∧ 0x3002 % 4 ≠ 0 ∧ canonical 0x3000 = true ∧
    ((0xDF000000 : Word).extractLsb' 24 8).toNat ∈ reservedMajors ∧ 0xF5 ≤ ((0xF5000000 : Word).extractLsb' 24 8).toNat ∧
    (noSubop 0x1D = false ∧ subopsOf 0x1D = (2, 5) ∧ subopOf 0x1D000030 = 6 ∧ subopOf 0x1D000008 = 1) ∧
    (∀ i ∈ [Instr.mzero 0 2 0 1 0, .vmadwI32 1 2 4 0 0, .fenceAcq 7 0, .vaddI32 63 0 1 7], (encode i).isSome = true) ∧
    (Instr.mzero 0 2 0 1 0).reservedOk = false ∧ ((Instr.vmadwI32 1 2 4 0 0).reservedOk && !(Instr.vmadwI32 1 2 4 0 0).groupsOk) = true ∧
    ((Instr.fenceAcq 7 0).reservedOk && (Instr.fenceAcq 7 0).groupsOk && !(Instr.fenceAcq 7 0).scopeOk) = true :=
  ⟨pair_each _ ⟨show _ = true by decide +kernel, show _ = true by decide +kernel⟩, trapsOn_thread (by decide +kernel), trapsOn_thread (by decide +kernel),
    fault_of (by decide +kernel), by decide +kernel⟩

/-- A thread whose DCFG waits for nothing any more. -/
theorem witness_LaunchAndDomainScratch_complete :
    let s := bench.updThread 0 0 fun t => { t with status := .blocked (.dcfg 0 1 2 3) }
    s.waitOf (.thread 0 0) = some (.dcfg 0 1 2 3) ∧ s.dcfgReady 0 1 2 = true ∧ (s.ctx (.thread 0 0)).isPending (.s 3) = false := by
  decide +kernel

theorem witness_MemoryLaws : State.reset.MemOk ∧ Memory.wf bench.mem = true ∧ (leBytes 8 5).length ∈ [1, 2, 4, 8] ∧ 0x16000 % (leBytes 8 5).length = 0 ∧
    ∀ i < 8, State.reset.Writable (State.reset.physKey (0x16000 + i)) := ⟨State.reset_memOk, by decide +kernel⟩

/-- The word's own page, read and executed; a page that no entry maps; the entries of the walk to the word's page. -/
theorem witness_WalksAndTranslation :
    let s := bench
    let sp := s.spaceOf (.thread 0 0)
    let e := fun k : Nat => s.readPhys64 (s.fetchTables + 0x1000 * (4 - k) + (if k = 4 ∨ k = 0 then 8 else 0))
    (∃ l u, s.translate sp .read true fetchVa.toNat = (.leaf l, u)) ∧ (∃ x l p u, s.translate sp .read true 0x3000 = (.fault x l p, u)) ∧
    (∀ addr, s.requestHeld sp.core (.phys addr) 8 = false) ∧
    s.seenStores sp.bid = [] ∧ s.platform.poison = [] ∧ s.rangeDram sp.root 4096 = true ∧
    (∀ k ∈ [4, 3, 2, 1], s.pteFault (e k) k = none ∧ (e k).getLsbD 8 = false) ∧
    s.pteFault (e 0) 0 = none ∧ (e 0).getLsbD 8 = true ∧ pteAllows (e 0) .read true = true ∧ pteAllows (e 0) .write true = false ∧
    s.leafStored sp.ctxid .read (e 0) 0 = true :=
  ⟨leaf_of (by decide +kernel), fault_of (by decide +kernel), fun addr => unheld_idle (by decide +kernel), by decide +kernel⟩

/-- `bench` whose entries for the pages of 4 KiB, 2 MiB and 1 GiB at fetchVa stand at levels 0, 1 and 2. -/
def leafBench (level frame bits : Nat) : State := bench.putEntry (bench.fetchTables + 0x1000 * (4 - level)) (if level = 0 then 1 else 0) frame bits

/-- A leaf of 2 MiB, a replicated one of 4 KiB, one of 1 GiB over a hole; frames that are not aligned to their pages; a leaf at level 3. -/
theorem witness_WalksAndTranslation_levels :
    let sp := bench.spaceOf (.thread 0 0)
    let e := fun (k frame bits : Nat) => (leafBench k frame bits).readPhys64 (bench.fetchTables + 0x1000 * (4 - k) + if k = 0 then 8 else 0)
    let fine := fun (k frame bits : Nat) => (leafBench k frame bits).pteFault (e k frame bits) k = none ∧ pteAllows (e k frame bits) .read sp.priv = true
    (∀ p ∈ [(1, 0x200000, 0x1D9), (0, 0x200000, 0x9D9)], fine p.1 p.2.1 p.2.2 ∧
      (leafBench p.1 p.2.1 p.2.2).leafStored sp.ctxid .read (e p.1 p.2.1 p.2.2) p.1 = true) ∧
    (fine 2 (126 * 2 ^ 45) 0x1D9 ∧ (leafBench 2 (126 * 2 ^ 45) 0x1D9).leafStored sp.ctxid .read (e 2 (126 * 2 ^ 45) 0x1D9) 2 = false) ∧
    (e 0 0x200000 0x9D9).getLsbD 11 = true ∧ (e 1 0x201000 0x1D9).extractLsb' 12 9 ≠ 0 ∧ (e 2 0x40001000 0x1D9).extractLsb' 12 18 ≠ 0 ∧
    (e 3 0 0x1D9).getLsbD 8 = true := by decide +kernel

theorem witness_LoadsAndStoresAccepted :
    let s := dataBench ⟨5, .i32⟩
    (0#6).toNat % 2 = 0 ∧ (60#6).toNat % 4 = 0 ∧ s.issue.agents = [.thread 0 0] ∧
    s.Ready .thread ([vSrc 0 5 .int64, vSrc (0 + 1) 5 .int64] ++ [vSrc 60 3 .any, vSrc (60 + 1) 3 .any, vSrc (60 + 2) 3 .any, vSrc (60 + 3) 3 .any])
      [.v 60, .v (60 + 1), .v (60 + 2), .v (60 + 3)] (.thread 0 0) ∧
    s.Ready .both [sSrc 0, sSrc (0 + 1)] [.s 14, .s (14 + 1)] (.thread 0 0) ∧
    (∀ w ∈ [1, 2, 4, 8, 16], ∀ k ∈ [AccKind.read, .write], ((s.collect 2).admitted (.thread 0 0) k dataVa w).1.isSome = true) :=
  ⟨by decide, by decide, rfl, ready_thread rfl (by decide +kernel), ready_thread rfl (by decide +kernel), by decide +kernel⟩

/-- A non-canonical, a misaligned, an unmapped address. -/
theorem witness_AccessFaults :
    let s := withTraps (dataBench ⟨0, .n64⟩)
    s.TrapsOn 0 0 ∧ s.Ready .thread (addrSrcs 0 ++ vSrcs 60 4 3 .any) (vRegs 60 4) (.thread 0 0) ∧
    canonical 0x0001000000000000 = true ∧ canonical 0x0200000000000000 = false ∧ (dataVa + 1).toNat % 2 ≠ 0 ∧
    (∃ x l e u, (s.collect 2).translate ((s.collect 2).spaceOf (.thread 0 0)) .read true 0x3000 = (.fault x l e, u)) :=
  ⟨trapsOn_thread (by decide +kernel), ready_thread rfl (by decide +kernel), by decide +kernel, by decide +kernel, by decide +kernel,
    fault_of (by decide +kernel)⟩

/-- An outstanding store of the thread. -/
def storeAcc : Access :=
  { id := 7, agent := .thread 0 0, core := 0, loc := .phys (bench.fetchTables + 0x6000), width := 4, work := .store [5, 0, 0, 0],
    va := dataVa.toNat, home := .wafer, ordered := true, seen := none, group := none, cmd := none, via := none, latest := false, again := .no }

/-- After LD.B64 the load is outstanding; an outstanding store. -/
theorem witness_AccessesBindAndPerform :
    let l := after (.ldB64 62 0 0 0) (dataBench ⟨5, .i32⟩)
    let w := { bench with accs := [storeAcc] }
    let c := { bench with accs := [{ storeAcc with loc := .scratch 0 64 }] }
    (∃ p ∈ (l.ctx (.thread 0 0)).pend.head?, ∃ a ∈ l.accs.head?, p.regs = [.v 62, .v 63] ∧ p.work = .access [(a.id, none)] (.words .raw) ∧
      (l.thread? 0 0).isSome = true ∧ a.agent = .thread 0 0 ∧ a.work = .load ∧ a.group = none ∧ a.again = .no ∧ a.width = 8 ∧ a.ordered = true ∧
      a.home = .wafer ∧ a.loc.isWindow = false ∧ l.mayPerform a = true ∧ l.locPoisoned a.loc a.width = false ∧
      l.mmioAt a.loc = none ∧ l.seenStores 0 = [] ∧ (∀ x ∈ l.accs, l.mayShow 0 x = false) ∧ (l.readLoc a.loc a.width).length = 8) ∧
    (∃ a ∈ w.accs.head?, a.work = .store [5, 0, 0, 0] ∧ w.seenStores (w.bidOf a.agent) = [] ∧ w.mayPerform a = true ∧ a.home = .wafer ∧
      w.mmioAt a.loc = none ∧ a.loc = .phys (bench.fetchTables + 0x6000) ∧ (bench.fetchTables + 0x6000) / 2 ^ 52 ≠ 1023 ∧
      (bench.fetchTables + 0x6000) % 4 = 0 ∧ ∀ i < 4, w.Writable (w.physKey (bench.fetchTables + 0x6000 + i))) ∧
    (∃ a ∈ c.accs.head?, a.loc = .scratch 0 64 ∧ c.mayPerform a = true) := by decide +kernel

/-- The names of the unit of `bench`: 0, of the core it is on; 300, its name before a restore; 301, under restore. -/
def someNames : List StreetEntry :=
  [(0, 1), (300, 1), (301, 2)].map fun x => { unit := 0, name := x.1, cur := 0, state := x.2, image := 0, rank := 0, slot := 0 }

/-- A window of 64 bytes; a quarter of one. -/
def scrBench (x : VReg) : State :=
  { (withTraps (benchV x)).updBlock 0 (fun b => { b with regs := { b.regs with scratchSize := 64, qsize := 1 } }) with street := someNames }

/-- `dataBench` with its data page at the physical address `pa`. -/
def pageAt (pa : Nat) (x : VReg) : State :=
  let s := { dataBench x with windows := [(0, { rva := 0x2000, rkey := 2, qpn := 1, size := 1, wr := true, rd := true, valid := true })] }
  withTraps (s.putEntry (s.fetchTables + 0x4000) 2 pa 0x1D9)

/-- The page in MMIO, in a host window, in a hole; an ATOM's scratch address, misaligned, past the window, of each kind of name. -/
theorem witness_AccessFaults_places :
    let m := pageAt (127 * 2 ^ 45 + 2 ^ 37) ⟨0, .i32⟩
    let w := pageAt (1023 * 2 ^ 52) ⟨0, .i32⟩
    let h := pageAt (126 * 2 ^ 45) ⟨0, .i32⟩
    let at_ := fun (s : State) (k : AccKind) => (s.collect 3).translate ((s.collect 3).spaceOf (.thread 0 0)) k true dataVa.toNat
    let s := scrBench ⟨0, .i32⟩
    let u := (s.collect 3).usedName (((s.collect 3).block? 0).getD s.fetchBlock) 0
    m.TrapsOn 0 0 ∧ w.TrapsOn 0 0 ∧ h.TrapsOn 0 0 ∧ m.Ready .both [sSrc 0, sSrc 1] [.s 2, .s 3] (.thread 0 0) ∧
    m.Ready .thread (addrSrcs 0 ++ vSrcs 60 1 1 .int32) (vRegs 60 2) (.thread 0 0) ∧ (m.ctx (.thread 0 0)).slots < 8 ∧
    (match at_ m .both with
      | (.leaf e, u) => (u.homeOf 0 (e.loc 0 dataVa.toNat)).isMmio
      | _ => false) = true ∧
    (match at_ w .both with
      | (.leaf e, _) => (e.loc 0 dataVa.toNat).isWindow
      | _ => false) = true ∧
    (match at_ h .read with
      | (.hole _, _) => true
      | _ => false) = true ∧
    (∃ b ∈ (s.collect 3).block? 0, (s.collect 3).resolve b 0 = .found b ∧ (s.collect 3).resolve b 1 = .invalid ∧ u.block? b.bid = some b ∧
      64 < 61 + 4 ∧ 60 + 4 ≤ b.regs.scratchSize.toNat ∧ b.regionAt 60 = none) :=
  ⟨trapsOn_thread (by decide +kernel), trapsOn_thread (by decide +kernel), trapsOn_thread (by decide +kernel), ready_thread rfl (by decide +kernel),
    ready_thread rfl (by decide +kernel), by decide +kernel⟩

/-- Offsets 56 (the last doubleword of the window), 60, 61, 64 and, by a negative offset field, below 0; names 0 and 1. -/
theorem witness_ScratchpadAccess :
    let s := scrBench ⟨56, .n32⟩
    let r := { s with wafer := { s.wafer with retired := [0] } }
    s.Ready .thread [vSrc 0 0 .int32, vSrc 62 3 .any, vSrc (62 + 1) 3 .any] [.v 62, .v (62 + 1)] (.thread 0 0) ∧ s.TrapsOn 0 0 ∧
    s.issue.agents = [.thread 0 0] ∧ 56 % 8 = 0 ∧ 56 + 8 ≤ 64 ∧ 61 % 4 ≠ 0 ∧ 64 < 60 + 8 ∧ (56 : Int) + (-8) * 8 < 0 ∧
    (∃ b ∈ s.block? 0, b.regionAt 56 = none ∧ s.phaserBit b.core (b.scr 56 / 32) = false ∧ b.regs.qsize ≠ 0 ∧
      s.resolve b 0 = .found b ∧ s.resolve b 300 = .found b ∧ s.resolve b 301 = .held ∧ s.resolve b 1 = .invalid ∧ r.resolve b 0 = .retired b) ∧
    (let p := s.updCore 0 fun c => { c with phasers := [1] }
     ∃ b ∈ p.block? 0, p.phaserBit b.core (b.scr 56 / 32) = true) :=
  ⟨ready_thread rfl (by decide +kernel), trapsOn_thread (by decide +kernel), by decide +kernel⟩

/-- An XINV that has not been performed at core 0, and one that has been and is settled. -/
def anXinv (done : List (Nat × Nat)) : Xinv := { id := 5, agent := .thread 0 0, form := .all, scope := .blk, done := done }

/-- A held leaf of the data page that lacks D. -/
def aLeaf : TlbEntry :=
  { asid := some 0, level := 0, vpn := dataVa.toNat / 4096, entry := BitVec.ofNat 64 (bench.fetchTables + 0x6000 + 0x159), leaf := true,
    addr := bench.fetchTables + 0x4010 }

theorem witness_TranslationMaintenance :
    let s := dataBench ⟨0, .i32⟩
    let big := s.updCtx (fun c => { c with s := Vector.replicate 16 0x10000 }) (.thread 0 0)
    let x := { s.updCore 0 fun c => { c with tlb := [aLeaf] } with xinvs := [anXinv []] }
    let w := { s with accs := [{ storeAcc with again := .faulted }], nextId := 9 }
    s.Ready .thread [sSrc 0, sSrc (0 + 1), sSrc 14, sSrc (14 + 1)] [] (.thread 0 0) ∧ (withTraps big).TrapsOn 0 0 ∧
    s.issue.agents = [.thread 0 0] ∧ s.privOf (.thread 0 0) = true ∧ (s.readReg (.thread 0 0) (.s 14)).val.toNat < 65536 ∧
    1 ≤ (s.readReg (.thread 0 0) (.s (0 + 1))).val.toNat ∧ (s.readReg (.thread 0 0) (.s (0 + 1))).val.toNat ≤ 2 ^ 20 ∧
    65536 ≤ (big.readReg (.thread 0 0) (.s 14)).val.toNat ∧ s.accs = [] ∧ s.xsyncReady (.thread 0 0) = true ∧
    (s.collect 0).releaseFree (.thread 0 0) .sys = true ∧ (w.collect 0).releaseFree (.thread 0 0) .sys = false ∧
    inScope .blk (x.coreOf (.thread 0 0)) 0 = true ∧ (0 : Nat) ∉ (anXinv []).done.map (·.1) ∧
    x.wayHeld 0 5 (some 0) = false ∧ { x with powers := [(0, { PowerState.zero with freq := .relocking })] }.wayHeld 1 5 (some 0) = true ∧
    inScope .blk (x.coreOf (.thread 0 0)) 1 = false ∧ x.xsyncReady (.thread 0 0) = false :=
  ⟨ready_thread rfl (by decide +kernel), trapsOn_thread (by decide +kernel), by decide +kernel⟩

/-- XPROBE of a mapped and of an unmapped page; XSYNC_COMPLETE of a waiting thread; a held leaf that lacks D. -/
theorem witness_TranslationMaintenance_probe :
    let s := dataBench ⟨0, .i32⟩
    let w := bench.updThread 0 0 fun t => { t with status := .blocked .xsync }
    let l := aLeaf
    let h := bench.updCore 0 fun c => { c with tlb := [l] }
    (∃ e u, (s.collect 0).lookup ((s.collect 0).spaceOf (.thread 0 0)) .write false dataVa.toNat = (.leaf e, u)) ∧
    (∃ x v e u, (s.collect 0).lookup ((s.collect 0).spaceOf (.thread 0 0)) .read false 0x3000 = (.fault x v e, u)) ∧
    canonical dataVa.toNat = true ∧ canonical 0x0200000000000000 = false ∧ s.platform.poison = [] ∧
    (w.waitOf (.thread 0 0) = some .xsync ∧ w.xsyncReady (.thread 0 0) = true ∧ w.accs = []) ∧
    (h.core 0).tlb.find? (fun e => e.leaf && e.covers (h.spaceOf (.thread 0 0)).asid dataVa.toNat &&
      pteAllows e.entry .write (h.spaceOf (.thread 0 0)).priv && needsAD e.entry .write) = some l ∧ l.addr % 8 = 0 ∧
    h.requestHeld (h.spaceOf (.thread 0 0)).core (.phys l.addr) 8 = false ∧ ∀ i < 8, h.Writable (h.physKey (l.addr + i)) :=
  ⟨leaf_of (by decide +kernel), fault_of (by decide +kernel), by decide +kernel⟩

/-- A fault of thread 0 at its word. -/
def aFault : FsqEntry :=
  { cause := 0x18, va := 0x3000, asid := 0, xkind := 0, access := 2, park := true, agent := .thread 0 0, core := 0, block := 0, info := 4, word := 0 }

/-- A waiting entry with room and with a full ring; an open entry of a parked thread. -/
theorem witness_FaultServiceQueue :
    let s := (withTraps bench).updDom 0 fun d => { d with fsqWait := [aFault] }
    let f := s.updDom 0 fun d => { d with fsqTail := 4095 }
    let o := ((withTraps bench).updThread 0 0 fun t => { t with status := .parked }).updDom 0 fun d => { d with fsqOpen := [⟨3, 0, aFault, false⟩] }
    o.TrapsOn 0 0 ∧ (s.dom 0).fsqWait[0]? = some aFault ∧ ((s.dom 0).fsqTail + 1) % 4096 ≠ (s.dom 0).fsqHead ∧ (s.dom 0).fsqBase.toNat % 2 ^ 17 = 0 ∧
    (∀ i < 32, s.Writable (s.physKey ((s.dom 0).fsqBase.toNat + 32 * (s.dom 0).fsqTail + i))) ∧
    ((f.dom 0).fsqTail + 1) % 4096 = (f.dom 0).fsqHead ∧ s.platform.poison = [] ∧ Memory.wf s.mem = true ∧
    (o.dom 0).fsqOpen.find? (fun x => x.seq == 3 && !x.withdrawn) = some ⟨3, 0, aFault, false⟩ ∧
    (o.thread? 0 0).map (·.status) = some .parked ∧ (o.block? 0).map (·.halted) = some false :=
  ⟨trapsOn_thread (by decide +kernel), by decide +kernel⟩

/-- Open entries of a thread in its handler, of a bobbin, of a copy and a matrix queue, and of a region's line. -/
theorem witness_FaultServiceQueue_agents :
    let open_ := fun (a : FaultAgent) (s : State) => s.updDom 0 fun d => { d with fsqOpen := [⟨3, 0, { aFault with agent := a }, false⟩] }
    let parked := { Command.blank .cpyL with id := 9, parked := true }
    let dead := open_ (.thread 0 0) ((asUser bench).updThread 0 0 fun t => { t with status := .parked })
    let b := open_ (.bobbin 0 0) (bobBench.updBobbin 0 0 fun x => { x with parked := true })
    let q := fun m : Bool => open_ (if m then .matrixQueue 0 0 else .copyQueue 0 0) (bobBench.updBobbin 0 0 fun x => { x with
      copyQ := if m then [] else [parked], matrixQ := if m then [parked] else [] })
    let r := open_ (.region 0 0 31) (bench.updBlock 0 fun x => { x with regions := vecUpd x.regions 0 fun g => { g with
      valid := true, lines := [{ idx := 31, mask := 1, faulted := true }] } })
    (∃ x ∈ dead.thread? 0 0, ∃ k ∈ dead.block? 0, x.status = .parked ∧ k.halted = false ∧ inhOf x.ctx.tstate = false ∧ k.regs.tvec.getLsbD 0 = false) ∧
    dead.platform.streetLog = 0 ∧ ((b.bobbin 0 0).parked = true ∧ b.accs = []) ∧
    (∀ m ∈ [false, true], ((q m).bobbin 0 0).queue m = [] ++ parked :: [] ∧ ((q m).bobbin 0 0).status = .running ∧ parked.phs = [] ∧
      ((q m).dom 0).fsqOpen.find? (fun x => x.seq == 3 && !x.withdrawn) = some ⟨3, 0, { aFault with agent := if m then .matrixQueue 0 0 else .copyQueue 0 0 }, false⟩) ∧
    (∃ k ∈ r.block? 0, (k.region 0).isSome = true) ∧ bench.dom 0 = { bench.dom 0 with fsqOpen := [], fsqWait := [] } ∧ 2 ≤ 7 % 4 := by decide +kernel

theorem witness_AcquireReleaseFence :
    let s := dataBench ⟨5, .i32⟩
    let w := { s with accs := [{ storeAcc with again := .faulted }, { storeAcc with id := 8, work := .load, again := .faulted }], nextId := 9 }
    s.Ready .thread ([vSrc 0 5 .int64, vSrc (0 + 1) 5 .int64] ++ [vSrc 63 3 .any]) [.v 63] (.thread 0 0) ∧ (withTraps s).TrapsOn 0 0 ∧
    s.issue.agents = [.thread 0 0] ∧ (s.accs.map (·.id)).Nodup ∧ ((s.collect 3).admitted (.thread 0 0) .write dataVa 4).1.isSome = true ∧
    (let r := (s.collect 2).admitted (.thread 0 0) .read dataVa 4
     ∃ x ∈ r.1, x.2.1 = .wafer ∧ r.2.requestHeld (r.2.coreOf (.thread 0 0)) x.1 4 = false ∧ r.2.locPoisoned x.1 4 = false ∧
       r.2.outstanding (.thread 0 0) = [] ∧ r.2.seenStores (r.2.bidOf (.thread 0 0)) = [] ∧ x.1.isWindow = false ∧ r.2.accs = [] ∧
       (s.ctx (.thread 0 0)).pend = [] ∧ r.2.mmioAt x.1 = none) ∧
    (∀ e ∈ [(0#3), 1, 2, 3, 4], (scopeOf e).isSome = true ∧ ∀ sc ∈ scopeOf e, (s.collect 3).releaseReady (.thread 0 0) sc = true ∧
      (s.collect 0).forceable (acquires (.thread 0 0) sc) = true) ∧
    (w.collect 0).releaseReady (.thread 0 0) .waf = false ∧ (w.collect 0).forceable (acquires (.thread 0 0) .waf) = false ∧ 4 < (5#3).toNat :=
  ⟨ready_thread rfl (by decide +kernel), trapsOn_thread (by decide +kernel), by decide +kernel⟩

theorem witness_CacheOperations :
    let s := dataBench ⟨5, .i32⟩
    s.Ready .thread [vSrc 0 5 .int64, vSrc (0 + 1) 5 .int64] [] (.thread 0 0) ∧ s.platform.poison = [] ∧ s.seenStores 0 = [] ∧
    (match ((s.collect 2).lineFor (.thread 0 0) dataVa).1 with
      | .line .. => true
      | _ => false) = true :=
  ⟨ready_thread rfl (by decide +kernel), by decide +kernel⟩

/-- ATOM in global and in scratch form; eight slots held; an outstanding addition that the kiosk may perform. -/
theorem witness_AtomicsAndKiosk :
    let s := dataBench ⟨5, .i64⟩
    let c := (scrBench ⟨0, .i32⟩).updThread 0 0 fun t => { t with v := vecUpd (vecUpd t.v 0 fun _ => ⟨56, .n64⟩) 1 fun _ => ⟨0x80000000, .n64⟩ }
    let full := s.updCtx (fun c => { c with pend := List.replicate 8 ⟨1, [.v 9], .access [(1, none)] (.slot .i32), 0, none⟩ }) (.thread 0 0)
    let k := { bench.updCtx (fun c => { c with pend := [⟨1, [.v 9], .access [(7, none)] (.slot .i32), 0, none⟩] }) (.thread 0 0) with
      accs := [{ storeAcc with work := .atomic .addI32 5 0 }] }
    s.Ready .thread ([vSrc 0 5 .int64, vSrc (0 + 1) 5 .int64] ++ [vSrc 60 1 .any, vSrc (60 + 1) 1 .any, vSrc (60 + 2) 1 .any, vSrc (60 + 3) 1 .any])
      [.v 62, .v (62 + 1)] (.thread 0 0) ∧ (∃ a ∈ k.access? 7, k.present a.agent) ∧ (s.ctx (.thread 0 0)).slots < 8 ∧ 8 ≤ (full.ctx (.thread 0 0)).slots ∧
    ((s.collect 3).admitAtomic (.thread 0 0) dataVa 4).1.isSome = true ∧
    ((c.collect 3).admitAtomic (.thread 0 0) ((c.readReg (.thread 0 0) (.v 1)).val ++ (c.readReg (.thread 0 0) (.v 0)).val) 8).1.isSome = true ∧
    Memory.wf k.mem = true ∧ (∃ a ∈ k.access? 7, a.work = .atomic .addI32 5 0 ∧ k.mayPerform a = true ∧ a.width ∈ [4, 8] ∧
      k.locPoisoned a.loc a.width = false ∧ k.seenStores (k.bidOf a.agent) = [] ∧ a.again = .no ∧ k.mmioAt a.loc = none) ∧
    ∀ i < 4, k.Writable (k.physKey (bench.fetchTables + 0x6000 + i)) :=
  ⟨ready_thread rfl (by decide +kernel), ⟨_, rfl, show _ = true by decide +kernel⟩, by decide +kernel⟩

/-- A message. -/
def aMessage : Message := { src := 0, tag := 5, payload := 9 }

/-- The own mailbox, with room and, holding 64, without; an append due, with one thread that waits for the message held. -/
theorem witness_MessagesSentAndSignalled :
    let s := { benchV ⟨0, .i32⟩ with street := someNames }
    let r := { s with wafer := { s.wafer with retired := [0] } }
    let full := (withTraps s).updBlock 0 fun b => { b with mail := { b.mail with held := List.replicate 64 aMessage } }
    let w := (bench.updBlock 0 fun b => { b with mail := { b.mail with held := [aMessage], due := 1 } }).updThread 0 0 fun t =>
      { t with status := .blocked (.mrecv 5 0xFFFFFFFF 60) }
    s.Ready .thread [vSrc 0 0 .int32, vSrc 1 1 .any, vSrc 62 3 .any, vSrc (62 + 1) 3 .any] [] (.thread 0 0) ∧ full.TrapsOn 0 0 ∧
    (∃ b ∈ s.block? 0, (s.readReg (.thread 0 0) (.v 0)).val.toNat = b.core ∧ s.retired b.core = false ∧
      s.resolve b 0 = .found b ∧ s.resolve b 301 = .held ∧ s.resolve b 1 = .invalid ∧ r.resolve b 0 = .retired b ∧
      b.mail.held.length + b.mail.ring.length < 64 + (b.regs.mbox.extractLsb' 20 12).toNat) ∧
    (s.collect 4).releaseReady (.thread 0 0) .clu = true ∧
    (∃ b ∈ full.block? 0, 64 + (b.regs.mbox.extractLsb' 20 12).toNat ≤ b.mail.held.length + b.mail.ring.length) ∧
    (∃ b ∈ w.block? 0, b.halted = false ∧ 0 < b.mail.due ∧ b.mail.ring = [] ∧ b.mail.held[0]? = some aMessage) ∧
    w.waitOf (.thread 0 0) = some (.mrecv 5 0xFFFFFFFF 60) ∧ (aMessage.tag ^^^ 5) &&& 0xFFFFFFFF = 0 ∧
    (∃ b ∈ bench.block? 0, b.mail.due = 0) :=
  ⟨ready_thread rfl (by decide +kernel), trapsOn_thread (by decide +kernel), by decide +kernel⟩

theorem witness_MessagesReceived :
    let s := (benchV ⟨5, .i32⟩).updBlock 0 fun b => { b with mail := { b.mail with held := [aMessage] } }
    let e := (benchV ⟨5, .i32⟩).collect 2
    s.Ready .thread [vSrc 0 0 .any, vSrc 1 1 .any] ((vGroup 60 4).map .v) (.thread 0 0) ∧ (60#6).toNat % 4 = 0 ∧
    (∃ b ∈ s.block? 0, ((s.collect 2).messages b).1 = [aMessage]) ∧
    (aMessage.tag ^^^ (s.readReg (.thread 0 0) (.v 0)).val) &&& (s.readReg (.thread 0 0) (.v 1)).val = 0 ∧
    (∃ b ∈ e.block? 0, (e.messages b).1 = []) :=
  ⟨ready_thread rfl (by decide +kernel), by decide +kernel⟩

/-! ## Phasers, bobbins and regions -/

/-- `scrBench` with a phaser `p` at its offset 0; references (0 good, 8 misaligned, 64 past the window, 0x100000 reserved bits) and
tokens (0 current, 5 ahead, 1 early, 0x7FFFFF behind, 0x800000 a waiter, 0x01000000 of generation 1) stand in s-registers. -/
def phBench (p : Phaser) : State :=
  let s := ((scrBench ⟨0, .i32⟩).updCore 0 fun c => { c with phasers := [0] }).setPhaser 0 0 p
  s.updCtx (fun c => { c with s := #v[0, 8, 64, 0x100000, 5, 1, 0x7FFFFF, 0x800000, 0x01000000, 32, 0x10000, 1, 0, 0, 0, 0] }) (.thread 0 0)

/-- One signaller and one waiter, nothing arrived. -/
def onePhaser : Phaser := ⟨0, 0, 0, 0, 1, 0, 1, 0, 0, 0⟩

/-- phaserRef answers a place and the state `u`. -/
def refHolds (s u : State) (ag : Agent) (ref : Word) (opts : Option Word) (need : Bool) : Bool :=
  match s.phaserRef ag ref opts need with
  | (some (b, abs), t) => decide (b.bid = 0 ∧ abs = 0 ∧ t = u)
  | _ => false

theorem witness_PhaserReferenceAndRegistration :
    let s := phBench onePhaser
    let r := { s with wafer := { s.wafer with retired := [0] } }
    let high := fun k : BitVec 4 => (s.readReg (.thread 0 0) (.s k)).val.extractLsb' 20 12
    let low := fun k : BitVec 4 => ((s.readReg (.thread 0 0) (.s k)).val.extractLsb' 0 20).toNat
    s.TrapsOn 0 0 ∧ s.Ready .both ([sSrc 0] ++ [sSrc 12] ++ [sSrc 15]) [] (.thread 0 0) ∧ s.Ready .both [sSrc 0, sSrc 12] [.s 14] (.thread 0 0) ∧
    (low 0 % 32 = 0 ∧ low 12 % 32 = 0 ∧ low 1 % 32 ≠ 0 ∧ high 0 = 0 ∧ high 3 ≠ 0 ∧ (s.readReg (.thread 0 0) (.s 10)).val.extractLsb' 16 16 ≠ 0) ∧
    (∃ b ∈ s.block? 0, b.regs.qsize ≠ 0 ∧ s.resolve b 1 = .invalid ∧ s.resolve b 301 = .held ∧ s.resolve b 0 = .found b ∧ r.resolve b 0 = .retired b ∧
      b.regs.scratchSize.toNat < low 2 + 32 ∧ 0 + 32 ≤ b.regs.scratchSize.toNat ∧
      s.phaserBit b.core (b.scr 0 / 32) = true ∧ s.phaserBit b.core (b.scr 32 / 32) = false ∧ b.regionAt 0 = none ∧ b.signals = [] ∧
      refHolds s (s.usedName b 0) (.thread 0 0) 0 (some 0) true = true) ∧
    refHolds s s (.thread 0 0) 0 none true = true ∧ refHolds s s (.thread 0 0) 0 none false = true ∧
    (s.phaser 0 0).nsig < 2 ^ 18 - 1 ∧ ((phBench { onePhaser with nsig := 2 ^ 18 - 1 }).phaser 0 0).nsig = 2 ^ 18 - 1 ∧
    ((phBench { onePhaser with nout := 1 }).phaser 0 0).nout ≠ 0 ∧ (s.phaser 0 0).nout = 0 ∧ s.accs = [] ∧ (s.blockOf (.thread 0 0)).isSome = true :=
  ⟨trapsOn_thread (by decide +kernel), ready_thread rfl (by decide +kernel), ready_thread rfl (by decide +kernel), by decide +kernel⟩

/-- The tokens: current, early, ahead, behind, a waiter, of another generation. -/
theorem witness_PhaserArrivalAndWait :
    let s := phBench onePhaser
    let tok := fun r : BitVec 4 => (s.readReg (.thread 0 0) (.s r)).val
    let dist := fun r : BitVec 4 => ((tok r).extractLsb' 0 23 - BitVec.ofNat 23 (s.phaser 0 0).phase).toNat
    s.Ready .both (sSrc 0 :: [sSrc 12] ++ [sSrc 7]) [.s 7] (.thread 0 0) ∧ s.TrapsOn 0 0 ∧ refHolds s s (.thread 0 0) 0 none true = true ∧ s.accs = [] ∧
    ((tok 12).extractLsb' 24 8).toNat = (s.phaser 0 0).gen ∧ dist 12 = 0 ∧ (tok 12).getLsbD 23 = false ∧
    (1 ≤ dist 4 ∧ dist 4 < 2 ^ 22) ∧ (tok 5).extractLsb' 0 23 = BitVec.ofNat 23 ((s.phaser 0 0).phase + 1) ∧ 2 ^ 22 ≤ dist 6 ∧
    (tok 7).getLsbD 23 = true ∧ ((tok 8).extractLsb' 24 8).toNat ≠ (s.phaser 0 0).gen ∧
    (s.collect 0).releaseReady (.thread 0 0) .blk = true ∧ (s.collect 0).releaseReady (.thread 0 0) .clu = true ∧ (s.phaser 0 0).nsig ≠ 0 ∧
    ((phBench { onePhaser with nsig := 0 }).phaser 0 0).nsig = 0 :=
  ⟨ready_thread rfl (by decide +kernel), trapsOn_thread (by decide +kernel), by decide +kernel⟩

/-- A thread blocked with a token ahead, with one no longer ahead, at a phaser of another generation. -/
theorem witness_PhaserWakesAndPriorities :
    let w := fun (tok : Word) (k : Wake) => (phBench onePhaser).updThread 0 0 fun t => { t with status := .blocked (.phwait 0 0 tok 3 false 0 k) }
    let ready := { onePhaser with narr := 1 }
    (w 5 .stale).TrapsOn 0 0 ∧ (∀ k ∈ [Wake.waiting, .woken 0x800002, .stale], (w 5 k).waitOf (.thread 0 0) = some (.phwait 0 0 5 3 false 0 k)) ∧
    ((w 5 .waiting).blocks.map (·.bid)).Nodup ∧ onePhaser.phase < 2 ^ 32 ∧
    ¬((0 < onePhaser.nsig ∨ 0 < onePhaser.expb) ∧ onePhaser.narr = onePhaser.nsig ∧ onePhaser.expb ≤ onePhaser.land) ∧
    (0 < ready.nsig ∧ ready.narr = ready.nsig ∧ ready.expb ≤ ready.land) ∧
    ((5 : Word).extractLsb' 0 23 - BitVec.ofNat 23 (ready.phase + 1)).toNat = 4 ∧ ((1 : Word).extractLsb' 0 23 - BitVec.ofNat 23 (ready.phase + 1)).toNat = 0 ∧
    (((phBench onePhaser).blocksOn 0).all fun b => ((phBench onePhaser).waitsOf b).isEmpty) = true :=
  ⟨trapsOn_thread (by decide +kernel), by decide +kernel⟩

/-- A woken thread of another block than the phaser's. -/
theorem witness_PhaserWakesAndPriorities_across :
    let w := bench.updThread 0 0 fun t => { t with status := .blocked (.phwait 0 0 0 3 false 0 (.woken 0)) }
    let s := { phBench onePhaser with blocks := (phBench onePhaser).blocks ++ w.blocks.map fun (b : Block) => { b with bid := 1, unit := 1 } }
    s.waitOf (.thread 1 0) = some (.phwait 0 0 0 3 false 0 (.woken 0)) ∧ (s.phaserBlock 0 0).map (·.bid) = some 0 ∧ s.accs = [] := by decide +kernel

/-- `bench` with bobbin 0 of its core given. -/
def withBobbin (f : Bobbin → Bobbin) : State := (withTraps bench).updCore 0 fun c => { c with bobbins := vecUpd c.bobbins 0 fun b => f { b with bid := 0 } }

theorem witness_BobbinLife :
    let e := withBobbin fun b => { b with status := .ended }
    let t := withBobbin fun b => { b with status := .ended, cause := 1 }
    let r := withBobbin fun b => { b with status := .running }
    let f := withBobbin fun b => { b with status := .finishing }
    let j := f.updThread 0 0 fun t => { t with status := .blocked (.rdzv 0 3 0) }
    let full := bench.updCore 0 fun c => { c with bobbins := c.bobbins.map fun b => { b with status := .running, bid := 0 } }
    bench.Ready .thread (sSrcs 0 16) [.s 15] (.thread 0 0) ∧ (bench.collect 0).releaseReady (.thread 0 0) .blk = true ∧
    ((((bench.collect 0).drainRelease (.thread 0 0) .blk).thread? 0 0).isSome = true ∧
      (((bench.collect 0).drainRelease (.thread 0 0) .blk).bobbin 0 0).status = .free ∧
      (((bench.collect 0).drainRelease (.thread 0 0) .blk).block? 0).map (·.bid) = some 0) ∧
    (∀ b < 4, (((full.collect 0).drainRelease (.thread 0 0) .blk).bobbin 0 b).status ≠ .free) ∧
    (e.Ready .thread [sSrc 0] [.s 1] (.thread 0 0) ∧ (e.bobbin 0 0).status = .ended ∧ (e.bobbin 0 0).cause = 0 ∧ (e.bobbin 0 0).bid = 0 ∧
      (e.bobbin 0 0).joined = false ∧ (e.readReg (.thread 0 0) (.s 0)).val.toNat = 0) ∧
    ((t.bobbin 0 0).cause ≠ 0 ∧ t.TrapsOn 0 0) ∧ ((r.bobbin 0 0).status ≠ .ended ∧ (r.bobbin 0 0).status ≠ .free) ∧
    bobBench.issue.agents = [.bobbin 0 0] ∧
    ((f.bobbin 0 0).status = .finishing ∧ (f.bobbin 0 0).copyQ = [] ∧ (f.bobbin 0 0).matrixQ = [] ∧ f.accs = [] ∧ (f.bobbin 0 0).ctx.pend = [] ∧
      (∃ b ∈ f.block? 0, b.core = 0 ∧ ∃ u ∈ b.threads, u.status ≠ .exited) ∧ f.waitOf (.thread 0 0) = none) ∧
    j.waitOf (.thread 0 0) = some (.rdzv 0 3 0) :=
  ⟨ready_thread rfl (by decide +kernel), by decide +kernel, by decide +kernel, by decide +kernel,
    ⟨ready_thread rfl (by decide +kernel), by decide +kernel⟩,
    ⟨by decide +kernel, trapsOn_thread (by decide +kernel)⟩, by decide +kernel, rfl, by decide +kernel⟩

/-- `dataBench` with a window of two pages and region 0, when valid, over page 0. -/
def regBench (g : Region) : State :=
  (withTraps (dataBench ⟨0, .i32⟩)).updBlock 0 fun b => { b with
    regs := { b.regs with scratchSize := 8192 }, regions := vecUpd b.regions 0 fun _ => g }

def noRegion : Region := { valid := false, base := 0, page := 0, pages := 0, wr := false, lines := [], lost := false, wants := [], hostSeen := [] }

def dataRegion (lines : List RegionLine) : Region := { noRegion with valid := true, base := dataVa, pages := 1, wr := true, lines := lines, wants := [31] }

/-- LDS and STS in a region: line 0 is filled. -/
theorem witness_ScratchpadAccess_region :
    let s := regBench (dataRegion [{ idx := 0, mask := 0, faulted := false }])
    s.Ready .thread [vSrc 4 0 .int32, vSrc 62 3 .any, vSrc (62 + 1) 3 .any] [.v 62, .v (62 + 1)] (.thread 0 0) ∧ s.accs = [] ∧
    (∃ b ∈ s.block? 0, b.regionAt 56 = some (0, 0) ∧ ∃ g ∈ b.region 0, (g.line? 0).isSome = true ∧ 56 % 8 = 0 ∧ 56 + 8 ≤ b.regs.scratchSize.toNat ∧
      s.phaserBit b.core (b.scr 56 / 32) = false) ∧ (s.readReg (.thread 0 0) (.v 4)).val = 0 ∧ (s.ctx (.thread 0 0)).pend = [] :=
  ⟨ready_thread rfl (by decide +kernel), by decide +kernel⟩

/-- MAP of the data page at page 0 meets every condition; one condition after the other fails; a clean, a dirty, an absent line. -/
theorem witness_RegionsMapped :
    let s := regBench noRegion
    let m := regBench (dataRegion [])
    let d := regBench (dataRegion [{ idx := 31, mask := 1, faulted := false }])
    let at31 := fun (s : State) (acc : AccKind) => s.translate (((s.block? 0).getD s.fetchBlock).space true) acc true (dataVa + BitVec.ofNat 64 (128 * 31)).toNat
    let free := fun (r : XRes × State) => match r with
      | (.leaf e, u) =>
        let l := e.loc 0 (dataVa + BitVec.ofNat 64 (128 * 31)).toNat
        (!(u.homeOf 0 l).isMmio) && (!l.isWindow) && (!u.requestHeld 0 l 128) && (!u.locPoisoned l 128) &&
          match l with
          | .phys pa => pa % 128 == 0 && ((List.range 128).all fun i => decide (u.Writable (u.physKey (pa + i)))) && u.accs.isEmpty
          | _ => false
      | _ => false
    s.Ready .thread [sSrc 0, sSrc (0 + 1), sSrc 2] [] (.thread 0 0) ∧ s.accs = [] ∧
    (((s.readReg (.thread 0 0) (.s (0 + 1))).val ++ (s.readReg (.thread 0 0) (.s 0)).val) = dataVa ∧
      canonical dataVa.toNat = true ∧ dataVa.extractLsb' 0 12 = 0 ∧ (s.readReg (.thread 0 0) (.s 2)).val = 0 ∧ (s.core 0).phasers = []) ∧
    (∃ b ∈ s.block? 0, (∀ x ∈ b.regions.toList, x.valid = false) ∧ (0 + 1) * 4096 ≤ b.regs.scratchSize.toNat) ∧
    (∃ b ∈ m.block? 0, b.regions.toList[0]? = some (dataRegion []) ∧ b.regs.ctxid = 0) ∧ free (at31 m .read) = true ∧
    (∃ b ∈ d.block? 0, ∃ g ∈ b.regions.toList[0]?, 31 < 32 * g.pages ∧ (∃ l ∈ g.lines.find? (fun l => l.idx == 31), l.mask ≠ 0 ∧ l.faulted = false) ∧
      ∃ x ∈ b.threads, x.status ≠ .exited) ∧
    free (at31 d .write) = true :=
  ⟨ready_thread rfl (by decide +kernel), by decide +kernel⟩

/-! ## Engine commands -/

/-- An I32 tensor of 32 × 32 elements at offset 4096 of the own window; a PLANE of 128 × 32 there (R84). -/
def intTensor : Nat := 2 ^ 415 + 2 * 2 ^ 410 + 2 ^ 408 + 4096 * 2 ^ 320 + 128 * 2 ^ 288 + 2 ^ 256 + 32 * 2 ^ 224 + 32 * 2 ^ 192 + 4096
def planeTensor : Nat := 2 ^ 415 + 18 * 2 ^ 410 + 2 ^ 408 + 4096 * 2 ^ 320 + 16 * 2 ^ 288 + 2 ^ 256 + 32 * 2 ^ 224 + 128 * 2 ^ 192 + 4096

/-- Bobbin 0 of a block with a window of 8192 bytes, three tiles, and a tensor table over two pages, whose walks share no
entry but the root, that holds `x` at handles 0 and 64; `words` are its s-registers. -/
def engBench (x : Nat) (words : Vector Word 16) : State :=
  let a := bobBench.fetchTables
  let s := bobBench.putEntry (a + 0x4000) 2 (a + 0x6000) 0x1D9
  let s := [(0x1000, 511, 0xA000, 1), (0xA000, 511, 0xB000, 1), (0xB000, 511, 0xC000, 1), (0xC000, 511, 0x6000, 0x1D9), (0, 2, 0xD000, 1),
    (0xD000, 0, 0xE000, 1), (0xE000, 0, 0xF000, 1), (0xF000, 0, 0x10000, 1), (0x10000, 0, 0x7000, 0x1D9)].foldl
    (fun (s : State) p => s.putEntry (a + p.1) p.2.1 (a + p.2.2.1) p.2.2.2) s
  let s := (s.storePhys (a + 0x6000) (leBytes 64 x)).storePhys (a + 0x7000) (leBytes 64 x)
  let s := s.updBlock 0 fun b => { b with
    tiles := [0, 1, 2], regs := { b.regs with scratchSize := 8192, ttBase := 0x0001FFFFFFFFF000, ttCount := 128 } }
  s.updCtx (fun c => { c with s := words }) (.bobbin 0 0)

/-- The halves of LD.B128; an LDC of a thread and of a bobbin. -/
theorem witness_AccessesBindAndPerform_more :
    let l := after (.ldB128 60 0 0 0) (dataBench ⟨5, .i32⟩)
    let quiet := fun (t : State) (a : Access) => decide (t.mayPerform a = true ∧ t.locPoisoned a.loc a.width = false ∧ t.mmioAt a.loc = none ∧
      t.seenStores 0 = [] ∧ a.work = .load ∧ a.home ≠ .outsideMmio ∧ a.loc.isWindow = false ∧ a.group = none)
    (∃ p ∈ (l.ctx (.thread 0 0)).pend.head?, ∃ a ∈ l.accs[0]?, ∃ b ∈ l.accs[1]?, p.regs = [.v 60, .v 61, .v 62, .v 63] ∧ a.id ≠ b.id ∧
      p.work = .access [(a.id, none), (b.id, none)] (.words .raw) ∧ a.width = 8 ∧ b.width = 8 ∧ a.ordered = true ∧ quiet l a = true ∧ quiet l b = true ∧
      ∀ x ∈ l.accs, l.mayShow 0 x = false) ∧
    (∀ q ∈ [(dataBench ⟨5, .i32⟩, Agent.thread 0 0), (engBench 0 #v[0x2000, 0x00010000, 0, 0, 0, 0, 0, 0, 0, 0, 0, 0, 0, 0, 0, 0], .bobbin 0 0)],
      let t := after (.ldcB32 3 0 0 0) q.1
      ∃ p ∈ (t.ctx q.2).pend.head?, ∃ a ∈ t.accs.head?, p.regs = [.s 3] ∧ p.work = .access [(a.id, none)] (.words .raw) ∧ a.width = 4 ∧
        a.ordered = false ∧ quiet t a = true ∧ a.agent = q.2) := by decide +kernel

/-- Copy words: dst s0, s1; src s2, s3; 16 bytes, one row more or w0 = 16, w1 = 1; FLAGS of window to window. -/
def copyWords (dst src sb sb1 fl : Word) : Vector Word 16 := #v[dst, 0, src, 0, sb, sb1, 0, fl, 0, 0, 0, 0, 0, 0, 0, 0]

/-- The conditions of R194 for CPY.L: met; then length 0, a FLAGS bit that must be 0, a range past the window, a full queue. -/
theorem witness_CopyCommandsPosted :
    let s := engBench intTensor (copyWords 0x1000 0x1FF0 16 1 0x50)
    let full := s.updBobbin 0 0 fun b => { b with copyQ := List.replicate 16 (Command.blank .cpyL) }
    (0#4).toNat % 2 = 0 ∧ (2#4).toNat % 2 = 0 ∧ (4#4).toNat % 4 = 0 ∧ s.issue.agents = [.bobbin 0 0] ∧ (s.blockOf (.bobbin 0 0)).isSome = true ∧
    (∀ b1 ∈ [false, true], ∀ d1 ∈ [false, true], s.Ready .bobbin (cpyOp b1 d1 0 2 4 0 0 0).srcs [] (.bobbin 0 0)) ∧
    (s.bobbin 0 0).copyQ.length < 16 ∧ 16 ≤ (full.bobbin 0 0).copyQ.length ∧ s.privOf (.bobbin 0 0) = true ∧
    ((after (.cpyL 0 2 4 0 0 0) s).bobbin 0 0).copyQ.length = 1 ∧
    ((after (.cpyL 0 2 4 0 0 0) (engBench 0 (copyWords 0x1000 0x1FF0 0 1 0x50))).bobbin 0 0).cause = Cause.copyInvalid.code ∧
    ((after (.cpyL 0 2 4 0 0 0) (engBench 0 (copyWords 0x1000 0x1FF0 16 1 0x150))).bobbin 0 0).cause = Cause.copyInvalid.code ∧
    ((after (.cpyL 0 2 4 0 0 0) (engBench 0 (copyWords 0x1000 0x1FF1 16 1 0x50))).bobbin 0 0).cause = Cause.copyInvalid.code :=
  ⟨by decide, by decide, by decide, rfl, by decide +kernel, by
      intro b1 _ d1 _
      cases b1 <;> cases d1 <;> exact ready_bobbin rfl (by decide +kernel),
    by decide +kernel⟩

/-- Two entries that can be read, one after the other, on two pages; a handle of no entry. -/
theorem witness_CopyCommandsPosted_entries :
    let s := engBench intTensor (copyWords 0 64 0x00010010 1 0)
    let r := (s.collect 0).tensorEntry (.bobbin 0 0) 0
    r.1 = some intTensor ∧ (r.2.tensorEntry (.bobbin 0 0) 64).1 = some intTensor ∧
    ((after (.cpyT2 0 2 4 0 0 0) s).bobbin 0 0).copyQ.length = 1 ∧
    (∃ b ∈ s.blockOf (.bobbin 0 0), b.regs.ttCount.toNat ≤ 128 % 4096) := by decide +kernel

/-- A copy command at the head of the queue of a running bobbin: 16 bytes from 0x1FF0 to 0x1000, not begun. -/
def aCopy : Command :=
  { Command.blank .cpyL with id := 9, dst := 0x1000, src := 0x1FF0, ctl := #v[16, 0, 0, 0x50] }

def copyBench (c : Command) : State := (engBench intTensor (copyWords 0 0 0 0 0)).updBobbin 0 0 fun b => { b with copyQ := [c] }

theorem witness_CopyCommandsRun :
    let s := copyBench aCopy
    (s.bobbin 0 0).copyQ = [aCopy] ∧ (s.bobbin 0 0).status = .running ∧ aCopy.parked = false ∧ Memory.wf s.mem = true ∧
    (∃ b ∈ s.blockOf (.bobbin 0 0), b.halted = false ∧ s.accs = [] ∧ (∀ g ∈ b.regions.toList, g.valid = false) ∧
      0x1FF0 + 8 ≤ b.regs.scratchSize.toNat ∧ 0x1000 + 8 ≤ b.regs.scratchSize.toNat ∧ (s.core b.core).phasers = []) ∧
    aCopy.ctl[3].extractLsb' 4 2 = 1 ∧ aCopy.ctl[3].extractLsb' 6 2 = 1 ∧ aCopy.ctl[3].getLsbD 12 = false ∧ aCopy.ctl[3].getLsbD 11 = false ∧
    aCopy.progress < aCopy.ctl[0].toNat ∧
    (let d := { aCopy with guard := some 0, resolved := some false }
     (copyBench d).bobbin 0 0 |>.copyQ.head?.map (·.resolved) = some (some false)) ∧ s.credits = [] := by decide +kernel

theorem scratch_none : ∀ (cs : List (Nat × CoreState)), cs.all (fun p => p.2.scratch.isEmpty) = true → ∀ k, (assocGet CoreState.zero k cs).scratch = []
  | [], _, _ => rfl
  | (j, c) :: cs, h, k => by
    simp only [List.all_cons, Bool.and_eq_true, List.isEmpty_iff] at h
    unfold assocGet
    split
    · exact h.1
    · exact scratch_none cs h.2 k

/-- The conditions of Moving that one evaluation settles, for a command alone in its queue of bobbin 0. -/
def movable (s : State) (matrix : Bool) (c : Command) : Bool :=
  decide ((s.bobbin 0 0).queue matrix = [c] ∧ (s.bobbin 0 0).status = .running ∧ c.parked = false ∧ c.guard = none ∧ c.moved = false ∧ c.phs = [] ∧
    c.started = true ∧ (∀ k ∈ s.blocks, ∀ g ∈ k.regions.toList, g.valid = false) ∧ s.accs = [] ∧ Memory.wf s.mem = true ∧ s.platform.poison = []) &&
  s.cores.all (fun p => p.2.scratch.isEmpty) && (s.blockOf (.bobbin 0 0)).any fun b => !b.halted

theorem moving_of {s : State} {matrix : Bool} {c : Command} (h : movable s matrix c = true) :
    ∃ b, s.blockOf (.bobbin 0 0) = some b ∧ s.Moving 0 0 matrix c [] b := by
  simp only [movable, Bool.and_eq_true, decide_eq_true_eq, Option.any_eq_true, Bool.not_eq_true'] at h
  obtain ⟨⟨⟨hq, hr, hp, hg, hm, hs, hb, hv, ha, hw, hx⟩, hc⟩, b, hbl, hh⟩ := h
  exact ⟨b, hbl, by decide, hq, by simp, hr, hbl, hh, by simpa using hp, ⟨hg, hm, hs, hb⟩, hv, by simp [ha], memOk_of hw (scratch_none _ hc), hx⟩

/-- Tensors of FMT `f` and 32 × 32 elements, rows of 128 bytes, at offset 4096 of the own window. -/
def plainTensor (f : Nat) : Nat := 2 ^ 415 + f * 2 ^ 410 + 2 ^ 408 + 4096 * 2 ^ 320 + 128 * 2 ^ 288 + 2 ^ 256 + 32 * 2 ^ 224 + 32 * 2 ^ 192 + 4096

/-- The data page's leaf, as a command holds it. -/
def heldLeaf (kind : Nat) : Nat × TlbEntry :=
  (kind, { aLeaf with entry := BitVec.ofNat 64 (bobBench.fetchTables + 0x6000 + 0x1D9), addr := bobBench.fetchTables + 0x4010 })

/-- A copy that has begun. -/
def begun (op : CmdOp) (dst src : DWord) (ctl : Vector Word 4) (dt st : Nat) (index : List Nat) : Command :=
  { Command.blank op with
    id := 9, started := true, dst := dst, src := src, ctl := ctl, dstEntry := dt, srcEntry := st, index := index, pages := [heldLeaf 0, heldLeaf 1] }

/-- The engine finds both spots, changing nothing, and software may write the second. -/
def finds (s : State) (src : Option Spot) (kind : AccKind) (dst : Spot) (n m : Nat) : Bool :=
  let e : Eng := ⟨0, 0, false, 9⟩
  (src.all fun q => match s.engLoc e .read q m with
    | (.ok l, u) => decide (l.isWindow = false ∧ u = s)
    | _ => false) &&
  match s.engLoc e kind dst n with
    | (.ok (.phys pa), u) => decide (u = s ∧ pa / 2 ^ 52 ≠ 1023 ∧ pa % 8 + n ≤ 8 ∧ ∀ i < n, s.Writable (s.physKey (pa + i)))
    | (.ok (.scratch ..), u) => decide (u = s)
    | _ => false

/-- `copyBench` with the command's block in a quarter of one, its name in the name cache. -/
def quarterBench (c : Command) : State :=
  let s := { (copyBench c).updBlock 0 (fun b => { b with regs := { b.regs with qsize := 1, qrank := 0 } }) with street := someNames }
  s.usedName ((s.block? 0).getD s.fetchBlock) 0

/-- Runs: cpy.l from global memory and to it, cpy.s in both directions at its second line, cpy.m to its one rank, cpy.t2 and cpy.t3 at
their second row, cpy.g of a row the source has and of one it does not have. -/
theorem witness_CopyCommandsRun_runs :
    let at_ := fun (o : Nat) => (⟨1, 0, o⟩ : Spot)
    let page := (⟨0, 0, dataVa.toNat⟩ : Spot)
    let mid := fun (n : Nat) (c : Command) => { c with progress := n }
    let (t2, t3) := (plainTensor 2, #v[0x00020004, 1, 0, 0])
    ∀ p ∈ [(begun .cpyL 0x1000 dataVa #v[16, 0, 0, 0x40] 0 0 [], some page, at_ 0x1000, 8), (begun .cpyL dataVa 0x1001 #v[16, 0, 0, 0x10] 0 0 [], some (at_ 0x1001), page, 7),
        (mid 16 (begun .cpyS 0x1000 0x1400 #v[0x00100010, 64, 0, 0x50] 0 0 []), some (at_ 0x1440), at_ 0x1010, 8),
        (mid 16 (begun .cpyS 0x1000 0x1400 #v[0x00100010, 64, 0, 0x250] 0 0 []), some (at_ 0x1410), at_ 0x1040, 8),
        (mid 16 (begun .cpyT2 (2 ^ 48) 0 t3 t2 t2 []), some (at_ 4224), at_ 4352, 8), (mid 16 (begun .cpyT3 (2 ^ 48) 0 t3 t2 t2 []), some (at_ 4224), at_ 4352, 8),
        (begun .cpyG 0 0 t3 t2 t2 [3, 40], some (at_ 4480), at_ 4096, 8), (mid 16 (begun .cpyG 0 0 t3 t2 t2 [3, 40]), none, at_ 4224, 8)],
      movable (copyBench p.1) false p.1 = true ∧ finds (copyBench p.1) p.2.1 .write p.2.2.1 p.2.2.2 p.2.2.2 = true := by decide +kernel

theorem witness_CopyCommandsRun_ranks :
    let c := begun .cpyM 0x1000 0x1400 #v[16, 0x00010000, 0, 0x50] 0 0 [0]
    let s := quarterBench c
    movable s false c = true ∧ (∃ b ∈ s.blockOf (.bobbin 0 0), (s.rankBlock b 0).map (·.core) = some 0 ∧ s.usedName b 0 = s) ∧
    finds s (some ⟨1, 0, 0x1400⟩) .write ⟨2, 0, 0x1000⟩ 8 8 = true := by decide +kernel

/-- Elements: a sum of i32, a least f32, and f32 to f16. -/
theorem witness_CopyCommandsRun_elements :
    ∀ p ∈ [(begun (.cpyRed 0) 0 (2 ^ 48) #v[0x00020004, 1, 0, 0] (plainTensor 2) (plainTensor 2) [], AccKind.both, 4, 4),
        (begun (.cpyRed 1) 0 (2 ^ 48) #v[0x00020004, 1, 0, 0] (plainTensor 8) (plainTensor 8) [], .both, 4, 4),
        (begun .cpyT2 0 (2 ^ 48) #v[0x00020004, 1, 0, 0] (plainTensor 9) (plainTensor 8) [], .write, 2, 4)],
      movable (copyBench p.1) false p.1 = true ∧ finds (copyBench p.1) (some ⟨1, 0, 4224⟩) p.2.1 ⟨1, 0, 4096⟩ p.2.2.1 p.2.2.2 = true := by decide +kernel

/-- A unit of block 7 saved at an address of storage, from `bench`. -/
def aSaved : SavedUnit :=
  let bs := (bench.blocks.take 1).map fun b => { b with bid := 7, unit := 7, gridId := 9, regs := { b.regs with scratchSize := 256 } }
  { unit := 7, gridId := 9, image := bench.fetchTables + 0x100000, savedIn := 0, home := none, resuming := false, slot := none, emergency := false,
    blocks := bs, lay := (bs.head?.map (·.layout)).getD (bench.fetchBlock.layout), names := [], aliases := [], bobbins := [], tiles := [], committed := false, seq := 1,
    placed := false, eng := [] }

/-- A phaser, expected 64 bytes, in its image, and its bit. -/
def savedBench : State :=
  let s := { bench with saved := [aSaved], credits := [{ id := 4, cmd := none, bid := 7, off := 0, bytes := 16, gen := 0, sender := 0, held := none }] }
  match aSaved.blocks with
  | b :: _ => (s.storePhys (aSaved.scratchAt b 0) (leBytes 32 (Phaser.toNat { onePhaser with expb := 64 }))).storePhys
      (aSaved.partAt b + aSaved.lay.phb) [1]
  | [] => s

/-- A credit to the phaser of the window, of its generation and of another; one to no phaser, whose command still queues. -/
theorem witness_CopyCommandsRun_credits :
    let c : Credit := { id := 4, cmd := some 9, bid := 0, off := 0, bytes := 16, gen := 0, sender := 0, held := none }
    let s := { phBench onePhaser with credits := [c] }
    let n := { copyBench aCopy with credits := [c] }
    let w := { c with held := some 2 }
    let two := [{ w with id := 5, held := some 1 }, w]
    let early := two.any fun x => x.sender == w.sender && match x.held, w.held with
      | some m, some n => decide (m < n)
      | _, _ => false
    s.credits.find? (fun k => k.id == c.id) = some c ∧ (∃ b ∈ s.block? 0, s.phaserBit b.core (b.scr 0 / 32) = true) ∧
    (s.phaser 0 0).gen = c.gen ∧ ((phBench { onePhaser with gen := 1 }).phaser 0 0).gen ≠ c.gen ∧ (s.power 0).freq ≠ .relocking ∧ early = true ∧
    (∃ b ∈ n.block? 0, s.completed b = false ∧ n.phaserBit b.core (b.scr 0 / 32) = false) ∧ (∃ e ∈ n.engOf 9, (n.engCommand e).isSome = true) ∧
    (((n.bobbin 0 0).queue false).map (·.id)).Nodup ∧ s.block? 1 = none ∧ s.saved = [] := by decide +kernel

theorem witness_CopyCommandsRun_saved :
    let u := fun (p : Bool) => { aSaved with placed := p }
    ∀ p ∈ [false, true], let s := { savedBench with saved := [u p] }
      s.block? 7 = none ∧ (s.saved.find? fun u => u.blocks.any fun k => k.bid == 7) = some (u p) := by decide +kernel

/-- A migration of the data page in its three stages. -/
def aMigration (m : MigrStep) : Command :=
  { Command.blank .cpyMigr with
    id := 9, src := dataVa, dst := BitVec.ofNat 64 (bobBench.fetchTables + 0x8000 + 0x1D9), ctl := #v[0, 0, 0, 0], migr := m
    oldLeaf := BitVec.ofNat 64 (bobBench.fetchTables + 0x6000 + 0x1D9), leafAt := bobBench.fetchTables + 0x4010 }

theorem witness_CopyCommandsRun_migration :
    let s := copyBench (aMigration .waiting)
    let a := bobBench.fetchTables
    let sp := s.spaceOf (.bobbin 0 0)
    let x : Xinv := { id := 3, agent := .bobbin 0 0, form := .all, scope := .waf, done := [] }
    let held := { (copyBench (aMigration .swung)).updCore 0 fun c => { c with tlb := [aLeaf] } with xinvs := [x] }
    s.rangeDram sp.root 4096 = true ∧ s.leafAt dataVa.toNat 4 sp.root = some (a + 0x4010, 0, (aMigration .waiting).oldLeaf) ∧
    (match (s.walk sp .read dataVa.toNat).2 with
      | .poison => false
      | .waits => false
      | _ => true) = true ∧
    s.leafAt 0x3000 4 sp.root = none ∧ s.rangeStored sp.ctxid false false (a + 0x6000) 4096 = true ∧
    s.rangeStored sp.ctxid false false (a + 0x8000) 4096 = true ∧ s.platform.poison = [] ∧ s.accs = [] ∧ (a + 0x4010) % 8 = 0 ∧
    (∀ k ∈ [(0x4010, 8), (0x6000, 4096), (0x8000, 4096)], s.physKey (a + k.1) = a + k.1 ∧ s.physKey (a + k.1 + k.2 - 1) = a + k.1 + k.2 - 1 ∧
      s.Writable (a + k.1) ∧ s.Writable (a + k.1 + k.2 - 1)) ∧
    s.readPhys64 (a + 0x4010) = (aMigration .waiting).oldLeaf ∧ held.xinvDone x = false ∧ { s with xinvs := [x] }.xinvDone x = true ∧
    (s.bobbin 0 0).status = .running := by decide +kernel

/-- A tile field of 2 and of 3 tiles; a tile declared i32, f32 and raw; a fidelity word with and without reserved bits. -/
theorem witness_MatrixCommandsPosted :
    let s := engBench planeTensor (copyWords 0 64 1 0 0x100)
    let t := s.updTile 0 0 fun x => { x with declared := .i32 }
    let u := withTraps (bench.updCtx (fun c => { c with s := #v[0, 0x10000, 0, 0, 0, 0, 0, 0, 0, 0, 0, 0, 0, 0, 0, 0] }) (.thread 0 0))
    s.Ready .bobbin (sSrcs 2 2 ++ sSrcs 4 4 ++ sSrcs 0 2) [] (.bobbin 0 0) ∧ bench.AllReady .both [] [.s 0] ∧
    u.Ready .both [sSrc 0, sSrc 1] [] (.thread 0 0) ∧ u.TrapsOn 0 0 ∧ (s.bobbin 0 0).matrixQ.length < 8 ∧
    (∃ b ∈ s.blockOf (.bobbin 0 0), (∀ p ∈ b.tiles, p < 8) ∧ b.tiles.length ≤ (3#4).toNat ∧ (2#4).toNat < b.tiles.length ∧
      s.declaredTag b 0 = .raw ∧ t.declaredTag b 0 = .i32) ∧
    (let r := (s.collect 0).tensorEntry (.bobbin 0 0) 0
     r.1 = some planeTensor ∧ (r.2.tensorEntry (.bobbin 0 0) 64).1 = some planeTensor) ∧
    ((after (.mzero 0 0 0 0 0) s).bobbin 0 0).matrixQ.length = 1 ∧ ((after (.mzero 3 0 0 0 0) s).bobbin 0 0).cause = Cause.illegal.code ∧
    ((after (.mrsumRow 0 0 0 0 0) t).bobbin 0 0).matrixQ.length = 1 ∧ ((after (.mrsumRow 0 0 0 0 0) s).bobbin 0 0).cause = Cause.formatTag.code ∧
    ((after (.mrsumRow 0 4 0 0 0) t).bobbin 0 0).cause = Cause.matrixInvalid.code ∧
    (u.privOf (.thread 0 0) = true ∧
      (u.readReg (.thread 0 0) (.s 1)).val.extractLsb' 16 4 ≠ 0 ∧ (u.readReg (.thread 0 0) (.s 0)).val.extractLsb' 16 4 = 0) :=
  ⟨ready_bobbin rfl (by decide +kernel), (allReady_thread rfl (ready_thread rfl (by decide +kernel))).1, ready_thread rfl (by decide +kernel),
    trapsOn_thread (by decide +kernel), by decide +kernel⟩

/-- A matrix command at the head of the queue of a running bobbin; its tile is acc0, tile 0 of the core. -/
def matBench (c : Command) : State := (engBench planeTensor (copyWords 0 0 0 0 0)).updBobbin 0 0 fun b => { b with matrixQ := [c] }

/-- MZERO, MZPC, a part of MRSUM, an MMA before its start and one before its last step, a finished command. -/
theorem witness_MatrixCommandsRun :
    let e : Eng := ⟨0, 0, true, 9⟩
    let c := fun (op : CmdOp) (t : TileTag) => { Command.blank op with id := 9, tag := t }
    let m := { c (.mma 1 1) .i32 with
      started := true, ctl := #v[0, 0, 1, 0], srcEntry := planeTensor, bEntry := planeTensor, sums := List.replicate 1024 0, exact := List.replicate 1024 0 }
    (∀ k ∈ [c (.mzero 0) .i32, c (.mzero 2) .i64, c .mzpc .i32, { c (.mrsum true) .i32 with started := true, progress := 30, dst := 0x1000 }, c (.mma 1 1) .i32, m],
      let s := matBench k
      (s.bobbin 0 0).matrixQ = [k] ∧ (s.bobbin 0 0).status = .running ∧ s.tilesReady e k = true ∧ k.moved = false ∧
      (∃ b ∈ s.blockOf e.agent, b.halted = false ∧ b.phys k.tile = 0 ∧ b.phys (k.tile + 1) = 1 ∧ s.seenStores b.bid = [] ∧
        0x1000 + 8 * 30 + 8 ≤ b.regs.scratchSize.toNat ∧ ∀ g ∈ b.regions.toList, g.valid = false)) ∧
    ((matBench m).tile 0 0).cur.elems.length = 1024 ∧ m.progress < m.ctl[2].toNat % 4096 * 1 * 1 ∧ ((matBench m).core 0).injection = none ∧
    ((matBench m).core 0).phasers = [] ∧
    (match ((matBench m).planeLines e (m.mmaShape 1 1).a (m.mmaShape 1 1).aw 0 0 (List.range 32)) with
      | (.ok xs, t) => decide (xs.length = 32 ∧ t = matBench m)
      | _ => false) = true := by
  refine ⟨fun k hk => ?_, by decide +kernel⟩
  fin_cases hk <;> decide +kernel

/-- An element of MDRAIN of each tile form; 8 codes of MPLANE from i32 elements, and a group of 32 of ENC 3. -/
theorem witness_MatrixCommandsRun_elements :
    let e : Eng := ⟨0, 0, true, 9⟩
    let c := fun (op : CmdOp) (tag : TileTag) (dt st : Nat) =>
      { Command.blank op with id := 9, started := true, tag := tag, dstEntry := dt, srcEntry := st, ctl := #v[0x00200020, 1, 0, 0] }
    let exps := planeTensor + 3 * 2 ^ 444 + 6144 * 2 ^ 64
    (∀ p ∈ [(0, TileTag.i32, 0), (0, .i32, 4), (1, .i64, 2), (1, .i64, 8), (2, .f32, 8), (2, .f32, 9)],
      let k := { c (.mdrain p.1) p.2.1 (plainTensor p.2.2) 0 with ctl := Vector.replicate 4 0 }
      movable (matBench k) true k = true ∧ (matBench k).tilesReady e k = true ∧ ((matBench k).tile 0 0).cur.elems.length = 1024 ∧
        ((matBench k).tile 0 1).cur.elems.length = 1024 ∧ finds (matBench k) none .write ⟨1, 0, 4096⟩ (fmtBits p.2.2 / 8) 1 = true) ∧
    ∀ p ∈ [(planeTensor, 8), (exps, 32)], let k := c (.mplane false) .raw p.1 (plainTensor 2)
      movable (matBench k) true k = true ∧ ((matBench k).core 0).phasers = [] ∧
        (match (matBench k).planeValues e k false 0 0 0 p.2 with
          | (.ok xs, t) => decide (xs.length = p.2 ∧ t = matBench k)
          | _ => false) = true := by decide +kernel

/-- An MMA into a pair of tiles, one in float mode before the last step of its chunk, and one at split 1 that a soft error of a low
slice may meet, under each policy, in its replay, and with an injection due. -/
theorem witness_MatrixCommandsRun_mma :
    let e : Eng := ⟨0, 0, true, 9⟩
    let m := fun (tag : TileTag) (k : Word) (fid : Byte) (replay inject : Bool) => { Command.blank (.mma 1 1) with
      id := 9, started := true, tag := tag, ctl := #v[0, 0, k, 0], srcEntry := planeTensor, bEntry := planeTensor, fid := fid, replay := replay,
      inject := inject, sums := List.replicate 1024 0, exact := List.replicate 1024 0 }
    let lines := fun (c : Command) => let s := matBench c
      let h := c.mmaShape 1 1
      match s.planeLines e h.a h.aw 0 0 (List.range 32), s.lineParams e h.a h.aw h.ap 0 (List.range 32), s.codeSums e h h.a h.aw 0 0 (List.range 1) with
      | (.ok xs, t), (.ok ys, u), (.ok _, v) => decide (xs.length = 32 ∧ ys.length = 32 ∧ t = s ∧ u = s ∧ v = s ∧ h.segs = 1 ∧ h.seg = 128)
      | _, _, _ => false
    (∀ c ∈ [m .i64 1 0 false false, m .f32 1 0 false false, m .i32 2 0 false false, m .i32 2 0x10 false false, m .i32 2 0x10 true false,
        m .i32 2 0x20 false false, m .i32 2 0 false true],
      movable (matBench c) true c = true ∧ lines c = true ∧ ((matBench c).tile 0 0).cur.elems.length = 1024) ∧
    ((matBench (m .i32 2 0 false false)).dom 0).rail = 0 ∧ bench.platform.powered = true := by decide +kernel

/-- Two rail requests in one domain. -/
theorem witness_MatrixCommandsRun_rail : bench.fidRequests 0 = [] := by decide +kernel

/-! ## Collectives, the front end, images, fabric, power and boot -/

/-- One member at core 0. -/
def aChannel (rounds : List Round) : Channel :=
  { num := 5, members := 1, root := 0, rootWafer := 0, scopeSys := false, trees := 0, ntram := 0, weights := [], rounds := rounds, nextRound := 3 }

def aContribution (e : Nat) : Contribution := ⟨0, 0, 5, e, 1, 7, true⟩

/-- A round with every contribution. -/
def fullRound : Round := { num := 2, op := 1, contribs := (List.range 64).map aContribution, targets := [(0, 0, 0)] }

/-- `bench` with binding 0 to channel 5 and that channel. -/
def collBench (rounds : List Round) : State :=
  { (benchV ⟨0, .i32⟩).updBlock 0 fun b => { b with regs := { b.regs with cbind := vecUpd b.regs.cbind 0 fun _ => 0x00500001 } } with
    channels := [aChannel rounds] }

/-- Operand 0 and, with bit 6, one with a reserved bit; no binding; no channel; a contribution that waits; a complete round. -/
theorem witness_CollectiveRounds :
    let s := collBench []
    let p := (collBench []).updCtx (fun c => { c with pend := [⟨1, [.v 9], .coll (aContribution 0), 0, none⟩] }) (.thread 0 0)
    s.Ready .thread [vSrc 0 0 .int32, vSrc 1 1 .int32] [.v 2] (.thread 0 0) ∧ (withTraps s).TrapsOn 0 0 ∧ (0x40 : Word).extractLsb' 6 2 ≠ 0 ∧
    (∃ b ∈ s.block? 0, b.regs.cbind[0].getLsbD 0 = true ∧ (b.regs.cbind[0].extractLsb' 20 12).toNat = 5) ∧ (s.channel? 5).isSome = true ∧
    (∃ b ∈ bench.block? 0, b.regs.cbind[0].getLsbD 0 = false) ∧ bench.channel? 5 = none ∧
    ((p.ctx (.thread 0 0)).pend.find? (fun q => q.id == 1) = some ⟨1, [.v 9], .coll (aContribution 0), 0, none⟩ ∧ p.channel? 5 = some (aChannel [])) ∧
    (let w := { fullRound with contribs := [] }
     (aChannel [w]).rounds.find? (fun r => decide ((r.contribs.filter fun x => x.elem == 0).length < (aChannel []).members)) = some w) ∧
    (∀ e < 64, (fullRound.contribs.filter fun c => c.elem == e).length = (aChannel []).members) ∧
    (collBench [fullRound]).channel? 5 = some (aChannel ([] ++ fullRound :: [])) ∧ bench.platform.powered = true ∧ bench.platform.recovery = false :=
  ⟨ready_thread rfl (by decide +kernel), trapsOn_thread (by decide +kernel), by decide +kernel⟩

theorem witness_CollectiveRounds_saved :
    Memory.wf savedBench.mem = true ∧ savedBench.platform.poison = [] ∧ savedBench.platform.powered = true ∧ savedBench.platform.fatal = false ∧
      (∃ c ∈ savedBench.credits.head?, savedBench.creditWaits c = false ∧ c.cmd = none ∧ c.gen = 0 ∧ savedBench.credits.find? (fun k => k.id == c.id) = some c) ∧
      ∃ p ∈ savedBench.savedBlock 7, p.1.placed = false ∧ savedBench.imagePhaserBit p.1 p.2 0 = true ∧ savedBench.imagePhaserBit p.1 p.2 1 = false ∧
      (p.1.scratchAt p.2 0) % 32 = 0 ∧ (∀ i, i < 32 → savedBench.Writable (savedBench.physKey (p.1.scratchAt p.2 0 + i))) ∧
      let x := Phaser.ofNat (leNat (savedBench.readPhys (p.1.scratchAt p.2 0) 32))
      x.gen = 0 ∧ x.expb = 64 ∧ ¬x.expb ≤ (x.land + 16) % 2 ^ 32 := by decide +kernel

theorem witness_CollectiveRounds_names :
    let e : StreetEntry := { unit := 0, name := 300, cur := 0, state := 1, image := 0, rank := 0, slot := 0 }
    let s := { bench with street := [e] }
    (∃ b ∈ s.block? 0, b.core = 0 ∧ ∃ e ∈ s.street, e.unit = b.unit ∧ e.name = 300) ∧ (∀ e ∈ bench.street, e.name ≠ 300) := by decide +kernel

/-- A round with two targets, on two cores; its target when all its threads have exited; a contribution and a result that nothing holds,
and a credit to no phaser of a saved block. -/
theorem witness_CollectiveRounds_targets :
    let r := { fullRound with targets := [(0, 0, 0), (1, 0, 0)] }
    let one := collBench [r]
    let s := { one with blocks := one.blocks ++ one.blocks.map fun (b : Block) => { b with bid := 1, unit := 1, core := 1 } }
    let gone := one.updThread 0 0 fun t => { t with status := .exited }
    let c : Credit := { id := 4, cmd := none, bid := 7, off := 32, bytes := 16, gen := 0, sender := 0, held := none }
    s.channel? 5 = some (aChannel ([] ++ r :: [])) ∧ (∀ z ∈ r.targets, s.resultHeld (aChannel [r]) z = false) ∧
    (∃ b ∈ s.block? 0, ∃ d ∈ s.block? 1, b.core = 0 ∧ d.core = 1 ∧ s.completed b = false ∧ s.completed d = false) ∧
    (∃ b ∈ gone.block? 0, gone.completed b = true) ∧ s.contributionHeld 0 1 (aChannel []) = false ∧
    (∃ p ∈ savedBench.savedBlock 7, savedBench.imagePhaserBit p.1 p.2 (c.off / 32) = false) ∧
    (aContribution 0).op = fullRound.op ∧ { fullRound with op := 0 }.op ≠ (aContribution 0).op := by decide +kernel

/-- Queue descriptor: LOG2N 4, ROOT the tables of `bench`, write index and ring on the data page, no pattern. -/
def aDescriptor : Nat := 4 * 2 ^ 460 + bench.fetchTables / 4096 * 2 ^ 142 + dataVa.toNat * 2 ^ 64 + (dataVa.toNat + 2048)

def aQueue : Queue := Queue.ofDescriptor 3 aDescriptor []

def aSeed : Seed :=
  { sinit := [], cbind := [], mbox := 0, ttcount := 0, ttbase := 0, tvec := 0, stallchk := false, nread := 0, accn := 0, scratch := 4096,
    entry := 0x1000, lmtBase := 0, lmtCount := 0, phasers := [], zeroed := [] }

def aGrid : Grid :=
  { id := 9, queue := 3, packet := 0, prio := 2, chain := false, priv := false, fid := 0, qsize := 0, gridb := 1, bdim := 32, argbase := 0, done := 0,
    resumeDone := [], doneDue := [], lists := [{ home := some 0, units := [0], taken := 0 }], units := 1, completed := 0, aborted := false, cause := 0,
    ctxid := 0, seed := some aSeed, doneTried := false, since := 0 }

def feBench (q : Queue) (gs : List Grid) : State := { dataBench ⟨0, .i32⟩ with queues := [q], grids := gs }

theorem okOf {α ε : Type} {r : Except ε α × State} (h : r.1.isOk = true) : ∃ x u, r = (.ok x, u) := by
  obtain ⟨a, u⟩ := r
  cases a <;> simp_all [Except.isOk, Except.toBool]

/-- The leaves a TLB holds for an access, and the state with those that do not permit it discarded. -/
def heldLeaves (s : State) (sp : Space) (va : Nat) : List TlbEntry := (s.core sp.core).tlb.filter fun e => e.leaf && e.covers sp.asid va
def permitting (s : State) (sp : Space) (kind : AccKind) (va : Nat) : State := s.updCore sp.core fun c =>
  { c with tlb := c.tlb.filter fun e => !(e.leaf && e.covers sp.asid va) || pteAllows e.entry kind sp.priv }

theorem lookup_held {s : State} {sp : Space} {kind : AccKind} (ad : Bool) {va : Nat} {e : TlbEntry} (h : heldLeaves (permitting s sp kind va) sp va = [e]) :
    ∃ o ∈ [some e, none], s.lookup sp kind ad va = ((permitting s sp kind va).choose 2).2.lookupBy sp kind ad va o := by
  refine ⟨[e][((permitting s sp kind va).choose 2).1]?, ?_, ?_⟩
  · rcases Nat.mod_two_eq_zero_or_one (Config.free (permitting s sp kind va).freeIdx) with hm | hm <;> simp [State.choose, hm]
  · have hl : s.lookup sp kind ad va =
        (let held := heldLeaves (permitting s sp kind va) sp va
         let (k, u) := if held.isEmpty then (held.length, permitting s sp kind va) else (permitting s sp kind va).choose (held.length + 1)
         u.lookupBy sp kind ad va held[k]?) := rfl
    rw [hl, h]
    rfl

/-- The intermediate entries a TLB holds for a walk. -/
def heldMids (s : State) (sp : Space) (va : Nat) : List TlbEntry := (s.core sp.core).tlb.filter fun e => !e.leaf && e.covers sp.asid va

theorem newWalk_held {s : State} {sp : Space} (kind : AccKind) (ad : Bool) {va : Nat} (h : (heldMids (s.drainSeen sp.bid) sp va).isEmpty = false) :
    ∃ k < (heldMids (s.drainSeen sp.bid) sp va).length + 1,
      s.newWalk sp kind ad va = ((s.drainSeen sp.bid).choose 1).2.walkBy sp kind ad va (heldMids (s.drainSeen sp.bid) sp va)[k]? := by
  refine ⟨((s.drainSeen sp.bid).choose ((heldMids (s.drainSeen sp.bid) sp va).length + 1)).1, Nat.mod_lt _ (Nat.succ_pos _), ?_⟩
  have hl : s.newWalk sp kind ad va =
      (let held := heldMids (s.drainSeen sp.bid) sp va
       let (k, u) := if held.isEmpty then (held.length, s.drainSeen sp.bid) else (s.drainSeen sp.bid).choose (held.length + 1)
       u.walkBy sp kind ad va held[k]?) := rfl
  rw [hl]
  simp only [h]
  rfl

theorem feBothLoc_of {s : State} {sp : Space} {va : Nat} (h : (s.feLoc sp .read va).1.isOk = true) :
    s.feBothLoc sp va = (s.feLoc sp .read va).2.feLoc sp .write va := by
  obtain ⟨a, u, ha⟩ := okOf h
  simp [State.feBothLoc, ha]

/-- The space of `aQueue`, and the front end's state after it has translated the write index for a read. -/
def ringSpace : Space := aQueue.space (feBench { aQueue with fence := 1 } [])
def ringRead : State := ((feBench { aQueue with fence := 1 } []).feLoc ringSpace .read aQueue.wptr.toNat).2

/-- A ring that waits for an entry, with and without room; a sound and a bad descriptor, a taken and a free number; queues that
are active with and without a packet, faulted, without grids and with one; a pattern-less packet that is refused. -/
theorem witness_FrontEndQueuesAndGrids :
    let s := feBench { aQueue with fence := 1 } []
    let j := { s with journal := { s.journal with base := some (2 ^ 17), waiting := [leBytes 32 1] } }
    let g := feBench aQueue [aGrid]
    (∃ bs u, s.feRange (aQueue.space s) (aDescriptor / 2 ^ 256 % 2 ^ 64) (4 * 0) = (.ok bs, u)) ∧
    (∃ bs u, s.feRange (aQueue.space s) aQueue.wptr.toNat 8 = (.ok bs, u)) ∧
    (match s.feBothLoc (aQueue.space s) aQueue.wptr.toNat with
      | (.ok l, u) => !u.requestHeld frontEnd l 16 && (u.mmioAt l).isNone && !l.isWindow
      | _ => false) = true ∧
    s.platform.powered = true ∧ s.platform.recovery = false ∧ s.platform.poison = [] ∧ Memory.wf s.mem = true ∧
    (j.journal.waiting = [leBytes 32 1] ∧ (leBytes 32 1).length = 32 ∧ j.journal.base = some (2 ^ 17) ∧ (j.journal.tail + 1) % 4096 ≠ j.journal.head) ∧
    badDescriptor aDescriptor = false ∧ badDescriptor (aDescriptor + 1) = true ∧ (s.queue? 3).isSome = true ∧ s.queue? 4 = none ∧ patternBad [] = none ∧ s.overbooked aQueue.dres aQueue.fres = false ∧
    s.journalRoom = true ∧
    (∃ q ∈ s.queue? 3, q.status = .active ∧ q.retry = [] ∧ q.held = none ∧ q.nextPacket = some 0 ∧ q.pattern = []) ∧
    (let r := s.readPacket { aQueue with fence := 1 } 0
     ∃ w ∈ r.1.toOption, r.2.packetStatus aQueue w ≠ 0) ∧
    s.gridsOf 3 = [] ∧ g.gridsOf 3 ≠ [] ∧ { aQueue with status := .faulted }.status = .faulted ∧ { aQueue with taking := some 0 }.held.or (some 0) = some 0 :=
  ⟨okOf (by decide +kernel), okOf (by decide +kernel), by
    obtain ⟨o, ho, h⟩ := lookup_held (s := ringRead) (sp := ringSpace) (kind := .write) true (va := aQueue.wptr.toNat)
      (e := (ringRead.core frontEnd).tlb.getLastD ⟨none, 0, 0, 0, false, 0⟩) (by decide +kernel)
    have hb := feBothLoc_of (s := feBench { aQueue with fence := 1 } []) (sp := ringSpace) (va := aQueue.wptr.toNat) (by decide +kernel)
    change (match (feBench { aQueue with fence := 1 } []).feBothLoc ringSpace aQueue.wptr.toNat with
      | (.ok l, u) => !u.requestHeld frontEnd l 16 && (u.mmioAt l).isNone && !l.isWindow
      | _ => false) = true
    rw [hb]
    change (match ringRead.feLoc ringSpace .write aQueue.wptr.toNat with
      | (.ok l, u) => !u.requestHeld frontEnd l 16 && (u.mmioAt l).isNone && !l.isWindow
      | _ => false) = true
    unfold State.feLoc State.translate
    rw [h]
    rcases List.mem_pair.mp ho with rfl | rfl
    · decide +kernel
    · obtain ⟨k, hk, h⟩ := newWalk_held (s := ((permitting ringRead ringSpace .write aQueue.wptr.toNat).choose 2).2) (sp := ringSpace) .write true
        (va := aQueue.wptr.toNat) (by decide +kernel)
      simp only [State.lookupBy]
      rw [h]
      clear h
      revert k
      decide +kernel, by decide +kernel⟩

/-- A queue with a packet at hand and a grid; a journal without room; acknowledgements inside and outside the ring's entries. -/
theorem witness_FrontEndQueuesAndGrids_room :
    let g := feBench { aQueue with held := some 0 } [aGrid]
    let u := (g.updQueue 3 fun q => { q with held := none, taking := none, again := false, readIdx := 1 }).writeReadIndex 3 0
    let full := { g with journal := { g.journal with tail := 4095 } }
    let j := { g with journal := { g.journal with tail := 2 } }
    (∃ q ∈ g.queue? 3, q.status = .active ∧ q.held.or q.taking = some 0) ∧ g.journalRoom = true ∧ u.journalRoom = true ∧ u.gridsOf 3 ≠ [] ∧
    full.journalRoom = false ∧ (j.journal.tail + 4096 - j.journal.head) % 4096 < (3 + 4096 - j.journal.head) % 4096 ∧
    (2 + 4096 - j.journal.head) % 4096 ≤ (j.journal.tail + 4096 - j.journal.head) % 4096 ∧ (2 ^ 17) % 2 ^ 17 = 0 := by decide +kernel

/-- A grid all of whose units have completed; one whose unit has a place on a core; a container that is not one. -/
theorem witness_FrontEndQueuesAndGrids_grids :
    let d := { (feBench aQueue [{ aGrid with completed := 1 }]) with blocks := [] }
    let p := { (feBench aQueue [aGrid]) with wafer := { Wafer.zero with usable := [] } }
    (∃ g ∈ d.grid? 9, d.gridStored 9 = true ∧ g.completed = g.units ∧ g.done = 0 ∧ g.doneDue = [] ∧ ∀ b ∈ d.blocks, b.gridId ≠ 9) ∧
    p.dispatches 0 = true ∧ p.candidates.length = 1 ∧ p.grid? 9 = some aGrid ∧ aGrid.seed.isSome = true ∧ (p.queue? 3).isSome = true ∧
    (∃ ps ∈ p.gridPlace 0 aGrid, (ps.map (·.1)).Nodup ∧ p.streetRoom p.nextUnit (ps.map (·.1)) = true) ∧ (aGrid.listOf (some 0)).isSome = true ∧ (∀ b ∈ p.blocks, b.bid < p.nextBid) ∧
    contReason 5 (p.enrolledSvn 0) [] ≠ 0 := by decide +kernel

/-- `bench` with a block of another unit on core 0. -/
def pairOfUnits : State :=
  { bench with blocks := bench.blocks ++ bench.blocks.map (fun b => { b with bid := 1, unit := 1 }), nextBid := 2 }

/-- Every status of a save request but the free ones; a unit that has stopped for its save; an image to commit and one to restore. -/
theorem witness_ContextImages :
    let s := pairOfUnits
    let pa := bench.fetchTables + 0x100000
    let m := { bench with saved := [{ aSaved with placed := true }] }
    let stop := (bench.updBlock 0 fun b => { b with save := some (.named pa) }).updThread 0 0 fun t => { t with status := .stopped 0 none }
    bench.Ready .thread (sSrcs 0 2 ++ [sSrc 2, sSrc 3]) [.s 3] (.thread 0 0) ∧ (withTraps bench).TrapsOn 0 0 ∧
    (let here := fun t : State => (t.blocksOn 0).filter fun b => !b.halted
     (here s).length + (s.movingOn 0).length = 2 ∧ (here m).length = 1 ∧ (m.movingOn 0).length = 1 ∧
     (∃ b ∈ (here s)[0]?, b.save = none ∧ b.unit = 0 ∧ b.regs.blockid = 0 ∧ s.imageRange b.regs.ctxid.toNat pa b.bound = true ∧
       s.imageRange b.regs.ctxid.toNat (127 * 2 ^ 45) b.bound = false) ∧ ((here s)[1]?).map (·.unit) = some 1 ∧
     (∃ b ∈ (here stop)[0]?, b.save.isSome = true)) ∧
    bench.privOf (.thread 0 0) = true ∧ bench.journalRoom = true ∧ bench.poisoned pa 256 = false ∧ bench.platform.recovery = false ∧
    bench.requestHeld 0 (.phys pa) 256 = false ∧ Loc.isWindow (.phys pa) = false ∧ bench.imageRange 0 pa 4096 = true ∧
    bench.imageRange 0 (127 * 2 ^ 45) 4096 = false ∧ bench.imageValid pa = false ∧
    ((stop.blocks.filter fun b => b.unit == 0).map (·.save) = [some (.named pa)] ∧ (stop.blocks.filter fun b => b.unit == 0).all stop.blockStopped = true ∧
      stop.platform.powered = true ∧ stop.platform.fatal = false ∧ stop.accs = [] ∧ ∃ b ∈ bench.blocks, bench.blockStopped b = false) ∧
    (∀ r ∈ [savedBench, { savedBench with saved := [{ aSaved with placed := true }] }], r.platform.powered = true ∧ r.platform.fatal = false ∧
      Memory.wf r.mem = true ∧ r.journalRoom = true ∧ (r.power 0).state ≠ 2 ∧ r.platform.streetLog = 0 ∧ r.gridStopped aSaved.gridId = true ∧
      ∃ u ∈ r.saved.find? (fun u => u.unit == 7), u.committed = false ∧ u.image % 4096 = 0 ∧ u.savedIn = 0 ∧ u.blocks ≠ [] ∧
        r.streetRoom 7 (r.newNames u) = true ∧ r.imagePoisoned u = false ∧ (∀ i < 8, r.Writable (r.physKey (u.image + i))) ∧
        ∀ b ∈ u.blocks, r.block? b.bid = none ∧ b.core = 0 ∧ b.threads.map (·.status) = [.runnable] ∧ r.physNat (u.partAt b + u.lay.thr + 0x16D) 1 = 0) :=
  ⟨ready_thread rfl (by decide +kernel), trapsOn_thread (by decide +kernel), by decide +kernel⟩

/-- A way to the image that a selvedge cuts; a unit of no record. -/
theorem witness_ContextImages_cut :
    let p : Partition := { num := 1, domains := [0], contexts := [0], links := [0], topology := 0, shape := [], routes := [], down := false, headerErrors := 0 }
    let s := { savedBench with partitions := [p], saved := [{ aSaved with image := 2 ^ 45 }] }
    s.unitCut 0 (2 ^ 45) = true ∧ s.unitCut 0 (bench.fetchTables + 0x100000) = false ∧ (∃ u ∈ s.saved.find? (fun u => u.unit == 7), s.unitCut u.savedIn u.image = true) ∧
    (∀ v ∈ bench.saved, v.unit ≠ (bench.unitAt 0x110000).1.unit) := by decide +kernel

/-- Where an image lies, and the first bytes of one: COMMIT of one block at STATE 1, BOFF 4096, CHK `c`, SELF. -/
def imgAt : Nat := 0x110000
def imgHeader (c : Word) : Nat := 0x01010101 + 4096 * 2 ^ 96 + c.toNat * 2 ^ 352 + imgAt * 2 ^ 448

/-- That image in storage, with the record of the unit saved to it, or without. -/
def keeping (s : State) (saved : List SavedUnit) : State := { s with saved := saved }
def imgBench (saved : List SavedUnit) (c : Word) : State := (keeping bench saved).writePhys imgAt (leBytes 256 (imgHeader c))

theorem keeping_mem (s : State) (saved : List SavedUnit) : (keeping s saved).mem = s.mem := rfl
theorem keeping_physKey (s : State) (saved : List SavedUnit) (pa : Nat) : (keeping s saved).physKey pa = s.physKey pa := rfl

theorem imgBench_head (saved : List SavedUnit) (c : Word) : (imgBench saved c).imageHead imgAt = imgHeader c := by
  have hm : Memory.wf bench.mem = true := by decide +kernel
  have hk : ∀ i < 256, bench.physKey (imgAt + i) = imgAt + i := by decide +kernel
  have h := State.readPhys_writePhys (s := keeping bench saved) (by rw [keeping_mem, hm]) imgAt (leBytes 256 (imgHeader c)) (by
    simp only [leBytes_length, keeping_physKey]
    rw [List.map_congr_left fun i hi => hk i (List.mem_range.mp hi)]
    exact List.nodup_range.map fun i j => by simp)
  rw [leBytes_length] at h
  rw [State.imageHead, State.physNat, imgBench, h, leNat_leBytes]
  refine Nat.mod_eq_of_lt ?_
  have := c.isLt
  simp only [imgHeader, imgAt]
  omega

theorem imgBench_eng (saved : List SavedUnit) (c : Word) : (imgBench saved c).engSections imgAt = [] := by
  have := c.isLt
  have h : bitsOf (imgHeader c) 320 32 = 0 := by simp only [imgHeader, bitsOf, imgAt]; omega
  simp [State.engSections, imgBench_head, ImageLayout.ofHeader, h, State.readPhys, memRead]

theorem unitAt_of {s : State} {u : SavedUnit} {pa : Nat} (h : s.images ++ s.saved = [u]) (hp : u.image = pa) (hc : u.committed = true)
    (he : u.eng = s.engSections pa) : (s.unitAt pa).1 = u := by
  simp [State.unitAt, h, hp, hc, he]

/-- An image of one block whose CHK is the check of its sections is valid, and its unit is the one recorded. -/
theorem witness_ContextImages_loaded :
    let u : SavedUnit := { aSaved with image := imgAt, committed := true }
    let c := Config.engCheck []
    let s := imgBench [u] c
    s.imageValid imgAt = true ∧ (s.unitAt imgAt).1 = u ∧
    headBlocks (s.imageHead imgAt) = 1 ∧ bench.imageRange 0 imgAt 4096 = true ∧ u.qsize ≤ bench.largestCluster ∧ bench.imageStored 0 u = true ∧
    bench.imageStored 0 { u with blocks := [] } = false ∧ bench.grid? u.gridId = none := by
  intro u c s
  have hc := c.isLt
  have hs : s.saved = [u] := rfl
  refine ⟨?_, ?_, ?_, by decide +kernel⟩
  · have h : bitsOf (imgHeader c) 0 8 = 1 ∧ bitsOf (imgHeader c) 8 8 = 1 ∧ bitsOf (imgHeader c) 16 8 = 1 ∧ bitsOf (imgHeader c) 448 64 = imgAt ∧
        bitsOf (imgHeader c) 352 32 = c.toNat := by
      simp only [imgHeader, bitsOf, imgAt]
      omega
    simp only [State.imageValid, s, imgBench_head, imgBench_eng, h]
    exact show (_ && List.all [u] _) = true by simp [u, aSaved, c]
  · have he : s.engSections imgAt = [] := imgBench_eng _ _
    have hi : s.images = [] := rfl
    exact unitAt_of (by rw [hs, hi]; rfl) rfl rfl (he.trans rfl).symm
  · have hh : s.imageHead imgAt = imgHeader c := imgBench_head _ _
    rw [hh]
    simp only [headBlocks, bitsOf, imgHeader, imgAt]
    omega

/-- A partition of one domain, for context 0, over link 0. -/
def aPartition : Partition := { num := 1, domains := [0], contexts := [0], links := [0], topology := 0, shape := [], routes := [(1, [0])], down := false, headerErrors := 0 }

theorem witness_FabricPartitionsAndErrors :
    let s := { pairOfUnits with partitions := [aPartition] }
    let e := { State.reset with partitions := [aPartition] }
    let f := { bench with fabric := [⟨1, true, 2, true, [1, 5], none⟩, ⟨4, true, 5, true, [4], none⟩, ⟨5, true, 6, false, [], some 9⟩] }
    let r := { bench with accs := [{ storeAcc with loc := .phys (1023 * 2 ^ 52), home := .outside }], windows := [(0, { rva := 0x2000, rkey := 2, qpn := 1, size := 4096, wr := true, rd := true, valid := true })] }
    let remote := { e with accs := [{ storeAcc with loc := .phys (2 * 2 ^ 52) }] }
    wiringOk 0 [] [0] [(1, [0])] = true ∧ wiringOk 3 [] [] [] = false ∧ s.partitions.find? (fun p => p.num == 1) = some aPartition ∧
    s.contextsBusy [0] = true ∧ e.contextsBusy [0] = false ∧ e.partitions.find? (fun p => p.num == 2) = none ∧ isRectangle [0, 1] = true ∧
    isRectangle [0, 8] = false ∧ s.coreNamed 0 = true ∧ s.coreNamed 65535 = false ∧ s.retired 0 = false ∧
    ((f.fabricQueue 1).incoming = [1, 5] ∧ (f.fabricQueue 1).waitsOn ≠ 1 ∧ (f.fabricQueue 2).incoming = [] ∧ (f.fabricQueue 2).reserve = none ∧
      (f.fabricQueue 4).incoming = [4] ∧ (f.fabricQueue (f.fabricQueue 4).waitsOn).reserve ≠ none) ∧
    (∃ a ∈ r.access? 7, a.loc = .phys (1023 * 2 ^ 52) ∧ a.work = .store [5, 0, 0, 0] ∧ r.mayPerform a = true ∧ r.seenStores (r.bidOf a.agent) = [] ∧
      a.home ≠ .outsideMmio ∧ r.mmioAt a.loc = none ∧ (∀ i < 4, r.Writable (r.physKey (1023 * 2 ^ 52 + i))) ∧
      (r.windows.find? fun w => w.1 == 1023 * 2 ^ 52 / 2 ^ 48 % 16).isSome = true) ∧ Memory.wf r.mem = true ∧
    (∃ a ∈ remote.access? 7, a.wafer < 640 ∧ a.wafer ≠ remote.wafer.id ∧ remote.routeTo (remote.accessCtx a).toNat a.wafer = []) := by decide +kernel

/-- An access to another wafer when the domain's partition is down; an access of another context; a machine that a fatal error stops. -/
theorem witness_FabricPartitionsAndErrors_lost :
    let s := { bench with partitions := [{ aPartition with down := true }], accs := [{ storeAcc with loc := .phys (2 * 2 ^ 52) }] }
    let o := { bench with partitions := [{ aPartition with contexts := [1] }], accs := [storeAcc] }
    (∃ a ∈ s.accs, (s.accessCtx a).toNat ∈ aPartition.contexts ∧ s.cutOff a.core a.loc = true) ∧
    (∃ a ∈ o.accs, (o.accessCtx a).toNat ∉ [1] ∧ ∀ y ∈ o.accs, y.id = a.id → y = a) ∧ bench.platform.powered = true ∧ bench.platform.fatal = false ∧
    bench.coreNamed 0 = true ∧ bench.retired 0 = false ∧ bench.wafer.tableAt % 64 = 0 ∧ Memory.wf bench.mem = true := by decide +kernel

/-- Each count at its threshold and each step of a change of setting; a sensor at the trip temperature; a dump that is due. -/
theorem witness_PowerControl :
    let at_ := fun (f : PowerState → PowerState) => { State.reset with powers := [(0, f PowerState.zero)] }
    let m := fun (f : Platform → Platform) => { State.reset with platform := f Platform.zero }
    100 ≤ ((at_ fun p => { p with overN := 100 }).power 0).overN ∧ (State.reset.power 0).overN < 100 ∧
    (10000 ≤ ((at_ fun p => { p with underN := 10000, sc := 1 }).power 0).underN ∧ 0 < ((at_ fun p => { p with underN := 10000, sc := 1 }).power 0).sc) ∧
    1000 ≤ ((at_ fun p => { p with hotN := 1000 }).power 0).hotN ∧ 10000 ≤ ((at_ fun p => { p with coolN := 10000, st := 1 }).power 0).coolN ∧
    ((at_ fun p => { p with freq := .relocking }).power 0).freq = .relocking ∧ ((at_ fun p => { p with freq := .stopping }).power 0).freq = .stopping ∧
    ((at_ fun p => { p with freq := .released }).power 0).freq = .released ∧ (State.reset.power 0).freq = .idle ∧ State.reset.accs = [] ∧
    (32 ≤ ((at_ fun p => { p with grantN := 32 }).power 0).grantN ∧ ((at_ fun p => { p with grantN := 32 }).power 0).icur ≤ ((State.reset.power 0).ilim : Int)) ∧
    20 ≤ (m fun p => { p with over36 := 20 }).platform.over36 ∧ 1000 ≤ (m fun p => { p with below34 := 1000, rationed := true }).platform.below34 ∧
    ((at_ fun p => { p with temps := [0, 0, 460, 0, 0, 0] }).power 0).tooHot 2 = true ∧ (State.reset.power 0).tooHot 2 = false ∧
    50 ≤ (m fun p => { p with over40 := 50 }).platform.over40 ∧ (m fun p => { p with dumpDue := some [1] }).platform.dumpDue ≠ none ∧
    State.reset.platform.powered = true ∧ State.reset.platform.recovery = false ∧ (m fun p => { p with areaAt := 4096 }).platform.areaAt ≠ 0 := by
  decide +kernel

/-- Requests that a change of setting waits for, and none; a sample that ends an emergency and one that finds a stuck sensor; a record that
a new grant limit changes; the area set, with and without an MLOG address. -/
theorem witness_PowerControl_steps :
    let at_ := fun (f : PowerState → PowerState) => { State.reset with powers := [(0, f PowerState.zero)] }
    let owed := { at_ (fun p => { p with freq := .stopping, freqMark := 9 }) with accs := [{ storeAcc with loc := .phys (2 ^ 45) }] }
    let calm := at_ fun p => { p with freq := .stopping, freqMark := 9 }
    let last := (at_ fun p => { p with state := 2, asked := true, belowN := 99999 }).power 0
    let stuck := (at_ fun p => { p with stuckN := List.replicate 10 65535, moved := List.replicate 10 true, temps := List.replicate 6 200 }).power 0
    (∃ a ∈ owed.accs, a.core / 512 = 0 ∧ a.id < (owed.power 0).freqMark ∧ a.loc.outside owed.wafer.id 0 = true) ∧ owed.requestOwed 0 9 = true ∧
    calm.accs = [] ∧ calm.xinvs = [] ∧ calm.channels = [] ∧ calm.requestOwed 0 9 = false ∧
    (last.asked = true ∧ 99999 ≤ last.belowN ∧ tempOf (List.replicate 6 200) [] < 4 * (last.tthr : Int)) ∧
    (65535 ≤ stuck.stuckN.getD 0 0 ∧ stuck.moved.getD 0 false = true ∧ stuck.temps.getD 0 0 = 200) ∧
    grantCode 16 ≠ grantCode 12 ∧ grantCode 4 = 3 ∧ 4096 % 4096 = 0 ∧ State.reset.platform.measDue = [] ∧
    (at_ fun p => { p with sc := 1 }).recordRo 0 ≠ (at_ fun p => { p with fset := 3 }).recordRo 0 ∧ 10 ≤ 20 := by decide +kernel

/-- Addresses that Umavo may choose, and some it may not; a key with its minimum SVN. -/
theorem witness_BootResetEnrollAttest :
    (0 % 4096 = 0 ∧ 10 ≤ 20) ∧ ¬ (1 % 4096 = 0) ∧ State.reset.platform.flash = [] ∧ State.reset.MemOk ∧ State.reset.platform.powered = true ∧
    State.reset.platform.fatal = false ∧ { Platform.zero with fatal := true }.fatal = true ∧ (List.replicate 48 (0 : Byte)).length = 48 ∧
    (2 ^ 16 - 1 < 2 ^ 16) ∧ ¬ ((State.reset.platform.enrolled.filter fun e => e.1 == 0).length ≥ 16) :=
  ⟨by decide, by decide, rfl, State.reset_memOk, rfl, rfl, rfl, by decide +kernel⟩

/-- A bin filed at cycle 0 of a resident block's thread, at cycle 63 and at cycle 64, with pressure and a braid that has issued. -/
def binBench (now : Nat) : State :=
  let s := bench.updDom 0 fun d => { d with cycles := now }
  s.updCore 0 fun c => { c with
    bins := [{ bid := 0, pc := fetchVa, threads := [(0, 0)], aged := false }], pressure := some 0,
    pipes := c.pipes.map fun p => { p with braids := p.braids.map fun b => { b with count := 4 } } }

theorem witness_BinsAndBraids :
    let s := binBench 64
    let fresh := fun s : State => ((s.core 0).bins.filter fun b => b.isAged (s.dom 0).cycles && !b.aged).length
    fresh (binBench 63) = 0 ∧ fresh s ≠ 0 ∧ s.drawChoice 0 = some 0 ∧ (binBench 63).drawChoice 0 = none ∧
    (∃ p ∈ (s.core 0).pipes.toList[0]?, p.braids.length < 32 ∧ p.drawn ≠ (s.dom 0).cycles + 1) ∧ (s.core 0).pressure.isSome = true ∧
    (∃ b ∈ (s.core 0).bins, b.oldest + 64 ≤ (s.dom 0).cycles) ∧ (∃ p ∈ (s.core 0).pipes.toList, ∃ r ∈ p.braids, 4 ≤ r.count ∧ r.members ≠ []) := by
  decide +kernel

/-- A pipe beside it may draw as well, unless it has drawn in this cycle. -/
theorem witness_BinsAndBraids_alone :
    let s := (binBench 64).updCore 0 fun c => { c with pipes := (Vector.range 4).map fun i => { (c.pipes.toList.getD i ⟨[], 0, 0, none⟩) with drawn := if i = 0 then 0 else 65 } }
    s.mayDraw 0 0 = true ∧ (∀ q < 4, q ≠ 0 → s.mayDraw 0 q = false) := by decide +kernel

/-- The word BRA +2 in place after reset; a bobbin's word; an event due; a turn of no braid. -/
theorem witness_StepRunsDecoded :
    let w := fun x : Nat => State.reset.withFetchWord 32 x
    let s0 := { w 0x50000010 with agenda := [] }
    let f := (s0.startIssue 0 0 0 [.thread 0 0]).fetchAll [.thread 0 0]
    let s3 := ({ f.2 with issue := { f.2.issue with word := 0x50000010 } } : State).among [.thread 0 0]
    (w 0x50000010).agenda = [.issue 0 0 0] ∧ s0.pipeFree 0 0 = true ∧ s0.inTurn 0 0 = true ∧ s0.clocked 0 = true ∧
    (∃ br ∈ s0.braidAt 0 0 0, s0.issuers br (s0.now 0) = [.thread 0 0]) ∧ s0.braidAt 0 0 1 = none ∧ f.1 = [(.thread 0 0, 0x50000010)] ∧
    decodeWord 0x50000010 = .ok (.bra 2 0) ∧ s3.breakpoint (.thread 0 0) = none ∧
    acted s3 (after (.bra 2 0) s3) (.thread 0 0) = true ∧
    ((w 0xC0020000).agenda = [.bobbin 0 0] ∧ { w 0xC0020000 with agenda := [] }.bobbinReady 0 0 = true ∧
      { w 0xC0020000 with agenda := [] }.inTurn 0 4 = true ∧ ({ w 0xC0020000 with agenda := [] }.bobbin 0 0).stopCause = none) ∧
    (Instr.moduleRationStart).isEvent = true ∧ s0.braidAt 0 3 0 = none ∧ (∃ p ∈ (s0.core 0).pipes.toList[3]?, p.held = none) := by decide +kernel

/-- A lane word, with all the grants of its cycle and with none; a uniform word of two threads in expanded mode; a word held. -/
theorem witness_StepRunsDecoded_grants :
    let s0 := { State.reset.withFetchWord 32 0x24083028 with agenda := [] }
    let f := (s0.startIssue 0 0 0 [.thread 0 0]).fetchAll [.thread 0 0]
    let s3 := ({ f.2 with issue := { f.2.issue with word := 0x24083028 } } : State).among [.thread 0 0]
    let s4 := s3.clearSkip.countWord 0x24083028
    let need := s4.granted (after (.vaddiI32 2 3 5 0) s4)
    let spent := s4.updCore 0 fun c => { c with grantCycle := s4.issue.cycle, grantsUsed := 16 }
    f.1 = [(.thread 0 0, 0x24083028)] ∧ 0 < need ∧ need ≤ (s4.dom 0).grantNow - (s4.core 0).used s4.issue.cycle ∧
    (spent.dom 0).grantNow - (spent.core 0).used spent.issue.cycle < need ∧ acted s3 (after (.vaddiI32 2 3 5 0) s3) (.thread 0 0) = true := by decide +kernel

theorem witness_StepRunsDecoded_expanded :
    let x := State.reset.withFetchWord 32 0x80000000
    let two := x.updBlock 0 fun b => { b with threads := b.threads ++ b.threads }
    let s0 := { two.updCore 0 fun c => { c with pipes := c.pipes.map fun p => { p with
      braids := p.braids.map fun b => { b with members := [(0, 0), (1, 1)], expanded := true } } } with agenda := [] }
    let ags := [Agent.thread 0 0, .thread 0 1]
    let held := s0.updCore 0 fun c => { c with pipes := c.pipes.map fun p => { p with
      held := some { agents := [.thread 0 1], word := 0x80000000, need := 0, cycle := 0, next := 1, went := [.thread 0 0] } } }
    (∃ br ∈ s0.braidAt 0 0 0, s0.issuers br (s0.now 0) = ags ∧ br.mode s0 = true) ∧
    (∀ a ∈ ags, ((s0.startIssue 0 0 0 ags).fetchAll [a]).1 = [(a, 0x80000000)]) ∧
    (∃ p ∈ (held.core 0).pipes.toList[0]?, ∃ h ∈ p.held, h.agents.filter (held.stillHeld 0) ≠ [] ∧ held.now 0 < h.next) := by decide +kernel

theorem witness_DecodeEncode : (Instr.vaddI32 63 0 1 7).wf = true ∧ (Instr.mdrainW48 0 0 0 0 0 0).wf = true ∧
    decodeWord 0x24083028 = .ok (.vaddiI32 2 3 5 0) := by decide +kernel

theorem witness_MemoryStaysCanonical : State.reset.MemOk ∧ step State.reset = .next (match step State.reset with
    | .next t => t
    | _ => State.reset) := ⟨State.reset_memOk, rfl⟩

/-! ## Single steps: the spec's worked examples, and corners by hand -/

def th : Agent := .thread 0 0

/-- v0, v1 and v2 of the thread. -/
def laneBench (x y z : VReg) : State :=
  bench.updThread 0 0 fun t => { t with v := vecUpd (vecUpd (vecUpd t.v 0 fun _ => x) 1 fun _ => y) 2 fun _ => z }

def laneResult (i : Instr) (x y z : VReg) (d : BitVec 6) : VReg := (after i (laneBench x y z)).readReg th (.v d)

/-- The name of logical core 17 of cluster 1 of domain 40 is 0x5111 (R18's example). -/
theorem test_core_name : domOf 0x5111 = 40 ∧ clusterOf 0x5111 = 1 ∧ indexOf 0x5111 = 17 := by decide +kernel

theorem test_vadd_wraps : laneResult (.vaddI32 9 0 1 0) ⟨0xFFFFFFFF, .i32⟩ ⟨2, .i32⟩ ⟨0, .raw⟩ 9 = ⟨1, .i32⟩ ∧
    laneResult (.vaddI32Sat 9 0 1 0) ⟨0x7FFFFFFF, .i32⟩ ⟨2, .i32⟩ ⟨0, .raw⟩ 9 = ⟨0x7FFFFFFF, .i32⟩ := by decide +kernel

theorem test_vsub_order : laneResult (.vsubI32 9 0 1 0) ⟨3, .i32⟩ ⟨5, .i32⟩ ⟨0, .raw⟩ 9 = ⟨0xFFFFFFFE, .i32⟩ ∧
    laneResult (.vsubN32Sat 9 0 1 0) ⟨3, .n32⟩ ⟨5, .n32⟩ ⟨0, .raw⟩ 9 = ⟨0, .n32⟩ := by decide +kernel

theorem test_shift_past_width : laneResult (.vshrI32 9 0 1 0) ⟨0x80000000, .i32⟩ ⟨40, .n32⟩ ⟨0, .raw⟩ 9 = ⟨0xFFFFFFFF, .i32⟩ ∧
    laneResult (.vshlB32 9 0 1 0) ⟨0x80000001, .i32⟩ ⟨32, .n32⟩ ⟨0, .raw⟩ 9 = ⟨0, .raw⟩ := by decide +kernel

/-- The rows of the example of R125. -/
theorem test_float_example : (laneResult (.faddF16 9 0 1 0) ⟨0x7BFF, .f16x2⟩ ⟨0x3C00, .f16x2⟩ ⟨0, .raw⟩ 9).val = 0x7BFF ∧
    (laneResult (.faddF16 9 0 1 0) ⟨0x7BFF, .f16x2⟩ ⟨0x4C00, .f16x2⟩ ⟨0, .raw⟩ 9).val = 0x7C00 ∧
    laneResult (.fmulF32 9 0 1 0) ⟨0x80000000, .f32⟩ ⟨0x3F800000, .f32⟩ ⟨0, .raw⟩ 9 = ⟨0x80000000, .f32⟩ ∧
    (after (.ffmaF32 2 0 1 0 0) (laneBench ⟨0x80000000, .f32⟩ ⟨0x3F800000, .f32⟩ ⟨0, .f32⟩)).readReg th (.v 2) = ⟨0, .f32⟩ := by decide +kernel

/-- R126: −0 is below +0 in either order; a NaN loses against a number. -/
theorem test_fmin_zero : (laneResult (.fminF32 9 0 1 0) ⟨0, .f32⟩ ⟨0x80000000, .f32⟩ ⟨0, .raw⟩ 9).val = 0x80000000 ∧
    (laneResult (.fmaxF32 9 0 1 0) ⟨0x80000000, .f32⟩ ⟨0, .f32⟩ ⟨0, .raw⟩ 9).val = 0 ∧
    (laneResult (.fminF32 9 0 1 0) ⟨0x7FC00001, .f32⟩ ⟨0x40000000, .f32⟩ ⟨0, .raw⟩ 9).val = 0x40000000 := by decide +kernel

/-- 2.5 and −1.5 to an integer: ties to even, toward zero, down (R65, R131). -/
theorem test_convert : (laneResult (.cvtI32Rn 9 0 0 0) ⟨0x40200000, .f32⟩ ⟨0, .raw⟩ ⟨0, .raw⟩ 9).val = 2 ∧
    (laneResult (.cvtI32Rz 9 0 0 0) ⟨0xBFC00000, .f32⟩ ⟨0, .raw⟩ ⟨0, .raw⟩ 9).val = 0xFFFFFFFF ∧
    (laneResult (.cvtI32Rd 9 0 0 0) ⟨0xBFC00000, .f32⟩ ⟨0, .raw⟩ ⟨0, .raw⟩ 9).val = 0xFFFFFFFE := by decide +kernel

/-- 300.0, 460.0, 470.0 and −2^−10 under the reading FIN (R134's example). -/
theorem test_npack_example :
    let s := bench.updThread 0 0 fun t => { t with v := vecUpd (vecUpd (vecUpd (vecUpd t.v 12 fun _ => ⟨0x43960000, .f32⟩) 13 fun _ =>
      ⟨0x43E60000, .f32⟩) 14 fun _ => ⟨0x43EB0000, .f32⟩) 15 fun _ => ⟨0xBA800000, .f32⟩ }
    (after (.npackF8e4 9 12 0) s).readReg th (.v 9) = ⟨0x807F7E79, .f8e4⟩ := by decide +kernel

/-- The same codes under the reading NAN: 288.0, 448.0, 448.0 and −0.0. -/
theorem test_nunpack_example :
    let s := (benchV ⟨0x807E7E79, .f8e4⟩).updCtx (fun c => { c with tstate := c.tstate ||| 0x10 }) th
    let t := after (.nunpackF8e4 16 9 0) s
    (t.readReg th (.v 16)).val = 0x43900000 ∧ (t.readReg th (.v 17)).val = 0x43E00000 ∧ (t.readReg th (.v 18)).val = 0x43E00000 ∧
    t.readReg th (.v 19) = ⟨0x80000000, .f32⟩ := by decide +kernel

/-- One member may set its flag alone; the ballot has it at its position (R152). -/
theorem test_ballot : ((after (.voteBallot 9 0 0) (pairBench 1)).readReg (.thread 0 0) (.v 9)).val = 2 ∧
    ((after (.elect 3 0) (pairBench 1)).readReg (.thread 0 1) (.k 3)).val = 0 := by decide +kernel

/-- ULOOP from 4 counts to 3 and branches, from 1 to 0 and goes on (R98). -/
theorem test_uloop : let s := fun x : Word => withS bench th x
    ((after (.uloop 1 0xFFFF 0) (s 4)).readReg th (.s 1)).val = 3 ∧ ((after (.uloop 1 0xFFFF 0) (s 4)).ctx th).pc = fetchVa - 4 ∧
    ((after (.uloop 1 0xFFFF 0) (s 1)).ctx th).pc = fetchVa + 4 := by decide +kernel

/-- Step 2 of the example of R331: trap 0x21. -/
theorem test_trap_example : ∃ x ∈ (after (.trap 0x21 0) (withTraps bench)).thread? 0 0,
    x.trap.cause = 6 ∧ x.trap.pc = fetchVa ∧ x.trap.info = 0x21 ∧ inhOf x.trap.tstate = false ∧ inhOf x.ctx.tstate = true ∧ x.ctx.pc = 0x2000 := by
  decide +kernel

/-- Step 4: eret 1 after it. -/
theorem test_eret_example : ∃ x ∈ (after (.eret 1 0) (after (.trap 0x21 0) (withTraps bench))).thread? 0 0,
    x.ctx.pc = fetchVa + 4 ∧ inhOf x.ctx.tstate = false ∧ privOf x.ctx.tstate = true := by decide +kernel

/-- A user cannot: PRIVILEGE (R327). -/
theorem test_eret_user : ∃ x ∈ (after (.eret 1 0) (asUser (withTraps bench))).thread? 0 0, x.trap.cause = 2 ∧ privOf x.ctx.tstate = true := by decide +kernel

/-- Domain 40's T0 to T5 of R394's example, in quarters of a degree: T3 suspect, TEMP 77.5. -/
theorem test_temp_example : tempOf [284, 292, 290, 352, 296, 282] [3] = 310 := by decide +kernel

/-- A store is in memory when it is performed, least significant byte first, and no more outstanding (R4, R273). -/
theorem test_store_performs : let t := after (.storeGlobalPerform 7) { bench with accs := [{ storeAcc with work := .store [1, 2, 3, 4] }] }
    t.readPhys (bench.fetchTables + 0x6000) 5 = [1, 2, 3, 4, 0] ∧ t.accs = [] := by decide +kernel

/-- The striped address of the example in 13_kiosk_messages.md (R280): its line is owned by the kiosk of cluster 1 of domain 5. -/
theorem test_owning_kiosk : State.reset.owningKiosk (.phys 0xB017A0007000) = some (0, 5, 1) := by decide +kernel

/-- R132: 2^a is 2^-100·ln 2 below 1, its ulp is 2^-24, and 1 - 2^-23 is less than 2 ulp away from it. -/
theorem test_fex2_edge : fex2 0x8D800000 0x3F7FFFFE = 0x3F7FFFFE := by decide +kernel

/-- The kiosk adds (R283). -/
theorem test_kiosk_adds : let s := { bench with accs := [{ storeAcc with work := .atomic .addI32 5 0 }] }
    let t := after (.kioskRequest 7) (s.storePhys (bench.fetchTables + 0x6000) [0xFF, 0xFF, 0xFF, 0xFF])
    t.readPhys (bench.fetchTables + 0x6000) 5 = [4, 0, 0, 0, 0] := by decide +kernel

/-- The one signaller arrives: the phase completes, and its next token is of phase 1 (R256, R261). -/
theorem test_phaser_completes : let t := after (.pharr 12 0 0 0 0) (phBench onePhaser)
    (t.phaser 0 0).phase = 1 ∧ (t.phaser 0 0).narr = 0 ∧ (t.ctx th).pend.map (·.work) = [.value [⟨1, .raw⟩]] := by decide +kernel

/-- MZPC of the signed 2-bit product: 128 m becomes 128 (2 − m) in row 0 (R224). -/
theorem test_mzpc_example :
    let c := { Command.blank .mzpc with id := 9, tag := .i32, ctl := #v[2, 2, 0, 0] }
    let row := fun f : Nat → Word => (List.range 32).flatMap fun _ => (List.range 32).map fun j => f (j % 4)
    let s := (matBench c).updTile 0 0 fun x => { x with cur := { x.cur with
      elems := (row fun m => BitVec.ofNat 32 (128 * m)).map (·.setWidth _), rs := List.replicate 32 128, cs := (List.range 32).map fun j => BitVec.ofNat _ (128 * (j % 4)), kd := 128 } }
    (((after (.matrixCommandStart 0 0 9 1) s).tile 0 0).cur.elems.take 4).map (·.toNat) = [256, 128, 0, 0xFFFFFF80] := by decide +kernel

/-- A bobbin whose copy has no bytes stops there, with cause COPY_INVALID: the step that fetches the word does it (R189, R194). -/
theorem test_bobbin_traps : let t := orStay State.reset (step (State.reset.withFetchWord 32 0xB4024000))
    (t.bobbin 0 0).cause = 0x28 ∧ (t.bobbin 0 0).status = .finishing := by decide +kernel

/-- A block that is in no quarter has rank 0xFFFFFFFF and size 0 (R95). -/
theorem test_no_quarter : ((after (.usr 1 4 0) bench).readReg th (.s 1)).val = 0xFFFFFFFF ∧ ((after (.usr 1 5 0) bench).readReg th (.s 1)).val = 0 := by
  decide +kernel

end Sys2Proof.Tests
end

section
/-! The laws of memory as a map of bytes: where the bytes of an aligned access are stored, and what a store of software changes
(R4, R5, R164). -/

namespace Sys2Proof.Machine

/-! ## Two canonical lists that read alike -/

theorem memGet_head {b : Nat} {x : Byte} {rest : List Host.Cell} : memGet ((b, x) :: rest) b = x := by simp [memGet]

/-- A canonical list is determined by what it reads. -/
theorem memSorted_ext {m m' : List Host.Cell} {lo lo' : Nat} (h : memSorted lo m = true) (h' : memSorted lo' m' = true)
    (heq : ∀ a, memGet m a = memGet m' a) : m = m' := by
  induction m generalizing m' lo lo' with
  | nil =>
    cases m' with
    | nil => rfl
    | cons c rest =>
      simp only [memSorted, Bool.and_eq_true, decide_eq_true_eq, bne_iff_ne] at h'
      exact absurd ((heq c.1).trans memGet_head).symm h'.1.2
  | cons c rest ih =>
    obtain ⟨b, x⟩ := c
    simp only [memSorted, Bool.and_eq_true, decide_eq_true_eq, bne_iff_ne] at h
    obtain ⟨⟨-, hx⟩, hr⟩ := h
    cases m' with
    | nil => exact absurd (memGet_head.symm.trans (heq b)) hx
    | cons c' rest' =>
      obtain ⟨b', x'⟩ := c'
      simp only [memSorted, Bool.and_eq_true, decide_eq_true_eq, bne_iff_ne] at h'
      obtain ⟨⟨-, hx'⟩, hr'⟩ := h'
      have hb := heq b
      have hb' := heq b'
      have hbb : b = b' := by
        rcases Nat.lt_trichotomy b b' with hlt | he | hlt
        · exact absurd (by simpa [memGet, hlt, hlt.ne'] using hb) hx
        · exact he
        · exact absurd (by simpa [memGet, hlt, hlt.ne'] using hb'.symm) hx'
      subst hbb
      have hxx : x = x' := by simpa [memGet] using hb
      subst hxx
      rw [ih hr hr' fun a => ?_]
      by_cases ha : a ≤ b
      · rw [memGet_below hr (Nat.lt_succ_of_le ha), memGet_below hr' (Nat.lt_succ_of_le ha)]
      · have h1 : b ≠ a := by omega
        have h2 : ¬ a < b := by omega
        simpa [memGet, h1, h2] using heq a

/-! ## The bytes of one aligned granule

`a % 8 + i < 8` says that the byte `a + i` lies in the 8-byte granule of the byte `a`. -/

section Granule
variable {a i : Nat} (h : a % 8 + i < 8)
include h

theorem div_granule {k : Nat} (hk : 3 ≤ k) : (a + i) / 2 ^ k = a / 2 ^ k := by
  obtain ⟨j, rfl⟩ := Nat.exists_eq_add_of_le hk
  rw [Nat.pow_add, ← Nat.div_div_eq_div_mul, ← Nat.div_div_eq_div_mul, show (a + i) / 2 ^ 3 = a / 2 ^ 3 by omega]

theorem mod_granule {k : Nat} (hk : 3 ≤ k) : (a + i) % 2 ^ k = a % 2 ^ k + i := by
  have h1 := Nat.div_add_mod (a + i) (2 ^ k)
  have h2 := Nat.div_add_mod a (2 ^ k)
  rw [div_granule h hk] at h1
  omega

theorem granule_mod {k : Nat} (hk : 3 ≤ k) : a % 2 ^ k % 8 + i < 8 := by
  rwa [Nat.mod_mod_of_dvd a (show 8 ∣ 2 ^ k from Nat.pow_dvd_pow 2 hk)]

theorem lt_granule {n : Nat} (hn : 8 ∣ n) : a + i < n ↔ a < n := by omega

theorem bitsOf_granule {lo : Nat} (hlo : 3 ≤ lo) (len : Nat) : bitsOf (a + i) lo len = bitsOf a lo len := by
  rw [bitsOf, div_granule h hlo, bitsOf]

theorem bitOf_granule {b : Nat} (hb : 3 ≤ b) : bitOf (a + i) b = bitOf a b := by
  rw [bitOf, div_granule h hb, bitOf]

end Granule

theorem sliceOf_granule {low i : Nat} (h : low % 8 + i < 8) :
    sliceOf (low + i) = (sliceOf low).map fun p => (p.1, p.2 + i) := by
  have ho := granule_mod h (k := 44) (by decide)
  simp only [sliceOf, bitOf_granule h (b := 44) (by decide), bitsOf_granule h (lo := 35) (by decide),
    bitsOf_granule h (lo := 28) (by decide), mod_granule h (k := 44) (by decide), mod_granule h (k := 28) (by decide)]
  generalize low % 2 ^ 44 = o at ho ⊢
  have hd : (o + i) / 4096 = o / 4096 := div_granule ho (k := 12) (by decide)
  have hm : (o + i) % 4096 = o % 4096 + i := mod_granule ho (k := 12) (by decide)
  have hc : o + i ≥ 0x1800000000 ↔ o ≥ 0x1800000000 := by omega
  simp only [hd, hm, hc]
  split
  · split <;> simp [Nat.add_assoc]
  · split <;> simp

theorem sliceOf_granule_off {low slice off : Nat} (h : sliceOf low = some (slice, off)) : off % 8 = low % 8 := by
  unfold sliceOf at h
  dsimp only at h
  split at h <;> split at h <;> cases h <;> omega

theorem dramKeyIn_granule {wid d low i : Nat} {usable : Nat → Nat} (hu : ∀ k, 8 ∣ usable k) (h : low % 8 + i < 8) :
    dramKeyIn wid usable d (low + i) = (dramKeyIn wid usable d low).map (· + i) := by
  simp only [dramKeyIn, sliceOf_granule h]
  cases hs : sliceOf low with
  | none => rfl
  | some p =>
    have ho : p.2 % 8 + i < 8 := by rwa [sliceOf_granule_off hs]
    simp only [Option.map_some, lt_granule ho (hu p.1), sliceDirect]
    split <;> simp [Nat.add_assoc]

/-- The place `i` bytes further on. -/
def Place.plus (i : Nat) : Place → Place
  | .dram k => .dram (k + i)
  | .domScratch k => .domScratch (k + i)
  | .mmio d off => .mmio d (off + i)
  | .window k => .window (k + i)
  | .remote k => .remote (k + i)
  | .remoteMmio k => .remoteMmio (k + i)

theorem Place.key_plus (p : Place) (i : Nat) : (p.plus i).key = p.key + i := by
  cases p <;> simp only [Place.plus, Place.key, Nat.add_assoc]

/-! ## Where the bytes of a granule are stored -/

theorem State.sliceBytes_dvd (s : State) (d slice : Nat) : 8 ∣ s.sliceBytes d slice :=
  Nat.dvd_mul_left_of_dvd (by decide) _

theorem remoteSlice_dvd (wid d slice : Nat) : 8 ∣ remoteSlice wid d slice := Nat.dvd_mul_left_of_dvd (by decide) _

theorem remoteScratch_dvd (wid d : Nat) : 8 ∣ remoteScratch wid d := Nat.dvd_mul_left_of_dvd (by decide) _

theorem State.domScratchBytes_dvd (s : State) (d : Nat) : 8 ∣ s.domScratchBytes d := Nat.dvd_mul_left_of_dvd (by decide) _

theorem State.place_granule (s : State) (c : Nat) (rd wr : Bool) {pa i : Nat} (h : pa % 8 + i < 8) :
    s.place c rd wr (pa + i) = (s.place c rd wr pa).map (Place.plus i) := by
  have ha := granule_mod h (k := 52) (by decide)
  simp only [State.place, div_granule h (k := 52) (by decide), mod_granule h (k := 52) (by decide)]
  generalize pa % 2 ^ 52 = a at ha ⊢
  simp only [div_granule ha (k := 45) (by decide), bitsOf_granule ha (lo := 48) (by decide), bitsOf_granule ha (lo := 38) (by decide),
    bitOf_granule ha (b := 37) (by decide), mod_granule ha (k := 48) (by decide), mod_granule ha (k := 37) (by decide),
    mod_granule ha (k := 45) (by decide), lt_granule (granule_mod ha (k := 37) (by decide)) (s.domScratchBytes_dvd _),
    lt_granule (granule_mod ha (k := 37) (by decide)) (remoteScratch_dvd _ _),
    lt_granule (granule_mod ha (k := 48) (by decide)) (Nat.dvd_mul_left_of_dvd (by decide : 8 ∣ 4096) _),
    State.dramKey, dramKeyIn_granule (s.sliceBytes_dvd _) (granule_mod ha (k := 45) (by decide)),
    dramKeyIn_granule (remoteSlice_dvd _ _) (granule_mod ha (k := 45) (by decide))]
  repeat' split
  all_goals simp [Place.plus, Function.comp_def]

theorem remoteKey_granule {pa i : Nat} (h : pa % 8 + i < 8) : remoteKey (pa + i) = remoteKey pa + i := by
  have ha := granule_mod h (k := 52) (by decide)
  simp only [remoteKey, div_granule h (k := 52) (by decide), mod_granule h (k := 52) (by decide)]
  generalize pa % 2 ^ 52 = a at ha ⊢
  simp only [div_granule ha (k := 45) (by decide), mod_granule ha (k := 45) (by decide),
    dramKeyIn_granule (remoteSlice_dvd _ _) (granule_mod ha (k := 45) (by decide))]
  split
  · cases dramKeyIn (pa / 2 ^ 52) (remoteSlice (pa / 2 ^ 52) (a / 2 ^ 45)) (a / 2 ^ 45) (a % 2 ^ 45) <;> rfl
  · rfl

/-- The bytes of a granule are stored one after another. -/
theorem State.physKey_granule (s : State) {pa i : Nat} (h : pa % 8 + i < 8) : s.physKey (pa + i) = s.physKey pa + i := by
  simp only [State.physKey, div_granule h (k := 52) (by decide), remoteKey_granule h, s.place_granule _ _ _ h]
  split
  · rfl
  · cases s.place 0 false false pa with
    | none => rfl
    | some p => exact p.key_plus i

theorem granule_of_aligned {pa n i : Nat} (hn : n ∈ [1, 2, 4, 8]) (ha : pa % n = 0) (hi : i < n) : pa % 8 + i < 8 := by
  simp only [List.mem_cons, List.not_mem_nil, or_false] at hn
  rcases hn with rfl | rfl | rfl | rfl <;> omega

/-! ## A store of software -/

/-- The cells that a store of software writes: what it only reads keeps its bytes (R5). -/
def State.storeCells (s : State) (pa : Nat) (bs : List Byte) : List Host.Cell :=
  (List.range bs.length).zip bs |>.map fun p => (s.physKey (pa + p.1), s.storedByte (s.physKey (pa + p.1)) p.2)

theorem State.noteClear_powers (s : State) (key : Nat) (x : Byte) : ∃ ps, s.noteClear key x = { s with powers := ps } := by
  unfold State.noteClear
  split
  · split
    · exact ⟨_, rfl⟩
    · exact ⟨s.powers, rfl⟩
  · exact ⟨s.powers, rfl⟩

theorem State.noteClears_powers (s : State) (cells : List Host.Cell) :
    ∃ ps, cells.foldl (fun (s : State) c => s.noteClear c.1 c.2) s = { s with powers := ps } := by
  induction cells generalizing s with
  | nil => exact ⟨s.powers, rfl⟩
  | cons c rest ih =>
    obtain ⟨ps, h⟩ := s.noteClear_powers c.1 c.2
    obtain ⟨qs, h'⟩ := ih (s.noteClear c.1 c.2)
    exact ⟨qs, by rw [List.foldl_cons, h', h]⟩

theorem State.storeRaw_mem (s : State) (pa : Nat) (bs : List Byte) : (s.storeRaw pa bs).mem = (s.writePhys pa bs).mem := by
  unfold State.storeRaw
  dsimp only
  split <;> rfl

theorem State.storeRaw_physKey (s : State) (pa : Nat) (bs : List Byte) (x : Nat) : (s.storeRaw pa bs).physKey x = s.physKey x := by
  unfold State.storeRaw
  dsimp only
  split <;> rfl

theorem State.storedByte_of_plain {s : State} (h : s.plain = true) (key : Nat) (x : Byte) : s.storedByte key x = x := by
  simp only [State.plain, Bool.and_eq_true, beq_iff_eq, List.isEmpty_iff] at h
  simp [State.storedByte, State.areaOff, h.1, h.2]

theorem State.storedByte_of_writable {s : State} {key : Nat} (h : s.Writable key) (x : Byte) : s.storedByte key x = x := by
  obtain ⟨ha, hr⟩ := h
  simp only [State.storedByte, ha]
  rw [if_neg]
  simpa using fun a b hm => by simp [hr _ hm]

theorem State.storedByte_of_readOnly {s : State} {key : Nat} (ha : s.areaOff key = none)
    (hr : ∃ r ∈ s.readOnly, s.keyIn key r.1 r.2 = true) (x : Byte) : s.storedByte key x = memGet s.mem key := by
  obtain ⟨r, hm, hk⟩ := hr
  simp only [State.storedByte, ha]
  rw [if_pos (List.any_eq_true.mpr ⟨r, hm, hk⟩)]

/-- A store of software writes its cells and moves no byte. -/
theorem State.storePhys_effect (s : State) (pa : Nat) (bs : List Byte) :
    (s.storePhys pa bs).mem = memWrite s.mem (s.storeCells pa bs) ∧ ∀ x, (s.storePhys pa bs).physKey x = s.physKey x := by
  by_cases h : s.plain = true
  · rw [State.storePhys_of_plain h]
    refine ⟨?_, s.storeRaw_physKey pa bs⟩
    simp only [State.storeRaw_mem, State.writePhys, State.storeCells, State.storedByte_of_plain h]
  · rw [State.storePhys, if_neg h]
    obtain ⟨ps, hps⟩ := s.noteClears_powers ((List.range bs.length).zip bs |>.map fun p => (s.physKey (pa + p.1), p.2))
    simp only [hps]
    refine ⟨?_, fun x => (State.storeRaw_physKey _ pa _ x).trans rfl⟩
    rw [State.storeRaw_mem]
    exact congrArg (memWrite s.mem) (List.ext_getElem (by simp [State.storeCells])
      fun i h1 h2 => by simp only [State.storeCells, List.getElem_map, List.getElem_zip, List.getElem_range]; rfl)

/-- Each byte of a store has its cell. -/
theorem State.mem_storeCells (s : State) (pa : Nat) (bs : List Byte) {i : Nat} (hi : i < bs.length) :
    (s.physKey (pa + i), s.storedByte (s.physKey (pa + i)) bs[i]) ∈ s.storeCells pa bs :=
  List.mem_map.mpr ⟨(i, bs[i]), List.mem_iff_getElem.mpr ⟨i, by simpa using hi, by simp⟩, rfl⟩

section Store
variable {s : State} {pa : Nat} {bs : List Byte} (h : s.MemOk) (hg : ∀ i, i < bs.length → pa % 8 + i < 8)
include hg

/-- The cells of a store within a granule have consecutive keys. -/
theorem State.storeCells_keys : (s.storeCells pa bs).map (·.1) = (List.range bs.length).map (s.physKey pa + ·) := by
  refine List.ext_getElem (by simp [State.storeCells]) fun i h1 h2 => ?_
  simp only [List.length_map, List.length_range] at h2
  simp [State.storeCells, s.physKey_granule (hg i h2)]

include h

/-- A byte of a store within a granule becomes what software makes of it there. -/
theorem State.memGet_storePhys {i : Nat} (hi : i < bs.length) :
    memGet (s.storePhys pa bs).mem (s.physKey (pa + i)) = s.storedByte (s.physKey (pa + i)) bs[i] := by
  rw [(s.storePhys_effect pa bs).1]
  refine memGet_memWrite_of_mem h.1 ?_ (s.mem_storeCells pa bs hi)
  rw [State.storeCells_keys hg]
  exact List.nodup_range.map (add_right_injective _)

theorem State.memGet_storePhys_of_outside {x : Nat} (hx : x < s.physKey pa ∨ s.physKey pa + bs.length ≤ x) :
    memGet (s.storePhys pa bs).mem x = memGet s.mem x := by
  rw [(s.storePhys_effect pa bs).1]
  refine memGet_memWrite_of_notMem h.1 ?_
  simp only [State.storeCells_keys hg, List.mem_map, List.mem_range, not_exists, not_and]
  omega

/-- What software stores where it may write reads back. -/
theorem State.readPhys_storePhys (hw : ∀ i, i < bs.length → s.Writable (s.physKey (pa + i))) :
    (s.storePhys pa bs).readPhys pa bs.length = bs := by
  refine List.ext_getElem (by simp [State.readPhys, memRead]) fun i h1 h2 => ?_
  simp only [State.readPhys, memRead, List.getElem_map, List.getElem_range, (s.storePhys_effect pa bs).2]
  rw [State.memGet_storePhys h hg h2, State.storedByte_of_writable (hw i h2)]

end Store

/-- Settles O27: a store of 1, 2, 4 or 8 aligned bytes lies in one granule, whose bytes are stored one after another. -/
theorem memoryLaws : Obligations.MemoryLaws := by
  refine ⟨fun m a x h => ⟨memSet_wf h a x, ?_, fun b hb => ?_⟩, fun m m' h h' heq => memSorted_ext h h' heq,
    fun s pa bs h hn ha => ?_⟩
  · rw [memGet_memSet h, if_pos rfl]
  · rw [memGet_memSet h, if_neg hb]
  · have hg : ∀ i, i < bs.length → pa % 8 + i < 8 := fun i => granule_of_aligned hn ha
    refine ⟨fun i hi => s.physKey_granule (hg i hi), State.readPhys_storePhys h hg, fun i hi harea hro => ?_, h.storePhys pa bs,
      fun x => State.memGet_storePhys_of_outside h hg⟩
    rw [State.memGet_storePhys h hg hi, State.storedByte_of_readOnly harea hro]

end Sys2Proof.Machine
end

section
/-! Decoding the word of a well-formed instruction gives the instruction back (R32 to R56). A word is its fields one above the other,
so the decoder's read of a field is the field; each row of the six tables then gives back the instruction it was encoded from. -/

namespace Sys2Proof

/-! ### Fields of a word -/

theorem extractLsb'_append_low {n m : Nat} (x : BitVec n) (y : BitVec m) {s l : Nat} (h : s + l ≤ m) :
    (x ++ y).extractLsb' s l = y.extractLsb' s l := by
  apply BitVec.eq_of_getLsbD_eq
  intro i hi
  have hlow : s + i < m := by omega
  simp [BitVec.getLsbD_append, hlow]

theorem extractLsb'_append_high {n m : Nat} (x : BitVec n) (y : BitVec m) {s l : Nat} (h : m ≤ s) :
    (x ++ y).extractLsb' s l = x.extractLsb' (s - m) l := by
  apply BitVec.eq_of_getLsbD_eq
  intro i hi
  have hhigh : ¬s + i < m := by omega
  simp [BitVec.getLsbD_append, hhigh, Nat.sub_add_comm h]

/-- The four bytes of a word, in memory order, are the word (R4, R32). -/
theorem wordOfBytes_byteOfWord (w : Word) : wordOfBytes (byteOfWord w 0) (byteOfWord w 1) (byteOfWord w 2) (byteOfWord w 3) = w := by
  apply BitVec.eq_of_getLsbD_eq
  intro i hi
  simp only [wordOfBytes, byteOfWord, BitVec.getLsbD_append, BitVec.getLsbD_extractLsb']
  split
  · simp [*]
  · split
    · simp [*, show 8 + (i - 8) = i by omega]
    · split
      · simp [*, show 16 + (i - 8 - 8) = i by omega]
      · simp [show i - 8 - 8 - 8 < 8 by omega, show 24 + (i - 8 - 8 - 8) = i by omega]

theorem decodeBytes_byteOfWord (w : Word) (rest : List Byte) :
    decodeBytes ([byteOfWord w 0, byteOfWord w 1, byteOfWord w 2, byteOfWord w 3] ++ rest) = some (decodeWord w, rest) := by
  simp only [List.cons_append, List.nil_append, decodeBytes, wordOfBytes_byteOfWord]

/-! ### The table of a major number -/

/-- The row of a major number, in the table that holds it. -/
noncomputable def decodeMajor (w : Word) (m : Nat) : Except Reject Instr :=
  if m < 0x30 then decodeLane0 w m
  else if m < 0x50 then decodeLane3 w m
  else if m < 0x80 then decodeLane5 w m
  else if m < 0xB0 then decodeUniform0 w m
  else if m < 0xD0 then decodeUniform3 w m
  else if m < 0xF5 then decodeUniform5 w m
  else .error .hint

theorem decodeRow_eq_decodeMajor (w : Word) : decodeRow w = decodeMajor w (w.extractLsb' 24 8).toNat := rfl

theorem decodeMajor_of_lane0 (w : Word) {m : Nat} (hu : m < 0x30) : decodeMajor w m = decodeLane0 w m :=
  if_pos hu

theorem decodeMajor_of_lane3 (w : Word) {m : Nat} (hl : 0x30 ≤ m) (hu : m < 0x50) : decodeMajor w m = decodeLane3 w m := by
  simp (disch := omega) only [decodeMajor, if_neg, if_pos]

theorem decodeMajor_of_lane5 (w : Word) {m : Nat} (hl : 0x50 ≤ m) (hu : m < 0x80) : decodeMajor w m = decodeLane5 w m := by
  simp (disch := omega) only [decodeMajor, if_neg, if_pos]

theorem decodeMajor_of_uniform0 (w : Word) {m : Nat} (hl : 0x80 ≤ m) (hu : m < 0xB0) : decodeMajor w m = decodeUniform0 w m := by
  simp (disch := omega) only [decodeMajor, if_neg, if_pos]

theorem decodeMajor_of_uniform3 (w : Word) {m : Nat} (hl : 0xB0 ≤ m) (hu : m < 0xD0) : decodeMajor w m = decodeUniform3 w m := by
  simp (disch := omega) only [decodeMajor, if_neg, if_pos]

theorem decodeMajor_of_uniform5 (w : Word) {m : Nat} (hl : 0xD0 ≤ m) (hu : m < 0xF5) : decodeMajor w m = decodeUniform5 w m := by
  simp (disch := omega) only [decodeMajor, if_neg, if_pos]

/-! ### Each row gives back its instruction -/

/-- The decoder's tables give the instruction back from its word. The instructions are declared in the order of the tables, so the
ones of a table are a range of constructor numbers. -/
def Instr.Decodes (i : Instr) : Prop := ∀ w, encode i = some w → decodeRow w = .ok i

theorem Instr.decodes_of_lane0 {i : Instr} (h : decide (i.ctorIdx < 72) = true) : i.Decodes := by
  cases i
  all_goals cases h
  all_goals
    rintro w ⟨⟩
    rw [decodeRow_eq_decodeMajor]
    simp (disch := decide) only [extractLsb'_append_high, BitVec.extractLsb'_eq_self, Nat.reduceSub, BitVec.reduceToNat]
    rw [decodeMajor_of_lane0 _ (by decide), decodeLane0]
    simp (disch := decide) only [extractLsb'_append_low, extractLsb'_append_high, BitVec.extractLsb'_eq_self, Nat.reduceSub,
      BitVec.reduceToNat, ↓reduceIte, reserved, zeroField, beq_self_eq_true, Bool.and_self]

theorem Instr.decodes_of_lane3 {i : Instr} (h : decide (72 ≤ i.ctorIdx ∧ i.ctorIdx < 142) = true) : i.Decodes := by
  cases i
  all_goals cases h
  all_goals
    rintro w ⟨⟩
    rw [decodeRow_eq_decodeMajor]
    simp (disch := decide) only [extractLsb'_append_high, BitVec.extractLsb'_eq_self, Nat.reduceSub, BitVec.reduceToNat]
    rw [decodeMajor_of_lane3 _ (by decide) (by decide), decodeLane3]
    simp (disch := decide) only [extractLsb'_append_low, extractLsb'_append_high, BitVec.extractLsb'_eq_self, Nat.reduceSub,
      BitVec.reduceToNat, ↓reduceIte, reserved, zeroField, beq_self_eq_true]

theorem Instr.decodes_of_lane5 {i : Instr} (h : decide (142 ≤ i.ctorIdx ∧ i.ctorIdx < 212) = true) : i.Decodes := by
  cases i
  all_goals cases h
  all_goals
    rintro w ⟨⟩
    rw [decodeRow_eq_decodeMajor]
    simp (disch := decide) only [extractLsb'_append_high, BitVec.extractLsb'_eq_self, Nat.reduceSub, BitVec.reduceToNat]
    rw [decodeMajor_of_lane5 _ (by decide) (by decide), decodeLane5]
    simp (disch := decide) only [extractLsb'_append_low, extractLsb'_append_high, BitVec.extractLsb'_eq_self, Nat.reduceSub,
      BitVec.reduceToNat, ↓reduceIte, reserved, zeroField, beq_self_eq_true, Bool.and_self]

theorem Instr.decodes_of_uniform0 {i : Instr} (h : decide (212 ≤ i.ctorIdx ∧ i.ctorIdx < 259) = true) : i.Decodes := by
  cases i
  all_goals cases h
  all_goals
    rintro w ⟨⟩
    rw [decodeRow_eq_decodeMajor]
    simp (disch := decide) only [extractLsb'_append_high, BitVec.extractLsb'_eq_self, Nat.reduceSub, BitVec.reduceToNat]
    rw [decodeMajor_of_uniform0 _ (by decide) (by decide), decodeUniform0]
    simp (disch := decide) only [extractLsb'_append_low, extractLsb'_append_high, BitVec.extractLsb'_eq_self, Nat.reduceSub,
      BitVec.reduceToNat, ↓reduceIte, reserved, zeroField, beq_self_eq_true, Bool.and_self]

theorem Instr.decodes_of_uniform3 {i : Instr} (h : decide (259 ≤ i.ctorIdx ∧ i.ctorIdx < 298) = true) : i.Decodes := by
  cases i
  all_goals cases h
  all_goals
    rintro w ⟨⟩
    rw [decodeRow_eq_decodeMajor]
    simp (disch := decide) only [extractLsb'_append_high, BitVec.extractLsb'_eq_self, Nat.reduceSub, BitVec.reduceToNat]
    rw [decodeMajor_of_uniform3 _ (by decide) (by decide), decodeUniform3]
    simp (disch := decide) only [extractLsb'_append_low, extractLsb'_append_high, BitVec.extractLsb'_eq_self, Nat.reduceSub,
      BitVec.reduceToNat, ↓reduceIte, reserved, zeroField, beq_self_eq_true, Bool.and_self]

theorem Instr.decodes_of_uniform5 {i : Instr} (h : decide (298 ≤ i.ctorIdx ∧ i.ctorIdx < 336) = true) : i.Decodes := by
  cases i
  all_goals cases h
  all_goals
    rintro w ⟨⟩
    rw [decodeRow_eq_decodeMajor]
    simp (disch := decide) only [extractLsb'_append_high, BitVec.extractLsb'_eq_self, Nat.reduceSub, BitVec.reduceToNat]
    rw [decodeMajor_of_uniform5 _ (by decide) (by decide), decodeUniform5]
    simp (disch := decide) only [extractLsb'_append_low, extractLsb'_append_high, BitVec.extractLsb'_eq_self, Nat.reduceSub,
      BitVec.reduceToNat, ↓reduceIte, reserved, zeroField, beq_self_eq_true, Bool.and_self]

theorem Instr.decodes_of_event {i : Instr} (h : decide (336 ≤ i.ctorIdx) = true) : i.Decodes := by
  cases i
  all_goals cases h
  all_goals nofun

theorem Instr.decodes (i : Instr) : i.Decodes :=
  if h0 : i.ctorIdx < 72 then decodes_of_lane0 (decide_eq_true h0)
  else if h1 : i.ctorIdx < 142 then decodes_of_lane3 (decide_eq_true ⟨Nat.not_lt.1 h0, h1⟩)
  else if h2 : i.ctorIdx < 212 then decodes_of_lane5 (decide_eq_true ⟨Nat.not_lt.1 h1, h2⟩)
  else if h3 : i.ctorIdx < 259 then decodes_of_uniform0 (decide_eq_true ⟨Nat.not_lt.1 h2, h3⟩)
  else if h4 : i.ctorIdx < 298 then decodes_of_uniform3 (decide_eq_true ⟨Nat.not_lt.1 h3, h4⟩)
  else if h5 : i.ctorIdx < 336 then decodes_of_uniform5 (decide_eq_true ⟨Nat.not_lt.1 h4, h5⟩)
  else decodes_of_event (decide_eq_true (Nat.not_lt.1 h5))

theorem isSome_encode (i : Instr) : (encode i).isSome = !i.isEvent := by
  cases i
  all_goals rfl

/-! ### No row gives an event of the machine -/

theorem isEvent_of_decodeLane0 {w : Word} {m : Nat} {i : Instr} (h : decodeLane0 w m = .ok i) : i.isEvent = false := by
  unfold decodeLane0 reserved at h
  repeat' split at h
  all_goals cases h <;> rfl

theorem isEvent_of_decodeLane3 {w : Word} {m : Nat} {i : Instr} (h : decodeLane3 w m = .ok i) : i.isEvent = false := by
  unfold decodeLane3 reserved at h
  repeat' split at h
  all_goals cases h <;> rfl

theorem isEvent_of_decodeLane5 {w : Word} {m : Nat} {i : Instr} (h : decodeLane5 w m = .ok i) : i.isEvent = false := by
  unfold decodeLane5 reserved at h
  repeat' split at h
  all_goals cases h <;> rfl

theorem isEvent_of_decodeUniform0 {w : Word} {m : Nat} {i : Instr} (h : decodeUniform0 w m = .ok i) : i.isEvent = false := by
  unfold decodeUniform0 reserved at h
  repeat' split at h
  all_goals cases h <;> rfl

theorem isEvent_of_decodeUniform3 {w : Word} {m : Nat} {i : Instr} (h : decodeUniform3 w m = .ok i) : i.isEvent = false := by
  unfold decodeUniform3 reserved at h
  repeat' split at h
  all_goals cases h <;> rfl

theorem isEvent_of_decodeUniform5 {w : Word} {m : Nat} {i : Instr} (h : decodeUniform5 w m = .ok i) : i.isEvent = false := by
  unfold decodeUniform5 reserved at h
  repeat' split at h
  all_goals cases h <;> rfl

theorem isEvent_of_decodeRow {w : Word} {i : Instr} (h : decodeRow w = .ok i) : i.isEvent = false := by
  rw [decodeRow_eq_decodeMajor, decodeMajor] at h
  split at h
  · exact isEvent_of_decodeLane0 h
  · split at h
    · exact isEvent_of_decodeLane3 h
    · split at h
      · exact isEvent_of_decodeLane5 h
      · split at h
        · exact isEvent_of_decodeUniform0 h
        · split at h
          · exact isEvent_of_decodeUniform3 h
          · split at h
            · exact isEvent_of_decodeUniform5 h
            · cases h

/-! ### The checks of a decoded row -/

theorem checkWord_eq_ok_iff {i j : Instr} :
    checkWord i = .ok j ↔ i = j ∧ i.reservedOk = true ∧ i.groupsOk = true ∧ i.scopeOk = true := by
  unfold checkWord
  cases i.reservedOk <;> cases i.groupsOk <;> cases i.scopeOk <;> simp

theorem Instr.wf_iff {i : Instr} :
    i.wf = true ↔ i.isEvent = false ∧ i.reservedOk = true ∧ i.groupsOk = true ∧ i.scopeOk = true := by
  simp only [Instr.wf, Bool.and_eq_true, Bool.not_eq_true', and_assoc]

theorem exists_encode {i : Instr} (h : i.isEvent = false) : ∃ w, encode i = some w :=
  Option.isSome_iff_exists.1 ((isSome_encode i).trans (by rw [h]; rfl))

theorem decodeWord_of_encode {i : Instr} {w : Word} (hi : i.wf = true) (hw : encode i = some w) : decodeWord w = .ok i := by
  unfold decodeWord
  rw [i.decodes w hw]
  exact checkWord_eq_ok_iff.2 ⟨rfl, (Instr.wf_iff.1 hi).2⟩

theorem wf_of_decodeWord {w : Word} {i : Instr} (h : decodeWord w = .ok i) : i.wf = true := by
  unfold decodeWord at h
  split at h
  · next hr =>
    obtain ⟨rfl, hok⟩ := checkWord_eq_ok_iff.1 h
    exact Instr.wf_iff.2 ⟨isEvent_of_decodeRow hr, hok⟩
  · cases h

/-- Settles O58: the rows of the six tables give back what was encoded, the checks pass where the instruction is well formed, and
no row is an event. -/
theorem decodeEncode : Obligations.DecodeEncode := by
  refine ⟨fun i hi => ?_, isSome_encode, fun w i => wf_of_decodeWord⟩
  obtain ⟨w, hw⟩ := exists_encode (Instr.wf_iff.1 hi).1
  have hd := decodeWord_of_encode hi hw
  exact ⟨w, hw, hd, fun rest => by rw [decodeBytes_byteOfWord, hd]⟩

end Sys2Proof
end

section
/-! Every function that leads from a state to a state keeps memory and every scratchpad in canonical form (R4, R163 to R166): one
lemma per function, in the order of the model's definitions, so that each cites the lemmas of the functions it calls. A lemma is
applied to the proof `h : s.MemOk` of the state the function starts from; one about a pair speaks of the pair's state. -/
-- The many short proofs are elaborated in turn: every one that waits in a thread of its own holds a stack of its own.
set_option Elab.async false

namespace Sys2Proof.Machine

/-- The canonical form is about memory and the cores alone. -/
theorem State.MemOk.rest {s : State} (h : s.MemOk) {past doms powers blocks accs xinvs credits frozen wafer street partitions windows fabric
    queues grids saved images kernels channels journal platform feCycles nextBid nextUnit nextGrid nextId outbox freeIdx agenda issue} :
    (State.mk s.mem past s.cores doms powers blocks accs xinvs credits frozen wafer street partitions windows fabric queues grids saved
      images kernels channels journal platform feCycles nextBid nextUnit nextGrid nextId outbox freeIdx agenda issue).MemOk := h

theorem State.MemOk.ite {s t : State} {c : Prop} [Decidable c] (hs : s.MemOk) (ht : t.MemOk) : (if c then s else t).MemOk := by
  split
  · exact hs
  · exact ht

/-- A change of a core's state other than its scratchpad keeps the canonical form. -/
theorem State.MemOk.updCoreRest {s : State} {k : Nat} {f : CoreState → CoreState} (h : s.MemOk)
    (hf : ∀ c, (f c).scratch = c.scratch := by exact fun _ => rfl) : (s.updCore k f).MemOk :=
  h.updCore k f fun c hc => (hf c).symm ▸ hc

theorem State.MemOk.foldl_fst {α β : Type} {f : State × β → α → State × β} {p : State × β} {xs : List α}
    (hf : ∀ p x, p.1.MemOk → (f p x).1.MemOk) (h : p.1.MemOk) : (xs.foldl f p).1.MemOk :=
  List.foldlRecOn (motive := fun p => p.1.MemOk) xs f h fun p hp x _ => hf p x hp

theorem State.MemOk.foldl_snd {α β : Type} {f : β × State → α → β × State} {p : β × State} {xs : List α}
    (hf : ∀ p x, p.2.MemOk → (f p x).2.MemOk) (h : p.2.MemOk) : (xs.foldl f p).2.MemOk :=
  List.foldlRecOn (motive := fun p => p.2.MemOk) xs f h fun p hp x _ => hf p x hp

/-- The state of a result that is taken apart by a match. -/
theorem State.MemOk.of_snd {s : State} {α : Type} {r : α × State} {a : α} (e : r = (a, s)) (h : r.2.MemOk) : s.MemOk := by
  subst e; exact h

theorem State.MemOk.of_fst {s : State} {α : Type} {r : State × α} {a : α} (e : r = (s, a)) (h : r.1.MemOk) : s.MemOk := by
  subst e; exact h

theorem State.MemOk.of_snd_snd {s : State} {α β : Type} {r : α × β × State} {a : α} {b : β} (e : r = (a, b, s)) (h : r.2.2.MemOk) :
    s.MemOk := by
  subst e; exact h

theorem State.MemOk.ite_snd {α : Type} {r q : α × State} {c : Prop} [Decidable c] (hr : r.2.MemOk) (hq : q.2.MemOk) :
    (if c then r else q).2.MemOk := by
  split
  · exact hr
  · exact hq

/-- An entry of a table with a function applied to each value: an unlisted entry keeps its default. -/
theorem assocGet_mapVal {α : Type} (d : α) (k : Nat) (f : α → α) (l : List (Nat × α)) :
    assocGet d k (l.map fun p => (p.1, f p.2)) = assocGet d k l ∨ assocGet d k (l.map fun p => (p.1, f p.2)) = f (assocGet d k l) := by
  induction l with
  | nil => exact .inl rfl
  | cons p rest ih =>
    unfold assocGet List.map
    dsimp only
    split
    · exact .inr rfl
    · exact ih

/-- A change of every core's state other than its scratchpad keeps the canonical form. -/
theorem State.MemOk.mapCores {s : State} (h : s.MemOk) {f : CoreState → CoreState} (hf : ∀ c, (f c).scratch = c.scratch) :
    ({ s with cores := s.cores.map fun p => (p.1, f p.2) } : State).MemOk :=
  h.of_same rfl fun k => (assocGet_mapVal CoreState.zero k f s.cores).elim (congrArg CoreState.scratch) fun e =>
    (congrArg CoreState.scratch e).trans (hf _)

theorem CoreState.scratch_writeSys {c : CoreState} {i : Nat} {x : Word} : (c.writeSys i x).scratch = c.scratch := by
  unfold CoreState.writeSys
  split
  · rfl
  · split
    · rfl
    · split <;> rfl

/-- Serving the held groups of a core changes grants and pipes only. -/
theorem CoreState.scratch_serve {c : CoreState} {cycle g : Nat} : (c.serve cycle g).scratch = c.scratch := by
  unfold CoreState.serve
  dsimp only
  generalize sortBy _ _ = order
  induction order generalizing c with
  | nil => rfl
  | cons i rest ih =>
    refine Eq.trans ih ?_
    dsimp only
    split
    · split <;> rfl
    · rfl

/-- The answer is a next state, and it is in canonical form. -/
inductive Keeps : Answer → Prop
  | next {t : State} (h : t.MemOk) : Keeps (.next t)

/-! ### Braids, caches, device stores and the small updates of the state -/

section
variable {s : State} (h : s.MemOk)
include h

theorem State.MemOk.file {bid tid} : (State.file s bid tid).MemOk := by
  fun_cases State.file s bid tid
  case case1 | case3 => exact h
  case case2 => exact h.updCoreRest

theorem State.MemOk.settleBraid {core br} : (State.settleBraid s core br).MemOk := by
  fun_cases State.settleBraid s core br
  case case1 | case2 => exact h
  case case3 => exact h.updCoreRest
  case case4 => exact .foldl (fun _ _ hu => hu.file) h _

theorem State.MemOk.settleBraids {core} : (State.settleBraids s core).MemOk :=
  .foldl (fun _ _ hu => hu.settleBraid) h _

theorem State.MemOk.diverge : (State.diverge s).MemOk := by
  fun_cases State.diverge s
  case case1 | case2 => exact h
  case case3 => exact .foldl (fun _ _ hu => hu.file) h _

theorem State.MemOk.among {ags} : (State.among s ags).MemOk :=
  h.rest

theorem State.MemOk.part {core ags} : (State.part s core ags).MemOk :=
  h.among.diverge.settleBraids

omit h in
theorem State.MemOk.afterIssue {t : State} {core pipe ags} (h : t.MemOk) : (State.afterIssue s core pipe ags t).MemOk := by
  fun_cases State.afterIssue s core pipe ags t
  case case1 => exact h.updCoreRest
  case case2 => exact h.part

theorem State.MemOk.collect {need} : (State.collect s need).MemOk :=
  .ite h.rest (.updCoreRest h.rest)

theorem State.MemOk.setDom {d x} : (State.setDom s d x).MemOk :=
  h.rest

theorem State.MemOk.updDom {d f} : (State.updDom s d f).MemOk :=
  h.setDom

theorem State.MemOk.fsqAdd {d e} : (State.fsqAdd s d e).MemOk :=
  h.updDom

theorem State.MemOk.tell {n} : (State.tell s n).MemOk :=
  h.rest

theorem State.MemOk.updGrid {g f} : (State.updGrid s g f).MemOk :=
  h.rest

theorem State.MemOk.dropNames {unit names} : (State.dropNames s unit names).MemOk :=
  h.mapCores (f := fun c => { c with names := c.names.filter fun k => !(names.any fun n => k.has unit n) }) fun _ => rfl

theorem State.MemOk.rdmaWrite {l bs} : (State.rdmaWrite s l bs).MemOk := by
  fun_cases State.rdmaWrite s l bs
  case case1 => exact h.tell
  case case2 => exact h

theorem State.MemOk.dropL1 {core line} : (State.dropL1 s core line).MemOk :=
  h.updCoreRest

theorem State.MemOk.invalidateOthers {keep line} : (State.invalidateOthers s keep line).MemOk :=
  .foldl (fun _ _ hu => .ite hu hu.dropL1) h _

theorem State.MemOk.fitL2 {d} : (State.fitL2 s d).MemOk := by
  fun_cases State.fitL2 s d
  case case1 => exact h
  case case2 => exact .updDom (.foldl (fun _ _ hu => hu.invalidateOthers) h _)

theorem State.MemOk.useL2 {d line dirty} : (State.useL2 s d line dirty).MemOk :=
  h.updDom.fitL2

theorem State.MemOk.cacheStore {core l} : (State.cacheStore s core l).MemOk :=
  .foldl (fun _ _ hu => hu.invalidateOthers.useL2) h _

theorem State.MemOk.deviceStore {pa bs} : (State.deviceStore s pa bs).MemOk :=
  .rdmaWrite (.storeRaw (.foldl (fun _ _ hu => hu.cacheStore) h _) _ _)

theorem State.MemOk.streetStore {slot bits} : (State.streetStore s slot bits).MemOk := by
  fun_cases State.streetStore s slot bits
  case case1 => exact h.deviceStore
  case case2 => exact h

theorem State.MemOk.streetDrop {unit} : (State.streetDrop s unit).MemOk :=
  .foldl (fun _ _ hu => hu.streetStore) h.dropNames.rest _

theorem State.MemOk.dropSaved {gone} : (State.dropSaved s gone).MemOk :=
  .foldl (fun _ _ hu => hu.streetDrop) h.rest _

theorem State.MemOk.stopBlocks {hit} : (State.stopBlocks s hit).MemOk :=
  .rest (.foldl (fun _ _ hu => hu.updCoreRest) h.rest _)

theorem State.MemOk.stopGrid {g cause aborted} : (State.stopGrid s g cause aborted).MemOk :=
  h.stopBlocks.dropSaved.updGrid

theorem State.MemOk.contextFault {ag cause r} : (State.contextFault s ag cause r).MemOk := by
  fun_cases State.contextFault s ag cause r
  case case1 => exact h
  case case2 => exact h.fsqAdd.stopGrid.tell

theorem State.MemOk.updBlock {bid f} : (State.updBlock s bid f).MemOk :=
  h.rest

theorem State.MemOk.updThread {bid tid f} : (State.updThread s bid tid f).MemOk :=
  h.updBlock

theorem State.MemOk.fileLoose {bid tid} : (State.fileLoose s bid tid).MemOk := by
  fun_cases State.fileLoose s bid tid
  case case1 => exact h.file
  case case2 | case3 => exact h

theorem State.MemOk.trapThread {bid tid cause info addr pc word after} :
    (State.trapThread s bid tid cause info addr pc word after).MemOk := by
  fun_cases State.trapThread s bid tid cause info addr pc word after
  case case1 | case5 => exact h
  case case2 | case3 => exact h.updThread.contextFault
  case case4 => exact h.updThread.fileLoose

theorem State.MemOk.updBobbin {core b f} : (State.updBobbin s core b f).MemOk :=
  h.updCoreRest

theorem State.MemOk.trap {ag cause info addr} : (State.trap s ag cause info addr).MemOk := by
  fun_cases State.trap s ag cause info addr
  case case1 => exact h.trapThread
  case case2 => exact h.updBobbin

theorem State.MemOk.illegal {ag reason} : (State.illegal s ag reason).MemOk :=
  h.trap

theorem State.MemOk.choose {n} : (State.choose s n).2.MemOk :=
  h.rest

end

/-! ### The forms that lane instructions share -/

section
variable {s : State} (h : s.MemOk)
include h

theorem State.MemOk.operand {ag now r} : (State.operand s ag now r).2.MemOk := by
  fun_cases State.operand s ag now r
  case case1 | case3 => exact h
  case case2 => exact h.choose.of_snd ‹_›

theorem State.MemOk.operands {ag now a0} : (State.operands s ag now a0).2.MemOk := by
  fun_induction State.operands s ag now a0
  case case1 => exact h
  case case2 ih => exact (ih (h.operand.of_snd ‹_›)).of_snd ‹_›

theorem State.MemOk.prepare {o fixed7 ag} : (State.prepare s o fixed7 ag).1.MemOk := by
  fun_cases State.prepare s o fixed7 ag
  case case1 => exact h.illegal
  case case2 | case4 => exact h.trap
  case case3 => exact h
  case case5 => exact (h.operands.of_snd ‹_›).trap
  case case6 => exact h.operands.of_snd ‹_›

theorem State.MemOk.runAgent {o fixed7 body ag} (hbody : ∀ (u : State) (x : Agent) (y : List VReg), u.MemOk → (body u x y).MemOk) :
    (State.runAgent o fixed7 body s ag).MemOk := by
  fun_cases State.runAgent o fixed7 body s ag
  case case1 => exact hbody _ _ _ (h.prepare.of_fst ‹_›)
  case case2 => exact h.prepare.of_fst ‹_›

theorem State.MemOk.runGroupWith {need opOf fixed7 body} (hbody : ∀ (u : State) (x : Agent) (y : List VReg), u.MemOk → (body u x y).MemOk) :
    (State.runGroupWith s need opOf fixed7 body).MemOk :=
  .foldl (fun _ _ hu => hu.runAgent hbody) h.collect _

theorem State.MemOk.runGroup {o fixed7 body} (hbody : ∀ (u : State) (x : Agent) (y : List VReg), u.MemOk → (body u x y).MemOk) :
    (State.runGroup s o fixed7 body).MemOk :=
  h.runGroupWith hbody

theorem State.MemOk.updCtx {f a0} : (State.updCtx s f a0).MemOk := by
  fun_cases State.updCtx s f a0
  case case1 => exact h.updThread
  case case2 => exact h.updBobbin

theorem State.MemOk.goto {ag n pc} : (State.goto s ag n pc).MemOk :=
  h.updCtx

theorem State.MemOk.advance {ag n} : (State.advance s ag n).MemOk :=
  h.goto

theorem State.MemOk.writeReg {ag r x} : (State.writeReg s ag r x).MemOk := by
  fun_cases State.writeReg s ag r x
  case case1 => exact h.updCtx
  case case2 | case4 => exact h.updThread
  case case3 | case5 => exact h

theorem State.MemOk.writeRegs {ag a0} : (State.writeRegs s ag a0).MemOk := by
  fun_induction State.writeRegs s ag a0
  case case1 => exact h
  case case2 ih => exact ih h.writeReg

theorem State.MemOk.writeFixed {ag lat ws} : (State.writeFixed s ag lat ws).MemOk :=
  h.updCtx.writeRegs

theorem State.MemOk.retire {ag n lat ws} : (State.retire s ag n lat ws).MemOk :=
  h.writeFixed.advance

theorem State.MemOk.runFixed {o lat f} : (State.runFixed s o lat f).MemOk :=
  h.runGroup (fun _ _ _ hu => hu.retire)

theorem State.MemOk.vBinary {lat f t aa ab d a b n} : (State.vBinary s lat f t aa ab d a b n).MemOk :=
  h.runFixed

theorem State.MemOk.vCarry {f d a b k n} : (State.vCarry s f d a b k n).MemOk :=
  h.runFixed

theorem State.MemOk.vTernary {lat f t aa ab ac d a b c n} : (State.vTernary s lat f t aa ab ac d a b c n).MemOk :=
  h.runFixed

theorem State.MemOk.vMadw {f t d a b c n} : (State.vMadw s f t d a b c n).MemOk :=
  h.runFixed

theorem State.MemOk.vUnary {lat f t aa d a n} : (State.vUnary s lat f t aa d a n).MemOk :=
  h.runFixed

theorem State.MemOk.vCompare {f d a b n} : (State.vCompare s f d a b n).MemOk :=
  h.runFixed

theorem State.MemOk.kBinary {f d a b n} : (State.kBinary s f d a b n).MemOk :=
  h.runFixed

theorem State.MemOk.kUnary {f d a n} : (State.kUnary s f d a n).MemOk :=
  h.runFixed

theorem State.MemOk.addPend {ag regs work left} : (State.addPend s ag regs work left).MemOk :=
  h.rest.updCtx

theorem State.MemOk.execVgetB32 {d a b n} : Keeps (Machine.execVgetB32 d a b n s) :=
  .next (h.runGroup (fun _ _ _ hu => (by
  extract_lets +onlyGivenNames r1 r2
  exact hu.addPend.advance)))

theorem State.MemOk.coll {op acc d a b n} : (State.coll s op acc d a b n).MemOk := by
  unfold State.coll
  exact h.runGroup (fun _ _ _ hu => (by
    split
    · extract_lets +onlyGivenNames r1
      split
      · exact hu.trap
      · extract_lets +onlyGivenNames r2 r3 r4 r5
        exact hu.addPend.advance
    · exact hu))

theorem State.MemOk.fBinary {f t d a b n} : (State.fBinary s f t d a b n).MemOk :=
  h.vBinary

theorem State.MemOk.fFma {f t d a b c n} : (State.fFma s f t d a b c n).MemOk :=
  h.vTernary

theorem State.MemOk.fCompare {c d a b n} : (State.fCompare s c d a b n).MemOk :=
  h.runFixed

theorem State.MemOk.retireVar {ag n ws left} : (State.retireVar s ag n ws left).MemOk :=
  h.addPend.advance

theorem State.MemOk.fVar {f d a n} (hf : ∀ (u : State) (x : ℕ), u.MemOk → (f u x).2.MemOk) : (State.fVar s f d a n).MemOk := by
  fun_cases State.fVar s f d a n
  exact h.runGroup (fun _ _ _ hu => (by
    split
    exact ((hf _ _ hu).of_snd ‹_›).retireVar))

theorem State.MemOk.pick {α : Type} {d : α} {xs : List α} : (State.pick s d xs).2.MemOk := by
  fun_cases State.pick s d xs
  case case1 | case2 => exact h
  case case3 => exact h.rest

theorem State.MemOk.oneOf {xs} : (State.oneOf s xs).2.MemOk :=
  h.pick

theorem State.MemOk.within {f} : (State.within s f).2.MemOk := by
  fun_cases State.within s f
  exact h.choose.of_snd ‹_›

theorem State.MemOk.cvtOne {f t d a e n} : (State.cvtOne s f t d a e n).MemOk := by
  unfold State.cvtOne
  exact h.runGroupWith (fun _ _ _ hu => (by
    extract_lets +onlyGivenNames r1 r2
    split
    · split
      · exact hu.trap
      · split
        · exact hu.retire
        · exact hu.trap
    · exact hu.retire))

theorem State.MemOk.cvtTwo {F t m d a b n} : (State.cvtTwo s F t m d a b n).MemOk :=
  h.runFixed

theorem State.MemOk.npack {F k t d a n} : (State.npack s F k t d a n).MemOk := by
  unfold State.npack
  exact h.runGroup (fun _ _ _ hu => (by
    split
    · exact hu.illegal
    · exact hu.retire))

theorem State.MemOk.nunpack {F k t d a n} : (State.nunpack s F k t d a n).MemOk := by
  unfold State.nunpack
  exact h.runGroup (fun _ _ _ hu => (by
    split
    · exact hu.illegal
    · exact hu.retire))

theorem State.MemOk.quantise {bits d a b n} : (State.quantise s bits d a b n).MemOk :=
  h.runGroup (fun _ _ _ hu => hu.retireVar)

theorem State.MemOk.dequantise {bits k t d a b n} : (State.dequantise s bits k t d a b n).MemOk :=
  h.runFixed

theorem State.MemOk.vBranch {o next} : (State.vBranch s o next).MemOk :=
  (h.runGroup (fun _ _ _ hu => hu.goto)).diverge

theorem State.MemOk.gather {o} : (State.gather s o).1.MemOk := by
  fun_cases State.gather s o
  exact .foldl_fst (fun _ _ hu => (by
    split <;> exact hu.prepare.of_fst ‹_›)) h.collect

theorem State.MemOk.braidBranch {test k o n} : (State.braidBranch s test k o n).1.MemOk := by
  fun_cases State.braidBranch s test k o n
  exact .foldl (fun _ _ hu => (by
    extract_lets +onlyGivenNames r1
    exact hu.goto)) (h.gather.of_fst ‹_›) _

theorem State.MemOk.fileAgent {a0} : (State.fileAgent s a0).MemOk := by
  fun_cases State.fileAgent s a0
  case case1 => exact h.file
  case case2 => exact h

theorem State.MemOk.execBrany {k o n} : Keeps (Machine.execBrany k o n s) := by
  fun_cases Machine.execBrany k o n s
  exact .next (by
    split
    · exact .foldl (fun _ _ hu => hu.fileAgent) (h.braidBranch.of_fst ‹_›) _
    · exact h.braidBranch.of_fst ‹_›)

theorem State.MemOk.execCall {o n} : Keeps (Machine.execCall o n s) :=
  .next (.diverge (h.runGroup (fun _ _ _ hu => (by
  extract_lets +onlyGivenNames r1
  exact hu.writeFixed.goto))))

theorem State.MemOk.vIndirect {link a n} : (State.vIndirect s link a n).MemOk := by
  unfold State.vIndirect
  exact .diverge (h.runGroup (fun _ _ _ hu => (by
    extract_lets +onlyGivenNames r1 r2
    split
    · exact hu.illegal
    · extract_lets +onlyGivenNames r3
      exact hu.writeFixed.goto)))

theorem State.MemOk.execElect {d n} : Keeps (Machine.execElect d n s) := by
  fun_cases Machine.execElect d n s
  exact .next (by
    split
    exact .foldl (fun _ _ hu => hu.retire) (h.gather.of_fst ‹_›) _)

theorem State.MemOk.vote {dst f a n} : (State.vote s dst f a n).MemOk := by
  fun_cases State.vote s dst f a n
  exact .foldl (fun _ _ hu => hu.retire) (h.gather.of_fst ‹_›) _

theorem State.MemOk.payloadError {ctxid} : (State.payloadError s ctxid).MemOk :=
  .tell (.foldl (fun _ _ hu => hu.stopGrid) h _)

end

/-! ### Address translation, and the loads and stores of an agent -/

section
variable {s : State} (h : s.MemOk)
include h

theorem State.MemOk.walkEnds {sp r} : (State.walkEnds s sp r).2.MemOk := by
  fun_cases State.walkEnds s sp r
  case case1 => exact h.payloadError
  case case2 => exact h

theorem State.MemOk.setPower {d x} : (State.setPower s d x).MemOk :=
  h.rest

theorem State.MemOk.updPower {d f} : (State.updPower s d f).MemOk :=
  h.setPower

theorem State.MemOk.adUpdate {e kind} : (State.adUpdate s e kind).2.MemOk := by
  fun_cases State.adUpdate s e kind
  case case1 => exact h.cacheStore.storePhys _ _
  case case2 => exact h

theorem State.MemOk.performSeen {a} : (State.performSeen s a).MemOk := by
  fun_cases State.performSeen s a
  case case1 => exact (h.cacheStore.writeLoc _ _).rest
  case case2 => exact h

theorem State.MemOk.drainSeen {bid} : (State.drainSeen s bid).MemOk :=
  .foldl (fun _ _ hu => hu.performSeen) h _

theorem State.MemOk.tlbFill {core es} : (State.tlbFill s core es).MemOk :=
  h.updCoreRest

theorem State.MemOk.walkBy {sp kind ad va start} : (State.walkBy s sp kind ad va start).2.MemOk := by
  fun_cases State.walkBy s sp kind ad va start
  case case1 => exact h.tlbFill.walkEnds
  case case2 => exact h.adUpdate.tlbFill
  case case3 | case4 => exact h.tlbFill

theorem State.MemOk.newWalk {sp kind ad va} : (State.newWalk s sp kind ad va).2.MemOk := by
  fun_cases State.newWalk s sp kind ad va
  case case1 hr => exact .walkBy (.of_snd hr (.ite_snd h.drainSeen h.drainSeen.choose))

theorem State.MemOk.lookupBy {sp kind ad va a0} : (State.lookupBy s sp kind ad va a0).2.MemOk := by
  fun_cases State.lookupBy s sp kind ad va a0
  case case1 | case5 => exact h
  case case2 => exact h.walkEnds
  case case3 => exact (h.adUpdate.of_snd ‹_›).updCoreRest
  case case4 => exact (h.adUpdate.of_snd ‹_›).newWalk
  case case6 => exact h.newWalk

theorem State.MemOk.lookup {sp kind ad va} : (State.lookup s sp kind ad va).2.MemOk := by
  fun_cases State.lookup s sp kind ad va
  case case1 hr => exact .lookupBy (.of_snd hr (.ite_snd h.updCoreRest h.updCoreRest.choose))

theorem State.MemOk.translate {sp kind ad va} : (State.translate s sp kind ad va).2.MemOk := by
  fun_cases State.translate s sp kind ad va
  case case1 => exact (h.lookup.of_snd ‹_›).payloadError
  case case2 => exact h.lookup.of_snd ‹_›
  case case3 => exact h.lookup

theorem State.MemOk.updRegion {bid r f} : (State.updRegion s bid r f).MemOk :=
  h.updBlock

theorem State.MemOk.writeBackFault {b r idx va xkind info} : (State.writeBackFault s b r idx va xkind info).MemOk :=
  h.updRegion.fsqAdd

theorem State.MemOk.settleSeen {mine l n} : (State.settleSeen s mine l n).MemOk :=
  .foldl (fun _ _ hu => hu.performSeen) h _

theorem State.MemOk.constBytes {ag l a0} : (State.constBytes s ag l a0).2.MemOk := by
  fun_induction State.constBytes s ag l a0
  case case1 => exact h
  case case2 ih => exact ((ih.of_snd ‹_›).pick).of_snd ‹_›

theorem State.MemOk.rdmaRead {l n} : (State.rdmaRead s l n).MemOk := by
  fun_cases State.rdmaRead s l n
  case case1 => exact h.tell
  case case2 => exact h

theorem State.MemOk.hostBytes {latest since view l n} : (State.hostBytes s latest since view l n).2.2.MemOk := by
  fun_cases State.hostBytes s latest since view l n
  exact (h.pick.of_snd ‹_›).rdmaRead

theorem State.MemOk.hostLoad {ags latest l n} : (State.hostLoad s ags latest l n).2.MemOk := by
  fun_cases State.hostLoad s ags latest l n
  exact .foldl (fun _ _ hu => hu.updCtx) (h.hostBytes.of_snd_snd ‹_›) _

theorem State.MemOk.showBlock {a} : (State.showBlock s a).MemOk :=
  h.settleSeen.rest

theorem State.MemOk.showFor {bid l n} : (State.showFor s bid l n).MemOk := by
  fun_cases State.showFor s bid l n
  exact .foldl (fun _ _ hu => .ite (by
    split
    · split
      · exact (hu.choose.of_snd ‹_›).showBlock
      · exact hu.choose.of_snd ‹_›) hu) h _

theorem State.MemOk.loadBytes {a} : (State.loadBytes s a).2.MemOk := by
  fun_cases State.loadBytes s a
  case case1 => exact h
  case case2 => exact h.choose.of_snd ‹_›
  case case3 => exact h.rdmaRead.constBytes
  case case4 => exact h.hostLoad
  case case5 => exact h.showFor

theorem State.MemOk.finish {a bs} : (State.finish s a bs).MemOk :=
  h.rest.updCtx

theorem State.MemOk.retryReturned {ag} : (State.retryReturned s ag).MemOk :=
  h.rest

theorem State.MemOk.wake {bid tid} : (State.wake s bid tid).MemOk :=
  h.updThread.file

theorem State.MemOk.resume {a} : (State.resume s a).MemOk := by
  fun_cases State.resume s a
  case case1 => exact h.retryReturned.wake
  case case2 | case3 => exact h.retryReturned
  case case4 => exact h.retryReturned.updBobbin
  case case5 | case6 => exact h.updBobbin
  case case7 => exact h.updBlock
  case case8 => exact h

theorem State.MemOk.endReturned {ag} : (State.endReturned s ag).MemOk :=
  h.rest.updCtx

theorem State.MemOk.updCommand {core b matrix id f} : (State.updCommand s core b matrix id f).MemOk :=
  h.updBobbin

theorem State.MemOk.creditLanded {core b matrix c k} : (State.creditLanded s core b matrix c k).MemOk := by
  fun_cases State.creditLanded s core b matrix c k
  case case1 | case2 => exact h
  case case3 => exact h.rest.updCommand

theorem State.MemOk.setPhaser {core abs p} : (State.setPhaser s core abs p).MemOk :=
  h.writeScr _ _ _

theorem State.MemOk.changeOut {f phs} : (State.changeOut s f phs).MemOk := by
  unfold State.changeOut
  exact .foldl (fun _ _ hu => (by
    split
    · extract_lets +onlyGivenNames r1
      exact hu.setPhaser
    · exact hu)) h _

theorem State.MemOk.uncount {phs} : (State.uncount s phs).MemOk :=
  h.changeOut

theorem State.MemOk.uncountAll {q} : (State.uncountAll s q).MemOk :=
  .foldl (fun _ _ hu => hu.uncount) h _

theorem State.MemOk.stopQueue {core b matrix id inner va} : (State.stopQueue s core b matrix id inner va).MemOk :=
  .updBobbin (.uncountAll (.ite h.fsqAdd (.foldl (fun _ _ hu => hu.creditLanded) h.fsqAdd _)))

theorem State.MemOk.killAgent {e} : (State.killAgent s e).MemOk := by
  fun_cases State.killAgent s e
  case case1 => exact h.endReturned.trapThread
  case case2 | case3 => exact h.endReturned
  case case4 => exact h.endReturned.updBobbin
  case case5 | case7 => exact h.stopQueue
  case case6 | case8 | case10 => exact h
  case case9 => exact h.updBlock

theorem State.MemOk.fsqRespond {d seq action} : (State.fsqRespond s d seq action).MemOk := by
  fun_cases State.fsqRespond s d seq action
  case case1 | case4 => exact h
  case case2 => exact h.updDom.resume
  case case3 => exact h.updDom.killAgent

theorem State.MemOk.mmioWrite {d off bs} : (State.mmioWrite s d off bs).MemOk := by
  fun_cases State.mmioWrite s d off bs
  case case1 | case2 | case3 => exact h.updDom
  case case4 => exact h.fsqRespond
  case case5 => exact h

theorem State.MemOk.storeAt {l bs} : (State.storeAt s l bs).MemOk :=
  (h.writeLoc _ _).rdmaWrite

theorem State.MemOk.performNow {a} : (State.performNow s a).MemOk := by
  fun_cases State.performNow s a
  case case1 | case7 => exact .payloadError (.rest (.ite h h.settleSeen))
  case case2 hr => exact .foldl (fun _ _ hu => hu.finish) (.of_snd hr (.loadBytes (.ite h h.settleSeen))) _
  case case3 => exact .mmioWrite (.rest (.ite h h.settleSeen))
  case case4 => exact .rest (.ite h h.settleSeen)
  case case5 => exact .updCtx (.storeAt (.cacheStore (.rest (.ite h h.settleSeen))))
  case case6 => exact .storeAt (.cacheStore (.rest (.ite h h.settleSeen)))
  case case8 e1 =>
    exact .finish (by
      dsimp only [e1]
      split
      · exact .writeLoc (.cacheStore (.ite h h.settleSeen)) _ _
      · exact .ite h h.settleSeen)

theorem State.MemOk.performAll {xs} : (State.performAll s xs).MemOk := by
  unfold State.performAll
  exact .foldl (fun _ _ hu => (by
    split
    · exact hu.performNow
    · exact hu)) h _

theorem State.MemOk.force {want} : (State.force s want).MemOk :=
  h.performAll

theorem State.MemOk.storeGranule {l bs} : (State.storeGranule s l bs).MemOk := by
  fun_cases State.storeGranule s l bs
  case case1 => exact h.storeAt
  case case2 =>
    exact .foldl (fun _ _ hu => (by
      split
      · exact hu.storeAt
      · exact hu)) h _

theorem State.MemOk.writeBack {ag bid r idx} : (State.writeBack s ag bid r idx).MemOk := by
  fun_cases State.writeBack s ag bid r idx
  case case1 | case2 | case3 | case4 => exact h
  case case5 | case6 | case9 => exact (h.translate.of_snd ‹_›).writeBackFault
  case case7 | case8 | case10 => exact h.translate.of_snd ‹_›
  case case11 => exact .updRegion (.foldl (fun _ _ hu => hu.storeGranule) (h.translate.of_snd ‹_›).force.settleSeen.cacheStore _)

theorem State.MemOk.writeBackAll {ag bid r} : (State.writeBackAll s ag bid r).MemOk := by
  fun_cases State.writeBackAll s ag bid r
  case case1 => exact .foldl (fun _ _ hu => hu.writeBack) h _
  case case2 | case3 => exact h

theorem State.MemOk.flushRegions {b} : (State.flushRegions s b).MemOk :=
  .foldl (fun _ _ hu => hu.writeBackAll) h.force _

theorem State.MemOk.endRegions {b} : (State.endRegions s b).MemOk := by
  unfold State.endRegions
  exact .foldl (fun _ _ hu => (by
    extract_lets +onlyGivenNames r1
    exact .updRegion (.ite hu.fsqAdd hu))) h _

theorem State.MemOk.freeUnjoined {b} : (State.freeUnjoined s b).MemOk := by
  unfold State.freeUnjoined
  exact .foldl (fun _ _ hu => (by
    extract_lets +onlyGivenNames r1
    exact .updBobbin (.ite hu hu.fsqAdd))) h _

theorem State.MemOk.leaveCore {b} : (State.leaveCore s b).MemOk :=
  h.updCoreRest.rest

theorem State.MemOk.unitDone {unit} : (State.unitDone s unit).MemOk := by
  fun_cases State.unitDone s unit
  case case1 => exact h
  case case2 => exact .updGrid (.streetDrop (.foldl (fun _ _ hu => hu.leaveCore) h _))

theorem State.MemOk.settleBlock {bid} : (State.settleBlock s bid).MemOk := by
  fun_cases State.settleBlock s bid
  case case1 | case2 => exact h
  case case3 | case4 => exact h.flushRegions
  case case5 => exact h.flushRegions.freeUnjoined.endRegions.updBlock.unitDone
  case case6 => exact h.flushRegions.freeUnjoined.endRegions.updBlock

theorem State.MemOk.withdraw {bid tid} : (State.withdraw s bid tid).MemOk := by
  unfold State.withdraw
  split
  · exact h.updCoreRest
  · exact h

theorem State.MemOk.stopThread {bid tid st} : (State.stopThread s bid tid st).MemOk :=
  h.withdraw.updThread

theorem State.MemOk.execExit {n} : Keeps (Machine.execExit n s) :=
  .next (h.runGroup (fun _ _ _ hu => .ite hu (by
  split
  · exact hu.stopThread.updThread.settleBlock
  · exact hu)))

theorem State.MemOk.execSleep {a n} : Keeps (Machine.execSleep a n s) :=
  .next (h.runGroup (fun _ _ _ hu => (by
  extract_lets +onlyGivenNames r1 r2 r3
  split
  · split
    · exact hu.advance.file
    · exact hu.advance.stopThread
  · exact hu.advance)))

theorem State.MemOk.parkAgent {ag} : (State.parkAgent s ag).MemOk := by
  fun_cases State.parkAgent s ag
  case case1 => exact h.stopThread
  case case2 => exact h.updBobbin

theorem State.MemOk.parkEntry {ag kind va xkind level word} : (State.parkEntry s ag kind va xkind level word).MemOk :=
  h.fsqAdd

theorem State.MemOk.park {ag kind va xkind level} : (State.park s ag kind va xkind level).MemOk :=
  h.parkEntry.parkAgent

theorem State.MemOk.admitted {ag kind va w} : (State.admitted s ag kind va w).2.MemOk := by
  fun_cases State.admitted s ag kind va w
  case case1 | case2 => exact h.trap
  case case3 => exact (h.translate.of_snd ‹_›).park
  case case4 | case7 => exact (h.translate.of_snd ‹_›).trap
  case case5 | case6 | case8 => exact h.translate.of_snd ‹_›

theorem State.MemOk.relaxedBytes {ag l n} : (State.relaxedBytes s ag l n).2.MemOk := by
  fun_cases State.relaxedBytes s ag l n
  case case1 => exact h.hostLoad
  case case2 => exact h.showFor

theorem State.MemOk.stopSafe {bid tid safe live} : (State.stopSafe s bid tid safe live).MemOk :=
  h.stopThread

theorem State.MemOk.execSafe {i n} : Keeps (Machine.execSafe i n s) := by
  fun_cases Machine.execSafe i n s
  exact .next (h.runGroup (fun _ _ _ hu => (by
    split
    · split
      · exact hu.advance
      · split
        · exact hu.admitted.of_snd ‹_›
        · split
          · exact hu.admitted.of_snd ‹_›
          · split
            · exact (hu.admitted.of_snd ‹_›).payloadError
            · split
              exact ((hu.admitted.of_snd ‹_›).relaxedBytes.of_snd ‹_›).stopSafe
    · exact hu)))

theorem State.MemOk.addAccess {a} : (State.addAccess s a).MemOk :=
  h.rest

theorem State.MemOk.acceptLoad {a form regs} : (State.acceptLoad s a form regs).MemOk := by
  fun_cases State.acceptLoad s a form regs
  case case1 hr => exact .addPend (.of_fst hr (.foldl_fst (fun _ _ hu => hu.addAccess) h))

theorem State.MemOk.cacheLoad {core l} : (State.cacheLoad s core l).MemOk := by
  fun_cases State.cacheLoad s core l
  case case1 => exact h.useL2.updCoreRest
  case case2 => exact h.useL2
  case case3 => exact h

theorem State.MemOk.loadFrom {ag n va w form regs f} : (State.loadFrom s ag n va w form regs f).MemOk := by
  fun_cases State.loadFrom s ag n va w form regs f
  case case1 => exact h.admitted.of_snd ‹_›
  case case2 => exact (h.admitted.of_snd ‹_›).cacheLoad.acceptLoad.advance

theorem State.MemOk.ld {w form d a o n} : (State.ld s w form d a o n).MemOk :=
  h.runGroup (fun _ _ _ hu => hu.loadFrom)

theorem State.MemOk.acceptStore {a data} : (State.acceptStore s a data).MemOk :=
  .foldl (fun _ _ hu => hu.addAccess) h _

theorem State.MemOk.storeTo {ag n va w data} : (State.storeTo s ag n va w data).MemOk := by
  fun_cases State.storeTo s ag n va w data
  case case1 => exact h.admitted.of_snd ‹_›
  case case2 => exact (h.admitted.of_snd ‹_›).acceptStore.advance

theorem State.MemOk.st {w d a o n} : (State.st s w d a o n).MemOk :=
  h.runGroup (fun _ _ _ hu => hu.storeTo)

end

/-! ### Scratchpad accesses, regions and names -/

section
variable {s : State} (h : s.MemOk)
include h

theorem State.MemOk.localScratch {ag va o w f} (hf : ∀ (u : State) (x : Block) (y : ℕ), u.MemOk → (f u x y).MemOk) :
    (State.localScratch s ag va o w f).MemOk := by
  fun_cases State.localScratch s ag va o w f
  case case1 | case2 => exact h.trap
  case case3 => exact hf _ _ _ h
  case case4 => exact h

theorem State.MemOk.fillWaits {bid r idx} : (State.fillWaits s bid r idx).2.MemOk :=
  h.updRegion

theorem State.MemOk.regionBytes {b r l} : (State.regionBytes s b r l).2.MemOk := by
  fun_cases State.regionBytes s b r l
  case case1 => exact (h.hostBytes.of_snd_snd ‹_›).updRegion
  case case2 => exact h

theorem State.MemOk.fillLine {bid r idx} : (State.fillLine s bid r idx).2.MemOk := by
  fun_cases State.fillLine s bid r idx
  case case1 | case2 => exact h
  case case3 | case4 | case5 | case7 => exact h.translate.of_snd ‹_›
  case case6 | case8 => exact (h.translate.of_snd ‹_›).fillWaits
  case case9 => exact (h.translate.of_snd ‹_›).payloadError
  case case10 => exact (((h.translate.of_snd ‹_›).regionBytes.of_snd ‹_›).writeScr _ _ _).updRegion

theorem State.MemOk.fillRange {bid off n write} : (State.fillRange s bid off n write).2.MemOk := by
  unfold State.fillRange
  exact .foldl_snd (fun _ _ hu => (by
    split
    · split
      · split
        · split
          · split
            · exact hu
            · split
              · exact hu
              · exact hu.fillLine
          · exact hu
        · exact hu
      · exact hu
    · exact hu)) h

theorem State.MemOk.admitScratch {ag tb off w write info} : (State.admitScratch s ag tb off w write info).2.MemOk := by
  fun_cases State.admitScratch s ag tb off w write info
  case case1 => exact h.trap
  case case2 => exact (h.fillRange.of_snd ‹_›).park
  case case3 | case6 => exact (h.fillRange.of_snd ‹_›).trap
  case case4 | case5 | case7 => exact h.fillRange.of_snd ‹_›

theorem State.MemOk.bindNow {id} {t : State} (he : State.bindNow s id = some t) : t.MemOk := by
  revert he
  fun_cases State.bindNow s id
  case case1 => rintro ⟨⟩; exact h.force
  case case2 => nofun

theorem State.MemOk.scratchLoad {ag n tb off w info regs} : (State.scratchLoad s ag n tb off w info regs).MemOk := by
  fun_cases State.scratchLoad s ag n tb off w info regs
  case case1 | case4 => exact h.admitScratch.of_snd ‹_›
  case case2 => exact (h.admitScratch.of_snd ‹_›).acceptLoad.advance
  case case3 => exact ((h.admitScratch.of_snd ‹_›).acceptLoad.bindNow ‹_›).advance

theorem State.MemOk.lds {w d a o n} : (State.lds s w d a o n).MemOk :=
  h.runGroup (fun _ _ _ hu => hu.localScratch (fun _ _ _ hu => hu.scratchLoad))

theorem State.MemOk.markWritten {bid off n} : (State.markWritten s bid off n).MemOk := by
  unfold State.markWritten
  exact .foldl (fun _ _ hu => (by
    split
    · split
      · extract_lets +onlyGivenNames r1 r2 r3
        exact hu.updRegion
      · exact hu
    · exact hu)) h _

theorem State.MemOk.scratchStore {ag n tb off w info data} : (State.scratchStore s ag n tb off w info data).MemOk := by
  fun_cases State.scratchStore s ag n tb off w info data
  case case1 | case4 => exact h.admitScratch.of_snd ‹_›
  case case2 => exact (h.admitScratch.of_snd ‹_›).acceptStore.advance
  case case3 => exact ((h.admitScratch.of_snd ‹_›).acceptStore.bindNow ‹_›).markWritten.advance

theorem State.MemOk.sts {w d a o n} : (State.sts s w d a o n).MemOk :=
  h.runGroup (fun _ _ _ hu => hu.localScratch (fun _ _ _ hu => hu.scratchStore))

theorem State.MemOk.useName {core e} : (State.useName s core e).MemOk :=
  h.updCoreRest

theorem State.MemOk.usedName {b name} : (State.usedName s b name).MemOk := by
  fun_cases State.usedName s b name
  case case1 => exact h.useName
  case case2 => exact h

theorem State.MemOk.named {ag lone name info addr} : (State.named s ag lone name info addr).2.MemOk := by
  fun_cases State.named s ag lone name info addr
  case case1 | case4 => exact h
  case case2 | case3 | case5 => exact h.trap
  case case6 => exact h.usedName

theorem State.MemOk.quarter {ag off name f} (hf : ∀ (u : State) (x : Block) (y : ℕ), u.MemOk → (f u x y).MemOk) :
    (State.quarter s ag off name f).MemOk := by
  fun_cases State.quarter s ag off name f
  case case1 => exact h.trap
  case case2 => exact hf _ _ _ (h.named.of_snd ‹_›)
  case case3 => exact h.named.of_snd ‹_›

theorem State.MemOk.acquireSys {ag sc} : (State.acquireSys s ag sc).MemOk := by
  fun_cases State.acquireSys s ag sc
  case case1 => exact h.updCtx
  case case2 => exact h

theorem State.MemOk.execLdAcqB32 {d a e n} : Keeps (Machine.execLdAcqB32 d a e n s) := by
  fun_cases Machine.execLdAcqB32 d a e n s
  exact .next (h.runGroup (fun _ _ _ hu => (by
    extract_lets +onlyGivenNames r1
    split
    · exact hu.admitted.of_snd ‹_›
    · extract_lets +onlyGivenNames r2 r3 r4 r5 r6
      split
      · exact (hu.admitted.of_snd ‹_›).acquireSys.cacheLoad.acceptLoad.advance
      · split
        · exact ((hu.admitted.of_snd ‹_›).acquireSys.cacheLoad.acceptLoad.bindNow ‹_›).advance
        · exact hu.admitted.of_snd ‹_›)))

theorem State.MemOk.drainRelease {ag sc} : (State.drainRelease s ag sc).MemOk := by
  fun_cases State.drainRelease s ag sc
  case case1 =>
    exact .foldl (fun _ _ hu => (by
      split
      · split
        · exact hu.showBlock
        · exact hu.performNow
      · exact hu)) h.updCtx _
  case case2 => exact h.updCtx.drainSeen.force

theorem State.MemOk.execStRelB32 {d a e n} : Keeps (Machine.execStRelB32 d a e n s) := by
  fun_cases Machine.execStRelB32 d a e n s
  exact .next (h.runGroup (fun _ _ _ hu => (by
    split
    · exact hu
    · split
      · exact hu
      · extract_lets +onlyGivenNames r1
        split
        · exact hu.admitted.of_snd ‹_›
        · extract_lets +onlyGivenNames r2 r3
          exact (hu.admitted.of_snd ‹_›).drainRelease.acceptStore.advance)))

theorem State.MemOk.lineFor {ag va} : (State.lineFor s ag va).2.MemOk := by
  fun_cases State.lineFor s ag va
  case case1 => exact h
  case case2 | case3 | case4 | case5 | case6 => exact h.lookup.of_snd ‹_›

theorem State.MemOk.cacheOp {a n f} (hf : ∀ (u : State) (x y z : ℕ), u.MemOk → (f u x y z).MemOk) : (State.cacheOp s a n f).MemOk := by
  fun_cases State.cacheOp s a n f
  exact h.runGroup (fun _ _ _ hu => (by
    split
    · exact (hf _ _ _ _ (hu.lineFor.of_snd ‹_›)).advance
    · exact (hu.lineFor.of_snd ‹_›).advance
    · exact hu.lineFor.of_snd ‹_›
    · exact hu.lineFor.of_snd ‹_›))

end

/-! ### Atomics, mailboxes, frames and the uniform forms -/

section
variable {s : State} (h : s.MemOk)
include h

theorem State.MemOk.atomTarget {ag addr} : (State.atomTarget s ag addr).2.MemOk :=
  h.named

theorem State.MemOk.admitAtomic {ag addr w} : (State.admitAtomic s ag addr w).2.MemOk := by
  fun_cases State.admitAtomic s ag addr w
  case case1 => exact h.trap
  case case2 => exact h.atomTarget.of_snd ‹_›
  case case3 | case4 => exact (h.atomTarget.of_snd ‹_›).admitScratch.of_snd ‹_›
  case case5 | case9 => exact h.admitted.of_snd ‹_›
  case case6 | case7 => split <;> exact (h.admitted.of_snd ‹_›).trap
  case case8 =>
    split
    · exact (h.admitted.of_snd ‹_›).trap
    · exact h.admitted.of_snd ‹_›

theorem State.MemOk.acceptAtomic {a ret} : (State.acceptAtomic s a ret).MemOk := by
  fun_cases State.acceptAtomic s a ret
  case case1 => exact h.addAccess.addPend
  case case2 => exact h.addAccess

theorem State.MemOk.atom {op w acc ret a b n} : (State.atom s op w acc ret a b n).MemOk := by
  fun_cases State.atom s op w acc ret a b n
  exact h.runGroup (fun _ _ _ hu => .ite hu (by
    extract_lets +onlyGivenNames r1
    split
    · exact hu.admitAtomic.of_snd ‹_›
    · split
      · extract_lets +onlyGivenNames r2 r3
        split
        · exact (hu.admitAtomic.of_snd ‹_›).acceptAtomic.advance
        · extract_lets +onlyGivenNames r4
          split
          · exact hu.admitAtomic.of_snd ‹_›
          · extract_lets +onlyGivenNames r5 r6 r7
            exact .advance (.ite (hu.admitAtomic.of_snd ‹_›).acceptAtomic.performAll.performAll.markWritten
                (hu.admitAtomic.of_snd ‹_›).acceptAtomic.performAll.performAll)))

theorem State.MemOk.updMail {bid f} : (State.updMail s bid f).MemOk :=
  h.updBlock

theorem State.MemOk.append {b m} : (State.append s b m).MemOk := by
  unfold State.append
  exact .updMail (.ite h.updMail (by
    extract_lets +onlyGivenNames r0
    exact (h.writeScr _ _ _).updMail))

theorem State.MemOk.execMsend {d a b n} : Keeps (Machine.execMsend d a b n s) := by
  fun_cases Machine.execMsend d a b n s
  exact .next (h.runGroup (fun _ _ _ hu => (by
    extract_lets +onlyGivenNames r1 r2
    split
    · exact hu
    · split
      · split
        · exact hu.named.of_snd ‹_›
        · split
          · exact hu.named.of_snd ‹_›
          · split
            · exact (hu.named.of_snd ‹_›).trap
            · extract_lets +onlyGivenNames r3 r4
              split
              · exact (hu.named.of_snd ‹_›).drainRelease.append.advance
              · exact (hu.named.of_snd ‹_›).drainRelease)))

theorem State.MemOk.either {α : Type} [DecidableEq α] {x y : α} : (State.either s x y).2.MemOk := by
  fun_cases State.either s x y
  case case1 => exact h
  case case2 => exact h.choose.of_snd ‹_›

theorem State.MemOk.ringEntry {b i m} : (State.ringEntry s b i m).2.MemOk := by
  fun_cases State.ringEntry s b i m
  exact ((h.either.of_snd ‹_›).either.of_snd ‹_›).either.of_snd ‹_›

theorem State.MemOk.messages {b} : (State.messages s b).2.MemOk := by
  fun_cases State.messages s b
  exact .foldl_snd (fun _ _ hu => (by
    split
    exact hu.ringEntry.of_snd ‹_›)) h

theorem State.MemOk.writeRing {b head ms} : (State.writeRing s b head ms).MemOk :=
  .updMail (.foldl (fun _ _ hu => .ite hu (hu.writeScr _ _ _)) h _)

theorem State.MemOk.setMessages {b ms} : (State.setMessages s b ms).MemOk := by
  fun_cases State.setMessages s b ms
  case case1 => exact h.updMail
  case case2 => exact h.updMail.writeRing

theorem State.MemOk.removeMessage {b ms i} : (State.removeMessage s b ms i).MemOk :=
  h.setMessages

theorem State.MemOk.blockAgent {ag n w} : (State.blockAgent s ag n w).MemOk := by
  fun_cases State.blockAgent s ag n w
  case case1 => exact h.updCtx.stopThread
  case case2 => exact h.updCtx.updBobbin

theorem State.MemOk.execMrecv {d a b n} : Keeps (Machine.execMrecv d a b n s) := by
  fun_cases Machine.execMrecv d a b n s
  exact .next (h.runGroup (fun _ _ _ hu => (by
    split
    · exact hu
    · split
      · split
        · exact (hu.messages.of_snd ‹_›).removeMessage.retireVar
        · exact (hu.messages.of_snd ‹_›).blockAgent)))

theorem State.MemOk.execMprobe {d a b n} : Keeps (Machine.execMprobe d a b n s) := by
  fun_cases Machine.execMprobe d a b n s
  exact .next (h.runGroup (fun _ _ _ hu => (by
    split
    · exact hu
    · split; split <;> exact (hu.messages.of_snd ‹_›).retireVar)))

theorem State.MemOk.execMcancel {d a b n} : Keeps (Machine.execMcancel d a b n s) := by
  fun_cases Machine.execMcancel d a b n s
  exact .next (h.runGroup (fun _ _ _ hu => (by
    split
    · exact hu
    · split
      · extract_lets +onlyGivenNames r1 r2
        exact .retireVar (.ite (hu.messages.of_snd ‹_›) (hu.messages.of_snd ‹_›).setMessages))))

theorem State.MemOk.touchFrame {core f} : (State.touchFrame s core f).MemOk :=
  h.updCoreRest

theorem State.MemOk.freeFrames {core} : (State.freeFrames s core).MemOk :=
  h.updCoreRest

theorem State.MemOk.setFrame {f ms} : (State.setFrame s f ms).MemOk :=
  .foldl (fun _ _ hu => hu.updThread) h _

theorem State.MemOk.allocFrame {core} : (State.allocFrame s core).2.MemOk := by
  fun_cases State.allocFrame s core
  case case1 | case3 => exact h.freeFrames
  case case2 => exact h.freeFrames.setFrame

theorem State.MemOk.expand {core ms} : (State.expand s core ms).MemOk :=
  h.setFrame.updCoreRest

theorem State.MemOk.ownFrame {core f ms} : (State.ownFrame s core f ms).MemOk := by
  fun_cases State.ownFrame s core f ms
  case case1 => exact h.touchFrame
  case case2 => exact (h.allocFrame.of_snd ‹_›).setFrame.touchFrame
  case case3 => exact (h.allocFrame.of_snd ‹_›).expand

theorem State.MemOk.frameRules : (State.frameRules s).MemOk := by
  fun_cases State.frameRules s
  case case1 | case2 => exact h
  case case3 => exact h.ownFrame
  case case4 => exact h.expand.freeFrames
  case case5 => exact h.expand

theorem State.MemOk.runUFixed {o lat f} : (State.runUFixed s o lat f).MemOk :=
  h.runFixed.frameRules

theorem State.MemOk.uBinary {lat f d a b n} : (State.uBinary s lat f d a b n).MemOk :=
  h.runUFixed

theorem State.MemOk.uUnary {lat f d a n} : (State.uUnary s lat f d a n).MemOk :=
  h.runUFixed

theorem State.MemOk.uImm {f d n} : (State.uImm s f d n).MemOk :=
  h.uUnary

theorem State.MemOk.runUniform {o fixed7 body} (hbody : ∀ (u : State) (x : Agent) (y : List VReg), u.MemOk → (body u x y).MemOk) :
    (State.runUniform s o fixed7 body).MemOk :=
  (h.runGroup hbody).frameRules

theorem State.MemOk.ldu {w ordered d a o n} : (State.ldu s w ordered d a o n).MemOk :=
  h.runUniform (fun _ _ _ hu => hu.loadFrom)

theorem State.MemOk.uBranch {o next} : (State.uBranch s o next).MemOk :=
  (h.runUniform (fun _ _ _ hu => hu.goto)).diverge

theorem State.MemOk.execUloop {d i n} : Keeps (Machine.execUloop d i n s) :=
  .next (.diverge (h.runUniform (fun _ _ _ hu => (by
  extract_lets +onlyGivenNames r1 r2
  exact hu.writeFixed.goto))))

theorem State.MemOk.execUcall {d i n} : Keeps (Machine.execUcall d i n s) :=
  .next (.diverge (h.runUniform (fun _ _ _ hu => (by
  extract_lets +onlyGivenNames r1
  exact hu.writeFixed.goto))))

theorem State.MemOk.execUret {d n} : Keeps (Machine.execUret d n s) :=
  .next (.diverge (h.runUniform (fun _ _ _ hu => (by
  extract_lets +onlyGivenNames r1
  split
  · exact hu.illegal
  · split
    · split
      · exact hu.updBobbin
      · exact hu
    · exact hu.goto))))

theorem State.MemOk.execFork {d i n} : Keeps (Machine.execFork d i n s) :=
  .next (h.runUniform (fun _ _ _ hu => (by
  split
  · split
    · exact hu
    · extract_lets +onlyGivenNames r1
      split
      · exact hu.drainRelease.retireVar
      · extract_lets +onlyGivenNames r2 r3
        exact hu.drainRelease.updBobbin.retireVar
  · exact hu)))

theorem State.MemOk.execRdzv {d a n} : Keeps (Machine.execRdzv d a n s) :=
  .next (h.runUniform (fun _ _ _ hu => (by
  split
  · exact hu
  · extract_lets +onlyGivenNames r1 r2
    split
    · exact hu.illegal
    · split
      · extract_lets +onlyGivenNames r3
        split
        · exact hu.updBobbin.trap
        · exact hu.updBobbin.retireVar
      · exact hu.updBobbin.blockAgent)))

theorem State.MemOk.gres {take g n} : (State.gres s take g n).MemOk := by
  unfold State.gres
  exact h.runUniform (fun _ _ _ hu => (by
    split
    · exact hu.updBobbin.advance
    · exact hu))

end

/-! ### Posts of copy and matrix commands -/

section
variable {s : State} (h : s.MemOk)
include h

theorem State.MemOk.cpy {b1 d1 d a b x g n f} (hf : ∀ (u : State) (x : Agent) (y : Block) (z : CpyWords), u.MemOk → (f u x y z).MemOk) :
    (State.cpy s b1 d1 d a b x g n f).MemOk := by
  unfold State.cpy
  exact h.runUniform (fun _ _ _ hu => (by
    split
    · split
      · exact hu
      · exact hf _ _ _ _ hu
    · exact hu))

theorem State.MemOk.countOut {phs} : (State.countOut s phs).MemOk :=
  h.changeOut

theorem State.MemOk.post {core b matrix n c} : (State.post s core b matrix n c).MemOk :=
  h.countOut.rest.updBobbin.advance

theorem State.MemOk.postCopy {ag n x g blk w targets reasons c} : (State.postCopy s ag n x g blk w targets reasons c).MemOk := by
  fun_cases State.postCopy s ag n x g blk w targets reasons c
  case case1 => exact h.trap
  case case2 => exact h.post
  case case3 => exact h

theorem State.MemOk.execCpyL {d a b x g n} : Keeps (Machine.execCpyL d a b x g n s) :=
  .next (h.cpy (fun _ _ _ _ hu => (by
  extract_lets +onlyGivenNames r1 r2 r3
  exact hu.postCopy)))

theorem State.MemOk.execCpyS {d a b x g n} : Keeps (Machine.execCpyS d a b x g n s) :=
  .next (h.cpy (fun _ _ _ _ hu => (by
  split
  · extract_lets +onlyGivenNames r1 r2 r3 r4 r5
    exact hu.postCopy)))

theorem State.MemOk.tensorEntry {ag handle} : (State.tensorEntry s ag handle).2.MemOk := by
  fun_cases State.tensorEntry s ag handle
  case case1 => exact h
  case case2 => exact h.trap
  case case3 | case4 => exact h.admitted.of_snd ‹_›
  case case5 => exact (h.admitted.of_snd ‹_›).payloadError
  case case6 => exact (h.admitted.of_snd ‹_›).relaxedBytes.of_snd ‹_›
  case case7 => exact ((h.admitted.of_snd ‹_›).relaxedBytes.of_snd ‹_›).trap

theorem State.MemOk.handles {ag w f} (hf : ∀ (u : State) (x y : ℕ), u.MemOk → (f u x y).MemOk) : (State.handles s ag w f).MemOk := by
  fun_cases State.handles s ag w f
  case case1 => exact h.tensorEntry.of_snd ‹_›
  case case2 => exact (h.tensorEntry.of_snd ‹_›).tensorEntry.of_snd ‹_›
  case case3 => exact hf _ _ _ ((h.tensorEntry.of_snd ‹_›).tensorEntry.of_snd ‹_›)

theorem State.MemOk.postTensor {ag n x g blk w w2 extra fits op} : (State.postTensor s ag n x g blk w w2 extra fits op).MemOk := by
  unfold State.postTensor
  exact h.handles (fun _ _ _ hu => (by
    extract_lets +onlyGivenNames r1 r2 r3 r4 r5 r6 r7
    exact hu.postCopy))

theorem State.MemOk.execCpyG {d a b x g n} : Keeps (Machine.execCpyG d a b x g n s) :=
  .next (h.cpy (fun _ _ _ _ hu => hu.handles (fun _ _ _ hu => (by
  extract_lets +onlyGivenNames r2 r3 r4 r5 r6 r7 r8 r9 r10 r11 r12 r13 r14 r15
  exact hu.postCopy))))

theorem State.MemOk.cpyRed {op d a b x g n} : (State.cpyRed s op d a b x g n).MemOk :=
  h.cpy (fun _ _ _ _ hu => hu.postTensor)

theorem State.MemOk.execCpyM {d a b x g n} : Keeps (Machine.execCpyM d a b x g n s) :=
  .next (h.cpy (fun _ _ _ _ hu => (by
  extract_lets +onlyGivenNames r1 r2 r3 r4 r5
  exact hu.postCopy)))

theorem State.MemOk.execCpyMigr {d a b x g n} : Keeps (Machine.execCpyMigr d a b x g n s) :=
  .next (h.runUniform (fun _ _ _ hu => (by
  split
  · split
    · exact hu
    · extract_lets +onlyGivenNames r1
      exact hu.postCopy
  · exact hu)))

theorem State.MemOk.mcmd {o absent tag f}
    (hf : ∀ (u : State) (x : Agent) (y : Block) (z : TileTag) (w : List VReg), u.MemOk → (f u x y z w).MemOk) :
    (State.mcmd s o absent tag f).MemOk := by
  unfold State.mcmd
  exact h.runUniform (fun _ _ _ hu => (by
    split
    · split
      · exact hu
      · split
        · exact hu.trap
        · exact hf _ _ _ _ _ hu
    · exact hu))

theorem State.MemOk.postMatrix {ag n x g blk ph fl targets reasons c} :
    (State.postMatrix s ag n x g blk ph fl targets reasons c).MemOk := by
  fun_cases State.postMatrix s ag n x g blk ph fl targets reasons c
  case case1 => exact h.trap
  case case2 => exact h.post
  case case3 => exact h

theorem State.MemOk.updTile {core k f} : (State.updTile s core k f).MemOk :=
  h.updCoreRest

theorem State.MemOk.declare {b n t} : (State.declare s b n t).MemOk :=
  h.updTile

theorem State.MemOk.execMzero {d a x g n} : Keeps (Machine.execMzero d a x g n s) :=
  .next (by
  extract_lets +onlyGivenNames r0 r1 r2
  exact h.mcmd (fun _ _ _ _ _ hu => (by
    extract_lets +onlyGivenNames r4 r5 r6
    split
    · exact hu.postMatrix.declare.declare
    · exact hu.postMatrix.declare)))

theorem State.MemOk.paramEntry {ag want handle} : (State.paramEntry s ag want handle).2.MemOk := by
  fun_cases State.paramEntry s ag want handle
  case case1 | case2 => exact h.tensorEntry.of_snd ‹_›
  case case3 => exact h

theorem State.MemOk.mma {p q d a b x g n} : (State.mma s p q d a b x g n).MemOk := by
  fun_cases State.mma s p q d a b x g n
  exact h.mcmd (fun _ _ _ _ _ hu => (by
    extract_lets +onlyGivenNames r1 r2 r3 r4 r5
    split
    · exact hu.tensorEntry.of_snd ‹_›
    · split
      · exact (hu.tensorEntry.of_snd ‹_›).tensorEntry.of_snd ‹_›
      · split
        · exact ((hu.tensorEntry.of_snd ‹_›).tensorEntry.of_snd ‹_›).paramEntry.of_snd ‹_›
        · split
          · exact (((hu.tensorEntry.of_snd ‹_›).tensorEntry.of_snd ‹_›).paramEntry.of_snd ‹_›).paramEntry.of_snd ‹_›
          · extract_lets +onlyGivenNames r6 r7 r8 r9 r10 r11 r12 r13
            exact ((((hu.tensorEntry.of_snd ‹_›).tensorEntry.of_snd ‹_›).paramEntry.of_snd ‹_›).paramEntry.of_snd ‹_›).postMatrix))

theorem State.MemOk.mrsum {col d a x g n} : (State.mrsum s col d a x g n).MemOk := by
  unfold State.mrsum
  exact h.mcmd (fun _ _ _ _ _ hu => (by
    extract_lets +onlyGivenNames r1
    exact hu.postMatrix))

theorem State.MemOk.mdrain {form d a b x g n} : (State.mdrain s form d a b x g n).MemOk := by
  fun_cases State.mdrain s form d a b x g n
  exact h.mcmd (fun _ _ _ _ _ hu => (by
    extract_lets +onlyGivenNames r1 r2 r3
    split
    · exact hu.tensorEntry.of_snd ‹_›
    · extract_lets +onlyGivenNames r4 r5 r6 r7
      split
      · exact (hu.tensorEntry.of_snd ‹_›).postMatrix
      · extract_lets +onlyGivenNames r8
        split
        · exact (hu.tensorEntry.of_snd ‹_›).postMatrix.declare.declare
        · exact (hu.tensorEntry.of_snd ‹_›).postMatrix.declare))

theorem State.MemOk.mplaneWord {tr d a b x g n} : (State.mplaneWord s tr d a b x g n).MemOk := by
  fun_cases State.mplaneWord s tr d a b x g n
  exact h.mcmd (fun _ _ _ _ _ hu => (by
    extract_lets +onlyGivenNames r1 r2 r3 r4 r5
    split
    · exact hu.tensorEntry.of_snd ‹_›
    · split
      · exact (hu.tensorEntry.of_snd ‹_›).tensorEntry.of_snd ‹_›
      · extract_lets +onlyGivenNames r6 r7 r8 r9 r10
        exact ((hu.tensorEntry.of_snd ‹_›).tensorEntry.of_snd ‹_›).postMatrix))

theorem State.MemOk.writeRecord {d} : (State.writeRecord s d).MemOk := by
  fun_cases State.writeRecord s d
  case case1 => exact h.updPower
  case case2 => exact h.updPower.cacheStore.storeRaw _ _

omit h in
theorem State.MemOk.recorded {t : State} {d} (h : t.MemOk) : (State.recorded s t d).MemOk := by
  fun_cases State.recorded s t d
  case case1 => exact h
  case case2 => exact h.writeRecord

theorem State.MemOk.lowerRail {d f} : (State.lowerRail s d f).MemOk := by
  fun_cases State.lowerRail s d f
  case case1 => exact .recorded h.updDom
  case case2 => exact h

theorem State.MemOk.execMfid {a n} : Keeps (Machine.execMfid a n s) :=
  .next (h.runUniform (fun _ _ _ hu => (by
  split
  · extract_lets +onlyGivenNames r1 r2 r3
    split
    · exact hu.illegal
    · extract_lets +onlyGivenNames r4
      exact hu.updBobbin.lowerRail.advance
  · exact hu)))

theorem State.MemOk.clearInject {core} : (State.clearInject s core).MemOk :=
  h.updCoreRest

theorem State.MemOk.execFidinj {a b n} : Keeps (Machine.execFidinj a b n s) :=
  .next (h.runUniform (fun _ _ _ hu => (by
  split
  · exact hu.illegal
  · exact hu.clearInject.updCoreRest.advance)))

end

/-! ### Phasers, fences and the regions of a block -/

section
variable {s : State} (h : s.MemOk)
include h

theorem State.MemOk.phaserRef {ag ref name needBit} : (State.phaserRef s ag ref name needBit).2.MemOk := by
  fun_cases State.phaserRef s ag ref name needBit
  case case1 => exact h.trap
  case case2 e1 =>
    exact .of_snd e1 (by
      split
      · exact h.named
      · exact h)
  case case3 e1 =>
    exact .trap (.of_snd e1 (by
      split
      · exact h.named
      · exact h))
  case case4 e1 =>
    exact .trap (.of_snd e1 (by
      split
      · exact h.named
      · exact h))
  case case5 e1 =>
    exact .trap (.of_snd e1 (by
      split
      · exact h.named
      · exact h))
  case case6 e1 =>
    exact .of_snd e1 (by
      split
      · exact h.named
      · exact h)

theorem State.MemOk.wakeWait {ag k} : (State.wakeWait s ag k).MemOk := by
  fun_cases State.wakeWait s ag k
  case case1 => exact h.updThread
  case case2 => exact h.updBobbin

theorem State.MemOk.staleWaits {core abs} : (State.staleWaits s core abs).MemOk :=
  .foldl (fun _ _ hu => hu.wakeWait) h _

theorem State.MemOk.phinit {force a n} : (State.phinit s force a n).MemOk := by
  fun_cases State.phinit s force a n
  exact h.runUniform (fun _ _ _ hu => (by
    split
    · exact hu.phaserRef.of_snd ‹_›
    · extract_lets +onlyGivenNames r1
      split
      · exact (hu.phaserRef.of_snd ‹_›).trap
      · extract_lets +onlyGivenNames r2
        split
        · exact (hu.phaserRef.of_snd ‹_›).trap
        · split
          · exact hu.phaserRef.of_snd ‹_›
          · extract_lets +onlyGivenNames r3 r4
            exact (hu.phaserRef.of_snd ‹_›).force.setPhaser.staleWaits.updCoreRest.advance))

theorem State.MemOk.afterLoads {ag core abs} {t : State} (he : State.afterLoads s ag core abs = some t) : t.MemOk := by
  revert he
  fun_cases State.afterLoads s ag core abs
  case case1 => rintro ⟨⟩; exact h.force
  case case2 => nofun

theorem State.MemOk.onPhaser {ag ref name f} (hf : ∀ (u : State) (x : Block) (y : ℕ), u.MemOk → (f u x y).MemOk) :
    (State.onPhaser s ag ref name f).MemOk := by
  fun_cases State.onPhaser s ag ref name f
  case case1 | case3 => exact h.phaserRef.of_snd ‹_›
  case case2 => exact hf _ _ _ ((h.phaserRef.of_snd ‹_›).afterLoads ‹_›)

theorem State.MemOk.addSignal {bid tb off} : (State.addSignal s bid tb off).MemOk := by
  fun_cases State.addSignal s bid tb off
  case case1 => exact h
  case case2 => exact h.updBlock

theorem State.MemOk.phreg {sig wait d a b q n} : (State.phreg s sig wait d a b q n).MemOk := by
  unfold State.phreg
  exact h.runUniform (fun _ _ _ hu => hu.onPhaser (fun _ _ _ hu => (by
    extract_lets +onlyGivenNames r2 r3
    split
    · exact hu.trap
    · extract_lets +onlyGivenNames r4 r5 r6 r7
      exact .retireVar (.ite hu.setPhaser.addSignal hu.setPhaser))))

theorem State.MemOk.wakeWaits {core abs p} : (State.wakeWaits s core abs p).MemOk :=
  .foldl (fun _ _ hu => hu.wakeWait) h _

theorem State.MemOk.checkPhaser {core abs p} : (State.checkPhaser s core abs p).MemOk := by
  fun_cases State.checkPhaser s core abs p
  case case1 => exact h.setPhaser.wakeWaits
  case case2 => exact h.setPhaser

theorem State.MemOk.dropSignal {bid tb off} : (State.dropSignal s bid tb off).MemOk := by
  fun_cases State.dropSignal s bid tb off
  case case1 => exact h
  case case2 => exact h.updBlock

theorem State.MemOk.execPhdereg {d a b r q n} : Keeps (Machine.execPhdereg d a b r q n s) :=
  .next (h.runUniform (fun _ _ _ hu => (by
  extract_lets +onlyGivenNames r1 r2
  exact hu.onPhaser (fun _ _ _ hu => (by
    extract_lets +onlyGivenNames r4
    split
    · exact hu.setPhaser.advance
    · split
      · exact hu.trap
      · split
        · split
          · exact hu
          · extract_lets +onlyGivenNames r5
            split
            · extract_lets +onlyGivenNames r6 r7
              exact .advance (.ite (.dropSignal (.checkPhaser (.ite hu.drainRelease hu))) (.checkPhaser (.ite hu.drainRelease hu))))))))

theorem State.MemOk.waitOn {ag n core abs t sd arrive} : (State.waitOn s ag n core abs t sd arrive).MemOk :=
  h.setPhaser.blockAgent

theorem State.MemOk.execPharr {d a b q n} : Keeps (Machine.execPharr d a b q n s) :=
  .next (h.runUniform (fun _ _ _ hu => (by
  extract_lets +onlyGivenNames r1
  exact hu.onPhaser (fun _ _ _ hu => (by
    extract_lets +onlyGivenNames r3
    split
    · exact hu.trap
    · split
      · exact hu.setPhaser.advance
      · split
        · exact hu.waitOn
        · split
          · exact hu.setPhaser.retireVar
          · split
            · exact hu
            · extract_lets +onlyGivenNames r4 r5
              exact hu.drainRelease.checkPhaser.retireVar)))))

theorem State.MemOk.execPhexp {d a b q n} : Keeps (Machine.execPhexp d a b q n s) :=
  .next (h.runUniform (fun _ _ _ hu => hu.onPhaser (fun _ _ _ hu => (by
  extract_lets +onlyGivenNames r2 r3
  exact hu.checkPhaser.advance))))

theorem State.MemOk.syncWith {ag tb} {t : State} (he : State.syncWith s ag tb = some t) : t.MemOk := by
  revert he
  fun_cases State.syncWith s ag tb
  case case1 => rintro ⟨⟩; exact h
  case case2 => rintro ⟨⟩; exact h.drainSeen
  case case3 => nofun

theorem State.MemOk.execPhwait {d a b q n} : Keeps (Machine.execPhwait d a b q n s) := by
  fun_cases Machine.execPhwait d a b q n s
  exact .next (h.runUniform (fun _ _ _ hu => (by
    extract_lets +onlyGivenNames r1
    exact hu.onPhaser (fun _ _ _ hu => (by
      extract_lets +onlyGivenNames r3
      split
      · exact hu.trap
      · split
        · exact hu.waitOn
        · split
          · exact hu
          · split
            · exact (hu.syncWith ‹_›).retireVar
            · exact (hu.syncWith ‹_›).advance)))))

theorem State.MemOk.drainLoads {ag sc} : (State.drainLoads s ag sc).MemOk :=
  h.force

theorem State.MemOk.fence {acq rel e n} : (State.fence s acq rel e n).MemOk := by
  unfold State.fence
  exact h.runUniform (fun _ _ _ hu => (by
    split
    · exact hu
    · split
      · exact hu
      · extract_lets +onlyGivenNames r1
        exact .advance (.ite (.drainRelease (.ite hu.drainLoads.acquireSys hu)) (.ite hu.drainLoads.acquireSys hu))))

theorem State.MemOk.issueXinv {ag form sc} : (State.issueXinv s ag form sc).MemOk :=
  h.rest

theorem State.MemOk.xinv {srcs bad e n form} : (State.xinv s srcs bad e n form).MemOk := by
  unfold State.xinv
  exact h.runUniform (fun _ _ _ hu => (by
    split
    · exact hu.issueXinv.advance
    · exact hu.illegal))

theorem State.MemOk.xsyncDone {ag} : (State.xsyncDone s ag).MemOk :=
  h.rest.force

theorem State.MemOk.execXprobe {d a b n} : Keeps (Machine.execXprobe d a b n s) := by
  fun_cases Machine.execXprobe d a b n s
  exact .next (h.runUniform (fun _ _ _ hu => (by
    split
    · exact hu.illegal
    · extract_lets +onlyGivenNames r1
      split
      · exact hu.retireVar
      · split
        · exact hu.lookup.of_snd ‹_›
        · exact hu.lookup.of_snd ‹_›
        · exact (hu.lookup.of_snd ‹_›).retireVar)))

theorem State.MemOk.regionOp {o f} (hf : ∀ (u : State) (x : Agent) (y : Block) (z : List VReg), u.MemOk → (f u x y z).MemOk) :
    (State.regionOp s o f).MemOk := by
  unfold State.regionOp
  exact .frameRules (h.runGroup (fun _ _ _ hu => (by
    split
    · extract_lets +onlyGivenNames r1
      split
      · exact hf _ _ _ _ hu.force
      · exact hu
    · exact hu)))

theorem State.MemOk.execMap {a b w r n} : Keeps (Machine.execMap a b w r n s) :=
  .next (h.regionOp (fun _ _ _ _ hu => (by
  extract_lets +onlyGivenNames r1 r2
  split
  · exact hu
  · split
    · exact hu.trap
    · exact hu.updRegion.advance)))

theorem State.MemOk.flush {last ag blk r n} : (State.flush s last ag blk r n).MemOk := by
  fun_cases State.flush s last ag blk r n
  case case1 => exact h
  case case2 => exact h.trap
  case case3 => exact h.writeBackAll
  case case4 => exact h.writeBackAll.updRegion.trap
  case case5 => exact h.writeBackAll.updRegion.advance

theorem State.MemOk.eret {bid tid skip ready} : (State.eret s bid tid skip ready).MemOk :=
  h.updThread

theorem State.MemOk.execEret {skip n} : Keeps (Machine.execEret skip n s) :=
  .next (.diverge (h.runUniform (fun _ _ _ hu => .ite hu.illegal (by
  split
  · extract_lets +onlyGivenNames r1
    split
    · exact hu.eret.stopSafe
    · exact hu.eret
  · exact hu))))

end

/-! ### Saves and loads of a context, launches and system registers -/

section
variable {s : State} (h : s.MemOk)
include h

theorem State.MemOk.requestSave {unit dest} : (State.requestSave s unit dest).MemOk := by
  unfold State.requestSave
  exact .foldl (fun _ _ hu => (by
    extract_lets +onlyGivenNames r1
    exact .foldl (fun _ _ hu => (by
      split
      · exact hu.wake
      · exact hu)) hu.updBlock _)) h _

theorem State.MemOk.saveStatus {own core idx pa want} : (State.saveStatus s own core idx pa want).2.MemOk := by
  fun_cases State.saveStatus s own core idx pa want
  case case1 | case2 | case3 | case4 | case5 => exact h
  case case6 => exact h.requestSave

theorem State.MemOk.execCtxsave {d a b n} : Keeps (Machine.execCtxsave d a b n s) := by
  fun_cases Machine.execCtxsave d a b n s
  exact .next (h.runUniform (fun _ _ _ hu => (by
    extract_lets +onlyGivenNames r1 r2
    split
    · exact hu.illegal
    · extract_lets +onlyGivenNames r3
      split
      exact (hu.saveStatus.of_snd ‹_›).retireVar)))

theorem State.MemOk.feLoc {sp kind va} : (State.feLoc s sp kind va).2.MemOk := by
  fun_cases State.feLoc s sp kind va
  case case1 => exact h
  case case2 | case3 | case4 | case5 | case6 => exact h.translate.of_snd ‹_›

theorem State.MemOk.feBytes {l n} : (State.feBytes s l n).2.MemOk := by
  fun_cases State.feBytes s l n
  case case1 => exact h
  case case2 => exact h.rdmaRead

theorem State.MemOk.feRead {sp kind a0 a1 a2} : (State.feRead s sp kind a0 a1 a2).2.MemOk := by
  fun_induction State.feRead s sp kind a0 a1 a2
  case case1 | case2 => exact h
  case case3 | case4 => exact h.feLoc.of_snd ‹_›
  case case5 => exact (h.feLoc.of_snd ‹_›).payloadError
  case case6 ih => exact (ih ((h.feLoc.of_snd ‹_›).feBytes.of_snd ‹_›)).of_snd ‹_›
  case case7 ih => exact (ih ((h.feLoc.of_snd ‹_›).feBytes.of_snd ‹_›)).of_snd ‹_›

theorem State.MemOk.feRange {sp va n} : (State.feRange s sp va n).2.MemOk :=
  h.feRead

theorem State.MemOk.foreignMask {r idx} : (State.foreignMask s r idx).2.MemOk := by
  fun_cases State.foreignMask s r idx
  case case1 => exact h
  case case2 | case3 => exact h.feRange.of_snd ‹_›

theorem State.MemOk.foreignThreads {r recs a0} : (State.foreignThreads s r recs a0).2.MemOk := by
  fun_induction State.foreignThreads s r recs a0
  case case1 => exact h
  case case2 ih => exact ((ih.of_snd ‹_›).foreignMask).of_snd ‹_›

theorem State.MemOk.foreignBlock {image k} : (State.foreignBlock s image k).2.MemOk := by
  fun_cases State.foreignBlock s image k
  exact h.foreignThreads.of_snd ‹_›

theorem State.MemOk.foreignUnit {image} : (State.foreignUnit s image).2.MemOk := by
  fun_cases State.foreignUnit s image
  case case1 hr => exact .of_snd hr (.foldl_snd (fun _ _ hu => (by
      split
      exact hu.foreignBlock.of_snd ‹_›)) h)

theorem State.MemOk.unitAt {image} : (State.unitAt s image).2.MemOk := by
  fun_cases State.unitAt s image
  case case1 => exact h
  case case2 => exact h.foreignUnit

theorem State.MemOk.keepUnit {u} : (State.keepUnit s u).MemOk := by
  fun_cases State.keepUnit s u
  case case1 => exact h
  case case2 => exact h.rest

theorem State.MemOk.queueResume {u home queue packet prio done} : (State.queueResume s u home queue packet prio done).2.2.MemOk := by
  fun_cases State.queueResume s u home queue packet prio done
  case case1 => exact .ite h.keepUnit.rest h.keepUnit.rest.updGrid
  case case2 => exact h.keepUnit.rest

theorem State.MemOk.journalAdd {pkt queue kind status detail grid info} :
    (State.journalAdd s pkt queue kind status detail grid info).MemOk :=
  h.rest

theorem State.MemOk.ctxload {pa home b} : (State.ctxload s pa home b).2.MemOk := by
  fun_cases State.ctxload s pa home b
  case case1 | case2 => exact h
  case case3 | case4 => exact h.unitAt.of_snd ‹_›
  case case5 =>
    split
    · exact ((h.unitAt.of_snd ‹_›).queueResume.of_snd_snd ‹_›).journalAdd
    · exact (h.unitAt.of_snd ‹_›).queueResume.of_snd_snd ‹_›

theorem State.MemOk.withRoom {t : State} (h1 : t.MemOk) : (State.withRoom s t).MemOk := by
  fun_cases State.withRoom s t
  case case1 => exact h
  case case2 => exact h1

theorem State.MemOk.execCtxload {d a b n} : Keeps (Machine.execCtxload d a b n s) := by
  fun_cases Machine.execCtxload d a b n s
  exact .next (h.runUniform (fun _ _ _ hu => (by
    extract_lets +onlyGivenNames r1 r2
    split
    · exact hu.illegal
    · split
      · exact hu
      · split
        · exact hu
        · split
          · exact hu.payloadError
          · split
            exact hu.withRoom (hu.rdmaRead.ctxload.of_snd ‹_›).retireVar)))

theorem State.MemOk.updQueue {q f} : (State.updQueue s q f).MemOk :=
  h.rest

theorem State.MemOk.execLaunch {d a b n} : Keeps (Machine.execLaunch d a b n s) := by
  fun_cases Machine.execLaunch d a b n s
  exact .next (h.runUniform (fun _ _ _ hu => (by
    extract_lets +onlyGivenNames r1
    split
    · exact hu.illegal
    · split
      · exact hu
      · split
        · exact hu.admitted.of_snd ‹_›
        · split
          · exact hu.admitted.of_snd ‹_›
          · split
            · exact (hu.admitted.of_snd ‹_›).payloadError
            · split
              · extract_lets +onlyGivenNames r2 r3 r4
                exact .retireVar (.ite ((hu.admitted.of_snd ‹_›).drainRelease.relaxedBytes.of_snd ‹_›).updQueue
                    ((hu.admitted.of_snd ‹_›).drainRelease.relaxedBytes.of_snd ‹_›)))))

theorem State.MemOk.writeComplete {ag ws} : (State.writeComplete s ag ws).MemOk :=
  h.updCtx.writeRegs

theorem State.MemOk.clearDomScratch {d lo hi} : (State.clearDomScratch s d lo hi).MemOk :=
  ⟨filter_wf h.1 _, h.2⟩

theorem State.MemOk.dropFrames {a bytes} : (State.dropFrames s a bytes).MemOk := by
  unfold State.dropFrames
  extract_lets hit keep
  exact h.mapCores (f := fun c => { c with tlb := c.tlb.filter (fun e => !hit e), bobbins := c.bobbins.map (fun (b : Bobbin) =>
    { b with copyQ := b.copyQ.map keep, matrixQ := b.matrixQ.map keep }) }) fun _ => rfl

theorem State.MemOk.execDcfg {d a b n} : Keeps (Machine.execDcfg d a b n s) :=
  .next (h.runUniform (fun _ _ _ hu => (by
  extract_lets +onlyGivenNames r1 r2
  split
  · exact hu.illegal
  · split
    · exact hu
    · extract_lets +onlyGivenNames r3 r4 r5
      split
      · exact hu.updDom.fitL2.clearDomScratch.writeComplete.advance
      · extract_lets +onlyGivenNames r6
        split
        · exact hu.updDom.fitL2.dropFrames.clearDomScratch.writeComplete.advance
        · exact hu.updDom.fitL2.dropFrames.blockAgent)))

theorem State.MemOk.sysReg {ag i} : (State.sysReg s ag i).2.MemOk := by
  fun_cases State.sysReg s ag i
  case case1 | case2 | case3 | case4 | case6 | case7 | case8 | case9 => exact h
  case case5 => exact h.choose.of_snd ‹_›

theorem State.MemOk.execSysrd {d i n} : Keeps (Machine.execSysrd d i n s) := by
  fun_cases Machine.execSysrd d i n s
  exact .next (h.runUniform (fun _ _ _ hu => (by
    split
    exact (hu.sysReg.of_snd ‹_›).retireVar)))

theorem State.MemOk.writeSys {bid tid i x} : (State.writeSys s bid tid i x).MemOk :=
  .ite (h.updThread.updBlock.updCoreRest fun _ => CoreState.scratch_writeSys) h.updThread.updBlock

theorem State.MemOk.execSyswr {d i n} : Keeps (Machine.execSyswr d i n s) :=
  .next (h.runUniform (fun _ _ _ hu => (by
  split
  · exact hu.writeSys.advance
  · exact hu)))

theorem State.MemOk.runHint {n body} (hbody : ∀ (u : State) (x : Agent), u.MemOk → (body u x).MemOk) : (State.runHint s n body).MemOk :=
  .foldl (fun _ _ hu => (hbody _ _ hu).advance) h.collect _

theorem State.MemOk.prefetch {a o n f} (hf : ∀ (u : State) (x : ℕ) (y : Loc), u.MemOk → (f u x y).MemOk) :
    (State.prefetch s a o n f).MemOk := by
  fun_cases State.prefetch s a o n f
  exact h.runHint (fun _ _ hu => (by
    extract_lets +onlyGivenNames r1 r2
    split
    · exact hu
    · split
      · split
        · exact hu.choose.of_snd ‹_›
        · extract_lets +onlyGivenNames r3
          split
          · exact hf _ _ _ ((hu.choose.of_snd ‹_›).lineFor.of_snd ‹_›)
          · exact (hu.choose.of_snd ‹_›).lineFor.of_snd ‹_›))

theorem State.MemOk.execPfL2 {_x a _y o n} : Keeps (Machine.execPfL2 _x a _y o n s) :=
  .next (h.prefetch (fun _ _ _ hu => (by
  split
  · exact hu.useL2
  · exact hu)))

theorem State.MemOk.fileBraid {ag pc} : (State.fileBraid s ag pc).MemOk := by
  fun_cases State.fileBraid s ag pc
  case case1 =>
    exact .foldl (fun _ _ hu => (by
      extract_lets +onlyGivenNames r1 r2
      exact .file (.ite hu.updCtx hu))) h _
  case case2 => exact h

theorem State.MemOk.execYield {_x n} : Keeps (Machine.execYield _x n s) := by
  fun_cases Machine.execYield _x n s
  exact .next (by
    extract_lets +onlyGivenNames r0 r1
    split
    · split
      · exact .foldl (fun _ _ hu => hu.fileBraid) ((h.runHint (fun _ _ hu => hu)).choose.of_snd ‹_›) _
      · exact (h.runHint (fun _ _ hu => hu)).choose.of_snd ‹_›)

end

/-! ### Completion of pending operations and the events of a core -/

section
variable {s : State} (h : s.MemOk)
include h

theorem State.MemOk.countEvent {core ev k} : (State.countEvent s core ev k).MemOk :=
  h.updCoreRest

theorem State.MemOk.execMark {_x _y i n} : Keeps (Machine.execMark _x _y i n s) :=
  .next (by
  extract_lets +onlyGivenNames r0 r1 r2
  exact h.countEvent.updCoreRest.runHint (fun _ _ hu => hu))

theorem State.MemOk.completePend {ag p vs} : (State.completePend s ag p vs).MemOk :=
  h.updCtx.writeComplete

theorem State.MemOk.leaveFrame {bid tid} : (State.leaveFrame s bid tid).MemOk := by
  fun_cases State.leaveFrame s bid tid
  case case1 | case3 => exact h
  case case2 => exact h.expand

theorem State.MemOk.writeGroup {ag p vs} : (State.writeGroup s ag p vs).MemOk := by
  fun_cases State.writeGroup s ag p vs
  case case1 =>
    extract_lets +onlyGivenNames r0
    exact .leaveFrame (.foldl (fun _ _ hu => hu.completePend) h.completePend _)
  case case2 => exact h.completePend

theorem State.MemOk.parkReturned {a kind xkind level} : (State.parkReturned s a kind xkind level).MemOk := by
  fun_cases State.parkReturned s a kind xkind level
  case case1 => exact h.parkEntry.parkAgent
  case case2 => exact h.parkEntry

theorem State.MemOk.returnAccess {a} : (State.returnAccess s a).MemOk := by
  fun_cases State.returnAccess s a
  case case1 => exact (h.translate.of_snd ‹_›).rest
  case case2 => exact (h.translate.of_snd ‹_›).rest.parkReturned
  case case3 => exact (h.translate.of_snd ‹_›).rest.endReturned.trap
  case case4 | case5 => exact h.translate.of_snd ‹_›

theorem State.MemOk.perform {id} : (State.perform s id).MemOk := by
  fun_cases State.perform s id
  case case1 => exact h.returnAccess
  case case2 | case4 | case5 => exact h
  case case3 => exact h.performNow

theorem State.MemOk.writeBound {ag id} : (State.writeBound s ag id).MemOk := by
  fun_cases State.writeBound s ag id
  case case1 => exact h.writeGroup
  case case2 | case3 | case4 => exact h

theorem State.MemOk.loanNow {bid tid lender r} : (State.loanNow s bid tid lender r).2.MemOk := by
  fun_cases State.loanNow s bid tid lender r
  case case1 | case3 => exact h
  case case2 => exact (h.pick.of_snd ‹_›).updCtx

theorem State.MemOk.execPendingComplete {ag id part} : Keeps (Machine.execPendingComplete ag id part s) := by
  fun_cases Machine.execPendingComplete ag id part s
  exact .next (by
    split
    · split
      · exact h.writeGroup
      · extract_lets +onlyGivenNames r0
        exact .writeBound (by
          dsimp only [r0]
          split
          · split
            · split
              · exact h.perform
              · exact h
            · exact h
          · exact h)
      · split
        · split
          · split
            exact (h.loanNow.of_snd ‹_›).writeGroup
          · exact h
        · exact h
      · exact h
      · exact h
    · exact h)

theorem State.MemOk.trapAt {ag cause info addr word} : (State.trapAt s ag cause info addr word).MemOk := by
  fun_cases State.trapAt s ag cause info addr word
  case case1 => exact h.trapThread
  case case2 => exact h.updBobbin

theorem State.MemOk.unblock {ag} : (State.unblock s ag).MemOk := by
  fun_cases State.unblock s ag
  case case1 => exact h.wake
  case case2 => exact h.updBobbin

theorem State.MemOk.completeWait {ag ws} : (State.completeWait s ag ws).MemOk := by
  fun_cases State.completeWait s ag ws
  case case1 => exact h.writeComplete.updCtx.unblock.leaveFrame
  case case2 => exact h.writeComplete.updCtx.unblock

theorem State.MemOk.of_elim {α : Type} {o : Option α} {f : α → Option State} {t : State} (he : o.elim (some s) f = some t)
    (hf : ∀ x, f x = some t → t.MemOk) : t.MemOk := by
  cases o with
  | none => cases he; exact h
  | some x => exact hf x he

theorem State.MemOk.execPhwaitComplete {ag} : Keeps (Machine.execPhwaitComplete ag s) :=
  .next (by
    split
    · split
      · exact h
      · exact h.trapAt
      · refine .ite h.unblock ?_
        split
        · exact h
        · exact (h.of_elim ‹_› fun _ hx => h.syncWith hx).completeWait
    · exact h)

theorem State.MemOk.execSleepExpire {bid tid} : Keeps (Machine.execSleepExpire bid tid s) :=
  .next (by
  split
  · split
    · split
      · exact h.wake
      · exact h
    · exact h
  · exact h)

theorem State.MemOk.execBinAged {core} : Keeps (Machine.execBinAged core s) :=
  .next (by
    refine .ite h (h.countEvent.updCoreRest fun c => ?_)
    dsimp only
    split <;> rfl)

theorem State.MemOk.easePressure {core} : (State.easePressure s core).MemOk := by
  refine h.updCoreRest fun c => ?_
  split <;> rfl

theorem State.MemOk.modeAtDraw {core ms} : (State.modeAtDraw s core ms).MemOk := by
  fun_cases State.modeAtDraw s core ms
  case case1 => exact h
  case case2 => exact h.expand

theorem State.MemOk.frameAtDraw {core ms} : (State.frameAtDraw s core ms).MemOk := by
  fun_cases State.frameAtDraw s core ms
  case case1 => exact ((h.allocFrame.of_snd ‹_›).choose.of_snd ‹_›).setFrame.touchFrame
  case case2 => exact (h.allocFrame.of_snd ‹_›).choose.of_snd ‹_›
  case case3 => exact h.allocFrame.of_snd ‹_›
  case case4 => exact h

theorem State.MemOk.drawInto {core pipe} : (State.drawInto s core pipe).MemOk := by
  fun_cases State.drawInto s core pipe
  case case1 | case2 | case3 => exact h
  case case4 => exact h.updCoreRest.countEvent.frameAtDraw.modeAtDraw.easePressure

theorem State.MemOk.repost {core abs} : (State.repost s core abs).MemOk := by
  fun_cases State.repost s core abs
  case case1 => exact h
  case case2 => exact h.setPhaser

theorem State.MemOk.execEffectivePriorityUpdate {core} : Keeps (Machine.execEffectivePriorityUpdate core s) :=
  .next (.foldl (fun _ _ hu => (by
  extract_lets +onlyGivenNames r1
  split
  · exact hu
  · exact .foldl (fun _ _ hu => hu.repost) hu.updBlock _)) h _)

theorem State.MemOk.execStoreGlobalPerform {id} : Keeps (Machine.execStoreGlobalPerform id s) :=
  .next (by
  split
  · split
    · split
      · exact h.perform
      · exact h
    · split
      · exact h.perform
      · exact h
  · exact h)

theorem State.MemOk.execRegionLineFill {bid r line} : Keeps (Machine.execRegionLineFill bid r line s) := by
  fun_cases Machine.execRegionLineFill bid r line s
  exact .next (by
    split
    · split
      · split
        · split
          · exact h.fillLine.of_snd ‹_›
          · exact h.fillLine.of_snd ‹_›
          · exact h
        · exact h
      · exact h
    · exact h)

theorem State.MemOk.execRegionWriteBack {bid r line} : Keeps (Machine.execRegionWriteBack bid r line s) :=
  .next (.settleBlock (by
  split
  · split
    · split
      · exact h.writeBack
      · exact h
    · exact h
  · exact h))

theorem State.MemOk.execKioskRequest {id} : Keeps (Machine.execKioskRequest id s) :=
  .next (by
  split
  · split
    · exact h.perform
    · exact h
  · exact h)

theorem State.MemOk.execPageWalk {bid va kind} : Keeps (Machine.execPageWalk bid va kind s) :=
  .next (by
  split
  · exact h
  · split
    · exact h
    · split
      · split
        · exact h.tlbFill.walkEnds
        · exact h
        · exact h.tlbFill)

theorem State.MemOk.execAdUpdate {ag va kind} : Keeps (Machine.execAdUpdate ag va kind s) := by
  fun_cases Machine.execAdUpdate ag va kind s
  exact .next (by
    extract_lets +onlyGivenNames r0 r1
    split
    · exact h
    · split
      · exact h.walkEnds
      · split
        · extract_lets +onlyGivenNames r2
          exact (h.adUpdate.of_snd ‹_›).updCoreRest
        · exact (h.adUpdate.of_snd ‹_›).updCoreRest)

theorem State.MemOk.execXinvTlbPerform {id core} : Keeps (Machine.execXinvTlbPerform id core s) :=
  .next (by
  split
  · exact h
  · split
    · exact h
    · extract_lets +onlyGivenNames r0 r1
      exact h.updCoreRest.rest)

theorem State.MemOk.execXsyncComplete {bid tid} : Keeps (Machine.execXsyncComplete bid tid s) :=
  .next (by
  extract_lets +onlyGivenNames r0
  split
  · split
    · exact h.xsyncDone.completeWait
    · exact h
  · exact h)

theorem State.MemOk.fsqWrite {d k} : (State.fsqWrite s d k).MemOk := by
  fun_cases State.fsqWrite s d k
  case case1 | case3 => exact h
  case case2 => exact h.deviceStore.updDom.tell

theorem State.MemOk.rdzvDone {ag b sd word} : (State.rdzvDone s ag b sd word).MemOk := by
  fun_cases State.rdzvDone s ag b sd word
  case case1 => exact h
  case case2 => exact h.updBobbin.trapAt
  case case3 => exact h.updBobbin.completeWait

theorem State.MemOk.wakeJoiner {core b} : (State.wakeJoiner s core b).MemOk := by
  fun_cases State.wakeJoiner s core b
  case case1 => exact h
  case case2 =>
    exact .foldl (fun _ _ hu => (by
      split
      · split
        · exact hu.rdzvDone
        · exact hu
      · exact hu)) h _

theorem State.MemOk.execBobbinEnd {core b} : Keeps (Machine.execBobbinEnd core b s) :=
  .next (by
  extract_lets +onlyGivenNames r0 r1
  split
  · split
    · exact h
    · extract_lets +onlyGivenNames r2
      split
      · exact h.drainRelease
      · exact h.drainRelease.updBobbin.wakeJoiner.settleBlock
  · exact h)

end

/-! ### The copy engine -/

section
variable {s : State} (h : s.MemOk)
include h

theorem State.MemOk.discardDropped {e} : (State.discardDropped s e).MemOk := by
  fun_cases State.discardDropped s e
  case case1 => exact h.uncount.updBobbin
  case case2 | case3 => exact h

theorem State.MemOk.engBegin {e acq sc} {t : State} (he : State.engBegin s e acq sc = some t) : t.MemOk := by
  revert he
  fun_cases State.engBegin s e acq sc
  case case1 => rintro ⟨⟩; exact .ite h.drainSeen.force.acquireSys h.drainSeen.force
  case case2 => nofun

theorem State.MemOk.updEng {e f} : (State.updEng s e f).MemOk :=
  h.updCommand

theorem State.MemOk.engLeaf {e kind va} : (State.engLeaf s e kind va).2.MemOk := by
  fun_cases State.engLeaf s e kind va
  case case1 => exact h.payloadError
  case case2 | case3 => exact h
  case case4 | case5 | case6 | case7 => exact h.translate.of_snd ‹_›
  case case8 => exact (h.translate.of_snd ‹_›).updEng

theorem State.MemOk.engLocVirtual {e kind va n} : (State.engLocVirtual s e kind va n).2.MemOk := by
  fun_cases State.engLocVirtual s e kind va n
  case case1 => exact h
  case case2 | case3 | case4 | case5 | case6 => exact h.engLeaf.of_snd ‹_›

theorem State.MemOk.engLocWindow {b kind off n} : (State.engLocWindow s b kind off n).2.MemOk := by
  fun_cases State.engLocWindow s b kind off n
  case case1 => exact h
  case case2 | case3 | case4 | case5 | case6 | case7 | case8 => exact h.fillRange.of_snd ‹_›

theorem State.MemOk.engLoc {e kind p n} : (State.engLoc s e kind p n).2.MemOk := by
  fun_cases State.engLoc s e kind p n
  case case1 => exact h.engLocVirtual
  case case2 => exact h
  case case3 =>
    exact .engLocWindow (by
      split
      · split
        · exact h.usedName
        · exact h
      · exact h)

theorem State.MemOk.engBytes {e loc n} : (State.engBytes s e loc n).2.MemOk := by
  fun_cases State.engBytes s e loc n
  case case1 =>
    split
    · exact h.payloadError
    · exact h
  case case2 => exact h.relaxedBytes.of_snd ‹_›

theorem State.MemOk.engReadParts {e kind p a0} : (State.engReadParts s e kind p a0).2.MemOk := by
  fun_induction State.engReadParts s e kind p a0
  case case1 => exact h
  case case2 => exact h.engLoc.of_snd ‹_›
  case case3 => exact (h.engLoc.of_snd ‹_›).engBytes.of_snd ‹_›
  case case4 ih => exact (ih ((h.engLoc.of_snd ‹_›).engBytes.of_snd ‹_›)).of_snd ‹_›
  case case5 ih => exact (ih ((h.engLoc.of_snd ‹_›).engBytes.of_snd ‹_›)).of_snd ‹_›

theorem State.MemOk.engRead {e kind p n} : (State.engRead s e kind p n).2.MemOk :=
  h.engReadParts

theorem State.MemOk.readIndex {e c} : (State.readIndex s e c).2.MemOk := by
  fun_cases State.readIndex s e c
  all_goals exact h.engRead.of_snd ‹_›

theorem State.MemOk.shuffle {a0 a1} : (State.shuffle s a0 a1).2.MemOk := by
  fun_induction State.shuffle s a0 a1
  case case1 => exact h
  case case2 ih => exact (ih (h.choose.of_snd ‹_›)).of_snd ‹_›

theorem State.MemOk.copyBegin {e c} : (State.copyBegin s e c).2.MemOk := by
  fun_cases State.copyBegin s e c
  case case1 | case2 => exact h
  case case3 => exact (h.engBegin ‹_›).readIndex.of_snd ‹_›
  case case4 => exact ((h.engBegin ‹_›).readIndex.of_snd ‹_›).updEng
  case case5 => exact ((h.engBegin ‹_›).shuffle.of_snd ‹_›).updEng
  case case6 => exact (h.engBegin ‹_›).updEng

theorem State.MemOk.engStopped {e x} : (State.engStopped s e x).MemOk := by
  fun_cases State.engStopped s e x
  case case1 | case2 => exact h
  case case3 => exact h.stopQueue
  case case4 => exact h.updEng.fsqAdd

theorem State.MemOk.sendCredit {e k} : (State.sendCredit s e k).MemOk := by
  fun_cases State.sendCredit s e k
  case case1 => exact h
  case case2 => exact h.creditLanded

theorem State.MemOk.engFinish {e rel sc k} : (State.engFinish s e rel sc k).MemOk := by
  fun_cases State.engFinish s e rel sc k
  case case1 => exact h
  case case2 => exact .updEng (.sendCredit (.ite h.drainRelease h))

theorem State.MemOk.engReach {e kind p a0} : (State.engReach s e kind p a0).2.MemOk := by
  fun_induction State.engReach s e kind p a0
  case case1 => exact h
  case case2 => exact h.engLoc.of_snd ‹_›
  case case3 ih => exact ih (h.engLoc.of_snd ‹_›)

theorem State.MemOk.engPut {e va loc bs} : (State.engPut s e va loc bs).MemOk := by
  fun_cases State.engPut s e va loc bs
  case case1 => exact h.addAccess
  case case2 => exact h.settleSeen.cacheStore.storeAt

theorem State.MemOk.engStore {e kind p bs a0} : (State.engStore s e kind p bs a0).MemOk := by
  fun_induction State.engStore s e kind p bs a0
  case case1 => exact h
  case case2 => exact h.engLoc.of_snd ‹_›
  case case3 e1 =>
    exact e1 (.ite (h.engLoc.of_snd ‹_›).engPut (by
      split
      · exact (h.engLoc.of_snd ‹_›).engPut.markWritten
      · exact (h.engLoc.of_snd ‹_›).engPut))

theorem State.MemOk.engWriteParts {e kind p bs ps} : (State.engWriteParts s e kind p bs ps).2.MemOk := by
  fun_cases State.engWriteParts s e kind p bs ps
  case case1 => exact h.engReach.of_snd ‹_›
  case case2 => exact (h.engReach.of_snd ‹_›).engStore

theorem State.MemOk.byteUnit {e c} : (State.byteUnit s e c).2.MemOk := by
  fun_cases State.byteUnit s e c
  case case1 e1 _ _ _ e2 =>
    exact .of_snd e2 (by
      split
      · exact .engRead (.of_snd e1 (.ite_snd h.choose h))
      · exact .of_snd e1 (.ite_snd h.choose h))
  case case2 e1 _ _ _ e2 _ _ e3 =>
    exact .of_snd e3 (.engWriteParts (.of_snd e2 (by
      split
      · exact .engRead (.of_snd e1 (.ite_snd h.choose h))
      · exact .of_snd e1 (.ite_snd h.choose h))))
  case case3 e1 _ _ _ e2 _ _ e3 =>
    exact .of_snd e3 (.engWriteParts (.of_snd e2 (by
      split
      · exact .engRead (.of_snd e1 (.ite_snd h.choose h))
      · exact .of_snd e1 (.ite_snd h.choose h))))

theorem State.MemOk.engWrite {e kind p bs} : (State.engWrite s e kind p bs).2.MemOk :=
  h.engWriteParts

theorem State.MemOk.fieldPut {e p n lo len code} : (State.fieldPut s e p n lo len code).2.MemOk := by
  fun_cases State.fieldPut s e p n lo len code
  case case1 => exact h.engWrite
  case case2 => exact h.engRead.of_snd ‹_›
  case case3 => exact (h.engRead.of_snd ‹_›).engWrite

theorem State.MemOk.planeRun {e c} : (State.planeRun s e c).2.MemOk := by
  have hput {u : State} (hu : u.MemOk) (a m d n code) : (match u.fieldPut e a m d n code with
      | (.error z, s) => ((.error z, s) : Except EngStop Nat × State)
      | (.ok _, s) => (.ok n, s)).2.MemOk := by
    split <;> exact hu.fieldPut.of_snd ‹_›
  unfold State.planeRun
  dsimp only
  split
  · exact hput h _ _ _ _ _
  · split
    · exact hput h.choose _ _ _ _ _
    · split
      · exact h.engRead.of_snd ‹_›
      · exact hput (h.engRead.of_snd ‹_›) _ _ _ _ _

theorem State.MemOk.planePut {e t i0 i1 i2 code a0} : (State.planePut s e t i0 i1 i2 code a0).2.MemOk := by
  fun_induction State.planePut s e t i0 i1 i2 code a0
  case case1 => exact h
  case case2 => exact h.fieldPut.of_snd ‹_›
  case case3 ih => exact ih (h.fieldPut.of_snd ‹_›)

theorem State.MemOk.elemPut {e t i0 i1 i2 code} : (State.elemPut s e t i0 i1 i2 code).2.MemOk := by
  fun_cases State.elemPut s e t i0 i1 i2 code
  case case1 => exact h.planePut
  case case2 => exact h.fieldPut

theorem State.MemOk.planeGet {e t i0 i1 i2 a0} : (State.planeGet s e t i0 i1 i2 a0).2.MemOk := by
  fun_induction State.planeGet s e t i0 i1 i2 a0
  case case1 => exact h
  case case2 => exact h.engRead.of_snd ‹_›
  case case3 ih => exact (ih (h.engRead.of_snd ‹_›)).of_snd ‹_›
  case case4 ih => exact (ih (h.engRead.of_snd ‹_›)).of_snd ‹_›

theorem State.MemOk.elemGet {e t i0 i1 i2} : (State.elemGet s e t i0 i1 i2).2.MemOk := by
  fun_cases State.elemGet s e t i0 i1 i2
  case case1 => exact h.planeGet
  case case2 | case3 => exact h.engRead.of_snd ‹_›

theorem State.MemOk.quantParams {e t i0 i1 i2} : (State.quantParams s e t i0 i1 i2).2.MemOk := by
  fun_cases State.quantParams s e t i0 i1 i2
  case case1 => exact h.engRead.of_snd ‹_›
  case case2 | case3 => exact (h.engRead.of_snd ‹_›).engRead.of_snd ‹_›

theorem State.MemOk.elemValue {e t i0 i1 i2} : (State.elemValue s e t i0 i1 i2).2.MemOk := by
  fun_cases State.elemValue s e t i0 i1 i2
  case case1 | case6 | case7 | case8 => exact h.elemGet.of_snd ‹_›
  case case2 | case3 => exact (h.elemGet.of_snd ‹_›).quantParams.of_snd ‹_›
  case case4 | case5 => exact (h.elemGet.of_snd ‹_›).engRead.of_snd ‹_›

theorem State.MemOk.elemStore {e t i0 i1 i2 x} : (State.elemStore s e t i0 i1 i2 x).2.MemOk := by
  fun_cases State.elemStore s e t i0 i1 i2 x
  case case1 => exact h.quantParams.of_snd ‹_›
  case case2 => exact (h.quantParams.of_snd ‹_›).elemPut
  case case3 | case4 => exact h.elemPut

theorem State.MemOk.elemMove {e c i} : (State.elemMove s e c i).2.MemOk := by
  fun_cases State.elemMove s e c i
  case case1 => exact h.elemPut
  case case2 => exact h.elemGet.of_snd ‹_›
  case case3 => exact (h.elemGet.of_snd ‹_›).engRead.of_snd ‹_›
  case case4 => exact ((h.elemGet.of_snd ‹_›).engRead.of_snd ‹_›).engWrite
  case case5 => exact h.elemValue.of_snd ‹_›
  case case6 => exact (h.elemValue.of_snd ‹_›).elemStore

theorem State.MemOk.elemUnit {e c} : (State.elemUnit s e c).2.MemOk := by
  fun_cases State.elemUnit s e c
  all_goals exact h.elemMove.of_snd ‹_›

theorem State.MemOk.copyUnit {e} : (State.copyUnit s e).2.MemOk := by
  fun_cases State.copyUnit s e
  case case1 => exact h
  case case2 => exact h.engFinish
  case case3 e1 =>
    exact .engStopped (.of_snd e1 (by
      split
      · exact h.byteUnit
      · exact h.planeRun
      · exact h.elemUnit))
  case case4 e1 _ _ _ _ =>
    exact .engFinish (.updEng (.of_snd e1 (by
      split
      · exact h.byteUnit
      · exact h.planeRun
      · exact h.elemUnit)))
  case case5 e1 _ _ _ _ =>
    split
    · exact .updEng (.of_snd e1 (by
        split
        · exact h.byteUnit
        · exact h.planeRun
        · exact h.elemUnit))
    · exact .sendCredit (.updEng (.of_snd e1 (by
        split
        · exact h.byteUnit
        · exact h.planeRun
        · exact h.elemUnit)))

theorem State.MemOk.copyUnits {e a0} : (State.copyUnits s e a0).MemOk := by
  fun_induction State.copyUnits s e a0
  case case1 => exact h
  case case2 ih => exact ih (h.copyUnit.of_snd ‹_›)
  case case3 => exact h.copyUnit.of_snd ‹_›

theorem State.MemOk.execCopyCommandStart {core b id parts} : Keeps (Machine.execCopyCommandStart core b id parts s) := by
  fun_cases Machine.execCopyCommandStart core b id parts s
  exact .next (by
    extract_lets +onlyGivenNames r0
    split
    · exact h
    · extract_lets +onlyGivenNames r1
      split
      · exact h.discardDropped
      · split
        · exact (h.discardDropped.copyBegin.of_snd ‹_›).engStopped
        · extract_lets +onlyGivenNames r2
          split
          · split
            · exact (h.discardDropped.copyBegin.of_snd ‹_›).copyUnits
            · split
              · split
                · exact ((h.discardDropped.copyBegin.of_snd ‹_›).copyUnits.choose.of_snd ‹_›).sendCredit
                · exact (h.discardDropped.copyBegin.of_snd ‹_›).copyUnits.choose.of_snd ‹_›
          · exact (h.discardDropped.copyBegin.of_snd ‹_›).copyUnits)

theorem State.MemOk.engComplete {e} : (State.engComplete s e).MemOk := by
  fun_cases State.engComplete s e
  case case1 => exact h.uncount.updBobbin
  case case2 => exact h.discardDropped
  case case3 => exact h

theorem State.MemOk.uncountSaved {phs} : (State.uncountSaved s phs).MemOk := by
  unfold State.uncountSaved
  exact .foldl (fun _ _ hu => (by
    split
    · exact hu
    · split
      · extract_lets +onlyGivenNames r1
        exact hu.deviceStore
      · exact hu)) h _

theorem State.MemOk.stopSaved {id va} : (State.stopSaved s id va).MemOk := by
  fun_cases State.stopSaved s id va
  case case1 => exact h
  case case2 => exact .rest (.uncountSaved (.ite h.fsqAdd (.foldl (fun _ _ hu => hu.creditLanded) h.fsqAdd _)))

theorem State.MemOk.creditFails {c} : (State.creditFails s c).MemOk := by
  fun_cases State.creditFails s c
  case case1 => exact h
  case case2 => exact h.stopQueue
  case case3 => exact h.stopSaved

theorem State.MemOk.holdCredit {c} : (State.holdCredit s c).MemOk := by
  fun_cases State.holdCredit s c
  case case1 => exact h
  case case2 => exact h.rest

theorem State.MemOk.execPhaserCredit {id} : Keeps (Machine.execPhaserCredit id s) :=
  .next (by
  split
  · exact h
  · extract_lets +onlyGivenNames r0
    split
    · exact h
    · split
      · extract_lets +onlyGivenNames r1
        split
        · exact h
        · split
          · exact h.rest
          · split
            · extract_lets +onlyGivenNames r2
              split
              · exact h.rest.checkPhaser
              · exact h.rest.setPhaser
            · exact h.rest.creditFails
      · split
        · split
          · exact h.holdCredit
          · exact h
        · exact h.rest.creditFails)

end

/-! ### The matrix engine -/

section
variable {s : State} (h : s.MemOk)
include h

theorem State.MemOk.updTileData {e c odd f} : (State.updTileData s e c odd f).MemOk :=
  h.updTile

theorem State.MemOk.runMzero {e c} : (State.runMzero s e c).MemOk :=
  .foldl (fun _ _ hu => hu.updTileData) h _

theorem State.MemOk.setTileElems {e c xs} : (State.setTileElems s e c xs).MemOk := by
  fun_cases State.setTileElems s e c xs
  case case1 => exact h.updTileData.updTileData
  case case2 => exact h.updTileData

theorem State.MemOk.runMzpc {e c} : (State.runMzpc s e c).MemOk :=
  h.setTileElems.updTileData

theorem State.MemOk.shadowTiles {e c} : (State.shadowTiles s e c).MemOk :=
  .foldl (fun _ _ hu => hu.updTile) h _

theorem State.MemOk.mmaBegin {e c m} : (State.mmaBegin s e c m).MemOk :=
  h.updEng

theorem State.MemOk.mrsumUnit {e c col i} : (State.mrsumUnit s e c col i).2.MemOk := by
  fun_cases State.mrsumUnit s e c col i
  all_goals exact h.engWrite.of_snd ‹_›

theorem State.MemOk.elemLoop {f i a0} (hf : ∀ (u : State) (x : ℕ), u.MemOk → (f u x).2.MemOk) : (State.elemLoop s f i a0).2.MemOk := by
  fun_induction State.elemLoop s f i a0
  case case1 => exact h
  case case2 => exact (hf _ _ h).of_snd ‹_›
  case case3 ih => exact ih ((hf _ _ h).of_snd ‹_›)

theorem State.MemOk.drainUnit {e c form i} : (State.drainUnit s e c form i).2.MemOk := by
  fun_cases State.drainUnit s e c form i
  all_goals exact (h.elemLoop (fun _ _ hu => hu.elemStore)).of_snd ‹_›

theorem State.MemOk.planeValue {e c tr d l k} : (State.planeValue s e c tr d l k).2.MemOk := by
  fun_cases State.planeValue s e c tr d l k
  case case1 => exact h
  case case2 => exact h.elemGet.of_snd ‹_›
  case case3 | case4 => exact (h.elemGet.of_snd ‹_›).quantParams.of_snd ‹_›
  case case5 | case6 => exact h.elemValue.of_snd ‹_›

theorem State.MemOk.planeValues {e c tr d l k a0} : (State.planeValues s e c tr d l k a0).2.MemOk := by
  fun_induction State.planeValues s e c tr d l k a0
  case case1 => exact h
  case case2 => exact h.planeValue.of_snd ‹_›
  case case3 ih => exact (ih (h.planeValue.of_snd ‹_›)).of_snd ‹_›
  case case4 ih => exact (ih (h.planeValue.of_snd ‹_›)).of_snd ‹_›

theorem State.MemOk.planeWrite {e t i0 i1 i2 codes a0} : (State.planeWrite s e t i0 i1 i2 codes a0).2.MemOk := by
  fun_induction State.planeWrite s e t i0 i1 i2 codes a0
  case case1 => exact h
  case case2 => exact h.engWrite.of_snd ‹_›
  case case3 ih => exact ih (h.engWrite.of_snd ‹_›)

theorem State.MemOk.planeUnit {e c tr i} : (State.planeUnit s e c tr i).2.MemOk := by
  fun_cases State.planeUnit s e c tr i
  case case1 => exact h.planeValues.of_snd ‹_›
  case case2 | case5 => exact (h.planeValues.of_snd ‹_›).planeWrite.of_snd ‹_›
  case case3 | case4 => exact ((h.planeValues.of_snd ‹_›).planeWrite.of_snd ‹_›).engWrite.of_snd ‹_›

theorem State.MemOk.restoreTiles {e c} : (State.restoreTiles s e c).MemOk :=
  .foldl (fun _ _ hu => hu.updTile) h _

theorem State.MemOk.matrixStopped {e c x} : (State.matrixStopped s e c x).MemOk := by
  fun_cases State.matrixStopped s e c x
  case case1 e1 e2 => exact .engStopped (by
      dsimp only [e2]
      split
      · split
        · exact (by
            dsimp only [e1]
            split
            · exact h
            · exact h
            · exact h.restoreTiles
            · exact h.restoreTiles
            · exact h)
        · exact .updEng (by
            dsimp only [e1]
            split
            · exact h
            · exact h
            · exact h.restoreTiles
            · exact h.restoreTiles
            · exact h)
      · exact (by
          dsimp only [e1]
          split
          · exact h
          · exact h
          · exact h.restoreTiles
          · exact h.restoreTiles
          · exact h))

theorem State.MemOk.matrixUnit {e} : (State.matrixUnit s e).2.MemOk := by
  fun_cases State.matrixUnit s e
  case case1 => exact h
  case case2 => exact h.engFinish
  case case3 e1 =>
    exact .matrixStopped (.of_snd e1 (by
      split
      · exact h.mrsumUnit
      · exact h.drainUnit
      · exact h.planeUnit
      · exact h))
  case case4 e1 _ _ _ =>
    exact .engFinish (.updEng (.of_snd e1 (by
      split
      · exact h.mrsumUnit
      · exact h.drainUnit
      · exact h.planeUnit
      · exact h)))
  case case5 e1 _ _ _ =>
    exact .updEng (.of_snd e1 (by
      split
      · exact h.mrsumUnit
      · exact h.drainUnit
      · exact h.planeUnit
      · exact h))

theorem State.MemOk.matrixUnits {e a0} : (State.matrixUnits s e a0).MemOk := by
  fun_induction State.matrixUnits s e a0
  case case1 => exact h
  case case2 ih => exact ih (h.matrixUnit.of_snd ‹_›)
  case case3 => exact h.matrixUnit.of_snd ‹_›

theorem State.MemOk.of_ite {c : Prop} [Decidable c] {o : Option State} {t : State} (he : (if c then some s else o) = some t)
    (ho : o = some t → t.MemOk) : t.MemOk := by
  split at he
  · cases he; exact h
  · exact ho he

theorem State.MemOk.execMatrixCommandStart {core b id parts} : Keeps (Machine.execMatrixCommandStart core b id parts s) :=
  .next (by
    extract_lets +onlyGivenNames e r1
    split
    · exact h.discardDropped
    · extract_lets +onlyGivenNames acq
      refine .ite h.discardDropped ?_
      split
      · exact h.discardDropped
      · next he =>
        have hu := h.discardDropped.of_ite he fun hb => h.discardDropped.engBegin hb
        split
        · exact hu.runMzero.engFinish
        · exact hu.shadowTiles.runMzpc.engFinish
        · refine .ite hu ?_
          exact .ite hu.shadowTiles.mmaBegin.updEng hu.shadowTiles.mmaBegin
        · exact hu.updEng.matrixUnits)

theorem State.MemOk.planeLines {e t w ch plane a0} : (State.planeLines s e t w ch plane a0).2.MemOk := by
  fun_induction State.planeLines s e t w ch plane a0
  case case1 => exact h
  case case2 => exact h.engRead.of_snd ‹_›
  case case3 ih => exact (ih (h.engRead.of_snd ‹_›)).of_snd ‹_›
  case case4 ih => exact (ih (h.engRead.of_snd ‹_›)).of_snd ‹_›

theorem State.MemOk.fidCount {core i} : (State.fidCount s core i).MemOk :=
  h.updCoreRest

theorem State.MemOk.injectNow {e c m} : (State.injectNow s e c m).2.MemOk := by
  fun_cases State.injectNow s e c m
  case case1 => exact h.updCoreRest.fidCount.updEng
  case case2 | case3 => exact h

theorem State.MemOk.sumVectors {e c a b as bs} : (State.sumVectors s e c a b as bs).MemOk :=
  h.updTileData

theorem State.MemOk.fidCountIf {core i b} : (State.fidCountIf s core i b).MemOk := by
  fun_cases State.fidCountIf s core i b
  case case1 => exact h.fidCount
  case case2 => exact h

theorem State.MemOk.countMismatch {core mismatch} : (State.countMismatch s core mismatch).MemOk := by
  fun_cases State.countMismatch s core mismatch
  case case1 => exact h
  case case2 => exact h.fidCount.fidCountIf.fidCountIf.fidCountIf

theorem State.MemOk.freeSum {split n x} : (State.freeSum s split n x).2.MemOk := by
  fun_cases State.freeSum s split n x
  exact (h.choose.of_snd ‹_›).choose.of_snd ‹_›

theorem State.MemOk.yieldSums {c m} : (State.yieldSums s c m).2.MemOk := by
  fun_cases State.yieldSums s c m
  case case1 =>
    exact .foldl_snd (fun _ _ hu => (by
      split
      exact hu.freeSum.of_snd ‹_›)) h
  case case2 => exact h

theorem State.MemOk.operandParams {e t w param d i} : (State.operandParams s e t w param d i).2.MemOk := by
  fun_cases State.operandParams s e t w param d i
  case case1 | case2 => exact h.quantParams.of_snd ‹_›
  case case3 | case4 => exact h.engRead.of_snd ‹_›
  case case5 => exact h

theorem State.MemOk.lineParams {e t w param d a0} : (State.lineParams s e t w param d a0).2.MemOk := by
  fun_induction State.lineParams s e t w param d a0
  case case1 => exact h
  case case2 => exact h.operandParams.of_snd ‹_›
  case case3 ih => exact (ih (h.operandParams.of_snd ‹_›)).of_snd ‹_›
  case case4 ih => exact (ih (h.operandParams.of_snd ‹_›)).of_snd ‹_›

theorem State.MemOk.codeSums {e m t w ch seg a0} : (State.codeSums s e m t w ch seg a0).2.MemOk := by
  fun_induction State.codeSums s e m t w ch seg a0
  case case1 => exact h
  case case2 => exact h.planeLines.of_snd ‹_›
  case case3 ih => exact (ih (h.planeLines.of_snd ‹_›)).of_snd ‹_›
  case case4 ih => exact (ih (h.planeLines.of_snd ‹_›)).of_snd ‹_›

theorem State.MemOk.groupSteps {e c m ch sums a0} : (State.groupSteps s e c m ch sums a0).2.MemOk := by
  fun_induction State.groupSteps s e c m ch sums a0
  case case1 => exact h
  case case2 => exact h.lineParams.of_snd ‹_›
  case case3 => exact (h.lineParams.of_snd ‹_›).lineParams.of_snd ‹_›
  case case4 => exact ((h.lineParams.of_snd ‹_›).lineParams.of_snd ‹_›).codeSums.of_snd ‹_›
  case case5 => exact (((h.lineParams.of_snd ‹_›).lineParams.of_snd ‹_›).codeSums.of_snd ‹_›).codeSums.of_snd ‹_›
  case case6 ih => exact ih ((((h.lineParams.of_snd ‹_›).lineParams.of_snd ‹_›).codeSums.of_snd ‹_›).codeSums.of_snd ‹_›).updTileData.updEng

theorem State.MemOk.mmaSums {e c m} : (State.mmaSums s e c m).MemOk := by
  unfold State.mmaSums
  extract_lets +onlyGivenNames last
  split
  · extract_lets +onlyGivenNames due
    split
    next hy =>
    have hs := State.MemOk.of_snd hy (.ite_snd h h.yieldSums)
    split
    · next hg => exact (hs.groupSteps.of_snd hg).matrixStopped
    · next hg =>
      have hs := hs.groupSteps.of_snd hg
      extract_lets +onlyGivenNames zero s1
      have hs : s1.MemOk := .ite hs hs.updEng
      exact .ite hs.engFinish hs
  · split
    · exact h.yieldSums.setTileElems.engFinish
    · exact h

theorem State.MemOk.mmaStep {e c m soft} : (State.mmaStep s e c m soft).MemOk := by
  unfold State.mmaStep
  extract_lets +onlyGivenNames ch a b
  split
  · next ha => exact (h.planeLines.of_snd ha).matrixStopped
  · next ha =>
    have hs := h.planeLines.of_snd ha
    split
    · next hb => exact (hs.planeLines.of_snd hb).matrixStopped
    · next hb =>
      have hs := hs.planeLines.of_snd hb
      extract_lets +onlyGivenNames pops
      split
      next hi =>
      have hs := hs.injectNow.of_snd hi
      split
      next hk =>
      have hs := State.MemOk.of_snd hk (.ite_snd hs.choose hs)
      extract_lets +onlyGivenNames sft struck rates
      split
      next hf =>
      have hs := State.MemOk.of_snd hf (.ite_snd hs.choose hs)
      split
      next hu =>
      have hs := State.MemOk.of_snd hu (.ite_snd hs.choose hs)
      extract_lets +onlyGivenNames err mismatch s1 s2 s3
      have hs : s3.MemOk := .countMismatch (.updEng (.ite hs hs.sumVectors))
      split
      · split
        · exact hs.mmaSums
        · exact hs
      · exact hs.restoreTiles.fidCount.updEng.mmaBegin
      · exact hs.fidCountIf.matrixStopped

theorem State.MemOk.execPlanePairStep {core b id soft} : Keeps (Machine.execPlanePairStep core b id soft s) :=
  .next (by
  extract_lets +onlyGivenNames r0
  split
  · exact h
  · split
    · split
      · extract_lets +onlyGivenNames r1
        split
        · exact h
        · split
          · exact h.mmaStep
          · exact h.mmaSums
      · exact h
    · exact h)

theorem State.MemOk.execMatrixCommandComplete {core b id} : Keeps (Machine.execMatrixCommandComplete core b id s) :=
  .next (by
  extract_lets +onlyGivenNames r0
  split
  · exact h
  · extract_lets +onlyGivenNames r1 r2
    exact .engComplete (.ite (.foldl (fun _ _ hu => hu.updTileData) h _) h))

end

/-! ### Migration, mailbox appends and collective channels -/

section
variable {s : State} (h : s.MemOk)
include h

theorem State.MemOk.execMigrStart {core b id} : Keeps (Machine.execMigrStart core b id s) := by
  fun_cases Machine.execMigrStart core b id s
  exact .next (by
    extract_lets +onlyGivenNames r0 r1
    split
    · exact h.discardDropped
    · split
      · exact h.discardDropped
      · split
        · exact h.discardDropped
        · extract_lets +onlyGivenNames r2 r3 r4
          split
          · exact (h.discardDropped.engBegin ‹_›).payloadError
          · exact h.discardDropped.engBegin ‹_›
          · split
            · exact (h.discardDropped.engBegin ‹_›).engStopped
            · split
              · exact (h.discardDropped.engBegin ‹_›).engStopped
              · split
                · exact (h.discardDropped.engBegin ‹_›).engStopped
                · split
                  · exact (h.discardDropped.engBegin ‹_›).engStopped
                  · extract_lets +onlyGivenNames r5
                    exact (h.discardDropped.engBegin ‹_›).updEng.rest)

theorem State.MemOk.unfreeze {id} : (State.unfreeze s id).MemOk :=
  h.rest

theorem State.MemOk.drainFrame {id frame bytes} : (State.drainFrame s id frame bytes).MemOk := by
  fun_cases State.drainFrame s id frame bytes
  exact .rest (.foldl (fun _ _ hu => (by
    split
    · split
      · exact (hu.choose.of_snd ‹_›).perform
      · exact hu.choose.of_snd ‹_›)) h.unfreeze _)

theorem State.MemOk.copyFrame {src dst bytes} : (State.copyFrame s src dst bytes).MemOk :=
  .foldl (fun _ _ hu => hu.cacheStore.storePhys _ _) h _

theorem State.MemOk.execMigrDrainDone {core b id} : Keeps (Machine.execMigrDrainDone core b id s) :=
  .next (by
  extract_lets +onlyGivenNames r0
  split
  · exact h
  · split
    · exact h
    · extract_lets +onlyGivenNames r1 r2 r3 r4
      split
      · exact .payloadError (.unfreeze (.ite h.drainFrame.acquireSys h.drainFrame))
      · extract_lets +onlyGivenNames r5 r6 r7
        split
        · extract_lets +onlyGivenNames r8 r9
          exact .issueXinv (.updEng (.storePhys (.cacheStore (.copyFrame (.ite h.drainFrame.acquireSys h.drainFrame))) _ _))
        · exact .engStopped (.unfreeze (.copyFrame (.ite h.drainFrame.acquireSys h.drainFrame))))

theorem State.MemOk.returnSwung {c held} : (State.returnSwung s c held).MemOk :=
  .foldl (fun _ _ hu => .ite hu.rest.returnAccess hu) h _

theorem State.MemOk.execMigrInvalidateDone {core b id} : Keeps (Machine.execMigrInvalidateDone core b id s) :=
  .next (by
  extract_lets +onlyGivenNames r0
  split
  · exact h
  · extract_lets +onlyGivenNames r1
    split
    · exact h
    · split
      · split
        · exact h
        · exact h.engFinish
      · split
        · exact h
        · extract_lets +onlyGivenNames r2 r3 r4 r5 r6
          exact h.unfreeze.rest.returnSwung.updEng.engFinish)

theorem State.MemOk.retryMrecv {bid tid} : (State.retryMrecv s bid tid).MemOk := by
  fun_cases State.retryMrecv s bid tid
  case case1 => exact (h.messages.of_snd ‹_›).removeMessage.completeWait
  case case2 => exact h.messages.of_snd ‹_›
  case case3 => exact h

theorem State.MemOk.execMailboxAppend {bid} : Keeps (Machine.execMailboxAppend bid s) :=
  .next (by
  split
  · exact h
  · split
    · exact h
    · extract_lets +onlyGivenNames r0
      exact .foldl (fun _ _ hu => hu.retryMrecv) h.updMail _)

theorem State.MemOk.updChannel {k f} : (State.updChannel s k f).MemOk :=
  h.rest

theorem State.MemOk.collMismatch {b c round} : (State.collMismatch s b c round).MemOk :=
  h.fsqAdd

theorem State.MemOk.execCollContributionAccept {ag id} : Keeps (Machine.execCollContributionAccept ag id s) :=
  .next (by
  split
  · exact h
  · split
    · split
      · split
        · exact h
        · split
          · extract_lets +onlyGivenNames r0 r1 r2 r3
            exact .writeGroup (.ite h.updChannel h.updChannel.collMismatch)
      · exact h
    · exact h)

theorem State.MemOk.deliverRound {sender bs t} : (State.deliverRound s sender bs t).MemOk := by
  unfold State.deliverRound
  split
  · exact .ite h (.rest (h.writeScr _ _ _).markWritten)
  · split
    · exact .rest h.rdmaRead.deviceStore
    · exact h

theorem State.MemOk.execCollRoundComplete {chan} : Keeps (Machine.execCollRoundComplete chan s) :=
  .next (by
  split
  · exact h
  · split
    · exact h
    · extract_lets +onlyGivenNames r0 r1 r2
      exact .foldl (fun _ _ hu => hu.deliverRound) h.updChannel _)

theorem State.MemOk.live {s' : State} (h1 : s'.MemOk) : (State.live s s').MemOk := by
  fun_cases State.live s s'
  case case1 => exact h1
  case case2 => exact h

theorem State.MemOk.execParkedArrival {id} : Keeps (Machine.execParkedArrival id s) :=
  .next (h.live (by
  split
  · exact h
  · split
    · exact h
    · split
      · exact h
      · extract_lets +onlyGivenNames r0 r1
        split
        · exact h.rest.creditFails
        · split
          · exact h.rest.payloadError
          · extract_lets +onlyGivenNames r2
            exact h.rest.rdmaRead.deviceStore))

theorem State.MemOk.execNameCacheFill {core bid name} : Keeps (Machine.execNameCacheFill core bid name s) :=
  .next (by
  split
  · split
    · split
      · exact h.useName
      · exact h
    · exact h
  · exact h)

theorem State.MemOk.execDcfgComplete {bid tid} : Keeps (Machine.execDcfgComplete bid tid s) :=
  .next (by
  extract_lets +onlyGivenNames r0
  split
  · split
    · exact h.clearDomScratch.completeWait
    · exact h
  · exact h)

end

/-! ### Saves and restores of a unit -/

section
variable {s : State} (h : s.MemOk)
include h

theorem State.MemOk.restoreStarted {b} : (State.restoreStarted s b).MemOk := by
  unfold State.restoreStarted
  exact .foldl (fun _ _ hu => .foldl (fun _ _ hu => (by
    extract_lets +onlyGivenNames r2
    split
    · split
      · exact hu.restoreTiles
      · exact hu
    · exact hu)) hu _) h _

theorem State.MemOk.fsqWithdraw {d mine} : (State.fsqWithdraw s d mine).MemOk :=
  .updDom (.foldl (fun _ _ hu => hu.deviceStore) h _)

theorem State.MemOk.settleSave {mine} : (State.settleSave s mine).MemOk :=
  .rest (.foldl (fun _ _ hu => hu.fsqWithdraw) (.foldl (fun _ _ hu => hu.restoreStarted) h _) _)

theorem State.MemOk.freeBytes {a0} : (State.freeBytes s a0).2.MemOk := by
  fun_induction State.freeBytes s a0
  case case1 => exact h
  case case2 ih => exact (ih (h.choose.of_snd ‹_›)).of_snd ‹_›

theorem State.MemOk.saveBlock {b} : (State.saveBlock s b).MemOk :=
  .leaveCore (.foldl (fun _ _ hu => hu.updBobbin) h _)

theorem State.MemOk.putCommit {image seq nblk state} : (State.putCommit s image seq nblk state).MemOk :=
  h.deviceStore

theorem State.MemOk.writePart {b image} : (State.writePart s b image).MemOk :=
  .deviceStore (.foldl (fun _ _ hu => hu.deviceStore) (.deviceStore (.deviceStore
      (.foldl (fun _ _ hu => .foldl (fun _ _ hu => hu.deviceStore) hu _) h.deviceStore.deviceStore.deviceStore _))) _)

theorem State.MemOk.writeImage {u first mine} : (State.writeImage s u first mine).MemOk :=
  .deviceStore (.foldl (fun _ _ hu => hu.deviceStore) (.foldl (fun _ _ hu => hu.writePart) h.putCommit _) _)

theorem State.MemOk.streetChange {unit f} : (State.streetChange s unit f).MemOk :=
  .foldl (fun _ _ hu => hu.streetStore) h.dropNames.rest _

theorem State.MemOk.execSaveImageWrite {unit} : Keeps (Machine.execSaveImageWrite unit s) :=
  .next (h.live (by
    extract_lets +onlyGivenNames mine before
    split
    · exact h
    · refine .ite h ?_
      extract_lets +onlyGivenNames r2 left
      have hr : r2.MemOk := h.force.settleSave
      clear_value r2 left
      cases left with
      | nil => exact hr
      | cons first rest => 
        dsimp only
        exact .streetChange (.rest (.foldl (fun _ _ hu => hu.saveBlock) hr.freeBytes.writeImage _))))

theorem State.MemOk.stopUnsaved {b} : (State.stopUnsaved s b).MemOk :=
  h.fsqAdd.stopGrid.tell

theorem State.MemOk.saveEmergency {b k} : (State.saveEmergency s b k).MemOk :=
  h.rest.putCommit.requestSave

theorem State.MemOk.emergencyNext {d} : (State.emergencyNext s d).MemOk := by
  fun_cases State.emergencyNext s d
  case case1 => exact h
  case case2 =>
    exact .foldl (fun _ _ hu => (by
      extract_lets +onlyGivenNames r1
      split
      · exact hu
      · split
        · exact hu
        · split
          · exact hu.stopUnsaved
          · exact hu.saveEmergency)) h _

theorem State.MemOk.journalUnit {u kind} : (State.journalUnit s u kind).MemOk :=
  h.journalAdd

theorem State.MemOk.execImageCommit {unit} : Keeps (Machine.execImageCommit unit s) :=
  .next (h.live (by
  split
  · exact h
  · split
    · exact h
    · exact h.withRoom (by
        extract_lets +onlyGivenNames r0 r1 r2 r3 r4
        exact .emergencyNext (.journalUnit (.ite h.putCommit.rest.dropSaved h.putCommit.rest)))))

theorem State.MemOk.loadPart {u b} : (State.loadPart s u b).MemOk := by
  unfold State.loadPart
  exact .foldl (fun _ _ hu => (by
    extract_lets +onlyGivenNames r1
    exact hu.updTile)) (h.rdmaRead.writeScr _ _ _).updCoreRest _

theorem State.MemOk.streetAdd {unit name cur rank} : (State.streetAdd s unit name cur rank).MemOk := by
  fun_cases State.streetAdd s unit name cur rank
  case case1 => exact h.rest.streetStore
  case case2 => exact h

theorem State.MemOk.reviveNames {u} : (State.reviveNames s u).MemOk :=
  .foldl (fun _ _ hu => .ite hu hu.streetAdd) h.streetChange _

theorem State.MemOk.freeEmergency {unit} : (State.freeEmergency s unit).MemOk :=
  h.rest

theorem State.MemOk.resumeBlock {b} : (State.resumeBlock s b).MemOk := by
  unfold State.resumeBlock
  exact .foldl (fun _ _ hu => (by
    split
    · exact hu.file
    · exact hu.rdzvDone
    · exact hu)) h _

theorem State.MemOk.execRestoreComplete {unit} : Keeps (Machine.execRestoreComplete unit s) :=
  .next (h.live (by
    split
    · exact h
    · refine .ite h (.ite h.payloadError (h.withRoom ?_))
      extract_lets +onlyGivenNames loaded blocks revived placed started committed freed
      have hp : placed.MemOk := .rest (.reviveNames (.foldl (fun _ _ hu => hu.loadPart) h _))
      have hs : started.MemOk := .foldl (fun _ _ hu => by
        split
        · exact hu.updBobbin
        · exact hu) hp _
      have hf : freed.MemOk := .ite hs.putCommit.freeEmergency hs.putCommit
      exact .emergencyNext (.foldl (fun _ _ hu => hu.settleBlock) (.foldl (fun _ _ hu => hu.resumeBlock) hf.journalUnit _) _)))

end

/-! ### Queues, packets and dispatch -/

section
variable {s : State} (h : s.MemOk)
include h

theorem State.MemOk.hosted {s' : State} (h1 : s'.MemOk) : (State.hosted s s').MemOk := by
  fun_cases State.hosted s s'
  case case1 => exact h
  case case2 => exact h1

theorem State.MemOk.feBothLoc {sp va} : (State.feBothLoc s sp va).2.MemOk := by
  fun_cases State.feBothLoc s sp va
  case case1 => exact h.feLoc.of_snd ‹_›
  case case2 => exact (h.feLoc.of_snd ‹_›).feLoc

theorem State.MemOk.feStore {l bs} : (State.feStore s l bs).MemOk := by
  fun_cases State.feStore s l bs
  case case1 => exact h.mmioWrite
  case case2 => exact h.cacheStore.storeAt

theorem State.MemOk.createQueue {num x} : (State.createQueue s num x).2.MemOk := by
  fun_cases State.createQueue s num x
  case case1 | case2 => exact h
  case case3 | case4 => exact h.feRange.of_snd ‹_›
  case case5 | case6 | case7 | case8 | case9 => exact (h.feRange.of_snd ‹_›).feBothLoc.of_snd ‹_›
  case case10 => exact ((h.feRange.of_snd ‹_›).feBothLoc.of_snd ‹_›).feStore.rest

theorem State.MemOk.execQueueCreate {num desc} : Keeps (Machine.execQueueCreate num desc s) := by
  fun_cases Machine.execQueueCreate num desc s
  exact .next (h.hosted (.ite h (by
    split
    · exact (h.createQueue.of_snd ‹_›).tell
    · exact h.createQueue.of_snd ‹_›)))

theorem State.MemOk.feWrite {sp va bs} : (State.feWrite s sp va bs).2.MemOk := by
  fun_cases State.feWrite s sp va bs
  case case1 | case2 => exact h.feLoc.of_snd ‹_›
  case case3 => exact (h.feLoc.of_snd ‹_›).feStore

theorem State.MemOk.faultQueue {num pkt va detail} : (State.faultQueue s num pkt va detail).MemOk :=
  h.updQueue.journalAdd

theorem State.MemOk.queueWrite {num pkt va bs again} : (State.queueWrite s num pkt va bs again).MemOk := by
  fun_cases State.queueWrite s num pkt va bs again
  case case1 => exact h
  case case2 | case7 => exact h.feWrite.of_snd ‹_›
  case case3 | case5 | case6 => exact (h.feWrite.of_snd ‹_›).updQueue
  case case4 => exact (h.feWrite.of_snd ‹_›).updQueue.faultQueue

theorem State.MemOk.writeReadIndex {num pkt} : (State.writeReadIndex s num pkt).MemOk := by
  fun_cases State.writeReadIndex s num pkt
  case case1 => exact h.queueWrite
  case case2 => exact h

theorem State.MemOk.abortGrid {g} : (State.abortGrid s g).MemOk :=
  h.stopBlocks.dropSaved.updGrid

theorem State.MemOk.queueGone {num} : (State.queueGone s num).MemOk := by
  fun_cases State.queueGone s num
  case case1 => exact h.rest
  case case2 | case3 => exact h

theorem State.MemOk.destroyQueue {num abort} : (State.destroyQueue s num abort).MemOk := by
  fun_cases State.destroyQueue s num abort
  case case1 | case2 => exact h
  case case3 e1 _ =>
    exact (by
      dsimp only [e1]
      split
      · split
        · exact h.updQueue.updQueue.writeReadIndex
        · exact h.updQueue
      · exact h)
  case case4 e1 _ _ _ _ =>
    exact .queueGone (.journalAdd (.ite (.foldl (fun _ _ hu => hu.abortGrid) (.updQueue (by
      dsimp only [e1]
      split
      · split
        · exact h.updQueue.updQueue.writeReadIndex
        · exact h.updQueue
      · exact h)) _) (.updQueue (by
      dsimp only [e1]
      split
      · split
        · exact h.updQueue.updQueue.writeReadIndex
        · exact h.updQueue
      · exact h))))

theorem State.MemOk.retryHeld {num} : (State.retryHeld s num).MemOk :=
  h.updQueue

theorem State.MemOk.redoWrites {num} : (State.redoWrites s num).MemOk := by
  fun_cases State.redoWrites s num
  case case1 => exact h
  case case2 =>
    exact .foldl (fun _ _ hu => (by
      split
      · exact hu.writeReadIndex
      · exact hu.queueWrite)) h.updQueue _

theorem State.MemOk.execQueueResume {num} : Keeps (Machine.execQueueResume num s) :=
  .next (h.hosted (by
  split
  · split
    · exact h.updQueue.redoWrites.retryHeld
    · exact h
  · exact h))

theorem State.MemOk.fetchFence {num} : (State.fetchFence s num).MemOk := by
  fun_cases State.fetchFence s num
  case case1 | case2 => exact h
  case case3 => exact (h.feRange.of_snd ‹_›).updQueue
  case case4 => exact h.feRange.of_snd ‹_›
  case case5 => exact h.withRoom (h.feRange.of_snd ‹_›).faultQueue

theorem State.MemOk.tornWords {l since a0} : (State.tornWords s l since a0).2.MemOk := by
  fun_induction State.tornWords s l since a0
  case case1 => exact h
  case case2 ih => exact ((ih.of_snd ‹_›).pick).of_snd ‹_›

theorem State.MemOk.readPacket {q n} : (State.readPacket s q n).2.MemOk := by
  fun_cases State.readPacket s q n
  case case1 => exact h
  case case2 | case3 => exact h.feLoc.of_snd ‹_›
  case case4 => exact (h.feLoc.of_snd ‹_›).payloadError
  case case5 => exact (h.feLoc.of_snd ‹_›).feBytes.of_snd ‹_›
  case case6 => exact (h.feLoc.of_snd ‹_›).rdmaRead.tornWords.of_snd ‹_›

theorem State.MemOk.stopPacket {num n e} : (State.stopPacket s num n e).MemOk := by
  fun_cases State.stopPacket s num n e
  case case1 => exact h.updQueue
  case case2 => exact h.updQueue.faultQueue

theorem State.MemOk.passPacket {num n} : (State.passPacket s num n).MemOk := by
  fun_cases State.passPacket s num n
  case case1 => exact h.updQueue
  case case2 => exact h.updQueue.writeReadIndex

theorem State.MemOk.refusePacket {num n status detail} : (State.refusePacket s num n status detail).MemOk :=
  h.journalAdd.passPacket

theorem State.MemOk.readSeed {q image} : (State.readSeed s q image).2.MemOk := by
  fun_cases State.readSeed s q image
  case case1 | case2 | case3 => exact h.feRange.of_snd ‹_›
  case case4 | case5 | case6 => exact (h.feRange.of_snd ‹_›).feRange.of_snd ‹_›

theorem State.MemOk.takeGrid {q n w} : (State.takeGrid s q n w).2.MemOk := by
  fun_cases State.takeGrid s q n w
  case case1 hr => exact .of_snd hr (.ite_snd h.feRange h)
  case case2 e1 _ _ e2 => exact .of_snd e2 (.readSeed (.of_snd e1 (.ite_snd h.feRange h)))
  case case3 e1 _ _ _ e2 => exact .of_snd e2 (.readSeed (.of_snd e1 (.ite_snd h.feRange h)))
  case case4 e1 _ _ e2 _ _ => exact .journalAdd (.rest (.of_snd e2 (.readSeed (.of_snd e1 (.ite_snd h.feRange h)))))

theorem State.MemOk.takeResume {q n w} : (State.takeResume s q n w).2.MemOk := by
  fun_cases State.takeResume s q n w
  case case1 | case2 | case3 => exact h
  case case4 => exact h.payloadError
  case case5 => exact h.rdmaRead
  case case6 | case7 | case8 => exact h.rdmaRead.unitAt.of_snd ‹_›
  case case9 => exact ((h.rdmaRead.unitAt.of_snd ‹_›).queueResume.of_snd_snd ‹_›).journalAdd

theorem State.MemOk.judgePacket {q n w} : (State.judgePacket s q n w).2.MemOk := by
  fun_cases State.judgePacket s q n w
  case case1 => exact h
  case case2 => exact h.takeGrid
  case case3 => exact h.takeResume

theorem State.MemOk.execPacketTake {num} : Keeps (Machine.execPacketTake num s) := by
  fun_cases Machine.execPacketTake num s
  exact .next (h.live (h.withRoom (by
    split
    · exact h
    · split
      · exact h
      · split
        · exact h.redoWrites.queueGone
        · split
          · exact h
          · split
            · exact h
            · split
              · exact (h.readPacket.of_snd ‹_›).stopPacket
              · split
                · extract_lets +onlyGivenNames r0
                  split
                  · exact (h.readPacket.of_snd ‹_›).updQueue.updQueue
                  · exact (h.readPacket.of_snd ‹_›).updQueue.refusePacket
                  · exact (h.readPacket.of_snd ‹_›).updQueue.refusePacket
                  · split
                    · exact ((h.readPacket.of_snd ‹_›).updQueue.judgePacket.of_snd ‹_›).updQueue.stopPacket
                    · exact ((h.readPacket.of_snd ‹_›).updQueue.judgePacket.of_snd ‹_›).refusePacket
                    · exact ((h.readPacket.of_snd ‹_›).updQueue.judgePacket.of_snd ‹_›).passPacket)))

theorem State.MemOk.writeDone {queue pkt va value} : (State.writeDone s queue pkt va value).MemOk := by
  fun_cases State.writeDone s queue pkt va value
  case case1 => exact h
  case case2 => exact h.queueWrite

theorem State.MemOk.writeDue {g} : (State.writeDue s g).MemOk :=
  .updGrid (.foldl (fun _ _ hu => hu.writeDone) h _)

theorem State.MemOk.writeGridDone {g} : (State.writeGridDone s g).MemOk := by
  fun_cases State.writeGridDone s g
  case case1 => exact h.writeDone.updGrid
  case case2 | case4 => exact h
  case case3 => exact h.redoWrites

theorem State.MemOk.dropBlocks {g} : (State.dropBlocks s g).MemOk :=
  .foldl (fun _ _ hu => hu.leaveCore.streetDrop) h _

theorem State.MemOk.execGridComplete {gid} : Keeps (Machine.execGridComplete gid s) :=
  .next (h.live (by
  split
  · exact h
  · split
    · exact h
    · extract_lets +onlyGivenNames r0
      split
      · exact h.writeDue
      · extract_lets +onlyGivenNames r1
        split
        · exact h.writeDue.writeGridDone
        · extract_lets +onlyGivenNames r2 r3
          exact h.writeDue.writeGridDone.journalAdd.dropBlocks.rest.retryHeld.queueGone))

theorem State.MemOk.execJournalEntryWrite : Keeps (Machine.execJournalEntryWrite s) :=
  .next (h.live (by
  extract_lets +onlyGivenNames r0
  split
  · split
    · exact h
    · extract_lets +onlyGivenNames r1 r2
      exact h.deviceStore.rest.tell
  · exact h))

theorem State.MemOk.execJack {head} : Keeps (Machine.execJack head s) :=
  .next (h.hosted (by
  extract_lets +onlyGivenNames r0
  split
  · exact h.rest
  · exact h))

theorem State.MemOk.beginRestore {u ps} : (State.beginRestore s u ps).MemOk :=
  .streetChange (.rest (.foldl (fun _ _ hu => hu.lowerRail) h _))

theorem State.MemOk.slotRest {sp va pa a0} : (State.slotRest s sp va pa a0).2.MemOk := by
  fun_induction State.slotRest s sp va pa a0
  case case1 => exact h
  case case2 ih => exact ih (h.feLoc.of_snd ‹_›)
  case case3 | case4 => exact h.feLoc.of_snd ‹_›

theorem State.MemOk.slotAt {q k} : (State.slotAt s q k).2.MemOk := by
  fun_cases State.slotAt s q k
  case case1 => exact h
  case case2 | case3 => exact (h.feLoc.of_snd ‹_›).slotRest.of_snd ‹_›
  case case4 => exact h.feLoc.of_snd ‹_›

theorem State.MemOk.freeSlot {q k a0} : (State.freeSlot s q k a0).2.MemOk := by
  fun_induction State.freeSlot s q k a0
  case case1 => exact h
  case case2 => exact h.slotAt.of_snd ‹_›
  case case3 ih => exact ih (h.slotAt.of_snd ‹_›)

theorem State.MemOk.preemptFirst {a0} {t : State} (he : State.preemptFirst s a0 = some t) : t.MemOk := by
  revert he
  fun_induction State.preemptFirst s a0
  case case1 => nofun
  case case2 ih | case3 ih => exact ih h
  case case4 => rintro ⟨⟩; exact (h.freeSlot.of_snd ‹_›).requestSave
  case case5 ih => exact ih (h.freeSlot.of_snd ‹_›)

theorem State.MemOk.preempt {d p n} {t : State} (he : State.preempt s d p n = some t) : t.MemOk := by
  revert he
  fun_cases State.preempt s d p n
  case case1 => nofun
  case case2 => exact h.preemptFirst

theorem State.MemOk.startPage {core ctxid page} : (State.startPage s core ctxid page).MemOk := by
  fun_cases State.startPage s core ctxid page
  next hr _ =>
    have hs := State.MemOk.of_snd hr (.ite_snd h.choose h)
    exact .updCoreRest (.ite hs (hs.clearScr _ _ _))

theorem State.MemOk.startWindow {b x} : (State.startWindow s b x).MemOk :=
  .updCoreRest (.foldl (fun _ _ hu => hu.clearScr _ _ _) (.foldl (fun _ _ hu => hu.clearScr _ _ _)
      (.foldl (fun _ _ hu => hu.startPage) h _) _) _)

theorem State.MemOk.startBlock {b x} : (State.startBlock s b x).MemOk :=
  .foldl (fun _ _ hu => hu.file) (.rest (.streetAdd (.foldl (fun _ _ hu => hu.updTile) h.startWindow _))) _

theorem State.MemOk.placeUnit {g u ps} : (State.placeUnit s g u ps).MemOk := by
  fun_cases State.placeUnit s g u ps
  case case1 e1 =>
    exact .foldl (fun _ _ hu => hu.startBlock) (by
      dsimp only [e1]
      split
      · exact h.rest.lowerRail
      · exact h.rest) _
  case case2 => exact h

theorem State.MemOk.takeUnit {g home ps} : (State.takeUnit s g home ps).MemOk := by
  fun_cases State.takeUnit s g home ps
  case case1 | case2 => exact h
  case case3 => exact h.updGrid.placeUnit

theorem State.MemOk.takeUnits {d g home a0} : (State.takeUnits s d g home a0).MemOk := by
  fun_induction State.takeUnits s d g home a0
  case case1 | case2 | case4 | case5 => exact h
  case case3 ih => exact ih h.takeUnit

theorem State.MemOk.decideFor {d a0} {t : State} (he : State.decideFor s d a0 = some t) : t.MemOk := by
  revert he
  fun_cases State.decideFor s d a0
  case case1 | case2 | case6 | case9 => nofun
  case case3 => rintro ⟨⟩; exact h.beginRestore
  case case4 => rintro ⟨⟩; exact h
  case case5 | case8 => exact h.preempt
  case case7 => rintro ⟨⟩; exact .ite h.takeUnits h

theorem State.MemOk.getD {o : Option State} (ho : ∀ t, o = some t → t.MemOk) : (o.getD s).MemOk := by
  cases o with
  | none => exact h
  | some t => exact ho t rfl

theorem State.MemOk.execDispatchDecision {d} : Keeps (Machine.execDispatchDecision d s) :=
  .next (.ite (h.getD fun t ht => by
    obtain ⟨c, -, hc⟩ := List.exists_of_findSome?_eq_some ht
    exact h.decideFor hc) h)

end

/-! ### Kernel loads, attestation and power -/

section
variable {s : State} (h : s.MemOk)
include h

theorem State.MemOk.executable {sp base n} : (State.executable s sp base n).2.MemOk := by
  fun_cases State.executable s sp base n
  exact .foldl_snd (fun _ _ hu => (by
    extract_lets +onlyGivenNames r1
    split
    · exact hu
    · split <;> exact hu.feLoc.of_snd ‹_›)) h

theorem State.MemOk.listWords {sp a0} : (State.listWords s sp a0).2.MemOk := by
  fun_induction State.listWords s sp a0
  case case1 => exact h
  case case2 => exact h.feRange.of_snd ‹_›
  case case3 ih => exact (ih (h.feRange.of_snd ‹_›)).of_snd ‹_›
  case case4 ih => exact (ih (h.feRange.of_snd ‹_›)).of_snd ‹_›

theorem State.MemOk.loadStatus {sp base ws lmtBase lmtCount lists} : (State.loadStatus s sp base ws lmtBase lmtCount lists).2.MemOk := by
  fun_cases State.loadStatus s sp base ws lmtBase lmtCount lists
  case case1 => exact h
  case case2 | case3 => exact (h.executable.of_snd ‹_›).feRange.of_snd ‹_›
  case case4 | case5 => exact ((h.executable.of_snd ‹_›).feRange.of_snd ‹_›).listWords.of_snd ‹_›
  case case6 | case7 | case8 | case9 | case10 =>
    exact (((h.executable.of_snd ‹_›).feRange.of_snd ‹_›).listWords.of_snd ‹_›).feRange.of_snd ‹_›

theorem State.MemOk.writeLog : (State.writeLog s).MemOk := by
  fun_cases State.writeLog s
  case case1 => exact h
  case case2 => exact .rest (.foldl (fun _ _ hu => hu.deviceStore) h _)

theorem State.MemOk.extend {i d kind svn} : (State.extend s i d kind svn).MemOk :=
  h.rest.writeLog

theorem State.MemOk.putCode {sp a0 a1 a2} : (State.putCode s sp a0 a1 a2).MemOk := by
  fun_induction State.putCode s sp a0 a1 a2
  case case1 | case2 => exact h
  case case3 ih => exact ih (h.feLoc.of_snd ‹_›).feStore
  case case4 => exact h.feLoc.of_snd ‹_›

theorem State.MemOk.execLoad {ctxid root asid container lmtBase lmtCount targets traps} :
    Keeps (Machine.execLoad ctxid root asid container lmtBase lmtCount targets traps s) :=
  .next (h.hosted (by
    extract_lets +onlyGivenNames reason
    refine .ite h.tell ?_
    extract_lets +onlyGivenNames n code sp
    split
    · exact h.loadStatus.of_snd ‹_›
    · next hl =>
      extract_lets +onlyGivenNames extended coded k
      have hc : coded.MemOk := .ite (h.loadStatus.of_snd hl).extend.putCode (h.loadStatus.of_snd hl).extend
      exact .tell (.ite hc.rest hc)))

theorem State.MemOk.execEnroll {ctxid key svn} : Keeps (Machine.execEnroll ctxid key svn s) :=
  .next (h.hosted (by
  extract_lets +onlyGivenNames r0
  split
  · exact h.tell
  · extract_lets +onlyGivenNames r1 r2
    exact h.rest.extend.tell))

theorem State.MemOk.execAttest {nonce} : Keeps (Machine.execAttest nonce s) :=
  .next (h.hosted (by
  extract_lets +onlyGivenNames r0 r1
  exact h.tell))

theorem State.MemOk.readHeader : (State.readHeader s).MemOk :=
  h.rest.writeLog

theorem State.MemOk.leaveEmergency {d} : (State.leaveEmergency s d).MemOk := by
  fun_cases State.leaveEmergency s d
  case case1 => exact h.updPower
  case case2 => exact h

theorem State.MemOk.setGrant {d g} : (State.setGrant s d g).MemOk :=
  h.updDom

theorem State.MemOk.forceGrant {d} : (State.forceGrant s d).MemOk := by
  fun_cases State.forceGrant s d
  case case1 => exact h.setGrant
  case case2 => exact h

theorem State.MemOk.settlePower {d} : (State.settlePower s d).MemOk := by
  fun_cases State.settlePower s d
  case case1 => exact h.leaveEmergency
  case case2 => exact h.leaveEmergency.emergencyNext
  case case3 => exact h.leaveEmergency.updPower.forceGrant.emergencyNext
  case case4 => exact h.leaveEmergency.updPower.forceGrant

theorem State.MemOk.startFrequency {d} : (State.startFrequency s d).MemOk := by
  fun_cases State.startFrequency s d
  case case1 => exact h.updPower
  case case2 => exact h

omit h in
theorem State.MemOk.powerDone {t : State} {d} (h : t.MemOk) : (State.powerDone s t d).MemOk :=
  .recorded h.startFrequency

theorem State.MemOk.execPower {d} : Keeps (Machine.execPower d s) :=
  .next (h.hosted (.ite h (by
  extract_lets +onlyGivenNames r0 r1 r2
  exact .powerDone h.readHeader.updPower.settlePower.forceGrant)))

theorem State.MemOk.execHostPreEmption {core idx pa} : Keeps (Machine.execHostPreEmption core idx pa s) := by
  fun_cases Machine.execHostPreEmption core idx pa s
  exact .next (h.hosted (.ite h.tell (by
    split
    exact (h.saveStatus.of_snd ‹_›).tell)))

theorem State.MemOk.execChannelConfigure {desc} : Keeps (Machine.execChannelConfigure desc s) :=
  .next (h.hosted (.ite h.tell (by
  extract_lets +onlyGivenNames r0
  exact h.rest.tell)))

theorem State.MemOk.execPartitionRewire {num domains contexts topology shape links routes} :
    Keeps (Machine.execPartitionRewire num domains contexts topology shape links routes s) :=
  .next (h.hosted (.ite h.tell (by
  split
  · split
    · exact h.tell
    · extract_lets +onlyGivenNames r0
      exact h.rest.tell
  · extract_lets +onlyGivenNames r0
    split
    · exact h.tell
    · extract_lets +onlyGivenNames r1
      exact h.rest.tell)))

theorem State.MemOk.execHostWindowWrite {w desc} : Keeps (Machine.execHostWindowWrite w desc s) :=
  .next (h.hosted (.ite h (by
  extract_lets +onlyGivenNames r0
  exact h.rest)))

theorem State.MemOk.giveUpRestores {core} : (State.giveUpRestores s core).MemOk :=
  .foldl (fun _ _ hu => hu.rest.streetChange) h _

theorem State.MemOk.rewriteRecord {d} : (State.rewriteRecord s d).MemOk := by
  fun_cases State.rewriteRecord s d
  case case1 => exact h
  case case2 => exact h.deviceStore.rest.deviceStore

theorem State.MemOk.retire_ {core} : (State.retire_ s core).MemOk := by
  fun_cases State.retire_ s core
  case case1 => exact h
  case case2 => exact .rewriteRecord (.foldl (fun _ _ hu => hu.stopGrid) h.rest.giveUpRestores _)

end

/-! ### Fabric, errors and resets -/

section
variable {s : State} (h : s.MemOk)
include h

theorem State.MemOk.updFabric {id f} : (State.updFabric s id f).MemOk :=
  h.rest

theorem State.MemOk.execFabricProbeSend {id waitsOn} : Keeps (Machine.execFabricProbeSend id waitsOn s) :=
  .next (by
  extract_lets +onlyGivenNames r0 r1
  split
  · exact h.updFabric
  · exact h.updFabric.updFabric)

theorem State.MemOk.execFabricProbeReceive {id blocked} : Keeps (Machine.execFabricProbeReceive id blocked s) :=
  .next (by
  extract_lets +onlyGivenNames r0
  split
  · exact h
  · extract_lets +onlyGivenNames r1
    split
    · extract_lets +onlyGivenNames r2
      split
      · exact h.updFabric.updFabric
      · exact h.updFabric.updFabric.updFabric.updFabric
    · split <;> exact h.updFabric.updFabric)

theorem State.MemOk.countCorrected {place} : (State.countCorrected s place).MemOk :=
  h.rest.tell

theorem State.MemOk.loseAccess {id} : (State.loseAccess s id).MemOk :=
  h.rest

theorem State.MemOk.execPayloadError {ctxid lost} : Keeps (Machine.execPayloadError ctxid lost s) :=
  .next (by
  extract_lets +onlyGivenNames r0
  exact .payloadError (by
    dsimp only [r0]
    split
    · split
      · split
        · exact h.loseAccess
        · exact h
      · exact h
    · exact h))

theorem State.MemOk.execHeaderError {num} : Keeps (Machine.execHeaderError num s) :=
  .next (by
  split
  · exact h
  · extract_lets +onlyGivenNames r0 r1 r2 r3
    exact .tell (.foldl (fun _ _ hu => hu.loseAccess) (.foldl (fun _ _ hu => hu.stopGrid) h.rest _) _))

theorem State.MemOk.failAccesses {hit} : (State.failAccesses s hit).MemOk :=
  .foldl (fun _ _ hu => hu.loseAccess.payloadError) h _

theorem State.MemOk.execEdgeLinkLoss {link} : Keeps (Machine.execEdgeLinkLoss link s) :=
  .next (by
  extract_lets +onlyGivenNames r0 r1
  exact h.rest.failAccesses)

theorem State.MemOk.execRdmaWriteAck {id} : Keeps (Machine.execRdmaWriteAck id s) :=
  .next (by
  split
  · split
    · split
      · exact h.perform
      · exact h
    · exact h
  · exact h)

theorem State.MemOk.execHostConnectionFailure {w} : Keeps (Machine.execHostConnectionFailure w s) :=
  .next (by
  extract_lets +onlyGivenNames r0 r1
  exact h.failAccesses.rest)

theorem State.MemOk.modulePower {d watts} : (State.modulePower s d watts).MemOk := by
  fun_cases State.modulePower s d watts
  case case1 => exact h
  case case2 => exact h.rest

theorem State.MemOk.grantDown {d} : (State.grantDown s d).MemOk := by
  fun_cases State.grantDown s d
  case case1 => exact h.setGrant
  case case2 => exact h

theorem State.MemOk.execSensorSample {d temps currents watts} : Keeps (Machine.execSensorSample d temps currents watts s) :=
  .next (.ite h (by
  split
  · extract_lets +onlyGivenNames r0 r1
    exact .powerDone (.settlePower (.forceGrant (.grantDown (.foldl (fun _ _ hu => hu.tell) h.setPower.modulePower _))))))

theorem State.MemOk.execGrantStepUp {d} : Keeps (Machine.execGrantStepUp d s) :=
  .next (by
  extract_lets +onlyGivenNames r0
  split
  · exact .recorded h.setGrant.updPower.forceGrant
  · exact h)

theorem State.MemOk.execModuleRationStart : Keeps (Machine.execModuleRationStart s) :=
  .next (.ite (by
  extract_lets +onlyGivenNames r0 r1
  exact .foldl (fun _ _ hu => .recorded hu.forceGrant) h.rest _) h)

theorem State.MemOk.losePowered : (State.losePowered s).MemOk :=
  ⟨h.1, fun _ => rfl⟩

theorem State.MemOk.hardTrip {cause d sensor} : (State.hardTrip s cause d sensor).MemOk := by
  fun_cases State.hardTrip s cause d sensor
  case case1 => exact h
  case case2 => exact .rest (.foldl (fun _ _ hu => hu.updPower) h.losePowered _)

theorem State.MemOk.execDumpWrite : Keeps (Machine.execDumpWrite s) :=
  .next (by
  split
  · exact h
  · extract_lets +onlyGivenNames r0 r1
    split
    · exact h.rest
    · exact h.rest.deviceStore.deviceStore)

theorem State.MemOk.execQuiescePoint {d} : Keeps (Machine.execQuiescePoint d s) :=
  .next (by
  extract_lets +onlyGivenNames r0
  split
  · exact h.updPower
  · exact h)

theorem State.MemOk.fatalError {d} : (State.fatalError s d).MemOk :=
  .rest (.foldl (fun _ _ hu => hu.stopGrid.tell) h _)

theorem State.MemOk.execUncorrectableError {place x} : Keeps (Machine.execUncorrectableError place x s) :=
  .next (by
  split
  · split
    · exact h.retire_
    · exact h
  · extract_lets +onlyGivenNames r0
    split
    · exact h
    · exact h.rest
  · split
    · exact h.fatalError
    · exact h
  · exact h)

theorem State.MemOk.bootFirmware {kind} {t : State} (he : State.bootFirmware s kind = some t) : t.MemOk := by
  revert he
  fun_cases State.bootFirmware s kind
  case case1 | case2 => nofun
  case case3 => rintro ⟨⟩; exact h.extend

theorem State.MemOk.recover : (State.recover s).MemOk :=
  h.rest

theorem State.MemOk.bootTable : (State.bootTable s).MemOk :=
  .extend (.ite h h.deviceStore)

theorem State.MemOk.boot : (State.boot s).MemOk := by
  fun_cases State.boot s
  case case1 => exact h.recover
  case case2 =>
    exact .foldl (fun _ _ hu => .ite hu (by
      split
      · exact hu.bootFirmware ‹_›
      · exact hu.recover)) (h.bootFirmware ‹_›).bootTable _

omit h in
theorem State.MemOk.booted {mem poison saved areaAt tableAt streetAt streetLog} (hm : Memory.wf mem = true) :
    (State.booted s mem poison saved areaAt tableAt streetAt streetLog).MemOk := by
  refine ⟨?_, State.reset_memOk.2⟩
  unfold State.booted
  dsimp only
  split
  · exact hm
  · exact filter_wf hm _

theorem State.MemOk.warmReset {areaAt tableAt streetAt streetLog} : (State.warmReset s areaAt tableAt streetAt streetLog).MemOk :=
  (State.MemOk.booted (filter_wf h.1 _)).boot

omit h in
theorem State.MemOk.coldReset {areaAt tableAt streetAt streetLog} : (State.coldReset s areaAt tableAt streetAt streetLog).MemOk :=
  (State.MemOk.booted rfl).boot

theorem State.MemOk.execIllegalWord {reason lane} : Keeps (Machine.execIllegalWord reason lane s) :=
  .next (by
  extract_lets +onlyGivenNames r0
  exact .foldl (fun _ _ hu => (by
    split <;> exact hu.illegal)) h.collect _)

theorem State.MemOk.codeBytes {ag l} : (State.codeBytes s ag l).2.MemOk := by
  fun_cases State.codeBytes s ag l
  case case1 => exact h
  case case2 => exact h.rdmaRead
  case case3 => exact h.rdmaRead.pick

theorem State.MemOk.fetch {ag} : (State.fetch s ag).2.MemOk := by
  fun_cases State.fetch s ag
  case case1 | case2 => exact h.admitted.of_snd ‹_›
  case case3 => exact (h.admitted.of_snd ‹_›).payloadError
  case case4 => exact (h.admitted.of_snd ‹_›).codeBytes.of_snd ‹_›

theorem State.MemOk.execFetchFault : Keeps (Machine.execFetchFault s) :=
  .next (by
  extract_lets +onlyGivenNames r0 r1
  exact .foldl (fun _ _ hu => hu.fetch) h.rest _)

theorem State.MemOk.execPowerLoss : Keeps (Machine.execPowerLoss s) :=
  .next (by
  extract_lets +onlyGivenNames r0
  exact h.losePowered.rest)

end

/-! ### One instruction or event -/

section
variable {s : State} (h : s.MemOk)
include h

/-- Every instruction and every event leads to a state in canonical form. The arms that share a form are one case. -/
theorem State.MemOk.exec {i} : Keeps (exec i s) := by
  cases i
  case vaddI32 | vaddI32Sat | vaddN32Sat | vsubI32 | vsubI32Sat | vsubN32Sat | vmulI32 | vmulhiI32 | vmulhiN32 | vminI32 | vminN32 |
    vmaxI32 | vmaxN32 | vshlB32 | vshrN32 | vshrI32 | vrotlB32 | vrotrB32 | vbfeN32 | vbfeI32 | vandB32 | vorB32 | vxorB32 | vandnB32 |
    fcsgnF32 => exact .next h.vBinary
  case vaddc | vsubb => exact .next h.vCarry
  case vmadI32 | vbfiB32 | vdp4I8 | vdp4N8 | vsadN8 => exact .next h.vTernary
  case vmadwI32 | vmadwN32 => exact .next h.vMadw
  case vpopcB32 | vclzB32 | vbrevB32 | vnotB32 | vaddiI32 | vandiB32 | voriB32 | vxoriB32 | vshliB32 | vshriN32 | vshriI32 | fclassF32 |
    fabsF32 | fnegF32 => exact .next h.vUnary
  case vpermB32 | vselB32 | vmovB32 | vmovsB32 | vkrd | vkwr | vmoviI32 | tagset | tagget => exact .next h.runFixed
  case vcmpEqI32 | vcmpNeI32 | vcmpLtI32 | vcmpLeI32 | vcmpGtI32 | vcmpGeI32 | vcmpLtN32 | vcmpLeN32 | vcmpGtN32 | vcmpGeN32 =>
    exact .next h.vCompare
  case kand | kor | kxor | kandn => exact .next h.kBinary
  case knot | kmov => exact .next h.kUnary
  case vgetB32 => exact h.execVgetB32
  case collSumF32 | collSumI32 | collMaxI32 | collBcastB32 => exact .next h.coll
  case faddF32 | faddF16 | faddBf16 | fsubF32 | fsubF16 | fsubBf16 | fmulF32 | fmulF16 | fmulBf16 | fminF32 | fminF16 | fminBf16 |
    fmaxF32 | fmaxF16 | fmaxBf16 => exact .next h.fBinary
  case ffmaF32 | ffmaF16 | ffmaBf16 => exact .next h.fFma
  case fcmpEqF32 | fcmpNeF32 | fcmpLtF32 | fcmpLeF32 | fcmpGtF32 | fcmpGeF32 | fcmpUnF32 => exact .next h.fCompare
  case frcpF32 | frsqF32 => exact .next (h.fVar (fun _ _ hu => hu.oneOf))
  case fsqrtF32 => exact .next (h.fVar (fun _ _ hu => hu))
  case fex2F32 | flg2F32 => exact .next (h.fVar (fun _ _ hu => hu.within))
  case cvtF32Rn | cvtF32Rz | cvtF32Rd | cvtF32Ru | cvtI32Rn | cvtI32Rz | cvtI32Rd | cvtI32Ru | cvtN32Rn | cvtN32Rz | cvtN32Rd | cvtN32Ru =>
    exact .next h.cvtOne
  case cvtF16Rn | cvtF16Rz | cvtF16Rd | cvtF16Ru | cvtBf16Rn | cvtBf16Rz | cvtBf16Rd | cvtBf16Ru => exact .next h.cvtTwo
  case npackF8e4 | npackF8e5 | npackF6e2 | npackF6e3 | npackF4e2 => exact .next h.npack
  case nunpackF8e4 | nunpackF8e5 | nunpackF6e2 | nunpackF6e3 | nunpackF4e2 => exact .next h.nunpack
  case qntQ4 | qntQ8 => exact .next h.quantise
  case dqQ4 | dqQ8 => exact .next h.dequantise
  case bra | braT | braF => exact .next h.vBranch
  case brany => exact h.execBrany
  case brall | brnone => exact .next h.braidBranch
  case call => exact h.execCall
  case brx | callx | ret => exact .next h.vIndirect
  case elect => exact h.execElect
  case voteAny | voteAll | voteBallot => exact .next h.vote
  case exit => exact h.execExit
  case sleep => exact h.execSleep
  case safe => exact h.execSafe
  case reform => exact .next (h.runGroup (fun _ _ _ hu => hu.advance.fileAgent))
  case ldN8 | ldI8 | ldN16 | ldI16 | ldB32 | ldB64 | ldB128 => exact .next h.ld
  case stB8 | stB16 | stB32 | stB64 | stB128 => exact .next h.st
  case ldsB32 | ldsB64 => exact .next h.lds
  case stsB32 | stsB64 => exact .next h.sts
  case ldqB32 => exact .next (h.runGroup (fun _ _ _ hu => hu.quarter (fun _ _ _ hu => hu.scratchLoad)))
  case stqB32 => exact .next (h.runGroup (fun _ _ _ hu => hu.quarter (fun _ _ _ hu => hu.scratchStore)))
  case ldAcqB32 => exact h.execLdAcqB32
  case stRelB32 => exact h.execStRelB32
  case cacheEvl1 => exact .next (h.cacheOp (fun _ _ _ _ hu => hu.dropL1))
  case cacheWbl2 => exact .next (h.cacheOp (fun _ _ _ _ hu => hu.updDom))
  case cacheEvl2 => exact .next (h.cacheOp (fun _ _ _ _ hu => hu.invalidateOthers.updDom))
  case atomAddI32 | atomMinI32 | atomMaxI32 | atomMinN32 | atomMaxN32 | atomAndB32 | atomOrB32 | atomXorB32 | atomXchgB32 | atomCasB32 |
    atomAddF32 | atomAddI64 | atomMaxN64 | atomXchgB64 | atomCasB64 | redAddI32 | redMinI32 | redMaxI32 | redMinN32 | redMaxN32 |
    redAndB32 | redOrB32 | redXorB32 | redAddF32 | redAddI64 => exact .next h.atom
  case msend => exact h.execMsend
  case mrecv => exact h.execMrecv
  case mprobe => exact h.execMprobe
  case mcancel => exact h.execMcancel
  case uaddI32 | usubI32 | umulI32 | umulhiI32 | umulhiN32 | uminI32 | uminN32 | umaxI32 | umaxN32 | uandB32 | uorB32 | uxorB32 |
    ushlB32 | ushrN32 | ushrI32 | ubfeN32 | ubfeI32 | ucmpEqB32 | ucmpNeB32 | ucmpLtI32 | ucmpLeI32 | ucmpLtN32 | ucmpLeN32 =>
    exact .next h.uBinary
  case ubfiB32 | uselB32 | uaddI64 | umovi => exact .next h.runUFixed
  case upopcB32 | uclzB32 | umovB32 => exact .next h.uUnary
  case uaddiI32 | umovhi | uandiB32 | uoriB32 | ushliB32 | ushriN32 => exact .next h.uImm
  case usr => exact .next (h.runUniform (fun _ _ _ hu => hu.retire))
  case lduB32 | lduB64 | ldcB32 | ldcB64 => exact .next h.ldu
  case ubra | ubrz | ubrnz => exact .next h.uBranch
  case uloop => exact h.execUloop
  case ucall => exact h.execUcall
  case uret => exact h.execUret
  case fork => exact h.execFork
  case rdzv => exact h.execRdzv
  case gresTake | gresDrop => exact .next h.gres
  case cpyL => exact h.execCpyL
  case cpyS => exact h.execCpyS
  case cpyT2 | cpyT3 => exact .next (h.cpy (fun _ _ _ _ hu => hu.postTensor))
  case cpyG => exact h.execCpyG
  case cpyRedAdd | cpyRedMin | cpyRedMax | cpyRedAnd | cpyRedOr | cpyRedXor => exact .next h.cpyRed
  case cpyM => exact h.execCpyM
  case cpyMigr => exact h.execCpyMigr
  case mzero => exact h.execMzero
  case mmaP1x1 | mmaP2x1 | mmaP2x2 | mmaP4x1 | mmaP4x2 | mmaP4x4 | mmaP8x1 | mmaP8x2 | mmaP8x4 | mmaP8x8 => exact .next h.mma
  case mrsumRow | mrsumCol => exact .next h.mrsum
  case mdrainI32 | mdrainW48 | mdrainF32 => exact .next h.mdrain
  case mplane | mplaneT => exact .next h.mplaneWord
  case mzpc => exact .next (h.mcmd (fun _ _ _ _ _ hu => hu.postMatrix))
  case mfid => exact h.execMfid
  case mstat | ctrrd => exact .next (h.runUniform (fun _ _ _ hu => hu.retireVar))
  case fidinj => exact h.execFidinj
  case phinit | phinitForce => exact .next h.phinit
  case phregSig | phregWait | phregBoth => exact .next h.phreg
  case phdereg => exact h.execPhdereg
  case pharr => exact h.execPharr
  case phexp => exact h.execPhexp
  case phwait => exact h.execPhwait
  case fenceAcq | fenceRel | fenceAr => exact .next h.fence
  case xinvPage | xinvRange | xinvAsid | xinvAll => exact .next h.xinv
  case xfence => exact .next (h.runUniform (fun _ _ _ hu => .ite hu.drainRelease.advance hu))
  case xsync => exact .next (h.runUniform (fun _ _ _ hu => .ite hu.xsyncDone.advance hu.blockAgent))
  case xprobe => exact h.execXprobe
  case map => exact h.execMap
  case unmap | rflush => exact .next (h.regionOp (fun _ _ _ _ hu => hu.flush))
  case trap | syscall | bkpt => exact .next (h.runUniform (fun _ _ _ hu => hu.trap))
  case eret => exact h.execEret
  case ctxsave => exact h.execCtxsave
  case ctxload => exact h.execCtxload
  case launch => exact h.execLaunch
  case dcfg => exact h.execDcfg
  case sysrd => exact h.execSysrd
  case syswr => exact h.execSyswr
  case nop | undefinedHint => exact .next (h.runHint (fun _ _ hu => hu))
  case pfL1 => exact .next (h.prefetch (fun _ _ _ hu => hu.cacheLoad))
  case pfL2 x _ y _ _ => exact h.execPfL2 (_x := x) (_y := y)
  case yield x _ => exact h.execYield (_x := x)
  case mark x y _ _ => exact h.execMark (_x := x) (_y := y)
  case pendingComplete => exact h.execPendingComplete
  case phwaitComplete => exact h.execPhwaitComplete
  case sleepExpire => exact h.execSleepExpire
  case binAged => exact h.execBinAged
  case braidDraw => exact .next (.foldl (fun _ _ hu => hu.drawInto) h _)
  case braidReturn => exact .next (.foldl (fun _ _ hu => .foldl (fun _ _ hu => hu.file) hu _) h _)
  case effectivePriorityUpdate => exact h.execEffectivePriorityUpdate
  case storeGlobalPerform => exact h.execStoreGlobalPerform
  case regionLineFill => exact h.execRegionLineFill
  case regionWriteBack => exact h.execRegionWriteBack
  case kioskRequest => exact h.execKioskRequest
  case pageWalk => exact h.execPageWalk
  case adUpdate => exact h.execAdUpdate
  case xinvTlbPerform => exact h.execXinvTlbPerform
  case xsyncComplete => exact h.execXsyncComplete
  case faultQueueEntryWrite => exact .next h.fsqWrite
  case fsqRespRetry | fsqRespKill => exact .next h.fsqRespond
  case fsqHeadWrite | mmioRegisterWrite => exact .next h.mmioWrite
  case bobbinEnd => exact h.execBobbinEnd
  case copyCommandStart => exact h.execCopyCommandStart
  case copyCommandComplete => exact .next h.engComplete
  case phaserCredit => exact h.execPhaserCredit
  case matrixCommandStart => exact h.execMatrixCommandStart
  case planePairStep => exact h.execPlanePairStep
  case matrixCommandComplete => exact h.execMatrixCommandComplete
  case lowRailMove => exact .next (.ite (.recorded h.updDom) h)
  case migrStart => exact h.execMigrStart
  case migrDrainDone => exact h.execMigrDrainDone
  case migrInvalidateDone => exact h.execMigrInvalidateDone
  case mailboxAppend => exact h.execMailboxAppend
  case collContributionAccept => exact h.execCollContributionAccept
  case collRoundComplete => exact h.execCollRoundComplete
  case parkedArrival => exact h.execParkedArrival
  case nameCacheFill => exact h.execNameCacheFill
  case dcfgComplete => exact h.execDcfgComplete
  case saveImageWrite => exact h.execSaveImageWrite
  case imageCommit => exact h.execImageCommit
  case restoreComplete => exact h.execRestoreComplete
  case queueCreate => exact h.execQueueCreate
  case queueDestroy | queueDestroyAbort => exact .next (h.hosted h.destroyQueue)
  case queueResume => exact h.execQueueResume
  case kick => exact .next (h.hosted h.retryHeld)
  case doorbell => exact .next (h.hosted h.fetchFence)
  case fetchFenceTimer => exact .next (h.live h.fetchFence)
  case packetTake => exact h.execPacketTake
  case patternHoldRetry => exact .next (h.live h.retryHeld)
  case gridComplete => exact h.execGridComplete
  case journalEntryWrite => exact h.execJournalEntryWrite
  case jack => exact h.execJack
  case dispatchDecision => exact h.execDispatchDecision
  case load => exact h.execLoad
  case unload | channelRemove | partitionReset => exact .next (h.hosted h.rest)
  case enroll => exact h.execEnroll
  case attest => exact h.execAttest
  case power => exact h.execPower
  case hostPreEmption => exact h.execHostPreEmption
  case channelConfigure => exact h.execChannelConfigure
  case partitionRewire => exact h.execPartitionRewire
  case hostWindowWrite => exact h.execHostWindowWrite
  case coreRetire => exact .next (h.hosted h.retire_)
  case fabricProbeSend => exact h.execFabricProbeSend
  case fabricProbeReceive => exact h.execFabricProbeReceive
  case linkFlitError => exact .next h.countCorrected
  case payloadError => exact h.execPayloadError
  case headerError => exact h.execHeaderError
  case edgeLinkLoss => exact h.execEdgeLinkLoss
  case rdmaWriteAck => exact h.execRdmaWriteAck
  case hostConnectionFailure => exact h.execHostConnectionFailure
  case sensorSample => exact h.execSensorSample
  case grantStepUp => exact h.execGrantStepUp
  case currentStepDown | currentStepUp | thermalStepDown | thermalStepUp => exact .next (.ite (.powerDone h.updPower) h)
  case moduleRationStart => exact h.execModuleRationStart
  case moduleRationEnd | firmwareWrite => exact .next (.ite h.rest h)
  case modulePowerTrip | hardTrip => exact .next (.ite h.hardTrip h)
  case dumpWrite => exact h.execDumpWrite
  case powerRecordWrite => exact .next (.ite h.writeRecord h)
  case quiescePoint => exact h.execQuiescePoint
  case quiesceTimeout => exact .next (.ite h.updPower h)
  case quiesceRetry => exact .next (.ite h.updPower.startFrequency h)
  case clockRelock => exact .next (.ite (.recorded h.updPower.startFrequency) h)
  case uncorrectableError => exact h.execUncorrectableError
  case moduleReset => exact .next (.ite h (.ite h.warmReset .coldReset))
  case warmReset => exact .next (.ite h.warmReset h)
  case coldReset => exact .next (.ite .coldReset h)
  case illegalWord => exact h.execIllegalWord
  case fetchFault => exact h.execFetchFault
  case powerLoss => exact h.execPowerLoss
  case journalAddressSet => exact .next (h.hosted (.ite h.rest h))

end

/-! ### Issue, ticks and one step -/

section
variable {s : State} (h : s.MemOk)
include h

theorem State.MemOk.runWord {w} : Keeps (State.runWord s w) := by
  fun_cases State.runWord s w
  all_goals exact h.exec

theorem State.MemOk.countWord {w} : (State.countWord s w).MemOk := by
  fun_cases State.countWord s w
  all_goals exact h.countEvent

theorem State.MemOk.clearSkip : (State.clearSkip s).MemOk := by
  unfold State.clearSkip
  exact .foldl (fun _ _ hu => (by
    split
    · exact hu.updThread
    · exact hu)) h _

theorem State.MemOk.takesTurn {core unit} : (State.takesTurn s core unit).MemOk :=
  h.updCoreRest

theorem State.MemOk.issuing {core unit ags w} : (State.issuing s core unit ags w).MemOk :=
  h.takesTurn.rest

omit h in
theorem State.MemOk.orStay {a : Answer} (ha : Keeps a) : (orStay s a).MemOk := by
  cases ha with
  | next ht => exact ht

theorem State.MemOk.fetchAll {ags} : (State.fetchAll s ags).2.MemOk := by
  fun_induction State.fetchAll s ags
  case case1 => exact h
  case case2 ih => exact (ih (h.fetch.of_snd ‹_›)).of_snd ‹_›
  case case3 ih => exact ih (.orStay h.among.exec)

theorem State.MemOk.breakAt {ag} : (State.breakAt s ag).MemOk := by
  unfold State.breakAt
  split
  · exact h.trapThread
  · exact h

theorem State.MemOk.fetchStep : (State.fetchStep s).1.MemOk := by
  fun_cases State.fetchStep s
  case case1 => exact (h.fetchAll.of_snd ‹_›).among
  case case2 =>
    extract_lets +onlyGivenNames r0 r1 r2 r3
    exact .among (.foldl (fun _ _ hu => hu.breakAt) (h.fetchAll.of_snd ‹_›).rest _)

theorem State.MemOk.hold {x} : (State.hold s x).MemOk :=
  h.updCoreRest

theorem State.MemOk.issueUniform {expanded w} : Keeps (State.issueUniform s expanded w) := by
  fun_cases State.issueUniform s expanded w
  case case1 => exact h.hold.among.clearSkip.countWord.runWord
  all_goals exact h.clearSkip.countWord.runWord

theorem State.MemOk.issueLane {w} : Keeps (State.issueLane s w) := by
  fun_cases State.issueLane s w
  case case1 => exact h.clearSkip.countWord.runWord
  case case2 => exact .next (.hold h.clearSkip.countWord.updCoreRest)

theorem State.MemOk.startIssue {core pipe idx ags} : (State.startIssue s core pipe idx ags).MemOk :=
  h.updCoreRest.issuing

theorem State.MemOk.enterMode {core b} : (State.enterMode s core b).MemOk := by
  fun_cases State.enterMode s core b
  case case1 => exact h
  case case2 => exact h.expand

theorem State.MemOk.drainReserves : (State.drainReserves s).MemOk := by
  fun_cases State.drainReserves s
  exact .foldl (fun _ _ hu => .ite hu (by
    split
    · split
      · exact (hu.choose.of_snd ‹_›).updFabric
      · exact hu.choose.of_snd ‹_›)) h _

theorem State.MemOk.idleBraids {core} : (State.idleBraids s core).MemOk := by
  unfold State.idleBraids
  exact .foldl (fun _ _ hu => (by
    split
    · exact hu
    · extract_lets +onlyGivenNames r1
      exact hu.updCoreRest)) h _

omit h in
theorem Keeps.thenDo {a : Answer} {f : State → State} (ha : Keeps a) (hf : ∀ t, t.MemOk → (f t).MemOk) : Keeps (thenDo f a) := by
  cases ha with
  | next ht => exact .next (hf _ ht)

theorem State.MemOk.attempt {w a} (he : State.attempt s w = some a) : Keeps a := by
  have hw := h.runWord (w := w)
  unfold State.attempt at he
  revert he hw
  generalize State.runWord s w = r
  rintro he ⟨ht⟩
  dsimp only at he
  split at he
  · cases he
    exact .next ht
  · cases he

theorem State.MemOk.issueNow {expanded a} (he : State.issueNow s expanded = some a) : Keeps a := by
  revert he
  unfold State.issueNow
  extract_lets ags idle
  have hidle {t : State} (ht : t.MemOk) (hi : idle t = some a) : Keeps a := by
    simp only [idle, Option.ite_none_right_eq_some, Option.some.injEq] at hi
    exact hi.2 ▸ .next ht
  split
  · next hf => exact hidle (h.fetchStep.of_fst hf)
  · next hf =>
    have hs := h.fetchStep.of_fst hf
    dsimp only
    split
    · split
      · next ha =>
        rintro ⟨⟩
        exact hs.attempt ha
      · exact hidle hs
    · split
      · rintro ⟨⟩
        exact hs.among.issueUniform
      · rintro ⟨⟩
        exact hs.among.issueLane

theorem State.MemOk.issueBraid {core pipe idx a} (he : State.issueBraid s core pipe idx = some a) : Keeps a := by
  revert he
  fun_cases State.issueBraid s core pipe idx
  case case1 | case2 => nofun
  case case3 =>
    intro he
    obtain ⟨b, hb, rfl⟩ := Option.map_eq_some_iff.1 he
    exact (h.enterMode.startIssue.issueNow hb).thenDo fun _ ht => .afterIssue ht

theorem State.MemOk.dispatchHeld {core pipe x a} (he : State.dispatchHeld s core pipe x = some a) : Keeps a := by
  revert he
  fun_cases State.dispatchHeld s core pipe x
  case case1 => rintro ⟨⟩; exact .next (.afterIssue h.updCoreRest)
  case case2 => nofun
  case case3 => rintro ⟨⟩; exact h.updCoreRest.issuing.clearSkip.countWord.runWord.thenDo fun _ ht => .afterIssue ht
  case case4 => rintro ⟨⟩; exact h.updCoreRest.issuing.runWord.thenDo fun _ ht => .afterIssue ht.updCoreRest

theorem State.MemOk.pipeTurn {core pipe pick a} (he : State.pipeTurn s core pipe pick = some a) : Keeps a := by
  revert he
  fun_cases State.pipeTurn s core pipe pick
  case case1 | case3 | case5 => nofun
  case case2 => exact h.dispatchHeld
  case case4 => exact h.issueBraid
  case case6 =>
    intro he
    obtain ⟨i, -, hi⟩ := List.exists_of_findSome?_eq_some he
    exact h.issueBraid hi

theorem State.MemOk.issueBobbin {core b a} (he : State.issueBobbin s core b = some a) : Keeps a := by
  revert he
  fun_cases State.issueBobbin s core b
  case case1 | case4 | case5 => nofun
  case case2 hf => rintro ⟨⟩; exact .next (h.fetch.of_snd hf).updBobbin
  case case3 => rintro ⟨⟩; exact .next h.updBobbin
  case case6 => exact h.issuing.issueNow

theorem State.MemOk.unitTurn {core unit a} (he : State.unitTurn s core unit = some a) : Keeps a := by
  unfold State.unitTurn at he
  split at he
  · exact h.pipeTurn he
  · exact h.issueBobbin he

theorem State.MemOk.coreIssue {core a} (he : State.coreIssue s core = some a) : Keeps a := by
  obtain ⟨u, -, hu⟩ := List.exists_of_findSome?_eq_some he
  exact h.unitTurn hu

omit h in
theorem Keeps.getD {o : Option Answer} (h : s.MemOk) (ho : ∀ a, o = some a → Keeps a) : Keeps (o.getD (.next s)) := by
  cases o with
  | none => exact .next h
  | some a => exact ho a rfl

theorem State.MemOk.finishUnit {core u} : (State.finishUnit core s u).MemOk := by
  fun_cases State.finishUnit core s u
  case case1 | case3 => exact h
  case case2 hu => exact .orStay (h.unitTurn hu)

theorem State.MemOk.finishCycle {core} : (State.finishCycle s core).MemOk :=
  .foldl (fun _ _ hu => hu.finishUnit) h _

theorem State.MemOk.gatherCycle {core} : (State.gatherCycle s core).MemOk :=
  .foldl (fun _ _ hu => .orStay hu.exec) h _

theorem State.MemOk.ageAgent {ag} : (State.ageAgent s ag).MemOk :=
  .foldl (fun _ _ hu => .orStay hu.exec) h.updCtx _

theorem State.MemOk.agePending {core} : (State.agePending s core).MemOk := by
  fun_cases State.agePending s core
  case case1 => exact h
  case case2 => exact .foldl (fun _ _ hu => hu.ageAgent) h _

theorem State.MemOk.tickCore {core} : (State.tickCore s core).MemOk :=
  .agePending (.ite h.gatherCycle.finishCycle.idleBraids.countEvent.countEvent h.gatherCycle.finishCycle.idleBraids.countEvent)

theorem State.MemOk.tick {d} : (State.tick s d).MemOk := by
  unfold State.tick
  refine .ite (.drainReserves h.rest) (.ite h ?_)
  extract_lets r0 r1 r2
  have hr : r2.MemOk := .foldl (fun _ _ hu => hu.updCoreRest fun _ => CoreState.scratch_serve)
    (.updDom (.foldl (fun _ _ hu => hu.tickCore) h _)) _
  exact .ite hr (.foldl (fun _ _ hu => .orStay hu.exec) hr _)

theorem State.MemOk.turn {a0} : Keeps (State.turn s a0) := by
  fun_cases State.turn s a0
  case case1 => exact .getD h fun _ => h.pipeTurn
  case case3 => exact .getD h fun _ => h.issueBobbin
  case case5 => exact h.exec
  case case7 => exact .next h.tick
  all_goals exact .next h

theorem State.MemOk.effect {i} {t : State} (he : State.effect s i = some t) : t.MemOk := by
  have hi := h.exec (i := i)
  unfold State.effect at he
  revert he hi
  generalize Machine.exec i s = r
  rintro he ⟨ht⟩
  dsimp only at he
  split at he
  · cases he
  · cases he
    exact ht

theorem State.MemOk.periodic : (State.periodic s).MemOk := by
  fun_cases State.periodic s
  case case1 => exact h
  case case2 => exact .foldl (fun _ _ hu => .orStay hu.exec) h _

theorem State.MemOk.tickAll : (State.tickAll s).MemOk :=
  .periodic (.tick (.foldl (fun _ _ hu => hu.tick) h _))

theorem State.MemOk.autoTurn : Keeps (State.autoTurn s) := by
  fun_cases State.autoTurn s
  case case1 he =>
    obtain ⟨i, -, hi⟩ := List.exists_of_findSome?_eq_some he
    exact .next (h.effect hi)
  case case2 he => 
    obtain ⟨k, -, hk⟩ := List.exists_of_findSome?_eq_some he
    exact h.coreIssue hk
  case case3 => exact .next h.tickAll

theorem State.MemOk.alwaysOn : (State.alwaysOn s).MemOk :=
  h.getD fun _ => h.effect

theorem State.MemOk.step : Keeps (step s) := by
  fun_cases Machine.step s
  case case1 => exact State.MemOk.turn h.rest
  case case2 => exact h.autoTurn
  case case3 => exact .next h.alwaysOn

end

/-- Settles O59: each function that leads from a state to a state keeps the canonical form, so each instruction and event does,
so a step does. -/
theorem memoryStaysCanonical : Obligations.MemoryStaysCanonical := by
  intro s t h ht
  obtain ⟨hu⟩ : Keeps (.next t) := ht ▸ h.step
  exact hu

end Sys2Proof.Machine
end

section
/-! The values of encodings, and rounding (R63 to R71): an encoding is a sign bit above a magnitude code, the magnitudes rise with
their codes, and every mode rounds a magnitude onto the multiples of one power of two, below which only smaller values lie. -/

namespace Sys2Proof.Machine

/-! ### The exact sum and product of finite values (R64) -/

/-- A sign as a factor of a value (R63). -/
def signFactor (neg : Bool) : ℚ := if neg then -1 else 1

theorem FVal.real_fin (s : Bool) (m : Nat) (e : Int) : (FVal.fin s m e).real = some (signFactor s * m * (2 : ℚ) ^ e) := rfl

theorem signFactor_not (s : Bool) : signFactor (!s) = -signFactor s := by
  cases s <;> simp [signFactor]

theorem signFactor_bne (s t : Bool) : signFactor (s != t) = signFactor s * signFactor t := by
  cases s <;> cases t <;> simp [signFactor]

theorem signFactor_mul_natAbs (i : Int) : signFactor (decide (i < 0)) * (i.natAbs : ℚ) = i := by
  by_cases hi : i < 0
  · simp [signFactor, hi, Nat.cast_natAbs, abs_of_neg hi]
  · simp [signFactor, hi, Nat.cast_natAbs, abs_of_nonneg (not_lt.1 hi)]

/-- Counting a significand in a smaller power of two keeps the value. -/
theorem alignedSig_mul_zpow (s : Bool) (m : Nat) {e e' : Int} (h : e' ≤ e) :
    (alignedSig s m e e' : ℚ) * (2 : ℚ) ^ e' = signFactor s * m * (2 : ℚ) ^ e := by
  have hpow : (2 : ℚ) ^ (e - e').toNat * (2 : ℚ) ^ e' = (2 : ℚ) ^ e := by
    rw [← zpow_natCast, ← zpow_add₀ two_ne_zero, Int.toNat_of_nonneg (sub_nonneg.2 h), sub_add_cancel]
  have hcast : (alignedSig s m e e' : ℚ) = signFactor s * m * (2 : ℚ) ^ (e - e').toNat := by
    cases s <;> simp [alignedSig, signFactor]
  rw [hcast, mul_assoc, hpow]

theorem FVal.add_fin_real (s t : Bool) (m k : Nat) (e f : Int) :
    ((FVal.fin s m e).add (.fin t k f)).real = some (signFactor s * m * (2 : ℚ) ^ e + signFactor t * k * (2 : ℚ) ^ f) := by
  by_cases hzero : m = 0 ∧ k = 0
  · obtain ⟨rfl, rfl⟩ := hzero
    simp [FVal.add, FVal.real_fin]
  · have hsum : (FVal.fin s m e).add (.fin t k f) =
        .fin (decide (alignedSig s m e (min e f) + alignedSig t k f (min e f) < 0))
          (alignedSig s m e (min e f) + alignedSig t k f (min e f)).natAbs (min e f) := by
      simp [FVal.add, hzero]
    rw [hsum, FVal.real_fin, signFactor_mul_natAbs, Int.cast_add, add_mul, alignedSig_mul_zpow s m (min_le_left e f),
      alignedSig_mul_zpow t k (min_le_right e f)]

theorem FVal.mul_fin_real (s t : Bool) (m k : Nat) (e f : Int) :
    ((FVal.fin s m e).mul (.fin t k f)).real = some (signFactor s * m * (2 : ℚ) ^ e * (signFactor t * k * (2 : ℚ) ^ f)) := by
  rw [FVal.mul, FVal.real_fin, signFactor_bne, Nat.cast_mul, zpow_add₀ two_ne_zero]
  congr 1
  ring

theorem FVal.neg_fin_real (s : Bool) (m : Nat) (e : Int) :
    (FVal.fin s m e).neg.real = some (-(signFactor s * m * (2 : ℚ) ^ e)) := by
  rw [FVal.neg, FVal.real_fin, signFactor_not, neg_mul, neg_mul]

/-! ### The magnitude codes of a format (R63, R68) -/

/-- The significand of a magnitude code: with the leading one, where the exponent field is not 0. -/
def Fmt.codeSig (F : Fmt) (c : Nat) : Nat := if c / 2 ^ F.fw = 0 then c % 2 ^ F.fw else 2 ^ F.fw + c % 2 ^ F.fw

/-- The power of two in which a magnitude code counts its significand. -/
def Fmt.codeExp (F : Fmt) (c : Nat) : Int := if c / 2 ^ F.fw = 0 then F.qmin else F.qmin + (c / 2 ^ F.fw : Nat) - 1

/-- The magnitude of a code, with the exponent field unbounded above. -/
def Fmt.codeMag (F : Fmt) (c : Nat) : ℚ := F.codeSig c * (2 : ℚ) ^ F.codeExp c

/-- A significand `k` in the unit `2 ^ (qmin + t)`, normal or in the least unit, has the code `t * 2 ^ fw + k`; the carry of a full
significand into the exponent field included. -/
theorem Fmt.codeMag_add (F : Fmt) {t k : Nat} (hk : k ≤ 2 ^ (F.fw + 1)) (hlow : 2 ^ F.fw ≤ k ∨ t = 0) :
    F.codeMag (t * 2 ^ F.fw + k) = k * (2 : ℚ) ^ (F.qmin + t) := by
  have hpos : 0 < 2 ^ F.fw := Nat.two_pow_pos _
  rw [pow_succ] at hk
  obtain hsub | ⟨n, rfl⟩ : k < 2 ^ F.fw ∨ ∃ n, k = 2 ^ F.fw + n := by
    obtain h | h := lt_or_ge k (2 ^ F.fw)
    · exact .inl h
    · exact .inr ⟨_, (Nat.add_sub_cancel' h).symm⟩
  · obtain rfl : t = 0 := hlow.resolve_left (not_le.2 hsub)
    simp [codeMag, codeSig, codeExp, Nat.div_eq_of_lt hsub, Nat.mod_eq_of_lt hsub]
  · have hcode : t * 2 ^ F.fw + (2 ^ F.fw + n) = n + 2 ^ F.fw * (t + 1) := by ring
    obtain hn | rfl : n < 2 ^ F.fw ∨ n = 2 ^ F.fw := by omega
    · simp [hcode, codeMag, codeSig, codeExp, Nat.add_mul_div_left _ _ hpos, Nat.div_eq_of_lt hn, Nat.mod_eq_of_lt hn,
        ← add_assoc]
    · have hfull : 2 ^ F.fw + 2 ^ F.fw * (t + 1) = 2 ^ F.fw * (t + 2) := by ring
      simp only [hcode, hfull, codeMag, codeSig, codeExp, Nat.mul_div_cancel_left _ hpos, Nat.mul_mod_right]
      rw [if_neg (by omega), if_neg (by omega), show F.qmin + ((t + 2 : Nat) : Int) - 1 = F.qmin + t + 1 by push_cast; ring,
        zpow_add_one₀ two_ne_zero]
      push_cast
      ring

/-- Each code is a significand in a unit. -/
theorem Fmt.code_eq_add (F : Fmt) (c : Nat) :
    ∃ t k, c = t * 2 ^ F.fw + k ∧ k < 2 ^ (F.fw + 1) ∧ (2 ^ F.fw ≤ k ∨ t = 0) := by
  have hdiv := Nat.div_add_mod' c (2 ^ F.fw)
  have hmod : c % 2 ^ F.fw < 2 ^ F.fw := Nat.mod_lt _ (Nat.two_pow_pos _)
  rw [pow_succ]
  cases hex : c / 2 ^ F.fw with
  | zero => exact ⟨0, c % 2 ^ F.fw, by rw [← hex, hdiv], by omega, .inr rfl⟩
  | succ t =>
    refine ⟨t, 2 ^ F.fw + c % 2 ^ F.fw, ?_, by omega, .inl (by omega)⟩
    rw [hex, Nat.succ_mul] at hdiv
    omega

theorem Fmt.codeMag_strictMono (F : Fmt) : StrictMono F.codeMag := by
  refine strictMono_nat_of_lt_succ fun c => ?_
  obtain ⟨t, k, rfl, hk, hlow⟩ := F.code_eq_add c
  rw [add_assoc, F.codeMag_add hk.le hlow, F.codeMag_add hk (hlow.imp_left Nat.le_succ_of_le)]
  gcongr
  exact k.lt_succ_self

/-! ### The value of an encoding (R63, R69) -/

theorem Fmt.infCode_lt (F : Fmt) : F.infCode < 2 ^ (F.ew + F.fw) := by
  rw [infCode, pow_add]
  gcongr
  exact Nat.sub_lt (Nat.two_pow_pos _) one_pos

theorem Fmt.infCode_pos (F : Fmt) (hew : 0 < F.ew) : 0 < F.infCode :=
  Nat.mul_pos (Nat.sub_pos_of_lt (Nat.one_lt_two_pow hew.ne')) (Nat.two_pow_pos _)

theorem Fmt.maxCode_lt (F : Fmt) (rd : Reading) : F.maxCode rd < 2 ^ (F.ew + F.fw) := by
  have hpos : 0 < 2 ^ (F.ew + F.fw) := Nat.two_pow_pos _
  cases rd with
  | fin => exact Nat.sub_lt hpos one_pos
  | nan => exact Nat.sub_lt hpos two_pos
  | ieee => exact (Nat.sub_le _ _).trans_lt F.infCode_lt

/-- The code of infinity is the one above the greatest finite code. -/
theorem Fmt.maxCode_ieee_lt_iff (F : Fmt) (hew : 0 < F.ew) (c : Nat) : F.maxCode .ieee < c ↔ F.infCode ≤ c := by
  have := F.infCode_pos hew
  show F.infCode - 1 < c ↔ _
  omega

/-- The sign and the magnitude code of the value of an encoding. -/
theorem Fmt.value_eq (F : Fmt) (rd : Reading) (x : Nat) :
    F.value rd x =
      let neg := decide (x / 2 ^ (F.ew + F.fw) % 2 = 1)
      let c := x % 2 ^ (F.ew + F.fw)
      if rd = .ieee ∧ c = F.infCode then .inf neg
      else if F.maxCode rd < c then .nan
      else .fin neg (F.codeSig c) (F.codeExp c) := by
  by_cases hex : x % 2 ^ (F.ew + F.fw) / 2 ^ F.fw = 0 <;>
    simp [value, codeSig, codeExp, hex, beq_eq_decide]

theorem Fmt.value_of_le_maxCode (F : Fmt) (hew : 0 < F.ew) (rd : Reading) (x : Nat)
    (h : x % 2 ^ (F.ew + F.fw) ≤ F.maxCode rd) :
    F.value rd x = .fin (decide (x / 2 ^ (F.ew + F.fw) % 2 = 1)) (F.codeSig (x % 2 ^ (F.ew + F.fw)))
      (F.codeExp (x % 2 ^ (F.ew + F.fw))) := by
  have hinf : ¬(rd = .ieee ∧ x % 2 ^ (F.ew + F.fw) = F.infCode) := by
    rintro ⟨rfl, hc⟩
    exact h.not_gt ((F.maxCode_ieee_lt_iff hew _).2 hc.ge)
  rw [value_eq]
  simp only [if_neg hinf, if_neg h.not_gt]

/-- The fields of a magnitude code. -/
theorem Fmt.mod_eq_fields (F : Fmt) (x : Nat) :
    x % 2 ^ (F.ew + F.fw) = x / 2 ^ F.fw % 2 ^ F.ew * 2 ^ F.fw + x % 2 ^ F.fw := by
  rw [add_comm F.ew, pow_add, Nat.mod_mul, mul_comm, add_comm]

theorem Fmt.codeMag_fields (F : Fmt) {ex fr : Nat} (hfr : fr < 2 ^ F.fw) :
    F.codeMag (ex * 2 ^ F.fw + fr) =
      if ex = 0 then (2 : ℚ) ^ (1 - (F.bias : Int)) * (fr / 2 ^ F.fw)
      else (2 : ℚ) ^ ((ex : Int) - F.bias) * (1 + fr / 2 ^ F.fw) := by
  have hunit : ∀ t : Int, (2 : ℚ) ^ (F.qmin + t) = (2 : ℚ) ^ (1 + t - F.bias) / 2 ^ F.fw := fun t => by
    rw [← zpow_natCast, ← zpow_sub₀ two_ne_zero, qmin]
    congr 1
    ring
  have hfull : 2 ^ F.fw + fr ≤ 2 ^ (F.fw + 1) := by rw [pow_succ]; omega
  cases ex with
  | zero =>
    rw [F.codeMag_add (by omega) (.inr rfl), hunit, if_pos rfl]
    simp only [Nat.cast_zero, add_zero]
    ring
  | succ t =>
    rw [Nat.succ_mul, add_assoc, F.codeMag_add hfull (.inl (Nat.le_add_right _ _)), hunit, if_neg t.succ_ne_zero]
    push_cast
    rw [add_comm (t : Int) 1]
    field_simp

theorem Fmt.fields_eq_iff (F : Fmt) {ex fr t u : Nat} (hfr : fr < 2 ^ F.fw) (hu : u < 2 ^ F.fw) :
    ex * 2 ^ F.fw + fr = t * 2 ^ F.fw + u ↔ ex = t ∧ fr = u := by
  refine ⟨fun h => ?_, fun ⟨hex, hf⟩ => by rw [hex, hf]⟩
  have hdiv := congrArg (· / 2 ^ F.fw) h
  have hmod := congrArg (· % 2 ^ F.fw) h
  simp only [mul_comm _ (2 ^ F.fw), Nat.mul_add_div (Nat.two_pow_pos F.fw), Nat.mul_add_mod, Nat.div_eq_of_lt hfr,
    Nat.div_eq_of_lt hu, Nat.mod_eq_of_lt hfr, Nat.mod_eq_of_lt hu, add_zero] at hdiv hmod
  exact ⟨hdiv, hmod⟩

theorem Fmt.fields_eq_infCode_iff (F : Fmt) {ex fr : Nat} (hfr : fr < 2 ^ F.fw) :
    ex * 2 ^ F.fw + fr = F.infCode ↔ ex = 2 ^ F.ew - 1 ∧ fr = 0 :=
  F.fields_eq_iff hfr (Nat.two_pow_pos _)

/-- The codes past the greatest finite one: under IEEE those of the top exponent, under NAN the one of all ones (R69). -/
theorem Fmt.maxCode_lt_fields_iff (F : Fmt) (hew : 0 < F.ew) (rd : Reading) {ex fr : Nat} (hex : ex < 2 ^ F.ew)
    (hfr : fr < 2 ^ F.fw) :
    F.maxCode rd < ex * 2 ^ F.fw + fr ↔
      (rd = .ieee ∧ ex = 2 ^ F.ew - 1) ∨ (rd = .nan ∧ ex = 2 ^ F.ew - 1 ∧ fr = 2 ^ F.fw - 1) := by
  have hones : 2 ^ (F.ew + F.fw) - 1 = (2 ^ F.ew - 1) * 2 ^ F.fw + (2 ^ F.fw - 1) := by
    have := Nat.two_pow_pos F.fw
    have : 2 ^ (F.ew + F.fw) = (2 ^ F.ew - 1) * 2 ^ F.fw + 2 ^ F.fw := by
      rw [pow_add, ← Nat.succ_mul, Nat.succ_eq_add_one, Nat.sub_add_cancel (Nat.two_pow_pos _)]
    omega
  have hle : ex * 2 ^ F.fw + fr ≤ 2 ^ (F.ew + F.fw) - 1 := by
    have := Nat.mul_le_mul_right (2 ^ F.fw) (Nat.le_sub_one_of_lt hex)
    omega
  cases rd with
  | fin => simpa [maxCode] using hle
  | nan =>
    have hpos := hones ▸ (F.infCode_pos hew).trans_le (Nat.le_add_right _ _)
    have hlast : F.maxCode .nan < ex * 2 ^ F.fw + fr ↔ ex * 2 ^ F.fw + fr = 2 ^ (F.ew + F.fw) - 1 := by
      show 2 ^ (F.ew + F.fw) - 2 < _ ↔ _
      omega
    rw [hlast, hones, F.fields_eq_iff hfr (Nat.sub_lt (Nat.two_pow_pos _) one_pos)]
    simp
  | ieee =>
    rw [F.maxCode_ieee_lt_iff hew, infCode, ← Nat.le_div_iff_mul_le (Nat.two_pow_pos _), mul_comm ex,
      Nat.mul_add_div (Nat.two_pow_pos _), Nat.div_eq_of_lt hfr]
    simp only [add_zero, true_and, reduceCtorEq, false_and, or_false]
    omega

/-- The three kinds of encodings of a format under a reading, by their fields (R63, R68, R69). -/
theorem Fmt.value_fields (F : Fmt) (hew : 0 < F.ew) (rd : Reading) (x : Nat) :
    let neg := decide (x / 2 ^ (F.ew + F.fw) % 2 = 1)
    let ex := x / 2 ^ F.fw % 2 ^ F.ew
    let fr := x % 2 ^ F.fw
    let top := ex = 2 ^ F.ew - 1
    (rd = .ieee ∧ top ∧ fr = 0 → F.value rd x = .inf neg) ∧
    ((rd = .ieee ∧ top ∧ fr ≠ 0) ∨ (rd = .nan ∧ top ∧ fr = 2 ^ F.fw - 1) → F.value rd x = .nan) ∧
    (rd = .fin ∨ (rd = .nan ∧ ¬(top ∧ fr = 2 ^ F.fw - 1)) ∨ (rd = .ieee ∧ ¬top) → ∃ m e, F.value rd x = .fin neg m e ∧
      (m : ℚ) * (2 : ℚ) ^ e =
        if ex = 0 then (2 : ℚ) ^ (1 - (F.bias : Int)) * (fr / 2 ^ F.fw)
        else (2 : ℚ) ^ ((ex : Int) - F.bias) * (1 + fr / 2 ^ F.fw)) := by
  intro neg ex fr top
  have hfr : fr < 2 ^ F.fw := Nat.mod_lt _ (Nat.two_pow_pos _)
  have hex : ex < 2 ^ F.ew := Nat.mod_lt _ (Nat.two_pow_pos _)
  have hinf := F.fields_eq_infCode_iff (ex := ex) hfr
  have hpast := F.maxCode_lt_fields_iff hew rd hex hfr
  rw [← F.mod_eq_fields x] at hinf hpast
  refine ⟨?_, fun h => ?_, fun h => ?_⟩
  · rintro ⟨hrd, hzero⟩
    rw [value_eq]
    exact if_pos ⟨hrd, hinf.2 hzero⟩
  · have hnotInf : ¬(rd = .ieee ∧ x % 2 ^ (F.ew + F.fw) = F.infCode) := by
      rintro ⟨rfl, hcode⟩
      obtain ⟨-, -, hne⟩ | ⟨hrd, -⟩ := h
      · exact hne (hinf.1 hcode).2
      · cases hrd
    rw [value_eq]
    exact (if_neg hnotInf).trans (if_pos (hpast.2 (h.imp_left fun ⟨hrd, htop, _⟩ => ⟨hrd, htop⟩)))
  · have hle : x % 2 ^ (F.ew + F.fw) ≤ F.maxCode rd := by
      rw [← not_lt, hpast]
      rintro (⟨rfl, htop⟩ | ⟨rfl, hones⟩)
      · simp [htop, top] at h
      · simp [hones, top] at h
    exact ⟨_, _, F.value_of_le_maxCode hew rd x hle, by rw [← F.codeMag_fields hfr, ← F.mod_eq_fields x, codeMag]⟩

/-- Settles O7: the value of an encoding is read off its fields, and a finite sum is taken in the lesser of the two units. -/
theorem floatValueExact : Obligations.FloatValueExact := by
  refine ⟨?_, fun s t m k e f => ⟨_, _, FVal.real_fin s m e, FVal.real_fin t k f, FVal.add_fin_real s t m k e f,
    FVal.mul_fin_real s t m k e f, FVal.neg_fin_real s m e⟩⟩
  rintro row hrow rd - x
  have hew : 0 < row.1.ew := by fin_cases hrow <;> decide
  fin_cases hrow <;> exact Fmt.value_fields _ hew rd x

end Sys2Proof.Machine
end

section
/-! Rounding (R65, R66, R71): every mode takes one of the two multiples of the unit about a magnitude, and no representable magnitude
lies between them. -/

namespace Sys2Proof.Machine

/-! ### Rounding to an integer (R65) -/

/-- The mode takes the lesser magnitude of a value with this sign. -/
def RMode.Toward (m : RMode) (neg : Bool) : Prop := m = .rz ∨ (m = .rd ∧ neg = false) ∨ (m = .ru ∧ neg = true)

/-- The mode takes the greater magnitude of a value with this sign. -/
def RMode.Away (m : RMode) (neg : Bool) : Prop := (m = .rd ∧ neg = true) ∨ (m = .ru ∧ neg = false)

theorem RMode.rn_or_toward_or_away (m : RMode) (neg : Bool) : m = .rn ∨ m.Toward neg ∨ m.Away neg := by
  cases m <;> cases neg <;> simp [Toward, Away]

theorem roundNat_toward {m : RMode} {neg : Bool} (num : Nat) {den : Nat} (hden : 0 < den)
    (h : m.Toward neg) :
    roundNat m neg num den * den ≤ num ∧ num < (roundNat m neg num den + 1) * den := by
  have hk : roundNat m neg num den = num / den := by
    obtain rfl | ⟨rfl, rfl⟩ | ⟨rfl, rfl⟩ := h <;> simp [roundNat, roundsUp]
  rw [hk]
  exact ⟨Nat.div_mul_le_self _ _, by rw [mul_comm]; exact Nat.lt_mul_div_succ num hden⟩

theorem roundNat_away {m : RMode} {neg : Bool} (num : Nat) {den : Nat} (hden : 0 < den)
    (h : m.Away neg) :
    num ≤ roundNat m neg num den * den ∧ roundNat m neg num den * den < num + den := by
  have hk : roundNat m neg num den = if num % den = 0 then num / den else num / den + 1 := by
    obtain ⟨rfl, rfl⟩ | ⟨rfl, rfl⟩ := h <;> by_cases hr : num % den = 0 <;> simp [roundNat, roundsUp, hr]
  have hdiv := Nat.div_add_mod' num den
  have hmod := Nat.mod_lt num hden
  rw [hk]
  split
  · omega
  · rw [Nat.succ_mul (num / den)]
    omega

theorem roundNat_nearest (neg : Bool) (num : Nat) {den : Nat} (hden : 0 < den) :
    2 * (roundNat .rn neg num den * den) ≤ 2 * num + den ∧ 2 * num ≤ 2 * (roundNat .rn neg num den * den) + den ∧
      (2 * (roundNat .rn neg num den * den) = 2 * num + den ∨ 2 * num = 2 * (roundNat .rn neg num den * den) + den →
        roundNat .rn neg num den % 2 = 0) := by
  have hk : roundNat .rn neg num den =
      if 2 * (num % den) > den ∨ (2 * (num % den) = den ∧ num / den % 2 = 1) then num / den + 1 else num / den := by
    simp [roundNat, roundsUp]
  have hdiv := Nat.div_add_mod' num den
  have hmod := Nat.mod_lt num hden
  rw [hk]
  split_ifs
  · rw [Nat.succ_mul (num / den)]
    omega
  · omega

/-- Every mode is within one of the ratio. -/
theorem roundNat_within_one (m : RMode) (neg : Bool) (num : Nat) {den : Nat} (hden : 0 < den) :
    roundNat m neg num den * den < num + den ∧ num < (roundNat m neg num den + 1) * den := by
  obtain rfl | h | h := m.rn_or_toward_or_away neg
  · obtain ⟨hhigh, hlow, -⟩ := roundNat_nearest neg num hden
    rw [Nat.succ_mul]
    omega
  · obtain ⟨hle, hlt⟩ := roundNat_toward num hden h
    exact ⟨by omega, hlt⟩
  · obtain ⟨hle, hlt⟩ := roundNat_away num hden h
    rw [Nat.succ_mul]
    omega

theorem roundNat_le_of_div_lt (m : RMode) (neg : Bool) {num den n : Nat} (hden : 0 < den) (h : (num : ℚ) / den < (n : Nat)) :
    roundNat m neg num den ≤ n := by
  obtain ⟨hless, -⟩ := roundNat_within_one m neg num hden
  have hnum : num < n * den := by exact_mod_cast (div_lt_iff₀ (Nat.cast_pos.2 hden)).1 h
  refine Nat.lt_succ_iff.1 (Nat.lt_of_mul_lt_mul_right (a := den) ?_)
  rw [Nat.succ_mul]
  omega

theorem le_roundNat_of_le_div (m : RMode) (neg : Bool) {num den n : Nat} (hden : 0 < den) (h : (n : Nat) ≤ (num : ℚ) / den) :
    n ≤ roundNat m neg num den := by
  obtain ⟨-, hmore⟩ := roundNat_within_one m neg num hden
  have hnum : n * den ≤ num := by exact_mod_cast (le_div_iff₀ (Nat.cast_pos.2 hden)).1 h
  exact Nat.lt_succ_iff.1 (Nat.lt_of_mul_lt_mul_right (hnum.trans_lt hmore))

/-- The nearest integer of a ratio, as a distance. -/
theorem abs_roundNat_sub_le (neg : Bool) (num : Nat) {den : Nat} (hden : 0 < den) :
    |(roundNat .rn neg num den : ℚ) - num / den| ≤ 1 / 2 ∧
      (|(roundNat .rn neg num den : ℚ) - num / den| = 1 / 2 → roundNat .rn neg num den % 2 = 0) := by
  have hdenQ : (0 : ℚ) < den := Nat.cast_pos.2 hden
  obtain ⟨hhigh, hlow, htie⟩ := roundNat_nearest neg num hden
  revert hhigh hlow htie
  generalize roundNat .rn neg num den = k
  intro hhigh hlow htie
  rw [sub_div' hdenQ.ne', abs_div, abs_of_pos hdenQ, div_le_iff₀ hdenQ, div_eq_iff hdenQ.ne', abs_le, abs_eq (by positivity)]
  refine ⟨?_, fun h => htie ?_⟩
  · have hhighQ : 2 * (k * den : ℚ) ≤ 2 * num + den := by exact_mod_cast hhigh
    have hlowQ : 2 * (num : ℚ) ≤ 2 * (k * den) + den := by exact_mod_cast hlow
    constructor <;> linarith
  · refine h.imp (fun h => ?_) fun h => ?_
    · exact_mod_cast (by linarith : 2 * (k * den : ℚ) = 2 * num + den)
    · exact_mod_cast (by linarith : 2 * (num : ℚ) = 2 * (k * den) + den)

/-! ### The unit that a magnitude is counted in -/

theorem pow2Ratio_pos (e : Int) : 0 < (pow2Ratio e).1 ∧ 0 < (pow2Ratio e).2 := by
  unfold pow2Ratio
  split <;> simp

theorem pow2Ratio_div (e : Int) : ((pow2Ratio e).1 : ℚ) / (pow2Ratio e).2 = (2 : ℚ) ^ e := by
  unfold pow2Ratio
  split
  next h =>
    obtain ⟨n, rfl⟩ := Int.eq_ofNat_of_zero_le h
    simp
  next h =>
    obtain ⟨n, rfl⟩ := Int.eq_negSucc_of_lt_zero (not_le.1 h)
    simp [zpow_negSucc]

/-- The model's integer logarithm is that of the ratio. -/
theorem ratioLog2_bounds {num den : Nat} (hnum : 0 < num) (hden : 0 < den) :
    (2 : ℚ) ^ ratioLog2 num den ≤ (num : ℚ) / den ∧ (num : ℚ) / den < (2 : ℚ) ^ (ratioLog2 num den + 1) := by
  have hnumQ : (0 : ℚ) < num := Nat.cast_pos.2 hnum
  have hdenQ : (0 : ℚ) < den := Nat.cast_pos.2 hden
  have hnumLow : (2 : ℚ) ^ (num.log2 : Int) ≤ num := by exact_mod_cast Nat.log2_self_le hnum.ne'
  have hnumHigh : (num : ℚ) < (2 : ℚ) ^ ((num.log2 : Int) + 1) := by exact_mod_cast Nat.lt_log2_self (n := num)
  have hdenLow : (2 : ℚ) ^ (den.log2 : Int) ≤ den := by exact_mod_cast Nat.log2_self_le hden.ne'
  have hdenHigh : (den : ℚ) < (2 : ℚ) ^ ((den.log2 : Int) + 1) := by exact_mod_cast Nat.lt_log2_self (n := den)
  have hle : den * (pow2Ratio ((num.log2 : Int) - den.log2)).1 ≤ num * (pow2Ratio ((num.log2 : Int) - den.log2)).2 ↔
      (2 : ℚ) ^ ((num.log2 : Int) - den.log2) ≤ (num : ℚ) / den := by
    rw [← pow2Ratio_div, div_le_div_iff₀ (Nat.cast_pos.2 (pow2Ratio_pos _).2) hdenQ, mul_comm den]
    norm_cast
  simp only [ratioLog2, hle]
  split
  next h =>
    refine ⟨h, ?_⟩
    calc (num : ℚ) / den < (2 : ℚ) ^ ((num.log2 : Int) + 1) / (2 : ℚ) ^ (den.log2 : Int) := by gcongr
      _ = _ := by rw [← zpow_sub₀ two_ne_zero, sub_add_eq_add_sub]
  next h =>
    refine ⟨?_, by rw [sub_add_cancel]; exact not_le.1 h⟩
    calc (2 : ℚ) ^ ((num.log2 : Int) - den.log2 - 1) = (2 : ℚ) ^ (num.log2 : Int) / (2 : ℚ) ^ ((den.log2 : Int) + 1) := by
          rw [← zpow_sub₀ two_ne_zero, sub_sub]
      _ ≤ (num : ℚ) / den := by gcongr

/-! ### The magnitudes that a format can represent (R65) -/

/-- A full significand is a normal one in the next unit. -/
theorem two_pow_succ_mul_zpow (n : Nat) (q : Int) :
    ((2 ^ (n + 1) : Nat) : ℚ) * (2 : ℚ) ^ q = ((2 ^ n : Nat) : ℚ) * (2 : ℚ) ^ (q + 1) := by
  rw [zpow_add_one₀ two_ne_zero, pow_succ]
  push_cast
  ring

theorem Fmt.representable_of_le (F : Fmt) {k : Nat} {q : Int} (hq : F.qmin ≤ q) (hk : k ≤ 2 ^ (F.fw + 1)) :
    F.Representable (k * (2 : ℚ) ^ q) := by
  obtain h | rfl := hk.lt_or_eq
  · exact ⟨k, q, h, hq, rfl⟩
  · exact ⟨2 ^ F.fw, q + 1, Nat.pow_lt_pow_right one_lt_two F.fw.lt_succ_self, hq.trans (Int.le_add_one le_rfl),
      two_pow_succ_mul_zpow _ _⟩

theorem Fmt.evenAt_of_even (F : Fmt) (hfw : 0 < F.fw) {k : Nat} {q : Int} (hq : F.qmin ≤ q) (hk : k ≤ 2 ^ (F.fw + 1))
    (hlow : 2 ^ F.fw ≤ k ∨ q = F.qmin) (heven : k % 2 = 0) : F.EvenAt (k * (2 : ℚ) ^ q) := by
  obtain h | rfl := hk.lt_or_eq
  · exact ⟨k, q, h, hq, hlow, heven, rfl⟩
  · exact ⟨2 ^ F.fw, q + 1, Nat.pow_lt_pow_right one_lt_two F.fw.lt_succ_self, hq.trans (Int.le_add_one le_rfl),
      .inl le_rfl, Nat.mod_eq_zero_of_dvd (dvd_pow_self 2 hfw.ne'), two_pow_succ_mul_zpow _ _⟩

/-- Counted in a unit, a representable magnitude is a whole number, or is below every normal significand. -/
theorem Fmt.Representable.in_unit {F : Fmt} {z : ℚ} (hz : F.Representable z) (q : Int) :
    ∃ w : ℚ, z = w * (2 : ℚ) ^ q ∧ ((∃ n : Nat, w = n) ∨ (F.qmin < q ∧ w < 2 ^ F.fw)) := by
  obtain ⟨k, e, hk, he, rfl⟩ := hz
  refine ⟨k * (2 : ℚ) ^ (e - q), by rw [mul_assoc, ← zpow_add₀ two_ne_zero, sub_add_cancel], ?_⟩
  obtain h | h := le_or_gt q e
  · refine .inl ⟨k * 2 ^ (e - q).toNat, ?_⟩
    rw [Nat.cast_mul, Nat.cast_pow, ← zpow_natCast, Int.toNat_of_nonneg (Int.sub_nonneg.2 h), Nat.cast_ofNat]
  · have hkQ : (k : ℚ) < 2 ^ (F.fw + 1) := by exact_mod_cast hk
    have hexp : e - q ≤ -1 := by omega
    refine .inr ⟨he.trans_lt h, ?_⟩
    calc (k : ℚ) * (2 : ℚ) ^ (e - q) < 2 ^ (F.fw + 1) * (2 : ℚ) ^ (-1 : Int) :=
          mul_lt_mul hkQ (zpow_le_zpow_right₀ one_le_two hexp) (by positivity) (by positivity)
      _ = 2 ^ F.fw := by rw [pow_succ, zpow_neg_one, mul_assoc, mul_inv_cancel₀ two_ne_zero, mul_one]

section Unit

variable {F : Fmt} {q : Int} {x z : ℚ} {k : Nat} (hlow : 2 ^ F.fw ≤ x ∨ q = F.qmin) (hz : F.Representable z)
include hlow hz

/-- A representable magnitude not above `x` units is not above the whole part of `x`. -/
theorem Fmt.Representable.le_whole (hk : x < k + 1) (hle : z ≤ x * (2 : ℚ) ^ q) : z ≤ k * (2 : ℚ) ^ q := by
  have hpos : (0 : ℚ) < 2 ^ q := by positivity
  obtain ⟨w, rfl, ⟨n, rfl⟩ | ⟨hq, hw⟩⟩ := hz.in_unit q
  · have hn : (n : ℚ) < k + 1 := (le_of_mul_le_mul_right hle hpos).trans_lt hk
    gcongr
    exact Nat.lt_succ_iff.1 (by exact_mod_cast hn)
  · have hnorm : ((2 ^ F.fw : Nat) : ℚ) < k + 1 := by
      push_cast
      exact (hlow.resolve_right hq.ne').trans_lt hk
    have : ((2 ^ F.fw : Nat) : ℚ) ≤ k := Nat.cast_le.2 (Nat.lt_succ_iff.1 (by exact_mod_cast hnorm))
    gcongr
    exact hw.le.trans (by exact_mod_cast this)

/-- A representable magnitude not below `x` units is not below a whole number less than one above `x`. -/
theorem Fmt.Representable.whole_le (hk : (k : ℚ) < x + 1) (hle : x * (2 : ℚ) ^ q ≤ z) : k * (2 : ℚ) ^ q ≤ z := by
  have hpos : (0 : ℚ) < 2 ^ q := by positivity
  obtain ⟨w, rfl, ⟨n, rfl⟩ | ⟨hq, hw⟩⟩ := hz.in_unit q
  · have hn : (k : ℚ) < n + 1 := hk.trans_le (by gcongr; exact le_of_mul_le_mul_right hle hpos)
    gcongr
    exact Nat.lt_succ_iff.1 (by exact_mod_cast hn)
  · exact absurd (le_of_mul_le_mul_right hle hpos) (hw.trans_le (hlow.resolve_right hq.ne')).not_ge

omit hlow hz in
/-- Only one whole number is nearer than a half. -/
theorem half_le_abs_sub {n : Nat} (hk : |(k : ℚ) - x| ≤ 1 / 2) (hne : n ≠ k) : 1 / 2 ≤ |(n : ℚ) - x| := by
  obtain h | h := hne.lt_or_gt
  · have : (n : ℚ) + 1 ≤ k := by exact_mod_cast h
    rw [abs_le] at hk
    exact le_abs.2 (.inr (by linarith))
  · have : (k : ℚ) + 1 ≤ n := by exact_mod_cast h
    rw [abs_le] at hk
    exact le_abs.2 (.inl (by linarith))

/-- Every other representable magnitude is farther from `x` units than the nearest whole number, or as far at a half. -/
theorem Fmt.Representable.nearest_lt_or_half (hk : |(k : ℚ) - x| ≤ 1 / 2) (hne : z ≠ k * (2 : ℚ) ^ q) :
    |k * (2 : ℚ) ^ q - x * (2 : ℚ) ^ q| < |z - x * (2 : ℚ) ^ q| ∨
      (|(k : ℚ) - x| = 1 / 2 ∧ |k * (2 : ℚ) ^ q - x * (2 : ℚ) ^ q| ≤ |z - x * (2 : ℚ) ^ q|) := by
  have hpos : (0 : ℚ) < 2 ^ q := by positivity
  obtain ⟨w, rfl, hw⟩ := hz.in_unit q
  simp only [← sub_mul, abs_mul, abs_of_pos hpos, mul_lt_mul_iff_left₀ hpos, mul_le_mul_iff_left₀ hpos]
  obtain ⟨n, rfl⟩ | ⟨hq, hw⟩ := hw
  · have hn : 1 / 2 ≤ |(n : ℚ) - x| := half_le_abs_sub hk (by rintro rfl; exact hne rfl)
    obtain hlt | heq := hk.lt_or_eq
    · exact .inl (hlt.trans_le hn)
    · exact .inr ⟨heq, heq.le.trans hn⟩
  · have hx : 2 ^ F.fw ≤ x := hlow.resolve_right hq.ne'
    have hnorm : |(k : ℚ) - x| ≤ |((2 ^ F.fw : Nat) : ℚ) - x| := by
      by_cases h : 2 ^ F.fw = k
      · rw [h]
      · exact hk.trans (half_le_abs_sub hk h)
    refine .inl (hnorm.trans_lt ?_)
    push_cast
    rw [abs_of_nonpos (sub_nonpos.2 hx), abs_of_neg (by linarith)]
    linarith

end Unit

theorem Fmt.roundsTo_iff_of_toward (F : Fmt) {m : RMode} {neg : Bool} (h : m.Toward neg) (a y : ℚ) :
    F.RoundsTo m neg a y ↔ F.Representable y ∧ y ≤ a ∧ ∀ z, F.Representable z → z ≤ a → z ≤ y := by
  obtain rfl | ⟨rfl, rfl⟩ | ⟨rfl, rfl⟩ := h <;> rfl

theorem Fmt.roundsTo_iff_of_away (F : Fmt) {m : RMode} {neg : Bool} (h : m.Away neg) (a y : ℚ) :
    F.RoundsTo m neg a y ↔ F.Representable y ∧ a ≤ y ∧ ∀ z, F.Representable z → a ≤ z → y ≤ z := by
  obtain ⟨rfl, rfl⟩ | ⟨rfl, rfl⟩ := h <;> rfl

/-- Rounding the count of units to an integer rounds the magnitude to the format, where the unit is the format's for it. -/
theorem Fmt.roundsTo_roundNat (F : Fmt) (hfw : 0 < F.fw) (m : RMode) (neg : Bool) {num den : Nat} (hden : 0 < den) {q : Int}
    (hq : F.qmin ≤ q) (hlow : 2 ^ F.fw ≤ (num : ℚ) / den ∨ q = F.qmin) (hk : roundNat m neg num den ≤ 2 ^ (F.fw + 1))
    (hnorm : 2 ^ F.fw ≤ roundNat m neg num den ∨ q = F.qmin) :
    F.RoundsTo m neg ((num : ℚ) / den * (2 : ℚ) ^ q) (roundNat m neg num den * (2 : ℚ) ^ q) := by
  have hdenQ : (0 : ℚ) < den := Nat.cast_pos.2 hden
  have hrep := F.representable_of_le hq hk
  obtain rfl | h | h := m.rn_or_toward_or_away neg
  · obtain ⟨hhalf, heven⟩ := abs_roundNat_sub_le neg num hden
    refine ⟨hrep, fun z hz => ?_, ?_⟩
    · by_cases hne : z = roundNat .rn neg num den * (2 : ℚ) ^ q
      · rw [hne]
      · exact (hz.nearest_lt_or_half hlow hhalf hne).elim le_of_lt And.right
    · rintro ⟨z, hz, hne, heq⟩
      obtain hlt | ⟨hmid, -⟩ := hz.nearest_lt_or_half hlow hhalf hne
      · exact absurd heq hlt.ne'
      · exact F.evenAt_of_even hfw hq hk hnorm (heven hmid)
  · obtain ⟨hle, hlt⟩ := roundNat_toward num hden h
    refine (F.roundsTo_iff_of_toward h _ _).2 ⟨hrep, ?_, fun z hz => hz.le_whole hlow ?_⟩
    · gcongr
      exact (le_div_iff₀ hdenQ).2 (by exact_mod_cast hle)
    · exact (div_lt_iff₀ hdenQ).2 (by exact_mod_cast hlt)
  · obtain ⟨hle, hlt⟩ := roundNat_away num hden h
    refine (F.roundsTo_iff_of_away h _ _).2 ⟨hrep, ?_, fun z hz => hz.whole_le hlow ?_⟩
    · gcongr
      exact (div_le_iff₀ hdenQ).2 (by exact_mod_cast hle)
    · rw [div_add_one hdenQ.ne']
      exact (lt_div_iff₀ hdenQ).2 (by exact_mod_cast hlt)

end Sys2Proof.Machine
end

section
/-! Encoding in a format (R65, R66, R71): the code of the rounded magnitude, and what stands for it past the greatest finite one. -/

namespace Sys2Proof.Machine

/-! ### The code of a rounded magnitude (R65) -/

/-- The power of two in which the format counts a positive ratio. -/
def Fmt.unitExp (F : Fmt) (num den : Nat) : Int := max (ratioLog2 num den - F.fw) F.qmin

theorem Fmt.qmin_le_unitExp (F : Fmt) (num den : Nat) : F.qmin ≤ F.unitExp num den := le_max_right _ _

/-- The count of units is below two normal significands, and is a normal one where the unit is not the least. -/
theorem Fmt.unitExp_bounds (F : Fmt) {num den : Nat} (hnum : 0 < num) (hden : 0 < den) :
    (num : ℚ) / den / (2 : ℚ) ^ F.unitExp num den < 2 ^ (F.fw + 1) ∧
      (2 ^ F.fw ≤ (num : ℚ) / den / (2 : ℚ) ^ F.unitExp num den ∨ F.unitExp num den = F.qmin) := by
  obtain ⟨hlow, hhigh⟩ := ratioLog2_bounds hnum hden
  have hunit : (0 : ℚ) < 2 ^ F.unitExp num den := by positivity
  constructor
  · rw [div_lt_iff₀ hunit, ← zpow_natCast, ← zpow_add₀ two_ne_zero]
    refine hhigh.trans_le (zpow_le_zpow_right₀ one_le_two ?_)
    have := le_max_left (ratioLog2 num den - F.fw) F.qmin
    unfold unitExp
    omega
  · obtain h | h := max_choice (ratioLog2 num den - F.fw) F.qmin
    · refine .inl ((le_div_iff₀ hunit).2 ?_)
      rwa [← zpow_natCast, ← zpow_add₀ two_ne_zero, unitExp, h, add_sub_cancel]
    · exact .inr h

theorem Fmt.roundCode_eq (F : Fmt) (m : RMode) (neg : Bool) {num : Nat} (hnum : 0 < num) (den : Nat) :
    roundCode F m neg num den = (F.unitExp num den - F.qmin).toNat * 2 ^ F.fw +
      roundNat m neg (num * (pow2Ratio (F.unitExp num den)).2) (den * (pow2Ratio (F.unitExp num den)).1) := by
  simp [roundCode, unitExp, hnum.ne']

/-- The magnitude of the code is what the mode rounds the ratio to. -/
theorem Fmt.roundsTo_roundCode (F : Fmt) (hfw : 0 < F.fw) (m : RMode) (neg : Bool) (num : Nat) {den : Nat} (hden : 0 < den) :
    F.RoundsTo m neg ((num : ℚ) / den) (F.codeMag (roundCode F m neg num den)) := by
  obtain rfl | hnum := num.eq_zero_or_pos
  · have hzero : roundNat m neg 0 1 = 0 := by cases m <;> cases neg <;> rfl
    have h := F.roundsTo_roundNat hfw m neg (num := 0) one_pos le_rfl (.inr rfl) (by simp [hzero]) (.inr rfl)
    simpa [hzero, roundCode, codeMag, codeSig] using h
  · obtain ⟨hhigh, hlow⟩ := F.unitExp_bounds hnum hden
    have hq := F.qmin_le_unitExp num den
    rw [F.roundCode_eq m neg hnum]
    revert hhigh hlow hq
    generalize F.unitExp num den = q
    intro hhigh hlow hq
    obtain ⟨hp, hr⟩ := pow2Ratio_pos q
    have hD : 0 < den * (pow2Ratio q).1 := Nat.mul_pos hden hp
    have hcount : ((num * (pow2Ratio q).2 : Nat) : ℚ) / (den * (pow2Ratio q).1 : Nat) = (num : ℚ) / den / (2 : ℚ) ^ q := by
      rw [← pow2Ratio_div, Nat.cast_mul, Nat.cast_mul]
      field_simp
    rw [← hcount] at hhigh hlow
    have hk := roundNat_le_of_div_lt m neg hD (by exact_mod_cast hhigh)
    have hnorm := hlow.imp_left fun h => le_roundNat_of_le_div m neg hD (n := 2 ^ F.fw) (by exact_mod_cast h)
    have hcode := F.codeMag_add (t := (q - F.qmin).toNat) hk (hnorm.imp_right fun h => by rw [h, sub_self]; rfl)
    rw [Int.toNat_of_nonneg (Int.sub_nonneg.2 hq), add_sub_cancel] at hcode
    have h := F.roundsTo_roundNat hfw m neg hD hq hlow hk hnorm
    rwa [hcount, div_mul_cancel₀ _ (by positivity), ← hcode] at h

/-! ### The sign and the overflow of R66 -/

theorem Fmt.signBit_add_mod (F : Fmt) (s : Bool) {c : Nat} (hc : c < 2 ^ (F.ew + F.fw)) :
    (F.signBit s + c) % 2 ^ (F.ew + F.fw) = c := by
  cases s <;> simp [signBit, Nat.mod_eq_of_lt hc]

theorem Fmt.signBit_add_div (F : Fmt) (s : Bool) {c : Nat} (hc : c < 2 ^ (F.ew + F.fw)) :
    (F.signBit s + c) / 2 ^ (F.ew + F.fw) = s.toNat := by
  cases s <;> simp [signBit, Nat.div_eq_of_lt hc]

theorem Fmt.signBit_add_lt (F : Fmt) (s : Bool) {c : Nat} (hc : c < 2 ^ (F.ew + F.fw)) :
    F.signBit s + c < 2 ^ F.width := by
  have hwidth : 2 ^ F.width = 2 ^ (F.ew + F.fw) * 2 := by rw [width, add_assoc, add_comm 1, pow_succ]
  rw [hwidth, signBit]
  split <;> omega

theorem Fmt.value_signBit_add (F : Fmt) (hew : 0 < F.ew) {rd : Reading} (s : Bool) {c : Nat} (hc : c ≤ F.maxCode rd) :
    F.value rd (F.signBit s + c) = .fin s (F.codeSig c) (F.codeExp c) := by
  have hlt := hc.trans_lt (F.maxCode_lt rd)
  rw [F.value_of_le_maxCode hew rd _ (by rwa [F.signBit_add_mod s hlt]), F.signBit_add_mod s hlt, F.signBit_add_div s hlt]
  cases s <;> rfl

theorem Fmt.value_signBit_add_infCode (F : Fmt) (s : Bool) : F.value .ieee (F.signBit s + F.infCode) = .inf s := by
  rw [value_eq, F.signBit_add_mod s F.infCode_lt, F.signBit_add_div s F.infCode_lt]
  cases s <;> simp

/-- The code of a value whose magnitude lies past the greatest finite one (R66). -/
def Fmt.pastMaxCode (F : Fmt) (rd : Reading) (m : RMode) (s : Bool) : Nat :=
  if rd = .ieee ∧ (m = .rn ∨ (m = .rd ∧ s = true) ∨ (m = .ru ∧ s = false)) then F.infCode else F.maxCode rd

theorem overflowCode_eq_pastMaxCode (F : Fmt) (m : RMode) (s : Bool) : overflowCode F m s = F.pastMaxCode .ieee m s := by
  cases m <;> cases s <;> simp [overflowCode, Fmt.pastMaxCode]

theorem Fmt.pastMaxCode_lt (F : Fmt) (rd : Reading) (m : RMode) (s : Bool) : F.pastMaxCode rd m s < 2 ^ (F.ew + F.fw) := by
  unfold pastMaxCode
  split
  · exact F.infCode_lt
  · exact F.maxCode_lt rd

theorem roundRat_of_le (F : Fmt) {rd : Reading} {m : RMode} {s : Bool} {num den : Nat}
    (h : roundCode F m s num den ≤ F.maxCode rd) :
    roundRat F rd m s num den = F.signBit s + roundCode F m s num den := by
  simp [roundRat, h]

theorem roundRat_of_lt (F : Fmt) {rd : Reading} {m : RMode} {s : Bool} {num den : Nat}
    (h : F.maxCode rd < roundCode F m s num den) :
    roundRat F rd m s num den = F.signBit s + F.pastMaxCode rd m s := by
  by_cases hrd : rd = .ieee
  · subst hrd
    simp [roundRat, h.not_ge, overflowCode_eq_pastMaxCode]
  · simp [roundRat, h.not_ge, hrd, Fmt.pastMaxCode]

/-- A code of a format stands for the finite value of this sign and magnitude. -/
def Fmt.IsFin (F : Fmt) (rd : Reading) (code : Nat) (s : Bool) (y : ℚ) : Prop :=
  ∃ j q, F.value rd code = .fin s j q ∧ (j : ℚ) * (2 : ℚ) ^ q = y

theorem Fmt.isFin_signBit_add (F : Fmt) (hew : 0 < F.ew) {rd : Reading} (s : Bool) {c : Nat} (hc : c ≤ F.maxCode rd) :
    F.IsFin rd (F.signBit s + c) s (F.codeMag c) :=
  ⟨_, _, F.value_signBit_add hew s hc, rfl⟩

/-- What the code of a rounded ratio stands for (R65, R66). -/
theorem Fmt.roundRat_spec (F : Fmt) (hew : 0 < F.ew) (hfw : 0 < F.fw) (rd : Reading) (m : RMode) (s : Bool) (num : Nat) {den : Nat}
    (hden : 0 < den) :
    roundRat F rd m s num den < 2 ^ F.width ∧
    ∃ y, F.RoundsTo m s ((num : ℚ) / den) y ∧
      (y ≤ F.codeMag (F.maxCode rd) → F.IsFin rd (roundRat F rd m s num den) s y) ∧
      (F.codeMag (F.maxCode rd) < y →
        if rd = .ieee ∧ (m = .rn ∨ (m = .rd ∧ s = true) ∨ (m = .ru ∧ s = false))
        then F.value rd (roundRat F rd m s num den) = .inf s
        else F.IsFin rd (roundRat F rd m s num den) s (F.codeMag (F.maxCode rd))) := by
  refine ⟨?_, _, F.roundsTo_roundCode hfw m s num hden, fun h => ?_, fun h => ?_⟩
  · obtain h | h := le_or_gt (roundCode F m s num den) (F.maxCode rd)
    · rw [roundRat_of_le F h]
      exact F.signBit_add_lt s (h.trans_lt (F.maxCode_lt rd))
    · rw [roundRat_of_lt F h]
      exact F.signBit_add_lt s (F.pastMaxCode_lt rd m s)
  · rw [F.codeMag_strictMono.le_iff_le] at h
    rw [roundRat_of_le F h]
    exact F.isFin_signBit_add hew s h
  · rw [F.codeMag_strictMono.lt_iff_lt] at h
    rw [roundRat_of_lt F h, pastMaxCode]
    split
    next hinf =>
      rw [hinf.1]
      exact F.value_signBit_add_infCode s
    next => exact F.isFin_signBit_add hew s le_rfl

theorem encodeFloat_fin (F : Fmt) (rd : Reading) (m : RMode) (s : Bool) (k : Nat) (e : Int) :
    encodeFloat F rd m (.fin s k e) = roundRat F rd m s (k * (pow2Ratio e).1) (pow2Ratio e).2 := rfl

theorem cast_mul_pow2Ratio_div (k : Nat) (e : Int) :
    ((k * (pow2Ratio e).1 : Nat) : ℚ) / (pow2Ratio e).2 = k * (2 : ℚ) ^ e := by
  rw [Nat.cast_mul, mul_div_assoc, pow2Ratio_div]

/-- The sign of an infinity is kept but for the one code of the reading NAN (R69, R71). -/
theorem encodeFloat_inf (F : Fmt) (rd : Reading) (m : RMode) (s : Bool) :
    encodeFloat F rd m (.inf s) =
      encodeFloat F rd .rn (.inf false) + if s ∧ rd ≠ .nan then 2 ^ (F.width - 1) else 0 := by
  have hwidth : F.width - 1 = F.ew + F.fw := by rw [Fmt.width, add_assoc, Nat.add_sub_cancel_left]
  cases rd <;> cases s <;> simp [encodeFloat, Fmt.signBit, hwidth, add_comm]

/-- Settles O8: the code of a magnitude is the rounded count of its units on top of the unit, codes rise with their magnitudes, and
the greatest finite code of each format and reading has the magnitude of its row. -/
theorem roundingModes : Obligations.RoundingModes := by
  constructor
  · intro row hrow
    have hfields : 0 < row.1.ew ∧ 0 < row.1.fw := by fin_cases hrow <;> decide
    have hcodes : encodeFloat row.1 row.2.1 .rn .nan = row.2.2.2.1 ∧ encodeFloat row.1 row.2.1 .rn (.inf false) = row.2.2.2.2 := by
      fin_cases hrow <;> decide
    have htop : row.1.codeMag (row.1.maxCode row.2.1) = row.2.2.1 := by
      fin_cases hrow <;> norm_num [Fmt.codeMag, Fmt.codeSig, Fmt.codeExp, Fmt.maxCode, Fmt.qmin, Fmt.f32, Fmt.f16, Fmt.bf16,
        Fmt.f8e4, Fmt.f8e5, Fmt.f6e2, Fmt.f6e3, Fmt.f4e2]
    obtain ⟨hew, hfw⟩ := hfields
    obtain ⟨hnan, hinf⟩ := hcodes
    intro m s k e
    have h := row.1.roundRat_spec hew hfw row.2.1 m s (k * (pow2Ratio e).1) (pow2Ratio_pos e).2
    rw [cast_mul_pow2Ratio_div, ← encodeFloat_fin, htop] at h
    exact ⟨hnan, hinf ▸ encodeFloat_inf row.1 row.2.1 m s, h⟩
  · intro num den neg hden
    refine ⟨roundNat_toward num hden (.inl rfl), roundNat_nearest neg num hden, ?_, ?_⟩
    · cases neg with
      | false => exact roundNat_toward num hden (.inr (.inl ⟨rfl, rfl⟩))
      | true => exact roundNat_away num hden (.inl ⟨rfl, rfl⟩)
    · cases neg with
      | false => exact roundNat_away num hden (.inr ⟨rfl, rfl⟩)
      | true => exact roundNat_toward num hden (.inr (.inr ⟨rfl, rfl⟩))

end Sys2Proof.Machine
end

section
/-! The integer operations that the lane and the uniform sets share, as arithmetic and bit by bit (R93, R94, R107 to R111). -/

namespace Sys2Proof.Machine

theorem add_eq_ofNat (x y : Word) : x + y = BitVec.ofNat 32 (x.toNat + y.toNat) :=
  BitVec.eq_of_toNat_eq (by simp)

theorem sub_eq_ofInt (x y : Word) : x - y = BitVec.ofInt 32 (x.toInt - y.toInt) := by
  rw [sub_eq_add_neg x.toInt, BitVec.ofInt_add, BitVec.ofInt_neg, BitVec.ofInt_toInt, BitVec.ofInt_toInt, BitVec.sub_eq_add_neg]

theorem mul_eq_ofInt (x y : Word) : x * y = BitVec.ofInt 32 (x.toInt * y.toInt) := by
  rw [BitVec.ofInt_mul, BitVec.ofInt_toInt, BitVec.ofInt_toInt]

theorem extractLsb'_high_ofInt (z : Int) : (BitVec.ofInt 64 z).extractLsb' 32 32 = BitVec.ofInt 32 (z / 2 ^ 32) := by
  apply BitVec.eq_of_toNat_eq
  rw [BitVec.extractLsb'_toNat, BitVec.toNat_ofInt, BitVec.toNat_ofInt, Nat.shiftRight_eq_div_pow]
  omega

theorem mulhiS_eq_ofInt (x y : Word) : mulhiS x y = BitVec.ofInt 32 (x.toInt * y.toInt / 2 ^ 32) := by
  have hprod : sext64 x * sext64 y = BitVec.ofInt 64 (x.toInt * y.toInt) := by
    rw [BitVec.ofInt_mul]; rfl
  rw [mulhiS, hprod, extractLsb'_high_ofInt]

theorem mulhiU_eq_ofNat (x y : Word) : mulhiU x y = BitVec.ofNat 32 (x.toNat * y.toNat / 2 ^ 32) := by
  have hlt : x.toNat * y.toNat < 2 ^ 64 := (Nat.mul_lt_mul'' x.isLt y.isLt).trans_eq (by norm_num)
  apply BitVec.eq_of_toNat_eq
  simp only [mulhiU, BitVec.extractLsb'_toNat, BitVec.toNat_mul, BitVec.toNat_setWidth, BitVec.truncate_eq_setWidth,
    BitVec.toNat_ofNat, Nat.shiftRight_eq_div_pow]
  rw [Nat.mod_eq_of_lt (x.isLt.trans (by decide)), Nat.mod_eq_of_lt (y.isLt.trans (by decide)), Nat.mod_eq_of_lt hlt]

theorem minS_eq_ofInt (x y : Word) : minS x y = BitVec.ofInt 32 (min x.toInt y.toInt) := by
  rw [minS, BitVec.slt_eq_decide]
  by_cases h : x.toInt < y.toInt
  · simp [h, min_eq_left h.le]
  · simp [h, min_eq_right (not_lt.1 h)]

theorem maxS_eq_ofInt (x y : Word) : maxS x y = BitVec.ofInt 32 (max x.toInt y.toInt) := by
  rw [maxS, BitVec.slt_eq_decide]
  by_cases h : x.toInt < y.toInt
  · simp [h, max_eq_right h.le]
  · simp [h, max_eq_left (not_lt.1 h)]

theorem minU_eq_ofNat (x y : Word) : minU x y = BitVec.ofNat 32 (min x.toNat y.toNat) := by
  rw [minU, BitVec.ult_eq_decide]
  by_cases h : x.toNat < y.toNat
  · simp [h, min_eq_left h.le]
  · simp [h, min_eq_right (not_lt.1 h)]

theorem maxU_eq_ofNat (x y : Word) : maxU x y = BitVec.ofNat 32 (max x.toNat y.toNat) := by
  rw [maxU, BitVec.ult_eq_decide]
  by_cases h : x.toNat < y.toNat
  · simp [h, max_eq_right h.le]
  · simp [h, max_eq_left (not_lt.1 h)]

theorem shiftLeft_eq_ofNat (x : Word) (k : Nat) : x <<< k = BitVec.ofNat 32 (x.toNat * 2 ^ k) :=
  BitVec.eq_of_toNat_eq (by simp [Nat.shiftLeft_eq])

theorem ushiftRight_eq_ofNat (x : Word) (k : Nat) : x >>> k = BitVec.ofNat 32 (x.toNat / 2 ^ k) := by
  rw [← Nat.shiftRight_eq_div_pow, ← BitVec.toNat_ushiftRight, BitVec.ofNat_toNat, BitVec.setWidth_eq]

theorem shrS_eq_ofInt (x y : Word) : shrS x y = BitVec.ofInt 32 (x.toInt / 2 ^ min y.toNat 31) := by
  rw [shrS, BitVec.sshiftRight, Int.shiftRight_eq_div_pow]
  push_cast
  rfl

theorem shl_eq_ofNat (x y : Word) : shl x y = if 32 ≤ y.toNat then 0 else BitVec.ofNat 32 (x.toNat * 2 ^ y.toNat) := by
  rw [shl, shiftLeft_eq_ofNat]

theorem shrU_eq_ofNat (x y : Word) : shrU x y = if 32 ≤ y.toNat then 0 else BitVec.ofNat 32 (x.toNat / 2 ^ y.toNat) := by
  rw [shrU, ushiftRight_eq_ofNat]

theorem toNat_zext32 {w : Nat} (hw : w ≤ 32) (x : BitVec w) : (zext32 x).toNat = x.toNat := BitVec.toNat_setWidth_of_le hw

theorem zext32_eq_ofNat {w : Nat} (x : BitVec w) : zext32 x = BitVec.ofNat 32 x.toNat := (BitVec.ofNat_toNat 32 x).symm

theorem add_sext32 {w : Nat} (x : Word) (i : BitVec w) : x + sext32 i = BitVec.ofInt 32 (x.toInt + i.toInt) := by
  rw [BitVec.ofInt_add, BitVec.ofInt_toInt]
  rfl

theorem shl_zext32 (x : Word) (k : BitVec 5) : shl x (zext32 k) = BitVec.ofNat 32 (x.toNat * 2 ^ k.toNat) := by
  rw [shl_eq_ofNat, toNat_zext32 (by decide), if_neg (not_le.2 k.isLt)]

theorem shrU_zext32 (x : Word) (k : BitVec 5) : shrU x (zext32 k) = BitVec.ofNat 32 (x.toNat / 2 ^ k.toNat) := by
  rw [shrU_eq_ofNat, toNat_zext32 (by decide), if_neg (not_le.2 k.isLt)]

@[simp] theorem getElem_lowMask (n : Nat) {i : Nat} (hi : i < 32) : (lowMask n)[i] = decide (i < n) := by
  rw [lowMask, ← BitVec.getLsbD_eq_getElem, BitVec.getLsbD_ofNat, Nat.testBit_two_pow_sub_one]
  simp [hi]

theorem bfeU_eq_setWidth (x y : Word) : bfeU x y = ((x >>> fieldPos y).setWidth (fieldLen y)).zeroExtend 32 := by
  apply BitVec.eq_of_getElem_eq
  intro i hi
  simp [bfeU, BitVec.getLsbD_setWidth, Bool.and_comm]

/-- Sign extension sets the bits above a field by its top bit. -/
theorem signExtend_eq_lowMask {n : Nat} (z : BitVec n) :
    z.signExtend 32 = if z.msb then z.zeroExtend 32 ||| ~~~lowMask n else z.zeroExtend 32 := by
  apply BitVec.eq_of_getElem_eq
  intro i hi
  rw [BitVec.getElem_signExtend]
  by_cases h : i < n
  · cases z.msb <;> simp [h, BitVec.getLsbD_eq_getElem]
  · cases z.msb <;> simp [h, BitVec.getLsbD_of_ge z i (not_lt.1 h)]

theorem bfeS_eq_signExtend (x y : Word) : bfeS x y = ((x >>> fieldPos y).setWidth (fieldLen y)).signExtend 32 := by
  have hlen : fieldLen y ≤ 32 := (min_le_right _ _).trans (Nat.sub_le _ _)
  rw [signExtend_eq_lowMask, ← bfeU_eq_setWidth, bfeS]
  by_cases hn : fieldLen y = 0
  · simp [hn, bfeU, lowMask, BitVec.msb_setWidth]
  · have hsign : ((x >>> fieldPos y).setWidth (fieldLen y)).msb = (bfeU x y).getLsbD (fieldLen y - 1) := by
      have : fieldLen y - 1 < 32 := by omega
      simp [bfeU_eq_setWidth, BitVec.msb_setWidth, Nat.pos_of_ne_zero hn, this]
    simp only [hn, if_false, hsign]

theorem bfi_eq_ofFnLE (base x y : Word) : bfi base x y = BitVec.ofFnLE fun i : Fin 32 =>
    if fieldPos y ≤ i.val ∧ i.val < fieldPos y + fieldLen y then x.getLsbD (i.val - fieldPos y) else base.getLsbD i.val := by
  apply BitVec.eq_of_getElem_eq
  intro i hi
  rw [BitVec.getElem_ofFnLE]
  by_cases h : fieldPos y ≤ i
  · have hend : i - fieldPos y < fieldLen y ↔ i < fieldPos y + fieldLen y := by omega
    by_cases h' : i < fieldPos y + fieldLen y
    · simp [bfi, h, h', hend, not_lt.2 h, BitVec.getLsbD_eq_getElem, (Nat.sub_le i (fieldPos y)).trans_lt hi]
    · simp [bfi, h, h', hend, not_lt.2 h, BitVec.getLsbD_eq_getElem, hi]
  · simp [bfi, h, not_le.1 h, BitVec.getLsbD_eq_getElem, hi]

theorem length_filter_eq_sum (p : Nat → Bool) (l : List Nat) : (l.filter p).length = (l.map fun i => (p i).toNat).sum := by
  induction l with
  | nil => rfl
  | cons i l ih => cases h : p i <;> simp [h, ih, Nat.add_comm]

theorem popc_eq_sum (x : Word) : popc x = BitVec.ofNat 32 (((List.range 32).map fun i => (x.getLsbD i).toNat).sum) := by
  rw [popc, length_filter_eq_sum]

theorem length_takeWhile_range {p : Nat → Bool} {n k : Nat} (hk : k < n) (hbelow : ∀ j, j < k → p j = true) (hat : p k = false) :
    ((List.range n).takeWhile p).length = k := by
  have hidx : (List.range n).findIdx (fun i => !p i) = k := by
    rw [List.findIdx_eq (by simpa using hk)]
    simpa [hat] using hbelow
  rw [List.takeWhile_eq_take_findIdx_not, hidx, List.length_take, List.length_range, min_eq_left hk.le]

theorem clz_eq_takeWhile (x : Word) :
    clz x = BitVec.ofNat 32 (((List.range 32).takeWhile fun i => !x.getLsbD (31 - i)).length) := by
  by_cases hx : x = 0
  · subst hx
    decide
  · have hne : x.toNat ≠ 0 := fun h => hx (BitVec.eq_of_toNat_eq h)
    have htop : Nat.log2 x.toNat < 32 := (Nat.log2_lt hne).2 x.isLt
    rw [clz, if_neg hx, length_takeWhile_range (k := 31 - Nat.log2 x.toNat) (by omega) fun j hj => ?_]
    · rw [Nat.sub_sub_self (Nat.le_of_lt_succ htop), BitVec.getLsbD, Nat.testBit_log2 hne]
      rfl
    · have habove : x.toNat < 2 ^ (31 - j) := Nat.lt_log2_self.trans_le (Nat.pow_le_pow_right (by decide) (by omega))
      rw [BitVec.getLsbD, Nat.testBit_lt_two_pow habove]
      rfl

end Sys2Proof.Machine
end

section
/-! Uniform instructions: what the agents' own parts do stands under the frame rules (R89); uniform arithmetic completes (R93, R94). -/

namespace Sys2Proof.Machine

/-! ### Under the frame rules -/

theorem OnlyAgents.frames {s t u : State} (h : OnlyAgents s t) (hf : FramesOnly t u) : OnlyAgents s u :=
  ⟨h.1.trans hf.body, fun ag hag => (h.2 ag hag).trans (hf.agents ag)⟩

theorem Executed.frames {s t u : State} {ag : Agent} {n : BitVec 3} {lat : Nat} {ws : List Write} {pc : DWord}
    (h : Executed s t ag n lat ws pc) (hf : FramesOnly t u) : Executed s u ag n lat ws pc :=
  h.congr (SameAgent.refl s ag) (hf.agents ag) (congrArg Issue.now hf.issue)

/-- A uniform instruction of fixed latency that completes with `g`, given an equal function `f` in its meaning. -/
theorem fixedLatency_of_runUFixed {i : Instr} {o : Op} {who : Who} {n : BitVec 3} {lat : Nat} {srcs : List Src} {dsts : List Reg}
    {f g : List VReg → List Write} (hi : ∀ s, exec i s = .next (s.runUFixed o lat f)) (hbad : o.bad = none)
    (hfits : ∀ vs ag, ∀ w ∈ g vs, w.fits ag) (hf : ∀ vs, f vs = g vs) (hwho : o.who = who := by rfl) (hs : o.srcs = srcs := by rfl)
    (hd : o.dsts = dsts := by rfl) (hn : o.n = n := by rfl) (hpriv : o.priv = false := by rfl) :
    FixedLatency i who srcs dsts n lat g := by
  obtain rfl : f = g := funext hf
  subst hwho hs hd hn
  intro s h
  obtain ⟨honly, hnow, hexec⟩ := State.runFixed_ready (lat := lat) (f := f) h hbad hpriv fun ag _ => hfits _ ag
  have hframes := State.frameRules_framesOnly (s.runFixed o lat f)
  exact ⟨_, hi s, honly.frames hframes, (congrArg Issue.now hframes.issue).trans hnow, fun ag hag => (hexec ag hag).frames hframes⟩

/-! ### The shared forms -/

/-- An instruction with one result. -/
theorem uResult_completes {i : Instr} {o : Op} {who : Who} {n : BitVec 3} {lat : Nat} {srcs : List Src} {d : BitVec 4}
    {f g : List VReg → Word} (hi : ∀ s, exec i s = .next (s.runUFixed o lat fun vs => [wS d (f vs)])) (hf : ∀ vs, f vs = g vs)
    (hbad : o.bad = none := by rfl) (hwho : o.who = who := by rfl) (hs : o.srcs = srcs := by rfl) (hd : o.dsts = [.s d] := by rfl)
    (hn : o.n = n := by rfl) (hpriv : o.priv = false := by rfl) :
    FixedLatency i who srcs [.s d] n lat fun vs => [wS d (g vs)] :=
  fixedLatency_of_runUFixed hi hbad (fun _ _ => List.forall_mem_singleton.2 (wS_fits _ _ _)) (fun vs => by rw [hf]) hwho hs hd hn hpriv

theorem uBinary_completes {i : Instr} {lat : Nat} {f : Word → Word → Word} {g : List VReg → Word} {d a b : BitVec 4} {n : BitVec 3}
    (hi : ∀ s, exec i s = .next (s.uBinary lat f d a b n)) (hf : ∀ vs, f (valAt vs 0) (valAt vs 1) = g vs) :
    FixedLatency i .both [sSrc a, sSrc b] [.s d] n lat fun vs => [wS d (g vs)] :=
  uResult_completes hi hf

theorem uUnary_completes {i : Instr} {lat : Nat} {f : Word → Word} {g : List VReg → Word} {d a : BitVec 4} {n : BitVec 3}
    (hi : ∀ s, exec i s = .next (s.uUnary lat f d a n)) (hf : ∀ vs, f (valAt vs 0) = g vs) :
    FixedLatency i .both [sSrc a] [.s d] n lat fun vs => [wS d (g vs)] :=
  uResult_completes hi hf

theorem uImm_completes {i : Instr} {f : Word → Word} {g : List VReg → Word} {d : BitVec 4} {n : BitVec 3}
    (hi : ∀ s, exec i s = .next (s.uImm f d n)) (hf : ∀ vs, f (valAt vs 0) = g vs) :
    FixedLatency i .both [sSrc d] [.s d] n 2 fun vs => [wS d (g vs)] :=
  uUnary_completes hi hf

theorem groupBad_eq_none {gs : List (Nat × Nat)} (h : ∀ g ∈ gs, g.1 % g.2 = 0) : groupBad gs = none :=
  if_pos (List.all_eq_true.2 fun g hg => beq_iff_eq.2 (h g hg))

theorem sGroup_two (i : BitVec 4) : sGroup i 2 = [i, i + 1] := by simp [sGroup, List.range_succ]

theorem uaddI64_completes {d a b : BitVec 4} (n : BitVec 3) (hd : d.toNat % 2 = 0) (ha : a.toNat % 2 = 0) (hb : b.toNat % 2 = 0) :
    FixedLatency (.uaddI64 d a b n) .both [sSrc a, sSrc (a + 1), sSrc b, sSrc (b + 1)] [.s d, .s (d + 1)] n 4 fun vs =>
      let r := (valAt vs 1 ++ valAt vs 0) + (valAt vs 3 ++ valAt vs 2)
      [wS d (r.extractLsb' 0 32), wS (d + 1) (r.extractLsb' 32 32)] :=
  fixedLatency_of_runUFixed (fun _ => rfl) (groupBad_eq_none (by simp [hd, ha, hb]))
    (fun _ _ => by simp [wS_fits]) (fun _ => rfl) (hs := by simp [sSrcs, sGroup_two])

theorem boolWord_eq_ite {b : Bool} {p : Prop} [Decidable p] (h : b = decide p) :
    boolWord b = if decide p = true then (1 : Word) else 0 := by rw [h, boolWord]

/-- Settles O18: each instruction is one of the shared forms with the function of R93 or R94. -/
theorem uniformArithmetic : Obligations.UniformArithmetic := by
  intro d a b c n imm sh two one own bit pos len
  refine ⟨⟨?_, ?_, ?_, ?_, ?_⟩, ⟨?_, ?_, ?_, ?_⟩, ⟨?_, ?_, ?_⟩, ⟨?_, ?_, ?_⟩, ⟨?_, ?_, ?_⟩, ⟨?_, ?_, ?_⟩,
    ⟨?_, ?_, ?_, ?_, ?_, ?_, ?_⟩, uaddI64_completes n, ⟨?_, ?_, ?_, ?_, ?_, ?_, ?_⟩⟩
  · exact uBinary_completes (fun _ => rfl) fun _ => add_eq_ofNat _ _
  · exact uBinary_completes (fun _ => rfl) fun _ => sub_eq_ofInt _ _
  · exact uBinary_completes (fun _ => rfl) fun _ => mul_eq_ofInt _ _
  · exact uBinary_completes (fun _ => rfl) fun _ => mulhiS_eq_ofInt _ _
  · exact uBinary_completes (fun _ => rfl) fun _ => mulhiU_eq_ofNat _ _
  · exact uBinary_completes (fun _ => rfl) fun _ => minS_eq_ofInt _ _
  · exact uBinary_completes (fun _ => rfl) fun _ => minU_eq_ofNat _ _
  · exact uBinary_completes (fun _ => rfl) fun _ => maxS_eq_ofInt _ _
  · exact uBinary_completes (fun _ => rfl) fun _ => maxU_eq_ofNat _ _
  · exact uBinary_completes (fun _ => rfl) fun _ => rfl
  · exact uBinary_completes (fun _ => rfl) fun _ => rfl
  · exact uBinary_completes (fun _ => rfl) fun _ => rfl
  · exact uBinary_completes (fun _ => rfl) fun _ => shl_eq_ofNat _ _
  · exact uBinary_completes (fun _ => rfl) fun _ => shrU_eq_ofNat _ _
  · exact uBinary_completes (fun _ => rfl) fun _ => shrS_eq_ofInt _ _
  · exact uBinary_completes (fun _ => rfl) fun _ => bfeU_eq_setWidth _ _
  · exact uBinary_completes (fun _ => rfl) fun _ => bfeS_eq_signExtend _ _
  · exact uResult_completes (fun _ => rfl) fun _ => bfi_eq_ofFnLE _ _ _
  · exact uUnary_completes (fun _ => rfl) fun _ => popc_eq_sum _
  · exact uUnary_completes (fun _ => rfl) fun _ => clz_eq_takeWhile _
  · exact uUnary_completes (fun _ => rfl) fun _ => rfl
  · exact uBinary_completes (fun _ => rfl) fun _ => boolWord_eq_ite (beq_eq_decide ..)
  · exact uBinary_completes (fun _ => rfl) fun _ => boolWord_eq_ite (by simp [Cond.signed, bne, beq_eq_decide])
  · exact uBinary_completes (fun _ => rfl) fun _ => boolWord_eq_ite BitVec.slt_eq_decide
  · exact uBinary_completes (fun _ => rfl) fun _ => boolWord_eq_ite BitVec.sle_eq_decide
  · exact uBinary_completes (fun _ => rfl) fun _ => boolWord_eq_ite BitVec.ult_eq_decide
  · exact uBinary_completes (fun _ => rfl) fun _ => boolWord_eq_ite BitVec.ule_eq_decide
  · exact uResult_completes (fun _ => rfl) fun _ => ite_not ..
  · exact uImm_completes (fun _ => rfl) fun _ => add_sext32 _ _
  · exact uImm_completes (fun _ => rfl) fun _ => congrArg _ (zext32_eq_ofNat imm)
  · exact uImm_completes (fun _ => rfl) fun _ => congrArg _ (zext32_eq_ofNat imm)
  · exact uImm_completes (fun _ => rfl) fun _ => shl_zext32 _ sh
  · exact uImm_completes (fun _ => rfl) fun _ => shrU_zext32 _ sh
  · exact uImm_completes (fun _ => rfl) fun _ => rfl
  · exact uResult_completes (fun _ => rfl) fun _ => zext32_eq_ofNat imm

end Sys2Proof.Machine
end

section
/-! USR (R95), and uniform branches, loops, calls and returns (R98): what each ready agent does on its own, under the frame rules. -/

namespace Sys2Proof.Machine

/-! ### What SameBody keeps of bobbins and blocks -/

theorem SameBody.accs {s t : State} (h : SameBody s t) : t.accs = s.accs := by
  have := congrArg State.accs h.rest; exact this

theorem SameBody.bobbin {s t : State} (h : SameBody s t) (core b : Nat) : (t.bobbin core b).body = (s.bobbin core b).body := by
  have hget : ∀ u : State, (u.bobbin core b).body = ((u.core core).body.bobbins.toList)[b]?.getD Bobbin.zero := fun u => by
    cases hb : (u.core core).bobbins.toList[b]? <;> simp_all [State.bobbin, CoreState.body]
    rfl
  rw [hget, hget, h.cores]

theorem SameBody.usr {s t : State} (h : SameBody s t) (ag : Agent) (i : Nat) : t.usr ag i = s.usr ag i := by
  cases ag with
  | thread bid tid =>
    have hb := h.block? bid
    have hbody : ∀ b : Block, usrOf b.body tid i = usrOf b tid i := fun _ => rfl
    cases ht : t.block? bid <;> cases hs : s.block? bid <;> simp_all [State.usr]
    rw [← hbody, hb, hbody]
  | bobbin core b =>
    have husr : (t.bobbin core b).usr = (s.bobbin core b).usr := by
      have := congrArg Bobbin.usr (h.bobbin core b); exact this
    simp only [State.usr, husr]

theorem SameBody.endsBobbin {s t : State} (h : SameBody s t) (ag : Agent) (w : Word) : t.endsBobbin ag w = s.endsBobbin ag w := by
  cases ag with
  | thread => rfl
  | bobbin core b =>
    have hend : (t.bobbin core b).endAddr = (s.bobbin core b).endAddr := by
      have := congrArg Bobbin.endAddr (h.bobbin core b); exact this
    simp only [State.endsBobbin, hend]

/-! ### One agent's part -/

/-- The agent's part of the instruction has executed it, and has changed its own context and registers only. -/
structure Executes (s t : State) (ag : Agent) (n : BitVec 3) (lat : Nat) (ws : List Write) (pc : DWord) : Prop where
  steady : Steady s t
  others : ∀ x, x ≠ ag → SameAgent s t x
  executed : Executed s t ag n lat ws pc

theorem State.writeFixed_goto_executes (s : State) {ag : Agent} (hp : s.present ag) (n : BitVec 3) (lat : Nat) {ws : List Write}
    (hw : ∀ w ∈ ws, w.fits ag) (pc : DWord) : Executes s ((s.writeFixed ag lat ws).goto ag n pc) ag n lat ws pc where
  steady := ⟨(s.writeFixed_sameBody ag lat ws).trans (State.goto_sameBody _ ag n pc), by rw [State.goto_issue, State.writeFixed_issue]⟩
  others _ hx := (s.writeFixed_other hx.symm lat ws).trans (State.goto_other _ hx.symm n pc)
  executed := s.writeFixed_nil_ctx ag hp n lat ws hw pc

theorem State.goto_executes (s : State) {ag : Agent} (hp : s.present ag) (n : BitVec 3) (lat : Nat) (pc : DWord) :
    Executes s (s.goto ag n pc) ag n lat [] pc where
  steady := ⟨s.goto_sameBody ag n pc, s.goto_issue ag n pc⟩
  others _ hx := s.goto_other hx.symm n pc
  executed := s.goto_executed ag hp n lat pc

theorem State.retire_executes (s : State) {ag : Agent} (hp : s.present ag) (n : BitVec 3) (lat : Nat) {ws : List Write}
    (hw : ∀ w ∈ ws, w.fits ag) : Executes s (s.retire ag n lat ws) ag n lat ws ((s.ctx ag).pc + 4) where
  steady := ⟨s.retire_sameBody ag n lat ws, s.retire_issue ag n lat ws⟩
  others _ hx := s.retire_other hx.symm n lat ws
  executed := s.retire_executed hp n lat ws hw

/-! ### The group -/

/-- Ready agents run a uniform instruction: what each one's own part does on its sources' values stands after the frame rules. -/
theorem State.runUniform_ready {s : State} {o : Op} {body : State → Agent → List VReg → State} {lat : Nat} {ws : Agent → List Write}
    {pc : Agent → DWord} (h : s.AllReady o.who o.srcs o.dsts)
    (hbody : ∀ u ag, ag ∈ s.issue.agents → SameBody s u → SameAgent s u ag → u.present ag →
      Executes u (body u ag (s.sources ag o.srcs)) ag o.n lat (ws ag) (pc ag))
    (hbad : o.bad = none := by rfl) (hpriv : o.priv = false := by rfl) :
    OnlyAgents s (s.runUniform o noFixed body) ∧ (s.runUniform o noFixed body).issue.now = s.issue.cycle ∧
      ∀ ag ∈ s.issue.agents, Executed s (s.runUniform o noFixed body) ag o.n lat (ws ag) (pc ag) := by
  have hcollect := s.collect_sameBody o.grants
  obtain ⟨hsteady, hothers, hexec⟩ := State.runGroup_ready steady_carries (fx := noFixed) (body := body)
    (fun t ag => Executed s t ag o.n lat (ws ag) (pc ag)) h hbad (fun _ _ _ _ _ => rfl) (fun hp => absurd (hpriv.symm.trans hp) (by decide))
    (fun u ag hag hR hsa hp => by
      obtain ⟨h1, h2, h3⟩ := hbody u ag hag (hcollect.trans hR.1) hsa hp
      exact ⟨h1, h2, h3.congr hsa.symm (SameAgent.refl _ ag) rfl⟩)
    (fun ag _ _ hP hR hsa => hP.congr (SameAgent.refl s ag) hsa (congrArg Issue.now hR.2))
  have hframes := State.frameRules_framesOnly (s.runGroup o noFixed body)
  refine ⟨OnlyAgents.frames ⟨hcollect.trans hsteady.1, hothers⟩ hframes, ?_, fun ag hag => (hexec ag hag).frames hframes⟩
  calc (s.runUniform o noFixed body).issue.now = (s.runGroup o noFixed body).issue.now := congrArg Issue.now hframes.issue
    _ = (s.collect o.grants).issue.now := congrArg Issue.now hsteady.2
    _ = s.issue.cycle := s.collect_now o.grants

/-- As runUniform_ready, where the braid then divides if its members part (R98, R142). -/
theorem State.runUniform_diverge_ready {s : State} {o : Op} {body : State → Agent → List VReg → State} {lat : Nat}
    {ws : Agent → List Write} {pc : Agent → DWord} (h : s.AllReady o.who o.srcs o.dsts)
    (hbody : ∀ u ag, ag ∈ s.issue.agents → SameBody s u → SameAgent s u ag → u.present ag →
      Executes u (body u ag (s.sources ag o.srcs)) ag o.n lat (ws ag) (pc ag))
    (hbad : o.bad = none := by rfl) (hpriv : o.priv = false := by rfl) :
    OnlyControl s (s.runUniform o noFixed body).diverge ∧ (s.runUniform o noFixed body).diverge.issue.now = s.issue.cycle ∧
      ∀ ag ∈ s.issue.agents, Executed s (s.runUniform o noFixed body).diverge ag o.n lat (ws ag) (pc ag) := by
  obtain ⟨⟨hsame, hothers⟩, hnow, hexec⟩ := State.runUniform_ready h hbody hbad hpriv
  obtain ⟨hstore, hagents, hissue⟩ := (s.runUniform o noFixed body).diverge_files
  exact ⟨⟨hsame.store.trans hstore, fun ag hag => (hothers ag hag).trans (hagents ag)⟩, (congrArg Issue.now hissue).trans hnow,
    fun ag hag => (hexec ag hag).congr (SameAgent.refl s ag) (hagents ag) (congrArg Issue.now hissue)⟩

/-! ### A word that is ILLEGAL by itself -/

theorem State.TrapsOn.collect {s : State} {bid tid : Nat} (h : s.TrapsOn bid tid) (need : Nat) : (s.collect need).TrapsOn bid tid := by
  obtain ⟨x, b, hx, hb, hrest⟩ := h
  exact ⟨x, b, by rwa [State.collect_thread?], by rwa [State.block?, State.collect_blocks], hrest⟩

/-- A uniform word with an ILLEGAL reason, in a thread alone in its step that takes traps. -/
theorem State.runUniform_illegal {s : State} {bid tid : Nat} {o : Op} {body : State → Agent → List VReg → State} {r : Nat}
    (ha : s.issue.agents = [.thread bid tid]) (ht : s.TrapsOn bid tid) (hr : o.reason (.thread bid tid) false = some r) :
    EntersHandler s (s.runUniform o noFixed body) bid tid .illegal (BitVec.ofNat 32 r) 0 := by
  have hrun : s.runGroup o noFixed body = (s.collect o.grants).trap (.thread bid tid) .illegal (BitVec.ofNat 32 r) 0 := by
    simp only [State.runGroup, State.runGroupWith, State.collect_agents, ha, List.foldl_cons, List.foldl_nil, State.runAgent,
      State.prepare, noFixed, hr, State.illegal]
  rw [State.runUniform, hrun]
  exact EntersHandler.frames (s.collect_sameBody _) (s.collect_sameAgent _) (fun _ _ => s.collect_thread? ..) (s.collect_blocks _)
    (State.trap_enters (ht.collect _) _ _ _) (State.frameRules_framesOnly _)

/-! ### USR (R95) -/

theorem State.usr_bobbin (s : State) (core b : Nat) {i : Nat} (hi : i ≤ 8) :
    (s.bobbin core b).usr.toList[i]? = some (s.usr (.bobbin core b) i) := by
  have hlt : i < (s.bobbin core b).usr.toList.length := by rw [Vector.length_toList]; omega
  rw [State.usr, List.getElem?_eq_getElem hlt, Option.getD_some]

/-- Settles O19: USR retires the value of its agent, and an index above 8 is the word's own reason 7. -/
theorem uniformSpecialRegisters : Obligations.UniformSpecialRegisters := by
  intro s d idx n h _
  refine ⟨fun hle => ?_, fun hgt bid tid ha ht => ⟨_, rfl, ?_⟩⟩
  · have hbad : (if idx.toNat > 8 then some 7 else none) = (none : Option Nat) := if_neg (not_lt.2 hle)
    obtain ⟨honly, -, hexec⟩ := State.runUniform_ready (s := s)
      (o := { n := n, dsts := [.s d], bad := if idx.toNat > 8 then some 7 else none })
      (body := fun s ag _ => s.retire ag n latA [wS d (s.usr ag idx.toNat)])
      (ws := fun ag => [wS d (s.usr ag idx.toNat)]) (pc := fun ag => (s.ctx ag).pc + 4) h
      (fun u ag _ hsame hsa hp => by
        rw [← hsame.usr, ← hsa.1]
        exact u.retire_executes hp n latA (List.forall_mem_singleton.2 (wS_fits _ _ _))) hbad
    refine ⟨_, rfl, honly, fun ag hag => ⟨s.usr ag idx.toNat, hexec ag hag, ?_, ?_⟩⟩
    · rintro core b rfl
      exact s.usr_bobbin core b hle
    · rintro bid tid blk rfl hblk
      simp only [State.usr, hblk]
      refine ⟨?_, ?_, ?_, ?_, ?_, ?_, ?_, ?_, ?_⟩ <;> (rintro rfl; rfl)
  · exact State.runUniform_illegal ha ht (by simp [Op.reason, hgt, Who.allows])

/-! ### Branches (R98) -/

theorem relTarget_eq {w : Nat} (pc : DWord) (i : BitVec w) : relTarget pc i = pc + BitVec.ofInt 64 (4 * i.toInt) := by
  rw [BitVec.ofInt_mul]
  rfl

theorem and_three_eq_zero {w : Nat} (hw : 2 ≤ w) {x : BitVec w} (h : x.extractLsb' 0 2 = 0) : x &&& 3 = 0 := by
  have hthree : (3 : BitVec w).toNat = 2 ^ 2 - 1 := Nat.mod_eq_of_lt (lt_of_lt_of_le (by decide) (Nat.pow_le_pow_right two_pos hw))
  have hlow := congrArg BitVec.toNat h
  apply BitVec.eq_of_toNat_eq
  rw [BitVec.toNat_and, hthree, Nat.and_two_pow_sub_one_eq_mod]
  simpa using hlow

/-- A branch that writes nothing. -/
theorem uBranch_completes {i : Instr} {o : Op} {nx : DWord → List VReg → DWord} {who : Who} {srcs : List Src} {dsts : List Reg}
    {n : BitVec 3} {next : DWord → List VReg → List (List VReg) → DWord} (hi : ∀ s, exec i s = .next (s.uBranch o nx))
    (hnext : ∀ pc vs all, nx pc vs = next pc vs all) (hbad : o.bad = none := by rfl) (hwho : o.who = who := by rfl)
    (hs : o.srcs = srcs := by rfl) (hd : o.dsts = dsts := by rfl) (hn : o.n = n := by rfl) (hpriv : o.priv = false := by rfl) :
    BranchTo i who srcs dsts n next fun _ => [] := by
  subst hwho hs hd hn
  intro s h
  refine ⟨_, hi s, State.runUniform_diverge_ready h (fun u ag _ _ hsa hp => ?_) hbad hpriv⟩
  rw [← hnext, ← hsa.1]
  exact u.goto_executes hp o.n 4 _

theorem ucall_completes (d : BitVec 4) (imm : BitVec 16) (n : BitVec 3) :
    BranchTo (.ucall d imm n) .both [] [.s d] n (fun pc _ _ => pc + BitVec.ofInt 64 (4 * imm.toInt))
      fun pc => [wS d ((pc + 4).extractLsb' 0 32)] := by
  intro s h
  refine ⟨_, rfl, State.runUniform_diverge_ready (o := { n := n, dsts := [.s d] }) h fun u ag _ _ hsa hp => ?_⟩
  simp only [← relTarget_eq, ← hsa.1]
  exact u.writeFixed_goto_executes hp n latM (List.forall_mem_singleton.2 (wS_fits _ _ _)) _

theorem uloop_completes (d : BitVec 4) (imm : BitVec 16) (n : BitVec 3) (s : State) (h : s.AllReady .both [sSrc d] [.s d]) :
    let x := fun ag => BitVec.ofInt 32 ((s.readReg ag (.s d)).val.toInt - 1)
    ∃ t, exec (.uloop d imm n) s = .next t ∧ OnlyControl s t ∧ ∀ ag ∈ s.issue.agents,
      Executed s t ag n 2 [wS d (x ag)]
        (if x ag = 0 then (s.ctx ag).pc + 4 else (s.ctx ag).pc + BitVec.ofInt 64 (4 * imm.toInt)) := by
  intro x
  have hx : ∀ ag, valAt (s.sources ag [sSrc d]) 0 - 1 = x ag := fun ag => sub_eq_ofInt _ 1
  obtain ⟨hcontrol, -, hexec⟩ := State.runUniform_diverge_ready (o := uOp1 d d n)
    (body := fun s ag vs => (s.writeFixed ag latA [wS d (valAt vs 0 - 1)]).goto ag n
      (if valAt vs 0 - 1 ≠ 0 then relTarget (s.ctx ag).pc imm else (s.ctx ag).pc + 4)) h
    (ws := fun ag => [wS d (x ag)])
    (pc := fun ag => if x ag = 0 then (s.ctx ag).pc + 4 else (s.ctx ag).pc + BitVec.ofInt 64 (4 * imm.toInt))
    fun u ag _ _ hsa hp => by
      rw [show (uOp1 d d n).srcs = [sSrc d] from rfl, hx, ite_not, ← relTarget_eq, ← hsa.1]
      exact u.writeFixed_goto_executes hp n latA (List.forall_mem_singleton.2 (wS_fits _ _ _)) _
  exact ⟨_, rfl, hcontrol, hexec⟩

/-- What URET does in an agent. -/
def uretPart (n : BitVec 3) (s : State) (ag : Agent) (vs : List VReg) : State :=
  let t := valAt vs 0
  if t &&& 3 ≠ 0 then s.illegal ag 7
  else if s.endsBobbin ag t then match ag with
    | .bobbin core b => s.updBobbin core b fun x => x.ending s.issue.word
    | .thread .. => s
  else s.goto ag n (pair t (s.ctx ag).pc.hi)

theorem exec_uret (d : BitVec 4) (n : BitVec 3) (s : State) :
    exec (.uret d n) s = .next (s.runUniform { n := n, srcs := [sSrc d] } noFixed (uretPart n)).diverge := rfl

theorem uret_returns (d : BitVec 4) (n : BitVec 3) (s : State) (h : s.AllReady .both [sSrc d] [])
    (hret : ∀ ag ∈ s.issue.agents, (s.readReg ag (.s d)).val.extractLsb' 0 2 = 0 ∧
      ∀ core b, ag = .bobbin core b → (s.bobbin core b).endAddr ≠ (s.readReg ag (.s d)).val) :
    ∃ t, exec (.uret d n) s = .next t ∧ OnlyControl s t ∧ ∀ ag ∈ s.issue.agents,
      Executed s t ag n 2 [] ((s.ctx ag).pc.extractLsb' 32 32 ++ (s.readReg ag (.s d)).val) := by
  obtain ⟨hcontrol, -, hexec⟩ := State.runUniform_diverge_ready (o := { n := n, srcs := [sSrc d] }) (body := uretPart n) (lat := 2)
    (ws := fun _ => []) (pc := fun ag => (s.ctx ag).pc.extractLsb' 32 32 ++ (s.readReg ag (.s d)).val) h
    fun u ag hag hsame hsa hp => by
      obtain ⟨halign, hgo⟩ := hret ag hag
      have hends : s.endsBobbin ag (s.readReg ag (.s d)).val = false := by
        cases ag with
        | thread => rfl
        | bobbin core b => exact beq_eq_false_iff_ne.2 (hgo core b rfl)
      have hpart : uretPart n u ag (s.sources ag [sSrc d]) =
          u.goto ag n ((s.ctx ag).pc.extractLsb' 32 32 ++ (s.readReg ag (.s d)).val) := by
        have hval : valAt (s.sources ag [sSrc d]) 0 = (s.readReg ag (.s d)).val := rfl
        simp only [uretPart, hval, and_three_eq_zero (by decide) halign, hsame.endsBobbin, hends, hsa.1, ne_eq, not_true_eq_false,
          if_false, Bool.false_eq_true]
      exact hpart ▸ u.goto_executes hp n 2 _
  exact ⟨_, exec_uret d n s, hcontrol, hexec⟩

theorem State.diverge_bobbin {s : State} {core b : Nat} (h : s.issue.agents = [.bobbin core b]) : s.diverge = s := by
  simp only [State.diverge, h, List.filterMap_cons_none, List.filterMap_nil]

theorem FramesOnly.bobbin {s t : State} (h : FramesOnly s t) (core b : Nat) : t.bobbin core b = s.bobbin core b := by
  simp only [State.bobbin, h.coreBody]

theorem uret_ends (d : BitVec 4) (n : BitVec 3) (s : State) (core b : Nat) (ha : s.issue.agents = [.bobbin core b])
    (hr : s.Ready .both [sSrc d] [] (.bobbin core b)) (hend : (s.bobbin core b).endAddr = (s.readReg (.bobbin core b) (.s d)).val)
    (halign : (s.bobbin core b).endAddr.extractLsb' 0 2 = 0) :
    ∃ t, exec (.uret d n) s = .next t ∧ (t.bobbin core b).status = .finishing ∧ (t.bobbin core b).cause = 0 ∧
      t.mem = s.mem ∧ t.accs = s.accs := by
  let c := s.collect ({ n := n, srcs := [sSrc d] } : Op).grants
  let u := c.updBobbin core b fun x => x.ending c.issue.word
  have hsame : SameBody s c := s.collect_sameBody _
  have hrun : s.runUniform { n := n, srcs := [sSrc d] } noFixed (uretPart n) = u.frameRules := by
    have hval : valAt (s.sources (.bobbin core b) [sSrc d]) 0 = (s.bobbin core b).endAddr := hend.symm
    have hends : s.endsBobbin (.bobbin core b) (s.bobbin core b).endAddr = true := beq_self_eq_true _
    rw [State.runUniform, State.runGroup_alone ha hr rfl rfl fun hp => absurd hp Bool.false_ne_true]
    simp only [uretPart, hval, and_three_eq_zero (by decide) halign, hsame.endsBobbin, hends, ne_eq, not_true_eq_false,
      if_false, if_true, c, u]
  have hframes : FramesOnly u u.frameRules := State.frameRules_framesOnly u
  have hagents : u.frameRules.issue.agents = [.bobbin core b] := by
    rw [hframes.issue]
    exact (s.collect_agents _).trans ha
  have hbob : u.frameRules.bobbin core b = (c.bobbin core b).ending c.issue.word := by
    rw [hframes.bobbin, State.bobbin_updBobbin, if_pos ⟨rfl, rfl, hr.present⟩]
  refine ⟨u.frameRules, ?_, ?_, ?_, ?_, ?_⟩
  · rw [exec_uret, hrun, State.diverge_bobbin hagents]
  · rw [hbob]; rfl
  · rw [hbob]; rfl
  · exact hframes.body.mem.trans hsame.mem
  · exact hframes.body.accs.trans hsame.accs

/-- Settles O20: each agent goes where its own part sends it, and the braid divides if its members part. -/
theorem uniformBranches : Obligations.UniformBranches := by
  intro d n imm rel
  refine ⟨?_, ?_, ?_, ucall_completes d imm n, uloop_completes d imm n, uret_returns d n, uret_ends d n⟩
  · exact uBranch_completes (fun _ => rfl) fun pc _ _ => relTarget_eq pc imm
  · exact uBranch_completes (fun _ => rfl) fun pc _ _ => by rw [relTarget_eq]
  · exact uBranch_completes (fun _ => rfl) fun pc _ _ => by rw [ite_not, relTarget_eq]

end Sys2Proof.Machine
end

section
/-! A translation that gives a leaf leaves every agent as it was (R301, R304): it fills TLBs, sets A and D, and performs stores that
until then only their own block saw, all of which change storage and caches alone. -/

namespace Sys2Proof.Machine

/-- Every agent, every block and the step under way are as they were. -/
structure KeepsAgents (s t : State) : Prop where
  blocks : t.blocks = s.blocks
  bobbins : ∀ k, (t.core k).bobbins = (s.core k).bobbins
  issue : t.issue = s.issue

namespace KeepsAgents

theorem refl (s : State) : KeepsAgents s s := ⟨rfl, fun _ => rfl, rfl⟩

theorem trans {s t u : State} (a : KeepsAgents s t) (b : KeepsAgents t u) : KeepsAgents s u :=
  ⟨b.blocks.trans a.blocks, fun k => (b.bobbins k).trans (a.bobbins k), b.issue.trans a.issue⟩

theorem foldl {α : Type} {f : State → α → State} (hf : ∀ u x, KeepsAgents u (f u x)) (xs : List α) (s : State) :
    KeepsAgents s (xs.foldl f s) :=
  List.foldlRecOn (motive := KeepsAgents s) xs f (refl s) fun u hu x _ => hu.trans (hf u x)

theorem updCore (s : State) (k : Nat) {f : CoreState → CoreState} (hf : ∀ c, (f c).bobbins = c.bobbins) :
    KeepsAgents s (s.updCore k f) where
  blocks := rfl
  bobbins j := by
    rw [State.core_updCore]
    split
    · exact hf _
    · rfl
  issue := rfl

variable {s t : State} (h : KeepsAgents s t)
include h

theorem bobbin (core b : Nat) : t.bobbin core b = s.bobbin core b := by simp only [State.bobbin, h.bobbins]

theorem block? (bid : Nat) : t.block? bid = s.block? bid := by simp only [State.block?, h.blocks]

theorem thread? (bid tid : Nat) : t.thread? bid tid = s.thread? bid tid := by simp only [State.thread?, h.block?]

theorem ctx (ag : Agent) : t.ctx ag = s.ctx ag := by
  cases ag with
  | thread bid tid => simp only [State.ctx, h.thread?]
  | bobbin core b => simp only [State.ctx, h.bobbin]

theorem sameAgent (ag : Agent) : SameAgent s t ag := by
  refine ⟨h.ctx ag, fun r => ?_⟩
  cases r <;> cases ag <;> simp only [State.readReg, h.ctx, h.thread?]

theorem present (ag : Agent) : t.present ag ↔ s.present ag := State.present_congr fun bid tid => by rw [h.thread?]

end KeepsAgents

/-! ### Lines of the caches (R167, R168) -/

/-- Only what the caches hold has changed. -/
structure LinesOnly (s t : State) : Prop where
  agents : KeepsAgents s t
  scratch : ∀ k, (t.core k).scratch = (s.core k).scratch
  rest : { t with cores := s.cores, doms := s.doms } = s

namespace LinesOnly

theorem refl (s : State) : LinesOnly s s := ⟨.refl s, fun _ => rfl, rfl⟩

theorem trans {s t u : State} (a : LinesOnly s t) (b : LinesOnly t u) : LinesOnly s u where
  agents := a.agents.trans b.agents
  scratch k := (b.scratch k).trans (a.scratch k)
  rest := by rw [← a.rest, ← b.rest]

theorem foldl {α : Type} {f : State → α → State} (hf : ∀ u x, LinesOnly u (f u x)) (xs : List α) (s : State) :
    LinesOnly s (xs.foldl f s) :=
  List.foldlRecOn (motive := LinesOnly s) xs f (refl s) fun u hu x _ => hu.trans (hf u x)

theorem setL1 (s : State) (core : Nat) (f : CoreState → List Nat) : LinesOnly s (s.updCore core fun c => { c with l1 := f c }) where
  agents := .updCore s core fun _ => rfl
  scratch k := by
    rw [State.core_updCore]
    split <;> rfl
  rest := rfl

theorem updDom (s : State) (d : Nat) (f : DomState → DomState) : LinesOnly s (s.updDom d f) :=
  ⟨⟨rfl, fun _ => rfl, rfl⟩, fun _ => rfl, rfl⟩

theorem invalidateOthers (s : State) (keep : Option Nat) (line : Nat) : LinesOnly s (s.invalidateOthers keep line) :=
  foldl (fun u c => by
    split
    · exact refl u
    · exact setL1 u _ _) s.cores s

theorem fitL2 (s : State) (d : Nat) : LinesOnly s (s.fitL2 d) := by
  unfold State.fitL2
  dsimp only
  split
  · exact refl s
  · exact (foldl (fun u (y : Nat × Bool) => invalidateOthers u none y.1) _ s).trans (updDom _ d _)

theorem useL2 (s : State) (d line : Nat) (dirty : Bool) : LinesOnly s (s.useL2 d line dirty) := (updDom s d _).trans (fitL2 _ d)

theorem cacheLoad (s : State) (core : Nat) (l : Loc) : LinesOnly s (s.cacheLoad core l) := by
  fun_cases State.cacheLoad s core l
  case case1 => exact (useL2 s _ _ false).trans (setL1 _ core _)
  case case2 => exact useL2 s _ _ false
  case case3 => exact refl s

theorem cacheStore (s : State) (core : Option Nat) (l : Loc) : LinesOnly s (s.cacheStore core l) := by
  unfold State.cacheStore
  refine foldl (fun u p => ?_) _ s
  exact (invalidateOthers u core p.1).trans (useL2 _ p.2 p.1 true)

end LinesOnly

/-! ### Stores -/

namespace KeepsAgents

theorem storeRaw (s : State) (pa : Nat) (bs : List Byte) : KeepsAgents s (s.storeRaw pa bs) := by
  unfold State.storeRaw
  dsimp only
  split <;> exact ⟨rfl, fun _ => rfl, rfl⟩

theorem storePhys (s : State) (pa : Nat) (bs : List Byte) : KeepsAgents s (s.storePhys pa bs) := by
  unfold State.storePhys
  split
  · exact storeRaw s pa bs
  · obtain ⟨ps, hps⟩ := s.noteClears_powers ((List.range bs.length).zip bs |>.map fun p => (s.physKey (pa + p.1), p.2))
    dsimp only
    rw [hps]
    obtain ⟨hb, hk, hi⟩ := storeRaw { s with powers := ps } pa
      (((List.range bs.length).zip bs |>.map fun p => (s.physKey (pa + p.1), p.2)).map fun c => s.storedByte c.1 c.2)
    exact ⟨hb, hk, hi⟩

theorem writeScr (s : State) (core off : Nat) (bs : List Byte) : KeepsAgents s (s.writeScr core off bs) := by
  unfold State.writeScr
  exact updCore s core fun _ => rfl

theorem writeLoc (s : State) (l : Loc) (bs : List Byte) : KeepsAgents s (s.writeLoc l bs) := by
  cases l with
  | phys pa => exact storePhys s pa bs
  | replica pa d => exact foldl (fun u i => storePhys u _ bs) _ s
  | scratch core off => exact writeScr s core off bs

theorem performSeen (s : State) (a : Access) : KeepsAgents s (s.performSeen a) := by
  fun_cases State.performSeen s a
  case case1 =>
    obtain ⟨hb, hk, hi⟩ := (LinesOnly.cacheStore s (some a.core) a.loc).agents.trans (writeLoc _ a.loc _)
    exact ⟨hb, hk, hi⟩
  case case2 => exact refl s

theorem drainSeen (s : State) (bid : Nat) : KeepsAgents s (s.drainSeen bid) := foldl performSeen _ s

/-! ### Walks and translations -/

theorem adUpdate (s : State) (e : TlbEntry) (kind : AccKind) : KeepsAgents s (s.adUpdate e kind).2 := by
  fun_cases State.adUpdate s e kind
  case case1 => exact (LinesOnly.cacheStore s none _).agents.trans (storePhys _ _ _)
  case case2 => exact refl s

theorem of_adUpdate {s t : State} {e : TlbEntry} {kind : AccKind} {b : Bool} (h : s.adUpdate e kind = (b, t)) : KeepsAgents s t := by
  have := adUpdate s e kind
  rwa [h] at this

theorem setTlb (s : State) (core : Nat) (f : CoreState → List TlbEntry) :
    KeepsAgents s (s.updCore core fun c => { c with tlb := f c }) :=
  updCore s core fun _ => rfl

theorem tlbFill (s : State) (core : Nat) (es : List TlbEntry) : KeepsAgents s (s.tlbFill core es) := setTlb s core _

/-- A choice among some held entries, where there are any. -/
theorem of_choice {s t : State} {c : Prop} [Decidable c] {n m k : Nat} (h : (if c then (n, s) else s.choose m) = (k, t)) :
    KeepsAgents s t := by
  split at h <;> (cases h; exact ⟨rfl, fun _ => rfl, rfl⟩)

end KeepsAgents

/-- Where the translation gives a leaf, every agent is as it was. -/
def LeafKeeps (s : State) (r : XRes × State) : Prop := ∀ e, r.1 = .leaf e → KeepsAgents s r.2

namespace LeafKeeps

theorem of_keeps {s : State} {r : XRes × State} (h : KeepsAgents s r.2) : LeafKeeps s r := fun _ _ => h

theorem after {s t : State} {r : XRes × State} (h : KeepsAgents s t) (hr : LeafKeeps t r) : LeafKeeps s r :=
  fun e he => h.trans (hr e he)

theorem walkEnds (s : State) (sp : Space) (r : XRes) : LeafKeeps s (s.walkEnds sp r) := by
  fun_cases State.walkEnds s sp r
  case case1 h =>
    subst h
    nofun
  case case2 => exact of_keeps (.refl s)

theorem walkBy (s : State) (sp : Space) (kind : AccKind) (ad : Bool) (va : Nat) (start : Option TlbEntry) :
    LeafKeeps s (s.walkBy sp kind ad va start) := by
  fun_cases State.walkBy s sp kind ad va start
  case case1 => exact after (.tlbFill s _ _) (walkEnds _ sp .poison)
  case case2 => exact of_keeps ((KeepsAgents.adUpdate s _ kind).trans (.tlbFill _ _ _))
  case case3 | case4 => exact of_keeps (.tlbFill s _ _)

theorem newWalk (s : State) (sp : Space) (kind : AccKind) (ad : Bool) (va : Nat) : LeafKeeps s (s.newWalk sp kind ad va) := by
  fun_cases State.newWalk s sp kind ad va
  case case1 hchoice => exact after ((KeepsAgents.drainSeen s sp.bid).trans (.of_choice hchoice)) (walkBy _ sp kind ad va _)

theorem lookupBy (s : State) (sp : Space) (kind : AccKind) (ad : Bool) (va : Nat) (held : Option TlbEntry) :
    LeafKeeps s (s.lookupBy sp kind ad va held) := by
  fun_cases State.lookupBy s sp kind ad va held
  case case1 | case5 => exact of_keeps (.refl s)
  case case2 => exact walkEnds s sp _
  case case3 hset _ =>
    refine of_keeps ((KeepsAgents.of_adUpdate hset).trans ?_)
    dsimp only
    exact .setTlb _ sp.core _
  case case4 hset => exact after (KeepsAgents.of_adUpdate hset) (newWalk _ sp kind ad va)
  case case6 => exact newWalk s sp kind ad va

theorem lookup (s : State) (sp : Space) (kind : AccKind) (ad : Bool) (va : Nat) : LeafKeeps s (s.lookup sp kind ad va) := by
  fun_cases State.lookup s sp kind ad va
  case case1 hchoice => exact after ((KeepsAgents.setTlb s sp.core _).trans (.of_choice hchoice)) (lookupBy _ sp kind ad va _)

theorem translate (s : State) (sp : Space) (kind : AccKind) (ad : Bool) (va : Nat) : LeafKeeps s (s.translate sp kind ad va) := by
  have hlookup := lookup s sp kind ad va
  fun_cases State.translate s sp kind ad va
  case case1 => nofun
  case case2 h _ => rwa [h] at hlookup
  case case3 => exact hlookup

end LeafKeeps

/-- An access that is admitted leaves every agent as it was. -/
theorem KeepsAgents.of_admitted {s u : State} {ag : Agent} {kind : AccKind} {va : DWord} {w : Nat} {x : Loc × Home × TlbEntry}
    (h : s.admitted ag kind va w = (some x, u)) : KeepsAgents s u := by
  have htranslate := LeafKeeps.translate s (s.spaceOf ag) kind true va.toNat
  revert h
  fun_cases State.admitted s ag kind va w
  case case8 hleaf loc home _ =>
    rintro ⟨⟩
    rw [hleaf] at htranslate
    exact htranslate _ rfl
  all_goals nofun

end Sys2Proof.Machine
end

section
/-! Global loads and stores are accepted (R96, R97, R171 to R174): one agent's access joins the outstanding ones, whole or in two
halves, and the agent goes on. -/

namespace Sys2Proof.Machine

/-! ### The outstanding accesses -/

/-- These accesses have joined the outstanding ones, under the next numbers. -/
def State.joined (s : State) (new : List Access) : State := { s with nextId := s.nextId + new.length, accs := s.accs ++ new }

theorem KeepsAgents.joined (s : State) (new : List Access) : KeepsAgents s (s.joined new) := ⟨rfl, fun _ => rfl, rfl⟩

theorem State.joined_joined (s : State) (xs ys : List Access) : (s.joined xs).joined ys = s.joined (xs ++ ys) := by
  simp [State.joined, Nat.add_assoc]

theorem State.addAccess_eq_joined (s : State) (a : Access) :
    ∃ x, x.id = s.nextId ∧ x.what = a.what ∧ s.addAccess a = s.joined [x] :=
  ⟨{ a with id := s.nextId, latest := a.latest || (s.ctx a.agent).hostLatest }, rfl, rfl, rfl⟩

/-- A part of an access, as its agent makes it. -/
def Access.part (a : Access) (work : Nat → Nat → AccessWork) (h : Nat × Nat) : Access :=
  { a with loc := a.loc.shift h.1, width := h.2, va := a.va + h.1, work := work h.1 h.2 }

/-- The parts of an access are accepted one by one; `ids` are their numbers. -/
theorem foldl_addAccess (a : Access) (work : Nat → Nat → AccessWork) (hs : List (Nat × Nat)) (s : State)
    (ids : List (Nat × Option (List Byte))) : ∃ new : List Access,
      new.map Access.what = hs.map (fun h => (a.part work h).what) ∧
      hs.foldl (fun s h => s.addAccess (a.part work h)) s = s.joined new ∧
      hs.foldl (fun (p : State × List (Nat × Option (List Byte))) h => (p.1.addAccess (a.part work h), p.2 ++ [(p.1.nextId, none)]))
        (s, ids) = (s.joined new, ids ++ new.map fun x => (x.id, none)) := by
  induction hs generalizing s ids with
  | nil => exact ⟨[], rfl, by simp [State.joined], by simp [State.joined]⟩
  | cons h hs ih =>
    obtain ⟨x, hid, hwhat, hx⟩ := s.addAccess_eq_joined (a.part work h)
    obtain ⟨new, hnew, hstate, hids⟩ := ih (s.joined [x]) (ids ++ [(s.nextId, none)])
    refine ⟨x :: new, by simp [hwhat, hnew], ?_, ?_⟩
    · rw [List.foldl_cons, hx, hstate, State.joined_joined, List.singleton_append]
    · rw [List.foldl_cons, hx, hids, State.joined_joined, List.singleton_append, ← hid]
      simp

theorem Loc.shift_zero (l : Loc) : l.shift 0 = l := by cases l <;> rfl

theorem Access.parts_what (a : Access) (work : Nat → Nat → AccessWork) :
    (halves a.width).map (fun h => (a.part work h).what) = (partsOf a.width a.loc work).map fun x => (a.agent, x) := by
  by_cases hw : a.width = 16
  · simp [halves, partsOf, hw, Access.part, Access.what, Loc.shift_zero]
  · simp [halves, partsOf, hw, Access.part, Access.what, Loc.shift_zero]

theorem State.acceptStore_eq_joined (s : State) (a : Access) (data : List Byte) : ∃ new : List Access,
    new.map Access.what = (partsOf a.width a.loc fun o k => .store ((data.drop o).take k)).map (fun x => (a.agent, x)) ∧
    s.acceptStore a data = s.joined new := by
  obtain ⟨new, hwhat, hstate, -⟩ := foldl_addAccess a (fun o k => .store ((data.drop o).take k)) (halves a.width) s []
  exact ⟨new, hwhat.trans (a.parts_what _), hstate⟩

theorem State.acceptLoad_eq_joined (s : State) {a : Access} {ag : Agent} {loc : Loc} {w : Nat} (ha : a.what = (ag, loc, w, .load))
    (form : LoadForm) (regs : List Reg) : ∃ new : List Access,
    new.map Access.what = (partsOf w loc fun _ _ => .load).map (fun x => (ag, x)) ∧
    s.acceptLoad a form regs = (s.joined new).addPend ag regs (.access (new.map fun x => (x.id, none)) form) none := by
  obtain ⟨rfl, rfl, rfl, hwork⟩ : a.agent = ag ∧ a.loc = loc ∧ a.width = w ∧ a.work = .load := by simpa [Access.what] using ha
  obtain ⟨new, hwhat, -, hids⟩ := foldl_addAccess a (fun _ _ => .load) (halves a.width) s []
  refine ⟨new, hwhat.trans (a.parts_what _), ?_⟩
  have hpart : ∀ h : Nat × Nat, a.part (fun _ _ => .load) h = { a with loc := a.loc.shift h.1, width := h.2, va := a.va + h.1 } :=
    fun h => by rw [Access.part, ← hwork]
  simp only [hpart] at hids
  simp only [State.acceptLoad, hids, List.nil_append]

/-! ### The agent goes on -/

theorem GoesOn.frames {s t u : State} {ag : Agent} {n : BitVec 3} {more : List Pend} (h : GoesOn s t ag n more) (hf : FramesOnly t u) :
    GoesOn s u ag n more where
  registers r := ((hf.agents ag).2 r).trans (h.registers r)
  pc := by rw [(hf.agents ag).1, h.pc]
  eligible := by rw [(hf.agents ag).1, hf.issue, h.eligible]
  issued := by rw [hf.issue, h.issued]
  status := by rw [(hf.agents ag).1, h.status]
  pending := by rw [(hf.agents ag).1, h.pending]
  inFlight := by rw [(hf.agents ag).1, h.inFlight]
  others x hx := (h.others x hx).trans (hf.agents x)

theorem State.advance_goesOn (s : State) {ag : Agent} (hp : s.present ag) (hnow : s.issue.now = s.issue.cycle) (n : BitVec 3) :
    GoesOn s (s.advance ag n) ag n [] := by
  have hc : (s.advance ag n).ctx ag = _ := s.goto_ctx hp n ((s.ctx ag).pc + 4)
  have hi : (s.advance ag n).issue = s.issue := s.goto_issue ag n _
  exact ⟨fun r => s.goto_readReg ag ag n _ r, by rw [hc], by rw [hc, hi], by rw [hi, hnow], by rw [hc], by rw [hc, List.append_nil],
    by rw [hc], fun _ hx => s.advance_other hx.symm n⟩

theorem State.addPend_goesOn (s : State) {ag : Agent} (hp : s.present ag) (hnow : s.issue.now = s.issue.cycle) (n : BitVec 3)
    (regs : List Reg) (work : PendWork) (left : Option Nat) :
    ∃ id, GoesOn s ((s.addPend ag regs work left).advance ag n) ag n [⟨id, regs, work, s.issue.now, left⟩] := by
  have haw := s.addPend_awaiting hp n regs work left
  have hi : ((s.addPend ag regs work left).advance ag n).issue = s.issue := (State.goto_issue _ ag n _).trans (s.addPend_issue ag regs work left)
  obtain ⟨id, -, -, hpend⟩ := haw.pending
  exact ⟨id, haw.registers, haw.pc, haw.eligible, by rw [hi, hnow], haw.status, by rw [hpend, hi], haw.inFlight,
    fun _ hx => (s.addPend_other hx.symm regs work left).trans (State.advance_other _ hx.symm n)⟩

theorem LinesOnly.accs {s t : State} (h : LinesOnly s t) : t.accs = s.accs := by
  have := congrArg State.accs h.rest; exact this

/-- Accesses have joined, behind changes of caches, and their agent has gone on. -/
theorem GoesOn.accepted {s u v t : State} {ag : Agent} {n : BitVec 3} {more : List Pend} {new : List Access}
    {parts : List (Loc × Nat × AccessWork)} (h : GoesOn (v.joined new) t ag n more) (hbody : SameBody (v.joined new) t)
    (hlines : LinesOnly u v) (hs : ∀ x, SameAgent s u x) (hwhat : new.map Access.what = parts.map fun x => (ag, x)) :
    Accepted s u t ag n parts := by
  have hsv : ∀ x, SameAgent s (v.joined new) x := fun x =>
    (hs x).trans ((hlines.agents.trans (.joined v new)).sameAgent x)
  have hmem : v.mem = u.mem := by
    have := congrArg State.mem hlines.rest; exact this
  refine ⟨?_, fun r => (h.registers r).trans ((hsv ag).2 r), ?_, h.eligible, ?_, ?_, fun x hx => (hsv x).trans (h.others x hx), ?_,
    fun k => (hbody.scratch k).trans (hlines.scratch k), ?_⟩
  · rw [hbody.accs, State.joined, List.map_append, hwhat, hlines.accs]
  · rw [h.pc, (hsv ag).1]
  · rw [h.status, (hsv ag).1]
  · rw [h.inFlight, (hsv ag).1]
  · exact hbody.mem.trans hmem
  · exact (congrArg (fun x : State => { x with
      cores := u.cores, doms := u.doms, blocks := u.blocks, accs := u.accs, issue := u.issue, nextId := u.nextId, freeIdx := u.freeIdx })
      hbody.rest).trans (congrArg (fun x : State => { x with
      cores := u.cores, doms := u.doms, blocks := u.blocks, accs := u.accs, issue := u.issue, nextId := u.nextId, freeIdx := u.freeIdx })
      hlines.rest)

/-! ### One agent's access -/

/-- A load of the agent is accepted, and `regs` are pending until its parts have bound. -/
def LoadAccepted (s u t : State) (ag : Agent) (n : BitVec 3) (w : Nat) (loc : Loc) (form : LoadForm) (regs : List Reg) : Prop :=
  ∃ id, Accepted s u t ag n (partsOf w loc fun _ _ => .load) ∧
    (t.ctx ag).pend = (s.ctx ag).pend ++ [⟨id, regs, .access ((t.accs.drop u.accs.length).map fun a => (a.id, none)) form, t.issue.now, none⟩]

/-- A store of the agent is accepted, and nothing is pending for it. -/
def StoreAccepted (s u t : State) (ag : Agent) (n : BitVec 3) (w : Nat) (loc : Loc) (data : List Byte) : Prop :=
  Accepted s u t ag n (partsOf w loc fun o k => .store ((data.drop o).take k)) ∧ (t.ctx ag).pend = (s.ctx ag).pend

section
variable {s c u t : State} {ag : Agent} {n : BitVec 3} {va : DWord} {w : Nat} {kind : AccKind} {loc : Loc} {home : Home} {e : TlbEntry}

/-- Once the address is admitted and the caches have changed, the agent is still there, at the instruction. -/
theorem KeepsAgents.ready_after_admitted {v : State} (hs : ∀ x, SameAgent s c x) (hp : c.present ag)
    (hnow : c.issue.now = c.issue.cycle) (hadm : c.admitted ag kind va w = (some (loc, home, e), u)) (hlines : LinesOnly u v)
    (new : List Access) : (∀ x, SameAgent s u x) ∧ (v.joined new).present ag ∧
      (v.joined new).issue.now = (v.joined new).issue.cycle := by
  have hcu := KeepsAgents.of_admitted hadm
  have hcv := (hcu.trans hlines.agents).trans (.joined v new)
  exact ⟨fun x => (hs x).trans (hcu.sameAgent x), (hcv.present ag).2 hp, by rw [hcv.issue, hnow]⟩

theorem State.loadFrom_accepted {form : LoadForm} {regs : List Reg} {f : Access → Access} (hs : ∀ x, SameAgent s c x)
    (hp : c.present ag) (hnow : c.issue.now = c.issue.cycle) (hf : ∀ x, (f x).what = x.what)
    (hadm : c.admitted ag .read va w = (some (loc, home, e), u)) (hframes : FramesOnly (c.loadFrom ag n va w form regs f) t) :
    LoadAccepted s u t ag n w loc form regs := by
  let v := u.cacheLoad (u.coreOf ag) loc
  obtain ⟨new, hwhat, haccept⟩ :=
    v.acceptLoad_eq_joined (hf (accessOf ag (u.coreOf ag) loc w .load va.toNat home (some e))) form regs
  have hlines : LinesOnly u v := .cacheLoad u _ loc
  obtain ⟨hsu, hpv, hnowv⟩ := KeepsAgents.ready_after_admitted hs hp hnow hadm hlines new
  have hload : c.loadFrom ag n va w form regs f =
      ((v.joined new).addPend ag regs (.access (new.map fun x => (x.id, none)) form) none).advance ag n := by
    simp only [State.loadFrom, hadm]
    exact congrArg (State.advance · ag n) haccept
  obtain ⟨id, hgo⟩ := (v.joined new).addPend_goesOn hpv hnowv n regs (.access (new.map fun x => (x.id, none)) form) none
  rw [hload] at hframes
  have hbody := ((State.addPend_sameBody (v.joined new) ag regs (.access (new.map fun x => (x.id, none)) form) none).trans
    (State.advance_sameBody _ ag n)).trans hframes.body
  have hdrop : t.accs.drop u.accs.length = new := by rw [hbody.accs, State.joined, hlines.accs, List.drop_left]
  have hgoes := hgo.frames hframes
  refine ⟨id, hgoes.accepted hbody hlines hsu hwhat, ?_⟩
  rw [hgoes.pending, hdrop, hgoes.issued, hnowv, ((hsu ag).trans ((hlines.agents.trans (.joined v new)).sameAgent ag)).1]

theorem State.storeTo_accepted (hs : ∀ x, SameAgent s c x) (hp : c.present ag) (hnow : c.issue.now = c.issue.cycle)
    (hadm : c.admitted ag .write va w = (some (loc, home, e), u)) (data : List Byte) :
    StoreAccepted s u (c.storeTo ag n va w data) ag n w loc data := by
  obtain ⟨new, hwhat, haccept⟩ :=
    u.acceptStore_eq_joined (accessOf ag (u.coreOf ag) loc w (.store []) va.toNat home (some e)) data
  have hlines := LinesOnly.refl u
  obtain ⟨hsu, hpu, hnowu⟩ := KeepsAgents.ready_after_admitted hs hp hnow hadm hlines new
  have hstore : c.storeTo ag n va w data = (u.joined new).advance ag n := by
    simp only [State.storeTo, hadm, haccept]
  have hgo := (u.joined new).advance_goesOn hpu hnowu n
  rw [hstore]
  refine ⟨hgo.accepted (State.advance_sameBody _ ag n) hlines hsu hwhat, ?_⟩
  rw [hgo.pending, List.append_nil, ((hsu ag).trans ((KeepsAgents.joined u new).sameAgent ag)).1]

end

/-! ### The agent alone in its step -/

theorem loads_of {i : Instr} {o : Op} {w : Nat} {form : LoadForm} {addr va : List VReg → DWord} {who : Who} {srcs : List Src}
    {regs : List Reg} {n : BitVec 3}
    (hi : ∀ s, ∃ (f : Access → Access) (t : State), (∀ x, (f x).what = x.what) ∧ exec i s = .next t ∧
      FramesOnly (s.runGroup o noFixed fun s ag vs => s.loadFrom ag n (addr vs) w form regs f) t)
    (haddr : ∀ vs, addr vs = va vs) (hsrcs : o.srcs = srcs) (hregs : o.dsts = regs) (hwho : o.who = who) (hbad : o.bad = none)
    (hpriv : o.priv = false := by rfl) : Loads i who srcs regs n w form va := by
  subst hsrcs hregs hwho
  intro s u ag loc home e ha hr hadm
  obtain ⟨f, t, hf, hexec, hframes⟩ := hi s
  rw [State.runGroup_alone ha hr hbad rfl (fun h => absurd (hpriv.symm.trans h) (by decide)), haddr] at hframes
  obtain ⟨id, haccepted, hpend⟩ := State.loadFrom_accepted (s.collect_sameAgent o.grants) ((s.collect_present _ ag).2 hr.present)
    (by rw [State.collect_issue]) hf hadm hframes
  exact ⟨t, id, hexec, haccepted, hpend⟩

theorem stores_of {i : Instr} {o : Op} {w : Nat} {addr va : List VReg → DWord} {bytes data : List VReg → List Byte} {who : Who}
    {srcs : List Src} {n : BitVec 3}
    (hi : ∀ s, exec i s = .next (s.runGroup o noFixed fun s ag vs => s.storeTo ag n (addr vs) w (bytes vs)))
    (haddr : ∀ vs, addr vs = va vs) (hsrcs : o.srcs = srcs) (hwho : o.who = who) (hbad : o.bad = none)
    (hdata : ∀ (s : State) ag, bytes (s.sources ag srcs) = data (s.sources ag srcs))
    (hdsts : o.dsts = [] := by rfl) (hpriv : o.priv = false := by rfl) : Stores i who srcs n w va data := by
  subst hsrcs hwho
  intro s u ag loc home e ha hr hadm
  rw [← hdsts] at hr
  obtain ⟨haccepted, hpend⟩ := State.storeTo_accepted (n := n) (s.collect_sameAgent o.grants)
    ((s.collect_present _ ag).2 hr.present) (by rw [State.collect_issue]) hadm (data (s.sources ag o.srcs))
  refine ⟨_, hi s, ?_⟩
  rw [State.runGroup_alone ha hr hbad rfl (fun h => absurd (hpriv.symm.trans h) (by decide)), haddr, hdata]
  exact ⟨haccepted, hpend⟩

/-! ### Addresses, groups and data (R173) -/

theorem lmAddr_eq (vs : List VReg) (o : BitVec 9) (w : Nat) :
    lmAddr vs o w = (valAt vs 1 ++ valAt vs 0) + BitVec.ofInt 64 (o.toInt * w) := by
  rw [BitVec.ofInt_mul, BitVec.ofInt_natCast]
  rfl

theorem vGroup_two (i : BitVec 6) : vGroup i 2 = [i, i + 1] := by simp [vGroup, List.range_succ]

theorem vGroup_four (i : BitVec 6) : vGroup i 4 = [i, i + 1, i + 2, i + 3] := by simp [vGroup, List.range_succ]

theorem vGroup_one (i : BitVec 6) : vGroup i 1 = [i] := by simp [vGroup, List.range_succ]

theorem sGroup_one (i : BitVec 4) : sGroup i 1 = [i] := by simp [sGroup, List.range_succ]

theorem leBytes_eq_map (k x : Nat) : leBytes k x = (List.range k).map fun j => BitVec.ofNat 8 (x / 256 ^ j) := by
  induction k generalizing x with
  | zero => rfl
  | succ k ih =>
    rw [leBytes, ih, List.range_succ_eq_map, List.map_cons, List.map_map, Nat.pow_zero, Nat.div_one]
    exact congrArg _ (List.map_congr_left fun j _ => by rw [Nat.div_div_eq_div_mul, Function.comp_apply, Nat.pow_succ'])

theorem leBytes_eq_extractLsb' (k : Nat) (x : Word) : leBytes k x.toNat = (List.range k).map fun j => x.extractLsb' (8 * j) 8 := by
  rw [leBytes_eq_map]
  refine List.map_congr_left fun j _ => BitVec.eq_of_toNat_eq ?_
  rw [BitVec.toNat_ofNat, BitVec.extractLsb'_toNat, Nat.shiftRight_eq_div_pow, Nat.pow_mul]

/-- The low bytes of one register. -/
theorem storeBytes_one {w : Nat} {vs : List VReg} (hvs : vs.length = 1) (hw : w ≤ 4) :
    storeBytes w vs = vs.flatMap fun v => (List.range w).map fun j => v.val.extractLsb' (8 * j) 8 := by
  obtain ⟨x, rfl⟩ := List.length_eq_one_iff.1 hvs
  rw [storeBytes, List.flatMap_singleton, List.flatMap_singleton, leBytes_eq_extractLsb', ← List.map_take, List.take_range,
    Nat.min_eq_left hw]

/-- Whole registers in order. -/
theorem storeBytes_all {w : Nat} {vs : List VReg} (hw : w = 4 * vs.length) :
    storeBytes w vs = vs.flatMap fun v => (List.range 4).map fun j => v.val.extractLsb' (8 * j) 8 := by
  rw [storeBytes, List.take_of_length_le]
  · exact List.flatMap_congr fun v _ => leBytes_eq_extractLsb' 4 v.val
  · simp [hw, List.length_flatMap, Nat.mul_comm]

/-! ### The instructions -/

theorem groups_fit {b k : Nat} {x y : Nat} (hx : x % b = 0) (hy : y % k = 0) : groupBad [(x, b), (y, k)] = none :=
  groupBad_eq_none (by simp [hx, hy])

section
variable {i : Instr} {w k : Nat} {d a : BitVec 6} {ud ua : BitVec 4} {o : BitVec 9} {n : BitVec 3}

theorem ld_loads {form : LoadForm} (hi : ∀ s, exec i s = .next (s.ld w form d a o n)) (ha : a.toNat % 2 = 0)
    (hd : d.toNat % k = 0) (hk : regsFor w = k := by rfl) :
    Loads i .thread (addrSrcs a) (vRegs d k) n w form fun vs => (valAt vs 1 ++ valAt vs 0) + BitVec.ofInt 64 (o.toInt * w) := by
  subst hk
  exact loads_of (fun s => ⟨id, _, fun _ => rfl, hi s, .refl _⟩) (lmAddr_eq · o w) rfl rfl rfl (groups_fit ha hd)

/-- LDU and LDC differ from LD in how the access is ordered and whom it serves. -/
theorem ldu_loads {ordered : Bool} (hi : ∀ s, exec i s = .next (s.ldu w ordered ud ua o n)) (ha : ua.toNat % 2 = 0)
    (hd : ud.toNat % k = 0) (hk : regsFor w = k := by rfl) :
    Loads i .both (sSrcs ua 2) ((sGroup ud k).map Reg.s) n w (.words .raw) fun vs =>
      (valAt vs 1 ++ valAt vs 0) + BitVec.ofInt 64 (o.toInt * w) := by
  subst hk
  exact loads_of (fun s => ⟨fun x => { x with ordered := ordered, group := if s.sharedFrame.isSome then some s.nextId else none }, _,
    fun _ => rfl, hi s, State.frameRules_framesOnly _⟩) (lmAddr_eq · o w) rfl rfl rfl (groups_fit ha hd)

/-- The low `b` bytes of each data register are the data. -/
theorem st_stores {b : Nat} (hi : ∀ s, exec i s = .next (s.st w d a o n)) (ha : a.toNat % 2 = 0) (hd : d.toNat % k = 0)
    (hdata : ∀ vs : List VReg, vs.length = k →
      storeBytes w vs = vs.flatMap fun v => (List.range b).map fun j => v.val.extractLsb' (8 * j) 8)
    (hk : regsFor w = k := by rfl) :
    Stores i .thread (addrSrcs a ++ vSrcs d k 3 .any) n w (fun vs => (valAt vs 1 ++ valAt vs 0) + BitVec.ofInt 64 (o.toInt * w))
      fun vs => (vs.drop 2).flatMap fun v => (List.range b).map fun j => v.val.extractLsb' (8 * j) 8 := by
  subst hk
  exact stores_of hi (lmAddr_eq · o w) rfl rfl (groups_fit ha hd) fun s ag => hdata _ (by simp [State.sources, addrSrcs, vSrcs, vGroup])

end

/-- Settles O29: each instruction is LD, LDU or ST of a width, whose one agent's access joins the outstanding ones. -/
theorem loadsAndStoresAccepted : Obligations.LoadsAndStoresAccepted := by
  intro d a ud ua o n ha hua
  dsimp only
  have hpair : addrSrcs a = [vSrc a 5 .int64, vSrc (a + 1) 5 .int64] := by simp [addrSrcs, vSrcs, vGroup_two]
  have hbase : sSrcs ua 2 = [sSrc ua, sSrc (ua + 1)] := by simp [sSrcs, sGroup_two]
  have hv1 : vRegs d 1 = [.v d] := by simp [vRegs, vGroup_one]
  have hv2 : vRegs d 2 = [.v d, .v (d + 1)] := by simp [vRegs, vGroup_two]
  have hv4 : vRegs d 4 = [.v d, .v (d + 1), .v (d + 2), .v (d + 3)] := by simp [vRegs, vGroup_four]
  have hs1 : (sGroup ud 1).map Reg.s = [.s ud] := by simp [sGroup_one]
  have hs2 : (sGroup ud 2).map Reg.s = [.s ud, .s (ud + 1)] := by simp [sGroup_two]
  have hd1 : vSrcs d 1 3 .any = [vSrc d 3 .any] := by simp [vSrcs, vGroup_one]
  have hd2 : vSrcs d 2 3 .any = [vSrc d 3 .any, vSrc (d + 1) 3 .any] := by simp [vSrcs, vGroup_two]
  have hd4 : vSrcs d 4 3 .any = [vSrc d 3 .any, vSrc (d + 1) 3 .any, vSrc (d + 2) 3 .any, vSrc (d + 3) 3 .any] := by
    simp [vSrcs, vGroup_four]
  rw [← hpair, ← hbase, ← hv1, ← hv2, ← hv4, ← hs1, ← hs2, ← hd1, ← hd2, ← hd4]
  refine ⟨?_, ?_, ?_, ?_, ?_, ?_, ?_, ?_, ?_, ?_, ?_, ?_, ?_, ?_⟩
  · exact ld_loads (fun _ => rfl) ha (Nat.mod_one _)
  · exact ld_loads (fun _ => rfl) ha (Nat.mod_one _)
  · exact ld_loads (fun _ => rfl) ha (Nat.mod_one _)
  · exact ld_loads (fun _ => rfl) ha (Nat.mod_one _)
  · exact ld_loads (fun _ => rfl) ha (Nat.mod_one _)
  · exact ld_loads (fun _ => rfl) ha
  · exact ld_loads (fun _ => rfl) ha
  · rintro i (_ | ⟨_, _ | ⟨_, ⟨⟩⟩⟩)
    · exact ldu_loads (fun _ => rfl) hua (Nat.mod_one _)
    · exact ldu_loads (fun _ => rfl) hua (Nat.mod_one _)
  · rintro hud i (_ | ⟨_, _ | ⟨_, ⟨⟩⟩⟩)
    · exact ldu_loads (fun _ => rfl) hua hud
    · exact ldu_loads (fun _ => rfl) hua hud
  · exact st_stores (fun _ => rfl) ha (Nat.mod_one _) fun vs hvs => storeBytes_one hvs (by decide)
  · exact st_stores (fun _ => rfl) ha (Nat.mod_one _) fun vs hvs => storeBytes_one hvs (by decide)
  · exact st_stores (fun _ => rfl) ha (Nat.mod_one _) fun vs hvs => storeBytes_one hvs (by decide)
  · exact fun hd => st_stores (fun _ => rfl) ha hd fun vs hvs => storeBytes_all (by rw [hvs])
  · exact fun hd => st_stores (fun _ => rfl) ha hd fun vs hvs => storeBytes_all (by rw [hvs])

end Sys2Proof.Machine
end

section
/-! Lane integer arithmetic, bits, logic, compares and moves complete with the results of R106 to R116, R138 and R139: each is one of
the shared lane forms, and its function is the arithmetic or the bits that the rule names. -/

namespace Sys2Proof.Machine

/-! ### Forms with one or two results -/

/-- A lane instruction whose one result has a tag that its sources may give. -/
theorem laneResult_completes {i : Instr} {o : Op} {n : BitVec 3} {lat : Nat} {srcs : List Src} {d : BitVec 6} {f g : List VReg → Word}
    {t : List VReg → Tag} (hi : ∀ s, exec i s = .next (s.runFixed o lat fun vs => [wV d (f vs) (t vs)])) (hf : ∀ vs, f vs = g vs)
    (hbad : o.bad = none := by rfl) (hwho : o.who = .thread := by rfl) (hs : o.srcs = srcs := by rfl) (hd : o.dsts = [.v d] := by rfl)
    (hn : o.n = n := by rfl) (hpriv : o.priv = false := by rfl) :
    FixedLatency i .thread srcs [.v d] n lat fun vs => [wV d (g vs) (t vs)] :=
  fixedLatency_of hi hbad (fun _ _ h => List.forall_mem_singleton.2 (wV_fits _ _ _ h)) (fun vs => by rw [hf]) hwho hs hd hn hpriv

/-- The flag of a carry form is source and destination (R104, R106). -/
theorem laneCarry_completes {i : Instr} {f : Word → Word → Bool → Word × Bool} {x : Word → Word → Bool → Word}
    {c : Word → Word → Bool → Bool} {d a b : BitVec 6} {k n : BitVec 3} (hi : ∀ s, exec i s = .next (s.vCarry f d a b k n))
    (hf : ∀ y z b, f y z b = (x y z b, c y z b)) :
    FixedLatency i .thread [vSrc a 0 .int32, vSrc b 1 .int32, kSrc k] [.v d, .k k] n 2 fun vs =>
      [wV d (x (valAt vs 0) (valAt vs 1) ((valAt vs 2).getLsbD 0)) .n32,
        wK k (c (valAt vs 0) (valAt vs 1) ((valAt vs 2).getLsbD 0))] :=
  fixedLatency_of hi rfl (fun _ _ h => by simp [wV_fits, wK_fits, h]) fun vs => by simp only [hf]

/-- The pair forms of VMADW (R104, R107). -/
theorem laneMadw_completes {i : Instr} {f : Word → Word → DWord → DWord} {g : List VReg → DWord} {t : Tag} {d a b : BitVec 6}
    {c n : BitVec 3} (hc : d.toNat + c.toNat ≤ 63) (hd : d.toNat % 2 = 0) (hc2 : c.toNat % 2 = 0)
    (hi : ∀ s, exec i s = .next (s.vMadw f t d a b c n))
    (hf : ∀ vs, f (valAt vs 0) (valAt vs 1) (valAt vs 3 ++ valAt vs 2) = g vs) :
    FixedLatency i .thread
      [vSrc a 0 .int32, vSrc b 1 .int32, vSrc (d + c.zeroExtend 6) 2 .int64, vSrc (d + c.zeroExtend 6 + 1) 2 .int64]
      [.v d, .v (d + 1)] n 6 fun vs => [wV d ((g vs).extractLsb' 0 32) t, wV (d + 1) ((g vs).extractLsb' 32 32) t] :=
  fixedLatency_of hi (by simp [windowBad_none hc, groupBad_eq_none, hd, hc2, worse]) (fun _ _ h => by simp [wV_fits, h])
    (fun vs => by rw [← hf vs]; rfl) (hs := by simp [vSrcs, vGroup_two, vcOf])

theorem kUnary_completes {i : Instr} {f : Bool → Bool} {d a n : BitVec 3} (hi : ∀ s, exec i s = .next (s.kUnary f d a n)) :
    FixedLatency i .thread [kSrc a] [.k d] n 2 fun vs => [wK d (f ((valAt vs 0).getLsbD 0))] :=
  fixedLatency_of hi rfl (fun _ _ h => List.forall_mem_singleton.2 (wK_fits _ _ h)) fun _ => rfl

/-! ### Additions and subtractions (R106) -/

theorem addSatU_eq_ofNat (x y : Word) : addSatU x y = BitVec.ofNat 32 (min (2 ^ 32 - 1) (x.toNat + y.toNat)) := by
  rw [addSatU, min_comm]

theorem subSatU_eq_ofInt (x y : Word) : subSatU x y = BitVec.ofInt 32 (max 0 ((x.toNat : Int) - y.toNat)) := by
  have hmax : max 0 ((x.toNat : Int) - y.toNat) = ((x.toNat - y.toNat : Nat) : Int) := by omega
  rw [hmax, BitVec.ofInt_natCast, subSatU]

theorem addCarry_eq (x y : Word) (c : Bool) :
    addCarry x y c = (BitVec.ofNat 32 (x.toNat + y.toNat + c.toNat), decide (2 ^ 32 ≤ x.toNat + y.toNat + c.toNat)) := by
  cases c <;> rfl

theorem subBorrow_eq (x y : Word) (c : Bool) :
    subBorrow x y c = (BitVec.ofInt 32 ((x.toNat : Int) - y.toNat - c.toNat), decide ((x.toNat : Int) - y.toNat - c.toNat < 0)) := by
  cases c <;> rfl

/-- Settles O1: each instruction is one of the shared lane forms with the function of R106. -/
theorem laneAddSub : Obligations.LaneAddSub := by
  intro d a b k n imm
  refine ⟨?_, ?_, ?_, ?_, ?_, ?_, ?_, ?_, ?_, ?_⟩
  · exact laneBinary_of (fun _ => rfl) add_eq_ofNat
  · exact laneBinary_of (fun _ => rfl) fun _ _ => rfl
  · exact laneBinary_of (fun _ => rfl) addSatU_eq_ofNat
  · exact laneBinary_of (fun _ => rfl) sub_eq_ofInt
  · exact laneBinary_of (fun _ => rfl) fun _ _ => rfl
  · exact laneBinary_of (fun _ => rfl) subSatU_eq_ofInt
  · exact laneCarry_completes (fun _ => rfl) addCarry_eq
  · exact laneCarry_completes (fun _ => rfl) subBorrow_eq
  · exact laneUnary_of (fun _ => rfl) fun _ => add_sext32 _ _
  · exact laneResult_completes (fun _ => rfl) fun _ => rfl

/-! ### Multiplications, dot products, absolute differences (R107, R108) -/

theorem mul_add_eq_ofInt (x y z : Word) : x * y + z = BitVec.ofInt 32 (x.toInt * y.toInt + z.toInt) := by
  rw [BitVec.ofInt_add, BitVec.ofInt_toInt, mul_eq_ofInt]

theorem madwS_eq_ofInt (x y : Word) (z : DWord) : madwS x y z = BitVec.ofInt 64 (x.toInt * y.toInt + z.toInt) := by
  rw [BitVec.ofInt_add, BitVec.ofInt_mul, BitVec.ofInt_toInt]
  rfl

theorem madwU_eq_ofNat (x y : Word) (z : DWord) : madwU x y z = BitVec.ofNat 64 (x.toNat * y.toNat + z.toNat) := by
  rw [BitVec.ofNat_add, BitVec.ofNat_mul, BitVec.ofNat_toNat, BitVec.ofNat_toNat, BitVec.ofNat_toNat, BitVec.setWidth_eq]
  rfl

theorem dp4S_eq_ofInt (x y z : Word) : dp4S x y z = BitVec.ofInt 32
    ((((List.range 4).map fun j => (x.extractLsb' (8 * j) 8).toInt * (y.extractLsb' (8 * j) 8).toInt).sum) + z.toInt) := by
  rw [BitVec.ofInt_add, BitVec.ofInt_toInt, BitVec.add_comm]
  rfl

theorem dp4U_eq_ofNat (x y z : Word) : dp4U x y z = BitVec.ofNat 32
    ((((List.range 4).map fun j => (x.extractLsb' (8 * j) 8).toNat * (y.extractLsb' (8 * j) 8).toNat).sum) + z.toNat) := by
  rw [BitVec.ofNat_add, BitVec.ofNat_toNat, BitVec.setWidth_eq, BitVec.add_comm]
  rfl

theorem sadU_eq_ofInt (x y z : Word) : sadU x y z = BitVec.ofInt 32
    ((((List.range 4).map fun j => |((x.extractLsb' (8 * j) 8).toNat : Int) - (y.extractLsb' (8 * j) 8).toNat|).sum) + z.toNat) := by
  have habs : ∀ l : List Int, (((l.map Int.natAbs).sum : Nat) : Int) = (l.map fun v => |v|).sum := by
    intro l
    rw [Nat.cast_list_sum, List.map_map]
    exact congrArg List.sum (List.map_congr_left fun v _ => Int.natCast_natAbs v)
  rw [BitVec.ofInt_add, BitVec.ofInt_natCast 32 z.toNat, BitVec.ofNat_toNat, BitVec.setWidth_eq, sadU, BitVec.add_comm,
    ← BitVec.ofInt_natCast, habs, List.map_map]
  rfl

/-- Settles O2: each instruction is one of the shared lane forms with the function of R107 or R108. -/
theorem laneMultiply : Obligations.LaneMultiply := by
  intro d a b c n hc
  refine ⟨?_, ?_, ?_, ?_, fun hd hc2 => ⟨?_, ?_⟩, ?_, ?_, ?_⟩
  · exact laneBinary_of (fun _ => rfl) mul_eq_ofInt
  · exact laneBinary_of (fun _ => rfl) mulhiS_eq_ofInt
  · exact laneBinary_of (fun _ => rfl) mulhiU_eq_ofNat
  · exact laneTernary_of hc (fun _ => rfl) mul_add_eq_ofInt
  · exact laneMadw_completes hc hd hc2 (fun _ => rfl) fun _ => madwS_eq_ofInt _ _ _
  · exact laneMadw_completes hc hd hc2 (fun _ => rfl) fun _ => madwU_eq_ofNat _ _ _
  · exact laneTernary_of hc (fun _ => rfl) dp4S_eq_ofInt
  · exact laneTernary_of hc (fun _ => rfl) dp4U_eq_ofNat
  · exact laneTernary_of hc (fun _ => rfl) sadU_eq_ofInt

/-! ### Shifts, rotates and bits (R110 to R112) -/

theorem shrS_zext32 (x : Word) (k : BitVec 5) : shrS x (zext32 k) = BitVec.ofInt 32 (x.toInt / 2 ^ k.toNat) := by
  rw [shrS_eq_ofInt, toNat_zext32 (by decide), min_eq_left (Nat.le_of_lt_succ k.isLt)]

theorem rotl_eq_or (x y : Word) : rotl x y = (x <<< (y.toNat % 32)) ||| (x >>> (32 - y.toNat % 32)) := by
  rw [rotl, BitVec.rotateLeft_def, Nat.mod_mod]

theorem rotr_eq_or (x y : Word) : rotr x y = (x >>> (y.toNat % 32)) ||| (x <<< (32 - y.toNat % 32)) := by
  rw [rotr, BitVec.rotateRight_def, Nat.mod_mod]

theorem brev_eq_ofFnLE (x : Word) : brev x = BitVec.ofFnLE fun i : Fin 32 => x.getLsbD (31 - i.val) := by
  apply BitVec.eq_of_getLsbD_eq
  intro i hi
  rw [brev, BitVec.getLsbD_reverse, BitVec.getMsbD, BitVec.getLsbD_eq_getElem hi, BitVec.getElem_ofFnLE]
  simp [hi]

/-- Byte `j` of VPERM: the byte of the pool that nibble `j` of the selector names, 0 where its bit 3 is set (R112). -/
def permByte (sel a b : Word) (j : Nat) : Byte :=
  let c := (sel.extractLsb' (4 * j) 4).toNat
  if c ≥ 8 then 0 else if c < 4 then byteOf a c else byteOf b (c - 4)

theorem perm_eq_append (sel a b : Word) :
    perm sel a b = permByte sel a b 3 ++ permByte sel a b 2 ++ permByte sel a b 1 ++ permByte sel a b 0 := rfl

theorem toNat_nibble (x : Word) (j : Nat) : (x.extractLsb' (4 * j) 4).toNat = x.toNat / 16 ^ j % 16 := by
  rw [BitVec.extractLsb'_toNat, Nat.shiftRight_eq_div_pow, Nat.pow_mul]

theorem getLsbD_permByte (sel a b : Word) (j : Nat) {k : Nat} (hk : k < 8) : (permByte sel a b j).getLsbD k =
    (decide (sel.toNat / 16 ^ j % 16 < 8) && (b ++ a).getLsbD (8 * (sel.toNat / 16 ^ j % 16) + k)) := by
  simp only [permByte, toNat_nibble, BitVec.getLsbD_append]
  generalize sel.toNat / 16 ^ j % 16 = c
  by_cases hhigh : c ≥ 8
  · simp [hhigh, not_lt.2 hhigh]
  by_cases hlow : c < 4
  · have hin : 8 * c + k < 32 := by omega
    simp [not_le.1 hhigh, hhigh, hlow, byteOf, hin, hk]
  · have hout : ¬ 8 * c + k < 32 := by omega
    have hoff : 8 * (c - 4) + k = 8 * c + k - 32 := by omega
    simp [not_le.1 hhigh, hhigh, hlow, byteOf, hout, hk, hoff]

theorem getLsbD_four_bytes (y : Nat → Byte) {i : Nat} (hi : i < 32) :
    (y 3 ++ y 2 ++ y 1 ++ y 0).getLsbD i = (y (i / 8)).getLsbD (i % 8) := by
  simp only [BitVec.getLsbD_append]
  have hdiv : i / 8 = 0 ∨ i / 8 = 1 ∨ i / 8 = 2 ∨ i / 8 = 3 := by omega
  rcases hdiv with h | h | h | h
  · have hmod : i % 8 = i := by omega
    have : i < 8 := by omega
    simp [h, hmod, this]
  · have hmod : i % 8 = i - 8 := by omega
    have : ¬ i < 8 ∧ i - 8 < 8 := by omega
    simp [h, hmod, this]
  · have hmod : i % 8 = i - 8 - 8 := by omega
    have : ¬ i < 8 ∧ ¬ i - 8 < 8 ∧ i - 8 - 8 < 8 := by omega
    simp [h, hmod, this]
  · have hmod : i % 8 = i - 8 - 8 - 8 := by omega
    have : ¬ i < 8 ∧ ¬ i - 8 < 8 ∧ ¬ i - 8 - 8 < 8 := by omega
    simp [h, hmod, this]

theorem perm_eq_ofFnLE (sel a b : Word) : perm sel a b = BitVec.ofFnLE fun i : Fin 32 =>
    decide (sel.toNat / 16 ^ (i.val / 8) % 16 < 8) && (b ++ a).getLsbD (8 * (sel.toNat / 16 ^ (i.val / 8) % 16) + i.val % 8) := by
  apply BitVec.eq_of_getLsbD_eq
  intro i hi
  rw [perm_eq_append, getLsbD_four_bytes (permByte sel a b) hi, getLsbD_permByte _ _ _ _ (Nat.mod_lt i (by decide)),
    BitVec.getLsbD_eq_getElem hi, BitVec.getElem_ofFnLE]

/-- Settles O3: each instruction is one of the shared lane forms with the function of R109 to R112. -/
theorem laneMinMaxShiftBits : Obligations.LaneMinMaxShiftBits := by
  intro d a b c n sh pos len
  refine ⟨?_, ?_, ?_, ?_, ?_, ?_, ?_, ?_, ?_, ?_, ?_, ?_, ?_, ?_, fun hc => ?_, ?_, ?_, ?_, ?_⟩
  · exact laneBinary_of (fun _ => rfl) minS_eq_ofInt
  · exact laneBinary_of (fun _ => rfl) minU_eq_ofNat
  · exact laneBinary_of (fun _ => rfl) maxS_eq_ofInt
  · exact laneBinary_of (fun _ => rfl) maxU_eq_ofNat
  · exact laneBinary_of (fun _ => rfl) shl_eq_ofNat
  · exact laneBinary_of (fun _ => rfl) shrU_eq_ofNat
  · exact laneBinary_of (fun _ => rfl) shrS_eq_ofInt
  · exact laneUnary_of (fun _ => rfl) fun _ => shl_zext32 _ _
  · exact laneUnary_of (fun _ => rfl) fun _ => shrU_zext32 _ _
  · exact laneUnary_of (fun _ => rfl) fun _ => shrS_zext32 _ _
  · exact laneBinary_of (fun _ => rfl) rotl_eq_or
  · exact laneBinary_of (fun _ => rfl) rotr_eq_or
  · exact laneBinary_of (fun _ => rfl) bfeU_eq_setWidth
  · exact laneBinary_of (fun _ => rfl) bfeS_eq_signExtend
  · exact laneTernary_of hc (fun _ => rfl) fun _ _ _ => bfi_eq_ofFnLE _ _ _
  · exact laneUnary_of (fun _ => rfl) popc_eq_sum
  · exact laneUnary_of (fun _ => rfl) clz_eq_takeWhile
  · exact laneUnary_of (fun _ => rfl) brev_eq_ofFnLE
  · exact laneResult_completes (fun _ => rfl) fun _ => perm_eq_ofFnLE _ _ _

/-! ### Compares, k-flags (R114, R115) -/

theorem signed_eq_decide (x y : Word) : Cond.signed .eq x y = decide (x.toInt = y.toInt) := by
  rw [Cond.signed, beq_eq_decide, decide_eq_decide, BitVec.toInt_inj]

theorem signed_ne_decide (x y : Word) : Cond.signed .ne x y = decide (x.toInt ≠ y.toInt) := by
  rw [Cond.signed, bne, beq_eq_decide, ← decide_not, decide_eq_decide, ne_eq, BitVec.toInt_inj]

/-- The sum of the powers of two of some numbers below `n` has just their bits. -/
theorem testBit_sum_two_pow (p : Nat → Bool) (n : Nat) :
    ((List.range n).map fun j => if p j then 2 ^ j else 0).sum < 2 ^ n ∧
      ∀ i, ((List.range n).map fun j => if p j then 2 ^ j else 0).sum.testBit i = (decide (i < n) && p i) := by
  induction n with
  | zero => simp
  | succ n ih =>
    obtain ⟨hlt, hbits⟩ := ih
    rw [List.range_succ, List.map_append, List.sum_append]
    have hlast : ([n].map fun j => if p j then 2 ^ j else 0).sum = 2 ^ n * (p n).toNat := by cases h : p n <;> simp [h]
    rw [hlast, Nat.add_comm]
    refine ⟨?_, fun i => ?_⟩
    · cases p n <;> simp [Nat.pow_succ] <;> omega
    · rw [Nat.testBit_two_pow_mul_add _ hlt, hbits]
      rcases lt_trichotomy i n with h | rfl | h
      · simp [h, h.trans (Nat.lt_succ_self n)]
      · cases p i <;> simp
      · have hsub : i - n ≠ 0 := by omega
        simp [not_lt.2 h.le, not_le.2 h, Nat.testBit_bool_toNat, hsub]

/-- VKRD's sum of the flags' weights is the word of the flags. -/
theorem ofNat_sum_flags (p : Nat → Bool) : BitVec.ofNat 32 (((List.range 8).map fun j => if p j then 2 ^ j else 0).sum) =
    BitVec.ofFnLE fun i : Fin 32 => decide (i.val < 8) && p i.val := by
  apply BitVec.eq_of_getLsbD_eq
  intro i hi
  rw [BitVec.getLsbD_ofNat, (testBit_sum_two_pow p 8).2, BitVec.getLsbD_eq_getElem hi, BitVec.getElem_ofFnLE]
  simp [hi]

/-- Settles O4: each instruction is one of the shared lane forms with the function of R113 to R116, R138 or R139. -/
theorem laneLogicMoveFlags : Obligations.LaneLogicMoveFlags := by
  intro d a b sa kd ka kb n imm tg any2
  refine ⟨?_, ?_, ?_, ?_, ?_, ?_, ?_, ?_, ?_, ?_, ?_, ?_, ?_, ?_, ?_, ?_, ?_, ?_, ?_, ?_, ?_, ?_, ?_, ?_, ?_, ?_, ?_, ?_, ?_, ?_, ?_⟩
  · exact laneBinary_of (fun _ => rfl) fun _ _ => rfl
  · exact laneBinary_of (fun _ => rfl) fun _ _ => rfl
  · exact laneBinary_of (fun _ => rfl) fun _ _ => rfl
  · exact laneBinary_of (fun _ => rfl) fun _ _ => rfl
  · exact laneUnary_of (fun _ => rfl) fun _ => rfl
  · exact laneUnary_of (fun _ => rfl) fun _ => congrArg _ (zext32_eq_ofNat imm)
  · exact laneUnary_of (fun _ => rfl) fun _ => congrArg _ (zext32_eq_ofNat imm)
  · exact laneUnary_of (fun _ => rfl) fun _ => congrArg _ (zext32_eq_ofNat imm)
  · exact laneCompare_of (fun _ => rfl) signed_eq_decide
  · exact laneCompare_of (fun _ => rfl) signed_ne_decide
  · exact laneCompare_of (fun _ => rfl) fun _ _ => BitVec.slt_eq_decide
  · exact laneCompare_of (fun _ => rfl) fun _ _ => BitVec.sle_eq_decide
  · exact laneCompare_of (fun _ => rfl) fun _ _ => BitVec.slt_eq_decide
  · exact laneCompare_of (fun _ => rfl) fun _ _ => BitVec.sle_eq_decide
  · exact laneCompare_of (fun _ => rfl) fun _ _ => BitVec.ult_eq_decide
  · exact laneCompare_of (fun _ => rfl) fun _ _ => BitVec.ule_eq_decide
  · exact laneCompare_of (fun _ => rfl) fun _ _ => BitVec.ult_eq_decide
  · exact laneCompare_of (fun _ => rfl) fun _ _ => BitVec.ule_eq_decide
  · refine fixedLatency_of (fun _ => rfl) rfl (fun vs ag h => ?_) fun _ => rfl
    split <;> exact List.forall_mem_singleton.2 (wV_fits _ _ _ h)
  · exact flagBinary_of (fun _ => rfl) fun _ _ => rfl
  · exact flagBinary_of (fun _ => rfl) fun _ _ => rfl
  · exact flagBinary_of (fun _ => rfl) fun _ _ => congrFun₂ Bool.bne_eq_xor _ _
  · exact flagBinary_of (fun _ => rfl) fun _ _ => rfl
  · exact kUnary_completes (f := fun x => !x) fun _ => rfl
  · exact kUnary_completes (f := fun x => x) fun _ => rfl
  · exact laneResult_completes (fun _ => rfl) fun vs => ofNat_sum_flags fun j => (valAt vs j).getLsbD 0
  · refine fixedLatency_of (fun _ => rfl) rfl (fun vs ag h => ?_) fun _ => List.map_map
    exact List.forall_mem_map.2 fun _ _ => wK_fits _ _ h
  · exact laneResult_completes (fun _ => rfl) fun _ => rfl
  · exact laneResult_completes (fun _ => rfl) fun _ => rfl
  · exact laneResult_completes (fun _ => rfl) fun _ => rfl
  · exact laneResult_completes (fun _ => rfl) fun _ => rfl

end Sys2Proof.Machine
end

section
/-! The outstanding accesses, while some of them are performed (R273 to R275): none joins, each that is left is one of those before,
and what has been performed is gone. -/

namespace Sys2Proof.Machine

/-! ### What becomes of an access -/

/-- The access is the same one, later: its block may have come to see it (R273), and a returned one may have become due (R325). -/
def Access.Remains (y x : Access) : Prop := x = { y with seen := x.seen, again := x.again } ∧ (y.seen.isSome = true → x.seen.isSome = true)

namespace Access.Remains

theorem refl (x : Access) : x.Remains x := ⟨rfl, fun h => h⟩

variable {x y z : Access}

theorem trans (h : z.Remains y) (h' : y.Remains x) : z.Remains x := by
  obtain ⟨hy, hseen⟩ := h
  obtain ⟨hx, hseen'⟩ := h'
  refine ⟨?_, fun hz => hseen' (hseen hz)⟩
  rw [hx, hy]

variable (h : y.Remains x)
include h

theorem id_eq : x.id = y.id := by rw [h.1]

theorem isStore_eq : x.isStore = y.isStore := by rw [h.1]; rfl

theorem mates_eq : x.group = y.group ∧ x.loc = y.loc ∧ x.width = y.width := by
  rw [h.1]
  exact ⟨rfl, rfl, rfl⟩

theorem releases_eq (ag : Agent) (sc : Scope) : releases ag sc x = releases ag sc y := by rw [h.1]; rfl

theorem acquires_eq (ag : Agent) (sc : Scope) : acquires ag sc x = acquires ag sc y := by rw [h.1]; rfl

end Access.Remains

/-- The accesses have different numbers. -/
def State.Numbered (s : State) : Prop := (s.accs.map Access.id).Nodup

theorem State.Numbered.eq {s : State} (h : s.Numbered) {x y : Access} (hx : x ∈ s.accs) (hy : y ∈ s.accs) (hid : x.id = y.id) : x = y :=
  List.inj_on_of_nodup_map h hx hy hid

/-- Every outstanding access was outstanding in `r`. -/
structure AccsFrom (r s : State) : Prop where
  ids : (s.accs.map Access.id).Sublist (r.accs.map Access.id)
  origin : ∀ x ∈ s.accs, ∃ y ∈ r.accs, y.Remains x

namespace AccsFrom

theorem refl (s : State) : AccsFrom s s := ⟨.refl _, fun x hx => ⟨x, hx, .refl x⟩⟩

variable {r s t : State} {core : Nat} (h : AccsFrom r s)
include h

theorem trans (h' : AccsFrom s t) : AccsFrom r t := by
  refine ⟨h'.ids.trans h.ids, fun x hx => ?_⟩
  obtain ⟨y, hy, hyx⟩ := h'.origin x hx
  obtain ⟨z, hz, hzy⟩ := h.origin y hy
  exact ⟨z, hz, hzy.trans hyx⟩

theorem numbered (hr : r.Numbered) : s.Numbered := hr.sublist h.ids

theorem same (e : t.accs = s.accs) : AccsFrom r t := ⟨e ▸ h.ids, e ▸ h.origin⟩

/-- A change of all the rest. -/
theorem rest {mem past cores doms powers blocks xinvs credits frozen wafer street partitions windows fabric queues grids saved images
    kernels channels journal platform feCycles nextBid nextUnit nextGrid nextId outbox freeIdx agenda issue} :
    AccsFrom r (State.mk mem past cores doms powers blocks s.accs xinvs credits frozen wafer street partitions windows fabric queues
      grids saved images kernels channels journal platform feCycles nextBid nextUnit nextGrid nextId outbox freeIdx agenda issue) :=
  h.same rfl

theorem filter (p : Access → Bool) (e : t.accs = s.accs.filter p) : AccsFrom r t :=
  h.trans ⟨e ▸ List.filter_sublist.map _, fun x hx => ⟨x, List.mem_of_mem_filter (e ▸ hx), .refl x⟩⟩

theorem map {f : Access → Access} (hf : ∀ x : Access, x.Remains (f x)) (e : t.accs = s.accs.map f) : AccsFrom r t := by
  refine h.trans ⟨?_, fun x hx => ?_⟩
  · have hid : Access.id ∘ f = Access.id := funext fun x => (hf x).id_eq
    rw [e, List.map_map, hid]
  · obtain ⟨y, hy, rfl⟩ := List.mem_map.1 (e ▸ hx)
    exact ⟨y, hy, hf y⟩

theorem foldl {α : Type} {f : State → α → State} (hf : ∀ u x, AccsFrom r u → AccsFrom r (f u x)) (xs : List α) : AccsFrom r (xs.foldl f s) :=
  List.foldlRecOn (motive := AccsFrom r) xs f h fun u hu x _ => hf u x hu

theorem ite {c : Prop} [Decidable c] (h' : AccsFrom r t) : AccsFrom r (if c then s else t) := by
  split
  · exact h
  · exact h'

omit h in
/-- The state of a result that is taken apart by a match. -/
theorem of_snd {α : Type} {p : α × State} {a : α} (e : p = (a, s)) (hp : AccsFrom r p.2) : AccsFrom r s := by
  subst e; exact hp

omit h in
theorem of_snd_snd {α β : Type} {p : α × β × State} {a : α} {b : β} (e : p = (a, b, s)) (hp : AccsFrom r p.2.2) : AccsFrom r s := by
  subst e; exact hp

/-! ### What does not touch the accesses -/

theorem body (h' : SameBody s t) : AccsFrom r t := h.same h'.accs

theorem lines (h' : LinesOnly s t) : AccsFrom r t := h.same h'.accs

theorem choose {n} : AccsFrom r (s.choose n).2 := h.rest

theorem pick {α : Type} {d : α} {xs} : AccsFrom r (s.pick d xs).2 := by
  fun_cases State.pick s d xs
  case case1 | case2 => exact h
  case case3 => exact h.rest

theorem storeRaw {pa bs} : AccsFrom r (s.storeRaw pa bs) := by
  unfold State.storeRaw
  dsimp only
  split <;> exact h.rest

theorem storePhys {pa bs} : AccsFrom r (s.storePhys pa bs) := by
  unfold State.storePhys
  split
  · exact h.storeRaw
  · obtain ⟨ps, hps⟩ := s.noteClears_powers ((List.range bs.length).zip bs |>.map fun p => (s.physKey (pa + p.1), p.2))
    dsimp only
    rw [hps]
    exact (h.rest.storeRaw)

theorem writeLoc {l bs} : AccsFrom r (s.writeLoc l bs) := by
  cases l with
  | phys pa => exact h.storePhys
  | replica pa d => exact h.foldl (fun _ _ hu => hu.storePhys) _
  | scratch core off => exact h.rest

theorem rdmaWrite {l bs} : AccsFrom r (s.rdmaWrite l bs) := by
  fun_cases State.rdmaWrite s l bs
  case case1 => exact h.rest
  case case2 => exact h

theorem rdmaRead {l n} : AccsFrom r (s.rdmaRead l n) := by
  fun_cases State.rdmaRead s l n
  case case1 => exact h.rest
  case case2 => exact h

theorem storeAt {l bs} : AccsFrom r (s.storeAt l bs) := h.writeLoc.rdmaWrite

theorem cacheStore {c l} : AccsFrom r (s.cacheStore c l) := h.lines (.cacheStore s c l)

theorem deviceStore {pa bs} : AccsFrom r (s.deviceStore pa bs) :=
  ((h.foldl (fun _ _ hu => hu.cacheStore) _).storeRaw).rdmaWrite

theorem updCtx {f ag} : AccsFrom r (s.updCtx f ag) := h.body (s.updCtx_sameBody f ag)

theorem streetDrop {unit} : AccsFrom r (s.streetDrop unit) :=
  .foldl h.rest (fun u e hu => by
    unfold State.streetStore
    exact hu.deviceStore.ite hu) _

theorem stopBlocks {hit} : AccsFrom r (s.stopBlocks hit) :=
  (AccsFrom.foldl (h.rest) (fun _ _ hu => hu.rest) _).rest

theorem dropSaved {gone} : AccsFrom r (s.dropSaved gone) := AccsFrom.foldl (h.rest) (fun _ _ hu => hu.streetDrop) _

theorem stopGrid {g cause aborted} : AccsFrom r (s.stopGrid g cause aborted) := h.stopBlocks.dropSaved.rest

theorem payloadError {ctxid} : AccsFrom r (s.payloadError ctxid) := (h.foldl (fun _ _ hu => hu.stopGrid) _).rest

theorem file {bid tid} : AccsFrom r (s.file bid tid) := by
  fun_cases State.file s bid tid <;> exact h.rest

theorem fileLoose {bid tid} : AccsFrom r (s.fileLoose bid tid) := by
  fun_cases State.fileLoose s bid tid
  case case1 => exact h.file
  case case2 | case3 => exact h

theorem contextFault {ag cause regs} : AccsFrom r (s.contextFault ag cause regs) := by
  fun_cases State.contextFault s ag cause regs
  case case1 => exact h
  case case2 => exact (AccsFrom.stopGrid (h.rest)).rest

theorem trapThread {bid tid cause info addr pc word after} : AccsFrom r (s.trapThread bid tid cause info addr pc word after) := by
  fun_cases State.trapThread s bid tid cause info addr pc word after
  case case1 | case5 => exact h
  case case2 | case3 => exact .contextFault (h.rest)
  case case4 => exact .fileLoose (h.rest)

/-! ### Responses to faults (R315) -/

theorem retryReturned {ag} : AccsFrom r (s.retryReturned ag) := by
  refine h.map (fun x => ?_) rfl
  split
  · exact ⟨rfl, id⟩
  · exact .refl x

theorem resume {a} : AccsFrom r (s.resume a) := by
  fun_cases State.resume s a
  case case1 => exact .file (h.retryReturned.rest)
  case case2 | case3 => exact h.retryReturned
  case case4 => exact h.retryReturned.rest
  all_goals exact h.rest

theorem endReturned {ag} : AccsFrom r (s.endReturned ag) := by
  unfold State.endReturned
  refine .updCtx ?_
  exact h.filter _ rfl

theorem creditLanded {b matrix c k} : AccsFrom r (s.creditLanded core b matrix c k) := by
  fun_cases State.creditLanded s core b matrix c k <;> exact h.rest

theorem changeOut {f phs} : AccsFrom r (s.changeOut f phs) :=
  h.foldl (fun _ _ hu => by split <;> exact hu.rest) _

theorem stopQueue {b matrix id inner va} : AccsFrom r (s.stopQueue core b matrix id inner va) :=
  .same (AccsFrom.foldl (.ite (h.rest) (AccsFrom.foldl (h.rest) (fun _ _ hu => hu.creditLanded) _)) (fun _ _ hu => hu.changeOut) _) rfl

theorem killAgent {e} : AccsFrom r (s.killAgent e) := by
  fun_cases State.killAgent s e
  case case1 => exact h.endReturned.trapThread
  case case2 | case3 => exact h.endReturned
  case case4 => exact h.endReturned.rest
  case case5 | case7 => exact h.stopQueue
  case case6 | case8 | case10 => exact h
  case case9 => exact h.rest

theorem fsqRespond {d seq action} : AccsFrom r (s.fsqRespond d seq action) := by
  fun_cases State.fsqRespond s d seq action
  case case1 | case4 => exact h
  case case2 => exact .resume (h.rest)
  case case3 => exact .killAgent (h.rest)

theorem mmioWrite {d off bs} : AccsFrom r (s.mmioWrite d off bs) := by
  fun_cases State.mmioWrite s d off bs
  case case1 | case2 | case3 => exact h.rest
  case case4 => exact h.fsqRespond
  case case5 => exact h

/-! ### Stores that only their own block sees (R273, R274) -/

theorem performSeen {a} : AccsFrom r (s.performSeen a) := by
  fun_cases State.performSeen s a
  case case1 => exact h.filter _ rfl
  case case2 => exact h

theorem settleSeen {mine l n} : AccsFrom r (s.settleSeen mine l n) := h.foldl (fun _ _ hu => hu.performSeen) _

theorem drainSeen {bid} : AccsFrom r (s.drainSeen bid) := h.foldl (fun _ _ hu => hu.performSeen) _

theorem showBlock {a} : AccsFrom r (s.showBlock a) := by
  refine h.settleSeen.map (fun x => ?_) rfl
  split
  · exact ⟨rfl, fun _ => rfl⟩
  · exact .refl x

theorem showFor {bid l n} : AccsFrom r (s.showFor bid l n) := by
  fun_cases State.showFor s bid l n
  refine h.foldl (fun u a hu => ?_) _
  split
  · exact .ite (.showBlock hu.rest) hu.rest
  · exact hu

/-! ### Performing one access -/

theorem constBytes {ag l n} : AccsFrom r (s.constBytes ag l n).2 := by
  fun_induction State.constBytes s ag l n
  case case1 => exact h
  case case2 ih => exact .of_snd ‹_› (AccsFrom.pick (.of_snd ‹_› ih))

theorem hostBytes {latest since view l n} : AccsFrom r (s.hostBytes latest since view l n).2.2 := by
  fun_cases State.hostBytes s latest since view l n
  case case1 hpick => exact .rdmaRead (.of_snd hpick h.pick)

theorem hostLoad {ags latest l n} : AccsFrom r (s.hostLoad ags latest l n).2 := by
  fun_cases State.hostLoad s ags latest l n
  case case1 hbytes => exact .foldl (.of_snd_snd hbytes h.hostBytes) (fun _ _ hu => hu.updCtx) _

theorem loadBytes {a} : AccsFrom r (s.loadBytes a).2 := by
  fun_cases State.loadBytes s a
  case case1 => exact h
  case case2 => exact .of_snd ‹_› h.choose
  case case3 => exact h.rdmaRead.constBytes
  case case4 => exact h.hostLoad
  case case5 => exact h.showFor

theorem finish {a bs} : AccsFrom r (s.finish a bs) := by
  unfold State.finish
  refine .updCtx ?_
  exact h.filter _ rfl

end AccsFrom

/-- An access of this number is no longer outstanding. -/
def State.Gone (s : State) (i : Nat) : Prop := ∀ x ∈ s.accs, x.id ≠ i

theorem AccsFrom.gone {s t : State} (h : AccsFrom s t) {i : Nat} (hs : s.Gone i) : t.Gone i := by
  intro x hx
  obtain ⟨y, hy, hyx⟩ := h.origin x hx
  rw [hyx.id_eq]
  exact hs y hy

theorem State.gone_of_filter {s t : State} {i : Nat} (e : t.accs = s.accs.filter fun x => x.id != i) : t.Gone i := by
  intro x hx
  rw [e, List.mem_filter] at hx
  exact bne_iff_ne.1 hx.2

theorem State.finish_gone (s : State) (a : Access) (bs : List Byte) : (s.finish a bs).Gone a.id := by
  unfold State.finish
  exact AccsFrom.gone (.updCtx (.refl _)) (State.gone_of_filter (s := s) rfl)

/-- The accesses that one load binds end together (R96), the load among them. -/
theorem State.finishMates_gone {s u : State} (hn : s.Numbered) {a : Access} (ha : a ∈ s.accs) (h : AccsFrom s u) (bs : List Byte) :
    ((u.mates a).foldl (fun s m => s.finish m bs) u).Gone a.id := by
  have hfold : ∀ (ms : List Access) (v : State), (∃ m ∈ ms, m.id = a.id) ∨ v.Gone a.id →
      (ms.foldl (fun s m => s.finish m bs) v).Gone a.id := by
    intro ms
    induction ms with
    | nil =>
      rintro v (⟨m, hm, -⟩ | hv)
      · cases hm
      · exact hv
    | cons m ms ih =>
      rintro v (⟨x, hx, hid⟩ | hv)
      · obtain rfl | hx := List.mem_cons.1 hx
        · exact ih _ (.inr (hid ▸ v.finish_gone x bs))
        · exact ih _ (.inl ⟨x, hx, hid⟩)
      · exact ih _ (.inr ((AccsFrom.refl v).finish.gone hv))
  apply hfold
  by_cases hgone : u.Gone a.id
  · exact .inr hgone
  · refine .inl ?_
    obtain ⟨x, hx, hid⟩ : ∃ x ∈ u.accs, x.id = a.id := by simpa [State.Gone] using hgone
    obtain ⟨y, hy, hyx⟩ := h.origin x hx
    obtain rfl : y = a := hn.eq hy ha (hyx.id_eq.symm.trans hid)
    obtain ⟨hgroup, hloc, hwidth⟩ := hyx.mates_eq
    unfold State.mates
    split
    · exact ⟨y, by simp, rfl⟩
    · exact ⟨x, List.mem_filter.2 ⟨hx, by simp [*]⟩, hid⟩

/-- Performing an access ends it, and lets none join. -/
theorem State.performNow_ends {s : State} (hn : s.Numbered) {a : Access} (ha : a ∈ s.accs) :
    AccsFrom s (s.performNow a) ∧ (s.performNow a).Gone a.id := by
  have hbefore : AccsFrom s (if a.isLoad then s else s.settleSeen (s.beforeStore a) a.loc a.width) :=
    .ite (.refl s) (.settleSeen (.refl s))
  fun_cases State.performNow s a
  case case1 | case7 =>
    exact ⟨.payloadError (hbefore.filter _ rfl), AccsFrom.gone (.payloadError (.refl _)) (State.gone_of_filter rfl)⟩
  case case2 hload =>
    have hbytes := AccsFrom.of_snd hload (.loadBytes hbefore)
    exact ⟨hbytes.foldl (fun _ _ hu => hu.finish) _, State.finishMates_gone hn ha hbytes _⟩
  case case3 =>
    exact ⟨.mmioWrite (hbefore.filter _ rfl), AccsFrom.gone (.mmioWrite (.refl _)) (State.gone_of_filter rfl)⟩
  case case4 => exact ⟨hbefore.filter _ rfl, State.gone_of_filter rfl⟩
  case case5 =>
    exact ⟨.updCtx (.storeAt (.cacheStore (hbefore.filter _ rfl))),
      AccsFrom.gone (.updCtx (.storeAt (.cacheStore (.refl _)))) (State.gone_of_filter rfl)⟩
  case case6 =>
    exact ⟨.storeAt (.cacheStore (hbefore.filter _ rfl)), AccsFrom.gone (.storeAt (.cacheStore (.refl _))) (State.gone_of_filter rfl)⟩
  case case8 happly =>
    refine ⟨.finish ?_, State.finish_gone _ a _⟩
    dsimp only [happly]
    split
    · exact hbefore.cacheStore.writeLoc
    · exact hbefore

end Sys2Proof.Machine
end

section
/-! What acquires, releases and fences make complete (R118, R275, R276): performing everything that is named, with what has to go
before it, leaves nothing of it. -/

namespace Sys2Proof.Machine

/-! ### Everything that is named -/

theorem mem_insertBy {α : Type} (key : α → Nat) (x y : α) (xs : List α) : y ∈ insertBy key x xs ↔ y = x ∨ y ∈ xs := by
  induction xs with
  | nil => simp [insertBy]
  | cons z zs ih =>
    unfold insertBy
    split
    · simp
    · simp [ih, or_left_comm]

theorem mem_sortBy {α : Type} (key : α → Nat) (y : α) (xs : List α) : y ∈ sortBy key xs ↔ y ∈ xs := by
  have hfold : ∀ acc : List α, y ∈ xs.foldl (fun acc x => insertBy key x acc) acc ↔ y ∈ xs ∨ y ∈ acc := by
    induction xs with
    | nil => simp
    | cons x xs ih =>
      intro acc
      rw [List.foldl_cons, ih, mem_insertBy, List.mem_cons]
      tauto
  simpa [sortBy] using hfold []

/-- What has been found to be performed when the access `x` is looked at, the latest first. -/
def State.need (s : State) (want : Access → Bool) (need : List Access) (x : Access) : List Access :=
  if need.contains x then need
  else if want x || need.any (fun y => s.precedes x y) then need ++ (x :: (s.mates x).filter fun m => m.id != x.id && !need.contains m)
  else need

theorem State.closure_eq (s : State) (want : Access → Bool) :
    s.closure want = sortBy (fun a : Access => a.id) (s.latestFirst.foldl (s.need want) []) := rfl

theorem State.subset_need (s : State) (want : Access → Bool) (xs : List Access) (x : Access) : xs ⊆ s.need want xs x := by
  unfold State.need
  split
  · exact List.Subset.refl xs
  · split
    · exact List.subset_append_left xs _
    · exact List.Subset.refl xs

theorem State.mem_need (s : State) {want : Access → Bool} (xs : List Access) {x : Access} (hx : want x = true) : x ∈ s.need want xs x := by
  unfold State.need
  split
  · rename_i h
    simpa using h
  · simp [hx]

/-- Every outstanding access that is named is in the closure. -/
theorem State.mem_closure {s : State} {want : Access → Bool} {x : Access} (hx : x ∈ s.accs) (hwant : want x = true) : x ∈ s.closure want := by
  have hfold : ∀ (l xs : List Access), x ∈ xs ∨ x ∈ l → x ∈ l.foldl (s.need want) xs := by
    intro l
    induction l with
    | nil => simp
    | cons y l ih =>
      intro xs h
      refine ih _ ?_
      rcases h with h | h
      · exact .inl (s.subset_need want xs y h)
      · rcases List.mem_cons.1 h with rfl | h
        · exact .inl (s.mem_need xs hwant)
        · exact .inr h
  rw [State.closure_eq, mem_sortBy]
  exact hfold _ [] (.inr (by simpa [State.latestFirst, mem_sortBy] using hx))

/-! ### Performed one by one -/

/-- A function of the outstanding access that has this one's number, if there is one. -/
def State.atAccess (g : State → Access → State) (s : State) (a : Access) : State :=
  match s.access? a.id with
  | some x => g s x
  | none => s

/-- What `g` brings about for its access, it brings about for every access of a list. -/
theorem State.foldl_atAccess {g : State → Access → State} {P : Access → Prop} (hP : ∀ {x y : Access}, y.Remains x → P y → P x)
    (hg : ∀ {u : State} {x : Access}, u.Numbered → x ∈ u.accs → AccsFrom u (g u x) ∧ ∀ y ∈ (g u x).accs, y.id = x.id → P y)
    {s : State} (hn : s.Numbered) (as : List Access) : AccsFrom s (as.foldl (State.atAccess g) s) ∧
      ∀ a ∈ as, ∀ y ∈ (as.foldl (State.atAccess g) s).accs, y.id = a.id → P y := by
  induction as generalizing s with
  | nil => exact ⟨.refl s, by simp⟩
  | cons a as ih =>
    have hstep : AccsFrom s (State.atAccess g s a) ∧ ∀ y ∈ (State.atAccess g s a).accs, y.id = a.id → P y := by
      unfold State.atAccess
      split
      case h_1 x hx =>
        have hid : x.id = a.id := by simpa using List.find?_some hx
        rw [← hid]
        exact hg hn (List.mem_of_find?_eq_some hx)
      case h_2 hx =>
        exact ⟨.refl s, fun y hy hid => absurd hid (by simpa using List.find?_eq_none.1 hx y hy)⟩
    obtain ⟨hfrom, hall⟩ := ih (hstep.1.numbered hn)
    refine ⟨hstep.1.trans hfrom, fun b hb y hy hid => ?_⟩
    rcases List.mem_cons.1 hb with rfl | hb
    · obtain ⟨z, hz, hzy⟩ := hfrom.origin y hy
      exact hP hzy (hstep.2 z hz (hzy.id_eq.symm.trans hid))
    · exact hall b hb y hy hid

/-- The accesses that are named have been performed. -/
theorem State.force_ends {s : State} (hn : s.Numbered) {want : Access → Bool} (hwant : ∀ {x y : Access}, y.Remains x → want x = want y) :
    AccsFrom s (s.force want) ∧ ∀ x ∈ (s.force want).accs, want x = false := by
  obtain ⟨hfrom, hgone⟩ := State.foldl_atAccess (g := State.performNow) (P := fun _ => False) (fun _ => id)
    (fun hu hx => ⟨(State.performNow_ends hu hx).1, fun y hy hid => (State.performNow_ends hu hx).2 y hy hid⟩) hn (s.closure want)
  refine ⟨hfrom, fun x hx => ?_⟩
  obtain ⟨y, hy, hyx⟩ := hfrom.origin x hx
  rw [hwant hyx, Bool.eq_false_iff]
  exact fun hyes => hgone y (State.mem_closure hy hyes) x hx hyx.id_eq

/-! ### Releases -/

/-- At blk, a store to wafer memory is performed for its block, every other access globally. -/
def State.showOrPerform (s : State) (x : Access) : State := if x.isStore && x.home == .wafer then s.showBlock x else s.performNow x

/-- A store that its block already sees. -/
def Access.Shown (x : Access) : Prop := x.isStore = true ∧ x.seen.isSome = true

theorem State.showBlock_shows {s : State} (hn : s.Numbered) {x : Access} (hx : x ∈ s.accs) (hstore : x.isStore = true) :
    ∀ y ∈ (s.showBlock x).accs, y.id = x.id → y.Shown := by
  intro y hy hid
  obtain ⟨z, hz, hzy⟩ := (AccsFrom.refl s).showBlock.origin y hy
  obtain rfl : z = x := hn.eq hz hx (hzy.id_eq.symm.trans hid)
  refine ⟨hzy.isStore_eq.trans hstore, ?_⟩
  obtain ⟨w, -, rfl⟩ := List.mem_map.1 hy
  by_cases hw : w.id = z.id ∧ w.seen = none
  · simp [hw]
  · rw [if_neg hw] at hid ⊢
    exact Option.ne_none_iff_isSome.1 fun hnone => hw ⟨hid, hnone⟩

theorem State.showOrPerform_shows {s : State} (hn : s.Numbered) {x : Access} (hx : x ∈ s.accs) :
    AccsFrom s (s.showOrPerform x) ∧ ∀ y ∈ (s.showOrPerform x).accs, y.id = x.id → y.Shown := by
  unfold State.showOrPerform
  split
  case isTrue hstore =>
    exact ⟨(AccsFrom.refl s).showBlock, State.showBlock_shows hn hx (Bool.and_eq_true_iff.1 hstore).1⟩
  case isFalse =>
    obtain ⟨hfrom, hgone⟩ := State.performNow_ends hn hx
    exact ⟨hfrom, fun y hy hid => absurd hid (hgone y hy)⟩

/-- What a release at a scope leaves outstanding, of the accesses that it covers. -/
theorem State.drainRelease_ends {s : State} (hn : s.Numbered) (ag : Agent) (sc : Scope) : AccsFrom s (s.drainRelease ag sc) ∧
    ∀ x ∈ (s.drainRelease ag sc).accs, releases ag sc x = true → sc = .blk ∧ x.Shown := by
  have hctx : AccsFrom s (s.updCtx (fun c => { c with lent := [] }) ag) := (AccsFrom.refl s).updCtx
  have hn' := hctx.numbered hn
  fun_cases State.drainRelease s ag sc
  case case1 hblk =>
    obtain ⟨hfrom, hshown⟩ := State.foldl_atAccess (g := State.showOrPerform) (P := Access.Shown)
      (fun hyx hy => ⟨hyx.isStore_eq.trans hy.1, hyx.2 hy.2⟩) (fun hu hx => State.showOrPerform_shows hu hx) hn'
      ((s.updCtx (fun c => { c with lent := [] }) ag).closure (releases ag sc))
    refine ⟨hctx.trans hfrom, fun x hx hrel => ⟨hblk, ?_⟩⟩
    obtain ⟨y, hy, hyx⟩ := hfrom.origin x hx
    rw [hyx.releases_eq] at hrel
    exact hshown y (State.mem_closure hy hrel) x hx hyx.id_eq
  case case2 =>
    have hseen := hctx.drainSeen (bid := (s.updCtx (fun c => { c with lent := [] }) ag).bidOf ag)
    obtain ⟨hfrom, hgone⟩ := State.force_ends (hseen.numbered hn) (want := releases ag sc) fun hyx => hyx.releases_eq ag sc
    exact ⟨hseen.trans hfrom, fun x hx hrel => absurd hrel (Bool.eq_false_iff.1 (hgone x hx))⟩

theorem AccsFrom.acquireSys {r s : State} (h : AccsFrom r s) {ag sc} : AccsFrom r (s.acquireSys ag sc) := h.updCtx.ite h

/-! ### Translation -/

namespace AccsFrom

variable {r s : State} (h : AccsFrom r s)
include h

theorem walkEnds {sp x} : AccsFrom r (s.walkEnds sp x).2 := by
  fun_cases State.walkEnds s sp x
  case case1 => exact h.payloadError
  case case2 => exact h

theorem adUpdate {e kind} : AccsFrom r (s.adUpdate e kind).2 := by
  fun_cases State.adUpdate s e kind
  case case1 => exact h.cacheStore.storePhys
  case case2 => exact h

theorem walkBy {sp kind ad va start} : AccsFrom r (s.walkBy sp kind ad va start).2 := by
  fun_cases State.walkBy s sp kind ad va start
  case case1 => exact .walkEnds h.rest
  case case2 => exact h.adUpdate.rest
  case case3 | case4 => exact h.rest

theorem choiceAmong {c : Prop} [Decidable c] {n m k : Nat} {t : State} (hc : (if c then (n, s) else s.choose m) = (k, t)) : AccsFrom r t := by
  split at hc <;> (cases hc; exact h.rest)

theorem newWalk {sp kind ad va} : AccsFrom r (s.newWalk sp kind ad va).2 := by
  fun_cases State.newWalk s sp kind ad va
  case case1 hchoice => exact .walkBy (h.drainSeen.choiceAmong hchoice)

theorem lookupBy {sp kind ad va held} : AccsFrom r (s.lookupBy sp kind ad va held).2 := by
  fun_cases State.lookupBy s sp kind ad va held
  case case1 | case5 => exact h
  case case2 => exact h.walkEnds
  case case3 hset _ => exact .rest (.of_snd hset h.adUpdate)
  case case4 hset => exact .newWalk (.of_snd hset h.adUpdate)
  case case6 => exact h.newWalk

theorem lookup {sp kind ad va} : AccsFrom r (s.lookup sp kind ad va).2 := by
  fun_cases State.lookup s sp kind ad va
  case case1 hchoice => exact .lookupBy (.choiceAmong (s := s.updCore _ _) h.rest hchoice)

theorem translate {sp kind ad va} : AccsFrom r (s.translate sp kind ad va).2 := by
  have hlookup := h.lookup (sp := sp) (kind := kind) (ad := ad) (va := va)
  fun_cases State.translate s sp kind ad va
  case case1 hleaf _ => exact .payloadError (.of_snd hleaf hlookup)
  case case2 hleaf _ => exact .of_snd hleaf hlookup
  case case3 => exact hlookup

omit h in
/-- The translation of an access that is admitted. -/
theorem of_admitted {u : State} {ag : Agent} {kind : AccKind} {va : DWord} {w : Nat} {x : Loc × Home × TlbEntry}
    (hadm : s.admitted ag kind va w = (some x, u)) : AccsFrom s u := by
  have htranslate := (AccsFrom.refl s).translate (sp := s.spaceOf ag) (kind := kind) (ad := true) (va := va.toNat)
  revert hadm
  fun_cases State.admitted s ag kind va w
  case case8 hleaf loc home _ =>
    rintro ⟨⟩
    exact .of_snd hleaf htranslate
  all_goals nofun

end AccsFrom

end Sys2Proof.Machine
end

section
/-! FENCE and ST.REL of a ready agent alone in its step (R175, R276), and their scopes. -/

namespace Sys2Proof.Machine

theorem State.collect_numbered {s : State} (h : s.Numbered) (need : Nat) : (s.collect need).Numbered :=
  ((AccsFrom.refl s).body (s.collect_sameBody need)).numbered h

theorem scopeBad_none {e : BitVec 3} {sc : Scope} (h : scopeOf e = some sc) : scopeBad e = none := by
  simp [scopeBad, h]

theorem scopeOf_none {e : BitVec 3} (h : 4 < e.toNat) : scopeOf e = none := by
  revert e
  decide

theorem scopeOf_isSome {e : BitVec 3} (h : e.toNat ≤ 4) : ∃ sc, scopeOf e = some sc := by
  rw [← Option.isSome_iff_exists]
  revert e
  decide

/-- The instruction of an agent that is ready, alone in its step, where no privilege is asked for. -/
theorem State.runGroup_own {s : State} {o : Op} {body : State → Agent → List VReg → State} {ag : Agent} (ha : s.issue.agents = [ag])
    (hr : s.Ready o.who o.srcs o.dsts ag) (hbad : o.bad = none) (hpriv : o.priv = false) :
    s.runGroup o noFixed body = body (s.collect o.grants) ag (s.sources ag o.srcs) :=
  State.runGroup_alone ha hr hbad rfl fun h => absurd (hpriv.symm.trans h) (by decide)

/-! ### FENCE -/

/-- What a fence does with the state that it finds, once nothing holds it. -/
def State.fenced (s : State) (ag : Agent) (sc : Scope) (acq rel : Bool) : State :=
  let s := if acq then (s.drainLoads ag sc).acquireSys ag sc else s
  if rel then s.drainRelease ag sc else s

/-- Something holds back an access that the fence orders, or an earlier register write (R118, R325, R398). -/
def State.fenceHeld (s : State) (ag : Agent) (sc : Scope) (acq rel : Bool) : Bool :=
  rel && !s.releaseReady ag sc || acq && !s.forceable (acquires ag sc)

/-- A fence of a covered access of the agent. -/
theorem releases_iff {ag : Agent} {sc : Scope} {x : Access} : releases ag sc x = true ↔ x.agent = ag ∧ coveredAt sc x = true := by
  simp [releases]

section
variable {s : State} {ag : Agent} {sc : Scope} {acq rel : Bool}

/-- After an acquire no covered load or atomic is outstanding. -/
theorem State.fenced_acquires (hn : s.Numbered) (hacq : acq = true) :
    ∀ x ∈ (s.fenced ag sc acq rel).accs, acquires ag sc x = false := by
  subst hacq
  have hforce := State.force_ends hn fun hyx => hyx.acquires_eq ag sc
  have hall : ∀ x ∈ ((s.drainLoads ag sc).acquireSys ag sc).accs, acquires ag sc x = false := by
    have : ((s.drainLoads ag sc).acquireSys ag sc).accs = (s.drainLoads ag sc).accs := by
      unfold State.acquireSys
      split
      · exact (State.updCtx_sameBody _ _ _).accs
      · rfl
    rw [this]
    exact hforce.2
  have hfrom : AccsFrom ((s.drainLoads ag sc).acquireSys ag sc) (s.fenced ag sc true rel) :=
    .ite (State.drainRelease_ends (hforce.1.acquireSys.numbered hn) ag sc).1 (.refl _)
  intro x hx
  obtain ⟨y, hy, hyx⟩ := hfrom.origin x hx
  rw [hyx.acquires_eq, hall y hy]

/-- After a release at blk the covered accesses left are stores that the block sees; at the wider scopes none is left. -/
theorem State.fenced_releases (hn : s.Numbered) (hrel : rel = true) :
    ∀ x ∈ (s.fenced ag sc acq rel).accs, releases ag sc x = true → sc = .blk ∧ x.Shown := by
  subst hrel
  have hacq : AccsFrom s (if acq then (s.drainLoads ag sc).acquireSys ag sc else s) :=
    .ite (State.force_ends hn fun hyx => hyx.acquires_eq ag sc).1.acquireSys (.refl s)
  exact (State.drainRelease_ends (hacq.numbered hn) ag sc).2

/-- A fence of an agent alone in its step. -/
theorem State.fence_alone {e n : BitVec 3} (ha : s.issue.agents = [ag]) (hr : s.Ready .both [] [] ag) (hsc : scopeOf e = some sc) :
    s.fence acq rel e n = (if (s.collect 0).fenceHeld ag sc acq rel then s.collect 0
      else ((s.collect 0).fenced ag sc acq rel).advance ag n).frameRules := by
  unfold State.fence State.runUniform
  rw [State.runGroup_own (o := { n := n, bad := scopeBad e }) ha hr (scopeBad_none hsc) rfl]
  simp only [hsc]
  rfl

/-- A fence that something holds changes nothing and waits. -/
theorem State.fence_waits {e n : BitVec 3} (ha : s.issue.agents = [ag]) (hr : s.Ready .both [] [] ag) (hsc : scopeOf e = some sc)
    (hheld : (s.collect 0).fenceHeld ag sc acq rel = true) : SameBody s (s.fence acq rel e n) ∧ ∀ x, SameAgent s (s.fence acq rel e n) x := by
  rw [State.fence_alone ha hr hsc, if_pos hheld]
  have hframes := (s.collect 0).frameRules_framesOnly
  exact ⟨(s.collect_sameBody 0).trans hframes.body, fun x => (s.collect_sameAgent 0 x).trans (hframes.agents x)⟩

/-- A state after which the agent goes on, where it is still there. -/
theorem State.advance_eligible {u t : State} (h : FramesOnly (u.advance ag n) t) (hp : t.present ag) :
    (t.ctx ag).ready = t.issue.now + 1 + n.toNat := by
  have hu : u.present ag := (u.goto_present ag ag n _).1 ((h.body.present ag).1 hp)
  have hctx : (u.advance ag n).ctx ag = _ := u.goto_ctx hu n _
  rw [(h.agents ag).1, h.issue, hctx, State.advance, State.goto_issue]

/-- A fence that nothing holds leaves the accesses that its acquire and its release leave, and the agent goes on. -/
theorem State.fence_goes {e n : BitVec 3} (ha : s.issue.agents = [ag]) (hr : s.Ready .both [] [] ag) (hsc : scopeOf e = some sc)
    (hheld : (s.collect 0).fenceHeld ag sc acq rel = false) :
    ((s.fence acq rel e n).present ag → ((s.fence acq rel e n).ctx ag).ready = (s.fence acq rel e n).issue.now + 1 + n.toNat) ∧
      (s.fence acq rel e n).accs = ((s.collect 0).fenced ag sc acq rel).accs := by
  rw [State.fence_alone ha hr hsc, if_neg (Bool.eq_false_iff.1 hheld)]
  have hframes := (((s.collect 0).fenced ag sc acq rel).advance ag n).frameRules_framesOnly
  exact ⟨State.advance_eligible hframes, hframes.body.accs.trans (State.advance_sameBody _ ag n).accs⟩

end

/-! ### ST.REL -/

theorem addrSrcs_eq (a : BitVec 6) : addrSrcs a = [vSrc a 5 .int64, vSrc (a + 1) 5 .int64] := by
  simp [addrSrcs, vSrcs, vGroup_two]

theorem pairBad_none {a : BitVec 6} (h : a.toNat % 2 = 0) : groupBad [(a.toNat, 2)] = none := groupBad_eq_none (by simp [h])

/-- A store of a word is accepted behind the accesses there are. -/
theorem State.acceptStore_word (s : State) {a : Access} (hw : a.width = 4) (data : List Byte) :
    ∃ new : Access, new.what = (a.agent, a.loc, 4, .store (data.take 4)) ∧ s.acceptStore a data = s.joined [new] := by
  obtain ⟨new, hwhat, hjoined⟩ := s.acceptStore_eq_joined a data
  simp only [hw, partsOf] at hwhat
  obtain ⟨x, rfl⟩ : ∃ x, new = [x] := List.length_eq_one_iff.1 (by simpa using congrArg List.length hwhat)
  exact ⟨x, by simpa using hwhat, hjoined⟩

/-- ST.REL of an agent alone in its step, whose address is accepted: the release, then the store. -/
theorem stRel_goes {s u : State} {d a : BitVec 6} {e n : BitVec 3} {ag : Agent} {sc : Scope} {loc : Loc} {home : Home} {l : TlbEntry}
    (ha : s.issue.agents = [ag]) (hpair : a.toNat % 2 = 0) (hn : s.Numbered)
    (hr : s.Ready .thread (addrSrcs a ++ [vSrc d 3 .any]) [] ag) (hsc : scopeOf e = some sc)
    (hready : (s.collect 3).releaseReady ag sc = true)
    (hadm : (s.collect 3).admitted ag .write ((s.readReg ag (.v (a + 1))).val ++ (s.readReg ag (.v a)).val) 4 = (some (loc, home, l), u)) :
    ∃ t old new, exec (.stRelB32 d a e n) s = .next t ∧ t.accs = old ++ [new] ∧
      new.what = (ag, loc, 4, .store ((List.range 4).map fun j => (s.readReg ag (.v d)).val.extractLsb' (8 * j) 8)) ∧
      (∀ x ∈ old, releases ag sc x = true → sc = .blk ∧ x.Shown) ∧
      (t.present ag → (t.ctx ag).ready = t.issue.now + 1 + n.toNat) := by
  have hu : u.Numbered := (AccsFrom.of_admitted hadm).numbered (State.collect_numbered hn 3)
  let v := u.drainRelease ag sc
  let vs := s.sources ag (addrSrcs a ++ [vSrc d 3 .any])
  obtain ⟨new, hwhat, hjoined⟩ := v.acceptStore_word
    (a := accessOf ag (u.coreOf ag) loc 4 (.store []) ((s.readReg ag (.v (a + 1))).val ++ (s.readReg ag (.v a)).val).toNat home (some l))
    rfl (storeBytes 4 (vs.drop 2))
  have hdata : (storeBytes 4 (vs.drop 2)).take 4 = (List.range 4).map fun j => (s.readReg ag (.v d)).val.extractLsb' (8 * j) 8 := by
    have hvs : vs.drop 2 = [s.readReg ag (.v d)] := by simp [vs, addrSrcs_eq, State.sources, vSrc]
    rw [hvs, storeBytes_all (by simp), List.flatMap_singleton, List.take_of_length_le (by simp)]
  refine ⟨(v.joined [new]).advance ag n, v.accs, new, ?_, (State.advance_sameBody _ ag n).accs, hdata ▸ hwhat,
    (State.drainRelease_ends hu ag sc).2, State.advance_eligible (.refl _)⟩
  have hva : pairAt vs 0 = (s.readReg ag (.v (a + 1))).val ++ (s.readReg ag (.v a)).val := by
    simp only [vs, addrSrcs_eq]
    rfl
  let o : Op := { n := n, srcs := addrSrcs a ++ [vSrc d 3 .any], bad := worse (groupBad [(a.toNat, 2)]) (scopeBad e), who := .thread }
  have hgrants : o.grants = 3 := rfl
  refine (congrArg Host.Outcome.next (State.runGroup_own (o := o) ha hr (by simp [o, pairBad_none hpair, scopeBad_none hsc, worse])
    rfl)).trans (congrArg Host.Outcome.next ?_)
  have hvs : s.sources ag o.srcs = vs := rfl
  simp only [hsc, hgrants, hready, hvs, hva, hadm]
  exact congrArg (State.advance · ag n) hjoined

/-! ### A scope of 5 to 7 -/

/-- A word of a lane that is ILLEGAL by itself, in a thread alone in its step that takes traps. -/
theorem State.runGroup_illegal {s : State} {bid tid : Nat} {o : Op} {body : State → Agent → List VReg → State} {r : Nat}
    (ha : s.issue.agents = [.thread bid tid]) (ht : s.TrapsOn bid tid) (hr : o.reason (.thread bid tid) false = some r) :
    EntersHandler s (s.runGroup o noFixed body) bid tid .illegal (BitVec.ofNat 32 r) 0 := by
  have hrun : s.runGroup o noFixed body = (s.collect o.grants).trap (.thread bid tid) .illegal (BitVec.ofNat 32 r) 0 := by
    simp only [State.runGroup, State.runGroupWith, State.collect_agents, ha, List.foldl_cons, List.foldl_nil, State.runAgent,
      State.prepare, noFixed, hr, State.illegal]
  rw [hrun]
  exact EntersHandler.frames (s.collect_sameBody _) (s.collect_sameAgent _) (fun _ _ => s.collect_thread? ..) (s.collect_blocks _)
    (State.trap_enters (ht.collect _) _ _ _) (.refl _)

theorem scope_illegal {s : State} {bid tid : Nat} {d a : BitVec 6} {e n : BitVec 3} (ha : s.issue.agents = [.thread bid tid])
    (ht : s.TrapsOn bid tid) (hpair : a.toNat % 2 = 0) (he : 4 < e.toNat) :
    ∀ i ∈ [Instr.ldAcqB32 d a e n, .stRelB32 d a e n, .fenceAcq e n, .fenceRel e n, .fenceAr e n],
      ∃ t, exec i s = .next t ∧ EntersHandler s t bid tid .illegal 5 0 := by
  have hbad : scopeBad e = some 5 := by simp [scopeBad, scopeOf_none he]
  have hworse : worse (groupBad [(a.toNat, 2)]) (scopeBad e) = some 5 := by rw [pairBad_none hpair, hbad, worse]
  simp only [List.forall_mem_cons]
  refine ⟨⟨_, rfl, ?_⟩, ⟨_, rfl, ?_⟩, ⟨_, rfl, ?_⟩, ⟨_, rfl, ?_⟩, ⟨_, rfl, ?_⟩, nofun⟩
  · exact State.runGroup_illegal ha ht (by simp [Op.reason, hworse])
  · exact State.runGroup_illegal ha ht (by simp [Op.reason, hworse])
  · exact State.runUniform_illegal ha ht (by simp [Op.reason, hbad])
  · exact State.runUniform_illegal ha ht (by simp [Op.reason, hbad])
  · exact State.runUniform_illegal ha ht (by simp [Op.reason, hbad])

end Sys2Proof.Machine
end

section
/-! LD.ACQ of a ready agent alone in its step: the load is the only access that has to be performed, and binds what memory holds
(R175, R275). -/

namespace Sys2Proof.Machine

/-! ### Where bytes lie, and what holds a request -/

/-- Every byte lies where it lay and holds what it held, what held a request holds it still, and every agent is of its block:
contexts and registers, outstanding accesses and cached lines may differ. -/
structure SameMap (s t : State) : Prop where
  rest : { t with cores := s.cores, doms := s.doms, blocks := s.blocks, accs := s.accs, issue := s.issue, nextId := s.nextId, freeIdx := s.freeIdx } = s
  ways : ∀ d, (t.dom d).sways = (s.dom d).sways
  scratch : ∀ k, (t.core k).scratch = (s.core k).scratch
  bids : ∀ ag, t.bidOf ag = s.bidOf ag

namespace SameMap

theorem trans {s t u : State} (a : SameMap s t) (b : SameMap t u) : SameMap s u where
  rest := (congrArg (fun x : State => { x with
    cores := s.cores, doms := s.doms, blocks := s.blocks, accs := s.accs, issue := s.issue, nextId := s.nextId, freeIdx := s.freeIdx })
    b.rest).trans a.rest
  ways d := (b.ways d).trans (a.ways d)
  scratch k := (b.scratch k).trans (a.scratch k)
  bids ag := (b.bids ag).trans (a.bids ag)

theorem of_body {s t : State} (h : SameBody s t) : SameMap s t where
  rest := congrArg (fun x : State => { x with doms := s.doms, accs := s.accs }) h.rest
  ways d := by
    have hdoms := congrArg State.doms h.rest
    exact congrArg (fun ds => (assocGet DomState.zero d ds).sways) hdoms
  scratch := h.scratch
  bids ag := by
    cases ag with
    | thread => rfl
    | bobbin core b =>
      have hbid := congrArg Bobbin.bid (h.bobbin core b)
      exact hbid

theorem joined (s : State) (new : List Access) : SameMap s (s.joined new) := ⟨rfl, fun _ => rfl, fun _ => rfl, fun ag => by cases ag <;> rfl⟩

section
variable {s t : State} (h : SameMap s t)
include h

theorem mem : t.mem = s.mem := by
  have := congrArg State.mem h.rest; exact this

theorem wafer : t.wafer = s.wafer := by
  have := congrArg State.wafer h.rest; exact this

theorem windows : t.windows = s.windows := by
  have := congrArg State.windows h.rest; exact this

theorem partitions : t.partitions = s.partitions := by
  have := congrArg State.partitions h.rest; exact this

theorem frozen : t.frozen = s.frozen := by
  have := congrArg State.frozen h.rest; exact this

theorem powers : t.powers = s.powers := by
  have := congrArg State.powers h.rest; exact this

theorem platform : t.platform = s.platform := by
  have := congrArg State.platform h.rest; exact this

theorem place (c : Nat) (rd wr : Bool) (pa : Nat) : t.place c rd wr pa = s.place c rd wr pa := by
  have hslices : t.sliceBytes = s.sliceBytes := by
    funext d slice
    rw [State.sliceBytes, State.sliceBytes, h.wafer]
  have hroute (w : Nat) : t.routeTo c w = s.routeTo c w := by rw [State.routeTo, State.routeTo, h.partitions]
  have hlost (w : Nat) : t.routeLost c w = s.routeLost c w := by rw [State.routeLost, State.routeLost, h.partitions]
  have hscratch (d : Nat) : t.domScratchBytes d = s.domScratchBytes d := by rw [State.domScratchBytes, State.domScratchBytes, h.ways]
  simp only [State.place, hroute, hlost, State.dramKey, hslices, hscratch, h.wafer, h.windows]

theorem physKey (pa : Nat) : t.physKey pa = s.physKey pa := by
  simp only [State.physKey, h.place, h.wafer]

theorem locsMeet (l : Loc) (n : Nat) (l' : Loc) (m : Nat) : t.locsMeet l n l' m = s.locsMeet l n l' m := by
  cases l <;> cases l' <;> simp only [State.locsMeet, h.physKey]

theorem locFrozen (l : Loc) (n : Nat) : t.locFrozen l n = s.locFrozen l n := by
  cases l <;> simp only [State.locFrozen, State.locInFrame, State.keyIn, h.frozen, h.physKey]

theorem domOfLoc (l : Loc) : t.domOfLoc l = s.domOfLoc l := by
  cases l <;> simp only [State.domOfLoc, h.place]

theorem crossingHeld (core id : Nat) (l : Loc) : t.crossingHeld core id l = s.crossingHeld core id l := by
  have hpower (d : Nat) : t.power d = s.power d := by rw [State.power, State.power, h.powers]
  have hpartition (d : Nat) : t.partitionAt d = s.partitionAt d := by rw [State.partitionAt, State.partitionAt, h.partitions]
  have hselvedge (d e : Nat) : t.selvedge d e = s.selvedge d e := by simp only [State.selvedge, hpartition]
  have hcut (d e : Nat) : t.cutBetween d e = s.cutBetween d e := by simp only [State.cutBetween, hselvedge]
  have hother : t.onOtherWafer l = s.onOtherWafer l := by simp only [State.onOtherWafer, h.wafer]
  simp only [State.crossingHeld, State.wayHeld, State.crossingsStop, State.cutOff, State.linksCut, h.domOfLoc, hpower, hpartition, hcut,
    hother]

theorem passes (a : Access) : t.passes a = s.passes a := by simp only [State.passes, h.locFrozen, h.crossingHeld]

theorem locPoisoned (l : Loc) (n : Nat) : t.locPoisoned l n = s.locPoisoned l n := by
  cases l <;> simp only [State.locPoisoned, State.poisoned, h.platform, h.physKey]

theorem mmioAt (l : Loc) : t.mmioAt l = s.mmioAt l := by
  cases l <;> simp only [State.mmioAt, h.place]

theorem readLoc (l : Loc) (n : Nat) : t.readLoc l n = s.readLoc l n := by
  cases l <;> simp only [State.readLoc, State.readPhys, State.readScr, h.physKey, h.mem, h.scratch]

end

/-- A store that may be performed for its block beside one more access could be so before. -/
theorem mayShow_of_append {s t : State} (h : SameMap s t) {a : Access} (haccs : t.accs = s.accs ++ [a]) (hunseen : a.seen = none)
    {bid : Nat} {x : Access} (hshow : t.mayShow bid x = true) : s.mayShow bid x = true := by
  have hprecedes (y : Access) : t.precedes y x = s.precedes y x := by simp only [State.precedes, h.locsMeet]
  have hbefore : t.beforeShow x = s.beforeShow x := by
    funext y
    simp only [State.beforeShow, h.bids]
  have hover : t.seenOver (s.beforeShow x) x.loc x.width = s.seenOver (s.beforeShow x) x.loc x.width := by
    simp [State.seenOver, haccs, h.locsMeet, List.filter_append, hunseen]
  have hfree : t.seenFree (t.beforeShow x) x.loc x.width = s.seenFree (s.beforeShow x) x.loc x.width := by
    rw [State.seenFree, State.seenFree, hbefore, hover, funext h.passes]
  simp only [State.mayShow, hfree, h.bids, hprecedes, haccs, List.all_append, Bool.and_eq_true] at hshow ⊢
  obtain ⟨hstore, hall, -⟩ := hshow
  exact ⟨hstore, hall⟩

/-! ### A load brings its line into the caches -/

theorem ways_updDom (s : State) (d : Nat) {f : DomState → DomState} (hf : ∀ x, (f x).sways = x.sways) (k : Nat) :
    ((s.updDom d f).dom k).sways = (s.dom k).sways := by
  rw [State.dom_updDom]
  split
  · exact hf _
  · rfl

theorem invalidateOthers_doms (s : State) (keep : Option Nat) (line : Nat) : (s.invalidateOthers keep line).doms = s.doms :=
  List.foldlRecOn (motive := fun t : State => t.doms = s.doms) s.cores _ rfl fun u hu c _ => by
    split
    · exact hu
    · exact hu

theorem ways_fitL2 (s : State) (d k : Nat) : ((s.fitL2 d).dom k).sways = (s.dom k).sways := by
  unfold State.fitL2
  dsimp only
  split
  · rfl
  · refine (ways_updDom _ d (fun _ => by rfl) k).trans ?_
    exact List.foldlRecOn (motive := fun t : State => (t.dom k).sways = (s.dom k).sways) _ _ rfl fun u hu y _ => by
      rw [← hu, State.dom, State.dom, invalidateOthers_doms]

theorem ways_useL2 (s : State) (d line : Nat) (dirty : Bool) (k : Nat) : ((s.useL2 d line dirty).dom k).sways = (s.dom k).sways :=
  (ways_fitL2 _ d k).trans (ways_updDom s d (fun _ => by rfl) k)

theorem cacheLoad (s : State) (core : Nat) (l : Loc) : SameMap s (s.cacheLoad core l) where
  rest := congrArg (fun x : State => { x with
    blocks := s.blocks, accs := s.accs, issue := s.issue, nextId := s.nextId, freeIdx := s.freeIdx }) (LinesOnly.cacheLoad s core l).rest
  ways d := by
    fun_cases State.cacheLoad s core l
    case case1 => exact ways_useL2 s _ _ false d
    case case2 => exact ways_useL2 s _ _ false d
    case case3 => rfl
  scratch := (LinesOnly.cacheLoad s core l).scratch
  bids ag := by
    cases ag with
    | thread => rfl
    | bobbin c b => exact congrArg Bobbin.bid ((LinesOnly.cacheLoad s core l).agents.bobbin c b)

end SameMap

/-! ### An access that alone is to be performed -/

/-- Nothing goes before the access, and it is not one of several loads. -/
structure State.Lone (s : State) (a : Access) : Prop where
  outstanding : a ∈ s.accs
  number : ∀ x ∈ s.accs, x.id = a.id → x = a
  first : ∀ x ∈ s.accs, x ≠ a → s.precedes x a = false
  single : a.group = none

namespace State.Lone

variable {s : State} {a : Access} (h : s.Lone a)
include h

theorem need_eq {x : Access} (hx : x ∈ s.accs) {xs : List Access} (hxs : xs = [] ∨ xs = [a]) :
    s.need (fun y => y.id == a.id) xs x = if x = a then [a] else xs := by
  by_cases hxa : x = a
  · subst hxa
    rcases hxs with rfl | rfl <;> simp [State.need, State.mates, h.single]
  · have hid : x.id ≠ a.id := fun e => hxa (h.number x hx e)
    rcases hxs with rfl | rfl <;> simp [State.need, hxa, hid, h.first x hx hxa]

theorem closure_eq : s.closure (fun y => y.id == a.id) = [a] := by
  have hfold : ∀ l : List Access, (∀ x ∈ l, x ∈ s.accs) → ∀ xs : List Access, xs = [] ∨ xs = [a] →
      l.foldl (s.need fun y => y.id == a.id) xs = if a ∈ l then [a] else xs := by
    intro l
    induction l with
    | nil => simp
    | cons x l ih =>
      intro hl xs hxs
      obtain ⟨hx, hl⟩ := List.forall_mem_cons.1 hl
      rw [List.foldl_cons, h.need_eq hx hxs]
      by_cases hxa : x = a
      · rw [if_pos hxa, ih hl _ (.inr rfl), ite_self, if_pos (by simp [hxa])]
      · rw [if_neg hxa, ih hl _ hxs]
        simp [Ne.symm hxa]
  have hmem : ∀ x, x ∈ s.latestFirst ↔ x ∈ s.accs := fun x => by simp [State.latestFirst, mem_sortBy]
  rw [State.closure_eq, hfold _ (fun x => (hmem x).1) [] (.inl rfl), if_pos ((hmem a).2 h.outstanding)]
  rfl

theorem access?_eq : s.access? a.id = some a := by
  obtain ⟨x, hx⟩ : ∃ x, s.access? a.id = some x := by
    rw [← Option.isSome_iff_exists, State.access?, List.find?_isSome]
    exact ⟨a, h.outstanding, by simp⟩
  rw [hx, h.number x (List.mem_of_find?_eq_some hx) (by simpa using List.find?_some hx)]

/-- It is performed at once, where nothing holds it. -/
theorem bindNow_eq (hfree : s.unheld a = true) : s.bindNow a.id = some (s.performNow a) := by
  simp only [State.bindNow, State.forceable, State.force, h.closure_eq, List.all_cons, List.all_nil, hfree, Bool.and_self, if_true,
    State.performAll, List.foldl_cons, List.foldl_nil, h.access?_eq]

end State.Lone

/-! ### What a load of memory returns -/

theorem State.showFor_eq {s : State} {bid : Nat} {l : Loc} {n : Nat}
    (h : ∀ x ∈ s.accs, s.locsMeet x.loc x.width l n = true → s.mayShow bid x = false) : s.showFor bid l n = s := by
  unfold State.showFor
  refine List.foldlRecOn (motive := fun t : State => t = s) _ _ rfl fun t ht x hx => ?_
  subst ht
  obtain ⟨hmem, hmeet⟩ := List.mem_filter.1 hx
  dsimp only
  rw [h x ((mem_sortBy _ x _).1 hmem) hmeet]
  rfl

/-- A load of plain memory of the wafer, with no store that its block sees before all others, binds what memory holds. -/
theorem State.performNow_load {s : State} {a : Access} (hload : a.work = .load) (hhome : a.home = .wafer) (hordered : a.ordered = true)
    (hgroup : a.group = none) (hwindow : a.loc.isWindow = false) (hpoison : s.locPoisoned a.loc a.width = false) (hmmio : s.mmioAt a.loc = none)
    (hseen : s.seenStores (s.bidOf a.agent) = [])
    (hshow : ∀ x ∈ s.accs, s.locsMeet x.loc x.width a.loc a.width = true → s.mayShow (s.bidOf a.agent) x = false) :
    s.performNow a = s.finish a (s.readLoc a.loc a.width) := by
  have hbytes : s.loadBytes a = (s.readLoc a.loc a.width, s) := by
    simp [State.loadBytes, hmmio, hhome, hordered, hwindow, State.showFor_eq hshow, State.readFor, hseen]
  simp [State.performNow, hload, Access.isLoad, hpoison, hbytes, State.mates, hgroup]

theorem Pend.deliver_eq {p : Pend} {i : Nat} (h : i ∉ p.accessIds) (bs : List Byte) : p.deliver i bs = p := by
  obtain ⟨pid, regs, work, born, left⟩ := p
  cases work with
  | access parts form =>
    have hparts : parts.map (fun q => if q.1 = i then (q.1, some bs) else q) = parts :=
      (List.map_congr_left fun q hq => if_neg fun e => h (List.mem_map.2 ⟨q, hq, e⟩)).trans (List.map_id parts)
    simp only [Pend.deliver, hparts]
  | _ => rfl

/-! ### The load joins and ends -/

/-- A load of a word is accepted behind the accesses there are. -/
theorem State.acceptLoad_word (s : State) {a : Access} (hw : a.width = 4) (form : LoadForm) (regs : List Reg) :
    s.acceptLoad a form regs = (s.joined [{ a with id := s.nextId, latest := a.latest || (s.ctx a.agent).hostLatest }]).addPend a.agent
      regs (.access [(s.nextId, none)] form) none := by
  obtain ⟨id, agent, core, loc, width, work, va, home, ordered, latest, seen, group, cmd, via, again⟩ := a
  obtain rfl : width = 4 := hw
  cases loc <;> rfl

theorem State.acquireSys_ctx (s : State) {ag : Agent} (hp : s.present ag) (sc : Scope) :
    ∃ b, (s.acquireSys ag sc).ctx ag = { s.ctx ag with hostLatest := b } := by
  unfold State.acquireSys
  split
  · exact ⟨true, s.ctx_updCtx_self _ hp⟩
  · exact ⟨_, rfl⟩

theorem State.acquireSys_sameBody (s : State) (ag : Agent) (sc : Scope) : SameBody s (s.acquireSys ag sc) := by
  unfold State.acquireSys
  split
  · exact s.updCtx_sameBody _ ag
  · exact .refl s

theorem State.acquireSys_issue (s : State) (ag : Agent) (sc : Scope) : (s.acquireSys ag sc).issue = s.issue := by
  unfold State.acquireSys
  split
  · exact s.updCtx_issue _ ag
  · rfl

/-- An acquire at sys changes nothing of the agents but what later loads of host windows return. -/
theorem State.acquireSys_agents (s : State) (ag : Agent) (sc : Scope) :
    (∀ x r, (s.acquireSys ag sc).readReg x r = s.readReg x r) ∧ ∀ x, x ≠ ag → SameAgent s (s.acquireSys ag sc) x := by
  unfold State.acquireSys
  split
  · have hreg : ∀ x r, (s.updCtx (fun c => { c with hostLatest := true }) ag).readReg x r = s.readReg x r :=
      fun x r => by
        apply State.readReg_updCtx
        intro c
        rfl
    exact ⟨hreg, fun x hx => ⟨s.ctx_updCtx_of_ne _ hx.symm, hreg x⟩⟩
  · exact ⟨fun _ _ => rfl, fun x _ => .refl s x⟩

/-- The access has ended, and the agent's pending groups have its bytes. -/
theorem State.finish_agents (s : State) (a : Access) (hp : s.present a.agent) (bs : List Byte) :
    (s.finish a bs).ctx a.agent = { s.ctx a.agent with pend := (s.ctx a.agent).pend.map fun p => p.deliver a.id bs } ∧
      (∀ x r, (s.finish a bs).readReg x r = s.readReg x r) ∧ ∀ x, x ≠ a.agent → SameAgent s (s.finish a bs) x := by
  let u : State := { s with accs := s.accs.filter fun x => x.id != a.id }
  have hu : KeepsAgents s u := ⟨rfl, fun _ => rfl, rfl⟩
  have hreg : ∀ x r, (s.finish a bs).readReg x r = s.readReg x r := fun x r => by
    rw [← (hu.sameAgent x).2 r]
    apply State.readReg_updCtx
    intro c
    rfl
  refine ⟨?_, hreg, fun x hx => ⟨(u.ctx_updCtx_of_ne _ hx.symm).trans (hu.sameAgent x).1, hreg x⟩⟩
  rw [← (hu.sameAgent a.agent).1]
  exact u.ctx_updCtx_self _ ((hu.present _).2 hp)

theorem State.finish_accs (s : State) (a : Access) (bs : List Byte) : (s.finish a bs).accs = s.accs.filter fun x => x.id != a.id :=
  (State.updCtx_sameBody _ _ a.agent).accs

theorem State.finish_mem (s : State) (a : Access) (bs : List Byte) : (s.finish a bs).mem = s.mem := (State.updCtx_sameBody _ _ a.agent).mem

theorem State.finish_issue (s : State) (a : Access) (bs : List Byte) : (s.finish a bs).issue = s.issue := State.updCtx_issue _ _ a.agent

/-- The access of an LD.ACQ at wafer memory, as it joins the outstanding ones. -/
def State.acquireAccess (u : State) (ag : Agent) (sc : Scope) (loc : Loc) (va : Nat) (l : TlbEntry) : Access :=
  { accessOf ag (u.coreOf ag) loc 4 .load va .wafer (some l) with
    id := u.nextId
    latest := (((u.acquireSys ag sc).cacheLoad (u.coreOf ag) loc).ctx ag).hostLatest }

/-- LD.ACQ has been accepted, and its register is pending. -/
def State.acquireIssued (u : State) (ag : Agent) (sc : Scope) (loc : Loc) (va : Nat) (l : TlbEntry) (d : BitVec 6) : State :=
  (((u.acquireSys ag sc).cacheLoad (u.coreOf ag) loc).joined [u.acquireAccess ag sc loc va l]).addPend ag [.v d]
    (.access [(u.nextId, none)] (.words .raw)) none

/-- Nothing holds a load of a word of plain memory by the agent, and nothing goes before it. -/
structure State.AcquireFree (u : State) (ag : Agent) (loc : Loc) : Prop where
  unheld : u.requestHeld (u.coreOf ag) loc 4 = false
  clean : u.locPoisoned loc 4 = false
  first : u.outstanding ag = []
  unseen : u.seenStores (u.bidOf ag) = []
  noWindow : loc.isWindow = false
  noMmio : u.mmioAt loc = none
  numbers : ∀ x ∈ u.accs, x.id < u.nextId
  hidden : ∀ x ∈ u.accs, u.locsMeet x.loc x.width loc 4 = true → u.mayShow (u.bidOf ag) x = false

section
variable (u : State) (ag : Agent) (sc : Scope) (loc : Loc) (va : Nat) (l : TlbEntry) (d : BitVec 6)

theorem State.acquireIssued_sameMap : SameMap u (u.acquireIssued ag sc loc va l d) :=
  (((SameMap.of_body (u.acquireSys_sameBody ag sc)).trans (.cacheLoad _ _ _)).trans (.joined _ _)).trans
    (.of_body (State.addPend_sameBody _ ag _ _ _))

theorem State.acquireIssued_accs : (u.acquireIssued ag sc loc va l d).accs = u.accs ++ [u.acquireAccess ag sc loc va l] := by
  have hlines := (LinesOnly.cacheLoad (u.acquireSys ag sc) (u.coreOf ag) loc).accs
  rw [State.acquireIssued, (State.addPend_sameBody _ ag _ _ _).accs, State.joined, hlines, (u.acquireSys_sameBody ag sc).accs]

theorem State.acquireIssued_issue : (u.acquireIssued ag sc loc va l d).issue = u.issue := by
  rw [State.acquireIssued, State.addPend_issue]
  exact (LinesOnly.cacheLoad (u.acquireSys ag sc) (u.coreOf ag) loc).agents.issue.trans (u.acquireSys_issue ag sc)

/-- What the accepted load has done to the agents. -/
theorem State.acquireIssued_agents {u : State} {ag : Agent} (hp : u.present ag) :
    (u.acquireIssued ag sc loc va l d).present ag ∧
      (∃ b, (u.acquireIssued ag sc loc va l d).ctx ag = { u.ctx ag with
        hostLatest := b
        pend := (u.ctx ag).pend ++ [⟨((u.acquireSys ag sc).cacheLoad (u.coreOf ag) loc).nextId + 1, [.v d],
          .access [(u.nextId, none)] (.words .raw), u.issue.now, none⟩] }) ∧
      (∀ x r, (u.acquireIssued ag sc loc va l d).readReg x r = u.readReg x r) ∧
      ∀ x, x ≠ ag → SameAgent u (u.acquireIssued ag sc loc va l d) x := by
  obtain ⟨b, hb⟩ := u.acquireSys_ctx hp sc
  obtain ⟨hreg, hothers⟩ := u.acquireSys_agents ag sc
  let w := ((u.acquireSys ag sc).cacheLoad (u.coreOf ag) loc).joined [u.acquireAccess ag sc loc va l]
  have hw : KeepsAgents (u.acquireSys ag sc) w :=
    (LinesOnly.cacheLoad (u.acquireSys ag sc) (u.coreOf ag) loc).agents.trans (.joined _ _)
  have hpw : w.present ag := (hw.present ag).2 (((u.acquireSys_sameBody ag sc).present ag).2 hp)
  have hnow : w.issue.now = u.issue.now := by rw [hw.issue, u.acquireSys_issue]
  refine ⟨(w.addPend_present ag ag _ _ _).2 hpw, ⟨b, ?_⟩, fun x r => ?_, fun x hx => ?_⟩
  · rw [State.acquireIssued, State.addPend_ctx _ hpw, (hw.sameAgent ag).1, hb, hnow]
    rfl
  · exact (w.addPend_readReg ag _ _ _ x r).trans (((hw.sameAgent x).2 r).trans (hreg x r))
  · exact ((hothers x hx).trans (hw.sameAgent x)).trans (w.addPend_other hx.symm _ _ _)

end

namespace State.AcquireFree

variable {u : State} {ag : Agent} {loc : Loc} (h : u.AcquireFree ag loc) (sc : Scope) (va : Nat) (l : TlbEntry) (d : BitVec 6)
include h

theorem others (x : Access) (hx : x ∈ u.accs) : x.agent ≠ ag := by
  intro e
  have hmem : x ∈ u.outstanding ag := by simp [State.outstanding, mem_sortBy, hx, e]
  rw [h.first] at hmem
  cases hmem

theorem lone : (u.acquireIssued ag sc loc va l d).Lone (u.acquireAccess ag sc loc va l) := by
  have hmem : ∀ x, x ∈ (u.acquireIssued ag sc loc va l d).accs ↔ x ∈ u.accs ∨ x = u.acquireAccess ag sc loc va l := fun x => by
    simp [u.acquireIssued_accs]
  refine ⟨(hmem _).2 (.inr rfl), fun x hx hid => ?_, fun x hx hne => ?_, rfl⟩
  · rcases (hmem x).1 hx with hx | hx
    · exact absurd hid (h.numbers x hx).ne
    · exact hx
  · have hx := ((hmem x).1 hx).resolve_right hne
    have hag : (x.agent == (u.acquireAccess ag sc loc va l).agent) = false := beq_eq_false_iff_ne.2 (h.others x hx)
    simp [State.precedes, hag]

/-- The load that has been accepted is performed. -/
theorem bindNow_eq : (u.acquireIssued ag sc loc va l d).bindNow u.nextId =
    some ((u.acquireIssued ag sc loc va l d).finish (u.acquireAccess ag sc loc va l) (u.readLoc loc 4)) := by
  let w := u.acquireIssued ag sc loc va l d
  let a := u.acquireAccess ag sc loc va l
  have hmap : SameMap u w := u.acquireIssued_sameMap ag sc loc va l d
  have haccs : w.accs = u.accs ++ [a] := u.acquireIssued_accs ag sc loc va l d
  have hpasses : w.unheld a = true := by
    have hheld := h.unheld
    simp only [State.requestHeld, Bool.or_eq_false_iff] at hheld
    have : w.passes a = true := by
      rw [hmap.passes]
      simp [State.passes, a, State.acquireAccess, accessOf, hheld]
    rw [State.unheld, this]
    rfl
  have hseen : w.seenStores (w.bidOf ag) = [] := by
    have : w.seenStores (w.bidOf ag) = u.seenStores (u.bidOf ag) := by
      simp only [State.seenStores, haccs, hmap.bids, hmap.locFrozen, List.filter_append]
      simp [a, State.acquireAccess, accessOf]
    rw [this, h.unseen]
  have hhidden : ∀ x ∈ w.accs, w.locsMeet x.loc x.width loc 4 = true → w.mayShow (w.bidOf ag) x = false := by
    intro x hx hmeet
    rw [haccs, List.mem_append, List.mem_singleton] at hx
    rw [hmap.bids, Bool.eq_false_iff]
    intro hshow
    rcases hx with hx | rfl
    · rw [hmap.locsMeet] at hmeet
      exact Bool.eq_false_iff.1 (h.hidden x hx hmeet) (hmap.mayShow_of_append haccs rfl hshow)
    · simp [State.mayShow, a, State.acquireAccess, accessOf, Access.isStore] at hshow
  refine ((h.lone sc va l d).bindNow_eq hpasses).trans (congrArg some ?_)
  have hload := State.performNow_load (s := w) (a := a) rfl rfl rfl rfl h.noWindow ((hmap.locPoisoned loc 4).trans h.clean)
    ((hmap.mmioAt loc).trans h.noMmio) hseen hhidden
  rw [hload]
  exact congrArg _ (hmap.readLoc loc 4)

/-- What LD.ACQ leaves: its register is pending with the word that memory holds, and its access is no longer outstanding. -/
theorem acquired {v : State} (hp : u.present ag) (hids : ∀ p ∈ (u.ctx ag).pend, u.nextId ∉ p.accessIds) (n : BitVec 3)
    (hv : v = ((u.acquireIssued ag sc loc va l d).finish (u.acquireAccess ag sc loc va l) (u.readLoc loc 4)).advance ag n) :
    v.accs = u.accs ∧ v.mem = u.mem ∧
      (v.ctx ag).pend = (u.ctx ag).pend ++
        [⟨((u.acquireSys ag sc).cacheLoad (u.coreOf ag) loc).nextId + 1, [.v d],
          .access [(u.nextId, some (u.readLoc loc 4))] (.words .raw), v.issue.now, none⟩] ∧
      (∀ r, v.readReg ag r = u.readReg ag r) ∧ (v.ctx ag).pc = (u.ctx ag).pc + 4 ∧ ∀ x, x ≠ ag → SameAgent u v x := by
  subst hv
  obtain ⟨hpw, ⟨b, hctx⟩, hreg, hothers⟩ := State.acquireIssued_agents sc loc va l d hp
  let a := u.acquireAccess ag sc loc va l
  let w := u.acquireIssued ag sc loc va l d
  let x := w.finish a (u.readLoc loc 4)
  obtain ⟨hxctx, hxreg, hxothers⟩ := w.finish_agents a hpw (u.readLoc loc 4)
  have hpx : x.present ag := (State.updCtx_sameBody _ _ ag).present ag |>.2 hpw
  have hgo : (x.advance ag n).ctx ag = _ := x.goto_ctx hpx n _
  have hnow : (x.advance ag n).issue.now = u.issue.now := by
    rw [State.advance, State.goto_issue, State.finish_issue, u.acquireIssued_issue]
  have hpend : ((x.advance ag n).ctx ag).pend = (w.ctx ag).pend.map fun p => p.deliver u.nextId (u.readLoc loc 4) := by
    rw [hgo]
    exact congrArg Ctx.pend hxctx
  have hpc : ((x.advance ag n).ctx ag).pc = (w.ctx ag).pc + 4 := by
    rw [hgo]
    exact (congrArg (fun c : Ctx => c.pc + 4) hxctx :)
  refine ⟨?_, ?_, ?_, fun r => ?_, ?_, fun y hy => ?_⟩
  · have hother : ∀ y ∈ u.accs, (y.id != a.id) = true := fun y hy => bne_iff_ne.2 (h.numbers y hy).ne
    rw [(State.advance_sameBody _ ag n).accs, State.finish_accs, u.acquireIssued_accs, List.filter_append,
      List.filter_eq_self.2 hother, List.filter_singleton]
    simp
  · rw [(State.advance_sameBody _ ag n).mem, State.finish_mem, (u.acquireIssued_sameMap ag sc loc va l d).mem]
  · have hold : (u.ctx ag).pend.map (fun p => p.deliver u.nextId (u.readLoc loc 4)) = (u.ctx ag).pend :=
      (List.map_congr_left fun p hp => Pend.deliver_eq (hids p hp) _).trans (List.map_id _)
    rw [hpend, hnow, hctx, List.map_append, hold]
    simp [Pend.deliver]
  · exact (x.goto_readReg ag ag n _ r).trans ((hxreg ag r).trans (hreg ag r))
  · rw [hpc, hctx]
  · exact ((hothers y hy).trans (hxothers y hy)).trans (State.advance_other _ hy.symm n)

end State.AcquireFree

/-! ### LD.ACQ -/

theorem State.acquireSys_nextId (s : State) (ag : Agent) (sc : Scope) : (s.acquireSys ag sc).nextId = s.nextId := by
  unfold State.acquireSys
  split
  · cases ag <;> rfl
  · rfl

/-- LD.ACQ of an agent alone in its step, whose load of plain wafer memory nothing holds and nothing goes before. -/
theorem ldAcq_goes {s u : State} {d a : BitVec 6} {e n : BitVec 3} {ag : Agent} {loc : Loc} {l : TlbEntry}
    (ha : s.issue.agents = [ag]) (hpair : a.toNat % 2 = 0) (hr : s.Ready .thread (addrSrcs a) [.v d] ag) (he : e.toNat ≤ 4)
    (hadm : (s.collect 2).admitted ag .read ((s.readReg ag (.v (a + 1))).val ++ (s.readReg ag (.v a)).val) 4 = (some (loc, .wafer, l), u))
    (hfree : u.AcquireFree ag loc) (hids : ∀ p ∈ (s.ctx ag).pend, ∀ i ∈ p.accessIds, i < u.nextId) :
    ∃ t id aid, exec (.ldAcqB32 d a e n) s = .next t ∧ t.accs = u.accs ∧ t.mem = u.mem ∧
      (t.ctx ag).pend = (s.ctx ag).pend ++ [⟨id, [.v d], .access [(aid, some (u.readLoc loc 4))] (.words .raw), t.issue.now, none⟩] ∧
      (∀ r, t.readReg ag r = s.readReg ag r) ∧ (t.ctx ag).pc = (s.ctx ag).pc + 4 ∧ ∀ x, x ≠ ag → SameAgent s t x := by
  obtain ⟨sc, hsc⟩ := scopeOf_isSome he
  have hkeep := KeepsAgents.of_admitted hadm
  have hsame : ∀ x, SameAgent s u x := fun x => (s.collect_sameAgent 2 x).trans (hkeep.sameAgent x)
  have hp : u.present ag := (hkeep.present ag).2 ((s.collect_present 2 ag).2 hr.present)
  obtain ⟨hctx, hregs⟩ := hsame ag
  have hids : ∀ p ∈ (u.ctx ag).pend, u.nextId ∉ p.accessIds := fun p hp hi => (hids p (hctx ▸ hp) _ hi).ne rfl
  let va := (s.readReg ag (.v (a + 1))).val ++ (s.readReg ag (.v a)).val
  obtain ⟨haccs, hmem, hpend, hreg, hpc, hothers⟩ := hfree.acquired sc va.toNat l d hp hids n rfl
  refine ⟨_, _, _, ?_, haccs, hmem, hctx ▸ hpend, fun r => (hreg r).trans (hregs r), hctx ▸ hpc, fun x hx => (hsame x).trans (hothers x hx)⟩
  have hva : pairAt (s.sources ag (addrSrcs a)) 0 = va := by
    simp only [addrSrcs_eq]
    rfl
  let o : Op := { n := n, srcs := addrSrcs a, dsts := [.v d], bad := worse (groupBad [(a.toNat, 2)]) (scopeBad e), who := .thread }
  have hgrants : o.grants = 2 := rfl
  have hsrcs : o.srcs = addrSrcs a := rfl
  have hid : ((u.acquireSys ag sc).cacheLoad (u.coreOf ag) loc).nextId = u.nextId :=
    (congrArg State.nextId (LinesOnly.cacheLoad (u.acquireSys ag sc) (u.coreOf ag) loc).rest).trans (u.acquireSys_nextId ag sc)
  have hissued : ((u.acquireSys ag sc).cacheLoad (u.coreOf ag) loc).acceptLoad (accessOf ag (u.coreOf ag) loc 4 .load va.toNat .wafer (some l))
      (.words .raw) [.v d] = u.acquireIssued ag sc loc va.toNat l d := by
    rw [State.acceptLoad_word _ rfl, hid]
    rfl
  refine (congrArg Host.Outcome.next (State.runGroup_own (o := o) ha hr (by simp [o, pairBad_none hpair, scopeBad_none hsc, worse])
    rfl)).trans (congrArg Host.Outcome.next ?_)
  simp only [hsc, hgrants, hsrcs, hva, va, hadm, Option.getD_some, hissued, hid, hfree.bindNow_eq, Home.isOutside, Bool.false_and]
  rfl

/-! ### The three together -/

/-- Settles O35, by what performing everything that a fence or a release names leaves (State.force_ends, State.drainRelease_ends);
an acquiring load that nothing goes before is the only access that it performs (State.Lone.bindNow_eq). -/
theorem acquireReleaseFence : Obligations.AcquireReleaseFence := by
  unfold Obligations.AcquireReleaseFence
  intro s d a e n ag ha hpair hn
  dsimp only
  rw [← addrSrcs_eq]
  refine ⟨?_, ?_, ?_, ?_⟩
  · rintro u loc home l hr he hadm rfl hheld hclean hfirst hunseen hwindow hall hids hmmio
    exact ldAcq_goes ha hpair hr he hadm
      ⟨hheld, hclean, hfirst, hunseen, hwindow, hmmio, fun x hx => (hall x hx).1, fun x hx => (hall x hx).2⟩ hids
  · intro u loc home l sc hr hsc hready hadm
    obtain ⟨t, old, new, hexec, haccs, hwhat, hleft, hgo⟩ := stRel_goes ha hpair hn hr hsc hready hadm
    exact ⟨t, old, new, hexec, haccs, hwhat, fun x hx hag hcov => hleft x hx (releases_iff.2 ⟨hag, hcov⟩), hgo⟩
  · intro sc hr hsc
    have hn := State.collect_numbered hn 0
    have waits (acq rel : Bool) (hheld : (s.collect 0).fenceHeld ag sc acq rel = true) :
        ∃ t, Host.Outcome.next (s.fence acq rel e n) = (.next t : Host.Outcome State Fault Refusal) ∧ SameBody s t ∧ ∀ x, SameAgent s t x :=
      ⟨_, rfl, State.fence_waits ha hr hsc hheld⟩
    have goes (acq rel : Bool) (stays : Access → Prop) (hheld : (s.collect 0).fenceHeld ag sc acq rel = false)
        (hstays : ∀ x ∈ ((s.collect 0).fenced ag sc acq rel).accs, x.agent = ag → coveredAt sc x = true → stays x) :
        ∃ t, Host.Outcome.next (s.fence acq rel e n) = (.next t : Host.Outcome State Fault Refusal) ∧
          (t.present ag → (t.ctx ag).ready = t.issue.now + 1 + n.toNat) ∧
          ∀ x ∈ t.accs, x.agent = ag → coveredAt sc x = true → stays x := by
      obtain ⟨hready, haccs⟩ := State.fence_goes ha hr hsc hheld
      exact ⟨_, rfl, hready, haccs ▸ hstays⟩
    have left (acq : Bool) (x : Access) (hx : x ∈ ((s.collect 0).fenced ag sc acq true).accs) (hag : x.agent = ag)
        (hcov : coveredAt sc x = true) : sc = .blk ∧ x.Shown :=
      State.fenced_releases hn rfl x hx (releases_iff.2 ⟨hag, hcov⟩)
    refine ⟨fun hrel => goes false true _ ?_ (left false), fun hrel => waits false true ?_,
      fun hacq => goes true false _ ?_ fun x hx hag hcov => ?_, fun hacq => waits true false ?_,
      fun hrel hacq => goes true true _ ?_ (left true), fun h => waits true true ?_⟩
    · simp [State.fenceHeld, hrel]
    · simp [State.fenceHeld, hrel]
    · simp [State.fenceHeld, hacq]
    · have hdone := State.fenced_acquires (rel := false) hn rfl x hx
      simpa [acquires, hag, hcov] using hdone
    · simp [State.fenceHeld, hacq]
    · simp [State.fenceHeld, hrel, hacq]
    · rcases h with h | h <;> simp [State.fenceHeld, h]
  · rintro bid tid rfl ht he -
    exact scope_illegal ha ht hpair he

end Sys2Proof.Machine
end

section
/-! Values that a format has (R63 to R66): rounding keeps them, in every mode. -/

namespace Sys2Proof.Machine

theorem Fmt.codeMag_representable (F : Fmt) (c : Nat) : F.Representable (F.codeMag c) := by
  obtain ⟨t, k, rfl, hk, hlow⟩ := F.code_eq_add c
  rw [F.codeMag_add hk.le hlow]
  exact F.representable_of_le (Int.le_add_of_nonneg_right (Int.natCast_nonneg t)) hk.le

/-- No mode moves a magnitude that the format has. -/
theorem Fmt.RoundsTo.eq_of_representable {F : Fmt} {m : RMode} {neg : Bool} {a y : ℚ} (h : F.RoundsTo m neg a y)
    (ha : F.Representable a) : y = a := by
  obtain rfl | hm | hm := m.rn_or_toward_or_away neg
  · obtain ⟨-, hnear, -⟩ := h
    have hdist := hnear a ha
    rw [sub_self, abs_zero, abs_nonpos_iff] at hdist
    exact sub_eq_zero.1 hdist
  · obtain ⟨-, hle, hgreatest⟩ := (F.roundsTo_iff_of_toward hm a y).1 h
    exact le_antisymm hle (hgreatest a ha le_rfl)
  · obtain ⟨-, hge, hleast⟩ := (F.roundsTo_iff_of_away hm a y).1 h
    exact le_antisymm (hleast a ha le_rfl) hge

theorem Fmt.roundCode_eq_of_codeMag (F : Fmt) (hfw : 0 < F.fw) (m : RMode) (neg : Bool) {num den c : Nat} (hden : 0 < den)
    (h : (num : ℚ) / den = F.codeMag c) : roundCode F m neg num den = c := by
  have hround := F.roundsTo_roundCode hfw m neg num hden
  rw [h] at hround
  exact F.codeMag_strictMono.injective (hround.eq_of_representable (F.codeMag_representable c))

theorem roundF_fin (F : Fmt) (m : RMode) (s : Bool) (k : Nat) (e : Int) :
    roundF F m (.fin s k e) = roundRat F .ieee m s (k * (pow2Ratio e).1) (pow2Ratio e).2 := rfl

theorem roundF_inf (F : Fmt) (m : RMode) (s : Bool) : roundF F m (.inf s) = F.signBit s + F.infCode := rfl

theorem roundF_nan (F : Fmt) (m : RMode) : roundF F m .nan = F.nanCode .ieee := rfl

/-- Rounding the value of a finite code gives the code. -/
theorem roundF_of_codeMag (F : Fmt) (hfw : 0 < F.fw) (m : RMode) (s : Bool) {k c : Nat} {e : Int}
    (h : (k : ℚ) * (2 : ℚ) ^ e = F.codeMag c) (hc : c ≤ F.maxCode .ieee) : roundF F m (.fin s k e) = F.signBit s + c := by
  rw [← cast_mul_pow2Ratio_div] at h
  have hcode := F.roundCode_eq_of_codeMag hfw m s (pow2Ratio_pos e).2 h
  rw [roundF_fin, roundRat_of_le F (by rwa [hcode]), hcode]

/-- An encoding is its sign bit above its magnitude code. -/
theorem Fmt.signBit_add_code (F : Fmt) {x : Nat} (hx : x < 2 ^ F.width) :
    F.signBit (decide (x / 2 ^ (F.ew + F.fw) % 2 = 1)) + x % 2 ^ (F.ew + F.fw) = x := by
  have hwidth : 2 ^ F.width = 2 * 2 ^ (F.ew + F.fw) := by rw [width, add_assoc, add_comm 1, pow_succ, mul_comm]
  have hdiv := Nat.div_add_mod' x (2 ^ (F.ew + F.fw))
  have hsign : x / 2 ^ (F.ew + F.fw) < 2 := Nat.div_lt_of_lt_mul (by rwa [mul_comm, ← hwidth])
  obtain h | h := Nat.le_one_iff_eq_zero_or_eq_one.1 (Nat.lt_succ_iff.1 hsign)
  all_goals
    rw [h] at hdiv ⊢
    simpa [signBit] using hdiv

/-- Settles O9: a magnitude that the format has is rounded to itself, and magnitudes rise with their codes. -/
theorem floatFormatKept : Obligations.FloatFormatKept := by
  intro F hF m x hx
  have hfw : 0 < F.fw := by fin_cases hF <;> decide
  have hcode := F.signBit_add_code hx
  have hvalue := F.value_eq .ieee x
  dsimp only at hvalue
  rw [valueOf]
  split_ifs at hvalue with hinf hmax
  · rw [hvalue, roundF_inf, ← hinf.2, hcode]
    rfl
  · rw [hvalue]
    rfl
  · rw [hvalue, roundF_of_codeMag F hfw m _ rfl (not_lt.1 hmax), hcode]
    rfl


/-! ### Special operands (R125) -/

@[simp] theorem FVal.add_nan (x : FVal) : x.add .nan = .nan := by cases x <;> rfl

@[simp] theorem FVal.nan_add (x : FVal) : FVal.nan.add x = .nan := rfl

@[simp] theorem FVal.mul_nan (x : FVal) : x.mul .nan = .nan := by cases x <;> rfl

@[simp] theorem FVal.nan_mul (x : FVal) : FVal.nan.mul x = .nan := rfl

@[simp] theorem FVal.inf_add_inf (s t : Bool) : (FVal.inf s).add (.inf t) = if s = t then .inf s else .nan := by
  simp [FVal.add]

@[simp] theorem FVal.inf_add_fin (s t : Bool) (m : Nat) (e : Int) : (FVal.inf s).add (.fin t m e) = .inf s := rfl

@[simp] theorem FVal.fin_add_inf (s t : Bool) (m : Nat) (e : Int) : (FVal.fin s m e).add (.inf t) = .inf t := rfl

@[simp] theorem FVal.inf_mul_inf (s t : Bool) : (FVal.inf s).mul (.inf t) = .inf (s != t) := rfl

@[simp] theorem FVal.inf_mul_fin (s t : Bool) (m : Nat) (e : Int) :
    (FVal.inf s).mul (.fin t m e) = if m = 0 then .nan else .inf (s != t) := by
  simp [FVal.mul]

@[simp] theorem FVal.fin_mul_inf (s t : Bool) (m : Nat) (e : Int) :
    (FVal.fin s m e).mul (.inf t) = if m = 0 then .nan else .inf (s != t) := by
  simp [FVal.mul]

@[simp] theorem FVal.fin_mul_fin (s t : Bool) (m k : Nat) (e f : Int) :
    (FVal.fin s m e).mul (.fin t k f) = .fin (s != t) (m * k) (e + f) := rfl

theorem FVal.add_zeros (s t : Bool) (e f : Int) : (FVal.fin s 0 e).add (.fin t 0 f) = .fin (s && t) 0 0 := rfl

/-- A sum that is exactly zero, of values that are not both zero, is +0 (R64). -/
theorem FVal.add_opposite (s : Bool) {m k : Nat} {e f : Int} (hm : m ≠ 0) (h : (m : ℚ) * (2 : ℚ) ^ e = k * (2 : ℚ) ^ f) :
    (FVal.fin s m e).add (.fin (!s) k f) = .fin false 0 (min e f) := by
  have hcancel : (alignedSig s m e (min e f) + alignedSig (!s) k f (min e f) : ℚ) * (2 : ℚ) ^ min e f = 0 := by
    rw [add_mul, alignedSig_mul_zpow s m (min_le_left e f), alignedSig_mul_zpow (!s) k (min_le_right e f), signFactor_not,
      mul_assoc, h]
    ring
  have hsum : alignedSig s m e (min e f) + alignedSig (!s) k f (min e f) = 0 := by
    exact_mod_cast (mul_eq_zero.1 hcancel).resolve_right (by positivity)
  simp [FVal.add, hm, hsum]

@[simp] theorem roundF_zero (F : Fmt) (m : RMode) (s : Bool) (e : Int) : roundF F m (.fin s 0 e) = F.signBit s := by
  have hzero : roundCode F m s 0 (pow2Ratio e).2 = 0 := rfl
  rw [roundF_fin, zero_mul, roundRat_of_le F (by rw [hzero]; exact Nat.zero_le _), hzero, add_zero]

/-- Settles O6: the special cases of the exact sum and product, each then rounded. -/
theorem floatSpecialCases : Obligations.FloatSpecialCases := by
  intro F hF x y z
  dsimp only
  generalize valueOf F x = p
  generalize valueOf F y = q
  generalize valueOf F z = r
  refine ⟨?_, ?_, ?_, ?_, ?_, ?_, ?_, ?_, ?_, ?_, ?_, ?_, ?_, ?_⟩
  · rintro (rfl | rfl) <;> simp [roundF_nan]
  · rintro rfl
    simp [roundF_nan]
  · rintro s t e (⟨rfl, rfl⟩ | ⟨rfl, rfl⟩) <;> simp [roundF_nan]
  · rintro s rfl rfl
    simp [roundF_nan]
  · rintro s t m e hm hfactors
    have hproduct : p.mul q = .inf (s != t) := by
      obtain ⟨rfl, rfl | rfl⟩ | ⟨rfl, rfl⟩ := hfactors <;> simp [hm]
    rw [hproduct]
    refine ⟨?_, ?_⟩
    · rintro rfl
      simp [roundF_nan]
    · rintro (rfl | ⟨u, k, f, rfl⟩) <;> simp [roundF_inf]
  · rintro s m e t k f u rfl rfl rfl
    exact roundF_inf F .rn u
  · rintro s m e t k f u g rfl rfl hzero rfl
    rw [FVal.fin_mul_fin, mul_eq_zero.2 hzero, FVal.add_zeros, roundF_zero]
  · rintro s m e t k f w g rfl rfl rfl hm hk hcancel
    rw [FVal.fin_mul_fin, FVal.add_opposite _ (mul_ne_zero hm hk) (by exact_mod_cast hcancel), roundF_zero]
    rfl
  · rintro s rfl rfl
    simp [roundF_inf]
  · rintro s t m e rfl rfl
    refine ⟨roundF_inf F .rn s, roundF_inf F .rn s, fun hm => ?_⟩
    cases s <;> cases t <;> simp [hm, roundF_inf]
  · rintro s t rfl rfl
    exact roundF_inf F .rn _
  · rintro s m e t k f rfl rfl hzero
    rw [FVal.fin_mul_fin, mul_eq_zero.2 hzero, roundF_zero]
  · rintro s e t f rfl rfl
    rw [FVal.add_zeros, roundF_zero]
  · rintro s m e hm rfl rfl
    rw [FVal.add_opposite s hm rfl, roundF_zero]
    rfl

end Sys2Proof.Machine
end

section
/-! Lane floating point (R124 to R129): each instruction is a shared lane form, with its function on the elements of a register. -/

namespace Sys2Proof.Machine

/-! ### Elements of a register (R74) -/

theorem half_eq (x : Word) (e : Nat) : half x e = (x.extractLsb' (16 * e) 16).toNat := by
  rw [half, bitsOf, BitVec.extractLsb'_toNat, Nat.shiftRight_eq_div_pow]

theorem packHalves_eq (lo hi : Nat) : packHalves lo hi = BitVec.ofNat 16 hi ++ BitVec.ofNat 16 lo := by
  apply BitVec.eq_of_toNat_eq
  rw [packHalves, BitVec.toNat_append, BitVec.toNat_ofNat, BitVec.toNat_ofNat, BitVec.toNat_ofNat, Nat.shiftLeft_eq,
    ← Nat.shiftLeft_eq, ← Nat.shiftLeft_add_eq_or_of_lt (Nat.mod_lt _ (by decide)), Nat.shiftLeft_eq]
  omega

theorem packed2_eq (f : Nat → Nat → Nat) (x y : Word) : packed2 f x y =
    BitVec.ofNat 16 (f (x.extractLsb' 16 16).toNat (y.extractLsb' 16 16).toNat) ++
      BitVec.ofNat 16 (f (x.extractLsb' 0 16).toNat (y.extractLsb' 0 16).toNat) := by
  simp only [packed2, packHalves_eq, half_eq]

theorem packed3_eq (f : Nat → Nat → Nat → Nat) (x y z : Word) : packed3 f x y z =
    BitVec.ofNat 16 (f (x.extractLsb' 16 16).toNat (y.extractLsb' 16 16).toNat (z.extractLsb' 16 16).toNat) ++
      BitVec.ofNat 16 (f (x.extractLsb' 0 16).toNat (y.extractLsb' 0 16).toNat (z.extractLsb' 0 16).toNat) := by
  simp only [packed3, packHalves_eq, half_eq]

/-! ### Minimum and maximum (R126) -/

theorem minLess_eq (F : Fmt) (x y : Nat) : minLess F x y = (decide ((valueOf F x).cmp (valueOf F y) = .lt) ||
    (decide ((valueOf F x).cmp (valueOf F y) = .eq) && signOf F x && !signOf F y)) := by
  unfold minLess
  cases (valueOf F x).cmp (valueOf F y) <;> simp

/-- FMIN and FMAX return the operand that is, or is not, the lesser, of those that are no NaN. -/
theorem fminmax_eq (lesser : Bool) (F : Fmt) (x y : Nat) : fminmax (!lesser) F x y =
    if (valueOf F x).isNan ∧ (valueOf F y).isNan then F.nanCode .ieee
    else if (valueOf F x).isNan then y else if (valueOf F y).isNan then x
    else if (decide ((valueOf F x).cmp (valueOf F y) = .lt) ||
      (decide ((valueOf F x).cmp (valueOf F y) = .eq) && signOf F x && !signOf F y)) = lesser then x else y := by
  rw [← minLess_eq, fminmax]
  cases (valueOf F x).isNan <;> cases (valueOf F y).isNan <;> cases minLess F x y <;> cases lesser <;> rfl

/-- Settles O5: each instruction is a lane form of float tags with its function of R124 or R126 on each element. -/
theorem laneFloatArithmetic : Obligations.LaneFloatArithmetic := by
  intro d a b c n
  refine ⟨⟨?_, ?_, ?_⟩, ⟨?_, ?_, ?_⟩, ⟨?_, ?_, ?_⟩, ⟨?_, ?_, ?_⟩, ⟨?_, ?_, ?_⟩, fun hc => ⟨?_, ?_, ?_⟩⟩
  · exact laneBinary_of (fun _ => rfl) fun _ _ => rfl
  · exact laneBinary_of (fun _ => rfl) fun _ _ => packed2_eq _ _ _
  · exact laneBinary_of (fun _ => rfl) fun _ _ => packed2_eq _ _ _
  · exact laneBinary_of (fun _ => rfl) fun _ _ => rfl
  · exact laneBinary_of (fun _ => rfl) fun _ _ => packed2_eq _ _ _
  · exact laneBinary_of (fun _ => rfl) fun _ _ => packed2_eq _ _ _
  · exact laneBinary_of (fun _ => rfl) fun _ _ => rfl
  · exact laneBinary_of (fun _ => rfl) fun _ _ => packed2_eq _ _ _
  · exact laneBinary_of (fun _ => rfl) fun _ _ => packed2_eq _ _ _
  · exact laneBinary_of (fun _ => rfl) fun _ _ => congrArg _ (fminmax_eq true _ _ _)
  · exact laneBinary_of (fun _ => rfl) fun _ _ => by simp only [← fminmax_eq true]; exact packed2_eq _ _ _
  · exact laneBinary_of (fun _ => rfl) fun _ _ => by simp only [← fminmax_eq true]; exact packed2_eq _ _ _
  · exact laneBinary_of (fun _ => rfl) fun _ _ => congrArg _ (fminmax_eq false _ _ _)
  · exact laneBinary_of (fun _ => rfl) fun _ _ => by simp only [← fminmax_eq false]; exact packed2_eq _ _ _
  · exact laneBinary_of (fun _ => rfl) fun _ _ => by simp only [← fminmax_eq false]; exact packed2_eq _ _ _
  · exact laneTernary_of hc (fun _ => rfl) fun _ _ _ => rfl
  · exact laneTernary_of hc (fun _ => rfl) fun _ _ _ => packed3_eq _ _ _ _
  · exact laneTernary_of hc (fun _ => rfl) fun _ _ _ => packed3_eq _ _ _ _

/-! ### Compare, class and sign (R127 to R129) -/

theorem floatCompare_completes {i : Instr} {c : FCond} {g : Word → Word → Bool} {d n : BitVec 3} {a b : BitVec 6}
    (hi : ∀ s, exec i s = .next (s.fCompare c d a b n)) (hg : ∀ x y, fcmp32 c x y = g x y) :
    LaneCompare i d a b (.exactly .f32) n 2 g :=
  fixedLatency_of hi rfl (fun _ _ h => List.forall_mem_singleton.2 (wK_fits _ _ h)) fun vs => by rw [hg]

theorem ordering_bne_eq_decide (o p : Ordering) : (o != p) = decide (o ≠ p) := by
  rw [bne, beq_eq_decide, decide_not]

theorem fclassBit_eq (x : Word) : (BitVec.ofNat 32 (2 ^ fclassBit .f32 x.toNat) : Word) =
    match valueOf .f32 x.toNat with
    | .nan => 256
    | .inf s => if s then 1 else 128
    | .fin s m _ => if m = 0 then (if s then 8 else 16) else if m < 2 ^ 23 then (if s then 4 else 32) else if s then 2 else 64 := by
  unfold fclassBit
  cases valueOf .f32 x.toNat with
  | nan => rfl
  | inf s => cases s <;> rfl
  | fin s m e =>
    simp only [beq_iff_eq, show Fmt.f32.fw = 23 from rfl]
    split_ifs <;> rfl

theorem getLsbD_sign_append (b : BitVec 1) (x : Word) {i : Nat} (hi : i < 32) :
    (b ++ x.extractLsb' 0 31 : Word).getLsbD i = if i < 31 then x.getLsbD i else b.getLsbD 0 := by
  have happend : (b ++ x.extractLsb' 0 31 : Word).getLsbD i = _ := BitVec.getLsbD_append
  rw [happend]
  by_cases h : i < 31
  · simp [h]
  · simp [h, Nat.sub_eq_zero_of_le (Nat.lt_succ_iff.1 hi)]

theorem getLsbD_low31 {i : Nat} (hi : i < 32) : (0x7FFFFFFF : Word).getLsbD i = decide (i < 31) := by
  rw [show (0x7FFFFFFF : Word) = lowMask 31 by decide, BitVec.getLsbD_eq_getElem hi, getElem_lowMask]

theorem getLsbD_sign (i : Nat) : (0x80000000 : Word).getLsbD i = decide (i = 31) := by
  rw [show (0x80000000 : Word) = BitVec.twoPow 32 31 by decide, BitVec.getLsbD_twoPow]
  simp [eq_comm]

theorem fabs_eq (x : Word) : x &&& 0x7FFFFFFF = 0#1 ++ x.extractLsb' 0 31 := by
  apply BitVec.eq_of_getLsbD_eq
  intro i hi
  rw [getLsbD_sign_append _ _ hi, BitVec.getLsbD_and, getLsbD_low31 hi]
  by_cases h : i < 31 <;> simp [h]

theorem fneg_eq (x : Word) : x ^^^ 0x80000000 = ~~~(x.extractLsb' 31 1) ++ x.extractLsb' 0 31 := by
  apply BitVec.eq_of_getLsbD_eq
  intro i hi
  rw [getLsbD_sign_append _ _ hi, BitVec.getLsbD_xor, getLsbD_sign]
  by_cases h : i < 31
  · simp [h, h.ne]
  · simp [show i = 31 by omega]

theorem fcsgn_eq (x y : Word) : (y &&& 0x80000000) ||| (x &&& 0x7FFFFFFF) = y.extractLsb' 31 1 ++ x.extractLsb' 0 31 := by
  apply BitVec.eq_of_getLsbD_eq
  intro i hi
  rw [getLsbD_sign_append _ _ hi, BitVec.getLsbD_or, BitVec.getLsbD_and, BitVec.getLsbD_and, getLsbD_low31 hi, getLsbD_sign]
  by_cases h : i < 31
  · simp [h, h.ne]
  · simp [show i = 31 by omega]

/-- Two finite values stand in the order of their reals: their significands are counted in one unit for it. -/
theorem FVal.cmp_compares {x y : FVal} {p q : ℚ} (hx : x.real = some p) (hy : y.real = some q) : (x.cmp y).Compares p q := by
  cases x with
  | nan => cases hx
  | inf s => cases hx
  | fin s m e =>
    cases y with
    | nan => cases hy
    | inf t => cases hy
    | fin t k f =>
      obtain rfl := Option.some.inj (hx.symm.trans (FVal.real_fin s m e))
      obtain rfl := Option.some.inj (hy.symm.trans (FVal.real_fin t k f))
      have hpos : (0 : ℚ) < 2 ^ min e f := by positivity
      have hunit : StrictMono fun i : Int => (i : ℚ) * 2 ^ min e f := fun i j hij =>
        mul_lt_mul_of_pos_right (Int.cast_lt.2 hij) hpos
      rw [← alignedSig_mul_zpow s m (min_le_left e f), ← alignedSig_mul_zpow t k (min_le_right e f)]
      exact hunit.compares.2 ((compare_iff _ _).1 rfl)

theorem FVal.cmp_real {x y : FVal} {p q : ℚ} (hx : x.real = some p) (hy : y.real = some q) :
    (x.cmp y = .lt ↔ p < q) ∧ (x.cmp y = .eq ↔ p = q) ∧ (x.cmp y = .gt ↔ q < p) := by
  have h := FVal.cmp_compares hx hy
  exact ⟨h.eq_lt, h.eq_eq, h.eq_gt⟩

/-- A finite value lies between the infinities. -/
theorem FVal.cmp_inf {x : FVal} {p : ℚ} (hx : x.real = some p) : x.cmp (.inf false) = .lt ∧ (FVal.inf true).cmp x = .lt ∧
    (FVal.inf false).cmp x = .gt ∧ x.cmp (.inf true) = .gt := by
  cases x with
  | nan => cases hx
  | inf s => cases hx
  | fin s m e => exact ⟨rfl, rfl, rfl, rfl⟩

/-- Settles O10: each instruction is a lane form of class A, and the order of two values is that of their reals. -/
theorem laneFloatCompareSign : Obligations.LaneFloatCompareSign := by
  intro kd n d a b
  refine ⟨?_, ?_, ?_, ?_, ?_, ?_, ?_, ?_, ?_, ?_, ?_, fun s t e k => ?_, fun x y p q => FVal.cmp_real, fun x p => FVal.cmp_inf,
    rfl, rfl, fun s => ?_⟩
  · exact floatCompare_completes (fun _ => rfl) fun _ _ => rfl
  · exact floatCompare_completes (fun _ => rfl) fun _ _ => congrArg (or _) (ordering_bne_eq_decide _ _)
  · exact floatCompare_completes (fun _ => rfl) fun _ _ => rfl
  · exact floatCompare_completes (fun _ => rfl) fun _ _ => congrArg (and _) (ordering_bne_eq_decide _ _)
  · exact floatCompare_completes (fun _ => rfl) fun _ _ => rfl
  · exact floatCompare_completes (fun _ => rfl) fun _ _ => congrArg (and _) (ordering_bne_eq_decide _ _)
  · exact floatCompare_completes (fun _ => rfl) fun _ _ => rfl
  · exact laneUnary_of (fun _ => rfl) fclassBit_eq
  · exact laneUnary_of (fun _ => rfl) fabs_eq
  · exact laneUnary_of (fun _ => rfl) fneg_eq
  · exact laneBinary_of (fun _ => rfl) fcsgn_eq
  · exact (FVal.cmp_real (FVal.real_fin s 0 e) (FVal.real_fin t 0 k)).2.1.2 (by simp)
  · cases s <;> rfl

end Sys2Proof.Machine
end

section
/-! Conversions (R67, R130, R131): a CVT reads what its source's tag names, for every agent on its own. -/

namespace Sys2Proof.Machine

/-! ### Rounding to an integer (R65, R67) -/

theorem roundNat_eq_floor {m : RMode} {neg : Bool} (num : Nat) {den : Nat} (hden : 0 < den) (h : m.Toward neg) :
    (roundNat m neg num den : Int) = ⌊(num : ℚ) / den⌋ := by
  obtain ⟨hle, hlt⟩ := roundNat_toward num hden h
  have hdenQ : (0 : ℚ) < den := Nat.cast_pos.2 hden
  refine (Int.floor_eq_iff.2 ⟨(le_div_iff₀ hdenQ).2 ?_, (div_lt_iff₀ hdenQ).2 ?_⟩).symm
  · exact_mod_cast hle
  · exact_mod_cast hlt

theorem roundNat_eq_ceil {m : RMode} {neg : Bool} (num : Nat) {den : Nat} (hden : 0 < den) (h : m.Away neg) :
    (roundNat m neg num den : Int) = ⌈(num : ℚ) / den⌉ := by
  obtain ⟨hle, hlt⟩ := roundNat_away num hden h
  have hdenQ : (0 : ℚ) < den := Nat.cast_pos.2 hden
  refine (Int.ceil_eq_iff.2 ⟨?_, (div_le_iff₀ hdenQ).2 (by exact_mod_cast hle)⟩).symm
  rw [lt_div_iff₀ hdenQ, sub_one_mul, sub_lt_iff_lt_add]
  exact_mod_cast hlt

/-- An integer magnitude with a sign. -/
def signedNat (neg : Bool) (k : Nat) : Int := if neg then -k else k

/-- A magnitude rounded to an integer under a mode, with its sign, is its signed value rounded under the mode. -/
theorem intRounds_roundNat (m : RMode) (neg : Bool) (num : Nat) {den : Nat} (hden : 0 < den) :
    IntRounds m (signFactor neg * ((num : ℚ) / den)) (signedNat neg (roundNat m neg num den)) := by
  have hnonneg : (0 : ℚ) ≤ num / den := by positivity
  cases m with
  | rn =>
    obtain ⟨hhalf, heven⟩ := abs_roundNat_sub_le neg num hden
    cases neg with
    | false =>
      simp only [signFactor, signedNat, IntRounds, Bool.false_eq_true, if_false, one_mul, Int.cast_natCast]
      exact ⟨hhalf, fun h => by exact_mod_cast heven h⟩
    | true =>
      simp only [signFactor, signedNat, IntRounds, if_true, neg_one_mul, Int.cast_neg, Int.cast_natCast, neg_sub_neg]
      rw [abs_sub_comm] at hhalf heven
      exact ⟨hhalf, fun h => by have := heven h; omega⟩
  | rz =>
    have hfloor := roundNat_eq_floor (m := .rz) (neg := neg) num hden (.inl rfl)
    cases neg with
    | false => simp [signFactor, signedNat, IntRounds, hfloor, hnonneg]
    | true =>
      obtain hzero | hpos := hnonneg.eq_or_lt
      · simp [signFactor, signedNat, IntRounds, hfloor, ← hzero]
      · simp [signFactor, signedNat, IntRounds, hfloor, hpos, Int.ceil_neg]
  | rd =>
    cases neg with
    | false => simp [signFactor, signedNat, IntRounds, roundNat_eq_floor num hden (.inr (.inl ⟨rfl, rfl⟩))]
    | true => simp [signFactor, signedNat, IntRounds, roundNat_eq_ceil num hden (.inl ⟨rfl, rfl⟩), Int.floor_neg]
  | ru =>
    cases neg with
    | false => simp [signFactor, signedNat, IntRounds, roundNat_eq_ceil num hden (.inr ⟨rfl, rfl⟩)]
    | true => simp [signFactor, signedNat, IntRounds, roundNat_eq_floor num hden (.inr (.inr ⟨rfl, rfl⟩)), Int.ceil_neg]

/-- A finite value is rounded to an integer and then clamped. -/
theorem toInt_real (m : RMode) (lo hi : Int) {x : FVal} {v : ℚ} (hx : x.real = some v) :
    ∃ k, IntRounds m v k ∧ toInt m lo hi x = max lo (min hi k) := by
  cases x with
  | nan => cases hx
  | inf s => cases hx
  | fin s k e =>
    obtain rfl := Option.some.inj (hx.symm.trans (FVal.real_fin s k e))
    have h := intRounds_roundNat m s (k * (pow2Ratio e).1) (pow2Ratio_pos e).2
    rw [cast_mul_pow2Ratio_div, ← mul_assoc] at h
    exact ⟨_, h, rfl⟩

/-! ### A group whose operands depend on the agent's registers -/

theorem State.operand_of_settled {s : State} {ag : Agent} {now : Nat} {r : Reg} (h : s.settled ag r) (hn : s.issue.cycle ≤ now) :
    s.operand ag now r = (s.readReg ag r, s) := by
  simp [State.operand, h.complete hn]

/-- A source that accepts more tags is ready as well. -/
theorem State.Ready.widen {s : State} {who : Who} {srcs srcs' : List Src} {dsts : List Reg} {ag : Agent}
    (h : s.Ready who srcs dsts ag)
    (hsrcs : ∀ x ∈ srcs', ∃ y ∈ srcs, y.reg = x.reg ∧ ∀ t, y.acc.ok t = true → x.acc.ok t = true) :
    s.Ready who srcs' dsts ag where
  present := h.present
  allowed := h.allowed
  sources x hx := by
    obtain ⟨y, hy, hreg, hacc⟩ := hsrcs x hx
    obtain ⟨hset, htag⟩ := h.sources y hy
    rw [hreg] at hset htag
    exact ⟨hset, hacc _ htag⟩
  dests := h.dests

/-- Agents that are ready for `srcs` have the operands `o` by what their registers hold; each retires results of fixed latency. -/
theorem fixedLatency_of_runGroupWith {i : Instr} {need : State → Nat} {opOf : State → Agent → Op} {o : Op}
    {body : State → Agent → List VReg → State} {srcs : List Src} {lat : Nat} {f : List VReg → List Write}
    (hi : ∀ s, exec i s = .next (s.runGroupWith (need s) opOf noFixed body)) (hbad : o.bad = none) (hpriv : o.priv = false)
    (hready : ∀ {s : State} {ag}, s.Ready o.who srcs o.dsts ag → s.Ready o.who o.srcs o.dsts ag)
    (hop : ∀ {u : State} {ag}, u.Ready o.who srcs o.dsts ag → opOf u ag = o)
    (hb : ∀ {s : State} {ag} (u : State), s.Ready o.who srcs o.dsts ag →
      body u ag (s.sources ag o.srcs) = u.retire ag o.n lat (f (s.sources ag srcs)))
    (hw : ∀ vs ag, o.who.allows ag = true → ∀ w ∈ f vs, w.fits ag) : FixedLatency i o.who srcs o.dsts o.n lat f := by
  intro s h
  have key := State.runGroupWith_ready steady_carries (s := s) (need := need s) (opOf := opOf) (o := o) (fx := noFixed) (body := body)
    (fun t ag => Executed s t ag o.n lat (f (s.sources ag srcs)) ((s.ctx ag).pc + 4))
    ⟨h.1, fun ag hag => hready (h.2 ag hag)⟩ hbad
    (fun u ag hag hR hsa => hop ((h.2 ag hag).congr hsa ((hR.1.present ag).trans (s.collect_present _ ag))
      (by rw [hR.2, (s.collect_sameBody _).issue])))
    (fun _ _ _ _ _ => rfl) (fun hp => absurd (hpriv.symm.trans hp) (by decide))
    (fun u ag hag _ hsa hp => by
      rw [hb u (h.2 ag hag)]
      refine ⟨⟨u.retire_sameBody ag o.n lat _, u.retire_issue ag o.n lat _⟩, fun x hx => u.retire_other (Ne.symm hx) o.n lat _, ?_⟩
      have hdone := u.retire_executed hp o.n lat _ (hw (s.sources ag srcs) ag (h.2 ag hag).allowed)
      rw [hsa.1] at hdone
      exact hdone.congr hsa.symm (SameAgent.refl _ ag) rfl)
    (fun ag u t hPu hR hsa => hPu.congr (SameAgent.refl s ag) hsa (by rw [hR.2]))
  refine ⟨_, hi s, ⟨(s.collect_sameBody _).trans key.1.1, key.2.1⟩, ?_, key.2.2⟩
  rw [key.1.2]
  exact s.collect_now _

/-! ### CVT of one source (R130, R131) -/

/-- What a CVT of one source does to an agent with the operands' values. -/
def cvtBody (f : FVal → Word) (t : Tag) (d a : BitVec 6) (e : BitVec 1) (n : BitVec 3) (s : State) (ag : Agent) (vs : List VReg) : State :=
  if is64 (tagAt vs 0) then
    if a.toNat % 2 = 1 then s.trap ag .formatTag (tagInfo (tagAt vs 0) 0 a.toNat) 0
    else if is64 (tagAt vs 1) then s.retire ag n latF [wV d (f (cvtSource (tagAt vs 0) (valAt vs 0) (pairAt vs 0) 0)) t]
    else s.trap ag .formatTag (tagInfo (tagAt vs 1) 0 (a + 1).toNat) 0
  else s.retire ag n latF [wV d (f (cvtSource (tagAt vs 0) (valAt vs 0) 0 e.toNat)) t]

theorem State.cvtOne_eq (s : State) (f : FVal → Word) (t : Tag) (d a : BitVec 6) (e : BitVec 1) (n : BitVec 3) :
    s.cvtOne f t d a e n = s.runGroupWith (if s.issue.agents.any fun ag => s.readsPair ag a then 2 else 1) (cvtOp d a n) noFixed
      (cvtBody f t d a e n) := rfl

theorem State.readsPair_of_settled {s : State} {ag : Agent} {a : BitVec 6} (h : s.settled ag (.v a)) :
    s.readsPair ag a = (is64 (s.readReg ag (.v a)).tag && a.toNat % 2 == 0) := by
  rw [State.readsPair, State.operand_of_settled h le_rfl]

/-- The tags of a register that CVT reads alone, and those of a pair. -/
def narrowTags : List Tag := [.i32, .n32, .f32, .f16x2, .bf16x2]
def wideTags : List Tag := [.i64, .n64]

theorem is64_of_narrow {t : Tag} (h : (Accept.oneOf narrowTags).ok t = true) : is64 t = false := by
  revert h
  cases t <;> decide

theorem is64_of_wide {t : Tag} (h : (Accept.oneOf wideTags).ok t = true) : is64 t = true := by
  revert h
  cases t <;> decide

theorem cvtTags_ok_of_narrow {t : Tag} (h : (Accept.oneOf narrowTags).ok t = true) : (Accept.oneOf cvtTags).ok t = true := by
  revert h
  cases t <;> decide

theorem cvtTags_ok_of_wide {t : Tag} (h : (Accept.oneOf wideTags).ok t = true) : (Accept.oneOf cvtTags).ok t = true := by
  revert h
  cases t <;> decide

/-- What a register of one of the narrow tags holds: element `e` of a packed one. -/
def narrowSource (t : Tag) (x : Word) (e : Nat) : FVal :=
  match t with
  | .i32 => FVal.ofInt x.toInt
  | .n32 => FVal.ofInt x.toNat
  | .f32 => valueOf .f32 x.toNat
  | .f16x2 => valueOf .f16 (x.extractLsb' (16 * e) 16).toNat
  | _ => valueOf .bf16 (x.extractLsb' (16 * e) 16).toNat

theorem cvtSource_of_narrow {t : Tag} (h : (Accept.oneOf narrowTags).ok t = true) (x : Word) (y : DWord) (e : Nat) :
    cvtSource t x y e = narrowSource t x e := by
  rw [narrowSource.eq_def, cvtSource.eq_def]
  revert h
  cases t <;> simp [Accept.ok, narrowTags, half_eq]

theorem cvtSource_of_wide {t : Tag} (h : (Accept.oneOf wideTags).ok t = true) (x : Word) (y : DWord) (e : Nat) :
    cvtSource t x y e = if t = .i64 then .ofInt y.toInt else .ofInt y.toNat := by
  revert h
  cases t <;> simp [Accept.ok, wideTags, cvtSource]

section
variable {i : Instr} {f : FVal → Word} {t : Tag} {d a : BitVec 6} {e : BitVec 1} {n : BitVec 3}

theorem cvtOne_narrow_completes (hi : ∀ s, exec i s = .next (s.cvtOne f t d a e n)) :
    FixedLatency i .thread [vSrc a 0 (.oneOf narrowTags)] [.v d] n 5
      fun vs => [wV d (f (narrowSource (tagAt vs 0) (valAt vs 0) e.toNat)) t] := by
  refine fixedLatency_of_runGroupWith (o := { n := n, srcs := [vSrc a 0 (.oneOf cvtTags)], dsts := [.v d], who := .thread })
    (fun s => (hi s).trans (congrArg _ (s.cvtOne_eq f t d a e n))) rfl rfl
    (fun h => h.widen ?_) (fun {u ag} h => ?_) (fun {s ag} u h => ?_) fun _ _ h => List.forall_mem_singleton.2 (wV_fits _ _ _ h)
  · exact List.forall_mem_singleton.2 ⟨_, List.mem_singleton_self _, rfl, fun _ => cvtTags_ok_of_narrow⟩
  · obtain ⟨hset, htag⟩ := h.sources _ (List.mem_singleton_self _)
    have hnarrow : is64 (u.readReg ag (.v a)).tag = false := is64_of_narrow htag
    simp [cvtOp, State.readsPair_of_settled hset, hnarrow]
  · obtain ⟨-, htag⟩ := h.sources _ (List.mem_singleton_self _)
    have hnarrow : is64 (s.readReg ag (.v a)).tag = false := is64_of_narrow htag
    have hsource := cvtSource_of_narrow htag (s.readReg ag (.v a)).val 0 e.toNat
    show cvtBody f t d a e n u ag [s.readReg ag (.v a)] = _
    simp only [cvtBody, tagAt, valAt, List.getD_cons_zero, hnarrow, Bool.false_eq_true, if_false]
    exact congrArg (fun x => u.retire ag n 5 [wV d (f x) t]) hsource

theorem cvtOne_wide_completes (hi : ∀ s, exec i s = .next (s.cvtOne f t d a e n)) (ha : a.toNat % 2 = 0) :
    FixedLatency i .thread [vSrc a 0 (.oneOf wideTags), vSrc (a + 1) 0 (.oneOf wideTags)] [.v d] n 5 fun vs =>
      [wV d (f (if tagAt vs 0 = .i64 then .ofInt (valAt vs 1 ++ valAt vs 0).toInt
        else .ofInt (valAt vs 1 ++ valAt vs 0).toNat)) t] := by
  refine fixedLatency_of_runGroupWith
    (o := { n := n, srcs := [vSrc a 0 (.oneOf cvtTags), vSrc (a + 1) 0 .any], dsts := [.v d], who := .thread })
    (fun s => (hi s).trans (congrArg _ (s.cvtOne_eq f t d a e n))) rfl rfl
    (fun h => h.widen ?_) (fun {u ag} h => ?_) (fun {s ag} u h => ?_) fun _ _ h => List.forall_mem_singleton.2 (wV_fits _ _ _ h)
  · intro x hx
    obtain rfl | rfl := List.mem_pair.1 hx
    · exact ⟨vSrc a 0 (.oneOf wideTags), by simp, rfl, fun _ => cvtTags_ok_of_wide⟩
    · exact ⟨vSrc (a + 1) 0 (.oneOf wideTags), by simp, rfl, fun _ _ => rfl⟩
  · obtain ⟨hset, htag⟩ := h.sources (vSrc a 0 (.oneOf wideTags)) (by simp)
    have hwide : is64 (u.readReg ag (.v a)).tag = true := is64_of_wide htag
    simp [cvtOp, State.readsPair_of_settled hset, hwide, ha]
  · obtain ⟨-, htag⟩ := h.sources (vSrc a 0 (.oneOf wideTags)) (by simp)
    obtain ⟨-, htag'⟩ := h.sources (vSrc (a + 1) 0 (.oneOf wideTags)) (by simp)
    have hwide : is64 (s.readReg ag (.v a)).tag = true := is64_of_wide htag
    have hwide' : is64 (s.readReg ag (.v (a + 1))).tag = true := is64_of_wide htag'
    have hsource := cvtSource_of_wide htag (s.readReg ag (.v a)).val
      ((s.readReg ag (.v (a + 1))).val ++ (s.readReg ag (.v a)).val) 0
    show cvtBody f t d a e n u ag [s.readReg ag (.v a), s.readReg ag (.v (a + 1))] = _
    simp only [cvtBody, tagAt, valAt, pairAt, List.getD_cons_zero, List.getD_cons_succ, hwide, hwide', ha, if_true, zero_ne_one, if_false]
    exact congrArg (fun x => u.retire ag n 5 [wV d (f x) t]) hsource

theorem cvtOne_completes (f : FVal → Word) (hi : ∀ s, exec i s = .next (s.cvtOne f t d a e n)) :
    FixedLatency i .thread [vSrc a 0 (.oneOf narrowTags)] [.v d] n 5
      (fun vs => [wV d (f (narrowSource (tagAt vs 0) (valAt vs 0) e.toNat)) t]) ∧
    (a.toNat % 2 = 0 →
      FixedLatency i .thread [vSrc a 0 (.oneOf wideTags), vSrc (a + 1) 0 (.oneOf wideTags)] [.v d] n 5 fun vs =>
        [wV d (f (if tagAt vs 0 = .i64 then .ofInt (valAt vs 1 ++ valAt vs 0).toInt
          else .ofInt (valAt vs 1 ++ valAt vs 0).toNat)) t]) :=
  ⟨cvtOne_narrow_completes hi, cvtOne_wide_completes hi⟩

end

/-! ### CVT of two sources (R131) -/

theorem cvtTwo_completes {i : Instr} {F : Fmt} {t : Tag} {m : RMode} {d a b : BitVec 6} {n : BitVec 3}
    (hi : ∀ s, exec i s = .next (s.cvtTwo F t m d a b n)) :
    FixedLatency i .thread [vSrc a 0 (.oneOf narrowTags), vSrc b 1 (.oneOf narrowTags)] [.v d] n 5 fun vs =>
      [wV d (BitVec.ofNat 16 (roundF F m (narrowSource (tagAt vs 1) (valAt vs 1) 1)) ++
        BitVec.ofNat 16 (roundF F m (narrowSource (tagAt vs 0) (valAt vs 0) 0))) t] := by
  refine fixedLatency_of_runGroupWith
    (o := { n := n, srcs := [vSrc a 0 (.oneOf narrowTags), vSrc b 1 (.oneOf narrowTags)], dsts := [.v d], who := .thread }) hi rfl rfl
    id (fun _ => rfl) (fun {s ag} u h => ?_) fun _ _ h => List.forall_mem_singleton.2 (wV_fits _ _ _ h)
  obtain ⟨-, ha⟩ := h.sources (vSrc a 0 (.oneOf narrowTags)) (by simp)
  obtain ⟨-, hb⟩ := h.sources (vSrc b 1 (.oneOf narrowTags)) (by simp)
  refine congrArg (fun x => u.retire ag n 5 [wV d x t]) ((packHalves_eq _ _).trans ?_)
  exact congrArg₂ (fun x y => BitVec.ofNat 16 (roundF F m x) ++ BitVec.ofNat 16 (roundF F m y)) (cvtSource_of_narrow hb _ 0 1)
    (cvtSource_of_narrow ha _ 0 0)

/-- Settles O13: each form is a CVT of one or of two sources, and its function the conversion of R131. -/
theorem laneConvert : Obligations.LaneConvert := by
  intro d a b el n
  refine ⟨fun m lo hi _ _ => ⟨rfl, rfl, rfl, fun x v => toInt_real m lo hi⟩, ⟨?_, ?_, ?_, ?_⟩, ⟨?_, ?_, ?_, ?_⟩, ⟨?_, ?_, ?_, ?_⟩,
    ⟨?_, ?_, ?_, ?_⟩, ⟨?_, ?_, ?_, ?_⟩⟩
  · exact cvtOne_completes (cvtToF32 .rn) fun _ => rfl
  · exact cvtOne_completes (cvtToF32 .rz) fun _ => rfl
  · exact cvtOne_completes (cvtToF32 .rd) fun _ => rfl
  · exact cvtOne_completes (cvtToF32 .ru) fun _ => rfl
  · exact cvtOne_completes (cvtToI32 .rn) fun _ => rfl
  · exact cvtOne_completes (cvtToI32 .rz) fun _ => rfl
  · exact cvtOne_completes (cvtToI32 .rd) fun _ => rfl
  · exact cvtOne_completes (cvtToI32 .ru) fun _ => rfl
  · exact cvtOne_completes (cvtToN32 .rn) fun _ => rfl
  · exact cvtOne_completes (cvtToN32 .rz) fun _ => rfl
  · exact cvtOne_completes (cvtToN32 .rd) fun _ => rfl
  · exact cvtOne_completes (cvtToN32 .ru) fun _ => rfl
  · exact cvtTwo_completes fun _ => rfl
  · exact cvtTwo_completes fun _ => rfl
  · exact cvtTwo_completes fun _ => rfl
  · exact cvtTwo_completes fun _ => rfl
  · exact cvtTwo_completes fun _ => rfl
  · exact cvtTwo_completes fun _ => rfl
  · exact cvtTwo_completes fun _ => rfl
  · exact cvtTwo_completes fun _ => rfl

end Sys2Proof.Machine
end

section
/-! NPACK, NUNPACK and DQ (R71, R72, R134, R137): windows of codes, and products that F32 has exactly. -/

namespace Sys2Proof.Machine

/-! ### What a format has exactly (R67, R71, R72) -/

/-- The significand and the unit of a finite value of a format. -/
theorem Fmt.value_eq_fin {F : Fmt} {rd : Reading} {x : Nat} {s : Bool} {m : Nat} {e : Int} (h : F.value rd x = .fin s m e) :
    x % 2 ^ (F.ew + F.fw) ≤ F.maxCode rd ∧ s = decide (x / 2 ^ (F.ew + F.fw) % 2 = 1) ∧
      m = F.codeSig (x % 2 ^ (F.ew + F.fw)) ∧ e = F.codeExp (x % 2 ^ (F.ew + F.fw)) := by
  have hvalue := F.value_eq rd x
  dsimp only at hvalue
  rw [h] at hvalue
  split_ifs at hvalue with hinf hmax
  obtain ⟨hs, hm, he⟩ := FVal.fin.inj hvalue
  exact ⟨not_lt.1 hmax, hs, hm, he⟩

theorem Fmt.codeSig_lt (F : Fmt) (c : Nat) : F.codeSig c < 2 ^ (F.fw + 1) := by
  have hmod : c % 2 ^ F.fw < 2 ^ F.fw := Nat.mod_lt _ (Nat.two_pow_pos _)
  rw [codeSig, pow_succ]
  split <;> omega

theorem Fmt.qmin_le_codeExp (F : Fmt) (c : Nat) : F.qmin ≤ F.codeExp c := by
  rw [codeExp]
  generalize c / 2 ^ F.fw = n
  split <;> omega

theorem Fmt.codeExp_le (F : Fmt) {c n : Nat} (hc : c / 2 ^ F.fw ≤ n + 1) : F.codeExp c ≤ F.qmin + n := by
  rw [codeExp]
  split <;> omega

/-- The bounds of the significand and of the unit of a finite value of a format. -/
theorem Fmt.fin_bounds {F : Fmt} {rd : Reading} {x : Nat} {s : Bool} {m : Nat} {e : Int} (h : F.value rd x = .fin s m e) :
    m < 2 ^ (F.fw + 1) ∧ F.qmin ≤ e ∧ e ≤ F.qmin + (2 ^ F.ew : Nat) := by
  obtain ⟨-, -, rfl, rfl⟩ := Fmt.value_eq_fin h
  refine ⟨F.codeSig_lt _, F.qmin_le_codeExp _, F.codeExp_le (Nat.le_succ_of_le (Nat.div_le_of_le_mul ?_))⟩
  rw [← pow_add, add_comm]
  exact (Nat.mod_lt _ (Nat.two_pow_pos _)).le

theorem Fmt.roundF_exact (F : Fmt) (hew : 0 < F.ew) (hfw : 0 < F.fw) (m : RMode) (s : Bool) {k : Nat} {e : Int}
    (hrep : F.Representable (k * (2 : ℚ) ^ e)) (hmax : k * (2 : ℚ) ^ e ≤ F.codeMag (F.maxCode .ieee)) :
    F.IsFin .ieee (roundF F m (.fin s k e)) s (k * (2 : ℚ) ^ e) := by
  obtain ⟨-, y, hround, hfin, -⟩ := F.roundRat_spec hew hfw .ieee m s (k * (pow2Ratio e).1) (pow2Ratio_pos e).2
  rw [cast_mul_pow2Ratio_div] at hround
  obtain rfl := hround.eq_of_representable hrep
  exact hfin hmax

theorem f32_codeMag_maxCode : Fmt.f32.codeMag (Fmt.f32.maxCode .ieee) = (2 ^ 24 - 1) * (2 : ℚ) ^ (104 : Int) := by
  norm_num [Fmt.codeMag, Fmt.codeSig, Fmt.codeExp, Fmt.maxCode, Fmt.qmin, Fmt.f32]

/-- F32 has every significand of 24 bits in every one of its units. -/
theorem roundF_f32_exact (m : RMode) (s : Bool) {k : Nat} {e : Int} (hk : k < 2 ^ 24) (hlow : -149 ≤ e) (hhigh : e ≤ 104) :
    Fmt.f32.IsFin .ieee (roundF .f32 m (.fin s k e)) s (k * (2 : ℚ) ^ e) := by
  refine Fmt.roundF_exact _ (by decide) (by decide) m s ⟨k, e, hk, hlow, rfl⟩ ?_
  rw [f32_codeMag_maxCode]
  have hk' : (k : ℚ) ≤ 2 ^ 24 - 1 := le_sub_iff_add_le.2 (by exact_mod_cast hk)
  exact mul_le_mul hk' (zpow_le_zpow_right₀ one_le_two hhigh) (by positivity) (by norm_num)

/-- A finite narrow code keeps its value and its sign in F32. -/
theorem narrow_exact {F : Fmt} (hF : F ∈ [Fmt.f8e4, .f8e5, .f6e2, .f6e3, .f4e2]) {rd : Reading} {x : Nat} {s : Bool} {m : Nat} {e : Int}
    (h : F.value rd x = .fin s m e) : Fmt.f32.IsFin .ieee (roundF .f32 .rn (.fin s m e)) s (m * (2 : ℚ) ^ e) := by
  obtain ⟨hm, hlow, hhigh⟩ := Fmt.fin_bounds h
  have hF' : 2 ^ (F.fw + 1) ≤ 2 ^ 24 ∧ -149 ≤ F.qmin ∧ F.qmin + (2 ^ F.ew : Nat) ≤ 104 := by fin_cases hF <;> decide
  obtain ⟨hsig, hmin, hmax⟩ := hF'
  exact roundF_f32_exact .rn s (hm.trans_le hsig) (hmin.trans hlow) (hhigh.trans hmax)

/-- A finite scale times a difference of codes is exact in F32, the sign of a zero too. -/
theorem scale_mul_exact {sc : Nat} {s : Bool} {m : Nat} {e : Int} (h : valueOf .f16 sc = .fin s m e) {diff : Int}
    (hdiff : diff.natAbs < 256) :
    Fmt.f32.IsFin .ieee (roundF .f32 .rn ((valueOf .f16 sc).mul (.ofInt diff))) (s != decide (diff < 0))
      (m * (2 : ℚ) ^ e * |(diff : ℚ)|) := by
  obtain ⟨hm, hlow, hhigh⟩ := Fmt.fin_bounds h
  have hprod : m * diff.natAbs < 2 ^ 24 := (Nat.mul_lt_mul'' hm hdiff).trans (by decide)
  have habs : |(diff : ℚ)| = (diff.natAbs : ℚ) := by rw [Nat.cast_natAbs, Int.cast_abs]
  have hmin : (-149 : Int) ≤ Fmt.f16.qmin := by decide
  have hmax : Fmt.f16.qmin + (2 ^ Fmt.f16.ew : Nat) ≤ 104 := by decide
  have hexact := roundF_f32_exact .rn (s != decide (diff < 0)) hprod (hmin.trans hlow) (hhigh.trans hmax)
  rw [h, FVal.ofInt, FVal.fin_mul_fin, add_zero, habs, mul_right_comm, ← Nat.cast_mul]
  exact hexact

theorem valueOf_f32_nanCode (m : RMode) : valueOf .f32 (roundF .f32 m .nan) = .nan := by
  rw [roundF_nan]
  decide

theorem valueOf_roundF_inf (F : Fmt) (m : RMode) (s : Bool) : valueOf F (roundF F m (.inf s)) = .inf s :=
  F.value_signBit_add_infCode s

/-! ### Registers of codes (R74) -/

/-- The digits of a sum in base `2 ^ w`, bit by bit. -/
theorem testBit_sum_digits {w : Nat} (c : Nat → Nat) (hc : ∀ j, c j < 2 ^ w) (n : Nat) :
    ((List.range n).map fun j => c j * 2 ^ (w * j)).sum < 2 ^ (n * w) ∧
      ∀ p, ((List.range n).map fun j => c j * 2 ^ (w * j)).sum.testBit p = (decide (p < n * w) && (c (p / w)).testBit (p % w)) := by
  induction n with
  | zero => simp
  | succ n ih =>
    obtain ⟨hlt, hbits⟩ := ih
    simp only [List.range_succ, List.map_append, List.sum_append, List.map_singleton, List.sum_singleton]
    rw [mul_comm w n, add_comm, mul_comm (c n)]
    have hsplit : 2 ^ ((n + 1) * w) = 2 ^ (n * w) * 2 ^ w := by rw [← pow_add, Nat.succ_mul]
    refine ⟨?_, fun p => ?_⟩
    · calc _ < 2 ^ (n * w) * c n + 2 ^ (n * w) := Nat.add_lt_add_left hlt _
        _ = 2 ^ (n * w) * (c n + 1) := by ring
        _ ≤ _ := by rw [hsplit]; exact Nat.mul_le_mul_left _ (hc n)
    · rw [Nat.testBit_two_pow_mul_add _ hlt, hbits]
      by_cases hp : p < n * w
      · simp [hp, hp.trans_le (Nat.mul_le_mul_right w n.le_succ)]
      · have hle := not_lt.1 hp
        by_cases hp' : p < (n + 1) * w
        · have hdiv : p / w = n := Nat.div_eq_of_lt_le hle hp'
          have hmod : p % w = p - n * w := by rw [Nat.mod_eq_sub_div_mul, hdiv]
          simp [hp, hp', hdiv, hmod]
        · have hover : (c n).testBit (p - n * w) = false :=
            Nat.testBit_lt_two_pow ((hc n).trans_le (Nat.pow_le_pow_right (by decide) (by rw [Nat.succ_mul] at hp'; omega)))
          simp [hp, hp', hover]

theorem sources_vSrcs_val (s : State) (ag : Agent) (a : BitVec 6) (k role : Nat) (acc : Accept) :
    (s.sources ag (vSrcs a k role acc)).map (·.val) =
      (List.range k).map fun j => valAt (s.sources ag (vSrcs a k role acc)) j := by
  apply List.ext_getElem
  · simp [State.sources, vSrcs, vGroup]
  · intro j h _
    have hj : j < (s.sources ag (vSrcs a k role acc)).length := by simpa using h
    simp [valAt, List.getD_eq_getElem?_getD, List.getElem?_eq_getElem hj]

theorem narrow_encode_lt {F : Fmt} (hF : F ∈ [Fmt.f8e4, .f8e5, .f6e2, .f6e3, .f4e2]) (rd : Reading) (x : FVal) :
    encodeFloat F rd .rn x < 2 ^ F.width := by
  have hfields : 0 < F.ew ∧ 0 < F.fw := by fin_cases hF <;> decide
  cases x with
  | nan => fin_cases hF <;> cases rd <;> decide
  | inf s => fin_cases hF <;> cases rd <;> cases s <;> decide
  | fin s k e => exact (F.roundRat_spec hfields.1 hfields.2 rd .rn s _ (pow2Ratio_pos e).2).1

/-- A register of narrow codes, bit by bit. -/
theorem packWindow_eq {F : Fmt} {rd : Reading} (hF : ∀ x, encodeFloat F rd .rn x < 2 ^ F.width) (x : Nat → Word) (k : Nat) :
    packWindow F rd ((List.range k).map x) = BitVec.ofFnLE fun p : Fin 32 => decide (p.val < k * F.width) &&
      (encodeFloat F rd .rn (valueOf .f32 (x (p.val / F.width)).toNat)).testBit (p.val % F.width) := by
  have hzip : (List.range k).zip ((List.range k).map x) = (List.range k).map fun j => (j, x j) := List.map_prod_left_eq_zip.symm
  apply BitVec.eq_of_getLsbD_eq
  intro i hi
  rw [packWindow, List.length_map, List.length_range, hzip, List.map_map, BitVec.getLsbD_ofNat, BitVec.getLsbD_eq_getElem hi,
    BitVec.getElem_ofFnLE]
  have hbits := (testBit_sum_digits (fun j => encodeFloat F rd .rn (valueOf .f32 (x j).toNat)) (fun j => hF _) k).2 i
  simpa [hi, Function.comp_def] using hbits

theorem zip_vGroup_map {β : Type} (d : BitVec 6) (k : Nat) (f : Nat × BitVec 6 → β) :
    ((List.range k).zip (vGroup d k)).map f = (List.range k).map fun j => f (j, d + BitVec.ofNat 6 j) := by
  rw [vGroup, ← List.map_prod_left_eq_zip, List.map_map]
  rfl

/-! ### The instructions (R70, R134, R137) -/

/-- Agents whose NREAD names the reading `rd` execute an instruction that takes it. -/
theorem reading_executes {s t : State} {o : Op} {code : Nat} {rd : Reading} (hcode : readingOf code = some rd)
    {g : Reading → List VReg → List Write} (h : s.AllReady o.who o.srcs o.dsts)
    (hread : ∀ ag ∈ s.issue.agents, nreadOf (s.ctx ag).tstate = code) (hbad : o.bad = none) (hpriv : o.priv = false)
    (hw : ∀ vs ag, o.who.allows ag = true → ∀ w ∈ g rd vs, w.fits ag)
    (ht : t = s.runGroup o noFixed fun s ag vs => match readingOf (nreadOf (s.ctx ag).tstate) with
      | none => s.illegal ag 7
      | some r => s.retire ag o.n latF (g r vs)) :
    OnlyAgents s t ∧ t.issue.now = s.issue.cycle ∧
      ∀ ag ∈ s.issue.agents, Executed s t ag o.n 5 (g rd (s.sources ag o.srcs)) ((s.ctx ag).pc + 4) := by
  subst ht
  exact State.runGroupWith_retires (need := o.grants) (opOf := fun _ _ => o) h hbad hpriv (fun _ _ _ _ => rfl)
    (fun u ag hag hsa _ => by simp only [hsa.1, hread ag hag, hcode]; rfl) fun ag hag => hw _ ag (h.2 ag hag).allowed

section
variable {i : Instr} {F : Fmt} {k : Nat} {t : Tag} {d a b : BitVec 6} {n : BitVec 3} {rd : Reading} {code : Nat}

/-- NPACK: the codes of the window, lowest first (R134). -/
theorem npack_executes (hi : ∀ s, exec i s = .next (s.npack F k t d a n)) (hF : F ∈ [Fmt.f8e4, .f8e5, .f6e2, .f6e3, .f4e2])
    (hcode : readingOf code = some rd) (ha : a.toNat % k = 0) {s : State} (h : s.AllReady .thread (vSrcs a k 0 (.exactly .f32)) [.v d])
    (hread : ∀ ag ∈ s.issue.agents, nreadOf (s.ctx ag).tstate = code) :
    ∃ t', exec i s = .next t' ∧ OnlyAgents s t' ∧ t'.issue.now = s.issue.cycle ∧ ∀ ag ∈ s.issue.agents,
      Executed s t' ag n 5 [wV d (BitVec.ofFnLE fun p : Fin 32 => decide (p.val < k * F.width) &&
        (encodeFloat F rd .rn (valueOf .f32 (valAt (s.sources ag (vSrcs a k 0 (.exactly .f32))) (p.val / F.width)).toNat)).testBit
          (p.val % F.width)) t] ((s.ctx ag).pc + 4) := by
  obtain ⟨hagents, hnow, hdone⟩ := reading_executes
    (o := { n := n, srcs := vSrcs a k 0 (.exactly .f32), dsts := [.v d], bad := groupBad [(a.toNat, k)], who := .thread })
    (g := fun r vs => [wV d (packWindow F r (vs.map (·.val))) t]) hcode h hread (groupBad_eq_none (by simp [ha])) rfl
    (fun _ _ h => List.forall_mem_singleton.2 (wV_fits _ _ _ h)) rfl
  refine ⟨_, hi s, hagents, hnow, fun ag hag => ?_⟩
  have hag := hdone ag hag
  rwa [sources_vSrcs_val, packWindow_eq (narrow_encode_lt hF rd)] at hag

/-- NUNPACK: the value of each code in F32 (R134). -/
theorem nunpack_executes (hi : ∀ s, exec i s = .next (s.nunpack F k t d a n)) (hcode : readingOf code = some rd)
    (hd : d.toNat % k = 0) {s : State} (h : s.AllReady .thread [vSrc a 0 (.exactly t)] ((vGroup d k).map Reg.v))
    (hread : ∀ ag ∈ s.issue.agents, nreadOf (s.ctx ag).tstate = code) :
    ∃ t', exec i s = .next t' ∧ OnlyAgents s t' ∧ t'.issue.now = s.issue.cycle ∧ ∀ ag ∈ s.issue.agents,
      Executed s t' ag n 5 ((List.range k).map fun j => wV (d + BitVec.ofNat 6 j)
        (unpackCode F rd (valAt (s.sources ag [vSrc a 0 (.exactly t)]) 0) j) .f32) ((s.ctx ag).pc + 4) := by
  obtain ⟨hagents, hnow, hdone⟩ := reading_executes
    (o := { n := n, srcs := [vSrc a 0 (.exactly t)], dsts := (vGroup d k).map Reg.v, bad := groupBad [(d.toNat, k)], who := .thread })
    (g := fun r vs => ((List.range k).zip (vGroup d k)).map fun p => wV p.2 (unpackCode F r (valAt vs 0) p.1) .f32) hcode h hread
    (groupBad_eq_none (by simp [hd])) rfl (fun _ _ h => List.forall_mem_map.2 fun _ _ => wV_fits _ _ _ h) rfl
  refine ⟨_, hi s, hagents, hnow, fun ag hag => ?_⟩
  have hag := hdone ag hag
  rwa [zip_vGroup_map] at hag

/-- DQ: the scale times each code less the zero point (R137). -/
theorem dq_completes {bits : Nat} (hi : ∀ s, exec i s = .next (s.dequantise bits k t d a b n)) (hd : d.toNat % k = 0) :
    FixedLatency i .thread [vSrc a 0 (.exactly t), vSrc b 1 .int32] ((vGroup d k).map Reg.v) n 5 fun vs =>
      (List.range k).map fun j => wV (d + BitVec.ofNat 6 j) (BitVec.ofNat 32 (dqCode ((valAt vs 1).extractLsb' 0 16).toNat
        ((valAt vs 1).extractLsb' 16 8).toNat ((valAt vs 0).toNat / 2 ^ (bits * j) % 2 ^ bits))) .f32 :=
  fixedLatency_of hi (groupBad_eq_none (by simp [hd])) (fun _ _ h => List.forall_mem_map.2 fun _ _ => wV_fits _ _ _ h) fun vs => by
    simp only [zip_vGroup_map, BitVec.extractLsb'_toNat, Nat.shiftRight_eq_div_pow]
    rfl

end

/-- Settles O14: the instructions take their reading from NREAD, and what they compute is exact in F32. -/
theorem lanePackDequantise : Obligations.LanePackDequantise := by
  intro d a b n rd code hcode
  refine ⟨fun F hF x s m e h => narrow_exact hF h, fun sc c z s => ⟨fun m e h => ?_, fun h => ?_, fun h => ?_⟩,
    ⟨?_, ?_, ?_, ?_, ?_⟩, ⟨?_, ?_, ?_, ?_, ?_⟩, ?_, ?_⟩
  · exact scale_mul_exact h (by omega)
  · rw [h, FVal.ofInt, FVal.inf_mul_fin]
    split_ifs with hzero hdiff hdiff
    · exact valueOf_f32_nanCode .rn
    · exact absurd (Int.natAbs_eq_zero.1 hzero) hdiff
    · exact absurd (Int.natAbs_eq_zero.2 hdiff) hzero
    · exact valueOf_roundF_inf .f32 .rn _
  · rw [h]
    exact valueOf_f32_nanCode .rn
  · exact fun ha s h => npack_executes (fun _ => rfl) (by simp) hcode ha h
  · exact fun ha s h => npack_executes (fun _ => rfl) (by simp) hcode ha h
  · exact fun ha s h => npack_executes (fun _ => rfl) (by simp) hcode ha h
  · exact fun ha s h => npack_executes (fun _ => rfl) (by simp) hcode ha h
  · exact fun ha s h => npack_executes (fun _ => rfl) (by simp) hcode ha h
  · exact fun hd s h => nunpack_executes (fun _ => rfl) hcode hd h
  · exact fun hd s h => nunpack_executes (fun _ => rfl) hcode hd h
  · exact fun hd s h => nunpack_executes (fun _ => rfl) hcode hd h
  · exact fun hd s h => nunpack_executes (fun _ => rfl) hcode hd h
  · exact fun hd s h => nunpack_executes (fun _ => rfl) hcode hd h
  · exact dq_completes fun _ => rfl
  · exact dq_completes fun _ => rfl

end Sys2Proof.Machine
end

section
/-! FRCP, FRSQ and FSQRT (R132): the F32 codes on both sides of a real magnitude. -/

namespace Sys2Proof.Machine

/-! ### Codes as real numbers -/

/-- The real value of an F32 code; 0 where it is no finite value. -/
noncomputable def f32Real (y : Nat) : ℝ :=
  match valueOf .f32 y with
  | .fin t k q => (if t then -1 else 1) * (k : ℝ) * (2 : ℝ) ^ q
  | _ => 0

/-- The magnitude of an F32 code as a real number, with the exponent field unbounded above. -/
noncomputable def f32Mag (c : Nat) : ℝ := (Fmt.f32.codeMag c : ℚ)

theorem f32Mag_strictMono : StrictMono f32Mag := fun _ _ h => Rat.cast_lt.2 (Fmt.f32.codeMag_strictMono h)

theorem f32Real_of_isFin {code : Nat} {s : Bool} {y : ℚ} (h : Fmt.f32.IsFin .ieee code s y) :
    f32Real code = (if s then -1 else 1) * (y : ℝ) := by
  obtain ⟨j, q, hvalue, rfl⟩ := h
  rw [← valueOf] at hvalue
  rw [f32Real, hvalue]
  push_cast
  ring

theorem f32Real_signBit_add (s : Bool) {c : Nat} (hc : c ≤ Fmt.f32.maxCode .ieee) :
    f32Real (Fmt.f32.signBit s + c) = (if s then -1 else 1) * f32Mag c :=
  f32Real_of_isFin (Fmt.f32.isFin_signBit_add (by decide) s hc)

theorem f32Real_of_le {c : Nat} (hc : c ≤ Fmt.f32.maxCode .ieee) : f32Real c = f32Mag c := by
  have h := f32Real_signBit_add false hc
  rwa [Fmt.signBit, if_neg Bool.false_ne_true, zero_add, if_neg Bool.false_ne_true, one_mul] at h

theorem f32_maxCode_eq : Fmt.f32.maxCode .ieee = 0x7F7FFFFF := by decide

theorem f32Mag_maxCode : f32Mag (Fmt.f32.maxCode .ieee) = 2 ^ 128 - 2 ^ 104 := by
  rw [f32Mag, f32_codeMag_maxCode]
  norm_num

/-- The code is the magnitude, or one of the two codes next to it (R132). -/
def FaithfulCode (r : Nat) (y : ℝ) : Prop :=
  r < 0x7F800000 ∧
    (f32Real r = y ∨ (f32Real r < y ∧ y < f32Real (r + 1)) ∨ (0 < r ∧ y < f32Real r ∧ f32Real (r - 1) < y))

/-- The lower code is the magnitude itself, or the two codes are neighbours about it. -/
structure Brackets (lo hi : Nat) (exact : Bool) (y : ℝ) : Prop where
  whole : exact = true → f32Mag lo = y
  next : exact = false → hi = lo + 1 ∧ f32Mag lo < y ∧ y < f32Mag hi

theorem Brackets.faithful {lo hi : Nat} {exact : Bool} {y : ℝ} (h : Brackets lo hi exact y) (hy : y ≤ 2 ^ 128 - 2 ^ 104)
    {r : Nat} (hr : r ∈ faithful exact lo hi) : FaithfulCode r y := by
  rw [← f32Mag_maxCode] at hy
  cases exact with
  | true =>
    have hlo := h.whole rfl
    have hmax : lo ≤ Fmt.f32.maxCode .ieee := f32Mag_strictMono.le_iff_le.1 (hlo.trans_le hy)
    obtain rfl : r = lo := List.mem_singleton.1 hr
    refine ⟨by rw [f32_maxCode_eq] at hmax; omega, .inl ?_⟩
    rw [f32Real_of_le hmax, hlo]
  | false =>
    obtain ⟨rfl, hlo, hhi⟩ := h.next rfl
    have hmax : lo < Fmt.f32.maxCode .ieee := f32Mag_strictMono.lt_iff_lt.1 (hlo.trans_le hy)
    rw [← f32Real_of_le hmax.le] at hlo
    rw [← f32Real_of_le hmax] at hhi
    rw [f32_maxCode_eq] at hmax
    obtain rfl | rfl := List.mem_pair.1 hr
    · exact ⟨by omega, .inr (.inl ⟨hlo, hhi⟩)⟩
    · exact ⟨by omega, .inr (.inr ⟨Nat.succ_pos lo, hhi, hlo⟩)⟩

theorem faithful_ne_nil (exact : Bool) (lo hi : Nat) : faithful exact lo hi ≠ [] := by
  cases exact <;> simp [faithful]

/-! ### FRCP -/

/-- The codes of a ratio rounded down and up. -/
theorem roundCode_brackets {num den : Nat} (hden : 0 < den) :
    Brackets (roundCode .f32 .rz false num den) (roundCode .f32 .ru false num den)
      (roundCode .f32 .rz false num den == roundCode .f32 .ru false num den) ((num / den : ℚ) : ℝ) := by
  have hdown := (Fmt.f32.roundsTo_iff_of_toward (.inl rfl) _ _).1 (Fmt.f32.roundsTo_roundCode (by decide) .rz false num hden)
  have hup := (Fmt.f32.roundsTo_iff_of_away (.inr ⟨rfl, rfl⟩) _ _).1 (Fmt.f32.roundsTo_roundCode (by decide) .ru false num hden)
  revert hdown hup
  generalize roundCode .f32 .rz false num den = lo
  generalize roundCode .f32 .ru false num den = hi
  generalize (num : ℚ) / den = y
  rintro ⟨-, hlo, hgreatest⟩ ⟨-, hhi, hleast⟩
  have hnext : y < Fmt.f32.codeMag (lo + 1) := lt_of_not_ge fun hle =>
    (Fmt.f32.codeMag_strictMono lo.lt_succ_self).not_ge (hgreatest _ (Fmt.f32.codeMag_representable _) hle)
  refine ⟨fun h => ?_, fun h => ?_⟩
  · obtain rfl := beq_iff_eq.1 h
    rw [f32Mag, le_antisymm hlo hhi]
  · have hne : lo ≠ hi := beq_eq_false_iff_ne.1 h
    have hle : lo ≤ hi := Fmt.f32.codeMag_strictMono.le_iff_le.1 (hlo.trans hhi)
    have hle' : hi ≤ lo + 1 := Fmt.f32.codeMag_strictMono.le_iff_le.1 (hleast _ (Fmt.f32.codeMag_representable _) hnext.le)
    obtain rfl : hi = lo + 1 := by omega
    refine ⟨rfl, Rat.cast_lt.2 (lt_of_le_of_ne hlo fun heq => ?_), Rat.cast_lt.2 hnext⟩
    have hback := hleast _ (Fmt.f32.codeMag_representable lo) heq.ge
    exact (Fmt.f32.codeMag_strictMono lo.lt_succ_self).not_ge hback

theorem frcpSet_eq {x : Nat} {s : Bool} {m : Nat} {e : Int} (h : valueOf .f32 x = .fin s m e) (hm : m ≠ 0) :
    frcpSet x =
      let lo := roundCode .f32 .rz false (pow2Ratio e).2 (m * (pow2Ratio e).1)
      let hi := roundCode .f32 .ru false (pow2Ratio e).2 (m * (pow2Ratio e).1)
      if (2 ^ 128 - 2 ^ 104) * (m * (pow2Ratio e).1) < (pow2Ratio e).2 then [Fmt.f32.signBit s + Fmt.f32.infCode]
      else (faithful (lo == hi) lo hi).map (Fmt.f32.signBit s + ·) := by
  simp [frcpSet, h, hm]

/-- The reciprocal of a finite value as a ratio. -/
theorem pow2Ratio_inv (m : Nat) (e : Int) :
    (((pow2Ratio e).2 : ℚ) / (m * (pow2Ratio e).1 : Nat) : ℚ) = 1 / (m * (2 : ℚ) ^ e) := by
  rw [← cast_mul_pow2Ratio_div, one_div_div]

theorem lt_inv_iff_mul_lt {m : Nat} (hm : m ≠ 0) (e : Int) (top : Nat) :
    top * (m * (pow2Ratio e).1) < (pow2Ratio e).2 ↔ (top : ℝ) < 1 / (m * (2 : ℝ) ^ e) := by
  have hpos : 0 < m * (pow2Ratio e).1 := Nat.mul_pos (Nat.pos_of_ne_zero hm) (pow2Ratio_pos e).1
  have hratio : (top : ℚ) < 1 / (m * (2 : ℚ) ^ e) ↔ top * (m * (pow2Ratio e).1) < (pow2Ratio e).2 := by
    rw [← pow2Ratio_inv, lt_div_iff₀ (Nat.cast_pos.2 hpos)]
    exact_mod_cast Iff.rfl
  rw [← hratio, ← Rat.cast_lt (K := ℝ)]
  push_cast
  rfl

/-- FRCP overflows exactly where the reciprocal exceeds the greatest finite magnitude. -/
theorem frcpSet_of_lt {x : Nat} {s : Bool} {m : Nat} {e : Int} (h : valueOf .f32 x = .fin s m e) (hm : m ≠ 0)
    (htop : (2 ^ 128 - 2 ^ 104 : ℝ) < 1 / (m * (2 : ℝ) ^ e)) : frcpSet x = [Fmt.f32.signBit s + Fmt.f32.infCode] := by
  rw [frcpSet_eq h hm]
  refine if_pos ((lt_inv_iff_mul_lt hm e _).2 (lt_of_eq_of_lt ?_ htop))
  norm_num

theorem frcpSet_of_le {x : Nat} {s : Bool} {m : Nat} {e : Int} (h : valueOf .f32 x = .fin s m e) (hm : m ≠ 0)
    (htop : 1 / (m * (2 : ℝ) ^ e) ≤ 2 ^ 128 - 2 ^ 104) :
    frcpSet x ≠ [] ∧ ∀ r ∈ frcpSet x, ∃ r0, r = Fmt.f32.signBit s + r0 ∧ FaithfulCode r0 (1 / (m * (2 : ℝ) ^ e)) := by
  have hsmall : ¬ (2 ^ 128 - 2 ^ 104) * (m * (pow2Ratio e).1) < (pow2Ratio e).2 := by
    rw [lt_inv_iff_mul_lt hm]
    refine not_lt.2 (htop.trans_eq ?_)
    norm_num
  have hpos : 0 < m * (pow2Ratio e).1 := Nat.mul_pos (Nat.pos_of_ne_zero hm) (pow2Ratio_pos e).1
  have hbracket := roundCode_brackets (num := (pow2Ratio e).2) hpos
  rw [pow2Ratio_inv] at hbracket
  push_cast at hbracket
  rw [frcpSet_eq h hm]
  dsimp only
  rw [if_neg hsmall]
  refine ⟨by simpa using faithful_ne_nil _ _ _, fun r hr => ?_⟩
  obtain ⟨r0, hr0, rfl⟩ := List.mem_map.1 hr
  exact ⟨r0, rfl, hbracket.faithful htop hr0⟩

/-! ### Integer square roots -/

theorem isqrtAux_spec (n k r : Nat) (hlow : r * r ≤ n) (hhigh : n < (r + 2 ^ (k + 1)) * (r + 2 ^ (k + 1))) :
    isqrtAux n k r * isqrtAux n k r ≤ n ∧ n < (isqrtAux n k r + 1) * (isqrtAux n k r + 1) := by
  induction k generalizing r with
  | zero =>
    rw [isqrtAux]
    split
    next h => exact ⟨h, hhigh⟩
    next h => exact ⟨hlow, not_le.1 h⟩
  | succ k ih =>
    rw [isqrtAux]
    split
    next h =>
      refine ih _ h (hhigh.trans_eq ?_)
      ring
    next h => exact ih r hlow (not_le.1 h)

theorem isqrt_eq_sqrt (n : Nat) : isqrt n = n.sqrt := by
  refine Nat.eq_sqrt.2 (isqrtAux_spec n _ 0 n.zero_le ?_)
  calc n < 2 ^ (n.log2 + 1) := Nat.lt_log2_self
    _ ≤ 2 ^ ((n.log2 / 2 + 1) + (n.log2 / 2 + 1)) := Nat.pow_le_pow_right (by decide) (by omega)
    _ = _ := by rw [zero_add, pow_add]

/-! ### FRSQ and FSQRT -/

/-- The significand and the unit of a code, read off its parts. -/
theorem Fmt.code_fields_add (F : Fmt) {t k : Nat} (hk : k < 2 ^ (F.fw + 1)) (hlow : 2 ^ F.fw ≤ k) :
    F.codeSig (t * 2 ^ F.fw + k) = k ∧ F.codeExp (t * 2 ^ F.fw + k) = F.qmin + t := by
  obtain ⟨n, rfl⟩ := Nat.exists_eq_add_of_le hlow
  have hn : n < 2 ^ F.fw := by rw [pow_succ] at hk; omega
  have hcode : t * 2 ^ F.fw + (2 ^ F.fw + n) = n + 2 ^ F.fw * (t + 1) := by ring
  have hdiv : (n + 2 ^ F.fw * (t + 1)) / 2 ^ F.fw = t + 1 := by
    rw [Nat.add_mul_div_left _ _ (Nat.two_pow_pos _), Nat.div_eq_of_lt hn, zero_add]
  have hmod : (n + 2 ^ F.fw * (t + 1)) % 2 ^ F.fw = n := by rw [Nat.add_mul_mod_self_left, Nat.mod_eq_of_lt hn]
  rw [hcode, codeSig, codeExp, hdiv, hmod, if_neg t.succ_ne_zero, if_neg t.succ_ne_zero]
  exact ⟨rfl, by push_cast; ring⟩

/-- The integer logarithm of a ratio between two powers of two. -/
theorem ratioLog2_mem {num den : Nat} (hnum : 0 < num) (hden : 0 < den) {a b : Int} (ha : (2 : ℚ) ^ a ≤ (num : ℚ) / den)
    (hb : (num : ℚ) / den < (2 : ℚ) ^ b) : a ≤ ratioLog2 num den ∧ ratioLog2 num den < b := by
  obtain ⟨hlow, hhigh⟩ := ratioLog2_bounds hnum hden
  have h1 := (zpow_lt_zpow_iff_right₀ (one_lt_two (α := ℚ))).1 (ha.trans_lt hhigh)
  have h2 := (zpow_lt_zpow_iff_right₀ (one_lt_two (α := ℚ))).1 (hlow.trans_lt hb)
  omega

/-- The code `lo` has the significand `k`, normal, in the unit `2 ^ q`, and `y` lies from the square of its magnitude on, below that of
the next code. -/
structure RootCode (y : ℚ) (lo k : Nat) (q : Int) : Prop where
  sigLow : 2 ^ 23 ≤ k
  sigHigh : k < 2 ^ 24
  unitLow : -149 ≤ q
  unitHigh : q ≤ 77
  code : lo = (q - Fmt.f32.qmin).toNat * 2 ^ Fmt.f32.fw + k
  below : (k * (2 : ℚ) ^ q) ^ 2 ≤ y
  above : y < ((k + 1) * (2 : ℚ) ^ q) ^ 2

/-- Halving the exponent of a ratio leaves a count of units between 2^46 and 2^48. -/
theorem root_unit_bounds {y : ℚ} {l : Int} (hbelow : (2 : ℚ) ^ l ≤ y) (habove : y < (2 : ℚ) ^ (l + 1)) :
    (2 : ℚ) ^ 46 ≤ y / (2 : ℚ) ^ (2 * (l / 2 - 23)) ∧ y / (2 : ℚ) ^ (2 * (l / 2 - 23)) < (2 : ℚ) ^ 48 := by
  have hpos : (0 : ℚ) < (2 : ℚ) ^ (2 * (l / 2 - 23)) := by positivity
  rw [le_div_iff₀ hpos, div_lt_iff₀ hpos, ← zpow_natCast, ← zpow_natCast, ← zpow_add₀ two_ne_zero, ← zpow_add₀ two_ne_zero]
  exact ⟨(zpow_le_zpow_right₀ one_le_two (by push_cast; omega)).trans hbelow,
    habove.trans_le (zpow_le_zpow_right₀ one_le_two (by push_cast; omega))⟩

theorem mul_zpow_sq (k : ℚ) (q : Int) : (k * (2 : ℚ) ^ q) ^ 2 = k ^ 2 * (2 : ℚ) ^ (2 * q) := by
  rw [mul_pow, ← zpow_natCast ((2 : ℚ) ^ q), ← zpow_mul, mul_comm q]
  rfl

/-- The integer root of the whole part of a ratio between 2^46 and 2^48 has 24 bits. -/
theorem sqrt_div_bounds {n d : Nat} (hd : 0 < d) (hmin : (2 : ℚ) ^ 46 ≤ (n : ℚ) / d) (hmax : (n : ℚ) / d < (2 : ℚ) ^ 48) :
    2 ^ 23 ≤ (n / d).sqrt ∧ (n / d).sqrt < 2 ^ 24 ∧ ((n / d).sqrt : ℚ) ^ 2 ≤ n / d ∧ (n : ℚ) / d < ((n / d).sqrt + 1) ^ 2 := by
  have hdQ : (0 : ℚ) < d := Nat.cast_pos.2 hd
  obtain ⟨hsq, hsq'⟩ := Nat.eq_sqrt.1 (rfl : (n / d).sqrt = (n / d).sqrt)
  rw [Nat.le_div_iff_mul_le hd] at hsq
  rw [Nat.div_lt_iff_lt_mul hd] at hsq'
  revert hsq hsq'
  generalize (n / d).sqrt = k
  intro hsq hsq'
  have hbelow : (k : ℚ) ^ 2 ≤ n / d := by
    rw [le_div_iff₀ hdQ, sq]
    exact_mod_cast hsq
  have habove : (n : ℚ) / d < ((k : ℚ) + 1) ^ 2 := by
    rw [div_lt_iff₀ hdQ, sq]
    exact_mod_cast hsq'
  have hlow : ((2 : ℚ) ^ 23) ^ 2 < ((k : ℚ) + 1) ^ 2 := by
    rw [← pow_mul]
    exact hmin.trans_lt habove
  have hhigh : (k : ℚ) ^ 2 < ((2 : ℚ) ^ 24) ^ 2 := by
    rw [← pow_mul]
    exact hbelow.trans_lt hmax
  exact ⟨Nat.lt_succ_iff.1 (by exact_mod_cast lt_of_pow_lt_pow_left₀ 2 (by positivity) hlow),
    by exact_mod_cast lt_of_pow_lt_pow_left₀ 2 (by positivity) hhigh, hbelow, habove⟩

theorem sqrtBracket_spec {num den : Nat} (hnum : 0 < num) (hden : 0 < den) (hlow : (2 : ℚ) ^ (-250 : Int) ≤ (num : ℚ) / den)
    (hhigh : (num : ℚ) / den < (2 : ℚ) ^ (200 : Int)) :
    ∃ lo k q, RootCode ((num : ℚ) / den) lo k q ∧ (sqrtBracket num den).1 = lo ∧ (sqrtBracket num den).2.1 = lo + 1 ∧
      ((sqrtBracket num den).2.2 = true ↔ (k * (2 : ℚ) ^ q) ^ 2 = (num : ℚ) / den) := by
  obtain ⟨hl, hl'⟩ := ratioLog2_mem hnum hden hlow hhigh
  obtain ⟨hmin, hmax⟩ := (ratioLog2_bounds hnum hden).elim root_unit_bounds
  have hfdiv : (ratioLog2 num den).fdiv 2 - 23 = ratioLog2 num den / 2 - 23 := by rw [Int.fdiv_eq_ediv_of_nonneg _ (by decide)]
  have hq : -149 ≤ ratioLog2 num den / 2 - 23 ∧ ratioLog2 num den / 2 - 23 ≤ 77 := by omega
  simp only [sqrtBracket, hfdiv, isqrt_eq_sqrt]
  revert hmin hmax hq
  generalize ratioLog2 num den / 2 - 23 = q
  rintro hmin hmax ⟨hq, hq'⟩
  have hunit : (0 : ℚ) < (2 : ℚ) ^ (2 * q) := by positivity
  have hd : 0 < den * (pow2Ratio (2 * q)).1 := Nat.mul_pos hden (pow2Ratio_pos _).1
  have hcount : ((num * (pow2Ratio (2 * q)).2 : Nat) : ℚ) / (den * (pow2Ratio (2 * q)).1 : Nat) =
      (num : ℚ) / den / (2 : ℚ) ^ (2 * q) := by
    rw [← pow2Ratio_div, Nat.cast_mul, Nat.cast_mul]
    field_simp
  rw [← hcount] at hmin hmax
  obtain ⟨hsig, hsig', hbelow, habove⟩ := sqrt_div_bounds hd hmin hmax
  refine ⟨_, _, q, ⟨hsig, hsig', hq, hq', rfl, ?_, ?_⟩, rfl, rfl, ?_⟩
  · rw [mul_zpow_sq, ← le_div_iff₀ hunit, ← hcount]
    exact hbelow
  · rw [mul_zpow_sq, ← div_lt_iff₀ hunit, ← hcount]
    exact habove
  · rw [mul_zpow_sq, ← eq_div_iff hunit.ne', ← hcount, eq_div_iff (Nat.cast_pos.2 hd).ne', beq_iff_eq, sq]
    exact_mod_cast Iff.rfl

namespace RootCode

variable {y : ℚ} {lo k : Nat} {q : Int} (h : RootCode y lo k q)
include h

theorem unit_eq : Fmt.f32.qmin + ((q - Fmt.f32.qmin).toNat : Int) = q := by
  have hmin : Fmt.f32.qmin ≤ q := h.unitLow
  rw [Int.toNat_of_nonneg (Int.sub_nonneg.2 hmin), add_sub_cancel]

theorem code_lt : 0 < lo ∧ lo + 3 ≤ Fmt.f32.maxCode .ieee := by
  have hcode : lo = (q + 149).toNat * 8388608 + k := h.code
  have hsig := h.sigLow
  have hsig' := h.sigHigh
  have hunit := h.unitHigh
  rw [f32_maxCode_eq]
  omega

theorem value : valueOf .f32 lo = .fin false k q := by
  obtain ⟨hsig, hexp⟩ := Fmt.f32.code_fields_add (t := (q - Fmt.f32.qmin).toNat) h.sigHigh h.sigLow
  rw [← h.code] at hsig hexp
  have hvalue := Fmt.f32.value_signBit_add (by decide) false ((Nat.le_add_right _ _).trans h.code_lt.2)
  rwa [hsig, hexp, h.unit_eq, Fmt.signBit, if_neg Bool.false_ne_true, zero_add] at hvalue

theorem mag : f32Mag lo = k * (2 : ℝ) ^ q := by
  have hmag := Fmt.f32.codeMag_add (t := (q - Fmt.f32.qmin).toNat) h.sigHigh.le (.inl h.sigLow)
  rw [h.unit_eq, ← h.code] at hmag
  rw [f32Mag, hmag]
  push_cast
  rfl

theorem mag_succ : f32Mag (lo + 1) = (k + 1) * (2 : ℝ) ^ q := by
  have hmag := Fmt.f32.codeMag_add (t := (q - Fmt.f32.qmin).toNat) (k := k + 1) h.sigHigh (.inl (Nat.le_succ_of_le h.sigLow))
  rw [h.unit_eq, ← add_assoc, ← h.code] at hmag
  rw [f32Mag, hmag]
  push_cast
  rfl

theorem below_real : f32Mag lo ^ 2 ≤ (y : ℝ) := by
  have hbelow := (Rat.cast_le (K := ℝ)).2 h.below
  push_cast at hbelow
  rwa [h.mag]

theorem le_sqrt : f32Mag lo ≤ √(y : ℝ) := Real.le_sqrt_of_sq_le h.below_real

theorem sqrt_lt : √(y : ℝ) < f32Mag (lo + 1) := by
  have habove := (Rat.cast_lt (K := ℝ)).2 h.above
  push_cast at habove
  rw [h.mag_succ]
  exact (Real.sqrt_lt' (by positivity)).2 habove

theorem exact_iff : (k * (2 : ℚ) ^ q) ^ 2 = y ↔ f32Mag lo = √(y : ℝ) := by
  have hnonneg : 0 ≤ f32Mag lo := by
    rw [h.mag]
    positivity
  have hy : (0 : ℝ) ≤ y := (sq_nonneg _).trans h.below_real
  rw [← Rat.cast_inj (α := ℝ), eq_comm (b := √(y : ℝ)), Real.sqrt_eq_iff_eq_sq hy hnonneg, h.mag, eq_comm]
  push_cast
  rfl

theorem brackets {exact : Bool} (hexact : exact = true ↔ (k * (2 : ℚ) ^ q) ^ 2 = y) : Brackets lo (lo + 1) exact √(y : ℝ) where
  whole he := h.exact_iff.1 (hexact.1 he)
  next he := by
    refine ⟨rfl, lt_of_le_of_ne h.le_sqrt fun heq => ?_, h.sqrt_lt⟩
    rw [hexact.2 (h.exact_iff.2 heq)] at he
    cases he

end RootCode

/-- A finite F32 magnitude other than zero. -/
theorem f32_fin_bounds {x : Nat} {s : Bool} {m : Nat} {e : Int} (h : valueOf .f32 x = .fin s m e) (hm : m ≠ 0) :
    (2 : ℚ) ^ (-149 : Int) ≤ m * (2 : ℚ) ^ e ∧ m * (2 : ℚ) ^ e < (2 : ℚ) ^ (131 : Int) := by
  obtain ⟨hsig, hlow, hhigh⟩ := Fmt.fin_bounds h
  have hmin : Fmt.f32.qmin = -149 := rfl
  have hmax : Fmt.f32.qmin + (2 ^ Fmt.f32.ew : Nat) = 107 := rfl
  rw [hmin] at hlow
  rw [hmax] at hhigh
  have hpos : (1 : ℚ) ≤ m := by exact_mod_cast Nat.pos_of_ne_zero hm
  have hsigQ : (m : ℚ) < 2 ^ (24 : Int) := by exact_mod_cast hsig
  constructor
  · calc (2 : ℚ) ^ (-149 : Int) ≤ (2 : ℚ) ^ e := zpow_le_zpow_right₀ one_le_two hlow
      _ ≤ m * (2 : ℚ) ^ e := le_mul_of_one_le_left (by positivity) hpos
  · calc m * (2 : ℚ) ^ e < 2 ^ (24 : Int) * (2 : ℚ) ^ (107 : Int) :=
          mul_lt_mul hsigQ (zpow_le_zpow_right₀ one_le_two hhigh) (by positivity) (by positivity)
      _ = _ := by rw [← zpow_add₀ two_ne_zero]; rfl

theorem frsqSet_eq {x : Nat} {m : Nat} {e : Int} (h : valueOf .f32 x = .fin false m e) (hm : m ≠ 0) :
    frsqSet x = faithful (sqrtBracket (pow2Ratio e).2 (m * (pow2Ratio e).1)).2.2
      (sqrtBracket (pow2Ratio e).2 (m * (pow2Ratio e).1)).1 (sqrtBracket (pow2Ratio e).2 (m * (pow2Ratio e).1)).2.1 := by
  simp [frsqSet, h, hm]

/-- The members for the reciprocal root are the codes about it. -/
theorem frsqSet_faithful {x : Nat} {m : Nat} {e : Int} (h : valueOf .f32 x = .fin false m e) (hm : m ≠ 0) :
    frsqSet x ≠ [] ∧ ∀ r ∈ frsqSet x, FaithfulCode r (1 / √(m * (2 : ℝ) ^ e)) := by
  have hpos : 0 < m * (pow2Ratio e).1 := Nat.mul_pos (Nat.pos_of_ne_zero hm) (pow2Ratio_pos e).1
  obtain ⟨hmin, hmax⟩ := f32_fin_bounds h hm
  have hmag : (0 : ℚ) < m * (2 : ℚ) ^ e := lt_of_lt_of_le (by positivity) hmin
  have hlow : (2 : ℚ) ^ (-250 : Int) ≤ ((pow2Ratio e).2 : ℚ) / (m * (pow2Ratio e).1 : Nat) := by
    rw [pow2Ratio_inv, le_div_iff₀ hmag]
    calc _ ≤ (2 : ℚ) ^ (-250 : Int) * 2 ^ (131 : Int) := mul_le_mul_of_nonneg_left hmax.le (by positivity)
      _ ≤ 1 := by norm_num
  have hhigh : ((pow2Ratio e).2 : ℚ) / (m * (pow2Ratio e).1 : Nat) < (2 : ℚ) ^ (200 : Int) := by
    rw [pow2Ratio_inv, div_lt_iff₀ hmag]
    calc (1 : ℚ) < (2 : ℚ) ^ (200 : Int) * 2 ^ (-149 : Int) := by norm_num
      _ ≤ _ := mul_le_mul_of_nonneg_left hmin (by positivity)
  obtain ⟨lo, k, q, hroot, hlo, hhi, hexact⟩ := sqrtBracket_spec (pow2Ratio_pos e).2 hpos hlow hhigh
  have hinv : 1 / √(m * (2 : ℝ) ^ e) = √(((((pow2Ratio e).2 : ℚ) / (m * (pow2Ratio e).1 : Nat) : ℚ)) : ℝ) := by
    rw [pow2Ratio_inv]
    push_cast
    rw [Real.sqrt_div zero_le_one, Real.sqrt_one]
  have hbracket := hroot.brackets hexact
  rw [frsqSet_eq h hm, hlo, hhi, hinv]
  refine ⟨faithful_ne_nil _ _ _, fun r hr => hbracket.faithful ?_ hr⟩
  rw [← f32Mag_maxCode]
  exact hroot.sqrt_lt.le.trans (f32Mag_strictMono.monotone (by have := hroot.code_lt.2; omega))

/-- The square of a middle between two codes against a ratio, in integers. -/
theorem middle_sq_lt_iff (k m : Nat) (q e : Int) :
    (2 * k + 1) * (2 * k + 1) * (pow2Ratio (2 * q - 2)).1 * (pow2Ratio e).2 < m * (pow2Ratio e).1 * (pow2Ratio (2 * q - 2)).2 ↔
      ((2 * k + 1) * (2 : ℚ) ^ (q - 1)) ^ 2 < m * (2 : ℚ) ^ e := by
  have hr : (0 : ℚ) < (pow2Ratio (2 * q - 2)).2 := Nat.cast_pos.2 (pow2Ratio_pos _).2
  have hd : (0 : ℚ) < (pow2Ratio e).2 := Nat.cast_pos.2 (pow2Ratio_pos e).2
  rw [mul_zpow_sq, mul_sub, mul_one, ← pow2Ratio_div, ← pow2Ratio_div, ← mul_div_assoc, ← mul_div_assoc, div_lt_div_iff₀ hr hd, sq]
  exact_mod_cast Iff.rfl

/-- FSQRT as its parts give it. The reading of a code and the root's codes stand as variables: the kernel would try to evaluate
them on the symbolic code `lo`. -/
theorem fsqrt32_of {value : Nat → FVal} {bracket : Nat → Nat → Nat × Nat × Bool} {x m p d lo hi k p2 r2 : Nat} {e q : Int}
    {exact : Bool} (hvalue : valueOf .f32 = value) (hbracket : sqrtBracket = bracket) (h : value x = .fin false m e) (hm : m ≠ 0)
    (hp : pow2Ratio e = (p, d)) (hroot : bracket (m * p) d = (lo, hi, exact)) (hlo : value lo = .fin false k q)
    (hp2 : pow2Ratio (2 * q - 2) = (p2, r2)) :
    fsqrt32 x = if (2 * k + 1) * (2 * k + 1) * p2 * d < m * p * r2 then hi else lo := by
  rw [fsqrt32, hvalue, hbracket]
  simp only [h, hp, hroot, hlo, hp2, beq_iff_eq, hm, if_false, Bool.false_eq_true]

/-- FSQRT takes the code of the root, or the next where the root lies above the middle of the two. -/
theorem fsqrt32_eq {x : Nat} {m : Nat} {e : Int} (h : valueOf .f32 x = .fin false m e) (hm : m ≠ 0) {lo k : Nat} {q : Int}
    (hroot : RootCode (m * (2 : ℚ) ^ e) lo k q) (hlo : (sqrtBracket (m * (pow2Ratio e).1) (pow2Ratio e).2).1 = lo)
    (hhi : (sqrtBracket (m * (pow2Ratio e).1) (pow2Ratio e).2).2.1 = lo + 1) :
    fsqrt32 x = if ((2 * k + 1) * (2 : ℚ) ^ (q - 1)) ^ 2 < m * (2 : ℚ) ^ e then lo + 1 else lo := by
  rw [fsqrt32_of rfl rfl h hm rfl (Prod.ext hlo (Prod.ext hhi rfl)) hroot.value rfl]
  exact if_congr (middle_sq_lt_iff k m q e) rfl rfl

/-- The rounded root lies within half the distance to each neighbour of the root. -/
theorem fsqrt32_nearest {x : Nat} {m : Nat} {e : Int} (h : valueOf .f32 x = .fin false m e) (hm : m ≠ 0) :
    0 < fsqrt32 x ∧ fsqrt32 x < 0x7F7FFFFF ∧ 2 * √(m * (2 : ℝ) ^ e) ≤ f32Real (fsqrt32 x) + f32Real (fsqrt32 x + 1) ∧
      f32Real (fsqrt32 x - 1) + f32Real (fsqrt32 x) ≤ 2 * √(m * (2 : ℝ) ^ e) := by
  have hpos : 0 < m * (pow2Ratio e).1 := Nat.mul_pos (Nat.pos_of_ne_zero hm) (pow2Ratio_pos e).1
  obtain ⟨hmin, hmax⟩ := f32_fin_bounds h hm
  have hspec := sqrtBracket_spec hpos (pow2Ratio_pos e).2
  rw [cast_mul_pow2Ratio_div] at hspec
  obtain ⟨lo, k, q, hroot, hlo, hhi, -⟩ := hspec ((zpow_le_zpow_right₀ one_le_two (by decide)).trans hmin)
    (hmax.trans_le (zpow_le_zpow_right₀ one_le_two (by decide)))
  obtain ⟨hcode, hcode'⟩ := hroot.code_lt
  have hbelow := hroot.le_sqrt
  have habove := hroot.sqrt_lt
  have hcast : (((m * (2 : ℚ) ^ e : ℚ)) : ℝ) = m * (2 : ℝ) ^ e := by push_cast; rfl
  rw [hcast] at hbelow habove
  have hmiddle : f32Mag lo + f32Mag (lo + 1) = 2 * ((2 * k + 1) * (2 : ℝ) ^ (q - 1)) := by
    rw [hroot.mag, hroot.mag_succ, zpow_sub_one₀ two_ne_zero]
    ring
  have hmono : ∀ c, f32Mag c ≤ f32Mag (c + 1) := fun c => (f32Mag_strictMono c.lt_succ_self).le
  rw [fsqrt32_eq h hm hroot hlo hhi]
  rw [f32_maxCode_eq] at hcode'
  split_ifs with hmid
  · have hroot' : (2 * k + 1) * (2 : ℝ) ^ (q - 1) < √(m * (2 : ℝ) ^ e) := by
      refine Real.lt_sqrt_of_sq_lt ?_
      have := (Rat.cast_lt (K := ℝ)).2 hmid
      push_cast at this
      exact this
    have := hmono (lo + 1)
    rw [Nat.add_sub_cancel, f32Real_of_le (by rw [f32_maxCode_eq]; omega), f32Real_of_le (by rw [f32_maxCode_eq]; omega),
      f32Real_of_le (by rw [f32_maxCode_eq]; omega)]
    exact ⟨Nat.succ_pos lo, by omega, by linarith, by linarith⟩
  · have hroot' : √(m * (2 : ℝ) ^ e) ≤ (2 * k + 1) * (2 : ℝ) ^ (q - 1) := by
      refine Real.sqrt_le_iff.2 ⟨by positivity, ?_⟩
      have := (Rat.cast_le (K := ℝ)).2 (not_lt.1 hmid)
      push_cast at this
      exact this
    have := hmono (lo - 1)
    rw [Nat.sub_add_cancel hcode] at this
    rw [f32Real_of_le (by rw [f32_maxCode_eq]; omega), f32Real_of_le (by rw [f32_maxCode_eq]; omega),
      f32Real_of_le (by rw [f32_maxCode_eq]; omega)]
    exact ⟨hcode, by omega, by linarith, by linarith⟩

end Sys2Proof.Machine
end

section
/-! The sums of FEX2 and FLG2 (R132): bounds of a logarithm and of an exponential, from below and from above. -/

namespace Sys2Proof.Machine

/-! ### Rounded quantities -/

/-- `n` bounds `y` from below (`up` = 0) or from above (`up` = 1), and is no further than `ε` from it. -/
def SideBound (up : Nat) (ε n y : ℝ) : Prop := up = 0 ∧ n ≤ y ∧ y ≤ n + ε ∨ up = 1 ∧ y ≤ n ∧ n ≤ y + ε

namespace SideBound

variable {up : Nat} {ε δ n n' y y' : ℝ}

theorem add (h : SideBound up ε n y) (h' : SideBound up δ n' y') : SideBound up (ε + δ) (n + n') (y + y') := by
  obtain ⟨rfl, hlow, hhigh⟩ | ⟨rfl, hlow, hhigh⟩ := h <;> obtain ⟨hup, hlow', hhigh'⟩ | ⟨hup, hlow', hhigh'⟩ := h'
  · exact .inl ⟨rfl, by linarith, by linarith⟩
  · cases hup
  · cases hup
  · exact .inr ⟨rfl, by linarith, by linarith⟩

/-- A bound of a bound. -/
theorem trans (h : SideBound up ε n n') (h' : SideBound up δ n' y) : SideBound up (ε + δ) n y := by
  have hsum := h.add h'
  rw [add_comm n'] at hsum
  exact hsum.imp (fun ⟨hup, hlow, hhigh⟩ => ⟨hup, by linarith, by linarith⟩) fun ⟨hup, hlow, hhigh⟩ => ⟨hup, by linarith, by linarith⟩

theorem le_add (h : SideBound up ε n y) (hε : 0 ≤ ε) : n ≤ y + ε := by
  obtain ⟨-, hlow, -⟩ | ⟨-, -, hhigh⟩ := h <;> linarith

theorem const_add (h : SideBound up ε n y) (c : ℝ) : SideBound up ε (c + n) (c + y) :=
  h.imp (fun ⟨hup, hlow, hhigh⟩ => ⟨hup, by linarith, by linarith⟩) fun ⟨hup, hlow, hhigh⟩ => ⟨hup, by linarith, by linarith⟩

theorem mul_right (h : SideBound up ε n y) {c : ℝ} (hc : 0 ≤ c) : SideBound up (ε * c) (n * c) (y * c) :=
  h.imp (fun ⟨hup, hlow, hhigh⟩ => ⟨hup, by nlinarith, by nlinarith⟩) fun ⟨hup, hlow, hhigh⟩ => ⟨hup, by nlinarith, by nlinarith⟩

theorem mono (h : SideBound up ε n y) (hε : ε ≤ δ) : SideBound up δ n y :=
  h.imp (fun ⟨hup, hlow, hhigh⟩ => ⟨hup, hlow, by linarith⟩) fun ⟨hup, hlow, hhigh⟩ => ⟨hup, hlow, by linarith⟩

end SideBound

/-- A quotient of integers, rounded down, or down and then increased. -/
theorem sideBound_div {up : Nat} (hup : up = 0 ∨ up = 1) (a : Nat) {b : Nat} (hb : 0 < b) :
    SideBound up 1 ((a / b + up : Nat) : ℝ) (a / b) := by
  have hbR : (0 : ℝ) < b := Nat.cast_pos.2 hb
  have hlow : ((a / b : Nat) : ℝ) ≤ a / b := Nat.cast_div_le
  have hhigh : (a : ℝ) / b ≤ (a / b : Nat) + 1 := by
    rw [div_le_iff₀ hbR]
    exact_mod_cast (Nat.lt_div_mul_add hb).le.trans_eq (by ring)
  obtain rfl | rfl := hup
  · exact .inl ⟨rfl, by simpa using hlow, by simpa using hhigh⟩
  · refine .inr ⟨rfl, by simpa using hhigh, by push_cast; linarith⟩

/-! ### The inverse hyperbolic tangent -/

/-- The series `1/k + z²/(k+2) + z⁴/(k+4) + …`. -/
noncomputable def atanhSeries (z : ℝ) (k : Nat) : ℝ := ∑' j : Nat, z ^ (2 * j) / (k + 2 * j : Nat)

section
variable {z : ℝ} {k : Nat} (hz0 : 0 ≤ z) (hz : z ≤ 1 / 3) (hk : 0 < k)
include hz0 hz hk

theorem atanhSeries_term_le (j : Nat) : z ^ (2 * j) / (k + 2 * j : Nat) ≤ (1 / 9 : ℝ) ^ j := by
  have hpow : (z ^ 2) ^ j ≤ (1 / 9 : ℝ) ^ j := pow_le_pow_left₀ (by positivity) (by nlinarith) j
  rw [← pow_mul] at hpow
  exact (div_le_self (by positivity) (by exact_mod_cast Nat.le_add_right_of_le hk)).trans hpow

theorem atanhSeries_summable : Summable fun j : Nat => z ^ (2 * j) / (k + 2 * j : Nat) :=
  .of_nonneg_of_le (fun _ => by positivity) (atanhSeries_term_le hz0 hz hk) (summable_geometric_of_lt_one (by norm_num) (by norm_num))

theorem atanhSeries_eq : atanhSeries z k = 1 / k + z ^ 2 * atanhSeries z (k + 2) := by
  rw [atanhSeries, (atanhSeries_summable hz0 hz hk).tsum_eq_zero_add, atanhSeries, ← tsum_mul_left]
  refine congrArg₂ (· + ·) (by simp) (tsum_congr fun j => ?_)
  have hindex : k + 2 * (j + 1) = k + 2 + 2 * j := by ring
  rw [hindex, Nat.mul_succ, pow_add, mul_comm (z ^ (2 * j)), mul_div_assoc]

theorem atanhSeries_bounds : 0 ≤ atanhSeries z k ∧ atanhSeries z k ≤ 2 := by
  refine ⟨tsum_nonneg fun _ => by positivity, ?_⟩
  calc atanhSeries z k ≤ ∑' j : Nat, (1 / 9 : ℝ) ^ j := (atanhSeries_summable hz0 hz hk).tsum_le_tsum (atanhSeries_term_le hz0 hz hk)
        (summable_geometric_of_lt_one (by norm_num) (by norm_num))
    _ = (1 - 1 / 9)⁻¹ := tsum_geometric_of_lt_one (by norm_num) (by norm_num)
    _ ≤ 2 := by norm_num

end

theorem mul_atanhSeries_one {z : ℝ} (hz0 : 0 ≤ z) (hz : z ≤ 1 / 3) : 2 * (z * atanhSeries z 1) = Real.log ((1 + z) / (1 - z)) := by
  have hsum := Real.hasSum_log_sub_log_of_abs_lt_one (x := z) (by rw [abs_of_nonneg hz0]; linarith)
  rw [Real.log_div (by linarith) (by linarith), ← hsum.tsum_eq, atanhSeries, ← tsum_mul_left, ← tsum_mul_left]
  refine tsum_congr fun j => ?_
  push_cast
  ring

theorem atanhSum_sideBound {up : Nat} (hup : up = 0 ∨ up = 1) {zn zd : Nat} (hzd : 0 < zd) (hz : (zn : ℝ) / zd ≤ 1 / 3) (n : Nat) :
    ∀ {k : Nat} (p : Nat), 0 < k → SideBound up (5 * n + 2 * p * ((zn : ℝ) / zd) ^ (2 * n)) (atanhSum up zn zd n k p)
      (p * atanhSeries (zn / zd) k) := by
  have hz0 : (0 : ℝ) ≤ (zn : ℝ) / zd := by positivity
  induction n with
  | zero =>
    intro k p hk
    obtain ⟨hlow, hhigh⟩ := atanhSeries_bounds hz0 hz hk
    have hp : (0 : ℝ) ≤ p := p.cast_nonneg
    rw [atanhSum]
    obtain rfl | rfl := hup
    · refine .inl ⟨rfl, ?_, ?_⟩ <;> push_cast <;> nlinarith
    · refine .inr ⟨rfl, ?_, ?_⟩ <;> push_cast <;> nlinarith
  | succ n ih =>
    intro k p hk
    obtain ⟨hseries, hseries'⟩ := atanhSeries_bounds hz0 hz (Nat.add_pos_left hk 2)
    have hpow : ((zn : ℝ) / zd) ^ (2 * n) ≤ 1 := pow_le_one₀ (by positivity) (by linarith)
    have hpow0 : (0 : ℝ) ≤ ((zn : ℝ) / zd) ^ (2 * n) := by positivity
    have hterm := sideBound_div hup p hk
    have hnext := sideBound_div hup (p * (zn * zn)) (Nat.mul_pos hzd hzd)
    have hrest := ih (p * (zn * zn) / (zd * zd) + up) (Nat.add_pos_left hk 2)
    have hsq : ((p * (zn * zn) : Nat) : ℝ) / (zd * zd : Nat) = p * ((zn : ℝ) / zd) ^ 2 := by
      push_cast
      ring
    rw [hsq] at hnext
    have hgrow := mul_le_mul_of_nonneg_right (hnext.le_add zero_le_one) hpow0
    have hsplit : (p : ℝ) * (1 / k + ((zn : ℝ) / zd) ^ 2 * atanhSeries (zn / zd) (k + 2)) =
        p / k + p * ((zn : ℝ) / zd) ^ 2 * atanhSeries (zn / zd) (k + 2) := by ring
    have hbound := hterm.add (hrest.trans (hnext.mul_right hseries))
    rw [← Nat.cast_add] at hbound
    rw [atanhSum, atanhSeries_eq hz0 hz hk, hsplit]
    refine hbound.mono ?_
    rw [Nat.mul_succ, pow_add]
    push_cast at hgrow ⊢
    nlinarith

/-! ### The logarithm -/

/-- After 96 steps the power of `z` is below one unit. -/
theorem atanh_power_small {p z : ℝ} (hp0 : 0 ≤ p) (hz0 : 0 ≤ z) (hz : z ≤ 1 / 3) (hp : p ≤ 2 ^ fracBits * z + 1) :
    p * z ^ (2 * 96) ≤ 1 := by
  have hp' : p ≤ 2 ^ 256 := by
    rw [fracBits] at hp
    norm_num at hp hz ⊢
    linarith
  calc p * z ^ (2 * 96) ≤ 2 ^ 256 * (1 / 3) ^ (2 * 96) :=
        mul_le_mul hp' (pow_le_pow_left₀ hz0 hz _) (pow_nonneg hz0 _) (hp0.trans hp')
    _ ≤ 1 := by norm_num

theorem lnBound_sideBound {up : Nat} (hup : up = 0 ∨ up = 1) {num den : Nat} (hden : 0 < den) (hle : den ≤ num)
    (hle2 : num ≤ 2 * den) :
    SideBound up (2 ^ 10) (lnBound up num den) (2 ^ fracBits * Real.log (num / den)) := by
  have hsum : 0 < num + den := Nat.add_pos_right num hden
  have hsumR : (0 : ℝ) < (num + den : Nat) := Nat.cast_pos.2 hsum
  have hz : ((num - den : Nat) : ℝ) / (num + den : Nat) ≤ 1 / 3 := by
    rw [div_le_div_iff₀ hsumR (by norm_num)]
    exact_mod_cast (by omega : (num - den) * 3 ≤ 1 * (num + den))
  have hz0 : (0 : ℝ) ≤ ((num - den : Nat) : ℝ) / (num + den : Nat) := by positivity
  have hlog : (num : ℝ) / den = (1 + ((num - den : Nat) : ℝ) / (num + den : Nat)) / (1 - ((num - den : Nat) : ℝ) / (num + den : Nat)) := by
    rw [Nat.cast_sub hle]
    push_cast at hsumR ⊢
    rw [one_add_div hsumR.ne', one_sub_div hsumR.ne', div_div_div_cancel_right₀ hsumR.ne', add_add_sub_cancel, add_sub_sub_cancel,
      ← two_mul, ← two_mul, mul_div_mul_left _ _ two_ne_zero]
  have hvalue : 2 ^ fracBits * Real.log (num / den) = ((2 ^ fracBits * (num - den) : Nat) : ℝ) / (num + den : Nat) *
      atanhSeries (((num - den : Nat) : ℝ) / (num + den : Nat)) 1 * 2 := by
    rw [hlog, ← mul_atanhSeries_one hz0 hz, Nat.cast_mul, Nat.cast_pow, Nat.cast_ofNat]
    ring
  have hstart := sideBound_div hup (2 ^ fracBits * (num - den)) hsum
  have hatanh := atanhSum_sideBound hup hsum hz 96 (2 ^ fracBits * (num - den) / (num + den) + up) one_pos
  obtain ⟨hseries, hseries'⟩ := atanhSeries_bounds hz0 hz one_pos
  have hsmall : ((2 ^ fracBits * (num - den) / (num + den) + up : Nat) : ℝ) ≤
      2 ^ fracBits * (((num - den : Nat) : ℝ) / (num + den : Nat)) + 1 := by
    refine (hstart.le_add zero_le_one).trans_eq ?_
    rw [Nat.cast_mul, Nat.cast_pow, Nat.cast_ofNat, mul_div_assoc]
  have htail := atanh_power_small (Nat.cast_nonneg _) hz0 hz hsmall
  have hbound := (hatanh.trans (hstart.mul_right hseries)).mul_right zero_le_two
  rw [hvalue, lnBound, Nat.cast_mul, mul_comm _ ((atanhSum _ _ _ _ _ _ : Nat) : ℝ), Nat.cast_ofNat]
  refine hbound.mono ?_
  rw [Nat.cast_ofNat]
  linarith

theorem lnBound_two {up : Nat} (hup : up = 0 ∨ up = 1) : SideBound up (2 ^ 10) (lnBound up 2 1) (2 ^ fracBits * Real.log 2) := by
  have hln := lnBound_sideBound hup (num := 2) one_pos one_le_two le_rfl
  rwa [Nat.cast_one, div_one, Nat.cast_ofNat] at hln

/-! ### The exponential -/

/-- The series `1 + x/k + x²/(k(k+1)) + …`. -/
noncomputable def expSeries (x : ℝ) (k : Nat) : ℝ := ∑' j : Nat, x ^ j / (k.ascFactorial j : Nat)

section
variable {x : ℝ} {k : Nat} (hx0 : 0 ≤ x) (hx : x ≤ 1) (hk : 0 < k)
include hx0 hk

theorem expSeries_summable : Summable fun j : Nat => x ^ j / (k.ascFactorial j : Nat) := by
  refine .of_nonneg_of_le (fun _ => by positivity) (fun j => ?_) (Real.summable_pow_div_factorial x)
  rw [← Nat.one_ascFactorial]
  exact div_le_div_of_nonneg_left (by positivity) (by rw [Nat.one_ascFactorial]; positivity)
    (Nat.cast_le.2 (Nat.ascFactorial_le j hk))

theorem expSeries_eq : expSeries x k = 1 + x / k * expSeries x (k + 1) := by
  rw [expSeries, (expSeries_summable hx0 hk).tsum_eq_zero_add, expSeries, ← tsum_mul_left]
  refine congrArg₂ (· + ·) (by simp) (tsum_congr fun j => ?_)
  have hfact : k.ascFactorial (j + 1) = k * (k + 1).ascFactorial j := by rw [Nat.ascFactorial_succ, Nat.succ_ascFactorial]
  rw [hfact, pow_succ', Nat.cast_mul, mul_div_mul_comm]

omit hk in
theorem expSeries_nonneg : 0 ≤ expSeries x k := tsum_nonneg fun _ => by positivity

include hx in
theorem expSeries_succ_le_two : expSeries x (k + 1) ≤ 2 := by
  calc expSeries x (k + 1) ≤ ∑' j : Nat, (1 / 2 : ℝ) ^ j := (expSeries_summable hx0 k.succ_pos).tsum_le_tsum (fun j => ?_)
        summable_geometric_two
    _ = 2 := tsum_geometric_two
  have hfact : (2 : ℝ) ^ j ≤ ((k + 1).ascFactorial j : Nat) := by
    exact_mod_cast (Nat.pow_le_pow_left (Nat.succ_le_succ hk) j).trans (Nat.pow_succ_le_ascFactorial _ _)
  rw [one_div_pow]
  exact div_le_div₀ zero_le_one (pow_le_one₀ hx0 hx) (by positivity) hfact

end

theorem expSeries_one (x : ℝ) : expSeries x 1 = Real.exp x := by
  rw [Real.exp_eq_exp_ℝ, NormedSpace.exp_eq_tsum_div]
  exact tsum_congr fun j => by rw [Nat.one_ascFactorial]

theorem expSum_sideBound {up : Nat} (hup : up = 0 ∨ up = 1) {x : Nat} (hx : x ≤ 2 ^ fracBits) (n : Nat) : ∀ {k : Nat} (t : Nat),
    0 < k → 1 < n + k → SideBound up (6 * n + 2 * t * ((x : ℝ) / 2 ^ fracBits) ^ n / (k.ascFactorial n : Nat)) (expSum up x n k t)
      (t * expSeries (x / 2 ^ fracBits) k) := by
  have hx0 : (0 : ℝ) ≤ (x : ℝ) / 2 ^ fracBits := by positivity
  have hx1 : (x : ℝ) / 2 ^ fracBits ≤ 1 := div_le_one_of_le₀ (by exact_mod_cast hx) (by positivity)
  induction n with
  | zero =>
    intro k t hk hsize
    obtain ⟨k, rfl⟩ := Nat.exists_eq_add_one.2 hk
    have hlow := expSeries_nonneg hx0 (k := k + 1)
    have hhigh := expSeries_succ_le_two hx0 hx1 (k := k) (by omega)
    have ht : (0 : ℝ) ≤ t := t.cast_nonneg
    rw [expSum, Nat.ascFactorial_zero, pow_zero]
    obtain rfl | rfl := hup
    · refine .inl ⟨rfl, ?_, ?_⟩ <;> push_cast <;> nlinarith
    · refine .inr ⟨rfl, ?_, ?_⟩ <;> push_cast <;> nlinarith
  | succ n ih =>
    intro k t hk hsize
    have hseries := expSeries_nonneg hx0 (k := k + 1)
    have hseries' := expSeries_succ_le_two hx0 hx1 hk
    have hnext := sideBound_div hup (t * x) (Nat.mul_pos hk (Nat.two_pow_pos fracBits))
    have hrest := ih (t * x / (k * 2 ^ fracBits) + up) k.succ_pos (by omega)
    have hratio : ((t * x : Nat) : ℝ) / (k * 2 ^ fracBits : Nat) = t * ((x : ℝ) / 2 ^ fracBits / k) := by
      push_cast
      rw [div_div, mul_comm (k : ℝ), mul_div_assoc]
    rw [hratio] at hnext
    have hcoef0 : (0 : ℝ) ≤ ((x : ℝ) / 2 ^ fracBits) ^ n / ((k + 1).ascFactorial n : Nat) := by positivity
    have hcoef : ((x : ℝ) / 2 ^ fracBits) ^ n / ((k + 1).ascFactorial n : Nat) ≤ 1 :=
      div_le_one_of_le₀ ((pow_le_one₀ hx0 hx1).trans (by exact_mod_cast Nat.ascFactorial_pos k n)) (by positivity)
    have hgrow := mul_le_mul_of_nonneg_right (hnext.le_add zero_le_one) hcoef0
    have hbound := (hrest.trans (hnext.mul_right hseries)).const_add t
    rw [← Nat.cast_add] at hbound
    have hfact : k.ascFactorial (n + 1) = k * (k + 1).ascFactorial n := by rw [Nat.ascFactorial_succ, Nat.succ_ascFactorial]
    have hlast : 2 * (t : ℝ) * ((x : ℝ) / 2 ^ fracBits) ^ (n + 1) / (k.ascFactorial (n + 1) : Nat) =
        2 * (t * ((x : ℝ) / 2 ^ fracBits / k) * (((x : ℝ) / 2 ^ fracBits) ^ n / ((k + 1).ascFactorial n : Nat))) := by
      rw [hfact, Nat.cast_mul, pow_succ]
      field_simp
    have hsplit : (t : ℝ) * (1 + (x : ℝ) / 2 ^ fracBits / k * expSeries ((x : ℝ) / 2 ^ fracBits) (k + 1)) =
        t + t * ((x : ℝ) / 2 ^ fracBits / k) * expSeries ((x : ℝ) / 2 ^ fracBits) (k + 1) := by ring
    rw [expSum, expSeries_eq hx0 hk, hsplit, hlast]
    refine hbound.mono ?_
    rw [mul_assoc 2, mul_div_assoc, mul_div_assoc]
    push_cast at hgrow ⊢
    linarith

/-- An exponent bounded from one side bounds the power from that side. -/
theorem SideBound.exp {up : Nat} {ε x y : ℝ} (h : SideBound up ε x y) (hx : x ≤ 1) (hy : y ≤ 1) :
    SideBound up (3 * ε) (Real.exp x) (Real.exp y) := by
  have hslope : ∀ {a b : ℝ}, a ≤ b → b ≤ 1 → b ≤ a + ε → Real.exp b ≤ Real.exp a + 3 * ε := fun {a b} hab hb hε => by
    have htangent := Real.add_one_le_exp (a - b)
    have hexp : Real.exp b ≤ 3 := (Real.exp_le_exp.2 hb).trans (Real.exp_one_lt_d9.le.trans (by norm_num))
    have hsplit : Real.exp a = Real.exp b * Real.exp (a - b) := by rw [← Real.exp_add, add_sub_cancel]
    have hpos := Real.exp_pos b
    nlinarith
  exact h.imp (fun ⟨hup, hlow, hhigh⟩ => ⟨hup, Real.exp_le_exp.2 hlow, hslope hlow hy hhigh⟩)
    fun ⟨hup, hlow, hhigh⟩ => ⟨hup, Real.exp_le_exp.2 hlow, hslope hlow hx hhigh⟩

/-- The exponent `f · ln 2` of a power of two with `0 ≤ f < 1`. -/
theorem ln_exponent_sideBound {up : Nat} (hup : up = 0 ∨ up = 1) {num den : Nat} (hlt : num < den) :
    SideBound up (2 ^ 11) (num * lnBound up 2 1 / den + up : Nat) (2 ^ fracBits * (Real.log 2 * ((num : ℝ) / den))) := by
  have hden : 0 < den := Nat.zero_lt_of_lt hlt
  have hfrac : (num : ℝ) / den ≤ 1 := div_le_one_of_le₀ (by exact_mod_cast hlt.le) (by positivity)
  have hquot := sideBound_div hup (num * lnBound up 2 1) hden
  have hcast : ((num * lnBound up 2 1 : Nat) : ℝ) / den = (lnBound up 2 1 : Nat) * ((num : ℝ) / den) := by
    rw [Nat.cast_mul]
    ring
  rw [hcast] at hquot
  have hscaled := (lnBound_two hup).mul_right (c := (num : ℝ) / den) (div_nonneg num.cast_nonneg den.cast_nonneg)
  rw [mul_assoc] at hscaled
  refine (hquot.trans hscaled).mono ?_
  linarith

/-- The last of 64 terms is below one unit. -/
theorem exp_term_small {x : ℝ} (hx0 : 0 ≤ x) (hx : x ≤ 1) :
    6 * (64 : Nat) + 2 * ((2 ^ fracBits : Nat) : ℝ) * x ^ 64 / (Nat.ascFactorial 1 64 : Nat) ≤ 2 ^ 9 := by
  have hpow : x ^ 64 ≤ 1 := pow_le_one₀ hx0 hx
  have hfact : (2 ^ 256 : ℝ) ≤ (Nat.ascFactorial 1 64 : Nat) := by
    rw [Nat.one_ascFactorial]
    norm_num [Nat.factorial]
  have hlast : 2 * ((2 ^ fracBits : Nat) : ℝ) * x ^ 64 / (Nat.ascFactorial 1 64 : Nat) ≤ 2 := by
    rw [fracBits, Nat.cast_pow, Nat.cast_ofNat]
    refine div_le_of_le_mul₀ (Nat.cast_nonneg _) zero_le_two ?_
    generalize ((Nat.ascFactorial 1 64 : Nat) : ℝ) = n at hfact
    norm_num at hfact ⊢
    linarith
  norm_num at hlast ⊢
  linarith

theorem exp2Bound_sideBound {up : Nat} (hup : up = 0 ∨ up = 1) {num den : Nat} (hlt : num < den) :
    SideBound up (2 ^ 14) (exp2Bound up num den) (2 ^ fracBits * (2 : ℝ) ^ ((num : ℝ) / den)) := by
  rw [exp2Bound]
  split_ifs with hnum
  · rw [hnum, Nat.cast_zero, zero_div, Real.rpow_zero, mul_one, Nat.cast_pow, Nat.cast_ofNat]
    exact hup.imp (⟨·, le_rfl, le_add_of_nonneg_right (by positivity)⟩) (⟨·, le_rfl, le_add_of_nonneg_right (by positivity)⟩)
  have hunit : (0 : ℝ) < 2 ^ fracBits := by positivity
  have hexponent := ln_exponent_sideBound hup hlt
  generalize num * lnBound up 2 1 / den + up = x at hexponent
  have hfrac : Real.log 2 * ((num : ℝ) / den) ≤ 0.7 := by
    have hone : (num : ℝ) / den ≤ 1 := div_le_one_of_le₀ (by exact_mod_cast hlt.le) den.cast_nonneg
    have hlog0 : 0 ≤ Real.log 2 := Real.log_nonneg one_le_two
    have hlog := Real.log_two_lt_d9
    nlinarith
  have hx : (x : ℝ) ≤ 2 ^ fracBits := by
    calc (x : ℝ) ≤ 2 ^ fracBits * (Real.log 2 * ((num : ℝ) / den)) + 2 ^ 11 := hexponent.le_add (by norm_num)
      _ ≤ 2 ^ fracBits * 0.7 + 2 ^ 11 := by gcongr
      _ ≤ _ := by norm_num [fracBits]
  have hx1 : (x : ℝ) / 2 ^ fracBits ≤ 1 := (div_le_one hunit).2 hx
  have hscaled := hexponent.mul_right (inv_nonneg.2 hunit.le)
  rw [mul_right_comm, mul_inv_cancel₀ hunit.ne', one_mul, ← div_eq_mul_inv] at hscaled
  have hpower := (hscaled.exp (by rwa [← div_eq_mul_inv]) (hfrac.trans (by norm_num))).mul_right hunit.le
  have hsum := expSum_sideBound hup (x := x) (by exact_mod_cast hx) 64 (2 ^ fracBits) one_pos (by decide)
  have hsmall := exp_term_small (div_nonneg x.cast_nonneg hunit.le) hx1
  have hunit' : ((2 ^ fracBits : Nat) : ℝ) = 2 ^ fracBits := by rw [Nat.cast_pow, Nat.cast_ofNat]
  rw [expSeries_one, div_eq_mul_inv (x : ℝ), hunit', mul_comm _ (Real.exp _)] at hsum
  rw [div_eq_mul_inv (x : ℝ), hunit'] at hsmall
  rw [Real.rpow_def_of_pos two_pos, mul_comm]
  refine (hsum.trans hpower).mono ((add_le_add_left hsmall _).trans ?_)
  rw [← mul_div_assoc, div_mul_cancel₀ _ hunit.ne']
  norm_num

end Sys2Proof.Machine
end

section
/-! FEX2 (R132): the codes about a power of two. -/

namespace Sys2Proof.Machine

/-! ### The code nearest a fixed-point value -/

/-- Rounding to nearest moves a value by at most any unit that leaves it 24 bits. -/
theorem codeMag_roundCode_near {num den : Nat} (hden : 0 < den) {u : Int} (hu : -149 ≤ u) (hu' : u ≤ 104)
    (hlt : (num : ℚ) / den < 2 ^ (u + 24)) :
    |Fmt.f32.codeMag (min (roundCode .f32 .rn false num den) (Fmt.f32.maxCode .ieee)) - num / den| ≤ (2 : ℚ) ^ u := by
  obtain ⟨-, hnear, -⟩ := Fmt.f32.roundsTo_roundCode (by decide) .rn false num hden
  revert hnear hlt
  generalize roundCode .f32 .rn false num den = r
  have hy0 : (0 : ℚ) ≤ (num : ℚ) / den := by positivity
  revert hy0
  generalize (num : ℚ) / den = y
  intro hy0 hlt hnear
  have hunit : (0 : ℚ) < 2 ^ u := by positivity
  have hfloor := Nat.floor_le (div_nonneg hy0 hunit.le)
  have hfloor' := Nat.lt_floor_add_one (y / 2 ^ u)
  have hsig : ⌊y / 2 ^ u⌋₊ < 2 ^ 24 := by
    rw [Nat.floor_lt (div_nonneg hy0 hunit.le), div_lt_iff₀ hunit, Nat.cast_pow, Nat.cast_ofNat]
    rwa [zpow_add₀ two_ne_zero, mul_comm] at hlt
  rw [le_div_iff₀ hunit] at hfloor
  rw [div_lt_iff₀ hunit, add_one_mul] at hfloor'
  have hdist := hnear _ ⟨_, u, hsig, hu, rfl⟩
  have hmax : (⌊y / 2 ^ u⌋₊ : ℚ) * 2 ^ u ≤ Fmt.f32.codeMag (Fmt.f32.maxCode .ieee) := by
    rw [f32_codeMag_maxCode]
    refine mul_le_mul (le_sub_iff_add_le.2 (by exact_mod_cast hsig)) (zpow_le_zpow_right₀ one_le_two hu') hunit.le (by norm_num)
  revert hfloor hfloor' hdist hmax
  generalize (⌊y / 2 ^ u⌋₊ : ℚ) * 2 ^ u = z
  intro hfloor hfloor' hdist hmax
  have hz : |z - y| ≤ 2 ^ u := by rw [abs_sub_comm, abs_of_nonneg (by linarith)]; linarith
  obtain hle | hlt := le_or_gt r (Fmt.f32.maxCode .ieee)
  · rw [min_eq_left hle]
    exact hdist.trans hz
  · have hcode := Fmt.f32.codeMag_strictMono hlt
    have hr := abs_le.1 (hdist.trans hz)
    rw [min_eq_right hlt.le, abs_le]
    constructor <;> linarith

theorem nearestFx_error {x : Nat} {u : Int} (hu : -149 ≤ u) (hu' : u ≤ 104) (hlt : (x : ℝ) / 2 ^ fxBits < 2 ^ (u + 24)) :
    |f32Mag (nearestFx x) - x / 2 ^ fxBits| ≤ (2 : ℝ) ^ u := by
  have hlt' : (x : ℚ) / (2 ^ fxBits : Nat) < 2 ^ (u + 24) := by
    rw [← Rat.cast_lt (K := ℝ)]
    push_cast
    exact hlt
  have hnear := (Rat.cast_le (K := ℝ)).2 (codeMag_roundCode_near (Nat.two_pow_pos fxBits) hu hu' hlt')
  push_cast at hnear
  exact hnear

theorem nearestFx_le (x : Nat) : nearestFx x ≤ Fmt.f32.maxCode .ieee := min_le_right _ _

theorem nearestFx_isFin (x : Nat) : Fmt.f32.IsFin .ieee (nearestFx x) false (Fmt.f32.codeMag (nearestFx x)) := by
  have h := Fmt.f32.isFin_signBit_add (rd := .ieee) (by decide) false (nearestFx_le x)
  rwa [Fmt.signBit, if_neg Bool.false_ne_true, zero_add] at h

/-! ### The bounds of a power of two -/

theorem two_pow_fxBits : (2 : ℝ) ^ fxBits = 2 ^ 256 * 2 ^ 256 := by rw [fxBits, ← pow_add]

/-- What the bounds of `2 ^ a` say: a value on each side, the lower one close to it, and whether `a` is an integer. -/
structure Exp2Bounded (a : ℝ) (lo hi : Nat) (fl : Int) (isInt : Bool) : Prop where
  lower : (lo : ℝ) ≤ 2 ^ fxBits * (2 : ℝ) ^ a
  upper : 2 ^ fxBits * (2 : ℝ) ^ a ≤ hi
  close : 2 ^ fxBits * (2 : ℝ) ^ a ≤ lo + 2 ^ fxBits * (2 : ℝ) ^ max (fl - 23) (-149)
  unit : max (fl - 23) (-149) = max (⌊a⌋ - 23) (-149)
  whole : isInt = true → a = fl
  integer : ∀ j : Int, a = j → -149 ≤ j → isInt = true

theorem exp2Bounded_of_small {a : ℝ} (ha : a ≤ -256) : Exp2Bounded a 0 (2 ^ 256) (-256) false := by
  have hpower : (2 : ℝ) ^ a ≤ 2 ^ (-256 : Int) := by
    rw [← Real.rpow_intCast]
    exact Real.rpow_le_rpow_of_exponent_le one_le_two (by exact_mod_cast ha)
  have hfloor : ⌊a⌋ ≤ -256 := Int.floor_le_iff.2 (by push_cast; linarith)
  refine ⟨?_, ?_, ?_, ?_, nofun, fun j hj hlow => ?_⟩
  · rw [Nat.cast_zero]
    positivity
  · calc (2 : ℝ) ^ fxBits * 2 ^ a ≤ 2 ^ fxBits * 2 ^ (-256 : Int) := by gcongr
      _ = _ := by norm_num [two_pow_fxBits]
  · rw [Nat.cast_zero, zero_add]
    gcongr
    exact hpower.trans (zpow_le_zpow_right₀ one_le_two (by decide))
  · omega
  · rw [hj] at ha
    have : j ≤ -256 := by exact_mod_cast ha
    omega

/-- The value of a bound of a fraction's power, moved to its place. -/
theorem exp2Bound_shifted {up : Nat} (hup : up = 0 ∨ up = 1) {fr q : Nat} (hfr : fr < q) {fl : Int} (hfl : -256 ≤ fl) :
    SideBound up (2 ^ fxBits * (2 : ℝ) ^ (fl - 23)) (exp2Bound up fr q * 2 ^ ((fxBits : Int) - fracBits + fl).toNat : Nat)
      (2 ^ fxBits * (2 : ℝ) ^ (fl + (fr : ℝ) / q)) := by
  have hshift : ((2 ^ ((fxBits : Int) - fracBits + fl).toNat : Nat) : ℝ) = (2 : ℝ) ^ (256 + fl) := by
    rw [Nat.cast_pow, Nat.cast_ofNat, ← zpow_natCast, Int.toNat_of_nonneg (by rw [fxBits, fracBits]; omega)]
    rfl
  have hbound := (exp2Bound_sideBound hup hfr).mul_right (c := (2 : ℝ) ^ (256 + fl)) (by positivity)
  have hvalue : (2 : ℝ) ^ fxBits * (2 : ℝ) ^ (fl + (fr : ℝ) / q) = 2 ^ fracBits * (2 : ℝ) ^ ((fr : ℝ) / q) * (2 : ℝ) ^ (256 + fl) := by
    rw [Real.rpow_add two_pos, Real.rpow_intCast, zpow_add₀ two_ne_zero]
    rw [two_pow_fxBits, fracBits, show (2 : ℝ) ^ (256 : Int) = 2 ^ 256 from rfl]
    ring
  rw [Nat.cast_mul, hshift, hvalue]
  refine hbound.mono ?_
  rw [zpow_add₀ two_ne_zero, zpow_sub₀ two_ne_zero]
  have hpos : (0 : ℝ) < 2 ^ fl := by positivity
  norm_num [two_pow_fxBits]
  linarith

theorem exp2Bounded_of_floor {fr q : Nat} (hfr : fr < q) {fl : Int} (hfl : -256 ≤ fl) :
    Exp2Bounded (fl + (fr : ℝ) / q) (exp2Bound 0 fr q * 2 ^ ((fxBits : Int) - fracBits + fl).toNat)
      (exp2Bound 1 fr q * 2 ^ ((fxBits : Int) - fracBits + fl).toNat) fl (fr == 0) := by
  have hq : (0 : ℝ) < q := Nat.cast_pos.2 (Nat.zero_lt_of_lt hfr)
  have hfloor : ⌊fl + (fr : ℝ) / q⌋ = fl :=
    Int.floor_eq_iff.2 ⟨le_add_of_nonneg_right (by positivity), by
      rw [add_lt_add_iff_left, div_lt_one hq]
      exact_mod_cast hfr⟩
  obtain ⟨-, hlow, hclose⟩ | ⟨hup, -, -⟩ := exp2Bound_shifted (.inl rfl) hfr hfl
  swap
  · cases hup
  obtain ⟨hup, -, -⟩ | ⟨-, hhigh, -⟩ := exp2Bound_shifted (.inr rfl) hfr hfl
  · cases hup
  refine ⟨hlow, hhigh, hclose.trans ?_, by rw [hfloor], fun h => ?_, fun j hj _ => ?_⟩
  · gcongr
    · exact one_le_two
    · exact le_max_left _ _
  · rw [beq_iff_eq.1 h, Nat.cast_zero, zero_div, add_zero]
  · have hfl' : fl = j := by rw [← hfloor, hj, Int.floor_intCast]
    rw [← hfl', add_eq_left, div_eq_zero_iff, or_iff_left hq.ne', Nat.cast_eq_zero] at hj
    rw [hj]
    rfl

/-- The value of a finite number as a ratio of integers. -/
theorem signed_ratio (s : Bool) (m : Nat) (e : Int) :
    (if s then -1 else 1) * (m * (2 : ℝ) ^ e) =
      ((if s then -((m * (pow2Ratio e).1 : Nat) : Int) else ((m * (pow2Ratio e).1 : Nat) : Int) : Int) : ℝ) / (pow2Ratio e).2 := by
  have hratio := congrArg ((↑) : ℚ → ℝ) (cast_mul_pow2Ratio_div m e)
  push_cast at hratio
  cases s
  · simp [← hratio]
  · simp [← hratio, neg_div]

theorem exp2Bounded_div {q : Nat} (hq : 0 < q) {num : Int} (hlow : -256 * (q : Int) ≤ num) :
    Exp2Bounded ((num : ℝ) / q) (exp2Bound 0 (num.fmod q).toNat q * 2 ^ ((fxBits : Int) - fracBits + num.fdiv q).toNat)
      (exp2Bound 1 (num.fmod q).toNat q * 2 ^ ((fxBits : Int) - fracBits + num.fdiv q).toNat) (num.fdiv q)
      ((num.fmod q).toNat == 0) := by
  have hqZ : (0 : Int) < q := Int.natCast_pos.2 hq
  rw [Int.fmod_eq_emod_of_nonneg _ hqZ.le, Int.fdiv_eq_ediv_of_nonneg _ hqZ.le]
  have hmod := Int.toNat_of_nonneg (Int.emod_nonneg num hqZ.ne')
  have hlt : (num % q).toNat < q := by have := Int.emod_lt_of_pos num hqZ; omega
  have hvalue : (num : ℝ) / q = (num / (q : Int) : Int) + ((num % q).toNat : ℝ) / q := by
    rw [eq_comm, ← eq_sub_iff_add_eq', div_eq_iff (Nat.cast_pos.2 hq).ne', sub_mul, div_mul_cancel₀ _ (Nat.cast_pos.2 hq).ne']
    have hdiv := congrArg ((↑) : Int → ℝ) (Int.emod_def num q)
    rw [← hmod] at hdiv
    push_cast at hdiv
    rw [hdiv]
    ring
  rw [hvalue]
  exact exp2Bounded_of_floor hlt ((Int.le_ediv_iff_mul_le hqZ).2 hlow)

theorem exp2Bounds_spec (s : Bool) (m : Nat) (e : Int) :
    ∃ lo hi fl isInt, exp2Bounds s m e = (lo, hi, fl, isInt) ∧ Exp2Bounded ((if s then -1 else 1) * (m * (2 : ℝ) ^ e)) lo hi fl isInt := by
  have hq := (pow2Ratio_pos e).2
  rw [signed_ratio, exp2Bounds]
  revert hq
  generalize pow2Ratio e = pq
  obtain ⟨p, q⟩ := pq
  dsimp only
  intro hq
  by_cases hsmall : s = true ∧ 256 * q ≤ m * p
  · obtain ⟨rfl, hle⟩ := hsmall
    rw [if_pos (by simpa using hle)]
    refine ⟨_, _, _, _, rfl, exp2Bounded_of_small ?_⟩
    rw [if_pos rfl, div_le_iff₀ (Nat.cast_pos.2 hq)]
    exact_mod_cast (by omega : -((m * p : Nat) : Int) ≤ -256 * q)
  · rw [if_neg (by simpa using hsmall)]
    refine ⟨_, _, _, _, rfl, exp2Bounded_div hq ?_⟩
    split_ifs with hs
    · have := not_and.1 hsmall hs
      omega
    · omega

/-! ### FEX2 -/

/-- FEX2 below 128 as its parts give it: an integer power, the free choice where it is surely near, else the nearest code. -/
theorem fex2_of {x c : Nat} {s : Bool} {m : Nat} {e : Int} (h : valueOf .f32 x = .fin s m e)
    (hlt : s = true ∨ m * (pow2Ratio e).1 < 128 * (pow2Ratio e).2)
    {lo hi : Nat} {fl : Int} {isInt : Bool} (hbounds : exp2Bounds s m e = (lo, hi, fl, isInt)) :
    (isInt = true ∧ -149 ≤ fl ∧ fex2 x c = roundF .f32 .rn (.fin false 1 fl)) ∨
      ¬ (isInt = true ∧ -149 ≤ fl) ∧ (fex2 x c = nearestFx lo ∨ ∃ k q, valueOf .f32 c = .fin false k q ∧ fex2 x c = c ∧
        surelyNear (FVal.scaled fxBits (.fin false k q)) lo hi (exp2Tol fl) = true) := by
  have hguard : (!s && decide (m * (pow2Ratio e).1 ≥ 128 * (pow2Ratio e).2)) = false := by
    obtain rfl | hlt := hlt
    · rfl
    · rw [decide_eq_false (Nat.not_le.2 hlt), Bool.and_false]
  by_cases hint : isInt = true ∧ -149 ≤ fl
  · have hint' : (isInt && decide (-149 ≤ fl)) = true := by simpa using hint
    refine .inl ⟨hint.1, hint.2, ?_⟩
    simp only [fex2, h, hguard, hbounds, hint', if_true, Bool.false_eq_true, if_false]
  · have hint' : (isInt && decide (-149 ≤ fl)) = false := by simpa using hint
    refine .inr ⟨hint, ?_⟩
    simp only [fex2, h, hguard, hbounds, hint', Bool.false_eq_true, if_false]
    split
    next k q hc =>
      split_ifs with hnear
      · exact .inr ⟨k, q, hc, rfl, hnear⟩
      · exact .inl rfl
    next => exact .inl rfl

/-- A value that is surely near lies within the bound. -/
theorem abs_sub_le_of_surelyNear {r lo hi tol : Int} (h : surelyNear r lo hi tol = true) {y : ℝ} (hlo : (lo : ℝ) ≤ y) (hhi : y ≤ hi) :
    |(r : ℝ) - y| ≤ tol := by
  obtain ⟨hlow, hhigh⟩ : r ≤ lo + tol ∧ hi ≤ r + tol := by simpa [surelyNear] using h
  have hlow' : (r : ℝ) ≤ lo + tol := by exact_mod_cast hlow
  have hhigh' : (hi : ℝ) ≤ r + tol := by exact_mod_cast hhigh
  rw [abs_le]
  constructor <;> linarith

/-- The scaled value of a finite F32 code. -/
theorem scaled_fxBits {c : Nat} {s : Bool} {k : Nat} {q : Int} (h : valueOf .f32 c = .fin s k q) :
    ((FVal.scaled fxBits (.fin s k q) : Int) : ℝ) = 2 ^ fxBits * f32Real c := by
  obtain ⟨-, hlow, -⟩ := Fmt.fin_bounds h
  have hq : ((fxBits : Int) + q).toNat = (fxBits : Int) + q := Int.toNat_of_nonneg (by
    have hmin : (-149 : Int) ≤ q := hlow
    rw [fxBits]
    omega)
  have hscale : ((k * 2 ^ ((fxBits : Int) + q).toNat : Nat) : ℝ) = 2 ^ fxBits * (k * (2 : ℝ) ^ q) := by
    rw [Nat.cast_mul, Nat.cast_pow, Nat.cast_ofNat, ← zpow_natCast, hq, zpow_add₀ two_ne_zero, zpow_natCast]
    ring
  rw [f32Real, h]
  cases s
  · rw [FVal.scaled, if_neg Bool.false_ne_true, Int.cast_natCast, hscale]
    simp
  · rw [FVal.scaled, if_pos rfl, Int.cast_neg, Int.cast_natCast, hscale]
    simp

theorem cast_exp2Tol (fl : Int) : ((exp2Tol fl : Int) : ℝ) = 2 ^ fxBits * (2 * (2 : ℝ) ^ max (fl - 23) (-149)) := by
  have hexp : (((fxBits : Int) + max (fl - 23) (-149)).toNat : Int) = fxBits + max (fl - 23) (-149) :=
    Int.toNat_of_nonneg (by rw [fxBits]; omega)
  rw [exp2Tol, Int.cast_mul, Int.cast_pow, Int.cast_ofNat, ← zpow_natCast, hexp, zpow_add₀ two_ne_zero, zpow_natCast]
  ring

/-- F32 has every power of two from its least unit up to 2^127. -/
theorem roundF_f32_two_zpow (m : RMode) {n : Int} (hlow : -149 ≤ n) (hhigh : n ≤ 127) :
    Fmt.f32.IsFin .ieee (roundF .f32 m (.fin false 1 n)) false ((2 : ℚ) ^ n) := by
  have hexact := Fmt.f32.roundF_exact (by decide) (by decide) m false (k := 1) (e := n) ⟨1, n, by decide, hlow, rfl⟩ (by
    rw [f32_codeMag_maxCode, Nat.cast_one, one_mul]
    exact (zpow_le_zpow_right₀ one_le_two hhigh).trans (by norm_num))
  rwa [Nat.cast_one, one_mul] at hexact

theorem f32Real_nearestFx (x : Nat) : f32Real (nearestFx x) = f32Mag (nearestFx x) := f32Real_of_le (nearestFx_le x)

theorem nearestFx_exp2 {a : ℝ} {lo hi : Nat} {fl : Int} {isInt : Bool} (h : Exp2Bounded a lo hi fl isInt) (hlt : a < 128) :
    |f32Real (nearestFx lo) - (2 : ℝ) ^ a| ≤ 2 * (2 : ℝ) ^ max (⌊a⌋ - 23) (-149) := by
  have hU : (0 : ℝ) < 2 ^ fxBits := by positivity
  have hfloor : ⌊a⌋ < 128 := Int.floor_lt.2 (by exact_mod_cast hlt)
  have hlow : (lo : ℝ) / 2 ^ fxBits ≤ 2 ^ a := (div_le_iff₀' hU).2 h.lower
  have hclose : (2 : ℝ) ^ a ≤ lo / 2 ^ fxBits + 2 ^ max (⌊a⌋ - 23) (-149) := by
    rw [← h.unit, div_add' _ _ _ hU.ne', le_div_iff₀' hU, mul_comm _ ((2 : ℝ) ^ fxBits)]
    exact h.close
  have hpower : (2 : ℝ) ^ a < 2 ^ (max (⌊a⌋ - 23) (-149) + 24) := by
    rw [← Real.rpow_intCast]
    refine Real.rpow_lt_rpow_of_exponent_lt one_lt_two ((Int.lt_floor_add_one a).trans_le ?_)
    exact_mod_cast (by omega : ⌊a⌋ + 1 ≤ max (⌊a⌋ - 23) (-149) + 24)
  have hnear := abs_le.1 (nearestFx_error (le_max_right _ _) (by omega) (hlow.trans_lt hpower))
  rw [f32Real_nearestFx, abs_le]
  constructor <;> linarith

theorem fex2_guard {s : Bool} {m : Nat} {e : Int} (hlt : (if s then -1 else 1) * (m * (2 : ℝ) ^ e) < 128) :
    s = true ∨ m * (pow2Ratio e).1 < 128 * (pow2Ratio e).2 := by
  refine or_iff_not_imp_left.2 fun hs => ?_
  rw [signed_ratio, Bool.eq_false_of_not_eq_true hs, if_neg Bool.false_ne_true,
    div_lt_iff₀ (Nat.cast_pos.2 (pow2Ratio_pos e).2)] at hlt
  exact_mod_cast hlt

/-- FEX2 below 128: a finite value of at least +0 within the bound of R132, exact for an integer power of two that F32 has. -/
theorem fex2_spec {x c : Nat} {s : Bool} {m : Nat} {e : Int} {a : ℝ} (h : valueOf .f32 x = .fin s m e)
    (ha : a = (if s then -1 else 1) * (m * (2 : ℝ) ^ e)) (hlt : a < 128) :
    (∃ k q, valueOf .f32 (fex2 x c) = .fin false k q) ∧
      |f32Real (fex2 x c) - (2 : ℝ) ^ a| ≤ 2 * (2 : ℝ) ^ max (⌊a⌋ - 23) (-149) ∧
      ∀ j : Int, a = j → -149 ≤ j → f32Real (fex2 x c) = (2 : ℝ) ^ j := by
  obtain ⟨lo, hi, fl, isInt, heq, hbounds⟩ := exp2Bounds_spec s m e
  rw [← ha] at hbounds
  have hnot_integer (hnot : ¬ (isInt = true ∧ -149 ≤ fl)) (j : Int) (hj : a = j) (hlow : -149 ≤ j) :
      f32Real (fex2 x c) = (2 : ℝ) ^ j := by
    have hint := hbounds.integer j hj hlow
    have hfl := hbounds.whole hint
    exact absurd ⟨hint, by rw [hj] at hfl; have := Int.cast_injective hfl; omega⟩ hnot
  obtain ⟨hint, hlow, hexact⟩ | ⟨hnot, hnear | ⟨k, q, hc, hcand, hsurely⟩⟩ := fex2_of h (fex2_guard (ha ▸ hlt)) heq (c := c)
  · have hfl := hbounds.whole hint
    have hhigh : fl < 128 := by exact_mod_cast hfl ▸ hlt
    have hfin := roundF_f32_two_zpow .rn hlow (Int.lt_add_one_iff.1 hhigh)
    have hreal := f32Real_of_isFin hfin
    rw [← hexact] at hfin hreal
    rw [if_neg Bool.false_ne_true, one_mul, Rat.cast_zpow, Rat.cast_ofNat] at hreal
    obtain ⟨k, q, hvalue, -⟩ := hfin
    refine ⟨⟨k, q, hvalue⟩, ?_, fun j hj _ => ?_⟩
    · rw [hreal, hfl, Real.rpow_intCast, sub_self, abs_zero]
      positivity
    · rw [hreal, Int.cast_injective (hfl.symm.trans hj)]
  · obtain ⟨k, q, hvalue, -⟩ := nearestFx_isFin lo
    refine ⟨⟨k, q, by rw [hnear]; exact hvalue⟩, ?_, hnot_integer hnot⟩
    rw [hnear]
    exact nearestFx_exp2 hbounds hlt
  · refine ⟨⟨k, q, by rw [hcand]; exact hc⟩, ?_, hnot_integer hnot⟩
    have hU : (0 : ℝ) < 2 ^ fxBits := by positivity
    have hwithin := abs_sub_le_of_surelyNear hsurely (y := 2 ^ fxBits * 2 ^ a) (by exact_mod_cast hbounds.lower)
      (by exact_mod_cast hbounds.upper)
    rw [scaled_fxBits hc, cast_exp2Tol, hbounds.unit, ← mul_sub, abs_mul, abs_of_pos hU] at hwithin
    rw [hcand]
    exact le_of_mul_le_mul_left hwithin hU

end Sys2Proof.Machine
end

section
/-! FLG2 (R132): the codes about a base-2 logarithm. -/

namespace Sys2Proof.Machine

/-! ### The bounds of a logarithm -/

/-- What the bounds of a logarithm `x`, scaled, say: a value on each side, both close to it. -/
structure Log2Bounded (x : ℝ) (lo hi : Int) : Prop where
  lower : (lo : ℝ) ≤ 2 ^ fxBits * x
  upper : 2 ^ fxBits * x ≤ hi
  lowClose : 2 ^ fxBits * (x - 2 ^ (-200 : Int)) ≤ lo
  highClose : (hi : ℝ) ≤ 2 ^ fxBits * (x + 2 ^ (-200 : Int))

theorem Log2Bounded.int_add {x : ℝ} {lo hi : Int} (h : Log2Bounded x lo hi) (n : Int) :
    Log2Bounded (n + x) (n * 2 ^ fxBits + lo) (n * 2 ^ fxBits + hi) := by
  obtain ⟨hlow, hhigh, hlowClose, hhighClose⟩ := h
  constructor <;> push_cast <;> linarith

theorem SideBound.abs_sub_le {up : Nat} {ε n y : ℝ} (h : SideBound up ε n y) (hε : 0 ≤ ε) : |n - y| ≤ ε := by
  rw [abs_le]
  obtain ⟨-, hlow, hhigh⟩ | ⟨-, hlow, hhigh⟩ := h <;> constructor <;> linarith

/-- A quotient of a value bounded from one side by a value bounded from the other. -/
theorem SideBound.div {up up' : Nat} (hup : up = 0 ∧ up' = 1 ∨ up = 1 ∧ up' = 0) {a b y g : ℝ} (ha : SideBound up (2 ^ 10) a (g * y))
    (hb : SideBound up' (2 ^ 10) b y) (hy : 2 ^ 255 + 2 ^ 10 ≤ y) (hg0 : 0 ≤ g) (hg1 : g ≤ 1) :
    SideBound up (2 ^ (-201 : Int)) (a / b) g := by
  have ha' := abs_le.1 (ha.abs_sub_le (by positivity))
  have hb' := abs_le.1 (hb.abs_sub_le (by positivity))
  have hpos : (2 : ℝ) ^ 255 ≤ b := by linarith
  have hb0 : 0 < b := lt_of_lt_of_le (by norm_num) hpos
  have hunit : (2 : ℝ) ^ 11 ≤ 2 ^ (-201 : Int) * b := by
    norm_num at hpos ⊢
    linarith
  obtain ⟨rfl, rfl⟩ | ⟨rfl, rfl⟩ := hup
  · obtain ⟨-, ha, -⟩ | ⟨hup, -⟩ := ha
    swap
    · cases hup
    obtain ⟨hup, -⟩ | ⟨-, hb, -⟩ := hb
    · cases hup
    exact .inl ⟨rfl, (div_le_iff₀ hb0).2 (by nlinarith), by rw [div_add' _ _ _ hb0.ne', le_div_iff₀ hb0]; nlinarith⟩
  · obtain ⟨hup, -⟩ | ⟨-, ha, -⟩ := ha
    · cases hup
    obtain ⟨-, hb, -⟩ | ⟨hup, -⟩ := hb
    swap
    · cases hup
    exact .inr ⟨rfl, (le_div_iff₀ hb0).2 (by nlinarith), (div_le_iff₀ hb0).2 (by nlinarith)⟩

theorem two_pow_fxBits_unit : (1 : ℝ) ≤ 2 ^ fxBits * 2 ^ (-201 : Int) := by
  rw [fxBits, ← zpow_natCast, ← zpow_add₀ two_ne_zero]
  exact one_le_zpow₀ one_le_two (by decide)

/-- The bounds of the fraction of a logarithm. -/
theorem log2_fraction_sideBound {up up' : Nat} (hup : up = 0 ∧ up' = 1 ∨ up = 1 ∧ up' = 0) {m d : Nat} (hd : 0 < d) (hle : d ≤ m)
    (hle2 : m ≤ 2 * d) :
    SideBound up (2 ^ fxBits * 2 ^ (-200 : Int)) (2 ^ fxBits * lnBound up m d / lnBound up' 2 1 + up : Nat)
      (2 ^ fxBits * Real.logb 2 (m / d)) := by
  have hup0 : up = 0 ∨ up = 1 := hup.imp And.left And.left
  have hup1 : up' = 0 ∨ up' = 1 := (hup.imp And.right And.right).symm
  have hdR : (0 : ℝ) < d := Nat.cast_pos.2 hd
  have hlog2 := Real.log_two_gt_d9
  have hratio0 : (1 : ℝ) ≤ (m : ℝ) / d := (one_le_div hdR).2 (by exact_mod_cast hle)
  have hratio1 : (m : ℝ) / d ≤ 2 := (div_le_iff₀ hdR).2 (by exact_mod_cast hle2)
  have hden : (2 : ℝ) ^ 255 + 2 ^ 10 ≤ 2 ^ fracBits * Real.log 2 := by
    calc (2 : ℝ) ^ 255 + 2 ^ 10 ≤ 2 ^ fracBits * 0.6 := by norm_num [fracBits]
      _ ≤ _ := by gcongr; linarith
  have hlogs : 2 ^ fracBits * Real.log (m / d) = Real.logb 2 (m / d) * (2 ^ fracBits * Real.log 2) := by
    rw [Real.logb]
    field_simp
  have hnum := lnBound_sideBound hup0 hd hle hle2
  rw [hlogs] at hnum
  have hquot := (hnum.div hup (lnBound_two hup1) hden (Real.logb_nonneg one_lt_two hratio0)
    ((Real.logb_le_iff_le_rpow one_lt_two (by linarith)).2 (by rwa [Real.rpow_one]))).mul_right (c := (2 : ℝ) ^ fxBits) (by positivity)
  have hpos : 0 < lnBound up' 2 1 := by
    have hclose := abs_le.1 ((lnBound_two hup1).abs_sub_le (by positivity))
    have hpos : (0 : ℝ) < lnBound up' 2 1 := by linarith [pow_pos (two_pos (α := ℝ)) 255]
    exact_mod_cast hpos
  have hround := sideBound_div hup0 (2 ^ fxBits * lnBound up m d) hpos
  have hcast : ((2 ^ fxBits * lnBound up m d : Nat) : ℝ) / lnBound up' 2 1 = lnBound up m d / lnBound up' 2 1 * 2 ^ fxBits := by
    rw [Nat.cast_mul, Nat.cast_pow, Nat.cast_ofNat]
    ring
  rw [hcast] at hround
  rw [mul_comm _ (Real.logb 2 _)]
  refine (hround.trans hquot).mono ?_
  have hunit := two_pow_fxBits_unit
  have hdouble : (2 : ℝ) ^ (-200 : Int) = 2 ^ (-201 : Int) * 2 := by norm_num
  rw [hdouble]
  linarith

theorem log2Bounds_spec {m : Nat} (hm : m ≠ 0) (e : Int) :
    ∃ lo hi, log2Bounds m e = (lo, hi, (Nat.log2 m : Int) + e) ∧ Log2Bounded (Real.logb 2 (m * (2 : ℝ) ^ e)) lo hi := by
  have hlow := log2_fraction_sideBound (.inl ⟨rfl, rfl⟩) (Nat.two_pow_pos m.log2) (Nat.log2_self_le hm)
    (by have := Nat.lt_log2_self (n := m); rw [pow_succ] at this; omega)
  have hhigh := log2_fraction_sideBound (.inr ⟨rfl, rfl⟩) (Nat.two_pow_pos m.log2) (Nat.log2_self_le hm)
    (by have := Nat.lt_log2_self (n := m); rw [pow_succ] at this; omega)
  have hsplit : Real.logb 2 (m * (2 : ℝ) ^ e) = (m.log2 + e : Int) + Real.logb 2 (m / (2 ^ m.log2 : Nat)) := by
    have hmR : (m : ℝ) ≠ 0 := Nat.cast_ne_zero.2 hm
    rw [Real.logb_mul hmR (by positivity), Nat.cast_pow, Nat.cast_ofNat, Real.logb_div hmR (by positivity), ← Real.rpow_intCast,
      Real.logb_rpow two_pos (by norm_num), Real.logb_pow, Real.logb_self_eq_one one_lt_two]
    push_cast
    ring
  refine ⟨_, _, rfl, hsplit ▸ Log2Bounded.int_add ?_ _⟩
  obtain ⟨-, hlow, hlowClose⟩ | ⟨hup, -, -⟩ := hlow
  swap
  · cases hup
  obtain ⟨hup, -, -⟩ | ⟨-, hhigh, hhighClose⟩ := hhigh
  · cases hup
  constructor
  · exact_mod_cast hlow
  · exact_mod_cast hhigh
  · rw [mul_sub, sub_le_iff_le_add]
    exact_mod_cast hlowClose
  · rw [mul_add]
    exact_mod_cast hhighClose

/-! ### FLG2 -/

/-- The magnitude of the bound that lies nearer to zero. -/
def log2Side (lo hi : Int) : Nat := if lo < 0 then (-hi).toNat else lo.toNat

/-- FLG2 of a positive value as its parts give it: the exponent of a power of two, the free choice where it is surely near, else the
code nearest the bound. -/
theorem flg2_of {x c m : Nat} {e : Int} (h : valueOf .f32 x = .fin false m e) (hm : m ≠ 0) {lo hi n : Int}
    (hbounds : log2Bounds m e = (lo, hi, n)) :
    (m = 2 ^ m.log2 ∧ flg2 x c = roundF .f32 .rn (FVal.ofInt n)) ∨
      m ≠ 2 ^ m.log2 ∧ (flg2 x c = Fmt.f32.signBit (decide (lo < 0)) + nearestFx (log2Side lo hi) ∨
        ∃ t k q, valueOf .f32 c = .fin t k q ∧ flg2 x c = c ∧
          surelyNear (FVal.scaled fxBits (.fin t k q)) lo hi (log2Tol lo hi n) = true) := by
  have hm' : (m == 0) = false := beq_eq_false_iff_ne.2 hm
  by_cases hpow : m = 2 ^ m.log2
  · refine .inl ⟨hpow, ?_⟩
    simp only [flg2, h, hm', hbounds, beq_iff_eq.2 hpow, if_true, Bool.false_eq_true, if_false]
  · have hpow' : (m == 2 ^ m.log2) = false := beq_eq_false_iff_ne.2 hpow
    have hnear : (if lo < 0 then Fmt.f32.signBit true + nearestFx (-hi).toNat else nearestFx lo.toNat) =
        Fmt.f32.signBit (decide (lo < 0)) + nearestFx (log2Side lo hi) := by
      rw [log2Side]
      split_ifs with hneg
      · rw [decide_eq_true hneg]
      · rw [decide_eq_false hneg, Fmt.signBit, if_neg Bool.false_ne_true, zero_add]
    refine .inr ⟨hpow, ?_⟩
    simp only [flg2, h, hm', hbounds, hpow', Bool.false_eq_true, if_false, hnear]
    split
    next t k q hc =>
      split_ifs with hsurely
      · exact .inr ⟨t, k, q, hc, rfl, hsurely⟩
      · exact .inl rfl
    next => exact .inl rfl

namespace Log2Bounded

variable {x : ℝ} {lo hi : Int} (h : Log2Bounded x lo hi)
include h

/-- The nearer bound is no further from zero than the logarithm, and close to it. -/
theorem side_spec : (log2Side lo hi : ℝ) / 2 ^ fxBits ≤ |x| ∧
    |(if decide (lo < 0) then -1 else 1) * ((log2Side lo hi : ℝ) / 2 ^ fxBits) - x| ≤ 2 ^ (-200 : Int) := by
  obtain ⟨hlow, hhigh, hlowClose, hhighClose⟩ := h
  have hU : (0 : ℝ) < 2 ^ fxBits := by positivity
  rw [← div_le_iff₀' hU] at hlow hhighClose
  rw [← le_div_iff₀' hU] at hhigh hlowClose
  generalize (2 : ℝ) ^ (-200 : Int) = ε at *
  rw [log2Side]
  by_cases hneg : lo < 0
  · have hlo : (lo : ℝ) / 2 ^ fxBits < 0 := div_neg_of_neg_of_pos (Int.cast_lt_zero.2 hneg) hU
    rw [if_pos hneg, decide_eq_true hneg, if_pos rfl, neg_one_mul]
    obtain hhi | hhi := le_total hi 0
    · have hcast : (((-hi).toNat : Nat) : ℝ) = -hi := by exact_mod_cast Int.toNat_of_nonneg (neg_nonneg.2 hhi)
      rw [hcast, neg_div, neg_neg]
      exact ⟨(neg_le_neg hhigh).trans (neg_le_abs x), abs_le.2 ⟨by linarith, by linarith⟩⟩
    · have hhi' : (0 : ℝ) ≤ hi / 2 ^ fxBits := div_nonneg (Int.cast_nonneg hhi) hU.le
      rw [Int.toNat_of_nonpos (neg_nonpos.2 hhi), Nat.cast_zero, zero_div, neg_zero]
      exact ⟨abs_nonneg x, abs_le.2 ⟨by linarith, by linarith⟩⟩
  · have hcast : ((lo.toNat : Nat) : ℝ) = lo := by exact_mod_cast Int.toNat_of_nonneg (not_lt.1 hneg)
    rw [if_neg hneg, decide_eq_false hneg, if_neg Bool.false_ne_true, one_mul, hcast]
    exact ⟨hlow.trans (le_abs_self x), abs_le.2 ⟨by linarith, by linarith⟩⟩

/-- The code nearest the bound, against the logarithm. -/
theorem near_error {u : Int} (hu : -149 ≤ u) (hu' : u ≤ 104) (hx : |x| < 2 ^ (u + 24)) :
    |f32Real (Fmt.f32.signBit (decide (lo < 0)) + nearestFx (log2Side lo hi)) - x| ≤ 2 ^ u + 2 ^ (-200 : Int) := by
  obtain ⟨hside, hclose⟩ := h.side_spec
  have hnear := nearestFx_error hu hu' (hside.trans_lt hx)
  rw [f32Real_signBit_add _ (nearestFx_le _)]
  generalize f32Mag (nearestFx (log2Side lo hi)) = r at hnear
  generalize (log2Side lo hi : ℝ) / 2 ^ fxBits = w at hclose hnear
  have hsign : |(if decide (lo < 0) then -1 else 1) * r - (if decide (lo < 0) then -1 else 1) * w| ≤ (2 : ℝ) ^ u := by
    rw [← mul_sub, abs_mul]
    refine (mul_le_of_le_one_left (abs_nonneg _) ?_).trans hnear
    split_ifs <;> simp
  exact (abs_sub_le _ _ _).trans (add_le_add hsign hclose)

end Log2Bounded

/-- The exponent of a value, and its logarithm. -/
theorem log2_bounds {m : Nat} (hm : m ≠ 0) (e : Int) :
    (2 : ℝ) ^ ((m.log2 : Int) + e) ≤ m * (2 : ℝ) ^ e ∧ m * (2 : ℝ) ^ e < (2 : ℝ) ^ ((m.log2 : Int) + e + 1) := by
  have hlow : (2 : ℝ) ^ m.log2 ≤ m := by exact_mod_cast Nat.log2_self_le hm
  have hhigh : (m : ℝ) < 2 ^ (m.log2 + 1) := by exact_mod_cast Nat.lt_log2_self
  rw [add_right_comm, zpow_add₀ two_ne_zero, zpow_add₀ two_ne_zero (_ + 1), ← Nat.cast_succ, zpow_natCast, zpow_natCast]
  exact ⟨by gcongr, by gcongr⟩

theorem logb_zpow_bounds {a : ℝ} {n : Int} (hlow : (2 : ℝ) ^ n ≤ a) (hhigh : a < (2 : ℝ) ^ (n + 1)) :
    n ≤ Real.logb 2 a ∧ Real.logb 2 a < n + 1 := by
  have ha : 0 < a := lt_of_lt_of_le (by positivity) hlow
  rw [← Real.rpow_intCast] at hlow hhigh
  exact ⟨(Real.le_logb_iff_rpow_le one_lt_two ha).2 hlow, by exact_mod_cast (Real.logb_lt_iff_lt_rpow one_lt_two ha).2 hhigh⟩

/-- A value between 0.5 and 2 that is no power of two has the exponent −1 or 0. -/
theorem exponent_of_mem {a : ℝ} {n : Int} (hlow : (2 : ℝ) ^ n ≤ a) (hhigh : a < (2 : ℝ) ^ (n + 1)) (ha : 1 / 2 ≤ a) (ha2 : a < 2) :
    n = 0 ∨ n = -1 := by
  have hn : n < 1 := (zpow_lt_zpow_iff_right₀ (one_lt_two (α := ℝ))).1 (by rw [zpow_one]; linarith)
  have hn' : -1 < n + 1 := (zpow_lt_zpow_iff_right₀ (one_lt_two (α := ℝ))).1 (by rw [zpow_neg_one]; linarith)
  omega

/-- A value outside 0.5 to 2 has an exponent above 0 or below −1. -/
theorem exponent_of_not_mem {a : ℝ} {n : Int} (hlow : (2 : ℝ) ^ n ≤ a) (hhigh : a < (2 : ℝ) ^ (n + 1)) (ha : a < 1 / 2 ∨ 2 < a) :
    n ≤ -2 ∨ 1 ≤ n := by
  obtain ha | ha := ha
  · have hn : n < -1 := (zpow_lt_zpow_iff_right₀ (one_lt_two (α := ℝ))).1 (by rw [zpow_neg_one]; linarith)
    omega
  · have hn : 1 < n + 1 := (zpow_lt_zpow_iff_right₀ (one_lt_two (α := ℝ))).1 (by rw [zpow_one]; linarith)
    omega

theorem cast_log2Tol_of_mem (lo hi : Int) {n : Int} (hn : n = 0 ∨ n = -1) :
    ((log2Tol lo hi n : Int) : ℝ) = 2 ^ fxBits * 2 ^ (-22 : Int) := by
  rw [log2Tol, if_pos hn, Int.cast_pow, Int.cast_ofNat, fxBits, ← zpow_natCast, ← zpow_natCast, ← zpow_add₀ two_ne_zero]
  rfl

theorem abs_lt_two_zpow_floor {x : ℝ} (hx : 1 ≤ |x|) : |x| < (2 : ℝ) ^ (⌊Real.logb 2 |x|⌋ + 1) := by
  rw [← Real.rpow_intCast, ← Real.logb_lt_iff_lt_rpow one_lt_two (zero_lt_one.trans_le hx)]
  exact (Int.lt_floor_add_one _).trans_eq (by push_cast; rfl)

/-- Elsewhere the tolerance is at most two units in the last place of the logarithm. -/
theorem Log2Bounded.cast_log2Tol_le {x : ℝ} {lo hi n : Int} (h : Log2Bounded x lo hi) (hn : ¬ (n = 0 ∨ n = -1)) (hx : 1 ≤ |x|) :
    ((log2Tol lo hi n : Int) : ℝ) ≤ 2 ^ fxBits * (2 * 2 ^ (⌊Real.logb 2 |x|⌋ - 23)) := by
  have hfloor : 0 ≤ ⌊Real.logb 2 |x|⌋ := Int.floor_nonneg.2 (Real.logb_nonneg one_lt_two hx)
  have hside : ((log2Side lo hi).log2 : Int) ≤ fxBits + ⌊Real.logb 2 |x|⌋ := by
    by_cases hzero : log2Side lo hi = 0
    · rw [hzero, Nat.log2_zero]
      omega
    · have hlow : (2 : ℝ) ^ (log2Side lo hi).log2 ≤ log2Side lo hi := by exact_mod_cast Nat.log2_self_le hzero
      have hhigh := ((div_le_iff₀ (by positivity)).1 h.side_spec.1).trans_lt
        (mul_lt_mul_of_pos_right (abs_lt_two_zpow_floor hx) (by positivity))
      have hlt := hlow.trans_lt hhigh
      rw [← zpow_natCast, ← zpow_natCast, ← zpow_add₀ two_ne_zero, zpow_lt_zpow_iff_right₀ one_lt_two] at hlt
      omega
  have hexp : ((((log2Side lo hi).log2 : Int) - 23).toNat : Int) ≤ fxBits + (⌊Real.logb 2 |x|⌋ - 23) := by
    rw [fxBits] at *
    omega
  have htol : log2Tol lo hi n = 2 * 2 ^ (((log2Side lo hi).log2 : Int) - 23).toNat := if_neg hn
  rw [htol, Int.cast_mul, Int.cast_pow, Int.cast_ofNat, ← zpow_natCast, mul_left_comm, ← zpow_natCast (2 : ℝ) fxBits,
    ← zpow_add₀ two_ne_zero]
  exact mul_le_mul_of_nonneg_left (zpow_le_zpow_right₀ one_le_two hexp) zero_le_two

/-- The integer logarithm of a power of two is exact. -/
theorem roundF_f32_ofInt {n : Int} (hn : n.natAbs < 2 ^ 24) :
    (∃ t k q, valueOf .f32 (roundF .f32 .rn (FVal.ofInt n)) = .fin t k q) ∧ f32Real (roundF .f32 .rn (FVal.ofInt n)) = n := by
  have hfin := roundF_f32_exact .rn (decide (n < 0)) (e := 0) hn (by decide) (by decide)
  have hreal := f32Real_of_isFin hfin
  obtain ⟨k, q, hvalue, -⟩ := hfin
  refine ⟨⟨_, k, q, hvalue⟩, hreal.trans ?_⟩
  rw [zpow_zero, mul_one, Rat.cast_natCast]
  rw [Nat.cast_natAbs, Int.cast_abs]
  by_cases hneg : n < 0
  · rw [decide_eq_true hneg, if_pos rfl, abs_of_neg (Int.cast_lt_zero.2 hneg), neg_one_mul, neg_neg]
  · rw [decide_eq_false hneg, if_neg Bool.false_ne_true, abs_of_nonneg (Int.cast_nonneg (not_lt.1 hneg)), one_mul]

/-- A code of FLG2 lies within a bound that the nearest code and the tolerance keep. -/
theorem flg2_error {x c m : Nat} {e lo hi n : Int} (h : valueOf .f32 x = .fin false m e) (hm : m ≠ 0)
    (heq : log2Bounds m e = (lo, hi, n)) (hpow : m ≠ 2 ^ m.log2) {y ε : ℝ} (hy : Log2Bounded y lo hi) {u : Int} (hu : -149 ≤ u)
    (hu' : u ≤ 104) (hlt : |y| < 2 ^ (u + 24)) (hnear : 2 ^ u + 2 ^ (-200 : Int) ≤ ε)
    (htol : ((log2Tol lo hi n : Int) : ℝ) ≤ 2 ^ fxBits * ε) :
    |f32Real (flg2 x c) - y| ≤ ε := by
  obtain ⟨hpow', -⟩ | ⟨-, hcode | ⟨t, k, q, hc, hcand, hsurely⟩⟩ := flg2_of h hm heq (c := c)
  · exact absurd hpow' hpow
  · rw [hcode]
    exact (hy.near_error hu hu' hlt).trans hnear
  · have hU : (0 : ℝ) < 2 ^ fxBits := by positivity
    have hwithin := abs_sub_le_of_surelyNear hsurely hy.lower hy.upper
    rw [scaled_fxBits hc, ← mul_sub, abs_mul, abs_of_pos hU] at hwithin
    rw [hcand]
    exact le_of_mul_le_mul_left (hwithin.trans htol) hU

theorem f32_exponent_bounds {x : Nat} {s : Bool} {m : Nat} {e : Int} (h : valueOf .f32 x = .fin s m e) (hm : m ≠ 0) :
    -149 ≤ (m.log2 : Int) + e ∧ (m.log2 : Int) + e ≤ 130 := by
  obtain ⟨hsig, hlow, hhigh⟩ := Fmt.fin_bounds h
  have hlog : m.log2 < 24 := (Nat.log2_lt hm).2 hsig
  have hmin : -149 ≤ e := hlow
  have hmax : e ≤ 107 := hhigh
  omega

theorem flg2_isFin {x c m : Nat} {e : Int} (h : valueOf .f32 x = .fin false m e) (hm : m ≠ 0) :
    ∃ t k q, valueOf .f32 (flg2 x c) = .fin t k q := by
  obtain ⟨lo, hi, heq, -⟩ := log2Bounds_spec hm e
  obtain ⟨hlow, hhigh⟩ := f32_exponent_bounds h hm
  obtain ⟨-, hcode⟩ | ⟨-, hcode | ⟨t, k, q, hc, hcand, -⟩⟩ := flg2_of h hm heq (c := c)
  · rw [hcode]
    exact (roundF_f32_ofInt (by omega)).1
  · obtain ⟨k, q, hvalue, -⟩ := Fmt.f32.isFin_signBit_add (rd := .ieee) (by decide) (decide (lo < 0)) (nearestFx_le (log2Side lo hi))
    exact ⟨_, k, q, by rw [hcode]; exact hvalue⟩
  · exact ⟨t, k, q, by rw [hcand]; exact hc⟩

/-- FLG2 of a power of two is its exponent. -/
theorem flg2_power {x c m : Nat} {e : Int} (h : valueOf .f32 x = .fin false m e) (hm : m ≠ 0) (hpow : m = 2 ^ m.log2) :
    f32Real (flg2 x c) = ((m.log2 : Int) + e : Int) := by
  obtain ⟨lo, hi, heq, -⟩ := log2Bounds_spec hm e
  obtain ⟨hlow, hhigh⟩ := f32_exponent_bounds h hm
  obtain ⟨-, hcode⟩ | ⟨hpow', -⟩ := flg2_of h hm heq (c := c)
  · rw [hcode]
    exact (roundF_f32_ofInt (by omega)).2
  · exact absurd hpow hpow'

theorem significand_of_power {m : Nat} {e j : Int} (hm : m ≠ 0) (h : (m : ℝ) * 2 ^ e = 2 ^ j) :
    m = 2 ^ m.log2 ∧ (m.log2 : Int) + e = j := by
  obtain ⟨hlow, hhigh⟩ := log2_bounds hm e
  rw [h] at hlow hhigh
  have hj : (m.log2 : Int) + e = j := by
    have h1 := (zpow_le_zpow_iff_right₀ (one_lt_two (α := ℝ))).1 hlow
    have h2 := (zpow_lt_zpow_iff_right₀ (one_lt_two (α := ℝ))).1 hhigh
    omega
  refine ⟨?_, hj⟩
  rw [← hj, zpow_add₀ two_ne_zero, zpow_natCast] at h
  exact_mod_cast mul_right_cancel₀ (by positivity) h

/-- FLG2 of a positive value: within 2^−22 between 0.5 and 2, within two units in the last place elsewhere, exact for a power of two. -/
theorem flg2_spec {x c m : Nat} {e : Int} {a : ℝ} (h : valueOf .f32 x = .fin false m e) (hm : m ≠ 0) (ha : a = m * (2 : ℝ) ^ e) :
    (1 / 2 ≤ a → a ≤ 2 → |f32Real (flg2 x c) - Real.logb 2 a| ≤ (2 : ℝ) ^ (-22 : Int)) ∧
      (a < 1 / 2 ∨ 2 < a → |f32Real (flg2 x c) - Real.logb 2 a| ≤ 2 * (2 : ℝ) ^ (⌊Real.logb 2 |Real.logb 2 a|⌋ - 23)) ∧
      ∀ j : Int, a = (2 : ℝ) ^ j → f32Real (flg2 x c) = j := by
  obtain ⟨lo, hi, heq, hbounds⟩ := log2Bounds_spec hm e
  obtain ⟨hlow, hhigh⟩ := log2_bounds hm e
  obtain ⟨hmin, hmax⟩ := f32_exponent_bounds h hm
  rw [← ha] at hbounds hlow hhigh
  obtain ⟨hlog, hlog'⟩ := logb_zpow_bounds hlow hhigh
  have hexact (j : Int) (hj : a = (2 : ℝ) ^ j) : f32Real (flg2 x c) = j := by
    obtain ⟨hpow, hexp⟩ := significand_of_power hm (ha.symm.trans hj)
    rw [flg2_power h hm hpow, hexp]
  by_cases hpow : m = 2 ^ m.log2
  · have hj : a = (2 : ℝ) ^ ((m.log2 : Int) + e) := by
      rw [ha, zpow_add₀ two_ne_zero, zpow_natCast]
      congr 1
      exact_mod_cast hpow
    have hzero : f32Real (flg2 x c) - Real.logb 2 a = 0 := by
      rw [hexact _ hj, hj, ← Real.rpow_intCast, Real.logb_rpow two_pos (by norm_num), sub_self]
    rw [hzero, abs_zero]
    exact ⟨fun _ _ => by positivity, fun _ => by positivity, hexact⟩
  · refine ⟨fun hge hle => ?_, fun hout => ?_, hexact⟩
    · have hne : a ≠ 2 := fun h2 => hpow (significand_of_power hm (j := 1) (by rw [← ha, h2, zpow_one])).1
      have hn := exponent_of_mem hlow hhigh hge (lt_of_le_of_ne hle hne)
      refine flg2_error h hm heq hpow hbounds (u := -23) (by decide) (by decide) ?_ (by norm_num) (cast_log2Tol_of_mem lo hi hn).le
      have hn1 : (((m.log2 : Int) + e : Int) : ℝ) ≤ 0 := by exact_mod_cast (by omega : (m.log2 : Int) + e ≤ 0)
      have hn2 : (-1 : ℝ) ≤ ((m.log2 : Int) + e : Int) := by exact_mod_cast (by omega : -1 ≤ (m.log2 : Int) + e)
      have hunit : (2 : ℝ) ^ (-23 + 24 : Int) = 2 := by norm_num
      rw [hunit, abs_lt]
      constructor <;> linarith
    · have hn := exponent_of_not_mem hlow hhigh hout
      have hlarge : 1 ≤ |Real.logb 2 a| := by
        obtain hn | hn := hn
        · have hn' : (((m.log2 : Int) + e : Int) : ℝ) ≤ -2 := by exact_mod_cast hn
          exact le_abs.2 (.inr (by linarith))
        · have hn' : (1 : ℝ) ≤ ((m.log2 : Int) + e : Int) := by exact_mod_cast hn
          exact le_abs.2 (.inl (by linarith))
      have hfloor : 0 ≤ ⌊Real.logb 2 |Real.logb 2 a|⌋ := Int.floor_nonneg.2 (Real.logb_nonneg one_lt_two hlarge)
      have hfloor' : ⌊Real.logb 2 |Real.logb 2 a|⌋ < 8 := by
        have hmin' : (-149 : ℝ) ≤ ((m.log2 : Int) + e : Int) := by exact_mod_cast hmin
        have hmax' : (((m.log2 : Int) + e : Int) : ℝ) ≤ 130 := by exact_mod_cast hmax
        have hbelow : |Real.logb 2 a| < 2 ^ (8 : ℝ) := by
          rw [abs_lt]
          norm_num
          constructor <;> linarith
        rw [Int.floor_lt]
        exact_mod_cast (Real.logb_lt_iff_lt_rpow one_lt_two (zero_lt_one.trans_le hlarge)).2 hbelow
      refine flg2_error h hm heq hpow hbounds (u := ⌊Real.logb 2 |Real.logb 2 a|⌋ - 23) (by omega) (by omega) ?_ ?_
        (hbounds.cast_log2Tol_le (by omega) hlarge)
      · exact (abs_lt_two_zpow_floor hlarge).trans_eq (by ring_nf)
      · rw [two_mul]
        gcongr
        · exact one_le_two
        · omega

/-! ### The statement -/

/-- Settles O12: the parts that the sections above prove for each function. -/
theorem floatFunctionBounds : Obligations.FloatFunctionBounds := by
  intro x c s m e _ hm h real mag a sign top faithful
  have hreal : real = f32Real := by
    funext y
    cases hy : valueOf .f32 y <;> simp only [real, f32Real, hy]
  have hsign : sign = Fmt.f32.signBit s := by
    cases s <;> rfl
  have hfaithful : faithful = FaithfulCode := by
    funext r y
    rw [FaithfulCode, ← hreal]
  clear_value real sign faithful
  subst hreal hsign hfaithful
  refine ⟨frcpSet_of_lt h hm, frcpSet_of_le h hm, fun hs => ?_, fun hlt => ?_, fun hs => ?_⟩
  · subst hs
    have ha : a = mag := one_mul mag
    obtain ⟨hne, hmem⟩ := frsqSet_faithful h hm
    rw [ha]
    exact ⟨hmem, hne, fsqrt32_nearest h hm⟩
  · obtain ⟨⟨k, q, hvalue⟩, hbound, hexact⟩ := fex2_spec (c := c) h rfl hlt
    exact ⟨k, q, hvalue, hbound, hexact⟩
  · subst hs
    have ha : a = mag := one_mul mag
    obtain ⟨t, k, q, hvalue⟩ := flg2_isFin (c := c) h hm
    exact ⟨t, k, q, hvalue, flg2_spec h hm ha⟩

end Sys2Proof.Machine
end

section
/-! The instructions of variable latency of the F32 unit, QNT and VGET (R117, R132, R136). -/

namespace Sys2Proof.Machine

/-! ### Free choices -/

/-- A free choice changes the counter of free values alone. -/
theorem State.pick_mem {α : Type} (s : State) (d : α) {xs : List α} (hne : xs ≠ []) :
    ∃ r ∈ xs, ∃ f, s.pick d xs = (r, s.counting s.nextId f) := by
  match xs with
  | [x] => exact ⟨x, List.mem_singleton.2 rfl, s.freeIdx, rfl⟩
  | x :: y :: xs =>
    have hlt : Config.free s.freeIdx % (x :: y :: xs).length < (x :: y :: xs).length := Nat.mod_lt _ (Nat.succ_pos _)
    refine ⟨(x :: y :: xs).getD (Config.free s.freeIdx % (x :: y :: xs).length) d, ?_, s.freeIdx + 1, rfl⟩
    rw [List.getD_eq_getElem _ _ hlt]
    exact List.getElem_mem hlt

theorem State.within_word (s : State) (f : Nat → Nat) : ∃ c : Word, ∃ k, s.within f = (f c.toNat, s.counting s.nextId k) := by
  refine ⟨BitVec.ofNat 32 (Config.free s.freeIdx), s.freeIdx + 1, ?_⟩
  rw [BitVec.toNat_ofNat]
  rfl

/-! ### Completion -/

/-- A one-source function of F32 leaves vd pending with a result that `ok` allows. -/
theorem fVar_completes {i : Instr} {f : State → Nat → Nat × State} {d a : BitVec 6} {n : BitVec 3} {ok : Nat → Nat → Prop}
    (hi : ∀ s, exec i s = .next (s.fVar f d a n)) (hf : ∀ s x, ∃ r, ok x r ∧ ∃ k, f s x = (r, s.counting s.nextId k)) :
    VariableLatency i .thread [vSrc a 0 (.exactly .f32)] [.v d] n (some 64) fun _ _ vs w =>
      ∃ r, ok (valAt vs 0).toNat r ∧ w = .value [⟨BitVec.ofNat 32 r, .f32⟩] := by
  refine variableLatency_of hi (fun s u ag vs _ _ _ => ?_) fun _ _ _ _ h => h
  obtain ⟨r, hok, k, heq⟩ := hf u (valAt vs 0).toNat
  refine ⟨k, _, ⟨r, hok, rfl⟩, ?_⟩
  simp only [heq]
  rfl

theorem quantise_completes {i : Instr} {bits : Nat} {d a b : BitVec 6} {n : BitVec 3}
    (hi : ∀ s, exec i s = .next (s.quantise bits d a b n)) :
    VariableLatency i .thread [vSrc a 0 (.exactly .f32), vSrc b 1 (.exactly .f32)] [.v d] n (some 64) fun _ _ vs w =>
      w = .value [⟨BitVec.ofNat 32 (qnt bits (valAt vs 0).toNat (valAt vs 1).toNat), .raw⟩] :=
  variableLatency_of hi (fun _ u _ _ _ _ _ => ⟨u.freeIdx, _, rfl, rfl⟩) fun _ _ _ _ h => h

/-- VGET leaves vd pending with 0, with the last earlier write of its own register, or with the loan (R117). -/
theorem vget_completes (d a b : BitVec 6) (n : BitVec 3) :
    VariableLatency (.vgetB32 d a b n) .thread [vSrc b 1 .int32] [.v d] n (some 64) fun s ag vs w =>
      ∀ bid tid blk, ag = .thread bid tid → s.block? bid = some blk →
        w = if blk.regs.blockdim.toNat ≤ (valAt vs 0).toNat then .value [⟨0, .raw⟩]
          else if (valAt vs 0).toNat = tid ∧ (s.ctx ag).isPending (.v a) = false then .value [s.readReg ag (.v a)]
          else .loan (valAt vs 0).toNat a := by
  refine variableLatency_of (fun _ => rfl) (fun s u ag vs hrise hsame _ => ⟨u.freeIdx, _, ?_, rfl⟩) fun s ag vs w h => ?_
  · rintro bid tid blk rfl hblk
    have hbody := hrise.1.block? bid
    rw [hblk] at hbody
    obtain ⟨blk', hblk', hbody'⟩ := Option.map_eq_some_iff.1 hbody
    have hregs : blk'.body.regs = blk.body.regs := congrArg Block.regs hbody'
    simp only [Block.body] at hregs
    simp only [hblk', hregs, hsame.1, hsame.2, ge_iff_le, Bool.not_eq_true']
  · intro bid tid blk hag hblk
    have hwork := h bid tid blk hag (by rwa [State.block?, State.collect_blocks])
    rwa [State.collect_ctx, State.collect_readReg] at hwork

/-! ### Special operands (R132) -/

section
variable {x c : Nat}

theorem frcpSet_of_nan (h : valueOf .f32 x = .nan) : frcpSet x = [Fmt.f32.nanCode .ieee] := by simp only [frcpSet, h]

theorem frcpSet_of_inf {s : Bool} (h : valueOf .f32 x = .inf s) : frcpSet x = [Fmt.f32.signBit s] := by simp only [frcpSet, h]

theorem frcpSet_of_zero {s : Bool} {e : Int} (h : valueOf .f32 x = .fin s 0 e) : frcpSet x = [Fmt.f32.signBit s + Fmt.f32.infCode] := by
  simp [frcpSet, h]

theorem frsqSet_of_nan (h : valueOf .f32 x = .nan) : frsqSet x = [Fmt.f32.nanCode .ieee] := by simp only [frsqSet, h]

theorem frsqSet_of_inf {s : Bool} (h : valueOf .f32 x = .inf s) : frsqSet x = if s then [Fmt.f32.nanCode .ieee] else [0] := by
  simp only [frsqSet, h]

theorem frsqSet_of_zero {s : Bool} {e : Int} (h : valueOf .f32 x = .fin s 0 e) : frsqSet x = [Fmt.f32.signBit s + Fmt.f32.infCode] := by
  simp [frsqSet, h]

theorem frsqSet_of_neg {m : Nat} {e : Int} (h : valueOf .f32 x = .fin true m e) (hm : m ≠ 0) : frsqSet x = [Fmt.f32.nanCode .ieee] := by
  simp [frsqSet, h, hm]

theorem fsqrt32_of_nan (h : valueOf .f32 x = .nan) : fsqrt32 x = Fmt.f32.nanCode .ieee := by simp only [fsqrt32, h]

theorem fsqrt32_of_inf {s : Bool} (h : valueOf .f32 x = .inf s) :
    fsqrt32 x = if s then Fmt.f32.nanCode .ieee else Fmt.f32.infCode := by
  simp only [fsqrt32, h]

theorem fsqrt32_of_zero {s : Bool} {e : Int} (h : valueOf .f32 x = .fin s 0 e) : fsqrt32 x = x := by simp [fsqrt32, h]

theorem fsqrt32_of_neg {m : Nat} {e : Int} (h : valueOf .f32 x = .fin true m e) (hm : m ≠ 0) :
    fsqrt32 x = Fmt.f32.nanCode .ieee := by
  simp [fsqrt32, h, hm]

theorem fex2_of_nan (h : valueOf .f32 x = .nan) : fex2 x c = Fmt.f32.nanCode .ieee := by simp only [fex2, h]

theorem fex2_of_inf {s : Bool} (h : valueOf .f32 x = .inf s) : fex2 x c = if s then 0 else Fmt.f32.infCode := by simp only [fex2, h]

theorem flg2_of_nan (h : valueOf .f32 x = .nan) : flg2 x c = Fmt.f32.nanCode .ieee := by simp only [flg2, h]

theorem flg2_of_inf {s : Bool} (h : valueOf .f32 x = .inf s) : flg2 x c = if s then Fmt.f32.nanCode .ieee else Fmt.f32.infCode := by
  simp only [flg2, h]

theorem flg2_of_zero {s : Bool} {e : Int} (h : valueOf .f32 x = .fin s 0 e) : flg2 x c = Fmt.f32.signBit true + Fmt.f32.infCode := by
  simp [flg2, h]

theorem flg2_of_neg {m : Nat} {e : Int} (h : valueOf .f32 x = .fin true m e) (hm : m ≠ 0) : flg2 x c = Fmt.f32.nanCode .ieee := by
  simp [flg2, h, hm]

theorem frcpSet_ne_nil (x : Nat) : frcpSet x ≠ [] := by
  cases h : valueOf .f32 x with
  | nan => simp [frcpSet_of_nan h]
  | inf s => simp [frcpSet_of_inf h]
  | fin s m e =>
    by_cases hm : m = 0
    · subst hm
      simp [frcpSet_of_zero h]
    · obtain htop | htop := lt_or_ge (2 ^ 128 - 2 ^ 104 : ℝ) (1 / (m * (2 : ℝ) ^ e))
      · simp [frcpSet_of_lt h hm htop]
      · exact (frcpSet_of_le h hm htop).1

theorem frsqSet_ne_nil (x : Nat) : frsqSet x ≠ [] := by
  cases h : valueOf .f32 x with
  | nan => simp [frsqSet_of_nan h]
  | inf s => cases s <;> simp [frsqSet_of_inf h]
  | fin s m e =>
    by_cases hm : m = 0
    · subst hm
      simp [frsqSet_of_zero h]
    · cases s with
      | true => simp [frsqSet_of_neg h hm]
      | false => exact (frsqSet_faithful h hm).1

/-- FEX2 overflows from 128 on. -/
theorem fex2_of_ge {m : Nat} {e : Int} (h : valueOf .f32 x = .fin false m e) (hge : (128 : ℚ) ≤ m * (2 : ℚ) ^ e) :
    fex2 x c = Fmt.f32.infCode := by
  rw [← cast_mul_pow2Ratio_div, le_div_iff₀ (Nat.cast_pos.2 (pow2Ratio_pos e).2)] at hge
  have hge' : m * (pow2Ratio e).1 ≥ 128 * (pow2Ratio e).2 := by exact_mod_cast hge
  simp [fex2, h, hge']

/-- FEX2 of an integer is the power of two. -/
theorem fex2_of_integer {s : Bool} {m : Nat} {e j : Int} (h : valueOf .f32 x = .fin s m e)
    (hj : (if s then -1 else 1) * (m * (2 : ℝ) ^ e) = j) (hlow : -149 ≤ j) (hhigh : j < 128) :
    fex2 x c = roundF .f32 .rn (.fin false 1 j) := by
  obtain ⟨lo, hi, fl, isInt, heq, hbounds⟩ := exp2Bounds_spec s m e
  have hguard := fex2_guard (s := s) (m := m) (e := e) (by rw [hj]; exact_mod_cast hhigh)
  have hint := hbounds.integer j hj hlow
  obtain rfl : j = fl := Int.cast_injective (hj.symm.trans (hbounds.whole hint))
  obtain ⟨-, -, hcode⟩ | ⟨hnot, -⟩ := fex2_of h hguard heq (c := c)
  · exact hcode
  · exact absurd ⟨hint, hlow⟩ hnot

/-- A code of a value with sign + is its magnitude code. -/
theorem le_maxCode_of_positive {k : Nat} {q : Int} (hx : x < 2 ^ 32) (h : valueOf .f32 x = .fin false k q) : x ≤ Fmt.f32.maxCode .ieee := by
  obtain ⟨hmax, hsign, -, -⟩ := Fmt.value_eq_fin h
  have hsign' : x / 2 ^ 31 % 2 ≠ 1 := of_decide_eq_false hsign.symm
  have hmax' : x % 2 ^ 31 ≤ Fmt.f32.maxCode .ieee := hmax
  omega

theorem f32Mag_three : f32Mag 3 = 3 * (2 : ℝ) ^ (-149 : Int) := by
  have hmag := Fmt.f32.codeMag_add (t := 0) (k := 3) (by decide) (.inr rfl)
  rw [zero_mul, zero_add, Nat.cast_zero, add_zero] at hmag
  rw [f32Mag, hmag]
  push_cast
  rfl

/-- FEX2 so far below the least magnitude that at most two codes above +0 lie within its bound. -/
theorem fex2_of_underflow {m : Nat} {e : Int} (hc : c < 2 ^ 32) (h : valueOf .f32 x = .fin true m e) (hge : (151 : ℚ) ≤ m * (2 : ℚ) ^ e) :
    fex2 x c < 3 := by
  have hge' := (Rat.cast_le (K := ℝ)).2 hge
  push_cast at hge'
  have hsmall : (if true then -1 else 1) * (m * (2 : ℝ) ^ e) ≤ -151 := by
    rw [if_pos rfl]
    linarith
  have hlt : (if true then -1 else 1) * (m * (2 : ℝ) ^ e) < 128 := by linarith
  obtain ⟨⟨k, q, hvalue⟩, hbound, -⟩ := fex2_spec (c := c) h rfl hlt
  have hle : fex2 x c ≤ Fmt.f32.maxCode .ieee := by
    obtain ⟨lo, hi, fl, isInt, heq, hbounds⟩ := exp2Bounds_spec true m e
    obtain ⟨hint, hlow, -⟩ | ⟨-, hnear | ⟨k, q, hck, hcand, -⟩⟩ := fex2_of h (.inl rfl) heq (c := c)
    · rw [hbounds.whole hint] at hsmall
      have : fl ≤ -151 := by exact_mod_cast hsmall
      omega
    · rw [hnear]
      exact nearestFx_le lo
    · rw [hcand]
      exact le_maxCode_of_positive hc hck
  revert hbound hsmall
  generalize (if true then -1 else 1) * (m * (2 : ℝ) ^ e) = a
  intro hsmall hbound
  have hfloor : ⌊a⌋ ≤ -151 := Int.floor_le_iff.2 (by push_cast; linarith)
  have hpower : (2 : ℝ) ^ a ≤ 2 ^ (-151 : Int) := by
    rw [← Real.rpow_intCast]
    exact Real.rpow_le_rpow_of_exponent_le one_le_two (by exact_mod_cast hsmall)
  rw [f32Real_of_le hle, max_eq_right (by omega)] at hbound
  rw [← f32Mag_strictMono.lt_iff_lt, f32Mag_three]
  have hupper := (abs_le.1 hbound).2
  norm_num at hupper hpower ⊢
  linarith

end

end Sys2Proof.Machine
end

section
/-! QNT (R136): the parameter word of a group. -/

namespace Sys2Proof.Machine

theorem isFinite_eq_isSome (F : Fmt) (x : Nat) : isFinite F x = (valueOf F x).real.isSome := by
  rw [isFinite]
  cases valueOf F x <;> rfl

/-- The integer that stands for a finite F32 value in QNT. -/
theorem sig149_cast {x : Nat} {p : ℚ} (h : (valueOf .f32 x).real = some p) : (sig149 x : ℚ) = p * 2 ^ 149 := by
  rw [sig149]
  cases hx : valueOf .f32 x with
  | nan => simp [hx, FVal.real] at h
  | inf s => simp [hx, FVal.real] at h
  | fin s m e =>
    rw [hx, FVal.real_fin, Option.some.injEq] at h
    obtain ⟨-, hlow, -⟩ := Fmt.fin_bounds hx
    have hexp : (((149 : Nat) : Int) + e).toNat = (149 : Int) + e :=
      Int.toNat_of_nonneg (by have hmin : (-149 : Int) ≤ e := hlow; omega)
    have hscale : ((m * 2 ^ (((149 : Nat) : Int) + e).toNat : Nat) : ℚ) = m * (2 : ℚ) ^ e * 2 ^ 149 := by
      rw [Nat.cast_mul, Nat.cast_pow, Nat.cast_ofNat, ← zpow_natCast, hexp, zpow_add₀ two_ne_zero]
      norm_cast
      ring
    rw [FVal.scaled, ← h, signFactor]
    cases s
    · rw [if_neg Bool.false_ne_true, if_neg Bool.false_ne_true, Int.cast_natCast, hscale, one_mul]
    · rw [if_pos rfl, if_pos rfl, Int.cast_neg, Int.cast_natCast, hscale]
      ring

theorem qnt_of_not_finite {bits x y : Nat} (h : (valueOf .f32 x).real = none ∨ (valueOf .f32 y).real = none) : qnt bits x y = 0 := by
  have hfin : (isFinite .f32 x && isFinite .f32 y) = false := by
    rw [isFinite_eq_isSome, isFinite_eq_isSome]
    obtain h | h := h <;> simp [h]
  simp only [qnt, hfin, Bool.not_false, if_true]

/-- QNT of finite operands, by its parts. -/
theorem qnt_of_finite {value : Nat → FVal} (hvalue : valueOf .f16 = value) {bits x y : Nat}
    (hx : isFinite .f32 x = true) (hy : isFinite .f32 y = true) {lo hi : Int} (hlo : min (min (sig149 x) (sig149 y)) 0 = lo)
    (hhi : max (max (sig149 x) (sig149 y)) 0 = hi) :
    (hi = lo → qnt bits x y = 0) ∧ ∀ {sc p q k : Nat} {t : Bool} {e : Int},
      hi ≠ lo → min (roundCode .f16 .ru false (hi - lo).toNat ((2 ^ bits - 1) * 2 ^ 149)) (Fmt.f16.maxCode .ieee) = sc →
      value sc = .fin t k e → pow2Ratio e = (p, q) →
      qnt bits x y = min (2 ^ bits - 1) (roundNat .rn false ((-lo).toNat * q) (2 ^ 149 * (k * p))) * 2 ^ 16 + sc := by
  have hfin : (isFinite .f32 x && isFinite .f32 y) = true := by rw [hx, hy]; rfl
  rw [qnt, hvalue]
  simp only [hfin, hlo, hhi, Bool.not_true, Bool.false_eq_true, if_false, beq_iff_eq]
  refine ⟨fun h => if_pos h, fun {sc p q k t e} hne hsc hk hpq => ?_⟩
  simp only [if_neg hne, hsc, hk, hpq]

theorem f16_codeMag_maxCode : Fmt.f16.codeMag (Fmt.f16.maxCode .ieee) = 65504 := by
  norm_num [Fmt.codeMag, Fmt.codeSig, Fmt.codeExp, Fmt.maxCode, Fmt.qmin, Fmt.f16]

/-- The scale of a group: the range over the greatest code, rounded upward to F16 and at most its greatest finite value. -/
theorem scale_spec {num den : Nat} (hnum : 0 < num) (hden : 0 < den) :
    let sc := min (roundCode .f16 .ru false num den) (Fmt.f16.maxCode .ieee)
    ∃ u k e, Fmt.f16.RoundsTo .ru false ((num : ℚ) / den) u ∧ valueOf .f16 sc = .fin false k e ∧ (k : ℚ) * (2 : ℚ) ^ e = min u 65504 ∧
      0 < min u 65504 ∧ sc < 2 ^ 15 := by
  have hround := Fmt.f16.roundsTo_roundCode (by decide) .ru false num hden
  generalize roundCode .f16 .ru false num den = code at *
  obtain ⟨k, e, hvalue, hmag⟩ := Fmt.f16.isFin_signBit_add (rd := .ieee) (by decide) false (min_le_right code _)
  rw [Fmt.f16.codeMag_strictMono.monotone.map_min, f16_codeMag_maxCode] at hmag
  rw [Fmt.signBit, if_neg Bool.false_ne_true, zero_add] at hvalue
  have hpos : (0 : ℚ) < Fmt.f16.codeMag code :=
    (div_pos (Nat.cast_pos.2 hnum) (Nat.cast_pos.2 hden)).trans_le ((Fmt.f16.roundsTo_iff_of_away (.inr ⟨rfl, rfl⟩) _ _).1 hround).2.1
  exact ⟨_, k, e, hround, hvalue, hmag, lt_min hpos (by norm_num), (min_le_right _ _).trans_lt (by decide)⟩

/-- The zero point before it is clamped: minus the least value over the scale, rounded to an integer. -/
theorem zeroPoint_rounds {low k : Nat} {e : Int} {v : ℚ} (hv : (k : ℚ) * (2 : ℚ) ^ e = v) (hpos : 0 < v) :
    IntRounds .rn ((low : ℚ) / 2 ^ 149 / v) (roundNat .rn false (low * (pow2Ratio e).2) (2 ^ 149 * (k * (pow2Ratio e).1)) : Nat) := by
  have hk : 0 < k := Nat.pos_of_ne_zero fun h => by rw [h, Nat.cast_zero, zero_mul] at hv; exact hpos.ne hv
  have hden : 0 < 2 ^ 149 * (k * (pow2Ratio e).1) :=
    Nat.mul_pos (Nat.two_pow_pos 149) (Nat.mul_pos hk (pow2Ratio_pos e).1)
  have hround := intRounds_roundNat .rn false (low * (pow2Ratio e).2) hden
  have hratio : ((low * (pow2Ratio e).2 : Nat) : ℚ) / (2 ^ 149 * (k * (pow2Ratio e).1) : Nat) = (low : ℚ) / 2 ^ 149 / v := by
    rw [← hv, ← cast_mul_pow2Ratio_div, div_div, Nat.cast_mul, Nat.cast_mul (2 ^ 149), Nat.cast_pow, Nat.cast_ofNat, ← mul_div_assoc,
      div_div_eq_mul_div]
  rw [hratio, signFactor, if_neg Bool.false_ne_true, one_mul] at hround
  exact hround

/-- The parameter word of two finite operands. -/
theorem qnt_spec {bits x y : Nat} (hbits : 0 < bits) {p q : ℚ} (hp : (valueOf .f32 x).real = some p) (hq : (valueOf .f32 y).real = some q)
    {lo hi : ℚ} (hlo : lo = min (min p q) 0) (hhi : hi = max (max p q) 0) {top : Nat} (htop : top = 2 ^ bits - 1) :
    (hi = lo → qnt bits x y = 0) ∧
      (hi ≠ lo → ∃ (sc z : Nat) (u v : ℚ) (k : Int), Fmt.f16.RoundsTo .ru false ((hi - lo) / top) u ∧ v = min u 65504 ∧
        (valueOf .f16 sc).real = some v ∧ sc < 2 ^ 15 ∧ IntRounds .rn (-lo / v) k ∧
        z = (max 0 (min k top)).toNat ∧ qnt bits x y = z * 2 ^ 16 + sc) := by
  have hfx : isFinite .f32 x = true := by rw [isFinite_eq_isSome, hp]; rfl
  have hfy : isFinite .f32 y = true := by rw [isFinite_eq_isSome, hq]; rfl
  obtain ⟨hempty, hword⟩ := qnt_of_finite rfl hfx hfy (bits := bits) rfl rfl
  have hunit : (0 : ℚ) < 2 ^ 149 := by positivity
  have hloZ : ((min (min (sig149 x) (sig149 y)) 0 : Int) : ℚ) = lo * 2 ^ 149 := by
    rw [hlo, min_mul_of_nonneg _ _ hunit.le, min_mul_of_nonneg _ _ hunit.le, zero_mul, ← sig149_cast hp, ← sig149_cast hq]
    push_cast
    rfl
  have hhiZ : ((max (max (sig149 x) (sig149 y)) 0 : Int) : ℚ) = hi * 2 ^ 149 := by
    rw [hhi, max_mul_of_nonneg _ _ hunit.le, max_mul_of_nonneg _ _ hunit.le, zero_mul, ← sig149_cast hp, ← sig149_cast hq]
    push_cast
    rfl
  have hloNeg : min (min (sig149 x) (sig149 y)) 0 ≤ 0 := min_le_right _ _
  have hhiPos : 0 ≤ max (max (sig149 x) (sig149 y)) 0 := le_max_right _ _
  revert hempty hword hloZ hhiZ hloNeg hhiPos
  generalize min (min (sig149 x) (sig149 y)) 0 = loZ
  generalize max (max (sig149 x) (sig149 y)) 0 = hiZ
  intro hempty hword hloZ hhiZ hloNeg hhiPos
  have heq : hi = lo ↔ hiZ = loZ := by
    rw [← Int.cast_inj (α := ℚ), hloZ, hhiZ, mul_left_inj' hunit.ne']
  refine ⟨fun h => hempty (heq.1 h), fun h => ?_⟩
  have hne : hiZ ≠ loZ := fun h' => h (heq.2 h')
  have htopPos : 0 < top := htop ▸ Nat.sub_pos_of_lt (Nat.one_lt_two_pow hbits.ne')
  have hnum : 0 < (hiZ - loZ).toNat := by omega
  have hrange : (((hiZ - loZ).toNat : Nat) : ℚ) / ((2 ^ bits - 1) * 2 ^ 149 : Nat) = (hi - lo) / top := by
    have hcast : (((hiZ - loZ).toNat : Nat) : ℚ) = (hi - lo) * 2 ^ 149 := by
      rw [sub_mul, ← hloZ, ← hhiZ, ← Int.cast_sub]
      exact_mod_cast congrArg ((↑) : Int → ℚ) (Int.toNat_of_nonneg (by omega : 0 ≤ hiZ - loZ))
    rw [← htop, hcast, Nat.cast_mul, Nat.cast_pow, Nat.cast_ofNat, mul_div_mul_right _ _ hunit.ne']
  obtain ⟨u, k, e, hround, hvalue, hmag, hpos, hlt⟩ := scale_spec hnum (den := (2 ^ bits - 1) * 2 ^ 149)
    (Nat.mul_pos (htop ▸ htopPos) (Nat.two_pow_pos 149))
  have hlow : (((-loZ).toNat : Nat) : ℚ) / 2 ^ 149 = -lo := by
    have hcast : (((-loZ).toNat : Nat) : ℚ) = -lo * 2 ^ 149 := by
      rw [neg_mul, ← hloZ, ← Int.cast_neg]
      exact_mod_cast congrArg ((↑) : Int → ℚ) (Int.toNat_of_nonneg (by omega : 0 ≤ -loZ))
    rw [hcast, mul_div_cancel_right₀ _ hunit.ne']
  have hzero := zeroPoint_rounds (low := (-loZ).toNat) hmag hpos
  rw [hlow] at hzero
  rw [hrange] at hround
  have hqnt := hword (p := (pow2Ratio e).1) (q := (pow2Ratio e).2) hne rfl hvalue rfl
  rw [← htop] at *
  refine ⟨_, _, u, _, _, hround, rfl, ?_, hlt, hzero, rfl, hqnt.trans ?_⟩
  · rw [hvalue, FVal.real_fin, signFactor, if_neg Bool.false_ne_true, one_mul, hmag]
  · congr 2
    omega

/-! ### Named operands -/

theorem valueOf_one : valueOf .f32 0x3F800000 = .fin false (2 ^ 23) (-23) := by decide

theorem valueOf_two : valueOf .f32 0x40000000 = .fin false (2 ^ 23) (-22) := by decide

theorem flg2_of_two_pow {x c l : Nat} {e : Int} (h : valueOf .f32 x = .fin false (2 ^ l) e) :
    flg2 x c = roundF .f32 .rn (FVal.ofInt (l + e)) := by
  have hm : 2 ^ l ≠ 0 := (Nat.two_pow_pos l).ne'
  obtain ⟨lo, hi, heq, -⟩ := log2Bounds_spec hm e
  obtain ⟨-, hcode⟩ | ⟨hpow, -⟩ := flg2_of h hm heq (c := c)
  · rw [hcode, Nat.log2_two_pow]
  · exact absurd (by rw [Nat.log2_two_pow]) hpow

theorem flg2_one (c : Nat) : flg2 0x3F800000 c = 0 := by
  rw [flg2_of_two_pow valueOf_one]
  decide

theorem flg2_two (c : Nat) : flg2 0x40000000 c = 0x3F800000 := by
  rw [flg2_of_two_pow valueOf_two]
  decide

theorem fex2_two (c : Nat) : fex2 0x40000000 c = 0x40800000 := by
  rw [fex2_of_integer valueOf_two (j := 2) (by norm_num) (by decide) (by decide)]
  decide

theorem fex2_of_zero {x c : Nat} {s : Bool} {e : Int} (h : valueOf .f32 x = .fin s 0 e) : fex2 x c = 0x3F800000 := by
  rw [fex2_of_integer h (j := 0) (by simp) (by decide) (by decide)]
  decide

/-! ### The statement -/

/-- Settles O11: completion of each instruction, the parameter word, and the operands that R132 names. -/
theorem laneFloatVariable : Obligations.LaneFloatVariable := by
  intro d a b n f one val nan
  have hzero : valueOf .f32 0 = .fin false 0 (-149) := by decide
  have hzero' : valueOf .f32 0x80000000 = .fin true 0 (-149) := by decide
  have hinf : valueOf .f32 0x7F800000 = .inf false := by decide
  have hinf' : valueOf .f32 0xFF800000 = .inf true := by decide
  refine ⟨?_, ?_, ?_, ?_, ?_, quantise_completes fun _ => rfl, quantise_completes fun _ => rfl, vget_completes d a b n,
    ?_, ?_, ?_, ?_, ?_, ?_⟩
  · exact fVar_completes (fun _ => rfl) fun s x => s.pick_mem 0 (frcpSet_ne_nil x)
  · exact fVar_completes (fun _ => rfl) fun s x => s.pick_mem 0 (frsqSet_ne_nil x)
  · refine fVar_completes (i := .fsqrtF32 d a n) (ok := fun x r => r = fsqrt32 x) (fun _ => rfl) fun s x => ?_
    exact ⟨_, rfl, s.freeIdx, rfl⟩
  · refine fVar_completes (i := .fex2F32 d a n) (ok := fun x r => ∃ c : Word, r = fex2 x c.toNat) (fun _ => rfl) fun s x => ?_
    obtain ⟨c, hc⟩ := s.within_word (fex2 x)
    exact ⟨_, ⟨c, rfl⟩, hc⟩
  · refine fVar_completes (i := .flg2F32 d a n) (ok := fun x r => ∃ c : Word, r = flg2 x c.toNat) (fun _ => rfl) fun s x => ?_
    obtain ⟨c, hc⟩ := s.within_word (flg2 x)
    exact ⟨_, ⟨c, rfl⟩, hc⟩
  · intro bits hbits x y
    have hpos : 0 < bits := by fin_cases hbits <;> decide
    exact ⟨qnt_of_not_finite, fun p q hp hq => qnt_spec hpos hp hq rfl rfl rfl⟩
  · exact fun x c h => ⟨frcpSet_of_nan h, frsqSet_of_nan h, fsqrt32_of_nan h, fex2_of_nan h, flg2_of_nan h⟩
  · rintro x c (h | ⟨m, e, hm, h⟩)
    · exact ⟨frsqSet_of_inf h, fsqrt32_of_inf h, flg2_of_inf h⟩
    · exact ⟨frsqSet_of_neg h hm, fsqrt32_of_neg h hm, flg2_of_neg h hm⟩
  · exact fun x c m e h hge => fex2_of_ge h hge
  · intro x m e c h hge
    have hlt := fex2_of_underflow c.isLt h hge
    simp only [List.mem_cons, List.not_mem_nil, or_false]
    omega
  · intro c
    exact ⟨frcpSet_of_zero hzero, frcpSet_of_zero hzero', frcpSet_of_inf hinf, frcpSet_of_inf hinf', frsqSet_of_zero hzero,
      frsqSet_of_zero hzero', frsqSet_of_inf hinf, fsqrt32_of_zero hzero', fsqrt32_of_zero hzero, fsqrt32_of_inf hinf,
      fex2_of_inf hinf', fex2_of_inf hinf, flg2_of_zero hzero, flg2_of_zero hzero', flg2_of_inf hinf, flg2_one c, flg2_two c,
      fex2_two c, fex2_of_zero hzero, fex2_of_zero hzero'⟩

end Sys2Proof.Machine
end

section
/-! Lane branches, calls and returns (R149 to R151): what each ready thread does, on its own or by the flags of the whole group;
the braid then divides if its members part (R142). -/

namespace Sys2Proof.Machine

/-! ### The group -/

/-- Every agent of the step has executed its own part of an instruction, and nothing else has changed. -/
structure AllExecuted (s t : State) (n : BitVec 3) (lat : Nat) (ws : Agent → List Write) (pc : Agent → DWord) : Prop where
  only : OnlyAgents s t
  now : t.issue.now = s.issue.cycle
  each : ∀ ag ∈ s.issue.agents, Executed s t ag n lat (ws ag) (pc ag)

/-- As AllExecuted, and threads may have been filed since. -/
structure AllExecutedFiled (s t : State) (n : BitVec 3) (lat : Nat) (ws : Agent → List Write) (pc : Agent → DWord) : Prop where
  only : OnlyControl s t
  now : t.issue.now = s.issue.cycle
  each : ∀ ag ∈ s.issue.agents, Executed s t ag n lat (ws ag) (pc ag)

section
variable {s t u : State} {n : BitVec 3} {lat : Nat} {ws : Agent → List Write} {pc : Agent → DWord}

theorem AllExecuted.files (h : AllExecuted s t n lat ws pc)
    (hf : SameStore t u ∧ (∀ ag, SameAgent t u ag) ∧ u.issue = t.issue) : AllExecutedFiled s u n lat ws pc where
  only := ⟨h.only.1.store.trans hf.1, fun ag hag => (h.only.2 ag hag).trans (hf.2.1 ag)⟩
  now := (congrArg Issue.now hf.2.2).trans h.now
  each ag hag := (h.each ag hag).congr (SameAgent.refl s ag) (hf.2.1 ag) (congrArg Issue.now hf.2.2)

theorem AllExecuted.control (h : AllExecuted s t n lat ws pc) : AllExecutedFiled s t n lat ws pc :=
  h.files ⟨SameStore.refl t, SameAgent.refl t, rfl⟩

theorem AllExecuted.diverge (h : AllExecuted s t n lat ws pc) : AllExecutedFiled s t.diverge n lat ws pc := h.files t.diverge_files

/-- Agents that are there execute one after another, each its own part. -/
theorem State.foldl_executes {need : Nat} {body : State → Agent → State} (hn : s.issue.agents.Nodup)
    (hp : ∀ ag ∈ s.issue.agents, s.present ag)
    (hbody : ∀ u ag, ag ∈ s.issue.agents → SameBody s u → SameAgent s u ag → u.present ag →
      Executes u (body u ag) ag n lat (ws ag) (pc ag)) :
    AllExecuted s (s.issue.agents.foldl body (s.collect need)) n lat ws pc := by
  have hcollect := s.collect_sameBody need
  obtain ⟨hsteady, hothers, heach⟩ := foldl_agents steady_carries body
    (fun t ag => Executed (s.collect need) t ag n lat (ws ag) (pc ag)) (s.collect need) s.issue.agents hn
    (fun u ag hag hR hsa => by
      have hsame := hcollect.trans hR.1
      obtain ⟨h1, h2, h3⟩ := hbody u ag hag hsame ((s.collect_sameAgent need ag).trans hsa) ((hsame.present ag).2 (hp ag hag))
      exact ⟨h1, h2, h3.congr hsa.symm (SameAgent.refl _ ag) rfl⟩)
    (fun ag _ _ hP hR hsa => hP.congr (SameAgent.refl _ ag) hsa (congrArg Issue.now hR.2))
  refine ⟨⟨hcollect.trans hsteady.1, fun ag hag => (s.collect_sameAgent need ag).trans (hothers ag hag)⟩, ?_, fun ag hag => ?_⟩
  · exact (congrArg Issue.now hsteady.2).trans (s.collect_now need)
  · exact (heach ag hag).congr (s.collect_sameAgent need ag).symm (SameAgent.refl _ ag) rfl

/-- Ready agents run an instruction, each on its own sources' values. -/
theorem State.runGroup_executes {o : Op} {body : State → Agent → List VReg → State} (h : s.AllReady o.who o.srcs o.dsts)
    (hbody : ∀ u ag, ag ∈ s.issue.agents → SameBody s u → SameAgent s u ag → u.present ag →
      Executes u (body u ag (s.sources ag o.srcs)) ag o.n lat (ws ag) (pc ag))
    (hbad : o.bad = none := by rfl) (hpriv : o.priv = false := by rfl) :
    AllExecuted s (s.runGroup o noFixed body) o.n lat ws pc := by
  have hcollect := s.collect_sameBody o.grants
  obtain ⟨hsteady, hothers, heach⟩ := State.runGroup_ready steady_carries (fx := noFixed) (body := body)
    (fun t ag => Executed s t ag o.n lat (ws ag) (pc ag)) h hbad (fun _ _ _ _ _ => rfl)
    (fun hp => absurd (hpriv.symm.trans hp) (by decide))
    (fun u ag hag hR hsa hp => by
      obtain ⟨h1, h2, h3⟩ := hbody u ag hag (hcollect.trans hR.1) hsa hp
      exact ⟨h1, h2, h3.congr hsa.symm (SameAgent.refl _ ag) rfl⟩)
    (fun ag _ _ hP hR hsa => hP.congr (SameAgent.refl s ag) hsa (congrArg Issue.now hR.2))
  exact ⟨⟨hcollect.trans hsteady.1, hothers⟩, (congrArg Issue.now hsteady.2).trans (s.collect_now _), heach⟩

end

/-! ### Branches that each member takes on its own (R149) -/

theorem Executes.parts {s t : State} {ag : Agent} {n : BitVec 3} {lat : Nat} {ws : List Write} {pc : DWord}
    (h : Executes s t ag n lat ws pc) :
    SameBody s t ∧ t.issue = s.issue ∧ (∀ x, x ≠ ag → SameAgent s t x) ∧ Executed s t ag n lat ws pc :=
  ⟨h.steady.1, h.steady.2, h.others, h.executed⟩

/-- A branch that writes nothing. -/
theorem vBranch_completes {i : Instr} {srcs : List Src} {n : BitVec 3} {nx : DWord → List VReg → DWord}
    {next : DWord → List VReg → List (List VReg) → DWord}
    (hi : ∀ s, exec i s = .next (s.vBranch { n := n, srcs := srcs, who := .thread } nx)) (hnext : ∀ pc vs all, next pc vs all = nx pc vs) :
    BranchTo i .thread srcs [] n next fun _ => [] :=
  branchTo_of hi hnext fun u _ _ hp _ => (u.goto_executes hp n 4 _).parts

theorem Who.thread_allows {s : State} {srcs : List Src} {dsts : List Reg} (h : s.AllReady .thread srcs dsts) {ag : Agent}
    (hag : ag ∈ s.issue.agents) : Who.thread.allows ag = true := (h.2 ag hag).allowed

/-- A return address in a register pair fits a thread. -/
theorem link_fits {d d' : BitVec 6} {x y : Word} {t : Tag} {ag : Agent} (h : Who.thread.allows ag = true) :
    ∀ w ∈ [wV d x t, wV d' y t], w.fits ag := by
  simp only [List.mem_cons, List.not_mem_nil, or_false, forall_eq_or_imp, forall_eq]
  exact ⟨wV_fits _ _ _ h, wV_fits _ _ _ h⟩

theorem call_completes (o : BitVec 18) (n : BitVec 3) :
    BranchTo (.call o n) .thread [] [.v 62, .v 63] n (fun pc _ _ => pc + BitVec.ofInt 64 (4 * o.toInt)) fun pc =>
      [wV 62 ((pc + 4).extractLsb' 0 32) .n64, wV 63 ((pc + 4).extractLsb' 32 32) .n64] :=
  branchTo_of (nx := fun pc _ => relTarget pc o) (fun _ => rfl) (fun pc _ _ => (relTarget_eq pc o).symm)
    fun u _ _ hp hwho => (u.writeFixed_goto_executes hp n latM (link_fits hwho) _).parts

/-! ### Branches across the braid (R149) -/

/-- Where a thread goes by a branch of displacement `o` that all members take, or none does. -/
def acrossPc (o : BitVec 18) (taken : Bool) (pc : DWord) : DWord := if taken then relTarget pc o else pc + 4

theorem valAt_source (s : State) (ag : Agent) (x : Src) : valAt (s.sources ag [x]) 0 = (s.readReg ag x.reg).val := rfl

/-- Every ready thread of the group goes where `test` of their flags says. -/
theorem State.braidBranch_ready {s : State} {k : BitVec 3} (h : s.AllReady .thread [kSrc k] []) (test : List Bool → Bool)
    (o : BitVec 18) (n : BitVec 3) :
    let taken := test (s.issue.agents.map fun ag => (s.readReg ag (.k k)).val.getLsbD 0)
    s.braidBranch test k o n =
      (s.issue.agents.foldl (fun u ag => u.goto ag n (acrossPc o taken (u.ctx ag).pc)) (s.collect 0), taken,
        s.issue.agents.map fun ag => (ag, s.sources ag [kSrc k])) := by
  intro taken
  have hg : s.gather { n := n, srcs := [kSrc k], who := .thread } =
      (s.collect 0, s.issue.agents.map fun ag => (ag, s.sources ag [kSrc k])) := State.gather_ready h rfl rfl
  have hflags : flagsOf (s.issue.agents.map fun ag => (ag, s.sources ag [kSrc k])) =
      s.issue.agents.map fun ag => (s.readReg ag (.k k)).val.getLsbD 0 := by
    simp only [flagsOf, List.map_map, Function.comp_def, valAt_source]
    rfl
  simp only [State.braidBranch, hg, hflags, List.foldl_map]
  rfl

theorem State.braidBranch_executes {s : State} {k : BitVec 3} (h : s.AllReady .thread [kSrc k] []) (test : List Bool → Bool)
    (o : BitVec 18) (n : BitVec 3) :
    AllExecuted s (s.braidBranch test k o n).1 n 4 (fun _ => []) fun ag =>
      acrossPc o (test (s.issue.agents.map fun ag => (s.readReg ag (.k k)).val.getLsbD 0)) (s.ctx ag).pc := by
  rw [State.braidBranch_ready h]
  refine State.foldl_executes h.1 (fun ag hag => (h.2 ag hag).present) fun u ag _ _ hsa hp => ?_
  rw [← hsa.1]
  exact u.goto_executes hp n 4 _

/-- A branch across the braid; `files` is what the taken branch files. -/
theorem braidBranch_completes {i : Instr} {k n : BitVec 3} {o : BitVec 18} {test : List Bool → Bool}
    {files : State → Bool → List (Agent × List VReg) → State} {next : DWord → List VReg → List (List VReg) → DWord}
    (hi : ∀ s, exec i s = .next (files (s.braidBranch test k o n).1 (s.braidBranch test k o n).2.1 (s.braidBranch test k o n).2.2))
    (hfiles : ∀ s b ms, SameStore s (files s b ms) ∧ (∀ ag, SameAgent s (files s b ms) ag) ∧ (files s b ms).issue = s.issue)
    (hnext : ∀ pc vs all, acrossPc o (test (all.map fun vs => (valAt vs 0).getLsbD 0)) pc = next pc vs all) :
    BranchTo i .thread [kSrc k] [] n next fun _ => [] := by
  intro s h
  have hend := (State.braidBranch_executes h test o n).files (hfiles _ (s.braidBranch test k o n).2.1 (s.braidBranch test k o n).2.2)
  refine ⟨_, hi s, hend.only, hend.now, fun ag hag => ?_⟩
  rw [← hnext, List.map_map]
  exact hend.each ag hag

theorem files_nothing (s : State) : SameStore s s ∧ (∀ ag, SameAgent s s ag) ∧ s.issue = s.issue :=
  ⟨SameStore.refl s, SameAgent.refl s, rfl⟩

@[simp] theorem State.fileAgent_issue (s : State) (ag : Agent) : (s.fileAgent ag).issue = s.issue := by
  cases ag with
  | thread bid tid => exact s.file_issue bid tid
  | bobbin => rfl

/-- The members of a taken BRANY are filed. -/
def State.fileTaken (s : State) (taken : Bool) (ms : List (Agent × List VReg)) : State :=
  if taken then ms.foldl (fun s m => s.fileAgent m.1) s else s

theorem exec_brany (k n : BitVec 3) (o : BitVec 18) (s : State) :
    let r := s.braidBranch (fun fs => fs.any fun b => b) k o n
    exec (.brany k o n) s = .next (r.1.fileTaken r.2.1 r.2.2) := by
  intro r
  have hr : s.braidBranch (fun fs => fs.any fun b => b) k o n = r := rfl
  show execBrany k o n s = _
  unfold execBrany State.fileTaken
  rw [hr]
  obtain ⟨u, _ | _, ms⟩ := r <;> rfl

theorem State.fileTaken_files (s : State) (taken : Bool) (ms : List (Agent × List VReg)) :
    SameStore s (s.fileTaken taken ms) ∧ (∀ ag, SameAgent s (s.fileTaken taken ms) ag) ∧ (s.fileTaken taken ms).issue = s.issue := by
  unfold State.fileTaken
  split
  · exact foldl_files _ (fun u m => ⟨u.fileAgent_sameStore m.1, u.fileAgent_sameAgent m.1, u.fileAgent_issue m.1⟩) ms s
  · exact files_nothing s

/-! ### Indirect branches (R151) -/

/-- The writes of an indirect branch: the return address of CALLX. -/
def linkWrites (link : Option (BitVec 6)) (pc : DWord) : List Write :=
  match link with
  | some d => [wV d (pc + 4).lo .n64, wV (d + 1) (pc + 4).hi .n64]
  | none => []

/-- What an indirect branch does in an agent. -/
def indirectPart (link : Option (BitVec 6)) (n : BitVec 3) (s : State) (ag : Agent) (vs : List VReg) : State :=
  if pairAt vs 0 &&& 3 ≠ 0 then s.illegal ag 7
  else (s.writeFixed ag latM (linkWrites link (s.ctx ag).pc)).goto ag n (pairAt vs 0)

def indirectOp (link : Option (BitVec 6)) (a : BitVec 6) (n : BitVec 3) : Op :=
  { n := n, srcs := addrSrcs a, who := .thread
    dsts := match link with
      | some d => [Reg.v d, .v (d + 1)]
      | none => []
    bad := groupBad (match link with
      | some d => [(a.toNat, 2), (d.toNat, 2)]
      | none => [(a.toNat, 2)]) }

theorem State.vIndirect_eq (s : State) (link : Option (BitVec 6)) (a : BitVec 6) (n : BitVec 3) :
    s.vIndirect link a n = (s.runGroup (indirectOp link a n) noFixed (indirectPart link n)).diverge := by
  cases link <;> rfl

theorem extractLsb'_low_append {x y : Word} : (x ++ y : DWord).extractLsb' 0 2 = y.extractLsb' 0 2 := by
  apply BitVec.eq_of_getLsbD_eq
  intro i hi
  simp only [BitVec.getLsbD_extractLsb', BitVec.getLsbD_append]
  simp [show i < 32 by omega]

theorem State.vIndirect_completes {s : State} {link : Option (BitVec 6)} {a : BitVec 6} {n : BitVec 3}
    (hbad : (indirectOp link a n).bad = none) (halign : ∀ ag ∈ s.issue.agents, (s.readReg ag (.v a)).val.extractLsb' 0 2 = 0)
    (h : s.AllReady .thread (addrSrcs a) (indirectOp link a n).dsts) :
    AllExecutedFiled s (s.vIndirect link a n) n 4 (fun ag => linkWrites link (s.ctx ag).pc)
      fun ag => (s.readReg ag (.v (a + 1))).val ++ (s.readReg ag (.v a)).val := by
  rw [State.vIndirect_eq]
  refine AllExecuted.diverge (State.runGroup_executes (o := indirectOp link a n) h (fun u ag hag _ hsa hp => ?_) hbad)
  have hpair : pairAt (s.sources ag (addrSrcs a)) 0 = (s.readReg ag (.v (a + 1))).val ++ (s.readReg ag (.v a)).val := by
    rw [addrSrcs_eq]; rfl
  have hfits : ∀ w ∈ linkWrites link (u.ctx ag).pc, w.fits ag := by
    cases link with
    | none => exact fun _ hw => absurd hw List.not_mem_nil
    | some d => exact link_fits (Who.thread_allows h hag)
  have hlow : pairAt (s.sources ag (addrSrcs a)) 0 &&& 3 = 0 :=
    and_three_eq_zero (by decide) (by rw [hpair, extractLsb'_low_append, halign ag hag])
  have hpart : indirectPart link n u ag (s.sources ag (addrSrcs a)) =
      (u.writeFixed ag latM (linkWrites link (u.ctx ag).pc)).goto ag n (pairAt (s.sources ag (addrSrcs a)) 0) :=
    if_neg (not_not.2 hlow)
  rw [← hsa.1, ← hpair]
  exact hpart ▸ u.writeFixed_goto_executes hp n latM hfits _

/-- Settles O15: each thread goes where its own part, or the flags of all, send it, and the braid divides if its members part. -/
theorem laneBranches : Obligations.LaneBranches := by
  intro k n o d a rel flag link
  refine ⟨?_, ?_, ?_, ?_, ?_, ?_, call_completes o n, ?_⟩
  · exact vBranch_completes (fun _ => rfl) fun pc _ _ => (relTarget_eq pc o).symm
  · exact vBranch_completes (fun _ => rfl) fun pc _ _ => by rw [relTarget_eq]
  · exact vBranch_completes (fun _ => rfl) fun pc _ _ => by rw [relTarget_eq]
  · refine braidBranch_completes (files := State.fileTaken) (exec_brany k n o) State.fileTaken_files fun pc _ all => ?_
    rw [acrossPc, relTarget_eq, List.any_map]
    rfl
  · refine braidBranch_completes (files := fun s _ _ => s) (fun _ => rfl) (fun s _ _ => files_nothing s) fun pc _ all => ?_
    rw [acrossPc, relTarget_eq, List.all_map]
    rfl
  · refine braidBranch_completes (files := fun s _ _ => s) (fun _ => rfl) (fun s _ _ => files_nothing s) fun pc _ all => ?_
    have hnone : (all.map flag).all (fun b => !b) = !(all.any flag) := by rw [List.all_map, List.not_any_eq_all_not]; rfl
    rw [acrossPc, relTarget_eq, hnone]
    cases all.any flag <;> rfl
  · intro s ha halign target goes
    rw [← addrSrcs_eq]
    refine ⟨fun h => ?_, fun hd h => ?_⟩
    · have hend := State.vIndirect_completes (link := none) (n := n) (pairBad_none ha) halign h
      exact ⟨⟨_, rfl, hend.only, hend.now, hend.each⟩, ⟨_, rfl, hend.only, hend.now, hend.each⟩⟩
    · have hend := State.vIndirect_completes (link := some d) (n := n) (groups_fit ha hd) halign h
      exact ⟨_, rfl, hend.only, hend.now, hend.each⟩

end Sys2Proof.Machine
end

section
/-! Filing (R141, R142): a filed thread is in a bin of its key and in no braid, and filing another thread leaves it there. -/

namespace Sys2Proof.Machine

/-! ### Bins (R141) -/

theorem mem_updAt {α : Type} {f : α → α} {i : Nat} {x : α} {xs : List α} (h : x ∈ xs) : x ∈ updAt f i xs ∨ f x ∈ updAt f i xs := by
  obtain ⟨j, hj⟩ := List.mem_iff_getElem?.1 h
  have hget := updAt_get f i j xs
  rw [hj] at hget
  split at hget
  · exact .inr (List.mem_of_getElem? hget)
  · exact .inl (List.mem_of_getElem? hget)

theorem updAt_mem {α : Type} {f : α → α} {i : Nat} {x : α} {xs : List α} (h : xs[i]? = some x) : f x ∈ updAt f i xs :=
  List.mem_of_getElem? (i := i) (by rw [updAt_get, if_pos rfl, h]; rfl)

/-- The least of the filing cycles of some bins, if any, and of a given one, is one of them. -/
theorem foldl_oldest_mem {f : Option Nat → Bin → Option Nat} (hnone : ∀ b, f none b = some b.oldest)
    (hsome : ∀ o b, f (some o) b = some (min o b.oldest)) {l : List Bin} {m : Option Nat} {o : Nat} (h : l.foldl f m = some o) :
    m = some o ∨ ∃ b ∈ l, b.oldest = o := by
  induction l generalizing m with
  | nil => exact .inl h
  | cons b l ih =>
    obtain hm | ⟨x, hx, hxo⟩ := ih h
    · cases m with
      | none =>
        rw [hnone] at hm
        exact .inr ⟨b, List.mem_cons_self, Option.some.inj hm⟩
      | some o' =>
        rw [hsome] at hm
        obtain hmin | hmin := min_choice o' b.oldest
        · exact .inl (by rw [← hm, hmin])
        · exact .inr ⟨b, List.mem_cons_self, by rw [← Option.some.inj hm, hmin]⟩
    · exact .inr ⟨x, List.mem_cons_of_mem b hx, hxo⟩

/-- A bin of this key holds the thread. -/
def Bin.Has (b : Bin) (bid tid : Nat) (pc : DWord) : Prop := b.bid = bid ∧ b.pc = pc ∧ tid ∈ b.threads.map (·.1)

/-- A filing makes a new bin for the thread, or adds it to a bin of its key. -/
theorem fileInBins_cases (bins : List Bin) (now bid tid : Nat) (pc : DWord) :
    fileInBins bins now bid tid pc = bins ++ [{ bid := bid, pc := pc, threads := [(tid, now)], aged := false }] ∨
      ∃ i b, bins[i]? = some b ∧ b.bid = bid ∧ b.pc = pc ∧
        fileInBins bins now bid tid pc = updAt (fun b => { b with threads := b.threads ++ [(tid, now)] }) i bins := by
  unfold fileInBins
  dsimp only
  split
  · exact .inl rfl
  next o ho =>
    have hbin : ∃ b ∈ bins, (b.bid == bid && b.pc == pc && decide (b.threads.length < 32) && !b.isAged now) = true ∧ b.oldest = o := by
      obtain hm | ⟨b, hb, hbo⟩ := foldl_oldest_mem (fun _ => rfl) (fun _ _ => rfl) ho
      · cases hm
      · exact ⟨b, List.mem_of_mem_filter hb, (List.mem_filter.1 hb).2, hbo⟩
    split
    next i hi =>
      obtain ⟨hlt, hfit, -⟩ := List.findIdx?_eq_some_iff_getElem.1 hi
      simp only [Bool.and_eq_true, beq_iff_eq] at hfit
      exact .inr ⟨i, bins[i], List.getElem?_eq_getElem hlt, hfit.1.1.1.1, hfit.1.1.1.2, rfl⟩
    next hi =>
      obtain ⟨b, hb, hfit, hbo⟩ := hbin
      have := List.findIdx?_eq_none_iff.1 hi b hb
      simp only [hfit, hbo, beq_self_eq_true, Bool.and_self] at this
      cases this

theorem fileInBins_has (bins : List Bin) (now bid tid : Nat) (pc : DWord) :
    ∃ b ∈ fileInBins bins now bid tid pc, b.Has bid tid pc := by
  obtain h | ⟨i, b, hb, hbid, hpc, h⟩ := fileInBins_cases bins now bid tid pc <;> rw [h]
  · exact ⟨_, List.mem_append_right _ (List.mem_singleton_self _), rfl, rfl, List.mem_singleton_self _⟩
  · exact ⟨_, updAt_mem hb, hbid, hpc, by simp⟩

theorem fileInBins_keeps {bins : List Bin} {b : Bin} (now bid tid : Nat) (pc : DWord) {bid' tid' : Nat} {pc' : DWord} (hb : b ∈ bins)
    (h : b.Has bid' tid' pc') : ∃ b ∈ fileInBins bins now bid tid pc, b.Has bid' tid' pc' := by
  obtain ⟨hbid, hpc, htid⟩ := h
  obtain hnew | ⟨i, -, -, -, -, hadd⟩ := fileInBins_cases bins now bid tid pc
  · exact ⟨b, hnew ▸ List.mem_append_left _ hb, hbid, hpc, htid⟩
  · rw [hadd]
    obtain hm | hm := mem_updAt (f := fun b : Bin => { b with threads := b.threads ++ [(tid, now)] }) (i := i) hb
    · exact ⟨b, hm, hbid, hpc, htid⟩
    · exact ⟨_, hm, hbid, hpc, by rw [List.map_append]; exact List.mem_append_left _ htid⟩

/-! ### A core's bins and braids (R142) -/

/-- The thread is in a bin of this key and in no braid. -/
def CoreState.Filed (c : CoreState) (bid tid : Nat) (pc : DWord) : Prop :=
  (∃ b ∈ c.bins, b.Has bid tid pc) ∧ ∀ p ∈ c.pipes.toList, ∀ br ∈ p.braids, br.bid = bid → tid ∉ br.members.map (·.1)

theorem State.filed_iff {s : State} {bid tid : Nat} {pc : DWord} :
    s.Filed bid tid pc ↔ ∃ b, s.block? bid = some b ∧ (s.core b.core).Filed bid tid pc := Iff.rfl

/-- A core on which a thread is filed. -/
def CoreState.refile (c : CoreState) (now bid tid : Nat) (pc : DWord) : CoreState :=
  let c := (c.leaveBraid bid tid).unfile now bid tid
  { c with bins := fileInBins c.bins now bid tid pc }

/-- A member of a braid after a thread has left it was one before, and is not that thread. -/
theorem CoreState.mem_leaveBraid {c : CoreState} {bid tid : Nat} {p : Pipe} (hp : p ∈ (c.leaveBraid bid tid).pipes.toList) {br : Braid}
    (hbr : br ∈ p.braids) : ∃ q ∈ c.pipes.toList, ∃ br' ∈ q.braids, br.bid = br'.bid ∧
      ∀ t ∈ br.members.map (·.1), t ∈ br'.members.map (·.1) ∧ (br.bid = bid → t ≠ tid) := by
  simp only [CoreState.leaveBraid, Vector.toList_map, List.mem_map] at hp
  obtain ⟨q, hq, rfl⟩ := hp
  simp only [Pipe.without, List.mem_filter, List.mem_map] at hbr
  obtain ⟨⟨br', hbr', rfl⟩, -⟩ := hbr
  refine ⟨q, hq, br', hbr', ?_, fun t ht => ?_⟩
  · split <;> rfl
  · split at ht
    · obtain ⟨m, hm, rfl⟩ := List.mem_map.1 ht
      obtain ⟨hm, hne⟩ := List.mem_filter.1 hm
      exact ⟨List.mem_map_of_mem hm, fun _ => bne_iff_ne.1 hne⟩
    next hbid =>
      rw [if_neg hbid]
      exact ⟨ht, fun h => absurd h hbid⟩

theorem CoreState.unfile_keeps {c : CoreState} (now bid tid : Nat) {b : Bin} {bid' tid' : Nat} {pc : DWord} (hb : b ∈ c.bins)
    (h : b.Has bid' tid' pc) (hne : bid' ≠ bid ∨ tid' ≠ tid) : ∃ b ∈ (c.unfile now bid tid).bins, b.Has bid' tid' pc := by
  obtain ⟨hbid, hpc, htid⟩ := h
  let b' : Bin := if b.bid = bid then { b with threads := b.threads.filter fun t => t.1 != tid } else b
  have hkeys : b'.bid = bid' ∧ b'.pc = pc := by
    simp only [b']
    split <;> exact ⟨hbid, hpc⟩
  have hin : tid' ∈ b'.threads.map (·.1) := by
    simp only [b']
    split
    next heq =>
      obtain ⟨x, hx, rfl⟩ := List.mem_map.1 htid
      refine List.mem_map_of_mem (List.mem_filter.2 ⟨hx, bne_iff_ne.2 ?_⟩)
      exact hne.resolve_left fun hn => hn (hbid.symm.trans heq)
    · exact htid
  have hnil : b'.threads.isEmpty = false := by
    obtain ⟨x, hx, -⟩ := List.mem_map.1 hin
    exact List.isEmpty_eq_false_iff.2 (List.ne_nil_of_mem hx)
  refine ⟨{ b' with aged := b'.aged && b'.isAged now }, ?_, hkeys.1, hkeys.2, hin⟩
  exact List.mem_map_of_mem (List.mem_filter.2 ⟨List.mem_map_of_mem hb, by rw [hnil]; rfl⟩)

theorem CoreState.refile_filed (c : CoreState) (now bid tid : Nat) (pc : DWord) : (c.refile now bid tid pc).Filed bid tid pc := by
  refine ⟨fileInBins_has _ now bid tid pc, fun p hp br hbr hbid htid => ?_⟩
  obtain ⟨_, _, _, _, _, hmem⟩ := CoreState.mem_leaveBraid hp hbr
  exact (hmem tid htid).2 hbid rfl

theorem CoreState.Filed.refile {c : CoreState} {bid' tid' : Nat} {pc' : DWord} (h : c.Filed bid' tid' pc') (now bid tid : Nat) (pc : DWord)
    (hne : bid' ≠ bid ∨ tid' ≠ tid) : (c.refile now bid tid pc).Filed bid' tid' pc' := by
  obtain ⟨⟨b, hb, hhas⟩, hbraids⟩ := h
  obtain ⟨b', hb', hhas'⟩ := CoreState.unfile_keeps (c := c.leaveBraid bid tid) now bid tid hb hhas hne
  refine ⟨fileInBins_keeps now bid tid pc hb' hhas', fun p hp br hbr hbid htid => ?_⟩
  obtain ⟨q, hq, br', hbr', hkey, hmem⟩ := CoreState.mem_leaveBraid hp hbr
  exact hbraids q hq br' hbr' (hkey.symm.trans hbid) (hmem tid' htid).1

/-! ### The machine -/

/-- The thread can be filed: it is there, and its block has not stopped (R329). -/
def State.Fileable (s : State) (bid tid : Nat) : Prop :=
  (s.thread? bid tid).isSome = true ∧ ∀ b, s.block? bid = some b → b.halted = false

theorem State.Fileable.file_eq {s : State} {bid tid : Nat} (h : s.Fileable bid tid) :
    ∃ b, s.block? bid = some b ∧ s.file bid tid =
      s.updCore b.core fun c => c.refile (s.dom (domOf b.core)).cycles bid tid (s.ctx (.thread bid tid)).pc := by
  obtain ⟨hthread, hlive⟩ := h
  obtain ⟨t, ht⟩ := Option.isSome_iff_exists.1 hthread
  have hctx : s.ctx (.thread bid tid) = t.ctx := by simp only [State.ctx, ht]
  cases hb : s.block? bid with
  | none => simp [State.thread?, hb] at ht
  | some b =>
    refine ⟨b, rfl, ?_⟩
    rw [hctx, State.file, hb, ht]
    simp only [hlive b hb, Bool.false_eq_true, if_false]
    rfl

theorem State.block?_congr {s t : State} (h : t.blocks = s.blocks) (bid : Nat) : t.block? bid = s.block? bid := by
  rw [State.block?, State.block?, h]

theorem State.thread?_congr {s t : State} (h : t.blocks = s.blocks) (bid tid : Nat) : t.thread? bid tid = s.thread? bid tid := by
  rw [State.thread?, State.thread?, State.block?_congr h]

theorem State.Fileable.congr {s t : State} {bid tid : Nat} (h : s.Fileable bid tid) (e : t.blocks = s.blocks) : t.Fileable bid tid :=
  ⟨(State.thread?_congr e bid tid).symm ▸ h.1, fun b hb => h.2 b ((State.block?_congr e bid).symm.trans hb)⟩

theorem State.Fileable.filed {s : State} {bid tid : Nat} (h : s.Fileable bid tid) :
    (s.file bid tid).Filed bid tid (s.ctx (.thread bid tid)).pc := by
  obtain ⟨b, hb, heq⟩ := h.file_eq
  rw [heq]
  refine State.filed_iff.2 ⟨b, hb, ?_⟩
  rw [State.core_updCore_self]
  exact CoreState.refile_filed _ _ _ _ _

/-- Filing a thread leaves every other one filed. -/
theorem State.Filed.file {s : State} {bid' tid' : Nat} {pc : DWord} (h : s.Filed bid' tid' pc) (bid tid : Nat)
    (hne : bid' ≠ bid ∨ tid' ≠ tid) : (s.file bid tid).Filed bid' tid' pc := by
  obtain ⟨b', hb', hfiled⟩ := State.filed_iff.1 h
  refine State.filed_iff.2 ⟨b', (State.block?_congr (s.file_blocks bid tid) bid').trans hb', ?_⟩
  unfold State.file
  split
  · split
    · exact hfiled
    · rw [State.core_updCore]
      split
      · exact hfiled.refile _ bid tid _ hne
      · exact hfiled
  · exact hfiled

@[simp] theorem State.fileAgent_blocks (s : State) (ag : Agent) : (s.fileAgent ag).blocks = s.blocks := by
  cases ag with
  | thread bid tid => exact s.file_blocks bid tid
  | bobbin => rfl

theorem State.Filed.fileAgent {s : State} {bid tid : Nat} {pc : DWord} (h : s.Filed bid tid pc) {ag : Agent}
    (hne : ag ≠ .thread bid tid) : (s.fileAgent ag).Filed bid tid pc := by
  cases ag with
  | bobbin => exact h
  | thread i j =>
    refine State.Filed.file h i j ?_
    rw [← not_and_or]
    rintro ⟨rfl, rfl⟩
    exact hne rfl

/-- When the threads of a list have been filed one after another, each is filed. -/
theorem State.Filed.foldl_fileAgent {s : State} {bid tid : Nat} (l : List Agent) (hf : s.Fileable bid tid)
    (h : s.Filed bid tid (s.ctx (.thread bid tid)).pc ∨ .thread bid tid ∈ l) :
    (l.foldl State.fileAgent s).Filed bid tid (s.ctx (.thread bid tid)).pc := by
  induction l generalizing s with
  | nil => exact h.resolve_right List.not_mem_nil
  | cons a l ih =>
    have hctx : (s.fileAgent a).ctx (.thread bid tid) = s.ctx (.thread bid tid) := (s.fileAgent_sameAgent a _).1
    rw [← hctx]
    refine ih (hf.congr (s.fileAgent_blocks a)) ?_
    rw [hctx]
    by_cases ha : a = .thread bid tid
    · subst ha
      exact .inl hf.filed
    · obtain hs | hmem := h
      · exact .inl (hs.fileAgent ha)
      · exact .inr ((List.mem_cons.1 hmem).resolve_left fun e => ha e.symm)

/-! ### The members of a braid that part (R142) -/

theorem CoreState.braidOf_body (c : CoreState) (bid tid : Nat) : c.body.braidOf bid tid = c.braidOf bid tid := by
  have hbraids : c.body.pipes.toList.flatMap (·.braids) =
      (c.pipes.toList.flatMap (·.braids)).map fun b => { b with expanded := false } := by
    simp only [CoreState.body, Vector.toList_map, List.flatMap_map, List.map_flatMap]
  rw [CoreState.braidOf, CoreState.braidOf, hbraids,
    find?_map_of_keep (fun b : Braid => b.bid == bid && b.members.any fun m => m.1 == tid)
      (fun b => { b with expanded := false }) fun _ => rfl]
  cases (c.pipes.toList.flatMap (·.braids)).find? fun b => b.bid == bid && b.members.any fun m => m.1 == tid <;> rfl

theorem SameBody.braidOf {s t : State} (h : SameBody s t) (k bid tid : Nat) :
    (t.core k).braidOf bid tid = (s.core k).braidOf bid tid := by
  rw [← CoreState.braidOf_body, h.cores, CoreState.braidOf_body]

theorem SameBody.live {s t : State} (h : SameBody s t) {bid : Nat} (hl : ∀ b, s.block? bid = some b → b.halted = false) :
    ∀ b, t.block? bid = some b → b.halted = false := by
  intro b hb
  have hbody := h.block? bid
  rw [hb] at hbody
  cases hs : s.block? bid with
  | none => rw [hs] at hbody; cases hbody
  | some b' =>
    rw [hs] at hbody
    simp only [Option.map_some, Option.some.injEq] at hbody
    have hhalt : b.halted = b'.halted := by have := congrArg Block.halted hbody; exact this
    rw [hhalt, hl b' hs]

theorem SameBody.fileable {s t : State} (h : SameBody s t) {bid tid : Nat} (hf : s.Fileable bid tid) : t.Fileable bid tid :=
  ⟨(h.present (.thread bid tid)).2 hf.1, h.live hf.2⟩

/-- Threads of one braid that stand at different addresses: every member of the braid is filed. -/
theorem State.diverge_parted {s : State} {bid x y : Nat} {ms : List Nat}
    (hags : ∀ ag ∈ s.issue.agents, ∃ z, ag = .thread bid z ∧ (s.core s.issue.core).braidOf bid z = ms) (hms : ms ≠ [])
    (hx : .thread bid x ∈ s.issue.agents) (hy : .thread bid y ∈ s.issue.agents)
    (hpc : (s.ctx (.thread bid x)).pc ≠ (s.ctx (.thread bid y)).pc) :
    s.diverge = (ms.map (Agent.thread bid)).foldl State.fileAgent s := by
  have hbraid : ∀ z, .thread bid z ∈ s.issue.agents → (s.core s.issue.core).braidOf bid z = ms := fun z hz => by
    obtain ⟨z', he, hms⟩ := hags _ hz
    cases he
    exact hms
  unfold State.diverge
  split
  next hnil =>
    have := List.filterMap_eq_nil_iff.1 hnil _ hx
    simp [hbraid x hx, hms] at this
  next bid' tid' rest hcons =>
    have hmem : ∀ p, p ∈ (bid', tid') :: rest ↔ ∃ z, .thread bid z ∈ s.issue.agents ∧ p = (bid, z) := fun p => by
      rw [← hcons, List.mem_filterMap]
      refine ⟨fun ⟨ag, hag, hp⟩ => ?_, fun ⟨z, hz, hp⟩ => ⟨_, hz, ?_⟩⟩
      · obtain ⟨z, rfl, hz⟩ := hags ag hag
        simp [hz, hms] at hp
        exact ⟨z, hag, hp.symm⟩
      · simp [hbraid z hz, hms, hp]
    obtain ⟨z, hz, he⟩ := (hmem _).1 List.mem_cons_self
    cases he
    dsimp only
    split
    next hall =>
      have hsame : ∀ w, .thread bid w ∈ s.issue.agents → (s.ctx (.thread bid w)).pc = (s.ctx (.thread bid tid')).pc := fun w hw => by
        obtain he | hin := List.mem_cons.1 ((hmem (bid, w)).2 ⟨w, hw, rfl⟩)
        · cases he; rfl
        · exact beq_iff_eq.1 (List.all_eq_true.1 hall _ hin)
      exact absurd ((hsame x hx).trans (hsame y hy).symm) hpc
    · rw [hbraid tid' hz, List.foldl_map]
      rfl

end Sys2Proof.Machine
end

section
/-! Branches that part a braid, taken BRANYs, REFORM and SLEEP with a count of 0 file threads (R142, R149, R153). -/

namespace Sys2Proof.Machine

/-- An agent alone in its step has executed its own part. -/
theorem Executes.alone {s t : State} {ag : Agent} {need : Nat} {n : BitVec 3} {lat : Nat} {ws : List Write} {pc : DWord}
    (ha : s.issue.agents = [ag]) (h : Executes (s.collect need) t ag n lat ws pc) :
    AllExecuted s t n lat (fun _ => ws) fun _ => pc where
  only := ⟨(s.collect_sameBody need).trans h.steady.1, fun x hx =>
    (s.collect_sameAgent need x).trans (h.others x fun e => hx (by rw [ha, e]; exact List.mem_singleton_self _))⟩
  now := (congrArg Issue.now h.steady.2).trans (s.collect_now need)
  each x hx := by
    obtain rfl := List.mem_singleton.1 (ha ▸ hx)
    exact h.executed.congr (s.collect_sameAgent need x).symm (SameAgent.refl _ x) rfl

theorem AllExecuted.fileable {s t : State} {n : BitVec 3} {lat : Nat} {ws : Agent → List Write} {pc : Agent → DWord}
    (h : AllExecuted s t n lat ws pc) {bid tid : Nat} (hf : s.Fileable bid tid) : t.Fileable bid tid := h.only.1.fileable hf

/-- A thread that executes alone and is then filed. -/
theorem AllExecuted.files_alone {s t : State} {n : BitVec 3} {lat : Nat} {ws : Agent → List Write} {pc : Agent → DWord}
    {bid tid : Nat} (h : AllExecuted s t n lat ws pc) (ha : s.issue.agents = [.thread bid tid]) (hf : s.Fileable bid tid) :
    OnlyControl s (t.file bid tid) ∧ (t.file bid tid).Filed bid tid (pc (.thread bid tid)) ∧
      Executed s (t.file bid tid) (.thread bid tid) n lat (ws (.thread bid tid)) (pc (.thread bid tid)) := by
  have hmem : .thread bid tid ∈ s.issue.agents := ha ▸ List.mem_singleton_self _
  have hend := h.files ⟨t.file_sameStore bid tid, t.file_sameAgent bid tid, t.file_issue bid tid⟩
  refine ⟨hend.only, ?_, hend.each _ hmem⟩
  rw [← (h.each _ hmem).pc]
  exact (h.fileable hf).filed

/-- Every member of a braid that BRA.T parts is filed. -/
theorem braT_parted {s t : State} {k n : BitVec 3} {o : BitVec 18} {bid x y : Nat} (hlive : ∀ b, s.block? bid = some b → b.halted = false)
    (h : s.AllReady .thread [kSrc k] []) (hexec : exec (.braT k o n) s = .next t)
    (hags : ∀ ag ∈ s.issue.agents, ∃ z, ag = .thread bid z ∧
      (s.core s.issue.core).braidOf bid z = (s.core s.issue.core).braidOf bid x)
    (hms : (s.core s.issue.core).braidOf bid x ≠ [])
    (hthere : ∀ z ∈ (s.core s.issue.core).braidOf bid x, (s.thread? bid z).isSome)
    (hx : .thread bid x ∈ s.issue.agents) (hy : .thread bid y ∈ s.issue.agents)
    (hpc : (t.ctx (.thread bid x)).pc ≠ (t.ctx (.thread bid y)).pc) :
    ∀ z ∈ (s.core s.issue.core).braidOf bid x, t.Filed bid z (t.ctx (.thread bid z)).pc := by
  intro z hz
  let nx := fun pc vs => if (valAt vs 0).getLsbD 0 then relTarget pc o else pc + 4
  let u := s.runGroup { n := n, srcs := [kSrc k], who := .thread } noFixed fun s ag vs => s.goto ag n (nx (s.ctx ag).pc vs)
  obtain rfl : u.diverge = t := Host.Outcome.next.inj hexec
  have hall : AllExecuted s u n 4 (fun _ => []) fun ag => nx (s.ctx ag).pc (s.sources ag [kSrc k]) :=
    State.runGroup_executes (o := { n := n, srcs := [kSrc k], who := .thread }) h fun u ag _ _ hsa hp => by
      rw [← hsa.1]
      exact u.goto_executes hp n 4 _
  have hsame : SameBody s u := hall.only.1
  obtain ⟨hcore, hagents⟩ : u.issue.core = s.issue.core ∧ u.issue.agents = s.issue.agents := by
    rw [hsame.issue]; exact ⟨rfl, rfl⟩
  have hctx : ∀ ag, u.diverge.ctx ag = u.ctx ag := fun ag => (u.diverge_files.2.1 ag).1
  rw [hctx, hctx] at hpc
  rw [hctx, State.diverge_parted (bid := bid) (x := x) (y := y) (s := u) (ms := (s.core s.issue.core).braidOf bid x)
    (by simpa only [hcore, hagents, hsame.braidOf] using hags) hms (hagents ▸ hx) (hagents ▸ hy) hpc]
  exact State.Filed.foldl_fileAgent _ (hall.fileable ⟨hthere z hz, hlive⟩) (.inr (List.mem_map_of_mem hz))

/-- Every thread that executes a taken BRANY is filed at the target. -/
theorem brany_files {s t : State} {k n : BitVec 3} {o : BitVec 18} (h : s.AllReady .thread [kSrc k] [])
    (htaken : ∃ ag ∈ s.issue.agents, (s.readReg ag (.k k)).val.getLsbD 0 = true) (hexec : exec (.brany k o n) s = .next t)
    {bid tid : Nat} (hlive : ∀ b, s.block? bid = some b → b.halted = false) (hmem : .thread bid tid ∈ s.issue.agents) :
    t.Filed bid tid ((s.ctx (.thread bid tid)).pc + BitVec.ofInt 64 (4 * o.toInt)) := by
  have hany : (s.issue.agents.map fun ag => (s.readReg ag (.k k)).val.getLsbD 0).any (fun b => b) = true := by
    obtain ⟨ag, hag, hflag⟩ := htaken
    exact List.any_eq_true.2 ⟨_, List.mem_map_of_mem hag, hflag⟩
  have hall := State.braidBranch_executes h (fun fs => fs.any fun b => b) o n
  have hbranch := State.braidBranch_ready h (fun fs => fs.any fun b => b) o n
  rw [exec_brany, Host.Outcome.next.injEq, hbranch] at hexec
  rw [hbranch] at hall
  simp only [hany, State.fileTaken, if_true, List.foldl_map] at hexec hall
  rw [← hexec, ← relTarget_eq]
  have hpc := (hall.each _ hmem).pc
  rw [acrossPc, if_pos rfl] at hpc
  rw [← hpc]
  exact State.Filed.foldl_fileAgent _ (hall.fileable ⟨(h.2 _ hmem).present, hlive⟩) (.inr hmem)

/-- What SLEEP does in a thread. -/
def sleepPart (n : BitVec 3) (bid tid : Nat) (s : State) (vs : List VReg) : State :=
  let t := bitsOf (valAt vs 0).toNat 0 20
  let due := s.saveDue (.thread bid tid)
  let s := s.advance (.thread bid tid) n
  if t = 0 ∨ due = true then s.file bid tid else s.stopThread bid tid (.sleeping (s.issue.now + t))

theorem bitsOf_low (x : Word) (k : Nat) : bitsOf x.toNat 0 k = (x.extractLsb' 0 k).toNat := by
  simp [bitsOf]

theorem exec_sleep {s : State} {bid tid : Nat} {a : BitVec 6} {n : BitVec 3} (ha : s.issue.agents = [.thread bid tid])
    (h : s.Ready .thread [vSrc a 0 .int32] [] (.thread bid tid)) :
    exec (.sleep a n) s = .next (sleepPart n bid tid (s.collect 1) (s.sources (.thread bid tid) [vSrc a 0 .int32])) := by
  refine congrArg Host.Outcome.next ?_
  exact State.runGroup_alone (o := { n := n, srcs := [vSrc a 0 aI], who := .thread }) ha h rfl rfl fun hp => absurd hp Bool.false_ne_true

theorem State.advance_executes (s : State) {ag : Agent} (hp : s.present ag) (n : BitVec 3) (lat : Nat) :
    Executes s (s.advance ag n) ag n lat [] ((s.ctx ag).pc + 4) := s.goto_executes hp n lat _

/-- A ready thread alone in its step goes on at the next word. -/
theorem State.collect_advance_executed {s : State} {ag : Agent} (ha : s.issue.agents = [ag]) (hp : s.present ag) (need : Nat) (n : BitVec 3)
    (lat : Nat) : AllExecuted s ((s.collect need).advance ag n) n lat (fun _ => []) fun _ => (s.ctx ag).pc + 4 := by
  have := (s.collect need).advance_executes ((s.collect_present need ag).2 hp) n lat
  rw [s.collect_ctx] at this
  exact this.alone ha

/-- Settles O16: what is filed after each instruction, by Filed.foldl_fileAgent. -/
theorem branchTakenFiles : Obligations.BranchTakenFiles := by
  intro s t k n o a live
  refine ⟨fun bid x y hlive h hexec hags hthere hx hy hbraid hpc => ?_, fun h htaken hexec bid tid => brany_files h htaken hexec,
    fun bid tid hlive ha h => ?_, fun bid tid hlive ha h hzero => ?_⟩
  · have hms : (s.core s.issue.core).braidOf bid x ≠ [] := by
      obtain ⟨z, he, -, hz⟩ := hags _ hx
      cases he
      exact List.ne_nil_of_mem hz
    refine braT_parted hlive h hexec (fun ag hag => ?_) hms hthere hx hy hpc
    obtain ⟨z, he, -, -⟩ := hags ag hag
    exact ⟨z, he, hbraid ag hag z he⟩
  · refine ⟨_, ?_, (State.collect_advance_executed ha h.present 0 n 0).files_alone ha ⟨h.present, hlive⟩⟩
    refine congrArg Host.Outcome.next ?_
    exact State.runGroup_alone (o := { n := n, who := .thread }) ha h rfl rfl fun hp => absurd hp Bool.false_ne_true
  · refine ⟨_, ?_, (State.collect_advance_executed ha h.present 1 n 0).files_alone ha ⟨h.present, hlive⟩⟩
    rw [exec_sleep ha h, sleepPart, valAt_source, bitsOf_low]
    exact congrArg _ (if_pos (.inl (congrArg BitVec.toNat hzero)))

end Sys2Proof.Machine
end

section
/-! ELECT and VOTE (R152): every ready thread of the group writes what the whole group makes of its flags. -/

namespace Sys2Proof.Machine

/-! ### Acting on what the group holds -/

/-- Every agent that passes the checks retires one write, made of what all of them hold. -/
def State.gatherRetire (s : State) (o : Op) (w : List (Agent × List VReg) → Agent → Write) : State :=
  (s.gather o).2.foldl (fun u m => u.retire m.1 o.n latM [w (s.gather o).2 m.1]) (s.gather o).1

theorem State.gatherRetire_executes {s : State} {o : Op} {w : List (Agent × List VReg) → Agent → Write} {v : Agent → Write}
    (h : s.AllReady o.who o.srcs o.dsts) (hw : ∀ ag, w (s.issue.agents.map fun x => (x, s.sources x o.srcs)) ag = v ag)
    (hfits : ∀ ag ∈ s.issue.agents, (v ag).fits ag) (hbad : o.bad = none := by rfl) (hpriv : o.priv = false := by rfl) :
    AllExecuted s (s.gatherRetire o w) o.n 4 (fun ag => [v ag]) fun ag => (s.ctx ag).pc + 4 := by
  rw [State.gatherRetire, State.gather_ready h hbad hpriv, List.foldl_map]
  refine State.foldl_executes h.1 (fun ag hag => (h.2 ag hag).present) fun u ag hag _ hsa hp => ?_
  rw [hw, ← hsa.1]
  exact u.retire_executes hp o.n latM (List.forall_mem_singleton.2 (hfits ag hag))

/-! ### What the group makes of its flags -/

theorem flagsOf_sources (s : State) (a : BitVec 3) :
    flagsOf (s.issue.agents.map fun x => (x, s.sources x [kSrc a])) = s.issue.agents.map fun x => (s.readReg x (.k a)).val.getLsbD 0 := by
  rw [flagsOf, List.map_map]
  rfl

theorem elected_eq (s : State) (srcs : List Src) (ag : Agent) :
    elected (s.issue.agents.map fun x => (x, s.sources x srcs)) ag = decide (∀ x ∈ s.issue.agents, threadIdOf ag ≤ threadIdOf x) := by
  rw [Bool.eq_iff_iff, elected]
  simp

/-- Bit i of a ballot: some member at position i has the flag. -/
theorem ballot_getLsbD (ms : List (Nat × Bool)) {i : Nat} (hi : i < 32) :
    (ballot ms).getLsbD i = ms.any fun m => decide (m.1 = i) && m.2 := by
  have hfold : ∀ w : Word, (ms.foldl (fun w m => if m.2 then w ||| BitVec.ofNat 32 (2 ^ m.1) else w) w).getLsbD i =
      (w.getLsbD i || ms.any fun m => decide (m.1 = i) && m.2) := by
    induction ms with
    | nil => simp
    | cons m ms ih =>
      intro w
      rw [List.foldl_cons, ih, List.any_cons]
      have hbit : (BitVec.ofNat 32 (2 ^ m.1)).getLsbD i = decide (m.1 = i) := by
        rw [BitVec.getLsbD_ofNat, Nat.testBit_two_pow, decide_eq_true hi, Bool.true_and]
      cases m.2
      · simp
      · rw [if_pos rfl, BitVec.getLsbD_or, hbit, Bool.and_true, Bool.or_assoc]
  rw [ballot, hfold]
  simp

theorem ballot_eq_ofFnLE (s : State) (a : BitVec 3) :
    ballot ((s.issue.agents.map fun x => (x, s.sources x [kSrc a])).map fun m => (s.positionOf m.1, (valAt m.2 0).getLsbD 0)) =
      BitVec.ofFnLE fun p : Fin 32 => s.issue.agents.any fun ag =>
        decide (s.positionOf ag = p.val) && (s.readReg ag (.k a)).val.getLsbD 0 := by
  apply BitVec.eq_of_getLsbD_eq
  intro i hi
  rw [ballot_getLsbD _ hi, BitVec.getLsbD_eq_getElem hi, BitVec.getElem_ofFnLE, List.any_map, List.any_map]
  rfl

/-! ### The instructions -/

theorem elect_completes {s : State} {kd n : BitVec 3} (h : s.AllReady .thread [] [.k kd]) :
    ∃ t, exec (.elect kd n) s = .next t ∧
      AllExecuted s t n 4 (fun ag => [wK kd (decide (∀ x ∈ s.issue.agents, threadIdOf ag ≤ threadIdOf x))]) fun ag => (s.ctx ag).pc + 4 :=
  ⟨s.gatherRetire { n := n, dsts := [.k kd], who := .thread } fun ms ag => wK kd (elected ms ag), rfl,
    State.gatherRetire_executes h (fun ag => by rw [elected_eq]) fun _ hag => wK_fits _ _ (Who.thread_allows h hag)⟩

/-- A vote whose destination takes `f` of the flags of the group. -/
theorem State.vote_completes {s : State} {dst : Reg} {f : List (Agent × List VReg) → Write} {a n : BitVec 3} {v : Write}
    (h : s.AllReady .thread [kSrc a] [dst]) (hf : f (s.issue.agents.map fun x => (x, s.sources x [kSrc a])) = v)
    (hfits : ∀ ag, Who.thread.allows ag = true → v.fits ag) :
    AllExecuted s (s.vote dst f a n) n 4 (fun _ => [v]) fun ag => (s.ctx ag).pc + 4 :=
  State.gatherRetire_executes (o := { n := n, srcs := [kSrc a], dsts := [dst], who := .thread }) (w := fun ms _ => f ms) h (fun _ => hf)
    fun ag hag => hfits ag (Who.thread_allows h hag)

theorem voteAny_completes {s : State} {kd ka n : BitVec 3} (h : s.AllReady .thread [kSrc ka] [.k kd]) :
    AllExecuted s (s.vote (.k kd) (fun ms => wK kd ((flagsOf ms).any fun b => b)) ka n) n 4
      (fun _ => [wK kd (s.issue.agents.any fun ag => (s.readReg ag (.k ka)).val.getLsbD 0)]) fun ag => (s.ctx ag).pc + 4 :=
  State.vote_completes h (by rw [flagsOf_sources, List.any_map]; rfl) fun _ => wK_fits kd _

theorem voteAll_completes {s : State} {kd ka n : BitVec 3} (h : s.AllReady .thread [kSrc ka] [.k kd]) :
    AllExecuted s (s.vote (.k kd) (fun ms => wK kd ((flagsOf ms).all fun b => b)) ka n) n 4
      (fun _ => [wK kd (s.issue.agents.all fun ag => (s.readReg ag (.k ka)).val.getLsbD 0)]) fun ag => (s.ctx ag).pc + 4 :=
  State.vote_completes h (by rw [flagsOf_sources, List.all_map]; rfl) fun _ => wK_fits kd _

theorem voteBallot_completes {s : State} {ka n : BitVec 3} {d : BitVec 6} (h : s.AllReady .thread [kSrc ka] [.v d]) :
    ∃ t, exec (.voteBallot d ka n) s = .next t ∧ AllExecuted s t n 4
      (fun _ => [wV d (BitVec.ofFnLE fun p : Fin 32 => s.issue.agents.any fun ag =>
        decide (s.positionOf ag = p.val) && (s.readReg ag (.k ka)).val.getLsbD 0) .n32]) fun ag => (s.ctx ag).pc + 4 :=
  ⟨_, rfl, State.vote_completes h (by rw [ballot_eq_ofFnLE]) fun _ => wV_fits d _ _⟩

end Sys2Proof.Machine
end

section
/-! The completion of a unit (R153, R180, R189, R375): a block that nothing holds back leaves its core, and its unit is counted. -/

namespace Sys2Proof.Machine

/-! ### Changes of one block -/

theorem State.updBlock_updBlock (s : State) (bid : Nat) {f g : Block → Block} (hf : ∀ b, (f b).bid = b.bid) :
    (s.updBlock bid f).updBlock bid g = s.updBlock bid fun b => g (f b) := by
  simp only [State.updBlock, List.map_map]
  congr 2
  funext b
  by_cases hb : b.bid = bid <;> simp [hb, hf]

theorem State.updBlock_id (s : State) (bid : Nat) : (s.updBlock bid fun b => b) = s := by
  simp [State.updBlock]

theorem State.foldl_updBlock {α : Type} (bid : Nat) (f : α → Block → Block) (hf : ∀ a b, (f a b).bid = b.bid) (l : List α) (s : State) :
    l.foldl (fun s a => s.updBlock bid (f a)) s = s.updBlock bid fun b => l.foldl (fun b a => f a b) b := by
  induction l generalizing s with
  | nil => exact (s.updBlock_id bid).symm
  | cons a l ih => rw [List.foldl_cons, ih, State.updBlock_updBlock s bid (hf a)]; rfl

/-! ### A block that nothing holds back -/

/-- No bobbin of the block is left, no region of it is valid or has lines, and nothing of it is lost. -/
structure State.Bare (s : State) (b : Block) : Prop where
  bobbins : ∀ p ∈ (s.core b.core).bobbins.toList, p.status = .free
  regions : ∀ g ∈ b.regions.toList, g.valid = false ∧ g.lines = [] ∧ g.lost = false

theorem State.Bare.bobbinsOf {s : State} {b : Block} (h : s.Bare b) : s.bobbinsOf b = [] := by
  refine List.filter_eq_nil_iff.2 fun p hp => ?_
  rw [h.bobbins p.2 (List.of_mem_zip hp).2]
  simp

theorem State.Bare.region {s : State} {b : Block} (h : s.Bare b) {r : Nat} {g : Region} (hg : b.region r = some g) : g.lines = [] :=
  (h.regions g (List.mem_of_getElem? hg)).2.1

theorem State.closure_nil {s : State} (h : s.accs = []) (want : Access → Bool) : s.closure want = [] := by
  simp [State.closure, State.latestFirst, h, sortBy]

theorem State.forceable_nil {s : State} (h : s.accs = []) (want : Access → Bool) : s.forceable want = true := by
  rw [State.forceable, s.closure_nil h]
  rfl

theorem State.force_nil {s : State} (h : s.accs = []) (want : Access → Bool) : s.force want = s := by
  rw [State.force, s.closure_nil h]
  rfl

theorem State.Bare.flushRegions {s : State} {b : Block} (h : s.Bare b) (hb : s.block? b.bid = some b) (ha : s.accs = []) :
    s.flushRegions b = s := by
  unfold State.flushRegions
  rw [s.force_nil ha]
  refine List.foldlRecOn (motive := fun t : State => t = s) _ _ rfl fun t ht r _ => ?_
  subst ht
  unfold State.writeBackAll
  rw [hb]
  dsimp only
  split
  next g hg => rw [h.region hg]; rfl
  · rfl

theorem State.Bare.regionClean {s : State} {b : Block} (h : s.Bare b) (hb : s.block? b.bid = some b) (r : Nat) :
    s.regionClean b.bid r = true := by
  unfold State.regionClean
  rw [hb]
  dsimp only
  split
  next g hg => rw [h.region hg]; rfl
  · rfl

theorem State.Bare.freeUnjoined {s : State} {b : Block} (h : s.Bare b) : s.freeUnjoined b = s := by
  rw [State.freeUnjoined, h.bobbinsOf]
  rfl

/-- A region of a block that has completed. -/
def Region.ended (g : Region) : Region := { g with valid := false, lines := [], lost := false }

def Block.endRegion (b : Block) (r : Nat) : Block := { b with regions := vecUpd b.regions r Region.ended }

/-- A block that has completed: its regions are unmapped, its tiles are free. -/
def Block.ended (b0 b : Block) : Block :=
  { ((List.range 8).zip b0.regions.toList).foldl (fun b p => b.endRegion p.1) b with tiles := [] }

theorem State.Bare.endRegions {s : State} {b : Block} (h : s.Bare b) :
    (s.endRegions b).updBlock b.bid (fun x => { x with tiles := [] }) = s.updBlock b.bid b.ended := by
  have hfold : s.endRegions b = ((List.range 8).zip b.regions.toList).foldl
      (fun s p => s.updBlock b.bid fun x => x.endRegion p.1) s := by
    refine List.foldl_ext _ _ _ fun t p hp => ?_
    simp only [(h.regions p.2 (List.of_mem_zip hp).2).2.2, Bool.false_eq_true, if_false]
    rfl
  rw [hfold, State.foldl_updBlock b.bid (fun (p : Nat × Region) x => x.endRegion p.1) fun _ _ => rfl, State.updBlock_updBlock]
  · rfl
  · intro x
    exact List.foldlRecOn (motive := fun y : Block => y.bid = x.bid) _ _ rfl fun y hy _ _ => hy

/-- Ending a block changes its regions and tiles only, and no region becomes valid. -/
theorem Block.ended_eq (b0 b : Block) : ∃ rs : Vector Region 8, b0.ended b = { b with regions := rs, tiles := [] } ∧
    ((∀ g ∈ b.regions.toList, g.valid = false) → ∀ g ∈ rs.toList, g.valid = false) := by
  have hfold : ∀ l : List (Nat × Region), ∃ rs : Vector Region 8, l.foldl (fun b p => b.endRegion p.1) b = { b with regions := rs } ∧
      ((∀ g ∈ b.regions.toList, g.valid = false) → ∀ g ∈ rs.toList, g.valid = false) := fun l => by
    refine List.foldlRecOn (motive := fun y : Block => ∃ rs : Vector Region 8, y = { b with regions := rs } ∧
      ((∀ g ∈ b.regions.toList, g.valid = false) → ∀ g ∈ rs.toList, g.valid = false)) l _ ⟨b.regions, rfl, id⟩ ?_
    rintro y ⟨rs, rfl, hrs⟩ p -
    refine ⟨vecUpd rs p.1 Region.ended, rfl, fun hvalid g hg => ?_⟩
    obtain ⟨j, hj⟩ := List.mem_iff_getElem?.1 hg
    rw [vecUpd_get] at hj
    split at hj
    · obtain ⟨g', -, rfl⟩ := Option.map_eq_some_iff.1 hj
      rfl
    · exact hrs hvalid g (List.mem_of_getElem? hj)
  obtain ⟨rs, hrs, hvalid⟩ := hfold ((List.range 8).zip b0.regions.toList)
  exact ⟨rs, congrArg (fun y : Block => { y with tiles := [] }) hrs, hvalid⟩

/-- A block of which nothing is left, alone in its unit, completes the unit. -/
theorem State.settleBlock_completes {s : State} {b : Block} (hb : s.block? b.bid = some b) (hlive : b.halted = false)
    (hsave : b.save = none) (hexited : ∀ t ∈ b.threads, t.status = .exited) (h : s.Bare b) (ha : s.accs = [])
    (halone : ∀ x ∈ s.blocks, x.unit = b.unit ∨ x.bid = b.bid → x = b) :
    s.settleBlock b.bid = (s.updBlock b.bid b.ended).unitDone b.unit := by
  have hthreads : (b.threads.all fun t => t.status == .exited) = true :=
    List.all_eq_true.2 fun t ht => beq_iff_eq.2 (hexited t ht)
  have hdone : s.blockDone b = true := by rw [State.blockDone, hthreads, h.bobbinsOf]; rfl
  have hclean : ((List.range 8).all fun r => s.regionClean b.bid r) = true :=
    List.all_eq_true.2 fun r _ => h.regionClean hb r
  have hall : (((s.updBlock b.bid b.ended).blocks.filter fun x => x.unit == b.unit).all fun x =>
      ((s.updBlock b.bid b.ended).closure ((s.updBlock b.bid b.ended).inWindow x)).isEmpty && (s.updBlock b.bid b.ended).blockDone x &&
        x.regions.toList.all fun g => !g.valid) = true := by
    refine List.all_eq_true.2 fun x hx => ?_
    obtain ⟨hx, hunit⟩ := List.mem_filter.1 hx
    obtain ⟨y, hy, rfl⟩ := List.mem_map.1 hx
    obtain ⟨rs, hended, hvalid⟩ := b.ended_eq b
    have hyb : y = b := by
      refine halone y hy ?_
      by_cases hid : y.bid = b.bid
      · exact .inr hid
      · rw [if_neg hid] at hunit
        exact .inl (beq_iff_eq.1 hunit)
    subst hyb
    rw [if_pos rfl, hended, State.closure_nil (by exact ha)]
    have hbobbins : (s.updBlock y.bid y.ended).bobbinsOf { y with regions := rs, tiles := [] } = [] := h.bobbinsOf
    simp only [State.blockDone, hthreads, hbobbins, List.isEmpty_nil, List.all_nil, Bool.and_self, Bool.true_and]
    exact List.all_eq_true.2 fun g hg => by rw [hvalid (fun g hg => (h.regions g hg).1) g hg]; rfl
  unfold State.settleBlock
  rw [hb]
  simp only [hlive, hdone, hsave, State.forceable_nil ha, Option.isSome_none, Bool.not_true, Bool.or_self, Bool.false_eq_true, if_false,
    h.flushRegions hb ha, hclean, hb, h.freeUnjoined, h.endRegions, hall, if_true]

/-! ### The unit leaves its cores -/

theorem State.leaveCore_rest (s : State) (b : Block) : { s.leaveCore b with cores := s.cores, blocks := s.blocks } = s := rfl

/-- Blocks that leave their cores are no longer resident; memory, grids and the street index stay. -/
theorem State.foldl_leaveCore (l : List Block) (s : State) :
    { l.foldl State.leaveCore s with cores := s.cores, blocks := s.blocks } = s ∧
      ∀ x ∈ (l.foldl State.leaveCore s).blocks, x ∈ s.blocks ∧ ∀ b ∈ l, x.bid ≠ b.bid := by
  induction l generalizing s with
  | nil => exact ⟨rfl, fun x hx => ⟨hx, by simp⟩⟩
  | cons b l ih =>
    obtain ⟨hrest, hblocks⟩ := ih (s.leaveCore b)
    refine ⟨congrArg (fun t : State => { t with cores := s.cores, blocks := s.blocks }) hrest, fun x hx => ?_⟩
    obtain ⟨hin, hne⟩ := hblocks x hx
    obtain ⟨hs, hb⟩ := List.mem_filter.1 hin
    exact ⟨hs, List.forall_mem_cons.2 ⟨bne_iff_ne.1 hb, hne⟩⟩

/-- Blocks and grids are as they were. -/
structure KeepsGrids (s t : State) : Prop where
  blocks : t.blocks = s.blocks
  grids : t.grids = s.grids

theorem KeepsGrids.trans {s t u : State} (a : KeepsGrids s t) (b : KeepsGrids t u) : KeepsGrids s u :=
  ⟨b.blocks.trans a.blocks, b.grids.trans a.grids⟩

theorem LinesOnly.keepsGrids {s t : State} (h : LinesOnly s t) : KeepsGrids s t where
  blocks := h.agents.blocks
  grids := by have := congrArg State.grids h.rest; exact this

theorem State.deviceStore_keepsGrids (s : State) (pa : Nat) (bs : List Byte) : KeepsGrids s (s.deviceStore pa bs) := by
  unfold State.deviceStore
  have hlines : LinesOnly s ((List.range ((pa % 128 + bs.length + 127) / 128)).foldl
      (fun (s : State) i => s.cacheStore none (.phys (pa / 128 * 128 + 128 * i))) s) :=
    .foldl (fun u _ => .cacheStore u none _) _ s
  refine hlines.keepsGrids.trans ?_
  generalize List.foldl _ s _ = u
  refine KeepsGrids.trans (t := u.storeRaw pa bs) ?_ ?_
  · unfold State.storeRaw
    dsimp only
    split <;> exact ⟨rfl, rfl⟩
  · unfold State.rdmaWrite
    split <;> exact ⟨rfl, rfl⟩

theorem State.streetStore_keepsGrids (s : State) (slot bits : Nat) : KeepsGrids s (s.streetStore slot bits) := by
  unfold State.streetStore
  split
  · exact s.deviceStore_keepsGrids _ _
  · exact ⟨rfl, rfl⟩

theorem State.streetDrop_keepsGrids (s : State) (unit : Nat) : KeepsGrids s (s.streetDrop unit) := by
  unfold State.streetDrop
  exact List.foldlRecOn (motive := KeepsGrids s) _ _ ⟨rfl, rfl⟩ fun u hu e _ => hu.trans (u.streetStore_keepsGrids _ _)

/-- Where the street index has no table, dropping entries stores nothing. -/
theorem State.foldl_streetStore {s : State} (h : s.platform.streetLog = 0) (l : List StreetEntry) :
    l.foldl (fun (s : State) e => s.streetStore e.slot 0) s = s := by
  have hnone : ∀ slot, s.streetStore slot 0 = s := fun slot => by
    rw [State.streetStore, State.streetThere, h]
    rfl
  exact List.foldlRecOn (motive := fun t : State => t = s) l _ rfl fun t ht e _ => by rw [ht, hnone]

theorem State.streetDrop_mem {s : State} (h : s.platform.streetLog = 0) (unit : Nat) : (s.streetDrop unit).mem = s.mem := by
  unfold State.streetDrop
  refine (congrArg State.mem (State.foldl_streetStore ?_ _)).trans rfl
  exact h

/-- A unit that completes: the block that is there leaves, and its grid counts it. -/
theorem State.unitDone_completes {s : State} {b : Block} (hb : b ∈ s.blocks)
    (hgrid : ∀ x ∈ s.blocks, x.unit = b.unit → x.gridId = b.gridId) :
    (s.unitDone b.unit).block? b.bid = none ∧ (s.platform.streetLog = 0 → (s.unitDone b.unit).mem = s.mem) ∧
      ∀ g ∈ s.grids, ∃ h ∈ (s.unitDone b.unit).grids,
        h.id = g.id ∧ h.completed = g.completed + if g.id = b.gridId then 1 else 0 := by
  unfold State.unitDone
  split
  next hnone =>
    have := List.find?_eq_none.1 hnone b hb
    simp at this
  next x hx =>
    have hxgrid : x.gridId = b.gridId := hgrid x (List.mem_of_find?_eq_some hx) (by simpa using List.find?_some hx)
    obtain ⟨hrest, hblocks⟩ := State.foldl_leaveCore (s.blocks.filter fun x => x.unit == b.unit) s
    dsimp only
    generalize (s.blocks.filter fun x => x.unit == b.unit).foldl State.leaveCore s = u at hrest hblocks
    have hkeeps := u.streetDrop_keepsGrids b.unit
    have hgrids : (u.streetDrop b.unit).grids = s.grids :=
      hkeeps.grids.trans (by have := congrArg State.grids hrest; exact this)
    have hmem : u.mem = s.mem := by have := congrArg State.mem hrest; exact this
    have hplatform : u.platform = s.platform := by have := congrArg State.platform hrest; exact this
    refine ⟨?_, fun hlog => (State.streetDrop_mem (hplatform ▸ hlog) b.unit).trans hmem, fun g hg => ?_⟩
    · refine List.find?_eq_none.2 fun y hy => ?_
      have hne := (hblocks y (hkeeps.blocks ▸ hy)).2 b (List.mem_filter.2 ⟨hb, beq_self_eq_true _⟩)
      exact fun he => hne (beq_iff_eq.1 he)
    · refine ⟨_, List.mem_map_of_mem (hgrids ▸ hg), ?_⟩
      rw [hxgrid]
      split <;> exact ⟨rfl, rfl⟩

/-- The last block of a unit of one block leaves its core, and the unit's grid counts it. -/
theorem State.settleBlock_counts {s : State} {b : Block} (hb : s.block? b.bid = some b) (hlive : b.halted = false)
    (hsave : b.save = none) (hexited : ∀ t ∈ b.threads, t.status = .exited) (h : s.Bare b) (ha : s.accs = [])
    (halone : ∀ x ∈ s.blocks, x.unit = b.unit ∨ x.bid = b.bid → x = b) :
    (s.settleBlock b.bid).block? b.bid = none ∧ (s.platform.streetLog = 0 → (s.settleBlock b.bid).mem = s.mem) ∧
      ∀ g ∈ s.grids, ∃ h ∈ (s.settleBlock b.bid).grids,
        h.id = g.id ∧ h.completed = g.completed + if g.id = b.gridId then 1 else 0 := by
  have hmem : b.ended b ∈ (s.updBlock b.bid b.ended).blocks := List.mem_map.2 ⟨b, List.mem_of_find?_eq_some hb, if_pos rfl⟩
  obtain ⟨rs, hended, -⟩ := b.ended_eq b
  obtain ⟨hunit, hbid, hgrid⟩ : (b.ended b).unit = b.unit ∧ (b.ended b).bid = b.bid ∧ (b.ended b).gridId = b.gridId := by
    rw [hended]; exact ⟨rfl, rfl, rfl⟩
  have hdone := State.unitDone_completes hmem fun x hx hxunit => by
    obtain ⟨y, hy, rfl⟩ := List.mem_map.1 hx
    by_cases hid : y.bid = b.bid
    · rw [if_pos hid, halone y hy (.inr hid)]
    · rw [if_neg hid] at hxunit
      exact absurd (congrArg Block.bid (halone y hy (.inl (hxunit.trans hunit)))) hid
  rw [hunit, hbid, hgrid] at hdone
  rw [State.settleBlock_completes hb hlive hsave hexited h ha halone]
  exact hdone

end Sys2Proof.Machine
end

section
/-! EXIT, SLEEP, SAFE and SLEEP_EXPIRE of a ready thread alone in its step (R153 to R156). -/

namespace Sys2Proof.Machine

/-! ### Stopping a thread (R140, R142) -/

/-- A change of a thread that leaves its context and registers. -/
theorem State.updThread_sameAgent (s : State) (bid tid : Nat) {f : Thread → Thread}
    (h : ∀ t, (f t).ctx = t.ctx ∧ (f t).v = t.v ∧ (f t).k = t.k) (ag : Agent) : SameAgent s (s.updThread bid tid f) ag := by
  by_cases hag : ag = .thread bid tid
  · subst hag
    have hctx := s.ctx_updThread_of_eq bid tid f (fun t => (h t).1) (.thread bid tid)
    refine ⟨hctx, fun r => ?_⟩
    cases r <;> simp only [State.readReg, hctx, State.thread?_updThread, and_self, if_true]
    all_goals cases s.thread? bid tid with
      | none => rfl
      | some t => simp only [Option.map_some, Thread.readV, h t]
  · exact s.updThread_otherAgent bid tid f hag

theorem State.withdraw_rest (s : State) (bid tid : Nat) :
    { s.withdraw bid tid with cores := s.cores } = s ∧ ∀ k, ((s.withdraw bid tid).core k).bobbins = (s.core k).bobbins := by
  unfold State.withdraw
  split
  · refine ⟨rfl, fun k => ?_⟩
    rw [State.core_updCore]
    split <;> rfl
  · exact ⟨rfl, fun _ => rfl⟩

theorem State.withdraw_blocks (s : State) (bid tid : Nat) : (s.withdraw bid tid).blocks = s.blocks := by
  have := congrArg State.blocks (s.withdraw_rest bid tid).1; exact this

theorem State.stopThread_rest (s : State) (bid tid : Nat) (st : TStatus) :
    { s.stopThread bid tid st with cores := s.cores, blocks := s.blocks } = s :=
  congrArg (fun t : State => { t with blocks := s.blocks }) (s.withdraw_rest bid tid).1

theorem State.stopThread_sameAgent (s : State) (bid tid : Nat) (st : TStatus) (ag : Agent) : SameAgent s (s.stopThread bid tid st) ag :=
  (s.withdraw_sameAgent bid tid ag).trans (State.updThread_sameAgent _ bid tid (by intro t; exact ⟨rfl, rfl, rfl⟩) ag)

theorem State.stopThread_status {s : State} {bid tid : Nat} (h : s.present (.thread bid tid)) (st : TStatus) :
    ((s.stopThread bid tid st).thread? bid tid).map (·.status) = some st := by
  obtain ⟨t, ht⟩ := Option.isSome_iff_exists.1 h
  rw [State.stopThread, State.thread?_updThread, if_pos ⟨rfl, rfl⟩, State.thread?_congr (s.withdraw_blocks bid tid), ht]
  rfl

/-! ### EXIT (R153) -/

/-- A thread that has exited. -/
def Thread.exits (t : Thread) : Thread := { t with status := .exited, frame := none }

def Block.exits (tid : Nat) (b : Block) : Block := { b with threads := updAt Thread.exits tid b.threads }

theorem updAt_updAt {α : Type} (f g : α → α) (i : Nat) (xs : List α) : updAt g i (updAt f i xs) = updAt (fun x => g (f x)) i xs := by
  induction xs generalizing i with
  | nil => simp [updAt]
  | cons x xs ih => cases i <;> simp [updAt, ih]

/-- The thread has left braid and bin and has exited. -/
def State.exitThread (s : State) (bid tid : Nat) : State := (s.withdraw bid tid).updBlock bid (Block.exits tid)

theorem State.stopThread_exited (s : State) (bid tid : Nat) :
    (s.stopThread bid tid .exited).updThread bid tid (fun t => { t with frame := none }) = s.exitThread bid tid := by
  rw [State.stopThread, State.updThread, State.updThread, State.updBlock_updBlock, State.exitThread]
  · simp only [updAt_updAt]
    rfl
  · exact fun _ => rfl

theorem State.exitThread_block? {s : State} {bid : Nat} {b : Block} (hb : s.block? bid = some b) (tid : Nat) :
    (s.exitThread bid tid).block? bid = some (b.exits tid) := by
  rw [State.exitThread, State.block?_updBlock _ bid bid (Block.exits tid) fun _ => rfl, if_pos rfl, State.block?_congr (s.withdraw_blocks bid tid), hb]
  rfl

/-- EXIT of a thread without a pending register. -/
theorem exec_exit {s : State} {bid tid : Nat} {n : BitVec 3} (ha : s.issue.agents = [.thread bid tid])
    (h : s.Ready .thread [] [] (.thread bid tid)) (hpend : (s.ctx (.thread bid tid)).pend = []) :
    exec (.exit n) s = .next (((s.collect 0).exitThread bid tid).settleBlock bid) := by
  rw [← State.stopThread_exited]
  refine congrArg Host.Outcome.next ((State.runGroup_alone (o := { n := n, who := .thread }) ha h rfl rfl
    fun hp => absurd hp Bool.false_ne_true).trans (if_neg ?_))
  exact not_not.2 ((congrArg Ctx.pend (s.collect_ctx _ _)).trans hpend)

theorem State.settleBlock_of_not_done {s : State} {bid : Nat} {b : Block} (hb : s.block? bid = some b) (h : s.blockDone b = false) :
    s.settleBlock bid = s := by
  unfold State.settleBlock
  simp only [hb, h, Bool.not_false, Bool.or_true, Bool.true_or, if_true]

theorem State.exitThread_rest (s : State) (bid tid : Nat) : { s.exitThread bid tid with cores := s.cores, blocks := s.blocks } = s :=
  congrArg (fun t : State => { t with blocks := s.blocks }) (s.withdraw_rest bid tid).1

theorem block?_bid {s : State} {bid : Nat} {b : Block} (h : s.block? bid = some b) : b.bid = bid := by
  simpa using List.find?_some h

theorem State.collect_exitThread_same (s : State) (bid tid : Nat) :
    let u := (s.collect 0).exitThread bid tid
    u.mem = s.mem ∧ u.accs = s.accs ∧ u.platform = s.platform ∧ u.grids = s.grids := by
  have hexit := (s.collect 0).exitThread_rest bid tid
  have hcollect := (s.collect_sameBody 0).rest
  exact ⟨(congrArg State.mem hexit :).trans (congrArg State.mem hcollect :), (congrArg State.accs hexit :).trans (congrArg State.accs hcollect :),
    (congrArg State.platform hexit :).trans (congrArg State.platform hcollect :),
    (congrArg State.grids hexit :).trans (congrArg State.grids hcollect :)⟩

theorem State.collect_exitThread_bobbins (s : State) (bid tid k : Nat) :
    (((s.collect 0).exitThread bid tid).core k).bobbins = (s.core k).bobbins := by
  refine (((s.collect 0).withdraw_rest bid tid).2 k).trans ?_
  obtain h | h := s.collect_core 0 k <;> rw [h]
  rfl

/-- Every thread of a block has exited when the last one has. -/
theorem Block.exits_exited {b : Block} {tid : Nat} (h : ∀ j ≠ tid, ∀ u, b.threads[j]? = some u → u.status = .exited) :
    ∀ t ∈ (b.exits tid).threads, t.status = .exited := by
  intro t ht
  obtain ⟨j, hj⟩ := List.mem_iff_getElem?.1 ht
  rw [Block.exits, updAt_get] at hj
  split at hj
  · obtain ⟨t', -, rfl⟩ := Option.map_eq_some_iff.1 hj
    rfl
  next hne => exact h j (Ne.symm hne) t hj

/-- EXIT of a thread whose block goes on. -/
theorem exit_leaves_block {s : State} {bid tid : Nat} {n : BitVec 3} {blk : Block} (ha : s.issue.agents = [.thread bid tid])
    (hb : s.block? bid = some blk) (h : s.Ready .thread [] [] (.thread bid tid)) (hpend : (s.ctx (.thread bid tid)).pend = [])
    (hother : ∃ j u, j ≠ tid ∧ blk.threads[j]? = some u ∧ u.status ≠ .exited) :
    ∃ t, exec (.exit n) s = .next t ∧ (t.thread? bid tid).map (·.status) = some .exited ∧ t.mem = s.mem ∧ t.accs = s.accs := by
  let c := s.collect 0
  have hblock : (c.exitThread bid tid).block? bid = some (blk.exits tid) :=
    State.exitThread_block? ((State.block?_congr (s.collect_blocks 0) bid).trans hb) tid
  have hgoes : (c.exitThread bid tid).blockDone (blk.exits tid) = false := by
    obtain ⟨j, u, hj, hu, hstatus⟩ := hother
    have hget : (blk.exits tid).threads[j]? = some u := by rw [Block.exits, updAt_get, if_neg hj.symm, hu]
    rw [State.blockDone, Bool.and_eq_false_iff]
    refine .inl (List.all_eq_false.2 ⟨u, List.mem_of_getElem? hget, ?_⟩)
    simpa using hstatus
  obtain ⟨hmem, haccs, -, -⟩ := s.collect_exitThread_same bid tid
  refine ⟨c.exitThread bid tid, ?_, ?_, hmem, haccs⟩
  · rw [exec_exit ha h hpend, State.settleBlock_of_not_done hblock hgoes]
  · obtain ⟨x, hx⟩ := Option.isSome_iff_exists.1 h.present
    simp only [State.thread?, hb] at hx
    simp only [State.thread?, hblock, Block.exits, updAt_get, if_true, hx]
    rfl

/-- EXIT of the last thread of a unit of one block of which nothing else is left. -/
theorem exit_completes_unit {s : State} {bid tid : Nat} {n : BitVec 3} {blk : Block} (ha : s.issue.agents = [.thread bid tid])
    (hb : s.block? bid = some blk) (h : s.Ready .thread [] [] (.thread bid tid)) (hpend : (s.ctx (.thread bid tid)).pend = [])
    (hexited : ∀ j ≠ tid, ∀ u, blk.threads[j]? = some u → u.status = .exited) (hlive : blk.halted = false) (hsave : blk.save = none)
    (haccs : s.accs = []) (hbobbins : ∀ p ∈ (s.core blk.core).bobbins.toList, p.status = .free)
    (hregions : ∀ g ∈ blk.regions.toList, g.valid = false ∧ g.lines = [] ∧ g.lost = false)
    (halone : ∀ b ∈ s.blocks, b.unit = blk.unit ∨ b.bid = bid → b = blk) :
    ∃ t, exec (.exit n) s = .next t ∧ t.block? bid = none ∧ (s.platform.streetLog = 0 → t.mem = s.mem) ∧
      ∀ g ∈ s.grids, ∃ h ∈ t.grids, h.id = g.id ∧ h.completed = g.completed + if g.id = blk.gridId then 1 else 0 := by
  obtain rfl := block?_bid hb
  let u := (s.collect 0).exitThread blk.bid tid
  have hblock : u.block? (blk.exits tid).bid = some (blk.exits tid) :=
    State.exitThread_block? ((State.block?_congr (s.collect_blocks 0) blk.bid).trans hb) tid
  have honly : ∀ x ∈ u.blocks, x.unit = (blk.exits tid).unit ∨ x.bid = (blk.exits tid).bid → x = blk.exits tid := fun x hx hkey => by
    obtain ⟨y, hy, rfl⟩ := List.mem_map.1 hx
    have hy : y ∈ s.blocks := by rwa [State.withdraw_blocks, s.collect_blocks] at hy
    obtain rfl : y = blk := halone y hy (by split at hkey <;> exact hkey)
    exact if_pos rfl
  obtain ⟨hmem, haccs', hplatform, hgrids⟩ := s.collect_exitThread_same blk.bid tid
  obtain ⟨hgone, hstored, hcounted⟩ := State.settleBlock_counts hblock hlive hsave (blk.exits_exited hexited)
    ⟨fun p hp => hbobbins p (s.collect_exitThread_bobbins blk.bid tid blk.core ▸ hp), hregions⟩ (haccs'.trans haccs) honly
  exact ⟨u.settleBlock blk.bid, exec_exit ha h hpend, hgone, fun hlog => (hstored (hplatform ▸ hlog)).trans hmem,
    fun g hg => hcounted g (hgrids ▸ hg)⟩

end Sys2Proof.Machine
end

section
/-! SLEEP, SAFE and SLEEP_EXPIRE (R153, R155, R156), and the statement. -/

namespace Sys2Proof.Machine

/-! ### SLEEP (R153) -/

theorem State.saveDue_eq {s : State} {bid tid : Nat} {b : Block} (hb : s.block? bid = some b) : s.saveDue (.thread bid tid) = b.save.isSome := by
  simp only [State.saveDue, State.blockOf, hb]

theorem State.collect_block? (s : State) (need bid : Nat) : (s.collect need).block? bid = s.block? bid :=
  State.block?_congr (s.collect_blocks need) bid

/-- SLEEP with a count above 0, where no save is requested. -/
theorem sleep_sleeps {s : State} {bid tid : Nat} {a : BitVec 6} {n : BitVec 3} {blk : Block} (ha : s.issue.agents = [.thread bid tid])
    (hb : s.block? bid = some blk) (h : s.Ready .thread [vSrc a 0 .int32] [] (.thread bid tid)) (hsave : blk.save = none)
    (hcount : (s.readReg (.thread bid tid) (.v a)).val.extractLsb' 0 20 ≠ 0) :
    ∃ t, exec (.sleep a n) s = .next t ∧ (t.ctx (.thread bid tid)).pc = (s.ctx (.thread bid tid)).pc + 4 ∧ t.issue.now = s.issue.cycle ∧
      (t.thread? bid tid).map (·.status) =
        some (.sleeping (t.issue.now + ((s.readReg (.thread bid tid) (.v a)).val.extractLsb' 0 20).toNat)) ∧
      (∀ r, t.readReg (.thread bid tid) r = s.readReg (.thread bid tid) r) ∧ t.mem = s.mem ∧ t.accs = s.accs := by
  let count := ((s.readReg (.thread bid tid) (.v a)).val.extractLsb' 0 20).toNat
  let u := (s.collect 1).advance (.thread bid tid) n
  have hall : AllExecuted s u n 0 (fun _ => []) fun _ => (s.ctx (.thread bid tid)).pc + 4 :=
    State.collect_advance_executed ha h.present 1 n 0
  have hexec := hall.each (.thread bid tid) (ha ▸ List.mem_singleton_self _)
  have hsame : SameBody s u := hall.only.1
  have hrest := u.stopThread_rest bid tid (.sleeping (u.issue.now + count))
  have hagent := u.stopThread_sameAgent bid tid (.sleeping (u.issue.now + count)) (.thread bid tid)
  have hissue : (u.stopThread bid tid (.sleeping (u.issue.now + count))).issue = u.issue := (congrArg State.issue hrest :)
  refine ⟨u.stopThread bid tid (.sleeping (u.issue.now + count)), ?_, ?_, ?_, ?_, fun r => ?_, ?_, ?_⟩
  · have hstays : ¬(count = 0 ∨ (s.collect 1).saveDue (.thread bid tid) = true) := by
      rw [State.saveDue_eq ((s.collect_block? 1 bid).trans hb), hsave]
      rintro (h0 | h0)
      · exact hcount (BitVec.eq_of_toNat_eq h0)
      · cases h0
    rw [exec_sleep ha h, sleepPart, valAt_source, bitsOf_low]
    exact congrArg _ (if_neg hstays)
  · rw [hagent.1, hexec.pc]
  · rw [hissue, hall.now]
  · rw [State.stopThread_status ((hsame.present _).2 h.present), hissue]
  · rw [hagent.2, hexec.registers]
    rfl
  · exact (congrArg State.mem hrest :).trans hsame.mem
  · exact (congrArg State.accs hrest :).trans hsame.accs

/-! ### SAFE (R155, R156) -/

/-- What SAFE does in a thread of a block. -/
def safePart (i : BitVec 18) (n : BitVec 3) (bid tid : Nat) (s : State) (b : Block) : State :=
  if b.save.isNone then s.advance (.thread bid tid) n
  else match s.admitted (.thread bid tid) .read (b.regs.lmtBase + BitVec.ofNat 64 (16 * i.toNat)) 16 with
    | (none, s) => s
    | (some (loc, _, _), s) =>
      if s.requestHeld b.core loc 16 then s
      else if s.locPoisoned loc 16 then s.payloadError b.regs.ctxid
      else (s.relaxedBytes (.thread bid tid) loc 16).2.stopSafe bid tid (i.zeroExtend 32)
        (some (leNat (s.relaxedBytes (.thread bid tid) loc 16).1))

theorem safeFixed_eq {s : State} {bid tid : Nat} {b : Block} (hb : s.block? bid = some b) (i : BitVec 18) :
    safeFixed i (s.collect 0) (.thread bid tid) = decide (i.toNat ≥ b.regs.lmtCount.toNat) := by
  simp only [safeFixed, State.blockOf, (s.collect_block? 0 bid).trans hb]

theorem exec_safe {s : State} {bid tid : Nat} {i : BitVec 18} {n : BitVec 3} {blk : Block} (ha : s.issue.agents = [.thread bid tid])
    (hb : s.block? bid = some blk) (h : s.Ready .thread [] [] (.thread bid tid)) (hi : i.toNat < blk.regs.lmtCount.toNat) :
    exec (.safe i n) s = .next (safePart i n bid tid (s.collect 0) blk) := by
  have hfx : safeFixed i (s.collect 0) (.thread bid tid) = false := by
    rw [safeFixed_eq hb, decide_eq_false_iff_not]
    exact Nat.not_le.2 hi
  have hblock : (s.collect 0).blockOf (.thread bid tid) = some blk := (s.collect_block? 0 bid).trans hb
  refine congrArg Host.Outcome.next ((State.runGroup_alone (o := { n := n, who := .thread }) ha h rfl hfx
    fun hp => absurd hp Bool.false_ne_true).trans ?_)
  dsimp only
  rw [show ({ n := n, who := .thread } : Op).grants = 0 from rfl, hblock]
  rfl

/-- An agent stands where it stood. -/
def Stays (s t : State) (ag : Agent) : Prop := t.present ag ∧ (t.ctx ag).pc = (s.ctx ag).pc

theorem KeepsAgents.stays {s t : State} (h : KeepsAgents s t) {ag : Agent} (hp : s.present ag) : Stays s t ag :=
  ⟨(h.present ag).2 hp, congrArg Ctx.pc (h.ctx ag)⟩

theorem KeepsAgents.showBlock (s : State) (a : Access) : KeepsAgents s (s.showBlock a) := by
  obtain ⟨hb, hk, hi⟩ : KeepsAgents s (s.settleSeen (s.beforeShow a) a.loc a.width) := .foldl .performSeen _ s
  exact ⟨hb, hk, hi⟩

theorem KeepsAgents.showFor (s : State) (bid : Nat) (l : Loc) (n : Nat) : KeepsAgents s (s.showFor bid l n) := by
  unfold State.showFor
  refine .foldl (fun u a => ?_) _ s
  have hchoose : KeepsAgents u (u.choose 2).2 := ⟨rfl, fun _ => rfl, rfl⟩
  dsimp only
  split
  · split
    · exact hchoose.trans (.showBlock _ a)
    · exact hchoose
  · exact .refl u

theorem KeepsAgents.hostBytes (s : State) (latest : Bool) (since : Nat) (view : List (Nat × Nat)) (l : Loc) (n : Nat) :
    KeepsAgents s (s.hostBytes latest since view l n).2.2 := by
  have hpick : ∀ {α : Type} (d : α) (xs : List α), KeepsAgents s (s.pick d xs).2 := fun d xs => by
    fun_cases State.pick s d xs
    case case1 | case2 => exact .refl s
    case case3 => exact ⟨rfl, fun _ => rfl, rfl⟩
  have hread : ∀ u : State, KeepsAgents u (u.rdmaRead l n) := fun u => by
    unfold State.rdmaRead
    split <;> exact ⟨rfl, fun _ => rfl, rfl⟩
  exact (hpick _ _).trans (hread _)

/-- A load of a host window for one agent (R274). -/
theorem State.hostLoad_alone (s : State) (ag : Agent) (latest : Bool) (l : Loc) (n : Nat) :
    let r := s.hostBytes latest (s.sinceOf ag) (s.ctx ag).hostSeen l n
    s.hostLoad [ag] latest l n =
      (r.1, r.2.2.updCtx (fun c => { c with hostSeen := seeHost c.hostSeen (s.locKeys l n) r.2.1 }) ag) := by
  have hsince : ([ag].map s.sinceOf).foldl max 0 = s.sinceOf ag := Nat.zero_max _
  have hseen : ([ag].flatMap fun ag => (s.ctx ag).hostSeen) = (s.ctx ag).hostSeen := List.flatMap_singleton _ _
  unfold State.hostLoad
  simp only [hsince, hseen]
  rfl

/-- A relaxed read of an agent leaves it where it is. -/
theorem State.relaxedBytes_stays {s : State} {ag : Agent} (hp : s.present ag) (l : Loc) (n : Nat) :
    Stays s (s.relaxedBytes ag l n).2 ag := by
  unfold State.relaxedBytes
  split
  · rw [State.hostLoad_alone]
    obtain ⟨hpresent, hpc⟩ := (KeepsAgents.hostBytes s (s.ctx ag).hostLatest (s.sinceOf ag) (s.ctx ag).hostSeen l n).stays hp
    refine ⟨(State.present_updCtx _ _ ag ag).2 hpresent, ?_⟩
    rw [State.ctx_updCtx_self _ _ hpresent]
    exact hpc
  · exact (KeepsAgents.showFor s (s.bidOf ag) l n).stays hp

/-- SAFE with a save requested reads its entry and stops there. -/
theorem safe_stops {s u : State} {bid tid : Nat} {i : BitVec 18} {n : BitVec 3} {blk : Block} {loc : Loc} {home : Home} {e : TlbEntry}
    (ha : s.issue.agents = [.thread bid tid]) (hb : s.block? bid = some blk) (h : s.Ready .thread [] [] (.thread bid tid))
    (hsave : blk.save ≠ none) (hi : i.toNat < blk.regs.lmtCount.toNat)
    (hadmit : (s.collect 0).admitted (.thread bid tid) .read (blk.regs.lmtBase + BitVec.ofNat 64 (16 * i.toNat)) 16 =
      (some (loc, home, e), u)) (hheld : u.requestHeld blk.core loc 16 = false) (hpoison : u.locPoisoned loc 16 = false) :
    let r := u.relaxedBytes (.thread bid tid) loc 16
    ∃ t, exec (.safe i n) s = .next t ∧ t.mem = r.2.mem ∧ (t.ctx (.thread bid tid)).pc = (s.ctx (.thread bid tid)).pc ∧
      (t.thread? bid tid).map (·.status) = some (.stopped (i.zeroExtend 32) (some (leNat r.1))) := by
  intro r
  have hkeeps : KeepsAgents (s.collect 0) u := .of_admitted hadmit
  have hu : Stays (s.collect 0) u (.thread bid tid) := hkeeps.stays ((s.collect_present 0 _).2 h.present)
  have hr : Stays u r.2 (.thread bid tid) := State.relaxedBytes_stays hu.1 loc 16
  refine ⟨r.2.stopThread bid tid (.stopped (i.zeroExtend 32) (some (leNat r.1))), ?_, ?_, ?_, State.stopThread_status hr.1 _⟩
  · have hnot : blk.save.isNone = false := by rwa [Option.isNone_eq_false_iff, Option.isSome_iff_ne_none]
    rw [exec_safe ha hb h hi, safePart]
    simp only [hnot, Bool.false_eq_true, if_false, hadmit, hheld, hpoison]
    rfl
  · exact (congrArg State.mem (r.2.stopThread_rest bid tid (.stopped (i.zeroExtend 32) (some (leNat r.1)))) :)
  · calc _ = (r.2.ctx (.thread bid tid)).pc := congrArg Ctx.pc (r.2.stopThread_sameAgent bid tid _ _).1
      _ = (u.ctx (.thread bid tid)).pc := hr.2
      _ = ((s.collect 0).ctx (.thread bid tid)).pc := hu.2
      _ = (s.ctx (.thread bid tid)).pc := congrArg Ctx.pc (s.collect_ctx 0 _)

/-- The reason 7 that fixed state gives the agent that is alone in its step is as good as one that its word gives. -/
theorem State.runGroup_fixed {s : State} {ag : Agent} {o : Op} {fx : State → Agent → Bool} {body : State → Agent → List VReg → State}
    (ha : s.issue.agents = [ag]) (hbad : o.bad = none) (hwho : o.who.allows ag = true) (hfx : fx (s.collect o.grants) ag = true) :
    s.runGroup o fx body = s.runGroup { o with bad := some 7 } noFixed body := by
  have hgrants : ({ o with bad := some 7 } : Op).grants = o.grants := rfl
  have hreason : o.reason ag true = some 7 := by simp [Op.reason, hbad, hwho]
  have hreason' : ({ o with bad := some 7 } : Op).reason ag false = some 7 := by simp [Op.reason, hwho]
  simp only [State.runGroup, State.runGroupWith, hgrants, State.collect_agents, ha, List.foldl_cons, List.foldl_nil, State.runAgent,
    State.prepare, hfx, noFixed, hreason, hreason']

/-! ### SLEEP_EXPIRE (R153) -/

theorem SameStore.accs {s t : State} (h : SameStore s t) : t.accs = s.accs := (congrArg State.accs h.rest :)

theorem sleepExpire_wakes {s : State} {bid tid w : Nat} {blk : Block} {u : Thread} (hb : s.block? bid = some blk)
    (hlive : blk.halted = false) (hu : s.thread? bid tid = some u) (hstatus : u.status = .sleeping w)
    (hdue : w ≤ (s.dom (blk.core / 512)).cycles) :
    ∃ t, exec (.sleepExpire bid tid) s = .next t ∧ (t.thread? bid tid).map (·.status) = some .runnable ∧
      t.Filed bid tid u.ctx.pc ∧ (∀ x, SameAgent s t x) ∧ t.mem = s.mem ∧ t.accs = s.accs := by
  let v := s.updThread bid tid fun t => { t with status := .runnable }
  have hcycles : s.cyclesOf (.thread bid tid) = (s.dom (blk.core / 512)).cycles := by
    simp only [State.cyclesOf, State.coreOf, hb]
    rfl
  have hv : v.thread? bid tid = some { u with status := .runnable } := by
    rw [State.thread?_updThread, if_pos ⟨rfl, rfl⟩, hu]
    rfl
  have hvb : v.block? bid = some { blk with threads := updAt (fun t => { t with status := .runnable }) tid blk.threads } := by
    rw [State.block?_updThread, if_pos rfl, hb]
    rfl
  have hfileable : v.Fileable bid tid := ⟨by rw [hv]; rfl, fun b hvb' => by rw [hvb] at hvb'; cases hvb'; exact hlive⟩
  have hstore := v.file_sameStore bid tid
  refine ⟨s.wake bid tid, ?_, ?_, ?_, fun x => ?_, hstore.mem, hstore.accs⟩
  · refine congrArg Host.Outcome.next ?_
    simp only [hu, hstatus, hcycles, if_pos hdue]
  · rw [State.wake, State.thread?_congr (v.file_blocks bid tid), hv]
    rfl
  · have hpc : (v.ctx (.thread bid tid)).pc = u.ctx.pc := by simp only [State.ctx, hv]
    exact hpc ▸ hfileable.filed
  · exact (s.updThread_sameAgent bid tid (by intro t; exact ⟨rfl, rfl, rfl⟩) x).trans (v.file_sameAgent bid tid x)

/-! ### The statement -/

theorem AllExecuted.gives {s t : State} {i : Instr} {n : BitVec 3} {lat : Nat} {ws : Agent → List Write} {pc : Agent → DWord}
    (hexec : exec i s = .next t) (h : AllExecuted s t n lat ws pc) :
    ∃ t, exec i s = .next t ∧ OnlyAgents s t ∧ t.issue.now = s.issue.cycle ∧
      ∀ ag ∈ s.issue.agents, Executed s t ag n lat (ws ag) (pc ag) := ⟨t, hexec, h.only, h.now, h.each⟩

/-- Settles O17: the votes of a group, and a thread alone in its step that exits, sleeps, stops at a safe point or wakes. -/
theorem votesAndThreadLife : Obligations.VotesAndThreadLife := by
  constructor
  · intro s kd ka n d flag gives
    refine ⟨fun h => ?_, fun h => ⟨(voteAny_completes h).gives rfl, (voteAll_completes h).gives rfl⟩, fun h => ?_⟩
    · obtain ⟨t, hexec, hall⟩ := elect_completes h
      exact hall.gives hexec
    · obtain ⟨t, hexec, hall⟩ := voteBallot_completes h
      exact hall.gives hexec
  · intro s bid tid n a idx blk ag ha hb
    refine ⟨exit_leaves_block ha hb, exit_completes_unit ha hb, sleep_sleeps ha hb, fun h hsave hi => ?_,
      fun u loc home e h hsave hi hadmit hheld hpoison _ => safe_stops ha hb h hsave hi hadmit hheld hpoison, fun h ht hi => ?_,
      fun u w => sleepExpire_wakes hb⟩
    · have hall := State.collect_advance_executed ha h.present 0 n 0
      refine ⟨_, ?_, hall.only, hall.each ag (ha ▸ List.mem_singleton_self _)⟩
      rw [exec_safe ha hb h hi, safePart, hsave]
      rfl
    · have hfx : safeFixed idx (s.collect 0) ag = true := by rw [safeFixed_eq hb, decide_eq_true hi]
      refine ⟨_, congrArg Host.Outcome.next (State.runGroup_fixed (o := { n := n, who := .thread }) ha rfl rfl hfx), ?_⟩
      exact State.runGroup_illegal ha ht rfl

end Sys2Proof.Machine
end

section
/-! Drawing a bin (R89, R143, R144): the frame rules at a draw, and a state in which a draw changes a braid that the pipe already
holds. -/

namespace Sys2Proof.Machine

/-! ### The frame rules at a draw (R89) -/

theorem State.choose_framesOnly (s : State) (n : Nat) : FramesOnly s (s.choose n).2 where
  body := ⟨rfl, fun _ => rfl, rfl, rfl⟩
  agents ag := SameAgent.refl s ag
  issue := rfl
  nextId := rfl
  threads _ _ x h := ⟨x.frame, h⟩
  coreBody _ := rfl

theorem State.frameAtDraw_framesOnly (s : State) (core : Nat) (ms : List (Nat × Nat)) : FramesOnly s (s.frameAtDraw core ms) := by
  have halloc := s.allocFrame_framesOnly core
  unfold State.frameAtDraw
  split
  · split
    next g s1 heq =>
      rw [heq] at halloc
      have hchoose := halloc.trans (s1.choose_framesOnly 2)
      dsimp only
      split
      · exact (hchoose.trans (State.setFrame_framesOnly _ _ _)).trans (State.touchFrame_framesOnly _ _ _)
      · exact hchoose
    next heq =>
      rw [heq] at halloc
      exact halloc
  · exact FramesOnly.refl s

theorem FramesOnly.bins {s t : State} (h : FramesOnly s t) (k : Nat) : (t.core k).bins = (s.core k).bins :=
  (congrArg CoreState.bins (h.body.cores k) :)

theorem State.setFrame_cores (s : State) (f : Option Nat) (ms : List (Nat × Nat)) : (s.setFrame f ms).cores = s.cores :=
  List.foldlRecOn (motive := fun t : State => t.cores = s.cores) ms _ rfl fun _ ht _ _ => ht

theorem State.setFrame_core (s : State) (f : Option Nat) (ms : List (Nat × Nat)) (k : Nat) : (s.setFrame f ms).core k = s.core k := by
  rw [State.core, State.setFrame_cores, State.core]

theorem State.updCore_pipes (s : State) (k j : Nat) {f : CoreState → CoreState} (hf : ∀ c, (f c).pipes = c.pipes) :
    ((s.updCore k f).core j).pipes = (s.core j).pipes := by
  rw [State.core_updCore]
  split
  · exact hf _
  · rfl

theorem State.allocFrame_pipes (s : State) (core k : Nat) : ((s.allocFrame core).2.core k).pipes = (s.core k).pipes := by
  have hfree : ((s.freeFrames core).core k).pipes = (s.core k).pipes := s.updCore_pipes core k fun _ => rfl
  unfold State.allocFrame
  dsimp only
  split
  · exact hfree
  · split
    · rw [State.setFrame_core]
      exact hfree
    · exact hfree

/-- Giving a frame at a draw changes no pipe. -/
theorem State.frameAtDraw_pipes (s : State) (core : Nat) (ms : List (Nat × Nat)) (k : Nat) :
    ((s.frameAtDraw core ms).core k).pipes = (s.core k).pipes := by
  have halloc := s.allocFrame_pipes core k
  unfold State.frameAtDraw
  split
  · split
    next g s1 heq =>
      rw [heq] at halloc
      dsimp only
      split
      · rw [State.touchFrame, State.updCore_pipes _ core k (by intro c; rfl), State.setFrame_core]
        exact halloc
      · exact halloc
    next heq =>
      rw [heq] at halloc
      exact halloc
  · rfl

/-- One of these threads is a member of the braid. -/
def Braid.holdsOne (ms : List (Nat × Nat)) (b : Braid) : Bool := ms.any fun m => b.bid == m.1 && b.members.any fun x => x.1 == m.2

/-- Threads that do not all reference one frame put every braid that holds one of them in expanded mode. -/
theorem State.modeAtDraw_pipes {s : State} {core : Nat} {ms : List (Nat × Nat)} (h : s.oneFrame ms = false) :
    ((s.modeAtDraw core ms).core core).pipes = (s.core core).pipes.map fun p =>
      { p with braids := p.braids.map fun b => if b.holdsOne ms then { b with expanded := true } else b } := by
  rw [State.modeAtDraw, h, if_neg Bool.false_ne_true]
  unfold State.expand
  rw [State.core_updCore_self, State.setFrame_core]
  rfl

/-- A thread that is not there references no frame. -/
theorem State.oneFrame_of_no_blocks {s : State} (h : s.blocks = []) (m : Nat × Nat) (ms : List (Nat × Nat)) :
    s.oneFrame (m :: ms) = false := by
  simp [State.oneFrame, State.frameOf, State.thread?, State.block?, h]

/-! ### A draw -/

/-- A pipe draws a bin: the steps of State.drawInto in order. -/
def State.drawBin (s : State) (core pipe i : Nat) (b : Bin) : State :=
  let ms := (braidOfBin b).members.map fun m => (b.bid, m.1)
  let s := s.updCore core fun c =>
    { c with bins := c.bins.eraseIdx i
             pipes := vecUpd c.pipes pipe (fun p => { p with braids := p.braids ++ [braidOfBin b], drawn := s.now core + 1 }) }
  (((s.countEvent core 4 1).frameAtDraw core ms).modeAtDraw core ms).easePressure core

theorem State.drawInto_eq {s : State} {core pipe i : Nat} {b : Bin} (hmay : s.mayDraw core pipe = true)
    (hchoice : s.drawChoice core = some i) (hb : (s.core core).bins[i]? = some b) : s.drawInto core pipe = s.drawBin core pipe i b := by
  unfold State.drawInto
  simp only [hmay, hchoice, hb, Bool.not_true, Bool.false_eq_true, if_false]
  rfl

/-- A core without bins draws nothing. -/
theorem State.drawInto_of_no_bins {s : State} {core : Nat} (h : (s.core core).bins = []) (pipe : Nat) : s.drawInto core pipe = s := by
  have hchoice : s.drawChoice core = none := by simp [State.drawChoice, h]
  unfold State.drawInto
  simp only [hchoice, ite_self]

theorem State.easePressure_core (s : State) (core : Nat) :
    ((s.easePressure core).core core).bins = (s.core core).bins ∧ ((s.easePressure core).core core).pipes = (s.core core).pipes := by
  rw [State.easePressure, State.core_updCore_self]
  split <;> exact ⟨rfl, rfl⟩

theorem State.drawBin_bins (s : State) (core pipe i : Nat) (b : Bin) :
    ((s.drawBin core pipe i b).core core).bins = (s.core core).bins.eraseIdx i := by
  unfold State.drawBin
  dsimp only
  rw [(State.easePressure_core _ core).1]
  have hmode : ∀ (u : State) ms, FramesOnly u (u.modeAtDraw core ms) := fun u ms => by
    unfold State.modeAtDraw
    split
    · exact FramesOnly.refl u
    · exact u.expand_framesOnly core ms
  rw [(hmode _ _).bins, (State.frameAtDraw_framesOnly _ _ _).bins, State.countEvent, State.core_updCore_self, State.core_updCore_self]

/-- Where no thread of the bin is there, the draw puts every braid that holds one of them in expanded mode. -/
theorem State.drawBin_pipes {s : State} (h : s.blocks = []) (core pipe i : Nat) {b : Bin} {m : Nat × Nat} {ms : List (Nat × Nat)}
    (hms : (braidOfBin b).members.map (fun m => (b.bid, m.1)) = m :: ms) :
    ((s.drawBin core pipe i b).core core).pipes =
      (vecUpd (s.core core).pipes pipe (fun p => { p with braids := p.braids ++ [braidOfBin b], drawn := s.now core + 1 })).map fun p =>
        { p with braids := p.braids.map fun b => if b.holdsOne (m :: ms) then { b with expanded := true } else b } := by
  unfold State.drawBin
  rw [hms]
  dsimp only
  generalize hu : (s.updCore core fun c => { c with
    bins := c.bins.eraseIdx i
    pipes := vecUpd c.pipes pipe (fun p => { p with braids := p.braids ++ [braidOfBin b], drawn := s.now core + 1 }) }) = u
  have hblocks : ((u.countEvent core 4 1).frameAtDraw core (m :: ms)).blocks = [] := by
    have hframes := (State.frameAtDraw_framesOnly (u.countEvent core 4 1) core (m :: ms)).body.blocks
    have hnone : (u.countEvent core 4 1).blocks = [] := by rw [← hu]; exact h
    rwa [hnone, List.map_nil, List.map_eq_nil_iff] at hframes
  rw [(State.easePressure_core _ core).2, State.modeAtDraw_pipes (State.oneFrame_of_no_blocks hblocks m ms), State.frameAtDraw_pipes,
    State.countEvent, State.core_updCore_self, ← hu, State.core_updCore_self]

/-! ### A thread that is filed and in a braid at once -/

/-- A core whose one bin and whose pipe 0 both hold thread 0 of a block: the bin has become aged, and only pipe 0 may draw. -/
def filedMemberCore : CoreState :=
  { CoreState.zero with
    bins := [{ bid := 0, pc := 0, threads := [(0, 0)], aged := false }]
    pipes := #v[{ braids := [{ bid := 0, pc := 0, members := [(0, 0)], count := 0, last := none, idle := 0, expanded := false }],
                  busy := 0, drawn := 0, held := none },
                { braids := [], busy := 0, drawn := 101, held := none }, { braids := [], busy := 0, drawn := 101, held := none },
                { braids := [], busy := 0, drawn := 101, held := none }] }

def filedMember : State :=
  { State.reset with cores := [(0, filedMemberCore)], doms := [(0, { DomState.zero with cycles := 100 })] }

theorem filedMember_draws : exec (.braidDraw 0) filedMember =
    .next (filedMember.drawBin 0 0 0 { bid := 0, pc := 0, threads := [(0, 0)], aged := false }) := by
  have hdraw := State.drawInto_eq (s := filedMember) (core := 0) (pipe := 0) (i := 0)
    (b := { bid := 0, pc := 0, threads := [(0, 0)], aged := false }) (by decide) (by decide) rfl
  have hbins := filedMember.drawBin_bins 0 0 0 { bid := 0, pc := 0, threads := [(0, 0)], aged := false }
  refine congrArg Host.Outcome.next ?_
  show ((((filedMember.drawInto 0 0).drawInto 0 1).drawInto 0 2).drawInto 0 3) = _
  rw [hdraw, State.drawInto_of_no_bins hbins, State.drawInto_of_no_bins hbins, State.drawInto_of_no_bins hbins]

/-- Refutes O55: a pipe that draws a bin whose thread is already a member of a braid of this pipe puts that braid in expanded mode, so
that it does not hold its earlier braids as they were with the new one behind them. -/
theorem not_binsAndBraids : ¬ Obligations.BinsAndBraids := by
  unfold Obligations.BinsAndBraids
  intro h
  obtain ⟨-, -, -, hdraw, -⟩ := h filedMember 0
  obtain ⟨b, -, -, -, -, hpipe⟩ := hdraw 0 (by decide)
  obtain ⟨t, br, hexec, -, ⟨p, hp, hbraids, -⟩, -⟩ := hpipe 0 _ (by decide) rfl (by decide) (by decide) (by decide)
  rw [filedMember_draws, Host.Outcome.next.injEq] at hexec
  have hpipes := State.drawBin_pipes (s := filedMember) rfl 0 0 0 (b := { bid := 0, pc := 0, threads := [(0, 0)], aged := false })
    (m := (0, 0)) (ms := []) (by decide)
  rw [← hexec, hpipes] at hp
  rw [Vector.toList_map, List.getElem?_map, Option.map_eq_some_iff] at hp
  obtain ⟨q, hq, rfl⟩ := hp
  obtain rfl := Option.some.inj hq
  have hmode : some true = some false := congrArg (fun l : List Braid => l.head?.map Braid.expanded) hbraids
  exact absurd hmode (by decide)

end Sys2Proof.Machine
end
